-- ==== Sys2Proof/Syntax.lean ====
section
/-! DEFINITION. The commands of the module: one constructor per row of the table of operations and events.
A core is named by its index k (R11), a port by its number p (R240), a handle by its index h (R293). -/

namespace Sys2Proof

/-- The five engines of a core and their streams (R18), in the order in which waits are tested (R140). -/
inductive Engine where
  | mx
  | vx
  | dx
  | nx
  | sx
deriving DecidableEq, Repr

/-- Who makes an access to the control space (R440, R497, R499): a host session, the management interface, JTAG. -/
inductive Who where
  | session (n : Nat)
  | mgmt
  | jtag
deriving DecidableEq, Repr

/-- Where a host-transport datagram comes from: the plane-A port, the source address and UDP port, the address family. -/
structure Sender where
  port : Nat
  ip : BitVec 128
  udp : BitVec 16
  v6 : Bool
deriving DecidableEq, Repr

/-- The commands, each whole and indivisible. -/
inductive Instr where
  /-- TLOAD (R82). MX issues a tile load of a weight tile from stock into buffer T0 or T1. -/
  | tload (k : Nat)
  /-- TLOAD_COMPLETE (R85). A tile load finishes its last port cycle; the buffer becomes READY or poisoned, and the load's signals take effect. -/
  | tloadComplete (k : Nat)
  /-- MMA (R92). MX issues a multiply of activation rows through a tile buffer into an accumulator bank; the write check and the refusal checks are made at issue. -/
  | mma (k : Nat)
  /-- MMA_ROW_ENTRY (R92). An activation row enters the array once its lines are read and its buffer is loaded. -/
  | mmaRowEntry (k : Nat)
  /-- MMA_ROW_WRITE (R95). A row's contributions are written to its accumulator row, by acc_add or overwrite, with poison and saturation counting. -/
  | mmaRowWrite (k : Nat)
  /-- MMA_COMPLETE (R92). An MMA completes with its last row write, or at u+E+D when refused; WRITERS falls and its signals take effect. -/
  | mmaComplete (k : Nat)
  /-- VCFG (R128). VX issues a load of one configuration line into a configuration slot. -/
  | vcfg (k : Nat)
  /-- VTAB (R128). VX issues a load of one or two lines into a table slot. -/
  | vtab (k : Nat)
  /-- TABLE_LOAD_COMPLETE (R128). A VCFG or VTAB takes effect at max(u+N+1, X+1), after earlier VRUNs have exited. -/
  | tableLoadComplete (k : Nat)
  /-- VRUN (R127). VX issues a run of vectors through a configuration; the configuration and the refusal checks are made at the check cycle. -/
  | vrun (k : Nat)
  /-- VRUN_VECTOR_ENTRY (R127). A vector enters the chain; an ACC source takes its read check and changes READERS. -/
  | vrunVectorEntry (k : Nat)
  /-- VRUN_LINE_WRITE (R124). An output data, scale or count line of a VRUN is written in its slot, subject to the keep-region and bin checks. -/
  | vrunLineWrite (k : Nat)
  /-- VRUN_COMPLETE (R127). A VRUN completes with its last write, or at c+EV+28 when refused or skipped, and performs its signals. -/
  | vrunComplete (k : Nat)
  /-- DPAT (R174). DX sets its fill pattern FILLPAT. -/
  | dpat (k : Nat)
  /-- DFILL (R56). DX fills n lines of scratchpad or stock with FILLPAT. -/
  | dfill (k : Nat)
  /-- DCOPY (R56). DX copies n lines within the scratchpad or within the stock, handling overlap correctly. -/
  | dcopy (k : Nat)
  /-- DLD (R177). DX moves lines from stock to scratchpad. -/
  | dld (k : Nat)
  /-- DST (R177). DX moves lines from scratchpad to stock. -/
  | dst (k : Nat)
  /-- DACR (R177). DX moves accumulator rows, packed, into scratchpad lines. -/
  | dacr (k : Nat)
  /-- DACW (R177). DX unpacks scratchpad lines into accumulator rows. -/
  | dacw (k : Nat)
  /-- DX_UNIT_TRANSFER (R179). A DX unit is read, or written DDX cycles after its read, once any contention or TLOAD port cycles have passed. -/
  | dxUnitTransfer (k : Nat)
  /-- DX_COMPLETE (R179). A DX operation completes at u+EDX+T-1+DDX, or at u+EDX+DDX when refused, and performs its signals. -/
  | dxComplete (k : Nat)
  /-- NPUT (R183). NX issues a remote write of lines into a window, plain or accumulating. -/
  | nput (k : Nat)
  /-- NTUP (R185). NX issues a posted tuple of 1 to 8 words into a window. -/
  | ntup (k : Nat)
  /-- NRING (R308). NX issues one ring message of 1 to 16 lines. -/
  | nring (k : Nat)
  /-- NREQ (R311). NX issues a request to read lines from a remote read window. -/
  | nreq (k : Nat)
  /-- NWAIT (R186). NX issues a wait on a handle's status word COUNT. -/
  | nwait (k : Nat)
  /-- NWAIT_COMPLETE (R297). An NWAIT's read of the status word finds its condition, an error flag or an unusable handle, and it completes. -/
  | nwaitComplete (k : Nat)
  /-- NX_PACKET_ACCEPT (R187). The core's router accepts an NX packet once credit, throttling and reply reservation allow; the send completes after its last packet. -/
  | nxPacketAccept (k : Nat)
  /-- NI_THROTTLE_PERIOD (R288). An injection-throttling period ends and the REQ and FWD flit counts restart. -/
  | niThrottlePeriod (k : Nat)
  /-- SNOP (R147). An engine stream issues an SNOP, which completes at once and performs its signals. -/
  | snop (k : Nat) (e : Engine)
  /-- SLOOP (R148). An engine stream sets up a loop over the next BODY instructions for ITER iterations. -/
  | sloop (k : Nat) (e : Engine)
  /-- SEND (R150). A stream issues its end instruction. -/
  | send (k : Nat) (e : Engine)
  /-- SEND_COMPLETE (R150). SEND completes when every earlier operation of its stream has completed, and the stream enters ENDED. -/
  | sendComplete (k : Nat) (e : Engine)
  /-- ISLAND_HANG (R153). The end-of-cycle check finds the core hung, records 0x0202 and abandons every stream in WAIT_CTR. -/
  | islandHang (k : Nat)
  /-- SERVICE_FORCED (R54). A service request that has waited 64 cycles for its bank takes the next slot ahead of every island port. -/
  | serviceForced (k : Nat) (e : Engine)
  /-- ADD (R194). SX OP function ADD. -/
  | add (k : Nat)
  /-- SUB (R194). SX OP function SUB. -/
  | sub (k : Nat)
  /-- AND (R194). SX OP function AND. -/
  | and (k : Nat)
  /-- OR (R194). SX OP function OR. -/
  | or (k : Nat)
  /-- XOR (R194). SX OP function XOR. -/
  | xor (k : Nat)
  /-- SLL (R194). SX OP function shift left logical. -/
  | sll (k : Nat)
  /-- SRL (R194). SX OP function shift right with zero fill. -/
  | srl (k : Nat)
  /-- SRA (R194). SX OP function shift right with sign fill. -/
  | sra (k : Nat)
  /-- SLT (R194). SX OP function signed set-less-than. -/
  | slt (k : Nat)
  /-- SLTU (R194). SX OP function unsigned set-less-than. -/
  | sltu (k : Nat)
  /-- MUL (R194). SX OP function giving the low 32 bits of a product. -/
  | mul (k : Nat)
  /-- ADDI (R193). SX adds a sign-extended immediate. -/
  | addi (k : Nat)
  /-- ANDI (R193). SX ANDs with a zero-extended immediate. -/
  | andi (k : Nat)
  /-- ORI (R193). SX ORs with a zero-extended immediate. -/
  | ori (k : Nat)
  /-- XORI (R193). SX XORs with a zero-extended immediate. -/
  | xori (k : Nat)
  /-- LUI (R193). SX loads an immediate into the upper half of a register. -/
  | lui (k : Nat)
  /-- SHI (R193). SX shifts by an immediate amount, of the kind the immediate selects. -/
  | shi (k : Nat)
  /-- SLTI (R193). SX makes a signed compare with an immediate. -/
  | slti (k : Nat)
  /-- LDW (R196). SX loads a narrow scratchpad word. -/
  | ldw (k : Nat)
  /-- STW (R196). SX stores a narrow scratchpad word, which may be a release word. -/
  | stw (k : Nat)
  /-- LDP (R197). SX loads a word pair in one slot. -/
  | ldp (k : Nat)
  /-- CRD (R198). SX reads a register of its own core block. -/
  | crd (k : Nat)
  /-- CWR (R198). SX writes IBANK.NEXT, REGION_NEXT or REGION_CTRL.APPLY. -/
  | cwr (k : Nat)
  /-- SX_ACCESS (R207). An SX memory or register access takes effect ESX cycles after issue, or later if it loses its slot. -/
  | sxAccess (k : Nat)
  /-- BEQ (R200). SX branches when two registers are equal. -/
  | beq (k : Nat)
  /-- BNE (R200). SX branches when two registers differ. -/
  | bne (k : Nat)
  /-- BLT (R200). SX branches on signed less-than. -/
  | blt (k : Nat)
  /-- BGE (R200). SX branches on signed greater-or-equal. -/
  | bge (k : Nat)
  /-- BLTU (R200). SX branches on unsigned less-than. -/
  | bltu (k : Nat)
  /-- BGEU (R200). SX branches on unsigned greater-or-equal. -/
  | bgeu (k : Nat)
  /-- DBNZ (R193). SX decrements a register and branches when the result is not zero. -/
  | dbnz (k : Nat)
  /-- JAL (R200). SX jumps relative and links. -/
  | jal (k : Nat)
  /-- JR (R200). SX jumps to the index held in a register. -/
  | jr (k : Nat)
  /-- SWAIT (R202). SX waits on a sync counter threshold. -/
  | swait (k : Nat)
  /-- SSIG (R202). SX signals a sync counter. -/
  | ssig (k : Nat)
  /-- SDLY (R206). SX delays its next issue by n cycles. -/
  | sdly (k : Nat)
  /-- AWAIT (R203). SX waits on a handle's status word and then signals a counter. -/
  | await (k : Nat)
  /-- AWAIT_COMPLETE (R203). An AWAIT read finds its test, a flag or an unusable handle, completes and signals its counter. -/
  | awaitComplete (k : Nat)
  /-- HOPEN (R298). SX passes a handle descriptor to the channel and window unit to open an entry. -/
  | hopen (k : Nat)
  /-- HOPEN_COMPLETE (R298). HOPEN completes at u+ESX+4 with the handle or a refusal in rd. -/
  | hopenComplete (k : Nat)
  /-- HCLOSE (R313). SX closes a handle, with drain or at once. -/
  | hclose (k : Nat)
  /-- HCLOSE_COMPLETE (R313). HCLOSE completes at u+ESX+1, and the handle is no longer usable from then. -/
  | hcloseComplete (k : Nat)
  /-- XLAT (R205). SX translates a value through a table of the core's address patch unit. -/
  | xlat (k : Nat)
  /-- SX_SEND (R201). SX issues its end instruction. -/
  | sxSend (k : Nat)
  /-- BURNISH_READ (R69). Every PERIOD+2 steady ticks, burnish reads the next stock line, correcting or marking its words. -/
  | burnishRead (k : Nat)
  /-- PUT (R303). An arriving PUT packet is checked and placed into a window, plain or accumulating. -/
  | put (i : Nat)
  /-- TUP (R303). An arriving tuple packet is checked and placed into a window. -/
  | tup (i : Nat)
  /-- RING (R309). An arriving ring message is checked and placed, with its record word and any skip record. -/
  | ring (i : Nat)
  /-- REQ (R311). An arriving read request is served from a read window and answered with an RPL. -/
  | req (i : Nat)
  /-- RPL (R312). An arriving reply is matched to its reservation and written at the requester. -/
  | rpl (i : Nat)
  /-- GRANT (R307). An arriving GRANT raises the sender's CREDIT up to its ceiling. -/
  | grant (i : Nat)
  /-- YIELD (R317). An arriving YIELD adds returned credit to the owner slot's YIELDED count. -/
  | yield (i : Nat)
  /-- YIELD_SEND (R317). After every NX operation on a closed sender handle has completed, the unit sends a YIELD of the remaining credit. -/
  | yieldSend (k : Nat) (h : Nat)
  /-- CLOSE_DRAIN_COMPLETE (R314). A CLOSING owner entry becomes CLOSED with GEN+1 once every granted credit has been used or returned. -/
  | closeDrainComplete (k : Nat) (h : Nat)
  /-- CREDIT_WATCHDOG (R319). The credit watchdog expires; the waiting send is abandoned and 0x0418 is recorded. -/
  | creditWatchdog (k : Nat)
  /-- ARRIVAL_WATCHDOG (R320). The arrival watchdog expires; the wait ends and 0x0419 is recorded. -/
  | arrivalWatchdog (k : Nat) (e : Engine)
  /-- PACKET_ROUTE (R277). A packet at a module's router is given its exit, or is discarded under the routing checks. -/
  | packetRoute (i : Nat)
  /-- RESERVATION_GRANT (R281). A packet bound for a logical port is granted a reservation in a member's transmit pool and enters the mesh. -/
  | reservationGrant (i : Nat)
  /-- CODEWORD_TRANSMIT (R283). At a codeword boundary, a port sends an LCW, a POISON codeword, a replay or a DATA codeword chosen by arbitration and the calendar. -/
  | codewordTransmit (p : Nat)
  /-- DATA_CODEWORD (R249). A received DATA codeword is accepted in sequence or discarded, and its flits enter the receive buffers. -/
  | dataCodeword (p : Nat) (fix : Bool) (seq : BitVec 12) (vc : Nat) (flits : List (List (BitVec 64)))
  /-- POISON_CODEWORD (R246). A received POISON codeword supplies the poison map of the next sequenced codeword. -/
  | poisonCodeword (p : Nat) (fix : Bool) (seq : BitVec 12) (map : BitVec 80)
  /-- IDLE_CODEWORD (R249). A received IDLE codeword checks its sequence field. -/
  | idleCodeword (p : Nat) (fix : Bool) (seq : BitVec 12)
  /-- LCW (R252). A received link-control codeword updates ACK, credit, XOFF and the peer record. -/
  | lcw (p : Nat) (fix : Bool) (seq : BitVec 12) (ack : BitVec 12) (nak : Bool) (credit : List (BitVec 16)) (xoff : BitVec 10) (record : Option (BitVec 128))
  /-- UNCORRECTABLE_CODEWORD (R249). An uncorrectable codeword is discarded, counted, and puts the receiver into NAK state. -/
  | uncorrectableCodeword (p : Nat)
  /-- REPLAY_TIMEOUT (R250). The oldest unacknowledged codeword passes REPLAY_TIMEOUT, and a replay starts. -/
  | replayTimeout (p : Nat)
  /-- LANE_LOSS (R264). A lane loses signal, clock lock or codeword lock, and the port goes down with 0x0501. -/
  | laneLoss (p : Nat) (l : Nat)
  /-- TRAINING_COMPLETE (R258). Training locks every lane and codeword, and the port enters DISCOVER. -/
  | trainingComplete (p : Nat)
  /-- TRAINING_TIMEOUT (R258). Training fails to reach DISCOVER in time; the port enters NO_PEER with 0x0504. -/
  | trainingTimeout (p : Nat)
  /-- NO_PEER_RETRY (R258). A port in NO_PEER retries training every 10 ms. -/
  | noPeerRetry (p : Nat)
  /-- RETRAIN (R267). A port in DOWN with RETRAIN set begins a fresh training after 1,000 steady ticks. -/
  | retrain (p : Nat)
  /-- DISCARD_EPISODE_END (R265). A discard episode ends after 2^16 ticks or when the port becomes usable, and 0x050A is recorded. -/
  | discardEpisodeEnd (p : Nat)
  /-- MODULE_FINISHED (R325). The module becomes finished, launches the first PART wave and, in twin mode, sends its twin summary. -/
  | moduleFinished
  /-- WAVE_CONTRIBUTION (R329). A hub receives a CTL wave packet, combines, relays and, at the end of the last stage, holds the result. -/
  | waveContribution (i : Nat)
  /-- BLANK (R338). After COMMIT, the blank restores every attached core to the starting state over 1,024 cycles. -/
  | blank
  /-- PASS_START (R151). The blank ends and every stream begins at index 0 at cycle S. -/
  | passStart
  /-- DRAIN_WATCHDOG (R342). A PART wave brings no decision within the drain limit; FAIL and DRAINX are set and 0x0260 is recorded. -/
  | drainWatchdog
  /-- LOST_WATCHDOG (R342). A wave does not complete within its limit, and the module enters LOST with 0x0261. -/
  | lostWatchdog
  /-- HOLD (R336). A write of BAR_CTRL.HOLD in HELD launches a HOLD wave. -/
  | hold (v : BitVec 32)
  /-- ATTACH (R341). BAR_CTRL.ATTACH enrols the masked cores in a job and enters HELD, or is refused. -/
  | attach (v : BitVec 32) (bad : List Nat)
  /-- DETACH (R341). BAR_CTRL.DETACH detaches every attached core and enters DETACHED. -/
  | detach (v : BitVec 32)
  /-- ABORT (R341). BAR_CTRL.ABORT stops every attached core at once and leaves the job without a parting. -/
  | abort (v : BitVec 32)
  /-- RESTART (R342). BAR_CTRL.RESTART in LOST launches a fresh wave of the pending kind. -/
  | restart (v : BitVec 32)
  /-- RESTART_FAIL (R342). BAR_CTRL.RESTART_FAIL in LOST launches a settled PART wave that decides FAILED. -/
  | restartFail (v : BitVec 32)
  /-- TICKET_DELIVERY (R447). After the pass starts at the target core, the hub sends the pass's tickets in RSEQ order as credit allows. -/
  | ticketDelivery
  /-- TIER2_STREAM_SEND (R382). The hub sends a verified tier-2 shard into its stream window once credit covers it. -/
  | tier2StreamSend (n : Nat)
  /-- OUTPUT_RELEASE (R426). The hub begins releasing the next releasable output to the host as OUTPUT messages, in pass order. -/
  | outputRelease
  /-- OUTPUT_RESEND (R449). OUT_TIMEOUT passes without ACKED advancing, and the hub resends the output from line ACKED. -/
  | outputResend
  /-- SREQ (R372). An arriving Finfin request is served with SDATA or answered SNONE. -/
  | sreq (i : Nat)
  /-- SDATA (R373). An arriving Finfin data packet is collected, and a complete object is verified against its digest. -/
  | sdata (i : Nat)
  /-- SNONE (R373). An arriving SNONE makes the requester try the next holder. -/
  | snone (i : Nat)
  /-- FINFIN_REQUEST (R370). Finfin sends a shard or manifest request once a hub buffer is reserved. -/
  | finfinRequest
  /-- SHARD_TIMEOUT (R373). An attempt sees no LAST packet within FINFIN_SHARD_TIMEOUT; 0x0804 is recorded and the next holder is tried. -/
  | shardTimeout
  /-- LOAD (R364). FINFIN_CTRL.LOAD starts loading an edition slot. -/
  | load (v : BitVec 32)
  /-- FINFIN_ABORT (R364). FINFIN_CTRL.ABORT empties a LOADING slot at once. -/
  | finfinAbort (v : BitVec 32)
  /-- REPAIR (R375). FINFIN_CTRL.REPAIR starts the repair of every damaged shard. -/
  | repair (v : BitVec 32)
  /-- ACTIVATE (R364). WEIGHT_EDITION.ACTIVATE requests a latch, or latches at once while DETACHED. -/
  | activate (v : BitVec 32)
  /-- RELEASE (R364). A RELEASE bit empties an edition slot, at once or at the next successful parting, or is refused. -/
  | release (v : BitVec 32)
  /-- TSUM (R400). An arriving twin summary is compared with the module's own write sums. -/
  | tsum (i : Nat)
  /-- TWIN_WATCHDOG (R401). No partner summary arrives in time; FAIL is set and 0x0905 is recorded. -/
  | twinWatchdog
  /-- JOURNAL_EXPORT (R407). The hub exports a batch of records to the store ring by RDMA WRITE. -/
  | journalExport
  /-- JOURNAL_CONSUMED_POLL (R407). Every 1 ms the hub reads the store's consumed RSEQ and frees exported records. -/
  | journalConsumedPoll
  /-- JOURNAL_EXPORT_RETRY (R407). After a failed export connection, the hub retries every 10 ms. -/
  | journalExportRetry
  /-- SEAL (R405). JRNL_CTRL.SEAL starts the hash of a bank across the attached cores. -/
  | seal (v : BitVec 32)
  /-- SEAL_COMPLETE (R405). The seal hash completes and SEALEDb is set. -/
  | sealComplete
  /-- SNAP (R403). JRNL_CTRL.SNAP writes a KEEPSNAP record while HELD. -/
  | snap (v : BitVec 32)
  /-- CHECKPOINT (R406). JRNL_CTRL.CHECKPOINT writes a signed CHECKPOINT record. -/
  | checkpoint (v : BitVec 32)
  /-- HELLO (R487). A SOPEN HELLO opens an unproved session and returns a nonce and an attestation report. -/
  | hello (src : Sender) (seq : BitVec 32) (nonce : List (BitVec 8))
  /-- PROVE (R487). A SOPEN PROVE proves a session with an owner key, or closes it with 0x0705. -/
  | prove (src : Sender) (seq : BitVec 32) (n : Nat) (key : Nat) (sig : List (BitVec 8))
  /-- SCLOSE (R437). A host closes its session. -/
  | sclose (src : Sender) (n : Nat) (seq : BitVec 32)
  /-- RD (R440). A host reads control-space words in ascending order, with the reply split by MTU. -/
  | rd (src : Sender) (n : Nat) (seq : BitVec 32) (addr : BitVec 32) (count : Nat)
  /-- WR (R440). A host writes control-space words in ascending order, and the reply counts refused and unmapped words. -/
  | wr (src : Sender) (n : Nat) (seq : BitVec 32) (addr : BitVec 32) (words : List (BitVec 32))
  /-- TICKET (R446). A host submits a pass input ticket, which is checked, journalled and stored. -/
  | ticket (src : Sender) (n : Nat) (seq : BitVec 32) (pass : BitVec 64) (tkt : Nat) (lines : Nat) (line : Nat) (tag : BitVec 64) (data : List (BitVec 8))
  /-- OACK (R449). A host acknowledges the output lines it holds in order. -/
  | oack (src : Sender) (n : Nat) (pass : BitVec 64) (id : Nat) (acked : Nat)
  /-- SESSION_TIMEOUT (R488). An unproved session closes 1 s after its HELLO. -/
  | sessionTimeout (n : Nat)
  /-- ARP_REQUEST (R434). A port answers ARP for its own IPv4 address. -/
  | arpRequest (e : Nat) (ip : BitVec 32)
  /-- NEIGHBOR_DISCOVERY (R434). A port answers IPv6 neighbour discovery for its own address. -/
  | neighborDiscovery (e : Nat) (ip : BitVec 128)
  /-- ICMP_ECHO (R434). A port answers ICMP or ICMPv6 echo. -/
  | icmpEcho (e : Nat) (v6 : Bool) (ip : BitVec 128) (data : List (BitVec 8))
  /-- PAUSE_FRAME (R433). A received PAUSE frame is discarded and counted in ETH_DROP. -/
  | pauseFrame (e : Nat)
  /-- PFC_FRAME (R433). A received priority flow control frame is honoured on plane B or discarded on plane A. -/
  | pfcFrame (e : Nat) (prio : BitVec 8) (time : BitVec 16)
  /-- ETH_FRAME_DISCARD (R434). A frame for no accepted protocol is discarded and counted. -/
  | ethFrameDiscard (e : Nat)
  /-- ETH_LINK_CHANGE (R435). An Ethernet port loses or regains link and records 0x0460. -/
  | ethLinkChange (e : Nat) (up : Bool)
  /-- ROCE_RESPONSE (R443). A RoCEv2 response arrives on a configured plane-B connection. -/
  | roceResponse (c : Nat) (ok : Bool) (data : List (BitVec 8))
  /-- ROCE_REQUEST_NAK (R443). A request that arrives at a module queue pair is answered with a remote-access NAK. -/
  | roceRequestNak (c : Nat)
  /-- CNP (R443). A received congestion notification halves the connection's sending rate. -/
  | cnp (c : Nat)
  /-- RATE_RESTORE (R443). Every 50 µs without a CNP, the connection restores 1/16 of its rate. -/
  | rateRestore (c : Nat)
  /-- ROCE_ACK_TIMEOUT (R444). A local acknowledgement timeout retries, and after 7 retries the connection enters ERROR with 0x0461. -/
  | roceAckTimeout (c : Nat)
  /-- ROCE_REESTABLISH (R444). A connection in ERROR is re-established every 10 ms. -/
  | roceReestablish (c : Nat)
  /-- MGMT_READ (R497). A management-interface read of control-space words. -/
  | mgmtRead (addr : BitVec 32) (count : Nat)
  /-- MGMT_WRITE (R497). A management-interface write of control-space words. -/
  | mgmtWrite (addr : BitVec 32) (words : List (BitVec 32))
  /-- MGMT_DYNAMIC_ADDRESS (R497). The I3C target accepts a dynamic address by SETDASA or ENTDAA. -/
  | mgmtDynamicAddress (a : BitVec 7)
  /-- BYPASS (R499). JTAG BYPASS instruction. -/
  | bypass
  /-- IDCODE (R499). JTAG IDCODE instruction returning the part's identification code. -/
  | idcode
  /-- SAMPLE_PRELOAD (R499). JTAG SAMPLE/PRELOAD instruction on the J2 boundary-scan register. -/
  | samplePreload (pins : BitVec 60) (load : BitVec 60)
  /-- EXTEST (R499). JTAG EXTEST drives J2 pins, taken as BYPASS while any core is attached. -/
  | extest (pins : BitVec 60) (load : BitVec 60)
  /-- DBGACC (R499). JTAG debug access to control-space words, when SEC_DEBUG.ENABLE is set. -/
  | dbgacc (write : Bool) (addr : BitVec 32) (count : Nat) (words : List (BitVec 32))
  /-- STANDBY_POWER_UP (R479). Standby power reaches the steady domain; the counts and the fault log start and the ROM derives identity. -/
  | standbyPowerUp (seed0 : Option (List (BitVec 8))) (seed1 : Option (List (BitVec 8))) (cert : List (BitVec 8)) (mac : BitVec 48) (slot : BitVec 3) (bench : BitVec 13) (smbus : Bool) (refA : Bool) (refB : Bool)
  /-- STANDBY_POWER_DOWN (R494). The input falls through 30 V and the standby converter stops. -/
  | standbyPowerDown
  /-- IMAGE_CHECK (R481). The ROM finishes reading a firmware candidate, then boots it or refuses it. -/
  | imageCheck
  /-- MAIN_REGULATION (R501). The main converters reach regulation, and the power-up self-test begins. -/
  | mainRegulation
  /-- SELF_TEST_COMPLETE (R501). The self-test ends, sets ID_HEALTH and MESH_STATUS, reads the owner record and starts link training. -/
  | selfTestComplete (failed : List Nat) (crossings : List (Nat × Nat)) (bridges : BitVec 4) (stops : Nat)
  /-- MOD_RESET_ASSERT (R500). MOD_RESET_N falls: main power turns off, and 0x0641 is recorded if a core is attached. -/
  | modResetAssert
  /-- MOD_RESET_RELEASE (R500). MOD_RESET_N rises, the straps are sampled and boot resumes at step 3. -/
  | modResetRelease (slot : BitVec 3) (bench : BitVec 13) (smbus : Bool)
  /-- PROGRAM (R490). SEC_CTRL.PROGRAM erases and programs 64 KiB of flash from SEC_WIN, or is refused. -/
  | program (w : Who)
  /-- PROGRAM_COMPLETE (R490). A flash command finishes, BUSY clears and the next waiting command runs. -/
  | programComplete
  /-- FLOOR_COMMIT (R482). SEC_CTRL.FLOOR_COMMIT raises the rollback floor to the running SVN, or is refused. -/
  | floorCommit (w : Who)
  /-- OWNER_COMMIT (R486). SEC_CTRL.OWNER_COMMIT offers a new owner record, which is accepted or refused. -/
  | ownerCommit (w : Who)
  /-- REF_NO_EDGE (R455). A reference shows no edge for 100 ns and is lost; the monitor switches over or enters holdover. -/
  | refNoEdge (r : Nat)
  /-- REF_MONITOR_WINDOW (R454). A 2.56 µs measurement window ends; a reference that departs by more than 500 ppm is lost. -/
  | refMonitorWindow (r : Nat) (off : BitVec 16) (drift : Bool)
  /-- REF_PRESENT (R455). A reference has stayed within 200 ppm for 10 ms, becomes present and may end holdover. -/
  | refPresent (r : Nat)
  /-- REF_REVERT (R455). With REVERT set, the monitor returns to the preferred reference after 1 s of presence. -/
  | refRevert
  /-- CYCLE_STRETCH (R460). A region's droop detector stretches one cycle and counts it in CLK_STRETCH. -/
  | cycleStretch (k : Nat)
  /-- DROOP_WINDOW (R462). A 100 µs window in which more than 1/16 of cycles stretched raises the DROOP demand. -/
  | droopWindow (k : Nat)
  /-- THERMAL_DEMAND_RAISE (R462). Every 100 µs at or above THROTTLE_T, the THERMAL demand rises by 1. -/
  | thermalDemandRaise (n : Nat) (t : BitVec 16)
  /-- THERMAL_DEMAND_LOWER (R462). Every 1 ms with every sensor cool, the THERMAL demand falls by 1. -/
  | thermalDemandLower (t : BitVec 16)
  /-- POWER_DEMAND_RAISE (R462). Every 100 µs above PWR_LIMIT, the POWER demand rises by 1. -/
  | powerDemandRaise
  /-- POWER_DEMAND_LOWER (R462). Every 1 ms at or below 95% of PWR_LIMIT, the POWER demand falls by 1. -/
  | powerDemandLower
  /-- DROOP_DEMAND_LOWER (R462). Every 1 ms without an excessive droop window, the DROOP demand falls by 1. -/
  | droopDemandLower
  /-- JUNCTION_OVER_95C (R470). A junction reaches 95 °C; the THERMAL demand goes to 8 and 0x0622 is recorded. -/
  | junctionOver95c (n : Nat) (t : BitVec 16)
  /-- THERMAL_TRIP (R470). A junction reaches 105 °C, and the main converters turn off with 0x0623. -/
  | thermalTrip (n : Nat) (t : BitVec 16)
  /-- INPUT_VOLTAGE_EXCURSION (R469). The input leaves 40 to 58 V, and 0x0624 is recorded. -/
  | inputVoltageExcursion
  /-- UNDERVOLTAGE (R469). The input stays below 38 V for 100 µs, and the main converters turn off with 0x0625. -/
  | undervoltage
  /-- TELEMETRY_UPDATE (R471). Every 1,000 steady ticks, the energy counters accumulate. -/
  | telemetryUpdate (energy : List Nat) (pin : BitVec 16) (vin : BitVec 16) (inlet : BitVec 16) (outlet : BitVec 16) (temps : List (BitVec 16))
  /-- CORE_STOP (R465). The sleep conditions hold for STOP_DELAY+1 cycles, and the island clock stops. -/
  | coreStop (k : Nat)
  /-- RETAIN_ENTRY (R465). All 8 cores of a group stay in STOP for RETAIN_DELAY+1 ticks, and the group enters RETAIN. -/
  | retainEntry (g : Nat)
  /-- WAKE (R465). A wake event restarts a core from STOP, RETAIN or OFF. -/
  | wake (k : Nat) (ok : Bool)
  /-- LINK_EDGE_GROUP_OFF (R464). A link-edge group whose ports have all been DISABLED for 1,000 ticks turns off. -/
  | linkEdgeGroupOff (g : Nat)
  /-- LASER_SETTLED (R464). After 10 ms of optical-engine laser settling, far-port training begins. -/
  | laserSettled (p : Nat)
  /-- PWR_OFF_REQ_WRITE (R466). A write of PWR_OFF_REQ turns unattached core groups off, or is refused with 0x0630. -/
  | pwrOffReqWrite (a : Nat) (v : BitVec 32)
  /-- CLR_CE (R58). MEM_CTRL.CLR_CE clears the scratchpad and stock corrected-error counts. -/
  | clrCe (k : Nat)
  /-- CLR_ERR (R269). LINK_CLR.CLR_ERR clears a port's error counters. -/
  | clrErr (p : Nat)
  /-- CLEAR (R432). FAULT_CTRL.CLEAR clears the fault log head, tail, lost count and every entry. -/
  | clear
  /-- FAULT_LOG_TAIL_WRITE (R432). A host write of FAULT_LOG_TAIL consumes entries unless it would move the tail backward or too far. -/
  | faultLogTailWrite (v : BitVec 32)
  /-- LATENCY_CONTRACT_WRITE (R217). A write of LATENCY_CONTRACT selects the contract in force, or is refused with 0x0109. -/
  | latencyContractWrite (v : BitVec 32)
  /-- LC_DECL_WRITE (R218). A write of LC_DECL to the active bank while attached is refused with 0x0103. -/
  | lcDeclWrite (a : Nat) (v : BitVec 32)
  /-- INSTRUCTION_WINDOW_WRITE (R155). A write through the instruction window or to SYNC_INIT is refused for the active bank while attached. -/
  | instructionWindowWrite (a : Nat) (v : BitVec 32)
  /-- BIN_DESC_WRITE (R60). A write of BIN_DESC is accepted only while detached or held, and otherwise records 0x030F. -/
  | binDescWrite (a : Nat) (v : BitVec 32)
  /-- REGION_DESC_WRITE (R72). A write of REGION_DESC is accepted only while detached or held, and otherwise records 0x030F. -/
  | regionDescWrite (a : Nat) (v : BitVec 32)
  /-- APERTURE_WRITE (R79). A host write through the memory aperture is written as a service access or refused with 0x0310. -/
  | apertureWrite (a : Nat) (v : BitVec 32)
  /-- APERTURE_READ (R79). A host read through the memory aperture reads one word of scratchpad or stock as a service access. -/
  | apertureRead (a : Nat)
  /-- GRID_VMAP_WRITE (R238). A write of GRID_VMAP is accepted only while detached or held, and otherwise records 0x0430. -/
  | gridVmapWrite (a : Nat) (v : BitVec 32)
  /-- PATCH_WRITE (R360). A write of PATCH_TAB or PATCH_VALID is accepted only while detached or held, and otherwise records 0x0433. -/
  | patchWrite (a : Nat) (v : BitVec 32)
  /-- ROUTING_REGISTER_WRITE (R291). A write of the routing registers, RANK_TABLE or the active calendar is refused while attached and not held. -/
  | routingRegisterWrite (a : Nat) (v : BitVec 32)
  /-- LINK_EXPECT_WRITE (R259). A write of LINK_EXPECT or LINK_EXPECT_ID triggers a new peer evaluation. -/
  | linkExpectWrite (a : Nat) (v : BitVec 32)
  /-- LINK_CFG_WRITE (R264). A write of LINK_CFG may disable or enable a port, or is refused for COMPAT and LEADER while attached. -/
  | linkCfgWrite (a : Nat) (v : BitVec 32)
  /-- CLK_CFG_WRITE (R473). A write of CLK_CFG that disables the active reference is taken as the loss of that reference. -/
  | clkCfgWrite (a : Nat) (v : BitVec 32)
  /-- PLB_CONN_WRITE (R453). A write of PLB_CONN is accepted only while VALID is 0; clearing VALID fails the operations in flight. -/
  | plbConnWrite (a : Nat) (v : BitVec 32)
  /-- PASS_CTRL_WRITE (R387). A write of PASS_CTRL.STRICT is accepted only while DETACHED, and otherwise records 0x0907. -/
  | passCtrlWrite (v : BitVec 32)
  /-- TWIN_CFG_WRITE (R399). A write of TWIN_CFG is accepted only while DETACHED and with STRICT set, and otherwise records 0x0907. -/
  | twinCfgWrite (v : BitVec 32)
  /-- BARRIER_CONFIG_WRITE (R343). A write of PASS_NUM, BAR_CFG, BAR_BOX, BAR_JOB_TAG, ATTACH_MASK or BAR_WAVE in a forbidden phase is refused with 0x0264. -/
  | barrierConfigWrite (a : Nat) (v : BitVec 32)
  /-- FINFIN_REGISTER_WRITE (R385). A write of a Finfin register at a forbidden time is refused with 0x0806. -/
  | finfinRegisterWrite (a : Nat) (v : BitVec 32)
  /-- DESCRIPTOR_WRITE (R453). A write of TKT_DESC or OUT_DESC while attached and not held is refused with 0x0463. -/
  | descriptorWrite (a : Nat) (v : BitVec 32)
  /-- LATCHING_READ (R104). A read of a _LO half of a 64-bit count latches its _HI half. -/
  | latchingRead (a : Nat)
  /-- REGISTER_WRITE (R23). A write of a register with no row of its own updates its RW fields, or completes without effect when unmapped. -/
  | registerWrite (w : Who) (a : Nat) (v : BitVec 32)
  /-- MALFORMED_DATAGRAM (R436). A host-transport datagram with a valid session and SEQ but an unknown TYPE, a wrong MAGIC, VER or LEN, or a non-zero reserved field is answered MALFORMED and consumes its SEQ. -/
  | malformedDatagram (src : Sender) (n : Nat) (seq : BitVec 32) (type : Nat)
  /-- FORWARDED_TICKET (R399). A shadow hub receives a ticket forwarded by its primary through the near pair, then journals it and delivers it in order. -/
  | forwardedTicket (pass : BitVec 64) (tkt : Nat) (lines : Nat) (line : Nat) (tag : BitVec 64) (data : List (BitVec 8))
  /-- INPUT_VOLTAGE_RETURN (R469). The busbar input returns into 40 to 58 V, which ends the excursion and lets the main converters start if the firmware has enabled them. -/
  | inputVoltageReturn
deriving DecidableEq, Repr

end Sys2Proof
end

