-- ==== Sys2Proof/Decode.lean ====
section
/-! DEFINITION. The command that a word spells. The table of operations gives no row any bits: the commands are accesses,
protocol events and ticks of engines, and no word names one. -/

namespace Sys2Proof

/-- The command that a word of nbits bits spells by the table's bits. No row of the table has bits, so no word spells one. -/
def decodeTableWord (_nbits _w : Nat) : Option Instr := none

end Sys2Proof
end

