-- ==== Sys2Proof/Word.lean ====
section
/-! DEFINITION. Words and their plainest arithmetic: widths, wrapping and clamping as R12 defines them. -/

namespace Sys2Proof

/-- One byte. -/
abbrev Byte := BitVec 8
/-- A narrow scratchpad word, an SX register, a control-space word. -/
abbrev Word32 := BitVec 32
/-- A stock word, a flit word, a fault detail. -/
abbrev Word64 := BitVec 64

/-- A word with its poison bit (R57, R67). -/
structure PWord (w : Nat) where
  val : BitVec w
  poison : Bool
deriving DecidableEq, Repr

/-- wrap_u(n, v) of R12. -/
def wrapU (n : Nat) (v : Int) : Nat := (v % (2 ^ n : Int)).toNat

/-- sat_u(n, v) of R12 for v not negative. -/
def satU (n v : Nat) : Nat := min v (2 ^ n - 1)

/-- sat_s(n, v) of R12. -/
def satS (n : Nat) (v : Int) : Int :=
  if v < -(2 ^ (n - 1) : Int) then -(2 ^ (n - 1) : Int)
  else if v > (2 ^ (n - 1) : Int) - 1 then (2 ^ (n - 1) : Int) - 1 else v

/-- sat_sym(q, v) of R12. -/
def satSym (q v : Int) : Int := if v < -q then -q else if v > q then q else v

/-- ceil(a / b). -/
def ceilDiv (a b : Nat) : Nat := (a + b - 1) / b

/-- A count of w bits that rises by n and never wraps. -/
def satInc {w : Nat} (c : BitVec w) (n : Nat) : BitVec w :=
  BitVec.ofNat w (min (c.toNat + n) (2 ^ w - 1))

/-- The bits [hi:lo] of a number (R9). -/
def bits (v hi lo : Nat) : Nat := (v / 2 ^ lo) % 2 ^ (hi + 1 - lo)

/-- Bit i of a number. -/
def bit (v i : Nat) : Bool := v.testBit i

/-- 1 for true, 0 for false. -/
def flag (b : Bool) : Nat := if b then 1 else 0

end Sys2Proof
end

