-- ==== Sys2Proof/Machine/Arith.lean ====
section
/-! DEFINITION. The arithmetic contract AC-1: formats, packing, accumulation, the tally, requantization, packing. -/

namespace Sys2Proof.Machine

/-! ## Formats (R31, R33) -/

def fmtInt8 : Nat := 0
def fmtInt4 : Nat := 1
def fmtInt2 : Nat := 2
def fmtTernary : Nat := 3
def fmtAcc : Nat := 4
def fmtS16 : Nat := 5
def fmtS32 : Nat := 6

/-- The two's-complement value of the low w bits of v. -/
def signed (w v : Nat) : Int :=
  let r := v % 2 ^ w
  if r < 2 ^ (w - 1) then (r : Int) else (r : Int) - (2 ^ w : Int)

/-- The element width of a format in bits (R31). -/
def fmtBits (f : Nat) : Nat :=
  if f = 0 then 8 else if f = 1 then 4 else if f = 2 then 2 else if f = 3 then 2
  else if f = 4 then 40 else if f = 5 then 16 else 32

/-- The value of the stored bits of an element (R31). The invalid ternary code 0b10 counts as 0 (R32). -/
def fmtValue (f v : Nat) : Int :=
  if f = 3 then (if v % 4 = 1 then 1 else if v % 4 = 3 then -1 else 0) else signed (fmtBits f) v

/-- Elements per 256-byte line (R34). -/
def perLine (f : Nat) : Nat := 2048 / fmtBits f

/-- The stored bits of element p of a byte run, packed by R34. -/
def packedBits (f : Nat) (bs : List Byte) (p : Nat) : Nat :=
  let w := fmtBits f
  if w ≤ 8 then bits ((bs.getD (p * w / 8) 0).toNat) (p * w % 8 + w - 1) (p * w % 8)
  else if w = 16 then (bs.getD (2 * p) 0).toNat + 256 * (bs.getD (2 * p + 1) 0).toNat
  else (bs.getD (4 * p) 0).toNat + 256 * (bs.getD (4 * p + 1) 0).toNat
    + 65536 * (bs.getD (4 * p + 2) 0).toNat + 16777216 * (bs.getD (4 * p + 3) 0).toNat

/-! ## Accumulation -/

def s40Max : Int := 549755813887
def s40Min : Int := -549755813888

/-- The sum of a list of integers. -/
def sumInt : List Int → Int
  | [] => 0
  | x :: r => x + sumInt r

/-- The dot product of two lists, as far as both go. -/
def dot : List Int → List Int → Int
  | x :: r, y :: t => x * y + dot r t
  | _, _ => 0

/-- The contribution to one output column (R38): `w` the 128 weights of the column, `a` the 128 activations, `sw` and
`sa` the four grain scales of each. -/
def contribution (w a : List Int) (sw sa : List Nat) : Int :=
  sumInt ((List.range 4).map fun g =>
    ((sw.getD g 0 : Nat) : Int) * ((sa.getD g 0 : Nat) : Int)
      * dot ((w.drop (32 * g)).take 32) ((a.drop (32 * g)).take 32))

/-- acc_add of R39: the new element, and whether it was clamped. -/
def accAdd (v c : Int) : Int × Bool :=
  if v = s40Max ∨ v = s40Min then (v, false)
  else let t := satS 40 (v + c); (t, t != v + c)

/-- lhs of R43. -/
def tallyLhs (contribs : List Int) : Nat := wrapU 16 (sumInt contribs)

/-- rhs of R43: `t` the check entries, `a` the activations, `sa` the grain scales. -/
def tallyRhs (t : List Nat) (a : List Int) (sa : List Nat) : Nat :=
  wrapU 16 (sumInt ((List.range 128).map fun k =>
    ((t.getD k 0 : Nat) : Int) * a.getD k 0 * ((sa.getD (k / 32) 0 : Nat) : Int)))

/-! ## Requantization -/

/-- rhe_shift of R44: p / 2^s rounded half to even. -/
def rheShift (p : Int) (s : Nat) : Int :=
  if s = 0 then p
  else
    let q := p / (2 ^ s : Int)
    let r := p - q * (2 ^ s : Int)
    let half : Int := (2 ^ (s - 1) : Int)
    if r > half ∨ (r = half ∧ q % 2 = 1) then q + 1 else q

/-- requant of R44: the result, and whether it was clamped. -/
def requant (v : Int) (m s w : Nat) : Int × Bool :=
  let q := rheShift (v * (m : Int)) s
  let y := satS w q
  (y, y != q)

/-- The largest magnitude of a list. -/
def maxAbs : List Int → Nat
  | [] => 0
  | x :: r => max x.natAbs (maxAbs r)

/-- The grain scale that PACK chooses (R45). -/
def packScale (m qmax : Nat) : Nat := min ((m + qmax - 1) / qmax) 255

/-- One element of pack_grain (R45): its value, and whether it was clamped. -/
def packElem (v : Int) (s qmax : Nat) : Int × Bool :=
  if s = 0 then (0, false)
  else
    let f := v / (s : Int)
    let r := v - f * (s : Int)
    let f' := if 2 * r > (s : Int) ∨ (2 * r = (s : Int) ∧ f % 2 = 1) then f + 1 else f
    let q := satSym (qmax : Int) f'
    (q, q != f')

/-- pack_grain of R45: the elements, the scale and the number clamped. -/
def packGrain (v : List Int) (int8 : Bool) : List Int × Nat × Nat :=
  let qmax := if int8 then 127 else 7
  let s := packScale (maxAbs v) qmax
  let r := v.map fun x => packElem x s qmax
  (r.map (·.1), s, (r.filter (·.2)).length)

end Sys2Proof.Machine
end

