-- ==== Sys2Proof/Machine/Crypto.lean ====
section
/-! DEFINITION. Checksums, digests and signatures: CRC-64 (R398), SHA-512 and Ed25519 of RFC 8032, which the spec names and
does not restate (log 9). -/

namespace Sys2Proof.Machine

/-- One bit of CRC-64 with the ECMA-182 polynomial, most significant bit first (R398). -/
def crcBit (c : Nat) : Nat :=
  if c / 2 ^ 63 % 2 = 1 then Nat.xor (c * 2 % 2 ^ 64) 0x42F0E1EBA9EA3693 else c * 2 % 2 ^ 64

def iter {α : Type} (f : α → α) : Nat → α → α
  | 0, a => a
  | n + 1, a => iter f n (f a)

def crcByte (c : Nat) (b : Byte) : Nat := iter crcBit 8 (Nat.xor c (b.toNat * 2 ^ 56))

/-- crc64 of R398: initial value 0, no reflection, no final XOR. -/
def crc64 (bs : List Byte) : Nat := bs.foldl crcByte 0

/-! ## SHA-512 (PRESUMED, log 9) -/

def shaK : List Nat :=
  [0x428A2F98D728AE22, 0x7137449123EF65CD, 0xB5C0FBCFEC4D3B2F, 0xE9B5DBA58189DBBC,
   0x3956C25BF348B538, 0x59F111F1B605D019, 0x923F82A4AF194F9B, 0xAB1C5ED5DA6D8118,
   0xD807AA98A3030242, 0x12835B0145706FBE, 0x243185BE4EE4B28C, 0x550C7DC3D5FFB4E2,
   0x72BE5D74F27B896F, 0x80DEB1FE3B1696B1, 0x9BDC06A725C71235, 0xC19BF174CF692694,
   0xE49B69C19EF14AD2, 0xEFBE4786384F25E3, 0x0FC19DC68B8CD5B5, 0x240CA1CC77AC9C65]
  ++ [0x2DE92C6F592B0275, 0x4A7484AA6EA6E483, 0x5CB0A9DCBD41FBD4, 0x76F988DA831153B5,
   0x983E5152EE66DFAB, 0xA831C66D2DB43210, 0xB00327C898FB213F, 0xBF597FC7BEEF0EE4,
   0xC6E00BF33DA88FC2, 0xD5A79147930AA725, 0x06CA6351E003826F, 0x142929670A0E6E70,
   0x27B70A8546D22FFC, 0x2E1B21385C26C926, 0x4D2C6DFC5AC42AED, 0x53380D139D95B3DF,
   0x650A73548BAF63DE, 0x766A0ABB3C77B2A8, 0x81C2C92E47EDAEE6, 0x92722C851482353B]
  ++ [0xA2BFE8A14CF10364, 0xA81A664BBC423001, 0xC24B8B70D0F89791, 0xC76C51A30654BE30,
   0xD192E819D6EF5218, 0xD69906245565A910, 0xF40E35855771202A, 0x106AA07032BBD1B8,
   0x19A4C116B8D2D0C8, 0x1E376C085141AB53, 0x2748774CDF8EEB99, 0x34B0BCB5E19B48A8,
   0x391C0CB3C5C95A63, 0x4ED8AA4AE3418ACB, 0x5B9CCA4F7763E373, 0x682E6FF3D6B2B8A3,
   0x748F82EE5DEFB2FC, 0x78A5636F43172F60, 0x84C87814A1F0AB72, 0x8CC702081A6439EC]
  ++ [0x90BEFFFA23631E28, 0xA4506CEBDE82BDE9, 0xBEF9A3F7B2C67915, 0xC67178F2E372532B,
   0xCA273ECEEA26619C, 0xD186B8C721C0C207, 0xEADA7DD6CDE0EB1E, 0xF57D4F7FEE6ED178,
   0x06F067AA72176FBA, 0x0A637DC5A2C898A6, 0x113F9804BEF90DAE, 0x1B710B35131C471B,
   0x28DB77F523047D84, 0x32CAAB7B40C72493, 0x3C9EBE0A15C9BEBC, 0x431D67C49C100D4C,
   0x4CC5D4BECB3E42B6, 0x597F299CFC657E2A, 0x5FCB6FAB3AD6FAEC, 0x6C44198C4A475817]

def shaInit : List Nat :=
  [0x6A09E667F3BCC908, 0xBB67AE8584CAA73B, 0x3C6EF372FE94F82B, 0xA54FF53A5F1D36F1,
   0x510E527FADE682D1, 0x9B05688C2B3E6C1F, 0x1F83D9ABFB41BD6B, 0x5BE0CD19137E2179]

def rotr (x n : Nat) : Nat := (x / 2 ^ n + x * 2 ^ (64 - n)) % 2 ^ 64
def xor3 (a b c : Nat) : Nat := Nat.xor a (Nat.xor b c)

/-- A big-endian number. -/
def bigEndian (bs : List Byte) : Nat := bs.foldl (fun n b => 256 * n + b.toNat) 0

/-- The bytes of a number, most significant first. -/
def toBig (v : Nat) : Nat → List Byte
  | 0 => []
  | n + 1 => toBig (v / 256) n ++ [BitVec.ofNat 8 v]

/-- The message schedule: the words so far, latest first. -/
def shaExtend (w : List Nat) : List Nat :=
  let a := w.getD 14 0
  let b := w.getD 1 0
  ((w.getD 15 0 + xor3 (rotr a 1) (rotr a 8) (a / 2 ^ 7) + w.getD 6 0 + xor3 (rotr b 19) (rotr b 61) (b / 2 ^ 6))
    % 2 ^ 64) :: w

/-- One round on the eight working words with K + W. -/
def shaRound (v : List Nat) (kw : Nat) : List Nat :=
  match v with
  | [a, b, c, d, e, f, g, h] =>
    let t1 := h + xor3 (rotr e 14) (rotr e 18) (rotr e 41)
      + Nat.xor (Nat.land e f) (Nat.land (2 ^ 64 - 1 - e) g) + kw
    let t2 := xor3 (rotr a 28) (rotr a 34) (rotr a 39) + xor3 (Nat.land a b) (Nat.land a c) (Nat.land b c)
    [(t1 + t2) % 2 ^ 64, a, b, c, (d + t1) % 2 ^ 64, e, f, g]
  | v => v

/-- n numbers of 8 bytes, big-endian. -/
def bigWords (bs : List Byte) : Nat → List Nat
  | 0 => []
  | n + 1 => bigEndian (bs.take 8) :: bigWords (bs.drop 8) n

/-- The compression of one block of 128 bytes. -/
def shaBlock (h : List Nat) (block : List Byte) : List Nat :=
  let w := (iter shaExtend 64 (bigWords block 16).reverse).reverse
  let v := (List.zipWith (· + ·) shaK w).foldl shaRound h
  List.zipWith (fun a b => (a + b) % 2 ^ 64) h v

def shaBlocks (h : List Nat) (bs : List Byte) : Nat → List Nat
  | 0 => h
  | n + 1 => shaBlocks (shaBlock h (bs.take 128)) (bs.drop 128) n

/-- SHA-512. -/
def sha512 (bs : List Byte) : List Byte :=
  let n := bs.length
  let padded := bs ++ [0x80] ++ List.replicate ((239 - n % 128) % 128) 0 ++ toBig (8 * n) 16
  (shaBlocks shaInit padded (padded.length / 128)).flatMap fun x => toBig x 8

/-! ## Ed25519 (PRESUMED, log 9) -/

/-- Little-endian. -/
def leNat : List Byte → Nat
  | [] => 0
  | b :: r => b.toNat + 256 * leNat r

def leBytes (v : Nat) : Nat → List Byte
  | 0 => []
  | n + 1 => BitVec.ofNat 8 v :: leBytes (v / 256) n

def edP : Nat := 2 ^ 255 - 19
def edL : Nat := 2 ^ 252 + 27742317777372353535851937790883648493
def edD : Nat := 37095705934669439343138083508754565189542113879843219016388785533085940283555

/-- b to the power e modulo m, for e below 2^n. -/
def powMod (m b e : Nat) : Nat → Nat
  | 0 => 1 % m
  | n + 1 => let h := powMod m (b * b % m) (e / 2) n
    if e % 2 = 1 then h * b % m else h

def edInv (x : Nat) : Nat := powMod edP x (edP - 2) 255

/-- A point in extended coordinates. -/
structure EdPoint where
  x : Nat
  y : Nat
  z : Nat
  t : Nat
deriving DecidableEq, Repr

def edZero : EdPoint := ⟨0, 1, 1, 0⟩
def edPoint (x y : Nat) : EdPoint := ⟨x, y, 1, x * y % edP⟩
def edBase : EdPoint := edPoint 15112221349535400772501151409588531511454012693041857206046113283949847762202
  46316835694926478169428394003475163141307993866256225615783033603165251855960

/-- Addition, complete on the curve. -/
def edAdd (p q : EdPoint) : EdPoint :=
  let a := (p.y + edP - p.x) * (q.y + edP - q.x) % edP
  let b := (p.y + p.x) * (q.y + q.x) % edP
  let c := 2 * edD * p.t * q.t % edP
  let d := 2 * p.z * q.z % edP
  let e := (b + edP - a) % edP
  let f := (d + edP - c) % edP
  let g := (d + c) % edP
  let h := (b + a) % edP
  ⟨e * f % edP, g * h % edP, f * g % edP, e * h % edP⟩

/-- n times a point, for n below 2^k. -/
def edMul (p : EdPoint) (n : Nat) : Nat → EdPoint
  | 0 => edZero
  | k + 1 => let h := edMul (edAdd p p) (n / 2) k
    if n % 2 = 1 then edAdd h p else h

def edEncode (p : EdPoint) : List Byte :=
  let z := edInv p.z
  leBytes (p.y * z % edP + 2 ^ 255 * (p.x * z % edP % 2)) 32

/-- The point that 32 bytes encode, if they encode one. -/
def edDecode (bs : List Byte) : Option EdPoint :=
  let n := leNat bs
  let y := n % 2 ^ 255
  let sign := n / 2 ^ 255
  let u := (y * y + edP - 1) % edP
  let v := (edD * y * y + 1) % edP
  let x0 := u * powMod edP v 3 2 * powMod edP (u * powMod edP v 7 3) ((edP - 5) / 8) 255 % edP
  let ok := v * x0 * x0 % edP
  let x := if ok = u then some x0
    else if ok = (edP - u) % edP then some (x0 * powMod edP 2 ((edP - 1) / 4) 255 % edP) else none
  if bs.length ≠ 32 ∨ y ≥ edP then none
  else match x with
  | none => none
  | some x =>
    if x = 0 ∧ sign = 1 then none else some (edPoint (if x % 2 = sign then x else edP - x) y)

/-- The secret scalar and the hash half of a private key. -/
def edSecret (priv : List Byte) : Nat × List Byte :=
  let h := sha512 priv
  let a := leNat (h.take 32)
  (2 ^ 254 + a % 2 ^ 254 / 8 * 8, h.drop 32)

/-- The public key of a private key. -/
def edPublic (priv : List Byte) : List Byte := edEncode (edMul edBase (edSecret priv).1 256)

/-- The signature of a message. -/
def edSign (priv pub msg : List Byte) : List Byte :=
  let a := edSecret priv
  let r := leNat (sha512 (a.2 ++ msg)) % edL
  let rb := edEncode (edMul edBase r 256)
  let k := leNat (sha512 (rb ++ pub ++ msg)) % edL
  rb ++ leBytes ((r + k * a.1) % edL) 32

/-- Whether a signature verifies. -/
def edVerify (pub msg sign : List Byte) : Bool :=
  let s := leNat (sign.drop 32)
  let k := leNat (sha512 (sign.take 32 ++ pub ++ msg)) % edL
  match edDecode pub, edDecode (sign.take 32) with
  | some a, some r => sign.length == 64 && decide (s < edL)
      && edEncode (edMul edBase s 256) == edEncode (edAdd r (edMul a k 256))
  | _, _ => false

end Sys2Proof.Machine
end

