-- ==== Sys2Proof/Config.lean ====
section
/-! DEFINITION. What the spec leaves open: the free values, and the constants of the mask ROM. -/

namespace Sys2Proof

/-- The value that R15 leaves unspecified, once per draw.
A word that carries poison carries such a value (R419). Nothing constrains it. DESIGN CHOICE (log 2): the draws are
numbered by State.freeCtr. -/
opaque Config.freeValue : Nat → Word64

/-- The two part grades (R3): the core clock in units of 100 MHz. -/
def Config.cyclesPerTick (grade : Nat) : Nat := grade

/-- The SHA-512 digests of the two firmware public keys that the ROM holds (R480). DESIGN CHOICE (log 2): the spec does not
print them, and nothing constrains them. -/
opaque Config.romKeyDigest : Nat → List Byte

/-- The ROM version of an attestation report (R489). DESIGN CHOICE (log 2): the spec does not print it, and nothing
constrains it. -/
opaque Config.romVersion : Word32

end Sys2Proof
end

