-- ==== Sys2Proof/Machine/State.lean ====
section
/-! DEFINITION. The state of the module as plain data, its reasons to stop, and the state after reset. -/

namespace Sys2Proof.Machine

/-! ## Memories -/

/-- The ECC state of a stored word that is not clean (R57, R67, R134). -/
inductive Flaw where
  | single
  | double
deriving DecidableEq, Repr

/-- A memory: its bytes, its poisoned granules and the granules whose stored code does not check.
Each list is in rising order without repeats; an unlisted byte reads 0 (DESIGN CHOICE, log 4). -/
structure Store where
  cells : List Host.Cell := []
  poison : List Nat := []
  flaws : List (Nat × Flaw) := []
deriving DecidableEq, Repr

/-- What a line that an engine reads serves (R89, R127, R128). -/
inductive LineUse where
  | scale
  | data
  | stream
  | table
  | snap
deriving DecidableEq, Repr

/-- A line read that an operation owes (R89, R127, R128): its cycle, the first row or vector that needs it, what it serves,
and its line: for the data of a bin form counted from the slot's first line, for a scale line of VX the address of the
scale word with the first data line taken as 0. -/
structure LineRead where
  due : Nat
  row : Nat
  what : LineUse
  line : Int
deriving DecidableEq, Repr

/-- A line that an operation has read. -/
structure LineGot where
  what : LineUse
  line : Int
  words : List (PWord 32)
deriving DecidableEq, Repr

/-- A bin access (R62, R164): the bin, the line offset within the slot, the ADVANCE flag. -/
structure BinRef where
  bin : Nat
  off : Nat
  adv : Bool
deriving DecidableEq, Repr

/-- The slot that a bin access took at its first bank slot (R62): its first line, and whether the occupancy check
failed. -/
structure BinSlot where
  base : Nat
  failed : Bool
deriving DecidableEq, Repr

/-- The shape of a declared bin in force for the pass (R60, R61). -/
structure BinShape where
  base : Nat
  slotLines : Nat
  slots : Nat
deriving DecidableEq, Repr

/-- BIN_DESC[n] (R60): word 0 as written, the shape in force since the blank (none: not enabled, or disabled by R61),
FILL_COUNT and DRAIN_COUNT, and how many fills and drains completed in cycle `cycle` (R63). -/
structure Bin where
  desc : Word32 := 0
  live : Option BinShape := none
  fill : Word32 := 0
  drain : Word32 := 0
  cycle : Nat := 0
  fills : Nat := 0
  drains : Nat := 0
deriving DecidableEq, Repr

/-- REGION_DESC[n] (R72): words 0 and 1, COMMIT_LEN and HIGH_WATER. -/
structure Region where
  w0 : Word32 := 0
  w1 : Word32 := 0
  commit : Nat := 0
  high : Nat := 0
deriving DecidableEq, Repr

/-- REGION_NEXT[n] (R72): words 0 to 2. -/
structure RegionNext where
  w0 : Word32 := 0
  w1 : Word32 := 0
  w2 : Word32 := 0
deriving DecidableEq, Repr

/-- The memories of a core with the bank slots taken in cycle `slotCycle`, each with its port, and for a bank the first and
the last cycle of the latest run of cycles in each of which an island port took its slot (R50, R52, R54, R94, R132). -/
structure CoreMem where
  scr : Store := {}
  stock : Store := {}
  acc : Store := {}
  imem : Store := {}
  slotCycle : Nat := 0
  slotBanks : List (Nat × Nat) := []
  bankRuns : List (Nat × Nat × Nat) := []
deriving DecidableEq, Repr

/-- The memory registers of a core (R51 to R79). -/
structure MemRegs where
  scrCe : Word32 := 0
  stockCe : Word32 := 0
  islandConf : BitVec 16 := 0
  svcForced : BitVec 16 := 0
  burnPeriod : BitVec 8 := 0
  burnEnable : Bool := true
  burnNext : Nat := 0
  burnSweeps : BitVec 13 := 0
  burnTick : Nat := 0
  aperture : Word32 := 0
  bins : List Bin := List.replicate 32 {}
  regions : List Region := List.replicate 64 {}
  regionsVoid : Bool := false
  next : List RegionNext := List.replicate 64 {}
  apply : Bool := false
  applyFailed : Bool := false
  appendPoisoned : List Nat := []
deriving DecidableEq, Repr

/-! ## Streams -/

/-- The stored part of STREAM_STATUS.STATE (R161). READY and DELAY are told apart by the ready bound. -/
inductive StreamState where
  | idle
  | run
  | waitCtr
  | waitArr
  | ended
  | abandoned
deriving DecidableEq, Repr

/-- One loop in force (R148): first index of the body, last index, iterations left. -/
structure Loop where
  first : Nat
  last : Nat
  left : Nat
deriving DecidableEq, Repr

/-- What an issued instruction owes at its completion: signals A and B (R145), its index (R158), and the codes that it
records then, 0x0105 (R151) and 0x0107 (R159), which make its stream ABANDONED. -/
structure Owed where
  sigA : Option (Nat × Nat) := none
  sigB : Option (Nat × Nat) := none
  index : Nat := 0
  ends : List Nat := []
deriving DecidableEq, Repr

/-- One instruction stream (R132 to R152). `loops` has the innermost first. `halted`: the stream issues nothing more,
since an instruction that runs off the bank (R151) or is the 64th skip (R159) has issued. -/
structure Stream where
  state : StreamState := .idle
  pc : Nat := 0
  ready : Nat := 0
  loops : List Loop := []
  skips : Nat := 0
  sendAt : Option Nat := none
  sendOwed : Owed := {}
  halted : Bool := false
deriving DecidableEq, Repr

/-- The sync counters (R139). `added` and `taken` hold what was signalled and subtracted in cycle `cycle`: a wait of that
cycle does not see the signals (R140), and a count past 65,535 is capped at its end (R142). `changed` is the last cycle in
which a counter changed (R153). -/
structure Sync where
  count : List Nat := List.replicate 48 0
  cycle : Nat := 0
  added : List (Nat × Nat) := []
  taken : List (Nat × Nat) := []
  changed : Option Nat := none
deriving DecidableEq, Repr

/-! ## Matrix engine -/

inductive BufState where
  | empty
  | loading
  | ready
deriving DecidableEq, Repr

/-- A tile buffer (R81, R83): state, format code of the TLOAD issued last, poison, the tile's bytes in the order of R36, and
the format in which they were loaded. -/
structure Tile where
  state : BufState := .empty
  fmt : Nat := 0
  poison : Bool := false
  cells : List Host.Cell := []
  held : Nat := 0
deriving DecidableEq, Repr

/-- A row that has entered the array and is not written (R92): 128 contributions and its poison. -/
structure MmaRow where
  contrib : List Int
  poison : Bool
deriving DecidableEq, Repr

/-- A TLOAD in flight (R82, R92): its port cycles start at `start`. -/
structure LoadOp where
  owed : Owed
  buf : Nat
  fmt : Nat
  line : Nat
  refused : Bool
  start : Nat
  ports : Nat
deriving DecidableEq, Repr

/-- An MMA in flight (R84 to R93, R105). `first` is F of R92, `p2` twice the row interval, `slips` the rows from
which on a cycle was lost to a forced service slot (R89), `fetch` the line reads that it owes, `got` the lines read. -/
structure MmaOp where
  owed : Owed
  issue : Nat
  buf : Nat
  afmt : Nat
  aline : Nat
  aslot : Nat
  scline : Nat
  scoff : Nat
  count : Nat
  bank : Nat
  drow : Nat
  ovw : Bool
  bin : Option BinRef
  refused : Bool
  stamp : Bool
  first : Nat
  p2 : Nat
  slips : List Nat := []
  entered : Nat := 0
  written : Nat := 0
  rows : List MmaRow := []
  slot : Option BinSlot := none
  fetch : List LineRead := []
  got : List LineGot := []
deriving DecidableEq, Repr

inductive MxOp where
  | load (o : LoadOp)
  | mma (o : MmaOp)
deriving DecidableEq, Repr

/-- The ready stamp of a bank (R96) with the cycle of the last fall of each count and how often READERS rose in cycle
`riseCycle` (R98), and SAT (R102). -/
structure Stamp where
  writers : Nat := 0
  readers : Nat := 0
  writeFall : Option Nat := none
  readFall : Option Nat := none
  riseCycle : Nat := 0
  rises : Nat := 0
  sat : Bool := false
deriving DecidableEq, Repr

/-- The matrix engine (R81 to R105). `lastPort`, `lastEntry`, `lastDone` are the cycles that R92 refers to; `past` holds the port cycles of
completed loads that DX operations in flight may have met (R180). -/
structure Mx where
  t0 : Tile := {}
  t1 : Tile := {}
  ops : List MxOp := []
  lastPort : Option Nat := none
  past : List (Nat × Nat) := []
  lastEntry0 : Option Nat := none
  lastEntry1 : Option Nat := none
  lastDone0 : Option Nat := none
  lastDone1 : Option Nat := none
  mmaAt : Option Nat := none
  tloadAt : Option Nat := none
  stamps : List Stamp := List.replicate 4 {}
  rows : Word64 := 0
  rowsLatch : Word32 := 0
  tally : BitVec 16 := 0
  satAcc : Word32 := 0
deriving DecidableEq, Repr

/-! ## Vector chain -/

/-- A configuration or table slot (R111): its words with poison ([]: all zero), and whether one was loaded since the
blank (R131). -/
structure Slot where
  words : List (PWord 32) := []
  loaded : Bool := false
deriving DecidableEq, Repr

/-- A VCFG or VTAB in flight (R128): its words as read so far, the line reads that it owes, its effect at `due`. -/
structure TabOp where
  owed : Owed
  issue : Nat
  fetch : List LineRead := []
  tab : Bool
  slot : Nat
  lines : Nat
  words : List (PWord 32)
  refused : Bool
  due : Nat
deriving DecidableEq, Repr

/-- An output write of VX that has formed (R123, R127): the count word or a data line, its due cycle, the line (for a
data write, counted from the first output line), and its words by place in the line. -/
structure OutWrite where
  count : Bool
  due : Nat
  line : Nat
  words : List (Nat × PWord 32)
deriving DecidableEq, Repr

/-- One lane of the chain (R106). -/
structure Lane where
  val : Int
  pred : Bool
  poison : Bool
deriving DecidableEq, Repr

/-- A REDUCE running state of one stage position (R120), lane by lane: value and poison, none or not listed while empty. -/
structure RedState where
  lanes : List (Option (Int × Bool)) := []
deriving DecidableEq, Repr

/-- A VRUN in flight (R107 to R130). `check` is the check cycle, `late` that the check waits for a VCFG, `code` what the check is to find then as
far as the issue tells (code, DETAIL, whether it is a skip). `part` are the words of the data line that is forming,
`scaleWords` the scale words not written (place among the output vectors, due cycle, word), `dense` the lanes of a DENSE
output that fill no line yet, `slips` the vectors from which on a cycle was lost (R53, R54), `fetch` the line reads that
the run owes, `got` the lines read. -/
structure VrunOp where
  owed : Owed
  issue : Nat
  cslot : Nat
  src : Nat
  bank : Nat
  row : Nat
  sline : Nat
  sslot : Nat
  sbin : Option BinRef
  oline : Nat
  oslot : Nat
  obin : Option BinRef
  count : Nat
  cfg : List Nat := []
  cfgPoison : Bool := false
  code : Option (Nat × Nat × Bool) := none
  late : Bool := false
  check : Nat := 0
  refused : Bool := false
  first : Nat := 0
  q : Nat := 1
  slips : List Nat := []
  entered : Nat := 0
  readBad : Bool := false
  slot : Option BinSlot := none
  oslotTaken : Option BinSlot := none
  fetch : List LineRead := []
  got : List LineGot := []
  snap : List (PWord 32) := []
  oorSeen : Bool := false
  part : List (Nat × PWord 32) := []
  scaleWords : List (Nat × Nat × PWord 32) := []
  dense : List (Int × Bool) := []
  denseLines : Nat := 0
  denseCount : Nat := 0
  outs : List OutWrite := []
  lastWrite : Nat := 0
deriving DecidableEq, Repr

/-- The vector chain (R106 to R131). `lastExit`, `lastDone` and `lastTail` are X, the latest completion and the latest
queued write of the VRUNs issued so far; `lastOut` is the cycle of the latest line write made. -/
structure Vx where
  cfg : List Slot := List.replicate 8 {}
  tab : List Slot := List.replicate 16 {}
  loads : List TabOp := []
  runs : List VrunOp := []
  reduce : List RedState := List.replicate 8 {}
  lastExit : Option Nat := none
  lastDone : Option Nat := none
  lastTail : Nat := 0
  lastOut : Nat := 0
  vecs : Word64 := 0
  vecsLatch : Word32 := 0
  oor : BitVec 16 := 0
  satOut : Word32 := 0
deriving DecidableEq, Repr

/-! ## Data mover -/

inductive DxKind where
  | fill
  | copy
  | ld
  | st
  | acr
  | acw
deriving DecidableEq, Repr

/-- A DX operation in flight (R174 to R181). `count` is n lines, or m rows for acr and acw. `buf` holds units read and not
written, oldest first; `snap` source lines of a COPY that its own writes reached before their read, as they stood (R56); `row` parts those of an acc
transfer. -/
structure DxOp where
  owed : Owed
  issue : Nat
  kind : DxKind
  stock : Bool
  src : Nat
  dst : Nat
  count : Nat
  bank : Nat
  arow : Nat
  bin : Option BinRef
  pattern : Word32
  refused : Bool
  stamp : Bool := false
  readBad : Bool := false
  slip : Nat := 0
  rd : Nat := 0
  wr : Nat := 0
  slot : Option BinSlot := none
  buf : List (List (List (PWord 32))) := []
  snap : List (Nat × List (PWord 32)) := []
  rowBuf : List (PWord 32) := []
  rowsDone : Nat := 0
deriving DecidableEq, Repr

/-- The data mover (R174, R179). -/
structure Dx where
  fillpat : Word32 := 0
  ops : List DxOp := []
deriving DecidableEq, Repr

/-! ## Network engine -/

inductive NxKind where
  | put
  | tup
  | ring
  | req
  | wait
deriving DecidableEq, Repr

/-- An NX operation in flight (R182 to R188, R308, R311). `off` is DOFF, DWOFF or ROFF, `line` SLINE, SDW or DLINE. `silent`:
it sends nothing and completes at u + ENX; `spoils`: it poisons its destination lines then (R188); `ponly`: it sends its poison-only
message. `sent` counts packets accepted, `left`
replies still to come, `since` the cycle from which its next packet can wait for CREDIT and `short` that it has waited,
`waitTick` the tick at which the stream entered WAIT_ARR and `readAt` the cycle of the latest read of its status word. `fetch`: the source reads that its next packet, or the tuple, still
owes; `words`: what the reads have given. -/
structure NxOp where
  owed : Owed
  issue : Nat
  kind : NxKind
  handle : Nat
  off : Nat := 0
  line : Nat := 0
  count : Nat := 0
  fwd : Bool := true
  flow : Nat := 0
  acc : Bool := false
  bin : Option BinRef := none
  target : Word32 := 0
  silent : Bool := false
  spoils : Bool := false
  ponly : Bool := false
  slip : Nat := 0
  sent : Nat := 0
  left : Nat := 0
  mseq : BitVec 16 := 0
  slot : Option BinSlot := none
  since : Nat := 0
  short : Bool := false
  waitTick : Option Nat := none
  readAt : Nat := 0
  fetch : List LineRead := []
  words : List (PWord 32) := []
deriving DecidableEq, Repr

/-- The network engine with its injection throttle (R187, R189, R288): the period in which the flit counts were taken. -/
structure Nx where
  ops : List NxOp := []
  refused : BitVec 16 := 0
  throttle : Word32 := 0x3F0000
  period : Nat := 0
  reqFlits : Nat := 0
  fwdFlits : Nat := 0
deriving DecidableEq, Repr

/-! ## Scalar control core -/

/-- A general register (R190) and the cycle in which it is ready (R206). `busy`: an access in flight will write it. -/
structure SxReg where
  val : Word32 := 0
  poison : Bool := false
  ready : Nat := 0
  busy : Bool := false
deriving DecidableEq, Repr

inductive SxAccKind where
  | ldw
  | ldp
  | stw
  | crd
  | cwr
  | xlat
  | skip
deriving DecidableEq, Repr

/-- An SX access in flight (R196 to R199, R205, R207, R208): its destination registers
(0: none), the address or the table, the data, and its due cycle. `skip`: a skipped AWAIT, HOPEN or HCLOSE. -/
structure SxAcc where
  kind : SxAccKind
  rd : Nat
  rd2 : Nat := 0
  addr : Nat := 0
  data : PWord 32 := ⟨0, false⟩
  sig : Option (Nat × Nat) := none
  index : Nat
  refused : Bool
  due : Nat
  ends : List Nat
deriving DecidableEq, Repr

inductive SxWaitKind where
  | await
  | hopen
  | hclose
deriving DecidableEq, Repr

/-- What of a HOPEN is still to come (R298): the read of the descriptor, the write of the control line or the refusal, the completion. -/
inductive OpenStage where
  | read
  | write
  | done
deriving DecidableEq, Repr

/-- An AWAIT, HOPEN or HCLOSE in flight (R203, R204, R298, R313). `handle` is the handle, or the descriptor's address; `line` the control line that AWAIT reads;
`now` tells MODE 1 of HCLOSE; `waitTick` the tick at which the stream entered WAIT_ARR (R320), `readAt` the cycle of the latest read of
its status word. Of a HOPEN `stage` tells how far it is, `words` what its read gave, `result` what rd is to get; `due` is the cycle of
what comes next. -/
structure SxWait where
  kind : SxWaitKind
  handle : Nat := 0
  line : Nat := 0
  target : Word32 := 0
  sig : Option (Nat × Nat) := none
  rd : Nat := 0
  now : Bool := false
  index : Nat
  refused : Bool
  due : Nat
  ends : List Nat
  waitTick : Option Nat := none
  readAt : Nat := 0
  stage : OpenStage := .read
  words : List (PWord 32) := []
  result : PWord 32 := ⟨0, true⟩
deriving DecidableEq, Repr

/-- The scalar control core (R190 to R209). -/
structure Sx where
  g : List SxReg := List.replicate 32 {}
  acc : List SxAcc := []
  wait : Option SxWait := none
deriving DecidableEq, Repr

/-! ## Channel and window unit -/

inductive HState where
  | closed
  | opened
  | closing
deriving DecidableEq, Repr

/-- One sender slot of an owner handle (R298, R305, R307). -/
structure OwnerSlot where
  modField : Nat
  score : Nat
  shandle : Nat
  grant : Nat
  granted : Nat
  received : Nat := 0
  yielded : Nat := 0
  last : Word32 := 0
deriving DecidableEq, Repr

/-- One entry of the handle table (R293, R298). `flags` are bits [52:48] of the status word (R296). `flow` is the class
and flow of the first send of the pass (R390), `changedAt` the cycle in which the status word last changed, or the handle ceased to be
usable, and `was` COUNT and the flags before the changes of that cycle (R203). -/
structure Handle where
  state : HState := .closed
  kind : Nat := 0
  gen : Nat := 0
  late : Option Nat := none
  standing : Bool := false
  stock : Bool := false
  base : Nat := 0
  size : Nat := 0
  ctrl : Nat := 0
  slots : List OwnerSlot := []
  tgtMod : Nat := 0
  tgtCore : Nat := 0
  ohandle : Nat := 0
  slot : Nat := 0
  grant : Nat := 0
  cap : Nat := 0
  rsize : Nat := 0
  shared : Bool := false
  credit : Nat := 0
  mseq : BitVec 16 := 0
  tail : Nat := 0
  count : Word32 := 0
  seq : BitVec 16 := 0
  flags : Nat := 0
  flow : Option (Bool × Nat) := none
  changedAt : Nat := 0
  was : Word32 × Nat := (0, 0)
deriving DecidableEq, Repr

/-- A reply reservation (R311): the requester's handle, the destination line, the lines it holds, and the issue
cycle of its NREQ. -/
structure Reply where
  handle : Nat
  dline : Nat
  lines : Nat
  op : Nat
deriving DecidableEq, Repr

/-- A closed sender or requester entry whose NX operations may not have completed, and whose YIELD waits until they have
(R317): the handle and the entry as it stood. -/
structure Yield where
  handle : Nat
  entry : Handle
deriving DecidableEq, Repr

/-- The channel and window unit of a core (R293 to R323). `creditCount` is the count of the credit watchdog as it stood at the start of
cycle `creditFrom` (R319). -/
structure Chan where
  handles : List (Nat × Handle) := []
  replies : List Reply := []
  yields : List Yield := []
  creditFrom : Nat := 0
  creditCount : Nat := 0
  creditShift : BitVec 5 := 0x18
  arriveShift : BitVec 5 := 0x18
  lateCount : Word32 := 0
  dropCount : Word32 := 0
  hsel : BitVec 12 := 0
deriving DecidableEq, Repr

/-! ## Core -/

/-- The remaining registers of a core block (R161, R218, R237, R343, R360, R398, R460). `hostWords` are the offsets that the host has written
in cycle `hostCycle` (R198). -/
structure CoreRegs where
  bankActive : Nat := 0
  bankNext : Nat := 0
  attached : Bool := false
  imemSel : BitVec 4 := 0
  imemCe : Word32 := 0
  cycleBase : Nat := 0
  stopAt : Option Nat := none
  cycleLatch : Word32 := 0
  syncInit0 : List (BitVec 16) := List.replicate 48 0
  syncInit1 : List (BitVec 16) := List.replicate 48 0
  lcDecl0 : BitVec 8 := 0
  lcDecl1 : BitVec 8 := 0
  gridVmap : Word32 := 0
  vmapLive : Option Word32 := none
  vmapBad : Bool := false
  roleCur : BitVec 16 := 0
  roleNext : BitVec 16 := 0
  twinSum : Word64 := 0
  twinLast : Word64 := 0
  twinSumLatch : Word32 := 0
  twinLastLatch : Word32 := 0
  stretch : Word32 := 0
  patch : List (Nat × Word32) := []
  patchValid : List Nat := []
  hostCycle : Nat := 0
  hostWords : List Nat := []
deriving DecidableEq, Repr

/-- One core (R17, R18). -/
structure Core where
  mem : CoreMem := {}
  regs : MemRegs := {}
  mxs : Stream := {}
  vxs : Stream := {}
  dxs : Stream := {}
  nxs : Stream := {}
  sxs : Stream := {}
  sync : Sync := {}
  mx : Mx := {}
  vx : Vx := {}
  dx : Dx := {}
  nx : Nx := {}
  sx : Sx := {}
  chan : Chan := {}
  ctl : CoreRegs := {}
deriving DecidableEq, Repr

/-! ## Packets and the mesh -/

/-- A flit as eight 64-bit words with their poison bits (R235, R243). -/
abbrev Flit := List (PWord 64)

/-- A packet (R271, R272, R300): its eight header words, the places of those that carry a poison bit (R246), and its payload
words, eight to a flit. -/
structure Packet where
  hdr : List Word64
  body : List (PWord 64) := []
  bad : List Nat := []
deriving DecidableEq, Repr

/-- A point at which packets enter or leave the mesh of the module (R225, R277): a core's network interface, the hub, a
port. -/
inductive Place where
  | core (k : Nat)
  | hub
  | port (p : Nat)
deriving DecidableEq, Repr

/-- A packet between its entry into the module and its end (R277, R281). `src` is where it entered the module: a packet of a port
waits in that port's receive buffer, one of a core or the hub before its router. `exit` is its exit once the router has chosen it
(for a port: the leader of the logical port), with the channel it will leave on. `taken`: the network interface's injection throttle
has let it pass (R288); `granted`: the member port whose pool holds its reservation. `entered` is its place in the order in which
packets entered the mesh, `stops` the stops of its path's two ends (R227), `due` the cycle in which its last flit is at its exit
(R230). `left`: the receive buffer that held it was emptied by a training (R252). `flaws` are bit errors that no stop has met yet
(R235): the stop that receives the word in error, the word of the packet, the header words first, and the error. -/
structure Transit where
  pkt : Packet
  src : Place
  exit : Option Place := none
  outVc : Nat := 0
  left : Bool := false
  taken : Bool := false
  granted : Option Nat := none
  entered : Option Nat := none
  stops : Nat × Nat := (0, 0)
  due : Nat := 0
  flaws : List (Nat × Nat × Flaw) := []
deriving DecidableEq, Repr

/-- The mesh (R223 to R236): packets in transit, oldest first, and the mesh registers. `entries` counts the packets that have
entered it. `offsets` is the number of the free value that gives the offset of the first crossing as last aligned, `realignAt` the
tick at which the realignment in progress ends (R233). `turns` holds, for each transmit pool, the entry point that was granted a
reservation last (R281). -/
structure Mesh where
  items : List Transit := []
  ceCount : Word32 := 0
  uePayload : BitVec 16 := 0
  ueHeader : BitVec 16 := 0
  aligned : Bool := false
  bridgeOk : BitVec 4 := 0
  stopsFailed : BitVec 10 := 0
  entries : Nat := 0
  offsets : Nat := 0
  realignAt : Nat := 0
  turns : List (Nat × Nat) := []
deriving DecidableEq, Repr

/-- The routing registers (R291). `rank` lists the RANK_TABLE entries that are not zero. `seen` holds the codes of R280 that
were recorded in this pass. -/
structure Route where
  cfg : Word32 := 0
  self : BitVec 16 := 0
  discard : Word32 := 0
  arb : Word32 := 0xF
  dir : List Word32 := [14, 15, 16, 17, 18, 19]
  slot : List Word32 := List.replicate 8 0
  calActive : Bool := false
  calNext : Bool := false
  rank : List (Nat × Word32) := []
  seen : List Nat := []
deriving DecidableEq, Repr

/-! ## Tensor link ports -/

/-- The states of a port (R258). -/
inductive PortState where
  | disabled
  | training
  | noPeer
  | discover
  | active
  | extra
  | quarantined
  | down
deriving DecidableEq, Repr

/-- The control fields of an LCW (R252). -/
structure LcwBody where
  ack : BitVec 12
  nak : Bool
  credit : List (BitVec 16)
  xoff : BitVec 10
  record : Option (BitVec 128)
deriving DecidableEq, Repr

/-- A codeword (R243 to R246, R252). -/
inductive Codeword where
  | data (seq : BitVec 12) (vc : Nat) (flits : List Flit)
  | poison (seq : BitVec 12) (map : BitVec 80)
  | idle (seq : BitVec 12)
  | lcw (seq : BitVec 12) (body : LcwBody)
deriving DecidableEq, Repr

/-- A codeword in the replay buffer with the tick at which it was last sent (R248, R250). -/
structure Sent where
  cw : Codeword
  tick : Nat
deriving DecidableEq, Repr

/-- A packet in a transmit pool (R281): its outgoing channel, its flits not yet sent, whether some were sent and whether it
counts for the barrier. -/
structure Queued where
  vc : Nat
  flow : Nat
  flits : List Flit
  started : Bool := false
  counted : Bool := true
deriving DecidableEq, Repr

/-- The sending side of a link (R248 to R253, R283, R284). `next` is the DATA codeword whose POISON codeword was sent, `ends` tells, for each packet whose last flits
it carries, whether it counts for the barrier.
`resend` is the number of the next codeword of the replay in progress, `start` where it started. `wire` is the codeword last
put on the lanes. -/
structure LinkTx where
  seq : BitVec 12 := 0
  ack : BitVec 12 := 0xFFF
  buf : List Sent := []
  resend : Option (BitVec 12) := none
  start : Option (BitVec 12) := none
  starts : Nat := 0
  timeouts : Nat := 0
  credit : List (BitVec 16) := List.replicate 10 0
  sent : List (BitVec 16) := List.replicate 10 0
  xoff : BitVec 10 := 0
  nakDue : Bool := false
  dirty : Bool := false
  xoffDue : Bool := false
  sinceLcw : Nat := 0
  pool : List Queued := []
  next : Option Codeword := none
  ends : List Bool := []
  cp : Nat := 0
  tnsRun : Nat := 0
  wire : Option Codeword := none
deriving DecidableEq, Repr

/-- A packet partly received on a channel (R265). -/
structure Partial where
  vc : Nat
  flits : List Flit
deriving DecidableEq, Repr

/-- The receiving side of a link (R249, R252, R256, R263). `freed` counts flits freed since training, `map` is the poison map
for the next sequenced codeword. `skip` lists channels whose packet is being discarded, with the flits that remain. -/
structure LinkRx where
  eseq : BitVec 12 := 0
  nak : Bool := false
  map : Option (BitVec 80) := none
  part : List Partial := []
  skip : List (Nat × Nat) := []
  freed : List (BitVec 16) := List.replicate 10 0
  xoff : BitVec 10 := 0
  ueTicks : List Nat := []
  heard : Option (BitVec 128) := none
  record : BitVec 128 := 0
  known : Bool := false
deriving DecidableEq, Repr

/-- A port (R240 to R269). `first` tells that its first training has ended, `retry` that it retrains from NO_PEER,
`downTick` the tick at which it entered DISABLED, DOWN or NO_PEER
or, while its lasers settle (`settling`), was enabled, `episode` the first tick and the count of a discard episode. -/
structure Port where
  state : PortState := .disabled
  cfg : Word32
  first : Bool := false
  retry : Bool := false
  downTick : Nat := 0
  settling : Bool := false
  locks : BitVec 4 := 0
  usable : Bool := false
  trains : BitVec 16 := 0
  expect : Word32 := 0
  expectId : Word64 := 0
  cal0 : List Host.Cell := []
  cal1 : List Host.Cell := []
  tx : LinkTx := {}
  rx : LinkRx := {}
  txCw : Word64 := 0
  txLatch : Word32 := 0
  rxCw : Word64 := 0
  rxLatch : Word32 := 0
  ce : Word32 := 0
  ue : Word32 := 0
  replays : Word32 := 0
  discard : Word32 := 0
  episode : Option (Nat × Nat) := none
deriving DecidableEq, Repr

/-- LINK_CFG of port p at reset (R269): ENABLE, RETRAIN, LEADER p, UE_LIMIT 0x20, REPLAY_TIMEOUT 0x018F. -/
def linkCfgReset (p : Nat) : Word32 := BitVec.ofNat 32 (0x018F0000 + 0x20 * 512 + p * 16 + 3)

def portsReset : List Port := (List.range 24).map fun p => { cfg := linkCfgReset p }
/-! ## Fault log -/

/-- A fault-log entry (R415). -/
structure FaultEntry where
  code : Nat
  flags : Nat
  source : Nat
  loc : Nat
  aux : Nat
  pass : Word64
  tick : Nat
  detail : Word64
deriving DecidableEq, Repr

/-- The fault log and its registers (R414, R432). `entries` holds (slot, entry) in rising slot order. -/
structure FaultLog where
  head : Word32 := 0
  tail : Word32 := 0
  lost : Word32 := 0
  total : Word64 := 0
  totalLatch : Word32 := 0
  entries : List (Nat × FaultEntry) := []
  rerunMax : Nat := 3
  notify : Nat := 0x1FF
  attempt : BitVec 16 := 0
deriving DecidableEq, Repr

/-! ## Barrier -/

/-- The phase of the module (R324, R343). -/
inductive Phase where
  | detached
  | held
  | run
  | parting
  | commit
  | blank
  | lost
deriving DecidableEq, Repr

/-- A contribution to a wave, or a total of contributions (R328). -/
structure Contrib where
  passMin : Word64 := 0
  passMax : Word64 := 0
  inj : Word64 := 0
  sink : Word64 := 0
  mods : Nat := 0
  fail : Bool := false
  drainx : Bool := false
  hold : Bool := false
  holdf : Bool := false
  noPend : Bool := false
  notReady : Bool := false
  settled : Bool := false
deriving DecidableEq, Repr

/-- A stage total that arrived (R328, R329): wave, CKIND, stage, ORIGIN and the total. -/
structure Got where
  wave : Word32
  kind : Nat
  stage : Nat
  origin : Nat
  total : Contrib
deriving DecidableEq, Repr

/-- The barrier unit (R324 to R343). `fail` and `failNext`: a fault fails the pass in progress, or the next one (R331);
`contributed`: the contribution to the wave in progress is taken. `kind` (1 PART, 2 HOLD), `going`, `stage` and `total`
describe the wave last launched, `got` the totals that arrived for it and for the one after it. `finishTick`, `launchTick`
and `firstDone` time the watchdogs. `again`: a wave of a one-module job brought no decision. `rehold`: HOLD was written
while a HOLD wave was in progress. `due` is the cycle at which the COMMIT or the blank in progress ends; `blanked` that the
blank has been made. `waitTwin`: the first contribution waits for the partner's summary (R400). -/
structure Barrier where
  phase : Phase := .detached
  passNum : Word64 := 0
  passLatch : Word32 := 0
  fail : Bool := false
  failNext : Bool := false
  contributed : Bool := false
  inj : Word64 := 0
  sink : Word64 := 0
  injLatch : Word32 := 0
  sinkLatch : Word32 := 0
  hold : Bool := false
  holdOnFail : Bool := false
  lastFailed : Bool := false
  undrained : Bool := false
  desync : Bool := false
  waves : BitVec 16 := 0
  cfg : Word32 := 0
  box : Word32 := 0
  jobTag : Word32 := 0
  watch : Word32 := 0x1C14
  wave : Word32 := 0
  lastTicks : Word32 := 0
  mask : List Word32 := List.replicate 24 0
  kind : Nat := 1
  going : Bool := false
  stage : Nat := 0
  total : Contrib := {}
  got : List Got := []
  partWaves : Nat := 0
  finishTick : Nat := 0
  launchTick : Nat := 0
  firstDone : Option Nat := none
  drainx : Bool := false
  settled : Bool := false
  again : Bool := false
  rehold : Bool := false
  due : Nat := 0
  blanked : Bool := false
  waitTwin : Bool := false
deriving DecidableEq, Repr

/-! ## Finfin -/

/-- The states of an edition slot (R363). -/
inductive EdState where
  | empty
  | loading
  | verified
  | admitted
  | resident
  | failed
deriving DecidableEq, Repr

/-- A shard entry of an accepted manifest (R366) with its place in the load (R370, R374). `repair`: REPAIR asks for it; `given`: a repair
found no holder that could supply it (R377). -/
structure Shard where
  tier : Nat
  vcore : Nat
  offset : Nat
  lines : Nat
  holders : List Nat
  resOff : Nat
  digest : List Byte
  ok : Bool := false
  damaged : Bool := false
  repair : Bool := false
  given : Bool := false
deriving DecidableEq, Repr

/-- An edition slot (R363): REGION and EDITION as written, the signed manifest once accepted, its VMOD and shards. -/
structure EdSlot where
  state : EdState := .empty
  region : BitVec 6 := 0
  edition : Word32 := 0
  man : List Byte := []
  vmod : Nat := 0
  shards : List Shard := []
deriving DecidableEq, Repr

/-- Why an object is fetched (R370, R375, R382). -/
inductive FetchUse where
  | load
  | repair
  | stream (n : Nat)
deriving DecidableEq, Repr

/-- An object being fetched (R373): shard `obj` of a slot, or its manifest (none). `pos` and `round` tell the holder to try,
`going` that a request is in flight with `tag` since tick `sent` to the holder `via`, as the table named it then (R369). `parts` are packets received, by index; `head` the
manifest's header once a reservoir gave it (R367). -/
structure Fetch where
  slot : Nat
  obj : Option Nat
  use : FetchUse
  pos : Nat := 0
  round : Nat := 0
  going : Bool := false
  tag : Nat := 0
  sent : Nat := 0
  via : Word32 := 0
  parts : List (Nat × List Byte) := []
  head : Option (List Byte) := none
deriving DecidableEq, Repr

/-- A tier-2 stream in the present pass (R382): the next shard, CREDIT, MSEQ, the bytes of the shard once verified, and
whether it could not be obtained (R383). -/
structure StreamRun where
  idx : Nat := 0
  credit : Nat := 0
  mseq : BitVec 16 := 0
  data : Option (List Byte) := none
  bad : Bool := false
deriving DecidableEq, Repr

/-- The Finfin weight pipe (R363 to R385). `streams` holds the words of TIER2_STREAM that are not zero, by 4n + w; `runs` the
streams that run in the present pass. -/
structure Finfin where
  slots : List EdSlot := [{}, {}]
  activate : Bool := false
  release0 : Bool := false
  release1 : Bool := false
  slotSel : Nat := 0
  rounds : Nat := 1
  auto : Bool := true
  timeout : Nat := 0x1869F
  source : Word32 := 0
  manOff : Word64 := 0
  vmap : Word32 := 0
  holders : List Word32 := List.replicate 32 0
  streams : List (Nat × Word32) := []
  runs : List (Nat × StreamRun) := []
  fetches : List Fetch := []
  nextTag : BitVec 16 := 0
deriving DecidableEq, Repr

/-! ## Journal and twin mode -/

/-- The journal (R402 to R407, R413). `on`: this attachment is journalled. `buf` holds the records that the store has not
consumed, oldest first; the first `sentN` were exported, and `ringPos` is where the next one goes. `ckpt`, `ckptPass` are the first RSEQ
and PASS that the next CHECKPOINT covers, `prevPass` the PASS of the record written last. `faultsFrom` is FAULT_TOTAL at the
start of the pass. `sealing` lists the banks being sealed, in the order of their SEAL. `patched`: a PATCH register was written while held. -/
structure Journal where
  enable : Bool := false
  coresums : Bool := false
  sealbank : Nat := 0
  conn : Nat := 0
  base : Word64 := 0
  size : Word32 := 0
  replayId : Word64 := 0
  replayRseq : Word64 := 0
  on : Bool := false
  rseq : Word64 := 0
  rseqLatch : Word32 := 0
  exported : Word64 := 0
  exportedLatch : Word32 := 0
  chain : List Byte := List.replicate 64 0
  buf : List (Word64 × List Byte) := []
  sentN : Nat := 0
  ringPos : Nat := 0
  ckpt : Word64 := 0
  ckptPass : Word64 := 0
  prevPass : Word64 := 0
  faultsFrom : Word64 := 0
  sealing : List Nat := []
  sealed0 : Option (List Byte) := none
  sealed1 : Option (List Byte) := none
  busy : Bool := false
  patched : Bool := false
deriving DecidableEq, Repr

/-- Twin mode (R399 to R401, R413). `got` holds packets of the partner's summary by index; `differs`
that the comparison of this parting failed. -/
structure Twin where
  cfg : Word32 := 0x1400
  status : Word32 := 0
  got : List (Nat × List Byte) := []
  differs : Bool := false
deriving DecidableEq, Repr

/-! ## Ethernet and the host transport -/

/-- A datagram that the module sent: the plane-A port, the fields of R436, and the 802.1Q tag of its frame (R433). -/
structure Msg where
  port : Nat
  session : Nat
  type : Nat
  status : Nat
  seq : Word32
  body : List Byte
  tag : Option Nat := none
deriving DecidableEq, Repr

/-- An answer that a port sent (R434, R443): its kind, 1 ARP, 2 neighbour discovery, 3 echo, 4 remote-access NAK, its data, and
the 802.1Q tag of its frame (R433). -/
structure Answer where
  port : Nat
  kind : Nat
  data : List Byte
  tag : Option Nat
deriving DecidableEq, Repr

/-- An Ethernet port (R433, R434, R453). `seen`: the link has been up since reset. `pfc` is the tick up to which the last
priority flow control frame honoured holds the port's requests back (log 29). -/
structure EthPort where
  cfg : Word32 := 0x18001F
  mtu : BitVec 14 := 0x5DC
  up : Bool := false
  seen : Bool := false
  anDone : Bool := false
  fec : Bool := false
  changes : BitVec 16 := 0
  macLo : Word32 := 0
  macHi : BitVec 16 := 0
  ip4 : Word32 := 0
  ip6 : List Word32 := List.replicate 4 0
  drop : Word32 := 0
  pfc : Nat := 0
deriving DecidableEq, Repr

/-- An open session (R437 to R442, R487, R488): its source (address, UDP port, address family), the port of its SOPEN, the
tick and the nonce of its HELLO, the slot that proved it, and the replies to the last 64 requests. -/
structure Session where
  proved : Bool := false
  key : Nat := 0
  nseq : Word32 := 0
  cache : List (Word32 × List Msg) := []
  ip : Nat := 0
  udp : Nat := 0
  v6 : Bool := false
  port : Nat := 0
  tick : Nat := 0
  nonce : List Byte := []
  outSeq : Word32 := 0
deriving DecidableEq, Repr

/-- An accepted ticket (R445, R446), until its pass has succeeded. `sent`: delivered in the present attempt. -/
structure Ticket where
  pass : Word64
  tkt : Nat
  lines : Nat
  line : Nat
  tag : Word64
  rseq : Word64
  data : List Byte
  sent : Bool := false
deriving DecidableEq, Repr

/-- A sender of the hub (R381, R447): CREDIT and MSEQ. -/
structure HubSender where
  credit : Nat
  mseq : BitVec 16 := 0
deriving DecidableEq, Repr

/-- An output of the attempt in progress (R448): its reservation once the store had room, the grants, and whether a word of
it was poisoned (R421). -/
structure OutRes where
  id : Nat
  lines : Nat
  placed : Bool := false
  granted : Nat := 0
  received : Nat := 0
  yielded : Nat := 0
  cells : List Host.Cell := []
  poison : Bool := false
deriving DecidableEq, Repr

/-- A releasable output (R426, R449): lines acknowledged, lines sent once, the tick of the last send or progress, resends
without progress. -/
structure Output where
  pass : Word64
  id : Nat
  lines : Nat
  cells : List Host.Cell
  acked : Nat := 0
  sent : Nat := 0
  tick : Nat := 0
  resends : Nat := 0
  warned : Bool := false
deriving DecidableEq, Repr

/-- What a plane-B operation is for (R373, R407). -/
inductive PlbUse where
  | fetch (tag : Nat)
  | records (upto : Word64)
  | marker (next : Word64)
  | consumed
deriving DecidableEq, Repr

/-- A plane-B operation in flight (R443): a READ of `len` bytes, or a WRITE of `data`. `leave` is the tick from which no pause
holds it back (R433). -/
structure PlbOp where
  use : PlbUse
  addr : Word64
  len : Nat := 0
  data : List Byte := []
  leave : Nat := 0
deriving DecidableEq, Repr

/-- PLB_CONN[c] (R443, R444, R453): `state` 0 down, 1 up, 2 ERROR. The sending rate is `rate` / 2^`rateExp` of the full
rate; `cnpTick` is the tick of the last CNP or restored step, `tick` that of the last transmission, response or failure. -/
structure PlbConn where
  w0 : Word32 := 0
  w1 : Word32 := 0
  w2 : Word32 := 0
  state : Nat := 0
  fails : BitVec 16 := 0
  ip : List Word32 := List.replicate 4 0
  base : Word64 := 0
  rate : Nat := 16
  rateExp : Nat := 4
  cnpTick : Nat := 0
  tick : Nat := 0
  retries : Nat := 0
  ops : List PlbOp := []
deriving DecidableEq, Repr

/-- The Ethernet ports and the host transport (R433 to R453). `tkt` holds the words of TKT_DESC that are not zero, by 4t + w,
`outd` those of OUT_DESC, by 2o + w. `out` lists the datagrams sent, oldest first; `answers` the address resolution and echo
replies, by port and kind. `listClosed` is the pass whose first attempt has started (R446), `forwarded` the tickets
forwarded to the shadow (R399). -/
structure HostIf where
  eth : List EthPort := List.replicate 8 {}
  ctrl : Word32 := 0x13870F00
  sessions : List (Nat × Session) := []
  tkt : List (Nat × Word32) := []
  outd : List (Nat × Word32) := []
  plb : List (Nat × PlbConn) := []
  tickets : List Ticket := []
  senders : List (Nat × HubSender) := []
  res : List OutRes := []
  outputs : List Output := []
  listClosed : Option Word64 := none
  forwarded : List (List Byte) := []
  out : List Msg := []
  answers : List Answer := []
deriving DecidableEq, Repr

/-! ## Clocks, power, telemetry -/

/-- The state of a core group (R465, R467); RUN and STOP are told apart core by core. -/
inductive GroupState where
  | on
  | retain
  | off
  | failed
deriving DecidableEq, Repr

/-- A reference clock (R454, R473): whether it is present, since which tick, and its measured offset. -/
structure RefClk where
  present : Bool := false
  since : Nat := 0
  offset : BitVec 16 := 0
deriving DecidableEq, Repr

/-- The clocks (R454 to R462, R473). The demands are those of R462, each with the tick of
its last change or, for droop, its last excessive window; `hot`: a junction has reached 95 °C in this episode. -/
structure Clocks where
  cfg : Word32 := 0xC
  refA : RefClk := {}
  refB : RefClk := {}
  active : Nat := 0
  holdover : Bool := false
  holdLimit : Bool := false
  switches : BitVec 16 := 0
  tickLatch : Word32 := 0
  force : Nat := 0
  thermal : Nat := 0
  power : Nat := 0
  droop : Nat := 0
  hot : Bool := false
  thermalTick : Nat := 0
  powerTick : Nat := 0
  droopTick : Nat := 0
deriving DecidableEq, Repr

/-- The domains of the link edge and of the optical engines (R463). -/
def edgeDomains : List Nat := [24, 25, 26, 27, 54, 55, 56, 57, 84, 85, 86, 87, 114, 115, 116, 117, 123]

/-- Power (R463 to R469, R473). `groups` lists the core groups that are not ON, `edgeOff` the link-edge and optical domains
that are OFF, `wakes` the WAKES counts that are not zero, `stopped` the cores in STOP or RETAIN. `tripped` is 3 or 4 once the
main converters went off for R470 or R469. `excursion`: the input has left 40 to 58 V. `coresFrom`: the
cycle in which the cores last left module reset, from which CORE_CYCLE counts (R161). -/
structure Power where
  groups : List (Nat × GroupState) := []
  edgeOff : List Nat := edgeDomains
  offDrops : BitVec 16 := 0
  mainOn : Bool := false
  limit : BitVec 11 := 0x578
  sleep : Word32 := 0x3E7043F
  offReq : List Word32 := List.replicate 3 0
  wakes : List (Nat × BitVec 16) := []
  stopped : List Nat := []
  tripped : Nat := 0
  excursion : Bool := false
  coresFrom : Nat := 0
deriving DecidableEq, Repr

/-- Telemetry (R470, R471, R473): the input, the four dies and the IO energy counters with their latches; averages. -/
structure Telemetry where
  energy : List Word64 := List.replicate 6 0
  latch : List Word32 := List.replicate 6 0
  pin : BitVec 16 := 0
  vin : BitVec 16 := 0
  inlet : BitVec 16 := 0
  outlet : BitVec 16 := 0
  therm : BitVec 8 := 0x5A
  temps : List (BitVec 16) := List.replicate 104 0
deriving DecidableEq, Repr

/-! ## Security, reset, management -/

/-- SEC_STATUS.STAGE (R492). -/
inductive Stage where
  | romId
  | romFw
  | fwStart
  | ready
  | haltId
  | haltFw
deriving DecidableEq, Repr

/-- The floor record in force (R475, R482). -/
structure FloorRec where
  seq : Word64
  svn : Word32
  sign : List Byte
deriving DecidableEq, Repr

/-- The owner record in force (R475, R484): its 208 bytes, the sequence number and DEV_SIG. -/
structure OwnerRec where
  seq : Word64
  body : List Byte
  sign : List Byte
deriving DecidableEq, Repr

/-- A flash command that waits or runs (R482, R486, R490): PROGRAM with its offset and the 64 KiB taken from SEC_WIN;
FLOOR_COMMIT; OWNER_COMMIT with the bytes offered. `free`: it may claim an unowned module. -/
inductive FlashOp where
  | program (off : Nat) (cells : List Host.Cell)
  | floor
  | owner (body : List Byte) (free : Bool)
deriving DecidableEq, Repr

/-- Identity, boot, keys, flash (R474 to R492). `priv` and `pub` are the device key (R476), `certPub` and `macBase` what the
device certificate holds (R477). `flash` holds the bytes of the firmware slots (R474), `tried` the slots refused in this boot,
`image` the SHA-512 of the running image. `floor` is the rollback floor in force (R482), `torn` the
64 KiB flash blocks whose programming was cut off (R500). `floorRec` and `ownerRec` are the copies that a reader of R475 takes (log 31).
`owned`: the owner record is in force. `ops` are flash commands,
the first one running. -/
structure Security where
  stage : Stage := .romFw
  priv : List Byte := List.replicate 32 0
  pub : List Byte := List.replicate 32 0
  certPub : List Byte := List.replicate 32 0
  macBase : BitVec 48 := 0
  helper1 : Bool := false
  flash : List Host.Cell := []
  tried : List Nat := []
  slot : Nat := 0
  svn : Word32 := 0
  image : List Byte := List.replicate 64 0
  floorRec : Option FloorRec := none
  floorBad : Bool := false
  floor : Word32 := 0
  torn : List Nat := []
  ownerRec : Option OwnerRec := none
  owned : Bool := false
  win : List Host.Cell := []
  flashOff : BitVec 27 := 0
  epochLatch : Word32 := 0
  debug : Bool := false
  ops : List FlashOp := []
deriving DecidableEq, Repr

/-- Health, straps, reset, management and JTAG (R24, R495 to R501). `slotStrap` is SLOT_ID as last sampled, `low` that MOD_RESET_N is low.
`mgmtOut` and `jtagOut` list the replies, oldest first. `ir` is the JTAG instruction in force (0 BYPASS, 1 IDCODE, 2
SAMPLE/PRELOAD, 3 EXTEST, 4 DBGACC), `scan` the boundary-scan register. -/
structure Board where
  coresFailed : List Nat := []
  tested : Bool := false
  cause : Nat := 0
  resets : BitVec 16 := 0
  low : Bool := false
  standby : Bool := true
  slotStrap : BitVec 3 := 0
  smbus : Bool := false
  mgmtAddr : Option Nat := none
  mgmtOut : List (List Byte) := []
  ir : Nat := 0
  scan : BitVec 60 := 0
  driven : Option (BitVec 60) := none
  jtagOut : List (List Byte) := []
deriving DecidableEq, Repr

/-! ## The state -/

/-- The whole module. `overs` lists the cores in which a counter has passed 65,535 in the present cycle, whose end caps it
(R142). -/
structure State where
  pending : List Instr := []
  now : Nat := 0
  overs : List Nat := []
  tickBase : Nat := 0
  freeCtr : Nat := 0
  grade : Nat := 33
  stepB : Bool := true
  lc : Nat := 1
  strict : Bool := false
  cores : List (Nat × Core) := []
  faults : FaultLog := {}
  bar : Barrier := {}
  mesh : Mesh := {}
  route : Route := {}
  ports : List Port := portsReset
  power : Power := {}
  moduleId : Word64 := 0
  fin : Finfin := {}
  jrnl : Journal := {}
  twin : Twin := {}
  host : HostIf := {}
  clk : Clocks := {}
  tel : Telemetry := {}
  sec : Security := {}
  board : Board := {}
deriving DecidableEq, Repr

/-- No command stops the machine (R15), so nothing raises a fault: the type is there for the interface only. -/
inductive Fault where
  /-- Raised by nobody. Safe: a machine that stopped here would only stop early. -/
  | none
deriving DecidableEq, Repr

/-- Why a command has no meaning. -/
inductive Refusal where
  /-- Raised by exec for a command whose meaning is not written. Safe: nothing is claimed of it. -/
  | notModelled (mnemonic : String)
deriving DecidableEq, Repr

/-- The module right after the release of MOD_RESET_N (R500, R479; log 1). R4 leaves to the part's marking which grade and which
stepping it is; DESIGN CHOICE (log 3): a -33 part of stepping B0, by the fields `grade` and `stepB`. -/
def State.reset : State := {}

end Sys2Proof.Machine
end

