-- ==== Sys2Proof/Machine/Mem.lean ====
section
/-! DEFINITION. Operations over one memory (bytes, poison, ECC state) and over lists kept by key. -/

namespace Sys2Proof.Machine

/-! ## Bytes by address -/

/-- The byte at an address. An unlisted byte reads 0 (log 4). -/
def cellGet : List Host.Cell → Nat → Byte
  | [], _ => 0
  | (x, v) :: r, a => if x = a then v else cellGet r a

/-- Write one byte and keep the canonical form: rising addresses, no zero entry. -/
def cellPut : List Host.Cell → Nat → Byte → List Host.Cell
  | [], a, b => if b = 0 then [] else [(a, b)]
  | (x, v) :: r, a, b =>
    if x < a then (x, v) :: cellPut r a b
    else if x = a then (if b = 0 then r else (a, b) :: r)
    else (if b = 0 then (x, v) :: r else (a, b) :: (x, v) :: r)

/-- n bytes from an address. -/
def cellRead (m : List Host.Cell) (a : Nat) : Nat → List Byte
  | 0 => []
  | n + 1 => cellGet m a :: cellRead m (a + 1) n

/-- Write bytes from an address on. -/
def cellWrite (m : List Host.Cell) (a : Nat) : List Byte → List Host.Cell
  | [] => m
  | b :: r => cellWrite (cellPut m a b) (a + 1) r

/-- Zero every byte whose address meets p. -/
def cellClear (m : List Host.Cell) (p : Nat → Bool) : List Host.Cell := m.filter fun c => !p c.1

/-- The canonical form of a memory: rising addresses, no entry equal to what an unlisted address reads as. -/
def Memory.wf : List Host.Cell → Bool
  | [] => true
  | [(_, v)] => v != 0
  | (x, v) :: (y, w) :: r => v != 0 && decide (x < y) && Memory.wf ((y, w) :: r)

/-! ## Sets of granules -/

def markPut : List Nat → Nat → List Nat
  | [], a => [a]
  | x :: r, a => if x < a then x :: markPut r a else if x = a then x :: r else a :: x :: r

def markSet (l : List Nat) (a : Nat) (p : Bool) : List Nat :=
  if p then markPut l a else l.filter (· != a)

/-! ## Lists by key, in rising order -/

def keyGet {α : Type} : List (Nat × α) → Nat → Option α
  | [], _ => none
  | (x, v) :: r, a => if x = a then some v else keyGet r a

def keyPut {α : Type} : List (Nat × α) → Nat → α → List (Nat × α)
  | [], a, b => [(a, b)]
  | (x, v) :: r, a, b =>
    if x < a then (x, v) :: keyPut r a b else if x = a then (a, b) :: r else (a, b) :: (x, v) :: r

def keyDel {α : Type} (l : List (Nat × α)) (a : Nat) : List (Nat × α) := l.filter fun c => c.1 != a

/-- Replace element i of a list. -/
def modAt {α : Type} (l : List α) (i : Nat) (f : α → α) : List α :=
  match l[i]? with
  | some x => l.set i (f x)
  | none => l

/-! ## Little-endian packing (R9) -/

def bytesToNat : List Byte → Nat
  | [] => 0
  | b :: r => b.toNat + 256 * bytesToNat r

def natToBytes (v : Nat) : Nat → List Byte
  | 0 => []
  | n + 1 => BitVec.ofNat 8 v :: natToBytes (v / 256) n

/-! ## A memory with granules of g bytes -/

/-- The word of n bytes at an address. -/
def Store.word (st : Store) (a n : Nat) : Nat := bytesToNat (cellRead st.cells a n)

/-- Whether a granule is poisoned. -/
def Store.bad (st : Store) (i : Nat) : Bool := st.poison.contains i

/-- The ECC state of a granule, if it is not clean. -/
def Store.flaw (st : Store) (i : Nat) : Option Flaw := keyGet st.flaws i

/-- Store granule i of g bytes with its poison bit; the write encodes it anew, so its ECC state is clean. -/
def Store.put (st : Store) (g i v : Nat) (p : Bool) : Store :=
  { cells := cellWrite st.cells (g * i) (natToBytes v g)
    poison := markSet st.poison i p
    flaws := keyDel st.flaws i }

/-- Correct the stored code of granule i (R57): its bits stay. -/
def Store.clean (st : Store) (i : Nat) : Store := { st with flaws := keyDel st.flaws i }

/-- Mark granule i poisoned after an uncorrectable error (R57, R68). -/
def Store.mark (st : Store) (i : Nat) : Store :=
  { st with poison := markSet st.poison i true, flaws := keyDel st.flaws i }

/-- Zero every granule of g bytes that meets p, poison clear (R59, R94). -/
def Store.zero (st : Store) (g : Nat) (p : Nat → Bool) : Store :=
  { cells := cellClear st.cells fun a => p (a / g)
    poison := st.poison.filter fun i => !p i
    flaws := st.flaws.filter fun c => !p c.1 }

/-- Keep only the flaw list shorter when no granule of a run is flawed. -/
def Store.flawsIn (st : Store) (i n : Nat) : List (Nat × Flaw) :=
  st.flaws.filter fun c => decide (i ≤ c.1) && decide (c.1 < i + n)

end Sys2Proof.Machine
end

