-- ==== Sys2Proof/Machine/Flags.lean ====
section
/-! DEFINITION. Flag computations: what a fault code does to the pass, the FLAGS byte of a fault entry, the class of a
code, the flags of a status word. -/

namespace Sys2Proof.Machine

/-- How a recorded fault bears on a pass (R331, R420). -/
inductive FailKind where
  /-- it fails the pass under its rule -/
  | always
  /-- it fails a pass only through poison -/
  | poison
  /-- it fails only a pass in progress (R155) -/
  | running
  /-- it fails no pass -/
  | never
deriving DecidableEq, Repr

/-- The codes that fail a pass unconditionally. -/
def failCodes : List Nat :=
  [0x0101, 0x0102, 0x0104, 0x0105, 0x0106, 0x0107, 0x0108, 0x0120, 0x0121, 0x0122, 0x0123, 0x0124, 0x0140, 0x0141,
   0x0142, 0x0160, 0x0161, 0x0180, 0x0201, 0x0202, 0x0240, 0x0241, 0x0304, 0x0306, 0x0307, 0x0308, 0x0309, 0x030A,
   0x030B, 0x030C, 0x030D, 0x030E, 0x030F, 0x0311, 0x0410, 0x0411, 0x0412, 0x0413, 0x0414, 0x0415, 0x0416, 0x0417,
   0x0418, 0x0419, 0x041A, 0x041B, 0x041C, 0x0421, 0x0431, 0x0432, 0x0441, 0x0442, 0x0443, 0x0450, 0x0508, 0x050A, 0x0623, 0x0625, 0x0626, 0x0641,
   0x0809, 0x0904, 0x0905, 0x0906]

/-- The bearing of a code on the pass. -/
def failKind (code : Nat) : FailKind :=
  if failCodes.contains code then .always
  else if code = 0x0103 then .running
  else if [0x0162, 0x0301, 0x0302, 0x0303, 0x0305, 0x0420, 0x0805, 0x0808].contains code then .poison
  else .never

/-- The class of a code (R418). -/
def faultClass (code : Nat) : Nat := code / 256

/-- ENGINE of FLAGS (R415). -/
def engCode : Engine → Nat
  | .mx => 1
  | .vx => 2
  | .dx => 3
  | .nx => 4
  | .sx => 5

/-- The engine code of a service user (R415). -/
def svc : Nat := 6

/-- AUX of an entry whose rule names an instruction: the index and the stream (R415). -/
def auxOf (e : Engine) (index : Nat) : Nat := index % 8192 + 8192 * (engCode e - 1)

/-- FLAGS of a fault entry (R415). A code that fails only a pass in progress has FAILS in RUN and PARTING (R155). -/
def entryFlags (kind : FailKind) (eng : Nat) (running late nojob : Bool) : Nat :=
  flag (kind == .always || (kind == .running && running)) + 2 * flag (kind == .poison) + 4 * flag late
    + 8 * flag nojob + 16 * eng

/-- The codes whose rules fail a pass only while a core is attached (R268, R286). -/
def jobCodes : List Nat := [0x0441, 0x0442, 0x0443, 0x0508, 0x050A]

/-- Whether a fault of a kind recorded now counts toward the next pass (R155, R331): in LOST with a HOLD wave pending the job is
held. -/
def countsLate (b : Barrier) (kind : FailKind) : Bool :=
  match kind, b.phase with
  | .always, .parting => b.contributed
  | .always, .lost => b.contributed || b.kind == 2
  | .always, .held => true
  | .always, .commit => true
  | .running, .parting => b.contributed
  | _, _ => false

end Sys2Proof.Machine
end

