-- ==== Sys2Proof/Machine/Ops.lean ====
section
/-! DEFINITION. The named operations over the state: cores, free values, time, the fault log, the memories of a core. -/

namespace Sys2Proof.Machine

/-! ## Cores -/

/-- Core k; a core that is not listed is as after reset. -/
def State.core (s : State) (k : Nat) : Core := (keyGet s.cores k).getD {}

/-- Replace core k. -/
def State.setCore (s : State) (k : Nat) (c : Core) : State := { s with cores := keyPut s.cores k c }

/-- Change core k. -/
def State.modCore (s : State) (k : Nat) (f : Core → Core) : State := s.setCore k (f (s.core k))

/-- The stream of an engine. -/
def Core.stream (c : Core) : Engine → Stream
  | .mx => c.mxs
  | .vx => c.vxs
  | .dx => c.dxs
  | .nx => c.nxs
  | .sx => c.sxs

def Core.setStream (c : Core) (e : Engine) (t : Stream) : Core :=
  match e with
  | .mx => { c with mxs := t }
  | .vx => { c with vxs := t }
  | .dx => { c with dxs := t }
  | .nx => { c with nxs := t }
  | .sx => { c with sxs := t }

def Core.modStream (c : Core) (e : Engine) (f : Stream → Stream) : Core := c.setStream e (f (c.stream e))

def Core.modMem (c : Core) (f : CoreMem → CoreMem) : Core := { c with mem := f c.mem }
def Core.modRegs (c : Core) (f : MemRegs → MemRegs) : Core := { c with regs := f c.regs }
def Core.modMx (c : Core) (f : Mx → Mx) : Core := { c with mx := f c.mx }
def Core.modVx (c : Core) (f : Vx → Vx) : Core := { c with vx := f c.vx }
def Core.modDx (c : Core) (f : Dx → Dx) : Core := { c with dx := f c.dx }
def Core.modNx (c : Core) (f : Nx → Nx) : Core := { c with nx := f c.nx }
def Core.modSx (c : Core) (f : Sx → Sx) : Core := { c with sx := f c.sx }
def Core.modChan (c : Core) (f : Chan → Chan) : Core := { c with chan := f c.chan }
def Core.modCtl (c : Core) (f : CoreRegs → CoreRegs) : Core := { c with ctl := f c.ctl }

/-- Whether any core of the module is attached (R413, R415). -/
def State.anyAttached (s : State) : Bool := s.cores.any fun c => c.2.ctl.attached

/-! ## Free values (R15, log 2) -/

/-- Draw one unspecified value. -/
def State.fresh (s : State) : Word64 × State := (Config.freeValue s.freeCtr, { s with freeCtr := s.freeCtr + 1 })

/-- A word as it is stored: a poisoned word carries an unspecified value (R419). -/
def State.spoil (s : State) (w : PWord 32) : PWord 32 × State :=
  if w.poison then (⟨s.fresh.1.setWidth 32, true⟩, s.fresh.2) else (w, s)

/-- Give every poisoned word an unspecified value (R419). -/
def State.spoilAll (s : State) : List (PWord 32) → List (PWord 32) × State
  | [] => ([], s)
  | w :: r =>
    let a := s.spoil w
    let t := a.2.spoilAll r
    (a.1 :: t.1, t.2)

/-! ## Time -/

/-- The steady-tick count of the module (R415, R473). -/
def State.tick (s : State) : Nat := s.tickBase + s.now / Config.cyclesPerTick s.grade

/-- CORE_CYCLE of a core (R161, R154). -/
def State.coreCycle (s : State) (c : Core) : Nat := ((c.ctl.stopAt.getD s.now) - (s.power.coresFrom + c.ctl.cycleBase)) % 2 ^ 64

/-- Power domain n has turned ON (R473). -/
def State.noteOn (s : State) (n : Nat) : State :=
  { s with power := { s.power with wakes := keyPut s.power.wakes n ((keyGet s.power.wakes n).getD 0 + 1) } }

/-! ## The contract in force (R213) -/

def State.ctE (s : State) : Nat := if s.lc = 0 then 5 else 4
def State.ctD (s : State) : Nat := if s.lc = 0 then 14 else 12
def State.ctEV (s : State) : Nat := if s.lc = 0 then 3 else 2
def State.ctEDX (s : State) : Nat := if s.lc = 0 then 3 else 2
def State.ctDDX (s : State) : Nat := if s.lc = 0 then 4 else 3
def State.ctENX (s : State) : Nat := if s.lc = 0 then 3 else 2
def State.ctESX (s : State) : Nat := if s.lc = 0 then 3 else 2

/-! ## The fault log (R414 to R417) -/

/-- Write one entry, or count it as lost when the ring is full. -/
def FaultLog.add (f : FaultLog) (e : FaultEntry) : FaultLog :=
  let f := { f with total := f.total + 1 }
  if (f.head - f.tail).toNat = 4096 then { f with lost := satInc f.lost 1 }
  else { f with entries := keyPut f.entries (f.head.toNat % 4096) e, head := f.head + 1 }

/-- The effect of a recorded fault on the pass (R331). -/
def Barrier.noteFault (b : Barrier) (k : FailKind) : Barrier :=
  if countsLate b k then { b with failNext := true }
  else match k with
  | .always => if b.phase = .detached then b else { b with fail := true }
  | .running => if b.phase = .run ∨ b.phase = .parting then { b with fail := true } else b
  | _ => b

/-- The 32 bytes of an entry (R415). -/
def FaultEntry.image (e : FaultEntry) : List Byte :=
  natToBytes e.code 2 ++ natToBytes e.flags 1 ++ natToBytes e.source 1 ++ natToBytes e.loc 2 ++ natToBytes e.aux 2
    ++ natToBytes e.pass.toNat 8 ++ natToBytes e.tick 8 ++ natToBytes e.detail.toNat 8

/-- Whether an Ethernet port is up. -/
def State.ethUp (s : State) (e : Nat) : Bool := (s.host.eth.getD e {}).up

/-- The plane-A port by which a session sends: that of its SOPEN, or the lowest one that is up (R442). -/
def State.sendPort (s : State) (x : Session) : Option Nat :=
  if s.ethUp x.port then some x.port else (List.range 4).find? s.ethUp

/-- The 802.1Q tag that a port's frames carry: PCP and VLAN_ID, when VLAN_EN is 1 (R433). -/
def State.tagOf (s : State) (e : Nat) : Option Nat :=
  let c := (s.host.eth.getD e {}).cfg.toNat
  if bit c 6 then some (bits c 18 7 + 2 ^ 13 * bits c 21 19) else none

/-- Messages as the frames of their ports carry them. -/
def State.tagged (s : State) (ms : List Msg) : List Msg := ms.map fun m => { m with tag := s.tagOf m.port }

/-- A module-to-host message to the session that HT_CTRL.OUT_SESS names, if it is open (R442). -/
def State.notify (s : State) (type : Nat) (body : List Byte) : State :=
  let n := bits s.host.ctrl.toNat 2 0
  match keyGet s.host.sessions n with
  | none => s
  | some x =>
    match s.sendPort x with
    | none => s
    | some p =>
      { s with host := { s.host with
          sessions := keyPut s.host.sessions n { x with outSeq := x.outSeq + 1 }
          out := s.host.out ++ s.tagged [{ port := p, session := n, type := type, status := 0, seq := x.outSeq, body := body }] } }

/-- An EVENT message (R451). -/
def State.event (s : State) (kind : Nat) (rest : List Byte) : State :=
  s.notify 0x40 (natToBytes kind 1 ++ natToBytes 0 7 ++ rest)

/-- Record a fault with its bearing on the pass: SOURCE, LOC, ENGINE, AUX and DETAIL as R415 and R416 lay them out, and the
event notice of an entry whose class NOTIFY names (R418). -/
def State.recordAs (s : State) (kind : FailKind) (code source loc eng aux detail : Nat) : State :=
  let e : FaultEntry :=
    { code := code, flags := entryFlags kind eng (s.bar.phase == .run || s.bar.phase == .parting) (countsLate s.bar kind) (!s.anyAttached)
      source := source, loc := loc, aux := aux, pass := s.bar.passNum, tick := s.tick
      detail := BitVec.ofNat 64 detail }
  let told := bit s.faults.notify (faultClass code - 1) && (s.faults.head - s.faults.tail).toNat != 4096
  let s : State := { s with faults := s.faults.add e, bar := s.bar.noteFault kind }
  if told then s.event 1 e.image else s

/-- The bearing of a code on the pass: some codes fail one only while a core is attached. -/
def State.kindOf (s : State) (code : Nat) : FailKind :=
  if jobCodes.contains code && !s.anyAttached then .never else failKind code

/-- Record a fault whose code alone tells its bearing on the pass. -/
def State.record (s : State) (code source loc eng aux detail : Nat) : State :=
  s.recordAs (s.kindOf code) code source loc eng aux detail

/-- A fault of core k that names an instruction. -/
def State.faultAt (s : State) (k : Nat) (e : Engine) (index code detail : Nat) : State :=
  s.record code 1 k (engCode e) (auxOf e index) detail

/-- A fault of core k that names no instruction. -/
def State.faultCore (s : State) (k eng code detail : Nat) : State :=
  s.record code 1 k eng 0 detail

/-- Fields packed from bit 0 upward (R416): (width, value), in the order listed. -/
def pack : List (Nat × Nat) → Nat
  | [] => 0
  | (w, v) :: r => v % 2 ^ w + 2 ^ w * pack r

/-! ## The end of a cycle (R140, R142) -/

/-- What was signalled on counter n in cycle t. -/
def Sync.addedIn (y : Sync) (t n : Nat) : Nat := if y.cycle = t then (keyGet y.added n).getD 0 else 0

/-- What waits subtracted from counter n in cycle t. -/
def Sync.takenIn (y : Sync) (t n : Nat) : Nat := if y.cycle = t then (keyGet y.taken n).getD 0 else 0

/-- The count of counter n that a wait of cycle t sees (R140): without the signals of the cycle, less what was subtracted in it. -/
def Sync.seen (y : Sync) (t n : Nat) : Nat := y.count.getD n 0 - y.addedIn t n

/-- The end of the present cycle for counter n of core k (R142): past 65,535 it is set to 65,535, and 0x0201 is recorded with the
counter, its value at the start of the cycle and the total signalled in it. -/
def State.capCounter (k : Nat) (s : State) (n : Nat) : State :=
  let y := (s.core k).sync
  let v := y.count.getD n 0
  if v > 65535 then
    (s.modCore k fun c => { c with sync := { c.sync with count := modAt c.sync.count n fun _ => 65535 } }).faultCore k 0 0x0201
      (pack [(6, n), (16, y.seen s.now n + y.takenIn s.now n), (16, y.addedIn s.now n)])
  else s

/-- The end of the present cycle: the counters that have passed 65,535 are capped (R142). -/
def State.endCycle (s : State) : State :=
  s.overs.foldl (fun s k => (List.range 48).foldl (State.capCounter k) s) { s with overs := [] }

/-- Events come about no earlier than cycle t (log 6). -/
def State.advance (s : State) (t : Nat) : State :=
  if s.now < t then { s.endCycle with now := t } else s

/-- Time reaches steady tick t. -/
def State.advanceTick (s : State) (t : Nat) : State :=
  s.advance ((t - s.tickBase) * Config.cyclesPerTick s.grade)

/-! ## Reading the scratchpad and the stock -/

/-- Narrow word w as stored. -/
def Core.scrWord (c : Core) (w : Nat) : PWord 32 := ⟨BitVec.ofNat 32 (c.mem.scr.word (4 * w) 4), c.mem.scr.bad w⟩

/-- 64-bit stock word w as stored. -/
def Core.stockWord (c : Core) (w : Nat) : PWord 64 := ⟨BitVec.ofNat 64 (c.mem.stock.word (8 * w) 8), c.mem.stock.bad w⟩

/-- Read narrow word w under R57: a single-bit error is corrected, an uncorrectable one delivers poison, marks the stored
word and records 0x0301. -/
def State.readWord (s : State) (k eng w : Nat) : PWord 32 × State :=
  let c := s.core k
  match c.mem.scr.flaw w with
  | none => (c.scrWord w, s)
  | some .single =>
    (c.scrWord w, s.modCore k fun c =>
      { c with mem := { c.mem with scr := c.mem.scr.clean w }, regs := { c.regs with scrCe := satInc c.regs.scrCe 1 } })
  | some .double =>
    let s := s.modCore k fun c => c.modMem fun m => { m with scr := m.scr.mark w }
    (⟨s.fresh.1.setWidth 32, true⟩, s.fresh.2.faultCore k eng 0x0301 (pack [(20, w)]))

/-- Read n narrow words from w on. -/
def State.readWords (s : State) (k eng w : Nat) : Nat → List (PWord 32) × State
  | 0 => ([], s)
  | n + 1 =>
    let a := s.readWord k eng w
    let r := a.2.readWords k eng (w + 1) n
    (a.1 :: r.1, r.2)

/-- A 64-bit stock word as the two scratchpad words it fills (R177). -/
def halves (p : PWord 64) : List (PWord 32) :=
  [⟨p.val.setWidth 32, p.poison⟩, ⟨(p.val >>> 32).setWidth 32, p.poison⟩]

/-- The physical core index of a virtual coordinate under a map (R237); none when it lies outside (R239). -/
def vcoreIndex (vmap : Option Word32) (vx vy : Nat) : Option Nat :=
  match vmap with
  | none => if vy < 24 then some (32 * vy + vx) else none
  | some m =>
    let ox := bits m.toNat 4 0
    let oy := bits m.toNat 9 5
    if vx ≤ bits m.toNat 14 10 ∧ vy ≤ bits m.toNat 19 15 then
      (if bit m.toNat 20 then some (32 * (oy + vx) + (ox + vy)) else some (32 * (oy + vy) + (ox + vx)))
    else none

/-- The core that FINFIN_VMAP gives a virtual core (R385, R447). -/
def State.finCore (s : State) (vcore : Nat) : Option Nat :=
  match vcoreIndex (if bit s.fin.vmap.toNat 31 then some s.fin.vmap else none) (bits vcore 4 0) (bits vcore 9 5) with
  | some k => if k < 768 then some k else none
  | none => none

/-- DETAIL of a Finfin fault (R384): slot, edition, then shard (all ones: the manifest) and holder position. -/
def finDetail (slot : Nat) (ed : Word32) (rest : List (Nat × Nat)) : Nat := pack ([(1, slot), (32, ed.toNat)] ++ rest)

/-- Whether tier-0 shard x of an edition slot covers line `line` of core k (R374). -/
def State.shardAt (s : State) (k line : Nat) (e : EdSlot) (x : Shard) : Bool :=
  let r := (s.core k).regs.regions.getD e.region.toNat {}
  let base := bits r.w0.toNat 18 0
  x.tier == 0 && s.finCore x.vcore == some k && decide (base + x.offset ≤ line) && decide (line < base + x.offset + x.lines)

/-- Mark the shards of slot i that cover a damaged line; n counts through the shards (R374). -/
def State.damageShards (s : State) (k line i n : Nat) : List Shard → State
  | [] => s
  | x :: r =>
    let e := s.fin.slots.getD i {}
    let put := fun (y : Shard) (s : State) =>
      ({ s with fin := { s.fin with slots := modAt s.fin.slots i fun e => { e with shards := e.shards.set n y } } } : State)
    let s :=
      if !s.shardAt k line e x then s
      else if e.state == .loading then put { x with ok := false } s
      else if (e.state == .admitted || e.state == .resident) && !x.damaged then
        (put { x with damaged := true, given := false } s).record 0x0808 5 0 0 0 (finDetail i e.edition [(17, n)])
      else s
    s.damageShards k line i (n + 1) r

/-- A stock line was found damaged: Finfin looks at both edition slots (R374). -/
def State.noteDamage (s : State) (k line : Nat) : State :=
  [0, 1].foldl (fun s i => s.damageShards k line i 0 (s.fin.slots.getD i {}).shards) s

/-- The effect of an uncorrectable error on stock word w (R68, R70): poison, and the code with the line. -/
def State.stockBad (s : State) (k eng w code : Nat) : State :=
  ((s.modCore k fun c => c.modMem fun m => { m with stock := m.stock.mark w }).faultCore k eng code
    (pack [(19, w / 32)])).noteDamage k (w / 32)

/-- Read stock word w under R68. The second result tells an uncorrectable error. -/
def State.readStockWord (s : State) (k eng w : Nat) : PWord 64 × Bool × State :=
  let c := s.core k
  match c.mem.stock.flaw w with
  | none => (c.stockWord w, false, s)
  | some .single =>
    (c.stockWord w, false, s.modCore k fun c =>
      { c with mem := { c.mem with stock := c.mem.stock.clean w }
               regs := { c.regs with stockCe := satInc c.regs.stockCe 1 } })
  | some .double =>
    let s := s.stockBad k eng w 0x0302
    (⟨s.fresh.1, true⟩, true, s.fresh.2)

/-- Read n stock words from w on: the words, whether any met an uncorrectable error, the state. -/
def State.readStockWords (s : State) (k eng w : Nat) : Nat → List (PWord 64) × Bool × State
  | 0 => ([], false, s)
  | n + 1 =>
    let a := s.readStockWord k eng w
    let r := a.2.2.readStockWords k eng (w + 1) n
    (a.1 :: r.1, a.2.1 || r.2.1, r.2.2)

/-- 64 zero words. -/
def zeroLine : List (PWord 32) := List.replicate 64 ⟨0, false⟩

/-- The bytes of a word list (R9). -/
def wordBytes (ws : List (PWord 32)) : List Byte := ws.flatMap fun w => natToBytes w.val.toNat 4

end Sys2Proof.Machine
end

