-- ==== Sys2Proof/Machine/Regions.lean ====
section
/-! DEFINITION. Bins, regions, control lines, and the checked reads and writes of the scratchpad and the stock. -/

namespace Sys2Proof.Machine

def scrLines : Nat := 16384
def stockLines : Nat := 327680

/-! ## Region entries (R71, R72) -/

def kindEdition : Nat := 1
def kindAppend : Nat := 2
def kindFrozen : Nat := 3
def kindStaging : Nat := 4

def regBase (w0 : Word32) : Nat := bits w0.toNat 18 0
def regStock (w0 : Word32) : Bool := bit w0.toNat 19
def regKind (w0 : Word32) : Nat := bits w0.toNat 22 20
def regValid (w0 : Word32) : Bool := bit w0.toNat 31
/-- P of R74: lines in the region. -/
def regCap (w1 : Word32) : Nat := bits w1.toNat 18 0 + 1

/-- The kinds legal in a memory (R71). -/
def kindLegal (stock : Bool) (kind : Nat) : Bool :=
  if stock then kind == 1 || kind == 2 || kind == 3 || kind == 4 else kind == 2 || kind == 3

def Region.stock (r : Region) : Bool := regStock r.w0
def Region.base (r : Region) : Nat := regBase r.w0
def Region.kind (r : Region) : Nat := regKind r.w0
def Region.cap (r : Region) : Nat := regCap r.w1
def Region.valid (r : Region) : Bool := regValid r.w0 && kindLegal (regStock r.w0) (regKind r.w0)

/-- Whether a region holds a line of a memory. -/
def Region.holds (r : Region) (stock : Bool) (line : Nat) : Bool :=
  r.valid && r.stock == stock && decide (r.base ≤ line) && decide (line < r.base + r.cap)

/-- Whether a region meets a run of lines. -/
def Region.meets (r : Region) (stock : Bool) (line n : Nat) : Bool :=
  r.valid && r.stock == stock && decide (r.base < line + n) && decide (line < r.base + r.cap)

/-- Whether a region holds a whole run of lines. -/
def Region.covers (r : Region) (stock : Bool) (line n : Nat) : Bool :=
  r.valid && r.stock == stock && decide (r.base ≤ line) && decide (line + n ≤ r.base + r.cap)

/-- The region table in force: void for a pass whose table failed its check (R77). -/
def Core.table (c : Core) : List Region := if c.regs.regionsVoid then [] else c.regs.regions

/-- The entry that holds a line, with its number. -/
def findRegion (rs : List Region) (stock : Bool) (line : Nat) (i : Nat := 0) : Option (Nat × Region) :=
  match rs with
  | [] => none
  | r :: t => if r.holds stock line then some (i, r) else findRegion t stock line (i + 1)

def Core.regionOf (c : Core) (stock : Bool) (line : Nat) : Option (Nat × Region) := findRegion c.table stock line

/-- Whether a scratchpad line lies in a keep region. -/
def Core.keep (c : Core) (line : Nat) : Bool := (c.regionOf false line).isSome

/-! ## Bins (R60 to R64) -/

def BinShape.lines (b : BinShape) : Nat := (b.slotLines + 1) * (b.slots + 1)

def BinShape.meets (b : BinShape) (line n : Nat) : Bool :=
  decide (b.base < line + n) && decide (line < b.base + b.lines)

/-- Whether a run touches a line of an enabled bin (R64). -/
def Core.binTouch (c : Core) (line n : Nat) : Bool :=
  c.regs.bins.any fun b => match b.live with
    | some sh => sh.meets line n
    | none => false

def Core.bin (c : Core) (i : Nat) : Bin := c.regs.bins.getD i {}

/-- The conditions of a bin access judged at issue (R62): none, or the code. -/
def Core.binIssue (c : Core) (r : BinRef) (n : Nat) : Option Nat :=
  match (c.bin r.bin).live with
  | none => some 0x030D
  | some sh => if r.off + n ≤ sh.slotLines + 1 then none else some 0x030C

/-- FILL_COUNT and DRAIN_COUNT as a check of cycle t sees them: without the changes of that cycle (R63). -/
def Bin.seen (b : Bin) (t : Nat) : Word32 × Word32 :=
  if b.cycle = t then (b.fill - BitVec.ofNat 32 b.fills, b.drain - BitVec.ofNat 32 b.drains) else (b.fill, b.drain)

/-- The slot that a bin access takes at its first bank slot in cycle t (R62): for a write the fill slot, for a read the
drain slot; `failed` when the occupancy condition fails. -/
def Core.binTake (c : Core) (t : Nat) (r : BinRef) (write : Bool) : BinSlot :=
  let b := c.bin r.bin
  let x := b.seen t
  match b.live with
  | none => { base := 0, failed := true }
  | some sh =>
    let occ := (x.1 - x.2).toNat
    if write then
      { base := sh.base + (x.1.toNat % (sh.slots + 1)) * (sh.slotLines + 1) + r.off
        failed := !decide (occ < sh.slots + 1) }
    else
      { base := sh.base + (x.2.toNat % (sh.slots + 1)) * (sh.slotLines + 1) + r.off
        failed := !decide (1 ≤ occ) }

/-- The first line of a bin access as its refusal records it (R80): with the slot that the counters name in cycle t. A bin that
is not in force has only the BASE and the offset. DEDUCED (log 8). -/
def Core.binLine (c : Core) (t : Nat) (r : BinRef) (write : Bool) : Nat :=
  match (c.bin r.bin).live with
  | none => (c.bin r.bin).desc.toNat % 16384 + r.off
  | some _ => (c.binTake t r write).base

/-- One fill or drain that completes in cycle t (R62). -/
def Bin.count (b : Bin) (t : Nat) (write : Bool) : Bin :=
  let b := if b.cycle = t then b else { b with cycle := t, fills := 0, drains := 0 }
  if write then { b with fill := b.fill + 1, fills := b.fills + 1 }
  else { b with drain := b.drain + 1, drains := b.drains + 1 }

/-! ## Control lines (R295) -/

/-- Whether a kind has a status word (R293). -/
def kindStatus (k : Nat) : Bool := k == 1 || k == 2 || k == 3 || k == 6

/-- Whether a run holds the control line of an open handle. -/
def Core.ctrlTouch (c : Core) (line n : Nat) : Bool :=
  c.chan.handles.any fun h => h.2.state != .closed && kindStatus h.2.kind && decide (line ≤ h.2.ctrl)
    && decide (h.2.ctrl < line + n)

/-! ## Permission (R73 to R75, R80) -/

/-- The first case of a list that holds (R505). -/
def firstOf {α : Type} (cs : List (Bool × α)) : Option α :=
  match cs with
  | [] => none
  | (b, x) :: r => if b then some x else firstOf r

/-- The code of a region against a line write of n lines at `line` (R73, R74), for DX and the network. The part of the run
inside the region counts. -/
def Region.writeCode (r : Region) (line n : Nat) : Option Nat :=
  let a := max line r.base - r.base
  let m := line + n - max line r.base
  if r.kind = kindEdition ∨ r.kind = kindFrozen then some 0x0307
  else if r.kind = kindAppend then
    (if a < r.commit then some 0x0308 else if a > r.high ∨ a + m > r.cap then some 0x0309 else none)
  else none

/-- The first code that a run meets in the table. -/
def tableWriteCode (rs : List Region) (stock : Bool) (line n : Nat) : Option Nat :=
  match rs with
  | [] => none
  | r :: t => if r.meets stock line n then (match r.writeCode line n with
      | some c => some c
      | none => tableWriteCode t stock line n) else tableWriteCode t stock line n

/-- The refusal of a plain write of n lines by an engine or an arrival (R80): none, or the code. -/
def Core.writeCode (c : Core) (stock : Bool) (line n : Nat) : Option Nat :=
  if stock then
    if line + n > stockLines then some 0x0304
    else match c.table.find? fun r => r.covers true line n with
      | none => some 0x0306
      | some r => r.writeCode line n
  else
    if line + n > scrLines then some 0x0304
    else match tableWriteCode c.table false line n with
      | some code => some code
      | none => firstOf [(c.binTouch line n, 0x030D), (c.ctrlTouch line n, 0x041A)]

/-- The refusal of a plain read of n lines by an engine (R80): none, or the code. -/
def Core.readCode (c : Core) (stock : Bool) (line n : Nat) : Option Nat :=
  if stock then
    if line + n > stockLines then some 0x0304
    else if c.table.any fun r => r.covers true line n then none else some 0x0306
  else firstOf [(decide (line + n > scrLines), 0x0304), (c.binTouch line n, 0x030D)]

/-- A permitted line write into an APPEND region raises H (R74). -/
def Region.raise (r : Region) (stock : Bool) (line n : Nat) : Region :=
  if r.meets stock line n ∧ r.kind = kindAppend then { r with high := max r.high (min (line + n - r.base) r.cap) } else r

def Core.raiseHigh (c : Core) (stock : Bool) (line n : Nat) : Core :=
  c.modRegs fun m => { m with regions := m.regions.map fun r => r.raise stock line n }

/-- Whether a line reads as zero (R75). -/
def Core.readsZero (c : Core) (stock : Bool) (line : Nat) : Bool :=
  match c.regionOf stock line with
  | none => false
  | some (_, r) =>
    (r.kind == kindAppend && decide (line - r.base ≥ r.high)) || (r.kind == kindFrozen && decide (line - r.base ≥ r.commit))

/-! ## Line reads -/

/-- Two half words as a stock word: poisoned when either is (R177). -/
def joinHalves : List (PWord 32) → List (PWord 64)
  | a :: b :: r => ⟨(a.val.setWidth 64) ||| ((b.val.setWidth 64) <<< 32), a.poison || b.poison⟩ :: joinHalves r
  | _ => []

/-- Read a scratchpad line (R57, R75). -/
def State.readLine (s : State) (k eng line : Nat) : List (PWord 32) × State :=
  if (s.core k).readsZero false line then (zeroLine, s) else s.readWords k eng (64 * line) 64

/-- Read a stock line as 64 half words (R68, R75, R177), and whether an uncorrectable error was met. -/
def State.readStockLine (s : State) (k eng line : Nat) : List (PWord 32) × Bool × State :=
  if (s.core k).readsZero true line then (zeroLine, false, s)
  else
    let r := s.readStockWords k eng (32 * line) 32
    (r.1.flatMap halves, r.2.1, r.2.2)

/-- Read n lines from `line` on. -/
def State.readLines (s : State) (k eng line : Nat) : Nat → List (List (PWord 32)) × State
  | 0 => ([], s)
  | n + 1 =>
    let a := s.readLine k eng line
    let r := a.2.readLines k eng (line + 1) n
    (a.1 :: r.1, r.2)

end Sys2Proof.Machine
end

