-- ==== Sys2Proof/Machine/Packets.lean ====
section
/-! DEFINITION. Packets: the header words, the payload, routes, and what counts a packet. -/

namespace Sys2Proof.Machine

/-! ## Header word (R272) -/

/-- Header word i as a number. -/
def Packet.word (p : Packet) (i : Nat) : Nat := (p.hdr.getD i 0).toNat

def Packet.vc (p : Packet) : Nat := bits (p.word 0) 3 0
/-- Flits of the packet. -/
def Packet.len (p : Packet) : Nat := bits (p.word 0) 10 4 + 1
def Packet.flow (p : Packet) : Nat := bits (p.word 0) 15 11
def Packet.dmod (p : Packet) : Nat := bits (p.word 0) 31 16
def Packet.dtgt (p : Packet) : Nat := bits (p.word 0) 41 32
/-- DST as R262 takes it. -/
def Packet.dst (p : Packet) : Nat := bits (p.word 0) 41 16
def Packet.src (p : Packet) : Nat := bits (p.word 0) 57 42
def Packet.adapt (p : Packet) : Bool := bit (p.word 0) 58
def Packet.reservedBits (p : Packet) : Nat := bits (p.word 0) 63 59

/-- The traffic classes (R274). -/
def clsReq : Nat := 0
def clsRpl : Nat := 1
def clsTns : Nat := 2
def clsFwd : Nat := 3
def clsCtl : Nat := 4

def Packet.cls (p : Packet) : Nat := p.vc / 2

/-- The hub as a target (R273). -/
def hubTgt : Nat := 0x3FF

/-- The header word of a packet as it is injected: post 0 (R278). -/
def headerWord (cls len flow dmod dtgt src : Nat) (adapt : Bool) : Word64 :=
  BitVec.ofNat 64 (pack [(4, 2 * cls), (7, len - 1), (5, flow), (16, dmod), (10, dtgt), (16, src), (1, flag adapt)])

/-- The same packet on another virtual channel (R278). -/
def Packet.onVc (p : Packet) (v : Nat) : Packet :=
  { p with hdr := modAt p.hdr 0 fun w => (w &&& ~~~0xF#64) ||| BitVec.ofNat 64 (v % 16) }

/-! ## Channel words (R300) -/

/-- The fields of header words 1 to 3 of a channel packet. -/
structure ChanHdr where
  op : Nat
  score : Nat := 0x3FF
  tidx : Nat := 0
  tgen : Nat := 0
  slot : Nat := 0
  mseq : Nat := 0
  pkt : Nat := 0
  last : Bool := false
  acc : Bool := false
  err : Bool := false
  ponly : Bool := false
  off : Nat := 0
  n : Nat := 0
  skip : Nat := 0
  dline : Nat := 0
  rhandle : Nat := 0
deriving DecidableEq, Repr

def opPut : Nat := 1
def opTup : Nat := 2
def opRing : Nat := 3
def opReq : Nat := 4
def opRpl : Nat := 5
def opGrant : Nat := 6
def opYield : Nat := 7

def ChanHdr.word1 (h : ChanHdr) : Word64 :=
  BitVec.ofNat 64 (pack [(4, h.op), (10, h.score), (12, h.tidx), (4, h.tgen), (3, h.slot), (16, h.mseq), (8, h.pkt),
    (1, flag h.last), (1, flag h.acc), (1, flag h.err), (1, flag h.ponly)])

def ChanHdr.word2 (h : ChanHdr) : Word64 := BitVec.ofNat 64 (pack [(32, h.off), (5, h.n), (4, h.skip)])

def ChanHdr.word3 (h : ChanHdr) : Word64 := BitVec.ofNat 64 (pack [(14, h.dline), (16, h.rhandle)])

/-- The fields of a packet that arrived. -/
def Packet.chan (p : Packet) : ChanHdr :=
  let a := p.word 1
  let b := p.word 2
  let c := p.word 3
  { op := bits a 3 0, score := bits a 13 4, tidx := bits a 25 14, tgen := bits a 29 26, slot := bits a 32 30
    mseq := bits a 48 33, pkt := bits a 56 49, last := bit a 57, acc := bit a 58, err := bit a 59, ponly := bit a 60
    off := bits b 31 0, n := bits b 36 32, skip := bits b 40 37, dline := bits c 13 0, rhandle := bits c 29 14 }

/-- A channel packet (R271, R300). -/
def chanPacket (cls flow dmod dtgt src : Nat) (adapt : Bool) (h : ChanHdr) (body : List (PWord 64)) : Packet :=
  { hdr := [headerWord cls (1 + ceilDiv body.length 8) flow dmod dtgt src adapt, h.word1, h.word2, h.word3, 0, 0, 0, 0]
    body := body }

/-! ## Payload (R300) -/

/-- A line as payload words: a 64-bit word is poisoned when either of its scratchpad words is (R177, R246). -/
def linePayload (ws : List (PWord 32)) : List (PWord 64) := joinHalves ws

/-- Line j of a payload of lines, as scratchpad words. -/
def Packet.lineAt (p : Packet) (j : Nat) : List (PWord 32) := ((p.body.drop (32 * j)).take 32).flatMap halves

/-- Word j of a payload of words, as scratchpad words. -/
def Packet.pairAt (p : Packet) (j : Nat) : List (PWord 32) := halves (p.body.getD j ⟨0, false⟩)

/-- n poisoned payload words. -/
def poisonBody (n : Nat) : List (PWord 64) := List.replicate n ⟨0, true⟩

/-- Whole flits: the rest of the last flit is zero. -/
def wholeFlits (ws : List (PWord 64)) : List (PWord 64) :=
  ws ++ List.replicate (8 * ceilDiv ws.length 8 - ws.length) ⟨0, false⟩

/-- The flits of a packet, the header flit first (R271). -/
def flitsOf (n : Nat) (ws : List (PWord 64)) : List Flit :=
  match n with
  | 0 => []
  | n + 1 => ws.take 8 :: flitsOf n (ws.drop 8)

/-- The header flit: a word that arrived marked is forwarded marked (R246). -/
def Packet.headFlit (p : Packet) : Flit := p.hdr.zipIdx.map fun x => ⟨x.1, p.bad.contains x.2⟩

def Packet.flits (p : Packet) : List Flit := p.headFlit :: flitsOf (p.len - 1) p.body

/-- The packet that flits form. -/
def packetOf (fs : List Flit) : Packet :=
  match fs with
  | [] => { hdr := List.replicate 8 0 }
  | h :: r =>
    { hdr := h.map (·.val), body := r.flatten
      bad := (List.range h.length).filter fun i => (h.getD i ⟨0, false⟩).poison }

/-! ## What counts (R326, R371, R400) -/

/-- Whether a packet belongs to the job: not CTL, not between hubs for Finfin or a twin summary. -/
def Packet.counted (p : Packet) : Bool :=
  !(p.cls == clsCtl) && !(p.dtgt == hubTgt && decide (8 ≤ bits (p.word 1) 3 0) && decide (bits (p.word 1) 3 0 ≤ 0xB))

def State.noteInj (s : State) (p : Packet) : State :=
  if p.counted then { s with bar := { s.bar with inj := s.bar.inj + 1 } } else s

def State.noteSink (s : State) (p : Packet) : State :=
  if p.counted then { s with bar := { s.bar with sink := s.bar.sink + 1 } } else s

/-- A packet leaves a core or the hub for its router (R281, R326). -/
def State.injectAs (s : State) (t : Transit) : State :=
  State.noteInj { s with mesh := { s.mesh with items := s.mesh.items ++ [t] } } t.pkt

/-- A packet that waits at the router of its sender for its exit, for its network interface and for a reservation (R281, R288). -/
def State.inject (s : State) (src : Place) (p : Packet) : State := s.injectAs { pkt := p, src := src }

/-! ## Module fields and routes (R273, R277) -/

def modX (m : Nat) : Nat := bits m 4 0
def modY (m : Nat) : Nat := bits m 8 5
def modZ (m : Nat) : Nat := bits m 12 9
def modSlot (m : Nat) : Nat := bits m 15 13

/-- The coordinate of a module field along axis a: 0 X, 1 Y, 2 Z. -/
def modAxis (m a : Nat) : Nat := if a = 0 then modX m else if a = 1 then modY m else modZ m

/-- DIM(a) and WRAP(a) (R277). -/
def Route.dim (r : Route) (a : Nat) : Nat :=
  (if a = 0 then bits r.cfg.toNat 4 0 else if a = 1 then bits r.cfg.toNat 8 5 else bits r.cfg.toNat 12 9) + 1
def Route.wrap (r : Route) (a : Nat) : Bool := bit r.cfg.toNat (13 + a)
def Route.adaptive (r : Route) : Bool := bit r.cfg.toNat 16
def Route.me (r : Route) : Nat := r.self.toNat

/-- Whether a module field lies in ROUTE_CFG (R280). -/
def Route.inside (r : Route) (m : Nat) : Bool :=
  decide (modX m < r.dim 0) && decide (modY m < r.dim 1) && decide (modZ m < r.dim 2)

/-! ## Ports (R260 to R262) -/

def State.port (s : State) (p : Nat) : Port := s.ports.getD p ({ cfg := 0 } : Port)

def State.modPort (s : State) (p : Nat) (f : Port → Port) : State := { s with ports := modAt s.ports p f }

def Port.enable (x : Port) : Bool := bit x.cfg.toNat 0
def Port.retrain (x : Port) : Bool := bit x.cfg.toNat 1
def Port.job (x : Port) : Bool := bit x.cfg.toNat 3
def Port.leader (x : Port) : Nat := bits x.cfg.toNat 8 4
def Port.ueLimit (x : Port) : Nat := bits x.cfg.toNat 15 9
def Port.timeout (x : Port) : Nat := bits x.cfg.toNat 31 16 + 1

def farPort (p : Nat) : Bool := decide (14 ≤ p)

/-- COMPAT is ignored on near ports (R263). -/
def State.compat (s : State) (p : Nat) : Bool := farPort p && bit (s.port p).cfg.toNat 2

/-- The members of logical port L, in ascending order (R261). -/
def State.members (s : State) (l : Nat) : List Nat := (List.range 24).filter fun p => (s.port p).leader == l

/-- The module field of a port's latest discovery record (R257, R277). -/
def Port.peerModule (x : Port) : Nat := bits x.rx.record.toNat 111 96

/-- Free flits of a transmit pool: neither filled nor reserved (R281). -/
def State.poolFree (s : State) (p v : Nat) : Nat :=
  130 - (((s.port p).tx.pool.filter fun q => q.vc == v).foldl (fun n q => n + q.flits.length) 0
    + (s.mesh.items.filter fun t => t.granted == some p && t.outVc == v).foldl (fun n t => n + t.pkt.len) 0)

/-- Free flits in the member pools of a logical port for a channel (R286). -/
def State.freeOf (s : State) (l v : Nat) : Nat := (s.members l).foldl (fun n p => n + s.poolFree p v) 0

/-- The member with the most free flits; a tie goes to the lowest index (R286). -/
def State.freest (s : State) (v : Nat) : List Nat → Nat
  | [] => 0
  | [p] => p
  | p :: r => let q := s.freest v r
    if s.poolFree p v ≥ s.poolFree q v then p else q

/-- Whether a packet's ADAPT is honoured (R286). -/
def State.honours (s : State) (p : Packet) : Bool :=
  p.adapt && s.route.adaptive && (p.cls == clsReq || p.cls == clsRpl)

/-- The axis and direction entry of a logical port: the first ROUTE_DIR entry in force that names it. -/
def Route.dirOf (r : Route) (l : Nat) : Option Nat :=
  (List.range 6).find? fun d => bit (r.dir.getD d 0).toNat 31 && bits (r.dir.getD d 0).toNat 4 0 == l

/-- The axis of a far port: that of its logical port (R278, R280). -/
def State.axisOf (s : State) (p : Nat) : Option Nat :=
  if farPort p then (s.route.dirOf (s.port p).leader).map (· / 2) else none

/-- The post bit for direction d when a packet leaves on it (R278). -/
def State.postFor (s : State) (src : Place) (v d : Nat) : Nat :=
  let a := d / 2
  let same := match src with
    | .port q => s.axisOf q == some a
    | _ => false
  let here := modAxis s.route.me a
  if s.route.wrap a && (if d % 2 = 0 then here == s.route.dim a - 1 else here == 0) then 1
  else if same then v % 2 else 0

/-- The direction that a packet takes along axis a (R277, R286). -/
def State.dirFor (s : State) (src : Place) (p : Packet) (a : Nat) : Nat :=
  let f := (modAxis p.dmod a + s.route.dim a - modAxis s.route.me a) % s.route.dim a
  let v := fun d => 2 * p.cls + s.postFor src p.vc d
  let room := fun d => s.freeOf (bits (s.route.dir.getD d 0).toNat 4 0) (v d)
  if !s.route.wrap a then 2 * a + flag (decide (modAxis p.dmod a < modAxis s.route.me a))
  else if 2 * f < s.route.dim a then 2 * a
  else if 2 * f > s.route.dim a then 2 * a + 1
  else if s.honours p && decide (room (2 * a + 1) > room (2 * a)) then 2 * a + 1 else 2 * a

/-- What the router does with a packet (R277, R280): an exit with the outgoing channel, or a discard with its code. -/
inductive Choice where
  | go (e : Place) (vc : Nat)
  | discard (code : Nat)
deriving DecidableEq, Repr

/-- The local exit (R272, R273). -/
def localExit (t : Nat) : Choice :=
  if t < 768 then .go (.core t) 0 else if t = hubTgt then .go .hub 0 else .discard 0x0442

/-- Whether an arriving packet may leave by a port of axis a (R280); axis 3 is the bench hop. -/
def State.mayLeave (s : State) (src : Place) (a : Nat) : Bool :=
  match src with
  | .port q =>
    if farPort q then (match s.axisOf q with
      | some b => decide (b ≤ a)
      | none => true) else false
  | _ => true

/-- Whether a packet originates in this module: no other is routed into a compatibility port, which for it is no port of the right
kind (R263, R280; DEDUCED, log 22). -/
def originates : Place → Bool
  | .port _ => false
  | _ => true

/-- The choice of an exit (R277) with the checks of R280. -/
def State.choose (s : State) (src : Place) (p : Packet) : Choice :=
  let r := s.route
  if p.vc > 9 ∨ p.reservedBits ≠ 0 ∨ (768 ≤ p.dtgt ∧ p.dtgt ≠ hubTgt) then .discard 0x0442
  else if p.dmod = r.me then localExit p.dtgt
  else match (List.range 24).find? fun q => originates src && farPort q && s.compat q && (s.port q).usable
      && (s.port q).peerModule == p.dmod with
  | some q => .go (.port q) (2 * p.cls)
  | none =>
    if !r.inside p.dmod || !r.inside r.me then .discard 0x0441
    else match [0, 1, 2].find? fun a => modAxis r.me a != modAxis p.dmod a with
    | some a =>
      let d := s.dirFor src p a
      let e := r.dir.getD d 0
      if !bit e.toNat 31 || !farPort (bits e.toNat 4 0) || decide (bits e.toNat 4 0 > 23)
          || (!originates src && s.compat (bits e.toNat 4 0)) then .discard 0x0441
      else if !s.mayLeave src a then .discard 0x0442
      else .go (.port (bits e.toNat 4 0)) (2 * p.cls + s.postFor src p.vc d)
    | none =>
      let e := r.slot.getD (modSlot p.dmod) 0
      if modSlot p.dmod = modSlot r.me then .discard 0x0441
      else if !bit e.toNat 31 || farPort (bits e.toNat 4 0) then .discard 0x0441
      else if !s.mayLeave src 3 then .discard 0x0442
      else .go (.port (bits e.toNat 4 0)) (2 * p.cls)

/-- The member of a logical port for a packet on outgoing channel v (R262, R279, R286). -/
def State.memberFor (s : State) (l v : Nat) (p : Packet) : Nat :=
  let ms := s.members l
  if ms.isEmpty then l
  else if s.honours p && (s.port l).usable then s.freest v ms
  else ms.getD ((if p.cls = clsTns then p.flow else p.src + p.dst) % ms.length) l

end Sys2Proof.Machine
end

