-- ==== Sys2Proof/Machine/Mesh.lean ====
section
/-! DEFINITION. The mesh and the routers: a packet gets its exit, is discarded, or is granted a reservation. -/

namespace Sys2Proof.Machine

/-! ## Stops, links and bridges (R223, R225, R226, R231, R415). A stop is 32·y + x. -/

def stopX (n : Nat) : Nat := n % 32
def stopY (n : Nat) : Nat := n / 32

/-- Whether a mesh link joins two stops: neighbours in a row or in a column of the grid of 32 × 24, with no link around its edges. -/
def meshLink (a b : Nat) : Bool :=
  decide (a < 768) && decide (b < 768)
    && ((stopY a == stopY b && (stopX a + 1 == stopX b || stopX b + 1 == stopX a))
      || (stopX a == stopX b && (stopY a + 1 == stopY b || stopY b + 1 == stopY a)))

/-- The bridge whose link joins two neighbouring stops (R231): 0 D0–D1, 1 D0–D2, 2 D1–D3, 3 D2–D3. -/
def bridgeOf (a b : Nat) : Option Nat :=
  if !meshLink a b then none
  else if stopX a / 16 ≠ stopX b / 16 then some (if stopY a < 12 then 0 else 3)
  else if stopY a / 12 ≠ stopY b / 12 then some (if stopX a < 16 then 1 else 2)
  else none

/-- The stop of a port (R225). -/
def portStop (p : Nat) : Nat :=
  [1, 5, 9, 13, 18, 22, 26, 738, 742, 746, 750, 755, 760, 765, 96, 288, 95, 223, 448, 640, 351, 447, 575, 703].getD p 0

/-- The hub attachment for a stop (R226): A at (0, 5), B at (0, 6). -/
def hubStop (stop : Nat) : Nat := if stop / 32 ≤ 5 then 160 else 192

/-- The stop of a core or of a port. -/
def Place.stop : Place → Nat
  | .core k => k
  | .port p => portStop p
  | .hub => 160

/-- The stops by which a packet enters and leaves the mesh: at the hub, by the attachment that the other stop gives (R226). -/
def stopsOf (src exit : Place) : Nat × Nat :=
  (if src = .hub then hubStop exit.stop else src.stop, if exit = .hub then hubStop src.stop else exit.stop)

/-- SOURCE and LOC of a place (R415). -/
def Place.source : Place → Nat × Nat
  | .core k => (1, k)
  | .port p => (2, p)
  | .hub => (5, 0)

/-- A place among the entry points of the mesh, in the order in which reservations go around (R281; DESIGN CHOICE, log 22). -/
def Place.rank : Place → Nat
  | .core k => k
  | .hub => 768
  | .port p => 769 + p

/-! ## Paths and latency (R227, R230, R233) -/

/-- n stops from a on, in steps of d or back in steps of d. -/
def stopRun (a d : Nat) (up : Bool) (n : Nat) : List Nat := (List.range n).map fun i => if up then a + d * (i + 1) else a - d * (i + 1)

/-- The stops that a packet reaches after stop a on its way to stop b: along the row to the column of b, then along the column. -/
def meshPath (a b : Nat) : List Nat :=
  let c := 32 * stopY a + stopX b
  stopRun a 1 (decide (stopX a < stopX b)) ((stopX b - stopX a) + (stopX a - stopX b))
    ++ stopRun c 32 (decide (stopY a < stopY b)) ((stopY b - stopY a) + (stopY a - stopY b))

/-- Whether the crossing from stop a into its neighbour b is aligned to the longer offset: a free value of the latest alignment. -/
def Mesh.longer (m : Mesh) (a b : Nat) : Bool :=
  (Config.freeValue (m.offsets + 4 * b + (if a < b then (if a + 1 = b then 0 else 1) else (if b + 1 = a then 2 else 3)))).getLsbD 0

/-- Cycles of the hops of a path that starts at stop a. -/
def Mesh.hops (m : Mesh) (a : Nat) : List Nat → Nat
  | [] => 0
  | b :: r => (if m.longer a b then 3 else 2) + (if (bridgeOf a b).isSome then 8 else 0) + m.hops b r

/-- Cycles from a packet's entry until its last flit is at its exit, when nothing else is in its way. -/
def Mesh.latency (m : Mesh) (a b len : Nat) : Nat := 3 + m.hops a (meshPath a b) + 3 + (len - 1)

/-! ## Order (R229, R289) -/

/-- Whether a packet u keeps packet t back. Before the mesh, one from the same place in the same channel, ahead of t, that has no exit
yet, has the same exit, or waits ahead of it in the same receive buffer; in the mesh, one that entered before t on the same way in the
same channel. -/
def Transit.heldBy (t u : Transit) : Bool :=
  u.pkt.vc == t.pkt.vc && (match t.entered, u.entered with
    | none, none => u.src == t.src && (u.exit.isNone || u.exit == t.exit || !originates u.src)
    | some n, some m => decide (m < n) && u.stops == t.stops
    | _, _ => false)

/-- Whether packet i waits for another. -/
def State.blocked (s : State) (i : Nat) (t : Transit) : Bool :=
  (if t.entered.isSome then s.mesh.items else s.mesh.items.take i).any t.heldBy

/-! ## Leaving a place -/

def State.modMesh (s : State) (f : Mesh → Mesh) : State := { s with mesh := f s.mesh }

/-- Remove packet i. -/
def State.dropItem (s : State) (i : Nat) : State := s.modMesh fun m => { m with items := m.items.eraseIdx i }

def State.setItem (s : State) (i : Nat) (t : Transit) : State := s.modMesh fun m => { m with items := m.items.set i t }

/-- Whether a packet still stands in the receive buffer of port p: it has not entered the mesh (R281). -/
def Transit.inBuffer (t : Transit) (p : Nat) : Bool :=
  t.src == .port p && !t.left && t.entered.isNone

/-- Flits of channel v in the receive buffer of port p (R256, R263). -/
def State.occupancy (s : State) (p v : Nat) : Nat :=
  (s.mesh.items.filter fun t => t.inBuffer p && t.pkt.vc == v).foldl (fun n t => n + t.pkt.len) 0
    + ((s.port p).rx.part.filter fun q => q.vc == v).foldl (fun n q => n + q.flits.length) 0

/-- XOFF of a channel by its occupancy (R263). -/
def xoffFor (old : Bool) (occ : Nat) : Bool := if occ ≥ 2048 then true else if occ ≤ 1024 then false else old

/-- Set bit v of a field. -/
def setBit {w : Nat} (x : BitVec w) (v : Nat) (b : Bool) : BitVec w :=
  if b then x ||| BitVec.ofNat w (2 ^ v) else x &&& ~~~(BitVec.ofNat w (2 ^ v))

/-- Bring the XOFF of channel v up to date in compatibility mode (R263): a change is due in the next LCW. -/
def State.reviewXoff (s : State) (p v : Nat) : State :=
  if s.compat p then
    let x := s.port p
    let b := xoffFor (x.rx.xoff.getLsbD v) (s.occupancy p v)
    if b = x.rx.xoff.getLsbD v then s
    else s.modPort p fun x =>
      { x with rx := { x.rx with xoff := setBit x.rx.xoff v b }, tx := { x.tx with xoffDue := true, dirty := true } }
  else s

/-- n flits of channel v leave the receive buffer of port p (R252). -/
def State.freeRx (s : State) (p v n : Nat) : State :=
  (s.modPort p fun x =>
    { x with rx := { x.rx with freed := modAt x.rx.freed v fun c => c + BitVec.ofNat 16 n }
             tx := { x.tx with dirty := true } }).reviewXoff p v

/-- The packet leaves the receive buffer it came by, if it came by one. -/
def State.leave (s : State) (t : Transit) : State :=
  match t.src with
  | .port p => if t.left then s else s.freeRx p t.pkt.vc t.pkt.len
  | _ => s

/-- A packet ends at this module by a discard (R326): it is removed and counted as sunk. -/
def State.endItem (s : State) (i : Nat) (t : Transit) : State := ((s.dropItem i).leave t).noteSink t.pkt

/-! ## Discards -/

/-- A discard under R280: ROUTE_DISCARD rises, and the first of its code in a pass is recorded. -/
def State.routeDiscard (s : State) (i : Nat) (t : Transit) (code : Nat) : State :=
  let s' : State := { s with route := { s.route with discard := satInc s.route.discard 1
                                                     seen := markPut s.route.seen code } }
  let r := if s.route.seen.contains code then s' else s'.record code t.src.source.1 t.src.source.2 0 0 0
  r.endItem i t

/-- A packet discarded at a port that is not usable (R265): LINK_DISCARD and the discard episode. -/
def State.noteDiscard (s : State) (p : Nat) : State :=
  s.modPort p fun x =>
    { x with discard := satInc x.discard 1
             episode := match x.episode with
               | none => some (s.tick, 1)
               | some (t, n) => some (t, n + 1) }

/-! ## Words met in flight (R235) -/

/-- Word i of a packet, the header words first, becomes poisoned over an unspecified value. -/
def Packet.spoilWord (p : Packet) (i : Nat) (v : Word64) : Packet :=
  if i < 8 then { p with hdr := p.hdr.set i v, bad := markPut p.bad i } else { p with body := p.body.set (i - 8) ⟨v, true⟩ }

/-- The words in error that a stop receives: single-bit errors are corrected and counted, uncorrectable ones poison the word and are
recorded with the stop. -/
def State.checkWords (s : State) (stop : Nat) (p : Packet) : List (Nat × Nat × Flaw) → Packet × State
  | [] => (p, s)
  | (_, _, .single) :: r => (s.modMesh fun m => { m with ceCount := satInc m.ceCount 1 }).checkWords stop p r
  | (_, i, .double) :: r =>
    let s := (s.modMesh fun m => { m with uePayload := satInc m.uePayload 1 }).record 0x0420 3 stop 0 0 0
    s.fresh.2.checkWords stop (p.spoilWord i s.fresh.1) r

/-- A stop checks every word of a packet that it receives. None: its header word is uncorrectable, and the packet is to be discarded
there. -/
def State.meetStop (s : State) (t : Transit) (stop : Nat) : Option Transit × State :=
  if t.flaws.contains (stop, 0, .double) then
    (none, (s.modMesh fun m => { m with ueHeader := satInc m.ueHeader 1 }).record 0x0421 3 stop 0 0 (pack [(4, t.pkt.vc)]))
  else
    let c := s.checkWords stop t.pkt (t.flaws.filter fun f => f.1 == stop)
    (some { t with pkt := c.1, flaws := t.flaws.filter fun f => f.1 != stop }, c.2)

/-- A packet passes stops one after the other. -/
def State.walk (s : State) (t : Transit) : List Nat → Option Transit × State
  | [] => (some t, s)
  | x :: r => match s.meetStop t x with
    | (none, s') => (none, s')
    | (some t', s') => s'.walk t' r

/-! ## Injection throttling (R288) -/

/-- The throttling period that the core is in. -/
def State.periodOf (s : State) (k : Nat) : Nat :=
  s.coreCycle (s.core k) / (bits (s.core k).nx.throttle.toNat 25 16 + 1)

/-- The flits counted in a class in the present period. -/
def State.flitCount (s : State) (k : Nat) (cls : Nat) : Nat :=
  let n := (s.core k).nx
  if n.period = s.periodOf k then (if cls = clsReq then n.reqFlits else n.fwdFlits) else 0

/-- Whether the throttle admits a packet of a class. -/
def State.admits (s : State) (k cls : Nat) : Bool :=
  let t := (s.core k).nx.throttle.toNat
  let limit := if cls = clsReq then bits t 15 8 else if cls = clsFwd then bits t 7 0 else 0
  limit == 0 || decide (s.flitCount k cls < limit)

/-- Count a packet's flits in its class. -/
def State.countFlits (s : State) (k cls n : Nat) : State :=
  let r := s.flitCount k clsReq
  let f := s.flitCount k clsFwd
  let p := s.periodOf k
  s.modCore k fun c => c.modNx fun x =>
    { x with period := p, reqFlits := if cls = clsReq then r + n else r, fwdFlits := if cls = clsFwd then f + n else f }

/-- Whether a packet of a class that the throttle has not let pass waits at core k: those of its class wait behind it. -/
def State.throttled (s : State) (k cls : Nat) : Bool :=
  s.mesh.items.any fun t => t.src == .core k && !t.taken && t.entered.isNone && t.pkt.cls == cls && cls == clsFwd

/-- Whether the throttle lets packet t enter. -/
def State.mayEnter (s : State) (t : Transit) : Bool :=
  match t.src with
  | .core k => t.taken || s.admits k t.pkt.cls
  | _ => true

/-- The throttle counts a packet that it lets pass. -/
def State.noteEnter (s : State) (t : Transit) : State :=
  match t.src with
  | .core k => if t.taken then s else s.countFlits k t.pkt.cls t.pkt.len
  | _ => s

/-! ## Entering the mesh (R227, R230, R233) -/

/-- Packet i enters the mesh for a place: it passes the stops of its path after the first, which has checked it. No packet enters before
a realignment ends. None: a stop has discarded it. -/
def State.enter (s : State) (i : Nat) (t : Transit) (exit : Place) : Option Transit × State :=
  let s := (if s.tick < s.mesh.realignAt then s.advanceTick s.mesh.realignAt else s).noteEnter t
  let e := stopsOf t.src exit
  match s.walk t (meshPath e.1 e.2) with
  | (none, s) => (none, s.endItem i t)
  | (some u, s) =>
    (some { u with taken := true, entered := some s.mesh.entries, stops := e
                   due := s.now + s.mesh.latency e.1 e.2 t.pkt.len },
      s.modMesh fun m => { m with entries := m.entries + 1 })

/-! ## PACKET_ROUTE (R277, R280) -/

/-- Whether a packet arrived on a compatibility port and is addressed beyond this module (R263). -/
def State.beyond (s : State) (t : Transit) : Bool :=
  match t.src with
  | .port p => s.compat p && t.pkt.dmod != s.route.me
  | _ => false

/-- The stop that receives a packet before it has an exit. -/
def Transit.firstStop (t : Transit) : Nat := (stopsOf t.src (if t.pkt.dtgt < 768 then .core t.pkt.dtgt else .hub)).1

/-- The router gives packet i its exit, or discards it. A packet for a core or the hub enters the mesh. -/
def State.routeItem (s : State) (i : Nat) (t : Transit) : State :=
  if s.beyond t then (s.record 0x0508 t.src.source.1 t.src.source.2 0 0 0).endItem i t
  else match s.choose t.src t.pkt with
  | .discard code => s.routeDiscard i t code
  | .go (.port l) vc => s.setItem i { t with exit := some (.port l), outVc := vc }
  | .go e vc =>
    if !s.mayEnter t then s
    else match s.enter i { t with exit := some e, outVc := vc } e with
      | (none, s) => s
      | (some u, s) => (s.setItem i u).leave t

/-- PACKET_ROUTE: packet i of the mesh, in service once every crossing is aligned (R234). -/
def execPacketRoute (i : Nat) (s : State) : Host.Outcome State Fault Refusal :=
  .next (match s.mesh.items[i]? with
    | none => s
    | some t =>
      if !s.mesh.aligned || t.exit.isSome || s.blocked i t then s
      else match s.meetStop t t.firstStop with
        | (none, s) => s.endItem i t
        | (some t, s) => s.routeItem i t)

/-! ## Reservations (R262, R265, R279, R281, R284) -/

/-- Entry i of the active calendar of port p. -/
def State.calEntry (s : State) (p i : Nat) : Nat :=
  (cellGet (if s.route.calActive then (s.port p).cal1 else (s.port p).cal0) i).toNat

/-- Whether a flow has a VALID entry in the active calendar of port p (R280). -/
def State.flowListed (s : State) (p flow : Nat) : Bool :=
  (List.range 256).any fun i => bit (s.calEntry p i) 7 && bits (s.calEntry p i) 4 0 == flow

/-- The packet as it waits in a transmit pool. -/
def queued (p : Packet) (v : Nat) : Queued := { vc := v, flow := p.flow, flits := (p.onVc v).flits, counted := p.counted }

/-- The pool, by its member port and channel, in which a packet with an exit needs a reservation. -/
def State.poolOf (s : State) (exit : Place) (v : Nat) (p : Packet) : Option (Nat × Nat) :=
  match exit with
  | .port l => some (s.memberFor l v p, v)
  | _ => none

/-- The pool of a packet that asks for a reservation: it stands before the mesh, and its port is usable. -/
def State.askOf (s : State) (t : Transit) : Option (Nat × Nat) :=
  match t.exit with
  | some e => (s.poolOf e t.outVc t.pkt).filter fun x => t.entered.isNone && t.granted.isNone && (s.port x.1).usable && s.mayEnter t
  | none => none

/-- The entry points whose packets ask for a reservation in a pool. -/
def State.askers (s : State) (pool : Nat × Nat) : List Place :=
  (s.mesh.items.filter fun t => s.askOf t == some pool).map (·.src)

/-- How many places an entry point stands after the one that a pool granted last. -/
def State.turnOf (s : State) (pool : Nat × Nat) (e : Place) : Nat :=
  (e.rank + 793 - ((keyGet s.mesh.turns (10 * pool.1 + pool.2)).getD 792 + 1)) % 793

/-- Whether it is the turn of an entry point: round-robin among those that ask (R281). -/
def State.turn (s : State) (pool : Nat × Nat) (asks : List Place) (e : Place) : Bool :=
  asks.all fun x => decide (s.turnOf pool e ≤ s.turnOf pool x)

/-- A pool grants a reservation to an entry point. -/
def State.noteTurn (s : State) (pool : Nat × Nat) (e : Place) : State :=
  s.modMesh fun m => { m with turns := keyPut m.turns (10 * pool.1 + pool.2) e.rank }

/-- Packet i, which holds a reservation in the pool of member m, crosses the mesh into that pool; to a port that is not usable it crosses
it to be discarded there (R265). -/
def State.cross (s : State) (i : Nat) (t : Transit) (m : Nat) : State :=
  match s.enter i t (.port m) with
  | (none, s) => s
  | (some u, s) =>
    if !(s.port m).usable then (s.noteDiscard m).endItem i t
    else ((s.dropItem i).leave t).modPort m fun x =>
      { x with tx := { x.tx with pool := x.tx.pool ++ [queued u.pkt t.outVc] } }

/-- Grant packet i a reservation in the pool of a member of logical port l, or discard it there; `asks` are the other entry points that
ask for one. -/
def State.reserve (s : State) (i : Nat) (t : Transit) (l : Nat) (asks : Nat × Nat → List Place) : State :=
  let m := t.granted.getD (s.memberFor l t.outVc t.pkt)
  if (s.port m).usable && s.compat m && !(t.pkt.cls == clsFwd || t.pkt.cls == clsCtl) then (s.record 0x0508 2 m 0 0 0).endItem i t
  else if (s.port m).usable && t.pkt.cls == clsTns && !s.flowListed m t.pkt.flow then s.routeDiscard i t 0x0443
  else if !s.mayEnter t then s
  else if !(s.port m).usable || t.granted.isSome then s.cross i t m
  else if !s.turn (m, t.outVc) (asks (m, t.outVc)) t.src || decide (s.poolFree m t.outVc < t.pkt.len) then s
  else (s.noteTurn (m, t.outVc) t.src).cross i t m

end Sys2Proof.Machine
end

