-- ==== Sys2Proof/Machine/Schedules.lean ====
section
/-! DEFINITION. What fixes the schedules of VX and DX: configurations, placement, transfer units, output writes, and the banks that their
ports take in a cycle (R52, R53, R107, R112, R122, R178). -/

namespace Sys2Proof.Machine

/-- Vectors per line; 1 for s16 and for each of the two lines of s32. -/
def rplOf (f : Nat) : Nat := if f = fmtInt4 then 4 else if f = fmtInt8 then 2 else 1

/-- A run of lines with its first line and length, as integers: whether it leaves the scratchpad. -/
def spanOut (a : Int) (n : Nat) : Bool := decide (a < 0) || decide (a + (n : Int) > (scrLines : Int))

/-- The bank of a line; none outside the scratchpad. -/
def bankOf (line : Int) : List Nat := if spanOut line 1 then [] else [wrapU 4 line]

/-! ## Configurations (R112 to R116). A configuration is its 64 words. -/

def cfgWord (c : List Nat) (i : Nat) : Nat := c.getD i 0

def cOfmt (c : List Nat) : Nat := bits (cfgWord c 0) 2 0
def cDense (c : List Nat) : Bool := bit (cfgWord c 0) 3
def cLast (c : List Nat) : Bool := bit (cfgWord c 0) 4
def cBen (c : List Nat) : Bool := bit (cfgWord c 0) 5
def cBfmt (c : List Nat) : Nat := bits (cfgWord c 0) 8 6
def cScaled (c : List Nat) : Bool := bit (cfgWord c 0) 9
def cBline (c : List Nat) : Nat := bits (cfgWord c 0) 23 10
def cSdbase (c : List Nat) : Nat := bits (cfgWord c 1) 13 0
def cSscword (c : List Nat) : Nat := bits (cfgWord c 2) 19 0
def cOdbase (c : List Nat) : Nat := bits (cfgWord c 3) 13 0
def cOscword (c : List Nat) : Nat := bits (cfgWord c 4) 19 0
def cCntword (c : List Nat) : Nat := bits (cfgWord c 5) 19 0

/-- Descriptor of stage i (R113), 128 bits. -/
def cStage (c : List Nat) (i : Nat) : Nat :=
  cfgWord c (8 + 4 * i) + 2 ^ 32 * cfgWord c (9 + 4 * i) + 2 ^ 64 * cfgWord c (10 + 4 * i)
    + 2 ^ 96 * cfgWord c (11 + 4 * i)

def dKind (d : Nat) : Nat := bits d 3 0
def dOp (d : Nat) : Nat := bits d 7 4
def dTab (d : Nat) : Nat := bits d 11 8
def dTe (d : Nat) : Bool := bit d 12
def dBs (d : Nat) : Bool := bit d 13
def dSh1 (d : Nat) : Nat := bits d 19 14
def dSh2 (d : Nat) : Nat := bits d 25 20
def dFlg (d : Nat) : Nat := bits d 31 26
def dK0 (d : Nat) : Nat := bits d 63 32
def dK1 (d : Nat) : Nat := bits d 95 64
def dK2 (d : Nat) : Nat := bits d 127 96

/-- The number n of stages: the leading stages whose kind is not 0 (R116). -/
def cStages (c : List Nat) : Nat := ((List.range 8).takeWhile fun i => dKind (cStage c i) != 0).length

/-- The descriptors of the chain. -/
def cChain (c : List Nat) : List Nat := (List.range (cStages c)).map (cStage c)

/-- The PACK stage that ends the chain, if one does. -/
def cPack (c : List Nat) : Option Nat :=
  match (cChain c).getLast? with
  | some d => if dKind d = 12 then some (dOp d) else none
  | none => none

/-- The first GATHER stage. -/
def cGather (c : List Nat) : Option Nat := (cChain c).find? fun d => dKind d == 9

/-- Snapshot lines (R121). -/
def cSnap (c : List Nat) : Nat :=
  match cGather c with
  | some d => bits (dK1 d) 5 0 + 1
  | none => 0

def cGline (c : List Nat) : Nat :=
  match cGather c with
  | some d => bits (dK0 d) 13 0
  | none => 0

/-- The output formats of R116. -/
def ofmtOk (f : Nat) : Bool := f == fmtInt8 || f == fmtInt4 || f == fmtS16 || f == fmtS32
def bfmtOk (f : Nat) : Bool := f == fmtInt8 || f == fmtS16 || f == fmtS32

/-! ## Placement (R107 to R109, R122) -/

/-- Words of a 128-lane vector. -/
def vecWords (f : Nat) : Nat := 4 * fmtBits f

/-- The line, counted from the first, of vector j of a tensor that starts in slot `slot`. -/
def vecLine (f slot j : Nat) : Nat := if f = fmtS32 then 2 * j else (slot + j) / rplOf f

/-- Lines of m vectors. -/
def runLines (f slot m : Nat) : Nat := if f = fmtS32 then 2 * m else (slot + m - 1) / rplOf f + 1

/-- Scale word of the vector in place j, given the first data line and slot (R108, R122). -/
def scaleAddr (word0 : Nat) (rpl line dbase slot j : Nat) : Int :=
  (word0 : Int) + (rpl : Int) * ((line : Int) - (dbase : Int)) + (slot : Int) + (j : Int)

/-- The output format in force: s32 where OFMT names none (R173). -/
def outFmt (c : List Nat) : Nat := if ofmtOk (cOfmt c) then cOfmt c else fmtS32

/-- The stream format in force. -/
def strFmt (c : List Nat) : Nat := if bfmtOk (cBfmt c) then cBfmt c else fmtS32

/-- RPL of the output scales: that of the PACK stage (R173). -/
def packRpl (op : Nat) : Nat := if op = 1 then 4 else 2

/-- Output vectors: one under LASTONLY (R123). -/
def outVecs (c : List Nat) (m : Nat) : Nat := if cLast c then 1 else m

/-! ## Output writes of VX (R122, R123, R127) -/

/-- Where the source and the output start: for a bin form, in the slot of the present counters. -/
def Core.srcLine (c : Core) (t : Nat) (o : VrunOp) : Nat :=
  match o.sbin with
  | some r => (c.binTake t r false).base
  | none => o.sline

def Core.outLine (c : Core) (t : Nat) (o : VrunOp) : Nat :=
  match o.oslotTaken, o.obin with
  | some x, _ => x.base
  | none, some r => (c.binTake t r true).base
  | none, none => o.oline

/-- The next write of a run whose output starts at line `oline`: whether it is a scale write, its due cycle, its line (for
a data write, counted from the start), its words. A scale line is formed when its last vector has left. -/
def VrunOp.nextWrite (o : VrunOp) (oline : Nat) : Option (Bool × Nat × Int × List (Nat × PWord 32)) :=
  let addr := fun j => scaleAddr (cOscword o.cfg) (packRpl ((cPack o.cfg).getD 0)) oline (cOdbase o.cfg) o.oslot j
  let data := o.outs.head?.map fun w => (false, w.due, (w.line : Int), w.words)
  let scale := match o.scaleWords with
    | [] => none
    | (j, _, _) :: _ =>
      let line := addr j / 64
      let g := o.scaleWords.takeWhile fun x => addr x.1 / 64 == line
      let done := decide (g.length < o.scaleWords.length) || o.entered == o.count
        || (g.getLast?.map fun x => (addr x.1 + 1) % 64 == 0) == some true
      if done then some (true, (g.getLast?.map fun x => x.2.1).getD 0, line, g.map fun x => (wrapU 6 (addr x.1), x.2.2))
      else none
  match data, scale with
  | none, x => x
  | x, none => x
  | some d, some x => if x.2.1 < d.2.1 then some x else some d

/-- Whether the run has a write to make. -/
def Core.hasWrite (c : Core) (t : Nat) (o : VrunOp) : Bool :=
  !o.refused && (o.nextWrite (c.outLine t o)).isSome

/-- Lines that m accumulator rows fill (R42, R177). -/
def accLinesOf (m : Nat) : Nat := ceilDiv (5 * m) 2

/-! ## Units (R178) -/

/-- Lines of the scratchpad or stock runs of an operation. -/
def DxOp.lines (o : DxOp) : Nat :=
  match o.kind with
  | .acr => accLinesOf o.count
  | .acw => accLinesOf o.count
  | _ => o.count

/-- Lines per unit. -/
def DxOp.unit (o : DxOp) : Nat :=
  match o.kind with
  | .fill => if o.stock then 3 else 4
  | .copy => if o.stock then 1 else 2
  | _ => 1

/-- T of R178. -/
def DxOp.units (o : DxOp) : Nat := ceilDiv o.lines o.unit

/-- Lines of unit i. -/
def DxOp.unitLines (o : DxOp) (i : Nat) : Nat := min o.unit (o.lines - i * o.unit)

/-- Whether the operation reads the stock, and writes it. -/
def DxOp.readsStock (o : DxOp) : Bool := o.kind == .ld || (o.kind == .copy && o.stock)
def DxOp.writesStock (o : DxOp) : Bool := o.kind == .st || ((o.kind == .copy || o.kind == .fill) && o.stock)

/-- Whether the operation reads scratchpad lines, and writes them. -/
def DxOp.readsScr (o : DxOp) : Bool := o.kind == .st || o.kind == .acw || (o.kind == .copy && !o.stock)
def DxOp.writesScr (o : DxOp) : Bool := o.kind == .ld || o.kind == .acr || ((o.kind == .copy || o.kind == .fill) && !o.stock)

/-- Consecutive lines. -/
def lineRun (line n : Nat) : List Nat := (List.range n).map fun i => line + i

/-! ## The banks of a cycle (R52, R53) -/

/-- A port of an engine: its read port or its write port. -/
def portOf (e : Engine) (write : Bool) : Nat := 2 * engCode e + flag write

/-- The banks that the write port of VX takes in cycle t, by the write that stands first. -/
def Core.vxBanks (c : Core) (t : Nat) : List Nat :=
  match c.vx.runs.find? (c.hasWrite t) with
  | none => []
  | some o =>
    match o.nextWrite (c.outLine t o) with
    | none => []
    | some (scale, due, line, _) =>
      if max due (c.vx.lastOut + 1) = t then
        bankOf (if scale || ((o.outs.head?.map (·.count)).getD false) then line else line + (c.outLine t o : Int))
      else []

/-- The first line of the scratchpad run of a DX operation: of a bin form in the slot taken, or in that of the counters. -/
def Core.dxBase (c : Core) (t : Nat) (o : DxOp) : Nat :=
  match o.bin, o.slot with
  | some _, some b => b.base
  | some r, none => (c.binTake t r (!o.readsScr)).base
  | none, _ => if o.readsScr then o.src else o.dst

/-- The lines of unit i. -/
def Core.unitRun (c : Core) (t : Nat) (o : DxOp) (write : Bool) (i : Nat) : List Nat :=
  lineRun ((if o.bin.isNone && write then o.dst else c.dxBase t o) + i * o.unit) (o.unitLines i)

/-- The banks that an operation of DX takes in cycle t by reads or by writes of units that it has yet to move. -/
def Core.dxBanks (c : Core) (edx ddx t : Nat) (write : Bool) (o : DxOp) : List Nat :=
  let start := o.issue + edx + o.slip + (if write then ddx else 0)
  let i := t - start
  if o.refused || decide (t < start) || decide (i < (if write then o.wr else o.rd)) || decide (o.units ≤ i)
      || !(if write then o.writesScr else o.readsScr) then []
  else (c.unitRun t o write i).map (· % 16)

/-- The banks that ports standing higher in the order of R53 than `port` have yet to take in cycle t: the write port of VX and the ports
of DX; the reads of MX, VX and NX come about of themselves. -/
def State.above (s : State) (k port t : Nat) : List Nat :=
  let c := s.core k
  (if portOf .vx true < port then c.vxBanks t else [])
  ++ (if portOf .dx true < port then c.dx.ops.flatMap fun o =>
      c.dxBanks s.ctEDX s.ctDDX t false o ++ c.dxBanks s.ctEDX s.ctDDX t true o else [])

/-- The banks that other ports hold in cycle t. -/
def CoreMem.held (m : CoreMem) (port t : Nat) : List Nat :=
  if m.slotCycle = t then (m.slotBanks.filter fun b => b.1 != port).map (·.2) else []

/-- Whether a port has made its access of cycle t. -/
def CoreMem.used (m : CoreMem) (port t : Nat) : Bool := m.slotCycle == t && m.slotBanks.any fun b => b.1 == port

/-- The run of cycles in which island ports took a bank, after cycle t (R54). -/
def bankRun (t : Nat) (l : List (Nat × Nat × Nat)) (b : Nat) : List (Nat × Nat × Nat) :=
  match keyGet l b with
  | some (first, last) => if t ≤ last + 1 then keyPut l b (first, max last t) else keyPut l b (t, t)
  | none => keyPut l b (t, t)

/-- Take banks in cycle t. -/
def CoreMem.claim (m : CoreMem) (port t : Nat) (banks : List Nat) : CoreMem :=
  { m with slotCycle := t, slotBanks := (if m.slotCycle = t then m.slotBanks else []) ++ banks.map fun b => (port, b)
           bankRuns := banks.foldl (bankRun t) m.bankRuns }

/-- The cycles from `due` on, up to cycle t, in which other ports have taken a bank that an access of cycle `due` needs (R53). -/
def CoreMem.lostSince (m : CoreMem) (due t : Nat) (banks : List Nat) : Nat :=
  banks.foldl (fun n b => match keyGet m.bankRuns b with
    | some (first, last) => if first ≤ due then max n (min (last + 1) t - due) else n
    | none => n) 0

/-- The banks that keep a port from a slot in cycle t (R53). -/
def State.held (s : State) (k port t : Nat) : List Nat := (s.core k).mem.held port t ++ s.above k port t

end Sys2Proof.Machine
end

