-- ==== Sys2Proof/Machine/Fetch.lean ====
section
/-! DEFINITION. The line reads that MX and VX make on their schedules, and bank slots (R52, R53, R54, R89, R127, R128). The
reads of a core come about, each in its own cycle, before anything that writes the scratchpad, takes a bank slot or uses
what was read. -/

namespace Sys2Proof.Machine

/-! ## Schedules -/

/-- The cycle after an earlier one; a term with no earlier operation is dropped (R92). -/
def after : Option Nat → Nat
  | none => 0
  | some t => t + 1

/-- Rows per line (R86). -/
def rowsPerLine (af : Nat) : Nat := if af = fmtInt4 then 4 else 2

/-- A poisoned line. -/
def badLine : List (PWord 32) := List.replicate 64 ⟨0, true⟩

/-- Reads with the last cycle that each may take, moved to the latest cycles that keep one read per cycle (R89, R127). -/
def spread : List LineRead → List LineRead
  | [] => []
  | f :: r => match spread r with
    | [] => [f]
    | g :: t => { f with due := min f.due (g.due - 1) } :: g :: t

/-- The reads of an MMA (R86, R89). -/
def MmaOp.reads (o : MmaOp) : List LineRead :=
  let rpl := rowsPerLine o.afmt
  spread ((List.range o.count).flatMap fun j =>
    let need := o.first + j * o.p2 / 2 - 2
    let d := (o.aslot + j) / rpl
    (if j = 0 ∨ (o.scoff + j) % 64 = 0 then
      [{ due := need, row := j, what := .scale, line := ((o.scline + (o.scoff + j) / 64 : Nat) : Int) }] else [])
    ++ (if j = 0 ∨ (o.aslot + j) % rpl = 0 then
      [{ due := need, row := j, what := .data, line := (((if o.bin.isSome then d else o.aline + d) : Nat) : Int) }]
      else []))

/-- Reads that keep one read per cycle before cycle `lim`, and the first cycle that they take (R89). -/
def squeeze (lim : Nat) : List LineRead → List LineRead × Nat
  | [] => ([], lim)
  | f :: r =>
    let x := squeeze lim r
    ({ f with due := min f.due (x.2 - 1) } :: x.1, min f.due (x.2 - 1))

/-- The reads of the MMAs in flight, when those of the next one begin in cycle `lim`: MX has one read port (R89). -/
def respread (lim : Nat) : List MxOp → List MxOp × Nat
  | [] => ([], lim)
  | .load l :: r =>
    let x := respread lim r
    (.load l :: x.1, x.2)
  | .mma o :: r =>
    let x := respread lim r
    let f := squeeze x.2 o.fetch
    (.mma { o with fetch := f.1 } :: x.1, f.2)

/-- How many of the cycles lost come before row or vector j. -/
def lostBefore (l : List Nat) (j : Nat) : Nat := (l.filter fun r => decide (r ≤ j)).length

/-- The line that was read for a purpose. -/
def gotLine (l : List LineGot) (what : LineUse) (line : Int) : Option (List (PWord 32)) :=
  (l.find? fun x => x.what == what && x.line == line).map (·.words)

/-! ## Lists of operations -/

/-- Change the first MMA that meets p. -/
def modMma (p : MmaOp → Bool) (f : MmaOp → MmaOp) : List MxOp → List MxOp
  | [] => []
  | .load l :: r => .load l :: modMma p f r
  | .mma o :: r => if p o then .mma (f o) :: r else .mma o :: modMma p f r

/-- Change every MMA. -/
def mapMma (f : MmaOp → MmaOp) : List MxOp → List MxOp
  | [] => []
  | .load l :: r => .load l :: mapMma f r
  | .mma o :: r => .mma (f o) :: mapMma f r

/-- Change the first run that meets p. -/
def updRun (p : VrunOp → Bool) (f : VrunOp → VrunOp) : List VrunOp → List VrunOp
  | [] => []
  | r :: t => if p r then f r :: t else r :: updRun p f t

/-- Change the runs of core k. -/
def State.modRuns (s : State) (k : Nat) (f : List VrunOp → List VrunOp) : State :=
  s.modCore k fun c => c.modVx fun v => { v with runs := f v.runs }

/-! ## Lost cycles (R53, R54, R89, R127) -/

/-- The entry cycle of a row (R92), with the cycles lost (R89). -/
def MmaOp.enterAt (o : MmaOp) (j : Nat) : Nat := o.first + j * o.p2 / 2 + lostBefore o.slips j

/-- Loads that wait for the port or for the last row entry of their buffer start as late as these have moved (R84): p is the last
port cycle of the load before, e0 and e1 are the last row entries. -/
def relay (p e0 e1 : Option Nat) : List MxOp → List MxOp
  | [] => []
  | .load l :: r =>
    let start := max l.start (max (after p) (after (if l.buf = 0 then e0 else e1)))
    .load { l with start := start } :: relay (some (start + l.ports - 1)) e0 e1 r
  | .mma o :: r =>
    let e := some (o.enterAt (o.count - 1))
    .mma o :: relay p (if o.refused || o.buf != 0 then e0 else e) (if o.refused || o.buf == 0 then e1 else e) r

/-- The last port cycle of the latest load that meets p; x when there is none. -/
def lastPortOf (p : LoadOp → Bool) (x : Option Nat) : List MxOp → Option Nat
  | [] => x
  | .load l :: r => lastPortOf p (if p l then some (l.start + l.ports - 1) else x) r
  | .mma _ :: r => lastPortOf p x r

/-- A read of the MMA issued in cycle u is displaced: its row r, every later entry and what follows them come a cycle
later, the loads and completions that wait for them among it (R84, R89). -/
def Core.loseMx (c : Core) (u r t : Nat) : Core :=
  let late := fun (f : LineRead) => { f with due := f.due + 1 }
  let next := fun (b : Nat) (x : Option Nat) => if c.mx.ops.any fun o => (match o with
    | .mma o => decide (u ≤ o.issue) && o.buf == b && !o.refused
    | .load _ => false) then x.map (· + 1) else x
  (c.modMx fun m =>
    let ops := relay none none none (mapMma (fun o =>
      if o.issue = u then { o with fetch := o.fetch.map late, slips := o.slips ++ [r] }
      else if u < o.issue then { o with fetch := o.fetch.map late, slips := o.slips ++ [0] } else o) m.ops)
    { m with
      ops := ops
      lastEntry0 := next 0 m.lastEntry0, lastEntry1 := next 1 m.lastEntry1, lastPort := lastPortOf (fun _ => true) m.lastPort ops
      lastDone0 := lastPortOf (fun l => l.buf == 0) m.lastDone0 ops
      lastDone1 := lastPortOf (fun l => l.buf != 0) m.lastDone1 ops }).modStream .mx fun x =>
    { x with ready := if t < x.ready then x.ready + 1 else x.ready }

/-- A read in cycle t of the VX operation issued in cycle u is displaced: its vector r and every later cycle of R127 come a
cycle later. -/
def Core.loseVx (c : Core) (u r t : Nat) : Core :=
  let late := fun (f : LineRead) => { f with due := f.due + 1 }
  let moved := c.vx.runs.any fun o => decide (u ≤ o.issue)
  let up := fun (x : Option Nat) => if moved then x.map (· + 1) else x
  (c.modVx fun v =>
    { v with
      loads := v.loads.map fun x => if u ≤ x.issue then { x with fetch := x.fetch.map late, due := x.due + 1 } else x
      runs := v.runs.map fun o =>
        if o.issue < u then o
        else
          let waits := o.late && v.loads.any fun x => decide (u ≤ x.issue) && !x.tab && x.slot == o.cslot
          { o with fetch := o.fetch.map late, slips := o.slips ++ [if o.issue = u then r else 0]
                   check := if waits then o.check + 1 else o.check }
      lastExit := up v.lastExit, lastDone := up v.lastDone, lastTail := if moved then v.lastTail + 1 else v.lastTail
      }).modStream .vx fun x => { x with ready := if t < x.ready then x.ready + 1 else x.ready }

/-- A read in cycle t of the NX operation issued in cycle u is displaced: every later step of it comes a cycle later
(R187). -/
def Core.loseNx (c : Core) (u t : Nat) : Core :=
  (c.modNx fun n => { n with ops := n.ops.map fun o =>
      if o.issue = u then { o with fetch := o.fetch.map fun f => { f with due := f.due + 1 } } else o }).modStream .nx fun x =>
    { x with ready := if t < x.ready then x.ready + 1 else x.ready }

/-! ## The reads -/

/-- What reads next. -/
inductive Reader where
  | mma (o : MmaOp)
  | load (x : TabOp)
  | run (o : VrunOp)
  | send (o : NxOp)

/-- The earliest of a list of reads; of one cycle, the first. -/
def earliest : List (LineRead × Reader) → Option (LineRead × Reader)
  | [] => none
  | x :: r => match earliest r with
    | none => some x
    | some y => if y.1.due < x.1.due then some y else some x

/-- The first read that each operation owes: MX stands before VX and VX before NX (R53). -/
def Core.heads (c : Core) : List (LineRead × Reader) :=
  (c.mx.ops.filterMap fun o => match o with
    | .mma o => o.fetch.head?.map fun f => (f, Reader.mma o)
    | .load _ => none)
  ++ (c.vx.loads.filterMap fun x => x.fetch.head?.map fun f => (f, Reader.load x))
  ++ (c.vx.runs.filterMap fun o => o.fetch.head?.map fun f => (f, Reader.run o))
  ++ (c.nx.ops.filterMap fun o => o.fetch.head?.map fun f => (f, Reader.send o))

/-- How many reads are owed. -/
def Core.owedReads (c : Core) : Nat :=
  c.mx.ops.foldl (fun n o => match o with
    | .mma o => n + o.fetch.length
    | .load _ => n) 0
  + c.vx.loads.foldl (fun n x => n + x.fetch.length) 0 + c.vx.runs.foldl (fun n o => n + o.fetch.length) 0
  + c.nx.ops.foldl (fun n o => n + o.fetch.length) 0

/-- Read a line; outside the scratchpad it gives poison over unspecified values. -/
def State.fetchLine (s : State) (k eng : Nat) (line : Int) : List (PWord 32) × State :=
  if spanOut line 1 then s.spoilAll badLine else s.readLine k eng line.toNat

/-- A line as a read of it delivers it, with nothing changed (R57, R75). -/
def Core.peekLine (c : Core) (line : Int) : List (PWord 32) :=
  if spanOut line 1 then badLine
  else if c.readsZero false line.toNat then zeroLine
  else (List.range 64).map fun i =>
    let w := 64 * line.toNat + i
    let x := c.scrWord w
    ⟨x.val, x.poison || c.mem.scr.flaw w == some .double⟩

/-- Take the bin slot of a read at its first line in cycle t (R62, R88): at occupancy 0 it records 0x030A. -/
def State.takeSlot (s : State) (k : Nat) (e : Engine) (index t : Nat) (r : BinRef) (b : Option BinSlot) (quiet : Bool := false) :
    BinSlot × State :=
  match b with
  | some x => (x, s)
  | none =>
    let x := (s.core k).binTake t r false
    (x, if x.failed && !quiet then s.faultAt k e index 0x030A (pack [(14, x.base)]) else s)

/-- A read of an MMA. -/
def State.fetchMma (s : State) (k : Nat) (o : MmaOp) (f : LineRead) : State :=
  let sl := match f.what, o.bin with
    | .data, some r => let x := s.takeSlot k .mx o.owed.index f.due r o.slot
                       (some x.1, x.2)
    | _, _ => (o.slot, s)
  let base := match f.what, sl.1 with
    | .data, some x => x.base
    | _, _ => 0
  let line := f.line + (base : Int)
  let s := sl.2.modCore k fun c => c.modMem fun m => m.claim (portOf .mx false) f.due (bankOf line)
  let r := s.fetchLine k (engCode .mx) line
  r.2.modCore k fun c => c.modMx fun m =>
    { m with
      ops := modMma (fun x => x.issue == o.issue)
        (fun x => { x with slot := sl.1, fetch := x.fetch.drop 1, got := x.got ++ [⟨f.what, line, r.1⟩] }) m.ops }

/-- A read of VX in a bank that MX or the write port of VX holds loses the cycle (R53, log 7); else it is made, after what its first bank slot brings. -/
def State.fetchVx (s : State) (k issue : Nat) (f : LineRead) (line : Int) (slot : State → State)
    (put : List (PWord 32) → Vx → Vx) : State :=
  if (bankOf line).any fun b => ((s.core k).mem.held (portOf .vx false) f.due).contains b then
    s.modCore k fun c => (c.loseVx issue f.row f.due).modRegs fun r => { r with islandConf := satInc r.islandConf 1 }
  else
    let s := (slot s).modCore k fun c => c.modMem fun m => m.claim (portOf .vx false) f.due (bankOf line)
    let r := s.fetchLine k (engCode .vx) line
    r.2.modCore k fun c => c.modVx (put r.1)

/-- The line of a read of a run, whose source starts at line `base`. -/
def VrunOp.fetchAt (o : VrunOp) (f : LineRead) (base : Nat) : Int :=
  match f.what with
  | .scale => (f.line + ((rplOf o.src * base : Nat) : Int)) / 64
  | .data => if o.sbin.isSome then f.line + (base : Int) else f.line
  | _ => f.line

/-- A read of a run. -/
def State.fetchRun (s : State) (k : Nat) (o : VrunOp) (f : LineRead) : State :=
  let base := match o.slot, o.sbin with
    | some x, _ => x.base
    | none, some r => ((s.core k).binTake f.due r false).base
    | none, none => o.sline
  let line := o.fetchAt f base
  let slot := fun (s : State) => match f.what, o.sbin with
    | .data, some r =>
      let x := s.takeSlot k .vx o.owed.index f.due r o.slot o.cfgPoison
      x.2.modRuns k (updRun (fun y => y.issue == o.issue) fun y => { y with slot := some x.1 })
    | _, _ => s
  s.fetchVx k o.issue f line slot fun ws v =>
    { v with runs := updRun (fun x => x.issue == o.issue) (fun x =>
        if f.what == .snap then { x with fetch := x.fetch.drop 1, snap := x.snap ++ ws }
        else { x with fetch := x.fetch.drop 1, got := x.got ++ [⟨f.what, line, ws⟩] }) v.runs }

/-- A read of NX in a bank that an engine before it takes loses the cycle, and so does, without a conflict, one whose port is in use; the
first read from a bin takes its slot. -/
def State.fetchNx (s : State) (k : Nat) (o : NxOp) (f : LineRead) : State :=
  let base := match o.slot, o.bin with
    | some x, _ => x.base
    | none, some r => ((s.core k).binTake f.due r false).base
    | none, none => 0
  let line := f.line + (base : Int)
  if (s.core k).mem.used (portOf .nx false) f.due then s.modCore k fun c => c.loseNx o.issue f.due
  else if (bankOf line).any fun b => (s.held k (portOf .nx false) f.due).contains b then
    s.modCore k fun c => (c.loseNx o.issue f.due).modRegs fun r => { r with islandConf := satInc r.islandConf 1 }
  else
    let x := match o.bin with
      | some r => let x := s.takeSlot k .nx o.owed.index f.due r o.slot
                  (some x.1, x.2)
      | none => (o.slot, s)
    let s := x.2.modCore k fun c => c.modMem fun m => m.claim (portOf .nx false) f.due (bankOf line)
    let r := s.fetchLine k (engCode .nx) line
    r.2.modCore k fun c => c.modNx fun n => { n with ops := n.ops.map fun y =>
      if y.issue = o.issue then { y with slot := x.1, fetch := y.fetch.drop 1, words := y.words ++ r.1 } else y }

/-- One read. -/
def State.fetchOne (s : State) (k : Nat) (f : LineRead) : Reader → State
  | .mma o => s.fetchMma k o f
  | .load x => s.fetchVx k x.issue f f.line id fun ws v =>
    { v with loads := v.loads.map fun y =>
        if y.issue = x.issue then { y with fetch := y.fetch.drop 1, words := y.words ++ ws } else y }
  | .run o => s.fetchRun k o f
  | .send o => s.fetchNx k o f

/-- The reads of core k in order: of MX up to the present cycle, of VX those that fall before cycle `lim`, of NX those before
cycle `nlim`. -/
def State.fetchTo (s : State) (k lim nlim : Nat) : Nat → State
  | 0 => s
  | n + 1 => match earliest (s.core k).heads with
    | some x =>
      let open' := match x.2 with
        | .mma _ => decide (x.1.due ≤ s.now)
        | .send _ => decide (x.1.due < nlim)
        | _ => decide (x.1.due < lim)
      if open' then (s.fetchOne k x.1 x.2).fetchTo k lim nlim n else s
    | none => s

/-- The reads that fall before a cycle of the engine's own, and those of MX in the present cycle. Each step makes a read or loses
a cycle to another access. -/
def State.fetchUpTo (s : State) (k lim nlim : Nat) : State := s.fetchTo k lim nlim (2 * (s.core k).owedReads + 64)

/-- The reads of core k that fall before cycle `lim`, and those of MX in the present cycle. -/
def State.fetchBefore (s : State) (k lim : Nat) : State := s.fetchUpTo k lim lim

/-- The reads of core k that fall in the present cycle or before. -/
def State.fetchDue (s : State) (k : Nat) : State := s.fetchBefore k (s.now + 1)

/-- Let time pass to a cycle that lost cycles may move. -/
def State.toCycle (s : State) (k : Nat) (at' : State → Nat) : Nat → State
  | 0 => s
  | n + 1 =>
    let s := s.advance (at' s)
    let s := s.fetchBefore k s.now
    if at' s ≤ s.now then s else s.toCycle k at' n

/-- The ready bound of a stream, with the cycles that VX or NX loses until then. -/
def State.boundOf (s : State) (k : Nat) (e : Engine) : Nat :=
  let r := fun (s : State) => ((s.core k).stream e).ready
  if e = .vx ∨ e = .nx then r (s.toCycle k r ((s.core k).owedReads + 1)) else r s

/-! ## Other accesses (R52, R53) -/

/-- Take bank slots for an access whose banks are given for each cycle. While a port that stands higher takes one of them, or another
port has taken it, the access loses the cycle and competes again in the next; while its own port is in use it waits. The answer is how
many cycles were lost to other ports. -/
def State.takeBanksIn (s : State) (k port : Nat) (banks : State → List Nat) : Nat → Nat × State
  | 0 => (0, s)
  | n + 1 =>
    let s := s.fetchUpTo k (if port = portOf .vx true then s.now else s.now + 1)
      (if port ≤ portOf .dx true then s.now else s.now + 1)
    if (s.core k).mem.used port s.now then (s.advance (s.now + 1)).takeBanksIn k port banks n
    else if (banks s).any fun b => (s.held k port s.now).contains b then
      let r := (s.advance (s.now + 1)).takeBanksIn k port banks n
      (r.1 + 1, r.2)
    else (0, s.modCore k fun c => c.modMem fun m => m.claim port s.now (banks s))

/-- Take bank slots for an access due in cycle `due`: each cycle lost to another port counts in ISLAND_CONFLICTS (R53, log 7), those
before now as well. The answer tells how many cycles late it came, and the state of its cycle. -/
def State.takeBanks (s : State) (k : Nat) (e : Engine) (write : Bool) (due : Nat) (banks : State → List Nat) : Nat × State :=
  let late := (s.core k).mem.lostSince due s.now (banks s)
  let r := s.takeBanksIn k (portOf e write) banks ((s.core k).owedReads + 40)
  let n := late + r.1
  (late + (r.2.now - s.now),
    if n = 0 then r.2 else r.2.modCore k fun c => c.modRegs fun m => { m with islandConf := satInc m.islandConf n })

/-! ## ADVANCE (R62) -/

/-- ADVANCE of a bin access at its completion, when it carried ADVANCE and passed its check (R62); the reads that are due have judged
the counters before it (R63). -/
def State.binDone (s : State) (k : Nat) (r : Option BinRef) (slot : Option BinSlot) (write : Bool) : State :=
  match r, slot with
  | some r, some sl =>
    if r.adv && !sl.failed then
      let s := s.fetchDue k
      s.modCore k fun c => c.modRegs fun m => { m with bins := modAt m.bins r.bin fun b => b.count s.now write }
    else s
  | _, _ => s

end Sys2Proof.Machine
end

