-- ==== Sys2Proof/Machine/Lines.lean ====
section
/-! DEFINITION. Line writes: write sums, poison in keep regions, words and lines written and poisoned. -/

namespace Sys2Proof.Machine

/-! ## Write sums and poison in keep regions -/

/-- The poison mask of R398: one bit per word, little-endian bytes. -/
def maskBytes (ps : List Bool) : List Byte :=
  natToBytes (ps.foldr (fun b n => flag b + 2 * n) 0) (ceilDiv ps.length 8)

/-- The term of one write (R398). -/
def sumTerm (stock : Bool) (addr : Nat) (data : List Byte) (mask : List Bool) : Nat :=
  crc64 ((natToBytes (flag stock) 1) ++ natToBytes addr 4 ++ natToBytes mask.length 2 ++ data ++ maskBytes mask)

/-- Add a write to the core's write sum: an attached core adds it during a pass (R398). -/
def State.addSum (s : State) (k : Nat) (stock : Bool) (addr : Nat) (data : List Byte) (mask : List Bool) : State :=
  if (s.core k).ctl.attached then
    s.modCore k fun c => c.modCtl fun r => { r with twinSum := r.twinSum + BitVec.ofNat 64 (sumTerm stock addr data mask) }
  else s

/-- A poisoned write into an APPEND region records 0x0311 once per region and pass (R422). -/
def State.appendPoison (s : State) (k eng : Nat) (stock : Bool) (line : Nat) (poisoned : Bool) : State :=
  if poisoned then
    match (s.core k).regionOf stock line with
    | some (i, r) =>
      if r.kind = kindAppend ∧ ¬ (s.core k).regs.appendPoisoned.contains i then
        (s.modCore k fun c => c.modRegs fun m => { m with appendPoisoned := markPut m.appendPoisoned i }).faultCore k eng
          0x0311 (pack [(6, i), (if stock then 19 else 14, line)])
      else s
    | none => s
  else s

/-! ## Line writes -/

def putScrWords (st : Store) (w : Nat) : List (PWord 32) → Store
  | [] => st
  | x :: r => putScrWords (st.put 4 w x.val.toNat x.poison) (w + 1) r

/-- Store words from narrow word w on, without any check and with no term of the write sum (R55, R58). -/
def State.storeWords (s : State) (k w : Nat) (ws : List (PWord 32)) : State :=
  let a := (s.fetchDue k).spoilAll ws
  a.2.modCore k fun c => c.modMem fun m => { m with scr := putScrWords m.scr w a.1 }

/-- The write of words of one line by an engine or an arrival that was permitted: the store, its term of the write sum
(R398) and the check of poison in an APPEND region (R422). -/
def State.putWords (s : State) (k eng w : Nat) (ws : List (PWord 32)) : State :=
  let a := (s.fetchDue k).spoilAll ws
  let s := a.2.modCore k fun c => c.modMem fun m => { m with scr := putScrWords m.scr w a.1 }
  let s := s.addSum k false w (wordBytes a.1) (a.1.map (·.poison))
  s.appendPoison k eng false (w / 64) (ws.any (·.poison))

def putStockWords (st : Store) (w : Nat) : List (PWord 64) → Store
  | [] => st
  | x :: r => putStockWords (st.put 8 w x.val.toNat x.poison) (w + 1) r

/-- Both halves of a stock word carry its poison. -/
def evenPoison : List (PWord 32) → List (PWord 32)
  | a :: b :: r => ⟨a.val, a.poison || b.poison⟩ :: ⟨b.val, a.poison || b.poison⟩ :: evenPoison r
  | l => l

/-- Write a whole stock line that was permitted (R65, R398, R422). -/
def State.putStockLine (s : State) (k eng line : Nat) (ws : List (PWord 32)) : State :=
  let a := s.spoilAll (evenPoison ws)
  let d := joinHalves a.1
  let s := a.2.modCore k fun c => c.modMem fun m => { m with stock := putStockWords m.stock (32 * line) d }
  let s := s.addSum k true (32 * line) (wordBytes a.1) (d.map (·.poison))
  s.appendPoison k eng true line (d.any (·.poison))

/-- Whether a refused write may poison a line (R80): in its memory, outside bins and keep regions and control lines; in
the stock, in a STAGING region. -/
def Core.poisonable (c : Core) (stock : Bool) (line : Nat) : Bool :=
  if stock then
    decide (line < stockLines) && (match c.regionOf true line with
      | some (_, r) => r.kind == kindStaging
      | none => false)
  else decide (line < scrLines) && !c.binTouch line 1 && !c.keep line && !c.ctrlTouch line 1

/-- Poison the words of a scratchpad line that a refused operation names (R80). -/
def State.poisonWords (s : State) (k w n : Nat) : State :=
  if (s.core k).poisonable false (w / 64) then s.storeWords k w (List.replicate n ⟨0, true⟩) else s

/-- Store a whole stock line with no term of the write sum. -/
def State.storeStockLine (s : State) (k line : Nat) (ws : List (PWord 32)) : State :=
  let a := s.spoilAll (evenPoison ws)
  a.2.modCore k fun c => c.modMem fun m => { m with stock := putStockWords m.stock (32 * line) (joinHalves a.1) }

/-- Poison the lines of a destination (R80); a refused write adds no term of the write sum (R398). -/
def State.poisonLines (s : State) (k : Nat) (stock : Bool) (line : Nat) : Nat → State
  | 0 => s
  | n + 1 =>
    let s := if (s.core k).poisonable stock line then
        (if stock then s.storeStockLine k line badLine else s.storeWords k (64 * line) badLine)
      else s
    s.poisonLines k stock (line + 1) n

end Sys2Proof.Machine
end

