-- ==== Sys2Proof/Machine/Operands.lean ====
section
/-! DEFINITION. Instruction words: the control header, every operand form, and what makes an instruction illegal. -/

namespace Sys2Proof.Machine

/-! ## Field checks (R10, R157, R158) -/

/-- A field [hi:lo] with whether it offends. -/
abbrev Check := Nat × Nat × Bool

/-- The lowest bit of the first offending field, taken from the most significant bit downward (R158). -/
def firstBad : List Check → Option (Nat × Nat)
  | [] => none
  | (hi, lo, b) :: r =>
    match b, firstBad r with
    | false, x => x
    | true, none => some (hi, lo)
    | true, some (h, l) => if hi > h then some (hi, lo) else some (h, l)

/-- A reserved run: it offends when a bit is set. -/
def reserved (w hi lo : Nat) : Check := (hi, lo, bits w hi lo != 0)

/-! ## The control header (R135 to R138) -/

/-- Whether a counter field names a reserved counter (R136). -/
def ctrReserved (c : Nat) : Bool := decide (0x30 ≤ c) && decide (c ≤ 0x3E)

/-- Whether a counter field with its threshold or increment is legal (R136). -/
def ctrLegal (c n : Nat) : Bool := if c = 0x3F then n == 0 else !ctrReserved c && n != 0

/-- The checks of one wait or signal whose counter field has its lowest bit at `lo`, its value four bits below. -/
def ctrChecks (w lo : Nat) : List Check :=
  let c := bits w (lo + 5) lo
  let n := bits w (lo - 1) (lo - 4)
  [(lo + 5, lo, ctrReserved c), (lo - 1, lo - 4, !ctrReserved c && !ctrLegal c n)]

/-- A legal wait or signal that names a counter (R158: an illegal one is ignored). -/
def ctrField (w lo : Nat) : Option (Nat × Nat) :=
  let c := bits w (lo + 5) lo
  let n := bits w (lo - 1) (lo - 4)
  if c ≠ 0x3F ∧ ctrLegal c n then some (c, n) else none

def hOpc (w : Nat) : Nat := bits w 127 120
def hDelay (w : Nat) : Nat := bits w 79 70
def hSbi (w : Nat) : Bool := bit w 64
def hAdv (w : Nat) : Bool := bit w 65
def hOpx0 (w : Nat) : Bool := bit w 66
def hOpx1 (w : Nat) : Bool := bit w 67

/-- The legal waits A and B. -/
def hWaits (w : Nat) : List (Nat × Nat) := (ctrField w 114).toList ++ (ctrField w 104).toList
def hSigA (w : Nat) : Option (Nat × Nat) := ctrField w 94
def hSigB (w : Nat) : Option (Nat × Nat) := ctrField w 84

/-- The header checks common to every engine instruction. -/
def headerChecks (w : Nat) : List Check :=
  ctrChecks w 114 ++ ctrChecks w 104 ++ ctrChecks w 94 ++ ctrChecks w 84

/-! ## Opcodes (R147, R165) -/

def opSnop : Nat := 0xF0
def opSloop : Nat := 0xF1
def opSend : Nat := 0xF2

/-- Whether an opcode is assigned in an engine stream. -/
def opAssigned (e : Engine) (op : Nat) : Bool :=
  op == opSnop || op == opSloop || op == opSend ||
  match e with
  | .mx => op == 1 || op == 2
  | .vx => op == 1 || op == 2 || op == 3
  | .dx => decide (1 ≤ op) && decide (op ≤ 7)
  | .nx => decide (1 ≤ op) && decide (op ≤ 5)
  | .sx => false

/-- MOD bits that the instruction does not define, from `lo` upward (R137, R166). -/
def modReserved (w lo : Nat) : Check := reserved w 69 lo

/-- ADV without the bin flag (R166). -/
def advCheck (w : Nat) (binFlag : Bool) : Check := (65, 65, hAdv w && !binFlag)

/-- Bit [13] of a bin form that has its lowest bit at `lo` (R164). -/
def binBit (w lo : Nat) (binFlag : Bool) : Check := (lo + 13, lo + 13, binFlag && bit w (lo + 13))

/-- The operand and MOD checks of an instruction of an engine stream (R147, R166 to R185). -/
def operandChecks (e : Engine) (w : Nat) : List Check :=
  let op := hOpc w
  if op = opSnop ∨ op = opSend then [modReserved w 65, reserved w 63 0]
  else if op = opSloop then [modReserved w 65, reserved w 63 28]
  else match e with
  | .mx =>
    if op = 1 then [modReserved w 65, reserved w 63 23, (3, 1, decide (bits w 3 1 ≥ 4))]
    else [modReserved w 66, advCheck w (bit w 59), reserved w 63 60, (3, 1, decide (bits w 3 1 ≥ 2)),
      binBit w 4 (bit w 59)]
  | .vx =>
    if op = 1 then [modReserved w 65, reserved w 63 17]
    else if op = 2 then [modReserved w 65, reserved w 63 19]
    else [modReserved w 67, (66, 66, hOpx0 w && !bit w 51), advCheck w (bit w 50), reserved w 63 52,
      (5, 3, bits w 5 3 == 2 || bits w 5 3 == 3 || bits w 5 3 == 7), binBit w 22 (bit w 51)] ++
      (if bits w 5 3 = 4 then [reserved w 21 16] else [binBit w 6 (bit w 50)])
  | .dx =>
    if op = 1 then [modReserved w 65, reserved w 63 32]
    else if op = 2 then [modReserved w 65, reserved w 63 39]
    else if op = 3 then [modReserved w 65, reserved w 63 58]
    else if op = 4 then [modReserved w 67, advCheck w (hOpx0 w), reserved w 63 47, binBit w 19 (hOpx0 w)]
    else if op = 5 then [modReserved w 67, advCheck w (hOpx0 w), reserved w 63 47, binBit w 0 (hOpx0 w)]
    else [modReserved w 67, advCheck w (hOpx0 w), reserved w 63 32, binBit w 18 (hOpx0 w)]
  | .nx =>
    if op = 1 then [modReserved w 68, advCheck w (hOpx0 w), binBit w 32 (hOpx0 w)]
    else if op = 2 then [modReserved w 65, reserved w 63 59]
    else if op = 3 then [modReserved w 67, advCheck w (hOpx0 w), reserved w 63 34, binBit w 16 (hOpx0 w)]
    else if op = 4 then [modReserved w 67, advCheck w (hOpx0 w), reserved w 63 58, binBit w 32 (hOpx0 w)]
    else [modReserved w 65, reserved w 63 48]
  | .sx => []

/-- The lowest bit of the first offending field of an illegal engine instruction; none when it is legal (R157). -/
def engineBad (e : Engine) (w : Nat) : Option Nat :=
  (firstBad ((127, 120, !opAssigned e (hOpc w)) :: headerChecks w ++
    (if opAssigned e (hOpc w) then operandChecks e w else []))).map (·.2)

/-! ## Bin forms (R164) -/

/-- A scratchpad line field in plain or bin form. -/
def binRef (field : Nat) (binFlag adv : Bool) : Option BinRef :=
  if binFlag then some { bin := bits field 12 8, off := bits field 7 0, adv := adv } else none

/-! ## Stream control (R147) -/

def sloopIter (w : Nat) : Nat := bits w 15 0 + 1
def sloopBody (w : Nat) : Nat := bits w 27 16 + 1

/-! ## SX (R192 to R195) -/

def xOpc (w : Nat) : Nat := bits w 31 26
def xRd (w : Nat) : Nat := bits w 25 21
def xRa (w : Nat) : Nat := bits w 20 16
def xRb (w : Nat) : Nat := bits w 15 11
def xFunc (w : Nat) : Nat := bits w 10 0
def xImm (w : Nat) : Nat := bits w 15 0

/-- Whether an SX opcode is assigned (R193). -/
def xAssigned (op : Nat) : Bool :=
  (decide (1 ≤ op) && decide (op ≤ 8)) || (decide (0x10 ≤ op) && decide (op ≤ 0x14)) ||
  (decide (0x18 ≤ op) && decide (op ≤ 0x20)) || (decide (0x28 ≤ op) && decide (op ≤ 0x2B)) ||
  (decide (0x30 ≤ op) && decide (op ≤ 0x32)) || op == 0x3F

/-- The checks of an SX instruction (R192 to R197). -/
def xChecks (w : Nat) : List Check :=
  let op := xOpc w
  if op = 0x01 then [(10, 0, decide (xFunc w > 0x00A))]
  else if op = 0x06 then [(20, 16, xRa w != 0)]
  else if op = 0x07 then [reserved w 15 7, (6, 5, bits w 6 5 == 3)]
  else if op = 0x12 then [(25, 21, bit w 21 || xRd w == 0)]
  else if op = 0x1E then [(20, 16, xRa w != 0)]
  else if op = 0x20 then [reserved w 25 21, reserved w 15 0]
  else if op = 0x28 ∨ op = 0x29 then [(25, 20, decide (bits w 25 20 ≥ 0x30)), reserved w 11 0]
  else if op = 0x2A then [reserved w 25 16]
  else if op = 0x2B then
    [(15, 10, ctrReserved (bits w 15 10)), (9, 2, bits w 15 10 == 0x3F && bits w 9 2 != 0), reserved w 1 0]
  else if op = 0x30 then [reserved w 15 0]
  else if op = 0x31 then [reserved w 25 21, reserved w 15 1]
  else if op = 0x32 then [reserved w 15 2]
  else if op = 0x3F then [reserved w 25 0]
  else []

/-- The lowest bit of the first offending field of an illegal SX instruction (R158). -/
def sxBad (w : Nat) : Option Nat :=
  (firstBad ((31, 26, !xAssigned (xOpc w)) :: (if xAssigned (xOpc w) then xChecks w else []))).map (·.2)

/-- sext(imm16). -/
def sext16 (v : Nat) : Int := signed 16 v

end Sys2Proof.Machine
end

