-- ==== Sys2Proof/Machine/Streams.lean ====
section
/-! DEFINITION. Instruction streams and sync counters: fetch, issue, waits, signals, loops, skips, ends, the hang check. -/

namespace Sys2Proof.Machine

/-! ## Instruction memory (R132, R134) -/

/-- Instructions per bank. -/
def bankLen : Engine → Nat
  | .mx => 2048
  | .vx => 4096
  | .dx => 2048
  | .nx => 2048
  | .sx => 8192

/-- Bytes per instruction. -/
def instrBytes : Engine → Nat
  | .sx => 4
  | _ => 16

/-- Bytes per bank. -/
def bankBytes (e : Engine) : Nat := bankLen e * instrBytes e

/-- Where bank b of a stream starts in the core's instruction store. -/
def imemBase (e : Engine) (b : Nat) : Nat := (engCode e - 1) * 131072 + b * 65536

/-- The word at index i of the active bank. -/
def Core.instr (c : Core) (e : Engine) (i : Nat) : Nat :=
  c.mem.imem.word (imemBase e c.ctl.bankActive + instrBytes e * i) (instrBytes e)

/-- The flawed 32-bit words under index i. -/
def Core.instrFlaws (c : Core) (e : Engine) (i : Nat) : List (Nat × Flaw) :=
  c.mem.imem.flawsIn ((imemBase e c.ctl.bankActive + instrBytes e * i) / 4) (instrBytes e / 4)

/-- Whether a word of the instruction holds an uncorrectable error (R134). -/
def Core.instrUe (c : Core) (e : Engine) (i : Nat) : Bool := (c.instrFlaws e i).any fun x => x.2 == .double

/-- The fetch corrects single-bit errors and counts them (R134). -/
def State.countFetch (s : State) (k : Nat) (e : Engine) (i : Nat) : State :=
  let n := (((s.core k).instrFlaws e i).filter fun x => x.2 == .single).length
  if n = 0 then s else s.modCore k fun c => c.modCtl fun r => { r with imemCe := satInc r.imemCe n }

/-! ## Sync counters (R139 to R142) -/

/-- Whether waits hold together in cycle t (R141): two waits on one counter need the sum of their thresholds. -/
def Sync.holds (y : Sync) (t : Nat) : List (Nat × Nat) → Bool
  | [] => true
  | [(a, n)] => decide (n ≤ y.seen t a)
  | (a, n) :: (b, m) :: _ =>
    if a = b then decide (n + m ≤ y.seen t a) else decide (n ≤ y.seen t a) && decide (m ≤ y.seen t b)

/-- The record of a cycle's changes, empty when it is of another cycle. -/
def Sync.ofCycle (y : Sync) (t : Nat) (l : List (Nat × Nat)) : List (Nat × Nat) := if y.cycle = t then l else []

/-- Subtract one threshold in cycle t. -/
def Sync.takeOne (t : Nat) (y : Sync) (w : Nat × Nat) : Sync :=
  { count := modAt y.count w.1 fun v => v - w.2
    cycle := t
    added := y.ofCycle t y.added
    taken := keyPut (y.ofCycle t y.taken) w.1 (y.takenIn t w.1 + w.2)
    changed := some t }

/-- Subtract the thresholds of waits that hold (R141). -/
def Sync.take (y : Sync) (t : Nat) (ws : List (Nat × Nat)) : Sync := ws.foldl (Sync.takeOne t) y

/-- Add an increment in cycle t. -/
def Sync.add (y : Sync) (t n inc : Nat) : Sync :=
  { count := modAt y.count n fun v => v + inc
    cycle := t
    added := keyPut (y.ofCycle t y.added) n (y.addedIn t n + inc)
    taken := y.ofCycle t y.taken
    changed := some t }

/-- A signal of core k in the present cycle (R139): a counter that stands past 65,535 is capped at the end of the cycle, after
the waits that are met in it (R142). -/
def State.signal (s : State) (k n inc : Nat) : State :=
  let y := (s.core k).sync
  let s' := s.modCore k fun c => { c with sync := c.sync.add s.now n inc }
  if y.count.getD n 0 + inc > 65535 then { s' with overs := markPut s'.overs k } else s'

def State.signalOpt (s : State) (k : Nat) : Option (Nat × Nat) → State
  | none => s
  | some (n, inc) => s.signal k n inc

/-! ## Program counter and loops (R148, R151) -/

/-- The loops and the index after index i has issued (R148): the innermost loop that ends here repeats or is removed. -/
def nextIndex (i : Nat) : List Loop → Nat × List Loop
  | [] => (i + 1, [])
  | l :: r =>
    if l.last = i then (if l.left > 1 then (l.first, { l with left := l.left - 1 } :: r) else nextIndex i r)
    else (i + 1, l :: r)

/-- Abandon a stream (R153, R191). -/
def State.abandon (s : State) (k : Nat) (e : Engine) : State :=
  s.modCore k fun c => c.modStream e fun t => { t with state := .abandoned }

def State.modStream (s : State) (k : Nat) (e : Engine) (f : Stream → Stream) : State :=
  s.modCore k fun c => c.modStream e f

/-- Set the ready bound of the next instruction. -/
def State.setReady (s : State) (k : Nat) (e : Engine) (r : Nat) : State := s.modStream k e fun t => { t with ready := r }

/-- Record the codes owed at a completion and abandon the stream (R151, R159). -/
def State.endCodes (s : State) (k : Nat) (e : Engine) (i : Nat) : List Nat → State
  | [] => s
  | code :: r => ((s.faultAt k e i code 0).endCodes k e i r).abandon k e

/-- Completion of an instruction: its signals (R145), then what it owes its stream. -/
def State.complete (s : State) (k : Nat) (e : Engine) (o : Owed) : State :=
  (((s.signalOpt k o.sigA).signalOpt k o.sigB)).endCodes k e o.index o.ends

/-! ## Issue (R144) -/

/-- Lines per packet. -/
def NxOp.per (o : NxOp) : Nat := if o.acc then 15 else 16

/-- Packets of the operation. -/
def NxOp.packets (o : NxOp) : Nat :=
  match o.kind with
  | .put => ceilDiv o.count o.per
  | .req => ceilDiv o.count 16
  | _ => 1

/-- Whether the reads of the next packet of an NPUT or NRING have begun. -/
def NxOp.begun (o : NxOp) : Bool := !o.fetch.isEmpty || !o.words.isEmpty

/-- Whether an operation holds the next instruction of the stream back: a send whose last source read is not in sight, or a
wait (R187). -/
def NxOp.holds (o : NxOp) : Bool :=
  !o.silent && !o.ponly && (o.kind == .wait || ((o.kind == .put || o.kind == .ring)
    && (decide (o.sent + 1 < o.packets) || (decide (o.sent + 1 = o.packets) && !o.begun))))

/-- Whether a stream can issue at all: attached, its clock running (R154), the stream running or waiting on counters, its end
not issued, and no network operation holding the stream back. -/
def State.canIssue (s : State) (k : Nat) (e : Engine) : Bool :=
  let t := (s.core k).stream e
  decide (k < 768) && (s.core k).ctl.attached && (s.core k).ctl.stopAt.isNone && (t.state == .run || t.state == .waitCtr) && !t.halted
    && t.sendAt.isNone && !(e == .nx && (s.core k).nx.ops.any NxOp.holds)

/-- Move the stream past the instruction at its index (R148, R151). The instruction owes 0x0105 when control runs off
the bank. -/
def State.passIndex (s : State) (k : Nat) (e : Engine) (isSend : Bool) : List Nat × State :=
  let t := (s.core k).stream e
  let n := nextIndex t.pc t.loops
  let off := !isSend && decide (n.1 ≥ bankLen e)
  (if off then [0x0105] else [],
   s.modStream k e fun t => { t with state := .run, pc := (if off then t.pc else n.1), loops := n.2, halted := off })

/-- The ready bound of a stream. -/
def State.readyOf (s : State) (k : Nat) (e : Engine) : Nat := ((s.core k).stream e).ready

/-- Whether the registers that an SX instruction reads are written by no access in flight (R206). -/
def Sx.readable (x : Sx) (rs : List Nat) : Bool := rs.all fun r => r == 0 || !(x.g.getD r {}).busy

/-- The latest ready cycle of registers (R206). -/
def Sx.readyAt (x : Sx) (rs : List Nat) : Nat := rs.foldl (fun n r => max n (x.g.getD r {}).ready) 0

/-- The ready bound of the instruction at the index of MX: an MMA may issue in the cycle of the TLOAD just before it (R92). -/
def State.readyMx (s : State) (k op : Nat) : Nat :=
  match (s.core k).mx.tloadAt with
  | some t => if op = 2 ∧ s.readyOf k .mx = t + 1 then t else s.readyOf k .mx
  | none => s.readyOf k .mx

/-- Counter and threshold fields of SWAIT and SSIG (R193). -/
def scCtr (w : Nat) : Nat := bits w 25 20
def scN (w : Nat) : Nat := bits w 19 12 + 1

/-- The wait of SWAIT (R202); an illegal counter field waits on nothing (R158). -/
def sxWaits (w : Nat) : List (Nat × Nat) := if xOpc w = 0x28 ∧ scCtr w < 0x30 then [(scCtr w, scN w)] else []

/-- The waits of the instruction at the index of a stream, and the cycle from which they are tested (R144). -/
def State.testOf (s : State) (k : Nat) (e : Engine) : List (Nat × Nat) × Nat :=
  let c := s.core k
  let w := c.instr e (c.stream e).pc
  if e = .sx then (if c.instrUe .sx c.sxs.pc then [] else sxWaits w, s.readyOf k .sx)
  else (hWaits w, (if e = .mx then s.readyMx k (if c.instrUe .mx c.mxs.pc then 0 else hOpc w) else s.boundOf k e) + hDelay w)

/-- Whether the instruction at the index of a stream meets its last condition no later than cycle t: it issues then at the latest. -/
def State.issuesBy (s : State) (k : Nat) (e : Engine) (t : Nat) : Bool :=
  s.canIssue k e && !(e == .nx && decide (16 ≤ (s.core k).nx.ops.length)) && !(e == .sx && (s.core k).sx.wait.isSome)
    && decide ((s.testOf k e).2 ≤ t) && (s.core k).sync.holds t (s.testOf k e).1

/-- The engines before e in the order in which a cycle takes them (R140). -/
def enginesBefore : Engine → List Engine
  | .mx => []
  | .vx => [.mx]
  | .dx => [.mx, .vx]
  | .nx => [.mx, .vx, .dx]
  | .sx => [.mx, .vx, .dx, .nx]

/-- Whether an engine earlier in the order has yet to take, in cycle t or before, from a counter that waits name (R140). -/
def State.contended (s : State) (k : Nat) (e : Engine) (t : Nat) (ws : List (Nat × Nat)) : Bool :=
  !ws.isEmpty && (enginesBefore e).any fun f =>
    (ws.any fun w => (s.testOf k f).1.any fun x => x.1 == w.1) && s.issuesBy k f t

/-- The attempt to issue an instruction of stream e whose ready bound is r: in the first cycle that is at least r + DELAY and in
which its waits hold when its engine's turn comes (R140, R141, R144). `none`: it does not issue yet. -/
def State.tryIssue (s : State) (k : Nat) (e : Engine) (r delay : Nat) (waits : List (Nat × Nat)) : Option State :=
  let u := max s.now (r + delay)
  if (s.core k).sync.holds u waits && !s.contended k e u waits then
    some ((s.advance u).modCore k fun c => { c with sync := c.sync.take u waits })
  else none

/-- A stream whose instruction cannot issue for its waits is in WAIT_CTR from its first test on (R144, R161). -/
def State.waiting (s : State) (k : Nat) (e : Engine) (r delay : Nat) : State :=
  if s.now ≥ r + delay then s.modStream k e fun t => { t with state := .waitCtr } else s

/-- Count a skipped instruction and record its code (R158); the 64th owes 0x0107 and abandons its stream at its completion (R159). -/
def State.noteSkip (s : State) (k : Nat) (e : Engine) (o : Owed) (code detail : Nat) : Owed × State :=
  let n := ((s.core k).stream e).skips + 1
  (if n = 64 then { o with ends := o.ends ++ [0x0107] } else o,
   (s.faultAt k e o.index code detail).modStream k e fun t => { t with skips := min n 64 })

/-- DETAIL of a skipped instruction: the bank and the lowest bit of the first offending field (R158). -/
def State.skipDetail (s : State) (k pos : Nat) : Nat := pack [(1, (s.core k).ctl.bankActive), (7, pos)]

/-- The issue of an instruction of an engine stream. `want` tells from the word and an uncorrectable fetch whether the
command is the issue of this instruction; `r` is the ready bound. The body gets the word, what the instruction owes at its
completion and whether it was skipped as illegal, in the state of the issue cycle. -/
def State.issueOp (s : State) (k : Nat) (e : Engine) (r : Nat) (want : Nat → Bool → Bool)
    (body : Nat → Owed → Bool → State → State) : State :=
  let i := ((s.core k).stream e).pc
  let w := (s.core k).instr e i
  let ue := (s.core k).instrUe e i
  if s.canIssue k e && want (hOpc w) ue then
    match s.tryIssue k e r (hDelay w) (hWaits w) with
    | none => s.waiting k e r (hDelay w)
    | some s =>
      let s := s.countFetch k e i
      let p := s.passIndex k e (hOpc w == opSend && !ue)
      let o : Owed := { sigA := hSigA w, sigB := if hSbi w then none else hSigB w, index := i, ends := p.1 }
      let s := if hSbi w then p.2.signalOpt k (hSigB w) else p.2
      if ue then
        let x := s.noteSkip k e o 0x0106 (s.skipDetail k 120)
        body w x.1 true x.2
      else
        match engineBad e w with
        | some pos =>
          let x := s.noteSkip k e o 0x0101 (s.skipDetail k pos)
          body w x.1 true x.2
        | none => body w o false s
  else s

/-- The issue of the instruction with opcode op. -/
def wantOp (op : Nat) (o : Nat) (ue : Bool) : Bool := o == op && !ue

/-! ## Stream control (R147 to R150) -/

/-- The issue of an SX instruction: `want` tells from the word and an uncorrectable fetch whether the command is the issue
of this instruction, `reads` the registers that it reads, `waits` the wait of SWAIT. The body gets the word, what the
instruction owes at its completion and whether it was skipped, in the state of the issue cycle; the stream still stands at
the instruction (R206). -/
def State.issueSx (s : State) (k : Nat) (want : Nat → Bool → Bool) (reads : Nat → List Nat)
    (waits : Nat → List (Nat × Nat)) (body : Nat → Owed → Bool → State → State) : State :=
  let i := (s.core k).sxs.pc
  let w := (s.core k).instr .sx i
  let ue := (s.core k).instrUe .sx i
  let rs := reads w
  let r := max (s.readyOf k .sx) ((s.core k).sx.readyAt rs)
  if s.canIssue k .sx && (s.core k).sx.wait.isNone && want w ue && (s.core k).sx.readable rs then
    match s.tryIssue k .sx r 0 (waits w) with
    | none => s.waiting k .sx r 0
    | some s =>
      let s := s.countFetch k .sx i
      let o : Owed := { index := i }
      if ue then
        let x := s.noteSkip k .sx o 0x0106 (s.skipDetail k 26)
        body w x.1 true x.2
      else
        match sxBad w with
        | some pos =>
          let x := s.noteSkip k .sx o 0x0101 (s.skipDetail k pos)
          body w x.1 true x.2
        | none => body w o false s
  else s

/-- An SX instruction passes in sequence and completes in its issue cycle (R206, R208). -/
def State.sxDone (s : State) (k : Nat) (o : Owed) : State :=
  let p := (s.setReady k .sx (s.now + 1)).passIndex k .sx false
  p.2.complete k .sx { o with ends := o.ends ++ p.1 }

/-- An SX word that is no instruction of the table: an opcode that is not assigned, or an OP whose FUNC is none of R194. -/
def xNone (w : Nat) : Bool := !xAssigned (xOpc w) || (xOpc w == 1 && decide (xFunc w > 0x00A))

/-- SNOP, and every word that its stream does not assign to an instruction or that is uncorrectable: it completes in its
issue cycle (R147, R157, R208). -/
def execSnop (k : Nat) (e : Engine) (s : State) : Host.Outcome State Fault Refusal :=
  .next (if e = .sx then s.issueSx k (fun w ue => ue || xNone w) (fun _ => []) (fun _ => [])
      fun _ o _ s => s.sxDone k o
    else s.issueOp k e (s.boundOf k e) (fun op ue => ue || op == opSnop || !opAssigned e op)
      fun _ o _ s => (s.setReady k e (s.now + 1)).complete k e o)

/-- Whether an SLOOP at index i with a body of n instructions is inconsistent (R149). -/
def sloopBad (e : Engine) (i n : Nat) (loops : List Loop) : Bool :=
  decide (i + n ≥ bankLen e) || decide (loops.length ≥ 4) || (match loops with
    | [] => false
    | l :: _ => decide (i + n > l.last))

/-- SLOOP (R148, R149). -/
def execSloop (k : Nat) (e : Engine) (s : State) : Host.Outcome State Fault Refusal :=
  .next (if e = .sx then s else
    let loops := ((s.core k).stream e).loops
    s.issueOp k e (s.boundOf k e) (wantOp opSloop) fun w o skipped s =>
      let s := s.setReady k e (s.now + 1)
      if skipped then s.complete k e o
      else if sloopBad e o.index (sloopBody w) loops then
        let x := s.noteSkip k e o 0x0104 (s.skipDetail k 16)
        x.2.complete k e x.1
      else
        let l : Loop := { first := o.index + 1, last := o.index + sloopBody w, left := sloopIter w }
        (s.modStream k e fun t => { t with pc := o.index + 1, loops := l :: loops }).complete k e o)

/-- SEND issues its stream's end (R150): the stream issues nothing more. The signals wait for SEND_COMPLETE. -/
def execSend (k : Nat) (e : Engine) (s : State) : Host.Outcome State Fault Refusal :=
  .next (if e = .sx then s else
    s.issueOp k e (s.boundOf k e) (wantOp opSend) fun _ o _ s =>
      s.modStream k e fun t => { t with pc := o.index, sendAt := some s.now, sendOwed := o })

/-- Whether every earlier operation of a stream has completed. -/
def Core.streamDone (c : Core) (e : Engine) : Bool :=
  match e with
  | .mx => c.mx.ops.isEmpty
  | .vx => c.vx.loads.isEmpty && c.vx.runs.isEmpty
  | .dx => c.dx.ops.isEmpty
  | .nx => c.nx.ops.isEmpty
  | .sx => c.sx.acc.isEmpty && c.sx.wait.isNone

/-- SEND completes when every earlier operation of its stream has completed; the stream is ENDED, unless one of them has made it
ABANDONED, and its loops are discarded (R150, R159, R201). -/
def execSendComplete (k : Nat) (e : Engine) (s : State) : Host.Outcome State Fault Refusal :=
  .next (match ((s.core k).stream e).sendAt with
    | none => s
    | some u =>
      if (s.core k).streamDone e then
        let o := ((s.core k).stream e).sendOwed
        let s := (s.advance u).modStream k e fun t =>
          { t with state := if t.state = .abandoned then .abandoned else .ended, loops := [], sendAt := none, sendOwed := {} }
        s.complete k e o
      else s)

/-! ## The hang check (R153) -/

def allEngines : List Engine := [.mx, .vx, .dx, .nx, .sx]

/-- Whether an operation of the core is in flight between issue and completion. -/
def Core.inFlight (c : Core) : Bool :=
  allEngines.any fun e => !c.streamDone e || (c.stream e).sendAt.isSome

/-- Whether the stream of an engine waits on counters in the present cycle: it can issue but for its waits, which are tested and
do not hold (R144, R161). -/
def State.stalled (s : State) (k : Nat) (e : Engine) : Bool :=
  s.canIssue k e && decide ((s.testOf k e).2 ≤ s.now) && !(s.core k).sync.holds s.now (s.testOf k e).1

/-- Whether a stream is in READY or DELAY. -/
def State.ready (s : State) (k : Nat) (e : Engine) : Bool :=
  let t := (s.core k).stream e
  (t.state == .run || t.state == .waitCtr) && !s.stalled k e

/-- Core k is hung in the present cycle (R153). -/
def State.hung (s : State) (k : Nat) : Bool :=
  let c := s.core k
  c.ctl.attached && c.sync.changed != some s.now && !c.inFlight
    && (allEngines.all fun e => !s.ready k e)
    && (allEngines.any fun e => s.stalled k e)
    && (allEngines.all fun e => (c.stream e).state != .waitArr)

/-- STREAM_STATUS.STATE (R161): before its ready bound, issuing, or held by a send of NX a stream is READY; from its ready bound on
DELAY is counted; then it is READY or waits on counters. -/
def State.streamState (s : State) (k : Nat) (e : Engine) : Nat :=
  let c := s.core k
  let t := c.stream e
  let w := c.instr e t.pc
  match t.state with
  | .idle => 0
  | .waitArr => 4
  | .ended => 5
  | .abandoned => 6
  | _ =>
    if s.stalled k e then 3
    else if s.canIssue k e ∧ e ≠ .sx ∧ (s.testOf k e).2 - hDelay w ≤ s.now ∧ s.now < (s.testOf k e).2 then 2
    else 1

/-- The index of the instruction that issues next, or that is waiting (R161). -/
def Core.pcShown (c : Core) (e : Engine) : Nat :=
  let t := c.stream e
  if t.state != .waitArr then t.pc
  else match e with
  | .nx => (match c.nx.ops.find? fun o => o.kind == .wait with
    | some o => o.owed.index
    | none => t.pc)
  | .sx => (match c.sx.wait with
    | some x => x.index
    | none => t.pc)
  | _ => t.pc

/-- AUX of 0x0202 (R416): five stream states. -/
def State.hangAux (s : State) (k : Nat) : Nat :=
  pack (allEngines.map fun e => (3, s.streamState k e))

/-- DETAIL of 0x0202 (R416): five program counters. -/
def Core.hangDetail (c : Core) : Nat :=
  pack [(11, c.mxs.pc), (12, c.vxs.pc), (11, c.dxs.pc), (11, c.pcShown .nx), (13, c.pcShown .sx)]

/-- The hang check finds the core hung (R153): 0x0202, and every stream in WAIT_CTR is ABANDONED. -/
def execIslandHang (k : Nat) (s : State) : Host.Outcome State Fault Refusal :=
  .next (if s.hung k then
    (s.record 0x0202 1 k 0 (s.hangAux k) (s.core k).hangDetail).modCore k fun c =>
      allEngines.foldl (fun c e => if s.stalled k e then c.modStream e fun t => { t with state := .abandoned } else c) c
  else s)

end Sys2Proof.Machine
end

