-- ==== Sys2Proof/Machine/Chan.lean ====
section
/-! DEFINITION. The handle table: opening, status words, credit, closing, blanks (R293 to R323). -/

namespace Sys2Proof.Machine

/-! ## Kinds (R293) -/

def kWinOwn : Nat := 1
def kRingOwn : Nat := 2
def kRdwinOwn : Nat := 3
def kWinSend : Nat := 4
def kRingSend : Nat := 5
def kRdwinReq : Nat := 6

def isOwner (k : Nat) : Bool := k == 1 || k == 2 || k == 3
def isSender (k : Nat) : Bool := k == 4 || k == 5 || k == 6

/-! ## Entries -/

def Core.handle (c : Core) (i : Nat) : Handle := (keyGet c.chan.handles i).getD {}

def Core.setHandle (c : Core) (i : Nat) (h : Handle) : Core :=
  c.modChan fun x => { x with handles := keyPut x.handles i h }

def State.modHandle (s : State) (k i : Nat) (f : Handle → Handle) : State :=
  s.modCore k fun c => c.setHandle i (f (c.handle i))

/-- INDEX and GEN of a handle value (R182). -/
def hIndex (v : Nat) : Nat := v % 4096
def hGen (v : Nat) : Nat := v / 4096 % 16

/-- The entry that a handle value names, when it is usable by an instruction of the kinds that fit (R182). -/
def Core.usable (c : Core) (v : Nat) (fits : Nat → Bool) : Option Handle :=
  let h := c.handle (hIndex v)
  if h.state == .opened && h.gen == hGen v && fits h.kind then some h else none

/-- The ceiling of CREDIT (R305). -/
def Handle.ceiling (h : Handle) : Nat := if h.cap = 0 then h.grant else h.cap

/-- Lines of the data area or of the ring. -/
def Handle.lines (h : Handle) : Nat := h.size + 1

/-- Flags of the status word (R296), as bits from bit 48 up. -/
def fStale : Nat := 1
def fOutside : Nat := 2
def fOverrun : Nat := 4
def fRefused : Nat := 8
def fRemote : Nat := 16

/-! ## Status words (R295, R296) -/

/-- The two narrow words of the status word. -/
def Handle.statusWords (h : Handle) : List (PWord 32) :=
  [⟨h.count, false⟩, ⟨(h.seq.setWidth 32) ||| BitVec.ofNat 32 (h.flags % 32 * 65536), false⟩]

/-- Rewrite the status word of entry i in its control line; the write adds no term of the write sum (R398). -/
def State.writeStatus (s : State) (k i : Nat) : State :=
  let h := (s.core k).handle i
  s.storeWords k (64 * h.ctrl) h.statusWords

/-- SEQ after a message (R296): in strict mode it reads 0 in a handle with more than one sender slot. -/
def State.seqOf (s : State) (h : Handle) (m : Nat) : BitVec 16 :=
  if s.strict && decide (1 < h.slots.length) then 0 else BitVec.ofNat 16 m

/-- The status word of an entry, or its being usable, changes in cycle t. -/
def Handle.touch (h : Handle) (t : Nat) : Handle :=
  if h.changedAt = t then h else { h with changedAt := t, was := (h.count, h.flags) }

/-- A completed message, an error flag, or both, rewrite the status word of an entry that has one (R296). -/
def State.postStatus (s : State) (k i : Nat) (msg : Option Nat) (flags : Nat) : State :=
  let h := (s.core k).handle i
  if h.state == .closed || !kindStatus h.kind then s
  else
    let h := h.touch s.now
    let h := { h with flags := Nat.lor h.flags flags }
    let h := match msg with
      | some m => { h with count := h.count + 1, seq := s.seqOf h m }
      | none => h
    (s.modCore k fun c => c.setHandle i h).writeStatus k i

/-- The status words of an entry in words of a line, for a read of the condition of R186: COUNT − t < 2^31. -/
def reached (count t : Word32) : Bool := decide ((count - t).toNat < 2 ^ 31)

/-! ## Opening: the descriptor (R298) -/

/-- The narrow words of a descriptor of a kind: how many it has. -/
def descWords (kind nsend : Nat) : Nat :=
  if kind = kWinOwn ∨ kind = kRingOwn then 3 + 2 * (nsend + 1) else if kind = kRdwinOwn then 3 else 6

/-- A descriptor taken apart: the entry that it would make, with the remote names not yet translated. -/
structure Desc where
  index : Nat
  kind : Nat
  rank : Bool
  entry : Handle
  names : List Nat
deriving DecidableEq, Repr

def dword (ws : List (PWord 32)) (i : Nat) : Nat := (ws.getD i ⟨0, false⟩).val.toNat

/-- Read the fields of a descriptor. -/
def parseDesc (ws : List (PWord 32)) : Desc :=
  let w := dword ws
  let w0 := w 0
  let kind := bits w0 15 12
  let n := bits w0 21 19 + 1
  let owner := isOwner kind
  let slots : List OwnerSlot := if kind = kWinOwn ∨ kind = kRingOwn then
      (List.range n).map fun j =>
        { modField := 0, score := 0, shandle := bits (w (4 + 2 * j)) 15 0, grant := bits (w (4 + 2 * j)) 31 16
          granted := bits (w (4 + 2 * j)) 31 16 }
    else []
  { index := bits w0 11 0
    kind := kind
    rank := bit w0 18
    names := if kind = kWinOwn ∨ kind = kRingOwn then (List.range n).map fun j => bits (w (3 + 2 * j)) 25 0
      else if owner then [] else [bits (w 1) 25 0]
    entry :=
      { state := .opened, kind := kind, standing := bit w0 16, stock := owner && bit w0 17
        base := if owner then bits (w 1) 18 0 else 0
        size := if owner then bits (w 2) 15 0 else 0
        ctrl := if owner then bits (w 2) 29 16 else if kind = kRdwinReq then bits (w 3) 29 16 else 0
        slots := slots
        ohandle := if owner then 0 else bits (w 2) 15 0
        slot := if owner then 0 else bits (w 2) 18 16
        grant := if owner then 0 else bits (w 3) 15 0
        cap := if owner then 0 else bits (w 5) 15 0
        rsize := if kind = kRingSend then bits (w 4) 15 0 else 0
        shared := kind == kRingSend && bit (w 4) 16
        credit := if owner then 0 else bits (w 3) 15 0 } }

/-- Whether the words of a descriptor are well formed: no reserved kind or bit, every field in range (R298, R299). -/
def descValid (ws : List (PWord 32)) : Bool :=
  let w := dword ws
  let w0 := w 0
  let kind := bits w0 15 12
  let n := bits w0 21 19
  let grant := bits (w 3) 15 0
  let cap := bits (w 5) 15 0
  bits w0 31 22 == 0 &&
  (if kind = kWinOwn ∨ kind = kRingOwn then
    bits (w 1) 31 19 == 0 && bits (w 2) 31 30 == 0
      && ((List.range (n + 1)).all fun j => bits (w (3 + 2 * j)) 31 26 == 0)
      && (kind == kWinOwn || decide (15 ≤ bits (w 2) 15 0))
  else if kind = kRdwinOwn then n == 0 && bits (w 1) 31 19 == 0 && bits (w 2) 31 30 == 0
  else if kind = kWinSend ∨ kind = kRingSend then
    n == 0 && !bit w0 17 && bits (w 1) 31 26 == 0 && bits (w 2) 31 19 == 0 && bits (w 3) 31 16 == 0
      && bits (w 5) 31 16 == 0 && (cap == 0 || decide (grant ≤ cap))
      && (if kind = kRingSend then bits (w 4) 31 17 == 0 && decide (15 ≤ bits (w 4) 15 0) else w 4 == 0)
  else if kind = kRdwinReq then
    n == 0 && !bit w0 17 && bits (w 1) 31 26 == 0 && bits (w 2) 31 16 == 0 && bits (w 3) 31 30 == 0 && grant == 0
      && w 4 == 0 && w 5 == 0
  else false)

/-! ## Opening: placement (R299, R318, R389) -/

/-- Whether two runs of lines meet. -/
def runsMeet (a n b m : Nat) : Bool := decide (a < b + m) && decide (b < a + n)

/-- Whether another entry that is not CLOSED meets a condition. -/
def Core.otherEntry (c : Core) (i : Nat) (p : Handle → Bool) : Bool :=
  c.chan.handles.any fun h => h.1 != i && h.2.state != .closed && p h.2

/-- Whether the data area of an owner entry can be placed (R299). -/
def Core.areaOk (c : Core) (h : Handle) : Bool :=
  if h.kind = kRingOwn ∧ h.stock then false
  else if h.stock then
    decide (h.base + h.lines ≤ stockLines) && (c.table.any fun r => r.covers true h.base h.lines
      && (h.kind == kRdwinOwn || r.kind == kindAppend || r.kind == kindStaging))
  else
    decide (h.base + h.lines ≤ scrLines) && !c.binTouch h.base h.lines
      && (h.kind != kRingOwn || !(c.table.any fun r => r.meets false h.base h.lines))

/-- Whether the control line of an entry can be placed. -/
def Core.ctrlOk (c : Core) (i : Nat) (h : Handle) : Bool :=
  !c.binTouch h.ctrl 1 && !c.keep h.ctrl
    && !(isOwner h.kind && !h.stock && decide (h.base ≤ h.ctrl) && decide (h.ctrl < h.base + h.lines))
    && !(c.otherEntry i fun o => isOwner o.kind && !o.stock && decide (o.base ≤ h.ctrl) && decide (h.ctrl < o.base + o.lines))
    && !(c.otherEntry i fun o => kindStatus o.kind && o.ctrl == h.ctrl)

/-- Whether the data area holds no control line of another open handle. -/
def Core.areaFree (c : Core) (i : Nat) (h : Handle) : Bool :=
  h.stock || !(c.otherEntry i fun o => kindStatus o.kind && decide (h.base ≤ o.ctrl) && decide (o.ctrl < h.base + h.lines))

/-- The case 0x0412 of R299 for entry i. -/
def Core.placeable (c : Core) (i : Nat) (h : Handle) : Bool :=
  if isOwner h.kind then c.areaOk h && c.ctrlOk i h && c.areaFree i h
  else !kindStatus h.kind || c.ctrlOk i h

/-- The checks of R389 for strict mode. -/
def Core.strictOk (c : Core) (i : Nat) (h : Handle) : Bool :=
  let k := h.slots.length
  (h.kind != kWinOwn || decide (k ≤ 1) || (h.lines % k == 0
      && !(c.table.any fun r => r.kind == kindAppend && r.meets h.stock h.base h.lines)))
    && (!(h.kind == kWinOwn || h.kind == kRingOwn) || !(c.otherEntry i fun o =>
      (o.kind == kWinOwn || o.kind == kRingOwn) && o.stock == h.stock && runsMeet h.base h.lines o.base o.lines))

/-! ## Opening: names (R237, R239, R276) -/

/-- RANK_TABLE[r]. -/
def Route.rankEntry (r : Route) (i : Nat) : Word32 := (keyGet r.rank i).getD 0

/-- The translation of one remote name: the module field and the target, or the code with its DETAIL fields. -/
def State.nameOf (s : State) (k : Nat) (rank : Bool) (v : Nat) : Except (Nat × List (Nat × Nat)) (Nat × Nat) :=
  if rank then
    let e := (s.route.rankEntry (v % 4096)).toNat
    if bit e 31 then .ok (bits e 15 0, bits e 25 16) else .error (0x0413, [])
  else
    let vx := bits v 20 16
    let vy := bits v 25 21
    match vcoreIndex (s.core k).ctl.vmapLive vx vy with
    | some t => .ok (bits v 15 0, t)
    | none => .error (0x0431, [(5, vx), (5, vy)])

/-- The first name that does not translate. -/
def State.badName (s : State) (k : Nat) (rank : Bool) : List Nat → Option (Nat × List (Nat × Nat))
  | [] => none
  | v :: r => match s.nameOf k rank v with
    | .error e => some e
    | .ok _ => s.badName k rank r

/-- The translation of a name that translates. -/
def State.nameGet (s : State) (k : Nat) (rank : Bool) (v : Nat) : Nat × Nat :=
  match s.nameOf k rank v with
  | .ok x => x
  | .error _ => (0, 0)

/-! ## Opening: the decision (R299) -/

/-- The refusal of a descriptor at narrow word a: the code and its DETAIL fields, INDEX first and for 0x0431 then the coordinate
(DEDUCED, log 12). -/
def State.openRefusal (s : State) (k a : Nat) (ws : List (PWord 32)) : Option (Nat × List (Nat × Nat)) :=
  let d := parseDesc ws
  let c := s.core k
  let need := descWords d.kind (bits (dword ws 0) 21 19)
  let at12 := [(12, d.index)]
  if decide (64 < a % 64 + need) || (ws.take need).any (·.poison) || (c.handle d.index).state != .closed
      || !descValid ws then some (0x0411, at12)
  else if !c.placeable d.index d.entry then some (0x0412, at12)
  else match s.badName k d.rank d.names with
    | some (code, f) => some (code, at12 ++ f)
    | none =>
      if s.strict && ((d.kind == kRingOwn && decide (1 < d.entry.slots.length)) || d.entry.shared) then some (0x0414, at12)
      else if s.strict && !c.strictOk d.index d.entry then some (0x041C, at12)
      else none

/-- The entry that an accepted descriptor makes: the remote names are translated once (R276). -/
def State.newEntry (s : State) (k : Nat) (ws : List (PWord 32)) : Handle :=
  let d := parseDesc ws
  let old := (s.core k).handle d.index
  let t := d.names.map (s.nameGet k d.rank)
  { d.entry with
    gen := old.gen, late := old.late, changedAt := old.changedAt, was := old.was
    slots := (d.entry.slots.zip t).map fun x => { x.1 with modField := x.2.1, score := x.2.2 }
    tgtMod := (t.headD (0, 0)).1
    tgtCore := (t.headD (0, 0)).2 }

/-- Open the entry that a descriptor at narrow word a names, or refuse it: the handle (none: refused). An accepted entry
has its control line written as zero (R295, R298). -/
def State.openEntry (s : State) (k index a : Nat) (ws : List (PWord 32)) : Option Nat × State :=
  match s.openRefusal k a ws with
  | some (code, f) => (none, s.faultAt k .sx index code (pack f))
  | none =>
    let i := (parseDesc ws).index
    let h := s.newEntry k ws
    let s := s.modCore k fun c => c.setHandle i h
    (some (i + 4096 * h.gen), if kindStatus h.kind then s.storeWords k (64 * h.ctrl) zeroLine else s)

/-! ## Closing (R313 to R317) -/

/-- The entry closed: GEN rises by 1 (R294); LATE_GEN is the old generation after a close-now, else none.
The other fields stay as they are: no rule changes them. -/
def Handle.shut (h : Handle) (late : Bool) : Handle :=
  { h with state := .closed, gen := (h.gen + 1) % 16, late := if late then some h.gen else none }

/-- Whether every granted credit has been used or returned (R314). -/
def Handle.settled (h : Handle) : Bool := h.slots.all fun x => x.received + x.yielded == x.granted

/-- HCLOSE of a handle (R313 to R317, R389): the code of a refusal, or the new state. -/
def State.closeHandle (s : State) (k v : Nat) (now : Bool) : Option Nat × State :=
  let i := hIndex v
  match (s.core k).usable v fun _ => true with
  | none => (some 0x0410, s)
  | some h =>
    if h.kind = kWinSend ∨ h.kind = kRingSend then
      (none, s.modCore k fun c => (c.setHandle i ((h.touch s.now).shut false)).modChan fun x =>
        { x with yields := x.yields ++ [{ handle := v, entry := h }] })
    else if h.kind = kRdwinReq then
      (none, s.modCore k fun c => (c.setHandle i ((h.touch s.now).shut false)).modChan fun x =>
        { x with yields := (x.yields.filter fun y => y.handle != v) ++ [{ handle := v, entry := h }] })
    else if h.kind = kRdwinOwn then (none, s.modHandle k i fun h => (h.touch s.now).shut true)
    else if now && !s.strict then (none, s.modHandle k i fun h => (h.touch s.now).shut true)
    else if h.settled then (none, s.modHandle k i fun h => (h.touch s.now).shut false)
    else (none, s.modHandle k i fun h => { h with state := .closing })

/-- CLOSE_DRAIN_COMPLETE: a CLOSING entry whose credit has settled becomes CLOSED (R314). -/
def execCloseDrainComplete (k h : Nat) (s : State) : Host.Outcome State Fault Refusal :=
  .next (let e := (s.core k).handle h
    if e.state == .closing && e.settled then s.modHandle k h fun e => (e.touch s.now).shut false else s)

/-- A packet of core k enters the mesh. -/
def State.sendFrom (s : State) (k : Nat) (p : Packet) : State := s.inject (.core k) p

/-- A GRANT or YIELD of d granules to a handle value at a core (R300). -/
def State.creditPacket (s : State) (op score dmod dtgt handle slot d : Nat) : Packet :=
  chanPacket clsFwd 0 dmod dtgt s.route.me false
    { op := op, score := score, tidx := hIndex handle, tgen := hGen handle, slot := slot, off := d } []

/-- Whether an NX operation on a handle value is in flight. -/
def Core.sending (c : Core) (v : Nat) : Bool := c.nx.ops.any fun o => o.handle == v && o.kind != .wait

/-- The YIELD that waits for an entry index and can leave; a requester has no credit to return (R317). -/
def Core.yieldAt (c : Core) (i : Nat) : Option Yield := c.chan.yields.find? fun y =>
  hIndex y.handle == i && y.entry.kind != kRdwinReq && !c.sending y.handle

/-- YIELD_SEND: the remaining CREDIT goes back to the owner's slot (R317). -/
def execYieldSend (k h : Nat) (s : State) : Host.Outcome State Fault Refusal :=
  .next (match (s.core k).yieldAt h with
    | none => s
    | some y =>
      let s := s.modCore k fun c => c.modChan fun x => { x with yields := x.yields.erase y }
      s.sendFrom k (s.creditPacket opYield k y.entry.tgtMod y.entry.tgtCore y.entry.ohandle y.entry.slot y.entry.credit))

/-! ## Release words (R295, R307) -/

/-- The entry whose control line a scratchpad line is. -/
def Core.ctrlEntry (c : Core) (line : Nat) : Option (Nat × Handle) :=
  c.chan.handles.find? fun h => h.2.state != .closed && kindStatus h.2.kind && h.2.ctrl == line

/-- The sender slot whose release word narrow word i of a control line is (R295). -/
def Handle.releaseSlot (h : Handle) (i : Nat) : Option Nat :=
  if (h.kind = kWinOwn ∨ h.kind = kRingOwn) ∧ 2 ≤ i ∧ i % 2 = 0 ∧ (i - 2) / 2 < h.slots.length then some ((i - 2) / 2)
  else none

/-- An SX store to narrow word a of the control line of entry i (R295, R307): whether it is refused, and the state. -/
def State.release (s : State) (k i : Nat) (h : Handle) (a : Nat) (v : PWord 32) : Bool × State :=
  match h.releaseSlot (a % 64) with
  | none => (true, s)
  | some j =>
    match h.slots[j]? with
    | none => (true, s)
    | some x =>
      let d := (v.val - x.last).toNat
      if v.poison ∨ d ≥ 2 ^ 31 then (true, s)
      else if d = 0 then (false, s)
      else
        let s := s.modHandle k i fun h =>
          { h with slots := modAt h.slots j fun x => { x with granted := x.granted + d, last := v.val } }
        let s := s.putWords k (engCode .sx) a [v]
        (false, s.sendFrom k (s.creditPacket opGrant k x.modField x.score x.shandle j d))

/-! ## Blanks and role changes (R318, R334) -/

/-- A standing entry after a blank (R318). -/
def Handle.restart (h : Handle) : Handle :=
  { h with
    late := none, count := 0, seq := 0, flags := 0, mseq := 0, tail := 0, credit := h.grant, flow := none
    slots := h.slots.map fun x => { x with granted := x.grant, received := 0, yielded := 0, last := 0 } }

/-- An entry after a blank, before the check of standing owner entries. -/
def Handle.blanked (h : Handle) : Handle :=
  match h.state with
  | .closed => { h with late := none }
  | .closing => h.shut false
  | .opened => if h.standing then h.restart else h.shut false

/-- The check of the standing entries against the region table in force (R318): an entry that fails closes. -/
def State.checkStanding (s : State) (k : Nat) : List (Nat × Handle) → State
  | [] => s
  | (i, h) :: r =>
    if h.state == .opened && isOwner h.kind && !(s.core k).placeable i h then
      ((s.modHandle k i fun h => h.shut false).faultCore k 0 0x0412 (pack [(12, i)])).checkStanding k r
    else s.checkStanding k r

/-- The handle table at a blank (R318). -/
def State.blankHandles (s : State) (k : Nat) : State :=
  let s := s.modCore k fun c => c.modChan fun x =>
    { x with handles := x.handles.map fun h => (h.1, h.2.blanked)
             replies := [], yields := [], creditCount := 0, lateCount := 0, dropCount := 0 }
  s.checkStanding k (s.core k).chan.handles

/-- Every entry closed at a change of role (R294, R334): an entry that was never opened is in the table as well, so each of
the 4,096 generations rises. -/
def Chan.closeAll (x : Chan) : Chan :=
  { x with handles := (List.range 4096).map fun i => (i, ((keyGet x.handles i).getD {}).shut false), yields := [] }

/-! ## Watchdogs (R319, R320) -/

/-- A watchdog shift in force: values 1 to 7 are taken as 8 (R323). -/
def watchShift (v : Nat) : Nat := if 1 ≤ v ∧ v ≤ 7 then 8 else v

end Sys2Proof.Machine
end

