-- ==== Sys2Proof/Machine/Nx.lean ====
section
/-! DEFINITION. The network engine: sends, requests and waits (R182 to R189, R305 to R311, R319, R320). -/

namespace Sys2Proof.Machine

/-! ## Operands (R183, R185) -/

def nxHandle (w : Nat) : Nat := bits w 15 0
def npDoff (w : Nat) : Nat := bits w 31 16
def npSline (w : Nat) : Nat := bits w 45 32
def npCount (w : Nat) : Nat := bits w 57 46 + 1
def npCls (w : Nat) : Bool := bit w 58
def npFlow (w : Nat) : Nat := bits w 63 59
def ntDwoff (w : Nat) : Nat := bits w 36 16
def ntSdw (w : Nat) : Nat := bits w 55 37
def ntCount (w : Nat) : Nat := bits w 58 56 + 1
def nrSline (w : Nat) : Nat := bits w 29 16
def nrCount (w : Nat) : Nat := bits w 33 30 + 1
def nqRoff (w : Nat) : Nat := bits w 31 16
def nqDline (w : Nat) : Nat := bits w 45 32
def nwTarget (w : Nat) : Nat := bits w 47 16

/-! ## Senders (R182, R305, R317) -/

/-- The sender entry of a handle value: the open one, or one that is closed and whose operations are not complete. -/
def Core.sender (c : Core) (v : Nat) : Option Handle :=
  match c.usable v isSender with
  | some h => some h
  | none => (c.chan.yields.find? fun y => y.handle == v).map (·.entry)

/-- Change the sender entry of a handle value. -/
def Core.modSender (c : Core) (v : Nat) (f : Handle → Handle) : Core :=
  match c.usable v isSender with
  | some h => c.setHandle (hIndex v) (f h)
  | none => c.modChan fun x =>
    { x with yields := x.yields.map fun y => if y.handle == v then { y with entry := f y.entry } else y }

/-! ## Messages as packets (R183, R184, R308, R309, R311) -/

/-- Lines of packet j. -/
def NxOp.linesAt (o : NxOp) (j : Nat) : Nat := min o.per (o.count - j * o.per)

/-- The placement of a ring message (R308): the line, the lines skipped, the new tail. -/
def ringPlace (tail p l : Nat) : Nat × Nat × Nat :=
  let at' := if l ≤ p - tail then tail else 0
  let skip := if l ≤ p - tail then 0 else p - tail
  (at', skip, if at' + l = p then 0 else at' + l)

/-- The charge of packet j (R304, R309). -/
def NxOp.charge (o : NxOp) (h : Handle) (j : Nat) : Nat :=
  match o.kind with
  | .put => o.linesAt j
  | .tup => 1
  | .ring => if h.shared then 2 * o.count - 1 else o.count + (ringPlace h.tail (h.rsize + 1) o.count).2.1
  | _ => 0

/-- Packets are left to send. -/
def NxOp.unsent (o : NxOp) : Bool := !o.silent && o.kind != .wait && decide (o.sent < o.packets)

/-- Where the next message into a ring will start to be placed: after those of the operations in flight (R309). -/
def Core.tailAt (c : Core) (v : Nat) (h : Handle) : Nat :=
  (c.nx.ops.filter fun o => o.handle == v && o.kind == .ring && o.unsent).foldl
    (fun t o => (ringPlace t (h.rsize + 1) o.count).2.2) h.tail

/-- A charge that can never leave is above the ceiling (R306); it is judged at issue, before any wait. -/
def Core.overCeiling (c : Core) (o : NxOp) (h : Handle) : Bool :=
  match o.kind with
  | .put => decide (h.ceiling < o.linesAt 0)
  | .ring => decide (h.ceiling < o.charge { h with tail := c.tailAt o.handle h } 0)
  | _ => false

/-- Source lines that the operation reads. -/
def NxOp.srcLine (o : NxOp) : Nat := if o.kind == .tup then o.line / 32 else o.line
def NxOp.srcLines (o : NxOp) : Nat :=
  if o.kind == .tup then (o.line + o.count - 1) / 32 - o.line / 32 + 1 else o.count

/-! ## Refusal (R188, R306) -/

/-- Whether an entry kind fits the operation (R182). -/
def NxOp.fits (o : NxOp) (k : Nat) : Bool :=
  match o.kind with
  | .put => k == kWinSend
  | .tup => k == kWinSend
  | .ring => k == kRingSend
  | .req => k == kRdwinReq
  | .wait => kindStatus k

/-- The refusal of a scratchpad run: outside the scratchpad, touching a bin, or outside its bin slot. -/
def Core.runCode (c : Core) (line n : Nat) (bin : Option BinRef) : Option Nat :=
  match bin with
  | some r => c.binIssue r n
  | none => firstOf [(decide (line + n > scrLines), 0x0304), (c.binTouch line n, 0x030D)]

/-- The refusal of an operation: the code and its DETAIL. -/
def Core.nxRefusal (c : Core) (t : Nat) (o : NxOp) : Option (Nat × Nat) :=
  match c.usable o.handle o.fits with
  | none => some (0x0410, pack [(16, o.handle)])
  | some h =>
    if c.overCeiling o h then some (0x0417, pack [(12, hIndex o.handle)])
    else if o.kind == .wait then none
    else if o.kind == .req then (c.runCode o.line o.count o.bin).map fun x =>
      (x, pack [(14, (o.bin.map fun r => c.binLine t r true).getD o.line)])
    else (c.runCode o.srcLine o.srcLines o.bin).map fun x =>
      (x, pack [(14, (o.bin.map fun r => c.binLine t r false).getD o.srcLine)])

/-- Whether a refused or skipped operation sends its poison-only message: a send whose handle is usable and whose charge
can leave (R188, R306). -/
def Core.sendsPoison (c : Core) (o : NxOp) : Bool :=
  match c.usable o.handle o.fits with
  | none => false
  | some h => (o.kind == .put || o.kind == .tup || o.kind == .ring) && !c.overCeiling o h

/-! ## Completion (R187) -/

/-- Remove an operation, perform what it owes and free its place: a 17th instruction waits for the cycle after. -/
def State.finishNx (s : State) (k : Nat) (o : NxOp) : State :=
  let full := decide (16 ≤ (s.core k).nx.ops.length)
  let s := s.modCore k fun c => c.modNx fun n => { n with ops := n.ops.filter fun x => x.issue != o.issue }
  let s := if full then s.setReady k .nx (max (s.readyOf k .nx) (s.now + 1)) else s
  (s.binDone k o.bin o.slot (o.kind == .req)).complete k .nx o.owed

/-- Replace an operation; its issue cycle names it. -/
def State.putNx (s : State) (k : Nat) (o : NxOp) : State :=
  s.modCore k fun c => c.modNx fun n => { n with ops := n.ops.map fun x => if x.issue == o.issue then o else x }

/-! ## Acceptance by the router (R187, R281, R288, R305, R311) -/

/-- The class of an operation's packets. -/
def NxOp.cls (o : NxOp) : Nat :=
  match o.kind with
  | .put => if o.fwd then clsFwd else clsTns
  | .tup => if o.fwd then clsFwd else clsTns
  | .req => clsReq
  | _ => clsFwd

/-- Flits of packet j, the header included. -/
def NxOp.flitsAt (o : NxOp) (j : Nat) : Nat :=
  match o.kind with
  | .put => 1 + 4 * o.linesAt j
  | .tup => 2
  | .ring => 1 + 4 * o.count
  | _ => 1

/-- Whether the network interface sets ADAPT on a packet of a class (R286). -/
def State.adaptFor (s : State) (cls : Nat) : Bool :=
  s.route.adaptive && !s.strict && (cls == clsReq || cls == clsRpl)

/-- The header of packet j of an operation through sender entry h. -/
def NxOp.header (o : NxOp) (k : Nat) (h : Handle) (j : Nat) : ChanHdr :=
  let base : ChanHdr :=
    { op := opPut, score := k, tidx := hIndex h.ohandle, tgen := hGen h.ohandle, slot := h.slot, mseq := o.mseq.toNat
      pkt := j % 256, last := j + 1 == o.packets, ponly := o.ponly }
  match o.kind with
  | .put => { base with acc := o.acc, off := o.off + o.per * j, n := o.linesAt j - 1 }
  | .tup => { base with op := opTup, off := o.off, n := o.count - 1 }
  | .ring =>
    let r := if h.shared then (0, 0, 0) else ringPlace h.tail (h.rsize + 1) o.count
    { base with op := opRing, off := r.1, skip := r.2.1, n := o.count - 1 }
  | _ => { base with op := opReq, slot := 0, off := o.off + 16 * j, n := o.linesAt j - 1, dline := o.line + 16 * j
                     rhandle := o.handle }

/-- The packet of an operation with its payload. -/
def State.nxPacket (s : State) (k : Nat) (o : NxOp) (h : Handle) (body : List (PWord 64)) : Packet :=
  chanPacket o.cls (if o.cls = clsTns then o.flow else 0) h.tgtMod h.tgtCore s.route.me (s.adaptFor o.cls)
    (o.header k h o.sent) body

/-- A packet of the right length, for the test of room. -/
def NxOp.blankBody (o : NxOp) : List (PWord 64) :=
  match o.kind with
  | .put => poisonBody (32 * o.linesAt o.sent)
  | .tup => poisonBody 8
  | .ring => poisonBody (32 * o.count)
  | _ => []

/-- Whether credit, the throttle and the reply reservations let the next packet of an operation leave (R187, R288, R305, R311). -/
def State.canGo (s : State) (k : Nat) (o : NxOp) : Bool :=
  match (s.core k).sender o.handle with
  | none => false
  | some h =>
    (if o.kind == .req then decide ((s.core k).chan.replies.length < 64) else decide (o.charge h o.sent ≤ h.credit))
      && s.admits k o.cls && !s.throttled k o.cls

/-- The exit of the next packet of an operation, its channel there and the packet with a blank payload, when it has an exit. -/
def State.nxExit (s : State) (k : Nat) (o : NxOp) : Option (Place × Nat × Packet) :=
  match (s.core k).sender o.handle with
  | none => none
  | some h =>
    let p := s.nxPacket k o h o.blankBody
    match s.choose (.core k) p with
    | .go e v => some (e, v, p)
    | .discard _ => none

/-- The pool in which the next packet of an operation needs a reservation: that of a port that is usable (R281). -/
def State.nxPool (s : State) (k : Nat) (o : NxOp) : Option (Nat × Nat) :=
  match s.nxExit k o with
  | some (e, v, p) => (s.poolOf e v p).filter fun x => (s.port x.1).usable
  | none => none

/-- The operations whose packets are the first of their handles to leave (R305). -/
def firstSends (seen : List Nat) : List NxOp → List NxOp
  | [] => []
  | o :: r =>
    if o.unsent && !seen.contains o.handle then o :: firstSends (o.handle :: seen) r else firstSends seen r

/-- Whether a core asks for a reservation in a pool (R281). -/
def State.nxAsks (s : State) (pool : Nat × Nat) (k : Nat) : Bool :=
  (firstSends [] (s.core k).nx.ops).any fun o => s.canGo k o && s.nxPool k o == some pool

/-- All entry points that ask for a reservation in a pool. -/
def State.allAskers (s : State) (pool : Nat × Nat) : List Place :=
  s.askers pool ++ ((s.cores.map (·.1)).filter (s.nxAsks pool)).map .core

/-- Whether the next packet of an operation gets its reservation, or needs none (R281). -/
def State.roomFor (s : State) (k : Nat) (o : NxOp) : Bool :=
  match s.nxPool k o, s.nxExit k o with
  | some pool, some (_, _, p) => decide (p.len ≤ s.poolFree pool.1 pool.2) && s.turn pool (s.allAskers pool) (.core k)
  | _, _ => true

/-- Whether the next packet of an operation can leave now, but for the order within its handle. -/
def State.canLeave (s : State) (k : Nat) (o : NxOp) : Bool := s.canGo k o && s.roomFor k o

/-- The first operation in program order that can act: a silent one completes; the first of its handle sends (R305). -/
def State.nextNx (s : State) (k : Nat) (seen : List Nat) : List NxOp → Option NxOp
  | [] => none
  | o :: r =>
    if o.silent && o.kind != .wait then some o
    else if o.unsent && !seen.contains o.handle && (o.begun || o.ponly || !(o.kind == .put || o.kind == .ring))
        && s.canLeave k o then some o
    else s.nextNx k (if o.unsent then o.handle :: seen else seen) r

/-- A packet that core k's router accepts: with its exit and its reservation when it leaves by a port. -/
def State.accepted (s : State) (k : Nat) (p : Packet) : Transit :=
  let t : Transit := { pkt := p, src := .core k, taken := true }
  match s.choose (.core k) p with
  | .go e v => (match s.poolOf e v p with
    | some x => { t with exit := some e, outVc := v, granted := some x.1 }
    | none => t)
  | .discard _ => t

/-- The router accepts a packet of an operation; the pool that grants its reservation notes whose turn it was. -/
def State.acceptNx (s : State) (k : Nat) (o : NxOp) (p : Packet) : State :=
  let t := s.accepted k p
  let s := match s.nxPool k o with
    | some pool => s.noteTurn pool (.core k)
    | none => s
  (s.countFlits k o.cls p.len).injectAs t

/-- The words of a tuple from its source lines (R185). -/
def tupleBody (sdw n : Nat) (words : List (PWord 32)) : List (PWord 64) :=
  wholeFlits (joinHalves ((words.drop (2 * (sdw % 32))).take (2 * n)))

/-- The payload of the next packet of an operation, from what it has read. A slot taken at occupancy 0 gives poison (R62). -/
def NxOp.body (o : NxOp) : List (PWord 64) :=
  let failed := match o.slot with
    | some b => b.failed
    | none => false
  if o.ponly || failed then o.blankBody
  else match o.kind with
  | .put => linePayload o.words
  | .ring => linePayload o.words
  | .tup => tupleBody o.line o.count o.words
  | _ => []

/-! ## Source reads (R187) -/

/-- n reads of lines from `line` on, one per cycle from cycle t. -/
def nxReads (t line n : Nat) : List LineRead :=
  (List.range n).map fun i => ⟨t + i, i, .data, ((line + i : Nat) : Int)⟩

/-- The first operation of its handle in program order that can begin the reads of its next packet: its flow control
allows it (R187, R305). -/
def State.beginNx (s : State) (k : Nat) (seen : List Nat) : List NxOp → Option NxOp
  | [] => none
  | o :: r =>
    if (o.kind == .put || o.kind == .ring) && !o.ponly && o.unsent && !o.begun && !seen.contains o.handle && s.canLeave k o
    then some o
    else s.beginNx k (if o.unsent then o.handle :: seen else seen) r

/-- Begin the reads of a packet: one line per cycle from u + ENX on, and not before the present cycle or the packet before
it. With the last packet the ready bound is known. The line of a bin source counts from the first line of its slot. -/
def State.beginReads (s : State) (k : Nat) (o : NxOp) : State :=
  let t := max (max (o.issue + s.ctENX + o.slip) o.since) s.now
  let n := if o.kind == .put then o.linesAt o.sent else o.count
  let base := (if o.bin.isSome then 0 else o.srcLine) + (if o.kind == .put then o.per * o.sent else 0)
  let s := s.putNx k { o with fetch := nxReads t base n, words := [] }
  if o.sent + 1 = o.packets then s.setReady k .nx (t + n) else s

/-- Begin the reads of the packets whose flow control allows them now. -/
def State.startReads (s : State) (k : Nat) : State :=
  match s.beginNx k [] (s.core k).nx.ops with
  | some o => s.beginReads k o
  | none => s

/-- What a source read still owes: the last cycle in which operation u reads. -/
def State.lastRead (s : State) (k u : Nat) : Nat :=
  match (s.core k).nx.ops.find? (fun o => o.issue == u) with
  | some o => (match o.fetch.getLast? with
    | some f => f.due + 1
    | none => 0)
  | none => 0

/-! ## Issue (R182 to R188) -/

/-- Whether the stream can issue the opcode: at most 16 operations in flight (R187). -/
def Core.nxOpen (c : Core) : Bool := decide (c.nx.ops.length < 16)

def State.wantNx (s : State) (k op : Nat) : Nat → Bool → Bool := fun o ue => wantOp op o ue && (s.core k).nxOpen

/-- The message number of an operation that sends a message, and the class and flow of the pass (R301, R390). -/
def State.numberNx (s : State) (k : Nat) (o : NxOp) : BitVec 16 × State :=
  match (s.core k).usable o.handle o.fits with
  | none => (0, s)
  | some h =>
    if o.kind == .wait then (0, s)
    else (h.mseq, s.modHandle k (hIndex o.handle) fun h =>
      { h with mseq := h.mseq + 1
               flow := if (o.kind == .put || o.kind == .tup) && h.flow.isNone then some (o.fwd, if o.fwd then 0 else o.flow)
                 else h.flow })

/-- In strict mode a message travels in the class and flow of its handle's first, the poison-only message of one that differs too
(R390). -/
def State.inFlow (s : State) (k : Nat) (o : NxOp) : NxOp :=
  match (s.core k).usable o.handle o.fits with
  | some h => (match h.flow with
    | some (c, f) => if s.strict && (o.kind == .put || o.kind == .tup) then { o with fwd := c, flow := f } else o
    | none => o)
  | none => o

/-- Issue of an operation: an inconsistent one is skipped, a refused one is recorded, a skipped or refused one sends its
poison-only message or nothing (R188). -/
def State.issueNx (s : State) (k : Nat) (o : NxOp) (skipped : Bool) (incons : Option Nat) : State :=
  let x := match skipped, incons with
    | false, some pos => s.noteSkip k .nx o.owed 0x0102 (s.skipDetail k pos)
    | _, _ => (o.owed, s)
  let skipped := skipped || incons.isSome
  let s := x.2
  let o := s.inFlow k { o with owed := x.1, issue := s.now }
  let code := if skipped then none else (s.core k).nxRefusal s.now o
  let s := match code with
    | some (c, d) => s.faultAt k .nx o.owed.index c d
    | none => s
  let refused := skipped || code.isSome
  let ponly := refused && (s.core k).sendsPoison o
  let silent := refused && !ponly
  let m := if silent then (0, s) else s.numberNx k o
  let spoils := refused && o.kind == .req && o.bin.isNone && ((s.core k).usable o.handle o.fits).isSome
  let op := { o with mseq := m.1, silent := silent, spoils := spoils, ponly := ponly, since := s.now + s.ctENX }
  let s := m.2.modCore k fun c => c.modNx fun n =>
    { n with ops := n.ops ++ [op], refused := if refused then satInc n.refused 1 else n.refused }
  let reads := !refused && op.kind == .tup
  let s := if reads then s.putNx k { op with fetch := nxReads (s.now + s.ctENX) op.srcLine op.srcLines } else s
  if op.holds then s.startReads k
  else s.setReady k .nx (if reads then s.now + s.ctENX + op.srcLines else s.now + 1)

/-- What makes an NPUT inconsistent (R183, R184, R390): the lowest bit of the field that does not fit. -/
def State.nputIncons (s : State) (k : Nat) (w : Nat) : Option Nat :=
  if npCls w && npFlow w != 0 then some 59
  else if hOpx1 w && npCount w % 5 != 0 then some 46
  else if hOpx1 w && npDoff w % 5 != 0 then some 16
  else if s.strict then
    match (s.core k).usable (nxHandle w) fun x => x == kWinSend with
    | some h => (match h.flow with
      | some (c, f) => if f ≠ npFlow w then some 59 else if c ≠ npCls w then some 58 else none
      | none => none)
    | none => none
  else none

/-- What makes an NTUP inconsistent (R390): it counts as class FWD, flow 0. -/
def State.ntupIncons (s : State) (k : Nat) (w : Nat) : Option Nat :=
  if s.strict then
    match (s.core k).usable (nxHandle w) fun x => x == kWinSend with
    | some h => (match h.flow with
      | some (c, f) => if f ≠ 0 ∨ c ≠ true then some 0 else none
      | none => none)
    | none => none
  else none

/-- NPUT (R183, R184). -/
def execNput (k : Nat) (s : State) : Host.Outcome State Fault Refusal :=
  .next (s.issueOp k .nx (s.boundOf k .nx) (s.wantNx k 1) fun w o skipped s =>
    s.issueNx k { owed := o, issue := 0, kind := .put, handle := nxHandle w, off := npDoff w, line := npSline w
                  count := npCount w, fwd := npCls w, flow := npFlow w, acc := hOpx1 w
                  bin := binRef (npSline w) (hOpx0 w) (hAdv w) } skipped (s.nputIncons k w))

/-- NTUP (R185). -/
def execNtup (k : Nat) (s : State) : Host.Outcome State Fault Refusal :=
  .next (s.issueOp k .nx (s.boundOf k .nx) (s.wantNx k 2) fun w o skipped s =>
    s.issueNx k { owed := o, issue := 0, kind := .tup, handle := nxHandle w, off := ntDwoff w, line := ntSdw w
                  count := ntCount w } skipped (s.ntupIncons k w))

/-- NRING (R308). -/
def execNring (k : Nat) (s : State) : Host.Outcome State Fault Refusal :=
  .next (s.issueOp k .nx (s.boundOf k .nx) (s.wantNx k 3) fun w o skipped s =>
    s.issueNx k { owed := o, issue := 0, kind := .ring, handle := nxHandle w, line := nrSline w, count := nrCount w
                  bin := binRef (nrSline w) (hOpx0 w) (hAdv w) } skipped none)

/-- NREQ (R311). -/
def execNreq (k : Nat) (s : State) : Host.Outcome State Fault Refusal :=
  .next (s.issueOp k .nx (s.boundOf k .nx) (s.wantNx k 4) fun w o skipped s =>
    s.issueNx k { owed := o, issue := 0, kind := .req, handle := nxHandle w, off := nqRoff w, line := nqDline w
                  count := npCount w, bin := binRef (nqDline w) (hOpx0 w) (hAdv w) } skipped none)

/-- NWAIT (R186). `line` holds the control line that it watches. -/
def execNwait (k : Nat) (s : State) : Host.Outcome State Fault Refusal :=
  .next (s.issueOp k .nx (s.boundOf k .nx) (s.wantNx k 5) fun w o skipped s =>
    s.issueNx k { owed := o, issue := 0, kind := .wait, handle := nxHandle w
                  line := ((s.core k).handle (hIndex (nxHandle w))).ctrl
                  target := BitVec.ofNat 32 (nwTarget w) } skipped none)

/-! ## Acceptance -/

/-- The sender entry after a packet has left: CREDIT falls, the tail of a single-sender ring moves (R305, R309). -/
def NxOp.after (o : NxOp) (h : Handle) : Handle :=
  { h with credit := h.credit - o.charge h o.sent
           tail := if o.kind == .ring && !h.shared then (ringPlace h.tail (h.rsize + 1) o.count).2.2 else h.tail }

/-- The operations that wait for CREDIT: the first of their handles, each with its entry (R319). -/
def Core.creditWaits (c : Core) : List (NxOp × Handle) :=
  (firstSends [] c.nx.ops).filterMap fun o => match c.sender o.handle with
    | some h => if o.kind != .req && decide (h.credit < o.charge h o.sent) then some (o, h) else none
    | none => none

/-- The first cycle of the present count in which an operation waits for CREDIT. -/
def Core.creditStart (c : Core) : Option Nat :=
  (c.creditWaits.map fun x => max c.chan.creditFrom x.1.since).min?

/-- The count of the credit watchdog is brought up to the end of the present cycle, and the operations that wait have waited (R319). -/
def State.settleCredit (s : State) (k : Nat) : State :=
  let c := s.core k
  let n := match c.creditStart with
    | some t => s.now + 1 - t
    | none => 0
  let ws := (c.creditWaits.filter fun x => decide (x.1.since ≤ s.now)).map fun x => x.1.issue
  (s.modCore k fun c => c.modNx fun x =>
      { x with ops := x.ops.map fun o => if ws.contains o.issue then { o with short := true } else o }).modCore k fun c =>
    c.modChan fun y => { y with creditCount := y.creditCount + n, creditFrom := max y.creditFrom (s.now + 1) }

/-- One packet of an operation is accepted, after its source reads. -/
def State.acceptPacket (s : State) (k : Nat) (o : NxOp) (h : Handle) : State :=
  let s := s.advance (o.issue + s.ctENX + o.slip)
  let s := s.toCycle k (fun s => s.lastRead k o.issue) ((s.core k).owedReads + 1)
  let s := s.settleCredit k
  let o := ((s.core k).nx.ops.find? fun x => x.issue == o.issue).getD o
  let s := s.acceptNx k o (s.nxPacket k o h o.body)
  let s := s.modCore k fun c => (c.modSender o.handle o.after).modChan fun y =>
    { y with creditCount := if o.short then 0 else y.creditCount }
  let o' := { o with sent := o.sent + 1, left := if o.kind == .req then o.left + 1 else o.left
                     since := s.now, short := false, words := [] }
  if o.kind == .req then
    (s.putNx k o').modCore k fun c => c.modChan fun y =>
      { y with replies := y.replies ++ [{ handle := o.handle, dline := (o.line + 16 * o.sent) % 16384, lines := o.linesAt o.sent
                                          op := o.issue }] }
  else if o'.sent = o.packets then (s.finishNx k o').startReads k
  else (s.putNx k o').startReads k

/-- NX_PACKET_ACCEPT: the first operation that can act has its next packet accepted, or completes without one; a refused NREQ poisons
its destination lines then (R187, R188). -/
def execNxPacketAccept (k : Nat) (s : State) : Host.Outcome State Fault Refusal :=
  .next (let s0 := s.startReads k
    match s0.nextNx k [] (s0.core k).nx.ops with
    | none => s
    | some o =>
      let s := s0
      if o.silent then
        let s := s.advance (o.issue + s.ctENX + o.slip)
        (if o.spoils then s.poisonLines k false o.line o.count else s).finishNx k o
      else match (s.core k).sender o.handle with
        | none => s
        | some h => s.acceptPacket k o h)

/-- NI_THROTTLE_PERIOD: the counts restart with the next period (R288). -/
def execNiThrottlePeriod (k : Nat) (s : State) : Host.Outcome State Fault Refusal :=
  .next (if (s.core k).ctl.attached then
    let p := bits (s.core k).nx.throttle.toNat 25 16 + 1
    let s := s.advance (s.now + (p - s.coreCycle (s.core k) % p))
    let n := s.periodOf k
    (s.modCore k fun c => c.modNx fun x => { x with period := n, reqFlits := 0, fwdFlits := 0 }).startReads k
  else s)

/-! ## Waits (R186, R297) -/

/-- The status word of entry h as a read of its control line delivers it: COUNT and the flags. What changes in the cycle of the read is not
seen (R56, R203). -/
def State.readStatus (s : State) (k eng line : Nat) (h : Handle) : Word32 × Nat × State :=
  let a := s.readWord k eng (64 * line)
  let b := a.2.readWord k eng (64 * line + 1)
  if h.changedAt = s.now then (h.was.1, h.was.2, b.2) else (a.1.val, bits b.1.val.toNat 20 16, b.2)

/-- Whether a handle value still names an entry that is OPEN or CLOSING (R297, R314). -/
def Core.alive (c : Core) (v : Nat) : Bool :=
  let h := c.handle (hIndex v)
  h.state != .closed && h.gen == hGen v

/-- The wait in flight. -/
def Core.nxWait (c : Core) : Option NxOp := c.nx.ops.find? fun o => o.kind == .wait

/-- A wait ends: the stream runs on after its completion cycle (R187). -/
def State.endNwait (s : State) (k : Nat) (o : NxOp) : State :=
  ((s.modStream k .nx fun t => { t with state := .run }).setReady k .nx (s.now + 1)).finishNx k o

/-- NWAIT_COMPLETE: one read of the status word. It ends the wait when the condition holds, a flag is set or the handle is
no longer usable; otherwise the stream is in WAIT_ARR (R186, R297). In WAIT_ARR the word is read once more after each change, from the
cycle after it on; without a change since the latest read nothing happens. -/
def execNwaitComplete (k : Nat) (s : State) : Host.Outcome State Fault Refusal :=
  .next (match (s.core k).nxWait with
    | none => s
    | some o =>
      let h := (s.core k).handle (hIndex o.handle)
      if (s.core k).ctl.stopAt.isSome || (o.waitTick.isSome && decide (h.changedAt < o.readAt)) then s
      else
      let due := o.issue + s.ctENX + o.slip
      let s := s.advance due
      if o.silent then s.finishNx k o
      else
        let s := if o.waitTick.isSome then s.advance (h.changedAt + 1) else s
        let s := (s.takeBanks k .nx false (if o.waitTick.isSome then h.changedAt + 1 else due) fun _ => [o.line % 16]).2
        let o := { o with readAt := s.now }
        let h := (s.core k).handle (hIndex o.handle)
        let r := s.readStatus k (engCode .nx) o.line h
        let s := r.2.2.putNx k o
        if reached r.1 o.target || r.2.1 != 0 then s.endNwait k o
        else if h.changedAt != s.now && !(s.core k).alive o.handle then
          (s.faultAt k .nx o.owed.index 0x0410 (pack [(16, o.handle)])).endNwait k o
        else if o.waitTick.isSome then s
        else (s.modStream k .nx fun t => { t with state := .waitArr }).putNx k { o with waitTick := some s.tick })

/-! ## Watchdogs (R319) -/

/-- CREDIT_WATCHDOG: the count reaches its limit, and the first operation that waits is abandoned and completes in the next cycle. The
count starts afresh then (R319). -/
def execCreditWatchdog (k : Nat) (s : State) : Host.Outcome State Fault Refusal :=
  .next (let c := s.core k
    let sh := watchShift c.chan.creditShift.toNat
    match c.creditWaits, c.creditStart with
    | (o, h) :: _, some t =>
      if sh = 0 then s
      else
        let s := (s.advance (t + 2 ^ sh - 1 - c.chan.creditCount)).settleCredit k
        let s := s.faultAt k .nx o.owed.index 0x0418 (pack [(16, o.handle), (16, h.credit), (16, o.charge h o.sent)])
        let s := s.modCore k fun c => c.modChan fun y => { y with creditCount := 0 }
        let s := s.advance (s.now + 1)
        let s := if o.holds then s.setReady k .nx (s.now + 1) else s
        s.finishNx k o
    | _, _ => s)

/-! ## RESERVATION_GRANT (R281) -/

/-- RESERVATION_GRANT: packet i of the mesh, which leaves by a logical port, is granted its reservation and enters the mesh. -/
def execReservationGrant (i : Nat) (s : State) : Host.Outcome State Fault Refusal :=
  .next (match s.mesh.items[i]? with
    | none => s
    | some t =>
      match t.exit with
      | some (.port l) => if !s.mesh.aligned || s.blocked i t then s else s.reserve i t l s.allAskers
      | _ => s)

end Sys2Proof.Machine
end

