-- ==== Sys2Proof/Machine/Arrivals.lean ====
section
/-! DEFINITION. Packets that reach a core: the steps of R303, windows, rings, requests, replies, grants, yields
(R302 to R317). -/

namespace Sys2Proof.Machine

/-! ## Core groups (R463) -/

/-- The die of core k: 16 × 12 cores, D0 and D1 in the lower rows (R463). -/
def dieOf (k : Nat) : Nat := k % 32 / 16 + 2 * (k / 32 / 12)

/-- The core-group number of core k. -/
def groupOf (k : Nat) : Nat := 24 * dieOf k + 4 * (k / 32 % 12 / 2) + k % 32 % 16 / 4

def State.group (s : State) (g : Nat) : GroupState := (keyGet s.power.groups g).getD .on

/-! ## The steps of R303 -/

/-- What the steps 1 to 4 come to. `fail` carries the code, the flag, and whether a LAST packet completes its message. -/
inductive Verdict where
  | pass (h : Handle)
  | late
  | fail (code flag : Nat) (ends : Bool)
deriving DecidableEq, Repr

/-- The kinds that an OP fits (R293, R303). -/
def opFits (op kind : Nat) : Bool :=
  if op = opPut ∨ op = opTup then kind == kWinOwn
  else if op = opRing then kind == kRingOwn
  else if op = opReq then kind == kRdwinOwn
  else if op = opGrant then kind == kWinSend || kind == kRingSend
  else if op = opYield then kind == kWinOwn || kind == kRingOwn
  else false

/-- Whether SLOT, SRC and SCORE name a core that the entry lists (step 2). A read window lists none. -/
def Handle.lists (h : Handle) (src slot score : Nat) : Bool :=
  if isSender h.kind then slot == h.slot && src == h.tgtMod && score == h.tgtCore
  else if h.kind = kRdwinOwn then slot == 0
  else match h.slots[slot]? with
    | some x => x.modField == src && x.score == score
    | none => false

/-- A ring with more than one sender slot (R309). -/
def Handle.sharedRing (h : Handle) : Bool := decide (1 < h.slots.length)

/-- The charge of a packet (R304, R309). -/
def ChanHdr.charge (c : ChanHdr) (h : Handle) : Nat :=
  if c.op = opPut then c.n + 1
  else if c.op = opTup then 1
  else if c.op = opRing then (if h.sharedRing then 2 * (c.n + 1) - 1 else c.n + 1 + c.skip)
  else 0

/-- The lines of the data area that a packet touches: the first, counted from BASE, and how many. -/
def ChanHdr.extent (c : ChanHdr) (h : Handle) : Nat × Nat :=
  if c.op = opTup then (c.off / 32, (c.off + c.n) / 32 - c.off / 32 + 1)
  else if c.op = opRing ∧ h.sharedRing then ((ringPlace h.tail h.lines (c.n + 1)).1, c.n + 1)
  else (c.off, c.n + 1)

/-- Step 3: the extent lies in the data area. -/
def ChanHdr.inArea (c : ChanHdr) (h : Handle) : Bool := decide ((c.extent h).1 + (c.extent h).2 ≤ h.lines)

/-- Step 3 in strict mode: the extent stays in the part of its slot (R389). -/
def ChanHdr.inPart (c : ChanHdr) (h : Handle) : Bool :=
  let z := h.lines / h.slots.length
  let e := c.extent h
  decide (c.slot * z ≤ e.1) && decide (e.1 + e.2 ≤ (c.slot + 1) * z)

/-- Step 4: the credit of the sender slot. -/
def ChanHdr.inCredit (c : ChanHdr) (h : Handle) : Bool :=
  match h.slots[c.slot]? with
  | some x => decide (x.received + c.charge h ≤ x.granted)
  | none => false

/-- Whether a packet carries data into a window or ring. -/
def opData (op : Nat) : Bool := op == opPut || op == opTup || op == opRing

/-- Steps 1 to 4 for a packet at core k. -/
def State.judge (s : State) (k : Nat) (p : Packet) : Verdict :=
  let c := p.chan
  let h := (s.core k).handle c.tidx
  if h.state == .closed || h.gen != c.tgen then
    (if h.late == some c.tgen then .late else .fail 0x0415 fStale false)
  else if !opFits c.op h.kind || !h.lists p.src c.slot c.score || (c.acc && (h.kind != kWinOwn || h.stock)) then
    .fail 0x0416 fOutside true
  else if s.strict && (c.op == opPut || c.op == opTup) && h.sharedRing && !c.inPart h then .fail 0x041B fOutside true
  else if (opData c.op || c.op == opReq) && !c.inArea h then .fail 0x0416 fOutside true
  else if opData c.op && !c.inCredit h then .fail 0x0417 fOverrun true
  else .pass h

def State.countLate (s : State) (k : Nat) : State :=
  s.modCore k fun c => c.modChan fun x => { x with lateCount := satInc x.lateCount 1 }

def State.countDrop (s : State) (k : Nat) : State :=
  s.modCore k fun c => c.modChan fun x => { x with dropCount := satInc x.dropCount 1 }

/-- A fault of the channel unit with the handle index (R322). -/
def State.chanFault (s : State) (k i code : Nat) : State := s.faultCore k svc code (pack [(12, i)])

/-- Whether a dropped packet completes its message: a LAST packet at a window or a ring (R296). -/
def ChanHdr.completes (c : ChanHdr) (kind : Nat) : Bool := c.last && opData c.op && (kind == kWinOwn || kind == kRingOwn)

/-- A drop at steps 1 to 4 (R303). -/
def State.dropAt (s : State) (k : Nat) (c : ChanHdr) (code flag : Nat) (ends : Bool) : State :=
  ((s.chanFault k c.tidx code).countDrop k).postStatus k c.tidx
    (if ends && c.completes ((s.core k).handle c.tidx).kind then some c.mseq else none) flag

/-- A packet that passes step 4 adds its charge to RECEIVED. -/
def State.charged (s : State) (k : Nat) (c : ChanHdr) (h : Handle) : State :=
  s.modHandle k c.tidx fun e =>
    { e with slots := modAt e.slots c.slot fun x => { x with received := x.received + c.charge h } }

/-- Step 5, and the write when the memory accepts it; then the status word (R296). -/
def State.placeAt (s : State) (k : Nat) (c : ChanHdr) (h : Handle) (write : State → State) : State :=
  let e := c.extent h
  let s := s.charged k c h
  let msg := if c.last then some c.mseq else none
  match (s.core k).writeCode h.stock (h.base + e.1) e.2 with
  | some code =>
    (s.faultCore k svc code (pack [(if h.stock then 19 else 14, h.base + e.1)])).postStatus k c.tidx msg fRefused
  | none =>
    let s := write s
    let s := s.modCore k fun x => x.raiseHigh h.stock (h.base + e.1) e.2
    if c.last then s.postStatus k c.tidx msg 0 else s

/-- The effect of steps 1 to 5. -/
def State.arrive (s : State) (k : Nat) (p : Packet) (write : Handle → State → State) : State :=
  match s.judge k p with
  | .late => s.countLate k
  | .fail code flag ends => s.dropAt k p.chan code flag ends
  | .pass h => s.placeAt k p.chan h (write h)

/-! ## Puts (R184, R303) -/

/-- Line j of a packet as it is delivered. -/
def Packet.lineOf (p : Packet) (j : Nat) : List (PWord 32) := if p.chan.ponly then badLine else p.lineAt j

/-- Write lines j on of a packet from `line` on. -/
def State.writeLines (s : State) (k : Nat) (stock : Bool) (line : Nat) : List (List (PWord 32)) → State
  | [] => s
  | ws :: r =>
    (if stock then s.putStockLine k svc line ws else s.putWords k svc (64 * line) ws).writeLines k stock (line + 1) r

def Packet.linesOf (p : Packet) : List (List (PWord 32)) := (List.range (p.chan.n + 1)).map p.lineOf

/-- Element i of a byte run of acc40 elements (R42). -/
def accElem (bs : List Byte) (i : Nat) : Int := signed 40 (bytesToNat ((bs.drop (5 * i)).take 5))

/-- Whether a word that holds a byte of element i is poisoned. -/
def accBad (ws : List (PWord 32)) (i : Nat) : Bool :=
  (ws.getD (5 * i / 4) ⟨0, false⟩).poison || (ws.getD ((5 * i + 4) / 4) ⟨0, false⟩).poison

/-- The words of a byte run with poison by word. -/
def wordsOf (bs : List Byte) (bad : Nat → Bool) (n : Nat) : List (PWord 32) :=
  (List.range n).map fun i => ⟨BitVec.ofNat 32 (bytesToNat ((bs.drop (4 * i)).take 4)), bad i⟩

/-- acc_add of each element of `src` into `dst` (R184): the words, and the number of clamps. A word is poisoned when an
element that it holds has a poisoned word. Bytes that fill no element stay. -/
def accCombine (dst src : List (PWord 32)) : List (PWord 32) × Nat :=
  let d := wordBytes dst
  let a := wordBytes src
  let n := dst.length * 4 / 5
  let r := (List.range n).map fun i => accAdd (accElem d i) (accElem a i)
  let out := (r.flatMap fun x => natToBytes (wrapU 40 x.1) 5) ++ d.drop (5 * n)
  let bad := fun i => accBad dst i || accBad src i
  (wordsOf out (fun w => decide (4 * w / 5 < n) && bad (4 * w / 5) || decide ((4 * w + 3) / 5 < n) && bad ((4 * w + 3) / 5)
      || decide (5 * n ≤ 4 * w + 3) && (dst.getD w ⟨0, false⟩).poison) dst.length,
   (r.filter (·.2)).length)

/-- Lines of 64 words. -/
def toLines (n : Nat) (ws : List (PWord 32)) : List (List (PWord 32)) :=
  match n with
  | 0 => []
  | n + 1 => ws.take 64 :: toLines n (ws.drop 64)

/-- An accumulating put: the destination is read, combined and written; clamps count in SAT_COUNT_ACC (R47). -/
def State.combineLines (s : State) (k line : Nat) (p : Packet) : State :=
  let n := p.chan.n + 1
  let r := s.readLines k svc line n
  let x := accCombine r.1.flatten p.linesOf.flatten
  let s := r.2.modCore k fun c => c.modMx fun m => { m with satAcc := satInc m.satAcc x.2 }
  s.writeLines k false line (toLines n x.1)

/-- PUT at a core. -/
def State.corePut (s : State) (k : Nat) (p : Packet) : State :=
  s.arrive k p fun h s =>
    let line := h.base + p.chan.off
    if p.chan.acc then s.combineLines k line p else s.writeLines k h.stock line p.linesOf

/-! ## Tuples (R185, R303) -/

/-- Write 64-bit words of one stock line that was permitted: only the words named change (R303). -/
def State.putStockPart (s : State) (k w : Nat) (ws : List (PWord 32)) : State :=
  let a := s.spoilAll (evenPoison ws)
  let d := joinHalves a.1
  let s := a.2.modCore k fun c => c.modMem fun m => { m with stock := putStockWords m.stock w d }
  let s := s.addSum k true w (wordBytes a.1) (d.map (·.poison))
  s.appendPoison k svc true (w / 32) (d.any (·.poison))

/-- Write n 64-bit words from word w of a memory on, all in one line. -/
def State.writePart (s : State) (k : Nat) (stock : Bool) (w : Nat) (ws : List (PWord 32)) : State :=
  if ws.isEmpty then s
  else if stock then s.putStockPart k w ws else s.putWords k svc (2 * w) ws

/-- The words of a tuple as scratchpad words. -/
def Packet.tuple (p : Packet) : List (PWord 32) :=
  (List.range (p.chan.n + 1)).flatMap fun j => if p.chan.ponly then [⟨0, true⟩, ⟨0, true⟩] else p.pairAt j

/-- TUP at a core: the words of each line it touches are one write. -/
def State.coreTup (s : State) (k : Nat) (p : Packet) : State :=
  s.arrive k p fun h s =>
    let w := 32 * h.base + p.chan.off
    let first := 32 - p.chan.off % 32
    (s.writePart k h.stock w (p.tuple.take (2 * first))).writePart k h.stock (w + first) (p.tuple.drop (2 * first))

/-! ## Rings (R308 to R310) -/

/-- The record word of a message or of a skip, as two scratchpad words. -/
def recordWord (mseq lines skip slot charge : Nat) (count : Word32) : List (PWord 32) :=
  [⟨BitVec.ofNat 32 (pack [(16, mseq), (4, lines), (1, skip), (3, slot), (5, charge)]), false⟩, ⟨count, false⟩]

/-- RING at a core: the skip record, then the message with its record word. -/
def State.coreRing (s : State) (k : Nat) (p : Packet) : State :=
  s.arrive k p fun h s =>
    let c := p.chan
    let l := c.n + 1
    let place := if h.sharedRing then ringPlace h.tail h.lines l else (c.off, c.skip, 0)
    let s := if place.2.1 = 0 then s
      else s.putWords k svc (64 * (h.base + h.lines - place.2.1)) (recordWord c.mseq (place.2.1 - 1) 1 c.slot 0 h.count)
    let first := recordWord c.mseq c.n 0 c.slot (c.charge h) (h.count + 1) ++ (p.lineOf 0).drop 2
    let s := s.writeLines k false (h.base + place.1) (first :: p.linesOf.drop 1)
    if h.sharedRing then s.modHandle k c.tidx fun e => { e with tail := place.2.2 } else s

/-! ## Requests (R311, R315) -/

/-- The reply to a request: its lines, or n poisoned lines with ERR. -/
def State.reply (s : State) (k : Nat) (p : Packet) (err : Bool) (body : List (PWord 64)) : State :=
  let c := p.chan
  s.sendFrom k (chanPacket clsRpl 0 p.src c.score s.route.me (s.adaptFor clsRpl)
    { op := opRpl, score := k, tidx := hIndex c.rhandle, tgen := hGen c.rhandle, mseq := c.mseq, pkt := c.pkt
      last := c.last, err := err, off := c.dline, n := c.n, dline := c.dline, rhandle := c.rhandle } body)

/-- A request that fails is answered with ERR and poison. -/
def State.replyErr (s : State) (k : Nat) (p : Packet) : State :=
  s.reply k p true (poisonBody (32 * (min p.chan.n 15 + 1)))

/-- Read n stock lines. -/
def State.readStockRun (s : State) (k line : Nat) : Nat → List (List (PWord 32)) × State
  | 0 => ([], s)
  | n + 1 =>
    let a := s.readStockLine k svc line
    let r := a.2.2.readStockRun k (line + 1) n
    (a.1 :: r.1, r.2)

/-- Replies of core k that wait to be injected: each holds a place of the request queue (R282). -/
def State.queuedReqs (s : State) (k : Nat) : Nat :=
  (s.mesh.items.filter fun t => t.src == .core k && t.pkt.cls == clsRpl && t.entered.isNone).length

/-- REQ at a core. -/
def State.coreReq (s : State) (k : Nat) (p : Packet) : State :=
  let c := p.chan
  match s.judge k p with
  | .late => (s.countLate k).replyErr k p
  | .fail code flag _ => (s.dropAt k c code flag false).replyErr k p
  | .pass h =>
    let line := h.base + c.off
    match (s.core k).readCode h.stock line (c.n + 1) with
    | some code =>
      let s := s.faultCore k svc code (pack [(if h.stock then 19 else 14, line)])
      ((s.countDrop k).postStatus k c.tidx none fRefused).replyErr k p
    | none =>
      let r := if h.stock then s.readStockRun k line (c.n + 1) else s.readLines k svc line (c.n + 1)
      (r.2.reply k p false (r.1.flatMap linePayload)).postStatus k c.tidx (some c.mseq) 0

/-! ## Replies (R312) -/

/-- The reservation that a reply matches: by RHANDLE and DLINE. -/
def Core.replyFor (c : Core) (h : ChanHdr) : Option Reply :=
  c.chan.replies.find? fun r => r.handle == h.rhandle && r.dline == h.dline

/-- The NREQ that holds a reservation. -/
def Core.reqOf (c : Core) (r : Reply) : Option NxOp := c.nx.ops.find? fun o => o.kind == .req && o.issue == r.op

/-- The status word of a requester, while its handle still names the entry (R317). -/
def State.reqStatus (s : State) (k v : Nat) (msg : Option Nat) (flags : Nat) : State :=
  if (s.core k).alive v then s.postStatus k (hIndex v) msg flags else s

/-- The bin slot that an NREQ writes, taken at the first line of its first reply (R62): with the slot undrained it records 0x030B, and
nothing of its replies is written. -/
def State.replySlot (s : State) (k : Nat) (o : NxOp) : Option BinSlot × State :=
  match o.bin, o.slot with
  | some r, none =>
    let x := (s.core k).binTake s.now r true
    (some x, if x.failed then s.faultAt k .nx o.owed.index 0x030B (pack [(14, x.base)]) else s)
  | _, x => (x, s)

/-- The lines that a reply delivers. -/
def Packet.replyLines (p : Packet) (n : Nat) : List (List (PWord 32)) :=
  (List.range n).map fun j => if p.chan.err then badLine else p.lineAt j

/-- The write of a reply's lines: into the bin slot, where its destination was checked (R62, R188), or at DLINE. -/
def State.writeReply (s : State) (k : Nat) (r : Reply) (p : Packet) (o : Option NxOp) (slot : Option BinSlot) : State :=
  match o, slot with
  | some o, some b =>
    if b.failed then s
    else s.writeLines k false (b.base + (r.dline + 16384 - o.line % 16384) % 16384) (p.replyLines (min (p.chan.n + 1) r.lines))
  | _, _ =>
    let n := p.chan.n + 1
    match (s.core k).writeCode false r.dline n with
    | some code => (s.faultCore k svc code (pack [(14, r.dline)])).reqStatus k r.handle none fRefused
    | none => (s.writeLines k false r.dline (p.replyLines n)).modCore k fun c => c.raiseHigh false r.dline n

/-- RPL at a core. -/
def State.coreRpl (s : State) (k : Nat) (p : Packet) : State :=
  let c := p.chan
  match (s.core k).replyFor c with
  | none => ((s.chanFault k (hIndex c.rhandle) 0x0416).countDrop k).reqStatus k c.rhandle none fOutside
  | some r =>
    let op := (s.core k).reqOf r
    let x := match op with
      | some o => s.replySlot k o
      | none => (none, s)
    let s := x.2.writeReply k r p op x.1
    let s := s.modCore k fun x => x.modChan fun y => { y with replies := y.replies.erase r }
    let s := if c.err then s.reqStatus k r.handle none fRemote else s
    match op with
    | none => s
    | some o =>
      let o := { o with left := o.left - 1, slot := x.1 }
      if o.left = 0 ∧ o.sent = o.packets then (s.reqStatus k r.handle (some o.mseq.toNat) 0).finishNx k o
      else s.putNx k o

/-! ## Grants and yields (R307, R317) -/

/-- GRANT at a core. -/
def State.coreGrant (s : State) (k : Nat) (p : Packet) : State :=
  let c := p.chan
  match s.judge k p with
  | .late => s.countLate k
  | .fail code flag _ => s.dropAt k c code flag false
  | .pass h =>
    let n := h.credit + c.off
    let s := (s.settleCredit k).modHandle k c.tidx fun e => { e with credit := min n h.ceiling }
    (if h.ceiling < n then s.chanFault k c.tidx 0x0417 else s).startReads k

/-- YIELD at a core. -/
def State.coreYield (s : State) (k : Nat) (p : Packet) : State :=
  let c := p.chan
  match s.judge k p with
  | .late => s.countLate k
  | .fail code flag _ => s.dropAt k c code flag false
  | .pass _ => s.modHandle k c.tidx fun e =>
    { e with slots := modAt e.slots c.slot fun x => { x with yielded := x.yielded + c.off } }

/-! ## Delivery (R282, R302, R337, R341, R465, R466) -/

/-- Packet i has ended at this module. -/
def State.sunk (s : State) (i : Nat) (t : Transit) : State := (s.dropItem i).noteSink t.pkt

/-- Whether the network interface of an attached core takes a packet in the present phase (R337, R342). A packet does not tell its pass (R272,
R302): in PARTING an arrival that comes about is one of the pass that is parting (DEDUCED, log 28). -/
def Barrier.takes (b : Barrier) : Bool := b.phase == .run || b.phase == .parting

/-- Packet i at core k: what the unit does with it, or why it is dropped or waits. BAR_SINK counts it after any fault. A packet that waited
for the pass is taken in the cycle after S, the cycle in which the blank ended (R337). -/
def State.deliverCore (s : State) (i : Nat) (t : Transit) (k : Nat) (f : State → State) : State :=
  match s.group (groupOf k) with
  | .retain => s
  | .off => ({ s with power := { s.power with offDrops := satInc s.power.offDrops 1 } } : State).sunk i t
  | .failed => ({ s with power := { s.power with offDrops := satInc s.power.offDrops 1 } } : State).sunk i t
  | .on =>
    if !(s.core k).ctl.attached then (s.countLate k).sunk i t
    else if s.bar.takes then (f ((s.advance (s.bar.due + 1)).dropItem i)).noteSink t.pkt else s

/-- Whether a packet has crossed the mesh to its place, and no core's request queue that it is for is full (R282). -/
def State.arrives (s : State) (t : Transit) : Bool :=
  t.entered.isSome && (match t.exit with
    | some (.core k) => t.pkt.chan.op != opReq || decide (s.queuedReqs k < 16)
    | _ => true)

/-- The arrival of packet i with an OP that meets `want`: at a core, or at the hub, once its last flit is there (R230). -/
def State.arrival (s : State) (i : Nat) (want : Nat → Bool) (core : Nat → Packet → State → State)
    (hub : Packet → State → State) : State :=
  match s.mesh.items[i]? with
  | none => s
  | some t =>
    if s.blocked i t || !want t.pkt.chan.op || !s.arrives t then s
    else
    let s := s.advance t.due
    match t.exit with
    | some (.core k) => s.deliverCore i t k (core k t.pkt)
    | some .hub => (hub t.pkt (s.dropItem i)).noteSink t.pkt
    | _ => s

end Sys2Proof.Machine
end

