-- ==== Sys2Proof/Machine/CoreBlock.lean ====
section
/-! DEFINITION. The register block of a core: its reads with their latches, and its writes with their refusals (R11). -/

namespace Sys2Proof.Machine

/-- What a write of the control space comes to (R23, R440): done, unmapped, or refused with its code. -/
inductive WriteRes where
  | done
  | unmapped
  | refused (code : Nat)
deriving DecidableEq, Repr

def w32 (n : Nat) : Word32 := BitVec.ofNat 32 n

/-- The low and the high half of a 64-bit count. -/
def lo32 (w : Word64) : Word32 := w.setWidth 32
def hi32 (w : Word64) : Word32 := (w >>> 32).setWidth 32

/-- A set of numbers below 32 as bits. -/
def maskOf (p : Nat → Bool) : Nat → Nat
  | 0 => 0
  | n + 1 => (if p n then 2 ^ n else 0) + maskOf p n

/-! ## Forbidden times -/

/-- Whether core k may be loaded: it is not attached, or the job is held at a parting (R60, R72, R238, R360). -/
def State.loadable (s : State) (k : Nat) : Bool := !(s.core k).ctl.attached || s.bar.phase == .held

/-! ## Reads by register group -/

def Tile.status (t : Tile) : Nat :=
  pack [(2, match t.state with
    | .empty => 0
    | .loading => 1
    | .ready => 2), (3, t.fmt), (1, flag t.poison)]

def Slot.bad (x : Slot) : Bool := x.words.any (·.poison)

/-- MX_STATUS (R104). -/
def State.mxStatus (s : State) (k : Nat) : Nat :=
  let m := (s.core k).mx
  pack [(6, m.t0.status), (6, m.t1.status), (1, flag (m.ops.any fun o => match o with
    | .load l => decide (l.start ≤ s.now) && decide (s.now < l.start + l.ports)
    | .mma _ => false))]

/-- STREAM_STATUS (R161). -/
def State.streamWord (s : State) (k : Nat) (e : Engine) : Nat :=
  let t := (s.core k).stream e
  pack [(13, (s.core k).pcShown e), (3, s.streamState k e), (3, t.loops.length), (7, t.skips)]

/-- CORE_VCOORD (R237, R238). -/
def Core.vcoord (c : Core) (k : Nat) : Nat :=
  let x := k % 32
  let y := k / 32
  match c.ctl.vmapLive with
  | none => pack [(5, x), (5, y), (21, 0), (1, flag !c.ctl.vmapBad)]
  | some m =>
    let dx := x - bits m.toNat 4 0
    let dy := y - bits m.toNat 9 5
    pack [(5, if bit m.toNat 20 then dy else dx), (5, if bit m.toNat 20 then dx else dy), (21, 0), (1, 1)]

/-- CHAN_HVIEW[n] (R323). -/
def Handle.view (h : Handle) (n : Nat) : Nat :=
  if n = 0 then
    pack [(2, match h.state with
      | .closed => 0
      | .opened => 1
      | .closing => 2), (4, h.kind), (4, h.gen), (4, h.late.getD 0), (1, flag h.late.isSome), (1, flag h.standing), (14, h.ctrl)]
  else if n = 1 then
    pack [(16, if isOwner h.kind then min 65535 ((h.slots.foldl (fun n x => n + x.granted) 0)
      - (h.slots.foldl (fun n x => n + x.received + x.yielded) 0)) else h.credit), (16, h.mseq.toNat)]
  else if n = 2 then h.tail % 65536
  else h.count.toNat

def engineAt (i : Nat) : Engine :=
  if i = 0 then .mx else if i = 1 then .vx else if i = 2 then .dx else if i = 3 then .nx else .sx

/-- A word of BIN_DESC, REGION_DESC or REGION_NEXT (R60, R72). -/
def Core.descWord (c : Core) (o : Nat) : Nat :=
  let w := o / 4 % 4
  if o < 0x1400 then
    let b := c.bin ((o - 0x1100) / 16)
    if w = 0 then b.desc.toNat else if w = 1 then b.fill.toNat else if w = 2 then b.drain.toNat else 0
  else if o < 0x1800 then
    let r := c.regs.regions.getD ((o - 0x1400) / 16) {}
    if w = 0 then r.w0.toNat else if w = 1 then r.w1.toNat else if w = 2 then r.commit else r.high
  else
    let r := c.regs.next.getD ((o - 0x1800) / 16) {}
    if w = 0 then r.w0.toNat else if w = 1 then r.w1.toNat else if w = 2 then r.w2.toNat else 0

/-- Whether a word of the descriptor tables is defined: word 3 of BIN_DESC and REGION_NEXT is reserved. -/
def descDefined (o : Nat) : Bool :=
  (decide (0x1100 ≤ o) && decide (o < 0x1300)) || (decide (0x1400 ≤ o) && decide (o < 0x1C00))

/-- The memory registers of a core block, offsets 0x0_1000 to 0x0_1FFF. -/
def Core.readMem (c : Core) (o : Nat) : Option Nat :=
  if o = 0x1000 then some 0
  else if o = 0x1004 then some c.regs.scrCe.toNat
  else if o = 0x1008 then some c.regs.stockCe.toNat
  else if o = 0x100C then some (pack [(16, c.regs.islandConf.toNat), (16, c.regs.svcForced.toNat)])
  else if o = 0x1010 then some (pack [(8, c.regs.burnPeriod.toNat), (1, flag c.regs.burnEnable)])
  else if o = 0x1014 then some (pack [(19, c.regs.burnNext), (13, c.regs.burnSweeps.toNat)])
  else if o = 0x1018 then some c.regs.aperture.toNat
  else if o = 0x1C00 then some (pack [(1, flag c.regs.apply), (1, flag c.regs.applyFailed)])
  else if descDefined o then some (c.descWord o)
  else none

/-- The engine registers, offsets 0x0_2000 to 0x0_2FFF, but for latching reads. -/
def State.readEngine (s : State) (k o : Nat) : Option Nat :=
  let c := s.core k
  if o = 0x2000 then some (s.mxStatus k)
  else if o = 0x2008 then some c.mx.tally.toNat
  else if 0x2010 ≤ o ∧ o < 0x2020 then
    let t := c.mx.stamps.getD ((o - 0x2010) / 4) {}
    some (pack [(8, t.writers), (8, t.readers), (1, flag t.sat)])
  else if o = 0x2024 then some c.mx.rowsLatch.toNat
  else if o = 0x2100 then
    some (pack [(8, maskOf (fun i => (c.vx.cfg.getD i {}).loaded) 8), (8, maskOf (fun i => (c.vx.cfg.getD i {}).bad) 8),
      (16, maskOf (fun i => (c.vx.tab.getD i {}).loaded) 16)])
  else if o = 0x2104 then some (maskOf (fun i => (c.vx.tab.getD i {}).bad) 16)
  else if o = 0x2108 then some c.vx.oor.toNat
  else if o = 0x2114 then some c.vx.vecsLatch.toNat
  else if o = 0x2200 then some c.dx.fillpat.toNat
  else if o = 0x2300 then some (pack [(5, c.nx.ops.length), (11, 0), (16, c.nx.refused.toNat)])
  else if o = 0x2304 then some c.nx.throttle.toNat
  else if 0x2400 ≤ o ∧ o < 0x2480 then some ((c.sx.g.getD ((o - 0x2400) / 4) {}).val.toNat)
  else if o = 0x2480 then some (maskOf (fun i => (c.sx.g.getD i {}).poison) 32)
  else none

/-- The stream, contract, grid and counter registers, offsets 0x0_3000 to 0x0_3FFF, but for latching reads. -/
def State.readStream (s : State) (k o : Nat) : Option Nat :=
  let c := s.core k
  if o = 0x3000 then some (pack [(1, c.ctl.bankActive), (1, c.ctl.bankNext), (1, flag c.ctl.attached)])
  else if o = 0x3004 then some c.ctl.imemSel.toNat
  else if o = 0x3008 then some c.ctl.imemCe.toNat
  else if 0x3010 ≤ o ∧ o < 0x3024 then some (s.streamWord k (engineAt ((o - 0x3010) / 4)))
  else if o = 0x302C then some c.ctl.cycleLatch.toNat
  else if o = 0x3030 then some c.ctl.lcDecl0.toNat
  else if o = 0x3034 then some c.ctl.lcDecl1.toNat
  else if o = 0x3040 then some c.ctl.gridVmap.toNat
  else if o = 0x3044 then some (c.vcoord k)
  else if 0x3100 ≤ o ∧ o < 0x31C0 then some (min 65535 (c.sync.count.getD ((o - 0x3100) / 4) 0))
  else if 0x3200 ≤ o ∧ o < 0x32C0 then some ((c.ctl.syncInit0.getD ((o - 0x3200) / 4) 0).toNat)
  else if 0x3300 ≤ o ∧ o < 0x33C0 then some ((c.ctl.syncInit1.getD ((o - 0x3300) / 4) 0).toNat)
  else none

/-- The channel, role, twin, patch and clock registers, offsets from 0x0_4000, but for latching reads. -/
def Core.readChan (c : Core) (o : Nat) : Option Nat :=
  if o = 0x4000 then some c.chan.creditShift.toNat
  else if o = 0x4004 then some c.chan.arriveShift.toNat
  else if o = 0x4008 then some c.chan.lateCount.toNat
  else if o = 0x400C then some c.chan.dropCount.toNat
  else if o = 0x4010 then some c.chan.hsel.toNat
  else if 0x4014 ≤ o ∧ o < 0x4024 then some ((c.handle c.chan.hsel.toNat).view ((o - 0x4014) / 4))
  else if o = 0x5000 then some (pack [(16, c.ctl.roleCur.toNat), (16, c.ctl.roleNext.toNat)])
  else if o = 0x5014 then some c.ctl.twinSumLatch.toNat
  else if o = 0x501C then some c.ctl.twinLastLatch.toNat
  else if 0x6000 ≤ o ∧ o < 0x7000 then some (((keyGet c.ctl.patch ((o - 0x6000) / 4)).getD 0).toNat)
  else if 0x7000 ≤ o ∧ o < 0x7080 then some (maskOf (fun b => c.ctl.patchValid.contains (8 * (o - 0x7000) + b)) 32)
  else if o = 0x8000 then some c.ctl.stretch.toNat
  else none

/-- The _LO registers whose read latches their _HI (R104, R131, R161, R413). -/
def latching (o : Nat) : Bool := o == 0x2020 || o == 0x2110 || o == 0x3028 || o == 0x5010 || o == 0x5018

/-- A latching read: the low half, and the high half latched. -/
def State.readLatch (s : State) (k o : Nat) : Word32 × State :=
  let c := s.core k
  if o = 0x2020 then (lo32 c.mx.rows, s.modCore k fun c => c.modMx fun m => { m with rowsLatch := hi32 m.rows })
  else if o = 0x2110 then (lo32 c.vx.vecs, s.modCore k fun c => c.modVx fun m => { m with vecsLatch := hi32 m.vecs })
  else if o = 0x3028 then
    let n := BitVec.ofNat 64 (s.coreCycle c)
    (lo32 n, s.modCore k fun c => c.modCtl fun r => { r with cycleLatch := hi32 n })
  else if o = 0x5010 then (lo32 c.ctl.twinSum, s.modCore k fun c => c.modCtl fun r => { r with twinSumLatch := hi32 r.twinSum })
  else (lo32 c.ctl.twinLast, s.modCore k fun c => c.modCtl fun r => { r with twinLastLatch := hi32 r.twinLast })

/-- A register of the first 64 KiB of a core block, with no effect of the read; none: unmapped (R23). -/
def State.coreReg (s : State) (k o : Nat) : Option Nat :=
  if o < 0x1000 then
    (if o = 0x400 then some (s.core k).mx.satAcc.toNat else if o = 0x404 then some (s.core k).vx.satOut.toNat else none)
  else if o < 0x2000 then (s.core k).readMem o
  else if o < 0x3000 then s.readEngine k o
  else if o < 0x4000 then s.readStream k o
  else (s.core k).readChan o

/-! ## The instruction window (R155, R161) -/

/-- The stream and the bank that IMEM_SEL shows, with the byte of the instruction store; none: unmapped. -/
def Core.windowByte (c : Core) (o : Nat) : Option (Engine × Nat × Nat) :=
  let n := bits c.ctl.imemSel.toNat 2 0
  let b := bits c.ctl.imemSel.toNat 3 3
  if n < 5 ∧ o < bankBytes (engineAt n) then some (engineAt n, b, imemBase (engineAt n) b + o) else none

/-! ## The aperture (R79) -/

/-- The memory and the narrow word that an aperture offset reaches; none: beyond the end of the memory. -/
def Core.apertureWord (c : Core) (o : Nat) : Option (Bool × Nat) :=
  let stock := bit c.regs.aperture.toNat 0
  let line := 512 * bits c.regs.aperture.toNat 10 1 + o / 256
  if line < (if stock then stockLines else scrLines) then some (stock, 64 * line + o % 256 / 4) else none

/-- An aperture read: one 32-bit word, as a service access that returns the stored bits (R57, R68, R75, R79). -/
def State.readAperture (s : State) (k : Nat) (stock : Bool) (w : Nat) : Word32 × State :=
  if (s.core k).readsZero stock (w / 64) then (0, s)
  else if stock then
    let x := ((s.core k).stockWord (w / 2)).val
    (if w % 2 = 0 then lo32 x else hi32 x, (s.readStockWord k svc (w / 2)).2.2)
  else (((s.core k).scrWord w).val, (s.readWord k svc w).2)

/-- Whether an aperture write is refused (R73, R79). -/
def State.apertureRefused (s : State) (k : Nat) (stock : Bool) (line : Nat) : Bool :=
  let c := s.core k
  if stock then
    match c.regionOf true line with
    | none => true
    | some (_, r) => r.kind == kindEdition || !s.loadable k
  else !s.loadable k || c.binTouch line 1 || c.ctrlTouch line 1

/-- An aperture write of one word: no term of the write sum, and stock poison is kept (R79, R398). -/
def State.writeAperture (s : State) (k : Nat) (stock : Bool) (w : Nat) (v : Word32) : WriteRes × State :=
  if s.apertureRefused k stock (w / 64) then
    (.refused 0x0310, s.faultCore k svc 0x0310 (pack [(if stock then 19 else 14, w / 64)]))
  else if stock then
    let x := ((s.core k).stockWord (w / 2)).val
    let r := s.readStockWord k svc (w / 2)
    let y : Word64 := if w % 2 = 0 then ((x >>> 32) <<< 32) ||| v.setWidth 64
      else (x.setWidth 32).setWidth 64 ||| (v.setWidth 64 <<< 32)
    (.done, r.2.2.modCore k fun c => c.modMem fun m => { m with stock := m.stock.put 8 (w / 2) y.toNat r.1.poison })
  else (.done, s.modCore k fun c => c.modMem fun m => { m with scr := m.scr.put 4 w v.toNat false })

/-! ## A read of the core block -/

/-- Whether a register, a word of the instruction window or a word of the aperture stands at an offset (R23). -/
def State.coreMapped (s : State) (k o : Nat) : Bool :=
  if o < 0x10000 then latching o || (s.coreReg k o).isSome
  else if o < 0x20000 then ((s.core k).windowByte (o - 0x10000)).isSome
  else ((s.core k).apertureWord (o - 0x20000)).isSome

/-- Read a word of core block k at offset o (a multiple of 4): none when unmapped. -/
def State.coreRead (s : State) (k o : Nat) : Option Word32 × State :=
  if o < 0x10000 then
    if latching o then let r := s.readLatch k o; (some r.1, r.2)
    else ((s.coreReg k o).map w32, s)
  else if o < 0x20000 then
    match (s.core k).windowByte (o - 0x10000) with
    | none => (none, s)
    | some (_, _, a) => (some (w32 ((s.core k).mem.imem.word a 4)), s)
  else match (s.core k).apertureWord (o - 0x20000) with
    | none => (none, s)
    | some (st, w) => let r := s.readAperture k st w; (some r.1, r.2)

/-! ## Writes of the core block -/

/-- A write at a forbidden time: nothing changes, the code is recorded. -/
def State.refuse (s : State) (k code detail : Nat) : WriteRes × State := (.refused code, s.faultCore k 0 code detail)

def State.did (s : State) : WriteRes × State := (.done, s)

def State.modRegsAt (s : State) (k : Nat) (f : MemRegs → MemRegs) : WriteRes × State :=
  (.done, s.modCore k fun c => c.modRegs f)

def State.modCtlAt (s : State) (k : Nat) (f : CoreRegs → CoreRegs) : WriteRes × State :=
  (.done, s.modCore k fun c => c.modCtl f)

/-- BIN_DESC[n] word 0 (R60); words 1 and 2 are read-only. R80 names a line address and a user for 0x030F, which a descriptor write
does not have: DETAIL holds the bin number and ENGINE is 0 (DESIGN CHOICE, log 12). -/
def State.writeBin (s : State) (k o : Nat) (v : Word32) : WriteRes × State :=
  let n := (o - 0x1100) / 16
  if !s.loadable k then s.refuse k 0x030F (pack [(5, n)])
  else if o / 4 % 4 = 0 then
    s.modRegsAt k fun r => { r with bins := modAt r.bins n fun b => { b with desc := v &&& 0xBFFFFFFF } }
  else s.did

/-- REGION_DESC[n] (R72): HIGH_WATER is read-only and follows COMMIT_LEN. 0x030F records the region number in DETAIL and ENGINE 0
(DESIGN CHOICE, log 12). -/
def State.writeRegion (s : State) (k o : Nat) (v : Word32) : WriteRes × State :=
  let n := (o - 0x1400) / 16
  let w := o / 4 % 4
  if !s.loadable k then s.refuse k 0x030F (pack [(6, n)])
  else
    s.modRegsAt k fun r =>
      { r with regions := modAt r.regions n fun x =>
          if w = 0 then { x with w0 := v &&& 0x807FFFFF }
          else if w = 1 then { x with w1 := v &&& 0x7FFFF }
          else if w = 2 then { x with commit := bits v.toNat 19 0, high := bits v.toNat 19 0 } else x }

/-- REGION_NEXT[n] (R72). -/
def State.writeRegionNext (s : State) (k o : Nat) (v : Word32) : WriteRes × State :=
  let w := o / 4 % 4
  s.modRegsAt k fun r =>
    { r with next := modAt r.next ((o - 0x1800) / 16) fun x =>
        if w = 0 then { x with w0 := v &&& 0x807FFFFF }
        else if w = 1 then { x with w1 := v &&& 0x7FFFF }
        else if w = 2 then { x with w2 := v &&& 0x800FFFFF } else x }

/-- The memory registers (R58, R60, R70, R72, R79). -/
def State.writeMem (s : State) (k o : Nat) (v : Word32) : WriteRes × State :=
  if o = 0x1000 then
    (if bit v.toNat 0 then s.modRegsAt k fun r => { r with scrCe := 0, stockCe := 0 } else s.did)
  else if o = 0x1010 then
    s.modRegsAt k fun r => { r with burnPeriod := v.setWidth 8, burnEnable := bit v.toNat 8 }
  else if o = 0x1018 then s.modRegsAt k fun r => { r with aperture := v &&& 0x7FF }
  else if o = 0x1C00 then s.modRegsAt k fun r => { r with apply := bit v.toNat 0 }
  else if 0x1100 ≤ o ∧ o < 0x1300 then s.writeBin k o v
  else if 0x1400 ≤ o ∧ o < 0x1800 then s.writeRegion k o v
  else if 0x1800 ≤ o ∧ o < 0x1C00 then s.writeRegionNext k o v
  else if ((s.core k).readMem o).isSome then s.did else (.unmapped, s)

/-- Whether bank b of core k is locked: the core is attached and the bank is in force (R155). -/
def State.bankLocked (s : State) (k b : Nat) : Bool := (s.core k).ctl.attached && (s.core k).ctl.bankActive == b

/-- A refused write of a bank, a counter table or LC_DECL (R155): the stream (7: none) and the word address. -/
def State.refuseBank (s : State) (k stream word : Nat) : WriteRes × State :=
  (.refused 0x0103, s.record 0x0103 1 k 0 0 (pack [(3, stream), (14, word)]))

/-- A write to bank b, SYNC_INITb or LC_DECL[b] clears SEALEDb and ends a seal in progress (R405). -/
def State.unseal (s : State) (b : Nat) : State :=
  { s with jrnl := { s.jrnl with
      sealing := s.jrnl.sealing.filter (· != b)
      sealed0 := if b = 0 then none else s.jrnl.sealed0
      sealed1 := if b = 1 then none else s.jrnl.sealed1 } }

/-- SYNC_INITb and LC_DECL[b] (R155, R218). -/
def State.writeInit (s : State) (k o : Nat) (v : Word32) : WriteRes × State :=
  let b := if o < 0x3100 then (o - 0x3030) / 4 else (o - 0x3200) / 0x100
  if s.bankLocked k b then s.refuseBank k 7 (o / 4)
  else (s.unseal b).modCtlAt k fun r =>
    if o = 0x3030 then { r with lcDecl0 := v.setWidth 8 }
    else if o = 0x3034 then { r with lcDecl1 := v.setWidth 8 }
    else if b = 0 then { r with syncInit0 := r.syncInit0.set ((o - 0x3200) / 4) (v.setWidth 16) }
    else { r with syncInit1 := r.syncInit1.set ((o - 0x3300) / 4) (v.setWidth 16) }

/-- GRID_VMAP (R237, R238): it takes effect at the next blank. -/
def State.writeVmap (s : State) (k : Nat) (v : Word32) : WriteRes × State :=
  if s.loadable k then s.modCtlAt k fun r => { r with gridVmap := v &&& 0x801FFFFF } else s.refuse k 0x0430 0

/-- The stream registers (R156, R161, R218, R238). -/
def State.writeStream (s : State) (k o : Nat) (v : Word32) : WriteRes × State :=
  if o = 0x3000 then s.modCtlAt k fun r => { r with bankNext := bits v.toNat 1 1 }
  else if o = 0x3004 then s.modCtlAt k fun r => { r with imemSel := v.setWidth 4 }
  else if o = 0x3030 ∨ o = 0x3034 then s.writeInit k o v
  else if o = 0x3040 then s.writeVmap k v
  else if (0x3200 ≤ o ∧ o < 0x32C0) ∨ (0x3300 ≤ o ∧ o < 0x33C0) then s.writeInit k o v
  else if o = 0x3028 ∨ (s.readStream k o).isSome then s.did else (.unmapped, s)

/-- PATCH_TAB and PATCH_VALID (R360). -/
def State.writePatch (s : State) (k o : Nat) (v : Word32) : WriteRes × State :=
  let held := s.bar.phase == .held
  let f := fun (s : State) => if held then ({ s with jrnl := { s.jrnl with patched := true } } : State) else s
  if !s.loadable k then s.refuse k 0x0433 (pack [(18, o)])
  else if o < 0x7000 then
    let i := (o - 0x6000) / 4
    (f s).modCtlAt k fun r => { r with patch := if v = 0 then keyDel r.patch i else keyPut r.patch i v }
  else
    let i := 8 * (o - 0x7000)
    (f s).modCtlAt k fun r =>
      { r with patchValid := (List.range 32).foldl (fun l b => markSet l (i + b) (bit v.toNat b)) r.patchValid }

/-- The channel, role, twin and patch registers (R323, R334, R360). -/
def State.writeChan (s : State) (k o : Nat) (v : Word32) : WriteRes × State :=
  let sh : BitVec 5 := BitVec.ofNat 5 (watchShift (bits v.toNat 4 0))
  if o = 0x4000 then (.done, s.modCore k fun c => c.modChan fun x => { x with creditShift := sh })
  else if o = 0x4004 then (.done, s.modCore k fun c => c.modChan fun x => { x with arriveShift := sh })
  else if o = 0x4010 then (.done, s.modCore k fun c => c.modChan fun x => { x with hsel := v.setWidth 12 })
  else if o = 0x5000 then s.modCtlAt k fun r => { r with roleNext := (v >>> 16).setWidth 16 }
  else if 0x6000 ≤ o ∧ o < 0x7080 then s.writePatch k o v
  else if latching o || ((s.core k).readChan o).isSome then s.did else (.unmapped, s)

/-- A write through the instruction window (R155). -/
def State.writeWindow (s : State) (k o : Nat) (v : Word32) : WriteRes × State :=
  match (s.core k).windowByte o with
  | none => (.unmapped, s)
  | some (e, b, a) =>
    if s.bankLocked k b then s.refuseBank k (engCode e - 1) (o / 4)
    else (.done, (s.unseal b).modCore k fun c => c.modMem fun m => { m with imem := m.imem.put 4 (a / 4) v.toNat false })

/-- Write a word of core block k at offset o (a multiple of 4), by the host. -/
def State.coreWrite (s : State) (k o : Nat) (v : Word32) : WriteRes × State :=
  if o < 0x1000 then (if o = 0x400 ∨ o = 0x404 then (.done, s) else (.unmapped, s))
  else if o < 0x2000 then s.writeMem k o v
  else if o < 0x3000 then
    (if o = 0x2304 then (.done, s.modCore k fun c => c.modNx fun n => { n with throttle := v &&& 0x3FFFFFF })
     else if latching o || (s.readEngine k o).isSome then (.done, s) else (.unmapped, s))
  else if o < 0x4000 then s.writeStream k o v
  else if o < 0x10000 then s.writeChan k o v
  else if o < 0x20000 then s.writeWindow k (o - 0x10000) v
  else match (s.core k).apertureWord (o - 0x20000) with
    | none => (.unmapped, s)
    | some (st, w) => s.writeAperture k st w v

end Sys2Proof.Machine
end

