-- ==== Sys2Proof/Machine/Links.lean ====
section
/-! DEFINITION. The link ports: codewords, retry, credit, training, discovery, bundles, loss (R240 to R269). -/

namespace Sys2Proof.Machine

/-! ## Ports (R254, R258, R260, R261) -/

/-- Whether a port has trained: codewords cross it. -/
def Port.trained (x : Port) : Bool :=
  x.state == .discover || x.state == .active || x.state == .extra || x.state == .quarantined

/-- Whether an enabled port counts in PORTS_DOWN (R264). -/
def Port.isDown (x : Port) : Bool := x.state == .down || x.state == .noPeer || (x.state == .training && x.first)

/-- ACCEPT of the peer's latest record. -/
def Port.accept (x : Port) : Bool := x.rx.record.getLsbD 118

def Port.peerId (x : Port) : Nat := bits x.rx.record.toNat 95 32

/-- Flits of a receive buffer for one channel (R254). -/
def depthOf (p : Nat) : Nat := if farPort p then 4096 else 1024

/-- Whether a logical port passes (R261). -/
def State.bundleOk (s : State) (l : Nat) : Bool :=
  let ms := s.members l
  ms.contains l
    && ((ms.all fun p => !farPort p) && decide (ms.length ≤ 2) || (ms.all farPort) && decide (ms.length ≤ 5))
    && (decide (ms.length = 1) || !(ms.any s.compat))
    && (ms.all fun p => (s.port p).state == .active && (s.port p).accept && (s.port p).peerId == (s.port l).peerId)

/-- The kind of a link fault under R266: it fails the pass when the port belongs to the job. -/
def State.linkKind (s : State) (job : Bool) : FailKind := if job && s.anyAttached then .always else .never

/-- A link fault of port p (R268). -/
def State.linkFault (s : State) (p code detail : Nat) : State :=
  s.recordAs (s.linkKind (s.port p).job) code 2 p 0 0 detail

/-- The record that this port sends (R257). -/
def State.ownRecord (s : State) (p : Nat) : BitVec 128 :=
  BitVec.ofNat 128 (pack [(8, 1), (16, 0x4768), (8, if s.stepB then 0x10 else 0x01), (64, s.moduleId.toNat),
    (16, s.route.me), (5, p), (1, flag (s.compat p)), (1, flag ((s.port p).state == .active)), (1, 0), (8, 1)])

/-! ## Loss of usability (R265, R266) -/

/-- The length that a partly received packet gives in its header. -/
def Partial.length (q : Partial) : Nat := (packetOf q.flits).len

/-- A flit whose every word is poisoned. -/
def badFlit : Flit := List.replicate 8 ⟨0, true⟩

/-- A packet joins the receive buffer of port p. -/
def State.receive (s : State) (p : Nat) (k : Packet) : State :=
  s.modMesh fun m => { m with items := m.items ++ [{ pkt := k, src := .port p }] }

/-- Every packet partly received is completed with poison; its remaining flits are discarded when they come. -/
def State.cutPartials (s : State) (p : Nat) : List Partial → State
  | [] => s.modPort p fun x => { x with rx := { x.rx with part := [] } }
  | q :: r =>
    let n := q.length - q.flits.length
    let s := s.receive p (packetOf (q.flits ++ List.replicate n badFlit))
    (s.modPort p fun x => { x with rx := { x.rx with skip := x.rx.skip ++ [(q.vc, n)] } }).cutPartials p r

/-- A packet is discarded at port p in whole or in part; it counts as sunk. -/
def State.discarded (s : State) (p : Nat) (counted : Bool) : State :=
  let s := s.noteDiscard p
  if counted then { s with bar := { s.bar with sink := s.bar.sink + 1 } } else s

/-- Every packet in the transmit pools is discarded, whole or the rest of it. -/
def State.dropPool (s : State) (p : Nat) : List Queued → State
  | [] => s.modPort p fun x => { x with tx := { x.tx with pool := [], buf := [], resend := none, next := none, ends := [] } }
  | q :: r => (s.discarded p q.counted).dropPool p r

/-- A port stops being usable: the packets whose last flits wait behind their POISON codeword are discarded with those of the pools. -/
def State.loseUsable (s : State) (p : Nat) : State :=
  let s := (s.modPort p fun x => { x with usable := false }).cutPartials p (s.port p).rx.part
  let s := (s.port p).tx.ends.foldl (fun s b => s.discarded p b) s
  let s := s.dropPool p (s.port p).tx.pool
  if (s.port p).job && s.anyAttached then { s with bar := s.bar.noteFault .always } else s

/-- The end of a discard episode (R265). -/
def State.endEpisode (s : State) (p : Nat) : State :=
  match (s.port p).episode with
  | none => s
  | some (_, n) => (s.modPort p fun x => { x with episode := none }).record 0x050A 2 p 0 0 (pack [(32, n)])

/-- A port becomes usable: the next flit of each channel opens a packet, since the peer has discarded the rest of what it was sending
(DESIGN CHOICE, log 24). -/
def State.gainUsable (s : State) (p : Nat) : State :=
  (s.modPort p fun x => { x with usable := true, rx := { x.rx with skip := [] } }).endEpisode p

/-- The logical ports that have just failed, each once, with whether a member belongs to the job. -/
def State.bundleFaults (s : State) : List Nat → State
  | [] => s
  | l :: r =>
    let job := (s.members l).any fun p => (s.port p).job
    (s.recordAs (s.linkKind job) 0x0507 2 l 0 0 0).bundleFaults r

/-- Bring the usable ports up to date after a change (R260, R261, R265). `quiet`: the change is the clearing of an ENABLE,
which records no fault. -/
def State.linkReview (s : State) (quiet : Bool := false) : State :=
  let ok := fun p => s.bundleOk (s.port p).leader
  let lost := (List.range 24).filter fun p => (s.port p).usable && !ok p
  let won := (List.range 24).filter fun p => !(s.port p).usable && ok p
  let s := if quiet then s else s.bundleFaults (lost.map fun p => (s.port p).leader).dedup
  let s := lost.foldl State.loseUsable s
  won.foldl State.gainUsable s

/-! ## Going down and training (R258, R264, R267) -/

/-- The port leaves its state for one without traffic. -/
def State.stopPort (s : State) (p : Nat) (st : PortState) (quiet : Bool) : State :=
  (s.modPort p fun x => { x with state := st, downTick := s.tick, locks := 0, settling := false }).linkReview quiet

/-- A port goes down with its code (R264). -/
def State.portDown (s : State) (p code : Nat) : State := (s.linkFault p code 0).stopPort p .down false

/-- Training begins: a fresh link (R252, R267). -/
def State.train (s : State) (p : Nat) (retry : Bool) : State :=
  let s := s.modMesh fun m => { m with items := m.items.map fun t => if t.src == .port p then { t with left := true } else t }
  s.modPort p fun x =>
    { x with state := .training, retry := retry, locks := 0, settling := false, trains := x.trains + 1
             tx := { wire := x.tx.wire, cp := x.tx.cp, dirty := true }
             rx := { record := x.rx.record } }

/-- The link-edge domain of a port (R463). -/
def edgeDomain (p : Nat) : Nat :=
  [24, 24, 25, 25, 54, 54, 55, 84, 84, 85, 85, 114, 114, 115, 26, 27, 56, 56, 86, 87, 57, 116, 116, 117].getD p 0

/-- An enabled port begins training, after its domains turn on; the optical engines need laser settling when they were off
(R464). -/
def State.startPort (s : State) (p : Nat) : State :=
  let cold := farPort p && s.power.edgeOff.contains 123
  let wait := cold || (farPort p && (List.range 24).any fun q => farPort q && (s.port q).settling)
  let on := s.power.edgeOff.filter fun n => n == edgeDomain p || (farPort p && n == 123)
  let s : State := { s with power := { s.power with edgeOff := s.power.edgeOff.filter fun n => !on.contains n } }
  let s := on.foldl State.noteOn s
  if wait then s.modPort p fun x => { x with settling := true, downTick := s.tick } else s.train p false

/-- LANE_LOSS: lane l of port p is lost (R264). -/
def execLaneLoss (p l : Nat) (s : State) : Host.Outcome State Fault Refusal :=
  .next (if p < 24 ∧ l < 4 ∧ (s.port p).trained then s.portDown p 0x0501 else s)

/-- TRAINING_COMPLETE (R258). -/
def execTrainingComplete (p : Nat) (s : State) : Host.Outcome State Fault Refusal :=
  .next (if p < 24 ∧ (s.port p).state = .training then
    s.modPort p fun x => { x with state := .discover, locks := 0xF, first := true, retry := false }
  else s)

/-- TRAINING_TIMEOUT: 0x0504 is not recorded again on a re-entry from NO_PEER (R258). -/
def execTrainingTimeout (p : Nat) (s : State) : Host.Outcome State Fault Refusal :=
  .next (if p < 24 ∧ (s.port p).state = .training then
    let again := (s.port p).retry
    let s := s.modPort p fun x => { x with state := .noPeer, first := true, locks := 0, downTick := s.tick }
    if again then s else s.linkFault p 0x0504 0
  else s)

/-- NO_PEER_RETRY: every 10 ms (R258). -/
def execNoPeerRetry (p : Nat) (s : State) : Host.Outcome State Fault Refusal :=
  .next (if p < 24 ∧ (s.port p).state = .noPeer then
    (s.advanceTick ((s.port p).downTick + 1000000)).train p true
  else s)

/-- RETRAIN: 1,000 steady ticks after the port went down (R267). -/
def execRetrain (p : Nat) (s : State) : Host.Outcome State Fault Refusal :=
  .next (if p < 24 ∧ (s.port p).state = .down ∧ (s.port p).retrain then
    (s.advanceTick ((s.port p).downTick + 1000)).train p false
  else s)

/-- DISCARD_EPISODE_END: 2^16 steady ticks after the episode began (R265). -/
def execDiscardEpisodeEnd (p : Nat) (s : State) : Host.Outcome State Fault Refusal :=
  .next (match (s.port p).episode with
    | none => s
    | some (t, _) => if p < 24 then (s.advanceTick (t + 65536)).endEpisode p else s)

/-- LASER_SETTLED: 10 ms after the optical engines turned on, the far port trains (R464). -/
def execLaserSettled (p : Nat) (s : State) : Host.Outcome State Fault Refusal :=
  .next (if p < 24 ∧ (s.port p).settling then (s.advanceTick ((s.port p).downTick + 1000000)).train p false else s)

/-- The ports of a link-edge or optical domain. -/
def domainPorts (n : Nat) : List Nat := (List.range 24).filter fun p => if n = 123 then farPort p else edgeDomain p == n

/-- LINK_EDGE_GROUP_OFF: domain g, whose ports have all been DISABLED for 1,000 steady ticks (R464). -/
def execLinkEdgeGroupOff (g : Nat) (s : State) : Host.Outcome State Fault Refusal :=
  .next (let ps := domainPorts g
    if edgeDomains.contains g && !s.power.edgeOff.contains g
      && ps.all fun p => (s.port p).state == .disabled && !(s.port p).settling then
      let s := s.advanceTick (ps.foldl (fun n p => max n ((s.port p).downTick)) 0 + 1000)
      { s with power := { s.power with edgeOff := markPut s.power.edgeOff g } }
    else s)

/-! ## Discovery (R259) -/

/-- Whether the record received contradicts the expectation. -/
def State.contrary (s : State) (p : Nat) : Bool :=
  let x := s.port p
  let r := x.rx.record.toNat
  let e := x.expect.toNat
  bits r 111 96 != bits e 15 0 || bits r 116 112 != bits e 20 16
    || (bit e 30 && x.peerId != x.expectId.toNat) || bit r 117 != s.compat p || (!s.compat p && !bit r 120)

/-- The evaluation of the peer. -/
def State.evaluate (s : State) (p : Nat) : State :=
  let x := s.port p
  if !bit x.expect.toNat 31 then
    ((s.modPort p fun x => { x with state := .extra }).linkFault p 0x0505 0).linkReview
  else if s.contrary p then
    ((s.modPort p fun x => { x with state := .quarantined }).linkFault p 0x0506 (pack [(64, x.peerId)])).linkReview
  else (s.modPort p fun x => { x with state := .active }).linkReview

/-- A new evaluation of a peer whose record is known. -/
def State.reevaluate (s : State) (p : Nat) : State :=
  if (s.port p).trained && (s.port p).rx.known then s.evaluate p else s

/-- A record arrives: a port in DISCOVER evaluates the same record received twice; later, a record that differs. -/
def State.hear (s : State) (p : Nat) (r : BitVec 128) : State :=
  let x := s.port p
  let s' := s.modPort p fun x => { x with rx := { x.rx with record := r, heard := some r } }
  if x.rx.known then (if x.rx.record = r then s else (s'.evaluate p))
  else if x.rx.heard = some r then (s'.modPort p fun x => { x with rx := { x.rx with known := true } }).evaluate p
  else s'

/-! ## Replay (R248, R250, R264) -/

def Codeword.seqOf : Codeword → BitVec 12
  | .data q _ _ => q
  | .poison q _ => q
  | .idle q => q
  | .lcw q _ => q

/-- A replay starts from number n; eight from one number take the port down. `late`: the oldest codeword timed out; four in
a row take the port down. -/
def State.startReplay (s : State) (p : Nat) (n : BitVec 12) (late : Bool) : State :=
  let t := (s.port p).tx
  let starts := if t.start = some n then t.starts + 1 else 1
  let timeouts := if late then t.timeouts + 1 else t.timeouts
  let s := s.modPort p fun x =>
    { x with replays := satInc x.replays 1
             tx := { x.tx with resend := some n, start := some n, starts := starts, timeouts := timeouts } }
  if starts = 8 ∨ timeouts = 4 then s.portDown p 0x0502 else s

/-- Sequenced codewords sent and not acknowledged (R248). -/
def LinkTx.unacked (t : LinkTx) : Nat := (t.seq - (t.ack + 1)).toNat

/-- Whether number x is n or comes after it, by the serial difference of R248. -/
def seqFrom (n x : BitVec 12) : Bool := decide ((x - n).toNat < 2048)

/-- An acknowledgement of codewords that were sent frees those up to it; the replay buffer may have been emptied since (R265). -/
def LinkTx.acked (t : LinkTx) (a : BitVec 12) : LinkTx :=
  let n := (a - t.ack).toNat
  if n = 0 ∨ t.unacked < n then t
  else
    let buf := t.buf.filter fun q => seqFrom (a + 1) q.cw.seqOf
    { t with ack := a, buf := buf, timeouts := 0, start := none, starts := 0
             resend := match t.resend with
               | none => none
               | some r => if buf.isEmpty then none else if seqFrom (a + 1) r then some r else some (a + 1) }

/-- REPLAY_TIMEOUT (R250). -/
def execReplayTimeout (p : Nat) (s : State) : Host.Outcome State Fault Refusal :=
  .next (if p < 24 ∧ (s.port p).trained then
    match (s.port p).tx.buf with
    | [] => s
    | q :: _ => (s.advanceTick (q.tick + (s.port p).timeout + 1)).startReplay p q.cw.seqOf true
  else s)

/-! ## Receiving (R244, R249, R256, R263) -/

/-- A corrected codeword is counted. -/
def State.countCorrected (s : State) (p : Nat) (fix : Bool) : State :=
  if fix then s.modPort p fun x => { x with ce := satInc x.ce 1 } else s

/-- The receiver enters NAK state: an LCW with NAK is due. -/
def State.enterNak (s : State) (p : Nat) : State :=
  s.modPort p fun x =>
    if x.rx.nak then x else { x with rx := { x.rx with nak := true }, tx := { x.tx with nakDue := true } }

/-- An uncorrectable codeword (R249, R264). -/
def State.uncorrectable (s : State) (p : Nat) : State :=
  let s := (s.modPort p fun x =>
    { x with ue := satInc x.ue 1
             rx := { x.rx with ueTicks := (x.rx.ueTicks.filter fun t => decide (s.tick < t + 100000)) ++ [s.tick] } }).enterNak p
  if (s.port p).ueLimit < (s.port p).rx.ueTicks.length then s.portDown p 0x0503 else s

/-- Whether a sequenced codeword is accepted; otherwise NAK state. -/
def State.takeSeq (s : State) (p : Nat) (q : BitVec 12) : Bool × State :=
  if (s.port p).rx.eseq = q then
    (true, s.modPort p fun x =>
      { x with rxCw := x.rxCw + 1, rx := { x.rx with eseq := x.rx.eseq + 1, nak := false }, tx := { x.tx with dirty := true } })
  else (false, s.enterNak p)

/-- The SEQ field of an IDLE or LCW codeword. -/
def State.checkSeq (s : State) (p : Nat) (q : BitVec 12) : State :=
  if (s.port p).rx.eseq = q then s else s.enterNak p

/-- The flits of a codeword with the poison map applied (R246). -/
def mapFlits (m : Option (BitVec 80)) (fs : List (List Word64)) : List Flit :=
  fs.zipIdx.map fun x => x.1.zipIdx.map fun w =>
    ⟨w.1, match m with
      | some b => b.getLsbD (8 * x.2 + w.2)
      | none => false⟩

/-- Whether flits of channel v that arrive are to be discarded, and how many. -/
def LinkRx.skipping (x : LinkRx) (v : Nat) : Nat := (x.skip.filter fun q => q.1 == v).foldl (fun n q => n + q.2) 0

/-- One flit less to discard on channel v. -/
def dropOne (v : Nat) : List (Nat × Nat) → List (Nat × Nat)
  | [] => []
  | (c, n) :: r => if c = v then (if n ≤ 1 then r else (c, n - 1) :: r) else (c, n) :: dropOne v r

def LinkRx.partOf (x : LinkRx) (v : Nat) : Option Partial := x.part.find? fun q => q.vc == v

/-- A header flit that opens no packet: a class that compatibility mode does not carry (R263). -/
def State.refuseClass (s : State) (p v : Nat) (f : Flit) : State :=
  let k := packetOf [f]
  (((s.record 0x0508 2 p 0 0 0).noteSink k).modPort p fun x =>
    { x with rx := { x.rx with skip := if k.len = 1 then x.rx.skip else x.rx.skip ++ [(v, k.len - 1)] } })

/-- The packet of a flit without buffer space is discarded, and the port goes down (R256). -/
def State.overrun (s : State) (p v : Nat) : State :=
  ((s.modPort p fun x => { x with rx := { x.rx with part := x.rx.part.filter fun q => q.vc != v } }).noteSink
    (match (s.port p).rx.partOf v with
      | some q => packetOf q.flits
      | none => packetOf [])).portDown p 0x0509

/-- One flit of channel v enters the receive buffer of port p. -/
def State.takeFlit (s : State) (p v : Nat) (f : Flit) : State :=
  let x := s.port p
  if 0 < x.rx.skipping v then s.modPort p fun x => { x with rx := { x.rx with skip := dropOne v x.rx.skip } }
  else if s.compat p && decide (v < 6) then s.refuseClass p v f
  else if depthOf p ≤ s.occupancy p v then s.overrun p v
  else
    let q : Partial := match x.rx.partOf v with
      | some q => { q with flits := q.flits ++ [f] }
      | none => { vc := v, flits := [f] }
    let rest := x.rx.part.filter fun q => q.vc != v
    if q.length ≤ q.flits.length then
      (s.modPort p fun x => { x with rx := { x.rx with part := rest } }).receive p (packetOf q.flits)
    else s.modPort p fun x => { x with rx := { x.rx with part := rest ++ [q] } }

/-- The flits of an accepted codeword, while the port stays trained. -/
def State.takeFlits (s : State) (p v : Nat) : List Flit → State
  | [] => s
  | f :: r => if (s.port p).trained then (s.takeFlit p v f).takeFlits p v r else s

/-- While the port is not usable, no packet stays partly received (R265). -/
def State.tidyRx (s : State) (p : Nat) : State :=
  if (s.port p).usable then s else s.cutPartials p (s.port p).rx.part

/-- DATA_CODEWORD: channel vc and the flits of its valid slots. A reserved VC code, or a number of slots that is not 1 to
10, is handled as uncorrectable (R244). -/
def execDataCodeword (p : Nat) (fix : Bool) (seq : BitVec 12) (vc : Nat) (flits : List (List (BitVec 64))) (s : State) :
    Host.Outcome State Fault Refusal :=
  .next (if p < 24 ∧ (s.port p).trained then
    if vc > 9 ∨ flits.length = 0 ∨ flits.length > 10 then s.uncorrectable p
    else
      let r := (s.countCorrected p fix).takeSeq p seq
      if r.1 then
        let fs := mapFlits (r.2.port p).rx.map flits
        let s := (r.2.modPort p fun x => { x with rx := { x.rx with map := none } }).takeFlits p vc fs
        (s.tidyRx p).reviewXoff p vc
      else r.2
  else s)

/-- POISON_CODEWORD: the map of the next sequenced codeword (R246). -/
def execPoisonCodeword (p : Nat) (fix : Bool) (seq : BitVec 12) (map : BitVec 80) (s : State) :
    Host.Outcome State Fault Refusal :=
  .next (if p < 24 ∧ (s.port p).trained then
    let r := (s.countCorrected p fix).takeSeq p seq
    if r.1 then r.2.modPort p fun x => { x with rx := { x.rx with map := some map } } else r.2
  else s)

/-- IDLE_CODEWORD (R249). -/
def execIdleCodeword (p : Nat) (fix : Bool) (seq : BitVec 12) (s : State) : Host.Outcome State Fault Refusal :=
  .next (if p < 24 ∧ (s.port p).trained then (s.countCorrected p fix).checkSeq p seq else s)

/-- UNCORRECTABLE_CODEWORD (R249). -/
def execUncorrectableCodeword (p : Nat) (s : State) : Host.Outcome State Fault Refusal :=
  .next (if p < 24 ∧ (s.port p).trained then s.uncorrectable p else s)

/-- The control fields of an LCW: acknowledgement, credit or XOFF, and a NAK (R250, R252). A NAK from the number from which
the replay in progress started is ignored. -/
def State.control (s : State) (p : Nat) (ack : BitVec 12) (nak : Bool) (credit : List (BitVec 16)) (xoff : BitVec 10) : State :=
  let busy := (s.port p).tx.resend.isSome && (s.port p).tx.start == some (ack + 1)
  let s := s.modPort p fun x =>
    { x with tx := { x.tx.acked ack with credit := if s.compat p then x.tx.credit else credit
                                         xoff := if s.compat p then xoff else 0 } }
  let t := (s.port p).tx
  if nak && !busy && t.ack == ack && decide (0 < t.unacked) then s.startReplay p (ack + 1) false else s

/-- LCW (R252, R257, R259). -/
def execLcw (p : Nat) (fix : Bool) (seq ack : BitVec 12) (nak : Bool) (credit : List (BitVec 16)) (xoff : BitVec 10)
    (record : Option (BitVec 128)) (s : State) : Host.Outcome State Fault Refusal :=
  .next (if p < 24 ∧ (s.port p).trained then
    let s := ((s.countCorrected p fix).checkSeq p seq).control p ack nak credit xoff
    match record with
    | some r => if (s.port p).trained then s.hear p r else s
    | none => s
  else s)

/-! ## Sending (R245, R246, R248 to R253, R283, R284) -/

/-- Flits of channel v that credit or XOFF lets go. -/
def State.mayFlits (s : State) (p v : Nat) : Nat :=
  let t := (s.port p).tx
  if s.compat p then (if t.xoff.getLsbD v then 0 else 10)
  else min 10 ((t.credit.getD v 0 - t.sent.getD v 0).toNat)

/-- The first n flits of the packets that meet `p`, in order and no further than a packet that meets `stop`: what leaves,
and what stays. -/
def takeFlow (p stop : Queued → Bool) (n : Nat) : List Queued → List Flit × List Queued
  | [] => ([], [])
  | q :: r =>
    if n = 0 ∨ stop q then ([], q :: r)
    else if p q then
      let m := min n q.flits.length
      let t := takeFlow p stop (n - m) r
      (q.flits.take m ++ t.1, if m = q.flits.length then t.2 else { q with flits := q.flits.drop m, started := true } :: t.2)
    else let t := takeFlow p stop n r
      (t.1, q :: t.2)

/-- The first packet that waits on a channel. -/
def LinkTx.head (t : LinkTx) (v : Nat) : Option Queued := t.pool.find? fun q => q.vc == v

/-- A channel of a class with a flit ready and credit for it: the post channel first (R283). -/
def State.readyVc (s : State) (p c : Nat) : Option Nat :=
  [2 * c + 1, 2 * c].find? fun v => ((s.port p).tx.head v).isSome && decide (0 < s.mayFlits p v)

/-- The packet whose flits a flow sends next, when it can: another flow's packet on the same channel is not cut (R243,
R284). -/
def State.flowHead (s : State) (p flow : Nat) : Option Queued :=
  match (s.port p).tx.pool.find? fun q => q.vc / 2 == clsTns && q.flow == flow with
  | none => none
  | some q =>
    let cut := (s.port p).tx.pool.any fun x => x.vc == q.vc && x.started && x.flow != flow
    if cut || s.mayFlits p q.vc == 0 then none else some q

/-- The calendar entry that TNS takes (R284): its index and its flow. -/
def State.calPick (s : State) (p : Nat) : Option (Nat × Queued) :=
  ((List.range 256).findSome? fun i =>
    let j := ((s.port p).tx.cp + i) % 256
    let e := s.calEntry p j
    if bit e 7 then (s.flowHead p (bits e 4 0)).map fun q => (j, q) else none)

/-- What fills the next DATA codeword: its channel, whose flits, and the new calendar pointer. -/
structure Fill where
  vc : Nat
  flow : Option Nat
  cp : Option Nat
deriving DecidableEq, Repr

def State.tnsFill (s : State) (p : Nat) : Option Fill :=
  (s.calPick p).map fun x => { vc := x.2.vc, flow := some x.2.flow, cp := some ((x.1 + 1) % 256) }

def State.classFill (s : State) (p c : Nat) : Option Fill :=
  (s.readyVc p c).map fun v => { vc := v, flow := none, cp := none }

def State.elasticFill (s : State) (p : Nat) : Option Fill :=
  [clsRpl, clsReq, clsFwd].findSome? fun c => s.classFill p c

/-- The order of precedence of R283 with the elastic floor. -/
def State.chooseFill (s : State) (p : Nat) : Option Fill :=
  let floor := decide (bits s.route.arb.toNat 3 0 + 1 ≤ (s.port p).tx.tnsRun)
  match s.classFill p clsCtl with
  | some f => some f
  | none =>
    match (if floor then s.elasticFill p else none) with
    | some f => some f
    | none => match s.tnsFill p with
      | some f => some f
      | none => s.elasticFill p

/-- A new sequenced codeword may be sent: the window is open (R248). -/
def LinkTx.open (t : LinkTx) : Bool := decide ((t.seq - (t.ack + 1)).toNat < 1024)

/-- A codeword goes onto the lanes. -/
def State.putWire (s : State) (p : Nat) (c : Codeword) : State :=
  s.modPort p fun x => { x with tx := { x.tx with wire := some c, sinceLcw := x.tx.sinceLcw + 1 } }

/-- A sequenced codeword is sent for the first time. -/
def State.putNew (s : State) (p : Nat) (c : Codeword) : State :=
  (s.putWire p c).modPort p fun x =>
    { x with txCw := x.txCw + 1, tx := { x.tx with seq := x.tx.seq + 1, buf := x.tx.buf ++ [{ cw := c, tick := s.tick }] } }

/-- The LCW that is sent now. `keep`: it is a keep-alive. -/
def State.putLcw (s : State) (p : Nat) (keep : Bool) : State :=
  let x := s.port p
  let c := s.compat p
  let body : LcwBody :=
    { ack := x.rx.eseq - 1, nak := x.tx.nakDue
      credit := if c then List.replicate 10 0 else x.rx.freed.map fun f => f + BitVec.ofNat 16 (depthOf p)
      xoff := if c then x.rx.xoff else 0
      record := if keep || x.state == .discover then some (s.ownRecord p) else none }
  s.modPort p fun x =>
    { x with tx := { x.tx with wire := some (.lcw x.tx.seq body), nakDue := false, dirty := false, xoffDue := false
                               sinceLcw := 0 } }

/-- Whether any word of some flits is poisoned. -/
def flitsBad (fs : List Flit) : Bool := fs.any fun f => f.any (·.poison)

/-- The map of R246. -/
def poisonMap (fs : List Flit) : BitVec 80 :=
  BitVec.ofNat 80 (pack (fs.flatMap fun f => f.map fun w => (1, flag w.poison)))

/-- The next codeword of the replay in progress: the first of the replay buffer from number n on. With none there is nothing to resend, and the
boundary carries an IDLE. -/
def State.putReplay (s : State) (p : Nat) (n : BitVec 12) : State :=
  let t := (s.port p).tx
  let i := t.buf.findIdx fun q => seqFrom n q.cw.seqOf
  match t.buf[i]? with
  | none => (s.putWire p (.idle t.seq)).modPort p fun x => { x with tx := { x.tx with resend := none } }
  | some q =>
    (s.putWire p q.cw).modPort p fun x =>
      { x with tx := { x.tx with buf := x.tx.buf.set i { q with tick := s.tick }
                                 resend := if i + 1 < x.tx.buf.length then some (q.cw.seqOf + 1) else none } }

/-- A DATA codeword filled by arbitration; when a word of it is poisoned its POISON codeword goes first. -/
def State.putData (s : State) (p : Nat) (f : Fill) : State :=
  let t := (s.port p).tx
  let mine := fun (q : Queued) => match f.flow with
    | some n => q.vc / 2 == clsTns && q.flow == n
    | none => q.vc == f.vc
  let r := takeFlow mine (fun q => mine q && q.vc != f.vc) (s.mayFlits p f.vc) t.pool
  let n := r.1.length
  let s := s.modPort p fun x =>
    { x with tx := { x.tx with pool := r.2, cp := f.cp.getD x.tx.cp
                               sent := modAt x.tx.sent f.vc fun c => c + BitVec.ofNat 16 n
                               tnsRun := if f.vc / 2 = clsTns then x.tx.tnsRun + 1 else 0 } }
  let ended := (t.pool.filter mine).take (t.pool.length - r.2.length)
  if flitsBad r.1 then
    (s.putNew p (.poison t.seq (poisonMap r.1))).modPort p fun x =>
      { x with tx := { x.tx with next := some (.data (t.seq + 1) f.vc r.1), ends := ended.map (·.counted) } }
  else s.putNew p (.data t.seq f.vc r.1)

/-- Whether a DATA codeword is held back by XOFF of its channel (R263). -/
def State.xoffHolds (s : State) (p : Nat) (c : Codeword) : Bool :=
  s.compat p && (match c with
    | .data _ v _ => (s.port p).tx.xoff.getLsbD v
    | _ => false)

/-- The codeword of a boundary. -/
def State.boundary (s : State) (p : Nat) : State :=
  let x := s.port p
  let t := x.tx
  let keep := decide (1023 ≤ t.sinceLcw)
  if t.nakDue || t.xoffDue || (t.dirty && decide (31 ≤ t.sinceLcw)) || keep then s.putLcw p keep
  else match t.resend with
  | some n => s.putReplay p n
  | none =>
    let idle := if t.dirty then s.putLcw p false else s.putWire p (.idle t.seq)
    if !t.open then idle
    else match t.next with
    | some c =>
      if s.xoffHolds p c then idle
      else (s.putNew p c).modPort p fun x => { x with tx := { x.tx with next := none, ends := [] } }
    | none =>
      if x.usable then (match s.chooseFill p with
        | some f => s.putData p f
        | none => idle)
      else idle

/-- CODEWORD_TRANSMIT: one codeword boundary of port p (R253, R283). -/
def execCodewordTransmit (p : Nat) (s : State) : Host.Outcome State Fault Refusal :=
  .next (if p < 24 ∧ (s.port p).trained then s.boundary p else s)

/-! ## Registers (R269) -/

/-- LINK_STATUS. -/
def Port.status (x : Port) : Nat :=
  pack [(4, match x.state with
    | .disabled => 0
    | .training => 1
    | .noPeer => 2
    | .discover => 3
    | .active => 4
    | .extra => 5
    | .quarantined => 6
    | .down => 7), (4, x.locks.toNat), (1, flag x.usable), (1, flag x.accept), (1, flag x.rx.nak), (5, 0), (16, x.trains.toNat)]

/-- A register of port p at offset o, with no effect of the read. -/
def Port.reg (x : Port) (o : Nat) : Option Nat :=
  if o = 0x00 then some x.cfg.toNat
  else if o = 0x04 then some x.status
  else if o = 0x08 then some x.expect.toNat
  else if o = 0x0C then some (lo32 x.expectId).toNat
  else if o = 0x10 then some (hi32 x.expectId).toNat
  else if 0x20 ≤ o ∧ o < 0x30 then some (bits x.rx.record.toNat (8 * (o - 0x20) + 31) (8 * (o - 0x20)))
  else if o = 0x40 then some (lo32 x.txCw).toNat
  else if o = 0x44 then some x.txLatch.toNat
  else if o = 0x48 then some (lo32 x.rxCw).toNat
  else if o = 0x4C then some x.rxLatch.toNat
  else if o = 0x50 then some x.ce.toNat
  else if o = 0x54 then some x.ue.toNat
  else if o = 0x58 then some x.replays.toNat
  else if o = 0x5C then some x.discard.toNat
  else if o = 0x60 then some 0
  else none

/-- The latches that a read of a port register sets. -/
def Port.latch (x : Port) (o : Nat) : Port :=
  if o = 0x40 then { x with txLatch := hi32 x.txCw } else if o = 0x48 then { x with rxLatch := hi32 x.rxCw } else x

/-- A write of LINK_CFG (R258, R264, R269, R464). Before power-up has reached it, an enabled port stays DISABLED. A write that would change COMPAT or LEADER while a core is attached is refused
whole. -/
def State.writeLinkCfg (s : State) (p : Nat) (v : Word32) : WriteRes × State :=
  let v := if farPort p then v else v &&& ~~~4#32
  let old := (s.port p).cfg
  let moved := (old ^^^ v) &&& 0x1F4 != 0
  if moved && s.anyAttached then (.refused 0x050B, s.record 0x050B 2 p 0 0 0)
  else
    let on := !bit old.toNat 0 && bit v.toNat 0
    let off := bit old.toNat 0 && !bit v.toNat 0
    let s := s.modPort p fun x => { x with cfg := v }
    let s := if off then s.stopPort p .disabled true else s.linkReview
    let s := if bit (old ^^^ v).toNat 2 then s.reevaluate p else s
    (.done, if on && s.board.tested then s.startPort p else s)

/-- A write of LINK_EXPECT or LINK_EXPECT_ID, with its new evaluation (R259). -/
def State.writeExpect (s : State) (p o : Nat) (v : Word32) : State :=
  (s.modPort p fun x =>
    if o = 0x08 then { x with expect := v &&& 0xC01FFFFF }
    else if o = 0x0C then { x with expectId := (hi32 x.expectId).setWidth 64 <<< 32 ||| v.setWidth 64 }
    else { x with expectId := (v.setWidth 64) <<< 32 ||| (lo32 x.expectId).setWidth 64 }).reevaluate p

/-- LINK_CLR.CLR_ERR. -/
def State.clearLink (s : State) (p : Nat) : State :=
  s.modPort p fun x => { x with ce := 0, ue := 0, replays := 0, discard := 0 }

/-- CLR_ERR: LINK_CLR.CLR_ERR of port p is written 1 (R269). -/
def execClrErr (p : Nat) (s : State) : Host.Outcome State Fault Refusal := .next (if p < 24 then s.clearLink p else s)

/-- A write of a register of port p at offset o. -/
def State.writeLink (s : State) (p o : Nat) (v : Word32) : WriteRes × State :=
  if o = 0x00 then s.writeLinkCfg p v
  else if o = 0x08 ∨ o = 0x0C ∨ o = 0x10 then (.done, s.writeExpect p o v)
  else if o = 0x60 then (.done, if bit v.toNat 0 then s.clearLink p else s)
  else if ((s.port p).reg o).isSome then (.done, s) else (.unmapped, s)

end Sys2Proof.Machine
end

