-- ==== Sys2Proof/Machine/Hub.lean ====
section
/-! DEFINITION. What the parts of the module hub share: byte and word conversions, the owner keys, plane-B operations,
messages that the hub sends as a single sender. -/

namespace Sys2Proof.Machine

/-! ## Bytes and payload words -/

/-- n payload words of a byte string (R9). -/
def toWords64 (bs : List Byte) : Nat → List (PWord 64)
  | 0 => []
  | n + 1 => ⟨BitVec.ofNat 64 (leNat (bs.take 8)), false⟩ :: toWords64 (bs.drop 8) n

/-- The bytes of payload words; a poisoned word has an unspecified value (R419). -/
def State.wordBytes64 (s : State) : List (PWord 64) → List Byte × State
  | [] => ([], s)
  | w :: r =>
    let v := if w.poison then s.fresh.1 else w.val
    let s := if w.poison then s.fresh.2 else s
    let x := s.wordBytes64 r
    (natToBytes v.toNat 8 ++ x.1, x.2)

/-- n bytes at a place of a byte string, as a number. -/
def numAt (m : List Byte) (a n : Nat) : Nat := leNat ((m.drop a).take n)

/-- Whether n bytes at a place are zero. -/
def zeroAt (m : List Byte) (a n : Nat) : Bool := ((m.drop a).take n).all fun b => b == 0

/-- Change the Finfin unit, the journal, the host interface. -/
def State.modFin (s : State) (f : Finfin → Finfin) : State := { s with fin := f s.fin }
def State.modJrnl (s : State) (f : Journal → Journal) : State := { s with jrnl := f s.jrnl }
def State.modHost (s : State) (f : HostIf → HostIf) : State := { s with host := f s.host }
def State.modBar (s : State) (f : Barrier → Barrier) : State := { s with bar := f s.bar }

/-- A word of a sparse register table, and its write: a zero word is not listed. -/
def wordOf (l : List (Nat × Word32)) (i : Nat) : Word32 := (keyGet l i).getD 0
def putWord (l : List (Nat × Word32)) (i : Nat) (v : Word32) : List (Nat × Word32) :=
  if v = 0 then keyDel l i else keyPut l i v

/-! ## Owner keys (R484) -/

/-- The public key of an owner key slot that is VALID and has bit `use` of USE. -/
def State.ownerKey (s : State) (i use : Nat) : Option (List Byte) :=
  match if s.sec.owned then s.sec.ownerRec else none with
  | none => none
  | some r =>
    let u := numAt r.body (136 + i) 1
    if i < 4 ∧ bit u 7 ∧ bit u use then some ((r.body.drop (8 + 32 * i)).take 32) else none

/-! ## Plane-B operations (R443, R444) -/

def State.conn (s : State) (c : Nat) : PlbConn := (keyGet s.host.plb c).getD {}

def State.modConn (s : State) (c : Nat) (f : PlbConn → PlbConn) : State :=
  s.modHost fun h => { h with plb := keyPut h.plb c (f (s.conn c)) }

/-- The Ethernet port of a connection. -/
def PlbConn.port (x : PlbConn) : Nat := 4 + bits x.w0.toNat 2 1

/-- Whether a connection takes operations. -/
def State.connUp (s : State) (c : Nat) : Bool := bit (s.conn c).w0.toNat 0 && (s.conn c).state == 1

/-- An operation starts on connection c, at its base address. It leaves once no pause holds the port back (R433). -/
def State.plbStart (s : State) (c : Nat) (o : PlbOp) : State :=
  s.modConn c fun x => { x with ops := x.ops ++ [{ o with addr := x.base + o.addr, leave := max s.tick (s.host.eth.getD x.port {}).pfc }]
                                tick := if x.ops.isEmpty then s.tick else x.tick }

/-! ## Messages of the hub as a sender (R382, R447) -/

/-- Where a hub sender writes: the target core, the owner's handle and slot. -/
structure HubTarget where
  core : Nat
  handle : Nat
  slot : Nat
deriving DecidableEq, Repr

/-- The PUT packets of one message of n lines at line `off`: j counts its packets. -/
def State.hubPuts (s : State) (t : HubTarget) (mseq off n j : Nat) (bad : Bool) (data : List Byte) : Nat → State
  | 0 => s
  | fuel + 1 =>
    let m := min 16 (n - 16 * j)
    if m = 0 then s
    else
      let p := chanPacket clsFwd 0 s.route.me t.core s.route.me false
        { op := opPut, tidx := hIndex t.handle, tgen := hGen t.handle, slot := t.slot, mseq := mseq, pkt := j % 256
          last := n ≤ 16 * (j + 1), ponly := bad, off := off + 16 * j, n := m - 1 }
        (if bad then poisonBody (32 * m) else toWords64 (data.take (256 * m)) (32 * m))
      (s.inject .hub p).hubPuts t mseq off n (j + 1) bad (data.drop (256 * m)) fuel

/-- One message of n lines. -/
def State.hubMessage (s : State) (t : HubTarget) (mseq off n : Nat) (bad : Bool) (data : List Byte) : State :=
  s.hubPuts t mseq off n 0 bad data (n / 16 + 1)

/-- A fault of the hub (SOURCE 5). -/
def State.hubFault (s : State) (code detail : Nat) : State := s.record code 5 0 0 0 detail

end Sys2Proof.Machine
end

