-- ==== Sys2Proof/Machine/Finfin.lean ====
section
/-! DEFINITION. The Finfin weight pipe: editions, manifests, holders, fetches, repairs, tier-2 streams (R363 to R385). -/

namespace Sys2Proof.Machine

/-! ## Edition slots -/

def State.edSlot (s : State) (i : Nat) : EdSlot := s.fin.slots.getD i {}

def State.modEd (s : State) (i : Nat) (f : EdSlot → EdSlot) : State := s.modFin fun x => { x with slots := modAt x.slots i f }

/-- A Finfin fault (R384): the slot and its edition, then further fields. -/
def State.finFault (s : State) (code slot : Nat) (rest : List (Nat × Nat)) : State :=
  s.hubFault code (finDetail slot (s.edSlot slot).edition rest)

/-- The shard number in a DETAIL; the manifest is all ones. -/
def objNum (o : Option Nat) : Nat := o.getD 0x1FFFF

/-- Fetches of a purpose for a slot end. -/
def State.dropFetches (s : State) (p : Fetch → Bool) : State := s.modFin fun x => { x with fetches := x.fetches.filter fun f => !p f }

/-- The load of a slot ends (R364, R373). -/
def Fetch.loads (slot : Nat) (f : Fetch) : Bool := f.slot == slot && f.use == .load

/-- The load of slot i fails. -/
def State.failLoad (s : State) (i : Nat) : State := (s.dropFetches (Fetch.loads i)).modEd i fun e => { e with state := .failed }

/-- A slot becomes EMPTY: the manifest goes with it. -/
def EdSlot.clear (e : EdSlot) : EdSlot := { region := e.region, edition := e.edition }

def State.emptySlot (s : State) (i : Nat) : State := (s.dropFetches fun f => f.slot == i).modEd i EdSlot.clear

/-! ## Manifests (R365 to R368) -/

def manShards (m : List Byte) : Nat := numAt m 12 4

/-- Shard entry i (R366). -/
def parseShard (m : List Byte) (i : Nat) : Shard :=
  let a := 256 + 128 * i
  { tier := numAt m (a + 4) 1, vcore := numAt m (a + 6) 2, offset := numAt m (a + 8) 4, lines := numAt m (a + 12) 2 + 1
    holders := (((m.drop (a + 16)).take 4).map (·.toNat)).takeWhile (· != 0xFF), resOff := numAt m (a + 20) 8
    digest := (m.drop (a + 64)).take 64 }

/-- Whether shard entry i breaks its format (R366, R368). -/
def shardBad (m : List Byte) (i : Nat) : Bool :=
  let a := 256 + 128 * i
  let x := parseShard m i
  !(x.tier == 0 || x.tier == 2) || !zeroAt m (a + 5) 1 || (if x.tier = 0 then decide (1024 ≤ x.vcore) else x.vcore != 0)
    || decide (4096 < x.lines) || !zeroAt m (a + 14) 2 || x.holders.isEmpty || (x.holders.any fun h => decide (32 ≤ h))
    || !zeroAt m (a + 28) 36

/-- The signed bytes and the signature of a manifest. -/
def manSigned (m : List Byte) : List Byte := m.take (m.length - 64)
def manSign (m : List Byte) : List Byte := m.drop (m.length - 64)

/-- The cases 0x0801 of R368. -/
def State.manFormatBad (s : State) (m : List Byte) : Bool :=
  let key := numAt m 16 1
  let n := manShards m
  m.length != 320 + 128 * n || n == 0 || decide (65536 < n)
    || !(match s.ownerKey key 1 with
      | some k => edVerify k (manSigned m) (manSign m)
      | none => false)
    || key != bits s.fin.source.toNat 6 5 || numAt m 0 4 != 0x314E414D || numAt m 4 2 != 1 || !zeroAt m 17 239
    || (List.range n).any (shardBad m)

/-- Whether a tier-0 shard has no place in its core's region (R368). -/
def State.shardMisfit (s : State) (e : EdSlot) (x : Shard) : Bool :=
  match s.finCore x.vcore with
  | none => true
  | some k =>
    match (s.core k).table[e.region.toNat]? with
    | none => true
    | some r => !(r.valid && r.stock && r.kind == kindEdition && decide (x.offset + x.lines ≤ r.cap))

/-- Whether two shards of one core overlap. -/
def overlap (x y : Shard) : Bool :=
  x.tier == 0 && y.tier == 0 && x.vcore == y.vcore && runsMeet x.offset x.lines y.offset y.lines

def anyOverlap : List Shard → Bool
  | [] => false
  | x :: r => r.any (overlap x) || anyOverlap r

/-- The cases 0x0802 of R368. -/
def State.manMisfit (s : State) (i : Nat) (m : List Byte) (xs : List Shard) : Bool :=
  let e := s.edSlot i
  numAt m 8 4 != e.edition.toNat || numAt m 6 2 != bits s.fin.source.toNat 31 16
    || ((List.range (manShards m)).any fun j => numAt m (256 + 128 * j) 4 != j)
    || (xs.any fun x => x.tier == 0 && s.shardMisfit e x) || anyOverlap xs

/-- A whole manifest for LOADING slot i (R368). -/
def State.takeManifest (s : State) (i : Nat) (m : List Byte) : State :=
  let xs := (List.range (manShards m)).map (parseShard m)
  if s.manFormatBad m then (s.finFault 0x0801 i []).failLoad i
  else if s.manMisfit i m xs then (s.finFault 0x0802 i []).failLoad i
  else s.modEd i fun e => { e with man := m, vmod := numAt m 6 2, shards := xs }

/-! ## Attempts (R369, R373) -/

/-- The holder-table indices to try, in order. -/
def State.holdersOf (s : State) (f : Fetch) : List Nat :=
  match f.obj with
  | none => [bits s.fin.source.toNat 4 0]
  | some n => (((s.edSlot f.slot).shards[n]?).map (·.holders)).getD []

def State.putFetch (s : State) (f g : Fetch) : State :=
  s.modFin fun x => { x with fetches := x.fetches.map fun y => if y = f then g else y }

def State.modShard (s : State) (i n : Nat) (g : Shard → Shard) : State :=
  s.modEd i fun e => { e with shards := modAt e.shards n g }

def State.modRun (s : State) (n : Nat) (g : StreamRun → StreamRun) : State :=
  s.modFin fun x => match keyGet x.runs n with
    | some r => { x with runs := keyPut x.runs n (g r) }
    | none => x

/-- No attempt is left (R373, R377, R383): 0x0805. -/
def State.unobtainable (s : State) (f : Fetch) : State :=
  let d := finDetail f.slot (s.edSlot f.slot).edition [(17, objNum f.obj)]
  match f.use with
  | .load => (s.hubFault 0x0805 d).failLoad f.slot
  | .repair => ((s.hubFault 0x0805 d).dropFetches (· == f)).modShard f.slot (objNum f.obj) fun x =>
      { x with repair := false, given := true }
  | .stream n => ((s.recordAs .always 0x0805 5 0 0 0 d).dropFetches (· == f)).modRun n fun r => { r with bad := true }

/-- The attempt in progress, or the one about to start, has failed: the next holder, the next round, or none left. -/
def State.nextHolder (s : State) (f : Fetch) : State :=
  let g := { f with going := false, parts := [], head := none }
  if f.pos + 1 < (s.holdersOf f).length then s.putFetch f { g with pos := f.pos + 1 }
  else if f.round < s.fin.rounds then s.putFetch f { g with pos := 0, round := f.round + 1 }
  else s.unobtainable f

/-- An attempt ended with a record that names shard, holder and edition. -/
def State.attemptFault (s : State) (f : Fetch) (code : Nat) : State :=
  s.finFault code f.slot [(17, objNum f.obj), (5, (s.holdersOf f).getD f.pos 0)]

/-- The Finfin packet of R371 from this hub. -/
def State.finPacket (s : State) (dmod op vmod tag ed shard pkt : Nat) (last : Bool) (body : List (PWord 64)) : Packet :=
  { hdr := [headerWord clsFwd (1 + ceilDiv body.length 8) 0 dmod hubTgt s.route.me false,
      BitVec.ofNat 64 (pack [(4, op), (16, vmod), (16, tag)]), BitVec.ofNat 64 (pack [(32, ed), (32, shard)]),
      BitVec.ofNat 64 (pack [(16, pkt), (1, flag last)]), 0, 0, 0, 0]
    body := body }

/-- VMOD of the requests for a slot. -/
def State.vmodOf (s : State) (i : Nat) : Nat :=
  if (s.edSlot i).shards.isEmpty then bits s.fin.source.toNat 31 16 else (s.edSlot i).vmod

/-- What a reservoir is asked for: the byte offset and the length (R366, R367). -/
def State.reservoirRead (s : State) (f : Fetch) : Word64 × Nat :=
  match f.obj with
  | none => match f.head with
    | none => (s.fin.manOff, 256)
    | some h => (s.fin.manOff + 256, 64 + 128 * manShards h)
  | some n =>
    let x := (s.edSlot f.slot).shards.getD n { tier := 0, vcore := 0, offset := 0, lines := 0, holders := [], resOff := 0, digest := [] }
    (BitVec.ofNat 64 x.resOff, 256 * x.lines)

/-- An attempt starts (R369, R370, R373): a request to a module, or a read from a reservoir. -/
def State.attempt (s : State) (f : Fetch) : State :=
  let h := (s.fin.holders.getD ((s.holdersOf f).getD f.pos 0) 0).toNat
  let tag := s.fin.nextTag.toNat
  let g := { f with going := true, tag := tag, sent := s.tick, via := BitVec.ofNat 32 h }
  let s' := (s.putFetch f g).modFin fun x => { x with nextTag := x.nextTag + 1 }
  if !bit h 31 then s.nextHolder f
  else if bit h 0 then
    (if s.connUp (bits h 8 1) then
      s'.plbStart (bits h 8 1) { use := .fetch tag, addr := (s.reservoirRead f).1, len := (s.reservoirRead f).2 }
    else (s.attemptFault f 0x0803).nextHolder f)
  else s'.inject .hub (s.finPacket (bits h 16 1) 8 (s.vmodOf f.slot) tag (s.edSlot f.slot).edition.toNat
    (match f.obj with
      | none => 0xFFFFFFFF
      | some n => n) 0 false [])

/-! ## What is to be fetched (R367, R370, R375, R382) -/

def State.fetching (s : State) (i : Nat) (obj : Option Nat) (use : FetchUse) : Bool :=
  s.fin.fetches.any fun f => f.slot == i && f.obj == obj && f.use == use

/-- The first object that LOADING slot i needs: its manifest, then its shards in ascending INDEX. -/
def State.loadNeed (s : State) (i : Nat) : Option Fetch :=
  let e := s.edSlot i
  if e.state != .loading then none
  else if e.shards.isEmpty then
    (if s.fetching i none .load then none else some { slot := i, obj := none, use := .load })
  else ((List.range e.shards.length).find? fun n =>
      !((e.shards[n]?).any (·.ok)) && !s.fetching i (some n) .load).map fun n => { slot := i, obj := some n, use := .load }

/-- The first shard of slot i whose repair is due: AUTO_REPAIR as it stands now, but for a shard that no holder could supply, or REPAIR (R375,
R377). -/
def State.repairNeed (s : State) (i : Nat) : Option Fetch :=
  let e := s.edSlot i
  ((List.range e.shards.length).find? fun n =>
    ((e.shards[n]?).any fun x => x.damaged && (x.repair || (s.fin.auto && !x.given))) && !s.fetching i (some n) .repair).map fun n =>
      { slot := i, obj := some n, use := .repair }

def State.tier2Word (s : State) (n w : Nat) : Nat := (wordOf s.fin.streams (4 * n + w)).toNat
def State.streamSlot (s : State) (n : Nat) : Nat := bits (s.tier2Word n 0) 19 19
def State.streamFirst (s : State) (n : Nat) : Nat := bits (s.tier2Word n 2) 16 0
def State.streamCount (s : State) (n : Nat) : Nat := bits (s.tier2Word n 3) 15 0 + 1

/-- The next shard of a stream that the hub does not hold. -/
def State.streamNeed (s : State) : Option Fetch :=
  (s.fin.runs.find? fun r => r.2.data.isNone && !r.2.bad && decide (r.2.idx < s.streamCount r.1)
    && !s.fetching (s.streamSlot r.1) (some (s.streamFirst r.1 + r.2.idx)) (.stream r.1)).map fun r =>
      { slot := s.streamSlot r.1, obj := some (s.streamFirst r.1 + r.2.idx), use := .stream r.1 }

/-- The first need. -/
def State.need (s : State) : Option Fetch :=
  [s.loadNeed 0, s.loadNeed 1, s.repairNeed 0, s.repairNeed 1, s.streamNeed].findSome? id

/-- FINFIN_REQUEST: one request leaves, with at most 64 in flight (R370). An attempt that is due comes first. -/
def execFinfinRequest (s : State) : Host.Outcome State Fault Refusal :=
  .next (if 64 ≤ (s.fin.fetches.filter (·.going)).length then s
    else match s.fin.fetches.find? fun f => !f.going with
    | some f => s.attempt f
    | none => match s.need with
      | none => s
      | some f => (s.modFin fun x => { x with fetches := x.fetches ++ [f] }).attempt f)

/-! ## Objects that arrived (R370, R373, R375) -/

/-- Write the lines of a shard: no term of the write sum (R398). -/
def putShardLines (st : Store) (line : Nat) (data : List Byte) : Nat → Store
  | 0 => st
  | n + 1 => putShardLines (putStockWords st (32 * line) (toWords64 (data.take 256) 32)) (line + 1) (data.drop 256) n

/-- Every shard of LOADING slot i is verified (R370). -/
def State.reviewLoad (s : State) (i : Nat) : State :=
  let e := s.edSlot i
  if e.state == .loading && !e.shards.isEmpty && e.shards.all (·.ok) then s.modEd i fun e => { e with state := .verified } else s

/-- A tier-0 shard is written to its core, unless the region table has changed (R384, 0x0807). -/
def State.placeShard (s : State) (f : Fetch) (n : Nat) (x : Shard) (data : List Byte) : State :=
  let e := s.edSlot f.slot
  if s.shardMisfit e x then
    let s := s.finFault 0x0807 f.slot [(17, n)]
    match f.use with
    | .load => s.failLoad f.slot
    | _ => (s.dropFetches (· == f)).modShard f.slot n fun x => { x with repair := false, given := true }
  else
    let k := (s.finCore x.vcore).getD 0
    let line := ((s.core k).table.getD e.region.toNat {}).base + x.offset
    let s := (s.dropFetches (· == f)).modCore k fun c => c.modMem fun m => { m with stock := putShardLines m.stock line data x.lines }
    (s.modShard f.slot n fun x => { x with ok := true, damaged := false, repair := false, given := false }).reviewLoad f.slot

/-- A whole object (R373). -/
def State.takeObject (s : State) (f : Fetch) (data : List Byte) : State :=
  match f.obj with
  | none => (s.dropFetches (· == f)).takeManifest f.slot data
  | some n =>
    match (s.edSlot f.slot).shards[n]? with
    | none => s.dropFetches (· == f)
    | some x =>
      if data.length = 256 * x.lines ∧ sha512 data = x.digest then
        match f.use with
        | .stream r => (s.dropFetches (· == f)).modRun r fun y => { y with data := some data }
        | _ => if x.tier = 0 then s.placeShard f n x data
          else ((s.dropFetches (· == f)).modShard f.slot n fun x => { x with ok := true }).reviewLoad f.slot
      else (s.attemptFault f 0x0803).nextHolder f

/-- The fetch in flight with a tag. -/
def State.byTag (s : State) (tag : Nat) : Option Fetch := s.fin.fetches.find? fun f => f.going && f.tag == tag

/-- The answer of a reservoir (R367, R373). A header whose SHARDS gives no length within 8,388,928 bytes ends the manifest there, to be refused
(R367, R368). -/
def State.fetchReply (s : State) (tag : Nat) (ok : Bool) (data : List Byte) : State :=
  match s.byTag tag with
  | none => s
  | some f =>
    if !ok || data.length != (s.reservoirRead f).2 then (s.attemptFault f 0x0803).nextHolder f
    else match f.obj, f.head with
    | none, none =>
      let g := { f with head := some data }
      if manShards data = 0 ∨ 65536 < manShards data then s.takeObject f data
      else (s.putFetch f g).plbStart (bits f.via.toNat 8 1) { use := .fetch tag, addr := (s.reservoirRead g).1, len := (s.reservoirRead g).2 }
    | none, some h => s.takeObject f (h ++ data)
    | some _, _ => s.takeObject f data

/-- SHARD_TIMEOUT: the oldest attempt has seen no LAST packet within its limit (R373). -/
def execShardTimeout (s : State) : Host.Outcome State Fault Refusal :=
  .next (match (s.fin.fetches.filter (·.going)).foldl (fun (m : Option Fetch) f => match m with
      | none => some f
      | some g => if f.sent < g.sent then some f else some g) none with
    | none => s
    | some f => (((s.advanceTick (f.sent + s.fin.timeout + 1)).attemptFault f 0x0804).nextHolder f))

/-! ## Packets between hubs (R371 to R373) -/

def Packet.finVmod (p : Packet) : Nat := bits (p.word 1) 19 4
def Packet.finTag (p : Packet) : Nat := bits (p.word 1) 35 20
def Packet.finEd (p : Packet) : Nat := bits (p.word 2) 31 0
def Packet.finShard (p : Packet) : Nat := bits (p.word 2) 63 32
def Packet.finPkt (p : Packet) : Nat := bits (p.word 3) 15 0
def Packet.finLast (p : Packet) : Bool := bit (p.word 3) 16

/-- The shard of a request in a slot, when the slot holds it verified in stock. -/
def EdSlot.holds (e : EdSlot) (n : Nat) : Option Shard := (e.shards[n]?).filter fun x => x.ok && x.tier == 0

/-- The slot that can serve a request: its edition and VMOD match, and it holds the object (R372). -/
def State.serving (s : State) (p : Packet) : Option Nat :=
  [0, 1].find? fun i => let e := s.edSlot i
    e.edition.toNat == p.finEd && e.vmod == p.finVmod && !e.shards.isEmpty
      && (e.state == .loading || e.state == .verified || e.state == .admitted || e.state == .resident)
      && (p.finShard == 0xFFFFFFFF || (e.holds p.finShard).isSome)

/-- The bytes of a verified shard, read back from stock; none when a word is poisoned (R372). -/
def State.readShard (s : State) (i : Nat) (x : Shard) : Option (List Byte) × State :=
  match s.finCore x.vcore with
  | none => (none, s)
  | some k =>
    let line := ((s.core k).table.getD (s.edSlot i).region.toNat {}).base + x.offset
    let r := s.readStockRun k line x.lines
    let ws := r.1.flatten
    (if ws.any (·.poison) then none else some (wordBytes ws), r.2)

/-- The bytes of an object that this module holds. -/
def State.heldObject (s : State) (p : Packet) : Option (List Byte) × State :=
  match s.serving p with
  | none => (none, s)
  | some i =>
    if p.finShard = 0xFFFFFFFF then (some (s.edSlot i).man, s)
    else match (s.edSlot i).holds p.finShard with
    | none => (none, s)
    | some x => s.readShard i x

/-- The SDATA packets of an object, from byte 4,096·j on. -/
def State.sendObject (s : State) (p : Packet) (j : Nat) (data : List Byte) : Nat → State
  | 0 => s
  | n + 1 =>
    let d := data.take 4096
    (s.inject .hub (s.finPacket p.src 9 p.finVmod p.finTag p.finEd p.finShard j (n == 0)
      (toWords64 d (ceilDiv d.length 8)))).sendObject p (j + 1) (data.drop 4096) n

/-- Requests in service: those whose last answer packet still waits at the hub to be injected (R372). -/
def State.inService (s : State) : Nat :=
  (s.mesh.items.filter fun t => t.src == .hub && t.entered.isNone && t.pkt.dtgt == hubTgt && t.pkt.cls == clsFwd
    && (t.pkt.chan.op == 0xA || (t.pkt.chan.op == 9 && t.pkt.finLast))).length

/-- SREQ at the hub: its answer is put together at once, and holds a place of the queue until it has left; a request that finds 256 there is
dropped without a record (R372). -/
def State.hubSreq (p : Packet) (s : State) : State :=
  let r := s.heldObject p
  if 256 ≤ s.inService then s
  else match r.1 with
  | some data => r.2.sendObject p 0 data (ceilDiv data.length 4096)
  | none => r.2.inject .hub (r.2.finPacket p.src 0xA p.finVmod p.finTag p.finEd p.finShard 0 false [])

/-- SDATA at the hub: the packet is collected, and the last one completes the object. -/
def State.hubSdata (p : Packet) (s : State) : State :=
  match s.byTag p.finTag with
  | none => s
  | some f =>
    let r := s.wordBytes64 p.body
    let g := { f with parts := keyPut f.parts p.finPkt r.1 }
    let s := r.2.putFetch f g
    if p.finLast then s.takeObject g (g.parts.flatMap (·.2)) else s

/-- SNONE at the hub. -/
def State.hubSnone (p : Packet) (s : State) : State :=
  match s.byTag p.finTag with
  | none => s
  | some f => s.nextHolder f

/-! ## Commands of the host (R364, R375) -/

/-- A refused Finfin command or write (R364, R385): 0x0806 with the slot. -/
def State.finRefuse (s : State) (slot : Nat) : WriteRes × State := (.refused 0x0806, s.finFault 0x0806 slot [])

/-- FINFIN_CTRL.LOAD of slot i. -/
def State.loadSlot (s : State) (i : Nat) : WriteRes × State :=
  let e := s.edSlot i
  let o := s.edSlot (1 - i)
  if e.state == .empty && (e.region != o.region || o.state == .empty) then
    (.done, s.modEd i fun e => { e with state := .loading, man := [], vmod := 0, shards := [] })
  else s.finRefuse i

/-- FINFIN_CTRL.ABORT of slot i. -/
def State.abortSlot (s : State) (i : Nat) : WriteRes × State :=
  if (s.edSlot i).state == .loading then (.done, s.emptySlot i) else s.finRefuse i

/-- FINFIN_CTRL.REPAIR. -/
def State.repairAll (s : State) : State :=
  [0, 1].foldl (fun s i => s.modEd i fun e =>
    { e with shards := e.shards.map fun x => { x with repair := x.repair || x.damaged, given := false } }) s

/-- Close every handle whose data area holds a line of a released region (R364). -/
def Core.closeOver (c : Core) (r : Region) : Core :=
  c.modChan fun x => { x with handles := x.handles.map fun h =>
    if h.2.state != .closed && isOwner h.2.kind && h.2.stock && r.meets true h.2.base h.2.lines then (h.1, h.2.shut false) else h }

/-- A RESIDENT slot becomes EMPTY (R364). -/
def State.releaseSlot (s : State) (i : Nat) : State :=
  let n := (s.edSlot i).region.toNat
  let s := s.emptySlot i
  let s : State := { s with cores := s.cores.map fun c => (c.1, c.2.closeOver (c.2.table.getD n {})) }
  s.modFin fun x => if i = 0 then { x with release0 := false } else { x with release1 := false }

/-- WEIGHT_EDITION.RELEASEi written as 1. -/
def State.askRelease (s : State) (i : Nat) : WriteRes × State :=
  match (s.edSlot i).state with
  | .verified => (.done, s.emptySlot i)
  | .failed => (.done, s.emptySlot i)
  | .resident =>
    if s.bar.phase = .detached then (.done, s.releaseSlot i)
    else (.done, s.modFin fun x => if i = 0 then { x with release0 := true } else { x with release1 := true })
  | .empty => (.done, s)
  | _ => s.finRefuse i

/-- The VERIFIED slot becomes ADMIT and the former ADMIT slot RESIDENT (R364). -/
def State.latch (s : State) : State :=
  match [0, 1].find? fun i => (s.edSlot i).state == .verified with
  | none => s
  | some i =>
    let s := s.modEd (1 - i) fun e => if e.state == .admitted then { e with state := .resident } else e
    (s.modEd i fun e => { e with state := .admitted }).modFin fun x => { x with activate := false }

/-- WEIGHT_EDITION.ACTIVATE written: at once while DETACHED. -/
def State.setActivate (s : State) (b : Bool) : State :=
  let s := s.modFin fun x => { x with activate := b }
  if b && s.bar.phase == .detached then s.latch else s

/-! ## Registers (R385) -/

def EdState.num : EdState → Nat
  | .empty => 0
  | .loading => 1
  | .verified => 2
  | .admitted => 3
  | .resident => 4
  | .failed => 5

def State.anyLoading (s : State) : Bool := s.fin.slots.any fun e => e.state == .loading

def Finfin.damaged (x : Finfin) : Bool :=
  x.slots.any fun e => (e.state == .admitted || e.state == .resident) && e.shards.any (·.damaged)

/-- FINFIN_STATUS. -/
def Finfin.status (x : Finfin) : Nat :=
  pack [(17, ((x.slots.find? fun e => e.state == .loading).map fun e => (e.shards.filter (·.ok)).length).getD 0),
    (7, (x.fetches.filter (·.going)).length), (1, flag x.damaged)]

/-- WEIGHT_EDITION. -/
def Finfin.edition (x : Finfin) : Nat :=
  pack [(3, (x.slots.getD 0 {}).state.num), (3, (x.slots.getD 1 {}).state.num), (1, flag x.activate), (1, flag x.release0),
    (1, flag x.release1)]

/-- A Finfin register at an offset of its block. -/
def Finfin.reg (x : Finfin) (o : Nat) : Option Nat :=
  if o = 0 then some x.edition
  else if o = 4 then some (pack [(1, 0), (1, x.slotSel), (1, 0), (2, x.rounds), (1, flag x.auto)])
  else if o = 8 then some x.status
  else if o = 0xC then some x.timeout
  else if o = 0x10 then some x.source.toNat
  else if o = 0x14 then some (lo32 x.manOff).toNat
  else if o = 0x18 then some (hi32 x.manOff).toNat
  else if o = 0x1C then some x.vmap.toNat
  else if 0x20 ≤ o ∧ o < 0x30 then
    let e := x.slots.getD ((o - 0x20) / 8) {}
    some (if o % 8 = 0 then pack [(6, e.region.toNat), (17, e.shards.length)] else e.edition.toNat)
  else if 0x100 ≤ o ∧ o < 0x180 then some (x.holders.getD ((o - 0x100) / 4) 0).toNat
  else if 0x1000 ≤ o ∧ o < 0x2000 then some (wordOf x.streams ((o - 0x1000) / 4)).toNat
  else none

/-- The RW bits of the words of TIER2_STREAM. -/
def streamMask (w : Nat) : Word32 := if w = 0 then 0x800FFFFF else if w = 1 then 0x3FFFFFF else if w = 2 then 0x1FFFF else 0xFFFF

/-- A write of FINFIN_CTRL (R364, R375): its RW fields, then its commands. A refused write changes nothing. -/
def State.writeFinCtrl (s : State) (v : Word32) : WriteRes × State :=
  let n := v.toNat
  let i := flag (bit n 1)
  let t := s.modFin fun x => { x with slotSel := i, rounds := bits n 4 3, auto := bit n 5 }
  let a := if bit n 0 then t.loadSlot i else (.done, t)
  let b := if bit n 2 then a.2.abortSlot i else (.done, a.2)
  if a.1 = .done ∧ b.1 = .done then (.done, if bit n 6 then b.2.repairAll else b.2) else s.finRefuse i

/-- A write of WEIGHT_EDITION (R364): its RW bits, a pending release written as 0 ends, then the releases. A refused write changes
nothing. -/
def State.writeEdition (s : State) (v : Word32) : WriteRes × State :=
  let n := v.toNat
  let t := (s.modFin fun x => { x with release0 := x.release0 && bit n 7, release1 := x.release1 && bit n 8 }).setActivate (bit n 6)
  let a := if bit n 7 then t.askRelease 0 else (.done, t)
  let b := if bit n 8 then a.2.askRelease 1 else (.done, a.2)
  if a.1 ≠ .done then s.finRefuse 0 else if b.1 ≠ .done then s.finRefuse 1 else (.done, b.2)

/-- The RW bits of FINFIN_HOLDER: TARGET[16:9] is reserved at a reservoir. -/
def holderBits (v : Word32) : Word32 := v &&& (if bit v.toNat 0 then 0x800001FF else 0x8001FFFF)

/-- A Finfin register without commands. -/
def State.writeFinReg (s : State) (o : Nat) (v : Word32) : WriteRes × State :=
  let n := v.toNat
  let did := fun f => ((.done, s.modFin f) : WriteRes × State)
  if o = 0xC then did fun x => { x with timeout := bits n 23 0 }
  else if o = 0x10 then (if s.anyLoading then s.finRefuse 0 else did fun x => { x with source := v &&& 0xFFFF007F })
  else if o = 0x14 then did fun x => { x with manOff := (x.manOff >>> 32 <<< 32) ||| v.setWidth 64 }
  else if o = 0x18 then did fun x => { x with manOff := (x.manOff.setWidth 32).setWidth 64 ||| (v.setWidth 64 <<< 32) }
  else if o = 0x1C then (if s.anyLoading then s.finRefuse 0 else did fun x => { x with vmap := v &&& 0x801FFFFF })
  else if 0x20 ≤ o ∧ o < 0x30 then
    let i := (o - 0x20) / 8
    if (s.edSlot i).state != .empty then s.finRefuse i
    else (.done, s.modEd i fun e => if o % 8 = 0 then { e with region := v.setWidth 6 } else { e with edition := v })
  else if 0x100 ≤ o ∧ o < 0x180 then did fun x => { x with holders := x.holders.set ((o - 0x100) / 4) (holderBits v) }
  else if 0x1000 ≤ o ∧ o < 0x2000 then
    (if s.anyAttached && s.bar.phase != .held then s.finRefuse (s.streamSlot ((o - 0x1000) / 16))
     else did fun x => { x with streams := putWord x.streams ((o - 0x1000) / 4) (v &&& streamMask (o / 4 % 4)) })
  else (if (s.fin.reg o).isSome then .done else .unmapped, s)

/-- A write at an offset of the Finfin block. -/
def State.writeFin (s : State) (o : Nat) (v : Word32) : WriteRes × State :=
  if o = 0 then s.writeEdition v else if o = 4 then s.writeFinCtrl v else s.writeFinReg o v

/-- LOAD: FINFIN_CTRL written with LOAD set. -/
def execLoad (v : Word32) (s : State) : Host.Outcome State Fault Refusal :=
  .next (if bit v.toNat 0 then (s.writeFin 4 v).2 else s)

/-- FINFIN_ABORT: FINFIN_CTRL written with ABORT set. -/
def execFinfinAbort (v : Word32) (s : State) : Host.Outcome State Fault Refusal :=
  .next (if bit v.toNat 2 then (s.writeFin 4 v).2 else s)

/-- REPAIR: FINFIN_CTRL written with REPAIR set. -/
def execRepair (v : Word32) (s : State) : Host.Outcome State Fault Refusal :=
  .next (if bit v.toNat 6 then (s.writeFin 4 v).2 else s)

/-- ACTIVATE: WEIGHT_EDITION written with ACTIVATE set. -/
def execActivate (v : Word32) (s : State) : Host.Outcome State Fault Refusal :=
  .next (if bit v.toNat 6 then (s.writeFin 0 v).2 else s)

/-- RELEASE: WEIGHT_EDITION written with a RELEASE bit set. -/
def execRelease (v : Word32) (s : State) : Host.Outcome State Fault Refusal :=
  .next (if bit v.toNat 7 || bit v.toNat 8 then (s.writeFin 0 v).2 else s)

/-! ## Tier-2 streams (R381 to R383, R392) -/

/-- The core of a stream's window. -/
def State.streamCore (s : State) (n : Nat) : Option Nat := s.finCore (bits (s.tier2Word n 1) 9 0)

/-- The check of a VALID stream at a blank (R383). -/
def State.streamOk (s : State) (n : Nat) : Bool :=
  let e := s.edSlot (s.streamSlot n)
  (match s.streamCore n with
    | some k => (s.core k).ctl.attached
    | none => false)
    && (e.state == .admitted || e.state == .resident)
    && ((List.range (s.streamCount n)).all fun j => (e.shards[s.streamFirst n + j]?).any fun x => x.tier == 2)

/-- The streams whose VALID bit is set, in ascending order. -/
def State.streamsValid (s : State) : List Nat := (List.range 256).filter fun n => bit (s.tier2Word n 0) 31

/-- Every stream ends, and what was being fetched for it (R382). -/
def State.endRuns (s : State) : State :=
  (s.dropFetches fun f => match f.use with
    | .stream _ => true
    | _ => false).modFin fun x => { x with runs := [] }

/-- The check of the streams at a blank: those that pass start anew (R382, R383). -/
def State.checkStreams (s : State) : State :=
  let s := s.endRuns
  s.streamsValid.foldl (fun s n =>
    if s.streamOk n then s.modFin fun x =>
      { x with runs := keyPut x.runs n { credit := bits (s.tier2Word n 1) 25 10 } }
    else s.hubFault 0x0809 (finDetail (s.streamSlot n) (s.edSlot (s.streamSlot n)).edition [])) s

/-- TIER2_STREAM_SEND: stream n sends its next shard as one message, or its poison-only message (R382, R383). -/
def execTier2StreamSend (n : Nat) (s : State) : Host.Outcome State Fault Refusal :=
  .next (match keyGet s.fin.runs n, s.streamCore n, (s.edSlot (s.streamSlot n)).shards[s.streamFirst n + (((keyGet s.fin.runs n).map (·.idx)).getD 0)]? with
    | some r, some k, some x =>
      if s.bar.phase = .run ∧ r.idx < s.streamCount n ∧ x.lines ≤ r.credit ∧ (r.bad || r.data.isSome) then
        let t : HubTarget := { core := k, handle := bits (s.tier2Word n 0) 15 0, slot := bits (s.tier2Word n 0) 18 16 }
        let s := s.modRun n fun r => { idx := r.idx + 1, credit := r.credit - x.lines, mseq := r.mseq + 1 }
        s.hubMessage t r.mseq.toNat x.offset x.lines r.bad (r.data.getD [])
      else s
    | _, _, _ => s)

/-- The module is finished: every stream stops, and an unsent shard records nothing more; in strict mode unsent shards fail the pass (R382,
R392). -/
def State.stopStreams (s : State) : State :=
  let s' := s.fin.runs.foldl (fun (s : State) r =>
    if s.strict && decide (r.2.idx < s.streamCount r.1) then
      s.hubFault 0x0906 (pack [(8, r.1), (17, s.streamCount r.1 - r.2.idx)]) else s) s
  s'.endRuns

end Sys2Proof.Machine
end

