-- ==== Sys2Proof/Machine/Journal.lean ====
section
/-! DEFINITION. Write-sum digests, the Dzichaphor journal and its export, twin summaries (R396 to R407, R413). -/

namespace Sys2Proof.Machine

/-! ## Virtual order (R398) -/

/-- The virtual index of core k under its GRID_VMAP; none outside the map. -/
def Core.virtualIndex (c : Core) (k : Nat) : Option Nat :=
  let m := c.ctl.gridVmap.toNat
  if !bit m 31 then some k
  else if k % 32 < bits m 4 0 ∨ k / 32 < bits m 9 5 then none
  else
    let dx := k % 32 - bits m 4 0
    let dy := k / 32 - bits m 9 5
    let vx := if bit m 20 then dy else dx
    let vy := if bit m 20 then dx else dy
    if vx ≤ bits m 14 10 ∧ vy ≤ bits m 19 15 then some (vy * (bits m 14 10 + 1) + vx) else none

/-- The attached cores by virtual index; those outside their map come last (log 10). -/
def State.virtualCores (s : State) : List (Nat × Core) :=
  ((s.cores.filter fun c => c.2.ctl.attached).foldl (fun l c =>
    keyPut l (1024 * (c.2.virtualIndex c.1).getD 1023 + c.1) c) []).map (·.2)

/-- The 768 TWIN_LAST values in virtual order (R400, R403). -/
def State.coreSums (s : State) : List Byte :=
  let l := s.virtualCores.filterMap fun c => (c.2.virtualIndex c.1).map fun i => (i, c.2.ctl.twinLast)
  (List.range 768).flatMap fun i => natToBytes (((keyGet l i).getD 0).toNat) 8

/-- The sum digest (R398). -/
def State.sumDigest (s : State) : List Byte := sha512 (s.virtualCores.flatMap fun c => natToBytes c.2.ctl.twinLast.toNat 8)

/-! ## The determinism profile (R5, R217, R396) -/

/-- ID_CONTRACTS.LC_SUPPORTED and LC_NATIVE of the stepping. -/
def State.lcSupported (s : State) : Nat := if s.stepB then 3 else 1
def State.lcNative (s : State) : Nat := if s.stepB then 1 else 0

def State.detProfile (s : State) : Nat :=
  pack [(8, 1), (8, s.lcSupported), (8, 1), (1, flag s.strict), (1, flag s.route.adaptive), (1, flag (bit s.twin.cfg.toNat 0))]

/-! ## Records (R402) -/

/-- Free bytes of the 64 MiB record buffer. -/
def Journal.free (j : Journal) : Nat := 67108864 - j.buf.foldl (fun n r => n + r.2.length) 0

/-- BUSY and 0x0901, once per episode (R407). -/
def State.reviewBusy (s : State) : State :=
  if s.jrnl.free < 2097152 then
    (if s.jrnl.busy then s else (s.modJrnl fun j => { j with busy := true }).hubFault 0x0901 0)
  else s.modJrnl fun j => { j with busy := false }

def recordHeader (type len : Nat) (rseq pass : Word64) : List Byte :=
  natToBytes type 1 ++ natToBytes 1 1 ++ natToBytes 0 2 ++ natToBytes len 4 ++ natToBytes rseq.toNat 8
    ++ natToBytes pass.toNat 8 ++ natToBytes 0 8

/-- Write one record of a pass, when this attachment is journalled. -/
def State.journal (s : State) (type : Nat) (pass : Word64) (body : List Byte) : State :=
  if !s.jrnl.on then s
  else
    let h := recordHeader type body.length s.jrnl.rseq pass ++ body
    let ch := sha512 (s.jrnl.chain ++ h)
    (s.modJrnl fun j => { j with buf := j.buf ++ [(j.rseq, h ++ ch)], chain := ch, rseq := j.rseq + 1
                                 prevPass := pass }).reviewBusy

/-! ## The records of R403 -/

/-- The bank in force of the first attached core. -/
def State.jobBank (s : State) : Nat := ((s.virtualCores.head?).map fun c => c.2.ctl.bankActive).getD 0

def Journal.sealedBank (j : Journal) (b : Nat) : Option (List Byte) := if b = 0 then j.sealed0 else j.sealed1

/-- PROGRAM of bank b. -/
def State.journalProgram (s : State) (pass : Word64) (b : Nat) : State :=
  let d := s.jrnl.sealedBank b
  s.journal 5 pass (natToBytes b 1 ++ natToBytes (flag d.isNone) 1 ++ natToBytes 0 6 ++ d.getD (List.replicate 64 0))

/-- EDITION, for the ADMIT slot. -/
def State.journalEdition (s : State) (pass : Word64) : State :=
  match [0, 1].find? fun i => (s.edSlot i).state == .admitted with
  | none => s
  | some i => s.journal 6 pass (natToBytes i 1 ++ natToBytes 0 3 ++ natToBytes (s.edSlot i).edition.toNat 4 ++ sha512 (s.edSlot i).man)

/-- The bytes that LAYOUT covers for one core; each register as a 32-bit word (log 10). -/
def Core.layout (c : Core) : List Byte :=
  natToBytes c.ctl.roleCur.toNat 4
    ++ (c.regs.regions.flatMap fun r => natToBytes r.w0.toNat 4 ++ natToBytes r.w1.toNat 4 ++ natToBytes r.commit 4)
    ++ ((List.range 1024).flatMap fun i => natToBytes ((keyGet c.ctl.patch i).getD 0).toNat 4)
    ++ ((List.range 32).flatMap fun w => natToBytes (maskOf (fun b => c.ctl.patchValid.contains (32 * w + b)) 32) 4)

/-- LAYOUT. -/
def State.journalLayout (s : State) (pass : Word64) : State :=
  s.journal 7 pass (sha512 (s.virtualCores.flatMap fun c => c.2.layout))

/-- OPEN, with the records that follow it. -/
def State.journalOpen (s : State) : State :=
  if !s.jrnl.enable then s.modJrnl fun j => { j with on := false }
  else
    let s := s.modJrnl fun j =>
      { j with on := true, rseq := 0, exported := 0, chain := List.replicate 64 0, ckpt := 0, ckptPass := s.bar.passNum
               faultsFrom := s.faults.total, patched := false }
    let p := s.bar.passNum
    let vm := ((s.virtualCores.head?).map fun c => c.2.ctl.gridVmap.toNat).getD 0
    let body := natToBytes s.moduleId.toNat 8 ++ natToBytes s.detProfile 4 ++ natToBytes s.lc 1 ++ natToBytes 0 1
      ++ natToBytes (bits s.fin.source.toNat 31 16) 2 ++ natToBytes s.bar.jobTag.toNat 4 ++ natToBytes vm 4
      ++ natToBytes s.twin.cfg.toNat 4 ++ natToBytes 0 4 ++ natToBytes p.toNat 8
      ++ natToBytes s.jrnl.replayId.toNat 8 ++ natToBytes s.jrnl.replayRseq.toNat 8
    (((s.journal 1 p body).journalProgram p s.jobBank).journalEdition p).journalLayout p

/-- CHECKPOINT (R406). -/
def State.checkpoint (s : State) : State :=
  if !s.jrnl.on then s
  else
    let j := s.jrnl
    let body := natToBytes s.moduleId.toNat 8 ++ natToBytes j.ckpt.toNat 8 ++ natToBytes (j.rseq - 1).toNat 8
      ++ natToBytes j.ckptPass.toNat 8 ++ natToBytes j.prevPass.toNat 8 ++ j.chain ++ natToBytes s.detProfile 4 ++ natToBytes 0 4
    let s := s.journal 0xA j.prevPass (body ++ edSign s.sec.priv s.sec.pub body)
    s.modJrnl fun j => { j with ckpt := j.rseq, ckptPass := s.bar.passNum }

/-- CLOSE on DETACH (1) or ABORT (2), its CHECKPOINT, and the end of this journal (R403, R406, R413). -/
def State.journalClose (s : State) (reason : Nat) : State :=
  let s := (s.journal 0xB s.bar.passNum (natToBytes reason 8)).checkpoint
  s.modJrnl fun j => { j with on := false, replayId := 0, replayRseq := 0 }

/-- OUTPUT. -/
def State.journalOutput (s : State) (pass : Word64) (o : OutRes) : State :=
  let n := 256 * o.lines
  s.journal 3 pass (natToBytes o.id 8 ++ natToBytes n 4 ++ natToBytes 0 4 ++ sha512 (cellRead o.cells 0 n))

/-- PASSEND, and CORESUMS after the one of a succeeded pass (R403, R404; log 11). -/
def State.journalPassEnd (s : State) (pass : Word64) (ok : Bool) (attempt : Nat) : State :=
  let cs := s.cores.filter fun c => c.2.ctl.attached
  let flags := pack [(1, flag s.bar.undrained), (1, flag s.bar.desync), (1, flag s.twin.differs), (1, flag s.strict)]
  let body := natToBytes (if ok then 1 else 2) 1 ++ natToBytes flags 1 ++ natToBytes attempt 2
    ++ natToBytes (s.faults.total - s.jrnl.faultsFrom).toNat 4
    ++ natToBytes (cs.foldl (fun n c => n + c.2.mx.satAcc.toNat) 0) 8
    ++ natToBytes (cs.foldl (fun n c => n + c.2.vx.satOut.toNat) 0) 8 ++ s.sumDigest
  let s := (s.journal 4 pass body).modJrnl fun j => { j with faultsFrom := s.faults.total }
  let s := if ok && s.jrnl.coresums then s.journal 9 pass s.coreSums else s
  if ok && decide (pass.toNat % 1024 = 1023) then s.checkpoint else s

/-- The committed lines of one keep region, with their poison masks, and how many bytes of data they hold. -/
def Core.keepBytes (c : Core) (r : Region) : List Byte × Nat :=
  if !(r.valid && (r.kind == kindAppend || r.kind == kindFrozen)) then ([], 0)
  else
    let n := min r.commit r.cap
    ((List.range n).flatMap fun i =>
      let l := r.base + i
      if r.stock then
        cellRead c.mem.stock.cells (256 * l) 256 ++ natToBytes (maskOf (fun b => c.mem.stock.bad (32 * l + b)) 32) 4
      else cellRead c.mem.scr.cells (256 * l) 256 ++ natToBytes (maskOf (fun b => c.mem.scr.bad (64 * l + b)) 64) 8,
     256 * n)

/-- KEEPSNAP. -/
def State.snap (s : State) : State :=
  let rs := s.virtualCores.flatMap fun c => c.2.table.map fun r => c.2.keepBytes r
  s.journal 8 s.bar.passNum (sha512 (rs.flatMap (·.1)) ++ natToBytes (rs.foldl (fun n r => n + r.2) 0) 8)

/-! ## Sealing (R405) -/

/-- What the seal of bank b covers in one core. -/
def Core.sealBytes (c : Core) (b : Nat) : List Byte :=
  (allEngines.flatMap fun e => cellRead c.mem.imem.cells (imemBase e b) (bankBytes e))
    ++ ((if b = 0 then c.ctl.syncInit0 else c.ctl.syncInit1).flatMap fun x => natToBytes x.toNat 4)
    ++ natToBytes (if b = 0 then c.ctl.lcDecl0 else c.ctl.lcDecl1).toNat 4

/-- SEAL_COMPLETE: the hash of the bank whose SEAL came first is complete, and SEALEDb is set. -/
def execSealComplete (s : State) : Host.Outcome State Fault Refusal :=
  .next (match s.jrnl.sealing with
    | [] => s
    | b :: r =>
      let d := sha512 (s.virtualCores.flatMap fun c => c.2.sealBytes b)
      s.modJrnl fun j => if b = 0 then { j with sealing := r, sealed0 := some d } else { j with sealing := r, sealed1 := some d })

/-! ## Journal registers (R413) -/

def State.detRefuse (s : State) : WriteRes × State := (.refused 0x0907, s.hubFault 0x0907 0)

/-- A bank joins those being sealed, once. -/
def markLast (l : List Nat) (b : Nat) : List Nat := if l.contains b then l else l ++ [b]

/-- A journal register, with no effect of the read. -/
def State.jrnlReg (s : State) (o : Nat) : Option Nat :=
  let j := s.jrnl
  if o = 0 then some (pack [(1, flag j.enable), (1, flag j.coresums), (1, 0), (1, j.sealbank)])
  else if o = 4 then
    some (pack [(1, flag (s.connUp j.conn)), (1, flag j.busy), (1, flag j.sealed0.isSome), (1, flag j.sealed1.isSome), (4, 0),
      (7, j.free / 1048576)])
  else if o = 8 then some j.conn
  else if o = 0x10 then some (lo32 j.rseq).toNat
  else if o = 0x14 then some j.rseqLatch.toNat
  else if o = 0x18 then some (lo32 j.exported).toNat
  else if o = 0x1C then some j.exportedLatch.toNat
  else if o = 0x20 then some (lo32 j.base).toNat
  else if o = 0x24 then some (hi32 j.base).toNat
  else if o = 0x28 then some j.size.toNat
  else if o = 0x30 then some (lo32 j.replayId).toNat
  else if o = 0x34 then some (hi32 j.replayId).toNat
  else if o = 0x38 then some (lo32 j.replayRseq).toNat
  else if o = 0x3C then some (hi32 j.replayRseq).toNat
  else if 0x40 ≤ o ∧ o < 0x80 then some (numAt j.chain (o - 0x40) 4)
  else none

/-- The latch of a _LO read of the journal block. -/
def State.jrnlLatch (s : State) (o : Nat) : State :=
  if o = 0x10 then s.modJrnl fun j => { j with rseqLatch := hi32 j.rseq }
  else if o = 0x18 then s.modJrnl fun j => { j with exportedLatch := hi32 j.exported }
  else s

/-- Put a half of a 64-bit value. -/
def setLo (w : Word64) (v : Word32) : Word64 := (w >>> 32 <<< 32) ||| v.setWidth 64
def setHi (w : Word64) (v : Word32) : Word64 := (w.setWidth 32).setWidth 64 ||| (v.setWidth 64 <<< 32)

/-- A write of JRNL_CTRL: its RW fields, then its commands. With SNAP outside HELD it is refused (R413). -/
def State.writeJrnlCtrl (s : State) (v : Word32) : WriteRes × State :=
  let n := v.toNat
  if bit n 4 ∧ s.bar.phase ≠ .held then s.detRefuse
  else
    let s := s.modJrnl fun j => { j with enable := bit n 0, coresums := bit n 1, sealbank := bits n 3 3 }
    let s := if bit n 2 then s.modJrnl fun j => { j with sealing := markLast j.sealing (bits n 3 3) } else s
    let s := if bit n 4 then s.snap else s
    (.done, if bit n 5 then s.checkpoint else s)

/-- A write at an offset of the journal block. -/
def State.writeJrnl (s : State) (o : Nat) (v : Word32) : WriteRes × State :=
  let put := fun f => if s.bar.phase = .detached then ((.done, s.modJrnl f) : WriteRes × State) else s.detRefuse
  if o = 0 then s.writeJrnlCtrl v
  else if o = 8 then put fun j => { j with conn := bits v.toNat 7 0 }
  else if o = 0x20 then put fun j => { j with base := setLo j.base v }
  else if o = 0x24 then put fun j => { j with base := setHi j.base v }
  else if o = 0x28 then put fun j => { j with size := v }
  else if o = 0x30 then put fun j => { j with replayId := setLo j.replayId v }
  else if o = 0x34 then put fun j => { j with replayId := setHi j.replayId v }
  else if o = 0x38 then put fun j => { j with replayRseq := setLo j.replayRseq v }
  else if o = 0x3C then put fun j => { j with replayRseq := setHi j.replayRseq v }
  else (if (s.jrnlReg o).isSome then .done else .unmapped, s)

/-- SEAL: JRNL_CTRL written with SEAL set. -/
def execSeal (v : Word32) (s : State) : Host.Outcome State Fault Refusal :=
  .next (if bit v.toNat 2 then (s.writeJrnl 0 v).2 else s)

/-- SNAP: JRNL_CTRL written with SNAP set. -/
def execSnap (v : Word32) (s : State) : Host.Outcome State Fault Refusal :=
  .next (if bit v.toNat 4 then (s.writeJrnl 0 v).2 else s)

/-- CHECKPOINT: JRNL_CTRL written with CHECKPOINT set. -/
def execCheckpoint (v : Word32) (s : State) : Host.Outcome State Fault Refusal :=
  .next (if bit v.toNat 5 then (s.writeJrnl 0 v).2 else s)

/-! ## Export (R407) -/

/-- Bytes of the store ring for records: all but the last 16. -/
def Journal.ring (j : Journal) : Nat := 1048576 * j.size.toNat - 16

/-- Bytes of some records. -/
def recordBytes (l : List (Word64 × List Byte)) : Nat := l.foldl (fun n r => n + r.2.length) 0

/-- The records of a batch that the ring has room for, in order: `used` of its bytes hold records that the store has not consumed. -/
def fitRing (ring used : Nat) : List (Word64 × List Byte) → List (Word64 × List Byte)
  | [] => []
  | r :: l => if used + r.2.length ≤ ring then r :: fitRing ring (used + r.2.length) l else []

/-- One WRITE into the store ring at byte a. -/
def State.ringWrite (s : State) (u : PlbUse) (a : Nat) (d : List Byte) : State :=
  s.plbStart s.jrnl.conn { use := u, addr := s.jrnl.base + BitVec.ofNat 64 a, data := d }

/-- One record goes to its place in the ring; at the ring's end it goes on at its start. -/
def State.exportRecord (s : State) (r : Word64 × List Byte) : State :=
  let p := s.jrnl.ringPos
  let m := s.jrnl.ring - p
  let s := s.ringWrite (.records r.1) p (r.2.take m)
  let s := if m < r.2.length then s.ringWrite (.records r.1) 0 (r.2.drop m) else s
  s.modJrnl fun j => { j with ringPos := (j.ringPos + r.2.length) % j.ring, sentN := j.sentN + 1 }

/-- JOURNAL_EXPORT: the records not exported yet, as far as the ring has room for them, leave as one batch, each at its place in the ring,
then the RSEQ of the next record. -/
def execJournalExport (s : State) : Host.Outcome State Fault Refusal :=
  .next (let j := s.jrnl
    let batch := fitRing j.ring (recordBytes (j.buf.take j.sentN)) (j.buf.drop j.sentN)
    if batch.isEmpty || !s.connUp j.conn || j.size == 0 then s
    else
      let s := batch.foldl State.exportRecord s
      let next := (s.jrnl.buf.drop s.jrnl.sentN).head?.map (·.1)
      s.ringWrite (.marker (next.getD s.jrnl.rseq)) (j.ring + 8) (natToBytes (next.getD s.jrnl.rseq).toNat 8))

/-- JOURNAL_CONSUMED_POLL: the hub reads the consumed RSEQ. -/
def execJournalConsumedPoll (s : State) : Host.Outcome State Fault Refusal :=
  .next (if s.connUp s.jrnl.conn && s.jrnl.size != 0 then
      s.plbStart s.jrnl.conn { use := .consumed, addr := s.jrnl.base + BitVec.ofNat 64 s.jrnl.ring, len := 8 }
    else s)

/-- How many exported records stand before record v: those consumed when the store answers v. -/
def consumedBefore (v : Word64) : List (Word64 × List Byte) → Nat → Nat
  | [], i => i
  | (r, _) :: t, i => if (v - r).toNat < 2 ^ 63 ∧ v ≠ r then consumedBefore v t (i + 1) else i

/-- The store has consumed the records before v: they leave the buffer, and JRNL_EXPORTED advances. -/
def State.consume (s : State) (v : Word64) : State :=
  let n := consumedBefore v (s.jrnl.buf.take s.jrnl.sentN) 0
  (s.modJrnl fun j => { j with buf := j.buf.drop n, sentN := j.sentN - n
                               exported := if n = 0 then j.exported else v }).reviewBusy

/-- The export goes back to the first record kept, at its place in the ring. -/
def Journal.rewind (j : Journal) : Journal :=
  { j with sentN := 0, ringPos := (j.ringPos + j.ring - recordBytes (j.buf.take j.sentN)) % j.ring }

/-- The export connection has failed: every record that is not consumed is exported again, 0x0902 (R407). A connection exports while a
journal is open or holds records. -/
def State.exportFailed (s : State) (c : Nat) : State :=
  if s.jrnl.conn = c ∧ (s.jrnl.on || !s.jrnl.buf.isEmpty) then (s.modJrnl Journal.rewind).hubFault 0x0902 0 else s

/-- JOURNAL_EXPORT_RETRY: once the connection is up again, the export starts anew from the first record kept. -/
def execJournalExportRetry (s : State) : Host.Outcome State Fault Refusal :=
  .next (if s.connUp s.jrnl.conn then s.modJrnl Journal.rewind else s)

/-! ## Twin mode (R399 to R401) -/

def State.twinOn (s : State) : Bool := bit s.twin.cfg.toNat 0
def State.shadow (s : State) : Bool := s.twinOn && bit s.twin.cfg.toNat 1

/-- The module field of the partner. -/
def State.partner (s : State) : Nat := s.route.me % 8192 + 8192 * bits s.twin.cfg.toNat 4 2

/-- The two packets of the twin summary. -/
def State.sendSummary (s : State) : State :=
  let d := s.coreSums
  let hd := fun j last (body : List Byte) => ({
    hdr := [headerWord clsFwd (1 + body.length / 64) 0 s.partner hubTgt s.route.me false, 0xB#64, s.bar.passNum,
      BitVec.ofNat 64 (pack [(16, j), (1, flag last)]), 0, 0, 0, 0]
    body := toWords64 body (body.length / 8) } : Packet)
  (s.inject .hub (hd 0 false (d.take 4096))).inject .hub (hd 1 true (d.drop 4096))

/-- A packet of a twin summary is kept when it is of this pass (R400). -/
def State.keepSummary (s : State) (p : Packet) : State :=
  if s.twinOn && BitVec.ofNat 64 (p.word 2) == s.bar.passNum && p.src == s.partner then
    let r := s.wordBytes64 p.body
    { r.2 with twin := { r.2.twin with got := keyPut r.2.twin.got p.finPkt r.1 } }
  else s

/-- The partner's summary, once both packets are held. -/
def State.summary (s : State) : Option (List Byte) :=
  match keyGet s.twin.got 0, keyGet s.twin.got 1 with
  | some a, some b => some (a ++ b)
  | _, _ => none

/-- The positions at which two summaries differ. -/
def differing (a b : List Byte) : List Nat := (List.range 768).filter fun i => numAt a (8 * i) 8 != numAt b (8 * i) 8

/-- Record a fault that fails the pass being parted, whatever contribution is under way. -/
def State.recordNow (s : State) (code detail : Nat) : State :=
  let b := s.bar
  let s := ({ s with bar := { b with phase := .run } } : State).recordAs .always code 5 0 0 0 detail
  { s with bar := b }

/-- The comparison (R401). -/
def State.compareTwin (s : State) (d : List Byte) : State :=
  let x := differing s.coreSums d
  match x with
  | [] => { s with twin := { s.twin with status := 1 } }
  | i :: _ =>
    let s := (s.recordNow 0x0904 (pack [(10, x.length), (10, i)])).modBar fun b => { b with fail := true }
    { s with twin := { s.twin with status := BitVec.ofNat 32 (pack [(2, 0), (10, x.length), (10, i)]), differs := true } }

/-- The partner's summary is missing (R401). -/
def State.twinMissing (s : State) : State :=
  let s := (s.recordNow 0x0905 0).modBar fun b => { b with fail := true }
  { s with twin := { s.twin with status := 2 } }

/-- TWIN_CFG written: only while DETACHED, ENABLE only with STRICT (R399). -/
def State.writeTwin (s : State) (v : Word32) : WriteRes × State :=
  if s.bar.phase ≠ .detached ∨ (bit v.toNat 0 ∧ !s.strict) then s.detRefuse
  else
    let sh := watchShift (bits v.toNat 12 8)
    (.done, { s with twin := { s.twin with cfg := BitVec.ofNat 32 (v.toNat % 32 + 256 * sh) } })

end Sys2Proof.Machine
end

