-- ==== Sys2Proof/Machine/Outputs.lean ====
section
/-! DEFINITION. Tickets and outputs at the hub (R445 to R450), and packets that reach the hub (R303, R371, R381). -/

namespace Sys2Proof.Machine

/-! ## Descriptors (R453) -/

def State.tktWord (s : State) (t w : Nat) : Nat := (wordOf s.host.tkt (4 * t + w)).toNat
def State.outWord (s : State) (o w : Nat) : Nat := (wordOf s.host.outd (2 * o + w)).toNat

/-- The target of a ticket descriptor: none when its virtual core has no place. -/
def State.tktTarget (s : State) (t : Nat) : Option HubTarget :=
  (s.finCore (bits (s.tktWord t 1) 9 0)).map fun k =>
    { core := k, handle := bits (s.tktWord t 0) 15 0, slot := bits (s.tktWord t 0) 18 16 }

def State.outValid (s : State) (o : Nat) : Bool := bit (s.outWord o 0) 31
def State.outCore (s : State) (o : Nat) : Option Nat := s.finCore (bits (s.outWord o 1) 9 0)
def State.outLines (s : State) (o : Nat) : Nat := bits (s.outWord o 1) 26 10 + 1

/-! ## Tickets (R445 to R447) -/

/-- Bytes of a ticket. -/
def Ticket.size (t : Ticket) : Nat := 32 + 256 * t.lines

/-- Bytes taken in the 64 MiB ticket store. -/
def HostIf.ticketBytes (h : HostIf) : Nat := h.tickets.foldl (fun n t => n + t.size) 0

/-- The ticket as the host transport carried it. -/
def ticketBytes (pass : Word64) (tkt lines line : Nat) (tag : Word64) (data : List Byte) : List Byte :=
  natToBytes pass.toNat 8 ++ natToBytes tkt 2 ++ natToBytes (lines - 1) 2 ++ natToBytes line 4 ++ natToBytes tag.toNat 8
    ++ natToBytes 0 8 ++ data

/-- The status codes of R438. -/
def stOk : Nat := 0
def stUnmapped : Nat := 1
def stRefused : Nat := 2
def stBusy : Nat := 3
def stShadow : Nat := 4
def stLate : Nat := 5
def stEarly : Nat := 6
def stNotkt : Nat := 7
def stFull : Nat := 8
def stDenied : Nat := 9
def stMalformed : Nat := 10

/-- The list of pass p is closed (R446): p lies behind PASS_NUM, or its first attempt has started here. -/
def State.ticketLate (s : State) (p : Word64) : Bool :=
  decide (2 ^ 63 ≤ (p - s.bar.passNum).toNat) || s.host.listClosed == some p

/-- The first check of R446 that a ticket of the host fails. -/
def State.ticketStatus (s : State) (pass : Word64) (tkt lines line : Nat) : Nat :=
  if !s.anyAttached then stNotkt
  else if s.shadow then stShadow
  else if s.ticketLate pass then stLate
  else if bits s.host.ctrl.toNat 15 8 + 1 ≤ (pass - s.bar.passNum).toNat then stEarly
  else if !bit (s.tktWord tkt 0) 31 || decide (bits (s.tktWord tkt 2) 16 0 + 1 < line + lines) then stNotkt
  else if 67108864 < s.host.ticketBytes + 32 + 256 * lines then stFull
  else if s.jrnl.busy then stBusy
  else stOk

/-- An accepted ticket: its INPUT record, its place in the store (R404, R446). The record comes first. -/
def State.storeTicket (s : State) (pass : Word64) (tkt lines line : Nat) (tag : Word64) (data : List Byte) : Word64 × State :=
  let r := if s.jrnl.on then s.jrnl.rseq else 0
  let s := s.journal 2 pass (ticketBytes pass tkt lines line tag data)
  (r, s.modHost fun h => { h with tickets := h.tickets ++
    [{ pass := pass, tkt := tkt, lines := lines, line := line, tag := tag, rseq := r, data := data }] })

/-- A ticket of the host (R399, R446): the status and the RSEQ. A primary forwards what it accepts. -/
def State.takeTicket (s : State) (pass : Word64) (tkt lines line : Nat) (tag : Word64) (data : List Byte) : Nat × Word64 × State :=
  let st := s.ticketStatus pass tkt lines line
  if st = stOk then
    let r := s.storeTicket pass tkt lines line tag data
    (stOk, r.1, if s.twinOn then r.2.modHost fun h =>
      { h with forwarded := h.forwarded ++ [ticketBytes pass tkt lines line tag data] } else r.2)
  else (st, 0, if st = stShadow then s.hubFault 0x0908 0 else s)

/-- FORWARDED_TICKET: the shadow journals the ticket and will deliver it in order (R399). -/
def execForwardedTicket (pass : Word64) (tkt lines line : Nat) (tag : Word64) (data : List (BitVec 8)) (s : State) :
    Host.Outcome State Fault Refusal :=
  .next (if s.anyAttached && s.shadow && decide (1 ≤ lines) && data.length == 256 * lines then
      (s.storeTicket pass tkt lines line tag data).2 else s)

/-- The sender of a ticket descriptor (R447). -/
def State.tktSender (s : State) (t : Nat) : HubSender :=
  (keyGet s.host.senders t).getD { credit := bits (s.tktWord t 1) 25 10 }

/-- Mark the first ticket of the pass that is not sent. -/
def markSent (p : Word64) : List Ticket → List Ticket
  | [] => []
  | t :: r => if t.pass = p && !t.sent then { t with sent := true } :: r else t :: markSent p r

/-- TICKET_DELIVERY: the next ticket of the pass in RSEQ order, once credit covers it (R447). -/
def execTicketDelivery (s : State) : Host.Outcome State Fault Refusal :=
  .next (match if s.bar.phase = .run then s.host.tickets.find? fun t => t.pass == s.bar.passNum && !t.sent else none with
    | none => s
    | some t =>
      let x := s.tktSender t.tkt
      match s.tktTarget t.tkt with
      | none => s
      | some d =>
        if x.credit < t.lines then s
        else
          (s.modHost fun h =>
            { h with tickets := markSent s.bar.passNum h.tickets
                     senders := keyPut h.senders t.tkt { credit := x.credit - t.lines, mseq := x.mseq + 1 } }).hubMessage
            d x.mseq.toNat t.line t.lines false t.data)

/-! ## Output reservations (R448) -/

/-- Lines taken in the 256 MiB output store. -/
def HostIf.outputLines (h : HostIf) : Nat :=
  h.res.foldl (fun n o => n + if o.placed then o.lines else 0) 0 + h.outputs.foldl (fun n o => n + o.lines) 0

/-- The GRANT that keeps an output's credit at or below 65,535 outstanding. -/
def OutRes.due (o : OutRes) : Nat := min o.lines (o.received + 65535) - o.granted

/-- Send the grant that is due to output o. -/
def State.grantOutput (s : State) (o : OutRes) : OutRes × State :=
  match s.outCore o.id with
  | none => (o, s)
  | some k =>
    if !o.placed || o.due == 0 then (o, s)
    else
      let h := bits (s.outWord o.id 0) 15 0
      ({ o with granted := o.granted + o.due },
        s.inject .hub (s.creditPacket opGrant hubTgt s.route.me k h 0 o.due))

/-- Place the reservations that the store has room for, in ascending order, and grant them. -/
def State.placeOutputs (s : State) : List OutRes → State
  | [] => s
  | o :: r =>
    let fits := !o.placed && decide (s.host.outputLines + o.lines ≤ 1048576)
    let o' := if fits then { o with placed := true } else o
    let g := s.grantOutput o'
    (g.2.modHost fun h => { h with res := h.res.map fun x => if x.id = o.id then g.1 else x }).placeOutputs r

/-- After each start of a pass the hub reserves every VALID output (R448). -/
def State.startOutputs (s : State) : State :=
  let l : List OutRes := ((List.range 64).filter s.outValid).map fun o => { id := o, lines := s.outLines o }
  let s := s.modHost fun h => { h with res := l }
  s.placeOutputs l

/-- Room has appeared in the store. -/
def State.reviewOutputs (s : State) : State := s.placeOutputs (s.host.res.filter fun o => !o.placed)

/-- The decision for the outputs of pass p (R332 step 8, R421, R426, R448): a failed attempt frees them; a succeeded one records and
releases them, a shadow only records them (R399). A marked output is never released. -/
def State.decideOutputs (s : State) (pass : Word64) (ok : Bool) : State :=
  let l := s.host.res
  let s := s.modHost fun h => { h with res := [] }
  if !ok then s
  else
    let s := l.foldl (fun s o => s.journalOutput pass o) s
    if s.shadow then s
    else s.modHost fun h => { h with outputs := h.outputs ++ (l.filter fun o => !o.poison).map fun o =>
      { pass := pass, id := o.id, lines := o.lines, cells := o.cells } }

/-! ## Release (R426, R449, R450) -/

/-- Bytes of IP and UDP headers before a datagram of a session. -/
def Session.overhead (x : Session) : Nat := (if x.v6 then 40 else 20) + 8

/-- The MTU in force on a port (R453). -/
def State.mtuOf (s : State) (e : Nat) : Nat := max 1280 (min 9216 ((s.host.eth.getD e {}).mtu.toNat))

/-- Lines of output n from line `off` on, as OUTPUT messages of at most m lines. -/
def State.sendLines (s : State) (o : Output) (off m : Nat) : Nat → State
  | 0 => s
  | fuel + 1 =>
    let n := min m (o.lines - off)
    if n = 0 then s
    else
      (s.notify 0x30 (natToBytes o.pass.toNat 8 ++ natToBytes o.id 2 ++ natToBytes 0 2 ++ natToBytes (o.lines - 1) 4
        ++ natToBytes off 4 ++ natToBytes 0 4 ++ cellRead o.cells (256 * off) (256 * n))).sendLines o (off + n) m fuel

/-- The session for outputs with a port that is up, and the lines that one message carries. -/
def State.outLink (s : State) : Option Nat :=
  match keyGet s.host.sessions (bits s.host.ctrl.toNat 2 0) with
  | none => none
  | some x => (s.sendPort x).map fun p => min 32 ((s.mtuOf p - x.overhead - 56) / 256)

/-- Replace output o. -/
def State.putOutput (s : State) (o n : Output) : State :=
  s.modHost fun h => { h with outputs := h.outputs.map fun x => if x = o then n else x }

/-- OUTPUT_RELEASE: the next output in the order of R426, once every line of the one before it was sent. -/
def execOutputRelease (s : State) : Host.Outcome State Fault Refusal :=
  .next (match s.host.outputs.find? fun o => decide (o.sent < o.lines), s.outLink with
    | some o, some m =>
      if s.jrnl.busy then s
      else (s.putOutput o { o with sent := o.lines, tick := s.tick }).sendLines o o.sent m o.lines
    | _, _ => s)

/-- OUTPUT_RESEND: the output that has waited longest without progress is sent again from line ACKED; the 16th resend records
0x0462 once. -/
def execOutputResend (s : State) : Host.Outcome State Fault Refusal :=
  .next (match (s.host.outputs.filter fun o => o.sent == o.lines).foldl (fun (m : Option Output) o => match m with
      | none => some o
      | some x => if o.tick < x.tick then some o else some x) none, s.outLink with
    | some o, some m =>
      let s := s.advanceTick (o.tick + bits s.host.ctrl.toNat 31 16 + 1)
      let warn := o.resends + 1 == 16 && !o.warned
      let s := (s.putOutput o { o with tick := s.tick, resends := o.resends + 1, warned := o.warned || warn }).sendLines o o.acked m o.lines
      if warn then s.hubFault 0x0462 (pack [(16, o.id)]) else s
    | _, _ => s)

/-- OACK (R437, R449): lines held in order; an output leaves the store when all are. -/
def State.takeOack (s : State) (pass : Word64) (id acked : Nat) : State :=
  match s.host.outputs.find? fun o => o.pass == pass && o.id == id with
  | none => s
  | some o =>
    if acked ≤ o.acked then s
    else if o.lines ≤ acked then
      (s.modHost fun h => { h with outputs := h.outputs.filter fun x => x != o }).reviewOutputs
    else s.putOutput o { o with acked := acked, tick := s.tick, resends := 0 }

/-! ## Packets at the hub (R303, R381, R421, R447, R448) -/

/-- A drop at the hub. -/
def State.hubDrop (p : Packet) (code : Nat) (s : State) : State := s.hubFault code (pack [(12, p.chan.tidx)])

/-- The reservation that an output packet is for: its handle must be open with generation 0. -/
def State.resFor (s : State) (p : Packet) : Option OutRes :=
  if p.chan.tgen = 0 ∧ p.chan.tidx < 64 then s.host.res.find? fun o => o.id == p.chan.tidx else none

/-- Whether SLOT, SRC and SCORE name the sender of an output (step 2). -/
def State.fromSender (s : State) (p : Packet) (core : Option Nat) (slot : Nat) : Bool :=
  p.chan.slot == slot && p.src == s.route.me && core == some p.chan.score

/-- The words of a packet's payload in the output store, and whether one is poisoned (R421). -/
def putOutLines (cells : List Host.Cell) (p : Packet) : List Host.Cell :=
  cellWrite cells (256 * p.chan.off) ((List.range (p.chan.n + 1)).flatMap fun j => wordBytes (p.lineOf j))

def Packet.poisoned (p : Packet) : Bool := p.linesOf.any fun l => l.any (·.poison)

/-- Whether the entry that a packet names at the hub is open (step 1, R381). -/
def State.hubOpen (s : State) (p : Packet) : Bool :=
  let c := p.chan
  (s.resFor p).isSome || (c.tgen == 0 && ((decide (0x400 ≤ c.tidx ∧ c.tidx < 0x500) && bit (s.tier2Word (c.tidx - 0x400) 0) 31)
    || (decide (0x800 ≤ c.tidx ∧ c.tidx < 0x900) && bit (s.tktWord (c.tidx - 0x800) 0) 31)))

/-- A packet that fits no entry of the hub: step 1 or step 2 drops it. -/
def State.hubOther (p : Packet) (s : State) : State := s.hubDrop p (if s.hubOpen p then 0x0416 else 0x0415)

/-- PUT at the hub: an output packet. -/
def State.hubPut (p : Packet) (s : State) : State :=
  let c := p.chan
  match s.resFor p with
  | none => s.hubOther p
  | some o =>
    if !s.fromSender p (s.outCore o.id) 0 || c.acc then s.hubDrop p 0x0416
    else if o.lines < c.off + c.n + 1 then s.hubDrop p 0x0416
    else if o.granted < o.received + c.n + 1 then s.hubDrop p 0x0417
    else
      let bad := p.poisoned
      let n : OutRes := { o with received := o.received + c.n + 1, cells := putOutLines o.cells p, poison := o.poison || bad }
      let g := s.grantOutput n
      let s := g.2.modHost fun h => { h with res := h.res.map fun x => if x.id = o.id then g.1 else x }
      if bad && !o.poison then s.hubFault 0x0450 (pack [(10, c.score), (6, o.id)]) else s

/-- REQ at the hub is dropped and answered with ERR and poison (R311). -/
def State.hubReq (p : Packet) (s : State) : State :=
  let c := p.chan
  (s.hubOther p).inject .hub (chanPacket clsRpl 0 p.src c.score s.route.me false
    { op := opRpl, tidx := hIndex c.rhandle, tgen := hGen c.rhandle, mseq := c.mseq, pkt := c.pkt, last := c.last
      err := true, off := c.dline, n := c.n, dline := c.dline, rhandle := c.rhandle } (poisonBody (32 * (min c.n 15 + 1))))

/-- GRANT at the hub, for a tier-2 stream or a ticket window (R305, R381, R447). Of a stream that has stopped it changes nothing (R382). -/
def State.hubGrant (p : Packet) (s : State) : State :=
  let c := p.chan
  if c.tgen ≠ 0 then s.hubDrop p 0x0415
  else if 0x400 ≤ c.tidx ∧ c.tidx < 0x500 then
    let n := c.tidx - 0x400
    if !bit (s.tier2Word n 0) 31 then s.hubDrop p 0x0415
    else if !s.fromSender p (s.streamCore n) (bits (s.tier2Word n 0) 18 16) then s.hubDrop p 0x0416
    else match keyGet s.fin.runs n with
    | none => s
    | some r =>
      let top := bits (s.tier2Word n 1) 25 10
      let s' := s.modRun n fun r => { r with credit := min (r.credit + c.off) top }
      if top < r.credit + c.off then s'.hubDrop p 0x0417 else s'
  else if 0x800 ≤ c.tidx ∧ c.tidx < 0x900 then
    let t := c.tidx - 0x800
    let x := s.tktSender t
    let top := bits (s.tktWord t 1) 25 10
    if !bit (s.tktWord t 0) 31 then s.hubDrop p 0x0415
    else if !s.fromSender p ((s.tktTarget t).map (·.core)) (bits (s.tktWord t 0) 18 16) then s.hubDrop p 0x0416
    else
      let s' := s.modHost fun h => { h with senders := keyPut h.senders t { x with credit := min (x.credit + c.off) top } }
      if top < x.credit + c.off then s'.hubDrop p 0x0417 else s'
  else s.hubOther p

/-- YIELD at the hub: credit of an output that its sender returns. -/
def State.hubYield (p : Packet) (s : State) : State :=
  match s.resFor p with
  | none => s.hubOther p
  | some o =>
    if !s.fromSender p (s.outCore o.id) 0 then s.hubDrop p 0x0416
    else s.modHost fun h => { h with res := h.res.map fun x => if x.id = o.id then { x with yielded := x.yielded + p.chan.off } else x }

/-- A packet with a reserved OP, at a core or at the hub, is dropped at step 2 (R303, R371). -/
def reservedOp (op : Nat) : Bool := op == 0 || decide (0xC ≤ op)

/-- Channel traffic of class CTL reaches no hub handler: CTL at the hub is a wave (R328). -/
def State.arriveOp (s : State) (i op : Nat) (core : Nat → Packet → State → State) (hub : Packet → State → State) : State :=
  match s.mesh.items[i]? with
  | none => s
  | some t => if t.exit == some .hub && t.pkt.cls == clsCtl then s
    else s.arrival i (fun o => o == op || (op == opPut && reservedOp o) || (op == opPut && decide (8 ≤ o) && t.exit != some .hub)) core hub

/-- Packet i when it has arrived at the hub. -/
def State.atHub (s : State) (i op : Nat) (hub : Packet → State → State) : State :=
  match s.mesh.items[i]? with
  | none => s
  | some t => if t.exit == some .hub then s.arriveOp i op (fun _ _ s => s) hub else s

/-- PUT: packet i, or a packet whose OP has no meaning where it arrives. -/
def execPut (i : Nat) (s : State) : Host.Outcome State Fault Refusal :=
  .next (s.arriveOp i opPut (fun k p s => State.corePut s k p) fun p s =>
    if p.chan.op = opPut then s.hubPut p else s.hubDrop p 0x0416)
/-- TUP. -/
def execTup (i : Nat) (s : State) : Host.Outcome State Fault Refusal :=
  .next (s.arriveOp i opTup (fun k p s => State.coreTup s k p) fun p s => s.hubOther p)
/-- RING. -/
def execRing (i : Nat) (s : State) : Host.Outcome State Fault Refusal :=
  .next (s.arriveOp i opRing (fun k p s => State.coreRing s k p) fun p s => s.hubOther p)
/-- REQ. -/
def execReq (i : Nat) (s : State) : Host.Outcome State Fault Refusal :=
  .next (s.arriveOp i opReq (fun k p s => State.coreReq s k p) fun p s => s.hubReq p)
/-- RPL. -/
def execRpl (i : Nat) (s : State) : Host.Outcome State Fault Refusal :=
  .next (s.arriveOp i opRpl (fun k p s => State.coreRpl s k p) fun p s => s.hubOther p)
/-- GRANT. -/
def execGrant (i : Nat) (s : State) : Host.Outcome State Fault Refusal :=
  .next (s.arriveOp i opGrant (fun k p s => State.coreGrant s k p) fun p s => s.hubGrant p)
/-- YIELD. -/
def execYield (i : Nat) (s : State) : Host.Outcome State Fault Refusal :=
  .next (s.arriveOp i opYield (fun k p s => State.coreYield s k p) fun p s => s.hubYield p)
/-- SREQ. -/
def execSreq (i : Nat) (s : State) : Host.Outcome State Fault Refusal :=
  .next (s.atHub i 8 fun p s => s.hubSreq p)
/-- SDATA. -/
def execSdata (i : Nat) (s : State) : Host.Outcome State Fault Refusal :=
  .next (s.atHub i 9 fun p s => s.hubSdata p)
/-- SNONE. -/
def execSnone (i : Nat) (s : State) : Host.Outcome State Fault Refusal :=
  .next (s.atHub i 0xA fun p s => s.hubSnone p)

end Sys2Proof.Machine
end

