-- ==== Sys2Proof/Machine/Barrier.lean ====
section
/-! DEFINITION. The barrier unit: waves, decisions, COMMIT, the blank, the start of a pass, its watchdogs (R324 to R342). -/

namespace Sys2Proof.Machine

/-! ## Cores of the job -/

def State.attachedCores (s : State) : List Nat := (s.cores.filter fun c => c.2.ctl.attached).map (·.1)

/-- Apply f at every attached core, in ascending order. -/
def State.eachAttached (s : State) (f : State → Nat → State) : State := s.attachedCores.foldl f s

/-- A core whose clock runs again at cycle t: CORE_CYCLE goes on from where it stopped (R154). -/
def Core.resume (c : Core) (t : Nat) : Core :=
  match c.ctl.stopAt with
  | none => c
  | some u => c.modCtl fun r => { r with stopAt := none, cycleBase := r.cycleBase + (t - u) }

/-- The power domain of core group g (R463). -/
def groupDomain (g : Nat) : Nat := 30 * (g / 24) + g % 24

/-- Retention idle: every core group is in RETAIN or OFF (R467). -/
def State.retIdle (s : State) : Bool :=
  s.power.mainOn && (List.range 96).all fun g => s.group g == .retain || s.group g == .off

/-- The crossings are aligned to fresh offsets, from tick t on (R233). -/
def State.alignFrom (s : State) (t : Nat) : State :=
  { s with mesh := { s.mesh with offsets := s.freeCtr, realignAt := t }, freeCtr := s.freeCtr + 4096 }

/-- A core group leaves its sleep: when the module was in retention idle, every crossing realigns. The spec bounds the time by 20 ticks;
the model takes 20 (DESIGN CHOICE, log 22). -/
def State.leaveIdle (s : State) : State := if s.retIdle then s.alignFrom (s.tick + 20) else s

/-- A core group turns ON (R465, R473). -/
def State.groupOn (s : State) (g : Nat) : State :=
  let s := s.leaveIdle
  ({ s with power := { s.power with groups := keyDel s.power.groups g } } : State).noteOn (groupDomain g)

/-- A wake event restarts core k from STOP or RETAIN (R154, R465). -/
def State.wakeCore (s : State) (k : Nat) : State :=
  if s.power.stopped.contains k then
    let s := if s.group (groupOf k) == .retain then s.groupOn (groupOf k) else s
    ({ s with power := { s.power with stopped := s.power.stopped.filter (· != k) } } : State).modCore k fun c => c.resume s.now
  else s

/-! ## The job's box (R329, R341, R343) -/

def Barrier.origin (b : Barrier) (a : Nat) : Nat :=
  if a = 0 then bits b.box.toNat 4 0 else if a = 1 then bits b.box.toNat 8 5 else bits b.box.toNat 12 9

/-- Benches along axis a. -/
def Barrier.extent (b : Barrier) (a : Nat) : Nat :=
  (if a = 0 then bits b.box.toNat 17 13 else if a = 1 then bits b.box.toNat 21 18 else bits b.box.toNat 25 22) + 1

def Barrier.wraps (b : Barrier) (a : Nat) : Bool := bit b.cfg.toNat (8 + a)

def Barrier.slots (b : Barrier) : List Nat := (List.range 8).filter fun t => bit b.cfg.toNat t

/-- The place of a module field on axis a, counted from the origin of the box. -/
def State.boxPlace (s : State) (m a : Nat) : Nat := (modAxis m a + s.route.dim a - s.bar.origin a) % s.route.dim a

/-- Whether BAR_BOX contains the bench of a module field. -/
def State.inBox (s : State) (m : Nat) : Bool := [0, 1, 2].all fun a => decide (s.boxPlace m a < s.bar.extent a)

/-- Modules of the job. -/
def Barrier.modules (b : Barrier) : Nat := b.slots.length * b.extent 0 * b.extent 1 * b.extent 2

/-! ## Contributions (R328) -/

/-- Whether PASS_ATTEMPT has reached RERUN_MAX (R424). -/
def State.atLimit (s : State) : Bool := decide (s.faults.rerunMax ≤ s.faults.attempt.toNat)

/-- The contribution of this module to a wave of a kind (1 PART, 2 HOLD). -/
def State.contribution (s : State) (kind : Nat) : Contrib :=
  let b := s.bar
  if kind = 2 then { mods := 1, hold := b.hold }
  else
    { passMin := b.passNum, passMax := b.passNum, inj := b.inj, sink := b.sink, mods := 1
      fail := b.fail || b.drainx || b.settled, drainx := b.drainx, hold := b.hold
      holdf := b.holdOnFail || s.atLimit, noPend := !s.fin.activate
      notReady := !(s.fin.slots.any fun e => e.state == .verified), settled := b.settled }

/-- Totals combined field by field. -/
def Contrib.add (x y : Contrib) : Contrib :=
  { passMin := if y.passMin.toNat < x.passMin.toNat then y.passMin else x.passMin
    passMax := if x.passMax.toNat < y.passMax.toNat then y.passMax else x.passMax
    inj := x.inj + y.inj, sink := x.sink + y.sink, mods := x.mods + y.mods
    fail := x.fail || y.fail, drainx := x.drainx || y.drainx, hold := x.hold || y.hold, holdf := x.holdf || y.holdf
    noPend := x.noPend || y.noPend, notReady := x.notReady || y.notReady, settled := x.settled || y.settled }

/-- Word 7 of a wave packet. -/
def Contrib.flags (x : Contrib) : Nat :=
  pack [(17, x.mods), (1, flag x.fail), (1, flag x.drainx), (1, flag x.hold), (1, flag x.holdf), (1, flag x.noPend),
    (1, flag x.notReady), (1, flag x.settled)]

/-- A wave packet (R328): the stage, the direction of travel, HOPS, the ORIGIN and its total. -/
def State.wavePacket (s : State) (dmod kind stage dir hops origin : Nat) (wave : Word32) (x : Contrib) : Packet :=
  { hdr := [headerWord clsCtl 1 0 dmod hubTgt s.route.me false,
      BitVec.ofNat 64 (pack [(4, kind), (2, stage), (1, dir), (5, hops), (4, 0), (16, origin), (32, wave.toNat)]),
      BitVec.ofNat 64 s.bar.jobTag.toNat, x.passMin, x.passMax, x.inj, x.sink, BitVec.ofNat 64 x.flags] }

def Packet.waveKind (p : Packet) : Nat := bits (p.word 1) 3 0
def Packet.waveStage (p : Packet) : Nat := bits (p.word 1) 5 4
def Packet.waveDir (p : Packet) : Nat := bits (p.word 1) 6 6
def Packet.waveHops (p : Packet) : Nat := bits (p.word 1) 11 7
def Packet.waveOrigin (p : Packet) : Nat := bits (p.word 1) 31 16
def Packet.waveNum (p : Packet) : Word32 := BitVec.ofNat 32 (bits (p.word 1) 63 32)

def Packet.waveTotal (p : Packet) : Contrib :=
  let w := p.word 7
  { passMin := BitVec.ofNat 64 (p.word 3), passMax := BitVec.ofNat 64 (p.word 4), inj := BitVec.ofNat 64 (p.word 5)
    sink := BitVec.ofNat 64 (p.word 6), mods := bits w 16 0, fail := bit w 17, drainx := bit w 18, hold := bit w 19
    holdf := bit w 20, noPend := bit w 21, notReady := bit w 22, settled := bit w 23 }

/-! ## Stages (R329) -/

/-- A module field with another coordinate along axis a, and with another slot. -/
def withAxis (m a v : Nat) : Nat :=
  pack [(5, if a = 0 then v else modX m), (4, if a = 1 then v else modY m), (4, if a = 2 then v else modZ m), (3, modSlot m)]
def withSlot (m t : Nat) : Nat := m % 8192 + 8192 * t

/-- The neighbour along axis a: direction 0 is +, 1 is −. -/
def State.neighbour (s : State) (a dir : Nat) : Nat :=
  let n := s.route.dim a
  withAxis s.route.me a ((modAxis s.route.me a + (if dir = 0 then 1 else n - 1)) % n)

/-- How far a total of this hub travels along axis a. -/
def State.reach (s : State) (a dir : Nat) : Nat :=
  let n := s.bar.extent a
  if s.bar.wraps a then (if dir = 0 then n / 2 else (n + 1) / 2 - 1)
  else if dir = 0 then n - 1 - s.boxPlace s.route.me a else s.boxPlace s.route.me a

/-- Totals that a stage waits for. -/
def Barrier.expected (b : Barrier) (stage : Nat) : Nat := if stage = 0 then b.slots.length - 1 else b.extent (stage - 1) - 1

/-- The packets with which a stage starts. -/
def State.sendStage (s : State) : State :=
  let b := s.bar
  let me := s.route.me
  if b.stage = 0 then
    (b.slots.filter (· != modSlot me)).foldl (fun (s : State) t =>
      s.inject .hub (s.wavePacket (withSlot me t) b.kind 0 0 0 me b.wave b.total)) s
  else if b.stage < 4 then
    [0, 1].foldl (fun (s : State) d =>
      let h := s.reach (b.stage - 1) d
      if h = 0 then s
      else s.inject .hub (s.wavePacket (s.neighbour (b.stage - 1) d) b.kind b.stage d (h - 1) me b.wave b.total)) s
  else s

/-- The totals held for the stage in progress. -/
def Barrier.arrived (b : Barrier) : List Got := b.got.filter fun g => g.wave == b.wave && g.stage == b.stage

/-- Run the stages for which every total is held. Stage 4 is the result. -/
def State.runStages (s : State) : Nat → State
  | 0 => s
  | n + 1 =>
    let b := s.bar
    if 4 ≤ b.stage ∨ b.arrived.length < b.expected b.stage then s
    else
      ((s.modBar fun b => { b with total := b.arrived.foldl (fun x g => x.add g.total) b.total
                                   stage := b.stage + 1 }).sendStage).runStages n

/-- Launch the next wave (R327): the contribution is taken at this moment. -/
def State.launch (s : State) (kind : Nat) : State :=
  let x := s.contribution kind
  ((s.modBar fun b =>
    { b with wave := b.wave + 1, kind := kind, going := true, stage := 0, total := x, contributed := kind == 1
             launchTick := s.tick, partWaves := if kind = 1 then b.partWaves + 1 else b.partWaves, again := false, rehold := false
             got := b.got.filter fun g => g.wave == b.wave + 1 }).sendStage).runStages 5

/-- Whether a total for the wave after the present one is held. -/
def Barrier.next (b : Barrier) : Bool := b.got.any fun g => g.wave == b.wave + 1

/-! ## The decision (R330) -/

/-- What a result decides. -/
inductive Decision where
  | succeeded
  | failed (undrained desync : Bool)
  | none
deriving DecidableEq, Repr

/-- The first row of R330 that applies. -/
def Barrier.decision (b : Barrier) : Decision :=
  let x := b.total
  let odd := b.got.any fun g => g.wave == b.wave && g.kind != b.kind
  if x.passMin ≠ x.passMax ∨ x.mods ≠ b.modules ∨ odd then .failed false true
  else if x.settled then .failed false false
  else if x.inj = x.sink then (if x.fail then .failed false false else .succeeded)
  else if x.drainx then .failed true false
  else .none

/-- DETAIL of a barrier fault: module field and wave number (R342, R416). -/
def State.barDetail (s : State) : Nat := pack [(16, s.route.me), (32, s.bar.wave.toNat)]

/-- BAR_STATUS.PHASE. -/
def Phase.num : Phase → Nat
  | .detached => 0
  | .held => 1
  | .blank => 2
  | .run => 3
  | .parting => 4
  | .commit => 5
  | .lost => 6

/-- The notice of a phase entered (R451). -/
def State.phaseEvent (s : State) : State := s.event 3 (natToBytes s.bar.phase.num 1 ++ natToBytes 0 7)

/-- The module enters HELD. -/
def State.enterHeld (s : State) : State := (s.modBar fun b => { b with phase := .held }).phaseEvent

/-- The module enters BLANK: faults that were recorded for the next pass count for it now (R331). -/
def State.enterBlank (s : State) : State :=
  s.modBar fun b => { b with phase := .blank, blanked := false, fail := b.failNext, failNext := false }

/-! ## COMMIT in a core (R76, R77, R332 to R334) -/

/-- Whether two valid entries of one memory overlap. -/
def regionsMeet (x y : Region) : Bool :=
  regValid x.w0 && regValid y.w0 && x.stock == y.stock && runsMeet x.base x.cap y.base y.cap

def anyMeet : List Region → Bool
  | [] => false
  | x :: r => r.any (regionsMeet x) || anyMeet r

/-- The check of one valid entry (R77). -/
def Region.sound (r : Region) : Bool :=
  !regValid r.w0 || (kindLegal r.stock r.kind && decide (r.base + r.cap ≤ if r.stock then stockLines else scrLines)
    && decide (r.commit ≤ r.cap))

/-- A table passes its check (R77). -/
def tableOk (rs : List Region) : Bool := rs.all Region.sound && !anyMeet rs

/-- RETAIN of a REGION_NEXT entry. -/
def RegionNext.retain (x : RegionNext) : Bool := bit x.w2.toNat 31

/-- The entry that REGION_NEXT[n] makes of the active entry n (R76). -/
def RegionNext.taken (x : RegionNext) (a : Region) : Region :=
  let n := if x.retain then a.commit else bits x.w2.toNat 19 0
  { w0 := x.w0, w1 := x.w1, commit := n, high := n }

/-- Whether an entry with RETAIN matches its active entry (R77). -/
def RegionNext.matches (x : RegionNext) (a : Region) : Bool :=
  !x.retain || !regValid x.w0 || (regValid a.w0 && regStock x.w0 == regStock a.w0 && regBase x.w0 == regBase a.w0)

/-- The end of the pass for an APPEND entry: commit or truncate. -/
def Region.part (r : Region) (ok : Bool) : Region :=
  if r.valid && r.kind == kindAppend then (if ok then { r with commit := r.high } else { r with high := r.commit }) else r

/-- REGION_NEXT reloaded from an entry. -/
def Region.reload (r : Region) : RegionNext := { w0 := r.w0, w1 := r.w1, w2 := BitVec.ofNat 32 r.commit }

/-- The table after step 1 of R76: a table that failed its check has no valid entry in the pass that ends (R77). -/
def MemRegs.parted (m : MemRegs) (ok : Bool) : List Region :=
  if m.regionsVoid then m.regions else m.regions.map fun r => r.part ok

/-- Step 2 in core k, and whether REGION_NEXT was applied. The failed check of a table holds for its pass alone (R77). -/
def State.commitRegions (s : State) (k : Nat) (ok : Bool) : Bool × State :=
  let m := (s.core k).regs
  let rs := m.parted ok
  let s := s.modCore k fun c => c.modRegs fun m => { m with regionsVoid := false }
  if !ok then
    (false, s.modCore k fun c => c.modRegs fun m => { m with regions := rs, next := rs.map Region.reload, apply := false })
  else if !m.apply then (false, s.modCore k fun c => c.modRegs fun m => { m with regions := rs })
  else
    let z := m.next.zip rs
    let new := z.map fun x => x.1.taken x.2
    if tableOk new && z.all fun x => x.1.matches x.2 then
      (true, s.modCore k fun c => c.modRegs fun m => { m with regions := new, apply := false, applyFailed := false })
    else
      (false, (s.modCore k fun c => c.modRegs fun m => { m with regions := rs, apply := false, applyFailed := true }).faultCore
        k 0 0x030E 0)

/-- Steps 2, 3 and 5 in core k. -/
def State.commitCore (s : State) (ok : Bool) (k : Nat) : Bool × State :=
  let a := s.commitRegions k ok
  if !ok then a
  else
    let r := (a.2.core k).ctl
    let role := r.roleNext != r.roleCur
    (a.1 || role, a.2.modCore k fun c =>
      let c := c.modCtl fun r => { r with bankActive := r.bankNext, roleCur := r.roleNext }
      if role then c.modChan Chan.closeAll else c)

/-- Steps 2, 3 and 5 in every attached core; the first result tells that the layout changed (R403). -/
def State.commitCores (s : State) (ok : Bool) : List Nat → Bool × State
  | [] => (false, s)
  | k :: r =>
    let a := s.commitCore ok k
    let t := a.2.commitCores ok r
    (a.1 || t.1, t.2)

/-! ## COMMIT (R332, R335) -/

/-- Step 6: the latch when the wave agrees, and the releases that are due (R364). -/
def State.commitEditions (s : State) (x : Contrib) : State :=
  let s := if !x.noPend && !x.notReady then s.latch else s
  let s := if s.fin.release0 && (s.edSlot 0).state == .resident then s.releaseSlot 0 else s
  if s.fin.release1 && (s.edSlot 1).state == .resident then s.releaseSlot 1 else s

/-- The bank in force of each attached core, in virtual order. -/
def State.banks (s : State) : List Nat := s.virtualCores.map fun c => c.2.ctl.bankActive

/-- The banks that some core has switched to, in ascending order. -/
def switched (old new : List Nat) : List Nat := [0, 1].filter fun b => (old.zip new).any fun x => x.1 != b && x.2 == b

/-- A switch to bank b: its PROGRAM record, and 0x0903 when it is not sealed, with a journal or without one (R403, R405). -/
def State.noteSwitch (s : State) (b : Nat) : State :=
  let s := s.journalProgram s.bar.passNum b
  if (s.jrnl.sealedBank b).isNone then s.hubFault 0x0903 (pack [(1, b)]) else s

/-- Steps 2 to 8 with the journal records of R403, PASS_NUM having changed already. A failed pass writes only its PASSEND: a PATCH write before
it is told by the next LAYOUT (R404). -/
def State.applyDecision (s : State) (pass : Word64) (ok : Bool) (attempt : Nat) : State :=
  let x := s.bar.total
  let old := s.banks
  let r := s.commitCores ok s.attachedCores
  let s := r.2
  let moved := switched old s.banks
  let eds := s.fin.slots.map (·.state)
  let s := if ok then ({ s with route := { s.route with calActive := s.route.calNext } } : State).commitEditions x else s
  let s : State := { s with ports := s.ports.map fun p => { p with tx := { p.tx with cp := 0 } } }
  let s := moved.foldl State.noteSwitch s
  let s := if ok && (r.1 || s.jrnl.patched) then (s.journalLayout s.bar.passNum).modJrnl fun j => { j with patched := false } else s
  let s := if s.fin.slots.map (·.state) != eds && s.fin.slots.any (fun e => e.state == .admitted) && ok && !x.noPend && !x.notReady
    then s.journalEdition s.bar.passNum else s
  let s := s.decideOutputs pass ok
  let s := s.journalPassEnd pass ok attempt
  if ok then s.modHost fun h => { h with tickets := h.tickets.filter fun t => t.pass != pass } else s

/-- The failure record and notice (R418, R424). -/
def State.noticeFailed (s : State) (limited : Bool) : State :=
  let n := s.faults.attempt.toNat
  let s := if limited then s.recordNow 0x0270 (pack [(16, n)]) else s
  s.event 2 (natToBytes s.bar.passNum.toNat 8 ++ natToBytes n 2
    ++ natToBytes (pack [(1, flag s.bar.lastFailed), (1, flag s.bar.undrained), (1, flag s.bar.desync)]) 1 ++ natToBytes 0 5)

/-- Whether the job is to hold (R330). -/
def toHold (x : Contrib) (undrained desync : Bool) : Bool := x.hold || (x.fail && x.holdf) || undrained || desync

/-- COMMIT: the decision is applied (R332). A failed pass whose wave carries HOLDF records 0x0270 on every module when the re-run limit
set it (R424): this module knows it from its own limit, or from HOLDF with its own HOLD_ON_FAIL at 0. DEDUCED (log 28). -/
def State.commitPass (s : State) (ok undrained desync : Bool) : State :=
  let pass := s.bar.passNum
  let attempt := s.faults.attempt.toNat
  let x := s.bar.total
  let limited := !ok && x.holdf && (s.atLimit || !s.bar.holdOnFail)
  let hold := toHold x undrained desync
  let s := s.eachAttached fun s k => s.modCore k fun c => c.modCtl fun r => { r with twinLast := r.twinSum }
  let s := s.modBar fun b =>
    { b with phase := .commit, lastFailed := !ok, undrained := undrained, desync := desync
             waves := BitVec.ofNat 16 (min b.partWaves 65535), lastTicks := BitVec.ofNat 32 (min (s.tick - b.finishTick) (2 ^ 32 - 1))
             passNum := if ok then b.passNum + 1 else b.passNum, fail := false, drainx := false, settled := false
             firstDone := none, contributed := false, due := s.now + 32 }
  let s : State := { s with faults := { s.faults with attempt := if ok then 0 else satInc s.faults.attempt 1 } }
  let s := s.applyDecision pass ok attempt
  let s : State := { s with twin := { s.twin with got := [], differs := false } }
  let s := if ok then s else s.noticeFailed limited
  if hold then (s.advance s.bar.due).enterHeld else s

/-- The result of a wave is held: the decision, or the next wave (R327, R330). A job of one module launches no wave on its
own account after one without a decision, since nothing of it has changed. -/
def State.settle (s : State) : State :=
  let s := s.modBar fun b => { b with going := false }
  let b := s.bar
  if b.kind = 2 then
    (if !b.total.hold then s.enterBlank else if b.rehold || b.next then s.launch 2 else s)
  else
    match b.decision with
    | .succeeded => s.commitPass true false false
    | .failed u d =>
      let s := if d then s.recordNow 0x0262 (pack [(32, b.wave.toNat), (16, s.route.me)]) else s
      s.commitPass false u d
    | .none =>
      let s := s.modBar fun b => { b with fail := b.fail || b.failNext, failNext := false, contributed := false
                                          firstDone := some (b.firstDone.getD s.tick) }
      if b.modules ≤ 1 then s.modBar fun b => { b with again := true } else s.launch 1

/-- After a decision that holds, a HOLD wave that others launched is joined (R327). -/
def State.joinHeld (s : State) : State :=
  if s.bar.phase == .held && !s.bar.going && s.bar.next then s.launch 2 else s

/-- Settle every result that is held. -/
def State.waves (s : State) : Nat → State
  | 0 => s
  | n + 1 => if s.bar.going && decide (4 ≤ s.bar.stage) then (s.settle.joinHeld).waves n else s

/-- Launch a wave and settle what can be settled. -/
def State.launchWave (s : State) (kind : Nat) : State := (s.launch kind).waves 4

/-! ## The end of a pass (R325, R327, R400) -/

/-- Whether a core is finished, its channel unit included. -/
def Core.finished (c : Core) : Bool :=
  (allEngines.all fun e => (c.stream e).state == .ended || (c.stream e).state == .abandoned) && !c.inFlight
    && !(c.chan.yields.any fun y => y.entry.kind != kRdwinReq)

/-- Whether the module is finished (R325): packets of the pass that have reached the hub have been taken in. -/
def State.finished (s : State) : Bool :=
  s.bar.phase == .run && s.attachedCores.all (fun k => (s.core k).finished && s.group (groupOf k) != .failed)
    && !(s.mesh.items.any fun t => t.exit == some .hub && t.pkt.counted && decide (t.due ≤ s.now))

/-- MODULE_FINISHED: the streams of Finfin stop, the twin summary leaves, and the first PART wave is launched, in twin mode
once the partner's summary is held (R325, R327, R400). -/
def execModuleFinished (s : State) : Host.Outcome State Fault Refusal :=
  .next (if !s.finished then s
    else
      let s := s.stopStreams
      let s := s.eachAttached fun s k => s.modCore k fun c => c.modCtl fun r => { r with twinLast := r.twinSum }
      let s := s.modBar fun b => { b with phase := .parting, finishTick := s.tick, partWaves := 0, firstDone := none
                                          contributed := false, waitTwin := s.twinOn }
      if !s.twinOn then s.launchWave 1
      else
        let s := s.sendSummary
        match s.summary with
        | none => s
        | some d => ((s.compareTwin d).modBar fun b => { b with waitTwin := false }).launchWave 1)

/-- TSUM: packet i is a twin summary at the hub (R400, R401). -/
def execTsum (i : Nat) (s : State) : Host.Outcome State Fault Refusal :=
  .next (s.atHub i 0xB fun p s =>
    let s := s.keepSummary p
    if !s.bar.waitTwin then s
    else match s.summary with
    | none => s
    | some d => ((s.compareTwin d).modBar fun b => { b with waitTwin := false }).launchWave 1)

/-- TWIN_WATCHDOG: the partner's summary is missing (R400, R401). -/
def execTwinWatchdog (s : State) : Host.Outcome State Fault Refusal :=
  .next (let sh := bits s.twin.cfg.toNat 12 8
    if s.bar.waitTwin && sh != 0 then
      ((s.advanceTick (s.bar.finishTick + 2 ^ sh)).twinMissing.modBar fun b => { b with waitTwin := false }).launchWave 1
    else s)

/-! ## Arrivals of waves (R327, R329, R342) -/

/-- A total travels on (R329). -/
def State.relay (s : State) (p : Packet) : State :=
  if p.waveStage = 0 ∨ p.waveHops = 0 then s
  else s.inject .hub (s.wavePacket (s.neighbour (p.waveStage - 1) p.waveDir) p.waveKind p.waveStage p.waveDir (p.waveHops - 1)
    p.waveOrigin p.waveNum p.waveTotal)

/-- Keep the total of a packet, once for its origin. -/
def State.keepTotal (s : State) (p : Packet) : State :=
  let g : Got := { wave := p.waveNum, kind := p.waveKind, stage := p.waveStage, origin := p.waveOrigin, total := p.waveTotal }
  if s.bar.got.any fun x => x.wave == g.wave && x.stage == g.stage && x.origin == g.origin then s
  else s.modBar fun b => { b with got := b.got ++ [g] }

/-- Whether this hub waits for or can keep a total of that wave: the wave in progress or the one after it; before the module attaches, the
first wave of its job, since ATTACH sets BAR_WAVE to 0 (R341). -/
def Barrier.wants (b : Barrier) (w : Word32) : Bool :=
  if b.phase = .detached then w == 1 else (w == b.wave && b.going) || w == b.wave + 1

/-- A wave packet at the hub. -/
def State.takeWave (s : State) (p : Packet) : State :=
  if BitVec.ofNat 64 s.bar.jobTag.toNat ≠ BitVec.ofNat 64 (p.word 2) ∨ !s.inBox p.waveOrigin
      ∨ !s.bar.slots.contains (modSlot p.waveOrigin) then s.hubFault 0x0263 s.barDetail
  else
    let s := s.relay p
    if !s.bar.wants p.waveNum then s
    else
      let s := s.keepTotal p
      if s.bar.phase == .lost then s
      else if s.bar.going then (s.runStages 5).waves 4
      else if s.bar.phase == .parting && !s.bar.waitTwin then s.launchWave 1
      else if s.bar.phase == .held then s.launchWave 2
      else s

/-- WAVE_CONTRIBUTION: packet i is a wave packet at the hub. With no such packet, a job of one module launches the wave that
follows one without a decision (R327). -/
def execWaveContribution (i : Nat) (s : State) : Host.Outcome State Fault Refusal :=
  .next (match s.mesh.items[i]? with
    | some t =>
      if t.exit == some .hub && t.pkt.cls == clsCtl then
        (if s.blocked i t || !s.arrives t then s else ((s.advance t.due).dropItem i).takeWave t.pkt)
      else if s.bar.again && s.bar.phase == .parting then s.launchWave 1 else s
    | none => if s.bar.again && s.bar.phase == .parting then s.launchWave 1 else s)

/-! ## Watchdogs (R342) -/

/-- Whether a parting waits for its decision: in PARTING, or in LOST with a PART wave pending. -/
def Barrier.undecided (b : Barrier) : Bool := b.phase == .parting || (b.phase == .lost && b.kind == 1)

/-- DRAIN_WATCHDOG: it runs in LOST as well, so that a restarted wave carries DRAINX. -/
def execDrainWatchdog (s : State) : Host.Outcome State Fault Refusal :=
  .next (let sh := bits s.bar.watch.toNat 4 0
    match s.bar.firstDone with
    | none => s
    | some t =>
      if s.bar.undecided && sh != 0 && !s.bar.drainx then
        let s := s.advanceTick (t + 2 ^ sh)
        (s.recordNow 0x0260 s.barDetail).modBar fun b => { b with drainx := true }
      else s)

/-- LOST_WATCHDOG: the module enters LOST and keeps the partial wave. -/
def execLostWatchdog (s : State) : Host.Outcome State Fault Refusal :=
  .next (let sh := bits s.bar.watch.toNat 12 8
    if s.bar.going && s.bar.phase != .lost && sh != 0 then
      let s := s.advanceTick (s.bar.launchTick + 2 ^ sh)
      ((s.hubFault 0x0261 s.barDetail).modBar fun b => { b with phase := .lost }).phaseEvent
    else s)

/-! ## The blank (R59 to R61, R77, R338) -/

/-- Whether scratchpad line l is spared by the zero-fill: the table taken as written (R59). -/
def Core.spared (c : Core) (l : Nat) : Bool :=
  c.regs.regions.any fun r => regValid r.w0 && !r.stock && (r.kind == kindAppend || r.kind == kindFrozen)
    && decide (r.base ≤ l) && decide (l < r.base + r.cap)

/-- The memories, engines and counters of a core at the start of a pass; the table and the bins are checked later. -/
def Core.blank (c : Core) : Core :=
  let init := if c.ctl.bankActive = 0 then c.ctl.syncInit0 else c.ctl.syncInit1
  { c with
    mem := { c.mem with scr := c.mem.scr.zero 4 fun w => !c.spared (w / 64), acc := {}, slotBanks := [], bankRuns := [] }
    regs := { c.regs with regions := c.regs.regions.map (fun r => { r with high := r.commit }), regionsVoid := false
                          islandConf := 0, svcForced := 0, appendPoisoned := [] }
    sync := { count := init.map (·.toNat) }
    mx := { rows := c.mx.rows, rowsLatch := c.mx.rowsLatch }
    vx := { vecs := c.vx.vecs, vecsLatch := c.vx.vecsLatch }
    dx := {}
    nx := { throttle := c.nx.throttle }
    sx := {}
    mxs := {}, vxs := {}, dxs := {}, nxs := {}, sxs := {}
    ctl := { c.ctl with twinSum := 0 } }

/-- The check of the table in force (R77). A table has no line address and no engine: DESIGN CHOICE, the 0x030E that R80 lists
holds ENGINE 0 and DETAIL 0 (log 12). -/
def State.checkTable (s : State) (k : Nat) : State :=
  if tableOk (s.core k).regs.regions then s
  else (s.modCore k fun c => c.modRegs fun m => { m with regionsVoid := true }).faultCore k 0 0x030E 0

/-- The shape that BIN_DESC declares, when it is enabled. -/
def Bin.shape (b : Bin) : Option BinShape :=
  let v := b.desc.toNat
  if bit v 31 then some { base := bits v 13 0, slotLines := bits v 21 14, slots := bits v 29 22 } else none

/-- Whether an enabled bin passes its check (R61): `others` are the other enabled bins. -/
def Core.binOk (c : Core) (x : BinShape) (others : List BinShape) : Bool :=
  decide (x.base + x.lines ≤ scrLines) && !(others.any fun y => runsMeet x.base x.lines y.base y.lines)
    && !(c.table.any fun r => r.meets false x.base x.lines)

/-- The bins at a blank, with the numbers of those that fail. -/
def Core.checkBins (c : Core) : List Bin × List Nat :=
  let shapes := (c.regs.bins.zipIdx.filterMap fun b => b.1.shape.map fun x => (b.2, x))
  let bad := (shapes.filter fun x => !c.binOk x.2 ((shapes.filter fun y => y.1 != x.1).map (·.2))).map (·.1)
  (c.regs.bins.zipIdx.map fun b => { desc := b.1.desc, live := if bad.contains b.2 then none else b.1.shape }, bad)

/-- The bins of core k at a blank. DESIGN CHOICE: the 0x030E of a bin holds ENGINE 0 and the bin number in DETAIL (log 12). -/
def State.blankBins (s : State) (k : Nat) : State :=
  let r := (s.core k).checkBins
  r.2.foldl (fun (s : State) n => s.faultCore k 0 0x030E (pack [(5, n)]))
    (s.modCore k fun c => c.modRegs fun m => { m with bins := r.1 })

/-- Whether a map's rectangle lies in the grid and contains core k (R238). -/
def vmapOk (m k : Nat) : Bool :=
  let w := bits m 14 10 + 1
  let h := bits m 19 15 + 1
  let pw := if bit m 20 then h else w
  let ph := if bit m 20 then w else h
  let ox := bits m 4 0
  let oy := bits m 9 5
  decide (ox + pw ≤ 32) && decide (oy + ph ≤ 24) && decide (ox ≤ k % 32) && decide (k % 32 < ox + pw) && decide (oy ≤ k / 32)
    && decide (k / 32 < oy + ph)

/-- The virtual-grid map at a blank (R238). -/
def State.checkVmap (s : State) (k : Nat) : State :=
  let m := (s.core k).ctl.gridVmap
  if !bit m.toNat 31 then s.modCore k fun c => c.modCtl fun r => { r with vmapLive := none, vmapBad := false }
  else if vmapOk m.toNat k then s.modCore k fun c => c.modCtl fun r => { r with vmapLive := some m, vmapBad := false }
  else (s.modCore k fun c => c.modCtl fun r => { r with vmapLive := none, vmapBad := true }).faultCore k 0 0x0432 0

/-- The contract that the bank in force declares (R218). -/
def Core.declared (c : Core) : Nat := (if c.ctl.bankActive = 0 then c.ctl.lcDecl0 else c.ctl.lcDecl1).toNat

/-- The contract check at a blank (R219). -/
def State.checkContract (s : State) (k : Nat) : State :=
  if (s.core k).declared = s.lc then s
  else s.faultCore k 0 0x0108 (pack [(8, (s.core k).declared), (8, s.lc)])

/-- The blank in core k, which the parting has woken (R154). -/
def State.blankCore (s : State) (k : Nat) : State :=
  let s := (s.wakeCore k).modCore k Core.blank
  ((((s.checkTable k).blankBins k).blankHandles k).checkVmap k).checkContract k

/-- BLANK: after COMMIT, or after a HOLD wave, every attached core returns to the starting state (R338). -/
def execBlank (s : State) : Host.Outcome State Fault Refusal :=
  .next (let s := if s.bar.phase == .commit then (s.advance s.bar.due).enterBlank else s
    if s.bar.phase == .blank && !s.bar.blanked then
      let start := s.now
      let s := s.eachAttached State.blankCore
      let s := s.checkStreams
      let s : State := { s with route := { s.route with seen := [] } }
      s.modBar fun b => { b with inj := 0, sink := 0, blanked := true, due := start + 1024 }
    else s)

/-! ## The start of a pass (R151, R219, R337) -/

/-- Every stream of core k at index 0, or ABANDONED when the declared contract is not in force. -/
def State.startCore (s : State) (k : Nat) : State :=
  let st : StreamState := if (s.core k).declared = s.lc then .run else .abandoned
  s.modCore k fun c => allEngines.foldl (fun c e => c.setStream e { state := st, ready := s.now }) c

/-- PASS_START: cycle S (R338). -/
def execPassStart (s : State) : Host.Outcome State Fault Refusal :=
  .next (if s.bar.phase == .blank && s.bar.blanked then
      let s := (s.advance s.bar.due).modBar fun b => { b with phase := .run }
      let s := s.eachAttached State.startCore
      let s := s.modHost fun h => { h with tickets := h.tickets.map (fun t => { t with sent := false }), senders := []
                                           listClosed := some s.bar.passNum }
      s.startOutputs
    else s)

end Sys2Proof.Machine
end

