-- ==== Sys2Proof/Machine/Mx.lean ====
section
/-! DEFINITION. The matrix engine: tile loads, multiplies, the accumulator file, ready stamps, the tally. -/

namespace Sys2Proof.Machine

/-! ## Tiles (R36, R82, R83) -/

/-- Data lines of a tile. -/
def tileData (fmt : Nat) : Nat := if fmt = fmtInt8 then 64 else if fmt = fmtInt4 then 32 else 16

/-- Lines of a tile: data, two scale lines, the check line (R82). -/
def tileLines (fmt : Nat) : Nat := tileData fmt + 3

/-- TL of R82. -/
def tilePorts (fmt : Nat) : Nat := if fmt = fmtInt8 then 17 else if fmt = fmtInt4 then 9 else 5

def Mx.tile (m : Mx) (b : Nat) : Tile := if b = 0 then m.t0 else m.t1
def Mx.setTile (m : Mx) (b : Nat) (t : Tile) : Mx := if b = 0 then { m with t0 := t } else { m with t1 := t }
def Mx.lastEntry (m : Mx) (b : Nat) : Option Nat := if b = 0 then m.lastEntry0 else m.lastEntry1
def Mx.setLastEntry (m : Mx) (b t : Nat) : Mx :=
  if b = 0 then { m with lastEntry0 := some t } else { m with lastEntry1 := some t }
def Mx.lastDone (m : Mx) (b : Nat) : Option Nat := if b = 0 then m.lastDone0 else m.lastDone1
def Mx.setLastDone (m : Mx) (b t : Nat) : Mx :=
  if b = 0 then { m with lastDone0 := some t } else { m with lastDone1 := some t }

/-- Weight w(k, n) of a tile (R36), in the format in which the tile was loaded: a later TLOAD that has issued does not change what
rows that still enter read (R84). -/
def Tile.weight (t : Tile) (k n : Nat) : Int :=
  let e := 128 * n + k
  let w := fmtBits t.held
  fmtValue t.held (bits (cellGet t.cells (e * w / 8)).toNat (e * w % 8 + w - 1) (e * w % 8))

/-- The 128 weights of column n. -/
def Tile.column (t : Tile) (n : Nat) : List Int := (List.range 128).map fun k => t.weight k n

/-- The four grain scales of column n (R36). -/
def Tile.scales (t : Tile) (n : Nat) : List Nat :=
  (List.range 4).map fun g => (cellGet t.cells (256 * tileData t.held + 4 * n + g)).toNat

/-- The check entries t(k) (R36). -/
def Tile.checks (t : Tile) : List Nat :=
  (List.range 128).map fun k =>
    bytesToNat (cellRead t.cells (256 * (tileData t.held + 2) + 2 * k) 2)

/-- Whether a byte holds the invalid ternary code (R32). -/
def byteInvalid (b : Byte) : Bool := (List.range 4).any fun i => bits b.toNat (2 * i + 1) (2 * i) == 2

/-- The first data line of a ternary tile that holds the invalid code 0b10 (R32): one entry is recorded, whatever the number
of such lines (DESIGN CHOICE, log 8). -/
def ternaryBad (cells : List Host.Cell) : Option Nat :=
  (List.range 16).find? fun l => cells.any fun c =>
    decide (256 * l ≤ c.1) && decide (c.1 < 256 * l + 256) && byteInvalid c.2

/-! ## The accumulator file (R94, R42) -/

/-- Where an accumulator row lies in the accumulator store. -/
def accRow (bank row : Nat) : Nat := 256 * bank + row

/-- The 128 lanes of a row. -/
def Core.accLanes (c : Core) (bank row : Nat) : List Int :=
  (List.range 128).map fun i => signed 40 (c.mem.acc.word (640 * accRow bank row + 5 * i) 5)

def Core.accPoison (c : Core) (bank row : Nat) : Bool := c.mem.acc.bad (accRow bank row)

/-- The 640 bytes of lanes (R42). -/
def laneBytes (ls : List Int) : List Byte := ls.flatMap fun v => natToBytes (wrapU 40 v) 5

/-- Unspecified bytes (R95). -/
def freeBytes (c n : Nat) : List Byte := (List.range n).map fun i => (Config.freeValue (c + i)).setWidth 8

/-- Write a row. A poisoned row carries unspecified lanes (R95). -/
def State.putAccRow (s : State) (k bank row : Nat) (bytes : List Byte) (p : Bool) : State :=
  let bs := if p then freeBytes s.freeCtr 640 else bytes
  let s := if p then { s with freeCtr := s.freeCtr + 640 } else s
  s.modCore k fun c => c.modMem fun m => { m with acc :=
    { m.acc with cells := cellWrite m.acc.cells (640 * accRow bank row) bs
                 poison := markSet m.acc.poison (accRow bank row) p } }

/-- Poison n rows of a bank (R105, R181). -/
def State.poisonRows (s : State) (k bank row : Nat) : Nat → State
  | 0 => s
  | n + 1 => (s.putAccRow k bank row [] true).poisonRows k bank (row + 1) n

/-! ## Ready stamps (R96 to R98) -/

def Core.stampOf (c : Core) (bank : Nat) : Stamp := c.mx.stamps.getD bank {}

def State.modStamp (s : State) (k bank : Nat) (f : Stamp → Stamp) : State :=
  s.modCore k fun c => c.modMx fun m => { m with stamps := modAt m.stamps bank f }

/-- READERS as a write check of cycle t sees it: without the reads that took their first row in that cycle; one that took its
last row in it counts (R98). -/
def Stamp.readersSeen (x : Stamp) (t : Nat) : Nat :=
  if x.readFall = some t then 1 else x.readers - (if x.riseCycle = t then x.rises else 0)

/-- A write issues on a bank: the write check (R97, R98), then WRITERS + 1. The first result tells that it met 0x0241. -/
def State.writeIssue (s : State) (k : Nat) (e : Engine) (index bank : Nat) : Bool × State :=
  let t := (s.core k).stampOf bank
  let bad := t.readersSeen s.now != 0
  let s := s.modStamp k bank fun t => { t with writers := t.writers + 1 }
  (bad, if bad then s.faultAt k e index 0x0241 (pack [(2, bank)]) else s)

/-- A write completes: WRITERS − 1. -/
def State.writeDone (s : State) (k bank : Nat) : State :=
  s.modStamp k bank fun t => { t with writers := t.writers - 1, writeFall := some s.now }

/-- The MMAs and DACWs on a bank that issue in the present cycle meet 0x0241 when a one-row read takes its row in it
(R98). -/
def MxOp.late (t bank : Nat) : MxOp → Bool
  | .mma o => o.bank == bank && o.issue == t && !o.stamp
  | .load _ => false

def MxOp.stampLate (t bank : Nat) : MxOp → MxOp
  | .mma o => if o.bank == bank && o.issue == t then .mma { o with stamp := true } else .mma o
  | .load o => .load o

def DxOp.late (t bank : Nat) (o : DxOp) : Bool := o.kind == .acw && o.bank == bank && o.issue == t && !o.stamp

/-- Record 0x0241 for the writers of the present cycle under a one-row read, and poison what they write (R98). -/
def State.lateWriters (s : State) (k bank : Nat) : State :=
  let c := s.core k
  let ms := c.mx.ops.filter (MxOp.late s.now bank)
  let ds := c.dx.ops.filter (DxOp.late s.now bank)
  let s := ms.foldl (fun s o => match o with
    | .mma o => s.faultAt k .mx o.owed.index 0x0241 (pack [(2, bank)])
    | .load _ => s) s
  let s := ds.foldl (fun s o => s.faultAt k .dx o.owed.index 0x0241 (pack [(2, bank)])) s
  s.modCore k fun c =>
    { c with mx := { c.mx with ops := c.mx.ops.map (MxOp.stampLate s.now bank) }
             dx := { c.dx with ops := c.dx.ops.map fun o => if o.late s.now bank then { o with stamp := true } else o } }

/-- A read takes its first row of a bank: the read check (R97, R98), then READERS + 1. The first result tells that it met
0x0240. `one`: the read takes its last row in the same cycle; `quiet`: it records nothing (R111). -/
def State.readFirst (s : State) (k : Nat) (e : Engine) (index bank : Nat) (one : Bool) (quiet : Bool := false) : Bool × State :=
  let t := (s.core k).stampOf bank
  let bad := t.writers != 0 || t.writeFall == some s.now
  let s := s.modStamp k bank fun t =>
    { t with readers := t.readers + 1, riseCycle := s.now, rises := (if t.riseCycle = s.now then t.rises else 0) + 1 }
  let s := if bad && !quiet then s.faultAt k e index 0x0240 (pack [(2, bank)]) else s
  (bad, if one then s.lateWriters k bank else s)

/-- Whether a read of accumulators may take its first row in the present cycle: MX and DX have issued what issues in it, since the read
check sees a write issue of its own cycle (R98). -/
def State.readTurn (s : State) (k : Nat) : Bool := !s.issuesBy k .mx s.now && !s.issuesBy k .dx s.now

/-- A read takes its last row: READERS − 1. -/
def State.readLast (s : State) (k bank : Nat) : State :=
  s.modStamp k bank fun t => { t with readers := t.readers - 1, readFall := some s.now }

/-! ## TLOAD (R82 to R85, R92, R170) -/

def tlBuf (w : Nat) : Nat := bits w 0 0
def tlFmt (w : Nat) : Nat := if bits w 3 1 ≥ 4 then fmtInt4 else bits w 3 1
def tlLine (w : Nat) : Nat := bits w 22 4

/-- Issue of a TLOAD: it takes the port after the load before it and after the last row entry of its buffer (R92). Lines that are
not wholly inside one valid stock region, outside the stock too, refuse it under 0x0306, with no instruction named (R85, R415). -/
def State.issueLoad (s : State) (k w : Nat) (o : Owed) (skipped : Bool) : State :=
  let f := tlFmt w
  let b := tlBuf w
  let bad := !skipped && ((s.core k).readCode true (tlLine w) (tileLines f)).isSome
  let s := if bad then s.faultCore k (engCode .mx) 0x0306 (pack [(19, tlLine w)]) else s
  let m := (s.core k).mx
  let start := max (s.now + 1) (max (after m.lastPort) (after (m.lastEntry b)))
  let op : LoadOp := { owed := o, buf := b, fmt := f, line := tlLine w, refused := skipped || bad, start := start
                       ports := tilePorts f }
  (s.setReady k .mx (s.now + 1)).modCore k fun c => c.modMx fun m =>
    { (m.setTile b { m.tile b with state := .loading, fmt := f }).setLastDone b (start + tilePorts f - 1) with
      ops := m.ops ++ [.load op], lastPort := some (start + tilePorts f - 1), tloadAt := some s.now }

/-- TLOAD (R82). -/
def execTload (k : Nat) (s : State) : Host.Outcome State Fault Refusal :=
  .next (s.issueOp k .mx (s.readyOf k .mx) (wantOp 1) fun w o skipped s => s.issueLoad k w o skipped)

/-- The first load in flight, when every MMA before it on its buffer has let its rows enter (R84). -/
def headLoad : List MxOp → List MmaOp → Option LoadOp
  | [], _ => none
  | .mma o :: r, before => headLoad r (o :: before)
  | .load l :: _, before =>
    if before.all fun o => o.buf != l.buf || o.refused || o.entered == o.count then some l else none

/-- Remove the first load. -/
def dropLoad : List MxOp → List MxOp
  | [] => []
  | .load _ :: r => r
  | .mma o :: r => .mma o :: dropLoad r

/-- Read the tile of a load (R82, R75): its bytes, whether a stock error poisons it. -/
def State.readTile (s : State) (k line : Nat) : Nat → List (PWord 32) × Bool × State
  | 0 => ([], false, s)
  | n + 1 =>
    let a := s.readStockLine k (engCode .mx) line
    let r := a.2.2.readTile k (line + 1) n
    (a.1 ++ r.1, a.2.1 || a.1.any (·.poison) || r.2.1, r.2.2)

/-- Whether a later load of the list names the buffer. -/
def loadPending (ops : List MxOp) (b : Nat) : Bool :=
  ops.any fun o => match o with
    | .load l => l.buf == b
    | .mma _ => false

/-- TLOAD_COMPLETE: the buffer becomes READY or poisoned, and the signals take effect (R85). -/
def execTloadComplete (k : Nat) (s : State) : Host.Outcome State Fault Refusal :=
  .next (match headLoad (s.core k).mx.ops [] with
    | none => s
    | some l =>
      let s := s.advance (l.start + l.ports - 1)
      let r := if l.refused then (([] : List (PWord 32)), true, s) else s.readTile k l.line (tileLines l.fmt)
      let cells := if l.refused then [] else cellWrite [] 0 (wordBytes r.1)
      let tern := if l.refused ∨ l.fmt ≠ fmtTernary then none else ternaryBad cells
      let s := match tern with
        | some i => r.2.2.faultCore k (engCode .mx) 0x0305 (pack [(19, l.line + i)])
        | none => r.2.2
      let s := s.modCore k fun c => c.modMx fun m =>
        let ops := dropLoad m.ops
        { m.setTile l.buf { state := if loadPending ops l.buf then .loading else .ready
                            fmt := (m.tile l.buf).fmt, poison := r.2.1 || tern.isSome, cells := cells, held := l.fmt } with
          ops := ops, past := if c.dx.ops.isEmpty then [] else m.past ++ [(l.start, l.start + l.ports - 1)] }
      s.complete k .mx l.owed)

/-! ## MMA (R86 to R93, R105, R168, R169) -/

def mmBuf (w : Nat) : Nat := bits w 0 0
def mmAfmt (w : Nat) : Nat := bits w 3 1
def mmAline (w : Nat) : Nat := bits w 17 4
def mmAslot (w : Nat) : Nat := bits w 19 18
def mmScline (w : Nat) : Nat := bits w 33 20
def mmScoff (w : Nat) : Nat := bits w 39 34
def mmCount (w : Nat) : Nat := bits w 47 40 + 1
def mmBank (w : Nat) : Nat := bits w 49 48
def mmDrow (w : Nat) : Nat := bits w 57 50
def mmMode (w : Nat) : Bool := bit w 58
def mmSrc (w : Nat) : Bool := bit w 59

/-- Twice the row interval p of a pairing (R90); none when the pairing is not supported. -/
def rowInterval2 (wf af : Nat) : Option Nat :=
  if af = fmtInt4 then
    (if wf = fmtInt4 then some 2 else if wf = fmtInt2 ∨ wf = fmtTernary then some 1
     else if wf = fmtInt8 then some 4 else none)
  else if af = fmtInt8 then
    (if wf = fmtInt4 then some 4 else if wf = fmtInt8 then some 8 else none)
  else none


/-- The first offending field of an inconsistent MMA (R87, R169, R158). -/
def mmaInconsistent (wf w : Nat) : Option Nat :=
  let half := wf == fmtInt2 || wf == fmtTernary
  if half && decide (mmScoff w % 2 = 1) then some 34
  else if (half && decide (mmAslot w % 2 = 1)) || (mmAfmt w == fmtInt8 && decide (mmAslot w ≥ 2)) then some 18
  else if (rowInterval2 wf (mmAfmt w)).isNone then some 1
  else none

/-- Lines of the data run and of the scale run (R86). -/
def mmaDataLines (w : Nat) : Nat := (mmAslot w + mmCount w - 1) / rowsPerLine (mmAfmt w) + 1
def mmaScaleLines (w : Nat) : Nat := (mmScoff w + mmCount w - 1) / 64 + 1

/-- The refusal of an MMA (R105): the code and the first offending line or row, with its width (log 8). -/
def Core.mmaRefusal (c : Core) (t w : Nat) : Option (Nat × Nat × Nat) :=
  let dn := mmaDataLines w
  let sn := mmaScaleLines w
  let br := binRef (mmAline w) (mmSrc w) (hAdv w)
  let bl := (br.map fun r => c.binLine t r false).getD 0
  let binCode := match br with
    | some r => c.binIssue r dn
    | none => none
  firstOf [(decide (mmDrow w + mmCount w > 256), (0x0142, 8, mmDrow w)),
    (!mmSrc w && decide (mmAline w + dn > scrLines), (0x0304, 14, mmAline w)),
    (decide (mmScline w + sn > scrLines), (0x0304, 14, mmScline w)),
    (!mmSrc w && c.binTouch (mmAline w) dn, (0x030D, 14, mmAline w)),
    (c.binTouch (mmScline w) sn, (0x030D, 14, mmScline w)),
    (binCode == some 0x030D, (0x030D, 14, bl)),
    (binCode == some 0x030C, (0x030C, 14, bl)),
    ((c.mx.tile (mmBuf w)).state == .empty, (0x0141, 0, 0))]

/-- Issue of an MMA. -/
def State.issueMma (s : State) (k w : Nat) (o : Owed) (skipped : Bool) : State :=
  let c := s.core k
  let wf := (c.mx.tile (mmBuf w)).fmt
  let inc := if skipped then none else mmaInconsistent wf w
  let x := match inc with
    | some pos => s.noteSkip k .mx o 0x0102 (s.skipDetail k pos)
    | none => (o, s)
  let refusal := if skipped || inc.isSome then none else c.mmaRefusal s.now w
  let s := match refusal with
    | some (code, wd, v) => x.2.faultAt k .mx o.index code (pack [(wd, v)])
    | none => x.2
  let refused := skipped || inc.isSome || refusal.isSome
  let y := s.writeIssue k .mx o.index (mmBank w)
  let s := y.2
  let p2 := (rowInterval2 wf (mmAfmt w)).getD 2
  let first := max (s.now + s.ctE) (after ((s.core k).mx.lastDone (mmBuf w)))
  let op : MmaOp :=
    { owed := x.1, issue := s.now, buf := mmBuf w, afmt := mmAfmt w, aline := mmAline w, aslot := mmAslot w
      scline := mmScline w, scoff := mmScoff w, count := mmCount w, bank := mmBank w, drow := mmDrow w
      ovw := mmMode w, bin := binRef (mmAline w) (mmSrc w) (hAdv w), refused := refused, stamp := y.1
      first := first, p2 := p2 }
  let op := { op with fetch := if refused then [] else op.reads }
  let s := if refused then s else s.fetchDue k
  let ops := fun (m : Mx) => match op.fetch with
    | [] => m.ops
    | f :: _ => (respread f.due m.ops).1
  let s := s.setReady k .mx (if refused then s.now + 1 else first - s.ctE + ceilDiv (mmCount w * p2) 2)
  s.modCore k fun c => c.modMx fun m =>
    let m := { m with ops := ops m ++ [.mma op], tloadAt := none }
    if refused then m else m.setLastEntry (mmBuf w) (first + (mmCount w - 1) * p2 / 2)

/-- The ready bound of an MMA (R92). -/
def State.readyMma (s : State) (k : Nat) : Nat := s.readyMx k 2

/-- MMA (R92). -/
def execMma (k : Nat) (s : State) : Host.Outcome State Fault Refusal :=
  .next (s.issueOp k .mx (s.readyMma k) (wantOp 2) fun w o skipped s => s.issueMma k w o skipped)

/-- The first MMA whose next row may enter: the rows of earlier MMAs have entered, and no earlier load into its buffer is
in flight (R84, R93). -/
def headEntry : List MxOp → List Nat → Option MmaOp
  | [], _ => none
  | .load l :: r, bufs => headEntry r (l.buf :: bufs)
  | .mma o :: r, bufs =>
    if o.refused || o.entered == o.count then headEntry r bufs
    else if bufs.contains o.buf then none else some o

/-- Remove the first MMA. -/
def dropMma : List MxOp → List MxOp
  | [] => []
  | .load l :: r => .load l :: dropMma r
  | .mma _ :: r => r

/-- The elements of a row slot of a line. -/
def slotElems (f : Nat) (ws : List (PWord 32)) (slot n : Nat) : List Int :=
  (List.range n).map fun i => fmtValue f (packedBits f (wordBytes ws) (n * slot + i))

/-- MMA_ROW_ENTRY: the next row is read and enters the array, and the tally checks it (R86 to R92, R100). The rows of an MMA that
met 0x0241 are poisoned and are not checked: R100 leaves open whether R97 is another reason under R95 (DESIGN CHOICE, log 17). -/
def execMmaRowEntry (k : Nat) (s : State) : Host.Outcome State Fault Refusal :=
  .next (match headEntry (s.core k).mx.ops [] with
    | none => s
    | some o =>
      let s := (s.advance (o.enterAt o.entered)).fetchDue k
      let o := (headEntry (s.core k).mx.ops []).getD o
      let rpl := rowsPerLine o.afmt
      let n := (o.aslot + o.entered) / rpl
      let failed := match o.slot with
        | some x => x.failed
        | none => false
      let line := match o.slot with
        | some x => x.base + n
        | none => o.aline + n
      let sline := o.scline + (o.scoff + o.entered) / 64
      let sc := (gotLine o.got .scale (sline : Int)).getD badLine
      let free := if failed then s.spoilAll badLine else ((gotLine o.got .data (line : Int)).getD badLine, s)
      let da := free.1
      let s := free.2
      let slot := (o.aslot + o.entered) % rpl
      let words := (da.drop (64 / rpl * slot)).take (64 / rpl)
      let sword := sc.getD ((o.scoff + o.entered) % 64) ⟨0, false⟩
      let t := (s.core k).mx.tile o.buf
      let a := slotElems o.afmt da slot 128
      let sa := (List.range 4).map fun g => bits sword.val.toNat (8 * g + 7) (8 * g)
      let contribs := (List.range 128).map fun c => contribution (t.column c) a (t.scales c) sa
      let poisoned := t.poison || o.stamp || failed || sword.poison || words.any (·.poison)
      let lhs := tallyLhs contribs
      let rhs := tallyRhs t.checks a sa
      let bad := !poisoned && lhs != rhs
      let s := if bad then
          (s.faultAt k .mx o.owed.index 0x0140 (pack [(1, o.buf), (8, o.entered), (16, lhs), (16, rhs)])).modCore k
            fun c => c.modMx fun m => { m with tally := satInc m.tally 1 }
        else s
      s.modCore k fun c => c.modMx fun m =>
        { m with
          rows := m.rows + 1
          ops := modMma (fun x => !x.refused && x.entered != x.count)
            (fun x => { x with entered := x.entered + 1
                               got := x.got.filter fun g => g.line ≥ (if g.what == .scale then (sline : Int) else (line : Int))
                               rows := x.rows ++ [{ contrib := contribs, poison := poisoned || bad }] }) m.ops })

/-- The first MMA with a row to write (R93). -/
def headWrite : List MxOp → Option MmaOp
  | [] => none
  | .load _ :: r => headWrite r
  | .mma o :: r => if o.rows.isEmpty then headWrite r else some o

/-- The sum of a row in accumulate mode (R39): the lanes and how many were clamped. -/
def accRowAdd (vs cs : List Int) : List Int × Nat :=
  let r := (List.range 128).map fun i => accAdd (vs.getD i 0) (cs.getD i 0)
  (r.map (·.1), (r.filter (·.2)).length)

/-- MMA_ROW_WRITE: the oldest row that has entered is written, by acc_add or overwrite, with poison and saturation
counting (R92, R93, R95, R102). -/
def execMmaRowWrite (k : Nat) (s : State) : Host.Outcome State Fault Refusal :=
  .next (match headWrite (s.core k).mx.ops with
    | none => s
    | some o =>
      match o.rows with
      | [] => s
      | row :: rest =>
        let s := s.advance (o.enterAt o.written + s.ctD)
        let c := s.core k
        let dr := o.drow + o.written
        let r := if o.ovw then (row.contrib, 0) else accRowAdd (c.accLanes o.bank dr) row.contrib
        let p := row.poison || o.stamp || (!o.ovw && c.accPoison o.bank dr)
        let s := s.putAccRow k o.bank dr (laneBytes r.1) p
        s.modCore k fun c => c.modMx fun m =>
          { m with
            satAcc := satInc m.satAcc r.2
            stamps := if r.2 = 0 then m.stamps else modAt m.stamps o.bank fun t => { t with sat := true }
            ops := modMma (fun x => !x.rows.isEmpty) (fun x => { x with written := x.written + 1, rows := rest }) m.ops })

/-- The first MMA in flight. -/
def headMma : List MxOp → Option MmaOp
  | [] => none
  | .load _ :: r => headMma r
  | .mma o :: _ => some o

/-- MMA_COMPLETE: with its last row write, or at u + E + D when refused, with its destination rows poisoned then (R92, R105);
WRITERS falls and its signals take effect. -/
def execMmaComplete (k : Nat) (s : State) : Host.Outcome State Fault Refusal :=
  .next (match headMma (s.core k).mx.ops with
    | none => s
    | some o =>
      if o.refused || o.written == o.count then
        let s := s.advance (if o.refused then o.issue + s.ctE + s.ctD
          else o.enterAt (o.count - 1) + s.ctD)
        let s := if o.refused then s.poisonRows k o.bank o.drow (min (o.drow + o.count) 256 - o.drow) else s
        let s := (s.modCore k fun c => c.modMx fun m => { m with ops := dropMma m.ops }).writeDone k o.bank
        (s.binDone k o.bin o.slot false).complete k .mx o.owed
      else s)

end Sys2Proof.Machine
end

