-- ==== Sys2Proof/Machine/Dx.lean ====
section
/-! DEFINITION. The data mover: fills, copies, moves between scratchpad, stock and accumulators, unit by unit. -/

namespace Sys2Proof.Machine

/-! ## Operands (R174 to R176) -/

def dfLine (w : Nat) : Nat := bits w 18 0
def dfCount (w : Nat) : Nat := bits w 37 19 + 1
def dfMem (w : Nat) : Bool := bit w 38
def dcSline (w : Nat) : Nat := bits w 18 0
def dcDline (w : Nat) : Nat := bits w 37 19
def dcCount (w : Nat) : Nat := bits w 56 38 + 1
def dcMem (w : Nat) : Bool := bit w 57
def dlSline (w : Nat) : Nat := bits w 18 0
def dlDline (w : Nat) : Nat := bits w 32 19
def dsSline (w : Nat) : Nat := bits w 13 0
def dsDline (w : Nat) : Nat := bits w 32 14
def dmCount (w : Nat) : Nat := bits w 46 33 + 1
def daBank (w : Nat) : Nat := bits w 1 0
def daRow (w : Nat) : Nat := bits w 9 2
def daCount (w : Nat) : Nat := bits w 17 10 + 1
def daLine (w : Nat) : Nat := bits w 31 18

/-! ## Refusal (R181) -/

/-- The code of a scratchpad destination run against keep regions and control lines. -/
def Core.keepCode (c : Core) (line n : Nat) : Option Nat :=
  match tableWriteCode c.table false line n with
  | some code => some code
  | none => if c.ctrlTouch line n then some 0x041A else none

/-- The code of a stock run against the region table. -/
def Core.stockReadCode (c : Core) (line n : Nat) : Option Nat :=
  if c.table.any fun r => r.covers true line n then none else some 0x0306

def Core.stockWriteCode (c : Core) (line n : Nat) : Option Nat :=
  match c.table.find? fun r => r.covers true line n with
  | none => some 0x0306
  | some r => r.writeCode line n

/-- The refusal of an operation: the code, the width and the value of the first offending line or row. -/
def Core.dxRefusal (c : Core) (t : Nat) (o : DxOp) : Option (Nat × Nat × Nat) :=
  let n := o.lines
  let plainSrc := o.readsScr && o.bin.isNone
  let plainDst := o.writesScr && o.bin.isNone
  let sr := if o.readsStock then c.stockReadCode o.src n else none
  let sw := if o.writesStock then c.stockWriteCode o.dst n else none
  let kw := if plainDst then c.keepCode o.dst n else none
  let bc := o.bin.bind fun r => c.binIssue r n
  let binLine := (o.bin.map fun r => c.binLine t r (!o.readsScr)).getD 0
  let at14 := fun (code line : Nat) => (code, 14, line)
  let at19 := fun (code line : Nat) => (code, 19, line)
  firstOf [(o.readsStock && decide (o.src + n > stockLines), at19 0x0304 o.src),
    (plainSrc && decide (o.src + n > scrLines), at14 0x0304 o.src),
    (o.writesStock && decide (o.dst + n > stockLines), at19 0x0304 o.dst),
    (plainDst && decide (o.dst + n > scrLines), at14 0x0304 o.dst),
    (sr.isSome, at19 (sr.getD 0) o.src), (sw.isSome, at19 (sw.getD 0) o.dst), (kw.isSome, at14 (kw.getD 0) o.dst),
    (plainSrc && c.binTouch o.src n, at14 0x030D o.src), (plainDst && c.binTouch o.dst n, at14 0x030D o.dst),
    (bc == some 0x030D, at14 0x030D binLine), (bc == some 0x030C, at14 0x030C binLine),
    ((o.kind == .acr || o.kind == .acw) && decide (o.arow + o.count > 256), (0x0180, 8, o.arow))]

/-! ## Issue (R174 to R179) -/

/-- Issue of an operation: the refusal check, the stamp of a DACW, the ready bound (R96, R179, R181). A permitted write
run raises H of its APPEND region (R74): for the whole run, at its issue, where it is judged (DESIGN CHOICE, log 18). -/
def State.issueDx (s : State) (k : Nat) (o : DxOp) (skipped : Bool) : State :=
  let code := if skipped then none else (s.core k).dxRefusal s.now o
  let s := match code with
    | some (c, wd, v) => s.faultAt k .dx o.owed.index c (pack [(wd, v)])
    | none => s
  let refused := skipped || code.isSome
  let st := if o.kind == .acw then s.writeIssue k .dx o.owed.index o.bank else (false, s)
  let s := st.2
  let op := { o with issue := s.now, refused := refused, stamp := st.1
                     rd := if o.kind == .fill then o.units else 0 }
  let s := if refused || o.bin.isSome then s
    else if o.writesStock then s.modCore k fun c => c.raiseHigh true o.dst o.lines
    else if o.writesScr then s.modCore k fun c => c.raiseHigh false o.dst o.lines
    else s
  (s.setReady k .dx (if refused then s.now + 1 else s.now + o.units)).modCore k fun c => c.modDx fun d =>
    { d with ops := d.ops ++ [op] }

/-- An operation with its operand fields. -/
def dxOp (o : Owed) (kind : DxKind) (stock : Bool) (src dst count : Nat) (bin : Option BinRef) : DxOp :=
  { owed := o, issue := 0, kind := kind, stock := stock, src := src, dst := dst, count := count, bank := 0, arow := 0
    bin := bin, pattern := 0, refused := false }

/-- DPAT (R174). A skipped one has the timing of a refused operation, and no destination (R157, R181). -/
def execDpat (k : Nat) (s : State) : Host.Outcome State Fault Refusal :=
  .next (s.issueOp k .dx (s.readyOf k .dx) (wantOp 1) fun w o skipped s =>
    if skipped then s.issueDx k (dxOp o .fill true 0 0 0 none) true
    else
      let s := s.modCore k fun c => c.modDx fun d => { d with fillpat := BitVec.ofNat 32 (bits w 31 0) }
      (s.setReady k .dx (s.now + 1)).complete k .dx o)

/-- DFILL: the pattern is that of its issue cycle (R56, R174, R175). -/
def execDfill (k : Nat) (s : State) : Host.Outcome State Fault Refusal :=
  .next (s.issueOp k .dx (s.readyOf k .dx) (wantOp 2) fun w o skipped s =>
    s.issueDx k { dxOp o .fill (dfMem w) 0 (dfLine w) (dfCount w) none with pattern := (s.core k).dx.fillpat } skipped)

/-- DCOPY (R56, R175). -/
def execDcopy (k : Nat) (s : State) : Host.Outcome State Fault Refusal :=
  .next (s.issueOp k .dx (s.readyOf k .dx) (wantOp 3) fun w o skipped s =>
    s.issueDx k (dxOp o .copy (dcMem w) (dcSline w) (dcDline w) (dcCount w) none) skipped)

/-- DLD (R176, R177). -/
def execDld (k : Nat) (s : State) : Host.Outcome State Fault Refusal :=
  .next (s.issueOp k .dx (s.readyOf k .dx) (wantOp 4) fun w o skipped s =>
    s.issueDx k (dxOp o .ld false (dlSline w) (dlDline w) (dmCount w) (binRef (dlDline w) (hOpx0 w) (hAdv w))) skipped)

/-- DST (R176, R177). -/
def execDst (k : Nat) (s : State) : Host.Outcome State Fault Refusal :=
  .next (s.issueOp k .dx (s.readyOf k .dx) (wantOp 5) fun w o skipped s =>
    s.issueDx k (dxOp o .st false (dsSline w) (dsDline w) (dmCount w) (binRef (dsSline w) (hOpx0 w) (hAdv w))) skipped)

/-- DACR (R176, R177). -/
def execDacr (k : Nat) (s : State) : Host.Outcome State Fault Refusal :=
  .next (s.issueOp k .dx (s.readyOf k .dx) (wantOp 6) fun w o skipped s =>
    s.issueDx k { dxOp o .acr false 0 (daLine w) (daCount w) (binRef (daLine w) (hOpx0 w) (hAdv w)) with
      bank := daBank w, arow := daRow w } skipped)

/-- DACW (R176, R177). -/
def execDacw (k : Nat) (s : State) : Host.Outcome State Fault Refusal :=
  .next (s.issueOp k .dx (s.readyOf k .dx) (wantOp 7) fun w o skipped s =>
    s.issueDx k { dxOp o .acw false (daLine w) 0 (daCount w) (binRef (daLine w) (hOpx0 w) (hAdv w)) with
      bank := daBank w, arow := daRow w } skipped)

/-! ## Unit transfers (R179, R180, R212) -/

/-- Due cycle of the next read and of the next write of an operation. A unit is written DDX cycles after its read. -/
def DxOp.readAt (edx : Nat) (o : DxOp) : Option Nat :=
  if !o.refused && decide (o.rd < o.units) then some (o.issue + edx + o.rd + o.slip) else none

def DxOp.writeAt (edx ddx : Nat) (o : DxOp) : Option Nat :=
  if !o.refused && decide (o.wr < o.rd) then some (o.issue + edx + o.wr + ddx + o.slip) else none

/-- The next unit transfer: its due cycle, whether it is a write, its operation. Of one cycle, a write comes first (log 7). -/
def nextTransfer (edx ddx : Nat) : List DxOp → Option (Nat × Bool × DxOp)
  | [] => none
  | o :: r =>
    let mine : Option (Nat × Bool × DxOp) := match o.readAt edx, o.writeAt edx ddx with
      | none, none => none
      | some a, none => some (a, false, o)
      | none, some b => some (b, true, o)
      | some a, some b => if b ≤ a then some (b, true, o) else some (a, false, o)
    match mine, nextTransfer edx ddx r with
    | none, x => x
    | x, none => x
    | some x, some y => if y.1 < x.1 ∨ (y.1 = x.1 ∧ !x.2.1 ∧ y.2.1) then some y else some x

/-- The first cycle from t on that is no port cycle of a TLOAD (R180, R212). -/
def freePort (loads : List (Nat × Nat)) (t : Nat) : Nat → Nat
  | 0 => t
  | n + 1 =>
    match loads.find? fun x => decide (x.1 ≤ t) && decide (t ≤ x.2) with
    | some x => freePort loads (x.2 + 1) n
    | none => t

/-- The port cycles of the loads in flight and of those completed before, and the last one of all loads. -/
def Mx.portCycles (m : Mx) : List (Nat × Nat) :=
  m.past ++ (m.ops.filterMap fun o => match o with
    | .load l => some (l.start, l.start + l.ports - 1)
    | .mma _ => none) ++ (m.lastPort.toList.map fun t => (t, t))

def modDxOp (p : DxOp → Bool) (f : DxOp → DxOp) : List DxOp → List DxOp
  | [] => []
  | o :: r => if p o then f o :: r else o :: modDxOp p f r

/-- The stock port from the due cycle on: the access waits for the first cycle that is no port cycle of a TLOAD, and the cycles lost
count as island conflicts (R180). -/
def State.takePort (s : State) (k due : Nat) : Nat × State :=
  let loads := (s.core k).mx.portCycles
  let t := freePort loads due (loads.length + 1)
  let n := t - due
  if n = 0 then (0, s)
  else (n, (s.advance t).modCore k fun c => c.modRegs fun r => { r with islandConf := satInc r.islandConf n })

/-- An operation that was due in cycle `due` lost n cycles: the ready bound of the next instruction moves with them (R144, R180). -/
def Core.loseDx (c : Core) (due n : Nat) : Core :=
  if n = 0 then c else c.modStream .dx fun x => { x with ready := if due < x.ready then x.ready + n else x.ready }

/-- The slot of a bin access at its first line: a failed read records 0x030A, a failed write 0x030B (R62). -/
def State.dxSlot (s : State) (k : Nat) (o : DxOp) (write : Bool) : Option BinSlot × State :=
  match o.bin, o.slot with
  | some r, none =>
    let x := (s.core k).binTake s.now r write
    (some x, if x.failed then s.faultAt k .dx o.owed.index (if write then 0x030B else 0x030A) (pack [(14, x.base)]) else s)
  | _, x => (x, s)

/-- The rows that unit i of a DACR reads (R179). -/
def rowsAt (m i : Nat) : List Nat := (List.range m).filter fun j => 5 * j / 2 == i

/-- Read one row as 160 words (R42, R177). -/
def Core.rowWords (c : Core) (bank row : Nat) (bad : Bool) : List (PWord 32) :=
  let p := bad || c.accPoison bank row
  (List.range 160).map fun i => ⟨BitVec.ofNat 32 (c.mem.acc.word (640 * accRow bank row + 4 * i) 4), p⟩

/-- Read stock lines as half words. -/
def State.readStockLines (s : State) (k line : Nat) : Nat → List (List (PWord 32)) × State
  | 0 => ([], s)
  | n + 1 =>
    let a := s.readStockLine k (engCode .dx) line
    let r := a.2.2.readStockLines k (line + 1) n
    (a.1 :: r.1, r.2)

/-- Read one line of an operation's source. -/
def State.readDxLine (s : State) (k line : Nat) (stock : Bool) : List (PWord 32) × State :=
  if stock then (let r := s.readStockLine k (engCode .dx) line
                 (r.1, r.2.2))
  else s.readLine k (engCode .dx) line

/-- Read lines of a COPY: one that the operation has written was kept before (R56). -/
def State.copyRead (s : State) (k : Nat) (o : DxOp) : List Nat → List (List (PWord 32)) × State
  | [] => ([], s)
  | l :: r =>
    let a := match keyGet o.snap l with
      | some ws => (ws, s)
      | none => s.readDxLine k l o.stock
    let t := a.2.copyRead k o r
    (a.1 :: t.1, t.2)

/-- Keep the lines of a COPY's source that its next write reaches before their read (R56). -/
def State.copyKeep (s : State) (k : Nat) (o : DxOp) : List Nat → List (Nat × List (PWord 32)) × State
  | [] => (o.snap, s)
  | l :: r =>
    let t := s.copyKeep k o r
    if o.src + o.rd * o.unit ≤ l ∧ l < o.src + o.count ∧ (keyGet t.1 l).isNone then
      let a := t.2.readDxLine k l o.stock
      (keyPut t.1 l a.1, a.2)
    else t

/-- Read the next unit of an operation. The slot of a bin source is judged in the cycle of its first bank slot (R62). -/
def State.readUnit (s : State) (k due : Nat) (o : DxOp) : State :=
  let n := o.unitLines o.rd
  let w := if o.readsStock then s.takePort k due
    else if o.readsScr then s.takeBanks k .dx false due (fun s => ((s.core k).unitRun s.now o false o.rd).map (· % 16)) else (0, s)
  let s := w.2
  let x := if o.readsScr && o.bin.isSome then s.dxSlot k o false else (o.slot, s)
  let s := x.2
  let failed := match x.1 with
    | some b => b.failed
    | none => false
  let base := match o.bin.isSome && o.readsScr, x.1 with
    | true, some b => b.base
    | _, _ => o.src
  let line := base + o.rd * o.unit
  let first := o.rd == 0
  let rb := if o.kind == .acr && first then s.readFirst k .dx o.owed.index o.bank (o.count == 1) else (o.readBad, s)
  let s := rb.2
  let d : List (List (PWord 32)) × State :=
    match o.kind with
    | .copy => s.copyRead k o (lineRun line n)
    | .ld => s.readStockLines k line 1
    | .st => if failed then ([badLine], s) else s.readLines k (engCode .dx) line 1
    | .acw => if failed then ([badLine], s) else s.readLines k (engCode .dx) line 1
    | _ => ([], s)
  let s := d.2
  let rows := if o.kind == .acr then rowsAt o.count o.rd else []
  let rowBuf := o.rowBuf ++ rows.flatMap fun j => (s.core k).rowWords o.bank (o.arow + j) rb.1
  let s := if rows.contains (o.count - 1) then s.readLast k o.bank else s
  let unit := match o.kind with
    | .acr => [(rowBuf ++ zeroLine).take 64]
    | _ => d.1
  let o' := { o with slip := o.slip + w.1, rd := o.rd + 1, slot := x.1, readBad := rb.1, buf := o.buf ++ [unit]
                     rowBuf := if o.kind == .acr then rowBuf.drop 64 else o.rowBuf }
  s.modCore k fun c => (c.loseDx due w.1).modDx fun y => { y with ops := modDxOp (· == o) (fun _ => o') y.ops }

/-- Write scratchpad lines of a permitted run. -/
def State.putLines (s : State) (k line : Nat) : List (List (PWord 32)) → State
  | [] => s
  | l :: r => (s.putWords k (engCode .dx) (64 * line) l).putLines k (line + 1) r

/-- Write stock lines of a permitted run. -/
def State.putStockLines (s : State) (k line : Nat) : List (List (PWord 32)) → State
  | [] => s
  | l :: r => (s.putStockLine k (engCode .dx) line l).putStockLines k (line + 1) r

/-- Write the accumulator rows that the words give (R177): ordinary values; a row is poisoned with any of its words, or
when the write check failed (R97). -/
def State.putRows (s : State) (k : Nat) (o : DxOp) (row : Nat) (ws : List (PWord 32)) : Nat → List (PWord 32) × Nat × State
  | 0 => (ws, row, s)
  | n + 1 =>
    if ws.length < 160 ∨ row ≥ o.arow + o.count then (ws, row, s)
    else
      let r := ws.take 160
      let s := s.putAccRow k o.bank row (wordBytes r) (o.stamp || r.any (·.poison))
      s.putRows k o (row + 1) (ws.drop 160) n

/-- Write the next unit of an operation. The slot of a bin destination is judged in the cycle of its first bank slot (R62). -/
def State.writeUnit (s : State) (k due : Nat) (o : DxOp) : State :=
  let n := o.unitLines o.wr
  let w := if o.writesStock then s.takePort k due
    else if o.writesScr then s.takeBanks k .dx true due (fun s => ((s.core k).unitRun s.now o true o.wr).map (· % 16)) else (0, s)
  let s := w.2
  let binW := o.writesScr && o.bin.isSome
  let x := if binW then s.dxSlot k o true else (o.slot, s)
  let s := x.2
  let failed := binW && (match x.1 with
    | some b => b.failed
    | none => false)
  let base := match binW, x.1 with
    | true, some b => b.base
    | _, _ => o.dst
  let line := base + o.wr * o.unit
  let keep := if o.kind == .copy then s.copyKeep k o (lineRun line n) else (o.snap, s)
  let s := keep.2
  let unit := if o.kind == .fill then List.replicate n (List.replicate 64 (⟨o.pattern, false⟩ : PWord 32)) else o.buf.headD []
  let r := if o.kind == .acw then s.putRows k o (o.arow + o.rowsDone) (o.rowBuf ++ unit.flatten) 1
    else ([], o.arow + o.rowsDone,
      if failed then s else if o.writesStock then s.putStockLines k line unit else s.putLines k line unit)
  let s := r.2.2
  let o' := { o with slip := o.slip + w.1, wr := o.wr + 1, slot := x.1, buf := o.buf.drop 1, snap := keep.1
                     rowBuf := if o.kind == .acw then r.1 else o.rowBuf, rowsDone := r.2.1 - o.arow }
  s.modCore k fun c => (c.loseDx due w.1).modDx fun y => { y with ops := modDxOp (· == o) (fun _ => o') y.ops }

/-- DX_UNIT_TRANSFER: the next unit read or write (R179, R180). The first read of accumulators comes after the issues of its cycle
(R98). -/
def execDxUnitTransfer (k : Nat) (s : State) : Host.Outcome State Fault Refusal :=
  .next (match nextTransfer s.ctEDX s.ctDDX (s.core k).dx.ops with
    | none => s
    | some (t, write, o) =>
      let v := s.advance t
      if write then v.writeUnit k t o
      else if o.kind == .acr && o.rd == 0 && !v.readTurn k then s
      else v.readUnit k t o)

/-! ## Completion (R179, R181) -/

/-- The completion cycle of an operation that can complete. -/
def DxOp.doneAt (edx ddx : Nat) (o : DxOp) : Option Nat :=
  if o.refused then some (o.issue + edx + ddx)
  else if o.wr = o.units then some (o.issue + edx + (o.units - 1) + ddx + o.slip) else none

/-- The operation that completes first. -/
def firstDx (edx ddx : Nat) : List DxOp → Option (Nat × DxOp)
  | [] => none
  | o :: r =>
    match o.doneAt edx ddx, firstDx edx ddx r with
    | none, x => x
    | some t, none => some (t, o)
    | some t, some y => if y.1 < t then some y else some (t, o)

def dropDx (x : DxOp) : List DxOp → List DxOp
  | [] => []
  | y :: r => if y = x then r else y :: dropDx x r

/-- Poison the destination of a refused operation (R181). -/
def State.poisonDest (s : State) (k : Nat) (o : DxOp) : State :=
  if o.kind == .acw then s.poisonRows k o.bank o.arow (min (o.arow + o.count) 256 - o.arow)
  else if o.writesStock then s.poisonLines k true o.dst o.lines
  else if o.bin.isSome then s
  else s.poisonLines k false o.dst o.lines

/-- DX_COMPLETE (R179, R181). -/
def execDxComplete (k : Nat) (s : State) : Host.Outcome State Fault Refusal :=
  .next (match firstDx s.ctEDX s.ctDDX (s.core k).dx.ops with
    | none => s
    | some (t, o) =>
      let s := s.advance t
      let s := if o.refused then s.poisonDest k o else s
      let s := s.modCore k fun c => c.modDx fun d => { d with ops := dropDx o d.ops }
      let s := if o.kind == .acw then s.writeDone k o.bank else s
      (s.binDone k o.bin o.slot o.writesScr).complete k .dx o.owed)

end Sys2Proof.Machine
end

