-- ==== Sys2Proof/Machine/Sx.lean ====
section
/-! DEFINITION. The scalar control core: arithmetic, branches, counters, memory and register accesses, arrivals, handles
(R190 to R208). -/

namespace Sys2Proof.Machine

/-! ## Registers (R190, R206) -/

def Core.g (c : Core) (r : Nat) : PWord 32 :=
  if r = 0 then ⟨0, false⟩ else ⟨(c.sx.g.getD r {}).val, (c.sx.g.getD r {}).poison⟩

/-- The value of a register as a number. -/
def Core.gv (c : Core) (r : Nat) : Nat := (c.g r).val.toNat

/-- Write register r, ready in cycle `ready`; a write of g0 is discarded. An access still in flight to it no longer writes
it: the later instruction's value stands (R199, R206). -/
def Core.setG (c : Core) (r : Nat) (v : PWord 32) (ready : Nat) : Core :=
  if r = 0 then c
  else c.modSx fun x =>
    { x with g := x.g.set r { val := v.val, poison := v.poison, ready := ready }
             acc := x.acc.map fun a => { a with rd := if a.rd = r then 0 else a.rd, rd2 := if a.rd2 = r then 0 else a.rd2 } }

def State.setG (s : State) (k r : Nat) (v : PWord 32) (ready : Nat) : State := s.modCore k fun c => c.setG r v ready

/-- Mark a register as the destination of an access that starts now. -/
def State.claimG (s : State) (k r : Nat) : State :=
  if r = 0 then s
  else s.modCore k fun c => (c.setG r (c.g r) 0).modSx fun x => { x with g := modAt x.g r fun y => { y with busy := true } }

/-- Registers that are poisoned among those of a control use (R191). -/
def Core.poisonedReg (c : Core) (rs : List Nat) : Option Nat := rs.find? fun r => (c.g r).poison

/-- A control use of a poisoned register: nothing is performed and the stream is ABANDONED (R191). -/
def State.poisonUse (s : State) (k : Nat) (o : Owed) (r : Nat) : State :=
  (s.faultAt k .sx o.index 0x0120 (pack [(5, r)])).abandon k .sx

/-- The rest of an instruction, unless it makes a control use of a poisoned register. -/
def State.guardUse (s : State) (k : Nat) (o : Owed) (rs : List Nat) (f : State → State) : State :=
  match (s.core k).poisonedReg rs with
  | some r => s.poisonUse k o r
  | none => f s

/-- The opcode of the command, and for OP its function. -/
def wantX (op : Nat) (w : Nat) (ue : Bool) : Bool := xOpc w == op && !ue
def wantF (func : Nat) (w : Nat) (ue : Bool) : Bool := xOpc w == 1 && xFunc w == func && !ue

/-! ## Arithmetic and logic (R193, R194) -/

def sgn32 (v : Nat) : Int := signed 32 v

/-- Arithmetic shift right by n. -/
def sra32 (v n : Nat) : Nat := wrapU 32 (sgn32 v / (2 ^ n : Int))

/-- An OP instruction: the result of the two operands, ready in u + lat. -/
def State.opArith (s : State) (k func lat : Nat) (f : Nat → Nat → Nat) : State :=
  s.issueSx k (wantF func) (fun w => [xRa w, xRb w]) (fun _ => []) fun w o skipped s =>
    if skipped then s.sxDone k o
    else
      let c := s.core k
      let v : PWord 32 := ⟨w32 (f (c.gv (xRa w)) (c.gv (xRb w))), (c.g (xRa w)).poison || (c.g (xRb w)).poison⟩
      (s.setG k (xRd w) v (s.now + lat)).sxDone k o

/-- An instruction with an immediate: the result of the register and imm16. -/
def State.immArith (s : State) (k op : Nat) (f : Nat → Nat → Nat) : State :=
  s.issueSx k (wantX op) (fun w => [xRa w]) (fun _ => []) fun w o skipped s =>
    if skipped then s.sxDone k o
    else
      let c := s.core k
      (s.setG k (xRd w) ⟨w32 (f (c.gv (xRa w)) (xImm w)), (c.g (xRa w)).poison⟩ (s.now + 1)).sxDone k o

/-- ADD. -/
def execAdd (k : Nat) (s : State) : Host.Outcome State Fault Refusal := .next (s.opArith k 0x000 1 fun a b => a + b)
/-- SUB. -/
def execSub (k : Nat) (s : State) : Host.Outcome State Fault Refusal :=
  .next (s.opArith k 0x001 1 fun a b => wrapU 32 ((a : Int) - (b : Int)))
/-- AND. -/
def execAnd (k : Nat) (s : State) : Host.Outcome State Fault Refusal := .next (s.opArith k 0x002 1 Nat.land)
/-- OR. -/
def execOr (k : Nat) (s : State) : Host.Outcome State Fault Refusal := .next (s.opArith k 0x003 1 Nat.lor)
/-- XOR. -/
def execXor (k : Nat) (s : State) : Host.Outcome State Fault Refusal := .next (s.opArith k 0x004 1 Nat.xor)
/-- SLL: the shift amount is rb AND 31. -/
def execSll (k : Nat) (s : State) : Host.Outcome State Fault Refusal :=
  .next (s.opArith k 0x005 1 fun a b => a * 2 ^ (b % 32))
/-- SRL. -/
def execSrl (k : Nat) (s : State) : Host.Outcome State Fault Refusal :=
  .next (s.opArith k 0x006 1 fun a b => a / 2 ^ (b % 32))
/-- SRA. -/
def execSra (k : Nat) (s : State) : Host.Outcome State Fault Refusal :=
  .next (s.opArith k 0x007 1 fun a b => sra32 a (b % 32))
/-- SLT. -/
def execSlt (k : Nat) (s : State) : Host.Outcome State Fault Refusal :=
  .next (s.opArith k 0x008 1 fun a b => flag (decide (sgn32 a < sgn32 b)))
/-- SLTU. -/
def execSltu (k : Nat) (s : State) : Host.Outcome State Fault Refusal :=
  .next (s.opArith k 0x009 1 fun a b => flag (decide (a < b)))
/-- MUL: ready in u + 3 (R206). -/
def execMul (k : Nat) (s : State) : Host.Outcome State Fault Refusal := .next (s.opArith k 0x00A 3 fun a b => a * b)

/-- ADDI. -/
def execAddi (k : Nat) (s : State) : Host.Outcome State Fault Refusal :=
  .next (s.immArith k 0x02 fun a i => wrapU 32 ((a : Int) + sext16 i))
/-- ANDI. -/
def execAndi (k : Nat) (s : State) : Host.Outcome State Fault Refusal := .next (s.immArith k 0x03 Nat.land)
/-- ORI. -/
def execOri (k : Nat) (s : State) : Host.Outcome State Fault Refusal := .next (s.immArith k 0x04 Nat.lor)
/-- XORI. -/
def execXori (k : Nat) (s : State) : Host.Outcome State Fault Refusal := .next (s.immArith k 0x05 Nat.xor)
/-- LUI: ra is 0. -/
def execLui (k : Nat) (s : State) : Host.Outcome State Fault Refusal := .next (s.immArith k 0x06 fun _ i => i * 65536)
/-- SHI: imm16[6:5] selects SLL, SRL or SRA by imm16[4:0]. -/
def execShi (k : Nat) (s : State) : Host.Outcome State Fault Refusal :=
  .next (s.immArith k 0x07 fun a i =>
    if bits i 6 5 = 0 then a * 2 ^ (i % 32) else if bits i 6 5 = 1 then a / 2 ^ (i % 32) else sra32 a (i % 32))
/-- SLTI. -/
def execSlti (k : Nat) (s : State) : Host.Outcome State Fault Refusal :=
  .next (s.immArith k 0x08 fun a i => flag (decide (sgn32 a < sext16 i)))

/-! ## Branches (R200) -/

/-- A taken transfer to a target: outside the bank it performs nothing, records 0x0121 and abandons the stream. `before`
is what the instruction writes when it transfers. -/
def State.sxJump (s : State) (k : Nat) (o : Owed) (target : Int) (before : State → State) : State :=
  if 0 ≤ target ∧ target ≤ 8191 then
    (((before s).setReady k .sx (s.now + 1)).modStream k .sx fun t => { t with state := .run, pc := target.toNat }).complete
      k .sx o
  else (s.faultAt k .sx o.index 0x0121 (pack [(32, wrapU 32 target)])).abandon k .sx

/-- ra and rb of the B layout. -/
def bRa (w : Nat) : Nat := xRd w
def bRb (w : Nat) : Nat := xRa w

/-- A branch. -/
def State.branch (s : State) (k op : Nat) (p : Nat → Nat → Bool) : State :=
  s.issueSx k (wantX op) (fun w => [bRa w, bRb w]) (fun _ => []) fun w o skipped s =>
    if skipped then s.sxDone k o
    else s.guardUse k o [bRa w, bRb w] fun s =>
      let c := s.core k
      if p (c.gv (bRa w)) (c.gv (bRb w)) then s.sxJump k o ((o.index : Int) + sext16 (xImm w)) id else s.sxDone k o

/-- BEQ. -/
def execBeq (k : Nat) (s : State) : Host.Outcome State Fault Refusal := .next (s.branch k 0x18 fun a b => a == b)
/-- BNE. -/
def execBne (k : Nat) (s : State) : Host.Outcome State Fault Refusal := .next (s.branch k 0x19 fun a b => a != b)
/-- BLT. -/
def execBlt (k : Nat) (s : State) : Host.Outcome State Fault Refusal :=
  .next (s.branch k 0x1A fun a b => decide (sgn32 a < sgn32 b))
/-- BGE. -/
def execBge (k : Nat) (s : State) : Host.Outcome State Fault Refusal :=
  .next (s.branch k 0x1B fun a b => decide (sgn32 b ≤ sgn32 a))
/-- BLTU. -/
def execBltu (k : Nat) (s : State) : Host.Outcome State Fault Refusal := .next (s.branch k 0x1C fun a b => decide (a < b))
/-- BGEU. -/
def execBgeu (k : Nat) (s : State) : Host.Outcome State Fault Refusal := .next (s.branch k 0x1D fun a b => decide (b ≤ a))

/-- DBNZ: g0 as the register is inconsistent, and a skipped DBNZ writes nothing (R193, R200). -/
def execDbnz (k : Nat) (s : State) : Host.Outcome State Fault Refusal :=
  .next (s.issueSx k (wantX 0x1E) (fun w => [bRa w]) (fun _ => []) fun w o skipped s =>
    if skipped then s.sxDone k o
    else if bRa w = 0 then
      let x := s.noteSkip k .sx o 0x0102 (s.skipDetail k 21)
      x.2.sxDone k x.1
    else s.guardUse k o [bRa w] fun s =>
      let v := wrapU 32 (((s.core k).gv (bRa w) : Int) - 1)
      let put := fun (s : State) => s.setG k (bRa w) ⟨w32 v, false⟩ (s.now + 1)
      if v = 0 then (put s).sxDone k o else s.sxJump k o ((o.index : Int) + sext16 (xImm w)) put)

/-- JAL: off21 is signed (R193). -/
def execJal (k : Nat) (s : State) : Host.Outcome State Fault Refusal :=
  .next (s.issueSx k (wantX 0x1F) (fun _ => []) (fun _ => []) fun w o skipped s =>
    if skipped then s.sxDone k o
    else s.sxJump k o ((o.index : Int) + signed 21 (bits w 20 0)) fun s =>
      s.setG k (xRd w) ⟨w32 (o.index + 1), false⟩ (s.now + 1))

/-- JR. -/
def execJr (k : Nat) (s : State) : Host.Outcome State Fault Refusal :=
  .next (s.issueSx k (wantX 0x20) (fun w => [xRa w]) (fun _ => []) fun w o skipped s =>
    if skipped then s.sxDone k o
    else s.guardUse k o [xRa w] fun s => s.sxJump k o ((s.core k).gv (xRa w)) id)

/-! ## Counters and the end (R195, R201, R202, R206) -/

/-- SWAIT: an illegal counter field waits on nothing (R158, R202). -/
def execSwait (k : Nat) (s : State) : Host.Outcome State Fault Refusal :=
  .next (s.issueSx k (wantX 0x28) (fun _ => []) sxWaits
    fun _ o _ s => s.sxDone k o)

/-- SSIG: a skipped one with a legal counter field signals as well (R202, R208). -/
def execSsig (k : Nat) (s : State) : Host.Outcome State Fault Refusal :=
  .next (s.issueSx k (wantX 0x29) (fun _ => []) (fun _ => []) fun w o _ s =>
    (if scCtr w < 0x30 then s.signal k (scCtr w) (scN w) else s).sxDone k o)

/-- SDLY: the next instruction issues no earlier than u + n (R206). -/
def execSdly (k : Nat) (s : State) : Host.Outcome State Fault Refusal :=
  .next (s.issueSx k (wantX 0x2A) (fun _ => []) (fun _ => []) fun w o skipped s =>
    if skipped then s.sxDone k o else (s.sxDone k o).setReady k .sx (s.now + xImm w + 1))

/-- SX_SEND: the SX stream issues its end (R201). -/
def execSxSend (k : Nat) (s : State) : Host.Outcome State Fault Refusal :=
  .next (s.issueSx k (wantX 0x3F) (fun _ => []) (fun _ => []) fun _ o _ s =>
    s.modStream k .sx fun t => { t with state := .run, sendAt := some s.now, sendOwed := o })

/-! ## Accesses: issue (R196 to R199, R205, R207, R208) -/

/-- Start an access: its destination registers wait for it, the stream goes on. -/
def State.startAcc (s : State) (k : Nat) (o : Owed) (a : SxAcc) : State :=
  let p := (((s.claimG k a.rd).claimG k a.rd2).setReady k .sx (s.now + 1)).passIndex k .sx false
  p.2.modCore k fun c => c.modSx fun x =>
    { x with acc := x.acc ++ [{ a with index := o.index, due := s.now + s.ctESX, ends := o.ends ++ p.1 }] }

def sxAcc (kind : SxAccKind) (rd : Nat) (refused : Bool) : SxAcc :=
  { kind := kind, rd := rd, index := 0, refused := refused, due := 0, ends := [] }

/-- The narrow word address of a memory access. -/
def Core.wordAddr (c : Core) (w : Nat) : Nat := wrapU 32 ((c.gv (xRa w) : Int) + sext16 (xImm w))

/-- What refuses an access to narrow word a at its issue: an address beyond the scratchpad, or a line of a bin (R62, R64, R196). -/
def Core.narrowIssue (c : Core) (a : Nat) : Option Nat :=
  firstOf [(decide (2 ^ 20 ≤ a), 0x0304), (c.binTouch (a / 64) 1, 0x030D)]

/-- The issue of a memory access (R196). -/
def State.startMem (s : State) (k : Nat) (o : Owed) (w : Nat) (a : SxAcc) : State :=
  let addr := (s.core k).wordAddr w
  match (s.core k).narrowIssue addr with
  | some code => (s.faultAt k .sx o.index code (pack [(14, addr / 64)])).startAcc k o { a with refused := true }
  | none => s.startAcc k o { a with addr := addr }

/-- LDW. -/
def execLdw (k : Nat) (s : State) : Host.Outcome State Fault Refusal :=
  .next (s.issueSx k (wantX 0x10) (fun w => [xRa w]) (fun _ => []) fun w o skipped s =>
    if skipped then s.startAcc k o (sxAcc .ldw (xRd w) true)
    else s.guardUse k o [xRa w] fun s => s.startMem k o w (sxAcc .ldw (xRd w) false))

/-- STW: the data register is read at issue; its poison is no control use (R191). -/
def execStw (k : Nat) (s : State) : Host.Outcome State Fault Refusal :=
  .next (s.issueSx k (wantX 0x11) (fun w => [xRa w, xRd w]) (fun _ => []) fun w o skipped s =>
    if skipped then s.startAcc k o (sxAcc .stw 0 true)
    else s.guardUse k o [xRa w] fun s =>
      s.startMem k o w { sxAcc .stw 0 false with data := (s.core k).g (xRd w) })

/-- LDP: an odd address is inconsistent (R197). -/
def execLdp (k : Nat) (s : State) : Host.Outcome State Fault Refusal :=
  .next (s.issueSx k (wantX 0x12) (fun w => [xRa w]) (fun _ => []) fun w o skipped s =>
    let a := { sxAcc .ldp (xRd w) skipped with rd2 := if xRd w = 31 then 0 else xRd w + 1 }
    if skipped then s.startAcc k o a
    else s.guardUse k o [xRa w] fun s =>
      if (s.core k).wordAddr w % 2 = 1 then
        let x := s.noteSkip k .sx o 0x0102 (s.skipDetail k 0)
        x.2.startAcc k x.1 { a with refused := true }
      else s.startMem k o w a)

/-- CRD. -/
def execCrd (k : Nat) (s : State) : Host.Outcome State Fault Refusal :=
  .next (s.issueSx k (wantX 0x13) (fun w => [xRa w]) (fun _ => []) fun w o skipped s =>
    if skipped then s.startAcc k o (sxAcc .crd (xRd w) true)
    else s.guardUse k o [xRa w] fun s =>
      s.startAcc k o { sxAcc .crd (xRd w) false with addr := ((s.core k).gv (xRa w) + xImm w) % 2 ^ 32 })

/-- CWR: the data register is a control use (R191). -/
def execCwr (k : Nat) (s : State) : Host.Outcome State Fault Refusal :=
  .next (s.issueSx k (wantX 0x14) (fun w => [xRa w, xRd w]) (fun _ => []) fun w o skipped s =>
    if skipped then s.startAcc k o (sxAcc .cwr 0 true)
    else s.guardUse k o [xRa w, xRd w] fun s =>
      s.startAcc k o { sxAcc .cwr 0 false with addr := ((s.core k).gv (xRa w) + xImm w) % 2 ^ 32
                                               data := (s.core k).g (xRd w) })

/-- XLAT. -/
def execXlat (k : Nat) (s : State) : Host.Outcome State Fault Refusal :=
  .next (s.issueSx k (wantX 0x32) (fun w => [xRa w]) (fun _ => []) fun w o skipped s =>
    if skipped then s.startAcc k o (sxAcc .xlat (xRd w) true)
    else s.guardUse k o [xRa w] fun s =>
      s.startAcc k o { sxAcc .xlat (xRd w) false with addr := bits w 1 0, data := (s.core k).g (xRa w) })

/-! ## Accesses: effect (R196 to R199, R205) -/

/-- The refusal of a narrow write by a keep region (R73, R74). -/
def Core.narrowCode (c : Core) (line : Nat) : Option Nat :=
  match c.regionOf false line with
  | some (_, r) =>
    if r.kind = kindFrozen then some 0x0307
    else if line - r.base < r.commit then some 0x0308
    else if line - r.base ≥ r.high then some 0x0309 else none
  | none => none

/-- Deliver the words of an access to its registers. -/
def State.deliver (s : State) (k : Nat) (a : SxAcc) (ws : List (PWord 32)) : State :=
  (s.setG k a.rd (ws.headD ⟨0, true⟩) (s.now + 1)).setG k a.rd2 (ws.getD 1 ⟨0, true⟩) (s.now + 1)

/-- Zero with poison, for a refused access. -/
def zeroPoison : List (PWord 32) := [⟨0, true⟩, ⟨0, true⟩]

/-- A load of one or two words in one slot. -/
def State.doLoad (s : State) (k : Nat) (a : SxAcc) (n : Nat) : State :=
  let line := a.addr / 64
  let s := (s.takeBanks k .sx false a.due fun _ => [line % 16]).2
  if (s.core k).readsZero false line then s.deliver k a (List.replicate n ⟨0, false⟩)
  else
    let r := s.readWords k (engCode .sx) a.addr n
    r.2.deliver k a r.1

/-- A store: to a control line it is a release or refused (R295, R307). -/
def State.doStore (s : State) (k : Nat) (a : SxAcc) : State :=
  let line := a.addr / 64
  let s := (s.takeBanks k .sx false a.due fun _ => [line % 16]).2
  match (s.core k).narrowCode line with
  | some code => s.faultAt k .sx a.index code (pack [(14, line)])
  | none =>
    match (s.core k).ctrlEntry line with
    | some (i, h) =>
      let r := s.release k i h a.addr a.data
      if r.1 then s.faultAt k .sx a.index 0x041A (pack [(12, i)]) else r.2
    | none => s.putWords k (engCode .sx) a.addr [a.data]

/-- Registers that CRD may read in strict mode (R391). -/
def strictReadable (o : Nat) : Bool :=
  [0x400, 0x404, 0x2008, 0x2100, 0x2104, 0x2108, 0x1C00, 0x3000, 0x3030, 0x3034, 0x2200, 0x3040, 0x3044, 0x5000, 0x2480,
    0x4000, 0x4004, 0x2304].contains o
  || (decide (0x1100 ≤ o) && decide (o < 0x1300)) || (decide (0x1400 ≤ o) && decide (o < 0x1C00))
  || (decide (0x3200 ≤ o) && decide (o < 0x32C0)) || (decide (0x3300 ≤ o) && decide (o < 0x33C0))
  || (decide (0x6000 ≤ o) && decide (o < 0x7080)) || (decide (0x2400 ≤ o) && decide (o < 0x2480))

/-- Whether an offset lies outside what CRD and CWR address (R198). -/
def badOffset (o : Nat) : Bool := o % 4 != 0 || decide (0x10000 ≤ o)

/-- CRD: unmapped offsets read 0 (R23, R198, R391). -/
def State.doCrd (s : State) (k : Nat) (a : SxAcc) : State :=
  if badOffset a.addr then (s.faultAt k .sx a.index 0x0122 (pack [(32, a.addr)])).deliver k a zeroPoison
  else
    let r := s.coreRead k a.addr
    if s.strict && r.1.isSome && !strictReadable a.addr then
      (s.faultAt k .sx a.index 0x0124 (pack [(18, a.addr)])).deliver k a zeroPoison
    else r.2.deliver k a [⟨r.1.getD 0, false⟩]

/-- Whether the host has written a word of the core block in the present cycle. -/
def State.hostWrote (s : State) (k o : Nat) : Bool :=
  (s.core k).ctl.hostCycle == s.now && (s.core k).ctl.hostWords.contains o

/-- CWR: IBANK.NEXT, REGION_NEXT and REGION_CTRL.APPLY only; a host write of the word in the same cycle stands (R198). -/
def State.doCwr (s : State) (k : Nat) (a : SxAcc) : State :=
  if badOffset a.addr then s.faultAt k .sx a.index 0x0122 (pack [(32, a.addr)])
  else if a.addr = 0x3000 ∨ (0x1800 ≤ a.addr ∧ a.addr ≤ 0x1C00) then
    (if s.hostWrote k a.addr then s else (s.coreWrite k a.addr a.data.val).2)
  else if latching a.addr || (s.coreReg k a.addr).isSome then s.faultAt k .sx a.index 0x0122 (pack [(32, a.addr)])
  else s

/-- XLAT: an input with no valid entry is refused (R205, R359). -/
def State.doXlat (s : State) (k : Nat) (a : SxAcc) : State :=
  let i := a.data.val.toNat
  let c := (s.core k).ctl
  if i < 256 ∧ c.patchValid.contains (256 * a.addr + i) then
    s.deliver k a [⟨(keyGet c.patch (256 * a.addr + i)).getD 0, false⟩]
  else (s.faultAt k .sx a.index 0x0123 (pack [(2, a.addr), (32, i)])).deliver k a zeroPoison

/-- The effect of an access. -/
def State.doAcc (s : State) (k : Nat) (a : SxAcc) : State :=
  if a.refused then s.deliver k a zeroPoison
  else match a.kind with
  | .ldw => s.doLoad k a 1
  | .ldp => s.doLoad k a 2
  | .stw => s.doStore k a
  | .crd => s.doCrd k a
  | .cwr => s.doCwr k a
  | .xlat => s.doXlat k a
  | .skip => s.deliver k a zeroPoison

/-! ## Arrivals (R203, R297) -/

def awCtr (w : Nat) : Nat := bits w 15 10
def awRa (w : Nat) : Nat := xRd w
def awRb (w : Nat) : Nat := xRa w

/-- The signal of an AWAIT whose counter field is legal and names a counter (R195, R208). -/
def awSig (w : Nat) : Option (Nat × Nat) := if awCtr w < 0x30 then some (awCtr w, bits w 9 2 + 1) else none

/-- Start a wait, an open or a close: the stream waits for its completion (R206). -/
def State.startWait (s : State) (k : Nat) (o : Owed) (x : SxWait) : State :=
  let p := (s.claimG k x.rd).passIndex k .sx false
  p.2.modCore k fun c => c.modSx fun y => { y with wait := some { x with index := o.index, ends := o.ends ++ p.1 } }

/-- AWAIT (R203). -/
def execAwait (k : Nat) (s : State) : Host.Outcome State Fault Refusal :=
  .next (s.issueSx k (wantX 0x2B) (fun w => [awRa w, awRb w]) (fun _ => []) fun w o skipped s =>
    if skipped then s.startAcc k o { sxAcc .skip 0 true with sig := awSig w }
    else s.guardUse k o [awRa w, awRb w] fun s =>
      let c := s.core k
      let h := c.gv (awRa w) % 65536
      let refused := (c.usable h kindStatus).isNone
      let s := if refused then s.faultAt k .sx o.index 0x0410 (pack [(16, h)]) else s
      s.startWait k o { kind := .await, handle := h, line := (c.handle (hIndex h)).ctrl, target := (c.g (awRb w)).val, sig := awSig w, index := 0
                        refused := refused, due := s.now + s.ctESX, ends := [] })

/-- Replace the wait in flight. -/
def State.putWait (s : State) (k : Nat) (x : SxWait) : State :=
  s.modCore k fun c => c.modSx fun y => { y with wait := some x }

/-- The end of an AWAIT, HOPEN or HCLOSE: the stream runs on after this cycle (R206). -/
def State.endWait (s : State) (k : Nat) (x : SxWait) : State :=
  let s := s.modCore k fun c => c.modSx fun y => { y with wait := none }
  let s := ((s.modStream k .sx fun t => if t.state = .waitArr then { t with state := .run } else t)).setReady k .sx (s.now + 1)
  s.complete k .sx { sigA := x.sig, index := x.index, ends := x.ends }

/-- Whether the SX port has made every access that was issued before the wait in flight. -/
def Core.sxAlone (c : Core) : Bool := c.sx.acc.isEmpty && c.ctl.stopAt.isNone

/-- AWAIT_COMPLETE: one read of the status word (R203, R297). In WAIT_ARR the word is read once more after each change, from the cycle
after it on; without a change since the latest read nothing happens. -/
def execAwaitComplete (k : Nat) (s : State) : Host.Outcome State Fault Refusal :=
  .next (match (s.core k).sx.wait with
    | none => s
    | some x =>
      let h := (s.core k).handle (hIndex x.handle)
      if x.kind ≠ .await ∨ !(s.core k).sxAlone ∨ (x.waitTick.isSome ∧ h.changedAt < x.readAt) then s
      else
        let s := s.advance x.due
        if x.refused then s.endWait k x
        else
          let s := if x.waitTick.isSome then s.advance (h.changedAt + 1) else s
          let s := (s.takeBanks k .sx false (if x.waitTick.isSome then h.changedAt + 1 else x.due) fun _ => [x.line % 16]).2
          let x := { x with readAt := s.now }
          let h := (s.core k).handle (hIndex x.handle)
          let r := s.readStatus k (engCode .sx) x.line h
          let s := r.2.2.putWait k x
          if reached r.1 x.target || r.2.1 != 0 then s.endWait k x
          else if h.changedAt != s.now && !(s.core k).alive x.handle then
            (s.faultAt k .sx x.index 0x0410 (pack [(16, x.handle)])).endWait k x
          else if x.waitTick.isSome then s
          else (s.modStream k .sx fun t => { t with state := .waitArr }).putWait k { x with waitTick := some s.tick })

/-! ## Handles (R204, R298, R313) -/

/-- HOPEN: the address of the descriptor is a control use (R191). A descriptor beyond the scratchpad or in a bin is refused at issue
(R62, R64). -/
def execHopen (k : Nat) (s : State) : Host.Outcome State Fault Refusal :=
  .next (s.issueSx k (wantX 0x30) (fun w => [xRa w]) (fun _ => []) fun w o skipped s =>
    if skipped then s.startAcc k o (sxAcc .skip (xRd w) true)
    else s.guardUse k o [xRa w] fun s =>
      let a := (s.core k).gv (xRa w)
      let x : SxWait := { kind := .hopen, handle := a, rd := xRd w, index := 0, refused := false, due := s.now + s.ctESX, ends := [] }
      match (s.core k).narrowIssue a with
      | some code => (s.faultAt k .sx o.index code (pack [(14, a / 64)])).startWait k o
          { x with stage := .done, due := s.now + s.ctESX + 4 }
      | none => s.startWait k o x)

/-- The read of a HOPEN: the descriptor's line whole, in one slot (R298). -/
def State.hopenRead (s : State) (k : Nat) (x : SxWait) : State :=
  let s := ((s.advance x.due).takeBanks k .sx false x.due fun _ => [x.handle / 64 % 16]).2
  let r := s.readLine k (engCode .sx) (x.handle / 64)
  r.2.putWait k { x with stage := .write, words := r.1.drop (x.handle % 64), due := s.now + 1 }

/-- The cycle after the read: the unit accepts the descriptor, and the control line is written as zero in a slot of the SX port, or it
refuses it (R295, R298, R299). -/
def State.hopenWrite (s : State) (k : Nat) (x : SxWait) : State :=
  let s := s.advance x.due
  let d := (parseDesc x.words).entry
  let s := if (s.openRefusal k x.handle x.words).isNone && kindStatus d.kind then
      (s.takeBanks k .sx false x.due fun _ => [d.ctrl % 16]).2 else s
  let y := s.openEntry k x.index x.handle x.words
  y.2.putWait k { x with stage := .done, due := s.now + 3, result := match y.1 with
    | some h => ⟨w32 h, false⟩
    | none => ⟨0, true⟩ }

/-- HOPEN_COMPLETE: rd gets the handle, or zero with poison (R298, R299). -/
def execHopenComplete (k : Nat) (s : State) : Host.Outcome State Fault Refusal :=
  .next (match (s.core k).sx.wait with
    | none => s
    | some x =>
      if x.kind ≠ .hopen ∨ ¬ (s.core k).sx.acc.isEmpty ∨ x.stage ≠ .done then s
      else
        let s := s.advance x.due
        (s.setG k x.rd x.result (s.now + 1)).endWait k x)

/-- SX_ACCESS: the oldest access in flight takes effect and completes, in program order (R199, R207); of a HOPEN, its read or what
follows in the next cycle (R298). -/
def execSxAccess (k : Nat) (s : State) : Host.Outcome State Fault Refusal :=
  .next (match (s.core k).sx.acc, (s.core k).sx.wait with
    | a :: _, _ =>
      let s := (s.advance a.due).doAcc k a
      let s := s.modCore k fun c => c.modSx fun x => { x with acc := x.acc.drop 1 }
      s.complete k .sx { sigA := a.sig, index := a.index, ends := a.ends }
    | [], some x =>
      if x.kind ≠ .hopen then s
      else match x.stage with
      | .read => s.hopenRead k x
      | .write => s.hopenWrite k x
      | .done => s
    | [], none => s)

/-- HCLOSE. -/
def execHclose (k : Nat) (s : State) : Host.Outcome State Fault Refusal :=
  .next (s.issueSx k (wantX 0x31) (fun w => [xRa w]) (fun _ => []) fun w o skipped s =>
    if skipped then s.startAcc k o (sxAcc .skip 0 true)
    else s.guardUse k o [xRa w] fun s =>
      s.startWait k o { kind := .hclose, handle := (s.core k).gv (xRa w) % 65536, now := bit w 0, index := 0
                        refused := false, due := s.now + s.ctESX + 1, ends := [] })

/-- HCLOSE_COMPLETE (R313). -/
def execHcloseComplete (k : Nat) (s : State) : Host.Outcome State Fault Refusal :=
  .next (match (s.core k).sx.wait with
    | none => s
    | some x =>
      if x.kind ≠ .hclose ∨ ¬ (s.core k).sx.acc.isEmpty then s
      else
        let s := s.advance x.due
        let r := s.closeHandle k x.handle x.now
        match r.1 with
        | some code => (s.faultAt k .sx x.index code (pack [(16, x.handle)])).endWait k x
        | none => r.2.endWait k x)

/-! ## The arrival watchdog (R320) -/

/-- ARRIVAL_WATCHDOG: the wait of NX or SX ends (R320). -/
def execArrivalWatchdog (k : Nat) (e : Engine) (s : State) : Host.Outcome State Fault Refusal :=
  .next (let c := s.core k
    let sh := watchShift c.chan.arriveShift.toNat
    if sh = 0 then s
    else match e with
    | .nx => (match c.nxWait with
      | some o => (match o.waitTick with
        | some t =>
          ((s.advanceTick (t + 2 ^ sh)).faultAt k .nx o.owed.index 0x0419 (pack [(16, o.handle)])).endNwait k o
        | none => s)
      | none => s)
    | .sx => (match c.sx.wait with
      | some x => (match x.waitTick with
        | some t =>
          ((s.advanceTick (t + 2 ^ sh)).faultAt k .sx x.index 0x0419 (pack [(16, x.handle)])).endWait k x
        | none => s)
      | none => s)
    | _ => s)

end Sys2Proof.Machine
end

