-- ==== Sys2Proof/Machine/VxStages.lean ====
section
/-! DEFINITION. The vector chain as pure arithmetic: configurations, their check, and the twelve stage kinds. -/

namespace Sys2Proof.Machine

/-- What R115 lists for a kind: OP limit, TE rule (0 none, 1 set, 2 free), BS allowed, SH1 and SH2 limits, and the bits
that FLG, K0, K1 and K2 may use. -/
structure KindRule where
  op : Nat
  te : Nat
  bs : Bool
  sh1 : Nat
  sh2 : Nat
  flg : Nat
  k0 : Nat
  k1 : Nat
  k2 : Nat
deriving DecidableEq, Repr

def all32 : Nat := 2 ^ 32 - 1

/-- The table of R115; none for kind 0 and the reserved kinds (R114). -/
def kindRule (kind : Nat) : Option KindRule :=
  match kind with
  | 1 => some ⟨0, 0, false, 39, 31, 7, 0, 0, 0⟩
  | 2 => some ⟨0, 2, false, 63, 0, 6, 0xFFFF, 0, 0⟩
  | 3 => some ⟨12, 0, true, 63, 0, 0, all32, 0, 0⟩
  | 4 => some ⟨0, 1, false, 31, 15, 1, all32, 0, 0⟩
  | 5 => some ⟨0, 1, false, 31, 30, 63, all32, 0, 0⟩
  | 6 => some ⟨7, 0, true, 3, 63, 0, all32, all32, all32⟩
  | 7 => some ⟨4, 0, false, 7, 0, 3, 0, 0, 0⟩
  | 8 => some ⟨3, 2, false, 0, 0, 0, 0x7F, 0, 0⟩
  | 9 => some ⟨2, 0, false, 0, 0, 0, 0x3FFF, 0x3F, 0⟩
  | 10 => some ⟨0, 0, false, 0, 0, 0, 0, 0, 0⟩
  | 11 => some ⟨0, 0, false, 0, 0, 0, all32, 0, 0⟩
  | 12 => some ⟨1, 0, false, 0, 0, 0, 0, 0, 0⟩
  | _ => none

/-- Whether v uses a bit outside the mask m. -/
def outside (v m : Nat) : Bool := v &&& m != v

/-- Whether a descriptor breaks R115, or has BS = 1 without a stream (R116). K0 of a REQUANT with TE = 1 holds no M, so that all of it
falls under 'rest 0' (DEDUCED, log 17). -/
def stageBad (ben : Bool) (d : Nat) : Bool :=
  match kindRule (dKind d) with
  | none => true
  | some r =>
    decide (dOp d > r.op) || (r.te == 0 && dTe d) || (r.te == 1 && !dTe d) || (!dTe d && dTab d != 0)
    || (!r.bs && dBs d) || decide (dSh1 d > r.sh1) || decide (dSh2 d > r.sh2)
    || outside (dFlg d) r.flg || outside (dK0 d) r.k0 || outside (dK1 d) r.k1 || outside (dK2 d) r.k2
    || (dBs d && !ben)
    || (dKind d == 2 && dTe d && (dSh1 d != 0 || dK0 d != 0))
    || (dKind d == 3 && dOp d != 3 && dOp d != 4 && dSh1 d != 0)
    || (dKind d == 3 && (dOp d == 4 || dOp d == 7) && (dBs d || dK0 d != 0))
    || (dKind d == 6 && (decide (bits (dSh2 d) 2 0 > 4) || decide (bits (dSh2 d) 5 3 > 4)))
    || (dKind d == 7 && bit (dFlg d) 0 && (decide (dOp d ≥ 3) || dSh1 d != 0))
    || (dKind d == 7 && !bit (dFlg d) 0 && dSh1 d == 0)
    || (dKind d == 8 && (dTe d != (dOp d == 0)))

def wideOk (kind : Nat) : Bool := kind == 1 || kind == 2 || kind == 6

/-- The offending stages of a chain from stage i on; `w`: a lane is wide there; `g`: a GATHER stood before (R116). -/
def chainBad (ofmt n : Nat) (ben dense w g : Bool) (i : Nat) : List Nat → List Nat × Bool
  | [] => ([], w)
  | d :: r =>
    let k := dKind d
    let bad := stageBad ben d || (w && !wideOk k) || (k == 9 && g)
      || (k == 12 && (i + 1 != n || ofmt != dOp d || dense))
    let t := chainBad ofmt n ben dense (w && k != 1 && k != 2) (g || k == 9) (i + 1) r
    (if bad then i :: t.1 else t.1, t.2)

/-- Source slots per line less one (R107). -/
def slotMax (f : Nat) : Nat := if f = fmtInt4 then 3 else if f = fmtInt8 then 1 else 0

/-- Whether a reserved bit of the header or a byte from 160 on is set (R112, R116). -/
def headReserved (c : List Nat) : Bool :=
  bits (cfgWord c 0) 31 24 != 0 || bits (cfgWord c 1) 31 14 != 0 || bits (cfgWord c 2) 31 20 != 0
    || bits (cfgWord c 3) 31 14 != 0 || bits (cfgWord c 4) 31 20 != 0 || bits (cfgWord c 5) 31 20 != 0
    || cfgWord c 6 != 0 || cfgWord c 7 != 0 || (c.drop 40).any (· != 0)

/-- The check of R116: the index of the first offending stage, 8 for the header, none when consistent. Where a condition joins a stage and
the header or two stages, R116 does not say which offends (DESIGN CHOICE, log 17): a wide lane at the output counts as the header's, OFMT
unlike the PACK format and DENSE with PACK as the PACK stage's, a stage after one of kind 0x0 as the later stage's. -/
def cfgBad (c : List Nat) (src sslot oslot : Nat) : Option Nat :=
  let n := cStages c
  let x := chainBad (cOfmt c) n (cBen c) (cDense c) (src == fmtAcc) false 0 (cChain c)
  let tail := (List.range 8).filter fun i => decide (n ≤ i) && dKind (cStage c i) != 0
  let head := headReserved c || x.2 || !bfmtOk (cBfmt c)
    || (cScaled c && src != fmtInt8 && src != fmtInt4) || !ofmtOk (cOfmt c)
    || (cDense c && (cLast c || oslot != 0))
    || (src != fmtAcc && decide (sslot > slotMax src)) || (ofmtOk (cOfmt c) && decide (oslot > slotMax (cOfmt c)))
  (x.1 ++ tail ++ (if head then [8] else [])).head?

/-! ## The stages (R117 to R121) -/

/-- The saturation width of code W (R115). -/
def satWidth (w : Nat) : Nat := if w = 0 then 32 else if w = 1 then 16 else if w = 2 then 8 else 4

def asS32 (v : Nat) : Int := signed 32 v

/-- Word i of a slot. -/
def Slot.word (t : Slot) (i : Nat) : PWord 32 := t.words.getD i ⟨0, false⟩

/-- The s16 at bytes 2i, 2i + 1. -/
def Slot.s16 (t : Slot) (i : Nat) : Int := signed 16 ((t.word (i / 2)).val.toNat / 2 ^ (16 * (i % 2)))

def Slot.byte (t : Slot) (i : Nat) : Nat := (t.word (i / 4)).val.toNat / 2 ^ (8 * (i % 4)) % 256

/-- What a chain reads beside its lanes: tables, operand stream, snapshot. -/
structure ChainEnv where
  tabs : List Slot
  b : List (Int × Bool)
  snap : List (PWord 32)
deriving DecidableEq, Repr

/-- What a chain computes: lanes, clamped results (R46), gather lanes out of range and the first of them, the running
state of each stage position, and the four scales of a PACK. -/
structure ChainAcc where
  lanes : List Lane
  sat : Nat := 0
  oor : Nat := 0
  firstOor : Option Nat := none
  red : List RedState := []
  scales : List (Nat × Bool) := []
deriving DecidableEq, Repr

/-- Operand b of lane l with its poison. -/
def ChainEnv.operand (e : ChainEnv) (d l : Nat) : Int × Bool :=
  if dBs d then e.b.getD l (0, false) else (asS32 (dK0 d), false)

def ChainEnv.tab (e : ChainEnv) (d : Nat) : Slot := e.tabs.getD (dTab d) {}

/-- SHIFT-SAT. -/
def shiftSat (d : Nat) (x : Int) : Int :=
  let v := x * (2 ^ dSh2 d : Int)
  satS (satWidth (bits (dFlg d) 2 1)) (if bit (dFlg d) 0 then rheShift v (dSh1 d) else v / (2 ^ dSh1 d : Int))

/-- ARITH. -/
def arith (op sh : Nat) (x b : Int) : Int :=
  match op with
  | 0 => satS 32 (x + b)
  | 1 => satS 32 (x - b)
  | 2 => satS 32 (b - x)
  | 3 => satS 32 (rheShift (x * b) sh)
  | 4 => satS 32 (rheShift (x * x) sh)
  | 5 => min x b
  | 6 => max x b
  | 7 => satS 32 (x.natAbs : Int)
  | 8 => asS32 (wrapU 32 x &&& wrapU 32 b)
  | 9 => asS32 (wrapU 32 x ||| wrapU 32 b)
  | 10 => asS32 (wrapU 32 x ^^^ wrapU 32 b)
  | 11 => asS32 (wrapU 32 (x * (2 ^ wrapU 5 b : Int)))
  | _ => x / (2 ^ wrapU 5 b : Int)

/-- LUT: the result and the entries read. -/
def lut (d : Nat) (t : Slot) (x : Int) : Int × List Nat :=
  let u := x - asS32 (dK0 d)
  let i := u / (2 ^ dSh1 d : Int)
  let r := if i < 0 then (t.s16 0, [0])
    else if i ≥ 255 then (t.s16 255, [255])
    else
      let n := i.toNat
      if !bit (dFlg d) 0 then (t.s16 n, [n])
      else (t.s16 n + rheShift ((t.s16 (n + 1) - t.s16 n) * (u - i * (2 ^ dSh1 d : Int))) (dSh1 d), [n, n + 1])
  (r.1 * (2 ^ dSh2 d : Int), r.2)

/-- The largest of 0 and the smallest of v and m. -/
def clampI (v m : Int) : Int := if v < 0 then 0 else if v > m then m else v

/-- POLY: the result and the segment. -/
def poly (d : Nat) (t : Slot) (x : Int) : Int × Nat :=
  let u := x - asS32 (dK0 d)
  let s := clampI (u / (2 ^ dSh1 d : Int)) 15
  let tt := clampI (u - s * (2 ^ dSh1 d : Int)) ((2 ^ dSh1 d : Int) - 1)
  let tq := tt * (2 ^ dSh2 d : Int) / (2 ^ dSh1 d : Int)
  let n := s.toNat
  let c := fun k => asS32 (t.word (4 * n + k)).val.toNat
  let step := fun (h : Int) (k : Nat) => satS 32 (c k + rheShift (h * tq) (dSh2 d))
  (satS 32 (rheShift (step (step (step (c 3) 2) 1) 0) (dFlg d)), n)

/-- The condition of CMP-SEL. -/
def cmpCond (op : Nat) (x b : Int) (p : Bool) : Bool :=
  match op with
  | 0 => x == b
  | 1 => x != b
  | 2 => decide (x < b)
  | 3 => decide (x ≤ b)
  | 4 => decide (x > b)
  | 5 => decide (x ≥ b)
  | 6 => x == s40Max || x == s40Min
  | _ => p

/-- A source of CMP-SEL. -/
def cmpSrc (sel : Nat) (d l : Nat) (x b : Int) : Int :=
  match sel with
  | 0 => x
  | 1 => b
  | 2 => asS32 (dK1 d)
  | 3 => asS32 (dK2 d)
  | _ => (l : Int)

def cmpPred (mode : Nat) (p c : Bool) : Bool :=
  match mode with
  | 0 => p
  | 1 => c
  | 2 => p && c
  | _ => p || c

/-- Whether a CMP-SEL uses b: its condition or a selected source does (R118). -/
def cmpUsesB (d : Nat) : Bool :=
  decide (dOp d ≤ 5) || bits (dSh2 d) 2 0 == 1 || bits (dSh2 d) 5 3 == 1

/-- One lane through an element-wise stage: the lane and whether a result was clamped and counts (R117, R118). -/
def laneStage (e : ChainEnv) (d l : Nat) (x : Lane) : Lane × Nat :=
  let b := e.operand d l
  let t := e.tab d
  match dKind d with
  | 1 => ({ x with val := shiftSat d x.val }, 0)
  | 2 =>
    let w := t.word l
    let m := if dTe d then bits w.val.toNat 15 0 else bits (dK0 d) 15 0
    let s := if dTe d then bits w.val.toNat 21 16 else dSh1 d
    let r := requant x.val m s (satWidth (bits (dFlg d) 2 1))
    ({ x with val := r.1, poison := x.poison || (dTe d && w.poison) }, flag r.2)
  | 3 =>
    ({ x with val := arith (dOp d) (dSh1 d) x.val b.1
              poison := x.poison || (dOp d != 4 && dOp d != 7 && b.2) }, 0)
  | 4 =>
    let r := lut d t x.val
    ({ x with val := r.1, poison := x.poison || r.2.any fun i => (t.word (i / 2)).poison }, 0)
  | 5 =>
    let r := poly d t x.val
    ({ x with val := r.1, poison := x.poison || (List.range 4).any fun k => (t.word (4 * r.2 + k)).poison }, 0)
  | 6 =>
    let c := cmpCond (dOp d) x.val b.1 x.pred
    ({ val := cmpSrc (if c then bits (dSh2 d) 2 0 else bits (dSh2 d) 5 3) d l x.val b.1
       pred := cmpPred (bits (dSh1 d) 1 0) x.pred c
       poison := x.poison || (cmpUsesB d && b.2) }, 0)
  | _ => (x, 0)

def noLane : Lane := { val := 0, pred := false, poison := false }

def laneAt (ls : List Lane) (i : Nat) : Lane := ls.getD i noLane

/-- Fold of MAX or MIN over the lanes that take part. -/
def extreme (isMax : Bool) (ls : List (Nat × Int)) : Option (Nat × Int) :=
  match ls with
  | [] => none
  | x :: r =>
    match extreme isMax r with
    | none => some x
    | some y => if (if isMax then decide (y.2 > x.2) else decide (y.2 < x.2)) then some y else some x

/-- The value of a lane-mode REDUCE for one group (R119). -/
def reduceGroup (op : Nat) (part : List (Nat × Int)) : Int :=
  match op with
  | 0 => satS 32 (sumInt (part.map (·.2)))
  | 1 => ((extreme true part).map (·.2)).getD (-2147483648)
  | 2 => ((extreme false part).map (·.2)).getD 2147483647
  | 3 => ((extreme true part).map fun x => (x.1 : Int)).getD (-1)
  | _ => ((extreme false part).map fun x => (x.1 : Int)).getD (-1)

/-- REDUCE in lane mode. -/
def reduceLanes (d : Nat) (ls : List Lane) : List Lane :=
  let g := 2 ^ dSh1 d
  let groups := (List.range (128 / g)).map fun j =>
    let part := (List.range g).filterMap fun i =>
      let x := laneAt ls (g * j + i)
      if x.pred then some (i, x.val, x.poison) else none
    (reduceGroup (dOp d) (part.map fun p => (p.1, p.2.1)), part.any fun p => p.2.2)
  (List.range 128).map fun l =>
    let r := groups.getD (l / g) (0, false)
    { val := r.1, pred := (laneAt ls l).pred, poison := r.2 }

/-- The identity of a running REDUCE (R120). -/
def reduceIdentity (op : Nat) : Int := if op = 0 then 0 else if op = 1 then -2147483648 else 2147483647

/-- REDUCE in running mode (R120): the lanes and the new state. A lane that has not been updated since its state was emptied stays
empty, and shows the identity of the operation. -/
def reduceRunning (d : Nat) (st : RedState) (ls : List Lane) : List Lane × RedState :=
  let first := (reduceIdentity (dOp d), false)
  let new := (List.range 128).map fun l =>
    let x := laneAt ls l
    if x.pred then
      let r := (st.lanes.getD l none).getD first
      some (if dOp d = 0 then satS 32 (r.1 + x.val) else if dOp d = 1 then max r.1 x.val else min r.1 x.val,
       r.2 || x.poison)
    else st.lanes.getD l none
  ((List.range 128).map fun l =>
    let r := (new.getD l none).getD first
    { val := r.1, pred := (laneAt ls l).pred, poison := r.2 }, { lanes := new })

/-- PERMUTE (R119). Entry T[l] of TABLE is byte l of the slot: R119 gives it eight bits and no place (DESIGN CHOICE, log 17). -/
def permute (d : Nat) (t : Slot) (ls : List Lane) : List Lane :=
  let k := bits (dK0 d) 6 0
  (List.range 128).map fun l =>
    match dOp d with
    | 0 =>
      let b := t.byte l
      let p := (t.word (l / 4)).poison
      if b ≥ 128 then { val := 0, pred := false, poison := p }
      else let x := laneAt ls b
           { x with poison := x.poison || p }
    | 1 => laneAt ls ((l + k) % 128)
    | 2 => laneAt ls k
    | _ => laneAt ls (127 - l)

/-- The format code of GFMT (R115). -/
def gatherFmt (op : Nat) : Nat := if op = 0 then fmtInt8 else if op = 1 then fmtS16 else fmtS32

/-- One lane of GATHER: the lane and whether its index is out of range (R121). -/
def gatherLane (d : Nat) (snap : List (PWord 32)) (x : Lane) : Lane × Bool :=
  let f := gatherFmt (dOp d)
  let w := fmtBits f
  let n := (bits (dK1 d) 5 0 + 1) * perLine f
  if 0 ≤ x.val ∧ x.val < (n : Int) then
    let i := x.val.toNat
    let p := snap.getD (i * w / 32) ⟨0, false⟩
    ({ x with val := signed w (p.val.toNat / 2 ^ (i * w % 32)), poison := x.poison || p.poison }, false)
  else ({ x with val := 0, poison := true }, true)

/-- The lanes whose predicate is 1, in lane order. -/
def chosen (ls : List Lane) : List Lane := ls.filter (·.pred)

/-- EXPAND (R119): the lanes with predicate 1 take lanes 0, 1, 2 of the input. -/
def expand (fill : Int) (src : List Lane) : List Lane → List Lane
  | [] => []
  | x :: r =>
    if x.pred then
      let y := src.headD noLane
      { val := y.val, pred := true, poison := y.poison } :: expand fill (src.drop 1) r
    else { val := fill, pred := false, poison := false } :: expand fill src r

/-- PACK (R119, R45): lanes, scales and the number clamped. -/
def packLanes (d : Nat) (ls : List Lane) : List Lane × List (Nat × Bool) × Nat :=
  let gs := (List.range 4).map fun g =>
    let lanes := (List.range 32).map fun i => laneAt ls (32 * g + i)
    (packGrain (lanes.map (·.val)) (dOp d == 0), lanes.any (·.poison), lanes)
  (gs.flatMap fun g => (List.range 32).map fun i =>
      { val := g.1.1.getD i 0, pred := (laneAt g.2.2 i).pred, poison := g.2.1 },
   gs.map fun g => (g.1.2.1, g.2.1),
   gs.foldl (fun n g => n + g.1.2.2) 0)

/-- Stage i with descriptor d. -/
def applyStage (e : ChainEnv) (i d : Nat) (a : ChainAcc) : ChainAcc :=
  match dKind d with
  | 7 =>
    if bit (dFlg d) 0 then
      let r := reduceRunning d (a.red.getD i {}) a.lanes
      { a with lanes := r.1, red := modAt a.red i fun _ => r.2 }
    else { a with lanes := reduceLanes d a.lanes }
  | 8 => { a with lanes := permute d (e.tab d) a.lanes }
  | 9 =>
    let r := a.lanes.map (gatherLane d e.snap)
    { a with lanes := r.map (·.1), oor := a.oor + (r.filter (·.2)).length
             firstOor := a.firstOor.orElse fun _ => r.findIdx? (·.2) }
  | 10 =>
    let c := chosen a.lanes
    { a with lanes := c ++ List.replicate (128 - c.length) noLane }
  | 11 => { a with lanes := expand (asS32 (dK0 d)) a.lanes a.lanes }
  | 12 =>
    let r := packLanes d a.lanes
    { a with lanes := r.1, scales := r.2.1, sat := a.sat + r.2.2 }
  | _ =>
    let r := (List.range 128).map fun l => laneStage e d l (laneAt a.lanes l)
    { a with lanes := r.map (·.1), sat := r.foldl (fun n x => n + x.2) a.sat }

/-- The whole chain from stage i on. -/
def runChain (e : ChainEnv) (i : Nat) (a : ChainAcc) : List Nat → ChainAcc
  | [] => a
  | d :: r => runChain e (i + 1) (applyStage e i d a) r

/-- The running states that a VRUN empties at its start: those of REDUCE stages with CARRY = 0 (R120). -/
def emptyStates (i : Nat) (red : List RedState) : List Nat → List RedState
  | [] => red
  | d :: r =>
    emptyStates (i + 1)
      (if dKind d == 7 && bit (dFlg d) 0 && !bit (dFlg d) 1 then modAt red i fun _ => {} else red) r

/-! ## Output words (R122) -/

/-- Lanes as words of format f, clamped to its range, with the poison of the lanes that each word holds. -/
def outWords (f : Nat) (ls : List (Int × Bool)) : List (PWord 32) :=
  let w := fmtBits f
  let per := 32 / w
  (List.range (ceilDiv ls.length per)).map fun i =>
    let part := (ls.drop (per * i)).take per
    ⟨BitVec.ofNat 32 (pack (part.map fun x => (w, wrapU w (satS w x.1)))), part.any (·.2)⟩

end Sys2Proof.Machine
end

