-- ==== Sys2Proof/Machine/Vx.lean ====
section
/-! DEFINITION. The vector chain: table loads, runs, vector entries, output writes, completions. -/

namespace Sys2Proof.Machine

/-! ## VCFG and VTAB (R110, R111, R128, R130, R171) -/

def vcSlot (w : Nat) : Nat := bits w 2 0
def vcLine (w : Nat) : Nat := bits w 16 3
def vtSlot (w : Nat) : Nat := bits w 3 0
def vtLine (w : Nat) : Nat := bits w 17 4
def vtLines (w : Nat) : Nat := bits w 18 18 + 1

/-- The words of a slot, written out: 64 for a configuration slot, 128 for a table slot. -/
def Slot.full (t : Slot) (n : Nat) : List (PWord 32) := (List.range n).map t.word

/-- Issue of a load of n lines, read in cycles u + 1 to u + n (R128). A refused load poisons its whole slot (R130). -/
def State.issueTab (s : State) (k : Nat) (tab : Bool) (slot line n : Nat) (o : Owed) (skipped : Bool) : State :=
  let s := s.fetchBefore k s.now
  let u := s.now
  let code := if skipped then none else (s.core k).readCode false line n
  let s := match code with
    | some c => s.faultAt k .vx o.index c (pack [(14, line)])
    | none => s
  let refused := skipped || code.isSome
  let old := if tab then (s.core k).vx.tab.getD slot {} else (s.core k).vx.cfg.getD slot {}
  let r := if refused then s.spoilAll ((old.full (if tab then 128 else 64)).map fun w => ⟨w.val, true⟩) else ([], s)
  let fetch : List LineRead := if refused then [] else
    (List.range n).map fun i => { due := u + 1 + i, row := 0, what := .table, line := ((line + i : Nat) : Int) }
  let due := if refused then u + n + 1 else max (u + n + 1) (after (s.core k).vx.lastExit)
  let op : TabOp :=
    { owed := o, issue := u, fetch := fetch, tab := tab, slot := slot, lines := n, words := r.1, refused := refused, due := due }
  (r.2.setReady k .vx (u + n)).modCore k fun c => c.modVx fun v => { v with loads := v.loads ++ [op] }

/-- VCFG (R128). -/
def execVcfg (k : Nat) (s : State) : Host.Outcome State Fault Refusal :=
  .next (s.issueOp k .vx (s.boundOf k .vx) (wantOp 1) fun w o skipped s =>
    s.issueTab k false (vcSlot w) (vcLine w) 1 o skipped)

/-- VTAB (R128). -/
def execVtab (k : Nat) (s : State) : Host.Outcome State Fault Refusal :=
  .next (s.issueOp k .vx (s.boundOf k .vx) (wantOp 2) fun w o skipped s =>
    s.issueTab k true (vtSlot w) (vtLine w) (vtLines w) o skipped)

/-- The load that takes effect first. -/
def firstLoad : List TabOp → Option TabOp
  | [] => none
  | x :: r =>
    match firstLoad r with
    | none => some x
    | some y => if y.due < x.due then some y else some x

/-- Remove one load. -/
def dropTab (x : TabOp) : List TabOp → List TabOp
  | [] => []
  | y :: r => if y = x then r else y :: dropTab x r

/-- The first run whose check waits for a load into configuration slot `slot` (R116). -/
def lateRun (slot : Nat) : List VrunOp → Option VrunOp
  | [] => none
  | r :: t => if r.late && r.cslot == slot then some r else lateRun slot t

/-- Record what the check of a run found (R116, R130). -/
def State.recordCheck (s : State) (k : Nat) (o : Owed) : Option (Nat × Nat × Bool) → Owed × State
  | none => (o, s)
  | some (code, detail, skip) =>
    if skip then s.noteSkip k .vx o code detail else (o, s.faultAt k .vx o.index code detail)

/-- The write of a load into its slot. -/
def Vx.load (v : Vx) (x : TabOp) : Vx :=
  let put := fun (t : Slot) => ({ words := x.words ++ (t.full (if x.tab then 128 else 64)).drop x.words.length
                                  loaded := true } : Slot)
  { v with cfg := if x.tab then v.cfg else modAt v.cfg x.slot put
           tab := if x.tab then modAt v.tab x.slot put else v.tab
           loads := dropTab x v.loads }

/-! ## VRUN operands (R172) -/

def vrCslot (w : Nat) : Nat := bits w 2 0
def vrSrc (w : Nat) : Nat := bits w 5 3
def vrBank (w : Nat) : Nat := bits w 7 6
def vrRow (w : Nat) : Nat := bits w 15 8
def vrSline (w : Nat) : Nat := bits w 19 6
def vrSslot (w : Nat) : Nat := bits w 21 20
def vrOline (w : Nat) : Nat := bits w 35 22
def vrOslot (w : Nat) : Nat := bits w 37 36
def vrCount (w : Nat) : Nat := bits w 49 38 + 1
def vrSbin (w : Nat) : Bool := bit w 50
def vrObin (w : Nat) : Bool := bit w 51

/-- Lines of a format read or written per vector, in 64ths (R107, R126). -/
def sixtyFourths (f : Nat) : Nat := if f = fmtAcc then 0 else 4 * fmtBits f

/-- q of R126. -/
def rateOf (c : List Nat) (src : Nat) : Nat :=
  let r := sixtyFourths src + flag (cScaled c) + (if cBen c then sixtyFourths (strFmt c) else 0)
  let w := sixtyFourths (outFmt c) + flag (cPack c).isSome
  max (max 1 (if (cGather c).isSome then 8 else 1)) (max (ceilDiv r 64) (ceilDiv w 64))

/-- L of R125. -/
def chainLen (c : List Nat) : Nat := 4 + 3 * cStages c

/-- c_w of R127. -/
def denseWait (c : List Nat) : Nat := if outFmt c = fmtS32 then 2 else 1

/-! ## The schedule (R127) -/

/-- Lines of the run of scale words that vectors 0 to j use. -/
def scaleLines (a : Int) (j : Nat) : Nat := ((a + (j : Int)) / 64 - a / 64).toNat + 1

/-- Reads, other than the snapshot, that serve vectors 0 to j. -/
def readsTo (o : VrunOp) (sline j : Nat) : Nat :=
  (if o.src = fmtAcc then 0 else runLines o.src o.sslot (j + 1))
  + (if cScaled o.cfg && o.src != fmtAcc then
      scaleLines (scaleAddr (cSscword o.cfg) (rplOf o.src) sline (cSdbase o.cfg) o.sslot 0) j else 0)
  + (if cBen o.cfg then runLines (strFmt o.cfg) 0 (j + 1) else 0)

/-- How far the reads push the first entry beyond u + 2 + G; none without reads. -/
def readPush (o : VrunOp) (sline : Nat) : Option Nat :=
  if readsTo o sline 0 = 0 then none
  else some ((List.range o.count).foldl (fun b j => max b (readsTo o sline j - j * o.q)) 0)

/-- The latest of a list of optional cycles, plus one each. -/
def maxAfter (l : List (Option Nat)) : Nat := l.foldl (fun b x => max b (after x)) 0

/-- The cycle after the latest pending load that changes the configuration or the tables of a run (R128). -/
def Vx.loadBound (v : Vx) (o : VrunOp) : Nat :=
  (v.loads.filter fun x =>
    if x.tab then (cChain o.cfg).any fun d => dTe d && dTab d == x.slot else x.slot == o.cslot).foldl
      (fun b x => max b (x.due + 1)) 0

/-- F of R127. Without line reads beside the snapshot the first vector, whose accumulator row is read as it enters, waits for the
snapshot (DEDUCED, log 17). -/
def State.firstEntry (s : State) (k : Nat) (o : VrunOp) (sline : Nat) : Nat :=
  let v := (s.core k).vx
  let l := chainLen o.cfg
  let f := s.now + s.ctEV
  let f := match readPush o sline with
    | some p => max f (s.now + 2 + cSnap o.cfg + p)
    | none => max f (s.now + 1 + cSnap o.cfg)
  let f := max f (after v.lastExit - l)
  let f := if cDense o.cfg then max f (after v.lastDone - l) else f
  max f (v.loadBound o)

/-- The lines of a tensor that vector j is the first to use. -/
def newLines (f slot j : Nat) : List Nat :=
  if f = fmtS32 then [2 * j, 2 * j + 1]
  else if j = 0 ∨ (slot + j) % rplOf f = 0 then [(slot + j) / rplOf f] else []

/-- The reads of a run (R127): the snapshot in cycles u + 1 to u + G, then the scale, source and stream lines. -/
def VrunOp.reads (o : VrunOp) (sline : Nat) : List LineRead :=
  let c := o.cfg
  let snap : List LineRead := (List.range (cSnap c)).map fun i =>
    { due := o.issue + 1 + i, row := 0, what := .snap, line := ((cGline c + i : Nat) : Int) }
  let rpl := rplOf o.src
  let word := fun (base j : Nat) => scaleAddr (cSscword c) rpl base (cSdbase c) o.sslot j
  let plain := if o.sbin.isSome then 0 else o.sline
  snap ++ spread ((List.range o.count).flatMap fun j =>
    let need := o.first + j * o.q - 2
    let scaled := cScaled c && o.src != fmtAcc && (j == 0 || decide (word sline j % 64 = 0))
    let data := if o.src = fmtAcc then [] else newLines o.src o.sslot j
    let str := if cBen c then newLines (strFmt c) 0 j else []
    (if scaled then [{ due := need, row := j, what := .scale, line := word 0 j }] else [])
    ++ (data.map fun i => { due := need, row := j, what := .data, line := ((plain + i : Nat) : Int) })
    ++ (str.map fun i => { due := need, row := j, what := .stream, line := ((cBline c + i : Nat) : Int) }))

/-- The due cycles of the writes of a run that is not DENSE, in order: data lines, then scale lines (R127). -/
def outDues (o : VrunOp) (oline : Nat) : List Nat :=
  let f := outFmt o.cfg
  let m := outVecs o.cfg o.count
  let l := chainLen o.cfg
  let x := fun j => o.first + (if cLast o.cfg then o.count - 1 else j) * o.q + l
  (List.range m).flatMap fun j =>
    (if f = fmtS32 then [x j, x j]
     else if (o.oslot + j + 1) % rplOf f = 0 ∨ j + 1 = m then [x j] else []) ++
    (match cPack o.cfg with
      | none => []
      | some op =>
        let a := scaleAddr (cOscword o.cfg) (packRpl op) oline (cOdbase o.cfg) o.oslot j
        if (a + 1) % 64 = 0 ∨ j + 1 = m then [x j] else [])

/-- The cycle of the last write of a run, when writes up to cycle `tail` stand before it. -/
def lastTailOf (o : VrunOp) (oline tail : Nat) : Nat :=
  if cDense o.cfg then o.first + (o.count - 1) * o.q + chainLen o.cfg + denseWait o.cfg + 1
  else (outDues o oline).foldl (fun t d => max d (t + 1)) tail

/-! ## The check of a run (R116, R130) -/

/-- A run read or written plainly: whether it is there, its first line, its length. -/
abbrev Span := Bool × Int × Nat

/-- The first run that meets p. -/
def spanFind (p : Int → Nat → Bool) : List Span → Option Int
  | [] => none
  | (b, a, n) :: r => if b && p a n then some a else spanFind p r

/-- Output data lines of a run. -/
def outLines (o : VrunOp) : Nat := runLines (outFmt o.cfg) o.oslot (outVecs o.cfg o.count)

/-- The runs of a VRUN in the order of R130. -/
def vrunSpans (o : VrunOp) (sline oline : Nat) : List Span :=
  let c := o.cfg
  let sa := scaleAddr (cSscword c) (rplOf o.src) sline (cSdbase c) o.sslot 0
  let oa := scaleAddr (cOscword c) (packRpl ((cPack c).getD 0)) oline (cOdbase c) o.oslot 0
  [(o.src != fmtAcc && o.sbin.isNone, (o.sline : Int), runLines o.src o.sslot o.count),
   (cScaled c && o.src != fmtAcc, sa / 64, scaleLines sa (o.count - 1)),
   (cBen c, (cBline c : Int), runLines (strFmt c) 0 o.count),
   ((cGather c).isSome, (cGline c : Int), cSnap c),
   (o.obin.isNone, (o.oline : Int), outLines o),
   ((cPack c).isSome, oa / 64, scaleLines oa (outVecs c o.count - 1)),
   (cDense c, ((cCntword c / 64 : Nat) : Int), 1)]

/-- The refusal of a run (R130): the code with DETAIL. -/
def Core.vrunRefusal (c : Core) (t : Nat) (o : VrunOp) : Option (Nat × Nat) :=
  let spans := vrunSpans o (c.srcLine t o) (c.outLine t o)
  let lineBits := fun (a : Int) => pack [(14, wrapU 14 a)]
  let outside := spanFind spanOut spans
  let touches := spanFind (fun a n => c.binTouch a.toNat n) spans
  let sb := o.sbin.bind fun r => c.binIssue r (runLines o.src o.sslot o.count)
  let ob := o.obin.bind fun r => c.binIssue r (outLines o)
  let sl := (o.sbin.map fun r => c.binLine t r false).getD 0
  let ol := (o.obin.map fun r => c.binLine t r true).getD 0
  firstOf [(o.src == fmtAcc && decide (o.row + o.count > 256), (0x0161, pack [(8, o.row)])),
    (outside.isSome, (0x0304, lineBits (outside.getD 0))),
    (sb == some 0x030D, (0x030D, pack [(14, sl)])),
    (touches.isSome, (0x030D, lineBits (touches.getD 0))),
    (ob == some 0x030D, (0x030D, pack [(14, ol)])),
    (sb == some 0x030C, (0x030C, pack [(14, sl)])),
    (ob == some 0x030C, (0x030C, pack [(14, ol)]))]

/-- What the check of a run records (R116, R130, R172): the code, DETAIL, whether it is a skip. A run whose configuration has a
poisoned word is not checked: it runs with every lane poisoned and records nothing further (R111). -/
def State.vrunCheck (s : State) (k : Nat) (o : VrunOp) (accBin : Bool) : Option (Nat × Nat × Bool) :=
  if accBin then some (0x0102, s.skipDetail k 50, true)
  else if o.cfgPoison then none
  else
    match cfgBad o.cfg o.src o.sslot o.oslot with
    | some i => some (0x0160, pack [(1, (s.core k).ctl.bankActive), (4, i)], true)
    | none => ((s.core k).vrunRefusal s.now o).map fun x => (x.1, x.2, false)

/-- The configuration that a VRUN will run with, and the cycle of the latest load of its slot that is pending (R116). -/
def Core.staged (c : Core) (slot : Nat) : List (PWord 32) × Option Nat :=
  match (c.vx.loads.filter fun x => !x.tab && x.slot == slot).getLast? with
  | some x => (x.words ++ x.fetch.flatMap fun f => c.peekLine f.line, some x.due)
  | none => ((c.vx.cfg.getD slot {}).full 64, none)

/-- Issue of a VRUN (R127, R130). -/
def State.issueVrun (s : State) (k w : Nat) (o : Owed) (skipped : Bool) : State :=
  let s := s.fetchBefore k s.now
  let st := (s.core k).staged (vrCslot w)
  let cfg := st.1.map fun x => x.val.toNat
  let op : VrunOp :=
    { owed := o, issue := s.now, cslot := vrCslot w, src := vrSrc w, bank := vrBank w, row := vrRow w
      sline := vrSline w, sslot := vrSslot w, sbin := binRef (vrSline w) (vrSbin w && vrSrc w != fmtAcc) (hAdv w)
      oline := vrOline w, oslot := vrOslot w, obin := binRef (vrOline w) (vrObin w) (hOpx0 w), count := vrCount w
      cfg := cfg, cfgPoison := st.1.any (·.poison), check := max s.now (after st.2), q := rateOf cfg (vrSrc w) }
  let code := if skipped then none else s.vrunCheck k op (vrSbin w && vrSrc w == fmtAcc)
  let late := !skipped && op.check != s.now
  let x := if late then (o, s) else s.recordCheck k o code
  let s := x.2
  let op := { op with owed := x.1, late := late, code := if late then code else none
                      refused := skipped || code.isSome }
  if op.refused then
    (s.setReady k .vx (s.now + 1)).modCore k fun c => c.modVx fun v =>
      { v with runs := v.runs ++ [op]
               lastDone := some (max (after v.lastDone - 1) (op.check + s.ctEV + 28)) }
  else
    let c := s.core k
    let f := s.firstEntry k op (c.srcLine s.now op)
    let op := { op with first := f }
    let op := { op with fetch := op.reads (c.srcLine s.now op) }
    let exit := f + (op.count - 1) * op.q + chainLen cfg
    let tail := lastTailOf op (c.outLine s.now op) c.vx.lastTail
    (s.setReady k .vx (f - s.ctEV + op.count * op.q)).modCore k fun c => c.modVx fun v =>
      { v with runs := v.runs ++ [op], lastExit := some exit, lastTail := tail
               lastDone := some (max (after v.lastDone - 1) tail) }

/-- The checks that waited for the load that took effect in cycle `due`, at most one per run in flight: each is made in the cycle after it,
with the counters of that cycle (R116, R130). A run that the issue took as refused stays so. -/
def State.lateChecks (s : State) (k slot due : Nat) : Nat → State
  | 0 => s
  | n + 1 =>
    match lateRun slot (s.core k).vx.runs with
    | none => s
    | some r =>
      if r.check = due + 1 then
        let s := s.advance r.check
        let code := match s.vrunCheck k r (r.code == some (0x0102, s.skipDetail k 50, true)) with
          | some c => some c
          | none => r.code
        let x := s.recordCheck k r.owed code
        (x.2.modRuns k (updRun (fun y => y.late && y.cslot == slot) fun y =>
          { y with late := false, owed := x.1, code := none, refused := code.isSome
                   fetch := if code.isSome then [] else y.fetch })).lateChecks k slot due n
      else s

/-- TABLE_LOAD_COMPLETE: the load takes effect in its cycle and completes (R128). -/
def execTableLoadComplete (k : Nat) (s : State) : Host.Outcome State Fault Refusal :=
  .next (match firstLoad (s.core k).vx.loads with
    | none => s
    | some x =>
      let s := s.toCycle k (fun s => ((firstLoad (s.core k).vx.loads).map (·.due)).getD 0) ((s.core k).owedReads + 1)
      let x := (firstLoad (s.core k).vx.loads).getD x
      let s := s.modCore k fun c => c.modVx fun v => v.load x
      let s := s.complete k .vx x.owed
      if x.tab then s else s.lateChecks k x.slot x.due (s.core k).vx.runs.length)

/-- VRUN (R127). -/
def execVrun (k : Nat) (s : State) : Host.Outcome State Fault Refusal :=
  .next (s.issueOp k .vx (s.boundOf k .vx) (wantOp 3) fun w o skipped s => s.issueVrun k w o skipped)

/-! ## Vector entry (R106 to R121) -/

/-- A line that a run has read; a line that its schedule did not name is read now. -/
def State.vxLine (s : State) (k : Nat) (o : VrunOp) (what : LineUse) (line : Int) : List (PWord 32) × State :=
  match gotLine o.got what line with
  | some ws => (ws, s)
  | none => s.fetchLine k (engCode .vx) line

/-- The words of the vector in place j of a tensor. -/
def State.vxVector (s : State) (k : Nat) (o : VrunOp) (what : LineUse) (f line slot j : Nat) : List (PWord 32) × State :=
  let l := line + vecLine f slot j
  if f = fmtS32 then
    let x := s.vxLine k o what (l : Int)
    let y := x.2.vxLine k o what ((l + 1 : Nat) : Int)
    (x.1 ++ y.1, y.2)
  else
    let x := s.vxLine k o what (l : Int)
    ((x.1.drop ((slot + j) % rplOf f * vecWords f)).take (vecWords f), x.2)

/-- The 128 lanes of a vector with poison (R107). -/
def lanesOf (f : Nat) (ws : List (PWord 32)) : List (Int × Bool) :=
  let w := fmtBits f
  (List.range 128).map fun l =>
    let p := ws.getD (l * w / 32) ⟨0, false⟩
    (signed w (p.val.toNat / 2 ^ (l * w % 32)), p.poison)

/-- Whether a run may let its next vector enter. -/
def VrunOp.entering (o : VrunOp) : Bool := !o.refused && !o.late && decide (o.entered < o.count)

/-- The output of a vector in place j, leaving in cycle x: what the run has formed then (R122, R123, R127). -/
def VrunOp.emit (o : VrunOp) (x : Nat) (a : ChainAcc) : VrunOp :=
  let c := o.cfg
  let f := outFmt c
  let vals := a.lanes.map fun l => (l.val, l.poison)
  let last := o.entered + 1 == o.count
  if cDense c then
    let d := o.dense ++ ((chosen a.lanes).map fun l => (l.val, l.poison))
    let per := perLine f
    let full := d.length / per
    let lines := (List.range full).map fun i =>
      ({ count := false, due := x, line := o.denseLines + i
         words := (outWords f ((d.drop (per * i)).take per)).zipIdx.map fun p => (p.2, p.1) } : OutWrite)
    let rest := d.drop (per * full)
    let n := o.denseCount + (chosen a.lanes).length
    let tail : List OutWrite :=
      if last then
        (if rest.isEmpty then [] else
          [{ count := false, due := x + denseWait c, line := o.denseLines + full
             words := (outWords f rest).zipIdx.map fun p => (p.2, p.1) }])
        ++ [{ count := true, due := x + denseWait c + 1, line := cCntword c / 64
              words := [(cCntword c % 64, ⟨BitVec.ofNat 32 n, false⟩)] }]
      else []
    { o with dense := if last then [] else rest, denseLines := o.denseLines + full, denseCount := n
             outs := o.outs ++ lines ++ tail }
  else if cLast c && !last then o
  else
    let j := if cLast c then 0 else o.entered
    let ws := outWords f vals
    let scale := match cPack c with
      | none => []
      | some _ => [(j, x, (⟨BitVec.ofNat 32 (pack (a.scales.map fun g => (8, g.1))), a.scales.any (·.2)⟩ : PWord 32))]
    if f = fmtS32 then
      let line := fun i => ({ count := false, due := x, line := 2 * j + i
                              words := ((ws.drop (64 * i)).take 64).zipIdx.map fun p => (p.2, p.1) } : OutWrite)
      { o with outs := o.outs ++ [line 0, line 1], scaleWords := o.scaleWords ++ scale }
    else
      let place := (o.oslot + j) % rplOf f
      let part := o.part ++ (ws.zipIdx.map fun p => (place * vecWords f + p.2, p.1))
      if place + 1 = rplOf f ∨ last then
        { o with part := [], scaleWords := o.scaleWords ++ scale
                 outs := o.outs ++ [{ count := false, due := x, line := vecLine f o.oslot j, words := part }] }
      else { o with part := part, scaleWords := o.scaleWords ++ scale }

/-- Record a fault of a run, unless its configuration is poisoned (R111). -/
def State.vxFault (s : State) (k : Nat) (o : VrunOp) (code detail : Nat) : State :=
  if o.cfgPoison then s else s.faultAt k .vx o.owed.index code detail

/-- The first lane out of range of a run records 0x0162 once (R121). -/
def State.noteOor (s : State) (k : Nat) (o : VrunOp) (a : ChainAcc) : State :=
  match a.firstOor with
  | some l => if o.oorSeen then s else s.vxFault k o 0x0162 (pack [(12, o.entered), (7, l)])
  | none => s

/-- The lines read that a vector after vector j may still use. -/
def VrunOp.keepLines (o : VrunOp) (sline j : Nat) : List LineGot :=
  let sa := scaleAddr (cSscword o.cfg) (rplOf o.src) sline (cSdbase o.cfg) o.sslot j
  o.got.filter fun g => g.line ≥ (match g.what with
    | .scale => sa / 64
    | .data => ((sline + vecLine o.src o.sslot j : Nat) : Int)
    | _ => ((cBline o.cfg + vecLine (strFmt o.cfg) 0 j : Nat) : Int))

/-- The entry cycle of the next vector of a run, with the cycles lost (R127). -/
def VrunOp.enterAt (o : VrunOp) : Nat := o.first + o.entered * o.q + lostBefore o.slips o.entered

/-- The cycle in which the next vector enters. -/
def State.toEntry (s : State) (k : Nat) : State :=
  s.toCycle k (fun s => (((s.core k).vx.runs.find? VrunOp.entering).map VrunOp.enterAt).getD 0) ((s.core k).owedReads + 1)

/-- Entry of the next vector of a run. A bin source taken at occupancy 0 gives poison over unspecified lane values (R15, R62). -/
def State.enterVector (s : State) (k : Nat) (o : VrunOp) : State :=
  let s := s.toEntry k
  let o := ((s.core k).vx.runs.find? VrunOp.entering).getD o
  let c := o.cfg
  let j := o.entered
  let acc := o.src == fmtAcc
  let failed := match o.slot with
    | some x => x.failed
    | none => false
  let sline := match o.slot with
    | some x => x.base
    | none => o.sline
  let rd := if acc && j == 0 then s.readFirst k .vx o.owed.index o.bank (o.count == 1) o.cfgPoison else (o.readBad, s)
  let s := rd.2
  let sa := scaleAddr (cSscword c) (rplOf o.src) sline (cSdbase c) o.sslot j
  let scaled := cScaled c && !acc
  let scl := if scaled then s.vxLine k o .scale (sa / 64) else ([], s)
  let s := scl.2
  let sw := scl.1.getD (wrapU 6 sa) ⟨0, false⟩
  let src := if acc then
      (((s.core k).accLanes o.bank (o.row + j)).map fun v => (v, (s.core k).accPoison o.bank (o.row + j)), s)
    else if failed then
      let x := s.spoilAll (List.replicate (vecWords o.src) ⟨0, true⟩)
      (lanesOf o.src x.1, x.2)
    else
      let x := s.vxVector k o .data o.src sline o.sslot j
      (lanesOf o.src x.1, x.2)
  let s := src.2
  let str := if cBen c then
      let x := s.vxVector k o .stream (strFmt c) (cBline c) 0 j
      (lanesOf (strFmt c) x.1, x.2)
    else (([] : List (Int × Bool)), s)
  let s := str.2
  let allBad := o.cfgPoison || rd.1 || failed
  let lanes := src.1.zipIdx.map fun p =>
    ({ val := if scaled then p.1.1 * ((bits sw.val.toNat (8 * (p.2 / 32) + 7) (8 * (p.2 / 32)) : Nat) : Int) else p.1.1
       pred := true
       poison := p.1.2 || allBad || (scaled && sw.poison) } : Lane)
  let v := (s.core k).vx
  let red := if j = 0 then emptyStates 0 v.reduce (cChain c) else v.reduce
  let a := runChain { tabs := v.tab, b := str.1, snap := o.snap } 0 { lanes := lanes, red := red } (cChain c)
  let s := s.noteOor k o a
  let s := if acc && j + 1 == o.count then s.readLast k o.bank else s
  let o := { o with readBad := rd.1, got := o.keepLines sline j }
  let o := { (o.emit (s.now + chainLen c) a) with entered := j + 1, oorSeen := o.oorSeen || a.firstOor.isSome }
  s.modCore k fun c => c.modVx fun v =>
    { v with reduce := a.red, vecs := v.vecs + 1, oor := satInc v.oor a.oor, satOut := satInc v.satOut a.sat
             runs := updRun VrunOp.entering (fun _ => o) v.runs }

/-- VRUN_VECTOR_ENTRY (R127). The first read of accumulators comes after the issues of its cycle (R98). -/
def execVrunVectorEntry (k : Nat) (s : State) : Host.Outcome State Fault Refusal :=
  .next (match (s.core k).vx.runs.find? VrunOp.entering with
    | none => s
    | some o =>
      if o.src = fmtAcc ∧ o.entered = 0 ∧ !(s.toEntry k).readTurn k then s else s.enterVector k o)

/-! ## Output writes (R122 to R124, R127) -/

/-- A plain write of words of one line under R124. -/
def State.vxWrite (s : State) (k : Nat) (o : VrunOp) (line : Int) (ws : List (Nat × PWord 32)) : State :=
  let code := if spanOut line 1 then some 0x0304 else (s.core k).writeCode false line.toNat 1
  match code with
  | some c => s.vxFault k o c (pack [(14, wrapU 14 line)])
  | none => (s.modCore k fun c => c.raiseHigh false line.toNat 1).putWords k (engCode .vx)
      (64 * line.toNat + (ws.head?.map (·.1)).getD 0) (ws.map (·.2))

/-- Whether a line of a bin output lies in the slot taken: one that does not can only be of a run that was not checked (R111). -/
def Core.slotHolds (c : Core) (r : BinRef) (b : BinSlot) (line : Int) : Bool :=
  match (c.bin r.bin).live with
  | none => false
  | some sh => decide (line < ((b.base - r.off + sh.slotLines + 1 : Nat) : Int))

/-- Make the next write of a run. -/
def State.writeNext (s : State) (k : Nat) (o : VrunOp) (scale : Bool) (due : Nat) (line : Int) (ws : List (Nat × PWord 32)) :
    State :=
  let at' := max due ((s.core k).vx.lastOut + 1)
  let s := s.advance at'
  let isCount := !scale && ((o.outs.head?.map (·.count)).getD false)
  let bin := o.obin.isSome && !scale && !isCount
  let lineIn := fun (s : State) => if scale || isCount then line else line + ((s.core k).outLine s.now o : Int)
  let s := (s.takeBanks k .vx true at' (fun s => bankOf (lineIn s))).2
  let abs := lineIn s
  let take : Option BinSlot := match bin, o.oslotTaken, o.obin with
    | true, none, some r => some ((s.core k).binTake s.now r true)
    | _, x, _ => x
  let fresh := bin && o.oslotTaken.isNone
  let failed : Bool := (take.map fun x => x.failed).getD false
  let s := if fresh && failed then s.vxFault k o 0x030B (pack [(14, wrapU 14 abs)]) else s
  let inside := match o.obin, take with
    | some r, some b => (s.core k).slotHolds r b abs
    | _, _ => false
  let s := if bin then
      (if failed || !inside then s
       else s.putWords k (engCode .vx) (64 * abs.toNat + (ws.head?.map (·.1)).getD 0) (ws.map (·.2)))
    else s.vxWrite k o abs ws
  let t := s.now
  let o' := { o with oslotTaken := take, lastWrite := t
                     outs := if scale then o.outs else o.outs.drop 1
                     scaleWords := if scale then o.scaleWords.drop ws.length else o.scaleWords }
  s.modCore k fun c => c.modVx fun v => { v with lastOut := t, runs := updRun (fun r => r == o) (fun _ => o') v.runs }

/-- VRUN_LINE_WRITE: the next output line of the oldest run that has one is written in its slot (R124, R127). -/
def execVrunLineWrite (k : Nat) (s : State) : Host.Outcome State Fault Refusal :=
  .next (match (s.core k).vx.runs.find? ((s.core k).hasWrite s.now) with
    | none => s
    | some o =>
      match o.nextWrite ((s.core k).outLine s.now o) with
      | none => s
      | some (scale, due, line, ws) => s.writeNext k o scale due line ws)

/-! ## Completion (R127, R130, R173) -/

/-- The completion cycle of a run that can complete. -/
def VrunOp.doneAt (ev : Nat) (o : VrunOp) : Option Nat :=
  if o.refused then (if o.late then none else some (o.check + ev + 28))
  else if o.entered = o.count ∧ o.outs.isEmpty ∧ o.scaleWords.isEmpty then some o.lastWrite else none

/-- The run that completes first. -/
def firstDone (ev : Nat) : List VrunOp → Option (Nat × VrunOp)
  | [] => none
  | o :: r =>
    match o.doneAt ev, firstDone ev r with
    | none, x => x
    | some t, none => some (t, o)
    | some t, some y => if y.1 < t then some y else some (t, o)

/-- Remove one run. -/
def dropRun (x : VrunOp) : List VrunOp → List VrunOp
  | [] => []
  | y :: r => if y = x then r else y :: dropRun x r

/-- Poison n words from word w on, line by line (R80). -/
def State.poisonSpan (s : State) (k : Nat) (w : Int) (n : Nat) : Nat → State
  | 0 => s
  | fuel + 1 =>
    if n = 0 then s
    else
      let c := min n (64 - wrapU 6 w)
      let s := if w < 0 then s else s.poisonWords k w.toNat c
      s.poisonSpan k (w + (c : Int)) (n - c) fuel

/-- Poison the footprint of a refused or skipped run (R130, R173). -/
def State.poisonFootprint (s : State) (k : Nat) (o : VrunOp) : State :=
  let c := o.cfg
  let f := outFmt c
  let m := outVecs c o.count
  let base := (s.core k).outLine s.now o
  let s := if o.obin.isSome then s
    else s.poisonSpan k ((64 * o.oline + vecWords f * o.oslot : Nat) : Int) (m * vecWords f) (m * vecWords f + 1)
  let s := match cPack c with
    | none => s
    | some op => s.poisonSpan k (scaleAddr (cOscword c) (packRpl op) base (cOdbase c) o.oslot 0) m (m + 1)
  if cDense c then s.poisonSpan k ((cCntword c : Nat) : Int) 1 1 else s

/-- VRUN_COMPLETE (R127, R130). A DENSE run with a bin output in which no lane was chosen writes no data line, so it takes no slot: the occupancy is
not judged and ADVANCE adds no fill (DESIGN CHOICE, log 17). -/
def execVrunComplete (k : Nat) (s : State) : Host.Outcome State Fault Refusal :=
  .next (match firstDone s.ctEV (s.core k).vx.runs with
    | none => s
    | some (t, o) =>
      let s := s.advance t
      let s := if o.refused then s.poisonFootprint k o else s
      let s := s.modRuns k (dropRun o)
      ((s.binDone k o.sbin o.slot false).binDone k o.obin o.oslotTaken true).complete k .vx o.owed)

end Sys2Proof.Machine
end

