-- ==== Sys2Proof/Machine/Jobs.lean ====
section
/-! DEFINITION. The job of a module: attach, detach, abort, restart, and the barrier registers (R336, R341 to R343). -/

namespace Sys2Proof.Machine

/-! ## Power for a job (R466, R467) -/

/-- The cores of a core group. -/
def groupCores (g : Nat) : List Nat := (List.range 768).filter fun k => groupOf k == g

/-- A core whose group leaves OFF: only the stock is kept (R138, R466); CORE_CYCLE starts, t cycles after the cores' reset. -/
def Core.powered (c : Core) (t : Nat) : Core := { mem := { stock := c.mem.stock }, ctl := { cycleBase := t } }

/-- A fault of the clock and power unit (SOURCE 6, R472). -/
def State.powerFault (s : State) (code loc detail : Nat) : State := s.record code 6 loc 0 0 detail

/-- A core group fails to reach ON (R467). -/
def State.groupFails (s : State) (g : Nat) : State :=
  let s := s.leaveIdle
  let s : State := { s with power := { s.power with groups := keyPut s.power.groups g .failed }
                            board := { s.board with coresFailed := (groupCores g).foldl markPut s.board.coresFailed } }
  s.powerFault 0x0626 (groupDomain g) 0

/-- A group in OFF turns ON, or fails. -/
def State.powerGroup (s : State) (g : Nat) (ok : Bool) : State :=
  if s.group g != .off then s
  else if !ok then s.groupFails g
  else
    let s := (groupCores g).foldl (fun (s : State) k => s.modCore k fun c => c.powered (s.now - s.power.coresFrom)) s
    (s.groupOn g : State)

/-- Bit g of PWR_OFF_REQ cleared. -/
def State.clearOffReq (s : State) (g : Nat) : State :=
  { s with power := { s.power with offReq := modAt s.power.offReq (g / 32) fun w => w &&& ~~~(BitVec.ofNat 32 (2 ^ (g % 32))) } }

/-! ## ATTACH (R341) -/

/-- The cores that ATTACH_MASK names. -/
def Barrier.named (b : Barrier) : List Nat := (List.range 768).filter fun k => bit (b.mask.getD (k / 32) 0).toNat (k % 32)

/-- ID_HEALTH.MESH_OK (R236). -/
def Mesh.ok (m : Mesh) : Bool := m.aligned && m.bridgeOk == 15 && m.stopsFailed == 0

/-- ID_HEALTH.PLACEABLE (R24). -/
def State.placeable (s : State) : Bool := s.board.coresFailed.isEmpty && s.mesh.ok

/-- Whether ROUTE_SELF and BAR_BOX lie in ROUTE_CFG. -/
def State.boxInside (s : State) : Bool :=
  s.route.inside s.route.me && ([0, 1, 2].all fun a => decide (s.bar.origin a < s.route.dim a)
    && decide (s.bar.extent a ≤ s.route.dim a))

/-- The cases in which ATTACH is refused under 0x0266, but for a group that fails to turn on. -/
def State.attachBad (s : State) : Bool :=
  s.bar.named.isEmpty || !s.bar.slots.contains (modSlot s.route.me) || !s.boxInside || !s.inBox s.route.me || !s.placeable

/-- A core joins a job: its handle table is reset (R294). -/
def Core.attach (c : Core) : Core :=
  { c with chan := { c.chan with handles := [], replies := [], yields := [], creditCount := 0 }
           ctl := { c.ctl with attached := true } }

/-- A refused barrier command or write: the code with the module field and the wave number (R342). -/
def State.barRefuse (s : State) (code : Nat) : WriteRes × State := (.refused code, s.hubFault code s.barDetail)

/-- An accepted ATTACH. -/
def State.attach (s : State) : State :=
  let s := s.bar.named.foldl (fun (s : State) k => (s.wakeCore k).modCore k Core.attach) s
  let s := s.modBar fun b =>
    { b with wave := 0, lastFailed := false, undrained := false, desync := false, fail := false, failNext := false
             contributed := false, drainx := false, settled := false, firstDone := none, going := false, again := false
             rehold := false, waitTwin := false, kind := 2, inj := 0, sink := 0 }
  let s : State := { s with faults := { s.faults with attempt := 0 }, twin := { s.twin with got := [], differs := false }
                            board := { s.board with driven := none } }
  let s := s.modHost fun h => { h with listClosed := none, tickets := [], res := [], senders := [] }
  let s := s.journalOpen.enterHeld
  if !s.bar.hold || s.bar.next then s.launchWave 2 else s

/-- BAR_CTRL.ATTACH; `bad` lists the groups that do not reach ON (R466, R467). -/
def State.askAttach (s : State) (bad : List Nat) : WriteRes × State :=
  if s.bar.phase ≠ .detached then s.barRefuse 0x0264
  else if s.attachBad then s.barRefuse 0x0266
  else
    let gs := (s.bar.named.map groupOf).dedup
    let s := gs.foldl (fun (s : State) g => (s.clearOffReq g).powerGroup g (!bad.contains g)) s
    if !s.placeable then s.barRefuse 0x0266 else (.done, s.attach)

/-! ## DETACH (R341) -/

/-- A core leaves its job: streams IDLE, every handle CLOSED; with the pass ends the failed check of a table (R77). -/
def Core.detach (c : Core) : Core :=
  { c with
    mxs := {}, vxs := {}, dxs := {}, nxs := {}, sxs := {}
    chan := { c.chan with
      handles := c.chan.handles.map fun h => if h.2.state == .closed then h else (h.1, h.2.shut false)
      replies := [], yields := [], creditCount := 0 }
    regs := { c.regs with regionsVoid := false }
    ctl := { c.ctl with attached := false } }

/-- The module leaves its job: `reason` 1 DETACH, 2 ABORT (R403). -/
def State.leaveJob (s : State) (reason : Nat) : State :=
  let s := s.journalClose reason
  let s := s.eachAttached fun s k => s.modCore k Core.detach
  let s := s.modBar fun b => { b with phase := .detached, going := false, got := [], again := false, rehold := false, waitTwin := false }
  let s := s.endRuns
  s.modHost fun h => { h with tickets := [], res := [], senders := [] }

def State.askDetach (s : State) : WriteRes × State :=
  if s.bar.phase = .held ∨ s.bar.phase = .lost then (.done, s.leaveJob 1) else s.barRefuse 0x0264

/-! ## ABORT: the bits that operations in flight would have written (R341) -/

/-- n scratchpad words from word w on become poisoned, line by line, where a write of the line is made: `ok`, judged as the lines before it
leave H (R74, R80). -/
def State.spoilEach (ok : Core → Int → Bool) (s : State) (k : Nat) (w : Int) (n : Nat) : Nat → State
  | 0 => s
  | fuel + 1 =>
    if n = 0 then s
    else
      let c := min n (64 - wrapU 6 w)
      let l := w / 64
      let s := if decide (0 ≤ l) && ok (s.core k) l then
          (s.modCore k fun x => x.raiseHigh false l.toNat 1).storeWords k w.toNat (List.replicate c ⟨0, true⟩)
        else s
      s.spoilEach ok k (w + (c : Int)) (n - c) fuel

/-- Whether a plain write of scratchpad line l is permitted. -/
def Core.writesPlain (c : Core) (l : Int) : Bool := !spanOut l 1 && (c.writeCode false l.toNat 1).isNone

/-- Words of a plain destination that the writes in flight would have reached. -/
def State.spoilPlain (s : State) (k : Nat) (w : Int) (n : Nat) : State := s.spoilEach Core.writesPlain k w n (n + 1)

/-- Lines from place j on of a bin destination, unless the slot is refused (R62). -/
def State.spoilBin (s : State) (k : Nat) (r : BinRef) (b : BinSlot) (j n : Nat) : State :=
  if b.failed then s
  else s.spoilEach (fun c l => c.slotHolds r b l) k ((64 * (b.base + j) : Nat) : Int) (64 * n) (64 * n + 1)

/-- The slot of a bin destination: the one taken, or the one that the next write would take. -/
def State.slotFor (s : State) (k : Nat) (r : BinRef) (taken : Option BinSlot) : BinSlot :=
  taken.getD ((s.core k).binTake s.now r true)

/-- n stock lines become poisoned. -/
def State.spoilStock (s : State) (k line : Nat) : Nat → State
  | 0 => s
  | n + 1 => (if line < stockLines then s.storeStockLine k line badLine else s).spoilStock k (line + 1) n

/-- An MX operation in flight: the buffer being loaded, the rows not yet written. -/
def State.spoilMx (s : State) (k : Nat) : MxOp → State
  | .load o => s.modCore k fun c => c.modMx fun m => m.setTile o.buf { m.tile o.buf with poison := true }
  | .mma o =>
    let a := o.drow + o.written
    s.poisonRows k o.bank a (min (o.drow + o.count) 256 - a)

/-- The first output vector of a run that no write has reached. -/
def VrunOp.unwritten (o : VrunOp) : Nat :=
  let f := outFmt o.cfg
  let r := rplOf f
  match o.outs.find? fun w => !w.count with
  | some w => if f = fmtS32 then w.line / 2 else w.line * r - o.oslot
  | none =>
    if cDense o.cfg then o.denseLines * r
    else if cLast o.cfg then (if o.entered = o.count then 1 else 0)
    else if o.part.isEmpty then o.entered else (o.oslot + o.entered - 1) / r * r - o.oslot

/-- A VRUN in flight: its output words, scale words and count word not yet written; a refused one poisons its footprint (R130). DESIGN
CHOICE: the lanes that a DENSE run would have chosen are not known, so each of its output lines counts as one it would have
written (log 28). -/
def State.spoilRun (s : State) (k : Nat) (o : VrunOp) : State :=
  if o.refused || o.code.isSome then s.poisonFootprint k o
  else
    let c := o.cfg
    let f := outFmt c
    let m := outVecs c o.count
    let base := (s.core k).outLine s.now o
    let v := o.unwritten
    let first := vecWords f * (o.oslot + v)
    let s := match o.obin with
      | none => s.spoilPlain k ((64 * base + first : Nat) : Int) ((m - v) * vecWords f)
      | some r =>
        let b := s.slotFor k r o.oslotTaken
        if b.failed then s
        else s.spoilEach (fun c l => c.slotHolds r b l) k ((64 * base + first : Nat) : Int) ((m - v) * vecWords f)
          ((m - v) * vecWords f + 1)
    let s := match cPack c with
      | none => s
      | some op =>
        let j := (o.scaleWords.head?.map (·.1)).getD (if cLast c then 0 else o.entered)
        s.spoilPlain k (scaleAddr (cOscword c) (packRpl op) base (cOdbase c) o.oslot j) (m - j)
    if cDense c then s.spoilPlain k ((cCntword c : Nat) : Int) 1 else s

/-- A table load in flight: the words of its slot. -/
def State.spoilTab (s : State) (k : Nat) (x : TabOp) : State :=
  let put := fun (t : Slot) => ({ t with words := (t.full 64).map fun w => ⟨w.val, true⟩ } : Slot)
  s.modCore k fun c => c.modVx fun v =>
    if x.tab then { v with tab := modAt v.tab x.slot put } else { v with cfg := modAt v.cfg x.slot put }

/-- A DX operation in flight: the rows or lines not yet written; a refused one poisons its destination (R181). -/
def State.spoilDx (s : State) (k : Nat) (o : DxOp) : State :=
  if o.refused then s.poisonDest k o
  else
    let n := o.wr * o.unit
    if o.kind == .acw then
      s.poisonRows k o.bank (o.arow + o.rowsDone) (min (o.arow + o.count) 256 - (o.arow + o.rowsDone))
    else if o.writesStock then s.spoilStock k (o.dst + n) (o.lines - n)
    else if o.writesScr then
      (match o.bin with
        | some r => s.spoilBin k r (s.slotFor k r o.slot) n (o.lines - n)
        | none => s.storeWords k (64 * (o.dst + n)) (List.replicate (64 * (o.lines - n)) ⟨0, true⟩))
    else s

/-- n lines of an NREQ's destination from place j on. -/
def State.spoilReq (s : State) (k : Nat) (o : NxOp) (j n : Nat) : State :=
  match o.bin with
  | some r => s.spoilBin k r (s.slotFor k r o.slot) j n
  | none => s.spoilPlain k ((64 * (o.line + j) : Nat) : Int) (64 * n)

/-- An NREQ in flight: the lines without a reply; a refused one poisons its destination where R188 has it do so. -/
def State.spoilNx (s : State) (k : Nat) (o : NxOp) : State :=
  if o.kind != .req then s
  else if o.silent then (if o.spoils then s.poisonLines k false o.line o.count else s)
  else
    let s := ((s.core k).chan.replies.filter fun r => r.op == o.issue).foldl (fun (s : State) r =>
      s.spoilReq k o ((r.dline + 16384 - o.line % 16384) % 16384) r.lines) s
    s.spoilReq k o (16 * o.sent) (o.count - 16 * o.sent)

/-- Whether a narrow store would write its word (R196, R307). -/
def State.storesWord (s : State) (k : Nat) (a : SxAcc) : Bool :=
  ((s.core k).narrowCode (a.addr / 64)).isNone && (match (s.core k).ctrlEntry (a.addr / 64) with
    | some (i, h) => !(s.release k i h a.addr a.data).1
    | none => true)

/-- An SX access in flight: its destination registers, or the word or register that it would have written. -/
def State.spoilAcc (s : State) (k : Nat) (a : SxAcc) : State :=
  let s := [a.rd, a.rd2].foldl (fun (s : State) r =>
    if r = 0 then s else (s.fresh.2).setG k r ⟨s.fresh.1.setWidth 32, true⟩ s.now) s
  if a.refused then s
  else match a.kind with
  | .stw => if s.storesWord k a then s.storeWords k a.addr [⟨0, true⟩] else s
  | .cwr =>
    if !badOffset a.addr && (a.addr == 0x3000 || (decide (0x1800 ≤ a.addr) && decide (a.addr ≤ 0x1C00))) then
      ((s.fresh.2).coreWrite k a.addr (s.fresh.1.setWidth 32)).2
    else s
  | _ => s

/-- The wait in flight: its destination register, and the control line of a HOPEN that would have been accepted (R298). -/
def State.spoilWait (s : State) (k : Nat) (x : SxWait) : State :=
  let s := if x.rd = 0 then s else (s.fresh.2).setG k x.rd ⟨s.fresh.1.setWidth 32, true⟩ s.now
  let ws := if x.stage = .read then ((s.core k).peekLine ((x.handle / 64 : Nat) : Int)).drop (x.handle % 64) else x.words
  let d := (parseDesc ws).entry
  if x.kind = .hopen ∧ x.stage ≠ .done ∧ kindStatus d.kind ∧ (s.openRefusal k x.handle ws).isNone then
    s.storeWords k (64 * d.ctrl) badLine
  else s

/-- Core k stops at once; the bits that its operations in flight would have written are poisoned, and the region table stays (R341). -/
def State.abortCore (s : State) (k : Nat) : State :=
  let c := s.core k
  let s := c.mx.ops.foldl (fun (s : State) o => s.spoilMx k o) s
  let s := c.vx.runs.foldl (fun (s : State) o => s.spoilRun k o) s
  let s := c.vx.loads.foldl (fun (s : State) o => s.spoilTab k o) s
  let s := c.dx.ops.foldl (fun (s : State) o => s.spoilDx k o) s
  let s := c.nx.ops.foldl (fun (s : State) o => s.spoilNx k o) s
  let s := c.sx.acc.foldl (fun (s : State) a => s.spoilAcc k a) s
  let s := match c.sx.wait with
    | none => s
    | some x => s.spoilWait k x
  s.modCore k fun z =>
    { z with regs := { z.regs with regions := c.regs.regions }
             mx := { z.mx with ops := [] }, vx := { z.vx with runs := [], loads := [] }, dx := { z.dx with ops := [] }
             nx := { z.nx with ops := [] }, sx := { z.sx with acc := [], wait := none } }

/-- BAR_CTRL.ABORT: the module leaves the job without a parting. -/
def State.askAbort (s : State) : WriteRes × State :=
  if s.bar.phase = .detached then s.barRefuse 0x0264
  else
    let s := s.eachAttached State.abortCore
    (.done, (s.hubFault 0x0265 s.barDetail).leaveJob 2)

/-! ## RESTART (R342) -/

/-- A fresh wave of a kind after LOST: its contribution counts the faults recorded since the lost one (R331). A HOLD wave decides no pass. -/
def State.restart (s : State) (kind : Nat) : State :=
  (s.modBar fun b =>
    if kind = 1 then { b with phase := .parting, going := false, fail := b.fail || b.failNext, failNext := false }
    else { b with phase := .held, going := false }).launchWave kind

def State.askRestart (s : State) : WriteRes × State :=
  if s.bar.phase = .lost then (.done, s.restart s.bar.kind) else s.barRefuse 0x0264

def State.askRestartFail (s : State) : WriteRes × State :=
  if s.bar.phase = .lost ∧ s.bar.kind = 1 then (.done, (s.modBar fun b => { b with settled := true }).restart 1)
  else s.barRefuse 0x0264

/-! ## BAR_CTRL (R327, R336, R343) -/

/-- One command bit of BAR_CTRL; after a refusal nothing more is done. -/
def ctlStep (v : Word32) (b : Nat) (f : State → WriteRes × State) (r : WriteRes × State) : WriteRes × State :=
  if bit v.toNat b ∧ r.1 = .done then f r.2 else r

/-- A write of HOLD in HELD launches a HOLD wave, at once or after the one in progress. -/
def State.askHold (s : State) : State :=
  if s.bar.phase ≠ .held then s
  else if s.bar.going then s.modBar fun b => { b with rehold := true } else s.launchWave 2

/-- The commands of a BAR_CTRL write in the order of their bits. -/
def State.ctlSteps (s : State) (v : Word32) (bad : List Nat) : WriteRes × State :=
  ctlStep v 6 State.askRestartFail (ctlStep v 5 State.askRestart (ctlStep v 4 State.askAbort (ctlStep v 3 State.askDetach
    (ctlStep v 2 (fun s => s.askAttach bad) (.done, s)))))

/-- A write of BAR_CTRL: the RW bits, then its commands. A refused write changes nothing (R342); an ATTACH refused under 0x0266 leaves what
its power-up of core groups came to (R467). -/
def State.writeBarCtrl (s : State) (v : Word32) (bad : List Nat) : WriteRes × State :=
  let t := s.modBar fun b => { b with hold := bit v.toNat 0, holdOnFail := bit v.toNat 1 }
  if bits v.toNat 6 2 = 0 then (.done, t.askHold)
  else
    let r := t.ctlSteps v bad
    match r.1 with
    | .refused code =>
      if code = 0x0264 then s.barRefuse code
      else (r.1, r.2.modBar fun b => { b with hold := s.bar.hold, holdOnFail := s.bar.holdOnFail })
    | _ => r

/-- HOLD: BAR_CTRL written with no command bit. -/
def execHold (v : Word32) (s : State) : Host.Outcome State Fault Refusal :=
  .next (if bits v.toNat 6 2 = 0 then (s.writeBarCtrl v []).2 else s)

/-- ATTACH: BAR_CTRL written with ATTACH set; `bad` lists the core groups that do not turn on. -/
def execAttach (v : Word32) (bad : List Nat) (s : State) : Host.Outcome State Fault Refusal :=
  .next (if bit v.toNat 2 then (s.writeBarCtrl v bad).2 else s)

/-- DETACH: BAR_CTRL written with DETACH set. -/
def execDetach (v : Word32) (s : State) : Host.Outcome State Fault Refusal :=
  .next (if bit v.toNat 3 then (s.writeBarCtrl v []).2 else s)

/-- ABORT: BAR_CTRL written with ABORT set. -/
def execAbort (v : Word32) (s : State) : Host.Outcome State Fault Refusal :=
  .next (if bit v.toNat 4 then (s.writeBarCtrl v []).2 else s)

/-- RESTART: BAR_CTRL written with RESTART set. -/
def execRestart (v : Word32) (s : State) : Host.Outcome State Fault Refusal :=
  .next (if bit v.toNat 5 then (s.writeBarCtrl v []).2 else s)

/-- RESTART_FAIL: BAR_CTRL written with RESTART_FAIL set. -/
def execRestartFail (v : Word32) (s : State) : Host.Outcome State Fault Refusal :=
  .next (if bit v.toNat 6 then (s.writeBarCtrl v []).2 else s)

/-! ## Registers (R343) -/

/-- BAR_STATUS. -/
def Barrier.status (b : Barrier) : Nat :=
  pack [(3, b.phase.num), (1, flag b.lastFailed), (1, flag b.undrained), (1, flag b.desync), (10, 0), (16, b.waves.toNat)]

/-- A barrier register, with no effect of the read. -/
def Barrier.reg (b : Barrier) (o : Nat) : Option Nat :=
  if o = 0x00 then some (lo32 b.passNum).toNat
  else if o = 0x04 then some b.passLatch.toNat
  else if o = 0x08 then some (pack [(1, flag b.hold), (1, flag b.holdOnFail)])
  else if o = 0x0C then some b.status
  else if o = 0x10 then some b.cfg.toNat
  else if o = 0x14 then some b.box.toNat
  else if o = 0x18 then some b.jobTag.toNat
  else if o = 0x1C then some b.watch.toNat
  else if o = 0x20 then some b.wave.toNat
  else if o = 0x24 then some b.lastTicks.toNat
  else if o = 0x28 then some (lo32 b.inj).toNat
  else if o = 0x2C then some b.injLatch.toNat
  else if o = 0x30 then some (lo32 b.sink).toNat
  else if o = 0x34 then some b.sinkLatch.toNat
  else if 0x100 ≤ o ∧ o < 0x160 then some (b.mask.getD ((o - 0x100) / 4) 0).toNat
  else none

/-- The latch of a _LO read. -/
def Barrier.latch (b : Barrier) (o : Nat) : Barrier :=
  if o = 0x00 then { b with passLatch := hi32 b.passNum }
  else if o = 0x28 then { b with injLatch := hi32 b.inj }
  else if o = 0x30 then { b with sinkLatch := hi32 b.sink }
  else b

/-- The registers that may be written only in one phase, as the write changes them. -/
def Barrier.put (b : Barrier) (o : Nat) (v : Word32) : Barrier :=
  if o = 0x00 then { b with passNum := setLo b.passNum v }
  else if o = 0x04 then { b with passNum := setHi b.passNum v }
  else if o = 0x10 then { b with cfg := v &&& 0x7FF }
  else if o = 0x14 then { b with box := v &&& 0x3FFFFFF }
  else if o = 0x18 then { b with jobTag := v }
  else if o = 0x20 then { b with wave := v }
  else { b with mask := b.mask.set ((o - 0x100) / 4) v }

/-- Whether a barrier register is one of those, and the phase that permits its write. -/
def barPhase (o : Nat) : Option Phase :=
  if o = 0x20 then some .lost
  else if o = 0x00 ∨ o = 0x04 ∨ o = 0x10 ∨ o = 0x14 ∨ o = 0x18 ∨ (0x100 ≤ o ∧ o < 0x160) then some .detached
  else none

/-- A write at an offset of the barrier block. -/
def State.writeBar (s : State) (o : Nat) (v : Word32) : WriteRes × State :=
  match barPhase o with
  | some ph => if s.bar.phase = ph then (.done, s.modBar fun b => b.put o v) else s.barRefuse 0x0264
  | none =>
    if o = 0x08 then s.writeBarCtrl v []
    else if o = 0x1C then
      let w : Word32 := BitVec.ofNat 32 (watchShift (bits v.toNat 4 0) + 256 * watchShift (bits v.toNat 12 8))
      (.done, s.modBar fun b => { b with watch := w })
    else (if (s.bar.reg o).isSome then .done else .unmapped, s)

/-- BARRIER_CONFIG_WRITE: PASS_NUM, BAR_CFG, BAR_BOX, BAR_JOB_TAG, ATTACH_MASK or BAR_WAVE written. -/
def execBarrierConfigWrite (a : Nat) (v : Word32) (s : State) : Host.Outcome State Fault Refusal :=
  .next (if 0x900000 ≤ a ∧ a % 4 = 0 ∧ (barPhase (a - 0x900000)).isSome then (s.writeBar (a - 0x900000) v).2 else s)

end Sys2Proof.Machine
end

