-- ==== Sys2Proof/Machine/Ethernet.lean ====
section
/-! DEFINITION. The Ethernet ports and plane B: links, frames answered or discarded, RoCEv2 connections, and the registers of
the Ethernet and host-transport block (R433 to R435, R443, R444, R453). -/

namespace Sys2Proof.Machine

/-! ## Ports (R433 to R435) -/

def State.eth (s : State) (e : Nat) : EthPort := s.host.eth.getD e {}

def State.modEth (s : State) (e : Nat) (f : EthPort → EthPort) : State := s.modHost fun h => { h with eth := modAt h.eth e f }

/-- Plane A is E0 to E3. -/
def planeA (e : Nat) : Bool := decide (e < 4)

/-- A frame is discarded and counted. -/
def State.ethDrop (s : State) (e : Nat) : State := s.modEth e fun x => { x with drop := satInc x.drop 1 }

/-- The port sends an answer. -/
def State.answer (s : State) (e kind : Nat) (data : List Byte) : State :=
  s.modHost fun h => { h with answers := h.answers ++ [{ port := e, kind := kind, data := data, tag := s.tagOf e }] }

def EthPort.mac (x : EthPort) : Nat := x.macLo.toNat + 2 ^ 32 * x.macHi.toNat

/-- The IPv6 address of a port. -/
def EthPort.addr6 (x : EthPort) : Nat := x.ip6.foldr (fun w n => w.toNat + 2 ^ 32 * n) 0

/-- A frame on port e: `own` when it is for the port's own address; an address of 0 is unused. -/
def State.ownFrame (s : State) (e : Nat) (own : EthPort → Bool) (kind : Nat) (data : EthPort → List Byte) : State :=
  if !s.ethUp e then s
  else if own (s.eth e) then s.answer e kind (data (s.eth e)) else s.ethDrop e

/-- ARP_REQUEST: the answer carries the MAC address. -/
def execArpRequest (e : Nat) (ip : BitVec 32) (s : State) : Host.Outcome State Fault Refusal :=
  .next (s.ownFrame e (fun x => ip != 0 && x.ip4 == ip) 1 fun x => natToBytes x.mac 6)

/-- NEIGHBOR_DISCOVERY. -/
def execNeighborDiscovery (e : Nat) (ip : BitVec 128) (s : State) : Host.Outcome State Fault Refusal :=
  .next (s.ownFrame e (fun x => ip != 0 && x.addr6 == ip.toNat) 2 fun x => natToBytes x.mac 6)

/-- ICMP_ECHO, of either family: the answer carries the data. -/
def execIcmpEcho (e : Nat) (v6 : Bool) (ip : BitVec 128) (data : List (BitVec 8)) (s : State) :
    Host.Outcome State Fault Refusal :=
  .next (s.ownFrame e (fun x => ip != 0 && (if v6 then x.addr6 else x.ip4.toNat) == ip.toNat) 3 fun _ => data)

/-- PAUSE_FRAME (R433). -/
def execPauseFrame (e : Nat) (s : State) : Host.Outcome State Fault Refusal := .next (if s.ethUp e then s.ethDrop e else s)

/-- The ticks of a pause of `time` quanta: 512 bit times each, 2.56 ns at 200 Gb/s (PRESUMED from IEEE 802.1Qbb, log 29). -/
def pauseTicks (time : Nat) : Nat := (time * 256 + 999) / 1000

/-- Port e holds its requests back up to tick u: those that have not left wait for it, and those to come (R433). -/
def State.pausePort (s : State) (e u : Nat) : State :=
  s.modHost fun h => { h with
    eth := modAt h.eth e fun x => { x with pfc := u }
    plb := h.plb.map fun x => if x.2.port = e then
      (x.1, { x.2 with ops := x.2.ops.map fun o => if s.tick < o.leave then { o with leave := u } else o }) else x }

/-- PFC_FRAME: honoured on plane B for PFC_PRIO when PFC_EN is 1 (R433). `time` is the pause time of that priority; a frame
replaces the pause of the one before. -/
def execPfcFrame (e : Nat) (prio : BitVec 8) (time : BitVec 16) (s : State) : Host.Outcome State Fault Refusal :=
  .next (let c := (s.eth e).cfg.toNat
    if !s.ethUp e then s
    else if !planeA e && bit c 2 then
      (if prio.getLsbD (bits c 5 3) then s.pausePort e (s.tick + pauseTicks time.toNat) else s)
    else s.ethDrop e)

/-- ETH_FRAME_DISCARD (R434). -/
def execEthFrameDiscard (e : Nat) (s : State) : Host.Outcome State Fault Refusal :=
  .next (if s.ethUp e then s.ethDrop e else s)

/-! ## Plane B (R443, R444) -/

/-- Whether an operation belongs to the journal. -/
def PlbUse.ofJournal : PlbUse → Bool
  | .fetch _ => false
  | _ => true

/-- Operations fail: a reservoir read is answered so (R373). -/
def State.opsFail (s : State) : List PlbOp → State
  | [] => s
  | o :: r => (match o.use with
    | .fetch tag => s.fetchReply tag false []
    | _ => s).opsFail r

/-- Connection c enters ERROR (R444). -/
def State.connError (s : State) (c : Nat) : State :=
  let x := s.conn c
  let s := s.modConn c fun x => { x with state := 2, fails := x.fails + 1, retries := 0, ops := [], tick := s.tick }
  let s := s.record 0x0461 4 x.port 0 0 (pack [(8, c)])
  (s.opsFail x.ops).exportFailed c

/-- The connections of port e that meet p, in ascending order. -/
def State.connsOf (s : State) (e : Nat) (p : PlbConn → Bool) : List Nat :=
  (s.host.plb.filter fun x => x.2.port == e && bit x.2.w0.toNat 0 && p x.2).map (·.1)

/-- A connection comes up from its table entry. -/
def PlbConn.establish (x : PlbConn) : PlbConn := { x with state := 1, retries := 0, rate := 16, rateExp := 4, ops := [] }

/-- The link of port e is lost (R435). -/
def State.ethLost (s : State) (e : Nat) : State :=
  let s := s.modEth e fun x => { x with up := false, anDone := false, fec := false, changes := x.changes + 1, pfc := 0 }
  let s := s.record 0x0460 4 e 0 0 0
  (s.connsOf e fun x => x.state == 1).foldl State.connError s

/-- The link of port e comes up. It returns when it has been up since reset: 0x0460 is recorded; LINK_CHANGES counts losses
alone (R435). -/
def State.ethFound (s : State) (e : Nat) : State :=
  let back := (s.eth e).seen
  let s := s.modEth e fun x => { x with up := true, seen := true, anDone := bit x.cfg.toNat 1, fec := true }
  let s := if back then s.record 0x0460 4 e 0 0 0 else s
  (s.connsOf e fun x => x.state == 0).foldl (fun s c => s.modConn c PlbConn.establish) s

/-- ETH_LINK_CHANGE. -/
def execEthLinkChange (e : Nat) (up : Bool) (s : State) : Host.Outcome State Fault Refusal :=
  .next (if 8 ≤ e ∨ up = s.ethUp e then s
    else if !up then s.ethLost e
    else if s.power.mainOn && bit (s.eth e).cfg.toNat 0 then s.ethFound e else s)

/-- ROCE_RESPONSE: the oldest operation of connection c completes with its data, or is refused by the peer. An operation that
has not left yet has no response. A frame for a connection that is not configured is discarded and counted at the port of its
entry (R434). -/
def execRoceResponse (c : Nat) (ok : Bool) (data : List (BitVec 8)) (s : State) : Host.Outcome State Fault Refusal :=
  .next (let x := s.conn c
    if !bit x.w0.toNat 0 then (if s.ethUp x.port then s.ethDrop x.port else s)
    else match s.connUp c, x.ops with
    | true, o :: r =>
      if s.tick < o.leave then s
      else
      let s := s.modConn c fun x => { x with ops := r, retries := 0, tick := s.tick }
      match o.use with
      | .fetch tag => s.fetchReply tag ok data
      | .consumed => if ok && data.length == o.len then s.consume (BitVec.ofNat 64 (leNat data)) else s.exportFailed c
      | _ => if ok then s else s.exportFailed c
    | _, _ => s)

/-- ROCE_REQUEST_NAK: a request at the queue pair of connection c. The answer names the queue pair. -/
def execRoceRequestNak (c : Nat) (s : State) : Host.Outcome State Fault Refusal :=
  .next (if bit (s.conn c).w0.toNat 0 && s.ethUp (s.conn c).port then s.answer (s.conn c).port 4 (natToBytes (0x100 + c) 3) else s)

/-- CNP: the sending rate is halved (R443). -/
def execCnp (c : Nat) (s : State) : Host.Outcome State Fault Refusal :=
  .next (if s.connUp c then s.modConn c fun x => { x with rateExp := x.rateExp + 1, cnpTick := s.tick } else s)

/-- RATE_RESTORE: one step of 1/16 after 50 µs without a CNP (R443). -/
def execRateRestore (c : Nat) (s : State) : Host.Outcome State Fault Refusal :=
  .next (let x := s.conn c
    if s.connUp c && decide (x.rate < 2 ^ x.rateExp) then
      let s := s.advanceTick (x.cnpTick + 5000)
      s.modConn c fun x => { x with rate := min (x.rate + 2 ^ x.rateExp / 16) (2 ^ x.rateExp), cnpTick := s.tick }
    else s)

/-- ROCE_ACK_TIMEOUT: 4.096 µs × 2^14 without an acknowledgement; after 7 retries the connection enters ERROR (R444). -/
def execRoceAckTimeout (c : Nat) (s : State) : Host.Outcome State Fault Refusal :=
  .next (let x := s.conn c
    if s.connUp c && !x.ops.isEmpty then
      let s := s.advanceTick (max x.tick ((x.ops.head?.map (·.leave)).getD 0) + 6710887)
      if x.retries < 7 then s.modConn c fun x => { x with retries := x.retries + 1, tick := s.tick } else s.connError c
    else s)

/-- ROCE_REESTABLISH: 10 ms after the failure, or after the attempt before (R444). -/
def execRoceReestablish (c : Nat) (s : State) : Host.Outcome State Fault Refusal :=
  .next (let x := s.conn c
    if bit x.w0.toNat 0 && x.state == 2 then
      let s := s.advanceTick (x.tick + 1000000)
      if s.ethUp x.port then s.modConn c PlbConn.establish else s.modConn c fun x => { x with tick := s.tick }
    else s)

/-! ## Registers (R453) -/

/-- Word w of PLB_CONN[c]. -/
def PlbConn.word (x : PlbConn) (w : Nat) : Word32 :=
  if w = 0 then x.w0 else if w = 1 then x.w1 else if w = 2 then x.w2
  else if w = 3 then BitVec.ofNat 32 (pack [(2, x.state), (14, 0), (16, x.fails.toNat)])
  else if w < 8 then x.ip.getD (w - 4) 0
  else if w = 8 then lo32 x.base else if w = 9 then hi32 x.base else 0

def PlbConn.putWord (x : PlbConn) (w : Nat) (v : Word32) : PlbConn :=
  if w = 0 then { x with w0 := v &&& 0xFFFFFF0F }
  else if w = 1 then { x with w1 := v &&& 0xFFFFFF }
  else if w = 2 then { x with w2 := v }
  else if w = 3 then x
  else if w < 8 then { x with ip := x.ip.set (w - 4) v }
  else if w = 8 then { x with base := setLo x.base v }
  else if w = 9 then { x with base := setHi x.base v }
  else x

/-- A refused write of a descriptor or connection (R453). -/
def State.refuseDesc (s : State) : WriteRes × State := (.refused 0x0463, s.hubFault 0x0463 0)

/-- A write of PLB_CONN. Clearing VALID fails the operations in flight. -/
def State.writePlb (s : State) (o : Nat) (v : Word32) : WriteRes × State :=
  let c := o / 64
  let w := o / 4 % 16
  let x := s.conn c
  if bit x.w0.toNat 0 then
    (if w = 0 ∧ !bit v.toNat 0 then
      let s := s.modConn c fun x => { x.putWord 0 v with state := 0, ops := [] }
      let s := s.opsFail x.ops
      (.done, if x.ops.any fun o => o.use.ofJournal then s.exportFailed c else s)
    else s.refuseDesc)
  else
    let y := x.putWord w v
    (.done, s.modConn c fun _ =>
      if w = 0 ∧ bit v.toNat 0 then (if s.ethUp y.port then y.establish else { y with state := 0 }) else y)

/-- Whether TKT_DESC and OUT_DESC may be written. -/
def State.descOpen (s : State) : Bool := !s.anyAttached || s.bar.phase == .held

/-- The RW bits of the words of TKT_DESC and OUT_DESC. -/
def tktMask (w : Nat) : Word32 := if w = 0 then 0x8007FFFF else if w = 1 then 0x3FFFFFF else if w = 2 then 0x1FFFF else 0
def outMask (w : Nat) : Word32 := if w = 0 then 0x8000FFFF else 0x7FFFFFF

/-- A register of Ethernet port e. -/
def EthPort.reg (x : EthPort) (o : Nat) : Option Nat :=
  if o = 0x00 then some x.cfg.toNat
  else if o = 0x04 then some x.mtu.toNat
  else if o = 0x08 then some (pack [(1, flag x.up), (1, flag x.anDone), (1, flag x.fec), (13, 0), (16, x.changes.toNat)])
  else if o = 0x0C then some x.macLo.toNat
  else if o = 0x10 then some x.macHi.toNat
  else if o = 0x14 then some x.ip4.toNat
  else if 0x18 ≤ o ∧ o < 0x28 then some (x.ip6.getD ((o - 0x18) / 4) 0).toNat
  else if o = 0x28 then some x.drop.toNat
  else none

/-- HT_STATUS. -/
def HostIf.status (h : HostIf) : Nat :=
  pack [(8, maskOf (fun n => (keyGet h.sessions n).isSome) 8), (7, (67108864 - h.ticketBytes) / 1048576)]

/-- A register of the Ethernet block. -/
def State.ethReg (s : State) (o : Nat) : Option Nat :=
  if o < 0x800 then (s.eth (o / 0x100)).reg (o % 0x100)
  else if o = 0x1000 then some s.host.ctrl.toNat
  else if o = 0x1004 then some s.host.status
  else if 0x2000 ≤ o ∧ o < 0x3000 then (if o / 4 % 4 = 3 then none else some (wordOf s.host.tkt ((o - 0x2000) / 4)).toNat)
  else if 0x3000 ≤ o ∧ o < 0x3200 then some (wordOf s.host.outd ((o - 0x3000) / 4)).toNat
  else if 0x4000 ≤ o ∧ o < 0x8000 then some (((s.conn ((o - 0x4000) / 64)).word (o / 4 % 16)).toNat)
  else none

/-- A write of a register of Ethernet port e. Clearing ENABLE takes the link down. -/
def State.writeEthPort (s : State) (e o : Nat) (v : Word32) : WriteRes × State :=
  if o = 0x00 then
    let s' := s.modEth e fun x => { x with cfg := v &&& 0x3FFFFF }
    (.done, if s.ethUp e && !bit v.toNat 0 then s'.ethLost e else s')
  else if o = 0x04 then (.done, s.modEth e fun x => { x with mtu := BitVec.ofNat 14 (max 1280 (min 9216 (bits v.toNat 13 0))) })
  else if o = 0x0C then (.done, s.modEth e fun x => { x with macLo := v })
  else if o = 0x10 then (.done, s.modEth e fun x => { x with macHi := v.setWidth 16 })
  else if o = 0x14 then (.done, s.modEth e fun x => { x with ip4 := v })
  else if 0x18 ≤ o ∧ o < 0x28 then (.done, s.modEth e fun x => { x with ip6 := x.ip6.set ((o - 0x18) / 4) v })
  else (if ((s.eth e).reg o).isSome then .done else .unmapped, s)

/-- A write of TKT_DESC or OUT_DESC. -/
def State.writeDesc (s : State) (o : Nat) (v : Word32) : WriteRes × State :=
  if !s.descOpen then s.refuseDesc
  else if o < 0x3000 then
    (.done, s.modHost fun h => { h with tkt := putWord h.tkt ((o - 0x2000) / 4) (v &&& tktMask (o / 4 % 4)) })
  else (.done, s.modHost fun h => { h with outd := putWord h.outd ((o - 0x3000) / 4) (v &&& outMask (o / 4 % 2)) })

/-- Outputs are released again from line ACKED (R442). -/
def State.rewindOutputs (s : State) : State :=
  s.modHost fun h => { h with outputs := h.outputs.map fun o => { o with sent := o.acked, tick := s.tick } }

/-- A write of HT_CTRL: where OUT_SESS named no open session and now names one, release goes on from line ACKED (R442). -/
def State.writeHtCtrl (s : State) (v : Word32) : State :=
  let s' := s.modHost fun h => { h with ctrl := v &&& 0xFFFFFF07 }
  if (keyGet s.host.sessions (bits s.host.ctrl.toNat 2 0)).isNone && (keyGet s.host.sessions (bits v.toNat 2 0)).isSome then s'.rewindOutputs
  else s'

/-- A write at an offset of the Ethernet block. -/
def State.writeEth (s : State) (o : Nat) (v : Word32) : WriteRes × State :=
  if o < 0x800 then s.writeEthPort (o / 0x100) (o % 0x100) v
  else if o = 0x1000 then (.done, s.writeHtCtrl v)
  else if (0x2000 ≤ o ∧ o < 0x3000 ∧ o / 4 % 4 ≠ 3) ∨ (0x3000 ≤ o ∧ o < 0x3200) then s.writeDesc o v
  else if 0x4000 ≤ o ∧ o < 0x8000 then s.writePlb (o - 0x4000) v
  else (if (s.ethReg o).isSome then .done else .unmapped, s)

/-- PLB_CONN_WRITE. -/
def execPlbConnWrite (a : Nat) (v : Word32) (s : State) : Host.Outcome State Fault Refusal :=
  .next (if 0x704000 ≤ a ∧ a < 0x708000 ∧ a % 4 = 0 then (s.writeEth (a - 0x700000) v).2 else s)

/-- DESCRIPTOR_WRITE: TKT_DESC or OUT_DESC. -/
def execDescriptorWrite (a : Nat) (v : Word32) (s : State) : Host.Outcome State Fault Refusal :=
  .next (if 0x702000 ≤ a ∧ a < 0x703200 ∧ a % 4 = 0 then (s.writeEth (a - 0x700000) v).2 else s)

end Sys2Proof.Machine
end

