-- ==== Sys2Proof/Machine/Power.lean ====
section
/-! DEFINITION. References, throttling, the input supply, thermal limits, sleep states, telemetry, and their registers
(R454 to R473). -/

namespace Sys2Proof.Machine

def State.modClk (s : State) (f : Clocks → Clocks) : State := { s with clk := f s.clk }
def State.modPower (s : State) (f : Power → Power) : State := { s with power := f s.power }
def State.modTel (s : State) (f : Telemetry → Telemetry) : State := { s with tel := f s.tel }

/-! ## References (R454 to R457) -/

/-- Reference r: 0 A, 1 B. -/
def Clocks.ref (c : Clocks) (r : Nat) : RefClk := if r = 0 then c.refA else c.refB
def Clocks.setRef (c : Clocks) (r : Nat) (x : RefClk) : Clocks := if r = 0 then { c with refA := x } else { c with refB := x }
def Clocks.modRef (c : Clocks) (r : Nat) (f : RefClk → RefClk) : Clocks := c.setRef r (f (c.ref r))
def Clocks.enabled (c : Clocks) (r : Nat) : Bool := bit c.cfg.toNat (2 + r)

/-- Whether the monitor measures reference r. -/
def State.monitored (s : State) (r : Nat) : Bool := s.board.standby && decide (r < 2) && s.clk.enabled r

/-- Reference r is lost (R455): when it is the active one, a switchover to the other or the entry into holdover. -/
def State.loseRef (s : State) (r : Nat) : State :=
  if !(s.clk.ref r).present then s
  else
    let s := s.modClk fun c => c.modRef r fun x => { x with present := false, since := s.tick }
    if s.clk.active ≠ r then s
    else if (s.clk.ref (1 - r)).present then
      (s.modClk fun c => { c with active := 1 - r, switches := c.switches + 1 }).powerFault 0x0601 r 0
    else (s.modClk fun c => { c with holdover := true, switches := c.switches + 1 }).powerFault 0x0602 r 0

/-- REF_NO_EDGE: no edge for 100 ns. -/
def execRefNoEdge (r : Nat) (s : State) : Host.Outcome State Fault Refusal :=
  .next (if s.monitored r then s.loseRef r else s)

/-- The size of an offset in 0.1 ppm. -/
def offsetSize (off : BitVec 16) : Nat := off.toInt.natAbs

/-- HOLD_LIMIT, once per holdover (R457). -/
def State.holdLimit (s : State) : State :=
  if s.clk.holdover && !s.clk.holdLimit then (s.modClk fun c => { c with holdLimit := true }).powerFault 0x0604 s.clk.active 0
  else s

/-- REF_MONITOR_WINDOW: the offset of reference r over a window; `drift`: in holdover, the estimated drift is beyond
±100 ppm. A reference beyond ±200 ppm starts its 10 ms anew. -/
def execRefMonitorWindow (r : Nat) (off : BitVec 16) (drift : Bool) (s : State) : Host.Outcome State Fault Refusal :=
  .next (let s := if !s.monitored r then s
      else
        let s := s.modClk fun c => c.modRef r fun x =>
          { x with offset := off, since := if !x.present && decide (2000 < offsetSize off) then s.tick else x.since }
        if 5000 < offsetSize off then s.loseRef r else s
    if drift && s.board.standby then s.holdLimit else s)

/-- REF_PRESENT: reference r has stayed within ±200 ppm for 10 ms. The first one present after standby power-up is taken
without a record. -/
def execRefPresent (r : Nat) (s : State) : Host.Outcome State Fault Refusal :=
  .next (let x := s.clk.ref r
    if !s.monitored r || x.present || decide (2000 < offsetSize x.offset) then s
    else
      let s := s.advanceTick (x.since + 1000000)
      let s := s.modClk fun c => c.modRef r fun x => { x with present := true, since := s.tick }
      if s.clk.holdover then
        (s.modClk fun c => { c with holdover := false, holdLimit := false, active := r }).powerFault 0x0603 r 0
      else if (s.clk.ref s.clk.active).present then s
      else s.modClk fun c => { c with active := r })

/-- REF_REVERT: back to the preferred reference after 1 s of presence. -/
def execRefRevert (s : State) : Host.Outcome State Fault Refusal :=
  .next (let r := bits s.clk.cfg.toNat 0 0
    if bit s.clk.cfg.toNat 1 && s.monitored r && (s.clk.ref r).present && !s.clk.holdover && s.clk.active != r then
      (s.advanceTick ((s.clk.ref r).since + 100000000)).modClk fun c => { c with active := r, switches := c.switches + 1 }
    else s)

/-- A write of CLK_CFG: clearing EN of a reference ends its presence, and loses it when it is active. -/
def State.writeClkCfg (s : State) (v : Word32) : State :=
  let old := s.clk
  let s := s.modClk fun c => { c with cfg := v &&& 0xF }
  [1 - old.active, old.active].foldl (fun (s : State) r =>
    if old.enabled r && !s.clk.enabled r then s.loseRef r
    else if !old.enabled r && s.clk.enabled r then s.modClk fun c => c.modRef r fun x => { x with since := s.tick }
    else s) s

/-- CLK_CFG_WRITE. -/
def execClkCfgWrite (a : Nat) (v : Word32) (s : State) : Host.Outcome State Fault Refusal :=
  .next (if a = 0x200000 then s.writeClkCfg v else s)

/-! ## Throttling (R460 to R462) -/

/-- CYCLE_STRETCH: one cycle of the region of core k is stretched. -/
def execCycleStretch (k : Nat) (s : State) : Host.Outcome State Fault Refusal :=
  .next (if decide (k < 768) && s.power.mainOn && s.group (groupOf k) == .on && !s.power.stopped.contains k then
    s.modCore k fun c => c.modCtl fun r => { r with stretch := r.stretch + 1 }
  else s)

/-- The throttle step in force: the largest demand. -/
def Clocks.step (c : Clocks) : Nat := max (max c.thermal c.power) (max c.droop (min c.force 8))

/-- The THERMAL demand leaves 0: a new episode (R462). -/
def State.thermalEpisode (s : State) (n : Nat) : State := if s.clk.thermal = 0 then s.powerFault 0x0620 n 0 else s

/-- THROTTLE_T in 1/16 °C. -/
def State.throttleAt (s : State) : Int := 16 * (s.tel.therm.toNat : Int)

/-- THERMAL_DEMAND_RAISE: sensor n reads t, every 100 µs. -/
def execThermalDemandRaise (n : Nat) (t : BitVec 16) (s : State) : Host.Outcome State Fault Refusal :=
  .next (if s.board.standby ∧ n < 104 ∧ s.throttleAt ≤ t.toInt then
    let s := (if s.clk.thermalTick = 0 then s else s.advanceTick (s.clk.thermalTick + 10000)).thermalEpisode n
    s.modClk fun c => { c with thermal := min 8 (c.thermal + 1), thermalTick := s.tick }
  else s)

/-- THERMAL_DEMAND_LOWER: the hottest sensor reads t, every 1 ms. -/
def execThermalDemandLower (t : BitVec 16) (s : State) : Host.Outcome State Fault Refusal :=
  .next (if s.board.standby ∧ t.toInt ≤ s.throttleAt - 48 ∧ 0 < s.clk.thermal then
    let s := s.advanceTick (s.clk.thermalTick + 100000)
    s.modClk fun c => { c with thermal := c.thermal - 1, thermalTick := s.tick, hot := false }
  else s)

/-- The THERMAL demand goes to 8 (R462, R470). -/
def State.overheat (s : State) (n : Nat) : State :=
  let s := s.thermalEpisode n
  let s := s.modClk fun c => { c with thermal := 8, thermalTick := s.tick }
  if s.clk.hot then s else (s.modClk fun c => { c with hot := true }).powerFault 0x0622 n 0

/-- JUNCTION_OVER_95C: sensor n reads t. -/
def execJunctionOver95c (n : Nat) (t : BitVec 16) (s : State) : Host.Outcome State Fault Refusal :=
  .next (if s.board.standby ∧ n < 104 ∧ 1520 ≤ t.toInt then s.overheat n else s)

/-- A POWER or DROOP demand leaves 0: its cause is 0 POWER, 1 DROOP. -/
def State.demandEpisode (s : State) (old loc cause : Nat) : State :=
  if old = 0 then s.powerFault 0x0621 loc (pack [(1, cause)]) else s

/-- POWER_DEMAND_RAISE: every 100 µs while PIN exceeds PWR_LIMIT. -/
def execPowerDemandRaise (s : State) : Host.Outcome State Fault Refusal :=
  .next (if s.board.standby ∧ 10 * s.power.limit.toNat < s.tel.pin.toNat then
    let s := (if s.clk.powerTick = 0 then s else s.advanceTick (s.clk.powerTick + 10000)).demandEpisode s.clk.power 0 0
    s.modClk fun c => { c with power := min 8 (c.power + 1), powerTick := s.tick }
  else s)

/-- POWER_DEMAND_LOWER: every 1 ms while PIN is at most 95 % of PWR_LIMIT. -/
def execPowerDemandLower (s : State) : Host.Outcome State Fault Refusal :=
  .next (if s.board.standby ∧ 100 * s.tel.pin.toNat ≤ 950 * s.power.limit.toNat ∧ 0 < s.clk.power then
    let s := s.advanceTick (s.clk.powerTick + 100000)
    s.modClk fun c => { c with power := c.power - 1, powerTick := s.tick }
  else s)

/-- DROOP_WINDOW: more than 1/16 of the cycles of core k's region were stretched in a window of 100 µs. -/
def execDroopWindow (k : Nat) (s : State) : Host.Outcome State Fault Refusal :=
  .next (if k < 768 ∧ s.power.mainOn then
    let s := (if s.clk.droopTick = 0 then s else s.advanceTick (s.clk.droopTick + 10000)).demandEpisode s.clk.droop
      (groupDomain (groupOf k)) 1
    s.modClk fun c => { c with droop := min 8 (c.droop + 1), droopTick := s.tick }
  else s)

/-- DROOP_DEMAND_LOWER: every 1 ms without such a window. -/
def execDroopDemandLower (s : State) : Host.Outcome State Fault Refusal :=
  .next (if s.board.standby ∧ 0 < s.clk.droop then
    let s := s.advanceTick (s.clk.droopTick + 100000)
    s.modClk fun c => { c with droop := c.droop - 1, droopTick := s.tick }
  else s)

/-! ## Main power off (R469, R470, R500) -/

/-- The main converters are off: what lies in their domains is lost. The steady domain, the clocks, the telemetry and the
root of trust's records are kept. -/
def State.mainOff (s : State) : State :=
  { pending := s.pending, now := s.now, tickBase := s.tickBase, freeCtr := s.freeCtr, grade := s.grade, stepB := s.stepB
    lc := if s.stepB then 1 else 0, faults := s.faults
    route := { self := s.route.self }
    power := { s.power with groups := [], edgeOff := edgeDomains, mainOn := false, stopped := [], offReq := [0, 0, 0],
                              coresFrom := s.now }
    moduleId := s.moduleId, clk := s.clk, tel := s.tel, sec := s.sec
    host := { eth := s.host.eth.map fun x => { macLo := x.macLo, macHi := x.macHi } }
    board := { s.board with coresFailed := [], tested := false } }

/-- A trip: the converters stay off until MOD_RESET_N, with its cause (R469, R470). -/
def State.trip (s : State) (cause : Nat) : State :=
  let s := s.mainOff
  { s with power := { s.power with tripped := cause }, board := { s.board with cause := cause } }

/-- THERMAL_TRIP: sensor n reads t, 105 °C or more. -/
def execThermalTrip (n : Nat) (t : BitVec 16) (s : State) : Host.Outcome State Fault Refusal :=
  .next (if s.power.mainOn ∧ n < 104 ∧ 1680 ≤ t.toInt then ((s.overheat n).powerFault 0x0623 n 0).trip 3 else s)

/-- The input leaves 40 to 58 V: once per excursion. -/
def State.leaveRange (s : State) : State :=
  if s.power.excursion then s else (s.modPower fun p => { p with excursion := true }).powerFault 0x0624 0 0

/-- INPUT_VOLTAGE_EXCURSION (R469). -/
def execInputVoltageExcursion (s : State) : Host.Outcome State Fault Refusal := .next (if s.board.standby then s.leaveRange else s)

/-- INPUT_VOLTAGE_RETURN (R469): the excursion ends. -/
def execInputVoltageReturn (s : State) : Host.Outcome State Fault Refusal :=
  .next (s.modPower fun p => { p with excursion := false })

/-- UNDERVOLTAGE: the input has been below 38 V for 100 µs, once per excursion (R469). -/
def execUndervoltage (s : State) : Host.Outcome State Fault Refusal :=
  .next (if !s.board.standby || (s.power.excursion && s.power.tripped == 4) then s
    else (s.leaveRange.powerFault 0x0625 0 0).trip 4)

/-! ## Telemetry (R471) -/

/-- The sensor with the highest reading, the lowest index first. -/
def hottest (ts : List (BitVec 16)) : Nat × BitVec 16 :=
  ts.zipIdx.foldl (fun b x => if b.2.toInt < x.1.toInt then (x.2, x.1) else b) (0, ts.getD 0 0)

/-- TELEMETRY_UPDATE: the energy of the last 1,000 steady ticks joins the six counters (input, dies 0 to 3, IO); the averages
of the last 1 ms. -/
def execTelemetryUpdate (energy : List Nat) (pin vin inlet outlet : BitVec 16) (temps : List (BitVec 16)) (s : State) :
    Host.Outcome State Fault Refusal :=
  .next (if !s.board.standby then s
    else
      let s := s.advanceTick ((s.tick / 1000 + 1) * 1000)
      let ts := (List.range 104).map fun n => temps.getD n 0
      let s := s.modTel fun t =>
        { t with energy := t.energy.zipIdx.map fun x => x.1 + BitVec.ofNat 64 (energy.getD x.2 0)
                 pin := pin, vin := vin, inlet := inlet, outlet := outlet, temps := ts }
      if ts.all fun t => decide (t.toInt < 1520) then s.modClk fun c => { c with hot := false } else s)

/-! ## Sleep (R154, R465 to R467) -/

/-- The conditions of R154 at core k: only waits for arrivals are in flight, every stream has ended or waits, and one waits for an
arrival or the core is finished. A stream that waits on counters has counted its DELAY and its waits do not hold. -/
def State.mayStop (s : State) (k : Nat) : Bool :=
  let c := s.core k
  c.mx.ops.isEmpty && c.vx.loads.isEmpty && c.vx.runs.isEmpty && c.dx.ops.isEmpty && c.sx.acc.isEmpty
    && (c.nx.ops.all fun o => o.kind == .wait && o.waitTick.isSome)
    && (match c.sx.wait with
      | none => true
      | some x => x.waitTick.isSome)
    && (allEngines.all fun e => (c.stream e).sendAt.isNone
      && ([StreamState.ended, .abandoned, .waitArr].contains (c.stream e).state || s.stalled k e))
    && ((allEngines.any fun e => (c.stream e).state == .waitArr) || c.finished)

/-- The first cycle in which the conditions can have held: the last ready bound of a stream, its DELAY counted (log 30). -/
def State.stopFrom (s : State) (k : Nat) : Nat :=
  allEngines.foldl (fun n e => max n (if s.stalled k e then (s.testOf k e).2 else ((s.core k).stream e).ready)) 0

/-- CORE_STOP: the conditions have held for STOP_DELAY + 1 cycles, and the clock of core k stops (R154, R465). -/
def execCoreStop (k : Nat) (s : State) : Host.Outcome State Fault Refusal :=
  .next (if decide (k < 768) && s.group (groupOf k) == .on && !s.power.stopped.contains k && s.mayStop k then
    let s := s.advance (s.stopFrom k + bits s.power.sleep.toNat 9 0 + 1)
    (s.modPower fun p => { p with stopped := markPut p.stopped k }).modCore k fun c =>
      c.modCtl fun r => { r with stopAt := some s.now }
  else s)

/-- The tick in which the last core of group g stopped. -/
def State.stoppedTick (s : State) (g : Nat) : Nat :=
  s.tickBase + (groupCores g).foldl (fun n k => max n ((s.core k).ctl.stopAt.getD 0)) 0 / Config.cyclesPerTick s.grade

/-- RETAIN_ENTRY: the cores of group g have all been in STOP for RETAIN_DELAY + 1 ticks (R465). -/
def execRetainEntry (g : Nat) (s : State) : Host.Outcome State Fault Refusal :=
  .next (if decide (g < 96) && bit s.power.sleep.toNat 10 && s.group g == .on
      && (groupCores g).all fun k => s.power.stopped.contains k then
    (s.advanceTick (s.stoppedTick g + bits s.power.sleep.toNat 31 16 + 1)).modPower fun p => { p with groups := keyPut p.groups g .retain }
  else s)

/-- WAKE: a wake event of core k, or its group leaving OFF once it is no longer requested OFF; `ok`: the group reaches ON
(R465 to R467). -/
def execWake (k : Nat) (ok : Bool) (s : State) : Host.Outcome State Fault Refusal :=
  .next (let g := groupOf k
    if 768 ≤ k then s
    else match s.group g with
    | .on => s.wakeCore k
    | .retain => if ok then s.wakeCore k else s.groupFails g
    | .off => if bit (s.power.offReq.getD (g / 32) 0).toNat (g % 32) then s else s.powerGroup g ok
    | .failed => s)

/-- Bits of PWR_OFF_REQ as core groups. -/
def reqGroups (w : Nat) (v : Word32) : List Nat := ((List.range 32).filter fun b => bit v.toNat b).map fun b => 32 * w + b

/-- A core group turns OFF: nothing but the stock is kept (R465). -/
def State.groupOff (s : State) (g : Nat) : State :=
  if s.group g == .failed then s
  else
    let cs := groupCores g
    let s := cs.foldl (fun (s : State) k => s.modCore k fun c => c.powered (s.now - s.power.coresFrom)) s
    s.modPower fun p => { p with groups := keyPut p.groups g .off, stopped := p.stopped.filter fun k => !cs.contains k }

/-- A write of PWR_OFF_REQ[w]: refused whole when it sets the bit of a group with an attached core (R466). -/
def State.writeOffReq (s : State) (w : Nat) (v : Word32) : WriteRes × State :=
  let old := s.power.offReq.getD w 0
  let new := reqGroups w (v &&& ~~~old)
  match new.find? fun g => (groupCores g).any fun k => (s.core k).ctl.attached with
  | some g => (.refused 0x0630, s.powerFault 0x0630 (groupDomain g) 0)
  | none => (.done, new.foldl State.groupOff (s.modPower fun p => { p with offReq := p.offReq.set w v }))

/-- PWR_OFF_REQ_WRITE. -/
def execPwrOffReqWrite (a : Nat) (v : Word32) (s : State) : Host.Outcome State Fault Refusal :=
  .next (if a = 0x300010 ∨ a = 0x300014 ∨ a = 0x300018 then (s.writeOffReq ((a - 0x300010) / 4) v).2 else s)

/-! ## Registers (R473) -/

/-- A value taken as the nearer limit. -/
def clampTo (lo hi n : Nat) : Nat := max lo (min hi n)

/-- The Clocks block, at an offset from 0x0020_0000, with no effect of the read. -/
def State.clkReg (s : State) (o : Nat) : Option Nat :=
  let c := s.clk
  if o = 0x00 then some c.cfg.toNat
  else if o = 0x04 then
    some (pack [(1, c.active), (1, flag c.holdover), (1, flag c.refA.present), (1, flag c.refB.present), (1, flag c.holdLimit),
      (11, 0), (16, c.switches.toNat)])
  else if o = 0x08 then some (pack [(16, c.refA.offset.toNat), (16, c.refB.offset.toNat)])
  else if o = 0x10 then some (s.tick % 2 ^ 32)
  else if o = 0x14 then some c.tickLatch.toNat
  else if o = 0x20 then
    some (pack [(4, c.step), (4, c.force), (1, flag (c.thermal != 0)), (1, flag (c.power != 0)), (1, flag (c.droop != 0))])
  else none

def State.clkLatch (s : State) (o : Nat) : State :=
  if o = 0x10 then s.modClk fun c => { c with tickLatch := w32 (s.tick / 2 ^ 32) } else s

def State.writeClk (s : State) (o : Nat) (v : Word32) : WriteRes × State :=
  if o = 0x00 then (.done, s.writeClkCfg v)
  else if o = 0x20 then (.done, s.modClk fun c => { c with force := min 8 (bits v.toNat 7 4) })
  else (if (s.clkReg o).isSome then .done else .unmapped, s)

/-- The core group of a power domain, if it is one (R463). -/
def domainGroup (n : Nat) : Option Nat := if n < 120 ∧ n % 30 < 24 then some (24 * (n / 30) + n % 30) else none

/-- PWR_DOMAIN[n].STATE. -/
def State.domainState (s : State) (n : Nat) : Nat :=
  if n = 120 then 1
  else if !s.power.mainOn then 0
  else match domainGroup n with
  | some g => (match s.group g with
    | .off => 0
    | .on => 1
    | .retain => 2
    | .failed => 3)
  | none => if s.power.edgeOff.contains n then 0 else 1

/-- The Power block, at an offset from 0x0030_0000. -/
def State.powerReg (s : State) (o : Nat) : Option Nat :=
  let p := s.power
  if o = 0x00 then some (pack [(1, flag p.mainOn), (1, flag s.retIdle), (14, 0), (16, p.offDrops.toNat)])
  else if o = 0x04 then some p.limit.toNat
  else if o = 0x08 then some p.sleep.toNat
  else if 0x10 ≤ o ∧ o < 0x1C then some (p.offReq.getD ((o - 0x10) / 4) 0).toNat
  else if 0x100 ≤ o ∧ o < 0x2F0 then
    some (pack [(2, s.domainState ((o - 0x100) / 4)), (14, 0), (16, ((keyGet p.wakes ((o - 0x100) / 4)).getD 0).toNat)])
  else if 0x300 ≤ o ∧ o < 0x360 then some (maskOf (fun x => p.stopped.contains (32 * ((o - 0x300) / 4) + x)) 32)
  else none

def State.writePower (s : State) (o : Nat) (v : Word32) : WriteRes × State :=
  if o = 0x04 then (.done, s.modPower fun p => { p with limit := BitVec.ofNat 11 (clampTo 100 1400 (bits v.toNat 10 0)) })
  else if o = 0x08 then (.done, s.modPower fun p => { p with sleep := v &&& 0xFFFF07FF })
  else if 0x10 ≤ o ∧ o < 0x1C then s.writeOffReq ((o - 0x10) / 4) v
  else (if (s.powerReg o).isSome then .done else .unmapped, s)

/-- The energy counter of an address of the Telemetry block, and whether it is the high half. -/
def energyAt (o : Nat) : Option (Nat × Bool) :=
  if o = 0x00 then some (0, false) else if o = 0x04 then some (0, true)
  else if 0x10 ≤ o ∧ o < 0x38 then some (1 + (o - 0x10) / 8, o % 8 == 4) else none

/-- The Telemetry block, at an offset from 0x00B0_0000. -/
def Telemetry.reg (t : Telemetry) (o : Nat) : Option Nat :=
  match energyAt o with
  | some (i, true) => some (t.latch.getD i 0).toNat
  | some (i, false) => some (lo32 (t.energy.getD i 0)).toNat
  | none =>
    if o = 0x40 then some (pack [(16, t.pin.toNat), (16, t.vin.toNat)])
    else if o = 0x44 then some (pack [(16, (hottest t.temps).2.toNat), (7, (hottest t.temps).1)])
    else if o = 0x48 then some (pack [(16, t.inlet.toNat), (16, t.outlet.toNat)])
    else if o = 0x50 then some (pack [(8, t.therm.toNat), (8, 0x69)])
    else if 0x100 ≤ o ∧ o < 0x2A0 then some (t.temps.getD ((o - 0x100) / 4) 0).toNat
    else none

def Telemetry.latchAt (t : Telemetry) (o : Nat) : Telemetry :=
  match energyAt o with
  | some (i, false) => { t with latch := t.latch.set i (hi32 (t.energy.getD i 0)) }
  | _ => t

def State.writeTel (s : State) (o : Nat) (v : Word32) : WriteRes × State :=
  if o = 0x50 then (.done, s.modTel fun t => { t with therm := BitVec.ofNat 8 (clampTo 60 95 (bits v.toNat 7 0)) })
  else (if (s.tel.reg o).isSome then .done else .unmapped, s)

end Sys2Proof.Machine
end

