-- ==== Sys2Proof/Machine/Boot.lean ====
section
/-! DEFINITION. Identity, boot, reset, the records in flash, owner keys, firmware update, and the Identity and Security
registers (R24, R236, R474 to R486, R490 to R501). -/

namespace Sys2Proof.Machine

def State.modSec (s : State) (f : Security → Security) : State := { s with sec := f s.sec }
def State.modBoard (s : State) (f : Board → Board) : State := { s with board := f s.board }

/-! ## Flash (R474, R475, R480) -/

/-- The flash offset of a firmware slot, and its size. -/
def slotBase (i : Nat) : Nat := 0x2000000 * (i + 1)
def slotSize : Nat := 0x2000000

/-- n bytes of a firmware slot. -/
def State.slotBytes (s : State) (i a n : Nat) : List Byte := cellRead s.sec.flash (slotBase i + a) n

def State.slotSvn (s : State) (i : Nat) : Nat := leNat (s.slotBytes i 4 4)

/-- A candidate of R481: the right MAGIC, an SVN at or above the floor, not refused before in this boot. -/
def State.isCandidate (s : State) (i : Nat) : Bool :=
  leNat (s.slotBytes i 0 4) == 0x57464C48 && decide (s.sec.floor.toNat ≤ s.slotSvn i) && !s.sec.tried.contains i

/-- The candidate tried next: the highest SVN, slot 0 first on a tie. -/
def State.candidate (s : State) : Option Nat :=
  if s.isCandidate 0 then (if s.isCandidate 1 && decide (s.slotSvn 0 < s.slotSvn 1) then some 1 else some 0)
  else if s.isCandidate 1 then some 1 else none

/-- LEN of an image, in the slot. -/
def State.imageLen (s : State) (i : Nat) : Nat := leNat (s.slotBytes i 8 4)

/-- The whole image: header, body, signature. -/
def State.imageBytes (s : State) (i : Nat) : List Byte := s.slotBytes i 0 (192 + s.imageLen i)

/-- Whether the image in a slot verifies (R481, R500). -/
def State.imageGood (s : State) (i : Nat) : Bool :=
  let n := s.imageLen i
  let key := leNat (s.slotBytes i 12 1)
  let pub := s.slotBytes i (192 + n) 32
  decide (1 ≤ n) && decide (n ≤ 33554176) && decide (key < 2) && (s.slotBytes i 13 51).all (· == 0)
    && (s.sec.torn.all fun o => !(decide (slotBase i ≤ o) && decide (o < slotBase i + slotSize)))
    && sha512 pub == Config.romKeyDigest key
    && sha512 (s.slotBytes i 128 n) == s.slotBytes i 64 64
    && edVerify pub (s.slotBytes i 0 (128 + n)) (s.slotBytes i (128 + n) 64)

/-- The message of a floor record (R482). -/
def FloorRec.body (r : FloorRec) (mid : Word64) : List Byte :=
  natToBytes mid.toNat 8 ++ natToBytes r.seq.toNat 8 ++ natToBytes r.svn.toNat 4

/-- The message of an owner record's DEV_SIG (R484). -/
def OwnerRec.message (r : OwnerRec) (mid : Word64) : List Byte :=
  natToBytes mid.toNat 8 ++ natToBytes r.seq.toNat 8 ++ r.body

/-! ## Steps of the boot (R478, R479, R481, R482, R485) -/

/-- Step 3: the floor record is read. -/
def State.enterRomFw (s : State) : State :=
  let s := s.modSec fun x => { x with stage := .romFw, tried := [], floorBad := false, floor := 0 }
  match s.sec.floorRec with
  | none => s
  | some r =>
    if edVerify s.sec.pub (r.body s.moduleId) r.sign then s.modSec fun x => { x with floor := r.svn }
    else (s.modSec fun x => { x with floorBad := true }).hubFault 0x0703 0

/-- No candidate is left: the ROM halts. -/
def State.haltFw (s : State) : State := (s.modSec fun x => { x with stage := .haltFw }).hubFault 0x0702 0

/-- IMAGE_CHECK: the ROM has read the next candidate (R481). -/
def execImageCheck (s : State) : Host.Outcome State Fault Refusal :=
  .next (if s.sec.stage ≠ .romFw ∨ !s.board.standby ∨ s.board.low then s
    else match s.candidate with
    | none => s.haltFw
    | some i =>
      if s.imageGood i then
        s.modSec fun x => { x with stage := .fwStart, slot := i, svn := BitVec.ofNat 32 (s.slotSvn i), image := sha512 (s.imageBytes i) }
      else
        let t := (s.modSec fun x => { x with tried := x.tried ++ [i] }).hubFault 0x0704 (pack [(1, i), (32, s.slotSvn i)])
        if t.candidate.isNone then t.haltFw else t)

/-- MAIN_REGULATION: the converters that the firmware enabled reach regulation (R479, R494, R501). -/
def execMainRegulation (s : State) : Host.Outcome State Fault Refusal :=
  .next (if s.sec.stage == .fwStart && !s.power.mainOn && !s.power.excursion && s.power.tripped == 0 && !s.board.low then
    s.modPower fun p => { p with mainOn := true }
  else s)

/-- Step 5: the owner record is read (R485). -/
def State.readOwner (s : State) : State :=
  match s.sec.ownerRec with
  | none => s.modSec fun x => { x with owned := false }
  | some r =>
    if edVerify s.sec.pub (r.message s.moduleId) r.sign then s.modSec fun x => { x with owned := true }
    else (s.modSec fun x => { x with owned := false }).hubFault 0x0703 0

/-- The crossings that fail to align, by the stop indices of their ends (R234). -/
def State.crossingFaults (s : State) : List (Nat × Nat) → State
  | [] => s
  | (a, b) :: r => (s.record 0x0611 3 a 0 0 (pack [(5, b % 32), (5, b / 32)])).crossingFaults r

/-- The bridges that have no failed link: a crossing that failed to align clears the bit of its bridge (R234). -/
def bridgesLeft (bridges : BitVec 4) (crossings : List (Nat × Nat)) : BitVec 4 :=
  BitVec.ofNat 4 (maskOf (fun b => bridges.getLsbD b && !(crossings.any fun c => bridgeOf c.1 c.2 == some b)) 4)

/-- SELF_TEST_COMPLETE: the cores that failed, the crossings that did not align, the bridges that passed, the router stops
that failed. Link training starts when the self-test ends (R236, R501). -/
def execSelfTestComplete (failed : List Nat) (crossings : List (Nat × Nat)) (bridges : BitVec 4) (stops : Nat) (s : State) :
    Host.Outcome State Fault Refusal :=
  .next (if s.sec.stage == .fwStart && s.power.mainOn && !s.board.tested then
    let cores := (List.range 768).filter failed.contains
    let s := cores.foldl (fun (s : State) k => s.record 0x0640 1 k 0 0 0) s
    let s := s.crossingFaults crossings
    let s := s.modBoard fun b => { b with coresFailed := cores, tested := true }
    let s : State := { s with mesh := { s.mesh with aligned := crossings.isEmpty, bridgeOk := bridgesLeft bridges crossings
                                                    stopsFailed := BitVec.ofNat 10 (min stops 768) } }
    let s := s.alignFrom 0
    let s := s.readOwner.modSec fun x => { x with stage := .ready }
    ((List.range 24).filter fun p => bit (s.port p).cfg.toNat 0).foldl State.startPort s
  else s)

/-! ## Standby power (R476 to R479, R494) -/

/-- MAC addresses from the MAC base: port Ee takes base + e (R453, R477). -/
def ethWithMac (base : BitVec 48) : List EthPort :=
  (List.range 8).map fun e =>
    let m := base + BitVec.ofNat 48 e
    { macLo := m.setWidth 32, macHi := (m >>> 32).setWidth 16 }

/-- The private key that a seed gives (R476). -/
def deviceKey (seed : List Byte) : List Byte := (sha512 ([0x44, 0x4B] ++ seed)).take 32

/-- MODULE_ID of a public key (R476). -/
def moduleIdOf (pub : List Byte) : Word64 := BitVec.ofNat 64 (leNat ((sha512 pub).take 8))

/-- The identity from a reconstructed seed, and whether it agrees with the certificate (R476, R477). -/
def State.identify (s : State) (seed : List Byte) : State :=
  let priv := deviceKey seed
  let pub := edPublic priv
  let s : State := { s with moduleId := moduleIdOf pub, sec := { s.sec with priv := priv, pub := pub } }
  if pub = s.sec.certPub then s.enterRomFw else (s.modSec fun x => { x with stage := .haltId }).hubFault 0x0701 0

/-- The module as standby power finds it: flash, the certificate and the part itself are kept. -/
def State.cold (s : State) (standby : Bool) : State :=
  { pending := s.pending, freeCtr := s.freeCtr, grade := s.grade, stepB := s.stepB, lc := if s.stepB then 1 else 0
    sec := { stage := .romId, certPub := s.sec.certPub, macBase := s.sec.macBase, flash := s.sec.flash
             floorRec := s.sec.floorRec, ownerRec := s.sec.ownerRec, torn := s.sec.torn }
    board := { standby := standby } }

/-- STANDBY_POWER_UP: the seed as each helper-data copy reconstructs it, the certificate's key and MAC base, the straps, the
references present (R455, R476 to R479, R496). -/
def execStandbyPowerUp (seed0 seed1 : Option (List (BitVec 8))) (cert : List (BitVec 8)) (mac : BitVec 48) (slot : BitVec 3)
    (bench : BitVec 13) (smbus refA refB : Bool) (s : State) : Host.Outcome State Fault Refusal :=
  .next (if s.board.standby then s
    else
      let s := s.cold true
      let s := s.modSec fun x => { x with certPub := cert, macBase := mac, helper1 := seed0.isNone && seed1.isSome }
      let s := s.modBoard fun b => { b with slotStrap := slot, smbus := smbus }
      let s : State := { s with route := { self := slot ++ bench }, host := { eth := ethWithMac mac } }
      let s := s.modClk fun c => { c with refA := { present := refA }, refB := { present := refB }
                                          active := if !refA && refB then 1 else 0 }
      match seed0, seed1 with
      | some x, _ => s.identify x
      | none, some x => s.identify x
      | none, none => (s.modSec fun x => { x with stage := .haltId }).hubFault 0x0701 0)

/-- A flash command that runs is cut off: its block is not programmed whole (R500). -/
def State.cutFlash (s : State) : State :=
  match s.sec.ops with
  | .program o _ :: _ => s.modSec fun x => { x with ops := [], torn := markPut x.torn o }
  | _ => s.modSec fun x => { x with ops := [] }

/-- STANDBY_POWER_DOWN: the input falls through 30 V (R494). -/
def execStandbyPowerDown (s : State) : Host.Outcome State Fault Refusal :=
  .next (if s.board.standby then s.cutFlash.cold false else s)

/-! ## MOD_RESET_N (R500) -/

/-- MOD_RESET_ASSERT: the converters go off; 0x0641 when a core is attached. -/
def execModResetAssert (s : State) : Host.Outcome State Fault Refusal :=
  .next (if !s.board.standby || s.board.low then s
    else
      let job := s.anyAttached
      let s := (if job then s.powerFault 0x0641 0 0 else s).cutFlash.mainOff
      s.modBoard fun b => { b with low := true, mgmtOut := [], driven := none
                                   cause := if s.power.tripped ≠ 0 then b.cause else if job then 2 else 1 })

/-- MOD_RESET_RELEASE: every register takes its reset value but for what R500 keeps; the straps are sampled; the boot goes on
at step 3. -/
def execModResetRelease (slot : BitVec 3) (bench : BitVec 13) (smbus : Bool) (s : State) : Host.Outcome State Fault Refusal :=
  .next (if !s.board.low then s
    else
      let s := s.mainOff
      let s : State := { s with
        route := { self := slot ++ bench }
        power := { excursion := s.power.excursion, coresFrom := s.now }
        clk := { s.clk with force := 0, thermal := 0, power := 0, droop := 0, hot := false }
        tel := { energy := s.tel.energy, pin := s.tel.pin, vin := s.tel.vin, inlet := s.tel.inlet, outlet := s.tel.outlet
                 temps := s.tel.temps }
        host := { eth := ethWithMac s.sec.macBase }
        board := { cause := s.board.cause, resets := s.board.resets + 1, slotStrap := slot, smbus := smbus, scan := s.board.scan
                   ir := s.board.ir, jtagOut := s.board.jtagOut } }
      let s := s.modSec fun x => { x with slot := 0, svn := 0, image := List.replicate 64 0, owned := false, win := []
                                          flashOff := 0, epochLatch := 0, debug := false, ops := [], tried := [] }
      if s.sec.stage = .haltId then s else s.enterRomFw)

/-! ## Sessions closed by a new owner record -/

/-- A session closes. -/
def State.closeSession (s : State) (n : Nat) : State := s.modHost fun h => { h with sessions := keyDel h.sessions n }

/-- Whether a requester may do what a proved session may (R492, R497). -/
def State.proved (s : State) : Who → Bool
  | .session n => (match keyGet s.host.sessions n with
    | some x => x.proved
    | none => false)
  | .mgmt => true
  | .jtag => false

/-! ## Flash commands (R482, R486, R490) -/

/-- A refused flash command. -/
def State.flashRefuse (s : State) (code : Nat) : WriteRes × State := (.refused code, s.hubFault code 0)

/-- FLOOR_COMMIT as it runs: the floor becomes the SVN of the running image. -/
def State.runFloor (s : State) : WriteRes × State :=
  if s.sec.svn.toNat < s.sec.floor.toNat then s.flashRefuse 0x0706
  else
    let r : FloorRec := { seq := (match s.sec.floorRec with
        | some r => r.seq
        | none => 0) + 1, svn := s.sec.svn, sign := [] }
    (.done, s.modSec fun x => { x with floorRec := some { r with sign := edSign x.priv x.pub (r.body s.moduleId) }, floor := r.svn })

/-- Bytes of an owner record (R484). -/
def useByte (body : List Byte) (i : Nat) : Nat := numAt body (136 + i) 1

/-- Whether an offered owner record is accepted (R486). `free`: it came through the management interface. -/
def State.ownerAccepted (s : State) (body : List Byte) (free : Bool) : Bool :=
  let signer := numAt body 140 1
  let epoch := numAt body 0 8
  ((List.range 4).any fun i => bit (useByte body i) 7 && bit (useByte body i) 2)
    && (match if s.sec.owned then s.sec.ownerRec else none with
      | none => signer == 0xFF && decide (1 ≤ epoch) && free
      | some r => (match s.ownerKey signer 2 with
        | none => false
        | some key => decide (numAt r.body 0 8 < epoch)
          && edVerify key (natToBytes s.moduleId.toNat 8 ++ body.take 144) (body.drop 144)))

/-- OWNER_COMMIT as it runs: an accepted record takes effect at once. -/
def State.runOwner (s : State) (body : List Byte) (free : Bool) : WriteRes × State :=
  if !s.ownerAccepted body free then s.flashRefuse 0x0707
  else
    let r : OwnerRec := { seq := (match s.sec.ownerRec with
        | some r => r.seq
        | none => 0) + 1, body := body, sign := [] }
    let s := s.modSec fun x => { x with ownerRec := some { r with sign := edSign x.priv x.pub (r.message s.moduleId) }
                                        owned := true, debug := false }
    let out := s.host.sessions.filter fun x => x.2.proved && (s.ownerKey x.2.key 0).isNone
    (.done, out.foldl (fun (s : State) x => s.closeSession x.1) s)

/-- Run the commands at the front that complete at once; a PROGRAM takes until PROGRAM_COMPLETE. -/
def State.runFlash (s : State) : Nat → State
  | 0 => s
  | n + 1 =>
    match s.sec.ops with
    | .floor :: r => ((s.modSec fun x => { x with ops := r }).runFloor.2).runFlash n
    | .owner b f :: r => ((s.modSec fun x => { x with ops := r }).runOwner b f).2.runFlash n
    | _ => s

/-- SEC_STATUS.BUSY. -/
def State.flashBusy (s : State) : Bool := !s.sec.ops.isEmpty

/-- A command that arrives while BUSY waits. -/
def State.waitFlash (s : State) (o : FlashOp) : WriteRes × State := (.done, s.modSec fun x => { x with ops := x.ops ++ [o] })

/-- Whether a flash offset lies in a firmware slot that may be programmed. -/
def State.mayProgram (s : State) (o : Nat) : Bool :=
  let run := s.sec.stage == .fwStart || s.sec.stage == .ready
  o % 65536 == 0 && ((decide (slotBase 0 ≤ o) && decide (o < slotBase 1) && !(run && s.sec.slot == 0))
    || (decide (slotBase 1 ≤ o) && decide (o < slotBase 2) && !(run && s.sec.slot == 1)))

/-- SEC_CTRL.PROGRAM (R490). -/
def State.askProgram (s : State) (w : Who) : WriteRes × State :=
  let o := s.sec.flashOff.toNat
  if s.sec.stage = .haltId then (.done, s)
  else if !s.proved w || !s.mayProgram o then s.flashRefuse 0x0706
  else s.waitFlash (.program o s.sec.win)

/-- SEC_CTRL.FLOOR_COMMIT: by a proved session only (R482). -/
def State.askFloor (s : State) (w : Who) : WriteRes × State :=
  if s.sec.stage ≠ .ready || !s.proved w || (match w with
    | .session _ => false
    | _ => true) then s.flashRefuse 0x0706
  else if s.flashBusy then s.waitFlash .floor
  else s.runFloor

/-- SEC_CTRL.OWNER_COMMIT (R486). -/
def State.askOwner (s : State) (w : Who) : WriteRes × State :=
  let body := cellRead s.sec.win 0 208
  if s.sec.stage ≠ .ready then s.flashRefuse 0x0707
  else if s.flashBusy then s.waitFlash (.owner body (w == .mgmt))
  else s.runOwner body (w == .mgmt)

/-- A write of SEC_CTRL. -/
def State.writeSecCtrl (s : State) (w : Who) (v : Word32) : WriteRes × State :=
  ctlStep v 2 (fun s => s.askOwner w) (ctlStep v 1 (fun s => s.askFloor w) (ctlStep v 0 (fun s => s.askProgram w) (.done, s)))

/-- PROGRAM by a requester. -/
def execProgram (w : Who) (s : State) : Host.Outcome State Fault Refusal := .next (s.askProgram w).2

/-- FLOOR_COMMIT by a requester. -/
def execFloorCommit (w : Who) (s : State) : Host.Outcome State Fault Refusal := .next (s.askFloor w).2

/-- OWNER_COMMIT by a requester. -/
def execOwnerCommit (w : Who) (s : State) : Host.Outcome State Fault Refusal := .next (s.askOwner w).2

/-- The bytes of a flash block become those of the window. -/
def programBlock (flash win : List Host.Cell) (o : Nat) : List Host.Cell :=
  let low := flash.filter fun c => c.1 < o
  let high := flash.filter fun c => o + 65536 ≤ c.1
  low ++ (win.map fun c => (o + c.1, c.2)) ++ high

/-- PROGRAM_COMPLETE: the running PROGRAM is done, and the next commands run (R490). -/
def execProgramComplete (s : State) : Host.Outcome State Fault Refusal :=
  .next (match s.sec.ops with
    | .program o win :: r =>
      (s.modSec fun x => { x with ops := r, flash := programBlock x.flash win o, torn := x.torn.filter (· != o) }).runFlash r.length
    | _ => s)

/-! ## Registers of the Identity block (R4, R24, R236, R501) -/

/-- The stepping and the grade of ID_PART (R4). -/
def State.idPart (s : State) : Nat := pack [(4, if s.stepB then 0 else 1), (4, flag s.stepB), (8, s.grade), (16, 0x4768)]

def State.idContracts (s : State) : Nat := pack [(8, 1), (8, s.lcNative), (8, s.lcSupported)]

/-- Ports that are down (R24). -/
def State.portsDown (s : State) : Nat := (s.ports.filter fun p => bit p.cfg.toNat 0 && p.isDown).length

def State.idReg (s : State) (o : Nat) : Option Nat :=
  let m := s.mesh
  if o = 0x00 then some s.idPart
  else if o = 0x04 then some s.idContracts
  else if o = 0x08 then
    some (pack [(10, s.board.coresFailed.length), (5, s.portsDown), (1, 0), (1, flag m.ok), (1, flag s.placeable)])
  else if o = 0x10 then some (pack [(1, flag m.aligned), (4, m.bridgeOk.toNat), (10, m.stopsFailed.toNat)])
  else if o = 0x14 then some m.ceCount.toNat
  else if o = 0x18 then some (pack [(16, m.uePayload.toNat), (16, m.ueHeader.toNat)])
  else if o = 0x20 then some (pack [(3, s.board.cause), (13, 0), (16, s.board.resets.toNat)])
  else none

/-! ## Registers of the Security block (R492, R499) -/

def Stage.num : Stage → Nat
  | .romId => 0
  | .romFw => 1
  | .fwStart => 2
  | .ready => 3
  | .haltId => 4
  | .haltFw => 5

/-- EPOCH of the record in force. -/
def State.epoch (s : State) : Nat :=
  match if s.sec.owned then s.sec.ownerRec else none with
  | some r => numAt r.body 0 8
  | none => 0

def State.secReg (s : State) (o : Nat) : Option Nat :=
  let x := s.sec
  if o = 0x00 then some (pack [(3, x.stage.num), (1, flag x.owned), (1, flag s.flashBusy), (1, x.slot)])
  else if o = 0x04 then some (lo32 s.moduleId).toNat
  else if o = 0x08 then some (hi32 s.moduleId).toNat
  else if o = 0x0C then some (pack [(16, x.svn.toNat), (16, x.floor.toNat)])
  else if o = 0x10 then some 0
  else if o = 0x14 then some x.flashOff.toNat
  else if o = 0x18 then some (s.epoch % 2 ^ 32)
  else if o = 0x1C then some x.epochLatch.toNat
  else if o = 0x20 then some (flag x.debug)
  else if 0x10000 ≤ o ∧ o < 0x20000 then some (leNat (cellRead x.win (o - 0x10000) 4))
  else none

def State.secLatch (s : State) (o : Nat) : State :=
  if o = 0x18 then s.modSec fun x => { x with epochLatch := w32 (s.epoch / 2 ^ 32) } else s

/-- A write of the Security block: SEC_WIN and SEC_DEBUG take writes of a proved session or the management interface only. -/
def State.writeSec (s : State) (w : Who) (o : Nat) (v : Word32) : WriteRes × State :=
  if o = 0x10 then s.writeSecCtrl w v
  else if o = 0x14 then (.done, s.modSec fun x => { x with flashOff := v.setWidth 27 })
  else if o = 0x20 then (.done, if s.proved w then s.modSec fun x => { x with debug := bit v.toNat 0 } else s)
  else if 0x10000 ≤ o ∧ o < 0x20000 then
    (.done, if s.proved w then s.modSec fun x => { x with win := cellWrite x.win (o - 0x10000) (natToBytes v.toNat 4) } else s)
  else (if (s.secReg o).isSome then .done else .unmapped, s)

end Sys2Proof.Machine
end

