-- ==== Sys2Proof/Machine/Regs.lean ====
section
/-! DEFINITION. The control space: one read and one write of a word at any address, and the writes and reads that have rows of
their own (R11, R22, R23). -/

namespace Sys2Proof.Machine

/-! ## Fault log block (R414, R432) -/

/-- Word w of the entries: the bytes of a slot that was written. -/
def FaultLog.word (f : FaultLog) (w : Nat) : Nat :=
  match keyGet f.entries (w / 8) with
  | some e => leNat ((e.image.drop (4 * (w % 8))).take 4)
  | none => 0

def FaultLog.reg (f : FaultLog) (o : Nat) : Option Nat :=
  if o = 0x00 then some f.head.toNat
  else if o = 0x04 then some f.tail.toNat
  else if o = 0x08 then some f.lost.toNat
  else if o = 0x0C then some (pack [(4, f.rerunMax), (12, 0), (9, f.notify)])
  else if o = 0x10 then some f.attempt.toNat
  else if o = 0x18 then some (lo32 f.total).toNat
  else if o = 0x1C then some f.totalLatch.toNat
  else if 0x10000 ≤ o ∧ o < 0x30000 then some (f.word ((o - 0x10000) / 4))
  else none

def FaultLog.latch (f : FaultLog) (o : Nat) : FaultLog := if o = 0x18 then { f with totalLatch := hi32 f.total } else f

/-- FAULT_CTRL.CLEAR: head, tail, lost count and every entry. -/
def FaultLog.clear (f : FaultLog) : FaultLog := { f with head := 0, tail := 0, lost := 0, entries := [] }

/-- A write of FAULT_LOG_TAIL: not backward, not past HEAD. -/
def FaultLog.consume (f : FaultLog) (v : Word32) : FaultLog :=
  if (f.head - v).toNat ≤ (f.head - f.tail).toNat then { f with tail := v } else f

def State.modFaults (s : State) (f : FaultLog → FaultLog) : State := { s with faults := f s.faults }

def State.writeFaults (s : State) (o : Nat) (v : Word32) : WriteRes × State :=
  if o = 0x04 then (.done, s.modFaults fun f => f.consume v)
  else if o = 0x0C then
    let s := s.modFaults fun f => { f with rerunMax := bits v.toNat 3 0, notify := bits v.toNat 24 16 }
    (.done, if bit v.toNat 4 then s.modFaults FaultLog.clear else s)
  else (if (s.faults.reg o).isSome then .done else .unmapped, s)

/-! ## Pass and determinism block (R217, R387, R413) -/

def State.passReg (s : State) (o : Nat) : Option Nat :=
  if o = 0x00 then some (flag s.strict)
  else if o = 0x04 then some s.detProfile
  else if o = 0x40 then some (pack [(8, s.lc), (1, flag (s.lc != s.lcNative))])
  else if o = 0x80 then some s.twin.cfg.toNat
  else if o = 0x84 then some s.twin.status.toNat
  else none

/-- A write of LATENCY_CONTRACT (R217). -/
def State.writeContract (s : State) (v : Word32) : WriteRes × State :=
  let n := bits v.toNat 7 0
  if !bit s.lcSupported n || (n != s.lc && s.anyAttached) then (.refused 0x0109, s.hubFault 0x0109 v.toNat)
  else (.done, { s with lc := n })

/-- A write of PASS_CTRL (R387). -/
def State.writePassCtrl (s : State) (v : Word32) : WriteRes × State :=
  if s.bar.phase ≠ .detached then s.detRefuse else (.done, { s with strict := bit v.toNat 0 })

def State.writePass (s : State) (o : Nat) (v : Word32) : WriteRes × State :=
  if o = 0x00 then s.writePassCtrl v
  else if o = 0x40 then s.writeContract v
  else if o = 0x80 then s.writeTwin v
  else (if (s.passReg o).isSome then .done else .unmapped, s)

/-! ## Link ports block (R269, R291) -/

/-- The port, the bank and the byte offset of a calendar address. -/
def calAt (o : Nat) : Option (Nat × Nat × Nat) :=
  if 0xC000 ≤ o ∧ o < 0xF000 then some ((o - 0xC000) / 0x200, o / 0x100 % 2, o % 0x100) else none

/-- A routing register, at an offset of the Link ports block. -/
def State.routeReg (s : State) (o : Nat) : Option Nat :=
  let r := s.route
  if o = 0x8000 then some r.cfg.toNat
  else if o = 0x8004 then some r.self.toNat
  else if o = 0x8008 then some r.discard.toNat
  else if o = 0x800C then some r.arb.toNat
  else if 0x8010 ≤ o ∧ o < 0x8028 then some (r.dir.getD ((o - 0x8010) / 4) 0).toNat
  else if 0x8030 ≤ o ∧ o < 0x8050 then some (r.slot.getD ((o - 0x8030) / 4) 0).toNat
  else if o = 0x8050 then some (pack [(1, flag r.calActive), (1, flag r.calNext)])
  else if 0x10000 ≤ o ∧ o < 0x14000 then some (wordOf r.rank ((o - 0x10000) / 4)).toNat
  else match calAt o with
  | some (p, b, i) => some (leNat (cellRead (if b = 0 then (s.port p).cal0 else (s.port p).cal1) i 4))
  | none => none

/-- Whether a routing register may be written at any time: PORT_ARB, CAL_SEL, a calendar bank that is not in force. -/
def State.routeFree (s : State) (o : Nat) : Bool :=
  o == 0x800C || o == 0x8050 || (match calAt o with
    | some (_, b, _) => decide ((b = 1) ≠ s.route.calActive)
    | none => false)

/-- The RW bits of a routing register. -/
def State.putRoute (s : State) (o : Nat) (v : Word32) : State :=
  let set := fun f => ({ s with route := f s.route } : State)
  if o = 0x8000 then set fun r => { r with cfg := v &&& 0x1FFFF }
  else if o = 0x800C then set fun r => { r with arb := v &&& 0xF }
  else if 0x8010 ≤ o ∧ o < 0x8028 then set fun r => { r with dir := r.dir.set ((o - 0x8010) / 4) (v &&& 0x8000001F) }
  else if 0x8030 ≤ o ∧ o < 0x8050 then set fun r => { r with slot := r.slot.set ((o - 0x8030) / 4) (v &&& 0x8000001F) }
  else if o = 0x8050 then set fun r => { r with calNext := bit v.toNat 1 }
  else if 0x10000 ≤ o ∧ o < 0x14000 then set fun r => { r with rank := putWord r.rank ((o - 0x10000) / 4) (v &&& 0x83FFFFFF) }
  else match calAt o with
  | some (p, b, i) =>
    let bs := natToBytes (v &&& 0x9F9F9F9F#32).toNat 4
    s.modPort p fun x => if b = 0 then { x with cal0 := cellWrite x.cal0 i bs } else { x with cal1 := cellWrite x.cal1 i bs }
  | none => s

/-- A write of a routing register (R291, R292). -/
def State.writeRoute (s : State) (o : Nat) (v : Word32) : WriteRes × State :=
  if o = 0x8004 ∨ o = 0x8008 then (.done, s)
  else if s.anyAttached && s.bar.phase != .held && !s.routeFree o then (.refused 0x0444, s.hubFault 0x0444 0)
  else (.done, s.putRoute o v)

/-- The Link ports block. -/
def State.linkReg (s : State) (o : Nat) : Option Nat :=
  if o < 0x6000 then (s.port (o / 0x400)).reg (o % 0x400) else s.routeReg o

def State.linkLatch (s : State) (o : Nat) : State :=
  if o < 0x6000 then s.modPort (o / 0x400) fun x => x.latch (o % 0x400) else s

def State.writeLinks (s : State) (o : Nat) (v : Word32) : WriteRes × State :=
  if o < 0x6000 then s.writeLink (o / 0x400) (o % 0x400) v
  else if (s.routeReg o).isSome then s.writeRoute o v else (.unmapped, s)

/-! ## Core blocks (R11, R465, R466) -/

/-- The core and the offset of an address in a core block. -/
def coreAt (a : Nat) : Option (Nat × Nat) :=
  if 0x10000000 ≤ a ∧ a < 0x1C000000 then some ((a - 0x10000000) / 0x40000, a % 0x40000) else none

/-- Whether the block of core k answers: its group is ON or in RETAIN. -/
def State.answers (s : State) (k : Nat) : Bool :=
  s.power.mainOn && (s.group (groupOf k) == .on || s.group (groupOf k) == .retain)

/-- A host read of core block k; it wakes the core, unless nothing stands at the offset (R23, R465). -/
def State.hostRead (s : State) (k o : Nat) : Option Word32 × State :=
  if s.answers k && s.coreMapped k o then (s.wakeCore k).coreRead k o else (none, s)

/-- The words that SX may write as well: a host write in the present cycle is remembered (R198). -/
def State.noteHost (s : State) (k o : Nat) : State :=
  if o = 0x3000 ∨ (0x1800 ≤ o ∧ o ≤ 0x1C00) then
    s.modCore k fun c => c.modCtl fun r =>
      { r with hostCycle := s.now, hostWords := markPut (if r.hostCycle = s.now then r.hostWords else []) o }
  else s

/-- A host write of core block k; it wakes the core, unless nothing stands at the offset (R23, R465). -/
def State.hostWrite (s : State) (k o : Nat) (v : Word32) : WriteRes × State :=
  if s.answers k && s.coreMapped k o then
    let r := (s.wakeCore k).coreWrite k o v
    (r.1, r.2.noteHost k o)
  else (.unmapped, s)

/-! ## The control space (R22, R23) -/

/-- The value of a register outside the core blocks. -/
def State.blockReg (s : State) (b o : Nat) : Option Nat :=
  if b = 0 then s.idReg o
  else if b = 1 then s.passReg o
  else if b = 2 then s.clkReg o
  else if b = 3 then s.powerReg o
  else if b = 4 then s.faults.reg o
  else if b = 5 then s.secReg o
  else if b = 6 then s.linkReg o
  else if b = 7 then s.ethReg o
  else if b = 8 then s.jrnlReg o
  else if b = 9 then s.bar.reg o
  else if b = 10 then s.fin.reg o
  else if b = 11 then s.tel.reg o
  else none

/-- What a read of a _LO register latches. -/
def State.blockLatch (s : State) (b o : Nat) : State :=
  if b = 2 then s.clkLatch o
  else if b = 4 then s.modFaults fun f => f.latch o
  else if b = 5 then s.secLatch o
  else if b = 6 then s.linkLatch o
  else if b = 8 then s.jrnlLatch o
  else if b = 9 then s.modBar fun x => x.latch o
  else if b = 11 then s.modTel fun t => t.latchAt o
  else s

/-- Read the word at address a, a multiple of 4: none when unmapped. -/
def State.regRead (s : State) (a : Nat) : Option Word32 × State :=
  match coreAt a with
  | some (k, o) => s.hostRead k o
  | none => ((s.blockReg (a / 0x100000) (a % 0x100000)).map w32, s.blockLatch (a / 0x100000) (a % 0x100000))

/-- Write the word at address a, a multiple of 4, for a requester. -/
def State.regWrite (s : State) (w : Who) (a : Nat) (v : Word32) : WriteRes × State :=
  let b := a / 0x100000
  let o := a % 0x100000
  match coreAt a with
  | some (k, o) => s.hostWrite k o v
  | none =>
    if b = 0 then (if (s.idReg o).isSome then .done else .unmapped, s)
    else if b = 1 then s.writePass o v
    else if b = 2 then s.writeClk o v
    else if b = 3 then s.writePower o v
    else if b = 4 then s.writeFaults o v
    else if b = 5 then s.writeSec w o v
    else if b = 6 then s.writeLinks o v
    else if b = 7 then s.writeEth o v
    else if b = 8 then s.writeJrnl o v
    else if b = 9 then s.writeBar o v
    else if b = 10 then s.writeFin o v
    else if b = 11 then s.writeTel o v
    else (.unmapped, s)

/-! ## Rows of single writes and reads -/

/-- CLR_CE: MEM_CTRL.CLR_CE of core k is written 1 (R58). -/
def execClrCe (k : Nat) (s : State) : Host.Outcome State Fault Refusal := .next (if k < 768 then (s.hostWrite k 0x1000 1).2 else s)

/-- CLEAR: FAULT_CTRL.CLEAR is written 1 (R432). -/
def execClear (s : State) : Host.Outcome State Fault Refusal := .next (s.modFaults FaultLog.clear)

/-- FAULT_LOG_TAIL_WRITE. -/
def execFaultLogTailWrite (v : Word32) (s : State) : Host.Outcome State Fault Refusal := .next (s.writeFaults 0x04 v).2

/-- LATENCY_CONTRACT_WRITE. -/
def execLatencyContractWrite (v : Word32) (s : State) : Host.Outcome State Fault Refusal := .next (s.writeContract v).2

/-- PASS_CTRL_WRITE. -/
def execPassCtrlWrite (v : Word32) (s : State) : Host.Outcome State Fault Refusal := .next (s.writePassCtrl v).2

/-- TWIN_CFG_WRITE. -/
def execTwinCfgWrite (v : Word32) (s : State) : Host.Outcome State Fault Refusal := .next (s.writeTwin v).2

/-- A host write of a register of a core block whose offset meets p. -/
def State.coreRow (s : State) (p : Nat → Bool) (a : Nat) (v : Word32) : State :=
  match coreAt a with
  | some (k, o) => if p o && decide (a % 4 = 0) then (s.hostWrite k o v).2 else s
  | none => s

/-- The offsets of the rows of the core blocks. -/
def isLcDecl (o : Nat) : Bool := o == 0x3030 || o == 0x3034
def isWindow (o : Nat) : Bool :=
  (decide (0x10000 ≤ o) && decide (o < 0x20000)) || (decide (0x3200 ≤ o) && decide (o < 0x32C0))
    || (decide (0x3300 ≤ o) && decide (o < 0x33C0))
def isBin (o : Nat) : Bool := decide (0x1100 ≤ o) && decide (o < 0x1300)
def isRegion (o : Nat) : Bool := decide (0x1400 ≤ o) && decide (o < 0x1800)
def isAperture (o : Nat) : Bool := decide (0x20000 ≤ o) && decide (o < 0x40000)
def isVmap (o : Nat) : Bool := o == 0x3040
def isPatch (o : Nat) : Bool := decide (0x6000 ≤ o) && decide (o < 0x7080)

/-- LC_DECL_WRITE (R155, R218). -/
def execLcDeclWrite (a : Nat) (v : Word32) (s : State) : Host.Outcome State Fault Refusal := .next (s.coreRow isLcDecl a v)

/-- INSTRUCTION_WINDOW_WRITE: the instruction window or SYNC_INIT (R155). -/
def execInstructionWindowWrite (a : Nat) (v : Word32) (s : State) : Host.Outcome State Fault Refusal :=
  .next (s.coreRow isWindow a v)

/-- BIN_DESC_WRITE (R60). -/
def execBinDescWrite (a : Nat) (v : Word32) (s : State) : Host.Outcome State Fault Refusal := .next (s.coreRow isBin a v)

/-- REGION_DESC_WRITE (R72). -/
def execRegionDescWrite (a : Nat) (v : Word32) (s : State) : Host.Outcome State Fault Refusal := .next (s.coreRow isRegion a v)

/-- APERTURE_WRITE (R79). -/
def execApertureWrite (a : Nat) (v : Word32) (s : State) : Host.Outcome State Fault Refusal := .next (s.coreRow isAperture a v)

/-- APERTURE_READ (R79). -/
def execApertureRead (a : Nat) (s : State) : Host.Outcome State Fault Refusal :=
  .next (match coreAt a with
    | some (k, o) => if isAperture o ∧ a % 4 = 0 then (s.hostRead k o).2 else s
    | none => s)

/-- GRID_VMAP_WRITE (R238). -/
def execGridVmapWrite (a : Nat) (v : Word32) (s : State) : Host.Outcome State Fault Refusal := .next (s.coreRow isVmap a v)

/-- PATCH_WRITE (R360). -/
def execPatchWrite (a : Nat) (v : Word32) (s : State) : Host.Outcome State Fault Refusal := .next (s.coreRow isPatch a v)

/-- A host write at an offset of block b that meets p. -/
def State.blockRow (s : State) (b : Nat) (p : Nat → Bool) (a : Nat) (v : Word32) : State :=
  if a / 0x100000 = b ∧ b < 12 ∧ p (a % 0x100000) ∧ a % 4 = 0 then (s.regWrite .mgmt a v).2 else s

/-- ROUTING_REGISTER_WRITE (R291). -/
def execRoutingRegisterWrite (a : Nat) (v : Word32) (s : State) : Host.Outcome State Fault Refusal :=
  .next (s.blockRow 6 (fun o => (s.routeReg o).isSome) a v)

/-- LINK_EXPECT_WRITE: LINK_EXPECT or LINK_EXPECT_ID (R259). -/
def execLinkExpectWrite (a : Nat) (v : Word32) (s : State) : Host.Outcome State Fault Refusal :=
  .next (s.blockRow 6 (fun o => decide (o < 0x6000) && [0x08, 0x0C, 0x10].contains (o % 0x400)) a v)

/-- LINK_CFG_WRITE (R264). -/
def execLinkCfgWrite (a : Nat) (v : Word32) (s : State) : Host.Outcome State Fault Refusal :=
  .next (s.blockRow 6 (fun o => decide (o < 0x6000) && o % 0x400 == 0) a v)

/-- The Finfin registers that may be written only at some times (R385). -/
def isFinRow (o : Nat) : Bool :=
  o == 0x10 || o == 0x1C || (decide (0x20 ≤ o) && decide (o < 0x30)) || (decide (0x1000 ≤ o) && decide (o < 0x2000))

/-- FINFIN_REGISTER_WRITE (R385). -/
def execFinfinRegisterWrite (a : Nat) (v : Word32) (s : State) : Host.Outcome State Fault Refusal :=
  .next (s.blockRow 10 isFinRow a v)

/-- Whether address a is a _LO register whose read latches its _HI. -/
def isLatching (a : Nat) : Bool :=
  match coreAt a with
  | some (_, o) => latching o
  | none =>
    let b := a / 0x100000
    let o := a % 0x100000
    (b == 2 && o == 0x10) || (b == 4 && o == 0x18) || (b == 5 && o == 0x18)
      || (b == 6 && decide (o < 0x6000) && (o % 0x400 == 0x40 || o % 0x400 == 0x48))
      || (b == 8 && (o == 0x10 || o == 0x18)) || (b == 9 && (o == 0 || o == 0x28 || o == 0x30))
      || (b == 11 && (match energyAt o with
        | some (_, false) => true
        | _ => false))

/-- LATCHING_READ (R104). -/
def execLatchingRead (a : Nat) (s : State) : Host.Outcome State Fault Refusal :=
  .next (if isLatching a then (s.regRead a).2 else s)

/-! ## Requesters (R437, R497 to R499) -/

/-- Whether the block of an address may be read before a session has proved a key: Identity and Security. -/
def openBlock (a : Nat) : Bool := decide (a < 0x100000) || (decide (0x500000 ≤ a) && decide (a < 0x600000))

/-- Whether a requester is served a word at an address (R437, R498, R499). -/
def State.permits (s : State) (w : Who) (write : Bool) (a : Nat) : Bool :=
  let rom := decide (a < 0x100000) || (decide (0x400000 ≤ a) && decide (a < 0x500000))
  let own := match s.sec.stage with
    | .fwStart => true
    | .ready => true
    | .haltId => rom
    | _ => rom || openBlock a
  match w with
  | .session _ => s.sec.stage == .ready && (s.proved w || (!write && openBlock a))
  | .mgmt => own
  | .jtag => own && s.sec.debug

/-- Whether a write has a row of its own. -/
def hasRow (a : Nat) (v : Word32) : Bool :=
  let b := a / 0x100000
  let o := a % 0x100000
  let n := v.toNat
  match coreAt a with
  | some (_, o) => isLcDecl o || isWindow o || isBin o || isRegion o || isAperture o || isVmap o || isPatch o || (o == 0x1000 && bit n 0)
  | none =>
    (b == 1 && (o == 0 || o == 0x40 || o == 0x80)) || (b == 2 && o == 0) || (b == 3 && decide (0x10 ≤ o) && decide (o < 0x1C))
      || (b == 4 && (o == 0x04 || (o == 0x0C && bit n 4))) || (b == 5 && o == 0x10 && bits n 2 0 != 0)
      || (b == 6 && (decide (0x8000 ≤ o) || [0x00, 0x08, 0x0C, 0x10].contains (o % 0x400) || (o % 0x400 == 0x60 && bit n 0)))
      || (b == 7 && decide (0x2000 ≤ o)) || (b == 8 && o == 0 && (bit n 2 || bits n 5 4 != 0))
      || (b == 9 && (o == 0x08 || (barPhase o).isSome))
      || (b == 10 && (isFinRow o || (o == 0 && bits n 8 6 != 0) || (o == 4 && (bit n 0 || bit n 2 || bit n 6))))

/-- REGISTER_WRITE: a write by a requester of a register without a row of its own (R23). -/
def execRegisterWrite (w : Who) (a : Nat) (v : Word32) (s : State) : Host.Outcome State Fault Refusal :=
  .next (if a % 4 = 0 ∧ a < 2 ^ 32 ∧ !hasRow a v ∧ s.permits w true a then (s.regWrite w a v).2 else s)

end Sys2Proof.Machine
end

