-- ==== Sys2Proof/Machine/Sessions.lean ====
section
/-! DEFINITION. The host transport: sessions, requests and replies (R436 to R442, R445, R487 to R489). -/

namespace Sys2Proof.Machine

/-! ## Datagrams (R434, R436) -/

/-- Whether host-transport datagrams reach the hub by port p: plane A, link up, STAGE READY (R434, R479). -/
def State.hostPort (s : State) (p : Nat) : Bool := decide (p < 4) && s.ethUp p && s.sec.stage == .ready

/-- Bytes of an IP packet with a host-transport body of n bytes. -/
def packetSize (x : Sender) (n : Nat) : Nat := (if x.v6 then 40 else 20) + 8 + 32 + n

def State.putSession (s : State) (n : Nat) (x : Session) : State := s.modHost fun h => { h with sessions := keyPut h.sessions n x }

/-- Messages leave by the port by which the session sends (R442). -/
def State.send (s : State) (ms : List Msg) : State := s.modHost fun h => { h with out := h.out ++ s.tagged ms }

/-- A host-transport datagram that is not served: on plane B it is discarded and counted (R434). -/
def State.unheard (s : State) (p : Nat) : State := if !planeA p && s.ethUp p then s.ethDrop p else s

/-- The port for a reply to a session. -/
def State.replyPort (s : State) (x : Session) (src : Sender) : Nat := (s.sendPort x).getD src.port

/-- A request of a session (R436, R439, R488): the next SEQ is executed and its replies are cached; one of the 64 before it is
answered again; a request from a source to which a proved session is not bound is discarded and counted. `lost`: another
SEQ is counted as well (R436). `f` executes the request: its status and the bodies of its replies. -/
def State.request (s : State) (src : Sender) (n : Nat) (seq : Word32) (type : Nat) (lost : Bool)
    (f : Session → State → (Nat × List (List Byte)) × State) : State :=
  if !s.hostPort src.port then s.unheard src.port
  else match keyGet s.host.sessions n with
  | none => s.ethDrop src.port
  | some x =>
    if x.proved && (x.ip != src.ip.toNat || x.udp != src.udp.toNat) then s.ethDrop src.port
    else if seq = x.nseq then
      let r := f x s
      let ms := r.1.2.map fun b =>
        ({ port := r.2.replyPort x src, session := n, type := type % 128 + 128, status := r.1.1, seq := seq, body := b } : Msg)
      let s := r.2.send ms
      match keyGet s.host.sessions n with
      | none => s
      | some y => s.putSession n { y with nseq := y.nseq + 1, cache := ((seq, ms) :: y.cache).take 64 }
    else match x.cache.find? fun c => c.1 == seq with
    | some (_, ms) => s.send (ms.map fun m => { m with port := s.replyPort x src })
    | none => if lost then s.ethDrop src.port else s

/-- A reply without a body. -/
def bare (st : Nat) (s : State) : (Nat × List (List Byte)) × State := ((st, [[]]), s)

/-! ## RD and WR (R437, R440, R441) -/

/-- Words accessed one after the other: the values, and whether one was unmapped. A word beyond the address space is
unmapped. -/
def State.readBurst (s : State) (a : Nat) : Nat → (List Word32 × Bool) × State
  | 0 => (([], false), s)
  | n + 1 =>
    let r := if a < 2 ^ 32 then s.regRead a else (none, s)
    let t := r.2.readBurst (a + 4) n
    ((r.1.getD 0 :: t.1.1, r.1.isNone || t.1.2), t.2)

/-- What a WR counts: words refused, words unmapped, the index and the code of the first refused. -/
structure Wrote where
  refused : Nat := 0
  unmapped : Nat := 0
  first : Nat := 0xFFFF
  code : Nat := 0
deriving DecidableEq, Repr

def Wrote.note (x : Wrote) (i : Nat) : WriteRes → Wrote
  | .done => x
  | .unmapped => { x with unmapped := x.unmapped + 1 }
  | .refused c => if x.refused = 0 then { x with refused := 1, first := i, code := c } else { x with refused := x.refused + 1 }

/-- The words of a write, in ascending address order. -/
def State.writeBurst (s : State) (w : Who) (a i : Nat) (x : Wrote) : List Word32 → Wrote × State
  | [] => (x, s)
  | v :: r =>
    let t := if a < 2 ^ 32 then s.regWrite w a v else (.unmapped, s)
    t.2.writeBurst w (a + 4) (i + 1) (x.note i t.1) r

/-- Whether a burst is served to a requester. -/
def State.permitsBurst (s : State) (w : Who) (write : Bool) (a n : Nat) : Bool :=
  (List.range n).all fun i => s.permits w write (a + 4 * i)

/-- The bodies of an RD reply, m words to a datagram (R441). -/
def readBodies (m first : Nat) (ws : List Word32) : Nat → List (List Byte)
  | 0 => []
  | fuel + 1 =>
    if ws.isEmpty then []
    else
      let c := ws.take m
      (natToBytes first 2 ++ natToBytes c.length 2 ++ natToBytes 0 4 ++ c.flatMap fun w => natToBytes w.toNat 4)
        :: readBodies m (first + c.length) (ws.drop m) fuel

/-- Whether an Address and COUNT break the layout of RD and WR (R437). -/
def burstBad (a n : Nat) : Bool := a % 4 != 0 || n == 0 || decide (2048 < n)

/-- RD. -/
def execRd (src : Sender) (n : Nat) (seq : Word32) (addr : Word32) (count : Nat) (s : State) : Host.Outcome State Fault Refusal :=
  .next (s.request src n seq 0x10 (burstBad addr.toNat count) fun x s =>
    let a := addr.toNat
    if burstBad a count then bare stMalformed s
    else if !s.permitsBurst (.session n) false a count then bare stDenied s
    else
      let r := s.readBurst a count
      let m := (s.mtuOf (s.replyPort x src) - x.overhead - 40) / 4
      ((if r.1.2 then stUnmapped else stOk, readBodies m 0 r.1.1 count), r.2))

/-- WR. A datagram larger than the MTU never reaches the hub. -/
def execWr (src : Sender) (n : Nat) (seq : Word32) (addr : Word32) (words : List (BitVec 32)) (s : State) :
    Host.Outcome State Fault Refusal :=
  .next (if s.mtuOf src.port < packetSize src (8 + 4 * words.length) then s
    else s.request src n seq 0x11 (burstBad addr.toNat words.length) fun _ s =>
      let a := addr.toNat
      if burstBad a words.length then bare stMalformed s
      else if !s.permitsBurst (.session n) true a words.length then bare stDenied s
      else
        let r := s.writeBurst (.session n) a 0 {} words
        let x := r.1
        ((if x.refused ≠ 0 then stRefused else if x.unmapped ≠ 0 then stUnmapped else stOk,
          [natToBytes x.refused 2 ++ natToBytes x.unmapped 2 ++ natToBytes x.first 2 ++ natToBytes x.code 2]), r.2))

/-! ## TICKET and OACK (R437, R445) -/

/-- Whether the body of a TICKET breaks its layout (R437, R445). -/
def ticketBad (tkt lines : Nat) (data : List Byte) : Bool :=
  lines == 0 || decide (35 < lines) || data.length != 256 * lines || decide (256 ≤ tkt)

/-- TICKET. -/
def execTicket (src : Sender) (n : Nat) (seq : Word32) (pass : Word64) (tkt lines line : Nat) (tag : Word64)
    (data : List (BitVec 8)) (s : State) : Host.Outcome State Fault Refusal :=
  .next (if s.mtuOf src.port < packetSize src (32 + data.length) then s
    else s.request src n seq 0x20 (ticketBad tkt lines data) fun x s =>
      if ticketBad tkt lines data then bare stMalformed s
      else if !x.proved then bare stDenied s
      else
        let r := s.takeTicket pass tkt lines line tag data
        ((r.1, [natToBytes r.2.1.toNat 8]), r.2.2))

/-- OACK acts on arrival, outside the order of SEQ; an unproved session may not send it. -/
def execOack (src : Sender) (n : Nat) (pass : Word64) (id acked : Nat) (s : State) : Host.Outcome State Fault Refusal :=
  .next (if !s.hostPort src.port then s.unheard src.port
    else match keyGet s.host.sessions n with
    | none => s.ethDrop src.port
    | some x =>
      if x.proved && (x.ip != src.ip.toNat || x.udp != src.udp.toNat) then s.ethDrop src.port
      else if x.proved then s.takeOack pass id acked else s)

/-- SCLOSE. -/
def execSclose (src : Sender) (n : Nat) (seq : Word32) (s : State) : Host.Outcome State Fault Refusal :=
  .next (s.request src n seq 0x02 false fun _ s => bare stOk (s.closeSession n))

/-- MALFORMED_DATAGRAM: a datagram of TYPE `type` that R436 answers MALFORMED. -/
def execMalformedDatagram (src : Sender) (n : Nat) (seq : Word32) (type : Nat) (s : State) : Host.Outcome State Fault Refusal :=
  .next (s.request src n seq type true fun _ s => bare stMalformed s)

/-! ## Attestation (R489) -/

/-- n bytes of unspecified value (log 2). -/
def State.freeBytes (s : State) : Nat → List Byte × State
  | 0 => ([], s)
  | n + 1 =>
    let r := s.fresh.2.freeBytes n
    (natToBytes s.fresh.1.toNat 8 ++ r.1, r.2)

/-- BOOT_FLAGS. -/
def Security.bootFlags (x : Security) : Nat :=
  pack [(1, x.slot), (1, flag (!x.tried.isEmpty)), (1, flag x.floorBad), (1, flag x.helper1)]

/-- The digest of the owner record; the spec states none for an unowned module (log 2). -/
def State.ownerDigest (s : State) : List Byte × State :=
  match if s.sec.owned then s.sec.ownerRec else none with
  | some r => (sha512 (r.body.take 144), s)
  | none => s.freeBytes 8

/-- The attestation report over a host's nonce. -/
def State.report (s : State) (nonce : List Byte) : List Byte × State :=
  let x := s.sec
  let d := s.ownerDigest
  let body := natToBytes 1 2 ++ natToBytes 0 6 ++ natToBytes s.moduleId.toNat 8
    ++ natToBytes s.idPart 4 ++ natToBytes s.idContracts 4 ++ natToBytes s.detProfile 4 ++ natToBytes s.route.me 4
    ++ natToBytes s.tick 8 ++ natToBytes s.bar.passNum.toNat 8 ++ natToBytes Config.romVersion.toNat 4
    ++ natToBytes x.svn.toNat 4 ++ natToBytes x.floor.toNat 4 ++ natToBytes x.bootFlags 4 ++ x.image
    ++ natToBytes s.epoch 8 ++ d.1 ++ natToBytes s.bar.status 4 ++ natToBytes s.fin.edition 4 ++ natToBytes 0 8 ++ nonce
  (body ++ edSign x.priv x.pub body, d.2)

/-! ## SOPEN (R487, R488) -/

/-- The number for a new session: a free one, or that of the oldest unproved session. -/
def HostIf.room (h : HostIf) : Option Nat :=
  match (List.range 8).find? fun n => (keyGet h.sessions n).isNone with
  | some n => some n
  | none => ((h.sessions.filter fun x => !x.2.proved).foldl (fun (m : Option (Nat × Session)) x => match m with
    | none => some x
    | some y => if x.2.tick < y.2.tick then some x else some y) none).map (·.1)

/-- A reply to an SOPEN. -/
def openReply (p n st : Nat) (seq : Word32) (body : List Byte) : Msg :=
  { port := p, session := n, type := 0x81, status := st, seq := seq, body := body }

/-- Release goes on from line ACKED once the session for outputs is open (R442). -/
def State.resumeOutputs (s : State) (n : Nat) : State :=
  if bits s.host.ctrl.toNat 2 0 = n then s.rewindOutputs else s

/-- HELLO. It opens the session whose SEQ then starts at 0 (R439), so its own SEQ is only echoed. -/
def execHello (src : Sender) (seq : Word32) (nonce : List (BitVec 8)) (s : State) : Host.Outcome State Fault Refusal :=
  .next (if !s.hostPort src.port then s.unheard src.port
    else if nonce.length ≠ 32 then s
    else match s.host.room with
    | none => s.send [openReply src.port 0xFFFF stDenied seq []]
    | some n =>
      let fresh := s.freeBytes 4
      let r := fresh.2.report nonce
      let x : Session := { ip := src.ip.toNat, udp := src.udp.toNat, v6 := src.v6, port := src.port, tick := s.tick, nonce := fresh.1 }
      ((r.2.putSession n x).send [openReply src.port n stOk seq (fresh.1 ++ r.1)]).resumeOutputs n)

/-- Whether a PROVE succeeds. -/
def State.proves (s : State) (x : Session) (n key : Nat) (sig : List Byte) : Bool :=
  !x.proved && (match s.ownerKey key 0 with
    | some k => edVerify k (natToBytes s.moduleId.toNat 8 ++ natToBytes n 2 ++ x.nonce) sig
    | none => false)

/-- PROVE of session n with an owner key slot, in the SEQ order of that session (R439). One that fails records 0x0705, is answered
DENIED and closes the session, if it is not proved already (R488). One that names no open session fails as well. -/
def execProve (src : Sender) (seq : Word32) (n key : Nat) (sig : List (BitVec 8)) (s : State) : Host.Outcome State Fault Refusal :=
  .next (match keyGet s.host.sessions n with
    | none =>
      if s.hostPort src.port then (s.hubFault 0x0705 0).send [openReply src.port n stDenied seq []] else s.unheard src.port
    | some _ => s.request src n seq 0x01 false fun x s =>
      if s.proves x n key sig then
        bare stOk (s.putSession n { x with proved := true, key := key, ip := src.ip.toNat, udp := src.udp.toNat, v6 := src.v6 })
      else
        bare stDenied (if x.proved then s.hubFault 0x0705 0 else (s.closeSession n).hubFault 0x0705 0))

/-- SESSION_TIMEOUT: an unproved session closes 1 s after its HELLO (R488). -/
def execSessionTimeout (n : Nat) (s : State) : Host.Outcome State Fault Refusal :=
  .next (match keyGet s.host.sessions n with
    | none => s
    | some x => if x.proved then s else (s.advanceTick (x.tick + 100000000)).closeSession n)

end Sys2Proof.Machine
end

