-- ==== Sys2Proof/Machine/Mgmt.lean ====
section
/-! DEFINITION. The management interface and the JTAG port (R497 to R499). -/

namespace Sys2Proof.Machine

/-! ## The frame of R497 -/

/-- Whether the module answers on its management bus and its JTAG port. -/
def State.awake (s : State) : Bool := s.board.standby && !s.board.low

/-- A read frame: status, COUNT − 1, the words. -/
def State.readFrame (s : State) (w : Who) (a count : Nat) : List Byte × State :=
  let head := fun st => natToBytes st 1 ++ natToBytes (count - 1) 1
  if a % 4 ≠ 0 ∨ count = 0 ∨ 64 < count then (head stMalformed, s)
  else if !s.permitsBurst w false a count then (head stDenied, s)
  else
    let r := s.readBurst a count
    (head (if r.1.2 then stUnmapped else stOk) ++ r.1.1.flatMap (fun v => natToBytes v.toNat 4), r.2)

/-- A write frame: status, COUNT − 1, the index of the first refused word, padding. -/
def State.writeFrame (s : State) (w : Who) (a : Nat) (words : List Word32) : List Byte × State :=
  let reply := fun st first => natToBytes st 1 ++ natToBytes (words.length - 1) 1 ++ natToBytes first 1 ++ List.replicate 3 0xFF
  if a % 4 ≠ 0 ∨ words = [] ∨ 64 < words.length then (reply stMalformed 0xFF, s)
  else if !s.permitsBurst w true a words.length then (reply stDenied 0xFF, s)
  else
    let r := s.writeBurst w a 0 {} words
    (reply (if r.1.refused ≠ 0 then stRefused else if r.1.unmapped ≠ 0 then stUnmapped else stOk) r.1.first, r.2)

/-- The reply waits to be read back. -/
def State.mgmtReply (r : List Byte × State) : State := r.2.modBoard fun b => { b with mgmtOut := b.mgmtOut ++ [r.1] }

/-- MGMT_READ. -/
def execMgmtRead (addr : Word32) (count : Nat) (s : State) : Host.Outcome State Fault Refusal :=
  .next (if s.awake then State.mgmtReply (s.readFrame .mgmt addr.toNat count) else s)

/-- MGMT_WRITE. -/
def execMgmtWrite (addr : Word32) (words : List (BitVec 32)) (s : State) : Host.Outcome State Fault Refusal :=
  .next (if s.awake then State.mgmtReply (s.writeFrame .mgmt addr.toNat words) else s)

/-- MGMT_DYNAMIC_ADDRESS: SETDASA or ENTDAA, in I3C mode. -/
def execMgmtDynamicAddress (a : BitVec 7) (s : State) : Host.Outcome State Fault Refusal :=
  .next (if s.awake && !s.board.smbus then s.modBoard fun b => { b with mgmtAddr := some a.toNat } else s)

/-! ## Pins (R495, R497) -/

/-- MOD_PWRGD is released high: main power is on. -/
def State.pwrgd (s : State) : Bool := s.power.mainOn

/-- MOD_ALERT_N is driven low: the fault log holds entries that the host has not consumed. In I3C mode its fall raises the in-band
interrupt. -/
def State.alertLow (s : State) : Bool := s.faults.head != s.faults.tail

/-! ## JTAG (R499) -/

/-- An instruction is in force, and bytes leave by TDO. -/
def State.jtag (s : State) (ir : Nat) (out : List Byte) : State :=
  s.modBoard fun b => { b with ir := ir, driven := none, jtagOut := b.jtagOut ++ [out] }

/-- BYPASS: the one-bit register captures 0. -/
def State.bypass (s : State) : State := s.jtag 0 [0]

/-- BYPASS. -/
def execBypass (s : State) : Host.Outcome State Fault Refusal := .next (if s.board.standby then s.bypass else s)

/-- IDCODE. -/
def State.idcode (s : State) : Nat := if s.stepB then 0x24768BA7 else 0x14768BA7

/-- IDCODE. -/
def execIdcode (s : State) : Host.Outcome State Fault Refusal :=
  .next (if s.board.standby then s.jtag 1 (natToBytes s.idcode 4) else s)

/-- SAMPLE/PRELOAD: the pins are captured and shifted out, and the register takes what is shifted in. -/
def execSamplePreload (pins load : BitVec 60) (s : State) : Host.Outcome State Fault Refusal :=
  .next (if s.board.standby then (s.jtag 2 (natToBytes pins.toNat 8)).modBoard fun b => { b with scan := load } else s)

/-- EXTEST: the pins are captured, and driven from the register; as BYPASS while a core is attached. -/
def execExtest (pins load : BitVec 60) (s : State) : Host.Outcome State Fault Refusal :=
  .next (if !s.board.standby then s
    else if s.anyAttached then s.bypass
    else (s.jtag 3 (natToBytes pins.toNat 8)).modBoard fun b => { b with scan := load, driven := some load })

/-- DBGACC: a frame of R497, as BYPASS unless SEC_DEBUG.ENABLE is 1. -/
def execDbgacc (write : Bool) (addr : Word32) (count : Nat) (words : List (BitVec 32)) (s : State) : Host.Outcome State Fault Refusal :=
  .next (if !s.awake then s
    else if !s.sec.debug then s.bypass
    else
      let r := if write then s.writeFrame .jtag addr.toNat words else s.readFrame .jtag addr.toNat count
      r.2.jtag 4 r.1)

end Sys2Proof.Machine
end

