-- ==== Sys2Proof/Machine/Service.lean ====
section
/-! DEFINITION. Forced service slots and burnish (R54, R69, R70). -/

namespace Sys2Proof.Machine

/-! ## The next access of an engine (R52, R187, R203, R207, R298) -/

/-- The line of a read that an operation owes: of a bin form in the slot taken, or in that of the counters. -/
def Core.lineOf (c : Core) (f : LineRead) : Reader → Int
  | .mma o => match f.what, o.slot, o.bin with
    | .data, some x, _ => f.line + (x.base : Int)
    | .data, none, some r => f.line + ((c.binTake f.due r false).base : Int)
    | _, _, _ => f.line
  | .load _ => f.line
  | .run o => o.fetchAt f (c.srcLine f.due o)
  | .send o => match o.slot, o.bin with
    | some x, _ => f.line + (x.base : Int)
    | none, some r => f.line + ((c.binTake f.due r false).base : Int)
    | none, none => f.line

/-- The engine of a read. -/
def Reader.engine : Reader → Engine
  | .mma _ => .mx
  | .load _ => .vx
  | .run _ => .vx
  | .send _ => .nx

/-- The operation of a read, by its issue cycle. -/
def Reader.issue : Reader → Nat
  | .mma o => o.issue
  | .load x => x.issue
  | .run o => o.issue
  | .send o => o.issue

/-- The first line read that an engine owes. -/
def Core.nextRead (c : Core) (e : Engine) : Option (LineRead × Reader) := earliest (c.heads.filter fun x => x.2.engine == e)

/-- An access to come: its cycle, its banks, and the operation that makes it by its issue cycle. -/
structure Access where
  due : Nat
  banks : List Nat
  op : Nat := 0
deriving DecidableEq, Repr

/-- The earliest of some accesses; of one cycle, the first. -/
def firstAccess : List Access → Option Access
  | [] => none
  | x :: r => match firstAccess r with
    | none => some x
    | some y => if y.due < x.due then some y else some x

/-- The units that an operation of DX moves next. -/
def Core.dxAccesses (c : Core) (edx ddx : Nat) (o : DxOp) : List Access :=
  let read := o.issue + edx + o.slip + o.rd
  let write := o.issue + edx + o.slip + ddx + o.wr
  ([{ due := read, banks := c.dxBanks edx ddx read false o, op := o.issue },
    { due := write, banks := c.dxBanks edx ddx write true o, op := o.issue }] : List Access).filter fun x => !x.banks.isEmpty

/-- The access of the SX port that comes next: of memory, of a status word, of a descriptor or of the control line that it opens. -/
def State.sxNext (s : State) (k : Nat) : Option Access :=
  let c := s.core k
  match c.sx.acc, c.sx.wait with
  | a :: _, _ =>
    if a.refused then none
    else match a.kind with
    | .ldw => some { due := a.due, banks := [a.addr / 64 % 16] }
    | .ldp => some { due := a.due, banks := [a.addr / 64 % 16] }
    | .stw => some { due := a.due, banks := [a.addr / 64 % 16] }
    | _ => none
  | [], some x =>
    (match x.kind, x.stage with
    | .await, _ =>
      let h := c.handle (hIndex x.handle)
      if x.refused then none
      else if x.waitTick.isNone then some { due := x.due, banks := [x.line % 16] }
      else if h.changedAt < x.readAt then none
      else some { due := max x.due (h.changedAt + 1), banks := [x.line % 16] }
    | .hopen, .read => some { due := x.due, banks := [x.handle / 64 % 16] }
    | .hopen, .write =>
      let d := (parseDesc x.words).entry
      if (s.openRefusal k x.handle x.words).isNone && kindStatus d.kind then some { due := x.due, banks := [d.ctrl % 16] } else none
    | _, _ => none)
  | [], none => none

/-- The read of a status word that NX makes next. -/
def State.nwaitNext (s : State) (k : Nat) : Option Access :=
  match (s.core k).nxWait with
  | none => none
  | some o =>
    let h := (s.core k).handle (hIndex o.handle)
    let t := o.issue + s.ctENX + o.slip
    if o.silent || (o.waitTick.isSome && decide (h.changedAt < o.readAt)) then none
    else some { due := if o.waitTick.isSome then max t (h.changedAt + 1) else t, banks := [o.line % 16], op := o.issue }

/-- The next scratchpad access of an engine. -/
def State.nextAccess (s : State) (k : Nat) (e : Engine) : Option Access :=
  let c := s.core k
  let read := ((c.nextRead e).map fun x => ({ due := x.1.due, banks := bankOf (c.lineOf x.1 x.2), op := x.2.issue } : Access)).toList
  match e with
  | .mx => firstAccess read
  | .vx => firstAccess (read ++ ((c.vx.runs.find? (c.hasWrite s.now)).bind fun o =>
      (o.nextWrite (c.outLine s.now o)).map fun w =>
        let t := max w.2.1 (c.vx.lastOut + 1)
        ({ due := t, banks := c.vxBanks t } : Access)).toList)
  | .dx => firstAccess (c.dx.ops.flatMap (c.dxAccesses s.ctEDX s.ctDDX))
  | .nx => firstAccess (read ++ (s.nwaitNext k).toList)
  | .sx => s.sxNext k

/-! ## SERVICE_FORCED (R54) -/

/-- Whether a service request can have waited for bank b up to cycle t: island ports took the bank in each of the 64 cycles before. -/
def CoreMem.starved (m : CoreMem) (t b : Nat) : Bool :=
  match keyGet m.bankRuns b with
  | some (first, last) => decide (first + 64 ≤ t) && decide (t ≤ last + 1)
  | none => false

/-- An access that is no line read comes in the cycle after t: a write of VX, a unit of DX, a read of a status word, an access of SX. -/
def Core.displaceOther (c : Core) (e : Engine) (a : Access) (t enx : Nat) : Core :=
  match e with
  | .mx => c
  | .vx => c.modVx fun v => { v with lastOut := max v.lastOut t }
  | .dx => c.modDx fun d => { d with ops := d.ops.map fun o => if o.issue = a.op then { o with slip := o.slip + 1 } else o }
  | .nx => c.modNx fun n => { n with ops := n.ops.map fun o => if o.issue = a.op then { o with slip := t + 1 - o.issue - enx } else o }
  | .sx => c.modSx fun x =>
    { x with acc := (match x.acc with
              | [] => []
              | o :: r => { o with due := t + 1 } :: r)
             wait := if x.acc.isEmpty then x.wait.map fun w => { w with due := t + 1 } else x.wait }

/-- The displaced access of cycle t comes a cycle later, and what follows it in its engine. -/
def Core.displace (c : Core) (e : Engine) (a : Access) (t enx : Nat) : Core :=
  match c.nextRead e with
  | some (f, x) =>
    if f.due ≠ a.due then c.displaceOther e a t enx
    else match x with
    | .mma o => c.loseMx o.issue f.row t
    | .load o => c.loseVx o.issue f.row t
    | .run o => c.loseVx o.issue f.row t
    | .send o => c.loseNx o.issue t
  | none => c.displaceOther e a t enx

/-- Reads of core k that fall before cycle t. -/
def State.fetchPast (s : State) (k t : Nat) : Nat → State
  | 0 => s
  | n + 1 => match earliest (s.core k).heads with
    | some x => if x.1.due < t then (s.fetchOne k x.1 x.2).fetchPast k t n else s
    | none => s

/-- SERVICE_FORCED: a service request that has waited 64 cycles for a bank takes the slot in which engine e of core k would access
it (R54): the access is displaced, and the cycle counts in SERVICE_FORCED only. -/
def execServiceForced (k : Nat) (e : Engine) (s : State) : Host.Outcome State Fault Refusal :=
  .next (match s.nextAccess k e with
    | none => s
    | some a =>
      let t := max a.due s.now
      let u := (s.advance t).fetchPast k t (2 * (s.core k).owedReads + 64)
      match u.nextAccess k e with
      | none => s
      | some b =>
        if k < 768 ∧ max b.due u.now = t ∧ b.banks.any ((u.core k).mem.starved t) then
          u.modCore k fun c =>
            ((c.displace e b t s.ctENX).modRegs fun r => { r with svcForced := satInc r.svcForced 1 }).modMem fun m =>
              { m with slotCycle := t
                       slotBanks := (if m.slotCycle = t then m.slotBanks else []) ++ (b.banks.filter (m.starved t)).map fun x => (2 * svc, x) }
        else s)

/-! ## BURNISH_READ (R69, R70) -/

/-- One stock word read by burnish: a poisoned word is skipped. -/
def State.burnishWord (s : State) (k w : Nat) : State :=
  let m := (s.core k).mem.stock
  if m.bad w then s
  else match m.flaw w with
  | none => s
  | some .single => s.modCore k fun c =>
    { c with mem := { c.mem with stock := c.mem.stock.clean w }, regs := { c.regs with stockCe := satInc c.regs.stockCe 1 } }
  | some .double => s.stockBad k svc w 0x0303

/-- BURNISH_READ: the next line of core k, PERIOD + 2 steady ticks after the one before. -/
def execBurnishRead (k : Nat) (s : State) : Host.Outcome State Fault Refusal :=
  .next (let r := (s.core k).regs
    if !(decide (k < 768) && s.power.mainOn && r.burnEnable) then s
    else
      let s := s.advanceTick (r.burnTick + r.burnPeriod.toNat + 2)
      let s := (List.range 32).foldl (fun (s : State) i => s.burnishWord k (32 * r.burnNext + i)) s
      s.modCore k fun c => c.modRegs fun m =>
        { m with burnNext := (r.burnNext + 1) % stockLines, burnTick := s.tick
                 burnSweeps := if r.burnNext + 1 = stockLines then m.burnSweeps + 1 else m.burnSweeps })

end Sys2Proof.Machine
end

