-- ==== Sys2Proof/Machine/Dispatch.lean ====
section
/-! DEFINITION. exec: one arm per command, each one direct call of its meaning. -/

namespace Sys2Proof.Machine
open Host

def exec (i : Instr) (s : State) : Host.Outcome State Fault Refusal :=
  match i with
  | .tload k => Sys2Proof.Machine.execTload k s
  | .tloadComplete k => Sys2Proof.Machine.execTloadComplete k s
  | .mma k => Sys2Proof.Machine.execMma k s
  | .mmaRowEntry k => Sys2Proof.Machine.execMmaRowEntry k s
  | .mmaRowWrite k => Sys2Proof.Machine.execMmaRowWrite k s
  | .mmaComplete k => Sys2Proof.Machine.execMmaComplete k s
  | .vcfg k => Sys2Proof.Machine.execVcfg k s
  | .vtab k => Sys2Proof.Machine.execVtab k s
  | .tableLoadComplete k => Sys2Proof.Machine.execTableLoadComplete k s
  | .vrun k => Sys2Proof.Machine.execVrun k s
  | .vrunVectorEntry k => Sys2Proof.Machine.execVrunVectorEntry k s
  | .vrunLineWrite k => Sys2Proof.Machine.execVrunLineWrite k s
  | .vrunComplete k => Sys2Proof.Machine.execVrunComplete k s
  | .dpat k => Sys2Proof.Machine.execDpat k s
  | .dfill k => Sys2Proof.Machine.execDfill k s
  | .dcopy k => Sys2Proof.Machine.execDcopy k s
  | .dld k => Sys2Proof.Machine.execDld k s
  | .dst k => Sys2Proof.Machine.execDst k s
  | .dacr k => Sys2Proof.Machine.execDacr k s
  | .dacw k => Sys2Proof.Machine.execDacw k s
  | .dxUnitTransfer k => Sys2Proof.Machine.execDxUnitTransfer k s
  | .dxComplete k => Sys2Proof.Machine.execDxComplete k s
  | .nput k => Sys2Proof.Machine.execNput k s
  | .ntup k => Sys2Proof.Machine.execNtup k s
  | .nring k => Sys2Proof.Machine.execNring k s
  | .nreq k => Sys2Proof.Machine.execNreq k s
  | .nwait k => Sys2Proof.Machine.execNwait k s
  | .nwaitComplete k => Sys2Proof.Machine.execNwaitComplete k s
  | .nxPacketAccept k => Sys2Proof.Machine.execNxPacketAccept k s
  | .niThrottlePeriod k => Sys2Proof.Machine.execNiThrottlePeriod k s
  | .snop k e => Sys2Proof.Machine.execSnop k e s
  | .sloop k e => Sys2Proof.Machine.execSloop k e s
  | .send k e => Sys2Proof.Machine.execSend k e s
  | .sendComplete k e => Sys2Proof.Machine.execSendComplete k e s
  | .islandHang k => Sys2Proof.Machine.execIslandHang k s
  | .serviceForced k e => Sys2Proof.Machine.execServiceForced k e s
  | .add k => Sys2Proof.Machine.execAdd k s
  | .sub k => Sys2Proof.Machine.execSub k s
  | .and k => Sys2Proof.Machine.execAnd k s
  | .or k => Sys2Proof.Machine.execOr k s
  | .xor k => Sys2Proof.Machine.execXor k s
  | .sll k => Sys2Proof.Machine.execSll k s
  | .srl k => Sys2Proof.Machine.execSrl k s
  | .sra k => Sys2Proof.Machine.execSra k s
  | .slt k => Sys2Proof.Machine.execSlt k s
  | .sltu k => Sys2Proof.Machine.execSltu k s
  | .mul k => Sys2Proof.Machine.execMul k s
  | .addi k => Sys2Proof.Machine.execAddi k s
  | .andi k => Sys2Proof.Machine.execAndi k s
  | .ori k => Sys2Proof.Machine.execOri k s
  | .xori k => Sys2Proof.Machine.execXori k s
  | .lui k => Sys2Proof.Machine.execLui k s
  | .shi k => Sys2Proof.Machine.execShi k s
  | .slti k => Sys2Proof.Machine.execSlti k s
  | .ldw k => Sys2Proof.Machine.execLdw k s
  | .stw k => Sys2Proof.Machine.execStw k s
  | .ldp k => Sys2Proof.Machine.execLdp k s
  | .crd k => Sys2Proof.Machine.execCrd k s
  | .cwr k => Sys2Proof.Machine.execCwr k s
  | .sxAccess k => Sys2Proof.Machine.execSxAccess k s
  | .beq k => Sys2Proof.Machine.execBeq k s
  | .bne k => Sys2Proof.Machine.execBne k s
  | .blt k => Sys2Proof.Machine.execBlt k s
  | .bge k => Sys2Proof.Machine.execBge k s
  | .bltu k => Sys2Proof.Machine.execBltu k s
  | .bgeu k => Sys2Proof.Machine.execBgeu k s
  | .dbnz k => Sys2Proof.Machine.execDbnz k s
  | .jal k => Sys2Proof.Machine.execJal k s
  | .jr k => Sys2Proof.Machine.execJr k s
  | .swait k => Sys2Proof.Machine.execSwait k s
  | .ssig k => Sys2Proof.Machine.execSsig k s
  | .sdly k => Sys2Proof.Machine.execSdly k s
  | .await k => Sys2Proof.Machine.execAwait k s
  | .awaitComplete k => Sys2Proof.Machine.execAwaitComplete k s
  | .hopen k => Sys2Proof.Machine.execHopen k s
  | .hopenComplete k => Sys2Proof.Machine.execHopenComplete k s
  | .hclose k => Sys2Proof.Machine.execHclose k s
  | .hcloseComplete k => Sys2Proof.Machine.execHcloseComplete k s
  | .xlat k => Sys2Proof.Machine.execXlat k s
  | .sxSend k => Sys2Proof.Machine.execSxSend k s
  | .burnishRead k => Sys2Proof.Machine.execBurnishRead k s
  | .put n => Sys2Proof.Machine.execPut n s
  | .tup n => Sys2Proof.Machine.execTup n s
  | .ring n => Sys2Proof.Machine.execRing n s
  | .req n => Sys2Proof.Machine.execReq n s
  | .rpl n => Sys2Proof.Machine.execRpl n s
  | .grant n => Sys2Proof.Machine.execGrant n s
  | .yield n => Sys2Proof.Machine.execYield n s
  | .yieldSend k h => Sys2Proof.Machine.execYieldSend k h s
  | .closeDrainComplete k h => Sys2Proof.Machine.execCloseDrainComplete k h s
  | .creditWatchdog k => Sys2Proof.Machine.execCreditWatchdog k s
  | .arrivalWatchdog k e => Sys2Proof.Machine.execArrivalWatchdog k e s
  | .packetRoute n => Sys2Proof.Machine.execPacketRoute n s
  | .reservationGrant n => Sys2Proof.Machine.execReservationGrant n s
  | .codewordTransmit p => Sys2Proof.Machine.execCodewordTransmit p s
  | .dataCodeword p fix seq vc flits => Sys2Proof.Machine.execDataCodeword p fix seq vc flits s
  | .poisonCodeword p fix seq map => Sys2Proof.Machine.execPoisonCodeword p fix seq map s
  | .idleCodeword p fix seq => Sys2Proof.Machine.execIdleCodeword p fix seq s
  | .lcw p fix seq ack nak credit xoff record => Sys2Proof.Machine.execLcw p fix seq ack nak credit xoff record s
  | .uncorrectableCodeword p => Sys2Proof.Machine.execUncorrectableCodeword p s
  | .replayTimeout p => Sys2Proof.Machine.execReplayTimeout p s
  | .laneLoss p l => Sys2Proof.Machine.execLaneLoss p l s
  | .trainingComplete p => Sys2Proof.Machine.execTrainingComplete p s
  | .trainingTimeout p => Sys2Proof.Machine.execTrainingTimeout p s
  | .noPeerRetry p => Sys2Proof.Machine.execNoPeerRetry p s
  | .retrain p => Sys2Proof.Machine.execRetrain p s
  | .discardEpisodeEnd p => Sys2Proof.Machine.execDiscardEpisodeEnd p s
  | .moduleFinished => Sys2Proof.Machine.execModuleFinished s
  | .waveContribution n => Sys2Proof.Machine.execWaveContribution n s
  | .blank => Sys2Proof.Machine.execBlank s
  | .passStart => Sys2Proof.Machine.execPassStart s
  | .drainWatchdog => Sys2Proof.Machine.execDrainWatchdog s
  | .lostWatchdog => Sys2Proof.Machine.execLostWatchdog s
  | .hold v => Sys2Proof.Machine.execHold v s
  | .attach v bad => Sys2Proof.Machine.execAttach v bad s
  | .detach v => Sys2Proof.Machine.execDetach v s
  | .abort v => Sys2Proof.Machine.execAbort v s
  | .restart v => Sys2Proof.Machine.execRestart v s
  | .restartFail v => Sys2Proof.Machine.execRestartFail v s
  | .ticketDelivery => Sys2Proof.Machine.execTicketDelivery s
  | .tier2StreamSend n => Sys2Proof.Machine.execTier2StreamSend n s
  | .outputRelease => Sys2Proof.Machine.execOutputRelease s
  | .outputResend => Sys2Proof.Machine.execOutputResend s
  | .sreq n => Sys2Proof.Machine.execSreq n s
  | .sdata n => Sys2Proof.Machine.execSdata n s
  | .snone n => Sys2Proof.Machine.execSnone n s
  | .finfinRequest => Sys2Proof.Machine.execFinfinRequest s
  | .shardTimeout => Sys2Proof.Machine.execShardTimeout s
  | .load v => Sys2Proof.Machine.execLoad v s
  | .finfinAbort v => Sys2Proof.Machine.execFinfinAbort v s
  | .repair v => Sys2Proof.Machine.execRepair v s
  | .activate v => Sys2Proof.Machine.execActivate v s
  | .release v => Sys2Proof.Machine.execRelease v s
  | .tsum n => Sys2Proof.Machine.execTsum n s
  | .twinWatchdog => Sys2Proof.Machine.execTwinWatchdog s
  | .journalExport => Sys2Proof.Machine.execJournalExport s
  | .journalConsumedPoll => Sys2Proof.Machine.execJournalConsumedPoll s
  | .journalExportRetry => Sys2Proof.Machine.execJournalExportRetry s
  | .seal v => Sys2Proof.Machine.execSeal v s
  | .sealComplete => Sys2Proof.Machine.execSealComplete s
  | .snap v => Sys2Proof.Machine.execSnap v s
  | .checkpoint v => Sys2Proof.Machine.execCheckpoint v s
  | .hello src seq nonce => Sys2Proof.Machine.execHello src seq nonce s
  | .prove src seq n key sig => Sys2Proof.Machine.execProve src seq n key sig s
  | .sclose src n seq => Sys2Proof.Machine.execSclose src n seq s
  | .rd src n seq addr count => Sys2Proof.Machine.execRd src n seq addr count s
  | .wr src n seq addr words => Sys2Proof.Machine.execWr src n seq addr words s
  | .ticket src n seq pass tkt lines line tag data => Sys2Proof.Machine.execTicket src n seq pass tkt lines line tag data s
  | .oack src n pass id acked => Sys2Proof.Machine.execOack src n pass id acked s
  | .sessionTimeout n => Sys2Proof.Machine.execSessionTimeout n s
  | .arpRequest e ip => Sys2Proof.Machine.execArpRequest e ip s
  | .neighborDiscovery e ip => Sys2Proof.Machine.execNeighborDiscovery e ip s
  | .icmpEcho e v6 ip data => Sys2Proof.Machine.execIcmpEcho e v6 ip data s
  | .pauseFrame e => Sys2Proof.Machine.execPauseFrame e s
  | .pfcFrame e prio time => Sys2Proof.Machine.execPfcFrame e prio time s
  | .ethFrameDiscard e => Sys2Proof.Machine.execEthFrameDiscard e s
  | .ethLinkChange e up => Sys2Proof.Machine.execEthLinkChange e up s
  | .roceResponse c ok data => Sys2Proof.Machine.execRoceResponse c ok data s
  | .roceRequestNak c => Sys2Proof.Machine.execRoceRequestNak c s
  | .cnp c => Sys2Proof.Machine.execCnp c s
  | .rateRestore c => Sys2Proof.Machine.execRateRestore c s
  | .roceAckTimeout c => Sys2Proof.Machine.execRoceAckTimeout c s
  | .roceReestablish c => Sys2Proof.Machine.execRoceReestablish c s
  | .mgmtRead addr count => Sys2Proof.Machine.execMgmtRead addr count s
  | .mgmtWrite addr words => Sys2Proof.Machine.execMgmtWrite addr words s
  | .mgmtDynamicAddress a => Sys2Proof.Machine.execMgmtDynamicAddress a s
  | .bypass => Sys2Proof.Machine.execBypass s
  | .idcode => Sys2Proof.Machine.execIdcode s
  | .samplePreload pins load => Sys2Proof.Machine.execSamplePreload pins load s
  | .extest pins load => Sys2Proof.Machine.execExtest pins load s
  | .dbgacc write addr count words => Sys2Proof.Machine.execDbgacc write addr count words s
  | .standbyPowerUp seed0 seed1 cert mac slot bench smbus refA refB => Sys2Proof.Machine.execStandbyPowerUp seed0 seed1 cert mac slot bench smbus refA refB s
  | .standbyPowerDown => Sys2Proof.Machine.execStandbyPowerDown s
  | .imageCheck => Sys2Proof.Machine.execImageCheck s
  | .mainRegulation => Sys2Proof.Machine.execMainRegulation s
  | .selfTestComplete failed crossings bridges stops => Sys2Proof.Machine.execSelfTestComplete failed crossings bridges stops s
  | .modResetAssert => Sys2Proof.Machine.execModResetAssert s
  | .modResetRelease slot bench smbus => Sys2Proof.Machine.execModResetRelease slot bench smbus s
  | .program w => Sys2Proof.Machine.execProgram w s
  | .programComplete => Sys2Proof.Machine.execProgramComplete s
  | .floorCommit w => Sys2Proof.Machine.execFloorCommit w s
  | .ownerCommit w => Sys2Proof.Machine.execOwnerCommit w s
  | .refNoEdge r => Sys2Proof.Machine.execRefNoEdge r s
  | .refMonitorWindow r off drift => Sys2Proof.Machine.execRefMonitorWindow r off drift s
  | .refPresent r => Sys2Proof.Machine.execRefPresent r s
  | .refRevert => Sys2Proof.Machine.execRefRevert s
  | .cycleStretch k => Sys2Proof.Machine.execCycleStretch k s
  | .droopWindow k => Sys2Proof.Machine.execDroopWindow k s
  | .thermalDemandRaise n t => Sys2Proof.Machine.execThermalDemandRaise n t s
  | .thermalDemandLower t => Sys2Proof.Machine.execThermalDemandLower t s
  | .powerDemandRaise => Sys2Proof.Machine.execPowerDemandRaise s
  | .powerDemandLower => Sys2Proof.Machine.execPowerDemandLower s
  | .droopDemandLower => Sys2Proof.Machine.execDroopDemandLower s
  | .junctionOver95c n t => Sys2Proof.Machine.execJunctionOver95c n t s
  | .thermalTrip n t => Sys2Proof.Machine.execThermalTrip n t s
  | .inputVoltageExcursion => Sys2Proof.Machine.execInputVoltageExcursion s
  | .undervoltage => Sys2Proof.Machine.execUndervoltage s
  | .telemetryUpdate energy pin vin inlet outlet temps => Sys2Proof.Machine.execTelemetryUpdate energy pin vin inlet outlet temps s
  | .coreStop k => Sys2Proof.Machine.execCoreStop k s
  | .retainEntry g => Sys2Proof.Machine.execRetainEntry g s
  | .wake k ok => Sys2Proof.Machine.execWake k ok s
  | .linkEdgeGroupOff g => Sys2Proof.Machine.execLinkEdgeGroupOff g s
  | .laserSettled p => Sys2Proof.Machine.execLaserSettled p s
  | .pwrOffReqWrite a v => Sys2Proof.Machine.execPwrOffReqWrite a v s
  | .clrCe k => Sys2Proof.Machine.execClrCe k s
  | .clrErr p => Sys2Proof.Machine.execClrErr p s
  | .clear => Sys2Proof.Machine.execClear s
  | .faultLogTailWrite v => Sys2Proof.Machine.execFaultLogTailWrite v s
  | .latencyContractWrite v => Sys2Proof.Machine.execLatencyContractWrite v s
  | .lcDeclWrite a v => Sys2Proof.Machine.execLcDeclWrite a v s
  | .instructionWindowWrite a v => Sys2Proof.Machine.execInstructionWindowWrite a v s
  | .binDescWrite a v => Sys2Proof.Machine.execBinDescWrite a v s
  | .regionDescWrite a v => Sys2Proof.Machine.execRegionDescWrite a v s
  | .apertureWrite a v => Sys2Proof.Machine.execApertureWrite a v s
  | .apertureRead a => Sys2Proof.Machine.execApertureRead a s
  | .gridVmapWrite a v => Sys2Proof.Machine.execGridVmapWrite a v s
  | .patchWrite a v => Sys2Proof.Machine.execPatchWrite a v s
  | .routingRegisterWrite a v => Sys2Proof.Machine.execRoutingRegisterWrite a v s
  | .linkExpectWrite a v => Sys2Proof.Machine.execLinkExpectWrite a v s
  | .linkCfgWrite a v => Sys2Proof.Machine.execLinkCfgWrite a v s
  | .clkCfgWrite a v => Sys2Proof.Machine.execClkCfgWrite a v s
  | .plbConnWrite a v => Sys2Proof.Machine.execPlbConnWrite a v s
  | .passCtrlWrite v => Sys2Proof.Machine.execPassCtrlWrite v s
  | .twinCfgWrite v => Sys2Proof.Machine.execTwinCfgWrite v s
  | .barrierConfigWrite a v => Sys2Proof.Machine.execBarrierConfigWrite a v s
  | .finfinRegisterWrite a v => Sys2Proof.Machine.execFinfinRegisterWrite a v s
  | .descriptorWrite a v => Sys2Proof.Machine.execDescriptorWrite a v s
  | .latchingRead a => Sys2Proof.Machine.execLatchingRead a s
  | .registerWrite w a v => Sys2Proof.Machine.execRegisterWrite w a v s
  | .malformedDatagram src n seq type => Sys2Proof.Machine.execMalformedDatagram src n seq type s
  | .forwardedTicket pass tkt lines line tag data => Sys2Proof.Machine.execForwardedTicket pass tkt lines line tag data s
  | .inputVoltageReturn => Sys2Proof.Machine.execInputVoltageReturn s

end Sys2Proof.Machine
end

