-- ==== Sys2Proof/Safety.lean ====
section
/-! DEFINITION. What a safe run is, in the terms that claims use: a step that answers a next state, the addressed memories
in their canonical form, and a fault log inside its ring. -/

namespace Sys2Proof.Machine

/-- A step that goes on. -/
def goesOn (o : Host.Outcome State Fault Refusal) : Bool :=
  match o with
  | .next _ => true
  | .fault _ => false
  | .refused _ => false

/-- The state after a step that goes on; a step that does not leaves the machine where it stood. -/
def stateAfter (s : State) (o : Host.Outcome State Fault Refusal) : State :=
  match o with
  | .next t => t
  | .fault _ => s
  | .refused _ => s

/-- Run the commands of the queue, at most n of them. -/
def State.run (s : State) : Nat → State
  | 0 => s
  | n + 1 => (stateAfter s (step s)).run n

/-! ## The terms of the claims -/

/-- Nothing but the clock and the cores has changed, and of the cores none but core k. -/
def OnlyCore (k : Nat) (s t : State) : Prop :=
  t = { s with now := t.now, cores := t.cores } ∧ ∀ j, j ≠ k → t.core j = s.core j

/-- SX of core k issues the word w at index i in cycle u: no counter stands past its limit, the core is attached and its clock runs,
the stream runs or waits on counters, no arrival holds it, the word is legal and its memory clean, and u is the first cycle from now on that its ready
bound and the registers that it reads allow (R144, R154, R206). -/
structure SxIssues (s : State) (k i w u : Nat) (rs : List Nat) : Prop where
  calm : s.overs = []
  open' : s.canIssue k .sx = true
  free : (s.core k).sx.wait = none
  index : (s.core k).sxs.pc = i
  word : (s.core k).instr .sx i = w
  clean : (s.core k).instrFlaws .sx i = []
  legal : sxBad w = none
  loops : (s.core k).sxs.loops = []
  regs : (s.core k).sx.readable rs = true
  cycle : u = max s.now (max (s.core k).sxs.ready ((s.core k).sx.readyAt rs))

/-- The SX stream has issued: it runs on at index i, no earlier than cycle r. -/
def Core.sxGoes (c : Core) (i r : Nat) : Core := { c with sxs := { c.sxs with state := .run, pc := i, ready := r } }

/-- A fault has been recorded: the count of faults rises by one, and the entry, unless the log is full, stands at the old head
with its code (R414, R415). -/
def Recorded (s t : State) (code : Nat) : Prop :=
  t.faults.total = s.faults.total + 1 ∧
  ((s.faults.head - s.faults.tail).toNat ≠ 4096 →
    ∃ e, keyGet t.faults.entries (s.faults.head.toNat % 4096) = some e ∧ e.code = code)

/-- The cores are as they were, but for core k. -/
def OtherCores (k : Nat) (s t : State) : Prop := ∀ j, j ≠ k → t.core j = s.core j

/-- The target of a transfer by a signed 16-bit offset (R200). -/
def sxTarget (i w : Nat) : Int := (i : Int) + (BitVec.ofNat 16 w).toInt

/-- What an instruction of an engine stream owes at its completion: its signals, but for a B that it gives at issue. -/
def owedOf (w i : Nat) : Owed :=
  { sigA := hSigA w, sigB := if hSbi w then none else hSigB w, index := i, ends := [] }

/-- The counters after a signal. -/
def Sync.signalled (y : Sync) (u : Nat) : Option (Nat × Nat) → Sync
  | none => y
  | some (n, inc) => y.add u n inc

/-- Whether a signal saturates no counter (R142). -/
def Sync.room (y : Sync) : Option (Nat × Nat) → Bool
  | none => true
  | some (n, inc) => decide (y.count.getD n 0 + inc ≤ 65535)

/-- The counters after the issue of w in cycle u: the waits have subtracted, and signal B has added if w gives it at issue
(R141, R145). -/
def Core.engSync (c : Core) (w u : Nat) : Sync :=
  (c.sync.take u (hWaits w)).signalled u (if hSbi w then hSigB w else none)

/-- Whether the completion of an instruction saturates no counter. -/
def Sync.roomFor (y : Sync) (u : Nat) (o : Owed) : Bool := y.room o.sigA && (y.signalled u o.sigA).room o.sigB

/-- The core after the completion of an instruction in cycle u: its signals are given (R145). -/
def Core.completed (c : Core) (u : Nat) (o : Owed) : Core :=
  { c with sync := (c.sync.signalled u o.sigA).signalled u o.sigB }

/-- The core after the issue of the word w at index i in cycle u: counters, and the stream past the instruction (R148). -/
def Core.engGoes (c : Core) (e : Engine) (i w u : Nat) : Core :=
  ({ c with sync := c.engSync w u } : Core).modStream e fun t =>
    { t with state := .run, pc := (nextIndex i t.loops).1, loops := (nextIndex i t.loops).2 }

/-- The stream e of core k issues the word w at index i in cycle u: no counter stands past its limit, the core is attached and its
clock runs, the stream runs or waits on counters, the word is legal and its memory clean, u is the first cycle from now on that the
ready bound r and DELAY allow, in it the waits hold, and no engine before e has yet to take from a counter that they name (R140, R141,
R144); signal B, if given at issue, saturates no counter, and the stream does not run off its bank. -/
structure EngIssues (s : State) (k : Nat) (e : Engine) (i w u r : Nat) : Prop where
  calm : s.overs = []
  open' : s.canIssue k e = true
  index : ((s.core k).stream e).pc = i
  word : (s.core k).instr e i = w
  clean : (s.core k).instrFlaws e i = []
  legal : engineBad e w = none
  cycle : u = max s.now (r + hDelay w)
  waits : (s.core k).sync.holds u (hWaits w) = true
  turn : s.contended k e u (hWaits w) = false
  room : ((s.core k).sync.take u (hWaits w)).room (if hSbi w then hSigB w else none) = true
  inside : hOpc w = opSend ∨ (nextIndex i ((s.core k).stream e).loops).1 < bankLen e

/-- The oldest access of SX is due: it was not refused, owes its stream nothing, no line read of an engine is owed, and no
later event has come about yet; its registers are general registers. -/
structure SxAccessNext (s : State) (k : Nat) (a : SxAcc) (r : List SxAcc) : Prop where
  calm : s.overs = []
  oldest : (s.core k).sx.acc = a :: r
  done : a.refused = false
  ends : a.ends = []
  sig : a.sig = none
  reads : (s.core k).heads = []
  due : s.now ≤ a.due
  rd : a.rd < 32
  rd2 : a.rd2 < 32
  regs : (s.core k).sx.g.length = 32

/-- In cycle t the port is idle, and no other port takes a bank before it (R52, R53). -/
def State.slotFree (s : State) (k port t : Nat) : Prop := (s.core k).mem.used port t = false ∧ s.held k port t = []

/-- A read of n words of one line in cycle t that nothing holds back, refuses or zeroes, and that meets no error (R52, R57,
R75, R80). -/
structure State.plainRead (s : State) (k t w n : Nat) : Prop where
  free : s.slotFree k 10 t
  open' : (s.core k).readCode false (w / 64) 1 = none
  shown : (s.core k).readsZero false (w / 64) = false
  clean : ∀ i, i < n → (s.core k).mem.scr.flaw (w + i) = none

/-- An access has delivered its words: it is gone, and no memory has changed. -/
def SxDelivers (c d : Core) (r : List SxAcc) : Prop :=
  d.sx.acc.length = r.length ∧ d.mem.scr = c.mem.scr ∧ d.mem.stock = c.mem.stock ∧ d.mem.acc = c.mem.acc ∧
    d.mem.imem = c.mem.imem

/-- The SX stream stands at index i behind a wait that has just started; registers, memories and accesses are as before. -/
def SxStands (c d : Core) (i : Nat) : Prop :=
  d.sxs = { c.sxs with state := .run, pc := i } ∧ d.mem = c.mem ∧ d.chan = c.chan ∧ d.sync = c.sync ∧
    ∀ r, d.g r = c.g r

/-- The wait x of SX has reached its due cycle: it was not refused, owes its stream nothing, no access and no line read is
owed, its signal saturates no counter, and no later event has come about yet. -/
structure SxWaitNext (s : State) (k : Nat) (x : SxWait) : Prop where
  calm : s.overs = []
  waits : (s.core k).sx.wait = some x
  accs : (s.core k).sx.acc = []
  done : x.refused = false
  ends : x.ends = []
  reads : (s.core k).heads = []
  due : s.now ≤ x.due
  room : (s.core k).sync.room x.sig = true

/-- The wait of SX is over: the stream runs on after the cycle, its signal is given, and no memory has changed. -/
def SxWaitOver (c d : Core) (x : SxWait) : Prop :=
  d.sx = { c.sx with wait := none } ∧ d.sync = c.sync.signalled x.due x.sig ∧
    d.sxs = { c.sxs with ready := x.due + 1, state := if c.sxs.state = .waitArr then .run else c.sxs.state } ∧
    d.mem.scr = c.mem.scr ∧ d.mem.stock = c.mem.stock ∧ d.mem.acc = c.mem.acc ∧ d.mem.imem = c.mem.imem

/-- The row that enters next of an MMA: its activations and grain scales, from the data line and the scale line (R86). -/
def MmaOp.acts (o : MmaOp) (da : List (PWord 32)) : List Int :=
  slotElems o.afmt da ((o.aslot + o.entered) % rowsPerLine o.afmt) 128
def MmaOp.scaleWord (o : MmaOp) (sc : List (PWord 32)) : PWord 32 := sc.getD ((o.scoff + o.entered) % 64) ⟨0, false⟩
def MmaOp.grainScales (o : MmaOp) (sc : List (PWord 32)) : List Nat :=
  (List.range 4).map fun g => bits (o.scaleWord sc).val.toNat (8 * g + 7) (8 * g)

/-- The contributions of the row (R38), and whether it is poisoned: by the tile, the scale word or a data word of the row
(R91). -/
def MmaOp.contribs (o : MmaOp) (t : Tile) (sc da : List (PWord 32)) : List Int :=
  (List.range 128).map fun n => contribution (t.column n) (o.acts da) (t.scales n) (o.grainScales sc)
def MmaOp.carries (o : MmaOp) (t : Tile) (sc da : List (PWord 32)) : Bool :=
  t.poison || (o.scaleWord sc).poison ||
    ((da.drop (64 / rowsPerLine o.afmt * ((o.aslot + o.entered) % rowsPerLine o.afmt))).take (64 / rowsPerLine o.afmt)).any (·.poison)

/-- The data mover has issued an operation in cycle u: a permitted write run raises the high-water mark of its APPEND region, a DACW
raises WRITERS of its bank, and the next instruction issues when the units of this one have been read (R74, R96, R179). -/
def Core.dxGoes (c : Core) (o : DxOp) (u : Nat) : Core :=
  let c := if o.kind = .acw then c.modMx fun m =>
    { m with stamps := modAt m.stamps o.bank fun x => { x with writers := x.writers + 1 } } else c
  let c := if o.bin.isSome then c else if o.writesStock then c.raiseHigh true o.dst o.lines
    else if o.writesScr then c.raiseHigh false o.dst o.lines else c
  (c.modStream .dx fun x => { x with ready := u + o.units }).modDx fun d =>
    { d with ops := d.ops ++ [{ o with issue := u, rd := if o.kind = .fill then o.units else 0 }] }

/-- The operands of a data mover instruction. -/
def dxPlain (o : Owed) (kind : DxKind) (stock : Bool) (src dst count : Nat) (bin : Option BinRef) : DxOp :=
  { owed := o, issue := 0, kind := kind, stock := stock, src := src, dst := dst, count := count, bank := 0, arow := 0
    bin := bin, pattern := 0, refused := false }

/-- Core k has changed in its scratchpad, its stock and its write sum only, and nothing else of the module has. -/
def OnlyMem (k : Nat) (s t : State) (scr stock : Store) (c : Core) : Prop :=
  OnlyCore k s t ∧ ∃ y, t.core k = { c with
    mem := { (t.core k).mem with scr := scr, stock := stock, acc := c.mem.acc, imem := c.mem.imem }
    ctl := { c.ctl with twinSum := y } }

/-- The words of the vector in place j of a tensor that starts in line `line`, from the lines that a run has read (R107). -/
def VrunOp.held (o : VrunOp) (what : LineUse) (f line slot j : Nat) : Option (List (PWord 32)) :=
  let l := line + vecLine f slot j
  if f = fmtS32 then
    match gotLine o.got what (l : Int), gotLine o.got what ((l + 1 : Nat) : Int) with
    | some a, some b => some (a ++ b)
    | _, _ => none
  else (gotLine o.got what (l : Int)).map fun ws => (ws.drop ((slot + j) % rplOf f * vecWords f)).take (vecWords f)

/-- The lanes with which vector j of a run enters the chain, from a scratchpad source (R107, R108, R111): an element times the
scale of its grain, where the run is scaled. -/
def VrunOp.inLanes (o : VrunOp) (j : Nat) : Option (List Lane) :=
  let sa := scaleAddr (cSscword o.cfg) (rplOf o.src) o.sline (cSdbase o.cfg) o.sslot j
  match o.held .data o.src o.sline o.sslot j, if cScaled o.cfg then gotLine o.got .scale (sa / 64) else some [] with
  | some ws, some sc =>
    let w := sc.getD (wrapU 6 sa) ⟨0, false⟩
    some ((lanesOf o.src ws).zipIdx.map fun p =>
      { val := if cScaled o.cfg then p.1.1 * ((bits w.val.toNat (8 * (p.2 / 32) + 7) (8 * (p.2 / 32)) : Nat) : Int) else p.1.1
        pred := true
        poison := p.1.2 || o.cfgPoison || (cScaled o.cfg && w.poison) })
  | _, _ => none

/-- The operand stream beside vector j (R109). -/
def VrunOp.stream (o : VrunOp) (j : Nat) : Option (List (Int × Bool)) :=
  if cBen o.cfg then (o.held .stream (strFmt o.cfg) (cBline o.cfg) 0 j).map (lanesOf (strFmt o.cfg)) else some []

/-- The operands of a VRUN without a bin, with the configuration that stands in its slot (R172). -/
def Core.vrunOp (c : Core) (w u : Nat) (o : Owed) : VrunOp :=
  let cfg := (c.vx.cfg.getD (w % 8) {}).full 64
  { owed := o, issue := u, cslot := w % 8, src := w / 2 ^ 3 % 8, bank := w / 2 ^ 6 % 4, row := w / 2 ^ 8 % 256
    sline := w / 2 ^ 6 % 2 ^ 14, sslot := w / 2 ^ 20 % 4, sbin := none, oline := w / 2 ^ 22 % 2 ^ 14, oslot := w / 2 ^ 36 % 4
    obin := none, count := w / 2 ^ 38 % 2 ^ 12 + 1, cfg := cfg.map fun x => x.val.toNat, cfgPoison := cfg.any (·.poison)
    check := u, q := rateOf (cfg.map fun x => x.val.toNat) (w / 2 ^ 3 % 8) }

/-- The first entry of a run issued in cycle u when no load is pending (F of R127). -/
def Core.vrunFirst (c : Core) (ev u : Nat) (o : VrunOp) : Nat :=
  let l := chainLen o.cfg
  let f := match readPush o o.sline with
    | some p => max (u + ev) (u + 2 + cSnap o.cfg + p)
    | none => max (u + ev) (u + 1 + cSnap o.cfg)
  let f := max f (after c.vx.lastExit - l)
  if cDense o.cfg then max f (after c.vx.lastDone - l) else f

/-- A VRUN has issued in cycle u with its first entry in cycle f: it owes its reads and stands in flight, the cycles of R127
that later operations refer to have moved, and the next VX instruction issues f − E_v + m q. -/
def Core.vrunGoes (c : Core) (ev f : Nat) (o : VrunOp) : Core :=
  let o := { o with first := f }
  let o := { o with fetch := o.reads o.sline }
  let tail := lastTailOf o o.oline c.vx.lastTail
  (c.modStream .vx fun x => { x with ready := f - ev + o.count * o.q }).modVx fun v =>
    { v with runs := v.runs ++ [o], lastExit := some (f + (o.count - 1) * o.q + chainLen o.cfg), lastTail := tail
             lastDone := some (max (after v.lastDone - 1) tail) }

/-- The sender entry after it has numbered an operation, with the class and flow of the pass (R301, R390). -/
def Handle.numbered (h : Handle) (o : NxOp) : Handle :=
  { h with mseq := h.mseq + 1
           flow := if (o.kind == .put || o.kind == .tup) && h.flow.isNone then some (o.fwd, if o.fwd then 0 else o.flow) else h.flow }

/-- The reads that an operation issued in cycle u begins at once, and when the next instruction can issue, where the issue settles
it (R187): a tuple reads from cycle u + E on; a put or a ring reads its first packet if flow control allows it (`now`) and lets the next
instruction issue after its last packet; a wait holds the stream. -/
def NxOp.schedule (o : NxOp) (enx u : Nat) (now : Bool) : List LineRead × Option Nat :=
  let n := if o.kind = .put then o.linesAt 0 else o.count
  match o.kind with
  | .tup => (nxReads (u + enx) o.srcLine o.srcLines, some (u + enx + o.srcLines))
  | .req => ([], some (u + 1))
  | .wait => ([], none)
  | _ => if now then (nxReads (u + enx) (if o.bin.isSome then 0 else o.line) n, if o.packets = 1 then some (u + enx + n) else none)
    else ([], none)

/-- An NX operation stands in flight, and the entry h has numbered it unless it is a wait. -/
def Core.nxStands (c : Core) (o : NxOp) (h : Handle) : Core :=
  (if o.kind = .wait then c else c.setHandle (o.handle % 4096) (h.numbered o)).modNx fun n => { n with ops := n.ops ++ [o] }

/-- An NX operation has issued through the entry h: the entry has numbered it, and it stands in flight with its reads. -/
def Core.nxGoes (c : Core) (o : NxOp) (h : Handle) (x : List LineRead × Option Nat) : Core :=
  let c := c.nxStands { o with fetch := x.1 } h
  match x.2 with
  | some r => c.modStream .nx fun t => { t with ready := r }
  | none => c

/-- What an NX instruction asks for (R183, R185, R186, R308, R311). -/
def nxPlain (owed : Owed) (kind : NxKind) (handle line count : Nat) (bin : Option BinRef) : NxOp :=
  { owed := owed, issue := 0, kind := kind, handle := handle, line := line, count := count, bin := bin }

/-- No line read of NX is owed and no operation is in flight but o. -/
structure NxAlone (s : State) (k : Nat) (o : NxOp) : Prop where
  reads : (s.core k).heads = []
  ops : (s.core k).nx.ops = [o]

/-- Packet i of the mesh has arrived at a place, where nothing keeps it back. -/
def Stands (s : State) (i : Nat) (place : Place) (p : Packet) : Prop :=
  ∃ t, s.mesh.items[i]? = some t ∧ t.pkt = p ∧ t.exit = some place ∧ s.blocked i t = false ∧ s.arrives t = true ∧ t.due ≤ s.now

/-- A packet that has entered the mesh for a place: its stops there, and the cycle in which its last flit is at the exit (R227, R230). -/
def Transit.inMesh (t : Transit) (s : State) (exit : Place) : Transit :=
  { t with
    exit := some exit, outVc := 0, taken := true, entered := some s.mesh.entries, stops := stopsOf t.src exit
    due := s.now + s.mesh.latency (stopsOf t.src exit).1 (stopsOf t.src exit).2 t.pkt.len }

/-- Packet i of the mesh stands at core k, which takes it: the packet, and the handle entry h that steps 1 to 4 of R303 pass it to; a
window or ring in the scratchpad. No line read of an engine is owed. -/
structure PacketNext (s : State) (i k : Nat) (p : Packet) (h : Handle) : Prop where
  item : Stands s i (.core k) p
  group : s.group (groupOf k) = .on
  attached : (s.core k).ctl.attached = true
  takes : s.bar.takes = true
  since : s.bar.due < s.now
  passes : s.judge k p = .pass h
  reads : (s.core k).heads = []
  cells : Memory.wf (s.core k).mem.scr.cells = true

/-- Packet i has ended at core k: it is gone from the mesh and counted, and nothing else of the module has changed but core k. -/
def PacketEnds (s t : State) (i k : Nat) (p : Packet) : Prop :=
  t = { s with mesh := { s.mesh with items := s.mesh.items.eraseIdx i }, bar := (s.noteSink p).bar, cores := t.cores } ∧
    OtherCores k s t

/-- The owner entry after a data packet: RECEIVED of the slot has risen by the charge, and the last packet of a message counts (R296, R303). -/
def Handle.took (h : Handle) (s : State) (c : ChanHdr) : Handle :=
  let h' := { h with slots := modAt h.slots c.slot fun x => { x with received := x.received + c.charge h } }
  if c.last then { h'.touch s.now with count := h.count + 1, seq := s.seqOf h c.mseq } else h'

/-- The scratchpad word w after a data packet that is written where `data` says: the status word counts a last packet (R295). -/
def tookWord (c d : Core) (hdr : ChanHdr) (h : Handle) (data : Nat → Option (PWord 32)) : Prop :=
  ∀ w, d.scrWord w = match data w with
    | some x => x
    | none => if hdr.last = true ∧ w = 64 * h.ctrl then h.statusWords.getD 0 ⟨0, false⟩
      else if hdr.last = true ∧ w = 64 * h.ctrl + 1 then h.statusWords.getD 1 ⟨0, false⟩ else c.scrWord w

/-- What a port may lose or gain with its usability: the packets partly received and those that wait, the counts of discards
(R265). Everything else of it stands. -/
def PortKept (x y : Port) : Prop :=
  y = { x with
    usable := y.usable, discard := y.discard, episode := y.episode
    tx := { x.tx with pool := y.tx.pool, buf := y.tx.buf, resend := y.tx.resend, next := y.tx.next, ends := y.tx.ends }
    rx := { x.rx with part := y.rx.part, skip := y.rx.skip } }

/-- The starting state of a core of a pass (R59, R94, R143, R338): the scratchpad outside the keep regions and the accumulators read
as zero, the stock and the instruction memory are as they were, and the engines, counters and per-pass registers are at their start. -/
structure AtStart (c d : Core) : Prop where
  scr : ∀ w, d.scrWord w = if c.spared (w / 64) then c.scrWord w else ⟨0, false⟩
  stock : d.mem.stock = c.mem.stock
  imem : d.mem.imem = c.mem.imem
  acc : d.mem.acc = {}
  sync : d.sync = { count := (if c.ctl.bankActive = 0 then c.ctl.syncInit0 else c.ctl.syncInit1).map (·.toNat) }
  mx : d.mx = { rows := c.mx.rows, rowsLatch := c.mx.rowsLatch }
  vx : d.vx = { vecs := c.vx.vecs, vecsLatch := c.vx.vecsLatch }
  dx : d.dx = {}
  nx : d.nx = { throttle := c.nx.throttle }
  sx : d.sx = {}
  streams : ∀ e ∈ allEngines, d.stream e = {}
  twinSum : d.ctl.twinSum = 0

/-- The packets in which a hub sender writes one message of n lines at line `off`: PUT packets of class FWD with at most 16 lines
each, poison-only when the message is bad (R382, R447). -/
def State.hubPackets (s : State) (t : HubTarget) (mseq off n : Nat) (bad : Bool) (data : List Byte) : List Transit :=
  (List.range ((n + 15) / 16)).map fun j =>
    { src := .hub
      pkt := chanPacket clsFwd 0 s.route.me t.core s.route.me false
        { op := opPut, tidx := hIndex t.handle, tgen := hGen t.handle, slot := t.slot, mseq := mseq, pkt := j % 256
          last := decide (n ≤ 16 * (j + 1)), ponly := bad, off := off + 16 * j, n := min 16 (n - 16 * j) - 1 }
        (if bad then poisonBody (32 * min 16 (n - 16 * j)) else toWords64 ((data.drop (4096 * j)).take (256 * min 16 (n - 16 * j))) (32 * min 16 (n - 16 * j))) }

/-- The state in which those packets have entered the mesh and are counted as injected. -/
def State.withHubMessage (s : State) (t : HubTarget) (mseq off n : Nat) (bad : Bool) (data : List Byte) : State :=
  { s with
    mesh := { s.mesh with items := s.mesh.items ++ s.hubPackets t mseq off n bad data }
    bar := { s.bar with inj := s.bar.inj + BitVec.ofNat 64 ((n + 15) / 16) } }

/-- The body of an OUTPUT message of n lines from line `off` (R449). -/
def outputBody (o : Output) (off n : Nat) : List Byte :=
  natToBytes o.pass.toNat 8 ++ natToBytes o.id 2 ++ natToBytes 0 2 ++ natToBytes (o.lines - 1) 4 ++ natToBytes off 4 ++ natToBytes 0 4
    ++ cellRead o.cells (256 * off) (256 * n)

/-- The output's lines from line `off` on have left, in messages of m lines and a last one with the rest. -/
def State.outputFrom (s : State) (o : Output) (off m : Nat) : State :=
  (List.range ((o.lines - off + m - 1) / m)).foldl
    (fun t j => t.notify 0x30 (outputBody o (off + m * j) (min m (o.lines - (off + m * j))))) s

/-- An edition slot that can answer a request between hubs: its edition and VMOD match, it holds a manifest, and it holds the shard verified in
stock (R372). -/
def EdSlot.serves (e : EdSlot) (p : Packet) : Prop :=
  e.edition.toNat = p.finEd ∧ e.vmod = p.finVmod ∧ e.shards ≠ [] ∧ e.state ≠ .empty ∧ e.state ≠ .failed ∧
    (p.finShard = 0xFFFFFFFF ∨ ∃ x, e.shards[p.finShard]? = some x ∧ x.ok = true ∧ x.tier = 0)

/-- The RW fields of FINFIN_CTRL as v writes them (R385). -/
def Finfin.ctrl (x : Finfin) (v : Word32) : Finfin :=
  { x with slotSel := flag (bit v.toNat 1), rounds := bits v.toNat 4 3, auto := bit v.toNat 5 }

/-- REPAIR in a write v of FINFIN_CTRL: every damaged shard is to be repaired (R375). -/
def Finfin.repaired (x : Finfin) (v : Word32) : Finfin :=
  if bit v.toNat 6 = true then
    { x with slots := x.slots.map fun e => { e with shards := e.shards.map fun y => { y with repair := y.repair || y.damaged, given := false } } }
  else x

/-- The RW fields of WEIGHT_EDITION as v writes them: a pending release written as 0 ends (R364, R385). -/
def Finfin.edited (x : Finfin) (v : Word32) : Finfin :=
  { x with activate := bit v.toNat 6, release0 := x.release0 && bit v.toNat 7, release1 := x.release1 && bit v.toNat 8 }

/-- A session's request that reaches the hub, from the source to which a proved session is bound (R434, R436, R488). -/
def Arrives (s : State) (src : Sender) (n : Nat) (x : Session) : Prop :=
  s.hostPort src.port = true ∧ keyGet s.host.sessions n = some x ∧ (x.proved = true → x.ip = src.ip.toNat ∧ x.udp = src.udp.toNat)

/-- A request is answered through port p: its replies leave, each with the VLAN tag of the port, and are kept, and NSEQ rises by 1
(R433, R437, R439). -/
def State.answered (t : State) (n p : Nat) (y : Session) (type st : Nat) (bodies : List (List Byte)) : State :=
  { t with
    host := { t.host with
      out := t.host.out ++ t.tagged (bodies.map fun b => ({ port := p, session := n, type := type % 128 + 128, status := st, seq := y.nseq, body := b } : Msg))
      sessions := keyPut t.host.sessions n { y with
        nseq := y.nseq + 1
        cache := ((y.nseq, bodies.map fun b => ({ port := p, session := n, type := type % 128 + 128, status := st, seq := y.nseq, body := b } : Msg)) :: y.cache).take 64 } } }

/-- Packet p stands at index i and has arrived at the hub; it is one of the hub-to-hub packets of OP `op` (R371). -/
def AtHub (s : State) (i op : Nat) (p : Packet) : Prop :=
  Stands s i .hub p ∧ p.cls ≠ clsCtl ∧ p.dtgt = hubTgt ∧ p.chan.op = op

/-- Fetch f has become g. -/
def State.withFetch (s : State) (f g : Fetch) : State :=
  { s with fin := { s.fin with fetches := s.fin.fetches.map fun y => if y = f then g else y } }

/-- Fetch f waits for an attempt over the holder at `pos`, in a round. -/
def Fetch.again (f : Fetch) (pos round : Nat) : Fetch := { f with going := false, parts := [], head := none, pos := pos, round := round }

/-- The packets in which an object of bytes leaves in answer to request p (R371, R372). -/
def State.objectPackets (s : State) (p : Packet) (data : List Byte) : List Transit :=
  (List.range (ceilDiv data.length 4096)).map fun j =>
    { src := .hub
      pkt := s.finPacket p.src 9 p.finVmod p.finTag p.finEd p.finShard j (j + 1 == ceilDiv data.length 4096)
        (toWords64 ((data.drop (4096 * j)).take 4096) (ceilDiv ((data.drop (4096 * j)).take 4096).length 8)) }

/-- The journal with one more record of a pass (R402), while the record buffer keeps 2 MiB free (R407). -/
def Journal.withRecord (j : Journal) (type : Nat) (pass : Word64) (body : List Byte) : Journal :=
  let r := natToBytes type 1 ++ natToBytes 1 1 ++ natToBytes 0 2 ++ natToBytes body.length 4 ++ natToBytes j.rseq.toNat 8 ++ natToBytes pass.toNat 8
    ++ natToBytes 0 8 ++ body
  { j with buf := j.buf ++ [(j.rseq, r ++ sha512 (j.chain ++ r))], chain := sha512 (j.chain ++ r), rseq := j.rseq + 1, prevPass := pass, busy := false }

/-- The writes of a batch of records into the store ring: each at the next place of the ring, and what goes past its end at its start
(R407). -/
def exportOps (base : Word64) (leave ring : Nat) : Nat → List (Word64 × List Byte) → List PlbOp
  | _, [] => []
  | pos, r :: l =>
    ({ use := .records r.1, addr := base + BitVec.ofNat 64 pos, data := r.2.take (ring - pos), leave := leave } ::
      if ring - pos < r.2.length then [{ use := .records r.1, addr := base + BitVec.ofNat 64 0, data := r.2.drop (ring - pos), leave := leave }] else [])
      ++ exportOps base leave ring ((pos + r.2.length) % ring) l

/-- Where the ring stands after a batch. -/
def ringAfter (ring : Nat) : Nat → List (Word64 × List Byte) → Nat
  | pos, [] => pos
  | pos, r :: l => ringAfter ring ((pos + r.2.length) % ring) l


/-- A sound state: the contract in force is supported (R217), and the ring of the fault log holds at most 4,096 entries (R414). -/
def State.sound (s : State) : Bool := bit s.lcSupported s.lc && decide ((s.faults.head - s.faults.tail).toNat ≤ 4096)

/-! ## The rows that one statement covers -/

/-- The functions of OP (R194): the command, FUNC, the cycles to the result, the result of the two operands. -/
def sxOpRows : List ((Nat → Instr) × Nat × Nat × (Word32 → Word32 → Word32)) :=
  [(.add, 0x000, 1, fun a b => a + b),
   (.sub, 0x001, 1, fun a b => a - b),
   (.and, 0x002, 1, fun a b => a &&& b),
   (.or, 0x003, 1, fun a b => a ||| b),
   (.xor, 0x004, 1, fun a b => a ^^^ b),
   (.sll, 0x005, 1, fun a b => a <<< (b.toNat % 32)),
   (.srl, 0x006, 1, fun a b => a >>> (b.toNat % 32)),
   (.sra, 0x007, 1, fun a b => a.sshiftRight (b.toNat % 32)),
   (.slt, 0x008, 1, fun a b => if a.slt b then 1 else 0),
   (.sltu, 0x009, 1, fun a b => if a.ult b then 1 else 0),
   (.mul, 0x00A, 3, fun a b => a * b)]

/-- The immediate forms (R193): the command, the opcode, the result of the register and imm16. -/
def sxImmRows : List ((Nat → Instr) × Nat × (Word32 → BitVec 16 → Word32)) :=
  [(.addi, 0x02, fun a i => a + i.signExtend 32),
   (.andi, 0x03, fun a i => a &&& i.setWidth 32),
   (.ori, 0x04, fun a i => a ||| i.setWidth 32),
   (.xori, 0x05, fun a i => a ^^^ i.setWidth 32),
   (.lui, 0x06, fun _ i => i.setWidth 32 <<< 16),
   (.shi, 0x07, fun a i =>
      if i.toNat / 32 % 4 = 0 then a <<< (i.toNat % 32) else if i.toNat / 32 % 4 = 1 then a >>> (i.toNat % 32)
      else a.sshiftRight (i.toNat % 32)),
   (.slti, 0x08, fun a i => if a.slt (i.signExtend 32) then 1 else 0)]

/-- The branches (R193, R200): the command, the opcode, the condition on the two operands. -/
def sxBranchRows : List ((Nat → Instr) × Nat × (Word32 → Word32 → Bool)) :=
  [(.beq, 0x18, fun a b => a == b), (.bne, 0x19, fun a b => a != b), (.blt, 0x1A, fun a b => a.slt b),
   (.bge, 0x1B, fun a b => b.sle a), (.bltu, 0x1C, fun a b => a.ult b), (.bgeu, 0x1D, fun a b => b.ule a)]

/-- The instructions that make a control use of a register (R191): the command, the opcode, the registers read, the registers
whose poison forbids the act. -/
def sxControlRows : List ((Nat → Instr) × Nat × (Nat → List Nat) × (Nat → List Nat)) :=
  [(.beq, 0x18, fun w => [bRa w, bRb w], fun w => [bRa w, bRb w]),
   (.bne, 0x19, fun w => [bRa w, bRb w], fun w => [bRa w, bRb w]),
   (.blt, 0x1A, fun w => [bRa w, bRb w], fun w => [bRa w, bRb w]),
   (.bge, 0x1B, fun w => [bRa w, bRb w], fun w => [bRa w, bRb w]),
   (.bltu, 0x1C, fun w => [bRa w, bRb w], fun w => [bRa w, bRb w]),
   (.bgeu, 0x1D, fun w => [bRa w, bRb w], fun w => [bRa w, bRb w]),
   (.dbnz, 0x1E, fun w => [bRa w], fun w => [bRa w]),
   (.jr, 0x20, fun w => [xRa w], fun w => [xRa w]),
   (.ldw, 0x10, fun w => [xRa w], fun w => [xRa w]),
   (.stw, 0x11, fun w => [xRa w, xRd w], fun w => [xRa w]),
   (.ldp, 0x12, fun w => [xRa w], fun w => [xRa w]),
   (.crd, 0x13, fun w => [xRa w], fun w => [xRa w]),
   (.cwr, 0x14, fun w => [xRa w, xRd w], fun w => [xRa w, xRd w]),
   (.await, 0x2B, fun w => [awRa w, awRb w], fun w => [awRa w, awRb w]),
   (.hopen, 0x30, fun w => [xRa w], fun w => [xRa w]),
   (.hclose, 0x31, fun w => [xRa w], fun w => [xRa w]),
   (.xlat, 0x32, fun w => [xRa w], fun w => [xRa w])]

/-- The accesses of SX (R196 to R198, R205): the command, the opcode, the registers read, the control uses, and the access as it
stands in flight until its own cycle. -/
def sxAccessRows : List ((Nat → Instr) × Nat × (Nat → List Nat) × (Nat → List Nat) × (Core → Nat → SxAcc)) :=
  let mem := fun (c : Core) (w : Nat) => ((c.g (xRa w)).val + (BitVec.ofNat 16 w).signExtend 32).toNat
  let reg := fun (c : Core) (w : Nat) => ((c.g (xRa w)).val + (BitVec.ofNat 16 w).setWidth 32).toNat
  [(.ldw, 0x10, fun w => [xRa w], fun w => [xRa w], fun c w => { sxAcc .ldw (xRd w) false with addr := mem c w }),
   (.stw, 0x11, fun w => [xRa w, xRd w], fun w => [xRa w],
     fun c w => { sxAcc .stw 0 false with addr := mem c w, data := c.g (xRd w) }),
   (.ldp, 0x12, fun w => [xRa w], fun w => [xRa w],
     fun c w => { sxAcc .ldp (xRd w) false with rd2 := xRd w + 1, addr := mem c w }),
   (.crd, 0x13, fun w => [xRa w], fun w => [xRa w], fun c w => { sxAcc .crd (xRd w) false with addr := reg c w }),
   (.cwr, 0x14, fun w => [xRa w, xRd w], fun w => [xRa w, xRd w],
     fun c w => { sxAcc .cwr 0 false with addr := reg c w, data := c.g (xRd w) }),
   (.xlat, 0x32, fun w => [xRa w], fun w => [xRa w],
     fun c w => { sxAcc .xlat (xRd w) false with addr := w % 4, data := c.g (xRa w) })]

/-- Whether the address of an access is one that is not refused at issue (R196, R197). -/
def SxAcc.addressed (a : SxAcc) (c : Core) : Bool :=
  match a.kind with
  | .ldw => (c.narrowIssue a.addr).isNone
  | .stw => (c.narrowIssue a.addr).isNone
  | .ldp => (c.narrowIssue a.addr).isNone && a.addr % 2 == 0
  | _ => true

/-- The operations of the data mover (R174 to R177): the command, the opcode, the operation that the word w makes. -/
def dxRows : List ((Nat → Instr) × Nat × (Core → Nat → Owed → DxOp)) :=
  [(.dfill, 2, fun c w o => { dxPlain o .fill (w.testBit 38) 0 (w % 2 ^ 19) (w / 2 ^ 19 % 2 ^ 19 + 1) none with pattern := c.dx.fillpat }),
   (.dcopy, 3, fun _ w o => dxPlain o .copy (w.testBit 57) (w % 2 ^ 19) (w / 2 ^ 19 % 2 ^ 19) (w / 2 ^ 38 % 2 ^ 19 + 1) none),
   (.dld, 4, fun _ w o => dxPlain o .ld false (w % 2 ^ 19) (w / 2 ^ 19 % 2 ^ 14) (w / 2 ^ 33 % 2 ^ 14 + 1)
     (binRef (w / 2 ^ 19 % 2 ^ 14) (w.testBit 66) (w.testBit 65))),
   (.dst, 5, fun _ w o => dxPlain o .st false (w % 2 ^ 14) (w / 2 ^ 14 % 2 ^ 19) (w / 2 ^ 33 % 2 ^ 14 + 1)
     (binRef (w % 2 ^ 14) (w.testBit 66) (w.testBit 65))),
   (.dacr, 6, fun _ w o => { dxPlain o .acr false 0 (w / 2 ^ 18 % 2 ^ 14) (w / 2 ^ 10 % 2 ^ 8 + 1)
     (binRef (w / 2 ^ 18 % 2 ^ 14) (w.testBit 66) (w.testBit 65)) with bank := w % 4, arow := w / 4 % 256 }),
   (.dacw, 7, fun _ w o => { dxPlain o .acw false (w / 2 ^ 18 % 2 ^ 14) 0 (w / 2 ^ 10 % 2 ^ 8 + 1)
     (binRef (w / 2 ^ 18 % 2 ^ 14) (w.testBit 66) (w.testBit 65)) with bank := w % 4, arow := w / 4 % 256 })]

/-- The instructions of NX: the command, the opcode, the operation that the word w makes at entry control line `ctrl`. -/
def nxRows : List ((Nat → Instr) × Nat × (Nat → Nat → Owed → NxOp)) :=
  [(.nput, 1, fun w _ o => { nxPlain o .put (w % 2 ^ 16) (w / 2 ^ 32 % 2 ^ 14) (w / 2 ^ 46 % 2 ^ 12 + 1)
      (binRef (w / 2 ^ 32 % 2 ^ 14) (w.testBit 66) (w.testBit 65)) with
      off := w / 2 ^ 16 % 2 ^ 16, fwd := w.testBit 58, flow := w / 2 ^ 59 % 2 ^ 5, acc := w.testBit 67 }),
   (.ntup, 2, fun w _ o => { nxPlain o .tup (w % 2 ^ 16) (w / 2 ^ 37 % 2 ^ 19) (w / 2 ^ 56 % 2 ^ 3 + 1) none with
      off := w / 2 ^ 16 % 2 ^ 21 }),
   (.nring, 3, fun w _ o => nxPlain o .ring (w % 2 ^ 16) (w / 2 ^ 16 % 2 ^ 14) (w / 2 ^ 30 % 2 ^ 4 + 1)
      (binRef (w / 2 ^ 16 % 2 ^ 14) (w.testBit 66) (w.testBit 65))),
   (.nreq, 4, fun w _ o => { nxPlain o .req (w % 2 ^ 16) (w / 2 ^ 32 % 2 ^ 14) (w / 2 ^ 46 % 2 ^ 12 + 1)
      (binRef (w / 2 ^ 32 % 2 ^ 14) (w.testBit 66) (w.testBit 65)) with off := w / 2 ^ 16 % 2 ^ 16 }),
   (.nwait, 5, fun w l o => { nxPlain o .wait (w % 2 ^ 16) l 0 none with target := BitVec.ofNat 32 (w / 2 ^ 16) })]

end Sys2Proof.Machine
end

