-- ==== Sys2Proof/Certificates/Slice0/Obligations.lean ====
section
/-! DEFINITION. The statements for the provers: what each command of the block does, what it leaves as it was, when it completes, and the
invariant that every step keeps. -/

open Sys2Proof Sys2Proof.Machine

/-! ## The whole machine -/

/-- O1. A step takes the command at the front of the queue and runs it on the rest of the queue; on an empty queue the clock ticks once (the model's
choices, logs 1 and 6). -/
def Obligations.StepRunsFront : Prop :=
  (∀ (c : Instr) (s : State), step { s with pending := c :: s.pending } = exec c s) ∧
  (∀ s : State, s.pending = [] → step s = .next (s.advance (s.now + 1)) ∧ (s.overs = [] → step s = .next { s with now := s.now + 1 }))

/-- O2. What a register reads right after reset, address and value, for the registers whose rules state a value; a sound state (O3) at reset; an empty
queue; and memories, scratchpad, stock and instruction memory, that read as zero (R4, R9, R24, R94, R138, R161, R217, R269, R291, R432, R473, R492).
The part is a grade -33 B0 with MODULE_ID 0 (the model's choices, logs 1, 3 and 4). -/
def Obligations.ResetValues : Prop :=
  State.reset.sound = true ∧ State.reset.pending = [] ∧
  (∀ x ∈ [(0x000000, 0x47682110), (0x000004, 0x00030101), (0x100000, 0), (0x100040, 1), (0x200000, 0xC), (0x200020, 0), (0x300004, 0x578), (0x300008, 0x03E7043F), (0x300010, 0), (0x400000, 0),
      (0x400004, 0), (0x400008, 0), (0x40000C, 0x01FF0003), (0x400010, 0), (0x500020, 0), (0x608000, 0), (0x608008, 0), (0x60800C, 0xF), (0x608010, 14), (0x608014, 15),
      (0x608018, 16), (0x60801C, 17), (0x608020, 18), (0x608024, 19), (0x608030, 0), (0x608050, 0), (0x600000, 0x018F4003), (0x600404, 0),
      (0x602000, 0x018F4083), (0x600050, 0), (0x700000, 0x18001F), (0x700004, 1500), (0x701000, 0x13870F00), (0x90001C, 0x1C14), (0xA00004, 0x28), (0x900010, 0), (0x900014, 0), (0xB00050, 0x695A)],
    (State.reset.regRead x.1).1 = some (BitVec.ofNat 32 x.2)) ∧
  (∀ k, ((State.reset.core k).ctl.attached = false) ∧ (State.reset.core k).sync.count = List.replicate 48 0 ∧ (∀ e, ((State.reset.core k).stream e).pc = 0) ∧
    (∀ w, (State.reset.core k).scrWord w = ⟨0, false⟩) ∧ (∀ w, (State.reset.core k).stockWord w = ⟨0, false⟩) ∧ (∀ e i, (State.reset.core k).instr e i = 0))

/-- O3. Whatever the commands, the machine stays sound: LATENCY_CONTRACT names a contract that ID_CONTRACTS reports as supported, and the ring of the
fault log holds at most 4,096 entries between TAIL and HEAD (R217, R414, R432); the part's grade and stepping never change; and a step takes exactly
the command at the front of its queue, or none from an empty one (log 1). -/
def Obligations.StaysSound : Prop :=
  ∀ s t : State, s.sound = true → step s = .next t →
    t.sound = true ∧ t.grade = s.grade ∧ t.stepB = s.stepB ∧ (s.pending = [] ∧ t.pending = [] ∨ ∃ c, s.pending = c :: t.pending)

/-! ## The scalar control core -/

/-- O4. An OP instruction and an immediate form issue, write rd with the result of R194 or R193 and the poison of their operands, discard a write of
g0, and the stream goes on in sequence; nothing else changes (R190, R193, R194, R206). -/
def Obligations.SxArithmetic : Prop :=
  (∀ row ∈ sxOpRows, ∀ (s : State) (k i w u : Nat),
    SxIssues s k i w u [xRa w, xRb w] → xOpc w = 0x01 → xFunc w = row.2.1 → i + 1 < 8192 →
    ∃ t, exec (row.1 k) s = .next t ∧ t.now = u ∧ OnlyCore k s t ∧
      t.core k = ((s.core k).setG (xRd w)
        ⟨row.2.2.2 ((s.core k).g (xRa w)).val ((s.core k).g (xRb w)).val,
          ((s.core k).g (xRa w)).poison || ((s.core k).g (xRb w)).poison⟩ (u + row.2.2.1)).sxGoes (i + 1) (u + 1)) ∧
  (∀ row ∈ sxImmRows, ∀ (s : State) (k i w u : Nat),
    SxIssues s k i w u [xRa w] → xOpc w = row.2.1 → i + 1 < 8192 →
    ∃ t, exec (row.1 k) s = .next t ∧ t.now = u ∧ OnlyCore k s t ∧
      t.core k = ((s.core k).setG (xRd w)
        ⟨row.2.2 ((s.core k).g (xRa w)).val (BitVec.ofNat 16 (xImm w)), ((s.core k).g (xRa w)).poison⟩
        (u + 1)).sxGoes (i + 1) (u + 1))

/-- O5. A branch on operands without poison transfers to i + sext(off16) when its condition holds, and goes on in sequence otherwise; DBNZ decrements
its register and transfers while the result is not zero; JAL writes i + 1 and transfers; JR transfers to the index in its register (R193, R200). -/
def Obligations.SxTransfers : Prop :=
  (∀ row ∈ sxBranchRows, ∀ (s : State) (k i w u : Nat),
    SxIssues s k i w u [bRa w, bRb w] → xOpc w = row.2.1 → i + 1 < 8192 → 0 ≤ sxTarget i w → sxTarget i w ≤ 8191 →
    ((s.core k).g (bRa w)).poison = false → ((s.core k).g (bRb w)).poison = false →
    ∃ t, exec (row.1 k) s = .next t ∧ t.now = u ∧ OnlyCore k s t ∧
      t.core k = (s.core k).sxGoes
        (if row.2.2 ((s.core k).g (bRa w)).val ((s.core k).g (bRb w)).val then (sxTarget i w).toNat else i + 1) (u + 1)) ∧
  (∀ (s : State) (k i w u : Nat),
    (SxIssues s k i w u [bRa w] → xOpc w = 0x1E → bRa w ≠ 0 → i + 1 < 8192 → 0 ≤ sxTarget i w → sxTarget i w ≤ 8191 →
      ((s.core k).g (bRa w)).poison = false →
      ∃ t, exec (.dbnz k) s = .next t ∧ t.now = u ∧ OnlyCore k s t ∧
        t.core k = ((s.core k).setG (bRa w) ⟨((s.core k).g (bRa w)).val - 1, false⟩ (u + 1)).sxGoes
          (if ((s.core k).g (bRa w)).val - 1 = 0 then i + 1 else (sxTarget i w).toNat) (u + 1)) ∧
    (SxIssues s k i w u [] → xOpc w = 0x1F → 0 ≤ (i : Int) + (BitVec.ofNat 21 w).toInt →
      (i : Int) + (BitVec.ofNat 21 w).toInt ≤ 8191 →
      ∃ t, exec (.jal k) s = .next t ∧ t.now = u ∧ OnlyCore k s t ∧
        t.core k = ((s.core k).setG (xRd w) ⟨BitVec.ofNat 32 (i + 1), false⟩ (u + 1)).sxGoes
          ((i : Int) + (BitVec.ofNat 21 w).toInt).toNat (u + 1)) ∧
    (SxIssues s k i w u [xRa w] → xOpc w = 0x20 → ((s.core k).g (xRa w)).poison = false →
      ((s.core k).g (xRa w)).val.toNat ≤ 8191 →
      ∃ t, exec (.jr k) s = .next t ∧ t.now = u ∧ OnlyCore k s t ∧
        t.core k = (s.core k).sxGoes ((s.core k).g (xRa w)).val.toNat (u + 1)))

/-- O6. SWAIT takes its threshold from a counter that holds it and from which no engine before it has yet to take in the cycle, SSIG adds its
increment in the cycle of its issue, SDLY puts the next issue n cycles away (R141, R142, R202). -/
def Obligations.SxCounters : Prop :=
  ∀ (s : State) (k i w u : Nat), SxIssues s k i w u [] → i + 1 < 8192 →
    (xOpc w = 0x28 → scN w ≤ (s.core k).sync.seen u (scCtr w) → s.contended k .sx u [(scCtr w, scN w)] = false →
      ∃ t, exec (.swait k) s = .next t ∧ t.now = u ∧ OnlyCore k s t ∧
        t.core k = ({ s.core k with sync := (s.core k).sync.take u [(scCtr w, scN w)] } : Core).sxGoes (i + 1) (u + 1) ∧
        ∀ n, (t.core k).sync.count.getD n 0 =
          if n = scCtr w then (s.core k).sync.count.getD n 0 - scN w else (s.core k).sync.count.getD n 0) ∧
    (xOpc w = 0x29 → (s.core k).sync.count.getD (scCtr w) 0 + scN w ≤ 65535 → (s.core k).sync.count.length = 48 →
      ∃ t, exec (.ssig k) s = .next t ∧ t.now = u ∧ OnlyCore k s t ∧
        t.core k = ({ s.core k with sync := (s.core k).sync.add u (scCtr w) (scN w) } : Core).sxGoes (i + 1) (u + 1) ∧
        ∀ n, (t.core k).sync.count.getD n 0 =
          if n = scCtr w then (s.core k).sync.count.getD n 0 + scN w else (s.core k).sync.count.getD n 0) ∧
    (xOpc w = 0x2A →
      ∃ t, exec (.sdly k) s = .next t ∧ t.now = u ∧ OnlyCore k s t ∧
        t.core k = (s.core k).sxGoes (i + 1) (u + xImm w + 1))

/-- O7. A control use of a poisoned register performs nothing, records 0x0120 and makes the SX stream ABANDONED in that cycle (R191). -/
def Obligations.SxPoisonedControl : Prop :=
  ∀ row ∈ sxControlRows, ∀ (s : State) (k i w u : Nat),
    SxIssues s k i w u (row.2.2.1 w) → xOpc w = row.2.1 →
    (∃ r ∈ row.2.2.2 w, ((s.core k).g r).poison = true) →
    ∃ t, exec (row.1 k) s = .next t ∧ t.now = u ∧ OtherCores k s t ∧ Recorded s t 0x0120 ∧
      t.core k = { s.core k with sxs := { (s.core k).sxs with state := .abandoned } }

/-- O8. An access of SX issues: it stands in flight, due ESX cycles later; its destination waits for it, the stream goes on in sequence, and no
register and no memory has changed (R196 to R199, R205, R206). -/
def Obligations.SxAccessIssues : Prop :=
  ∀ row ∈ sxAccessRows, ∀ (s : State) (k i w u : Nat),
    SxIssues s k i w u (row.2.2.1 w) → xOpc w = row.2.1 → i + 1 < 8192 →
    (∀ r ∈ row.2.2.2.1 w, ((s.core k).g r).poison = false) → (row.2.2.2.2 (s.core k) w).addressed (s.core k) = true →
    (s.core k).sx.g.length = 32 →
    ∃ t, exec (row.1 k) s = .next t ∧ t.now = u ∧ OnlyCore k s t ∧
      (t.core k).sx.acc.getLast? = some { row.2.2.2.2 (s.core k) w with index := i, due := u + s.ctESX } ∧
      (t.core k).sx.acc.length = (s.core k).sx.acc.length + 1 ∧
      (t.core k).sxs = ((s.core k).sxGoes (i + 1) (u + 1)).sxs ∧ (t.core k).mem = (s.core k).mem ∧
      (∀ r, (t.core k).g r = (s.core k).g r) ∧
      ∀ r, (t.core k).sx.readable [r] = (r == 0 ||
        ((s.core k).sx.readable [r] && r != (row.2.2.2.2 (s.core k) w).rd && r != (row.2.2.2.2 (s.core k) w).rd2))

/-! ## Streams -/

/-- O9. SNOP issues and completes in its issue cycle; SLOOP sets up its loop and control enters the body; SEND leaves the stream at its index with its
end issued; SEND_COMPLETE: once every earlier operation has completed the stream is ENDED without loops and the signals of SEND are given. Nothing
else changes (R145, R147, R148, R150, R152, R201). -/
def Obligations.StreamControl : Prop :=
  (∀ (s : State) (k : Nat) (e : Engine) (i w u : Nat),
    e ≠ .sx → (s.core k).heads = [] → EngIssues s k e i w u ((s.core k).stream e).ready →
    ((s.core k).engSync w u).roomFor u (owedOf w i) = true →
    (hOpc w = 0xF0 →
      ∃ t, exec (.snop k e) s = .next t ∧ t.now = u ∧ OnlyCore k s t ∧
        t.core k = (((s.core k).engGoes e i w u).modStream e fun x => { x with ready := u + 1 }).completed u (owedOf w i)) ∧
    (hOpc w = 0xF1 → i + (bits w 27 16 + 1) < bankLen e → ((s.core k).stream e).loops.length < 4 →
      (∀ l, ((s.core k).stream e).loops.head? = some l → i + (bits w 27 16 + 1) ≤ l.last) →
      ∃ t, exec (.sloop k e) s = .next t ∧ t.now = u ∧ OnlyCore k s t ∧
        t.core k = (((s.core k).engGoes e i w u).modStream e fun x => { x with
          pc := i + 1, ready := u + 1
          loops := { first := i + 1, last := i + (bits w 27 16 + 1), left := bits w 15 0 + 1 } ::
            ((s.core k).stream e).loops }).completed u (owedOf w i)) ∧
    (hOpc w = 0xF2 →
      ∃ t, exec (.send k e) s = .next t ∧ t.now = u ∧ OnlyCore k s t ∧
        t.core k = ((s.core k).engGoes e i w u).modStream e fun x => { x with
          pc := i, sendAt := some u, sendOwed := owedOf w i })) ∧
  (∀ (s : State) (k : Nat) (e : Engine) (u : Nat) (o : Owed), s.overs = [] → ((s.core k).stream e).sendAt = some u → ((s.core k).stream e).sendOwed = o → o.ends = [] →
    (s.core k).streamDone e = true → (s.core k).sync.roomFor (max s.now u) o = true →
    ∃ t, exec (.sendComplete k e) s = .next t ∧ t.now = max s.now u ∧ OnlyCore k s t ∧
      t.core k = ((s.core k).modStream e fun x => { x with
        state := if x.state = .abandoned then .abandoned else .ended, loops := [], sendAt := none, sendOwed := {} }).completed
        (max s.now u) o)

/-- O10. The hang check of a hung core records 0x0202 and makes every stream that waits on counters ABANDONED; nothing else of any core changes
(R153). -/
def Obligations.IslandHang : Prop :=
  ∀ (s : State) (k : Nat), s.hung k = true →
    ∃ t, exec (.islandHang k) s = .next t ∧ t.now = s.now ∧ OtherCores k s t ∧ Recorded s t 0x0202 ∧
      (∀ e, (t.core k).stream e = if s.stalled k e = true
        then { (s.core k).stream e with state := .abandoned } else (s.core k).stream e) ∧
      ({ t.core k with mxs := (s.core k).mxs, vxs := (s.core k).vxs, dxs := (s.core k).dxs, nxs := (s.core k).nxs
                       sxs := (s.core k).sxs } : Core) = s.core k

/-- O11. SERVICE_FORCED displaces the access of its engine that falls next, in a bank that island ports have held for the 64 cycles before, takes the
slot and counts; BURNISH_READ of a line without errors counts the line and the sweep, one period after the line before (R53, R54, R69). -/
def Obligations.CoreService : Prop :=
  ∀ (s : State) (k : Nat), k < 768 →
    (∀ e a, s.overs = [] → s.nextAccess k e = some a → (s.advance (max a.due s.now)).nextAccess k e = some a →
      (∀ x ∈ (s.core k).heads, max a.due s.now ≤ x.1.due) → a.banks.any ((s.core k).mem.starved (max a.due s.now)) = true →
      ∃ t, exec (.serviceForced k e) s = .next t ∧ t.now = max a.due s.now ∧ OnlyCore k s t ∧
        t.core k = (((s.core k).displace e a (max a.due s.now) s.ctENX).modRegs fun r => { r with svcForced := satInc r.svcForced 1 }).modMem fun m =>
          { m with slotCycle := max a.due s.now
                   slotBanks := (if m.slotCycle = max a.due s.now then m.slotBanks else []) ++
                     (a.banks.filter (m.starved (max a.due s.now))).map fun b => (2 * svc, b) }) ∧
    (∀ r, s.overs = [] → r = (s.core k).regs → 0 < s.grade → s.power.mainOn = true → r.burnEnable = true →
      (∀ i, i < 32 → (s.core k).mem.stock.flaw (32 * r.burnNext + i) = none) →
      ∃ t, exec (.burnishRead k) s = .next t ∧ OnlyCore k s t ∧ r.burnTick + r.burnPeriod.toNat + 2 ≤ t.tick ∧
        t.core k = { s.core k with regs := { r with
          burnNext := (r.burnNext + 1) % 327680, burnTick := t.tick
          burnSweeps := if r.burnNext + 1 = 327680 then r.burnSweeps + 1 else r.burnSweeps } })

/-- O12. An access of SX takes effect in its own cycle. LDW and LDP deliver the words of the scratchpad with their poison, CRD the value of the
register, XLAT the entry of the patch table; no other register and no memory changes (R57, R196, R198, R199, R205). -/
def Obligations.SxLoadEffect : Prop :=
  ∀ (s : State) (k : Nat) (a : SxAcc) (r : List SxAcc), SxAccessNext s k a r →
    (a.kind = .ldw → a.rd2 = 0 → a.addr < 2 ^ 20 → s.plainRead k a.due a.addr 1 →
      ∃ t, exec (.sxAccess k) s = .next t ∧ t.now = a.due ∧ OnlyCore k s t ∧ SxDelivers (s.core k) (t.core k) r ∧
        ∀ q, (t.core k).g q = if q = a.rd ∧ q ≠ 0 then (s.core k).scrWord a.addr else (s.core k).g q) ∧
    (a.kind = .ldp → a.addr + 1 < 2 ^ 20 → a.addr % 2 = 0 → a.rd2 = a.rd + 1 → s.plainRead k a.due a.addr 2 →
      ∃ t, exec (.sxAccess k) s = .next t ∧ t.now = a.due ∧ OnlyCore k s t ∧ SxDelivers (s.core k) (t.core k) r ∧
        ∀ q, (t.core k).g q = if q = a.rd ∧ q ≠ 0 then (s.core k).scrWord a.addr
          else if q = a.rd + 1 then (s.core k).scrWord (a.addr + 1) else (s.core k).g q) ∧
    (a.kind = .crd → a.rd2 = 0 → a.addr % 4 = 0 → a.addr < 0x10000 → latching a.addr = false → s.strict = false →
      ∃ t, exec (.sxAccess k) s = .next t ∧ t.now = a.due ∧ OnlyCore k s t ∧ SxDelivers (s.core k) (t.core k) r ∧
        ∀ q, (t.core k).g q = if q = a.rd ∧ q ≠ 0
          then ⟨BitVec.ofNat 32 (((s.advance a.due).coreReg k a.addr).getD 0), false⟩ else (s.core k).g q) ∧
    (a.kind = .xlat → a.rd2 = 0 → a.data.val.toNat < 256 →
      (s.core k).ctl.patchValid.contains (256 * a.addr + a.data.val.toNat) = true →
      ∃ t, exec (.sxAccess k) s = .next t ∧ t.now = a.due ∧ OnlyCore k s t ∧ SxDelivers (s.core k) (t.core k) r ∧
        ∀ q, (t.core k).g q = if q = a.rd ∧ q ≠ 0
          then ⟨(keyGet (s.core k).ctl.patch (256 * a.addr + a.data.val.toNat)).getD 0, false⟩ else (s.core k).g q)

/-- O13. STW stores its word with its poison bit in its own cycle, and CWR of IBANK selects the next bank, unless the host writes the register in that
cycle. Every other byte of memory reads as before, and no register changes (R156, R196, R198, R199). -/
def Obligations.SxStoreEffect : Prop :=
  ∀ (s : State) (k : Nat) (a : SxAcc) (r : List SxAcc), SxAccessNext s k a r →
    (a.kind = .stw → a.addr < 2 ^ 20 → a.data.poison = false → s.slotFree k 10 a.due →
      (s.core k).narrowCode (a.addr / 64) = none → (s.core k).ctrlEntry (a.addr / 64) = none →
      Memory.wf (s.core k).mem.scr.cells = true →
      ∃ t, exec (.sxAccess k) s = .next t ∧ t.now = a.due ∧ OnlyCore k s t ∧
        (t.core k).scrWord a.addr = a.data ∧
        (∀ w, w ≠ a.addr → (t.core k).scrWord w = (s.core k).scrWord w) ∧
        (t.core k).mem.stock = (s.core k).mem.stock ∧ (t.core k).mem.acc = (s.core k).mem.acc ∧
        (t.core k).mem.imem = (s.core k).mem.imem ∧ Memory.wf (t.core k).mem.scr.cells = true ∧
        (t.core k).sx = { (s.core k).sx with acc := r }) ∧
    (a.kind = .cwr → a.addr = 0x3000 → (s.advance a.due).hostWrote k 0x3000 = false →
      ∃ t, exec (.sxAccess k) s = .next t ∧ t.now = a.due ∧ OnlyCore k s t ∧
        t.core k = { s.core k with ctl := { (s.core k).ctl with bankNext := a.data.val.toNat / 2 % 2 }
                                   sx := { (s.core k).sx with acc := r } })

/-- O14. AWAIT, HOPEN and HCLOSE start their wait: the stream stands past them and waits until a due cycle, HOPEN's register waits for the handle, and
no register and no memory changes. SX_SEND issues the end of the stream (R145, R203, R204, R206). -/
def Obligations.SxWaitsStart : Prop :=
  ∀ (s : State) (k i w u : Nat), i + 1 < 8192 → (s.core k).sx.g.length = 32 →
    (∀ e, SxIssues s k i w u [awRa w, awRb w] → xOpc w = 0x2B → ((s.core k).g (awRa w)).poison = false →
      ((s.core k).g (awRb w)).poison = false →
      (s.core k).usable (((s.core k).g (awRa w)).val.toNat % 65536) kindStatus = some e →
      ∃ t, exec (.await k) s = .next t ∧ t.now = u ∧ OnlyCore k s t ∧ SxStands (s.core k) (t.core k) (i + 1) ∧
        (t.core k).sx.wait = some { kind := .await, handle := ((s.core k).g (awRa w)).val.toNat % 65536, line := e.ctrl
                                    target := ((s.core k).g (awRb w)).val, sig := awSig w, index := i, refused := false
                                    due := u + s.ctESX, ends := [] }) ∧
    (SxIssues s k i w u [xRa w] → xOpc w = 0x30 → ((s.core k).g (xRa w)).poison = false →
      (s.core k).narrowIssue ((s.core k).g (xRa w)).val.toNat = none →
      ∃ t, exec (.hopen k) s = .next t ∧ t.now = u ∧ OnlyCore k s t ∧ SxStands (s.core k) (t.core k) (i + 1) ∧
        (t.core k).sx.wait = some { kind := .hopen, handle := ((s.core k).g (xRa w)).val.toNat, rd := xRd w, index := i
                                    refused := false, due := u + s.ctESX, ends := [] } ∧
        (t.core k).sx.readable [xRd w] = (xRd w == 0)) ∧
    (SxIssues s k i w u [xRa w] → xOpc w = 0x31 → ((s.core k).g (xRa w)).poison = false →
      ∃ t, exec (.hclose k) s = .next t ∧ t.now = u ∧ OnlyCore k s t ∧ SxStands (s.core k) (t.core k) (i + 1) ∧
        (t.core k).sx.wait = some { kind := .hclose, handle := ((s.core k).g (xRa w)).val.toNat % 65536, now := w.testBit 0
                                    index := i, refused := false, due := u + s.ctESX + 1, ends := [] }) ∧
    (SxIssues s k i w u [] → xOpc w = 0x3F →
      ∃ t, exec (.sxSend k) s = .next t ∧ t.now = u ∧ OnlyCore k s t ∧
        t.core k = { s.core k with sxs := { (s.core k).sxs with state := .run, sendAt := some u, sendOwed := { index := i } } })

/-- O15. AWAIT_COMPLETE reads the status word: when the condition of R203 holds the wait ends with its signal, else the stream waits in WAIT_ARR.
HCLOSE_COMPLETE closes the entry, or leaves an owner entry with outstanding credit CLOSING until it has settled (R203, R204, R297, R313 to R315). -/
def Obligations.SxWaitsEnd : Prop :=
  ∀ (s : State) (k : Nat) (x : SxWait), SxWaitNext s k x →
    (∀ n f, x.kind = .await → (s.core k).ctl.stopAt = none → s.slotFree k 10 x.due → x.waitTick = none →
      (s.core k).alive x.handle = true → ((s.core k).handle (hIndex x.handle)).changedAt ≠ x.due →
      (s.core k).mem.scr.flaw (64 * x.line) = none → (s.core k).mem.scr.flaw (64 * x.line + 1) = none →
      n = (((s.core k).scrWord (64 * x.line)).val - x.target).toNat →
      f = ((s.core k).scrWord (64 * x.line + 1)).val.toNat / 65536 % 32 →
      ∃ t, exec (.awaitComplete k) s = .next t ∧ t.now = x.due ∧ OnlyCore k s t ∧
        (n < 2 ^ 31 ∨ f ≠ 0 → SxWaitOver (s.core k) (t.core k) x) ∧
        (2 ^ 31 ≤ n → f = 0 →
          (t.core k).sxs = { (s.core k).sxs with state := .waitArr } ∧ (t.core k).sync = (s.core k).sync ∧
            (t.core k).sx = { (s.core k).sx with wait := some { x with readAt := x.due, waitTick := some t.tick } })) ∧
    (∀ h, x.kind = .hclose → (s.core k).usable x.handle (fun _ => true) = some h →
      (isOwner h.kind || isSender h.kind) = true →
      ∃ t, exec (.hcloseComplete k) s = .next t ∧ t.now = x.due ∧ OnlyCore k s t ∧ SxWaitOver (s.core k) (t.core k) x ∧
        (∀ j, j ≠ x.handle % 4096 → (t.core k).handle j = (s.core k).handle j) ∧
        (t.core k).handle (x.handle % 4096) =
          (if isOwner h.kind = false then (h.touch x.due).shut false
          else if h.kind = kRdwinOwn ∨ (x.now = true ∧ s.strict = false) then (h.touch x.due).shut true
          else if h.settled then (h.touch x.due).shut false
          else { h with state := .closing }) ∧
        ((t.core k).chan.yields = if isOwner h.kind then (s.core k).chan.yields
          else if h.kind = kRdwinReq then ((s.core k).chan.yields.filter fun y => y.handle != x.handle) ++ [⟨x.handle, h⟩]
          else (s.core k).chan.yields ++ [⟨x.handle, h⟩]))

/-- O16. A HOPEN in flight reads its descriptor in its access cycle (SX_ACCESS); in the next it opens the entry that the descriptor and the
translation of its names make, if nothing refuses it, and writes the control line as zero in a slot of the SX port; HOPEN_COMPLETE puts the handle
into the register of the instruction and the stream runs on. Nothing else changes (R204, R295 to R297, R301). -/
def Obligations.HandleOpens : Prop :=
  ∀ (s : State) (k : Nat) (x : SxWait), SxWaitNext s k x → x.kind = .hopen →
    (x.stage = .read → x.handle < 2 ^ 20 → s.plainRead k x.due (64 * (x.handle / 64)) 64 →
      ∃ t, exec (.sxAccess k) s = .next t ∧ t.now = x.due ∧ OnlyCore k s t ∧
        t.core k = { s.core k with
          mem := (s.core k).mem.claim 10 x.due [x.handle / 64 % 16]
          sx := { (s.core k).sx with wait := some { x with
            stage := .write, due := x.due + 1
            words := ((List.range 64).map fun j => (s.core k).scrWord (64 * (x.handle / 64) + j)).drop (x.handle % 64) } } }) ∧
    (∀ e i, x.stage = .write → s.openRefusal k x.handle x.words = none → e = s.newEntry k x.words → i = (parseDesc x.words).index →
      (kindStatus e.kind = true → s.slotFree k 10 x.due) → Memory.wf (s.core k).mem.scr.cells = true →
      ∃ t, exec (.sxAccess k) s = .next t ∧ t.now = x.due ∧ OnlyCore k s t ∧
        (t.core k).handle i = e ∧ (∀ j, j ≠ i → (t.core k).handle j = (s.core k).handle j) ∧
        (∀ w, (t.core k).scrWord w = if kindStatus e.kind ∧ w / 64 = e.ctrl then ⟨0, false⟩ else (s.core k).scrWord w) ∧
        (t.core k).mem.stock = (s.core k).mem.stock ∧ (t.core k).mem.acc = (s.core k).mem.acc ∧
        (t.core k).mem.imem = (s.core k).mem.imem ∧ (t.core k).sxs = (s.core k).sxs ∧
        (t.core k).sx = { (s.core k).sx with wait := some { x with
          stage := .done, due := x.due + 3, result := ⟨BitVec.ofNat 32 (i + 4096 * e.gen), false⟩ } }) ∧
    (x.stage = .done → x.rd < (s.core k).sx.g.length →
      ∃ t, exec (.hopenComplete k) s = .next t ∧ t.now = x.due ∧ OnlyCore k s t ∧
        (∀ q, (t.core k).g q = if q = x.rd ∧ q ≠ 0 then x.result else (s.core k).g q) ∧
        (t.core k).mem = (s.core k).mem ∧ (t.core k).chan = (s.core k).chan ∧ (t.core k).sx.wait = none ∧
        (t.core k).sxs = { (s.core k).sxs with
          ready := x.due + 1, state := if (s.core k).sxs.state = .waitArr then .run else (s.core k).sxs.state })

/-! ## The matrix engine -/

/-- O17. TLOAD issues and its buffer is LOADING until the load's last port cycle, after the load before it and the last row entry of its buffer; MMA
issues and its rows enter from E cycles later on, after the load of its buffer, and WRITERS of its bank rises (R92, R96). -/
def Obligations.MxIssue : Prop :=
  ∀ (s : State) (k i w u : Nat),
    (∀ (b f at' : Nat), EngIssues s k .mx i w u (s.core k).mxs.ready → hOpc w = 1 → b = w % 2 → f = w / 2 % 8 →
      (s.core k).readCode true (w / 16 % 2 ^ 19) (tileLines f) = none →
      at' = max (u + 1) (max (after (s.core k).mx.lastPort) (after ((s.core k).mx.lastEntry b))) →
      ∃ t, exec (.tload k) s = .next t ∧ t.now = u ∧ OnlyCore k s t ∧
        t.core k = (((s.core k).engGoes .mx i w u).modStream .mx fun x => { x with ready := u + 1 }).modMx fun m =>
          ({ (m.setTile b { m.tile b with state := .loading, fmt := f }).setLastDone b (at' + tilePorts f - 1) with
            ops := m.ops ++ [.load { owed := owedOf w i, buf := b, fmt := f, line := w / 16 % 2 ^ 19, refused := false
                                     start := at', ports := tilePorts f }]
            lastPort := some (at' + tilePorts f - 1), tloadAt := some u } : Mx)) ∧
    (∀ (o : MmaOp) (p2 first : Nat), EngIssues s k .mx i w u (s.readyMma k) → hOpc w = 2 →
      mmaInconsistent ((s.core k).mx.tile (mmBuf w)).fmt w = none →
      rowInterval2 ((s.core k).mx.tile (mmBuf w)).fmt (mmAfmt w) = some p2 →
      (s.core k).mmaRefusal u w = none → (s.core k).heads = [] → ((s.core k).stampOf (mmBank w)).readersSeen u = 0 →
      first = max (u + s.ctE) (after ((s.core k).mx.lastDone (mmBuf w))) →
      o = { owed := owedOf w i, issue := u, buf := mmBuf w, afmt := mmAfmt w, aline := mmAline w, aslot := mmAslot w
            scline := mmScline w, scoff := mmScoff w, count := mmCount w, bank := mmBank w, drow := mmDrow w
            ovw := mmMode w, bin := binRef (mmAline w) (mmSrc w) (hAdv w), refused := false, stamp := false
            first := first, p2 := p2 } →
      ∃ t, exec (.mma k) s = .next t ∧ t.now = u ∧ OnlyCore k s t ∧
        t.core k = (((s.core k).engGoes .mx i w u).modStream .mx fun x =>
            { x with ready := first - s.ctE + ceilDiv (mmCount w * p2) 2 }).modMx fun m =>
          ({ m with
            stamps := modAt m.stamps (mmBank w) fun x => { x with writers := x.writers + 1 }
            ops := m.ops ++ [.mma { o with fetch := o.reads }], tloadAt := none } : Mx).setLastEntry (mmBuf w)
              (first + (mmCount w - 1) * p2 / 2))

/-- O18. TLOAD_COMPLETE of a load from clean stock lines: its buffer is READY with the format of the load, and its bytes are those of the stock from
the line on (R82, R83, R85). -/
def Obligations.TileLoads : Prop :=
  ∀ (s : State) (k : Nat) (l : LoadOp), s.overs = [] → headLoad (s.core k).mx.ops [] = some l → l.refused = false → l.owed.ends = [] →
    (s.core k).sync.roomFor (max s.now (l.start + l.ports - 1)) l.owed = true →
    loadPending (dropLoad (s.core k).mx.ops) l.buf = false →
    (l.fmt = 3 → ∀ b, b < 4096 → byteInvalid (cellGet (s.core k).mem.stock.cells (256 * l.line + b)) = false) →
    (∀ j, j < tileLines l.fmt → (s.core k).readsZero true (l.line + j) = false) →
    (∀ j, j < 32 * tileLines l.fmt → (s.core k).mem.stock.flaw (32 * l.line + j) = none ∧
      (s.core k).mem.stock.bad (32 * l.line + j) = false) →
    ∃ t, exec (.tloadComplete k) s = .next t ∧ t.now = max s.now (l.start + l.ports - 1) ∧ OnlyCore k s t ∧
      ((t.core k).mx.tile l.buf).state = .ready ∧ ((t.core k).mx.tile l.buf).poison = false ∧
      ((t.core k).mx.tile l.buf).fmt = ((s.core k).mx.tile l.buf).fmt ∧ ((t.core k).mx.tile l.buf).held = l.fmt ∧
      (∀ b, b < 256 * tileLines l.fmt →
        cellGet ((t.core k).mx.tile l.buf).cells b = cellGet (s.core k).mem.stock.cells (256 * l.line + b)) ∧
      (∀ b, b < 2 → l.buf < 2 → b ≠ l.buf → (t.core k).mx.tile b = (s.core k).mx.tile b) ∧
      (t.core k).mx.ops = dropLoad (s.core k).mx.ops ∧ (t.core k).mem = (s.core k).mem ∧
      (t.core k).sync = ((s.core k).completed (max s.now (l.start + l.ports - 1)) l.owed).sync

/-- O19. MMA_ROW_ENTRY: the next row enters with the contributions of R38; the tally of R43 checks a row without poison, and a row that fails it is
poisoned, counts in MX_TALLY and records 0x0140; MX_ROWS counts the row (R86, R91, R100). -/
def Obligations.MmaRowEnters : Prop :=
  ∀ (s : State) (k u : Nat) (o : MmaOp) (t0 : Tile) (line sline : Nat) (sc da : List (PWord 32)),
    s.overs = [] → headEntry (s.core k).mx.ops [] = some o → (s.core k).heads = [] → o.stamp = false →
    (∀ x, o.slot = some x → x.failed = false) →
    line = (match o.slot with | some x => x.base | none => o.aline) + (o.aslot + o.entered) / rowsPerLine o.afmt →
    sline = o.scline + (o.scoff + o.entered) / 64 →
    gotLine o.got .data (line : Int) = some da → gotLine o.got .scale (sline : Int) = some sc →
    t0 = (s.core k).mx.tile o.buf → u = max s.now (o.enterAt o.entered) →
    ∃ t, exec (.mmaRowEntry k) s = .next t ∧ t.now = u ∧ OtherCores k s t ∧
      ({ t.core k with mx := (s.core k).mx } : Core) = s.core k ∧
      (∃ p, (t.core k).mx = { (s.core k).mx with
          rows := (s.core k).mx.rows + 1
          tally := (t.core k).mx.tally
          ops := modMma (fun x => !x.refused && x.entered != x.count) (fun x => { x with
            entered := x.entered + 1
            got := x.got.filter fun g => g.line ≥ (if g.what == .scale then (sline : Int) else (line : Int))
            rows := x.rows ++ [{ contrib := o.contribs t0 sc da, poison := p }] }) (s.core k).mx.ops } ∧
        (o.carries t0 sc da = true → p = true) ∧
        (o.carries t0 sc da = false → p = (tallyLhs (o.contribs t0 sc da) != tallyRhs t0.checks (o.acts da) (o.grainScales sc)))) ∧
      (o.carries t0 sc da = true ∨ tallyLhs (o.contribs t0 sc da) = tallyRhs t0.checks (o.acts da) (o.grainScales sc) →
        OnlyCore k s t ∧ (t.core k).mx.tally = (s.core k).mx.tally) ∧
      (o.carries t0 sc da = false → tallyLhs (o.contribs t0 sc da) ≠ tallyRhs t0.checks (o.acts da) (o.grainScales sc) →
        Recorded s t 0x0140 ∧ (t.core k).mx.tally = satInc (s.core k).mx.tally 1)

/-- O20. MMA_ROW_WRITE: the oldest row that has entered is written D cycles after its entry, each lane its contribution or acc_add of the lane and its
contribution; no other row and no other memory changes. MMA_COMPLETE: with its last row written an MMA leaves, WRITERS of its bank falls, and its
signals are given (R39, R92, R93, R95, R96, R102). -/
def Obligations.MmaRowsWritten : Prop :=
  (∀ (s : State) (k u dr : Nat) (o : MmaOp) (row : MmaRow) (rest : List MmaRow) (old : List Int),
    s.overs = [] → headWrite (s.core k).mx.ops = some o → o.rows = row :: rest → row.contrib.length = 128 →
    (∀ v ∈ row.contrib, s40Min ≤ v ∧ v ≤ s40Max) → row.poison = false → o.stamp = false →
    dr = o.drow + o.written → dr < 256 → o.bank < 4 → (s.core k).accPoison o.bank dr = false →
    Memory.wf (s.core k).mem.acc.cells = true → old = (s.core k).accLanes o.bank dr → u = max s.now (o.enterAt o.written + s.ctD) →
    ∃ t, exec (.mmaRowWrite k) s = .next t ∧ t.now = u ∧ OnlyCore k s t ∧
      (t.core k).accLanes o.bank dr = (if o.ovw then row.contrib else List.zipWith (fun v c => (accAdd v c).1) old row.contrib) ∧
      (t.core k).accPoison o.bank dr = false ∧
      (∀ b r, r < 256 → (b ≠ o.bank ∨ r ≠ dr) → (t.core k).accLanes b r = (s.core k).accLanes b r ∧
        (t.core k).accPoison b r = (s.core k).accPoison b r) ∧
      (t.core k).mem.scr = (s.core k).mem.scr ∧ (t.core k).mem.stock = (s.core k).mem.stock ∧
      (t.core k).mem.imem = (s.core k).mem.imem ∧
      (t.core k).mx.satAcc = satInc (s.core k).mx.satAcc
        (if o.ovw then 0 else ((List.zipWith (fun v c => (accAdd v c).2) old row.contrib).filter id).length) ∧
      (t.core k).mx.ops = modMma (fun x => !x.rows.isEmpty) (fun x => { x with written := x.written + 1, rows := rest }) (s.core k).mx.ops) ∧
  (∀ (s : State) (k u : Nat) (o : MmaOp), s.overs = [] → headMma (s.core k).mx.ops = some o → o.refused = false → o.written = o.count →
    o.bin = none → o.owed.ends = [] → u = max s.now (o.enterAt (o.count - 1) + s.ctD) →
    (s.core k).sync.roomFor u o.owed = true →
    ∃ t, exec (.mmaComplete k) s = .next t ∧ t.now = u ∧ OnlyCore k s t ∧
      t.core k = (({ s.core k with mx := { (s.core k).mx with
        ops := dropMma (s.core k).mx.ops
        stamps := modAt (s.core k).mx.stamps o.bank fun x => { x with writers := x.writers - 1, writeFall := some u } } } : Core).completed u o.owed))

/-! ## The data mover -/

/-- O21. An operation of the data mover that nothing refuses issues and stands in flight; DPAT sets the fill pattern. DX_COMPLETE: an operation that
has moved its units leaves, WRITERS of a DACW's bank falls, its signals are given (R174, R176 to R180). -/
def Obligations.DataMover : Prop :=
  (∀ (s : State) (k i w u : Nat), EngIssues s k .dx i w u (s.core k).dxs.ready →
    (∀ row ∈ dxRows, ∀ o, hOpc w = row.2.1 → o = row.2.2 (s.core k) w (owedOf w i) → (s.core k).dxRefusal u o = none →
      (o.kind = .acw → ((s.core k).stampOf o.bank).readersSeen u = 0) →
      ∃ t, exec (row.1 k) s = .next t ∧ t.now = u ∧ OnlyCore k s t ∧
        t.core k = ((s.core k).engGoes .dx i w u).dxGoes o u) ∧
    (hOpc w = 1 → ((s.core k).engSync w u).roomFor u (owedOf w i) = true →
      ∃ t, exec (.dpat k) s = .next t ∧ t.now = u ∧ OnlyCore k s t ∧
        t.core k = ((((s.core k).engGoes .dx i w u).modStream .dx fun x => { x with ready := u + 1 }).modDx fun d =>
          { d with fillpat := BitVec.ofNat 32 w }).completed u (owedOf w i))) ∧
  (∀ (s : State) (k t u : Nat) (o : DxOp), s.overs = [] → firstDx s.ctEDX s.ctDDX (s.core k).dx.ops = some (t, o) → o.refused = false →
    o.bin = none → o.owed.ends = [] → u = max s.now t → (s.core k).sync.roomFor u o.owed = true →
    ∃ v, exec (.dxComplete k) s = .next v ∧ v.now = u ∧ OnlyCore k s v ∧
      v.core k = (({ s.core k with
        dx := { (s.core k).dx with ops := dropDx o (s.core k).dx.ops }
        mx := if o.kind = .acw then { (s.core k).mx with stamps := modAt (s.core k).mx.stamps o.bank fun x =>
          { x with writers := x.writers - 1, writeFall := some u } } else (s.core k).mx } : Core).completed u o.owed))

/-- O22. DX_UNIT_TRANSFER. A unit of DFILL writes the pattern to its lines of the scratchpad; a unit of DLD is read from the stock and written to the
scratchpad, a unit of DST written to the stock. Every other word of memory reads as before (R175 to R179). -/
def Obligations.DxMoves : Prop :=
  ∀ (s : State) (k t : Nat) (wr : Bool) (o : DxOp),
    s.overs = [] → nextTransfer s.ctEDX s.ctDDX (s.core k).dx.ops = some (t, wr, o) → s.now ≤ t → o.bin = none → (s.core k).heads = [] →
    s.slotFree k 7 t →
    ((s.core k).mx.portCycles.find? fun x => decide (x.1 ≤ t) && decide (t ≤ x.2)) = none →
    Memory.wf (s.core k).mem.scr.cells = true → Memory.wf (s.core k).mem.stock.cells = true →
    (wr = true → o.kind = .fill → o.stock = false →
      ∃ v scr, exec (.dxUnitTransfer k) s = .next v ∧ v.now = t ∧
        OnlyMem k s v scr (s.core k).mem.stock ((s.core k).modDx fun d =>
          { d with ops := modDxOp (· == o) (fun _ => { o with wr := o.wr + 1, buf := o.buf.drop 1 }) d.ops }) ∧
        ∀ w, (v.core k).scrWord w =
          if 64 * (o.dst + 4 * o.wr) ≤ w ∧ w < 64 * (o.dst + 4 * o.wr + min 4 (o.count - 4 * o.wr)) then ⟨o.pattern, false⟩
          else (s.core k).scrWord w) ∧
    (wr = false → o.kind = .ld → (s.core k).readsZero true (o.src + o.rd) = false →
      (∀ j, j < 32 → (s.core k).mem.stock.flaw (32 * (o.src + o.rd) + j) = none) →
      ∃ v, exec (.dxUnitTransfer k) s = .next v ∧ v.now = t ∧ OnlyCore k s v ∧
        v.core k = (s.core k).modDx fun d => { d with ops := modDxOp (· == o) (fun _ => { o with
          rd := o.rd + 1, buf := o.buf ++ [[((List.range 32).map fun j =>
            (s.core k).stockWord (32 * (o.src + o.rd) + j)).flatMap halves]] }) d.ops }) ∧
    (∀ l rest, wr = true → o.kind = .ld → o.buf = [l] :: rest → l.length = 64 → (∀ x ∈ l, x.poison = false) →
      ∃ v scr, exec (.dxUnitTransfer k) s = .next v ∧ v.now = t ∧
        OnlyMem k s v scr (s.core k).mem.stock ((s.core k).modDx fun d =>
          { d with ops := modDxOp (· == o) (fun _ => { o with wr := o.wr + 1, buf := rest }) d.ops }) ∧
        ∀ w, (v.core k).scrWord w = if w / 64 = o.dst + o.wr then l.getD (w % 64) ⟨0, false⟩ else (s.core k).scrWord w) ∧
    (∀ l rest, wr = true → o.kind = .st → o.buf = [l] :: rest → l.length = 64 → (∀ x ∈ l, x.poison = false) →
      ∃ v stock, exec (.dxUnitTransfer k) s = .next v ∧ v.now = t ∧
        OnlyMem k s v (s.core k).mem.scr stock ((s.core k).modDx fun d =>
          { d with ops := modDxOp (· == o) (fun _ => { o with wr := o.wr + 1, buf := rest }) d.ops }) ∧
        ∀ w, halves ((v.core k).stockWord w) = if w / 32 = o.dst + o.wr
          then [l.getD (2 * (w % 32)) ⟨0, false⟩, l.getD (2 * (w % 32) + 1) ⟨0, false⟩] else halves ((s.core k).stockWord w))

/-! ## The vector chain -/

/-- O23. VCFG and VTAB read their lines from the cycle after their issue on (R128); TABLE_LOAD_COMPLETE writes the words read into the slot. -/
def Obligations.VxLoads : Prop :=
  ∀ (s : State) (k : Nat), s.overs = [] → (s.core k).heads = [] →
    (∀ (i w u : Nat) (tab : Bool) (slot line n : Nat), EngIssues s k .vx i w u (s.core k).vxs.ready →
      (hOpc w = 1 ∧ tab = false ∧ slot = w % 8 ∧ line = w / 2 ^ 3 % 2 ^ 14 ∧ n = 1 ∨
        hOpc w = 2 ∧ tab = true ∧ slot = w % 16 ∧ line = w / 2 ^ 4 % 2 ^ 14 ∧ n = w / 2 ^ 18 % 2 + 1) →
      (s.core k).readCode false line n = none →
      ∃ t, exec (if tab then .vtab k else .vcfg k) s = .next t ∧ t.now = u ∧ OnlyCore k s t ∧
        t.core k = (((s.core k).engGoes .vx i w u).modStream .vx fun x => { x with ready := u + n }).modVx fun v =>
          { v with loads := v.loads ++ [{
              owed := owedOf w i, issue := u, tab := tab, slot := slot, lines := n, words := [], refused := false
              fetch := (List.range n).map fun j => { due := u + 1 + j, row := 0, what := .table, line := ((line + j : Nat) : Int) }
              due := max (u + n + 1) (after v.lastExit) }] }) ∧
    (∀ x, firstLoad (s.core k).vx.loads = some x → s.now ≤ x.due → x.owed.ends = [] →
      (s.core k).sync.roomFor x.due x.owed = true → (x.tab = false → lateRun x.slot (s.core k).vx.runs = none) →
      ∃ t, exec (.tableLoadComplete k) s = .next t ∧ t.now = x.due ∧ OnlyCore k s t ∧
        t.core k = ((s.core k).modVx fun v => v.load x).completed x.due x.owed ∧
        (∀ j, x.slot < (if x.tab then (s.core k).vx.tab else (s.core k).vx.cfg).length →
          x.words.length ≤ (if x.tab then 128 else 64) → j < (if x.tab then 128 else 64) →
          ((if x.tab then (t.core k).vx.tab else (t.core k).vx.cfg).getD x.slot {}).word j =
            if j < x.words.length then x.words.getD j ⟨0, false⟩
            else ((if x.tab then (s.core k).vx.tab else (s.core k).vx.cfg).getD x.slot {}).word j))

/-- O24. A VRUN without a bin that nothing refuses issues with the configuration of its slot and the schedule of R127 (R127, R129). -/
def Obligations.VrunIssues : Prop :=
  ∀ (s : State) (k i w u f : Nat) (o : VrunOp), EngIssues s k .vx i w u (s.core k).vxs.ready → hOpc w = 3 →
    (s.core k).heads = [] → (s.core k).vx.loads = [] → w.testBit 50 = false → w.testBit 51 = false →
    o = (s.core k).vrunOp w u (owedOf w i) → (o.cfgPoison = false → cfgBad o.cfg o.src o.sslot o.oslot = none) →
    (o.cfgPoison = false → (s.core k).vrunRefusal u o = none) → f = (s.core k).vrunFirst s.ctEV u o →
    ∃ t, exec (.vrun k) s = .next t ∧ t.now = u ∧ OnlyCore k s t ∧
      t.core k = ((s.core k).engGoes .vx i w u).vrunGoes s.ctEV f o

/-- O25. The next vector of a run from the scratchpad enters in its cycle: the chain makes of its lanes what leaves, the running states, and the
counts of clamped and out-of-range lanes (R117 to R120, R127). -/
def Obligations.VectorEnters : Prop :=
  ∀ (s : State) (k : Nat) (o : VrunOp) (ls : List Lane) (str : List (Int × Bool)) (a : ChainAcc),
    s.overs = [] → (s.core k).vx.runs.find? VrunOp.entering = some o → (s.core k).heads = [] → s.now ≤ o.enterAt →
    o.src ≠ fmtAcc → o.slot = none → o.readBad = false → o.inLanes o.entered = some ls → o.stream o.entered = some str →
    a = runChain { tabs := (s.core k).vx.tab, b := str, snap := o.snap } 0
      { lanes := ls, red := if o.entered = 0 then emptyStates 0 (s.core k).vx.reduce (cChain o.cfg) else (s.core k).vx.reduce }
      (cChain o.cfg) →
    ∃ t, exec (.vrunVectorEntry k) s = .next t ∧ t.now = o.enterAt ∧
      (a.firstOor = none ∨ o.oorSeen = true ∨ o.cfgPoison = true → OnlyCore k s t) ∧
      (∀ l, a.firstOor = some l → o.oorSeen = false → o.cfgPoison = false → Recorded s t 0x0162) ∧ OtherCores k s t ∧
      t.core k = (s.core k).modVx fun v =>
        { v with reduce := a.red, vecs := v.vecs + 1, oor := satInc v.oor a.oor, satOut := satInc v.satOut a.sat
                 runs := updRun VrunOp.entering (fun _ =>
                   { ({ o with got := o.keepLines o.sline o.entered }.emit (o.enterAt + chainLen o.cfg) a) with
                     entered := o.entered + 1, oorSeen := o.oorSeen || a.firstOor.isSome }) v.runs }

/-- O26. VRUN_LINE_WRITE writes the next data line of the oldest run that has one; VRUN_COMPLETE ends a run whose lines are written (R127, R128). -/
def Obligations.VrunEnds : Prop :=
  ∀ (s : State) (k : Nat) (o : VrunOp), s.overs = [] →
    (∀ x rest p ws at', (s.core k).vx.runs.find? ((s.core k).hasWrite s.now) = some o → o.obin = none → o.oslotTaken = none →
      o.outs = x :: rest → o.scaleWords = [] → x.count = false → x.words = ws.zipIdx.map (fun y => (p + y.2, y.1)) → ws ≠ [] →
      (∀ y ∈ ws, y.poison = false) → at' = max x.due ((s.core k).vx.lastOut + 1) → s.now ≤ at' → (s.core k).heads = [] →
      s.slotFree k 5 at' → x.line + o.oline < 8192 → (s.core k).writeCode false (x.line + o.oline) 1 = none →
      Memory.wf (s.core k).mem.scr.cells = true →
      ∃ t scr, exec (.vrunLineWrite k) s = .next t ∧ t.now = at' ∧
        OnlyMem k s t scr (s.core k).mem.stock (((s.core k).raiseHigh false (x.line + o.oline) 1).modVx fun v =>
          { v with lastOut := at', runs := updRun (fun r => r == o) (fun _ => { o with outs := rest, lastWrite := at' }) v.runs }) ∧
        ∀ q, (t.core k).scrWord q = if 64 * (x.line + o.oline) + p ≤ q ∧ q < 64 * (x.line + o.oline) + p + ws.length
          then ws.getD (q - (64 * (x.line + o.oline) + p)) ⟨0, false⟩ else (s.core k).scrWord q) ∧
    (∀ d u, firstDone s.ctEV (s.core k).vx.runs = some (d, o) → o.refused = false → o.sbin = none → o.obin = none →
      o.owed.ends = [] → u = max s.now d → (s.core k).sync.roomFor u o.owed = true →
      ∃ t, exec (.vrunComplete k) s = .next t ∧ t.now = u ∧ OnlyCore k s t ∧
        t.core k = ((s.core k).modVx fun v => { v with runs := dropRun o v.runs }).completed u o.owed)

/-! ## The network engine -/

/-- O27. An NX instruction that nothing refuses issues: its entry numbers the message, and it stands in flight. A send whose packet can leave begins
its reads at once (R183, R187, R301). -/
def Obligations.NxIssues : Prop :=
  ∀ (s : State) (k i w u : Nat) (h : Handle) (row : (Nat → Instr) × Nat × (Nat → Nat → Owed → NxOp)) (o : NxOp) (now : Bool),
    EngIssues s k .nx i w u (s.core k).nxs.ready → (s.core k).heads = [] → row ∈ nxRows → hOpc w = row.2.1 →
    (s.core k).usable (w % 2 ^ 16) o.fits = some h → (s.core k).nxRefusal u o = none →
    o = { row.2.2 w ((s.core k).handle (w % 4096)).ctrl (owedOf w i) with
      issue := u, since := u + s.ctENX, mseq := if hOpc w = 5 then 0 else h.mseq } →
    (s.core k).nx.ops.length < 16 →
    (o.kind = .put → s.nputIncons k w = none) → (o.kind = .tup → s.ntupIncons k w = none) →
    (o.kind = .put ∨ o.kind = .ring ∨ o.kind = .wait → (s.core k).nx.ops = []) →
    (o.kind = .tup → ∀ x ∈ (s.core k).nx.ops, x.issue ≠ u) →
    now = ((s.advance u).modCore k fun c => (c.engGoes .nx i w u).nxStands o h).canLeave k o →
    ∃ t, exec (row.1 k) s = .next t ∧ t.now = u ∧ OnlyCore k s t ∧
      t.core k = ((s.core k).engGoes .nx i w u).nxGoes o h (o.schedule s.ctENX u now)

/-- O28. The next packet of an operation leaves: the router takes it after its source reads, the entry pays its charge, and the operation completes
with its last packet; an NREQ packet reserves the lines of its reply (R187, R305, R311). -/
def Obligations.NxSends : Prop :=
  ∀ (s : State) (k u : Nat) (o : NxOp) (h : Handle) (p : Packet), s.overs = [] → NxAlone s k o →
    (s.core k).usable o.handle isSender = some h → o.silent = false → o.ponly = false → o.bin = none → o.slot = none →
    o.unsent = true → (o.kind = .put ∨ o.kind = .ring → o.words ≠ []) → s.canLeave k o = true →
    u = max s.now (o.issue + s.ctENX + o.slip) → p = s.nxPacket k o h o.body →
    (o.kind ≠ .req → o.sent + 1 = o.packets ∧ o.owed.ends = [] ∧ (s.core k).sync.roomFor u o.owed = true) →
    ∃ t, exec (.nxPacketAccept k) s = .next t ∧
      t = { s with now := u, bar := (s.noteInj p).bar, cores := t.cores
                   mesh := { s.mesh with
                     items := s.mesh.items ++ [s.accepted k p]
                     turns := (s.nxPool k o).elim s.mesh.turns fun x => keyPut s.mesh.turns (10 * x.1 + x.2) (Place.core k).rank } } ∧ OtherCores k s t ∧
      (t.core k).mem = (s.core k).mem ∧
      (∀ j, (t.core k).handle j = if j = o.handle % 4096 then o.after h else (s.core k).handle j) ∧
      (o.kind ≠ .req → (t.core k).nx.ops = [] ∧
        (t.core k).sync = ((s.core k).completed u o.owed).sync ∧ (t.core k).chan.replies = (s.core k).chan.replies) ∧
      (o.kind = .req → (t.core k).nx.ops = [{ o with sent := o.sent + 1, left := o.left + 1, since := u, short := false, words := [] }] ∧
        (t.core k).sync = (s.core k).sync ∧ (t.core k).chan.replies = (s.core k).chan.replies ++
          [{ handle := o.handle, dline := (o.line + 16 * o.sent) % 16384, lines := o.linesAt o.sent, op := o.issue }])

/-- O29. NWAIT_COMPLETE reads the status word: when the condition of R186 holds or a flag is set the wait ends, else the stream waits in WAIT_ARR.
NI_THROTTLE_PERIOD starts the next period with its flit counts zero (R186, R288, R297). -/
def Obligations.NxWaits : Prop :=
  (∀ (s : State) (k u n f : Nat) (o : NxOp), s.overs = [] → NxAlone s k o → o.kind = .wait → o.silent = false → o.waitTick = none → o.bin = none →
    (s.core k).ctl.stopAt = none → u = max s.now (o.issue + s.ctENX + o.slip) → s.slotFree k 8 u → (s.core k).alive o.handle = true →
    ((s.core k).handle (hIndex o.handle)).changedAt ≠ u →
    (s.core k).mem.scr.flaw (64 * o.line) = none → (s.core k).mem.scr.flaw (64 * o.line + 1) = none →
    n = (((s.core k).scrWord (64 * o.line)).val - o.target).toNat → f = ((s.core k).scrWord (64 * o.line + 1)).val.toNat / 65536 % 32 →
    o.owed.ends = [] → (s.core k).sync.roomFor u o.owed = true →
    ∃ t, exec (.nwaitComplete k) s = .next t ∧ t.now = u ∧ OnlyCore k s t ∧ (t.core k).chan = (s.core k).chan ∧
      (t.core k).mem.scr = (s.core k).mem.scr ∧
      (n < 2 ^ 31 ∨ f ≠ 0 → (t.core k).nx.ops = [] ∧ (t.core k).nxs = { (s.core k).nxs with state := .run, ready := u + 1 } ∧
        (t.core k).sync = ((s.core k).completed u o.owed).sync) ∧
      (2 ^ 31 ≤ n → f = 0 → (t.core k).nx.ops = [{ o with readAt := u, waitTick := some t.tick }] ∧
        (t.core k).nxs = { (s.core k).nxs with state := .waitArr } ∧ (t.core k).sync = (s.core k).sync)) ∧
  (∀ (s : State) (k p : Nat), s.overs = [] → (s.core k).ctl.attached = true → (s.core k).nx.ops = [] →
    p = (s.core k).nx.throttle.toNat / 2 ^ 16 % 2 ^ 10 + 1 →
    ∃ t n, exec (.niThrottlePeriod k) s = .next t ∧ t.now = s.now + (p - s.coreCycle (s.core k) % p) ∧ OnlyCore k s t ∧
      t.core k = (s.core k).modNx fun x => { x with period := n, reqFlits := 0, fwdFlits := 0 })

/-- O30. The watchdogs. CREDIT_WATCHDOG records 0x0418 for a send that has waited 2^SHIFT cycles, which completes unsent; ARRIVAL_WATCHDOG records
0x0419 for a wait of NX or SX that has lasted 2^SHIFT ticks, which ends (R319, R320). -/
def Obligations.ChannelWatchdogs : Prop :=
  ∀ (s : State) (k : Nat), s.overs = [] →
    (∀ o h c u, NxAlone s k o → (s.core k).sender o.handle = some h → o.unsent = true → o.kind ≠ .req → o.bin = none →
      h.credit < o.charge h o.sent → (s.core k).chan.creditShift ≠ 0 →
      c = max (s.core k).chan.creditFrom o.since →
      u = max s.now (c + 2 ^ watchShift (s.core k).chan.creditShift.toNat - 1 - (s.core k).chan.creditCount) →
      o.owed.ends = [] → (s.core k).sync.roomFor (u + 1) o.owed = true →
      ∃ t, exec (.creditWatchdog k) s = .next t ∧ t.now = u + 1 ∧ OtherCores k s t ∧ Recorded s t 0x0418 ∧
        (t.core k).nx.ops = [] ∧ (t.core k).chan = { (s.core k).chan with creditCount := 0, creditFrom := max (s.core k).chan.creditFrom (u + 1) } ∧
        (t.core k).mem = (s.core k).mem ∧ (t.core k).sync = ((s.core k).completed (u + 1) o.owed).sync) ∧
    (∀ o τ, (s.core k).nx.ops = [o] → o.kind = .wait → o.waitTick = some τ → o.bin = none → (s.core k).chan.arriveShift ≠ 0 →
      o.owed.ends = [] → (s.core k).sync.roomFor (s.advanceTick (τ + 2 ^ watchShift (s.core k).chan.arriveShift.toNat)).now o.owed = true →
      ∃ t, exec (.arrivalWatchdog k .nx) s = .next t ∧ OtherCores k s t ∧ Recorded s t 0x0419 ∧
        t.now = (s.advanceTick (τ + 2 ^ watchShift (s.core k).chan.arriveShift.toNat)).now ∧
        (t.core k).nx.ops = [] ∧ (t.core k).nxs = { (s.core k).nxs with state := .run, ready := t.now + 1 } ∧
        (t.core k).chan = (s.core k).chan ∧ (t.core k).mem = (s.core k).mem) ∧
    (∀ x τ, (s.core k).sx.wait = some x → x.waitTick = some τ → (s.core k).chan.arriveShift ≠ 0 → x.ends = [] →
      (s.core k).sync.room x.sig = true →
      ∃ t, exec (.arrivalWatchdog k .sx) s = .next t ∧ OtherCores k s t ∧ Recorded s t 0x0419 ∧
        t.now = (s.advanceTick (τ + 2 ^ watchShift (s.core k).chan.arriveShift.toNat)).now ∧
        (t.core k).sx = { (s.core k).sx with wait := none } ∧ (t.core k).chan = (s.core k).chan ∧ (t.core k).mem = (s.core k).mem)

/-! ## Arrivals -/

/-- O31. A PUT, TUP or RING that passes the steps of R303 is placed: its words are written where its header says, RECEIVED of its slot rises by its
charge, and the last packet of a message counts in the status word (R303 to R305, R310). -/
def Obligations.DataArrives : Prop :=
  ∀ (s : State) (i k : Nat) (p : Packet) (h e : Handle), PacketNext s i k p h → h.stock = false → e = h.took s p.chan →
    (s.core k).writeCode false (h.base + (p.chan.extent h).1) (p.chan.extent h).2 = none →
    (h.ctrl < h.base + (p.chan.extent h).1 ∨ h.base + (p.chan.extent h).1 + (p.chan.extent h).2 ≤ h.ctrl) →
    (p.chan.op = opPut → p.chan.acc = false → (∀ l ∈ p.linesOf, l.length = 64 ∧ ∀ x ∈ l, x.poison = false) →
      ∃ t, exec (.put i) s = .next t ∧ PacketEnds s t i k p ∧ (∀ j, (t.core k).handle j = if j = p.chan.tidx then e else (s.core k).handle j) ∧
        tookWord (s.core k) (t.core k) p.chan e fun w => if 64 * (h.base + p.chan.off) ≤ w ∧ w < 64 * (h.base + p.chan.off + (p.chan.n + 1))
          then some ((p.linesOf.getD (w / 64 - (h.base + p.chan.off)) []).getD (w % 64) ⟨0, false⟩) else none) ∧
    (p.chan.op = opTup → (∀ x ∈ p.tuple, x.poison = false) → p.chan.off % 32 + p.chan.n < 32 →
      ∃ t, exec (.tup i) s = .next t ∧ PacketEnds s t i k p ∧ (∀ j, (t.core k).handle j = if j = p.chan.tidx then e else (s.core k).handle j) ∧
        tookWord (s.core k) (t.core k) p.chan e fun w => if 64 * h.base + 2 * p.chan.off ≤ w ∧ w < 64 * h.base + 2 * p.chan.off + 2 * (p.chan.n + 1)
          then some (p.tuple.getD (w - (64 * h.base + 2 * p.chan.off)) ⟨0, false⟩) else none) ∧
    (p.chan.op = opRing → h.sharedRing = false → p.chan.skip = 0 → (∀ l ∈ p.linesOf, l.length = 64 ∧ ∀ x ∈ l, x.poison = false) →
      ∃ t, exec (.ring i) s = .next t ∧ PacketEnds s t i k p ∧ (∀ j, (t.core k).handle j = if j = p.chan.tidx then e else (s.core k).handle j) ∧
        tookWord (s.core k) (t.core k) p.chan e fun w => if 64 * (h.base + p.chan.off) ≤ w ∧ w < 64 * (h.base + p.chan.off + (p.chan.n + 1))
          then some (if w < 64 * (h.base + p.chan.off) + 2
            then (recordWord p.chan.mseq p.chan.n 0 p.chan.slot (p.chan.charge h) (h.count + 1)).getD (w - 64 * (h.base + p.chan.off)) ⟨0, false⟩
            else (p.linesOf.getD (w / 64 - (h.base + p.chan.off)) []).getD (w % 64) ⟨0, false⟩) else none)

/-- O32. A REQ that passes is answered with the lines of its window, and counts; an RPL writes the lines it was asked for, gives its reservation back,
and completes the NREQ with its last reply (R311, R312). -/
def Obligations.ReadsReturn : Prop :=
  ∀ (s : State) (i k : Nat) (p : Packet),
    (∀ h ls e, PacketNext s i k p h → p.chan.op = opReq → h.stock = false → kindStatus h.kind = true → h.state ≠ .closed →
      (s.core k).readCode false (h.base + p.chan.off) (p.chan.n + 1) = none →
      (∀ j, j ≤ p.chan.n → (s.core k).readsZero false (h.base + p.chan.off + j) = false) →
      (∀ w, w < 64 * (p.chan.n + 1) → (s.core k).mem.scr.flaw (64 * (h.base + p.chan.off) + w) = none) →
      ls = (List.range (p.chan.n + 1)).map (fun j => (List.range 64).map fun x => (s.core k).scrWord (64 * (h.base + p.chan.off + j) + x)) →
      e = { h.touch s.now with count := h.count + 1, seq := s.seqOf h p.chan.mseq } →
      ∃ t r, exec (.req i) s = .next t ∧ OtherCores k s t ∧ t.mesh.items = s.mesh.items.eraseIdx i ++ [{ pkt := r, src := .core k }] ∧
        r = chanPacket clsRpl 0 p.src p.chan.score s.route.me (s.adaptFor clsRpl)
          { op := opRpl, score := k, tidx := hIndex p.chan.rhandle, tgen := hGen p.chan.rhandle, mseq := p.chan.mseq, pkt := p.chan.pkt
            last := p.chan.last, err := false, off := p.chan.dline, n := p.chan.n, dline := p.chan.dline, rhandle := p.chan.rhandle }
          (ls.flatMap linePayload) ∧
        (∀ j, (t.core k).handle j = if j = p.chan.tidx then e else (s.core k).handle j) ∧
        tookWord (s.core k) (t.core k) { p.chan with last := true } e fun _ => none) ∧
    (∀ r ls o h e, s.group (groupOf k) = .on → (s.core k).ctl.attached = true → s.bar.takes = true → s.bar.due < s.now → (s.core k).heads = [] →
      Memory.wf (s.core k).mem.scr.cells = true → p.chan.op = opRpl → p.chan.err = false →
      Stands s i (.core k) p → (s.core k).replyFor p.chan = some r → (s.core k).nx.ops = [o] → o.kind = .req → o.issue = r.op → o.left = 1 → o.sent = o.packets →
      o.bin = none → o.slot = none → o.owed.ends = [] → (s.core k).sync.roomFor s.now o.owed = true →
      (s.core k).handle (r.handle % 4096) = h → h.state ≠ .closed → h.gen = r.handle / 4096 % 16 → kindStatus h.kind = true →
      e = { h.touch s.now with count := h.count + 1, seq := s.seqOf h o.mseq.toNat } →
      (s.core k).writeCode false r.dline (p.chan.n + 1) = none → (h.ctrl < r.dline ∨ r.dline + (p.chan.n + 1) ≤ h.ctrl) →
      ls = (List.range (p.chan.n + 1)).map (fun j => p.lineAt j) → (∀ l ∈ ls, l.length = 64 ∧ ∀ x ∈ l, x.poison = false) →
      ∃ t, exec (.rpl i) s = .next t ∧ PacketEnds s t i k p ∧
        (∀ j, (t.core k).handle j = if j = r.handle % 4096 then e else (s.core k).handle j) ∧
        (t.core k).chan.replies = (s.core k).chan.replies.erase r ∧ (t.core k).nx.ops = [] ∧
        (t.core k).sync = ((s.core k).completed s.now o.owed).sync ∧
        tookWord (s.core k) (t.core k) { p.chan with last := true } e fun w => if 64 * r.dline ≤ w ∧ w < 64 * (r.dline + (p.chan.n + 1))
          then some ((ls.getD (w / 64 - r.dline) []).getD (w % 64) ⟨0, false⟩) else none)

/-- O33. A GRANT raises CREDIT of its sender entry up to the ceiling; a YIELD returns credit to its slot; YIELD_SEND returns what is left after a
close; CLOSE_DRAIN_COMPLETE closes an entry whose credit has settled (R305, R307, R314, R317). -/
def Obligations.CreditMoves : Prop :=
  ∀ (s : State) (i k : Nat) (p : Packet),
    (∀ h, PacketNext s i k p h → p.chan.op = opGrant → (s.core k).nx.ops = [] → h.credit + p.chan.off ≤ h.ceiling →
      ∃ t, exec (.grant i) s = .next t ∧ PacketEnds s t i k p ∧
        t.core k = ((s.core k).setHandle p.chan.tidx { h with credit := h.credit + p.chan.off }).modChan fun y =>
          { y with creditFrom := max y.creditFrom (s.now + 1) }) ∧
    (∀ h, PacketNext s i k p h → p.chan.op = opYield →
      ∃ t, exec (.yield i) s = .next t ∧ PacketEnds s t i k p ∧
        t.core k = (s.core k).setHandle p.chan.tidx { h with slots := modAt h.slots p.chan.slot fun x => { x with yielded := x.yielded + p.chan.off } }) ∧
    (∀ y q, (s.core k).yieldAt i = some y →
      q = chanPacket clsFwd 0 y.entry.tgtMod y.entry.tgtCore s.route.me false
        { op := opYield, score := k, tidx := y.entry.ohandle % 4096, tgen := y.entry.ohandle / 4096 % 16, slot := y.entry.slot, off := y.entry.credit } [] →
      ∃ t, exec (.yieldSend k i) s = .next t ∧ OtherCores k s t ∧
        t = { s with mesh := { s.mesh with items := s.mesh.items ++ [{ pkt := q, src := .core k }] }, bar := (s.noteInj q).bar, cores := t.cores } ∧
        t.core k = (s.core k).modChan fun x => { x with yields := x.yields.erase y }) ∧
    (((s.core k).handle i).state = .closing → ((s.core k).handle i).settled = true →
      ∃ t, exec (.closeDrainComplete k i) s = .next t ∧ t.now = s.now ∧ OnlyCore k s t ∧
        t.core k = (s.core k).setHandle i { ((s.core k).handle i).touch s.now with
          state := .closed, gen := (((s.core k).handle i).gen + 1) % 16, late := none })

/-! ## Mesh and links -/

/-- O34. PACKET_ROUTE gives a packet of this module its exit: the target here, to which it crosses the mesh along its row and then its column, or the
first axis that differs in the shorter direction, on the post channel at the dateline; or discards it. RESERVATION_GRANT moves it into a pool with
space whose turn has come to its entry point (R227, R230, R262, R272, R277, R278, R280, R281). -/
def Obligations.PacketsRouted : Prop :=
  ∀ (s : State) (i : Nat) (t : Transit), s.mesh.items[i]? = some t → s.mesh.aligned = true → s.blocked i t = false → originates t.src = true →
    s.mesh.realignAt ≤ s.tick → s.mayEnter t = true → t.flaws = [] →
    (t.exit = none → t.pkt.vc ≤ 9 → t.pkt.reservedBits = 0 →
      (t.pkt.dmod = s.route.me → t.pkt.dtgt < 768 →
        exec (.packetRoute i) s = .next { s.noteEnter t with
          mesh := { s.mesh with items := s.mesh.items.set i (t.inMesh s (.core t.pkt.dtgt)), entries := s.mesh.entries + 1 } }) ∧
      (t.pkt.dmod = s.route.me → t.pkt.dtgt = 0x3FF →
        exec (.packetRoute i) s = .next { s.noteEnter t with
          mesh := { s.mesh with items := s.mesh.items.set i (t.inMesh s .hub), entries := s.mesh.entries + 1 } }) ∧
      (t.pkt.dmod = s.route.me → 768 ≤ t.pkt.dtgt → t.pkt.dtgt ≠ 0x3FF → 0x0442 ∈ s.route.seen → t.pkt.counted = true →
        exec (.packetRoute i) s = .next { s with
          mesh := { s.mesh with items := s.mesh.items.eraseIdx i }
          route := { s.route with discard := satInc s.route.discard 1, seen := markPut s.route.seen 0x0442 }
          bar := { s.bar with sink := s.bar.sink + 1 } }) ∧
      (∀ a d n f, a < 3 → t.pkt.dtgt < 768 ∨ t.pkt.dtgt = 0x3FF → t.pkt.dmod ≠ s.route.me → s.route.inside t.pkt.dmod = true → s.route.inside s.route.me = true →
        (∀ q < 24, s.compat q = false) → (∀ b < a, modAxis t.pkt.dmod b = modAxis s.route.me b) → modAxis t.pkt.dmod a ≠ modAxis s.route.me a →
        n = s.route.dim a → f = (modAxis t.pkt.dmod a + n - modAxis s.route.me a) % n →
        (if s.route.wrap a then (2 * f < n ∧ d = 2 * a) ∨ (n < 2 * f ∧ d = 2 * a + 1)
          else d = if modAxis s.route.me a < modAxis t.pkt.dmod a then 2 * a else 2 * a + 1) →
        bit (s.route.dir.getD d 0).toNat 31 = true → 14 ≤ bits (s.route.dir.getD d 0).toNat 4 0 → bits (s.route.dir.getD d 0).toNat 4 0 < 24 →
        exec (.packetRoute i) s = .next { s with mesh := { s.mesh with items := s.mesh.items.set i { t with
          exit := some (.port (bits (s.route.dir.getD d 0).toNat 4 0))
          outVc := 2 * t.pkt.cls + flag (s.route.wrap a && modAxis s.route.me a == if d = 2 * a then n - 1 else 0) } } })) ∧
    (∀ l m ms, t.exit = some (.port l) → t.granted = none → s.members l = ms → ms ≠ [] → t.pkt.adapt = false →
      m = ms.getD ((if t.pkt.cls = clsTns then t.pkt.flow else t.pkt.src + t.pkt.dst) % ms.length) l →
      (s.port m).usable = true → s.compat m = false → (t.pkt.cls = clsTns → s.flowListed m t.pkt.flow = true) → t.pkt.len ≤ s.poolFree m t.outVc →
      s.turn (m, t.outVc) (s.allAskers (m, t.outVc)) t.src = true →
      exec (.reservationGrant i) s = .next { s.noteEnter t with
        mesh := { s.mesh with
          items := s.mesh.items.eraseIdx i, entries := s.mesh.entries + 1, turns := keyPut s.mesh.turns (10 * m + t.outVc) t.src.rank }
        ports := modAt s.ports m fun x => { x with tx := { x.tx with pool := x.tx.pool ++
          [{ vc := t.outVc, flow := t.pkt.flow, flits := (t.pkt.onVc t.outVc).flits, counted := t.pkt.counted }] } } })

/-- O35. A port trains, retries, goes down and comes back as R258, R264 and R267 say, each at its time (R258, R264, R265, R267, R464). -/
def Obligations.PortsTrain : Prop :=
  ∀ (s : State) (p : Nat), p < 24 → s.ports.length = 24 → s.overs = [] →
    (∀ l, l < 4 → (s.port p).trained = true → ∃ t, exec (.laneLoss p l) s = .next t ∧
      PortKept { s.port p with state := .down, downTick := s.tick, locks := 0, settling := false } (t.port p) ∧
      (t.port p).usable = false ∧ t.now = s.now ∧ t.cores = s.cores) ∧
    ((s.port p).state = .training → exec (.trainingComplete p) s =
      .next { s with ports := modAt s.ports p fun x => { x with state := .discover, locks := 0xF, first := true, retry := false } }) ∧
    ((s.port p).state = .training → exec (.trainingTimeout p) s =
      .next (let t : State := { s with ports := modAt s.ports p fun x => { x with state := .noPeer, first := true, locks := 0, downTick := s.tick } }
        if (s.port p).retry then t else t.recordAs (if (s.port p).job && s.anyAttached then .always else .never) 0x0504 2 p 0 0 0)) ∧
    (∀ c u r, (c, u, r) ∈ [(Instr.noPeerRetry p, (s.port p).downTick + 1000000, true), (Instr.retrain p, (s.port p).downTick + 1000, false),
        (Instr.laserSettled p, (s.port p).downTick + 1000000, false)] →
      (c = .noPeerRetry p → (s.port p).state = .noPeer) →
      (c = .retrain p → (s.port p).state = .down ∧ bit (s.port p).cfg.toNat 1 = true) →
      (c = .laserSettled p → (s.port p).settling = true) →
      exec c s = .next { s.advanceTick u with
        mesh := { s.mesh with items := s.mesh.items.map fun t => if t.src == .port p then { t with left := true } else t }
        ports := modAt s.ports p fun x => { x with
          state := .training, retry := r, locks := 0, settling := false, trains := x.trains + 1
          tx := { wire := x.tx.wire, cp := x.tx.cp, dirty := true }, rx := { record := x.rx.record } } }) ∧
    (∀ u n, (s.port p).episode = some (u, n) → exec (.discardEpisodeEnd p) s =
      .next (State.record { s.advanceTick (u + 65536) with ports := modAt s.ports p fun x => { x with episode := none } } 0x050A 2 p 0 0 (pack [(32, n)]))) ∧
    (∀ g ps, ps = (List.range 24).filter (fun q => if g = 123 then decide (14 ≤ q) else edgeDomain q == g) → g ∈ edgeDomains → g ∉ s.power.edgeOff →
      (∀ q ∈ ps, (s.port q).state = .disabled ∧ (s.port q).settling = false) →
      exec (.linkEdgeGroupOff g) s = .next { s.advanceTick (ps.foldl (fun n q => max n (s.port q).downTick) 0 + 1000) with
        power := { s.power with edgeOff := markPut s.power.edgeOff g } })

/-- O36. A codeword in sequence is accepted and counted and its flits build packets; one out of sequence or uncorrectable asks for a replay; an
acknowledgement frees codewords; a NAK or a timeout starts a replay; a record heard twice is evaluated (R244, R246, R248 to R250, R252, R259, R264).
-/
def Obligations.CodewordsArrive : Prop :=
  ∀ (s : State) (p : Nat) (fix : Bool) (seq : BitVec 12) (x y : Port), p < 24 → s.ports.length = 24 → s.overs = [] → s.port p = x → x.trained = true →
    y = { x with ce := if fix then satInc x.ce 1 else x.ce } →
    (∀ ticks, ticks = x.rx.ueTicks.filter (fun t => decide (s.tick < t + 100000)) ++ [s.tick] →
      (ticks.length ≤ x.ueLimit → exec (.uncorrectableCodeword p) s = .next { s with ports := modAt s.ports p fun _ => { x with
        ue := satInc x.ue 1, rx := { x.rx with ueTicks := ticks, nak := true }, tx := { x.tx with nakDue := x.tx.nakDue || !x.rx.nak } } }) ∧
      (x.ueLimit < ticks.length → ∃ t, exec (.uncorrectableCodeword p) s = .next t ∧ (t.port p).state = .down ∧ (t.port p).usable = false)) ∧
    (∀ vc flits, 9 < vc ∨ flits.length = 0 ∨ 10 < flits.length → exec (.dataCodeword p fix seq vc flits) s = exec (.uncorrectableCodeword p) s) ∧
    (∀ vc flits map c, vc ≤ 9 → 0 < flits.length → flits.length ≤ 10 → x.rx.eseq ≠ seq →
      c ∈ [Instr.dataCodeword p fix seq vc flits, Instr.poisonCodeword p fix seq map, Instr.idleCodeword p fix seq] →
      exec c s = .next { s with ports := modAt s.ports p fun _ => { y with
        rx := { x.rx with nak := true }, tx := { x.tx with nakDue := x.tx.nakDue || !x.rx.nak } } }) ∧
    (x.rx.eseq = seq →
      exec (.idleCodeword p fix seq) s = .next { s with ports := modAt s.ports p fun _ => y } ∧
      (∀ map, exec (.poisonCodeword p fix seq map) s = .next { s with ports := modAt s.ports p fun _ => { y with
        rxCw := x.rxCw + 1, rx := { x.rx with eseq := seq + 1, nak := false, map := some map }, tx := { x.tx with dirty := true } } }) ∧
      (∀ vc f q, vc ≤ 9 → x.rx.skipping vc = 0 → s.compat p = false → s.occupancy p vc < depthOf p → x.usable = true →
        q = (match x.rx.partOf vc with
          | some q => { q with flits := q.flits ++ mapFlits x.rx.map [f] }
          | none => { vc := vc, flits := mapFlits x.rx.map [f] }) →
        exec (.dataCodeword p fix seq vc [f]) s = .next { s with
          mesh := { s.mesh with items := if q.length ≤ q.flits.length then s.mesh.items ++ [{ pkt := packetOf q.flits, src := .port p }] else s.mesh.items }
          ports := modAt s.ports p fun _ => { y with
            rxCw := x.rxCw + 1, tx := { x.tx with dirty := true }
            rx := { x.rx with eseq := seq + 1, nak := false, map := none
                              part := x.rx.part.filter (fun r => r.vc != vc) ++ if q.length ≤ q.flits.length then [] else [q] } } })) ∧
    (∀ ack credit xoff, x.rx.eseq = seq → x.tx.resend = none → s.compat p = false →
      (∀ n, n = (ack - x.tx.ack).toNat → 0 < n → n ≤ (x.tx.seq - (x.tx.ack + 1)).toNat →
        exec (.lcw p fix seq ack false credit xoff none) s = .next { s with ports := modAt s.ports p fun _ => { y with
          tx := { x.tx with ack := ack, buf := x.tx.buf.filter fun q => decide ((q.cw.seqOf - (ack + 1)).toNat < 2048), timeouts := 0, start := none, starts := 0, credit := credit, xoff := 0 } } }) ∧
      (∀ n, ack = x.tx.ack → x.tx.seq ≠ ack + 1 → n = (if x.tx.start = some (ack + 1) then x.tx.starts + 1 else 1) → n ≠ 8 → x.tx.timeouts ≠ 4 →
        exec (.lcw p fix seq ack true credit xoff none) s = .next { s with ports := modAt s.ports p fun _ => { y with
          replays := satInc x.replays 1
          tx := { x.tx with credit := credit, xoff := 0, resend := some (ack + 1), start := some (ack + 1), starts := n } } })) ∧
    (∀ q r n, x.tx.buf = q :: r → n = (if x.tx.start = some q.cw.seqOf then x.tx.starts + 1 else 1) →
      (n ≠ 8 → x.tx.timeouts ≠ 3 → exec (.replayTimeout p) s = .next { s.advanceTick (q.tick + x.timeout + 1) with
        ports := modAt s.ports p fun _ => { x with replays := satInc x.replays 1, tx := { x.tx with
          resend := some q.cw.seqOf, start := some q.cw.seqOf, starts := n, timeouts := x.tx.timeouts + 1 } } }) ∧
      (n = 8 ∨ x.tx.timeouts = 3 → ∃ t, exec (.replayTimeout p) s = .next t ∧ (t.port p).state = .down ∧ (t.port p).usable = false)) ∧
    (∀ ack credit xoff r, x.rx.eseq = seq → x.tx.ack = ack → x.rx.known = false → x.rx.heard = some r → bit x.expect.toNat 31 = true →
      bits r.toNat 111 96 = bits x.expect.toNat 15 0 → bits r.toNat 116 112 = bits x.expect.toNat 20 16 →
      (bit x.expect.toNat 30 = true → bits r.toNat 95 32 = x.expectId.toNat) → bit r.toNat 117 = s.compat p → (s.compat p = false → bit r.toNat 120 = true) →
      ∃ t, exec (.lcw p fix seq ack false credit xoff (some r)) s = .next t ∧ t.now = s.now ∧
        (t.port p).state = .active ∧ (t.port p).rx.record = r ∧ (t.port p).rx.known = true)

/-- O37. At a codeword boundary a port sends an LCW that is due, else the next codeword of a replay, else what fills a DATA codeword, else IDLE (R248,
R250, R252, R253, R257, R283, R284). -/
def Obligations.CodewordsLeave : Prop :=
  ∀ (s : State) (p : Nat) (x : Port) (t : LinkTx) (lcw : Bool → Port) (send : Codeword → LinkTx → Port), p < 24 → s.ports.length = 24 → s.port p = x → x.trained = true → x.tx = t →
    (∀ keep, lcw keep = { x with tx := { t with nakDue := false, dirty := false, xoffDue := false, sinceLcw := 0, wire := some (.lcw t.seq
      { ack := x.rx.eseq - 1, nak := t.nakDue, xoff := if s.compat p then x.rx.xoff else 0
        credit := if s.compat p then List.replicate 10 0 else x.rx.freed.map fun f => f + BitVec.ofNat 16 (depthOf p)
        record := if keep || x.state == .discover then some (s.ownRecord p) else none }) } }) →
    (∀ c u, send c u = { x with txCw := x.txCw + 1, tx := { u with
      wire := some c, sinceLcw := t.sinceLcw + 1, seq := t.seq + 1, buf := t.buf ++ [{ cw := c, tick := s.tick }] } }) →
    (t.nakDue = true ∨ t.xoffDue = true ∨ (t.dirty = true ∧ 31 ≤ t.sinceLcw) ∨ 1023 ≤ t.sinceLcw →
      exec (.codewordTransmit p) s = .next { s with ports := modAt s.ports p fun _ => lcw (decide (1023 ≤ t.sinceLcw)) }) ∧
    (t.nakDue = false → t.xoffDue = false → (t.dirty = true → t.sinceLcw < 31) → t.sinceLcw < 1023 →
      (∀ n i q, t.resend = some n → t.buf[i]? = some q → (q.cw.seqOf - n).toNat < 2048 →
        (∀ j r, j < i → t.buf[j]? = some r → 2048 ≤ (r.cw.seqOf - n).toNat) →
        exec (.codewordTransmit p) s = .next { s with ports := modAt s.ports p fun _ => { x with tx := { t with
          wire := some q.cw, sinceLcw := t.sinceLcw + 1, buf := t.buf.set i { q with tick := s.tick }
          resend := if i + 1 < t.buf.length then some (q.cw.seqOf + 1) else none } } }) ∧
      (t.resend = none → (1024 ≤ (t.seq - (t.ack + 1)).toNat ∨ (t.next = none ∧ (x.usable = false ∨ t.pool = []))) →
        exec (.codewordTransmit p) s = .next { s with ports := modAt s.ports p fun _ => if t.dirty then lcw false
          else { x with tx := { t with wire := some (.idle t.seq), sinceLcw := t.sinceLcw + 1 } } }) ∧
      (t.resend = none → (t.seq - (t.ack + 1)).toNat < 1024 →
        (∀ c, t.next = some c → s.compat p = false → exec (.codewordTransmit p) s = .next { s with ports := modAt s.ports p fun _ => send c { t with next := none, ends := [] } }) ∧
        (∀ q, t.next = none → x.usable = true → s.compat p = false → t.pool = [q] → q.vc < 10 → q.flits ≠ [] → q.flits.length ≤ 10 →
          q.flits.length ≤ (t.credit.getD q.vc 0 - t.sent.getD q.vc 0).toNat → (∀ f ∈ q.flits, ∀ w ∈ f, w.poison = false) →
          (q.vc / 2 = clsTns → bit (s.calEntry p (t.cp % 256)) 7 = true ∧ bits (s.calEntry p (t.cp % 256)) 4 0 = q.flow) →
          exec (.codewordTransmit p) s = .next { s with ports := modAt s.ports p fun _ => send (.data t.seq q.vc q.flits) { t with
            pool := [], sent := modAt t.sent q.vc (fun c => c + BitVec.ofNat 16 q.flits.length)
            cp := if q.vc / 2 = clsTns then (t.cp % 256 + 1) % 256 else t.cp
            tnsRun := if q.vc / 2 = clsTns then t.tnsRun + 1 else 0 } })))

/-! ## The barrier -/

/-- O38. When the attached cores of a bench's module have finished, it takes its contribution and launches the first PART wave; a wave that does not
drain, or does not complete, is noticed at its time (R325, R327 to R329, R342). -/
def Obligations.WavesLaunch : Prop :=
  ∀ (s : State), s.overs = [] →
    (s.finished = true → s.twinOn = false → s.fin.runs = [] → s.bar.got = [] → 2 ≤ s.bar.slots.length →
      ∃ t, exec .moduleFinished s = .next t ∧ t.now = s.now ∧
        (∀ k, t.core k = if k ∈ s.attachedCores then { s.core k with ctl := { (s.core k).ctl with twinLast := (s.core k).ctl.twinSum } } else s.core k) ∧
        t.bar = { s.bar with
          phase := .parting, finishTick := s.tick, launchTick := s.tick, partWaves := 1, firstDone := none, contributed := true, waitTwin := false
          wave := s.bar.wave + 1, kind := 1, going := true, stage := 0, again := false, rehold := false
          total := { passMin := s.bar.passNum, passMax := s.bar.passNum, inj := s.bar.inj, sink := s.bar.sink, mods := 1
                     fail := s.bar.fail || s.bar.drainx || s.bar.settled, drainx := s.bar.drainx, hold := s.bar.hold
                     holdf := s.bar.holdOnFail || decide (s.faults.rerunMax ≤ s.faults.attempt.toNat), noPend := !s.fin.activate
                     notReady := !s.fin.slots.any (fun e => e.state == .verified), settled := s.bar.settled } } ∧
        t.mesh.items = s.mesh.items ++ (s.bar.slots.filter (· != modSlot s.route.me)).map fun n =>
          { src := .hub, pkt := s.wavePacket (withSlot s.route.me n) 1 0 0 0 s.route.me t.bar.wave t.bar.total }) ∧
    (∀ u sh, sh = bits s.bar.watch.toNat 4 0 → s.bar.firstDone = some u → s.bar.phase = .parting ∨ (s.bar.phase = .lost ∧ s.bar.kind = 1) → sh ≠ 0 → s.bar.drainx = false →
      ∃ t, exec .drainWatchdog s = .next t ∧ t.now = (s.advanceTick (u + 2 ^ sh)).now ∧ t.cores = s.cores ∧
        t.bar = { s.bar with drainx := true } ∧ Recorded s t 0x0260) ∧
    (∀ sh, sh = bits s.bar.watch.toNat 12 8 → s.bar.going = true → s.bar.phase ≠ .lost → sh ≠ 0 →
      ∃ t, exec .lostWatchdog s = .next t ∧ t.now = (s.advanceTick (s.bar.launchTick + 2 ^ sh)).now ∧ t.cores = s.cores ∧
        t.bar.phase = .lost ∧ t.bar.total = s.bar.total ∧ t.bar.got = s.bar.got ∧ Recorded s t 0x0261)

/-- O39. The totals of a bench's wave are combined, and the first row of R330 that applies decides: failed with DESYNC, failed, succeeded, failed with
UNDRAINED, or a further wave (R328, R330, R332). -/
def Obligations.WavesDecide : Prop :=
  ∀ (s : State) (i : Nat) (p : Packet) (g : Got) (x : Contrib), Stands s i .hub p → p.cls = clsCtl →
    p.word 2 = s.bar.jobTag.toNat → s.inBox p.waveOrigin = true → modSlot p.waveOrigin ∈ s.bar.slots →
    g = { wave := p.waveNum, kind := p.waveKind, stage := p.waveStage, origin := p.waveOrigin, total := p.waveTotal } →
    g.stage = 0 → g.kind = 1 → g.wave = s.bar.wave → s.bar.phase = .parting → s.bar.going = true → s.bar.kind = 1 → s.bar.stage = 0 →
    (∀ a < 3, s.bar.extent a = 1 ∧ s.boxPlace s.route.me a = 0) → (∀ h ∈ s.bar.got, h.wave = g.wave ∧ h.stage = 0 ∧ h.kind = 1 ∧ h.origin ≠ g.origin) →
    (s.bar.got.length + 1 < s.bar.slots.length - 1 → exec (.waveContribution i) s = .next { s with
      mesh := { s.mesh with items := s.mesh.items.eraseIdx i }, bar := { s.bar with got := s.bar.got ++ [g] } }) ∧
    (s.bar.got.length + 1 = s.bar.slots.length - 1 → x = (s.bar.got ++ [g]).foldl (fun a h => a.add h.total) s.bar.total →
      ∃ u, exec (.waveContribution i) s = .next u ∧
        (x.passMin ≠ x.passMax ∨ x.mods ≠ s.bar.slots.length → u.bar.phase = .held ∧ u.bar.passNum = s.bar.passNum ∧
          u.bar.lastFailed = true ∧ u.bar.undrained = false ∧ u.bar.desync = true) ∧
        (x.passMin = x.passMax → x.mods = s.bar.slots.length →
          (x.settled = true ∨ (x.inj = x.sink ∧ x.fail = true) → u.bar.phase = (if x.hold || (x.fail && x.holdf) then .held else .commit) ∧
            u.bar.passNum = s.bar.passNum ∧ u.bar.lastFailed = true ∧ u.bar.undrained = false ∧ u.bar.desync = false) ∧
          (x.settled = false → x.inj = x.sink → x.fail = false → u.bar.phase = (if x.hold then .held else .commit) ∧
            u.bar.passNum = s.bar.passNum + 1 ∧ u.bar.lastFailed = false ∧ u.bar.undrained = false ∧ u.bar.desync = false ∧ u.bar.due = s.now + 32) ∧
          (x.settled = false → x.inj ≠ x.sink → x.drainx = true → u.bar.phase = .held ∧ u.bar.passNum = s.bar.passNum ∧
            u.bar.lastFailed = true ∧ u.bar.undrained = true ∧ u.bar.desync = false) ∧
          (x.settled = false → x.inj ≠ x.sink → x.drainx = false → u.bar.phase = .parting ∧ u.bar.passNum = s.bar.passNum ∧
            u.bar.wave = s.bar.wave + 1 ∧ u.bar.going = true ∧ u.bar.stage = 0 ∧ u.bar.got = [] ∧ u.bar.partWaves = s.bar.partWaves + 1)))

/-- O40. BLANK returns every attached core to the starting state of a pass; PASS_START begins the pass: every stream runs at index 0 from cycle S on,
or is ABANDONED where the declared contract is not in force (R151, R219, R337, R338, R448). -/
def Obligations.PassBegins : Prop :=
  ∀ (s : State), s.overs = [] →
    ((s.bar.phase = .commit ∨ (s.bar.phase = .blank ∧ s.bar.blanked = false)) → s.attachedCores.Nodup →
      ∃ t u, exec .blank s = .next t ∧ u = (if s.bar.phase = .commit then max s.now s.bar.due else s.now) ∧ t.now = u ∧
        (∀ k, (k ∈ s.attachedCores → AtStart (s.core k) (t.core k)) ∧ (k ∉ s.attachedCores → t.core k = s.core k)) ∧
        t.bar.phase = .blank ∧ t.bar.passNum = s.bar.passNum ∧ t.bar.inj = 0 ∧ t.bar.sink = 0 ∧ t.bar.blanked = true ∧ t.bar.due = u + 1024 ∧
        t.route.seen = []) ∧
    (s.bar.phase = .blank → s.bar.blanked = true →
      ∃ t, exec .passStart s = .next t ∧ t.now = max s.now s.bar.due ∧ t.bar.phase = .run ∧ t.bar.passNum = s.bar.passNum ∧
        (∀ k, t.core k = if k ∈ s.attachedCores then
            (let st : Stream := { state := if (s.core k).declared = s.lc then .run else .abandoned, ready := t.now }
             { s.core k with mxs := st, vxs := st, dxs := st, nxs := st, sxs := st })
          else s.core k) ∧
        t.host.tickets = s.host.tickets.map (fun x => { x with sent := false }) ∧ t.host.senders = [] ∧
        t.host.listClosed = some s.bar.passNum ∧ t.host.res.map (·.id) = (List.range 64).filter s.outValid)

/-- O41. The commands of BAR_CTRL: HOLD, ATTACH, DETACH, ABORT, RESTART and RESTART_FAIL in the phase that each needs, and their refusal in any other
(R294, R327, R336, R341, R342). -/
def Obligations.JobCommands : Prop :=
  ∀ (s : State) (v : Word32) (b : Barrier), b = { s.bar with hold := bit v.toNat 0, holdOnFail := bit v.toNat 1 } →
    (bits v.toNat 6 2 = 0 →
      (s.bar.phase ≠ .held → exec (.hold v) s = .next { s with bar := b }) ∧
      (s.bar.phase = .held → s.bar.going = true → exec (.hold v) s = .next { s with bar := { b with rehold := true } }) ∧
      (s.bar.phase = .held → s.bar.going = false → 2 ≤ s.bar.slots.length → (∀ g ∈ s.bar.got, g.wave ≠ s.bar.wave + 1) →
        ∃ t, exec (.hold v) s = .next t ∧ t.cores = s.cores ∧ t.bar.phase = .held ∧ t.bar.wave = s.bar.wave + 1 ∧ t.bar.kind = 2 ∧ t.bar.going = true ∧
          t.bar.total = { mods := 1, hold := bit v.toNat 0 })) ∧
    (∀ c n, (c, n) ∈ [(Instr.attach v [], 2), (.detach v, 3), (.abort v, 4), (.restart v, 5), (.restartFail v, 6)] → bits v.toNat 6 2 = 2 ^ (n - 2) →
      (n = 2 → s.bar.phase ≠ .detached) → (n = 3 → s.bar.phase ≠ .held ∧ s.bar.phase ≠ .lost) → (n = 4 → s.bar.phase = .detached) →
      (n = 5 → s.bar.phase ≠ .lost) → (n = 6 → s.bar.phase ≠ .lost ∨ s.bar.kind ≠ 1) →
      exec c s = .next (State.record s 0x0264 5 0 0 0 (pack [(16, s.route.me), (32, s.bar.wave.toNat)]))) ∧
    (bits v.toNat 6 2 = 1 → s.bar.phase = .detached → s.attachBad = false → s.placeable = true → (∀ k ∈ s.bar.named, s.group (groupOf k) ≠ .off) →
      ∃ t, exec (.attach v []) s = .next (if (bit v.toNat 0 && !t.bar.next) then t else t.launchWave 2) ∧
        t.bar.phase = .held ∧ t.bar.wave = 0 ∧ t.bar.lastFailed = false ∧ t.bar.undrained = false ∧ t.bar.desync = false ∧ t.bar.passNum = s.bar.passNum ∧
        t.faults.attempt = 0 ∧ t.host.tickets = [] ∧
        ∀ k, k ∈ s.bar.named → (t.core k).ctl.attached = true ∧ (t.core k).chan.handles = [] ∧ (t.core k).chan.replies = [] ∧ (t.core k).mem = (s.core k).mem) ∧
    (∀ n c, (n = 3 ∧ c = Instr.detach v ∧ (s.bar.phase = .held ∨ s.bar.phase = .lost)) ∨
        (n = 4 ∧ c = Instr.abort v ∧ s.bar.phase ≠ .detached ∧ ∀ k ∈ s.attachedCores, (s.core k).ctl.attached = true ∧ (s.core k).mx.ops = [] ∧
          (s.core k).vx.runs = [] ∧ (s.core k).vx.loads = [] ∧ (s.core k).dx.ops = [] ∧ (s.core k).nx.ops = [] ∧ (s.core k).sx.acc = [] ∧ (s.core k).sx.wait = none) →
      bits v.toNat 6 2 = 2 ^ (n - 2) → s.jrnl.on = false →
      ∃ t, exec c s = .next t ∧ t.bar.phase = .detached ∧ t.bar.going = false ∧ t.bar.got = [] ∧ t.bar.passNum = s.bar.passNum ∧ t.fin.runs = [] ∧
        t.host.tickets = [] ∧ t.host.res = [] ∧ t.host.senders = [] ∧ (n = 4 → Recorded s t 0x0265) ∧
        ∀ k, k ∈ s.attachedCores → (t.core k).ctl.attached = false ∧ (∀ e ∈ allEngines, (t.core k).stream e = {}) ∧
          (∀ i, ((t.core k).handle i).state = .closed) ∧ (t.core k).mem = (s.core k).mem) ∧
    (∀ n c, n = 5 ∧ c = Instr.restart v ∨ n = 6 ∧ c = Instr.restartFail v ∧ s.bar.kind = 1 → bits v.toNat 6 2 = 2 ^ (n - 2) → s.bar.phase = .lost →
      2 ≤ s.bar.slots.length → (∀ g ∈ s.bar.got, g.wave ≠ s.bar.wave + 1) →
      ∃ t, exec c s = .next t ∧ t.cores = s.cores ∧ t.bar.phase = (if s.bar.kind = 1 then .parting else .held) ∧ t.bar.wave = s.bar.wave + 1 ∧
        t.bar.kind = s.bar.kind ∧ t.bar.going = true ∧ t.bar.stage = 0 ∧ t.bar.settled = (s.bar.settled || n = 6) ∧ (n = 6 → t.bar.total.settled = true ∧ t.bar.total.fail = true))

/-! ## What the hub sends to cores -/

/-- O42. In a pass the hub sends the first ticket of the pass that is not sent, and a tier-2 stream its next shard, as one message each, once the
credit covers its lines (R382, R383, R447). -/
def Obligations.HubSends : Prop :=
  ∀ s : State, s.bar.phase = .run →
    (∀ pre post tk d, s.host.tickets = pre ++ tk :: post → (∀ x ∈ pre, x.pass ≠ s.bar.passNum ∨ x.sent = true) → tk.pass = s.bar.passNum → tk.sent = false →
      s.tktTarget tk.tkt = some d →
      ((s.tktSender tk.tkt).credit < tk.lines → exec .ticketDelivery s = .next s) ∧
      (tk.lines ≤ (s.tktSender tk.tkt).credit → exec .ticketDelivery s = .next (State.withHubMessage { s with
        host := { s.host with
          tickets := pre ++ { tk with sent := true } :: post
          senders := keyPut s.host.senders tk.tkt { credit := (s.tktSender tk.tkt).credit - tk.lines, mseq := (s.tktSender tk.tkt).mseq + 1 } } }
        d (s.tktSender tk.tkt).mseq.toNat tk.line tk.lines false tk.data))) ∧
    (∀ n r k x, keyGet s.fin.runs n = some r → s.streamCore n = some k → (s.edSlot (s.streamSlot n)).shards[s.streamFirst n + r.idx]? = some x →
      r.idx < s.streamCount n → (r.bad = true ∨ r.data.isSome = true) →
      (r.credit < x.lines → exec (.tier2StreamSend n) s = .next s) ∧
      (x.lines ≤ r.credit → exec (.tier2StreamSend n) s = .next (State.withHubMessage { s with
        fin := { s.fin with runs := keyPut s.fin.runs n { idx := r.idx + 1, credit := r.credit - x.lines, mseq := r.mseq + 1 } } }
        { core := k, handle := bits (s.tier2Word n 0) 15 0, slot := bits (s.tier2Word n 0) 18 16 } r.mseq.toNat x.offset x.lines r.bad (r.data.getD []))))

/-! ## Outputs and forwarded tickets -/

/-- O43. The next output leaves once every line of the one before it was sent; an output without progress is sent again from line ACKED, and its 16th
resend is recorded once; OACK moves ACKED and ends an output; a shadow keeps a forwarded ticket (R399, R426, R437, R449, R450). -/
def Obligations.OutputsLeave : Prop :=
  ∀ s : State, s.overs = [] →
    (∀ n x p m, n = bits s.host.ctrl.toNat 2 0 → keyGet s.host.sessions n = some x → s.sendPort x = some p →
      m = min 32 ((s.mtuOf p - (if x.v6 = true then 48 else 28) - 56) / 256) →
      (∀ pre o post, s.host.outputs = pre ++ o :: post → (∀ y ∈ pre, y.lines ≤ y.sent) → o.sent < o.lines → s.jrnl.busy = false →
        exec .outputRelease s = .next (State.outputFrom { s with
          host := { s.host with outputs := s.host.outputs.map fun y => if y = o then { o with sent := o.lines, tick := s.tick } else y } } o o.sent m)) ∧
      (∀ pre o post u, s.host.outputs = pre ++ o :: post → o.sent = o.lines → (∀ y ∈ pre, y.sent = y.lines → o.tick < y.tick) →
        (∀ y ∈ post, y.sent = y.lines → o.tick ≤ y.tick) → u = s.advanceTick (o.tick + bits s.host.ctrl.toNat 31 16 + 1) →
        (o.resends ≠ 15 ∨ o.warned = true → exec .outputResend s = .next (State.outputFrom { u with
          host := { s.host with outputs := s.host.outputs.map fun y => if y = o then { o with tick := u.tick, resends := o.resends + 1 } else y } } o o.acked m)) ∧
        (o.resends = 15 → o.warned = false → ∃ t, exec .outputResend s = .next t ∧ Recorded s t 0x0462 ∧ t.cores = s.cores ∧
          t.host.outputs = s.host.outputs.map fun y => if y = o then { o with tick := u.tick, resends := 16, warned := true } else y))) ∧
    (∀ src n x pre o post acked, s.hostPort src.port = true → keyGet s.host.sessions n = some x → x.proved = true → x.ip = src.ip.toNat → x.udp = src.udp.toNat →
      s.host.outputs = pre ++ o :: post → (∀ y ∈ pre, y.pass ≠ o.pass ∨ y.id ≠ o.id) →
      (acked ≤ o.acked → exec (.oack src n o.pass o.id acked) s = .next s) ∧
      (o.acked < acked → acked < o.lines → exec (.oack src n o.pass o.id acked) s = .next { s with
        host := { s.host with outputs := s.host.outputs.map fun y => if y = o then { o with acked := acked, tick := s.tick, resends := 0 } else y } }) ∧
      (o.acked < acked → o.lines ≤ acked → (∀ r ∈ s.host.res, r.placed = true) → exec (.oack src n o.pass o.id acked) s = .next { s with
        host := { s.host with outputs := s.host.outputs.filter (· != o) } })) ∧
    (∀ pass tkt lines line tag data, s.anyAttached = true → bits s.twin.cfg.toNat 1 0 = 3 → 1 ≤ lines → data.length = 256 * lines → s.jrnl.on = false →
      exec (.forwardedTicket pass tkt lines line tag data) s = .next { s with
        host := { s.host with tickets := s.host.tickets ++ [{ pass := pass, tkt := tkt, lines := lines, line := line, tag := tag, rseq := 0, data := data }] } })

/-! ## Sessions -/

/-- O44. A request with SEQ = NSEQ is carried out and answered, one of the 64 before it is answered again, any other is discarded (and counted where
its body breaks the layout); what RD, WR, TICKET and SCLOSE answer (R436 to R441, R446). -/
def Obligations.RequestsAnswered : Prop :=
  ∀ (s : State) (src : Sender) (n : Nat) (x : Session), Arrives s src n x →
    (∀ seq addr count, seq ≠ x.nseq →
      ((∀ c ∈ x.cache, c.1 ≠ seq) → exec (.rd src n seq addr count) s = .next
        (if addr.toNat % 4 ≠ 0 ∨ count = 0 ∨ 2048 < count then s.ethDrop src.port else s)) ∧
      (∀ pre ms post, x.cache = pre ++ (seq, ms) :: post → (∀ c ∈ pre, c.1 ≠ seq) → exec (.rd src n seq addr count) s = .next { s with
        host := { s.host with out := s.host.out ++ s.tagged (ms.map fun m => { m with port := s.replyPort x src }) } })) ∧
    (∀ type, exec (.malformedDatagram src n x.nseq type) s = .next (s.answered n (s.replyPort x src) x type stMalformed [[]])) ∧
    (exec (.sclose src n x.nseq) s = .next { s with
      host := { s.host with
        sessions := keyDel s.host.sessions n
        out := s.host.out ++ s.tagged [{ port := s.replyPort x src, session := n, type := 0x82, status := stOk, seq := x.nseq, body := [] }] } }) ∧
    (∀ addr count, (addr.toNat % 4 ≠ 0 ∨ count = 0 ∨ 2048 < count) → exec (.rd src n x.nseq addr count) s =
      .next (s.answered n (s.replyPort x src) x 0x10 stMalformed [[]])) ∧
    (∀ addr, addr.toNat % 4 = 0 → s.permits (.session n) false addr.toNat = false → exec (.rd src n x.nseq addr 1) s =
      .next (s.answered n (s.replyPort x src) x 0x10 stDenied [[]])) ∧
    (∀ addr v t y, addr.toNat % 4 = 0 → s.permits (.session n) false addr.toNat = true → s.regRead addr.toNat = (v, t) → keyGet t.host.sessions n = some y → y.nseq = x.nseq →
      exec (.rd src n x.nseq addr 1) s = .next (t.answered n (t.replyPort x src) y 0x10 (if v.isNone = true then stUnmapped else stOk)
        [natToBytes 0 2 ++ natToBytes 1 2 ++ natToBytes 0 4 ++ natToBytes (v.getD 0).toNat 4])) ∧
    (∀ addr (w : Word32) res t y, addr.toNat % 4 = 0 → s.permits (.session n) true addr.toNat = true → s.regWrite (.session n) addr.toNat w = (res, t) →
      keyGet t.host.sessions n = some y → y.nseq = x.nseq →
      exec (.wr src n x.nseq addr [w]) s = .next (t.answered n (t.replyPort x src) y 0x11
        (match res with
          | .done => stOk
          | .unmapped => stUnmapped
          | .refused _ => stRefused)
        [match res with
          | .done => natToBytes 0 2 ++ natToBytes 0 2 ++ natToBytes 0xFFFF 2 ++ natToBytes 0 2
          | .unmapped => natToBytes 0 2 ++ natToBytes 1 2 ++ natToBytes 0xFFFF 2 ++ natToBytes 0 2
          | .refused c => natToBytes 1 2 ++ natToBytes 0 2 ++ natToBytes 0 2 ++ natToBytes c 2])) ∧
    (∀ pass tkt lines line tag data, 1 ≤ lines → lines ≤ 35 → data.length = 256 * lines → tkt < 256 → 112 + data.length ≤ s.mtuOf src.port →
      (x.proved = false → exec (.ticket src n x.nseq pass tkt lines line tag data) s = .next (s.answered n (s.replyPort x src) x 0x20 stDenied [[]])) ∧
      (x.proved = true → s.anyAttached = true → s.twinOn = false → (pass - s.bar.passNum).toNat < 2 ^ 63 → s.host.listClosed = some pass →
        exec (.ticket src n x.nseq pass tkt lines line tag data) s = .next (s.answered n (s.replyPort x src) x 0x20 stLate [natToBytes 0 8])) ∧
      (x.proved = true → s.anyAttached = true → s.twinOn = false → (pass - s.bar.passNum).toNat < bits s.host.ctrl.toNat 15 8 + 1 → s.host.listClosed ≠ some pass →
        bit (s.tktWord tkt 0) 31 = true → line + lines ≤ bits (s.tktWord tkt 2) 16 0 + 1 → s.host.ticketBytes + 32 + 256 * lines ≤ 67108864 →
        s.jrnl.on = false → s.jrnl.busy = false →
        exec (.ticket src n x.nseq pass tkt lines line tag data) s = .next (State.answered { s with
          host := { s.host with tickets := s.host.tickets ++ [{ pass := pass, tkt := tkt, lines := lines, line := line, tag := tag, rseq := 0, data := data }] } }
          n (s.replyPort x src) x 0x20 stOk [natToBytes 0 8])))

/-- O45. HELLO opens an unproved session and answers with a nonce and a signed report over the host's nonce; when all eight sessions are open the
oldest unproved one makes room, and none when all are proved; PROVE at its turn of SEQ proves a session or closes it with 0x0705; an unproved session
closes 1 s after its HELLO (R487 to R489). -/
def Obligations.SessionsOpen : Prop :=
  ∀ (s : State) (src : Sender), s.overs = [] → s.hostPort src.port = true →
    (∀ seq nonce n, nonce.length = 32 →
      (n < 8 ∧ keyGet s.host.sessions n = none ∧ (∀ m < n, (keyGet s.host.sessions m).isSome = true) ∨
        (∀ m < 8, (keyGet s.host.sessions m).isSome = true) ∧ ∃ pre x post, s.host.sessions = pre ++ (n, x) :: post ∧ x.proved = false ∧
          (∀ y ∈ pre, y.2.proved = false → x.tick < y.2.tick) ∧ (∀ y ∈ post, y.2.proved = false → x.tick ≤ y.2.tick)) →
      ∃ t x b, exec (.hello src seq nonce) s = .next t ∧ t.cores = s.cores ∧ t.now = s.now ∧ t.host.outputs = (if bits s.host.ctrl.toNat 2 0 = n then s.host.outputs.map fun o => { o with sent := o.acked, tick := s.tick } else s.host.outputs) ∧
        x = { ip := src.ip.toNat, udp := src.udp.toNat, v6 := src.v6, port := src.port, tick := s.tick, nonce := x.nonce } ∧ x.nonce.length = 32 ∧
        t.host.sessions = keyPut s.host.sessions n x ∧
        t.host.out = s.host.out ++ s.tagged [{ port := src.port, session := n, type := 0x81, status := stOk, seq := seq, body := x.nonce ++ b ++ edSign s.sec.priv s.sec.pub b }] ∧
        b.take 2 = natToBytes 1 2 ∧ (b.drop 8).take 8 = natToBytes s.moduleId.toNat 8 ∧ (b.drop 32).take 8 = natToBytes s.tick 8 ∧
        b.drop (b.length - 32) = nonce) ∧
    (∀ seq nonce, nonce.length = 32 → (∀ m < 8, (keyGet s.host.sessions m).isSome = true) → (∀ x ∈ s.host.sessions, x.2.proved = true) →
      exec (.hello src seq nonce) s = .next { s with
        host := { s.host with out := s.host.out ++ s.tagged [{ port := src.port, session := 0xFFFF, type := 0x81, status := stDenied, seq := seq, body := [] }] } }) ∧
    (∀ n key sig x k y, keyGet s.host.sessions n = some x → x.proved = false → s.ownerKey key 0 = some k →
      y = { x with proved := true, key := key, ip := src.ip.toNat, udp := src.udp.toNat, v6 := src.v6 } →
      (edVerify k (natToBytes s.moduleId.toNat 8 ++ natToBytes n 2 ++ x.nonce) sig = true → exec (.prove src x.nseq n key sig) s =
        .next (State.answered { s with host := { s.host with sessions := keyPut s.host.sessions n y } } n (s.replyPort x src) y 0x01 stOk [[]])) ∧
      (edVerify k (natToBytes s.moduleId.toNat 8 ++ natToBytes n 2 ++ x.nonce) sig = false →
        ∃ t, exec (.prove src x.nseq n key sig) s = .next t ∧ keyGet t.host.sessions n = none ∧ Recorded s t 0x0705 ∧
          t.host.out.getLast? = some { port := s.replyPort x src, session := n, type := 0x81, status := stDenied, seq := x.nseq, body := [], tag := s.tagOf (s.replyPort x src) }) ∧
      (∀ seq, seq ≠ x.nseq → (∀ c ∈ x.cache, c.1 ≠ seq) → exec (.prove src seq n key sig) s = .next s)) ∧
    (∀ n x, keyGet s.host.sessions n = some x → x.proved = false → exec (.sessionTimeout n) s = .next { s with
      now := (s.advanceTick (x.tick + 100000000)).now, host := { s.host with sessions := keyDel s.host.sessions n } }) ∧
    (∀ n x, keyGet s.host.sessions n = some x → x.proved = true → exec (.sessionTimeout n) s = .next s)

/-! ## Finfin -/

/-- O46. Requests between hubs: an object that is held is served in packets of 4,096 bytes, any other request is answered SNONE, and one that finds
256 in service is dropped; a request leaves for the holder whose turn it is; SNONE and a time-out try the next holder, the last failure ends the load;
the last packet of a shard whose digest matches writes it to stock (R367, R370 to R373, R384). -/
def Obligations.ShardsFetched : Prop :=
  ∀ s : State, s.overs = [] →
    (∀ i p u, AtHub s i 8 p → u = { s with mesh := { s.mesh with items := s.mesh.items.eraseIdx i } } →
      (256 ≤ u.inService → exec (.sreq i) s = .next u) ∧
      (u.inService < 256 → (∀ j < 2, ¬ (s.edSlot j).serves p) → exec (.sreq i) s = .next { u with
          mesh := { u.mesh with items := u.mesh.items ++ [{ src := .hub, pkt := s.finPacket p.src 0xA p.finVmod p.finTag p.finEd p.finShard 0 false [] }] } }) ∧
      (∀ j e, u.inService < 256 → j < 2 → e = s.edSlot j → e.serves p → (j = 1 → ¬ (s.edSlot 0).serves p) →
        (p.finShard = 0xFFFFFFFF → exec (.sreq i) s = .next { u with mesh := { u.mesh with items := u.mesh.items ++ s.objectPackets p e.man } }) ∧
        (∀ x v, p.finShard ≠ 0xFFFFFFFF → e.shards[p.finShard]? = some x →
          (u.readShard j x = (none, v) → exec (.sreq i) s = .next { v with
            mesh := { v.mesh with items := v.mesh.items ++ [{ src := .hub, pkt := v.finPacket p.src 0xA p.finVmod p.finTag p.finEd p.finShard 0 false [] }] } }) ∧
          (∀ data, u.readShard j x = (some data, v) →
            exec (.sreq i) s = .next { v with mesh := { v.mesh with items := v.mesh.items ++ v.objectPackets p data } })))) ∧
    (∀ pre f post h, s.fin.fetches = pre ++ f :: post → (∀ y ∈ pre, y.going = true) → f.going = false → (s.fin.fetches.filter (·.going)).length < 64 →
      h = (s.fin.holders.getD ((s.holdersOf f).getD f.pos 0) 0).toNat → bit h 31 = true → bit h 0 = false →
      exec .finfinRequest s = .next { s with
        fin := { s.fin with
          fetches := s.fin.fetches.map fun y => if y = f then { f with going := true, tag := s.fin.nextTag.toNat, sent := s.tick, via := BitVec.ofNat 32 h } else y
          nextTag := s.fin.nextTag + 1 }
        mesh := { s.mesh with items := s.mesh.items ++ [{ src := .hub, pkt := s.finPacket (bits h 16 1) 8 (s.vmodOf f.slot) s.fin.nextTag.toNat (s.edSlot f.slot).edition.toNat (f.obj.getD 0xFFFFFFFF) 0 false [] }] } }) ∧
    (64 ≤ (s.fin.fetches.filter (·.going)).length → exec .finfinRequest s = .next s) ∧
    (∀ pre f post, s.fin.fetches = pre ++ f :: post →
      (∀ i p u, AtHub s i 0xA p → u = { s with mesh := { s.mesh with items := s.mesh.items.eraseIdx i } } →
        f.going = true → f.tag = p.finTag → (∀ y ∈ pre, y.going = false ∨ y.tag ≠ p.finTag) →
        (f.pos + 1 < (s.holdersOf f).length → exec (.snone i) s = .next (u.withFetch f (f.again (f.pos + 1) f.round))) ∧
        ((s.holdersOf f).length ≤ f.pos + 1 → f.round < s.fin.rounds → exec (.snone i) s = .next (u.withFetch f (f.again 0 (f.round + 1)))) ∧
        ((s.holdersOf f).length ≤ f.pos + 1 → s.fin.rounds ≤ f.round → f.use = .load → f.slot < s.fin.slots.length → ∃ t, exec (.snone i) s = .next t ∧ Recorded s t 0x0805 ∧
          t.cores = s.cores ∧ (t.edSlot f.slot).state = .failed ∧ ∀ y ∈ t.fin.fetches, y.slot ≠ f.slot ∨ y.use ≠ .load)) ∧
      (f.going = true → (∀ y ∈ pre, y.going = true → f.sent < y.sent) → (∀ y ∈ post, y.going = true → f.sent ≤ y.sent) → f.pos + 1 < (s.holdersOf f).length →
        ∃ t, exec .shardTimeout s = .next t ∧ Recorded s t 0x0804 ∧ t.now = (s.advanceTick (f.sent + s.fin.timeout + 1)).now ∧ t.cores = s.cores ∧
          t.fin = (s.withFetch f (f.again (f.pos + 1) f.round)).fin) ∧
      (∀ i p u g n x e, AtHub s i 9 p → u = { s with mesh := { s.mesh with items := s.mesh.items.eraseIdx i } } → (∀ y ∈ s.fin.fetches, y.tag = p.finTag → y = f) →
        f.going = true → f.tag = p.finTag → (∀ w ∈ p.body, w.poison = false) →
        g = { f with parts := keyPut f.parts p.finPkt (p.body.flatMap fun w => natToBytes w.val.toNat 8) } →
        f.obj = some n → e = s.edSlot f.slot → e.shards[n]? = some x →
        (p.finLast = false → exec (.sdata i) s = .next (u.withFetch f g)) ∧
        (∀ data, p.finLast = true → data = g.parts.flatMap (·.2) →
          (data.length ≠ 256 * x.lines ∨ sha512 data ≠ x.digest → f.pos + 1 < (s.holdersOf f).length →
            ∃ t, exec (.sdata i) s = .next t ∧ Recorded s t 0x0803 ∧ t.cores = s.cores ∧ t.fin = (s.withFetch f (f.again (f.pos + 1) f.round)).fin) ∧
          (∀ k r, data.length = 256 * x.lines → sha512 data = x.digest → f.use = .load → x.tier = 0 → s.finCore x.vcore = some k → (s.core k).table[e.region.toNat]? = some r →
            r.valid = true → r.stock = true → r.kind = kindEdition → x.offset + x.lines ≤ r.cap → f.slot < s.fin.slots.length →
            ∃ t, exec (.sdata i) s = .next t ∧ (∀ j, j ≠ k → t.core j = s.core j) ∧
              (t.core k).mem = { (s.core k).mem with stock := putShardLines (s.core k).mem.stock (r.base + x.offset) data x.lines } ∧
              (t.edSlot f.slot).shards = modAt e.shards n (fun x => { x with ok := true, damaged := false, repair := false, given := false }) ∧
              (e.state = .loading → (∀ m y, e.shards[m]? = some y → m ≠ n → y.ok = true) → (t.edSlot f.slot).state = .verified) ∧
              t.fin.fetches = s.fin.fetches.filter (· != f)))))

/-- O47. LOAD, FINFIN_ABORT, REPAIR, ACTIVATE, RELEASE and FINFIN_REGISTER_WRITE in the slot states that R364 gives each, and the refusal 0x0806 of
any other, which changes nothing but the record (R335, R364, R375, R385). -/
def Obligations.EditionCommands : Prop :=
  ∀ (s : State) (v : Word32), s.fin.slots.length = 2 →
    (bit v.toNat 0 = true → bit v.toNat 2 = false → (s.edSlot (flag (bit v.toNat 1))).state = .empty →
      ((s.edSlot (flag (bit v.toNat 1))).region ≠ (s.edSlot (1 - flag (bit v.toNat 1))).region ∨ (s.edSlot (1 - flag (bit v.toNat 1))).state = .empty) →
      exec (.load v) s = .next { s with fin := Finfin.repaired { s.fin.ctrl v with
        slots := modAt s.fin.slots (flag (bit v.toNat 1)) fun e => { region := e.region, edition := e.edition, state := .loading } } v }) ∧
    (bit v.toNat 0 = true → ((s.edSlot (flag (bit v.toNat 1))).state ≠ .empty ∨
        (s.edSlot (flag (bit v.toNat 1))).region = (s.edSlot (1 - flag (bit v.toNat 1))).region ∧ (s.edSlot (1 - flag (bit v.toNat 1))).state ≠ .empty) →
      exec (.load v) s = .next (s.record 0x0806 5 0 0 0 (finDetail (flag (bit v.toNat 1)) (s.edSlot (flag (bit v.toNat 1))).edition []))) ∧
    (bit v.toNat 0 = false → bit v.toNat 2 = true → (s.edSlot (flag (bit v.toNat 1))).state = .loading →
      exec (.finfinAbort v) s = .next { s with fin := Finfin.repaired { s.fin.ctrl v with
        slots := modAt s.fin.slots (flag (bit v.toNat 1)) fun e => { region := e.region, edition := e.edition }
        fetches := s.fin.fetches.filter (·.slot != flag (bit v.toNat 1)) } v }) ∧
    (bit v.toNat 0 = false → bit v.toNat 2 = true → (s.edSlot (flag (bit v.toNat 1))).state ≠ .loading →
      exec (.finfinAbort v) s = .next (s.record 0x0806 5 0 0 0 (finDetail (flag (bit v.toNat 1)) (s.edSlot (flag (bit v.toNat 1))).edition []))) ∧
    (bit v.toNat 0 = false → bit v.toNat 2 = false → bit v.toNat 6 = true → exec (.repair v) s = .next { s with fin := Finfin.repaired (s.fin.ctrl v) v }) ∧
    (bits v.toNat 8 6 = 1 →
      (s.bar.phase ≠ .detached ∨ (s.edSlot 0).state ≠ .verified ∧ (s.edSlot 1).state ≠ .verified → exec (.activate v) s = .next { s with fin := s.fin.edited v }) ∧
      (s.bar.phase = .detached → (s.edSlot 0).state = .verified → exec (.activate v) s = .next { s with fin := { s.fin.edited v with
        activate := false
        slots := [{ s.edSlot 0 with state := .admitted }, if (s.edSlot 1).state = .admitted then { s.edSlot 1 with state := .resident } else s.edSlot 1] } }) ∧
      (s.bar.phase = .detached → (s.edSlot 0).state ≠ .verified → (s.edSlot 1).state = .verified → exec (.activate v) s = .next { s with fin := { s.fin.edited v with
        activate := false
        slots := [if (s.edSlot 0).state = .admitted then { s.edSlot 0 with state := .resident } else s.edSlot 0, { s.edSlot 1 with state := .admitted }] } })) ∧
    (∀ i, i < 2 → bits v.toNat 8 6 = 2 * 2 ^ i →
      ((s.edSlot i).state = .verified ∨ (s.edSlot i).state = .failed → exec (.release v) s = .next { s with fin := { s.fin.edited v with
        slots := modAt s.fin.slots i fun e => { region := e.region, edition := e.edition }
        fetches := s.fin.fetches.filter (·.slot != i) } }) ∧
      ((s.edSlot i).state = .resident → s.bar.phase ≠ .detached → exec (.release v) s = .next { s with
        fin := if i = 0 then { s.fin.edited v with release0 := true } else { s.fin.edited v with release1 := true } }) ∧
      ((s.edSlot i).state = .resident → s.bar.phase = .detached → ∃ t, exec (.release v) s = .next t ∧ (t.edSlot i).state = .empty ∧ (t.edSlot i).shards = [] ∧
        (∀ c ∈ s.cores, ∀ r h, c.2.table[(s.edSlot i).region.toNat]? = some r → h ∈ c.2.chan.handles → isOwner h.2.kind = true → h.2.stock = true →
          r.meets true h.2.base h.2.lines = true → (h.1, if h.2.state = .closed then h.2 else h.2.shut false) ∈ (c.2.closeOver r).chan.handles) ∧
        t.cores = s.cores.map fun c => (c.1, c.2.closeOver (c.2.table.getD (s.edSlot i).region.toNat {}))) ∧
      ((s.edSlot i).state = .empty → exec (.release v) s = .next { s with fin := s.fin.edited v }) ∧
      ((s.edSlot i).state = .admitted ∨ (s.edSlot i).state = .loading → exec (.release v) s = .next (s.record 0x0806 5 0 0 0 (finDetail i (s.edSlot i).edition [])))) ∧
    (((∀ e ∈ s.fin.slots, e.state ≠ .loading) →
        exec (.finfinRegisterWrite 0xA00010 v) s = .next { s with fin := { s.fin with source := v &&& 0xFFFF007F } } ∧
        exec (.finfinRegisterWrite 0xA0001C v) s = .next { s with fin := { s.fin with vmap := v &&& 0x801FFFFF } }) ∧
      ((∃ e ∈ s.fin.slots, e.state = .loading) → ∀ a ∈ [0xA00010, 0xA0001C],
        exec (.finfinRegisterWrite a v) s = .next (s.record 0x0806 5 0 0 0 (finDetail 0 (s.edSlot 0).edition [])))) ∧
    (∀ i, i < 2 →
      ((s.edSlot i).state = .empty →
        exec (.finfinRegisterWrite (0xA00020 + 8 * i) v) s = .next { s with fin := { s.fin with slots := modAt s.fin.slots i fun e => { e with region := v.setWidth 6 } } } ∧
        exec (.finfinRegisterWrite (0xA00024 + 8 * i) v) s = .next { s with fin := { s.fin with slots := modAt s.fin.slots i fun e => { e with edition := v } } }) ∧
      ((s.edSlot i).state ≠ .empty → ∀ a ∈ [0xA00020 + 8 * i, 0xA00024 + 8 * i],
        exec (.finfinRegisterWrite a v) s = .next (s.record 0x0806 5 0 0 0 (finDetail i (s.edSlot i).edition [])))) ∧
    (∀ n w, n < 256 → w < 4 →
      (s.anyAttached = false ∨ s.bar.phase = .held →
        exec (.finfinRegisterWrite (0xA01000 + 16 * n + 4 * w) v) s = .next { s with fin := { s.fin with streams := putWord s.fin.streams (4 * n + w) (v &&& streamMask w) } }) ∧
      (s.anyAttached = true → s.bar.phase ≠ .held →
        exec (.finfinRegisterWrite (0xA01000 + 16 * n + 4 * w) v) s = .next (s.record 0x0806 5 0 0 0 (finDetail (s.streamSlot n) (s.edSlot (s.streamSlot n)).edition []))))

/-! ## The journal -/

/-- O48. Export of the records that the ring has room for, with the RSEQ of the next record after them; the poll of the consumed RSEQ; the retry from
the first record kept; sealing a bank; SNAP and CHECKPOINT records (R402, R403, R405 to R407, R413). -/
def Obligations.JournalKept : Prop :=
  ∀ s : State,
    (∀ x m n batch, s.connUp s.jrnl.conn = true → x = s.conn s.jrnl.conn → m = max s.tick (s.host.eth.getD x.port {}).pfc → s.jrnl.size ≠ 0 →
      batch = fitRing s.jrnl.ring (recordBytes (s.jrnl.buf.take s.jrnl.sentN)) (s.jrnl.buf.drop s.jrnl.sentN) →
      n = ((s.jrnl.buf.drop (s.jrnl.sentN + batch.length)).head?.map (·.1)).getD s.jrnl.rseq →
      (batch = [] → exec .journalExport s = .next s) ∧
      (batch ≠ [] → exec .journalExport s = .next { s with
        jrnl := { s.jrnl with sentN := s.jrnl.sentN + batch.length, ringPos := ringAfter (1048576 * s.jrnl.size.toNat - 16) s.jrnl.ringPos batch }
        host := { s.host with
          plb := keyPut s.host.plb s.jrnl.conn { x with
            ops := x.ops ++ exportOps (x.base + s.jrnl.base) m (1048576 * s.jrnl.size.toNat - 16) s.jrnl.ringPos batch ++
              [{ use := .marker n, addr := x.base + (s.jrnl.base + BitVec.ofNat 64 (1048576 * s.jrnl.size.toNat - 16 + 8)), data := natToBytes n.toNat 8, leave := m }]
            tick := if x.ops = [] then s.tick else x.tick } } }) ∧
      (exec .journalConsumedPoll s = .next { s with
        host := { s.host with plb := keyPut s.host.plb s.jrnl.conn { x with
          ops := x.ops ++ [{ use := .consumed, addr := x.base + (s.jrnl.base + BitVec.ofNat 64 (1048576 * s.jrnl.size.toNat - 16)), len := 8, leave := m }]
          tick := if x.ops = [] then s.tick else x.tick } } })) ∧
    (s.connUp s.jrnl.conn = true → exec .journalExportRetry s = .next { s with jrnl := { s.jrnl with
      sentN := 0, ringPos := (s.jrnl.ringPos + s.jrnl.ring - recordBytes (s.jrnl.buf.take s.jrnl.sentN)) % s.jrnl.ring } }) ∧
    (s.connUp s.jrnl.conn = false → ∀ c ∈ [Instr.journalExport, .journalConsumedPoll, .journalExportRetry], exec c s = .next s) ∧
    (∀ b r l, s.jrnl.sealing = b :: r → l = s.virtualCores.flatMap (fun c => c.2.sealBytes b) →
      exec .sealComplete s = .next { s with
        jrnl := if b = 0 then { s.jrnl with sealing := r, sealed0 := some (sha512 l) } else { s.jrnl with sealing := r, sealed1 := some (sha512 l) } }) ∧
    (∀ (v : Word32) j u, j = { s.jrnl with enable := bit v.toNat 0, coresums := bit v.toNat 1, sealbank := bits v.toNat 3 3 } → u = { s with jrnl := j } →
      (bit v.toNat 2 = true → bits v.toNat 5 4 = 0 → exec (.seal v) s = .next { s with jrnl := { j with
        sealing := if bits v.toNat 3 3 ∈ s.jrnl.sealing then s.jrnl.sealing else s.jrnl.sealing ++ [bits v.toNat 3 3] } }) ∧
      (bit v.toNat 4 = true → s.bar.phase ≠ .held → exec (.snap v) s = .next (s.record 0x0907 5 0 0 0 0)) ∧
      (bit v.toNat 2 = false → bits v.toNat 5 4 = 1 →
        (∀ rs k, s.bar.phase = .held → j.on = true → rs = s.virtualCores.flatMap (fun c => c.2.table.map fun r => c.2.keepBytes r) →
          k = j.withRecord 8 s.bar.passNum (sha512 (rs.flatMap (·.1)) ++ natToBytes (rs.foldl (fun n r => n + r.2) 0) 8) → 2097152 ≤ k.free →
          exec (.snap v) s = .next { s with jrnl := k })) ∧
      (bit v.toNat 2 = false → bits v.toNat 5 4 = 2 →
        (j.on = false → exec (.checkpoint v) s = .next u) ∧
        (∀ b k, j.on = true → b = natToBytes s.moduleId.toNat 8 ++ natToBytes j.ckpt.toNat 8 ++ natToBytes (j.rseq - 1).toNat 8 ++ natToBytes j.ckptPass.toNat 8
            ++ natToBytes j.prevPass.toNat 8 ++ j.chain ++ natToBytes s.detProfile 4 ++ natToBytes 0 4 →
          k = j.withRecord 0xA j.prevPass (b ++ edSign s.sec.priv s.sec.pub b) → 2097152 ≤ k.free →
          exec (.checkpoint v) s = .next { s with jrnl := { k with ckpt := k.rseq, ckptPass := s.bar.passNum } })))

/-! ## Twin mode and the determinism registers -/

/-- O49. A twin summary of this pass from the partner is kept; once both packets are held the comparison sets TWIN_STATUS, or fails the pass with
0x0904, and the waiting wave is launched; the watchdog fails the pass with 0x0905; TWIN_CFG and PASS_CTRL may be written only while DETACHED (R387,
R399 to R401). -/
def Obligations.TwinCompares : Prop :=
  ∀ s : State,
    (∀ i p u, AtHub s i 0xB p → u = { s with mesh := { s.mesh with items := s.mesh.items.eraseIdx i } } →
      ((bit s.twin.cfg.toNat 0 = false ∨ BitVec.ofNat 64 (p.word 2) ≠ s.bar.passNum ∨ p.src ≠ s.partner) → s.bar.waitTwin = false →
        exec (.tsum i) s = .next u) ∧
      (∀ g, bit s.twin.cfg.toNat 0 = true → BitVec.ofNat 64 (p.word 2) = s.bar.passNum → p.src = s.partner → (∀ w ∈ p.body, w.poison = false) →
        g = keyPut s.twin.got p.finPkt (p.body.flatMap fun w => natToBytes w.val.toNat 8) →
        ((s.bar.waitTwin = false ∨ keyGet g 0 = none ∨ keyGet g 1 = none) → exec (.tsum i) s = .next { u with twin := { s.twin with got := g } }) ∧
        (∀ a b x, s.bar.waitTwin = true → keyGet g 0 = some a → keyGet g 1 = some b →
          x = (List.range 768).filter (fun n => numAt s.coreSums (8 * n) 8 != numAt (a ++ b) (8 * n) 8) →
          (x = [] → exec (.tsum i) s = .next (State.launchWave { u with twin := { s.twin with got := g, status := 1 }, bar := { s.bar with waitTwin := false } } 1)) ∧
          (∀ n l, x = n :: l → ∃ w, exec (.tsum i) s = .next (w.launchWave 1) ∧ Recorded s w 0x0904 ∧ w.cores = s.cores ∧ w.mesh = u.mesh ∧
            w.bar = { s.bar with fail := true, waitTwin := false } ∧
            w.twin = { s.twin with got := g, differs := true, status := BitVec.ofNat 32 (4 * x.length + 4096 * n) })))) ∧
    (s.overs = [] → s.bar.waitTwin = true → bits s.twin.cfg.toNat 12 8 ≠ 0 → ∃ w, exec .twinWatchdog s = .next (w.launchWave 1) ∧ Recorded s w 0x0905 ∧ w.cores = s.cores ∧
      w.now = (s.advanceTick (s.bar.finishTick + 2 ^ bits s.twin.cfg.toNat 12 8)).now ∧ w.twin = { s.twin with status := 2 } ∧
      w.bar = { s.bar with fail := true, waitTwin := false }) ∧
    ((s.bar.waitTwin = false ∨ bits s.twin.cfg.toNat 12 8 = 0) → exec .twinWatchdog s = .next s) ∧
    (∀ v : Word32,
      (s.bar.phase = .detached → exec (.passCtrlWrite v) s = .next { s with strict := bit v.toNat 0 }) ∧
      (s.bar.phase ≠ .detached → exec (.passCtrlWrite v) s = .next (s.record 0x0907 5 0 0 0 0)) ∧
      (s.bar.phase = .detached → (bit v.toNat 0 = true → s.strict = true) → ∀ n, n = bits v.toNat 12 8 →
        exec (.twinCfgWrite v) s = .next { s with
          twin := { s.twin with cfg := BitVec.ofNat 32 (bits v.toNat 4 0 + 256 * (if 1 ≤ n ∧ n ≤ 7 then 8 else n)) } }) ∧
      ((s.bar.phase ≠ .detached ∨ bit v.toNat 0 = true ∧ s.strict = false) → exec (.twinCfgWrite v) s = .next (s.record 0x0907 5 0 0 0 0)))

/-- O50. LATENCY_CONTRACT: its reset value, its refusals with 0x0109 and the value written, its effect and how it reads (R217). -/
def Obligations.LatencyContract : Prop :=
  (∀ s : State, s = State.reset → s.lc = s.lcNative) ∧
  ∀ (s : State) (v : Word32) (w : Who),
    ((bit s.lcSupported (bits v.toNat 7 0) = false ∨ bits v.toNat 7 0 ≠ s.lc ∧ ∃ c ∈ s.cores, c.2.ctl.attached = true) →
      exec (.latencyContractWrite v) s = .next (s.record 0x0109 5 0 0 0 v.toNat) ∧
      s.regWrite w 0x100040 v = (.refused 0x0109, s.record 0x0109 5 0 0 0 v.toNat) ∧ (s.record 0x0109 5 0 0 0 v.toNat).bar = s.bar) ∧
    (bit s.lcSupported (bits v.toNat 7 0) = true → (bits v.toNat 7 0 = s.lc ∨ ∀ c ∈ s.cores, c.2.ctl.attached = false) →
      exec (.latencyContractWrite v) s = .next { s with lc := bits v.toNat 7 0 }) ∧
    (s.lc < 256 → ∃ x t, s.regRead 0x100040 = (some x, t) ∧ bits x.toNat 7 0 = s.lc ∧ (bit x.toNat 8 = true ↔ s.lc ≠ s.lcNative) ∧ bits x.toNat 31 9 = 0)

/-! ## Ethernet and plane B -/

/-- O51. Frames that a port answers, honours or discards and counts; a link that is lost or comes up; the answers, the congestion notices, the retries
and the failures of plane-B connections, and the writes of their table (R433 to R435, R443, R444, R453). -/
def Obligations.PortsAndConnections : Prop :=
  (∀ (s : State) (e : Nat) (d : State), s.ethUp e = true → d = { s with host := { s.host with eth := modAt s.host.eth e fun x => { x with drop := satInc x.drop 1 } } } →
    (∀ ip, (ip ≠ 0 → (s.eth e).ip4 = ip → exec (.arpRequest e ip) s = .next { s with host := { s.host with answers := s.host.answers ++ [{ port := e, kind := 1, data := natToBytes (s.eth e).mac 6, tag := s.tagOf e }] } }) ∧
      ((ip = 0 ∨ (s.eth e).ip4 ≠ ip) → exec (.arpRequest e ip) s = .next d)) ∧
    (∀ ip, (ip ≠ 0 → (s.eth e).addr6 = ip.toNat → exec (.neighborDiscovery e ip) s = .next { s with host := { s.host with answers := s.host.answers ++ [{ port := e, kind := 2, data := natToBytes (s.eth e).mac 6, tag := s.tagOf e }] } }) ∧
      ((ip = 0 ∨ (s.eth e).addr6 ≠ ip.toNat) → exec (.neighborDiscovery e ip) s = .next d)) ∧
    (∀ v6 ip data, (ip ≠ 0 → (if v6 = true then (s.eth e).addr6 else (s.eth e).ip4.toNat) = ip.toNat →
        exec (.icmpEcho e v6 ip data) s = .next { s with host := { s.host with answers := s.host.answers ++ [{ port := e, kind := 3, data := data, tag := s.tagOf e }] } }) ∧
      ((ip = 0 ∨ (if v6 = true then (s.eth e).addr6 else (s.eth e).ip4.toNat) ≠ ip.toNat) → exec (.icmpEcho e v6 ip data) s = .next d)) ∧
    exec (.pauseFrame e) s = .next d ∧ exec (.ethFrameDiscard e) s = .next d ∧
    (∀ (prio : BitVec 8) (time : BitVec 16),
      ((e < 4 ∨ bit (s.eth e).cfg.toNat 2 = false) → exec (.pfcFrame e prio time) s = .next d) ∧
      (4 ≤ e → bit (s.eth e).cfg.toNat 2 = true → prio.getLsbD (bits (s.eth e).cfg.toNat 5 3) = true →
        exec (.pfcFrame e prio time) s = .next { s with host := { s.host with
          eth := modAt s.host.eth e fun x => { x with pfc := s.tick + (time.toNat * 256 + 999) / 1000 }
          plb := s.host.plb.map fun x => if x.2.port = e then (x.1, { x.2 with
            ops := x.2.ops.map fun o => if s.tick < o.leave then { o with leave := s.tick + (time.toNat * 256 + 999) / 1000 } else o }) else x } }) ∧
      (4 ≤ e → bit (s.eth e).cfg.toNat 2 = true → prio.getLsbD (bits (s.eth e).cfg.toNat 5 3) = false → exec (.pfcFrame e prio time) s = .next s)) ∧
    (e < 8 → (∀ x ∈ s.host.plb, x.2.port = e → x.2.state ≠ 1) → exec (.ethLinkChange e false) s = .next (State.record { s with
      host := { s.host with eth := modAt s.host.eth e fun x => { x with up := false, anDone := false, fec := false, changes := x.changes + 1, pfc := 0 } } } 0x0460 4 e 0 0 0))) ∧
  (∀ (s : State) (e : Nat), s.ethUp e = false →
    (∀ c ip ip6 v6 data prio time, c ∈ [Instr.arpRequest e ip, .neighborDiscovery e ip6, .icmpEcho e v6 ip6 data, .pauseFrame e, .ethFrameDiscard e, .pfcFrame e prio time] → exec c s = .next s) ∧
    (e < 8 → s.power.mainOn = true → bit (s.eth e).cfg.toNat 0 = true → (∀ x ∈ s.host.plb, x.2.port = e → x.2.state ≠ 0) →
      ((s.eth e).seen = false → exec (.ethLinkChange e true) s = .next { s with
        host := { s.host with eth := modAt s.host.eth e fun x => { x with up := true, seen := true, anDone := bit x.cfg.toNat 1, fec := true } } }) ∧
      ((s.eth e).seen = true → exec (.ethLinkChange e true) s = .next (State.record { s with
        host := { s.host with eth := modAt s.host.eth e fun x => { x with up := true, seen := true, anDone := bit x.cfg.toNat 1, fec := true } } } 0x0460 4 e 0 0 0)))) ∧
  (∀ (s : State) (c : Nat) (x : PlbConn) (put : PlbConn → State), x = s.conn c → (put = fun y => { s with host := { s.host with plb := keyPut s.host.plb c y } }) →
    (s.connUp c = true →
      (∀ o r ok data, x.ops = o :: r → s.tick < o.leave → exec (.roceResponse c ok data) s = .next s) ∧
      (∀ o r data, x.ops = o :: r → o.leave ≤ s.tick →
        (((∃ q, o.use = .records q) ∨ (∃ q, o.use = .marker q)) → exec (.roceResponse c true data) s = .next (put { x with ops := r, retries := 0, tick := s.tick })) ∧
        (o.use = .consumed → data.length = o.len → exec (.roceResponse c true data) s = .next ((put { x with ops := r, retries := 0, tick := s.tick }).consume (BitVec.ofNat 64 (leNat data)))) ∧
        (∀ tag ok, o.use = .fetch tag → exec (.roceResponse c ok data) s = .next ((put { x with ops := r, retries := 0, tick := s.tick }).fetchReply tag ok data))) ∧
      exec (.cnp c) s = .next (put { x with rateExp := x.rateExp + 1, cnpTick := s.tick }) ∧
      (∀ u, s.overs = [] → u = s.advanceTick (x.cnpTick + 5000) → x.rate < 2 ^ x.rateExp → exec (.rateRestore c) s = .next { put { x with rate := min (x.rate + 2 ^ x.rateExp / 16) (2 ^ x.rateExp), cnpTick := u.tick } with now := u.now }) ∧
      (2 ^ x.rateExp ≤ x.rate → exec (.rateRestore c) s = .next s) ∧
      (∀ u o r, s.overs = [] → x.ops = o :: r → u = s.advanceTick (max x.tick o.leave + 6710887) →
        (x.retries < 7 → exec (.roceAckTimeout c) s = .next { put { x with retries := x.retries + 1, tick := u.tick } with now := u.now }) ∧
        (7 ≤ x.retries → (∀ o ∈ x.ops, ∀ tag, o.use ≠ .fetch tag) → s.jrnl.conn ≠ c → ∃ t, exec (.roceAckTimeout c) s = .next t ∧ Recorded s t 0x0461 ∧ t.now = u.now ∧
          t.conn c = { x with state := 2, fails := x.fails + 1, retries := 0, ops := [], tick := u.tick }))) ∧
    (bit x.w0.toNat 0 = true →
      (s.ethUp x.port = true → exec (.roceRequestNak c) s = .next { s with host := { s.host with answers := s.host.answers ++ [{ port := x.port, kind := 4, data := natToBytes (0x100 + c) 3, tag := s.tagOf x.port }] } }) ∧
      (∀ u, s.overs = [] → x.state = 2 → u = s.advanceTick (x.tick + 1000000) →
        (s.ethUp x.port = true → exec (.roceReestablish c) s = .next { put { x with state := 1, retries := 0, rate := 16, rateExp := 4, ops := [] } with now := u.now }) ∧
        (s.ethUp x.port = false → exec (.roceReestablish c) s = .next { put { x with tick := u.tick } with now := u.now }))) ∧
    (bit x.w0.toNat 0 = false → s.ethUp x.port = true → ∀ ok data, exec (.roceResponse c ok data) s = .next { s with
      host := { s.host with eth := modAt s.host.eth x.port fun y => { y with drop := satInc y.drop 1 } } }) ∧
    (∀ w v, c < 256 → w < 16 →
      (bit x.w0.toNat 0 = true → (w ≠ 0 ∨ bit v.toNat 0 = true) → exec (.plbConnWrite (0x704000 + 64 * c + 4 * w) v) s = .next (s.record 0x0463 5 0 0 0 0)) ∧
      (bit x.w0.toNat 0 = true → w = 0 → bit v.toNat 0 = false → x.ops = [] →
        exec (.plbConnWrite (0x704000 + 64 * c) v) s = .next (put { x with w0 := v &&& 0xFFFFFF0F, state := 0, ops := [] })) ∧
      (bit x.w0.toNat 0 = false → (w ≠ 0 ∨ bit v.toNat 0 = false) → exec (.plbConnWrite (0x704000 + 64 * c + 4 * w) v) s = .next (put (
        if w = 0 then { x with w0 := v &&& 0xFFFFFF0F } else if w = 1 then { x with w1 := v &&& 0xFFFFFF } else if w = 2 then { x with w2 := v }
        else if 4 ≤ w ∧ w < 8 then { x with ip := x.ip.set (w - 4) v } else if w = 8 then { x with base := setLo x.base v }
        else if w = 9 then { x with base := setHi x.base v } else x))) ∧
      (∀ y, bit x.w0.toNat 0 = false → w = 0 → bit v.toNat 0 = true → y = { x with w0 := v &&& 0xFFFFFF0F } →
        exec (.plbConnWrite (0x704000 + 64 * c) v) s = .next (put (if s.ethUp y.port = true then { y with state := 1, retries := 0, rate := 16, rateExp := 4, ops := [] } else { y with state := 0 })))))

/-! ## The management interface and JTAG -/

/-- O52. Frames of one word on the management bus and through DBGACC, the dynamic address, and the JTAG instructions: BYPASS, IDCODE, SAMPLE/PRELOAD,
EXTEST (as BYPASS while a core is attached) and DBGACC (as BYPASS unless enabled) (R4, R497 to R499). -/
def Obligations.ManagementAnswers : Prop :=
  ∀ s : State,
    (s.board.standby = true → s.board.low = false →
      (∀ addr count, (addr.toNat % 4 ≠ 0 ∨ count = 0 ∨ 64 < count) → exec (.mgmtRead addr count) s = .next { s with
        board := { s.board with mgmtOut := s.board.mgmtOut ++ [natToBytes stMalformed 1 ++ natToBytes (count - 1) 1] } }) ∧
      (∀ addr, addr.toNat % 4 = 0 →
        (s.permits .mgmt false addr.toNat = false → exec (.mgmtRead addr 1) s = .next { s with
          board := { s.board with mgmtOut := s.board.mgmtOut ++ [natToBytes stDenied 1 ++ natToBytes 0 1] } }) ∧
        (∀ v t, s.permits .mgmt false addr.toNat = true → s.regRead addr.toNat = (v, t) → exec (.mgmtRead addr 1) s = .next { t with
          board := { t.board with mgmtOut := t.board.mgmtOut ++
            [natToBytes (if v.isNone = true then stUnmapped else stOk) 1 ++ natToBytes 0 1 ++ natToBytes (v.getD 0).toNat 4] } }) ∧
        (∀ w : Word32, s.permits .mgmt true addr.toNat = false → exec (.mgmtWrite addr [w]) s = .next { s with
          board := { s.board with mgmtOut := s.board.mgmtOut ++ [natToBytes stDenied 1 ++ natToBytes 0 1 ++ natToBytes 0xFF 1 ++ List.replicate 3 0xFF] } }) ∧
        (∀ (w : Word32) r t, s.permits .mgmt true addr.toNat = true → s.regWrite .mgmt addr.toNat w = (r, t) → exec (.mgmtWrite addr [w]) s = .next { t with
          board := { t.board with mgmtOut := t.board.mgmtOut ++ [(match r with
            | .done => natToBytes stOk 1 ++ natToBytes 0 1 ++ natToBytes 0xFF 1
            | .unmapped => natToBytes stUnmapped 1 ++ natToBytes 0 1 ++ natToBytes 0xFF 1
            | .refused _ => natToBytes stRefused 1 ++ natToBytes 0 1 ++ natToBytes 0 1) ++ List.replicate 3 0xFF] } })) ∧
      (s.board.smbus = false → ∀ a : BitVec 7, exec (.mgmtDynamicAddress a) s = .next { s with board := { s.board with mgmtAddr := some a.toNat } }) ∧
      (s.board.smbus = true → ∀ a, exec (.mgmtDynamicAddress a) s = .next s) ∧
      (∀ write addr count words, s.sec.debug = false → exec (.dbgacc write addr count words) s = .next { s with
        board := { s.board with ir := 0, driven := none, jtagOut := s.board.jtagOut ++ [[0]] } }) ∧
      (∀ addr v t words, s.sec.debug = true → addr.toNat % 4 = 0 → s.permits .jtag false addr.toNat = true → s.regRead addr.toNat = (v, t) →
        exec (.dbgacc false addr 1 words) s = .next { t with
          board := { t.board with ir := 4, driven := none, jtagOut := t.board.jtagOut ++
            [natToBytes (if v.isNone = true then stUnmapped else stOk) 1 ++ natToBytes 0 1 ++ natToBytes (v.getD 0).toNat 4] } })) ∧
    (s.board.standby = true →
      exec .bypass s = .next { s with board := { s.board with ir := 0, driven := none, jtagOut := s.board.jtagOut ++ [[0]] } } ∧
      exec .idcode s = .next { s with board := { s.board with
        ir := 1, driven := none, jtagOut := s.board.jtagOut ++ [natToBytes (if s.stepB = true then 0x24768BA7 else 0x14768BA7) 4] } } ∧
      (∀ pins load, exec (.samplePreload pins load) s = .next { s with board := { s.board with
        ir := 2, driven := none, scan := load, jtagOut := s.board.jtagOut ++ [natToBytes pins.toNat 8] } }) ∧
      (∀ pins load, s.anyAttached = false → exec (.extest pins load) s = .next { s with board := { s.board with
        ir := 3, driven := some load, scan := load, jtagOut := s.board.jtagOut ++ [natToBytes pins.toNat 8] } }) ∧
      (∀ pins load, s.anyAttached = true → exec (.extest pins load) s = .next { s with board := { s.board with
        ir := 0, driven := none, jtagOut := s.board.jtagOut ++ [[0]] } }))

/-! ## Power-up, boot, reset -/

/-- O53. Standby power up and down, the check of firmware candidates, main power, the end of self-test, and module reset: what each step of the boot
decides, what is kept and what is lost (R474 to R482, R485, R494, R496, R500, R501). -/
def Obligations.BootAndReset : Prop :=
  (∀ (s : State) (x cert : List Byte) (mac : BitVec 48) (slot : BitVec 3) (bench : BitVec 13) (smbus refA refB : Bool) (seed0 seed1 : Option (List Byte)) (pub : List Byte),
    s.board.standby = false → (seed0 = some x ∨ seed0 = none ∧ seed1 = some x) → pub = edPublic ((sha512 ([0x44, 0x4B] ++ x)).take 32) →
    ∃ t, exec (.standbyPowerUp seed0 seed1 cert mac slot bench smbus refA refB) s = .next t ∧ t.pending = s.pending ∧ t.cores = [] ∧ t.power.mainOn = false ∧
      t.board.standby = true ∧ t.board.slotStrap = slot ∧ t.board.smbus = smbus ∧ t.route.self = slot ++ bench ∧ t.moduleId = BitVec.ofNat 64 (leNat ((sha512 pub).take 8)) ∧
      t.sec.pub = pub ∧ t.sec.certPub = cert ∧ t.sec.flash = s.sec.flash ∧ t.sec.ownerRec = s.sec.ownerRec ∧ t.sec.floorRec = s.sec.floorRec ∧ (t.sec.helper1 = true ↔ seed0 = none) ∧
      t.clk.refA.present = refA ∧ t.clk.refB.present = refB ∧
      (∀ e < 8, ((t.eth e).macHi ++ (t.eth e).macLo : BitVec 48) = mac + BitVec.ofNat 48 e) ∧
      (pub ≠ cert → t.sec.stage = .haltId ∧ Recorded {} t 0x0701) ∧
      (pub = cert → t.sec.stage = .romFw ∧ t.sec.tried = [] ∧
        (s.sec.floorRec = none → t.sec.floor = 0 ∧ t.sec.floorBad = false ∧ t.faults = {}) ∧
        (∀ r, s.sec.floorRec = some r →
          (edVerify pub (natToBytes t.moduleId.toNat 8 ++ natToBytes r.seq.toNat 8 ++ natToBytes r.svn.toNat 4) r.sign = true → t.sec.floor = r.svn ∧ t.sec.floorBad = false ∧ t.faults = {}) ∧
          (edVerify pub (natToBytes t.moduleId.toNat 8 ++ natToBytes r.seq.toNat 8 ++ natToBytes r.svn.toNat 4) r.sign = false → t.sec.floor = 0 ∧ t.sec.floorBad = true ∧ Recorded {} t 0x0703)))) ∧
  (∀ s : State, s.board.standby = true → ∃ t, exec .standbyPowerDown s = .next t ∧ t.board.standby = false ∧ t.power.mainOn = false ∧ t.cores = [] ∧ t.pending = s.pending ∧
    t.faults = {} ∧ t.host = {} ∧ t.sec.flash = s.sec.flash ∧ t.sec.ownerRec = s.sec.ownerRec ∧ t.sec.floorRec = s.sec.floorRec ∧ t.sec.ops = [] ∧
    (∀ o w r, s.sec.ops = .program o w :: r → o ∈ t.sec.torn)) ∧
  (∀ s : State, s.sec.stage = .romFw → s.board.standby = true → s.board.low = false →
    (s.candidate = none → exec .imageCheck s = .next (State.record { s with sec := { s.sec with stage := .haltFw } } 0x0702 5 0 0 0 0)) ∧
    (∀ i, s.candidate = some i → s.imageGood i = true → exec .imageCheck s = .next { s with
      sec := { s.sec with stage := .fwStart, slot := i, svn := BitVec.ofNat 32 (s.slotSvn i), image := sha512 (s.imageBytes i) } }) ∧
    (∀ i t, s.candidate = some i → s.imageGood i = false →
      t = State.record { s with sec := { s.sec with tried := s.sec.tried ++ [i] } } 0x0704 5 0 0 0 (pack [(1, i), (32, s.slotSvn i)]) →
      (t.candidate ≠ none → exec .imageCheck s = .next t) ∧
      (t.candidate = none → exec .imageCheck s = .next (State.record { t with sec := { t.sec with stage := .haltFw } } 0x0702 5 0 0 0 0))) ∧
    (∀ i, s.candidate = some i → (i = 0 ∨ i = 1) ∧ s.isCandidate i = true ∧ (s.isCandidate (1 - i) = true → s.slotSvn (1 - i) < s.slotSvn i ∨ i = 0 ∧ s.slotSvn 1 = s.slotSvn 0))) ∧
  (∀ s : State, s.sec.stage = .fwStart →
    (s.power.mainOn = false → s.power.excursion = false → s.power.tripped = 0 → s.board.low = false → exec .mainRegulation s = .next { s with power := { s.power with mainOn := true } }) ∧
    (∀ bridges stops, s.power.mainOn = true → s.board.tested = false → (∀ p < 24, bit (s.port p).cfg.toNat 0 = false) →
      (s.sec.ownerRec = none → exec (.selfTestComplete [] [] bridges stops) s = .next { s with
        board := { s.board with coresFailed := [], tested := true }
        mesh := { s.mesh with aligned := true, bridgeOk := bridges, stopsFailed := BitVec.ofNat 10 (min stops 768), offsets := s.freeCtr, realignAt := 0 }
        freeCtr := s.freeCtr + 4096
        sec := { s.sec with owned := false, stage := .ready } }) ∧
      (∀ r, s.sec.ownerRec = some r → edVerify s.sec.pub (natToBytes s.moduleId.toNat 8 ++ natToBytes r.seq.toNat 8 ++ r.body) r.sign = true →
        exec (.selfTestComplete [] [] bridges stops) s = .next { s with
          board := { s.board with coresFailed := [], tested := true }
          mesh := { s.mesh with aligned := true, bridgeOk := bridges, stopsFailed := BitVec.ofNat 10 (min stops 768), offsets := s.freeCtr, realignAt := 0 }
          freeCtr := s.freeCtr + 4096
          sec := { s.sec with owned := true, stage := .ready } })) ∧
    (∀ failed crossings bridges stops, s.power.mainOn = true → s.board.tested = false → (∀ p < 24, bit (s.port p).cfg.toNat 0 = false) →
      ∃ t, exec (.selfTestComplete failed crossings bridges stops) s = .next t ∧ t.board.tested = true ∧ t.board.coresFailed = (List.range 768).filter failed.contains ∧
        t.sec.stage = .ready ∧ t.mesh.aligned = crossings.isEmpty ∧ t.mesh.stopsFailed = BitVec.ofNat 10 (min stops 768) ∧ t.cores = s.cores ∧ t.now = s.now ∧
        (∀ b < 4, t.mesh.bridgeOk.getLsbD b = (bridges.getLsbD b && !(crossings.any fun c => bridgeOf c.1 c.2 == some b))))) ∧
  (∀ s : State, s.board.standby = true → s.board.low = false → ∃ t, exec .modResetAssert s = .next t ∧ t.board.low = true ∧ t.power.mainOn = false ∧ t.cores = [] ∧
    t.pending = s.pending ∧ t.now = s.now ∧ t.sec.flash = s.sec.flash ∧ t.clk = s.clk ∧ t.tel = s.tel ∧ t.board.mgmtOut = [] ∧
    (s.anyAttached = false → t.faults = s.faults ∧ (s.power.tripped = 0 → t.board.cause = 1)) ∧
    (s.anyAttached = true → Recorded s t 0x0641 ∧ (s.power.tripped = 0 → t.board.cause = 2)) ∧ (s.power.tripped ≠ 0 → t.board.cause = s.board.cause)) ∧
  (∀ (s : State) (slot : BitVec 3) (bench : BitVec 13) (smbus : Bool), s.board.low = true → s.sec.floorRec = none →
    ∃ t, exec (.modResetRelease slot bench smbus) s = .next t ∧ t.board.low = false ∧ t.cores = [] ∧ t.pending = s.pending ∧ t.now = s.now ∧ t.faults = s.faults ∧
      t.clk = { s.clk with force := 0, thermal := 0, power := 0, droop := 0, hot := false } ∧ t.tel.energy = s.tel.energy ∧ t.tel.therm = 0x5A ∧
      t.sec.flash = s.sec.flash ∧ t.sec.ownerRec = s.sec.ownerRec ∧ t.sec.debug = false ∧ t.sec.owned = false ∧ t.sec.win = [] ∧
      t.route = { self := slot ++ bench } ∧ t.power.limit = 0x578 ∧ t.power.excursion = s.power.excursion ∧ t.power.tripped = 0 ∧ t.host = { eth := ethWithMac s.sec.macBase } ∧
      t.board.cause = s.board.cause ∧ t.board.resets = s.board.resets + 1 ∧ t.board.slotStrap = slot ∧ t.board.smbus = smbus ∧
      (s.sec.stage = .haltId → t.sec.stage = .haltId) ∧ (s.sec.stage ≠ .haltId → t.sec.stage = .romFw ∧ t.sec.tried = [] ∧ t.sec.floor = 0))

/-! ## Firmware update, floor and owner record -/

/-- O54. The three commands of SEC_CTRL: a block of the slot that is not running is programmed from the window, the floor rises to the SVN of the
running image at the word of a proved session, and an owner record that meets its conditions takes effect at once (R482, R484, R486, R490). -/
def Obligations.FlashCommands : Prop :=
  (∀ (s : State) (w : Who),
    (s.sec.stage = .haltId → exec (.program w) s = .next s) ∧
    (s.sec.stage ≠ .haltId →
      (s.proved w = false ∨ s.mayProgram s.sec.flashOff.toNat = false → exec (.program w) s = .next (State.record s 0x0706 5 0 0 0 0)) ∧
      (s.proved w = true → s.mayProgram s.sec.flashOff.toNat = true →
        exec (.program w) s = .next { s with sec := { s.sec with ops := s.sec.ops ++ [.program s.sec.flashOff.toNat s.sec.win] } })) ∧
    (∀ o, s.mayProgram o = true ↔ o % 65536 = 0 ∧ ∃ i, i < 2 ∧ 0x2000000 * (i + 1) ≤ o ∧ o < 0x2000000 * (i + 2) ∧
      ¬((s.sec.stage = .fwStart ∨ s.sec.stage = .ready) ∧ s.sec.slot = i))) ∧
  (∀ (s : State) (o : Nat) (win : List Host.Cell), s.sec.ops = [.program o win] → (∀ c ∈ win, c.1 < 65536) →
    ∃ t, exec .programComplete s = .next t ∧
      t = { s with sec := { s.sec with ops := [], flash := t.sec.flash, torn := s.sec.torn.filter (· != o) } } ∧
      ∀ a, cellGet t.sec.flash a = if o ≤ a ∧ a < o + 65536 then cellGet win (a - o) else cellGet s.sec.flash a) ∧
  (∀ s : State, s.sec.ops = [] → exec .programComplete s = .next s) ∧
  (∀ (s : State) (n : Nat) (x : Session), keyGet s.host.sessions n = some x → x.proved = true → s.sec.stage = .ready →
    (s.sec.ops ≠ [] → exec (.floorCommit (.session n)) s = .next { s with sec := { s.sec with ops := s.sec.ops ++ [.floor] } }) ∧
    (s.sec.ops = [] → s.sec.svn.toNat < s.sec.floor.toNat → exec (.floorCommit (.session n)) s = .next (State.record s 0x0706 5 0 0 0 0)) ∧
    (s.sec.ops = [] → s.sec.floor.toNat ≤ s.sec.svn.toNat → ∀ q, (s.sec.floorRec = none ∧ q = 1 ∨ ∃ r, s.sec.floorRec = some r ∧ q = r.seq + 1) →
      exec (.floorCommit (.session n)) s = .next { s with sec := { s.sec with
        floor := s.sec.svn
        floorRec := some { seq := q, svn := s.sec.svn, sign := edSign s.sec.priv s.sec.pub (natToBytes s.moduleId.toNat 8 ++ natToBytes q.toNat 8 ++ natToBytes s.sec.svn.toNat 4) } } })) ∧
  (∀ (s : State) (w : Who), (s.sec.stage ≠ .ready ∨ w = .mgmt ∨ w = .jtag ∨ ∃ n, w = .session n ∧ s.proved w = false) →
    exec (.floorCommit w) s = .next (State.record s 0x0706 5 0 0 0 0)) ∧
  (∀ (s : State) (w : Who) (body : List Byte), body = cellRead s.sec.win 0 208 →
    (s.sec.stage ≠ .ready → exec (.ownerCommit w) s = .next (State.record s 0x0707 5 0 0 0 0)) ∧
    (s.sec.stage = .ready → s.sec.ops ≠ [] → exec (.ownerCommit w) s = .next { s with sec := { s.sec with ops := s.sec.ops ++ [.owner body (w == .mgmt)] } }) ∧
    (s.sec.stage = .ready → s.sec.ops = [] → s.ownerAccepted body (w == .mgmt) = false → exec (.ownerCommit w) s = .next (State.record s 0x0707 5 0 0 0 0)) ∧
    (s.sec.stage = .ready → s.sec.ops = [] → s.ownerAccepted body (w == .mgmt) = true → ∀ q, (s.sec.ownerRec = none ∧ q = 1 ∨ ∃ r, s.sec.ownerRec = some r ∧ q = r.seq + 1) →
      ∃ t, exec (.ownerCommit w) s = .next t ∧
        t = { s with
          sec := { s.sec with owned := true, debug := false, ownerRec := some { seq := q, body := body, sign := edSign s.sec.priv s.sec.pub (natToBytes s.moduleId.toNat 8 ++ natToBytes q.toNat 8 ++ body) } }
          host := { s.host with sessions := t.host.sessions } } ∧
        (∀ n x, keyGet t.host.sessions n = some x → keyGet s.host.sessions n = some x ∧
          (x.proved = true → x.key < 4 ∧ bit (numAt body (136 + x.key) 1) 7 = true ∧ bit (numAt body (136 + x.key) 1) 0 = true)) ∧
        (∀ n x, keyGet s.host.sessions n = some x →
          (∀ y ∈ s.host.sessions, y.1 = n → y.2 = x) →
          (x.proved = true → x.key < 4 ∧ bit (numAt body (136 + x.key) 1) 7 = true ∧ bit (numAt body (136 + x.key) 1) 0 = true) → keyGet t.host.sessions n = some x))) ∧
  (∀ (s : State) (body : List Byte) (free : Bool), s.ownerAccepted body free = true ↔
    (∃ i, i < 4 ∧ bit (numAt body (136 + i) 1) 7 = true ∧ bit (numAt body (136 + i) 1) 2 = true) ∧
    ((s.sec.owned = false ∨ s.sec.ownerRec = none) ∧ numAt body 140 1 = 0xFF ∧ 1 ≤ numAt body 0 8 ∧ free = true ∨
      ∃ r i, s.sec.owned = true ∧ s.sec.ownerRec = some r ∧ i = numAt body 140 1 ∧ i < 4 ∧ bit (numAt r.body (136 + i) 1) 7 = true ∧ bit (numAt r.body (136 + i) 1) 2 = true ∧
        numAt r.body 0 8 < numAt body 0 8 ∧
        edVerify ((r.body.drop (8 + 32 * i)).take 32) (natToBytes s.moduleId.toNat 8 ++ body.take 144) (body.drop 144) = true))

/-! ## Clocks, throttling, supply -/

/-- O55. The monitor of the two references: the loss of a reference, the switchover, holdover and the way out of it, drift in holdover, the return to
the preferred reference, and the enables of CLK_CFG (R454, R455, R457, R473). That a reference which is not the active one is lost without a record is
the model's reading (log 20). -/
def Obligations.ReferenceMonitor : Prop :=
  (∀ (s : State) (r : Nat), s.monitored r = true ↔ s.board.standby = true ∧ (r = 0 ∨ r = 1) ∧ bit s.clk.cfg.toNat (2 + r) = true) ∧
  (∀ (s : State) (r : Nat) (u : State), u = { s with clk := s.clk.modRef r fun x => { x with present := false, since := s.tick } } →
    (s.monitored r = false → exec (.refNoEdge r) s = .next s) ∧
    ((s.clk.ref r).present = false → exec (.refNoEdge r) s = .next s) ∧
    (s.monitored r = true → (s.clk.ref r).present = true →
      (s.clk.active ≠ r → exec (.refNoEdge r) s = .next u) ∧
      (s.clk.active = r → (s.clk.ref (1 - r)).present = true → exec (.refNoEdge r) s =
        .next (State.record { u with clk := { u.clk with active := 1 - r, switches := s.clk.switches + 1 } } 0x0601 6 r 0 0 0)) ∧
      (s.clk.active = r → (s.clk.ref (1 - r)).present = false → exec (.refNoEdge r) s =
        .next (State.record { u with clk := { u.clk with holdover := true, switches := s.clk.switches + 1 } } 0x0602 6 r 0 0 0)))) ∧
  (∀ (s : State) (r : Nat) (off : BitVec 16) (u : State), s.monitored r = true →
    u = { s with clk := s.clk.modRef r fun x => { x with offset := off, since := if x.present = false ∧ 2000 < off.toInt.natAbs then s.tick else x.since } } →
    (off.toInt.natAbs ≤ 5000 → exec (.refMonitorWindow r off false) s = .next u) ∧
    (5000 < off.toInt.natAbs → exec (.refMonitorWindow r off false) s = exec (.refNoEdge r) u) ∧
    (off.toInt.natAbs ≤ 5000 → s.clk.holdover = true → s.clk.holdLimit = false → exec (.refMonitorWindow r off true) s =
      .next (State.record { u with clk := { u.clk with holdLimit := true } } 0x0604 6 s.clk.active 0 0 0)) ∧
    (off.toInt.natAbs ≤ 5000 → s.clk.holdover = false ∨ s.clk.holdLimit = true → exec (.refMonitorWindow r off true) s = .next u)) ∧
  (∀ (s : State) (r : Nat) (v u : State), s.overs = [] → s.monitored r = true → (s.clk.ref r).present = false → (s.clk.ref r).offset.toInt.natAbs ≤ 2000 →
    v = s.advanceTick ((s.clk.ref r).since + 1000000) →
    u = { v with clk := v.clk.modRef r fun x => { x with present := true, since := v.tick } } →
    (s.clk.holdover = true → exec (.refPresent r) s =
      .next (State.record { u with clk := { u.clk with holdover := false, holdLimit := false, active := r } } 0x0603 6 r 0 0 0)) ∧
    (s.clk.holdover = false → s.clk.active ≠ r → (s.clk.ref s.clk.active).present = true → (s.clk.active = 0 ∨ s.clk.active = 1) → exec (.refPresent r) s = .next u) ∧
    (s.clk.holdover = false → s.clk.active ≠ r → (s.clk.ref s.clk.active).present = false → (s.clk.active = 0 ∨ s.clk.active = 1) →
      exec (.refPresent r) s = .next { u with clk := { u.clk with active := r } })) ∧
  (∀ (s : State) (r : Nat) (v : State), s.overs = [] → r = bits s.clk.cfg.toNat 0 0 → v = s.advanceTick ((s.clk.ref r).since + 100000000) →
    (bit s.clk.cfg.toNat 1 = true → s.monitored r = true → (s.clk.ref r).present = true → s.clk.holdover = false → s.clk.active ≠ r →
      exec .refRevert s = .next { v with clk := { v.clk with active := r, switches := s.clk.switches + 1 } }) ∧
    (bit s.clk.cfg.toNat 1 = false ∨ s.clk.active = r ∨ s.clk.holdover = true ∨ (s.clk.ref r).present = false → exec .refRevert s = .next s)) ∧
  (∀ (s : State) (v : Word32) (u : State), s.clk.active = 0 ∨ s.clk.active = 1 → u = { s with clk := { s.clk with cfg := v &&& 0xF } } →
    (∀ a, a ≠ 0x200000 → exec (.clkCfgWrite a v) s = .next s) ∧
    (s.clk.enabled 0 = bit v.toNat 2 → s.clk.enabled 1 = bit v.toNat 3 → exec (.clkCfgWrite 0x200000 v) s = .next u) ∧
    (∀ (r : Nat) (w : State), r = s.clk.active → s.clk.enabled r = true → bit v.toNat (2 + r) = false → s.clk.enabled (1 - r) = bit v.toNat (3 - r) →
      w = { u with clk := u.clk.modRef r fun x => { x with present := false, since := s.tick } } →
      ((s.clk.ref r).present = false → exec (.clkCfgWrite 0x200000 v) s = .next u) ∧
      ((s.clk.ref r).present = true → (s.clk.ref (1 - r)).present = true → exec (.clkCfgWrite 0x200000 v) s =
        .next (State.record { w with clk := { w.clk with active := 1 - r, switches := s.clk.switches + 1 } } 0x0601 6 r 0 0 0)) ∧
      ((s.clk.ref r).present = true → (s.clk.ref (1 - r)).present = false → exec (.clkCfgWrite 0x200000 v) s =
        .next (State.record { w with clk := { w.clk with holdover := true, switches := s.clk.switches + 1 } } 0x0602 6 r 0 0 0))))

/-- O56. The throttle demands: each rises and falls by one within 0 to 8, an episode is recorded when its demand leaves 0, 95 °C sets the THERMAL
demand to 8; the stretched cycles of a core are counted; and the excursions of the input, whose two trips turn the main converters off with what lies
in their domains (R460 to R462, R469, R470). The pace of a demand, 10,000 ticks up and 100,000 ticks down, rests on log 6. -/
def Obligations.ThrottleAndSupply : Prop :=
  (∀ (s : State) (k : Nat), k < 768 → s.power.mainOn = true → s.group (groupOf k) = .on → k ∉ s.power.stopped →
    exec (.cycleStretch k) s = .next (s.modCore k fun c => { c with ctl := { c.ctl with stretch := c.ctl.stretch + 1 } })) ∧
  (∀ (s : State) (n : Nat) (t : BitVec 16) (u : State), s.overs = [] → s.board.standby = true → n < 104 → u = (if s.clk.thermalTick = 0 then s else s.advanceTick (s.clk.thermalTick + 10000)) →
    (16 * (s.tel.therm.toNat : Int) ≤ t.toInt →
      (s.clk.thermal = 0 → ∃ v, v = State.record u 0x0620 6 n 0 0 0 ∧ exec (.thermalDemandRaise n t) s = .next { v with clk := { v.clk with thermal := 1, thermalTick := u.tick } }) ∧
      (s.clk.thermal ≠ 0 → exec (.thermalDemandRaise n t) s = .next { u with clk := { u.clk with thermal := min 8 (s.clk.thermal + 1), thermalTick := u.tick } })) ∧
    (t.toInt < 16 * (s.tel.therm.toNat : Int) → exec (.thermalDemandRaise n t) s = .next s) ∧
    (1520 ≤ t.toInt → ∃ v, exec (.junctionOver95c n t) s = .next v ∧ v.clk = { s.clk with thermal := 8, thermalTick := s.tick, hot := true } ∧ v.cores = s.cores ∧ v.now = s.now ∧
      v.faults.total = s.faults.total + (if s.clk.thermal = 0 then 1 else 0) + (if s.clk.hot then 0 else 1) ∧
      (s.clk.hot = false → ∃ x, Recorded x v 0x0622) ∧ (s.clk.thermal = 0 → s.clk.hot = true → Recorded s v 0x0620)) ∧
    (t.toInt < 1520 → exec (.junctionOver95c n t) s = .next s)) ∧
  (∀ (s : State) (t : BitVec 16) (u : State), s.overs = [] → u = s.advanceTick (s.clk.thermalTick + 100000) →
    (s.board.standby = true → t.toInt ≤ 16 * (s.tel.therm.toNat : Int) - 48 → 0 < s.clk.thermal →
      exec (.thermalDemandLower t) s = .next { u with clk := { u.clk with thermal := s.clk.thermal - 1, thermalTick := u.tick, hot := false } }) ∧
    (16 * (s.tel.therm.toNat : Int) - 48 < t.toInt ∨ s.clk.thermal = 0 → exec (.thermalDemandLower t) s = .next s)) ∧
  (∀ (s : State) (u : State), s.overs = [] → s.board.standby = true → u = (if s.clk.powerTick = 0 then s else s.advanceTick (s.clk.powerTick + 10000)) →
    (10 * s.power.limit.toNat < s.tel.pin.toNat →
      (s.clk.power = 0 → ∃ v, v = State.record u 0x0621 6 0 0 0 0 ∧ exec .powerDemandRaise s = .next { v with clk := { v.clk with power := 1, powerTick := u.tick } }) ∧
      (s.clk.power ≠ 0 → exec .powerDemandRaise s = .next { u with clk := { u.clk with power := min 8 (s.clk.power + 1), powerTick := u.tick } })) ∧
    (s.tel.pin.toNat ≤ 10 * s.power.limit.toNat → exec .powerDemandRaise s = .next s)) ∧
  (∀ (s : State) (u : State), s.overs = [] → s.board.standby = true → u = s.advanceTick (s.clk.powerTick + 100000) →
    (100 * s.tel.pin.toNat ≤ 95 * (10 * s.power.limit.toNat) → 0 < s.clk.power →
      exec .powerDemandLower s = .next { u with clk := { u.clk with power := s.clk.power - 1, powerTick := u.tick } }) ∧
    (95 * (10 * s.power.limit.toNat) < 100 * s.tel.pin.toNat ∨ s.clk.power = 0 → exec .powerDemandLower s = .next s)) ∧
  (∀ (s : State) (k : Nat) (u : State), s.overs = [] → k < 768 → s.power.mainOn = true → u = (if s.clk.droopTick = 0 then s else s.advanceTick (s.clk.droopTick + 10000)) →
    (s.clk.droop = 0 → ∃ v, v = State.record u 0x0621 6 (groupDomain (groupOf k)) 0 0 1 ∧ exec (.droopWindow k) s = .next { v with clk := { v.clk with droop := 1, droopTick := u.tick } }) ∧
    (s.clk.droop ≠ 0 → exec (.droopWindow k) s = .next { u with clk := { u.clk with droop := min 8 (s.clk.droop + 1), droopTick := u.tick } })) ∧
  (∀ (s : State) (u : State), s.overs = [] → s.board.standby = true → u = s.advanceTick (s.clk.droopTick + 100000) →
    (0 < s.clk.droop → exec .droopDemandLower s = .next { u with clk := { u.clk with droop := s.clk.droop - 1, droopTick := u.tick } }) ∧
    (s.clk.droop = 0 → exec .droopDemandLower s = .next s)) ∧
  (∀ c : Clocks, c.step = max (max c.thermal c.power) (max c.droop (min c.force 8))) ∧
  (∀ s : State, s.board.standby = true →
    (s.power.excursion = false → exec .inputVoltageExcursion s = .next (State.record { s with power := { s.power with excursion := true } } 0x0624 6 0 0 0 0)) ∧
    (s.power.excursion = true → exec .inputVoltageExcursion s = .next s) ∧
    exec .inputVoltageReturn s = .next { s with power := { s.power with excursion := false } } ∧
    (s.power.excursion = true → s.power.tripped = 4 → exec .undervoltage s = .next s)) ∧
  (∀ (s : State) (i : Instr) (cause code : Nat), s.board.standby = true →
    (i = .undervoltage ∧ (s.power.excursion = false ∨ s.power.tripped ≠ 4) ∧ cause = 4 ∧ code = 0x0625 ∨
      (∃ n t, i = .thermalTrip n t ∧ s.power.mainOn = true ∧ n < 104 ∧ 1680 ≤ t.toInt) ∧ cause = 3 ∧ code = 0x0623) →
    ∃ t x, exec i s = .next t ∧ Recorded x t code ∧ t.power.mainOn = false ∧ t.power.tripped = cause ∧ t.board.cause = cause ∧ t.cores = [] ∧ t.pending = s.pending ∧
      t.now = s.now ∧ t.sec = s.sec ∧ t.tel = s.tel ∧ t.moduleId = s.moduleId ∧
      (i = .undervoltage → t.clk = s.clk ∧ t.power.excursion = true) ∧ (i ≠ .undervoltage → t.clk.thermal = 8 ∧ t.power.excursion = s.power.excursion)) ∧
  (∀ (s : State) (energy : List Nat) (pin vin inlet outlet : BitVec 16) (temps : List (BitVec 16)) (u : State), s.overs = [] → s.board.standby = true → s.tel.energy.length = 6 →
    u = s.advanceTick ((s.tick / 1000 + 1) * 1000) →
    ∃ t, exec (.telemetryUpdate energy pin vin inlet outlet temps) s = .next t ∧
      t = { u with tel := { s.tel with energy := t.tel.energy, pin := pin, vin := vin, inlet := inlet, outlet := outlet, temps := t.tel.temps }
                   clk := { s.clk with hot := t.clk.hot } } ∧
      t.tel.energy.length = 6 ∧ (∀ i < 6, t.tel.energy.getD i 0 = s.tel.energy.getD i 0 + BitVec.ofNat 64 (energy.getD i 0)) ∧
      t.tel.temps.length = 104 ∧ (∀ n < 104, t.tel.temps.getD n 0 = temps.getD n 0) ∧
      (t.clk.hot = true ↔ s.clk.hot = true ∧ ∃ n, n < 104 ∧ 1520 ≤ (temps.getD n 0).toInt))

/-! ## Sleep -/

/-- O57. The sleep states: a core stops only in the condition of R154 and keeps all it holds, a group of stopped cores enters RETAIN, a wake event
restarts a core without a gap in CORE_CYCLE, a group turns OFF at a write of PWR_OFF_REQ that names no attached core and loses all but the stock, and
a group that does not reach ON fails (R138, R154, R465 to R467). -/
def Obligations.SleepStates : Prop :=
  (∀ (s : State) (k : Nat), k < 768 →
    (s.group (groupOf k) = .on → k ∉ s.power.stopped → s.mayStop k = true → ∃ u t, u = s.advance (s.stopFrom k + bits s.power.sleep.toNat 9 0 + 1) ∧
      exec (.coreStop k) s = .next t ∧ t = { u with power := { u.power with stopped := t.power.stopped }, cores := t.cores } ∧
      (∀ j, j ∈ t.power.stopped ↔ j = k ∨ j ∈ s.power.stopped) ∧ OtherCores k u t ∧ t.core k = { u.core k with ctl := { (u.core k).ctl with stopAt := some u.now } }) ∧
    (s.mayStop k = false → exec (.coreStop k) s = .next s) ∧
    (s.mayStop k = true →
      (s.core k).mx.ops = [] ∧ (s.core k).vx.loads = [] ∧ (s.core k).vx.runs = [] ∧ (s.core k).dx.ops = [] ∧ (s.core k).sx.acc = [] ∧
      (∀ o ∈ (s.core k).nx.ops, o.kind = .wait) ∧
      (∀ e, ((s.core k).stream e).sendAt = none ∧ (((s.core k).stream e).state = .ended ∨ ((s.core k).stream e).state = .abandoned ∨
        ((s.core k).stream e).state = .waitArr ∨ s.stalled k e = true)) ∧
      ((∃ e, ((s.core k).stream e).state = .waitArr) ∨ (s.core k).finished = true)) ∧
    (∀ e, (s.stalled k e = true → (s.testOf k e).2 ≤ s.stopFrom k) ∧ (s.stalled k e = false → ((s.core k).stream e).ready ≤ s.stopFrom k))) ∧
  (∀ (s : State) (g : Nat), g < 96 → s.group g = .on →
    (bit s.power.sleep.toNat 10 = true → (∀ k < 768, groupOf k = g → k ∈ s.power.stopped) → ∃ m u,
      (∀ k < 768, groupOf k = g → (s.core k).ctl.stopAt.getD 0 ≤ m) ∧ (m = 0 ∨ ∃ k < 768, groupOf k = g ∧ (s.core k).ctl.stopAt = some m) ∧
      u = s.advanceTick (s.tickBase + m / Config.cyclesPerTick s.grade + bits s.power.sleep.toNat 31 16 + 1) ∧
      exec (.retainEntry g) s = .next { u with power := { u.power with groups := keyPut u.power.groups g .retain } }) ∧
    (bit s.power.sleep.toNat 10 = false ∨ (∃ k < 768, groupOf k = g ∧ k ∉ s.power.stopped) → exec (.retainEntry g) s = .next s)) ∧
  (∀ (s : State) (k g : Nat) (ok : Bool), k < 768 → g = groupOf k →
    (s.group g = .on ∨ s.group g = .retain ∧ ok = true → k ∈ s.power.stopped → ∃ t, exec (.wake k ok) s = .next t ∧ (∀ j, j ∈ t.power.stopped ↔ j ≠ k ∧ j ∈ s.power.stopped) ∧
      t.group g = .on ∧ (∀ h, h ≠ g → t.group h = s.group h) ∧ OtherCores k s t ∧ t.now = s.now ∧ t.faults = s.faults ∧
      t.core k = { s.core k with ctl := (t.core k).ctl } ∧ (∀ u, (s.core k).ctl.stopAt = some u → u ≤ s.now →
        (t.core k).ctl = { (s.core k).ctl with stopAt := none, cycleBase := (t.core k).ctl.cycleBase } ∧
        (s.power.coresFrom + (s.core k).ctl.cycleBase ≤ u → t.coreCycle (t.core k) = s.coreCycle (s.core k)))) ∧
    ((s.group g = .retain ∨ s.group g = .off ∧ bit (s.power.offReq.getD (g / 32) 0).toNat (g % 32) = false) → ok = false → ∃ t, exec (.wake k ok) s = .next t ∧
      Recorded s t 0x0626 ∧ t.group g = .failed ∧ (∀ h, h ≠ g → t.group h = s.group h) ∧ t.cores = s.cores ∧
      (∀ j, j ∈ t.board.coresFailed ↔ j ∈ s.board.coresFailed ∨ j < 768 ∧ groupOf j = g)) ∧
    (s.group g = .off → bit (s.power.offReq.getD (g / 32) 0).toNat (g % 32) = false → ok = true → ∃ t, exec (.wake k ok) s = .next t ∧
      t.group g = .on ∧ (∀ h, h ≠ g → t.group h = s.group h) ∧ t.faults = s.faults ∧ t.now = s.now ∧
      (∀ j, j < 768 → groupOf j = g → t.core j = { mem := { stock := (s.core j).mem.stock }, ctl := { cycleBase := s.now - s.power.coresFrom } }) ∧
      (∀ j, groupOf j ≠ g → t.core j = s.core j)) ∧
    (s.group g = .off → bit (s.power.offReq.getD (g / 32) 0).toNat (g % 32) = true → exec (.wake k ok) s = .next s) ∧
    (s.group g = .failed → exec (.wake k ok) s = .next s)) ∧
  (∀ (s : State) (w : Nat) (v : Word32), w < 3 → s.power.offReq.length = 3 →
    (∀ b < 32, bit v.toNat b = true → bit (s.power.offReq.getD w 0).toNat b = false → (∃ k < 768, groupOf k = 32 * w + b ∧ (s.core k).ctl.attached = true) →
      (∀ c < b, bit v.toNat c = true → bit (s.power.offReq.getD w 0).toNat c = false → ∀ k < 768, groupOf k = 32 * w + c → (s.core k).ctl.attached = false) →
      exec (.pwrOffReqWrite (0x300010 + 4 * w) v) s = .next (State.record s 0x0630 6 (30 * ((32 * w + b) / 24) + (32 * w + b) % 24) 0 0 0)) ∧
    ((∀ b < 32, bit v.toNat b = true → bit (s.power.offReq.getD w 0).toNat b = false → ∀ k < 768, groupOf k = 32 * w + b → (s.core k).ctl.attached = false) →
      ∃ t, exec (.pwrOffReqWrite (0x300010 + 4 * w) v) s = .next t ∧ t.power.offReq = s.power.offReq.set w v ∧ t.faults = s.faults ∧ t.now = s.now ∧
        (∀ g, (∃ b < 32, g = 32 * w + b ∧ bit v.toNat b = true ∧ bit (s.power.offReq.getD w 0).toNat b = false ∧ s.group g ≠ .failed) →
          t.group g = .off ∧ ∀ k < 768, groupOf k = g → k ∉ t.power.stopped ∧
            t.core k = { mem := { stock := (s.core k).mem.stock }, ctl := { cycleBase := s.now - s.power.coresFrom } }) ∧
        (∀ g, (¬∃ b < 32, g = 32 * w + b ∧ bit v.toNat b = true ∧ bit (s.power.offReq.getD w 0).toNat b = false ∧ s.group g ≠ .failed) →
          t.group g = s.group g ∧ ∀ k, groupOf k = g → (k ∈ t.power.stopped ↔ k ∈ s.power.stopped) ∧ t.core k = s.core k)))

/-! ## Writes and reads of registers -/

/-- O58. Host writes and reads of a core block that have rows of their own, where the core is ON or in RETAIN and its clock runs: the error counts,
the counter tables, LC_DECL, the instruction window, bins, regions, the aperture, GRID_VMAP, the patch table, and the latching reads; what each
changes, and the codes of the forbidden times; a write wakes a stopped core, and a core whose group is OFF does not answer (R23, R57, R58, R60, R72,
R79, R104, R155, R161, R218, R238, R360, R405, R466). The DETAIL of a refusal is the model's reading where the rule names no field (log 12). -/
def Obligations.CoreBlockWrites : Prop :=
  (∀ (s : State) (k : Nat) (A : Nat → Nat), k < 768 → s.power.mainOn = true → (s.group (groupOf k) = .on ∨ s.group (groupOf k) = .retain) → k ∉ s.power.stopped →
    A = (fun o => 0x10000000 + 0x40000 * k + o) →
    exec (.clrCe k) s = .next (s.modCore k fun c => { c with regs := { c.regs with scrCe := 0, stockCe := 0 } }) ∧
    (∀ n w v, n < 32 → w < 4 →
      ((s.core k).ctl.attached = true → s.bar.phase ≠ .held → exec (.binDescWrite (A (0x1100 + 16 * n + 4 * w)) v) s = .next (State.record s 0x030F 1 k 0 0 n)) ∧
      ((s.core k).ctl.attached = false ∨ s.bar.phase = .held →
        (w = 0 → exec (.binDescWrite (A (0x1100 + 16 * n + 4 * w)) v) s = .next (s.modCore k fun c => { c with regs := { c.regs with bins := modAt c.regs.bins n fun b => { b with desc := v &&& 0xBFFFFFFF } } })) ∧
        (w ≠ 0 → exec (.binDescWrite (A (0x1100 + 16 * n + 4 * w)) v) s = .next s))) ∧
    (∀ n w v, n < 64 → w < 4 →
      ((s.core k).ctl.attached = true → s.bar.phase ≠ .held → exec (.regionDescWrite (A (0x1400 + 16 * n + 4 * w)) v) s = .next (State.record s 0x030F 1 k 0 0 n)) ∧
      ((s.core k).ctl.attached = false ∨ s.bar.phase = .held →
        exec (.regionDescWrite (A (0x1400 + 16 * n + 4 * w)) v) s = .next (s.modCore k fun c => { c with regs := { c.regs with regions := modAt c.regs.regions n fun r =>
          if w = 0 then { r with w0 := v &&& 0x807FFFFF } else if w = 1 then { r with w1 := v &&& 0x7FFFF }
          else if w = 2 then { r with commit := bits v.toNat 19 0, high := bits v.toNat 19 0 } else r } }))) ∧
    (∀ v, ((s.core k).ctl.attached = true → s.bar.phase ≠ .held → exec (.gridVmapWrite (A 0x3040) v) s = .next (State.record s 0x0430 1 k 0 0 0)) ∧
      ((s.core k).ctl.attached = false ∨ s.bar.phase = .held →
        exec (.gridVmapWrite (A 0x3040) v) s = .next (s.modCore k fun c => { c with ctl := { c.ctl with gridVmap := v &&& 0x801FFFFF } }))) ∧
    (∀ (b n : Nat) (v : Word32) (u : State), b < 2 → n < 48 →
      u = { s with jrnl := { s.jrnl with
        sealing := s.jrnl.sealing.filter (· != b)
        sealed0 := if b = 0 then none else s.jrnl.sealed0
        sealed1 := if b = 1 then none else s.jrnl.sealed1 } } →
      ((s.core k).ctl.attached = true → (s.core k).ctl.bankActive = b →
        exec (.lcDeclWrite (A (0x3030 + 4 * b)) v) s = .next (State.record s 0x0103 1 k 0 0 (7 + 8 * (0xC0C + b))) ∧
        exec (.instructionWindowWrite (A (0x3200 + 0x100 * b + 4 * n)) v) s = .next (State.record s 0x0103 1 k 0 0 (7 + 8 * (0xC80 + 0x40 * b + n)))) ∧
      ((s.core k).ctl.attached = false ∨ (s.core k).ctl.bankActive ≠ b →
        exec (.lcDeclWrite (A (0x3030 + 4 * b)) v) s = .next (u.modCore k fun c => { c with ctl := { c.ctl with
          lcDecl0 := if b = 0 then v.setWidth 8 else c.ctl.lcDecl0, lcDecl1 := if b = 1 then v.setWidth 8 else c.ctl.lcDecl1 } }) ∧
        exec (.instructionWindowWrite (A (0x3200 + 0x100 * b + 4 * n)) v) s = .next (u.modCore k fun c => { c with ctl := { c.ctl with
          syncInit0 := if b = 0 then c.ctl.syncInit0.set n (v.setWidth 16) else c.ctl.syncInit0
          syncInit1 := if b = 1 then c.ctl.syncInit1.set n (v.setWidth 16) else c.ctl.syncInit1 } }) ∧
        (∀ e i, (s.core k).ctl.imemSel.toNat = 8 * b + (engCode e - 1) → i < bankBytes e / 4 →
          exec (.instructionWindowWrite (A (0x10000 + 4 * i)) v) s = .next (u.modCore k fun c => { c with mem := { c.mem with
            imem := c.mem.imem.put 4 ((imemBase e b + 4 * i) / 4) v.toNat false } })))) ∧
    (∀ i w v, i < 0x400 → ((s.core k).ctl.attached = true → s.bar.phase ≠ .held → exec (.patchWrite (A (0x6000 + 4 * i)) v) s = .next (State.record s 0x0433 1 k 0 0 (0x6000 + 4 * i))) ∧
      ((s.core k).ctl.attached = false → s.bar.phase ≠ .held → w < 0x20 →
        exec (.patchWrite (A (0x6000 + 4 * i)) v) s = .next (s.modCore k fun c => { c with ctl := { c.ctl with patch := putWord c.ctl.patch i v } }) ∧
        ∃ t, exec (.patchWrite (A (0x7000 + 4 * w)) v) s = .next t ∧ t = { s with cores := t.cores } ∧ OtherCores k s t ∧
          t.core k = { s.core k with ctl := { (s.core k).ctl with patchValid := (t.core k).ctl.patchValid } } ∧
          ∀ j, j ∈ (t.core k).ctl.patchValid ↔ (if 32 * w ≤ j ∧ j < 32 * w + 32 then bit v.toNat (j - 32 * w) = true else j ∈ (s.core k).ctl.patchValid))) ∧
    (∀ line i v, line = 512 * bits (s.core k).regs.aperture.toNat 10 1 + i / 64 → i < 0x8000 →
      (bit (s.core k).regs.aperture.toNat 0 = false → line < 0x4000 →
        (s.apertureRefused k false line = true → exec (.apertureWrite (A (0x20000 + 4 * i)) v) s = .next (State.record s 0x0310 1 k 6 0 line)) ∧
        (s.apertureRefused k false line = false → exec (.apertureWrite (A (0x20000 + 4 * i)) v) s =
          .next (s.modCore k fun c => { c with mem := { c.mem with scr := c.mem.scr.put 4 (64 * line + i % 64) v.toNat false } })) ∧
        ((s.core k).mem.scr.flaw (64 * line + i % 64) = none → exec (.apertureRead (A (0x20000 + 4 * i))) s = .next s)) ∧
      (bit (s.core k).regs.aperture.toNat 0 = true → line < 0x50000 →
        (s.apertureRefused k true line = true → exec (.apertureWrite (A (0x20000 + 4 * i)) v) s = .next (State.record s 0x0310 1 k 6 0 line)) ∧
        (s.apertureRefused k true line = false → (s.core k).mem.stock.flaw ((64 * line + i % 64) / 2) = none → ∀ x y : Word64, x = ((s.core k).stockWord ((64 * line + i % 64) / 2)).val →
          y = (if i % 2 = 0 then ((x >>> 32) <<< 32) ||| v.setWidth 64 else (x.setWidth 32).setWidth 64 ||| (v.setWidth 64 <<< 32)) →
          exec (.apertureWrite (A (0x20000 + 4 * i)) v) s = .next (s.modCore k fun c => { c with mem := { c.mem with
            stock := c.mem.stock.put 8 ((64 * line + i % 64) / 2) y.toNat ((s.core k).stockWord ((64 * line + i % 64) / 2)).poison } })) ∧
        ((s.core k).mem.stock.flaw ((64 * line + i % 64) / 2) = none → exec (.apertureRead (A (0x20000 + 4 * i))) s = .next s))) ∧
    exec (.latchingRead (A 0x3028)) s = .next (s.modCore k fun c => { c with ctl := { c.ctl with cycleLatch := hi32 (BitVec.ofNat 64 (s.coreCycle (s.core k))) } }) ∧
    exec (.latchingRead (A 0x2020)) s = .next (s.modCore k fun c => { c with mx := { c.mx with rowsLatch := hi32 c.mx.rows } }) ∧
    exec (.latchingRead (A 0x2110)) s = .next (s.modCore k fun c => { c with vx := { c.vx with vecsLatch := hi32 c.vx.vecs } }) ∧
    exec (.latchingRead (A 0x5010)) s = .next (s.modCore k fun c => { c with ctl := { c.ctl with twinSumLatch := hi32 c.ctl.twinSum } }) ∧
    exec (.latchingRead (A 0x5018)) s = .next (s.modCore k fun c => { c with ctl := { c.ctl with twinLastLatch := hi32 c.ctl.twinLast } })) ∧
  (∀ (s : State) (k o : Nat) (a : Nat) (v : Word32) (i : Instr), k < 768 → o < 0x40000 → a = 0x10000000 + 0x40000 * k + o →
    i ∈ [Instr.clrCe k, .binDescWrite a v, .regionDescWrite a v, .gridVmapWrite a v, .lcDeclWrite a v, .instructionWindowWrite a v, .patchWrite a v, .apertureWrite a v, .apertureRead a, .latchingRead a] →
    (s.power.mainOn = false ∨ s.group (groupOf k) = .off ∨ s.group (groupOf k) = .failed → exec i s = .next s))

/-- O59. Writes and reads of the registers of the other blocks that have rows of their own, and the write of a register without one: the fault log,
the routing registers, the link ports, the barrier's configuration, the descriptor tables, the latching reads; what each changes, and the codes of the
forbidden times (R104, R259, R264, R269, R291, R292, R344, R414, R432, R462, R473). -/
def Obligations.BlockWrites : Prop :=
  (∀ s : State, exec .clear s = .next { s with faults := { s.faults with head := 0, tail := 0, lost := 0, entries := [] } }) ∧
  (∀ (s : State) (v : Word32),
    ((s.faults.head - v).toNat ≤ (s.faults.head - s.faults.tail).toNat → exec (.faultLogTailWrite v) s = .next { s with faults := { s.faults with tail := v } }) ∧
    ((s.faults.head - s.faults.tail).toNat < (s.faults.head - v).toNat → exec (.faultLogTailWrite v) s = .next s)) ∧
  (∀ (s : State) (p : Nat), p < 24 → exec (.clrErr p) s = .next { s with ports := modAt s.ports p fun x => { x with ce := 0, ue := 0, replays := 0, discard := 0 } }) ∧
  (∀ (s : State) (v : Word32),
    (∀ a, a ∈ [0x608000] ++ (List.range 6).map (fun j => 0x608010 + 4 * j) ++ (List.range 8).map (fun j => 0x608030 + 4 * j) ++ (List.range 4096).map (fun j => 0x610000 + 4 * j) →
      s.anyAttached = true → s.bar.phase ≠ .held → exec (.routingRegisterWrite a v) s = .next (State.record s 0x0444 5 0 0 0 0)) ∧
    (exec (.routingRegisterWrite 0x60800C v) s = .next { s with route := { s.route with arb := v &&& 0xF } }) ∧
    (exec (.routingRegisterWrite 0x608050 v) s = .next { s with route := { s.route with calNext := bit v.toNat 1 } }) ∧
    (∀ a ∈ [0x608004, 0x608008], exec (.routingRegisterWrite a v) s = .next s) ∧
    (s.anyAttached = false ∨ s.bar.phase = .held →
      exec (.routingRegisterWrite 0x608000 v) s = .next { s with route := { s.route with cfg := v &&& 0x1FFFF } } ∧
      (∀ j < 6, exec (.routingRegisterWrite (0x608010 + 4 * j) v) s = .next { s with route := { s.route with dir := s.route.dir.set j (v &&& 0x8000001F) } }) ∧
      (∀ j < 8, exec (.routingRegisterWrite (0x608030 + 4 * j) v) s = .next { s with route := { s.route with slot := s.route.slot.set j (v &&& 0x8000001F) } }) ∧
      (∀ j < 4096, exec (.routingRegisterWrite (0x610000 + 4 * j) v) s = .next { s with route := { s.route with rank := putWord s.route.rank j (v &&& 0x83FFFFFF) } })) ∧
    (∀ p b i, p < 24 → b < 2 → i < 64 →
      (s.anyAttached = true → s.bar.phase ≠ .held → (b = 1 ↔ s.route.calActive = true) → exec (.routingRegisterWrite (0x60C000 + 0x200 * p + 0x100 * b + 4 * i) v) s = .next (State.record s 0x0444 5 0 0 0 0)) ∧
      (s.anyAttached = false ∨ s.bar.phase = .held ∨ ¬(b = 1 ↔ s.route.calActive = true) → exec (.routingRegisterWrite (0x60C000 + 0x200 * p + 0x100 * b + 4 * i) v) s =
        .next { s with ports := modAt s.ports p fun x => { x with
          cal0 := if b = 0 then cellWrite x.cal0 (4 * i) (natToBytes (v &&& 0x9F9F9F9F).toNat 4) else x.cal0
          cal1 := if b = 1 then cellWrite x.cal1 (4 * i) (natToBytes (v &&& 0x9F9F9F9F).toNat 4) else x.cal1 } }))) ∧
  (∀ (s : State) (p : Nat) (v : Word32) (f : Port → Port) (a : Nat), p < 24 → s.ports.length = 24 →
    ((a, f) ∈ [(0x600008 + 0x400 * p, fun x : Port => { x with expect := v &&& 0xC01FFFFF }),
      (0x60000C + 0x400 * p, fun x : Port => { x with expectId := (hi32 x.expectId).setWidth 64 <<< 32 ||| v.setWidth 64 }),
      (0x600010 + 0x400 * p, fun x : Port => { x with expectId := (v.setWidth 64) <<< 32 ||| (lo32 x.expectId).setWidth 64 })] →
      ((s.port p).trained = false ∨ (s.port p).rx.known = false → exec (.linkExpectWrite a v) s = .next { s with ports := modAt s.ports p f }) ∧
      ((s.port p).trained = true → (s.port p).rx.known = true → bit (f (s.port p)).expect.toNat 31 = false →
        ∃ t, exec (.linkExpectWrite a v) s = .next t ∧ (t.port p).state = .extra ∧ (t.port p).usable = false ∧ t.cores = s.cores)) ∧
    (∀ n, n = (if 14 ≤ p then v else v &&& ~~~4#32) →
      (((s.port p).cfg ^^^ n) &&& 0x1F4 ≠ 0 → s.anyAttached = true → exec (.linkCfgWrite (0x600000 + 0x400 * p) v) s = .next (State.record s 0x050B 2 p 0 0 0)) ∧
      (((s.port p).cfg ^^^ n) &&& 0x1F4 = 0 ∨ s.anyAttached = false → ∃ t, exec (.linkCfgWrite (0x600000 + 0x400 * p) v) s = .next t ∧ t.cores = s.cores ∧
        (t.port p).cfg = n ∧ (∀ q, q ≠ p → (t.port q).cfg = (s.port q).cfg) ∧
        (bit (s.port p).cfg.toNat 0 = true → bit n.toNat 0 = false → (s.port p).state = .active → ((s.port p).cfg ^^^ n) &&& 4 = 0 → (t.port p).state = .disabled ∧ (t.port p).usable = false)))) ∧
  (∀ (s : State) (v : Word32) (a : Nat) (ph : Phase) (g : Barrier → Barrier),
    ((a = 0x900000 ∧ ph = .detached ∧ g = fun b => { b with passNum := (b.passNum >>> 32 <<< 32) ||| v.setWidth 64 }) ∨
      (a = 0x900004 ∧ ph = .detached ∧ g = fun b => { b with passNum := (b.passNum.setWidth 32).setWidth 64 ||| (v.setWidth 64 <<< 32) }) ∨
      (a = 0x900010 ∧ ph = .detached ∧ g = fun b => { b with cfg := v &&& 0x7FF }) ∨ (a = 0x900014 ∧ ph = .detached ∧ g = fun b => { b with box := v &&& 0x3FFFFFF }) ∨
      (a = 0x900018 ∧ ph = .detached ∧ g = fun b => { b with jobTag := v }) ∨ (a = 0x900020 ∧ ph = .lost ∧ g = fun b => { b with wave := v }) ∨
      (∃ n < 24, a = 0x900100 + 4 * n ∧ ph = .detached ∧ g = fun b => { b with mask := b.mask.set n v })) →
    (s.bar.phase = ph → exec (.barrierConfigWrite a v) s = .next { s with bar := g s.bar }) ∧
    (s.bar.phase ≠ ph → ∃ d, exec (.barrierConfigWrite a v) s = .next (State.record s 0x0264 5 0 0 0 d))) ∧
  (∀ (s : State) (v : Word32) (n w : Nat),
    (n < 256 → w < 3 →
      (s.anyAttached = true → s.bar.phase ≠ .held → exec (.descriptorWrite (0x702000 + 16 * n + 4 * w) v) s = .next (State.record s 0x0463 5 0 0 0 0)) ∧
      (s.anyAttached = false ∨ s.bar.phase = .held → exec (.descriptorWrite (0x702000 + 16 * n + 4 * w) v) s =
        .next { s with host := { s.host with tkt := putWord s.host.tkt (4 * n + w) (v &&& (if w = 0 then 0x8007FFFF else if w = 1 then 0x3FFFFFF else 0x1FFFF)) } })) ∧
    (n < 64 → w < 2 →
      (s.anyAttached = true → s.bar.phase ≠ .held → exec (.descriptorWrite (0x703000 + 8 * n + 4 * w) v) s = .next (State.record s 0x0463 5 0 0 0 0)) ∧
      (s.anyAttached = false ∨ s.bar.phase = .held → exec (.descriptorWrite (0x703000 + 8 * n + 4 * w) v) s =
        .next { s with host := { s.host with outd := putWord s.host.outd (2 * n + w) (v &&& (if w = 0 then 0x8000FFFF else 0x7FFFFFF)) } }))) ∧
  (∀ s : State,
    exec (.latchingRead 0x200010) s = .next { s with clk := { s.clk with tickLatch := BitVec.ofNat 32 (s.tick / 2 ^ 32) } } ∧
    exec (.latchingRead 0x400018) s = .next { s with faults := { s.faults with totalLatch := hi32 s.faults.total } } ∧
    exec (.latchingRead 0x800010) s = .next { s with jrnl := { s.jrnl with rseqLatch := hi32 s.jrnl.rseq } } ∧
    exec (.latchingRead 0x800018) s = .next { s with jrnl := { s.jrnl with exportedLatch := hi32 s.jrnl.exported } } ∧
    exec (.latchingRead 0x900000) s = .next { s with bar := { s.bar with passLatch := hi32 s.bar.passNum } } ∧
    exec (.latchingRead 0x900028) s = .next { s with bar := { s.bar with injLatch := hi32 s.bar.inj } } ∧
    exec (.latchingRead 0x900030) s = .next { s with bar := { s.bar with sinkLatch := hi32 s.bar.sink } } ∧
    (∀ p < 24, exec (.latchingRead (0x600040 + 0x400 * p)) s = .next { s with ports := modAt s.ports p fun x => { x with txLatch := hi32 x.txCw } } ∧
      exec (.latchingRead (0x600048 + 0x400 * p)) s = .next { s with ports := modAt s.ports p fun x => { x with rxLatch := hi32 x.rxCw } }) ∧
    exec (.latchingRead 0xB00000) s = .next { s with tel := { s.tel with latch := s.tel.latch.set 0 (hi32 (s.tel.energy.getD 0 0)) } } ∧
    (∀ d < 5, exec (.latchingRead (0xB00010 + 8 * d)) s = .next { s with tel := { s.tel with latch := s.tel.latch.set (1 + d) (hi32 (s.tel.energy.getD (1 + d) 0)) } })) ∧
  (∀ (s : State) (w : Who) (v : Word32), (w = .mgmt ∨ ∃ n x, w = .session n ∧ keyGet s.host.sessions n = some x ∧ x.proved = true) → s.sec.stage = .ready →
    exec (.registerWrite w 0x200020 v) s = .next { s with clk := { s.clk with force := min 8 (bits v.toNat 7 4) } } ∧
    exec (.registerWrite w 0x300004 v) s = .next { s with power := { s.power with limit := BitVec.ofNat 11 (max 100 (min 1400 (bits v.toNat 10 0))) } } ∧
    exec (.registerWrite w 0x300008 v) s = .next { s with power := { s.power with sleep := v &&& 0xFFFF07FF } } ∧
    exec (.registerWrite w 0xB00050 v) s = .next { s with tel := { s.tel with therm := BitVec.ofNat 8 (max 60 (min 95 (bits v.toNat 7 0))) } } ∧
    exec (.registerWrite w 0x500014 v) s = .next { s with sec := { s.sec with flashOff := v.setWidth 27 } } ∧
    exec (.registerWrite w 0x701000 v) s = .next { s with host := { s.host with
      ctrl := v &&& 0xFFFFFF07
      outputs := if keyGet s.host.sessions (bits s.host.ctrl.toNat 2 0) = none ∧ keyGet s.host.sessions (bits v.toNat 2 0) ≠ none then
          s.host.outputs.map fun o => { o with sent := o.acked, tick := s.tick } else s.host.outputs } } ∧
    (bit v.toNat 4 = false → exec (.registerWrite w 0x40000C v) s = .next { s with faults := { s.faults with rerunMax := bits v.toNat 3 0, notify := bits v.toNat 24 16 } }) ∧
    (∀ a, a % 4 = 0 → 0xC00000 ≤ a → a < 0x10000000 → exec (.registerWrite w a v) s = .next s) ∧
    (∀ k n j, k < 768 → n < 64 → j < 3 → s.power.mainOn = true → s.group (groupOf k) = .on → k ∉ s.power.stopped →
      exec (.registerWrite w (0x10000000 + 0x40000 * k + 0x1800 + 16 * n + 4 * j) v) s = .next (s.modCore k fun c => { c with
        regs := { c.regs with next := modAt c.regs.next n fun x =>
          { w0 := if j = 0 then v &&& 0x807FFFFF else x.w0, w1 := if j = 1 then v &&& 0x7FFFF else x.w1, w2 := if j = 2 then v &&& 0x800FFFFF else x.w2 } }
        ctl := { c.ctl with hostCycle := s.now, hostWords := markPut (if c.ctl.hostCycle = s.now then c.ctl.hostWords else []) (0x1800 + 16 * n + 4 * j) } })))

/-- O60. The owner record at step 5 of the boot: a record whose DEV_SIG fails records 0x0703 and leaves the module unowned, and a module without a
valid record is unowned, none of its slots VALID and its EPOCH 0 (R485). -/
def Obligations.OwnerRecordRead : Prop :=
  ∀ (s : State) (failed : List Nat) (crossings : List (Nat × Nat)) (bridges : BitVec 4) (stops : Nat) (good : OwnerRec → Bool),
    s.sec.stage = .fwStart → s.power.mainOn = true → s.board.tested = false →
    good = (fun r => edVerify s.sec.pub (natToBytes s.moduleId.toNat 8 ++ natToBytes r.seq.toNat 8 ++ r.body) r.sign) →
    ∃ t, exec (.selfTestComplete failed crossings bridges stops) s = .next t ∧ t.sec.stage = .ready ∧ t.sec.ownerRec = s.sec.ownerRec ∧
      (t.sec.owned = true ↔ ∃ r, s.sec.ownerRec = some r ∧ good r = true) ∧
      (∀ r, s.sec.ownerRec = some r → good r = false → ∃ x, Recorded x t 0x0703 ∧ x.faults.total = s.faults.total + BitVec.ofNat 64 (((List.range 768).filter failed.contains).length + crossings.length)) ∧
      (s.sec.ownerRec = none ∨ (∃ r, s.sec.ownerRec = some r ∧ good r = true) →
        t.faults.total = s.faults.total + BitVec.ofNat 64 (((List.range 768).filter failed.contains).length + crossings.length)) ∧
      (t.sec.owned = false → (∀ i u, t.ownerKey i u = none) ∧ (t.regRead 0x500018).1 = some 0)
end

