-- ==== Sys2Proof/Laws/State.lean ====
section
/-! SUPPORT. What each update of the state and of a core does to every field: one lemma per field and update. -/

namespace Sys2Proof.Machine

/-! ## Lists by key -/

theorem keyGet_keyPut_same {α : Type} (l : List (Nat × α)) (a : Nat) (b : α) : keyGet (keyPut l a b) a = some b := by
  induction l with
  | nil => simp [keyPut, keyGet]
  | cons x r ih =>
    obtain ⟨x, v⟩ := x
    unfold keyPut
    split
    · rename_i h
      have : x ≠ a := by omega
      simp [keyGet, this, ih]
    · split <;> simp [keyGet]

theorem keyGet_keyPut_other {α : Type} (l : List (Nat × α)) (a j : Nat) (b : α) (h : j ≠ a) :
    keyGet (keyPut l a b) j = keyGet l j := by
  induction l with
  | nil => simp [keyPut, keyGet, Ne.symm h]
  | cons x r ih =>
    obtain ⟨x, v⟩ := x
    unfold keyPut
    split
    · simp only [keyGet, ih]
    · split
      · rename_i hx
        subst hx
        simp [keyGet, Ne.symm h]
      · simp [keyGet, Ne.symm h]

/-! ## Cores -/

@[simp] theorem State.core_setCore_same (s : State) (k : Nat) (c : Core) : (s.setCore k c).core k = c := by
  simp [State.core, State.setCore, keyGet_keyPut_same]

theorem State.core_setCore_other (s : State) (k j : Nat) (c : Core) (h : j ≠ k) : (s.setCore k c).core j = s.core j := by
  simp [State.core, State.setCore, keyGet_keyPut_other _ _ _ _ h]

@[simp] theorem State.core_modCore_same (s : State) (k : Nat) (f : Core → Core) :
    (s.modCore k f).core k = f (s.core k) := by simp [State.modCore]

theorem State.core_modCore_other (s : State) (k j : Nat) (f : Core → Core) (h : j ≠ k) :
    (s.modCore k f).core j = s.core j := by simp [State.modCore, State.core_setCore_other _ _ _ _ h]

/-! ## The state -/

@[simp] theorem State.setCore_pending (s : State) (k : Nat) (c : Core) : (s.setCore k c).pending = s.pending := rfl
@[simp] theorem State.modCore_pending (s : State) (k : Nat) (f : Core → Core) :
    (s.modCore k f).pending = s.pending := rfl
@[simp] theorem State.setCore_now (s : State) (k : Nat) (c : Core) : (s.setCore k c).now = s.now := rfl
@[simp] theorem State.modCore_now (s : State) (k : Nat) (f : Core → Core) : (s.modCore k f).now = s.now := rfl
@[simp] theorem State.setCore_overs (s : State) (k : Nat) (c : Core) : (s.setCore k c).overs = s.overs := rfl
@[simp] theorem State.modCore_overs (s : State) (k : Nat) (f : Core → Core) : (s.modCore k f).overs = s.overs := rfl
@[simp] theorem State.setCore_tickBase (s : State) (k : Nat) (c : Core) : (s.setCore k c).tickBase = s.tickBase := rfl
@[simp] theorem State.modCore_tickBase (s : State) (k : Nat) (f : Core → Core) :
    (s.modCore k f).tickBase = s.tickBase := rfl
@[simp] theorem State.setCore_freeCtr (s : State) (k : Nat) (c : Core) : (s.setCore k c).freeCtr = s.freeCtr := rfl
@[simp] theorem State.modCore_freeCtr (s : State) (k : Nat) (f : Core → Core) :
    (s.modCore k f).freeCtr = s.freeCtr := rfl
@[simp] theorem State.setCore_grade (s : State) (k : Nat) (c : Core) : (s.setCore k c).grade = s.grade := rfl
@[simp] theorem State.modCore_grade (s : State) (k : Nat) (f : Core → Core) : (s.modCore k f).grade = s.grade := rfl
@[simp] theorem State.setCore_stepB (s : State) (k : Nat) (c : Core) : (s.setCore k c).stepB = s.stepB := rfl
@[simp] theorem State.modCore_stepB (s : State) (k : Nat) (f : Core → Core) : (s.modCore k f).stepB = s.stepB := rfl
@[simp] theorem State.setCore_lc (s : State) (k : Nat) (c : Core) : (s.setCore k c).lc = s.lc := rfl
@[simp] theorem State.modCore_lc (s : State) (k : Nat) (f : Core → Core) : (s.modCore k f).lc = s.lc := rfl
@[simp] theorem State.setCore_strict (s : State) (k : Nat) (c : Core) : (s.setCore k c).strict = s.strict := rfl
@[simp] theorem State.modCore_strict (s : State) (k : Nat) (f : Core → Core) : (s.modCore k f).strict = s.strict := rfl
@[simp] theorem State.setCore_faults (s : State) (k : Nat) (c : Core) : (s.setCore k c).faults = s.faults := rfl
@[simp] theorem State.modCore_faults (s : State) (k : Nat) (f : Core → Core) : (s.modCore k f).faults = s.faults := rfl
@[simp] theorem State.setCore_bar (s : State) (k : Nat) (c : Core) : (s.setCore k c).bar = s.bar := rfl
@[simp] theorem State.modCore_bar (s : State) (k : Nat) (f : Core → Core) : (s.modCore k f).bar = s.bar := rfl
@[simp] theorem State.setCore_mesh (s : State) (k : Nat) (c : Core) : (s.setCore k c).mesh = s.mesh := rfl
@[simp] theorem State.modCore_mesh (s : State) (k : Nat) (f : Core → Core) : (s.modCore k f).mesh = s.mesh := rfl
@[simp] theorem State.setCore_route (s : State) (k : Nat) (c : Core) : (s.setCore k c).route = s.route := rfl
@[simp] theorem State.modCore_route (s : State) (k : Nat) (f : Core → Core) : (s.modCore k f).route = s.route := rfl
@[simp] theorem State.setCore_ports (s : State) (k : Nat) (c : Core) : (s.setCore k c).ports = s.ports := rfl
@[simp] theorem State.modCore_ports (s : State) (k : Nat) (f : Core → Core) : (s.modCore k f).ports = s.ports := rfl
@[simp] theorem State.setCore_power (s : State) (k : Nat) (c : Core) : (s.setCore k c).power = s.power := rfl
@[simp] theorem State.modCore_power (s : State) (k : Nat) (f : Core → Core) : (s.modCore k f).power = s.power := rfl
@[simp] theorem State.setCore_moduleId (s : State) (k : Nat) (c : Core) : (s.setCore k c).moduleId = s.moduleId := rfl
@[simp] theorem State.modCore_moduleId (s : State) (k : Nat) (f : Core → Core) :
    (s.modCore k f).moduleId = s.moduleId := rfl
@[simp] theorem State.setCore_fin (s : State) (k : Nat) (c : Core) : (s.setCore k c).fin = s.fin := rfl
@[simp] theorem State.modCore_fin (s : State) (k : Nat) (f : Core → Core) : (s.modCore k f).fin = s.fin := rfl
@[simp] theorem State.setCore_jrnl (s : State) (k : Nat) (c : Core) : (s.setCore k c).jrnl = s.jrnl := rfl
@[simp] theorem State.modCore_jrnl (s : State) (k : Nat) (f : Core → Core) : (s.modCore k f).jrnl = s.jrnl := rfl
@[simp] theorem State.setCore_twin (s : State) (k : Nat) (c : Core) : (s.setCore k c).twin = s.twin := rfl
@[simp] theorem State.modCore_twin (s : State) (k : Nat) (f : Core → Core) : (s.modCore k f).twin = s.twin := rfl
@[simp] theorem State.setCore_host (s : State) (k : Nat) (c : Core) : (s.setCore k c).host = s.host := rfl
@[simp] theorem State.modCore_host (s : State) (k : Nat) (f : Core → Core) : (s.modCore k f).host = s.host := rfl
@[simp] theorem State.setCore_clk (s : State) (k : Nat) (c : Core) : (s.setCore k c).clk = s.clk := rfl
@[simp] theorem State.modCore_clk (s : State) (k : Nat) (f : Core → Core) : (s.modCore k f).clk = s.clk := rfl
@[simp] theorem State.setCore_tel (s : State) (k : Nat) (c : Core) : (s.setCore k c).tel = s.tel := rfl
@[simp] theorem State.modCore_tel (s : State) (k : Nat) (f : Core → Core) : (s.modCore k f).tel = s.tel := rfl
@[simp] theorem State.setCore_sec (s : State) (k : Nat) (c : Core) : (s.setCore k c).sec = s.sec := rfl
@[simp] theorem State.modCore_sec (s : State) (k : Nat) (f : Core → Core) : (s.modCore k f).sec = s.sec := rfl
@[simp] theorem State.setCore_board (s : State) (k : Nat) (c : Core) : (s.setCore k c).board = s.board := rfl
@[simp] theorem State.modCore_board (s : State) (k : Nat) (f : Core → Core) : (s.modCore k f).board = s.board := rfl

/-! ## Time -/

/-- What the end of a cycle can change. -/
theorem State.capCounter_eq (k : Nat) (s : State) (n : Nat) : State.capCounter k s n = { s with
    cores := (State.capCounter k s n).cores, faults := (State.capCounter k s n).faults, bar := (State.capCounter k s n).bar
    host := (State.capCounter k s n).host } := by
  unfold State.capCounter
  dsimp only
  split
  · unfold State.faultCore State.record State.recordAs State.event State.notify
    dsimp only [State.modCore, State.setCore]
    split
    · split
      · rfl
      · split <;> rfl
    · rfl
  · rfl

theorem State.capCounters_eq (k : Nat) : ∀ (l : List Nat) (s : State), l.foldl (State.capCounter k) s = { s with
    cores := (l.foldl (State.capCounter k) s).cores, faults := (l.foldl (State.capCounter k) s).faults
    bar := (l.foldl (State.capCounter k) s).bar, host := (l.foldl (State.capCounter k) s).host }
  | [], _ => rfl
  | n :: r, s => by
    rw [List.foldl_cons, State.capCounters_eq k r, State.capCounter_eq k s n]

theorem State.capCores_eq : ∀ (l : List Nat) (s : State),
    l.foldl (fun s k => (List.range 48).foldl (State.capCounter k) s) s = { s with
      cores := (l.foldl (fun s k => (List.range 48).foldl (State.capCounter k) s) s).cores
      faults := (l.foldl (fun s k => (List.range 48).foldl (State.capCounter k) s) s).faults
      bar := (l.foldl (fun s k => (List.range 48).foldl (State.capCounter k) s) s).bar
      host := (l.foldl (fun s k => (List.range 48).foldl (State.capCounter k) s) s).host }
  | [], _ => rfl
  | k :: r, s => by
    rw [List.foldl_cons, State.capCores_eq r, State.capCounters_eq k _ s]

/-- What the end of a cycle can change: the counters, and what recording 0x0201 changes. -/
theorem State.endCycle_eq (s : State) : s.endCycle = { s with
    overs := [], cores := s.endCycle.cores, faults := s.endCycle.faults, bar := s.endCycle.bar, host := s.endCycle.host } := by
  unfold State.endCycle
  exact State.capCores_eq _ _

/-- With no counter past its limit, only the time passes. -/
theorem State.advance_calm {s : State} (h : s.overs = []) (t : Nat) : s.advance t = { s with now := max s.now t } := by
  unfold State.advance
  split
  · rename_i ht
    have : s.endCycle = s := by cases s; cases h; rfl
    rw [this, Nat.max_eq_right (by omega)]
  · rename_i ht
    rw [Nat.max_eq_left (by omega)]

/-- Time does not go back. -/
theorem State.advance_past {s : State} {t : Nat} (h : t ≤ s.now) : s.advance t = s := by
  unfold State.advance
  rw [if_neg (by omega)]

@[simp] theorem State.advance_now (s : State) (t : Nat) : (s.advance t).now = max s.now t := by
  unfold State.advance
  split
  · dsimp only; omega
  · omega

theorem State.advance_overs {s : State} (h : s.overs = []) (t : Nat) : (s.advance t).overs = [] := by
  rw [State.advance_calm h]; exact h

theorem State.advance_core {s : State} (h : s.overs = []) (t k : Nat) : (s.advance t).core k = s.core k := by
  rw [State.advance_calm h]; rfl

theorem State.advance_cores {s : State} (h : s.overs = []) (t : Nat) : (s.advance t).cores = s.cores := by rw [State.advance_calm h]

theorem State.advance_faults {s : State} (h : s.overs = []) (t : Nat) : (s.advance t).faults = s.faults := by rw [State.advance_calm h]

theorem State.advance_bar {s : State} (h : s.overs = []) (t : Nat) : (s.advance t).bar = s.bar := by rw [State.advance_calm h]

theorem State.advance_host {s : State} (h : s.overs = []) (t : Nat) : (s.advance t).host = s.host := by rw [State.advance_calm h]

@[simp] theorem State.advance_pending (s : State) (t : Nat) :
    (s.advance t).pending = s.pending := by
  unfold State.advance
  split
  · show s.endCycle.pending = s.pending
    rw [State.endCycle_eq]
  · rfl

@[simp] theorem State.advance_tickBase (s : State) (t : Nat) :
    (s.advance t).tickBase = s.tickBase := by
  unfold State.advance
  split
  · show s.endCycle.tickBase = s.tickBase
    rw [State.endCycle_eq]
  · rfl

@[simp] theorem State.advance_freeCtr (s : State) (t : Nat) :
    (s.advance t).freeCtr = s.freeCtr := by
  unfold State.advance
  split
  · show s.endCycle.freeCtr = s.freeCtr
    rw [State.endCycle_eq]
  · rfl

@[simp] theorem State.advance_grade (s : State) (t : Nat) :
    (s.advance t).grade = s.grade := by
  unfold State.advance
  split
  · show s.endCycle.grade = s.grade
    rw [State.endCycle_eq]
  · rfl

@[simp] theorem State.advance_stepB (s : State) (t : Nat) :
    (s.advance t).stepB = s.stepB := by
  unfold State.advance
  split
  · show s.endCycle.stepB = s.stepB
    rw [State.endCycle_eq]
  · rfl

@[simp] theorem State.advance_lc (s : State) (t : Nat) :
    (s.advance t).lc = s.lc := by
  unfold State.advance
  split
  · show s.endCycle.lc = s.lc
    rw [State.endCycle_eq]
  · rfl

@[simp] theorem State.advance_strict (s : State) (t : Nat) :
    (s.advance t).strict = s.strict := by
  unfold State.advance
  split
  · show s.endCycle.strict = s.strict
    rw [State.endCycle_eq]
  · rfl

@[simp] theorem State.advance_mesh (s : State) (t : Nat) :
    (s.advance t).mesh = s.mesh := by
  unfold State.advance
  split
  · show s.endCycle.mesh = s.mesh
    rw [State.endCycle_eq]
  · rfl

@[simp] theorem State.advance_route (s : State) (t : Nat) :
    (s.advance t).route = s.route := by
  unfold State.advance
  split
  · show s.endCycle.route = s.route
    rw [State.endCycle_eq]
  · rfl

@[simp] theorem State.advance_ports (s : State) (t : Nat) :
    (s.advance t).ports = s.ports := by
  unfold State.advance
  split
  · show s.endCycle.ports = s.ports
    rw [State.endCycle_eq]
  · rfl

@[simp] theorem State.advance_power (s : State) (t : Nat) :
    (s.advance t).power = s.power := by
  unfold State.advance
  split
  · show s.endCycle.power = s.power
    rw [State.endCycle_eq]
  · rfl

@[simp] theorem State.advance_moduleId (s : State) (t : Nat) :
    (s.advance t).moduleId = s.moduleId := by
  unfold State.advance
  split
  · show s.endCycle.moduleId = s.moduleId
    rw [State.endCycle_eq]
  · rfl

@[simp] theorem State.advance_fin (s : State) (t : Nat) :
    (s.advance t).fin = s.fin := by
  unfold State.advance
  split
  · show s.endCycle.fin = s.fin
    rw [State.endCycle_eq]
  · rfl

@[simp] theorem State.advance_jrnl (s : State) (t : Nat) :
    (s.advance t).jrnl = s.jrnl := by
  unfold State.advance
  split
  · show s.endCycle.jrnl = s.jrnl
    rw [State.endCycle_eq]
  · rfl

@[simp] theorem State.advance_twin (s : State) (t : Nat) :
    (s.advance t).twin = s.twin := by
  unfold State.advance
  split
  · show s.endCycle.twin = s.twin
    rw [State.endCycle_eq]
  · rfl

@[simp] theorem State.advance_clk (s : State) (t : Nat) :
    (s.advance t).clk = s.clk := by
  unfold State.advance
  split
  · show s.endCycle.clk = s.clk
    rw [State.endCycle_eq]
  · rfl

@[simp] theorem State.advance_tel (s : State) (t : Nat) :
    (s.advance t).tel = s.tel := by
  unfold State.advance
  split
  · show s.endCycle.tel = s.tel
    rw [State.endCycle_eq]
  · rfl

@[simp] theorem State.advance_sec (s : State) (t : Nat) :
    (s.advance t).sec = s.sec := by
  unfold State.advance
  split
  · show s.endCycle.sec = s.sec
    rw [State.endCycle_eq]
  · rfl

@[simp] theorem State.advance_board (s : State) (t : Nat) :
    (s.advance t).board = s.board := by
  unfold State.advance
  split
  · show s.endCycle.board = s.board
    rw [State.endCycle_eq]
  · rfl

@[simp] theorem State.advance_ctE (s : State) (t : Nat) : (s.advance t).ctE = s.ctE := by simp [State.ctE]
@[simp] theorem State.advance_ctD (s : State) (t : Nat) : (s.advance t).ctD = s.ctD := by simp [State.ctD]
@[simp] theorem State.advance_ctEV (s : State) (t : Nat) : (s.advance t).ctEV = s.ctEV := by simp [State.ctEV]
@[simp] theorem State.advance_ctEDX (s : State) (t : Nat) : (s.advance t).ctEDX = s.ctEDX := by simp [State.ctEDX]
@[simp] theorem State.advance_ctDDX (s : State) (t : Nat) : (s.advance t).ctDDX = s.ctDDX := by simp [State.ctDDX]
@[simp] theorem State.advance_ctENX (s : State) (t : Nat) : (s.advance t).ctENX = s.ctENX := by simp [State.ctENX]
@[simp] theorem State.advance_ctESX (s : State) (t : Nat) : (s.advance t).ctESX = s.ctESX := by simp [State.ctESX]

@[simp] theorem State.modPort_pending (s : State) (p : Nat) (f : Port → Port) :
    (s.modPort p f).pending = s.pending := rfl
@[simp] theorem State.modPort_now (s : State) (p : Nat) (f : Port → Port) : (s.modPort p f).now = s.now := rfl
@[simp] theorem State.modPort_overs (s : State) (p : Nat) (f : Port → Port) : (s.modPort p f).overs = s.overs := rfl
@[simp] theorem State.modPort_tickBase (s : State) (p : Nat) (f : Port → Port) :
    (s.modPort p f).tickBase = s.tickBase := rfl
@[simp] theorem State.modPort_freeCtr (s : State) (p : Nat) (f : Port → Port) :
    (s.modPort p f).freeCtr = s.freeCtr := rfl
@[simp] theorem State.modPort_grade (s : State) (p : Nat) (f : Port → Port) : (s.modPort p f).grade = s.grade := rfl
@[simp] theorem State.modPort_stepB (s : State) (p : Nat) (f : Port → Port) : (s.modPort p f).stepB = s.stepB := rfl
@[simp] theorem State.modPort_lc (s : State) (p : Nat) (f : Port → Port) : (s.modPort p f).lc = s.lc := rfl
@[simp] theorem State.modPort_strict (s : State) (p : Nat) (f : Port → Port) : (s.modPort p f).strict = s.strict := rfl
@[simp] theorem State.modPort_cores (s : State) (p : Nat) (f : Port → Port) : (s.modPort p f).cores = s.cores := rfl
@[simp] theorem State.modPort_faults (s : State) (p : Nat) (f : Port → Port) : (s.modPort p f).faults = s.faults := rfl
@[simp] theorem State.modPort_bar (s : State) (p : Nat) (f : Port → Port) : (s.modPort p f).bar = s.bar := rfl
@[simp] theorem State.modPort_mesh (s : State) (p : Nat) (f : Port → Port) : (s.modPort p f).mesh = s.mesh := rfl
@[simp] theorem State.modPort_route (s : State) (p : Nat) (f : Port → Port) : (s.modPort p f).route = s.route := rfl
@[simp] theorem State.modPort_ports (s : State) (p : Nat) (f : Port → Port) :
    (s.modPort p f).ports = modAt s.ports p f := rfl
@[simp] theorem State.modPort_power (s : State) (p : Nat) (f : Port → Port) : (s.modPort p f).power = s.power := rfl
@[simp] theorem State.modPort_moduleId (s : State) (p : Nat) (f : Port → Port) :
    (s.modPort p f).moduleId = s.moduleId := rfl
@[simp] theorem State.modPort_fin (s : State) (p : Nat) (f : Port → Port) : (s.modPort p f).fin = s.fin := rfl
@[simp] theorem State.modPort_jrnl (s : State) (p : Nat) (f : Port → Port) : (s.modPort p f).jrnl = s.jrnl := rfl
@[simp] theorem State.modPort_twin (s : State) (p : Nat) (f : Port → Port) : (s.modPort p f).twin = s.twin := rfl
@[simp] theorem State.modPort_host (s : State) (p : Nat) (f : Port → Port) : (s.modPort p f).host = s.host := rfl
@[simp] theorem State.modPort_clk (s : State) (p : Nat) (f : Port → Port) : (s.modPort p f).clk = s.clk := rfl
@[simp] theorem State.modPort_tel (s : State) (p : Nat) (f : Port → Port) : (s.modPort p f).tel = s.tel := rfl
@[simp] theorem State.modPort_sec (s : State) (p : Nat) (f : Port → Port) : (s.modPort p f).sec = s.sec := rfl
@[simp] theorem State.modPort_board (s : State) (p : Nat) (f : Port → Port) : (s.modPort p f).board = s.board := rfl
@[simp] theorem State.modPort_core (s : State) (p k : Nat) (f : Port → Port) : (s.modPort p f).core k = s.core k := rfl

@[simp] theorem State.modFin_pending (s : State) (f : Finfin → Finfin) : (s.modFin f).pending = s.pending := rfl
@[simp] theorem State.modFin_now (s : State) (f : Finfin → Finfin) : (s.modFin f).now = s.now := rfl
@[simp] theorem State.modFin_overs (s : State) (f : Finfin → Finfin) : (s.modFin f).overs = s.overs := rfl
@[simp] theorem State.modFin_tickBase (s : State) (f : Finfin → Finfin) : (s.modFin f).tickBase = s.tickBase := rfl
@[simp] theorem State.modFin_freeCtr (s : State) (f : Finfin → Finfin) : (s.modFin f).freeCtr = s.freeCtr := rfl
@[simp] theorem State.modFin_grade (s : State) (f : Finfin → Finfin) : (s.modFin f).grade = s.grade := rfl
@[simp] theorem State.modFin_stepB (s : State) (f : Finfin → Finfin) : (s.modFin f).stepB = s.stepB := rfl
@[simp] theorem State.modFin_lc (s : State) (f : Finfin → Finfin) : (s.modFin f).lc = s.lc := rfl
@[simp] theorem State.modFin_strict (s : State) (f : Finfin → Finfin) : (s.modFin f).strict = s.strict := rfl
@[simp] theorem State.modFin_cores (s : State) (f : Finfin → Finfin) : (s.modFin f).cores = s.cores := rfl
@[simp] theorem State.modFin_faults (s : State) (f : Finfin → Finfin) : (s.modFin f).faults = s.faults := rfl
@[simp] theorem State.modFin_bar (s : State) (f : Finfin → Finfin) : (s.modFin f).bar = s.bar := rfl
@[simp] theorem State.modFin_mesh (s : State) (f : Finfin → Finfin) : (s.modFin f).mesh = s.mesh := rfl
@[simp] theorem State.modFin_route (s : State) (f : Finfin → Finfin) : (s.modFin f).route = s.route := rfl
@[simp] theorem State.modFin_ports (s : State) (f : Finfin → Finfin) : (s.modFin f).ports = s.ports := rfl
@[simp] theorem State.modFin_power (s : State) (f : Finfin → Finfin) : (s.modFin f).power = s.power := rfl
@[simp] theorem State.modFin_moduleId (s : State) (f : Finfin → Finfin) : (s.modFin f).moduleId = s.moduleId := rfl
@[simp] theorem State.modFin_fin (s : State) (f : Finfin → Finfin) : (s.modFin f).fin = f s.fin := rfl
@[simp] theorem State.modFin_jrnl (s : State) (f : Finfin → Finfin) : (s.modFin f).jrnl = s.jrnl := rfl
@[simp] theorem State.modFin_twin (s : State) (f : Finfin → Finfin) : (s.modFin f).twin = s.twin := rfl
@[simp] theorem State.modFin_host (s : State) (f : Finfin → Finfin) : (s.modFin f).host = s.host := rfl
@[simp] theorem State.modFin_clk (s : State) (f : Finfin → Finfin) : (s.modFin f).clk = s.clk := rfl
@[simp] theorem State.modFin_tel (s : State) (f : Finfin → Finfin) : (s.modFin f).tel = s.tel := rfl
@[simp] theorem State.modFin_sec (s : State) (f : Finfin → Finfin) : (s.modFin f).sec = s.sec := rfl
@[simp] theorem State.modFin_board (s : State) (f : Finfin → Finfin) : (s.modFin f).board = s.board := rfl
@[simp] theorem State.modFin_core (s : State) (f : Finfin → Finfin) (k : Nat) : (s.modFin f).core k = s.core k := rfl

@[simp] theorem State.modJrnl_pending (s : State) (f : Journal → Journal) : (s.modJrnl f).pending = s.pending := rfl
@[simp] theorem State.modJrnl_now (s : State) (f : Journal → Journal) : (s.modJrnl f).now = s.now := rfl
@[simp] theorem State.modJrnl_overs (s : State) (f : Journal → Journal) : (s.modJrnl f).overs = s.overs := rfl
@[simp] theorem State.modJrnl_tickBase (s : State) (f : Journal → Journal) : (s.modJrnl f).tickBase = s.tickBase := rfl
@[simp] theorem State.modJrnl_freeCtr (s : State) (f : Journal → Journal) : (s.modJrnl f).freeCtr = s.freeCtr := rfl
@[simp] theorem State.modJrnl_grade (s : State) (f : Journal → Journal) : (s.modJrnl f).grade = s.grade := rfl
@[simp] theorem State.modJrnl_stepB (s : State) (f : Journal → Journal) : (s.modJrnl f).stepB = s.stepB := rfl
@[simp] theorem State.modJrnl_lc (s : State) (f : Journal → Journal) : (s.modJrnl f).lc = s.lc := rfl
@[simp] theorem State.modJrnl_strict (s : State) (f : Journal → Journal) : (s.modJrnl f).strict = s.strict := rfl
@[simp] theorem State.modJrnl_cores (s : State) (f : Journal → Journal) : (s.modJrnl f).cores = s.cores := rfl
@[simp] theorem State.modJrnl_faults (s : State) (f : Journal → Journal) : (s.modJrnl f).faults = s.faults := rfl
@[simp] theorem State.modJrnl_bar (s : State) (f : Journal → Journal) : (s.modJrnl f).bar = s.bar := rfl
@[simp] theorem State.modJrnl_mesh (s : State) (f : Journal → Journal) : (s.modJrnl f).mesh = s.mesh := rfl
@[simp] theorem State.modJrnl_route (s : State) (f : Journal → Journal) : (s.modJrnl f).route = s.route := rfl
@[simp] theorem State.modJrnl_ports (s : State) (f : Journal → Journal) : (s.modJrnl f).ports = s.ports := rfl
@[simp] theorem State.modJrnl_power (s : State) (f : Journal → Journal) : (s.modJrnl f).power = s.power := rfl
@[simp] theorem State.modJrnl_moduleId (s : State) (f : Journal → Journal) : (s.modJrnl f).moduleId = s.moduleId := rfl
@[simp] theorem State.modJrnl_fin (s : State) (f : Journal → Journal) : (s.modJrnl f).fin = s.fin := rfl
@[simp] theorem State.modJrnl_jrnl (s : State) (f : Journal → Journal) : (s.modJrnl f).jrnl = f s.jrnl := rfl
@[simp] theorem State.modJrnl_twin (s : State) (f : Journal → Journal) : (s.modJrnl f).twin = s.twin := rfl
@[simp] theorem State.modJrnl_host (s : State) (f : Journal → Journal) : (s.modJrnl f).host = s.host := rfl
@[simp] theorem State.modJrnl_clk (s : State) (f : Journal → Journal) : (s.modJrnl f).clk = s.clk := rfl
@[simp] theorem State.modJrnl_tel (s : State) (f : Journal → Journal) : (s.modJrnl f).tel = s.tel := rfl
@[simp] theorem State.modJrnl_sec (s : State) (f : Journal → Journal) : (s.modJrnl f).sec = s.sec := rfl
@[simp] theorem State.modJrnl_board (s : State) (f : Journal → Journal) : (s.modJrnl f).board = s.board := rfl
@[simp] theorem State.modJrnl_core (s : State) (f : Journal → Journal) (k : Nat) :
    (s.modJrnl f).core k = s.core k := rfl

@[simp] theorem State.modHost_pending (s : State) (f : HostIf → HostIf) : (s.modHost f).pending = s.pending := rfl
@[simp] theorem State.modHost_now (s : State) (f : HostIf → HostIf) : (s.modHost f).now = s.now := rfl
@[simp] theorem State.modHost_overs (s : State) (f : HostIf → HostIf) : (s.modHost f).overs = s.overs := rfl
@[simp] theorem State.modHost_tickBase (s : State) (f : HostIf → HostIf) : (s.modHost f).tickBase = s.tickBase := rfl
@[simp] theorem State.modHost_freeCtr (s : State) (f : HostIf → HostIf) : (s.modHost f).freeCtr = s.freeCtr := rfl
@[simp] theorem State.modHost_grade (s : State) (f : HostIf → HostIf) : (s.modHost f).grade = s.grade := rfl
@[simp] theorem State.modHost_stepB (s : State) (f : HostIf → HostIf) : (s.modHost f).stepB = s.stepB := rfl
@[simp] theorem State.modHost_lc (s : State) (f : HostIf → HostIf) : (s.modHost f).lc = s.lc := rfl
@[simp] theorem State.modHost_strict (s : State) (f : HostIf → HostIf) : (s.modHost f).strict = s.strict := rfl
@[simp] theorem State.modHost_cores (s : State) (f : HostIf → HostIf) : (s.modHost f).cores = s.cores := rfl
@[simp] theorem State.modHost_faults (s : State) (f : HostIf → HostIf) : (s.modHost f).faults = s.faults := rfl
@[simp] theorem State.modHost_bar (s : State) (f : HostIf → HostIf) : (s.modHost f).bar = s.bar := rfl
@[simp] theorem State.modHost_mesh (s : State) (f : HostIf → HostIf) : (s.modHost f).mesh = s.mesh := rfl
@[simp] theorem State.modHost_route (s : State) (f : HostIf → HostIf) : (s.modHost f).route = s.route := rfl
@[simp] theorem State.modHost_ports (s : State) (f : HostIf → HostIf) : (s.modHost f).ports = s.ports := rfl
@[simp] theorem State.modHost_power (s : State) (f : HostIf → HostIf) : (s.modHost f).power = s.power := rfl
@[simp] theorem State.modHost_moduleId (s : State) (f : HostIf → HostIf) : (s.modHost f).moduleId = s.moduleId := rfl
@[simp] theorem State.modHost_fin (s : State) (f : HostIf → HostIf) : (s.modHost f).fin = s.fin := rfl
@[simp] theorem State.modHost_jrnl (s : State) (f : HostIf → HostIf) : (s.modHost f).jrnl = s.jrnl := rfl
@[simp] theorem State.modHost_twin (s : State) (f : HostIf → HostIf) : (s.modHost f).twin = s.twin := rfl
@[simp] theorem State.modHost_host (s : State) (f : HostIf → HostIf) : (s.modHost f).host = f s.host := rfl
@[simp] theorem State.modHost_clk (s : State) (f : HostIf → HostIf) : (s.modHost f).clk = s.clk := rfl
@[simp] theorem State.modHost_tel (s : State) (f : HostIf → HostIf) : (s.modHost f).tel = s.tel := rfl
@[simp] theorem State.modHost_sec (s : State) (f : HostIf → HostIf) : (s.modHost f).sec = s.sec := rfl
@[simp] theorem State.modHost_board (s : State) (f : HostIf → HostIf) : (s.modHost f).board = s.board := rfl
@[simp] theorem State.modHost_core (s : State) (f : HostIf → HostIf) (k : Nat) : (s.modHost f).core k = s.core k := rfl

@[simp] theorem State.modBar_pending (s : State) (f : Barrier → Barrier) : (s.modBar f).pending = s.pending := rfl
@[simp] theorem State.modBar_now (s : State) (f : Barrier → Barrier) : (s.modBar f).now = s.now := rfl
@[simp] theorem State.modBar_overs (s : State) (f : Barrier → Barrier) : (s.modBar f).overs = s.overs := rfl
@[simp] theorem State.modBar_tickBase (s : State) (f : Barrier → Barrier) : (s.modBar f).tickBase = s.tickBase := rfl
@[simp] theorem State.modBar_freeCtr (s : State) (f : Barrier → Barrier) : (s.modBar f).freeCtr = s.freeCtr := rfl
@[simp] theorem State.modBar_grade (s : State) (f : Barrier → Barrier) : (s.modBar f).grade = s.grade := rfl
@[simp] theorem State.modBar_stepB (s : State) (f : Barrier → Barrier) : (s.modBar f).stepB = s.stepB := rfl
@[simp] theorem State.modBar_lc (s : State) (f : Barrier → Barrier) : (s.modBar f).lc = s.lc := rfl
@[simp] theorem State.modBar_strict (s : State) (f : Barrier → Barrier) : (s.modBar f).strict = s.strict := rfl
@[simp] theorem State.modBar_cores (s : State) (f : Barrier → Barrier) : (s.modBar f).cores = s.cores := rfl
@[simp] theorem State.modBar_faults (s : State) (f : Barrier → Barrier) : (s.modBar f).faults = s.faults := rfl
@[simp] theorem State.modBar_bar (s : State) (f : Barrier → Barrier) : (s.modBar f).bar = f s.bar := rfl
@[simp] theorem State.modBar_mesh (s : State) (f : Barrier → Barrier) : (s.modBar f).mesh = s.mesh := rfl
@[simp] theorem State.modBar_route (s : State) (f : Barrier → Barrier) : (s.modBar f).route = s.route := rfl
@[simp] theorem State.modBar_ports (s : State) (f : Barrier → Barrier) : (s.modBar f).ports = s.ports := rfl
@[simp] theorem State.modBar_power (s : State) (f : Barrier → Barrier) : (s.modBar f).power = s.power := rfl
@[simp] theorem State.modBar_moduleId (s : State) (f : Barrier → Barrier) : (s.modBar f).moduleId = s.moduleId := rfl
@[simp] theorem State.modBar_fin (s : State) (f : Barrier → Barrier) : (s.modBar f).fin = s.fin := rfl
@[simp] theorem State.modBar_jrnl (s : State) (f : Barrier → Barrier) : (s.modBar f).jrnl = s.jrnl := rfl
@[simp] theorem State.modBar_twin (s : State) (f : Barrier → Barrier) : (s.modBar f).twin = s.twin := rfl
@[simp] theorem State.modBar_host (s : State) (f : Barrier → Barrier) : (s.modBar f).host = s.host := rfl
@[simp] theorem State.modBar_clk (s : State) (f : Barrier → Barrier) : (s.modBar f).clk = s.clk := rfl
@[simp] theorem State.modBar_tel (s : State) (f : Barrier → Barrier) : (s.modBar f).tel = s.tel := rfl
@[simp] theorem State.modBar_sec (s : State) (f : Barrier → Barrier) : (s.modBar f).sec = s.sec := rfl
@[simp] theorem State.modBar_board (s : State) (f : Barrier → Barrier) : (s.modBar f).board = s.board := rfl
@[simp] theorem State.modBar_core (s : State) (f : Barrier → Barrier) (k : Nat) : (s.modBar f).core k = s.core k := rfl

@[simp] theorem State.modMesh_pending (s : State) (f : Mesh → Mesh) : (s.modMesh f).pending = s.pending := rfl
@[simp] theorem State.modMesh_now (s : State) (f : Mesh → Mesh) : (s.modMesh f).now = s.now := rfl
@[simp] theorem State.modMesh_overs (s : State) (f : Mesh → Mesh) : (s.modMesh f).overs = s.overs := rfl
@[simp] theorem State.modMesh_tickBase (s : State) (f : Mesh → Mesh) : (s.modMesh f).tickBase = s.tickBase := rfl
@[simp] theorem State.modMesh_freeCtr (s : State) (f : Mesh → Mesh) : (s.modMesh f).freeCtr = s.freeCtr := rfl
@[simp] theorem State.modMesh_grade (s : State) (f : Mesh → Mesh) : (s.modMesh f).grade = s.grade := rfl
@[simp] theorem State.modMesh_stepB (s : State) (f : Mesh → Mesh) : (s.modMesh f).stepB = s.stepB := rfl
@[simp] theorem State.modMesh_lc (s : State) (f : Mesh → Mesh) : (s.modMesh f).lc = s.lc := rfl
@[simp] theorem State.modMesh_strict (s : State) (f : Mesh → Mesh) : (s.modMesh f).strict = s.strict := rfl
@[simp] theorem State.modMesh_cores (s : State) (f : Mesh → Mesh) : (s.modMesh f).cores = s.cores := rfl
@[simp] theorem State.modMesh_faults (s : State) (f : Mesh → Mesh) : (s.modMesh f).faults = s.faults := rfl
@[simp] theorem State.modMesh_bar (s : State) (f : Mesh → Mesh) : (s.modMesh f).bar = s.bar := rfl
@[simp] theorem State.modMesh_mesh (s : State) (f : Mesh → Mesh) : (s.modMesh f).mesh = f s.mesh := rfl
@[simp] theorem State.modMesh_route (s : State) (f : Mesh → Mesh) : (s.modMesh f).route = s.route := rfl
@[simp] theorem State.modMesh_ports (s : State) (f : Mesh → Mesh) : (s.modMesh f).ports = s.ports := rfl
@[simp] theorem State.modMesh_power (s : State) (f : Mesh → Mesh) : (s.modMesh f).power = s.power := rfl
@[simp] theorem State.modMesh_moduleId (s : State) (f : Mesh → Mesh) : (s.modMesh f).moduleId = s.moduleId := rfl
@[simp] theorem State.modMesh_fin (s : State) (f : Mesh → Mesh) : (s.modMesh f).fin = s.fin := rfl
@[simp] theorem State.modMesh_jrnl (s : State) (f : Mesh → Mesh) : (s.modMesh f).jrnl = s.jrnl := rfl
@[simp] theorem State.modMesh_twin (s : State) (f : Mesh → Mesh) : (s.modMesh f).twin = s.twin := rfl
@[simp] theorem State.modMesh_host (s : State) (f : Mesh → Mesh) : (s.modMesh f).host = s.host := rfl
@[simp] theorem State.modMesh_clk (s : State) (f : Mesh → Mesh) : (s.modMesh f).clk = s.clk := rfl
@[simp] theorem State.modMesh_tel (s : State) (f : Mesh → Mesh) : (s.modMesh f).tel = s.tel := rfl
@[simp] theorem State.modMesh_sec (s : State) (f : Mesh → Mesh) : (s.modMesh f).sec = s.sec := rfl
@[simp] theorem State.modMesh_board (s : State) (f : Mesh → Mesh) : (s.modMesh f).board = s.board := rfl
@[simp] theorem State.modMesh_core (s : State) (f : Mesh → Mesh) (k : Nat) : (s.modMesh f).core k = s.core k := rfl

@[simp] theorem State.modClk_pending (s : State) (f : Clocks → Clocks) : (s.modClk f).pending = s.pending := rfl
@[simp] theorem State.modClk_now (s : State) (f : Clocks → Clocks) : (s.modClk f).now = s.now := rfl
@[simp] theorem State.modClk_overs (s : State) (f : Clocks → Clocks) : (s.modClk f).overs = s.overs := rfl
@[simp] theorem State.modClk_tickBase (s : State) (f : Clocks → Clocks) : (s.modClk f).tickBase = s.tickBase := rfl
@[simp] theorem State.modClk_freeCtr (s : State) (f : Clocks → Clocks) : (s.modClk f).freeCtr = s.freeCtr := rfl
@[simp] theorem State.modClk_grade (s : State) (f : Clocks → Clocks) : (s.modClk f).grade = s.grade := rfl
@[simp] theorem State.modClk_stepB (s : State) (f : Clocks → Clocks) : (s.modClk f).stepB = s.stepB := rfl
@[simp] theorem State.modClk_lc (s : State) (f : Clocks → Clocks) : (s.modClk f).lc = s.lc := rfl
@[simp] theorem State.modClk_strict (s : State) (f : Clocks → Clocks) : (s.modClk f).strict = s.strict := rfl
@[simp] theorem State.modClk_cores (s : State) (f : Clocks → Clocks) : (s.modClk f).cores = s.cores := rfl
@[simp] theorem State.modClk_faults (s : State) (f : Clocks → Clocks) : (s.modClk f).faults = s.faults := rfl
@[simp] theorem State.modClk_bar (s : State) (f : Clocks → Clocks) : (s.modClk f).bar = s.bar := rfl
@[simp] theorem State.modClk_mesh (s : State) (f : Clocks → Clocks) : (s.modClk f).mesh = s.mesh := rfl
@[simp] theorem State.modClk_route (s : State) (f : Clocks → Clocks) : (s.modClk f).route = s.route := rfl
@[simp] theorem State.modClk_ports (s : State) (f : Clocks → Clocks) : (s.modClk f).ports = s.ports := rfl
@[simp] theorem State.modClk_power (s : State) (f : Clocks → Clocks) : (s.modClk f).power = s.power := rfl
@[simp] theorem State.modClk_moduleId (s : State) (f : Clocks → Clocks) : (s.modClk f).moduleId = s.moduleId := rfl
@[simp] theorem State.modClk_fin (s : State) (f : Clocks → Clocks) : (s.modClk f).fin = s.fin := rfl
@[simp] theorem State.modClk_jrnl (s : State) (f : Clocks → Clocks) : (s.modClk f).jrnl = s.jrnl := rfl
@[simp] theorem State.modClk_twin (s : State) (f : Clocks → Clocks) : (s.modClk f).twin = s.twin := rfl
@[simp] theorem State.modClk_host (s : State) (f : Clocks → Clocks) : (s.modClk f).host = s.host := rfl
@[simp] theorem State.modClk_clk (s : State) (f : Clocks → Clocks) : (s.modClk f).clk = f s.clk := rfl
@[simp] theorem State.modClk_tel (s : State) (f : Clocks → Clocks) : (s.modClk f).tel = s.tel := rfl
@[simp] theorem State.modClk_sec (s : State) (f : Clocks → Clocks) : (s.modClk f).sec = s.sec := rfl
@[simp] theorem State.modClk_board (s : State) (f : Clocks → Clocks) : (s.modClk f).board = s.board := rfl
@[simp] theorem State.modClk_core (s : State) (f : Clocks → Clocks) (k : Nat) : (s.modClk f).core k = s.core k := rfl

@[simp] theorem State.modPower_pending (s : State) (f : Power → Power) : (s.modPower f).pending = s.pending := rfl
@[simp] theorem State.modPower_now (s : State) (f : Power → Power) : (s.modPower f).now = s.now := rfl
@[simp] theorem State.modPower_overs (s : State) (f : Power → Power) : (s.modPower f).overs = s.overs := rfl
@[simp] theorem State.modPower_tickBase (s : State) (f : Power → Power) : (s.modPower f).tickBase = s.tickBase := rfl
@[simp] theorem State.modPower_freeCtr (s : State) (f : Power → Power) : (s.modPower f).freeCtr = s.freeCtr := rfl
@[simp] theorem State.modPower_grade (s : State) (f : Power → Power) : (s.modPower f).grade = s.grade := rfl
@[simp] theorem State.modPower_stepB (s : State) (f : Power → Power) : (s.modPower f).stepB = s.stepB := rfl
@[simp] theorem State.modPower_lc (s : State) (f : Power → Power) : (s.modPower f).lc = s.lc := rfl
@[simp] theorem State.modPower_strict (s : State) (f : Power → Power) : (s.modPower f).strict = s.strict := rfl
@[simp] theorem State.modPower_cores (s : State) (f : Power → Power) : (s.modPower f).cores = s.cores := rfl
@[simp] theorem State.modPower_faults (s : State) (f : Power → Power) : (s.modPower f).faults = s.faults := rfl
@[simp] theorem State.modPower_bar (s : State) (f : Power → Power) : (s.modPower f).bar = s.bar := rfl
@[simp] theorem State.modPower_mesh (s : State) (f : Power → Power) : (s.modPower f).mesh = s.mesh := rfl
@[simp] theorem State.modPower_route (s : State) (f : Power → Power) : (s.modPower f).route = s.route := rfl
@[simp] theorem State.modPower_ports (s : State) (f : Power → Power) : (s.modPower f).ports = s.ports := rfl
@[simp] theorem State.modPower_power (s : State) (f : Power → Power) : (s.modPower f).power = f s.power := rfl
@[simp] theorem State.modPower_moduleId (s : State) (f : Power → Power) : (s.modPower f).moduleId = s.moduleId := rfl
@[simp] theorem State.modPower_fin (s : State) (f : Power → Power) : (s.modPower f).fin = s.fin := rfl
@[simp] theorem State.modPower_jrnl (s : State) (f : Power → Power) : (s.modPower f).jrnl = s.jrnl := rfl
@[simp] theorem State.modPower_twin (s : State) (f : Power → Power) : (s.modPower f).twin = s.twin := rfl
@[simp] theorem State.modPower_host (s : State) (f : Power → Power) : (s.modPower f).host = s.host := rfl
@[simp] theorem State.modPower_clk (s : State) (f : Power → Power) : (s.modPower f).clk = s.clk := rfl
@[simp] theorem State.modPower_tel (s : State) (f : Power → Power) : (s.modPower f).tel = s.tel := rfl
@[simp] theorem State.modPower_sec (s : State) (f : Power → Power) : (s.modPower f).sec = s.sec := rfl
@[simp] theorem State.modPower_board (s : State) (f : Power → Power) : (s.modPower f).board = s.board := rfl
@[simp] theorem State.modPower_core (s : State) (f : Power → Power) (k : Nat) : (s.modPower f).core k = s.core k := rfl

@[simp] theorem State.modTel_pending (s : State) (f : Telemetry → Telemetry) : (s.modTel f).pending = s.pending := rfl
@[simp] theorem State.modTel_now (s : State) (f : Telemetry → Telemetry) : (s.modTel f).now = s.now := rfl
@[simp] theorem State.modTel_overs (s : State) (f : Telemetry → Telemetry) : (s.modTel f).overs = s.overs := rfl
@[simp] theorem State.modTel_tickBase (s : State) (f : Telemetry → Telemetry) :
    (s.modTel f).tickBase = s.tickBase := rfl
@[simp] theorem State.modTel_freeCtr (s : State) (f : Telemetry → Telemetry) : (s.modTel f).freeCtr = s.freeCtr := rfl
@[simp] theorem State.modTel_grade (s : State) (f : Telemetry → Telemetry) : (s.modTel f).grade = s.grade := rfl
@[simp] theorem State.modTel_stepB (s : State) (f : Telemetry → Telemetry) : (s.modTel f).stepB = s.stepB := rfl
@[simp] theorem State.modTel_lc (s : State) (f : Telemetry → Telemetry) : (s.modTel f).lc = s.lc := rfl
@[simp] theorem State.modTel_strict (s : State) (f : Telemetry → Telemetry) : (s.modTel f).strict = s.strict := rfl
@[simp] theorem State.modTel_cores (s : State) (f : Telemetry → Telemetry) : (s.modTel f).cores = s.cores := rfl
@[simp] theorem State.modTel_faults (s : State) (f : Telemetry → Telemetry) : (s.modTel f).faults = s.faults := rfl
@[simp] theorem State.modTel_bar (s : State) (f : Telemetry → Telemetry) : (s.modTel f).bar = s.bar := rfl
@[simp] theorem State.modTel_mesh (s : State) (f : Telemetry → Telemetry) : (s.modTel f).mesh = s.mesh := rfl
@[simp] theorem State.modTel_route (s : State) (f : Telemetry → Telemetry) : (s.modTel f).route = s.route := rfl
@[simp] theorem State.modTel_ports (s : State) (f : Telemetry → Telemetry) : (s.modTel f).ports = s.ports := rfl
@[simp] theorem State.modTel_power (s : State) (f : Telemetry → Telemetry) : (s.modTel f).power = s.power := rfl
@[simp] theorem State.modTel_moduleId (s : State) (f : Telemetry → Telemetry) :
    (s.modTel f).moduleId = s.moduleId := rfl
@[simp] theorem State.modTel_fin (s : State) (f : Telemetry → Telemetry) : (s.modTel f).fin = s.fin := rfl
@[simp] theorem State.modTel_jrnl (s : State) (f : Telemetry → Telemetry) : (s.modTel f).jrnl = s.jrnl := rfl
@[simp] theorem State.modTel_twin (s : State) (f : Telemetry → Telemetry) : (s.modTel f).twin = s.twin := rfl
@[simp] theorem State.modTel_host (s : State) (f : Telemetry → Telemetry) : (s.modTel f).host = s.host := rfl
@[simp] theorem State.modTel_clk (s : State) (f : Telemetry → Telemetry) : (s.modTel f).clk = s.clk := rfl
@[simp] theorem State.modTel_tel (s : State) (f : Telemetry → Telemetry) : (s.modTel f).tel = f s.tel := rfl
@[simp] theorem State.modTel_sec (s : State) (f : Telemetry → Telemetry) : (s.modTel f).sec = s.sec := rfl
@[simp] theorem State.modTel_board (s : State) (f : Telemetry → Telemetry) : (s.modTel f).board = s.board := rfl
@[simp] theorem State.modTel_core (s : State) (f : Telemetry → Telemetry) (k : Nat) :
    (s.modTel f).core k = s.core k := rfl

@[simp] theorem State.modSec_pending (s : State) (f : Security → Security) : (s.modSec f).pending = s.pending := rfl
@[simp] theorem State.modSec_now (s : State) (f : Security → Security) : (s.modSec f).now = s.now := rfl
@[simp] theorem State.modSec_overs (s : State) (f : Security → Security) : (s.modSec f).overs = s.overs := rfl
@[simp] theorem State.modSec_tickBase (s : State) (f : Security → Security) : (s.modSec f).tickBase = s.tickBase := rfl
@[simp] theorem State.modSec_freeCtr (s : State) (f : Security → Security) : (s.modSec f).freeCtr = s.freeCtr := rfl
@[simp] theorem State.modSec_grade (s : State) (f : Security → Security) : (s.modSec f).grade = s.grade := rfl
@[simp] theorem State.modSec_stepB (s : State) (f : Security → Security) : (s.modSec f).stepB = s.stepB := rfl
@[simp] theorem State.modSec_lc (s : State) (f : Security → Security) : (s.modSec f).lc = s.lc := rfl
@[simp] theorem State.modSec_strict (s : State) (f : Security → Security) : (s.modSec f).strict = s.strict := rfl
@[simp] theorem State.modSec_cores (s : State) (f : Security → Security) : (s.modSec f).cores = s.cores := rfl
@[simp] theorem State.modSec_faults (s : State) (f : Security → Security) : (s.modSec f).faults = s.faults := rfl
@[simp] theorem State.modSec_bar (s : State) (f : Security → Security) : (s.modSec f).bar = s.bar := rfl
@[simp] theorem State.modSec_mesh (s : State) (f : Security → Security) : (s.modSec f).mesh = s.mesh := rfl
@[simp] theorem State.modSec_route (s : State) (f : Security → Security) : (s.modSec f).route = s.route := rfl
@[simp] theorem State.modSec_ports (s : State) (f : Security → Security) : (s.modSec f).ports = s.ports := rfl
@[simp] theorem State.modSec_power (s : State) (f : Security → Security) : (s.modSec f).power = s.power := rfl
@[simp] theorem State.modSec_moduleId (s : State) (f : Security → Security) : (s.modSec f).moduleId = s.moduleId := rfl
@[simp] theorem State.modSec_fin (s : State) (f : Security → Security) : (s.modSec f).fin = s.fin := rfl
@[simp] theorem State.modSec_jrnl (s : State) (f : Security → Security) : (s.modSec f).jrnl = s.jrnl := rfl
@[simp] theorem State.modSec_twin (s : State) (f : Security → Security) : (s.modSec f).twin = s.twin := rfl
@[simp] theorem State.modSec_host (s : State) (f : Security → Security) : (s.modSec f).host = s.host := rfl
@[simp] theorem State.modSec_clk (s : State) (f : Security → Security) : (s.modSec f).clk = s.clk := rfl
@[simp] theorem State.modSec_tel (s : State) (f : Security → Security) : (s.modSec f).tel = s.tel := rfl
@[simp] theorem State.modSec_sec (s : State) (f : Security → Security) : (s.modSec f).sec = f s.sec := rfl
@[simp] theorem State.modSec_board (s : State) (f : Security → Security) : (s.modSec f).board = s.board := rfl
@[simp] theorem State.modSec_core (s : State) (f : Security → Security) (k : Nat) :
    (s.modSec f).core k = s.core k := rfl

@[simp] theorem State.modBoard_pending (s : State) (f : Board → Board) : (s.modBoard f).pending = s.pending := rfl
@[simp] theorem State.modBoard_now (s : State) (f : Board → Board) : (s.modBoard f).now = s.now := rfl
@[simp] theorem State.modBoard_overs (s : State) (f : Board → Board) : (s.modBoard f).overs = s.overs := rfl
@[simp] theorem State.modBoard_tickBase (s : State) (f : Board → Board) : (s.modBoard f).tickBase = s.tickBase := rfl
@[simp] theorem State.modBoard_freeCtr (s : State) (f : Board → Board) : (s.modBoard f).freeCtr = s.freeCtr := rfl
@[simp] theorem State.modBoard_grade (s : State) (f : Board → Board) : (s.modBoard f).grade = s.grade := rfl
@[simp] theorem State.modBoard_stepB (s : State) (f : Board → Board) : (s.modBoard f).stepB = s.stepB := rfl
@[simp] theorem State.modBoard_lc (s : State) (f : Board → Board) : (s.modBoard f).lc = s.lc := rfl
@[simp] theorem State.modBoard_strict (s : State) (f : Board → Board) : (s.modBoard f).strict = s.strict := rfl
@[simp] theorem State.modBoard_cores (s : State) (f : Board → Board) : (s.modBoard f).cores = s.cores := rfl
@[simp] theorem State.modBoard_faults (s : State) (f : Board → Board) : (s.modBoard f).faults = s.faults := rfl
@[simp] theorem State.modBoard_bar (s : State) (f : Board → Board) : (s.modBoard f).bar = s.bar := rfl
@[simp] theorem State.modBoard_mesh (s : State) (f : Board → Board) : (s.modBoard f).mesh = s.mesh := rfl
@[simp] theorem State.modBoard_route (s : State) (f : Board → Board) : (s.modBoard f).route = s.route := rfl
@[simp] theorem State.modBoard_ports (s : State) (f : Board → Board) : (s.modBoard f).ports = s.ports := rfl
@[simp] theorem State.modBoard_power (s : State) (f : Board → Board) : (s.modBoard f).power = s.power := rfl
@[simp] theorem State.modBoard_moduleId (s : State) (f : Board → Board) : (s.modBoard f).moduleId = s.moduleId := rfl
@[simp] theorem State.modBoard_fin (s : State) (f : Board → Board) : (s.modBoard f).fin = s.fin := rfl
@[simp] theorem State.modBoard_jrnl (s : State) (f : Board → Board) : (s.modBoard f).jrnl = s.jrnl := rfl
@[simp] theorem State.modBoard_twin (s : State) (f : Board → Board) : (s.modBoard f).twin = s.twin := rfl
@[simp] theorem State.modBoard_host (s : State) (f : Board → Board) : (s.modBoard f).host = s.host := rfl
@[simp] theorem State.modBoard_clk (s : State) (f : Board → Board) : (s.modBoard f).clk = s.clk := rfl
@[simp] theorem State.modBoard_tel (s : State) (f : Board → Board) : (s.modBoard f).tel = s.tel := rfl
@[simp] theorem State.modBoard_sec (s : State) (f : Board → Board) : (s.modBoard f).sec = s.sec := rfl
@[simp] theorem State.modBoard_board (s : State) (f : Board → Board) : (s.modBoard f).board = f s.board := rfl
@[simp] theorem State.modBoard_core (s : State) (f : Board → Board) (k : Nat) : (s.modBoard f).core k = s.core k := rfl

@[simp] theorem State.modFaults_pending (s : State) (f : FaultLog → FaultLog) :
    (s.modFaults f).pending = s.pending := rfl
@[simp] theorem State.modFaults_now (s : State) (f : FaultLog → FaultLog) : (s.modFaults f).now = s.now := rfl
@[simp] theorem State.modFaults_overs (s : State) (f : FaultLog → FaultLog) : (s.modFaults f).overs = s.overs := rfl
@[simp] theorem State.modFaults_tickBase (s : State) (f : FaultLog → FaultLog) :
    (s.modFaults f).tickBase = s.tickBase := rfl
@[simp] theorem State.modFaults_freeCtr (s : State) (f : FaultLog → FaultLog) :
    (s.modFaults f).freeCtr = s.freeCtr := rfl
@[simp] theorem State.modFaults_grade (s : State) (f : FaultLog → FaultLog) : (s.modFaults f).grade = s.grade := rfl
@[simp] theorem State.modFaults_stepB (s : State) (f : FaultLog → FaultLog) : (s.modFaults f).stepB = s.stepB := rfl
@[simp] theorem State.modFaults_lc (s : State) (f : FaultLog → FaultLog) : (s.modFaults f).lc = s.lc := rfl
@[simp] theorem State.modFaults_strict (s : State) (f : FaultLog → FaultLog) : (s.modFaults f).strict = s.strict := rfl
@[simp] theorem State.modFaults_cores (s : State) (f : FaultLog → FaultLog) : (s.modFaults f).cores = s.cores := rfl
@[simp] theorem State.modFaults_faults (s : State) (f : FaultLog → FaultLog) :
    (s.modFaults f).faults = f s.faults := rfl
@[simp] theorem State.modFaults_bar (s : State) (f : FaultLog → FaultLog) : (s.modFaults f).bar = s.bar := rfl
@[simp] theorem State.modFaults_mesh (s : State) (f : FaultLog → FaultLog) : (s.modFaults f).mesh = s.mesh := rfl
@[simp] theorem State.modFaults_route (s : State) (f : FaultLog → FaultLog) : (s.modFaults f).route = s.route := rfl
@[simp] theorem State.modFaults_ports (s : State) (f : FaultLog → FaultLog) : (s.modFaults f).ports = s.ports := rfl
@[simp] theorem State.modFaults_power (s : State) (f : FaultLog → FaultLog) : (s.modFaults f).power = s.power := rfl
@[simp] theorem State.modFaults_moduleId (s : State) (f : FaultLog → FaultLog) :
    (s.modFaults f).moduleId = s.moduleId := rfl
@[simp] theorem State.modFaults_fin (s : State) (f : FaultLog → FaultLog) : (s.modFaults f).fin = s.fin := rfl
@[simp] theorem State.modFaults_jrnl (s : State) (f : FaultLog → FaultLog) : (s.modFaults f).jrnl = s.jrnl := rfl
@[simp] theorem State.modFaults_twin (s : State) (f : FaultLog → FaultLog) : (s.modFaults f).twin = s.twin := rfl
@[simp] theorem State.modFaults_host (s : State) (f : FaultLog → FaultLog) : (s.modFaults f).host = s.host := rfl
@[simp] theorem State.modFaults_clk (s : State) (f : FaultLog → FaultLog) : (s.modFaults f).clk = s.clk := rfl
@[simp] theorem State.modFaults_tel (s : State) (f : FaultLog → FaultLog) : (s.modFaults f).tel = s.tel := rfl
@[simp] theorem State.modFaults_sec (s : State) (f : FaultLog → FaultLog) : (s.modFaults f).sec = s.sec := rfl
@[simp] theorem State.modFaults_board (s : State) (f : FaultLog → FaultLog) : (s.modFaults f).board = s.board := rfl
@[simp] theorem State.modFaults_core (s : State) (f : FaultLog → FaultLog) (k : Nat) :
    (s.modFaults f).core k = s.core k := rfl

@[simp] theorem State.fresh_pending (s : State) : s.fresh.2.pending = s.pending := rfl
@[simp] theorem State.fresh_now (s : State) : s.fresh.2.now = s.now := rfl
@[simp] theorem State.fresh_overs (s : State) : s.fresh.2.overs = s.overs := rfl
@[simp] theorem State.fresh_tickBase (s : State) : s.fresh.2.tickBase = s.tickBase := rfl
@[simp] theorem State.fresh_grade (s : State) : s.fresh.2.grade = s.grade := rfl
@[simp] theorem State.fresh_stepB (s : State) : s.fresh.2.stepB = s.stepB := rfl
@[simp] theorem State.fresh_lc (s : State) : s.fresh.2.lc = s.lc := rfl
@[simp] theorem State.fresh_strict (s : State) : s.fresh.2.strict = s.strict := rfl
@[simp] theorem State.fresh_cores (s : State) : s.fresh.2.cores = s.cores := rfl
@[simp] theorem State.fresh_faults (s : State) : s.fresh.2.faults = s.faults := rfl
@[simp] theorem State.fresh_bar (s : State) : s.fresh.2.bar = s.bar := rfl
@[simp] theorem State.fresh_mesh (s : State) : s.fresh.2.mesh = s.mesh := rfl
@[simp] theorem State.fresh_route (s : State) : s.fresh.2.route = s.route := rfl
@[simp] theorem State.fresh_ports (s : State) : s.fresh.2.ports = s.ports := rfl
@[simp] theorem State.fresh_power (s : State) : s.fresh.2.power = s.power := rfl
@[simp] theorem State.fresh_moduleId (s : State) : s.fresh.2.moduleId = s.moduleId := rfl
@[simp] theorem State.fresh_fin (s : State) : s.fresh.2.fin = s.fin := rfl
@[simp] theorem State.fresh_jrnl (s : State) : s.fresh.2.jrnl = s.jrnl := rfl
@[simp] theorem State.fresh_twin (s : State) : s.fresh.2.twin = s.twin := rfl
@[simp] theorem State.fresh_host (s : State) : s.fresh.2.host = s.host := rfl
@[simp] theorem State.fresh_clk (s : State) : s.fresh.2.clk = s.clk := rfl
@[simp] theorem State.fresh_tel (s : State) : s.fresh.2.tel = s.tel := rfl
@[simp] theorem State.fresh_sec (s : State) : s.fresh.2.sec = s.sec := rfl
@[simp] theorem State.fresh_board (s : State) : s.fresh.2.board = s.board := rfl
@[simp] theorem State.fresh_freeCtr (s : State) : s.fresh.2.freeCtr = s.freeCtr + 1 := rfl
@[simp] theorem State.fresh_core (s : State) (k : Nat) : s.fresh.2.core k = s.core k := rfl

/-! ## Cores: the fields -/

@[simp] theorem Core.modMem_mem (c : Core) (f : CoreMem → CoreMem) : (c.modMem f).mem = f c.mem := rfl
@[simp] theorem Core.modMem_regs (c : Core) (f : CoreMem → CoreMem) : (c.modMem f).regs = c.regs := rfl
@[simp] theorem Core.modMem_mxs (c : Core) (f : CoreMem → CoreMem) : (c.modMem f).mxs = c.mxs := rfl
@[simp] theorem Core.modMem_vxs (c : Core) (f : CoreMem → CoreMem) : (c.modMem f).vxs = c.vxs := rfl
@[simp] theorem Core.modMem_dxs (c : Core) (f : CoreMem → CoreMem) : (c.modMem f).dxs = c.dxs := rfl
@[simp] theorem Core.modMem_nxs (c : Core) (f : CoreMem → CoreMem) : (c.modMem f).nxs = c.nxs := rfl
@[simp] theorem Core.modMem_sxs (c : Core) (f : CoreMem → CoreMem) : (c.modMem f).sxs = c.sxs := rfl
@[simp] theorem Core.modMem_sync (c : Core) (f : CoreMem → CoreMem) : (c.modMem f).sync = c.sync := rfl
@[simp] theorem Core.modMem_mx (c : Core) (f : CoreMem → CoreMem) : (c.modMem f).mx = c.mx := rfl
@[simp] theorem Core.modMem_vx (c : Core) (f : CoreMem → CoreMem) : (c.modMem f).vx = c.vx := rfl
@[simp] theorem Core.modMem_dx (c : Core) (f : CoreMem → CoreMem) : (c.modMem f).dx = c.dx := rfl
@[simp] theorem Core.modMem_nx (c : Core) (f : CoreMem → CoreMem) : (c.modMem f).nx = c.nx := rfl
@[simp] theorem Core.modMem_sx (c : Core) (f : CoreMem → CoreMem) : (c.modMem f).sx = c.sx := rfl
@[simp] theorem Core.modMem_chan (c : Core) (f : CoreMem → CoreMem) : (c.modMem f).chan = c.chan := rfl
@[simp] theorem Core.modMem_ctl (c : Core) (f : CoreMem → CoreMem) : (c.modMem f).ctl = c.ctl := rfl
@[simp] theorem Core.modMem_stream (c : Core) (f : CoreMem → CoreMem) (e : Engine) :
    (c.modMem f).stream e = c.stream e := by cases e <;> rfl

@[simp] theorem Core.modRegs_mem (c : Core) (f : MemRegs → MemRegs) : (c.modRegs f).mem = c.mem := rfl
@[simp] theorem Core.modRegs_regs (c : Core) (f : MemRegs → MemRegs) : (c.modRegs f).regs = f c.regs := rfl
@[simp] theorem Core.modRegs_mxs (c : Core) (f : MemRegs → MemRegs) : (c.modRegs f).mxs = c.mxs := rfl
@[simp] theorem Core.modRegs_vxs (c : Core) (f : MemRegs → MemRegs) : (c.modRegs f).vxs = c.vxs := rfl
@[simp] theorem Core.modRegs_dxs (c : Core) (f : MemRegs → MemRegs) : (c.modRegs f).dxs = c.dxs := rfl
@[simp] theorem Core.modRegs_nxs (c : Core) (f : MemRegs → MemRegs) : (c.modRegs f).nxs = c.nxs := rfl
@[simp] theorem Core.modRegs_sxs (c : Core) (f : MemRegs → MemRegs) : (c.modRegs f).sxs = c.sxs := rfl
@[simp] theorem Core.modRegs_sync (c : Core) (f : MemRegs → MemRegs) : (c.modRegs f).sync = c.sync := rfl
@[simp] theorem Core.modRegs_mx (c : Core) (f : MemRegs → MemRegs) : (c.modRegs f).mx = c.mx := rfl
@[simp] theorem Core.modRegs_vx (c : Core) (f : MemRegs → MemRegs) : (c.modRegs f).vx = c.vx := rfl
@[simp] theorem Core.modRegs_dx (c : Core) (f : MemRegs → MemRegs) : (c.modRegs f).dx = c.dx := rfl
@[simp] theorem Core.modRegs_nx (c : Core) (f : MemRegs → MemRegs) : (c.modRegs f).nx = c.nx := rfl
@[simp] theorem Core.modRegs_sx (c : Core) (f : MemRegs → MemRegs) : (c.modRegs f).sx = c.sx := rfl
@[simp] theorem Core.modRegs_chan (c : Core) (f : MemRegs → MemRegs) : (c.modRegs f).chan = c.chan := rfl
@[simp] theorem Core.modRegs_ctl (c : Core) (f : MemRegs → MemRegs) : (c.modRegs f).ctl = c.ctl := rfl
@[simp] theorem Core.modRegs_stream (c : Core) (f : MemRegs → MemRegs) (e : Engine) :
    (c.modRegs f).stream e = c.stream e := by cases e <;> rfl

@[simp] theorem Core.modMx_mem (c : Core) (f : Mx → Mx) : (c.modMx f).mem = c.mem := rfl
@[simp] theorem Core.modMx_regs (c : Core) (f : Mx → Mx) : (c.modMx f).regs = c.regs := rfl
@[simp] theorem Core.modMx_mxs (c : Core) (f : Mx → Mx) : (c.modMx f).mxs = c.mxs := rfl
@[simp] theorem Core.modMx_vxs (c : Core) (f : Mx → Mx) : (c.modMx f).vxs = c.vxs := rfl
@[simp] theorem Core.modMx_dxs (c : Core) (f : Mx → Mx) : (c.modMx f).dxs = c.dxs := rfl
@[simp] theorem Core.modMx_nxs (c : Core) (f : Mx → Mx) : (c.modMx f).nxs = c.nxs := rfl
@[simp] theorem Core.modMx_sxs (c : Core) (f : Mx → Mx) : (c.modMx f).sxs = c.sxs := rfl
@[simp] theorem Core.modMx_sync (c : Core) (f : Mx → Mx) : (c.modMx f).sync = c.sync := rfl
@[simp] theorem Core.modMx_mx (c : Core) (f : Mx → Mx) : (c.modMx f).mx = f c.mx := rfl
@[simp] theorem Core.modMx_vx (c : Core) (f : Mx → Mx) : (c.modMx f).vx = c.vx := rfl
@[simp] theorem Core.modMx_dx (c : Core) (f : Mx → Mx) : (c.modMx f).dx = c.dx := rfl
@[simp] theorem Core.modMx_nx (c : Core) (f : Mx → Mx) : (c.modMx f).nx = c.nx := rfl
@[simp] theorem Core.modMx_sx (c : Core) (f : Mx → Mx) : (c.modMx f).sx = c.sx := rfl
@[simp] theorem Core.modMx_chan (c : Core) (f : Mx → Mx) : (c.modMx f).chan = c.chan := rfl
@[simp] theorem Core.modMx_ctl (c : Core) (f : Mx → Mx) : (c.modMx f).ctl = c.ctl := rfl
@[simp] theorem Core.modMx_stream (c : Core) (f : Mx → Mx) (e : Engine) :
    (c.modMx f).stream e = c.stream e := by cases e <;> rfl

@[simp] theorem Core.modVx_mem (c : Core) (f : Vx → Vx) : (c.modVx f).mem = c.mem := rfl
@[simp] theorem Core.modVx_regs (c : Core) (f : Vx → Vx) : (c.modVx f).regs = c.regs := rfl
@[simp] theorem Core.modVx_mxs (c : Core) (f : Vx → Vx) : (c.modVx f).mxs = c.mxs := rfl
@[simp] theorem Core.modVx_vxs (c : Core) (f : Vx → Vx) : (c.modVx f).vxs = c.vxs := rfl
@[simp] theorem Core.modVx_dxs (c : Core) (f : Vx → Vx) : (c.modVx f).dxs = c.dxs := rfl
@[simp] theorem Core.modVx_nxs (c : Core) (f : Vx → Vx) : (c.modVx f).nxs = c.nxs := rfl
@[simp] theorem Core.modVx_sxs (c : Core) (f : Vx → Vx) : (c.modVx f).sxs = c.sxs := rfl
@[simp] theorem Core.modVx_sync (c : Core) (f : Vx → Vx) : (c.modVx f).sync = c.sync := rfl
@[simp] theorem Core.modVx_mx (c : Core) (f : Vx → Vx) : (c.modVx f).mx = c.mx := rfl
@[simp] theorem Core.modVx_vx (c : Core) (f : Vx → Vx) : (c.modVx f).vx = f c.vx := rfl
@[simp] theorem Core.modVx_dx (c : Core) (f : Vx → Vx) : (c.modVx f).dx = c.dx := rfl
@[simp] theorem Core.modVx_nx (c : Core) (f : Vx → Vx) : (c.modVx f).nx = c.nx := rfl
@[simp] theorem Core.modVx_sx (c : Core) (f : Vx → Vx) : (c.modVx f).sx = c.sx := rfl
@[simp] theorem Core.modVx_chan (c : Core) (f : Vx → Vx) : (c.modVx f).chan = c.chan := rfl
@[simp] theorem Core.modVx_ctl (c : Core) (f : Vx → Vx) : (c.modVx f).ctl = c.ctl := rfl
@[simp] theorem Core.modVx_stream (c : Core) (f : Vx → Vx) (e : Engine) :
    (c.modVx f).stream e = c.stream e := by cases e <;> rfl

@[simp] theorem Core.modDx_mem (c : Core) (f : Dx → Dx) : (c.modDx f).mem = c.mem := rfl
@[simp] theorem Core.modDx_regs (c : Core) (f : Dx → Dx) : (c.modDx f).regs = c.regs := rfl
@[simp] theorem Core.modDx_mxs (c : Core) (f : Dx → Dx) : (c.modDx f).mxs = c.mxs := rfl
@[simp] theorem Core.modDx_vxs (c : Core) (f : Dx → Dx) : (c.modDx f).vxs = c.vxs := rfl
@[simp] theorem Core.modDx_dxs (c : Core) (f : Dx → Dx) : (c.modDx f).dxs = c.dxs := rfl
@[simp] theorem Core.modDx_nxs (c : Core) (f : Dx → Dx) : (c.modDx f).nxs = c.nxs := rfl
@[simp] theorem Core.modDx_sxs (c : Core) (f : Dx → Dx) : (c.modDx f).sxs = c.sxs := rfl
@[simp] theorem Core.modDx_sync (c : Core) (f : Dx → Dx) : (c.modDx f).sync = c.sync := rfl
@[simp] theorem Core.modDx_mx (c : Core) (f : Dx → Dx) : (c.modDx f).mx = c.mx := rfl
@[simp] theorem Core.modDx_vx (c : Core) (f : Dx → Dx) : (c.modDx f).vx = c.vx := rfl
@[simp] theorem Core.modDx_dx (c : Core) (f : Dx → Dx) : (c.modDx f).dx = f c.dx := rfl
@[simp] theorem Core.modDx_nx (c : Core) (f : Dx → Dx) : (c.modDx f).nx = c.nx := rfl
@[simp] theorem Core.modDx_sx (c : Core) (f : Dx → Dx) : (c.modDx f).sx = c.sx := rfl
@[simp] theorem Core.modDx_chan (c : Core) (f : Dx → Dx) : (c.modDx f).chan = c.chan := rfl
@[simp] theorem Core.modDx_ctl (c : Core) (f : Dx → Dx) : (c.modDx f).ctl = c.ctl := rfl
@[simp] theorem Core.modDx_stream (c : Core) (f : Dx → Dx) (e : Engine) :
    (c.modDx f).stream e = c.stream e := by cases e <;> rfl

@[simp] theorem Core.modNx_mem (c : Core) (f : Nx → Nx) : (c.modNx f).mem = c.mem := rfl
@[simp] theorem Core.modNx_regs (c : Core) (f : Nx → Nx) : (c.modNx f).regs = c.regs := rfl
@[simp] theorem Core.modNx_mxs (c : Core) (f : Nx → Nx) : (c.modNx f).mxs = c.mxs := rfl
@[simp] theorem Core.modNx_vxs (c : Core) (f : Nx → Nx) : (c.modNx f).vxs = c.vxs := rfl
@[simp] theorem Core.modNx_dxs (c : Core) (f : Nx → Nx) : (c.modNx f).dxs = c.dxs := rfl
@[simp] theorem Core.modNx_nxs (c : Core) (f : Nx → Nx) : (c.modNx f).nxs = c.nxs := rfl
@[simp] theorem Core.modNx_sxs (c : Core) (f : Nx → Nx) : (c.modNx f).sxs = c.sxs := rfl
@[simp] theorem Core.modNx_sync (c : Core) (f : Nx → Nx) : (c.modNx f).sync = c.sync := rfl
@[simp] theorem Core.modNx_mx (c : Core) (f : Nx → Nx) : (c.modNx f).mx = c.mx := rfl
@[simp] theorem Core.modNx_vx (c : Core) (f : Nx → Nx) : (c.modNx f).vx = c.vx := rfl
@[simp] theorem Core.modNx_dx (c : Core) (f : Nx → Nx) : (c.modNx f).dx = c.dx := rfl
@[simp] theorem Core.modNx_nx (c : Core) (f : Nx → Nx) : (c.modNx f).nx = f c.nx := rfl
@[simp] theorem Core.modNx_sx (c : Core) (f : Nx → Nx) : (c.modNx f).sx = c.sx := rfl
@[simp] theorem Core.modNx_chan (c : Core) (f : Nx → Nx) : (c.modNx f).chan = c.chan := rfl
@[simp] theorem Core.modNx_ctl (c : Core) (f : Nx → Nx) : (c.modNx f).ctl = c.ctl := rfl
@[simp] theorem Core.modNx_stream (c : Core) (f : Nx → Nx) (e : Engine) :
    (c.modNx f).stream e = c.stream e := by cases e <;> rfl

@[simp] theorem Core.modSx_mem (c : Core) (f : Sx → Sx) : (c.modSx f).mem = c.mem := rfl
@[simp] theorem Core.modSx_regs (c : Core) (f : Sx → Sx) : (c.modSx f).regs = c.regs := rfl
@[simp] theorem Core.modSx_mxs (c : Core) (f : Sx → Sx) : (c.modSx f).mxs = c.mxs := rfl
@[simp] theorem Core.modSx_vxs (c : Core) (f : Sx → Sx) : (c.modSx f).vxs = c.vxs := rfl
@[simp] theorem Core.modSx_dxs (c : Core) (f : Sx → Sx) : (c.modSx f).dxs = c.dxs := rfl
@[simp] theorem Core.modSx_nxs (c : Core) (f : Sx → Sx) : (c.modSx f).nxs = c.nxs := rfl
@[simp] theorem Core.modSx_sxs (c : Core) (f : Sx → Sx) : (c.modSx f).sxs = c.sxs := rfl
@[simp] theorem Core.modSx_sync (c : Core) (f : Sx → Sx) : (c.modSx f).sync = c.sync := rfl
@[simp] theorem Core.modSx_mx (c : Core) (f : Sx → Sx) : (c.modSx f).mx = c.mx := rfl
@[simp] theorem Core.modSx_vx (c : Core) (f : Sx → Sx) : (c.modSx f).vx = c.vx := rfl
@[simp] theorem Core.modSx_dx (c : Core) (f : Sx → Sx) : (c.modSx f).dx = c.dx := rfl
@[simp] theorem Core.modSx_nx (c : Core) (f : Sx → Sx) : (c.modSx f).nx = c.nx := rfl
@[simp] theorem Core.modSx_sx (c : Core) (f : Sx → Sx) : (c.modSx f).sx = f c.sx := rfl
@[simp] theorem Core.modSx_chan (c : Core) (f : Sx → Sx) : (c.modSx f).chan = c.chan := rfl
@[simp] theorem Core.modSx_ctl (c : Core) (f : Sx → Sx) : (c.modSx f).ctl = c.ctl := rfl
@[simp] theorem Core.modSx_stream (c : Core) (f : Sx → Sx) (e : Engine) :
    (c.modSx f).stream e = c.stream e := by cases e <;> rfl

@[simp] theorem Core.modChan_mem (c : Core) (f : Chan → Chan) : (c.modChan f).mem = c.mem := rfl
@[simp] theorem Core.modChan_regs (c : Core) (f : Chan → Chan) : (c.modChan f).regs = c.regs := rfl
@[simp] theorem Core.modChan_mxs (c : Core) (f : Chan → Chan) : (c.modChan f).mxs = c.mxs := rfl
@[simp] theorem Core.modChan_vxs (c : Core) (f : Chan → Chan) : (c.modChan f).vxs = c.vxs := rfl
@[simp] theorem Core.modChan_dxs (c : Core) (f : Chan → Chan) : (c.modChan f).dxs = c.dxs := rfl
@[simp] theorem Core.modChan_nxs (c : Core) (f : Chan → Chan) : (c.modChan f).nxs = c.nxs := rfl
@[simp] theorem Core.modChan_sxs (c : Core) (f : Chan → Chan) : (c.modChan f).sxs = c.sxs := rfl
@[simp] theorem Core.modChan_sync (c : Core) (f : Chan → Chan) : (c.modChan f).sync = c.sync := rfl
@[simp] theorem Core.modChan_mx (c : Core) (f : Chan → Chan) : (c.modChan f).mx = c.mx := rfl
@[simp] theorem Core.modChan_vx (c : Core) (f : Chan → Chan) : (c.modChan f).vx = c.vx := rfl
@[simp] theorem Core.modChan_dx (c : Core) (f : Chan → Chan) : (c.modChan f).dx = c.dx := rfl
@[simp] theorem Core.modChan_nx (c : Core) (f : Chan → Chan) : (c.modChan f).nx = c.nx := rfl
@[simp] theorem Core.modChan_sx (c : Core) (f : Chan → Chan) : (c.modChan f).sx = c.sx := rfl
@[simp] theorem Core.modChan_chan (c : Core) (f : Chan → Chan) : (c.modChan f).chan = f c.chan := rfl
@[simp] theorem Core.modChan_ctl (c : Core) (f : Chan → Chan) : (c.modChan f).ctl = c.ctl := rfl
@[simp] theorem Core.modChan_stream (c : Core) (f : Chan → Chan) (e : Engine) :
    (c.modChan f).stream e = c.stream e := by cases e <;> rfl

@[simp] theorem Core.modCtl_mem (c : Core) (f : CoreRegs → CoreRegs) : (c.modCtl f).mem = c.mem := rfl
@[simp] theorem Core.modCtl_regs (c : Core) (f : CoreRegs → CoreRegs) : (c.modCtl f).regs = c.regs := rfl
@[simp] theorem Core.modCtl_mxs (c : Core) (f : CoreRegs → CoreRegs) : (c.modCtl f).mxs = c.mxs := rfl
@[simp] theorem Core.modCtl_vxs (c : Core) (f : CoreRegs → CoreRegs) : (c.modCtl f).vxs = c.vxs := rfl
@[simp] theorem Core.modCtl_dxs (c : Core) (f : CoreRegs → CoreRegs) : (c.modCtl f).dxs = c.dxs := rfl
@[simp] theorem Core.modCtl_nxs (c : Core) (f : CoreRegs → CoreRegs) : (c.modCtl f).nxs = c.nxs := rfl
@[simp] theorem Core.modCtl_sxs (c : Core) (f : CoreRegs → CoreRegs) : (c.modCtl f).sxs = c.sxs := rfl
@[simp] theorem Core.modCtl_sync (c : Core) (f : CoreRegs → CoreRegs) : (c.modCtl f).sync = c.sync := rfl
@[simp] theorem Core.modCtl_mx (c : Core) (f : CoreRegs → CoreRegs) : (c.modCtl f).mx = c.mx := rfl
@[simp] theorem Core.modCtl_vx (c : Core) (f : CoreRegs → CoreRegs) : (c.modCtl f).vx = c.vx := rfl
@[simp] theorem Core.modCtl_dx (c : Core) (f : CoreRegs → CoreRegs) : (c.modCtl f).dx = c.dx := rfl
@[simp] theorem Core.modCtl_nx (c : Core) (f : CoreRegs → CoreRegs) : (c.modCtl f).nx = c.nx := rfl
@[simp] theorem Core.modCtl_sx (c : Core) (f : CoreRegs → CoreRegs) : (c.modCtl f).sx = c.sx := rfl
@[simp] theorem Core.modCtl_chan (c : Core) (f : CoreRegs → CoreRegs) : (c.modCtl f).chan = c.chan := rfl
@[simp] theorem Core.modCtl_ctl (c : Core) (f : CoreRegs → CoreRegs) : (c.modCtl f).ctl = f c.ctl := rfl
@[simp] theorem Core.modCtl_stream (c : Core) (f : CoreRegs → CoreRegs) (e : Engine) :
    (c.modCtl f).stream e = c.stream e := by cases e <;> rfl

@[simp] theorem Core.setStream_mem (c : Core) (e : Engine) (t : Stream) :
    (c.setStream e t).mem = c.mem := by cases e <;> rfl
@[simp] theorem Core.modStream_mem (c : Core) (e : Engine) (f : Stream → Stream) :
    (c.modStream e f).mem = c.mem := by cases e <;> rfl
@[simp] theorem Core.setStream_regs (c : Core) (e : Engine) (t : Stream) :
    (c.setStream e t).regs = c.regs := by cases e <;> rfl
@[simp] theorem Core.modStream_regs (c : Core) (e : Engine) (f : Stream → Stream) :
    (c.modStream e f).regs = c.regs := by cases e <;> rfl
@[simp] theorem Core.setStream_sync (c : Core) (e : Engine) (t : Stream) :
    (c.setStream e t).sync = c.sync := by cases e <;> rfl
@[simp] theorem Core.modStream_sync (c : Core) (e : Engine) (f : Stream → Stream) :
    (c.modStream e f).sync = c.sync := by cases e <;> rfl
@[simp] theorem Core.setStream_mx (c : Core) (e : Engine) (t : Stream) :
    (c.setStream e t).mx = c.mx := by cases e <;> rfl
@[simp] theorem Core.modStream_mx (c : Core) (e : Engine) (f : Stream → Stream) :
    (c.modStream e f).mx = c.mx := by cases e <;> rfl
@[simp] theorem Core.setStream_vx (c : Core) (e : Engine) (t : Stream) :
    (c.setStream e t).vx = c.vx := by cases e <;> rfl
@[simp] theorem Core.modStream_vx (c : Core) (e : Engine) (f : Stream → Stream) :
    (c.modStream e f).vx = c.vx := by cases e <;> rfl
@[simp] theorem Core.setStream_dx (c : Core) (e : Engine) (t : Stream) :
    (c.setStream e t).dx = c.dx := by cases e <;> rfl
@[simp] theorem Core.modStream_dx (c : Core) (e : Engine) (f : Stream → Stream) :
    (c.modStream e f).dx = c.dx := by cases e <;> rfl
@[simp] theorem Core.setStream_nx (c : Core) (e : Engine) (t : Stream) :
    (c.setStream e t).nx = c.nx := by cases e <;> rfl
@[simp] theorem Core.modStream_nx (c : Core) (e : Engine) (f : Stream → Stream) :
    (c.modStream e f).nx = c.nx := by cases e <;> rfl
@[simp] theorem Core.setStream_sx (c : Core) (e : Engine) (t : Stream) :
    (c.setStream e t).sx = c.sx := by cases e <;> rfl
@[simp] theorem Core.modStream_sx (c : Core) (e : Engine) (f : Stream → Stream) :
    (c.modStream e f).sx = c.sx := by cases e <;> rfl
@[simp] theorem Core.setStream_chan (c : Core) (e : Engine) (t : Stream) :
    (c.setStream e t).chan = c.chan := by cases e <;> rfl
@[simp] theorem Core.modStream_chan (c : Core) (e : Engine) (f : Stream → Stream) :
    (c.modStream e f).chan = c.chan := by cases e <;> rfl
@[simp] theorem Core.setStream_ctl (c : Core) (e : Engine) (t : Stream) :
    (c.setStream e t).ctl = c.ctl := by cases e <;> rfl
@[simp] theorem Core.modStream_ctl (c : Core) (e : Engine) (f : Stream → Stream) :
    (c.modStream e f).ctl = c.ctl := by cases e <;> rfl
@[simp] theorem Core.setStream_same (c : Core) (e : Engine) (t : Stream) :
    (c.setStream e t).stream e = t := by cases e <;> rfl
@[simp] theorem Core.modStream_same (c : Core) (e : Engine) (f : Stream → Stream) :
    (c.modStream e f).stream e = f (c.stream e) := by cases e <;> rfl
theorem Core.setStream_other (c : Core) (e f : Engine) (t : Stream) (h : f ≠ e) : (c.setStream e t).stream f = c.stream f := by
  cases e <;> cases f <;> first | rfl | exact absurd rfl h

theorem Core.modStream_other (c : Core) (e f : Engine) (g : Stream → Stream) (h : f ≠ e) :
    (c.modStream e g).stream f = c.stream f := Core.setStream_other c e f _ h

end Sys2Proof.Machine
end

