-- ==== Sys2Proof/Laws/Faults.lean ====
section
/-! SUPPORT. What a recorded fault changes: the fault log, the notes of the barrier unit, the host interface. -/

namespace Sys2Proof.Machine

/-- A message to the host changes the host interface only. -/
theorem State.notify_eq (s : State) (t : Nat) (b : List Byte) : s.notify t b = { s with host := (s.notify t b).host } := by
  unfold State.notify
  dsimp only
  split
  · rfl
  · split <;> rfl

/-- Recording a fault changes the fault log, the barrier's notes and the host interface only. -/
theorem State.recordAs_eq (s : State) (kind : FailKind) (a b c d e f : Nat) :
    s.recordAs kind a b c d e f = { s with
      faults := (s.recordAs kind a b c d e f).faults
      bar := (s.recordAs kind a b c d e f).bar
      host := (s.recordAs kind a b c d e f).host } := by
  unfold State.recordAs
  dsimp only
  split
  · rw [State.event, State.notify_eq]
  · rfl

@[simp] theorem State.recordAs_now (s : State) (kind : FailKind) (a b c d e f : Nat) :
    (s.recordAs kind a b c d e f).now = s.now := by rw [State.recordAs_eq]

@[simp] theorem State.recordAs_core (s : State) (kind : FailKind) (a b c d e f k : Nat) :
    (s.recordAs kind a b c d e f).core k = s.core k := by rw [State.recordAs_eq]; rfl

/-- A fault that is logged: the count rises and the entry stands at the old head, unless the ring is full (R414). -/
theorem FaultLog.add_recorded (f : FaultLog) (e : FaultEntry) : (f.add e).total = f.total + 1 ∧
    ((f.head - f.tail).toNat ≠ 4096 → ∃ x, keyGet (f.add e).entries (f.head.toNat % 4096) = some x ∧ x = e) := by
  unfold FaultLog.add
  dsimp only
  split
  · rename_i h; exact ⟨rfl, fun g => absurd h g⟩
  · exact ⟨rfl, fun _ => ⟨e, keyGet_keyPut_same _ _ _, rfl⟩⟩

/-- A fault that is recorded is recorded with its code. -/
theorem State.recordAs_recorded (s : State) (kind : FailKind) (code b c d e f : Nat) : Recorded s (s.recordAs kind code b c d e f) code := by
  unfold State.recordAs
  dsimp only
  have key := fun (x : FaultEntry) (hx : x.code = code) => show Recorded s { s with faults := s.faults.add x, bar := s.bar.noteFault kind } code from
    ⟨(FaultLog.add_recorded _ _).1, fun h => let ⟨y, hy, e⟩ := (FaultLog.add_recorded _ _).2 h; ⟨y, hy, e ▸ hx⟩⟩
  split
  · rw [State.event, State.notify_eq]
    exact key _ rfl
  · exact key _ rfl

theorem Recorded.of_eq {s s' t : State} {code : Nat} (h : s'.faults = s.faults) (r : Recorded s' t code) : Recorded s t code := by
  unfold Recorded at *
  rwa [h] at r

end Sys2Proof.Machine
end

