-- ==== Sys2Proof/Laws/Mem.lean ====
section
/-! SUPPORT. The laws of a memory: every operation keeps its canonical form, a read gives what was written last. -/

namespace Sys2Proof.Machine

/-! ## The canonical form -/

/-- The canonical form in the words of lists: rising addresses, no zero byte. -/
theorem Memory.wf_iff (m : List Host.Cell) :
    Memory.wf m = true ↔ m.Pairwise (fun x y => x.1 < y.1) ∧ ∀ c ∈ m, c.2 ≠ 0 := by
  induction m with
  | nil => simp [Memory.wf]
  | cons c r ih =>
    obtain ⟨x, v⟩ := c
    cases r with
    | nil => simp [Memory.wf]
    | cons d r =>
      obtain ⟨y, w⟩ := d
      simp only [Memory.wf, Bool.and_eq_true, bne_iff_ne, ne_eq, decide_eq_true_eq, ih]
      constructor
      · rintro ⟨⟨hv, hxy⟩, hp, hz⟩
        refine ⟨List.pairwise_cons.mpr ⟨?_, hp⟩, ?_⟩
        · intro c hc
          rcases List.mem_cons.mp hc with rfl | hc
          · exact hxy
          · exact lt_trans hxy ((List.pairwise_cons.mp hp).1 c hc)
        · intro c hc
          rcases List.mem_cons.mp hc with rfl | hc
          · exact hv
          · exact hz c hc
      · rintro ⟨hp, hz⟩
        have h := List.pairwise_cons.mp hp
        exact ⟨⟨hz _ List.mem_cons_self, h.1 _ List.mem_cons_self⟩, h.2, fun c hc => hz c (List.mem_cons_of_mem _ hc)⟩

theorem Memory.wf_tail {c : Host.Cell} {r : List Host.Cell} (h : Memory.wf (c :: r) = true) : Memory.wf r = true := by
  rw [Memory.wf_iff] at *
  exact ⟨(List.pairwise_cons.mp h.1).2, fun d hd => h.2 d (List.mem_cons_of_mem _ hd)⟩

theorem Memory.wf_head {c : Host.Cell} {r : List Host.Cell} (h : Memory.wf (c :: r) = true) :
    c.2 ≠ 0 ∧ ∀ d ∈ r, c.1 < d.1 := by
  rw [Memory.wf_iff] at h
  exact ⟨h.2 c List.mem_cons_self, (List.pairwise_cons.mp h.1).1⟩

theorem Memory.wf_cons {c : Host.Cell} {r : List Host.Cell} (h : Memory.wf r = true) (hc : c.2 ≠ 0)
    (hr : ∀ d ∈ r, c.1 < d.1) : Memory.wf (c :: r) = true := by
  rw [Memory.wf_iff] at *
  refine ⟨List.pairwise_cons.mpr ⟨hr, h.1⟩, fun d hd => ?_⟩
  rcases List.mem_cons.mp hd with rfl | hd
  · exact hc
  · exact h.2 d hd

theorem cellPut_mem {m : List Host.Cell} {a : Nat} {b : Byte} {d : Host.Cell} (h : d ∈ cellPut m a b) :
    d ∈ m ∨ d.1 = a := by
  induction m with
  | nil =>
    unfold cellPut at h
    split at h
    · simp at h
    · simp at h; simp [h]
  | cons c r ih =>
    obtain ⟨x, v⟩ := c
    unfold cellPut at h
    split at h
    · rcases List.mem_cons.mp h with rfl | h
      · simp
      · rcases ih h with h | h
        · simp [h]
        · exact .inr h
    · split at h
      · split at h
        · simp [h]
        · rcases List.mem_cons.mp h with rfl | h
          · simp
          · simp [h]
      · split at h
        · exact .inl h
        · rcases List.mem_cons.mp h with rfl | h
          · simp
          · exact .inl h

/-- Writing a byte keeps the canonical form. -/
theorem Memory.wf_cellPut {m : List Host.Cell} (h : Memory.wf m = true) (a : Nat) (b : Byte) :
    Memory.wf (cellPut m a b) = true := by
  induction m with
  | nil =>
    unfold cellPut
    split
    · rfl
    · rename_i hb
      simpa [Memory.wf] using hb
  | cons c r ih =>
    obtain ⟨x, v⟩ := c
    have hh := Memory.wf_head h
    have ht := Memory.wf_tail h
    unfold cellPut
    split
    · rename_i hx
      refine Memory.wf_cons (ih ht) hh.1 fun d hd => ?_
      rcases cellPut_mem hd with hd | hd
      · exact hh.2 d hd
      · rw [hd]; exact hx
    · split
      · rename_i hx
        subst hx
        split
        · exact ht
        · rename_i hb
          exact Memory.wf_cons ht hb hh.2
      · rename_i hx hne
        split
        · exact h
        · rename_i hb
          refine Memory.wf_cons h hb fun d hd => ?_
          have hax : a < x := by omega
          rcases List.mem_cons.mp hd with rfl | hd
          · exact hax
          · exact lt_trans hax (hh.2 d hd)

/-- Writing bytes keeps the canonical form. -/
theorem Memory.wf_cellWrite {m : List Host.Cell} (h : Memory.wf m = true) (a : Nat) (bs : List Byte) :
    Memory.wf (cellWrite m a bs) = true := by
  induction bs generalizing m a with
  | nil => exact h
  | cons b r ih => exact ih (Memory.wf_cellPut h a b) (a + 1)

/-- Clearing bytes keeps the canonical form. -/
theorem Memory.wf_cellClear {m : List Host.Cell} (h : Memory.wf m = true) (p : Nat → Bool) :
    Memory.wf (cellClear m p) = true := by
  rw [Memory.wf_iff] at *
  exact ⟨h.1.filter _, fun c hc => h.2 c (List.mem_of_mem_filter hc)⟩

/-! ## Reading back -/

theorem cellGet_of_lt {m : List Host.Cell} {a : Nat} (h : ∀ d ∈ m, a < d.1) : cellGet m a = 0 := by
  induction m with
  | nil => rfl
  | cons c r ih =>
    obtain ⟨x, v⟩ := c
    have hx : x ≠ a := by
      have := h (x, v) List.mem_cons_self
      exact Nat.ne_of_gt this
    simp only [cellGet, hx, if_false]
    exact ih fun d hd => h d (List.mem_cons_of_mem _ hd)

/-- A byte reads as it was written last. -/
theorem cellGet_cellPut_same {m : List Host.Cell} (h : Memory.wf m = true) (a : Nat) (b : Byte) :
    cellGet (cellPut m a b) a = b := by
  induction m with
  | nil =>
    unfold cellPut
    split
    · rename_i hb; simp [cellGet, hb]
    · simp [cellGet]
  | cons c r ih =>
    obtain ⟨x, v⟩ := c
    have hh := Memory.wf_head h
    unfold cellPut
    split
    · rename_i hx
      have : x ≠ a := by omega
      simp only [cellGet, this, if_false]
      exact ih (Memory.wf_tail h)
    · split
      · rename_i hx
        subst hx
        split
        · rename_i hb
          rw [hb]
          exact cellGet_of_lt hh.2
        · simp [cellGet]
      · rename_i hx hne
        split
        · rename_i hb
          rw [hb]
          refine cellGet_of_lt fun d hd => ?_
          have hax : a < x := by omega
          rcases List.mem_cons.mp hd with rfl | hd
          · exact hax
          · exact lt_trans hax (hh.2 d hd)
        · simp [cellGet]

/-- A write of one byte leaves every other byte alone. -/
theorem cellGet_cellPut_other {m : List Host.Cell} {a a' : Nat} (b : Byte) (h : a' ≠ a) :
    cellGet (cellPut m a b) a' = cellGet m a' := by
  induction m with
  | nil =>
    unfold cellPut
    split
    · rfl
    · simp [cellGet, Ne.symm h]
  | cons c r ih =>
    obtain ⟨x, v⟩ := c
    unfold cellPut
    split
    · simp only [cellGet, ih]
    · split
      · rename_i hx
        subst hx
        split
        · simp [cellGet, Ne.symm h]
        · simp [cellGet, Ne.symm h]
      · split
        · rfl
        · simp [cellGet, Ne.symm h]

/-- A write of bytes leaves every other byte alone. -/
theorem cellGet_cellWrite_other {m : List Host.Cell} {a a' : Nat} (bs : List Byte)
    (h : a' < a ∨ a + bs.length ≤ a') : cellGet (cellWrite m a bs) a' = cellGet m a' := by
  induction bs generalizing m a with
  | nil => rfl
  | cons b r ih =>
    have h' : a' < a + 1 ∨ a + 1 + r.length ≤ a' := by
      rcases h with h | h
      · exact .inl (by omega)
      · refine .inr ?_
        simp only [List.length_cons] at h
        omega
    have hne : a' ≠ a := by
      rcases h with h | h
      · omega
      · simp only [List.length_cons] at h
        omega
    rw [cellWrite, ih h', cellGet_cellPut_other b hne]

theorem cellRead_congr {m m' : List Host.Cell} {a n : Nat} (h : ∀ i, a ≤ i → i < a + n → cellGet m i = cellGet m' i) :
    cellRead m a n = cellRead m' a n := by
  induction n generalizing a with
  | zero => rfl
  | succ n ih =>
    rw [cellRead, cellRead, h a (Nat.le_refl _) (by omega), ih fun i hi hn => h i (by omega) (by omega)]

/-- Bytes read as they were written last. -/
theorem cellRead_cellWrite {m : List Host.Cell} (h : Memory.wf m = true) (a : Nat) (bs : List Byte) :
    cellRead (cellWrite m a bs) a bs.length = bs := by
  induction bs generalizing m a with
  | nil => rfl
  | cons b r ih =>
    have h' := Memory.wf_cellPut h a b
    rw [List.length_cons, cellRead, cellWrite, ih h' (a + 1), cellGet_cellWrite_other r (.inl (by omega)),
      cellGet_cellPut_same h]

theorem cellRead_cellWrite_other {m : List Host.Cell} {a a' n : Nat} (bs : List Byte)
    (h : a' + n ≤ a ∨ a + bs.length ≤ a') : cellRead (cellWrite m a bs) a' n = cellRead m a' n :=
  cellRead_congr fun i hi hn => cellGet_cellWrite_other bs (by omega)

/-! ## Packing -/

@[simp] theorem natToBytes_length (v n : Nat) : (natToBytes v n).length = n := by
  induction n generalizing v with
  | zero => rfl
  | succ n ih => simp [natToBytes, ih]

/-- Little-endian bytes give their number back. -/
theorem bytesToNat_natToBytes (v n : Nat) : bytesToNat (natToBytes v n) = v % 256 ^ n := by
  induction n generalizing v with
  | zero => simp [natToBytes, bytesToNat, Nat.mod_one]
  | succ n ih =>
    simp only [natToBytes, bytesToNat, ih, BitVec.toNat_ofNat]
    have h : v % 256 ^ (n + 1) = v % 256 + 256 * (v / 256 % 256 ^ n) := by
      rw [Nat.pow_succ', Nat.mod_mul]
    rw [h]

/-! ## Memories with granules -/

theorem mem_markPut {l : List Nat} {a b : Nat} : b ∈ markPut l a ↔ b = a ∨ b ∈ l := by
  induction l with
  | nil => simp [markPut]
  | cons x r ih =>
    unfold markPut
    split
    · simp only [List.mem_cons, ih]; tauto
    · split
      · rename_i h
        subst h
        simp
      · simp

theorem mem_markSet {l : List Nat} {a b : Nat} {p : Bool} :
    b ∈ markSet l a p ↔ if b = a then p = true else b ∈ l := by
  unfold markSet
  cases p
  · by_cases h : b = a <;> simp [h]
  · by_cases h : b = a <;> simp [h, mem_markPut]

/-- A granule carries the poison bit of its last write. -/
theorem Store.bad_put (st : Store) (g i j v : Nat) (p : Bool) :
    (st.put g i v p).bad j = if j = i then p else st.bad j := by
  have := @mem_markSet st.poison i j p
  by_cases h : j = i
  · subst h
    cases p <;> simp_all [Store.bad, Store.put]
  · simp only [h, if_false] at this ⊢
    rw [Bool.eq_iff_iff]
    simpa [Store.bad, Store.put] using this

theorem Store.put_cells_wf {st : Store} (h : Memory.wf st.cells = true) (g i v : Nat) (p : Bool) :
    Memory.wf (st.put g i v p).cells = true := Memory.wf_cellWrite h _ _

theorem Store.zero_cells_wf {st : Store} (h : Memory.wf st.cells = true) (g : Nat) (p : Nat → Bool) :
    Memory.wf (st.zero g p).cells = true := Memory.wf_cellClear h fun a => p (a / g)

theorem Store.mark_cells_wf {st : Store} (h : Memory.wf st.cells = true) (i : Nat) :
    Memory.wf (st.mark i).cells = true := h

theorem Store.clean_cells_wf {st : Store} (h : Memory.wf st.cells = true) (i : Nat) :
    Memory.wf (st.clean i).cells = true := h

/-- A granule reads as it was written last. -/
theorem Store.word_put_same {st : Store} (h : Memory.wf st.cells = true) (g i v : Nat) (p : Bool) :
    (st.put g i v p).word (g * i) g = v % 256 ^ g := by
  have := cellRead_cellWrite h (g * i) (natToBytes v g)
  rw [natToBytes_length] at this
  rw [Store.word, Store.put, this, bytesToNat_natToBytes]

/-- A write of one granule leaves the words outside it alone. -/
theorem Store.word_put_other {st : Store} {g i v a n : Nat} {p : Bool} (h : a + n ≤ g * i ∨ g * i + g ≤ a) :
    (st.put g i v p).word a n = st.word a n := by
  rw [Store.word, Store.put, cellRead_cellWrite_other _ (by simpa using h), Store.word]

end Sys2Proof.Machine
end

