-- ==== Sys2Proof/Laws/Streams.lean ====
section
/-! SUPPORT. What the shared operations of the streams do: changes of one core, issue, passing in sequence, completion. -/

namespace Sys2Proof.Machine

/-! ## Changes of one core -/

theorem keyPut_keyPut {α : Type} (l : List (Nat × α)) (a : Nat) (b c : α) :
    keyPut (keyPut l a b) a c = keyPut l a c := by
  induction l with
  | nil => simp [keyPut]
  | cons x r ih =>
    obtain ⟨x, v⟩ := x
    by_cases h : x < a
    · simp [keyPut, h, ih]
    · by_cases h' : x = a
      · subst h'
        simp [keyPut]
      · simp [keyPut, h, h']

@[simp] theorem State.modCore_modCore (s : State) (k : Nat) (f g : Core → Core) :
    (s.modCore k f).modCore k g = s.modCore k fun c => g (f c) := by
  simp [State.modCore, State.setCore, State.core, keyPut_keyPut, keyGet_keyPut_same]

theorem State.modCore_congr {s : State} {k : Nat} {f g : Core → Core} (h : f (s.core k) = g (s.core k)) :
    s.modCore k f = s.modCore k g := by simp [State.modCore, h]

theorem OnlyCore.refl (k : Nat) (s : State) : OnlyCore k s s := ⟨rfl, fun _ _ => rfl⟩

theorem OnlyCore.trans {k : Nat} {a b c : State} (h : OnlyCore k a b) (g : OnlyCore k b c) : OnlyCore k a c :=
  ⟨by rw [g.1, h.1], fun j hj => (g.2 j hj).trans (h.2 j hj)⟩

theorem OnlyCore.modCore (k : Nat) (s : State) (f : Core → Core) : OnlyCore k s (s.modCore k f) :=
  ⟨rfl, fun _ hj => State.core_modCore_other _ _ _ _ hj⟩

theorem OnlyCore.advance (k : Nat) {s : State} (h : s.overs = []) (t : Nat) : OnlyCore k s (s.advance t) := by
  rw [State.advance_calm h]
  exact ⟨rfl, fun _ _ => rfl⟩

/-- The usual next state of an instruction: time passes and one core changes. -/
theorem OnlyCore.issued (k u : Nat) {s : State} (h : s.overs = []) (f : Core → Core) : OnlyCore k s ((s.advance u).modCore k f) :=
  (OnlyCore.advance k h u).trans (OnlyCore.modCore k _ f)

/-! ## Issue of SX -/

theorem State.countFetch_clean {s : State} {k i : Nat} {e : Engine} (h : (s.core k).instrFlaws e i = []) :
    s.countFetch k e i = s := by simp [State.countFetch, h]

theorem SxIssues.notHalted {s : State} {k i w u : Nat} {rs : List Nat} (h : SxIssues s k i w u rs) :
    (s.core k).sxs.halted = false := by
  have := h.open'
  simp [State.canIssue, Core.stream] at this
  simp [this]

/-- An instruction of SX that issues without a wait: its body runs in the cycle of the issue. -/
theorem State.issueSx_ready {s : State} {k i w u : Nat} {want : Nat → Bool → Bool} {reads : Nat → List Nat}
    {waits : Nat → List (Nat × Nat)} {body : Nat → Owed → Bool → State → State}
    (h : SxIssues s k i w u (reads w)) (hw : want w false = true) (hn : waits w = []) :
    s.issueSx k want reads waits body = body w { index := i } false ((s.advance u).modCore k fun c => c) := by
  obtain ⟨hcalm, ho, hf, hi, hww, hc, hl, hloop, hr, hu⟩ := h
  have hue : (s.core k).instrUe .sx i = false := by simp [Core.instrUe, hc]
  have hready : s.readyOf k .sx = (s.core k).sxs.ready := rfl
  have h1 : ((s.advance u).modCore k fun c => c).countFetch k .sx i = (s.advance u).modCore k fun c => c :=
    State.countFetch_clean (by simpa [State.advance_core hcalm] using hc)
  unfold State.issueSx
  simp only [hi, hww, hue, ho, hf, hw, hr, hready, Option.isNone_none, Bool.and_true, if_true, State.tryIssue,
    Nat.add_zero, hn, Sync.holds, Sync.take, State.contended, List.isEmpty_nil, Bool.not_true, Bool.false_and, Bool.not_false,
    List.foldl_nil]
  simp only [← hu, h1, hl]
  simp

/-- Passing in sequence without loops: the stream stands at the next index. -/
theorem State.sxDone_eq {s : State} {k i : Nat} (hp : (s.core k).sxs.pc = i) (hl : (s.core k).sxs.loops = [])
    (hh : (s.core k).sxs.halted = false) (hi : i + 1 < 8192) :
    s.sxDone k { index := i } = s.modCore k fun c => c.sxGoes (i + 1) (s.now + 1) := by
  have h1 : ¬ 8192 ≤ i + 1 := by omega
  simp only [State.sxDone, State.passIndex, State.setReady, State.modStream]
  simp [Core.modStream, Core.stream, Core.setStream, nextIndex, hl, hp, bankLen, h1, State.complete, State.signalOpt,
    State.endCodes]
  refine State.modCore_congr ?_
  simp [Core.sxGoes, hl, hh]

@[simp] theorem Core.stream_setStream (c : Core) (e : Engine) (t : Stream) : (c.setStream e t).stream e = t := by
  cases e <;> rfl

@[simp] theorem Core.setStream_setStream (c : Core) (e : Engine) (t t' : Stream) :
    (c.setStream e t).setStream e t' = c.setStream e t' := by cases e <;> rfl

theorem Core.modStream_congr (c : Core) (e : Engine) {f g : Stream → Stream} (h : f (c.stream e) = g (c.stream e)) :
    c.modStream e f = c.modStream e g := by simp [Core.modStream, h]

theorem State.signal_room {s : State} {k n inc : Nat} (h : (s.core k).sync.count.getD n 0 + inc ≤ 65535) :
    s.signal k n inc = s.modCore k fun c => { c with sync := c.sync.add s.now n inc } := by
  have : ¬ (s.core k).sync.count.getD n 0 + inc > 65535 := by omega
  simp only [State.signal, this, if_false]

/-- A signal that saturates no counter adds its increment. -/
theorem State.signalOpt_modCore {s : State} {k : Nat} {o : Option (Nat × Nat)} {f : Core → Core} (g : Core → Core)
    (h : (f (s.core k)).sync.room o = true) :
    ((s.modCore k f).signalOpt k o).modCore k g = s.modCore k fun c => g { f c with sync := (f c).sync.signalled s.now o } := by
  cases o with
  | none => simp [State.signalOpt, Sync.signalled]
  | some x =>
    obtain ⟨n, inc⟩ := x
    simp only [Sync.room, decide_eq_true_eq] at h
    simp only [State.signalOpt, Sync.signalled]
    rw [State.signal_room (by simpa using h)]
    simp

theorem State.signalOpt_eq {s : State} {k : Nat} {o : Option (Nat × Nat)} {f : Core → Core}
    (h : (f (s.core k)).sync.room o = true) :
    (s.modCore k f).signalOpt k o = s.modCore k fun c => { f c with sync := (f c).sync.signalled s.now o } := by
  cases o with
  | none => simp [State.signalOpt, Sync.signalled]
  | some x =>
    obtain ⟨n, inc⟩ := x
    simp only [Sync.room, decide_eq_true_eq] at h
    simp only [State.signalOpt, Sync.signalled]
    rw [State.signal_room (by simpa using h)]
    simp

theorem EngIssues.now_le {s : State} {k i w u r : Nat} {e : Engine} (h : EngIssues s k e i w u r) : s.now ≤ u := by
  have := h.cycle; omega

theorem EngIssues.notHalted {s : State} {k i w u r : Nat} {e : Engine} (h : EngIssues s k e i w u r) :
    ((s.core k).stream e).halted = false := by
  have := h.open'
  simp [State.canIssue] at this
  simp [this]

@[simp] theorem Core.stream_sync (c : Core) (e : Engine) (y : Sync) : ({ c with sync := y } : Core).stream e = c.stream e := by
  cases e <;> rfl

/-- An instruction of an engine stream that issues: its body runs in the cycle of the issue, the stream past it. -/
theorem State.issueOp_ready {s : State} {k i w u r : Nat} {e : Engine} {want : Nat → Bool → Bool}
    {body : Nat → Owed → Bool → State → State} (h : EngIssues s k e i w u r) (hw : want (hOpc w) false = true) :
    s.issueOp k e r want body =
      body w (owedOf w i) false ((s.advance u).modCore k fun c => c.engGoes e i w u) := by
  have hh := h.notHalted
  have hn := h.now_le
  obtain ⟨hcalm, ho, hi, hww, hc, hl, hu, hwt, htn, hroom, hin⟩ := h
  have hue : (s.core k).instrUe e i = false := by simp [Core.instrUe, hc]
  have hnow : (s.advance u).now = u := by simp [hn]
  have h1 : ((s.advance u).modCore k fun c => { c with sync := c.sync.take u (hWaits w) }).countFetch k e i
      = (s.advance u).modCore k fun c => { c with sync := c.sync.take u (hWaits w) } :=
    State.countFetch_clean (by simpa [Core.instrFlaws, State.advance_core hcalm] using hc)
  have hin' : (!(hOpc w == opSend) && decide (bankLen e ≤ (nextIndex i ((s.core k).stream e).loops).1)) = false := by
    rcases hin with h | h
    · simp [h]
    · have : ¬ bankLen e ≤ (nextIndex i ((s.core k).stream e).loops).1 := by omega
      simp [this]
  unfold State.issueOp
  simp only [hi, hww, hue, ho, hw, Bool.and_true, if_true, State.tryIssue, ← hu, hwt, htn, Bool.not_false, h1, hl, State.passIndex]
  simp only [State.core_modCore_same, State.advance_core hcalm, Core.stream_sync, hi, Bool.not_false, ge_iff_le, hin',
    Bool.false_eq_true, if_false, State.modStream, State.modCore_modCore]
  have key : ∀ b : Bool, b = hSbi w → ∀ t : State, t = (if b = true then
        ((s.advance u).modCore k fun c => ({ c with sync := c.sync.take u (hWaits w) } : Core).modStream e fun t =>
          { t with state := .run, pc := (nextIndex i ((s.core k).stream e).loops).1,
                   loops := (nextIndex i ((s.core k).stream e).loops).2, halted := false }).signalOpt k (hSigB w)
      else (s.advance u).modCore k fun c => ({ c with sync := c.sync.take u (hWaits w) } : Core).modStream e fun t =>
          { t with state := .run, pc := (nextIndex i ((s.core k).stream e).loops).1,
                   loops := (nextIndex i ((s.core k).stream e).loops).2, halted := false }) →
      t = (s.advance u).modCore k fun c => c.engGoes e i w u := by
    intro b hb t ht
    subst hb ht
    cases hs : hSbi w with
    | true =>
      simp only [hs, if_true] at hroom ⊢
      rw [State.signalOpt_eq (by simpa [State.advance_core hcalm] using hroom)]
      refine State.modCore_congr ?_
      cases e <;> simp_all [State.advance_core hcalm, Core.engGoes, Core.engSync, Core.modStream, Core.setStream, Core.stream]
    | false =>
      simp only [Bool.false_eq_true, if_false]
      refine State.modCore_congr ?_
      cases e <;>
        simp_all [State.advance_core hcalm, Core.engGoes, Core.engSync, Core.modStream, Core.setStream, Core.stream, Sync.signalled]
  rw [key (hSbi w) rfl _ rfl]
  simp [owedOf, hl]

/-- The completion of an instruction that owes its stream nothing and saturates no counter. -/
theorem State.complete_eq {s : State} {k : Nat} {e : Engine} {o : Owed} {f : Core → Core} (he : o.ends = [])
    (h : (f (s.core k)).sync.roomFor s.now o = true) :
    (s.modCore k f).complete k e o = s.modCore k fun c => (f c).completed s.now o := by
  simp only [Sync.roomFor, Bool.and_eq_true] at h
  unfold State.complete
  rw [he, State.signalOpt_eq h.1, State.signalOpt_eq (by simpa using h.2)]
  simp [State.endCodes, Core.completed]

theorem State.fetchTo_none {s : State} {k lim nlim n : Nat} (h : (s.core k).heads = []) : s.fetchTo k lim nlim n = s := by
  cases n <;> simp [State.fetchTo, h, earliest]

/-- With no reads owed, the ready bound is that of the stream. -/
theorem State.boundOf_eq {s : State} {k : Nat} {e : Engine} (hcalm : s.overs = []) (h : (s.core k).heads = []) :
    s.boundOf k e = ((s.core k).stream e).ready := by
  unfold State.boundOf
  dsimp only
  split
  · unfold State.toCycle
    dsimp only
    simp only [State.fetchBefore, State.fetchUpTo]
    have hf : ∀ a b c, (s.advance ((s.core k).stream e).ready).fetchTo k a b c = s.advance ((s.core k).stream e).ready :=
      fun _ _ _ => State.fetchTo_none (by rw [State.advance_core hcalm]; exact h)
    simp only [hf]
    have hc : ∀ t, (s.advance t).core k = s.core k := fun t => State.advance_core hcalm t k
    simp [hc]
  · rfl

end Sys2Proof.Machine
end

