-- ==== Sys2Proof/Laws/Words.lean ====
section
/-! SUPPORT. The arithmetic of SX on words: each result as an operation on bit vectors. -/

namespace Sys2Proof.Machine

theorem w32_toNat (a : Word32) : w32 a.toNat = a := by simp [w32]

theorem sgn32_toNat (a : Word32) : sgn32 a.toNat = a.toInt := by
  have := a.isLt
  simp only [sgn32, signed, BitVec.toInt]
  omega

theorem w32_wrapU (v : Int) : w32 (wrapU 32 v) = BitVec.ofInt 32 v := by
  simp [w32, wrapU, BitVec.ofInt]
  apply BitVec.eq_of_toNat_eq
  simp
  omega

theorem w32_add (a b : Word32) : w32 (a.toNat + b.toNat) = a + b := by simp [w32, BitVec.ofNat_add]

theorem w32_mul (a b : Word32) : w32 (a.toNat * b.toNat) = a * b := by
  apply BitVec.eq_of_toNat_eq; simp [w32, BitVec.toNat_mul]

theorem w32_sub (a b : Word32) : w32 (wrapU 32 ((a.toNat : Int) - b.toNat)) = a - b := by
  rw [w32_wrapU]
  apply BitVec.eq_of_toNat_eq
  have := a.isLt; have := b.isLt
  simp [BitVec.toNat_sub]; omega

theorem w32_and (a b : Word32) : w32 (Nat.land a.toNat b.toNat) = a &&& b := by
  apply BitVec.eq_of_toNat_eq
  simp [w32]

theorem w32_or (a b : Word32) : w32 (Nat.lor a.toNat b.toNat) = a ||| b := by
  apply BitVec.eq_of_toNat_eq
  simp [w32]

theorem w32_xor (a b : Word32) : w32 (Nat.xor a.toNat b.toNat) = a ^^^ b := by
  apply BitVec.eq_of_toNat_eq
  simp [w32]

theorem w32_sll (a : Word32) (n : Nat) : w32 (a.toNat * 2 ^ n) = a <<< n := by
  apply BitVec.eq_of_toNat_eq; simp [w32, Nat.shiftLeft_eq]

theorem w32_srl (a : Word32) (n : Nat) : w32 (a.toNat / 2 ^ n) = a >>> n := by
  apply BitVec.eq_of_toNat_eq
  have := a.isLt
  have : a.toNat / 2 ^ n ≤ a.toNat := Nat.div_le_self _ _
  simp [w32, Nat.shiftRight_eq_div_pow]; omega

theorem w32_sra (a : Word32) (n : Nat) : w32 (sra32 a.toNat n) = a.sshiftRight n := by
  rw [sra32, w32_wrapU, sgn32_toNat]
  apply BitVec.eq_of_toInt_eq
  simp [BitVec.toInt_sshiftRight, BitVec.toInt_ofInt, Int.shiftRight_eq_div_pow]
  have h1 := BitVec.toInt_lt (x := a); have h2 := BitVec.le_toInt a
  norm_num at h1 h2
  have : (a.toInt / 2 ^ n) < 2^31 ∧ -2^31 ≤ a.toInt / 2^n := by
    have hp : (0:Int) < 2 ^ n := by positivity
    have : (1:Int) ≤ 2^n := by omega
    constructor
    · apply Int.ediv_lt_of_lt_mul hp; nlinarith
    · apply Int.le_ediv_of_mul_le hp; nlinarith
  rw [Int.bmod_eq_of_le] <;> omega

theorem w32_flag (b : Bool) : w32 (flag b) = if b then 1 else 0 := by cases b <;> rfl

theorem w32_slt (a b : Word32) : w32 (flag (decide (sgn32 a.toNat < sgn32 b.toNat))) = if a.slt b then 1 else 0 := by
  rw [w32_flag, sgn32_toNat, sgn32_toNat, BitVec.slt]

theorem w32_sltu (a b : Word32) : w32 (flag (decide (a.toNat < b.toNat))) = if a.ult b then 1 else 0 := by
  rw [w32_flag, BitVec.ult]
theorem ximm_lt (w : Nat) : xImm w < 65536 := by simp only [xImm, bits]; omega

theorem sext16_eq (n : Nat) : sext16 n = (BitVec.ofNat 16 n).toInt := by
  simp only [sext16, signed, BitVec.toInt, BitVec.toNat_ofNat]; omega

theorem w32_addi (a : Word32) (n : Nat) : w32 (wrapU 32 ((a.toNat : Int) + sext16 n)) = a + (BitVec.ofNat 16 n).signExtend 32 := by
  rw [w32_wrapU, sext16_eq]
  apply BitVec.eq_of_toInt_eq
  simp [BitVec.toInt_ofInt, BitVec.toInt_add, BitVec.toInt_signExtend_of_le, BitVec.toInt_eq_toNat_bmod a]

theorem imm_setWidth {n : Nat} (h : n < 65536) : ((BitVec.ofNat 16 n).setWidth 32).toNat = n := by simp; omega

end Sys2Proof.Machine
end

