-- ==== Sys2Proof/Laws/Sx.lean ====
section
/-! SUPPORT. The registers of the scalar control core, and its issue in sequence. -/

namespace Sys2Proof.Machine

@[simp] theorem Core.setG_sxs (c : Core) (r : Nat) (v : PWord 32) (n : Nat) : (c.setG r v n).sxs = c.sxs := by
  unfold Core.setG
  split <;> rfl

@[simp] theorem Core.setG_mem (c : Core) (r : Nat) (v : PWord 32) (n : Nat) : (c.setG r v n).mem = c.mem := by
  unfold Core.setG
  split <;> rfl

@[simp] theorem State.core_setG (s : State) (k r : Nat) (v : PWord 32) (n : Nat) :
    (s.setG k r v n).core k = (s.core k).setG r v n := by simp [State.setG]

@[simp] theorem State.setG_now (s : State) (k r : Nat) (v : PWord 32) (n : Nat) : (s.setG k r v n).now = s.now := rfl

theorem SxIssues.now_le {s : State} {k i w u : Nat} {rs : List Nat} (h : SxIssues s k i w u rs) : s.now ≤ u := by
  have := h.cycle; omega

/-- An OP instruction that issues. -/
theorem State.opArith_ready {s : State} {k i w u func lat : Nat} {f : Nat → Nat → Nat} {g : Word32 → Word32 → Word32}
  (h : SxIssues s k i w u [xRa w, xRb w]) (ho : xOpc w = 1) (hf : xFunc w = func) (hi : i + 1 < 8192)
  (hg : w32 (f ((s.core k).gv (xRa w)) ((s.core k).gv (xRb w))) = g ((s.core k).g (xRa w)).val ((s.core k).g (xRb w)).val) :
  s.opArith k func lat f = (s.advance u).modCore k fun c => (c.setG (xRd w)
        ⟨g ((s.core k).g (xRa w)).val ((s.core k).g (xRb w)).val,
          ((s.core k).g (xRa w)).poison || ((s.core k).g (xRb w)).poison⟩ (u + lat)).sxGoes (i + 1) (u + 1) := by
  unfold State.opArith
  rw [State.issueSx_ready h (by simp [wantF, ho, hf]) rfl]
  have := h.now_le
  simp only [Bool.false_eq_true, if_false]
  rw [State.sxDone_eq (by simpa [State.advance_core h.calm] using h.index) (by simpa [State.advance_core h.calm] using h.loops) (by simpa [State.advance_core h.calm] using h.notHalted) hi]
  simp [State.setG, hg, this, State.advance_core h.calm]

/-- An immediate form that issues. -/
theorem State.immArith_ready {s : State} {k i w u op : Nat} {f : Nat → Nat → Nat} {g : Word32 → BitVec 16 → Word32}
  (h : SxIssues s k i w u [xRa w]) (ho : xOpc w = op) (hi : i + 1 < 8192)
  (hg : w32 (f ((s.core k).gv (xRa w)) (xImm w)) = g ((s.core k).g (xRa w)).val (BitVec.ofNat 16 (xImm w))) :
  s.immArith k op f = (s.advance u).modCore k fun c => (c.setG (xRd w)
        ⟨g ((s.core k).g (xRa w)).val (BitVec.ofNat 16 (xImm w)), ((s.core k).g (xRa w)).poison⟩ (u + 1)).sxGoes (i + 1) (u + 1) := by
  unfold State.immArith
  rw [State.issueSx_ready h (by simp [wantX, ho]) rfl]
  have := h.now_le
  simp only [Bool.false_eq_true, if_false]
  rw [State.sxDone_eq (by simpa [State.advance_core h.calm] using h.index) (by simpa [State.advance_core h.calm] using h.loops) (by simpa [State.advance_core h.calm] using h.notHalted) hi]
  simp [State.setG, hg, this, State.advance_core h.calm]

/-- What the usual next state of an instruction is: its clock, its frame, its core. -/
theorem OnlyCore.issued_all {s : State} {k u : Nat} (hc : s.overs = []) (h : s.now ≤ u) :
    ∀ (F : Core → Core), ((s.advance u).modCore k F).now = u ∧ OnlyCore k s ((s.advance u).modCore k F) ∧
      ((s.advance u).modCore k F).core k = F (s.core k) := fun F =>
    ⟨by simp [h], OnlyCore.issued _ _ hc _, by simp [State.advance_core hc]⟩

theorem ofNat_xImm (w : Nat) : BitVec.ofNat 16 (xImm w) = BitVec.ofNat 16 w := by
  apply BitVec.eq_of_toNat_eq
  simp [xImm, bits]

theorem beq_toNat (a b : Word32) : (a.toNat == b.toNat) = (a == b) := by
  rw [Bool.eq_iff_iff]; simp [BitVec.toNat_inj]

theorem State.guardUse_ok {s : State} {k : Nat} {o : Owed} {rs : List Nat} {f : State → State}
    (h : ∀ r ∈ rs, ((s.core k).g r).poison = false) : s.guardUse k o rs f = f s := by
  have : (s.core k).poisonedReg rs = none := by
    simp only [Core.poisonedReg, List.find?_eq_none]
    intro r hr
    simp [h r hr]
  simp [State.guardUse, this]

theorem State.sxJump_ok {s : State} {k i : Nat} {target : Int} {before : State → State} (h0 : 0 ≤ target) (h1 : target ≤ 8191) :
    s.sxJump k { index := i } target before = (before s).modCore k fun c =>
      { c with sxs := { c.sxs with ready := s.now + 1, state := .run, pc := target.toNat } } := by
  simp [State.sxJump, h0, h1, State.setReady, State.modStream, State.complete, State.signalOpt, State.endCodes, Core.modStream, Core.stream, Core.setStream]

theorem branch_eq {s : State} {k i w u op : Nat} {p : Nat → Nat → Bool} {q : Word32 → Word32 → Bool}
  (h : SxIssues s k i w u [bRa w, bRb w]) (ho : xOpc w = op) (hi : i + 1 < 8192) (h0 : 0 ≤ sxTarget i w) (h1 : sxTarget i w ≤ 8191)
  (hp1 : ((s.core k).g (bRa w)).poison = false) (hp2 : ((s.core k).g (bRb w)).poison = false)
  (hq : p ((s.core k).gv (bRa w)) ((s.core k).gv (bRb w)) = q ((s.core k).g (bRa w)).val ((s.core k).g (bRb w)).val) :
  s.branch k op p = (s.advance u).modCore k fun c => c.sxGoes
     (if q ((s.core k).g (bRa w)).val ((s.core k).g (bRb w)).val then (sxTarget i w).toNat else i + 1) (u + 1) := by
  unfold State.branch
  rw [State.issueSx_ready h (by simp [wantX, ho]) rfl]
  have := h.now_le
  simp only [Bool.false_eq_true, if_false]
  rw [State.guardUse_ok (by simp [hp1, hp2, State.advance_core h.calm])]
  simp only [State.core_modCore_same, State.advance_core h.calm, hq]
  have ht : (i : Int) + sext16 (xImm w) = sxTarget i w := by rw [sext16_eq, sxTarget, ofNat_xImm]
  split
  · rw [ht, State.sxJump_ok h0 h1]
    simp [Core.sxGoes, this]
  · rw [State.sxDone_eq (by simpa [State.advance_core h.calm] using h.index) (by simpa [State.advance_core h.calm] using h.loops) (by simpa [State.advance_core h.calm] using h.notHalted) hi]
    simp [this]

theorem signed21_eq (n : Nat) : signed 21 n = (BitVec.ofNat 21 n).toInt := by
  simp only [signed, BitVec.toInt, BitVec.toNat_ofNat]; omega

/-- SWAIT: an instruction of SX with one wait that holds. -/
theorem State.issueSx_waits {s : State} {k i w u a n : Nat} {want : Nat → Bool → Bool} {reads : Nat → List Nat}
    {waits : Nat → List (Nat × Nat)} {body : Nat → Owed → Bool → State → State}
    (h : SxIssues s k i w u (reads w)) (hw : want w false = true) (hn : waits w = [(a, n)])
    (hold : n ≤ (s.core k).sync.seen u a) (ht : s.contended k .sx u [(a, n)] = false) :
    s.issueSx k want reads waits body = body w { index := i } false
      ((s.advance u).modCore k fun c => { c with sync := c.sync.take u [(a, n)] }) := by
  obtain ⟨hcalm, ho, hf, hi, hww, hc, hl, hloop, hr, hu⟩ := h
  have hue : (s.core k).instrUe .sx i = false := by simp [Core.instrUe, hc]
  have hready : s.readyOf k .sx = (s.core k).sxs.ready := rfl
  have h1 : ((s.advance u).modCore k fun c => { c with sync := c.sync.take u [(a, n)] }).countFetch k .sx i
      = (s.advance u).modCore k fun c => { c with sync := c.sync.take u [(a, n)] } :=
    State.countFetch_clean (by simpa [Core.instrFlaws, State.advance_core hcalm] using hc)
  unfold State.issueSx
  simp only [hi, hww, hue, ho, hf, hw, hr, hready, Option.isNone_none, Bool.and_true, if_true, State.tryIssue,
    Nat.add_zero, hn, Sync.holds]
  simp only [← hu, hold, ht, decide_true, Bool.not_false, Bool.and_true, if_true, h1, hl]
  simp

theorem getD_modAt (l : List Nat) (a n : Nat) (f : Nat → Nat) (hf : f 0 = 0 ∨ a < l.length) :
    (modAt l a f).getD n 0 = if n = a then f (l.getD n 0) else l.getD n 0 := by
  unfold modAt
  by_cases h : a < l.length
  · simp only [List.getElem?_eq_getElem h]
    by_cases e : n = a
    · subst e; simp [h, List.getElem?_eq_getElem h]
    · simp [e, List.getElem?_set, Ne.symm e]
  · have h0 : f 0 = 0 := by rcases hf with h' | h'; exact h'; exact absurd h' h
    have hnone : l[a]? = none := List.getElem?_eq_none (by omega)
    simp only [hnone]
    by_cases e : n = a
    · subst e; simp [hnone, h0]
    · simp [e]

theorem firstBad_none {l : List Check} (h : firstBad l = none) : ∀ x ∈ l, x.2.2 = false := by
  induction l with
  | nil => simp
  | cons x r ih =>
    obtain ⟨hi, lo, b⟩ := x
    unfold firstBad at h
    split at h
    · rename_i hb _
      intro y hy
      rcases List.mem_cons.mp hy with rfl | hy
      · rfl
      · exact ih h y hy
    · simp at h
    · split at h <;> simp at h

/-- The checks of a legal SX word all pass. -/
theorem sxBad_none {w : Nat} (h : sxBad w = none) : xAssigned (xOpc w) = true ∧ ∀ x ∈ xChecks w, x.2.2 = false := by
  have h' := firstBad_none (Option.map_eq_none_iff.mp h)
  have ha : xAssigned (xOpc w) = true := by
    have := h' (31, 26, !xAssigned (xOpc w)) (by simp)
    simpa using this
  exact ⟨ha, fun x hx => h' x (by simp [ha, hx])⟩

theorem counter_legal {w : Nat} (hl : sxBad w = none) (ho : xOpc w = 0x28 ∨ xOpc w = 0x29) : scCtr w < 0x30 := by
  have hx : (25, 20, decide (bits w 25 20 ≥ 0x30)) ∈ xChecks w := by rcases ho with ho | ho <;> simp [xChecks, ho]
  have := (sxBad_none hl).2 _ hx
  simpa [scCtr] using this

theorem State.guardUse_bad {s : State} {k : Nat} {o : Owed} {rs : List Nat} {f : State → State}
    (h : ∃ r ∈ rs, ((s.core k).g r).poison = true) : ∃ r, s.guardUse k o rs f = s.poisonUse k o r := by
  have : ∃ r, (s.core k).poisonedReg rs = some r := by
    obtain ⟨r, hr, hp⟩ := h
    have : ((s.core k).poisonedReg rs).isSome := by
      simp only [Core.poisonedReg, List.find?_isSome]
      exact ⟨r, hr, hp⟩
    exact Option.isSome_iff_exists.mp this
  obtain ⟨r, hr⟩ := this
  exact ⟨r, by simp [State.guardUse, hr]⟩

theorem sx_poison {s : State} {k i w u : Nat} {want : Nat → Bool → Bool} {reads : Nat → List Nat} {uses : List Nat}
    {body : Nat → Owed → Bool → State → State} {f : State → State}
    (h : SxIssues s k i w u (reads w)) (hw : want w false = true)
    (hp : ∃ r ∈ uses, ((s.core k).g r).poison = true)
    (hb : body w { index := i } false ((s.advance u).modCore k fun c => c) =
      ((s.advance u).modCore k fun c => c).guardUse k { index := i } uses f) :
    ∃ t, Host.Outcome.next (φ := Fault) (ρ := Refusal) (s.issueSx k want reads (fun _ => []) body) = .next t ∧
      t.now = u ∧ OtherCores k s t ∧ Recorded s t 0x0120 ∧
      t.core k = { s.core k with sxs := { (s.core k).sxs with state := .abandoned } } := by
  refine ⟨_, rfl, ?_⟩
  rw [State.issueSx_ready h hw rfl, hb]
  obtain ⟨r, e⟩ := State.guardUse_bad (s := (s.advance u).modCore k fun c => c) (o := { index := i }) (f := f)
    (rs := uses) (k := k) (by simpa [State.advance_core h.calm] using hp)
  rw [e]
  have hn := h.now_le
  simp only [State.poisonUse, State.faultAt, State.record, State.abandon]
  refine ⟨by simp [hn], ?_, ?_, ?_⟩
  · intro j hj
    rw [State.core_modCore_other _ _ _ _ hj]
    simp [State.core_modCore_other _ _ _ _ hj, State.advance_core h.calm]
  · exact Recorded.of_eq (State.advance_faults h.calm u) (State.recordAs_recorded ((s.advance u).modCore k fun c => c) _ _ _ _ _ _ _)
  · simp [Core.modStream, Core.setStream, Core.stream, State.advance_core h.calm]

/-- The register as the destination of an access. -/
def Core.claim (c : Core) (r : Nat) : Core :=
  if r = 0 then c else (c.setG r (c.g r) 0).modSx fun x => { x with g := modAt x.g r fun y => { y with busy := true } }

theorem State.claimG_modCore (s : State) (k r : Nat) (f : Core → Core) :
    (s.claimG k r).modCore k f = s.modCore k fun c => f (c.claim r) := by
  unfold State.claimG
  by_cases h : r = 0
  · simp [h, Core.claim]
  · simp [h, Core.claim]

theorem Core.claim_sxs (c : Core) (r : Nat) : (c.claim r).sxs = c.sxs := by
  unfold Core.claim; split
  · rfl
  · exact Core.setG_sxs _ _ _ _

theorem Core.claim_mem (c : Core) (r : Nat) : (c.claim r).mem = c.mem := by
  unfold Core.claim; split
  · rfl
  · exact Core.setG_mem _ _ _ _

theorem Core.claim_regs (c : Core) (r : Nat) : (c.claim r).sx.g.length = c.sx.g.length := by
  unfold Core.claim Core.setG; split <;> simp [Core.modSx, modAt]; split <;> simp

theorem Core.claim_g (c : Core) (r q : Nat) : (c.claim r).g q = c.g q := by
  unfold Core.claim Core.setG
  split
  · rfl
  · rename_i h
    by_cases hq : q = 0
    · simp [Core.g, hq]
    · by_cases e : q = r
      · subst e
        by_cases hl : q < c.sx.g.length
        · simp [Core.g, h, Core.modSx, modAt, hl]
        · simp [Core.g, h, Core.modSx, modAt, hl]
      · by_cases hl : r < c.sx.g.length
        · simp [Core.g, h, hq, Core.modSx, modAt, hl, List.getElem?_set, Ne.symm e]
        · simp [Core.g, h, hq, Core.modSx, modAt, hl, List.getElem?_set, Ne.symm e]

theorem Core.claim_readable (c : Core) (r q : Nat) (hl : r < c.sx.g.length) :
    (c.claim r).sx.readable [q] = (q == 0 || (c.sx.readable [q] && q != r)) := by
  unfold Core.claim Core.setG
  split
  · rename_i h; subst h
    by_cases h : q = 0
    · subst h; simp [Sx.readable]
    · have hb : (q == 0) = false := by simp [h]
      have hc : (q != 0) = true := by simp [h]
      simp [Sx.readable, hb, hc]
  · rename_i h
    by_cases hq : q = 0
    · subst hq; simp [Sx.readable]
    · have hb : (q == 0) = false := by simp [hq]
      by_cases e : q = r
      · subst e; simp [Sx.readable, hb, Core.modSx, modAt, hl]
      · simp [Sx.readable, hb, e, Core.modSx, modAt, hl, List.getElem?_set, Ne.symm e]

theorem Core.claim_acc (c : Core) (r : Nat) : (c.claim r).sx.acc.length = c.sx.acc.length := by
  unfold Core.claim Core.setG; split <;> simp [Core.modSx]

theorem State.startAcc_eq {s : State} {k i : Nat} {a : SxAcc} (hp : (s.core k).sxs.pc = i) (hl : (s.core k).sxs.loops = [])
    (hh : (s.core k).sxs.halted = false) (hi : i + 1 < 8192) :
    s.startAcc k { index := i } a = s.modCore k fun c => (((c.claim a.rd).claim a.rd2).sxGoes (i + 1) (s.now + 1)).modSx fun x =>
      { x with acc := x.acc ++ [{ a with index := i, due := s.now + s.ctESX, ends := [] }] } := by
  have h1 : ¬ 8192 ≤ i + 1 := by omega
  have hn : ∀ r, (s.claimG k r).now = s.now := fun r => by unfold State.claimG; split <;> rfl
  have hc : ∀ r, (s.claimG k r).core k = (s.core k).claim r := fun r => by
    unfold State.claimG Core.claim; split <;> simp
  have hcc : ((s.claimG k a.rd).claimG k a.rd2).core k = ((s.core k).claim a.rd).claim a.rd2 := by
    rw [← hc]; unfold State.claimG Core.claim; split <;> simp
  simp only [State.startAcc, State.passIndex, State.setReady, State.modStream]
  simp [Core.modStream, Core.stream, Core.setStream, nextIndex, hl, hp, bankLen, h1, hn, hcc, State.claimG_modCore, Core.claim_sxs]
  refine State.modCore_congr ?_
  simp [Core.sxGoes, hl, hh, Core.modSx, Core.claim_sxs, hcc]

theorem SxAcc.startMem_eq {s : State} {k : Nat} {o : Owed} {w : Nat} {a : SxAcc} {n : Nat} (h : (s.core k).wordAddr w = n) (hn : (s.core k).narrowIssue n = none) :
    s.startMem k o w a = s.startAcc k o { a with addr := n } := by
  simp only [State.startMem, h, hn]

/-- What an access in flight is after its issue. -/
theorem access_goes {s t : State} {k i w u : Nat} {rs : List Nat} {a : SxAcc} (h : SxIssues s k i w u rs) (hi : i + 1 < 8192)
    (hlen : (s.core k).sx.g.length = 32) (h1 : a.rd < 32) (h2 : a.rd2 < 32)
    (ht : t = ((s.advance u).modCore k fun c => c).startAcc k { index := i } a) :
    t.now = u ∧ OnlyCore k s t ∧
      (t.core k).sx.acc.getLast? = some { a with index := i, due := u + s.ctESX, ends := [] } ∧
      (t.core k).sx.acc.length = (s.core k).sx.acc.length + 1 ∧
      (t.core k).sxs = ((s.core k).sxGoes (i + 1) (u + 1)).sxs ∧ (t.core k).mem = (s.core k).mem ∧
      (∀ r, (t.core k).g r = (s.core k).g r) ∧
      ∀ r, (t.core k).sx.readable [r] = (r == 0 ||
        ((s.core k).sx.readable [r] && r != a.rd && r != a.rd2)) := by
  have hn := h.now_le
  subst ht
  rw [State.startAcc_eq (by simpa [State.advance_core h.calm] using h.index) (by simpa [State.advance_core h.calm] using h.loops) (by simpa [State.advance_core h.calm] using h.notHalted) hi]
  have hu : (s.advance u).now = u := by simp [hn]
  have he : (s.advance u).ctESX = s.ctESX := State.advance_ctESX s u
  simp only [State.modCore_modCore, State.modCore_now, hu]
  refine ⟨trivial, OnlyCore.issued _ _ h.calm _, ?_⟩
  simp only [State.core_modCore_same, State.advance_core h.calm]
  refine ⟨?_, ?_, ?_, ?_, ?_, ?_⟩
  · simp [Core.modSx, Core.sxGoes]; exact he
  · simp [Core.modSx, Core.sxGoes, Core.claim_acc]
  · simp [Core.modSx, Core.sxGoes, Core.claim_sxs]
  · simp [Core.modSx, Core.sxGoes, Core.claim_mem]
  · intro r
    rw [← Core.claim_g (s.core k) a.rd r, ← Core.claim_g ((s.core k).claim a.rd) a.rd2 r]
    rfl
  · intro r
    have := Core.claim_readable ((s.core k).claim a.rd) a.rd2 r (by rw [Core.claim_regs]; omega)
    rw [Core.claim_readable (s.core k) _ _ (by omega)] at this
    refine Eq.trans (show _ = (((s.core k).claim a.rd).claim a.rd2).sx.readable [r] from rfl) (this.trans ?_)
    by_cases e : r = 0
    · subst e; rfl
    · have hb : (r == 0) = false := by simp [e]
      simp only [hb, Bool.false_or]

/-- An access that is on time has lost no cycle before. -/
theorem CoreMem.lostSince_now (m : CoreMem) (t : Nat) (l : List Nat) : m.lostSince t t l = 0 := by
  unfold CoreMem.lostSince
  induction l with
  | nil => rfl
  | cons b r ih =>
    rw [List.foldl_cons]
    split
    · split
      · rw [show max 0 (min (_ + 1) t - t) = 0 by omega]; exact ih
      · exact ih
    · exact ih

/-- Banks that nothing holds are taken in the due cycle, without a lost cycle. -/
theorem State.takeBanks_free {s : State} {k due : Nat} {e : Engine} {wr : Bool} {banks : State → List Nat}
    (hq : (s.core k).heads = []) (hd : s.now = due) (hf : s.slotFree k (portOf e wr) due) :
    s.takeBanks k e wr due banks =
      (0, s.modCore k fun c => c.modMem fun m => m.claim (portOf e wr) due (banks s)) := by
  subst hd
  obtain ⟨h1, h2⟩ := hf
  unfold State.takeBanks
  simp only [State.takeBanksIn, State.fetchUpTo, State.fetchTo_none hq, h1, h2, CoreMem.lostSince_now]
  simp

theorem State.slotFree_advance {s : State} {k port t u : Nat} (hc : s.overs = []) (h : s.slotFree k port t) :
    (s.advance u).slotFree k port t := by
  rw [State.advance_calm hc]; exact h

theorem Core.setG_acc_length (c : Core) (r : Nat) (v : PWord 32) (n : Nat) :
    (c.setG r v n).sx.acc.length = c.sx.acc.length := by unfold Core.setG; split <;> simp [Core.modSx]

theorem Core.setG_g_length (c : Core) (r : Nat) (v : PWord 32) (n : Nat) :
    (c.setG r v n).sx.g.length = c.sx.g.length := by unfold Core.setG; split <;> simp [Core.modSx]

theorem Core.g_setG (c : Core) (r q : Nat) (v : PWord 32) (n : Nat) (h : r < c.sx.g.length) :
    (c.setG r v n).g q = if q = r ∧ q ≠ 0 then v else c.g q := by
  unfold Core.setG
  by_cases h0 : r = 0
  · by_cases hq : q = 0 <;> simp [h0, hq]
  · simp only [h0, if_false, Core.g]
    by_cases hq : q = 0
    · simp [hq]
    · by_cases e : q = r
      · subst e; simp [hq, Core.modSx, h]
      · simp [hq, e, Core.modSx, List.getElem?_set, Ne.symm e]

theorem State.readWord_clean {s : State} {k eng w : Nat} (h : (s.core k).mem.scr.flaw w = none) :
    s.readWord k eng w = ((s.core k).scrWord w, s) := by simp [State.readWord, h]

/-- The end of an access: its registers have their words, it is gone. -/
theorem access_delivers {s : State} {k : Nat} {a : SxAcc} {r : List SxAcc} {f : Core → Core} {ws : List (PWord 32)}
    (h : SxAccessNext s k a r) (hsx : ∀ c, (f c).sx = c.sx) (hscr : ∀ c, (f c).mem.scr = c.mem.scr)
    (hst : ∀ c, (f c).mem.stock = c.mem.stock) (hacc : ∀ c, (f c).mem.acc = c.mem.acc)
    (him : ∀ c, (f c).mem.imem = c.mem.imem)
    (hd : (s.advance a.due).doAcc k a = ((s.advance a.due).modCore k f).deliver k a ws) :
    ∃ t, exec (.sxAccess k) s = .next t ∧ t.now = a.due ∧ OnlyCore k s t ∧ SxDelivers (s.core k) (t.core k) r ∧
      ∀ q, (t.core k).g q = if q = a.rd2 ∧ q ≠ 0 then ws.getD 1 ⟨0, true⟩
        else if q = a.rd ∧ q ≠ 0 then ws.headD ⟨0, true⟩ else (s.core k).g q := by
  have hm : max s.now a.due = a.due := by have := h.due; omega
  refine ⟨_, rfl, ?_⟩
  simp only [h.oldest, hd]
  rw [State.deliver, State.setG, State.setG, h.sig, h.ends]
  simp only [State.modCore_modCore, State.modCore_now]
  rw [State.complete_eq rfl (by rfl)]
  refine ⟨by simp [hm], OnlyCore.issued _ _ h.calm _, ?_, ?_⟩
  · simp [SxDelivers, Core.completed, Core.modSx, Core.setG_acc_length, hsx, hscr, hst, hacc, him, h.oldest, State.advance_core h.calm]
  · intro q
    have hl : ∀ c : Core, (f c).sx.g.length = c.sx.g.length := fun c => by rw [hsx]
    have hg : ∀ c : Core, (f c).g q = c.g q := fun c => by simp only [Core.g, hsx]
    have e : ∀ (c : Core) n, ((((c.modSx fun x => { x with acc := x.acc.drop 1 }) : Core).completed n { sigA := none, sigB := none, index := a.index, ends := [] })).g q = c.g q :=
      fun c n => rfl
    simp only [State.core_modCore_same, State.advance_core h.calm]
    rw [e, Core.g_setG _ _ _ _ _ (by rw [Core.setG_g_length, hl, h.regs]; exact h.rd2),
      Core.g_setG _ _ _ _ _ (by rw [hl, h.regs]; exact h.rd), hg]

theorem State.deliver_id {s : State} {k : Nat} {a : SxAcc} {ws : List (PWord 32)} :
    (s.modCore k fun c => c).deliver k a ws = s.deliver k a ws := by
  simp [State.deliver, State.setG]

theorem State.readWords_clean {s : State} {k eng w n : Nat} (h : ∀ i, i < n → (s.core k).mem.scr.flaw (w + i) = none) :
    s.readWords k eng w n = ((List.range n).map fun i => (s.core k).scrWord (w + i), s) := by
  induction n generalizing w with
  | zero => rfl
  | succ n ih =>
    have h0 := h 0 (by omega)
    simp only [Nat.add_zero] at h0
    rw [State.readWords, State.readWord_clean h0]
    dsimp only
    rw [ih fun i hi => by have := h (i + 1) (by omega); rwa [Nat.add_comm i 1, ← Nat.add_assoc] at this]
    simp [List.range_succ_eq_map, Function.comp_def, Nat.add_assoc, Nat.add_comm 1]

/-- A load that nothing holds back delivers the words as they are stored. -/
theorem State.doLoad_plain {s : State} {k n : Nat} {a : SxAcc} (hq : (s.core k).heads = []) (hn : s.now = a.due)
    (hp : s.plainRead k a.due a.addr n) :
    s.doLoad k a n = (s.modCore k fun c => c.modMem fun m => m.claim 10 a.due [a.addr / 64 % 16]).deliver k a
      ((List.range n).map fun i => (s.core k).scrWord (a.addr + i)) := by
  unfold State.doLoad
  dsimp only
  rw [State.takeBanks_free (e := .sx) (wr := false) hq hn hp.free]
  have e1 : ((s.modCore k fun c => c.modMem fun m => m.claim (portOf .sx false) a.due [a.addr / 64 % 16]).core k).readCode
      false (a.addr / 64) 1 = none := by
    rw [State.core_modCore_same]; exact hp.open'
  have e2 : ((s.modCore k fun c => c.modMem fun m => m.claim (portOf .sx false) a.due [a.addr / 64 % 16]).core k).readsZero
      false (a.addr / 64) = false := by
    rw [State.core_modCore_same]; exact hp.shown
  simp only [e1, e2, Bool.false_eq_true, if_false]
  rw [State.readWords_clean (fun i hi => by rw [State.core_modCore_same]; exact hp.clean i hi)]
  simp only [State.core_modCore_same]
  rfl

theorem mapGetD (x : Option Nat) : (x.map w32).getD 0 = BitVec.ofNat 32 (x.getD 0) := by
  cases x <;> rfl

theorem badOffset_false {o : Nat} (h : o % 4 = 0) (h' : o < 0x10000) : badOffset o = false := by
  have : ¬ 0x10000 ≤ o := by omega
  simp only [badOffset, h, this, decide_false]
  rfl

theorem doCrd_plain {s : State} {k : Nat} {a : SxAcc} (h4 : a.addr % 4 = 0) (h : a.addr < 65536) (hl : latching a.addr = false)
    (hs : s.strict = false) : s.doCrd k a = s.deliver k a [⟨BitVec.ofNat 32 ((s.coreReg k a.addr).getD 0), false⟩] := by
  have hr : s.coreRead k a.addr = ((s.coreReg k a.addr).map w32, s) := by
    unfold State.coreRead
    rw [if_pos h, hl]
    rfl
  unfold State.doCrd
  rw [badOffset_false h4 h, hr, hs]
  simp only [Bool.false_and, mapGetD]
  rfl

theorem State.fetchDue_none {s : State} {k : Nat} (h : (s.core k).heads = []) : s.fetchDue k = s := by
  simp only [State.fetchDue, State.fetchBefore, State.fetchUpTo, State.fetchTo_none h]

theorem OnlyCore.addSum (k : Nat) (s : State) (st : Bool) (a : Nat) (d : List Byte) (m : List Bool) : OnlyCore k s (s.addSum k st a d m) := by
  unfold State.addSum
  split
  · exact OnlyCore.modCore _ _ _
  · exact OnlyCore.refl _ _

theorem State.addSum_now (k : Nat) (s : State) (st : Bool) (a : Nat) (d : List Byte) (m : List Bool) : (s.addSum k st a d m).now = s.now := by
  unfold State.addSum; split <;> rfl

theorem State.addSum_mem (k : Nat) (s : State) (st : Bool) (a : Nat) (d : List Byte) (m : List Bool) :
    ((s.addSum k st a d m).core k).mem = (s.core k).mem ∧ ((s.addSum k st a d m).core k).sx = (s.core k).sx := by
  unfold State.addSum; split <;> simp [Core.modCtl]

/-- A word without poison goes into the scratchpad and into the write sum. -/
theorem State.putWords_one {s : State} {k eng w : Nat} {x : PWord 32} (hq : (s.core k).heads = []) (hx : x.poison = false) :
    s.putWords k eng w [x] = (s.modCore k fun c => c.modMem fun m => { m with scr := m.scr.put 4 w x.val.toNat false }).addSum k false w (wordBytes [x]) [false] := by
  unfold State.putWords
  simp [State.fetchDue_none hq, State.spoilAll, State.spoil, hx, State.appendPoison, putScrWords]

theorem State.doStore_plain {s : State} {k : Nat} {a : SxAcc} (hq : (s.core k).heads = []) (hn : s.now = a.due)
    (hx : a.data.poison = false) (hf : s.slotFree k 10 a.due)
    (hnc : (s.core k).narrowCode (a.addr / 64) = none) (hce : (s.core k).ctrlEntry (a.addr / 64) = none) :
    s.doStore k a = (s.modCore k fun c => (c.modMem fun m => m.claim 10 a.due [a.addr / 64 % 16]).modMem fun m =>
      { m with scr := m.scr.put 4 a.addr a.data.val.toNat false }).addSum k false a.addr (wordBytes [a.data]) [false] := by
  unfold State.doStore
  dsimp only
  rw [State.takeBanks_free (e := .sx) (wr := false) hq hn hf]
  have e1 : ((s.modCore k fun c => c.modMem fun m => m.claim (portOf .sx false) a.due [a.addr / 64 % 16]).core k).narrowCode
      (a.addr / 64) = none := by rw [State.core_modCore_same]; exact hnc
  have e2 : ((s.modCore k fun c => c.modMem fun m => m.claim (portOf .sx false) a.due [a.addr / 64 % 16]).core k).ctrlEntry
      (a.addr / 64) = none := by rw [State.core_modCore_same]; exact hce
  simp only [e1, e2]
  rw [State.putWords_one (by rw [State.core_modCore_same]; exact hq) hx, State.modCore_modCore]
  rfl

theorem State.startWait_eq {s : State} {k i : Nat} {x : SxWait} (hp : (s.core k).sxs.pc = i) (hl : (s.core k).sxs.loops = [])
    (hh : (s.core k).sxs.halted = false) (hi : i + 1 < 8192) :
    s.startWait k { index := i } x = s.modCore k fun c =>
      ({ c.claim x.rd with sxs := { c.sxs with state := .run, pc := i + 1 } } : Core).modSx fun y =>
        { y with wait := some { x with index := i, ends := [] } } := by
  have h1 : ¬ 8192 ≤ i + 1 := by omega
  have hc : (s.claimG k x.rd).core k = (s.core k).claim x.rd := by
    unfold State.claimG Core.claim; split <;> simp
  simp only [State.startWait, State.passIndex, State.modStream]
  simp [Core.modStream, Core.stream, Core.setStream, nextIndex, hl, hp, bankLen, h1, hc, State.claimG_modCore, Core.claim_sxs]
  refine State.modCore_congr ?_
  simp [hl, hh, Core.modSx, Core.claim_sxs]

theorem Core.claim_chan (c : Core) (r : Nat) : (c.claim r).chan = c.chan := by
  unfold Core.claim Core.setG; split <;> simp [Core.modSx]

theorem Core.claim_sync (c : Core) (r : Nat) : (c.claim r).sync = c.sync := by
  unfold Core.claim Core.setG; split <;> simp [Core.modSx]

/-- A wait that starts: what it changes. -/
theorem wait_starts {s : State} {k i w u : Nat} {rs : List Nat} {x : SxWait} (h : SxIssues s k i w u rs) (hi : i + 1 < 8192) :
    ∀ t, t = ((s.advance u).modCore k fun c => c).startWait k { index := i } x →
      t.now = u ∧ OnlyCore k s t ∧ SxStands (s.core k) (t.core k) (i + 1) ∧
        (t.core k).sx.wait = some { x with index := i, ends := [] } ∧
        ((s.core k).sx.g.length = 32 → x.rd < 32 → (t.core k).sx.readable [x.rd] = (x.rd == 0)) := by
  have hn := h.now_le
  intro t ht
  subst ht
  rw [State.startWait_eq (by simpa [State.advance_core h.calm] using h.index) (by simpa [State.advance_core h.calm] using h.loops) (by simpa [State.advance_core h.calm] using h.notHalted) hi]
  have hu : (s.advance u).now = u := by simp [hn]
  simp only [State.modCore_modCore, State.modCore_now, hu]
  refine ⟨trivial, OnlyCore.issued _ _ h.calm _, ?_, ?_, ?_⟩
  · simp only [State.core_modCore_same, State.advance_core h.calm]
    refine ⟨rfl, Core.claim_mem _ _, Core.claim_chan _ _, Core.claim_sync _ _, fun r => ?_⟩
    rw [← Core.claim_g (s.core k) x.rd r]; rfl
  · simp [Core.modSx]
  · intro hl hr
    simp only [State.core_modCore_same, State.advance_core h.calm]
    have := Core.claim_readable (s.core k) x.rd x.rd (by omega)
    refine Eq.trans (show _ = ((s.core k).claim x.rd).sx.readable [x.rd] from rfl) (this.trans ?_)
    simp

theorem State.endWait_eq {s : State} {k : Nat} {x : SxWait} {f : Core → Core} (he : x.ends = [])
    (h : (f (s.core k)).sync.room x.sig = true) :
    (s.modCore k f).endWait k x = s.modCore k fun c =>
      { f c with
        sx := { (f c).sx with wait := none }
        sync := (f c).sync.signalled s.now x.sig
        sxs := { (f c).sxs with ready := s.now + 1, state := if (f c).sxs.state = .waitArr then .run else (f c).sxs.state } } := by
  unfold State.endWait
  dsimp only
  simp only [State.modStream, State.setReady, State.modCore_modCore, State.modCore_now]
  rw [he, State.complete_eq rfl (by
    simp [Sync.roomFor, h]; cases x.sig <;> rfl)]
  refine State.modCore_congr ?_
  simp only [Core.completed, Core.modSx, Core.modStream, Core.setStream, Core.stream, Sync.signalled]
  split <;> simp_all

/-- Words that are stored read back; every other word is as before. -/
theorem scr_putScrWords {ws : List (PWord 32)} : ∀ {st : Store} {w : Nat}, Memory.wf st.cells = true →
    Memory.wf (putScrWords st w ws).cells = true ∧
    ∀ v, ((putScrWords st w ws).word (4 * v) 4, (putScrWords st w ws).bad v) =
      if h : w ≤ v ∧ v - w < ws.length then ((ws[v - w]'h.2).val.toNat, (ws[v - w]'h.2).poison)
      else (st.word (4 * v) 4, st.bad v) := by
  induction ws with
  | nil => intro st w h; exact ⟨h, fun v => by simp [putScrWords]⟩
  | cons x r ih =>
    intro st w h
    obtain ⟨i1, i2⟩ := ih (w := w + 1) (Store.put_cells_wf h 4 w x.val.toNat x.poison)
    refine ⟨i1, fun v => ?_⟩
    rw [putScrWords, i2]
    by_cases c1 : w + 1 ≤ v ∧ v - (w + 1) < r.length
    · have c2 : w ≤ v ∧ v - w < (x :: r).length := by simp; omega
      rw [dif_pos c1, dif_pos c2]
      have : v - w = v - (w + 1) + 1 := by omega
      simp [this]
    · rw [dif_neg c1]
      by_cases c3 : v = w
      · subst c3
        have c2 : v ≤ v ∧ v - v < (x :: r).length := by simp
        rw [dif_pos c2, Store.word_put_same h, Store.bad_put]
        have := x.val.isLt
        simp; omega
      · have c2 : ¬ (w ≤ v ∧ v - w < (x :: r).length) := by simp; omega
        rw [dif_neg c2, Store.word_put_other (by omega), Store.bad_put]
        simp [c3]

theorem spoilAll_clean {ws : List (PWord 32)} : ∀ {s : State}, (∀ w ∈ ws, w.poison = false) → s.spoilAll ws = (ws, s) := by
  induction ws with
  | nil => intro s _; rfl
  | cons x r ih =>
    intro s h
    have hx : s.spoil x = (x, s) := by simp [State.spoil, h x (by simp)]
    rw [State.spoilAll, hx]
    dsimp only
    rw [ih fun w hw => h w (by simp [hw])]

/-- Words without poison are stored as they are. -/
theorem State.storeWords_clean {s : State} {k w : Nat} {ws : List (PWord 32)} (hq : (s.core k).heads = [])
    (h : ∀ x ∈ ws, x.poison = false) :
    s.storeWords k w ws = s.modCore k fun c => c.modMem fun m => { m with scr := putScrWords m.scr w ws } := by
  unfold State.storeWords
  dsimp only
  rw [State.fetchDue_none hq, spoilAll_clean h]

theorem State.badName_congr {s t : State} {k : Nat} {r : Bool} (h1 : t.route = s.route)
    (h2 : (t.core k).ctl.vmapLive = (s.core k).ctl.vmapLive) (l : List Nat) : t.badName k r l = s.badName k r l := by
  induction l with
  | nil => rfl
  | cons v l ih => simp only [State.badName, State.nameOf, h1, h2, ih]

theorem State.openRefusal_congr {s t : State} {k a : Nat} {ws : List (PWord 32)} (h1 : t.route = s.route)
    (h2 : t.strict = s.strict) {m : CoreMem} (h3 : t.core k = { s.core k with mem := m }) :
    t.openRefusal k a ws = s.openRefusal k a ws := by
  unfold State.openRefusal
  dsimp only
  rw [State.badName_congr h1 (by rw [h3]), h2, h3]
  rfl

theorem State.newEntry_congr {s t : State} {k : Nat} {ws : List (PWord 32)} (h1 : t.route = s.route)
    {m : CoreMem} (h3 : t.core k = { s.core k with mem := m }) :
    t.newEntry k ws = s.newEntry k ws := by
  have : t.nameGet k = s.nameGet k := by
    funext r v
    simp only [State.nameGet, State.nameOf, h1, h3]
  simp only [State.newEntry, this, h3]
  rfl

/-- A descriptor that nothing refuses: the entry and the control line. -/
theorem State.openEntry_ok {t : State} {k index a i : Nat} {ws : List (PWord 32)} {e : Handle} (hr : t.openRefusal k a ws = none)
    (he : e = t.newEntry k ws) (hi : i = (parseDesc ws).index) (hq : (t.core k).heads = []) :
    t.openEntry k index a ws = (some (i + 4096 * e.gen), t.modCore k fun c => (c.setHandle i e).modMem fun m =>
      if kindStatus e.kind then { m with scr := putScrWords m.scr (64 * e.ctrl) zeroLine } else m) := by
  unfold State.openEntry
  rw [hr]
  dsimp only
  rw [← he, ← hi]
  congr 1
  by_cases c : kindStatus e.kind = true
  · simp only [c, if_true]
    rw [State.storeWords_clean (by rw [State.core_modCore_same]; exact hq) (fun x hx => by rw [List.eq_of_mem_replicate hx]), State.modCore_modCore]
  · simp only [c, if_false, Bool.false_eq_true]
    rfl

theorem zeroLine_length : zeroLine.length = 64 := List.length_replicate ..

theorem zeroLine_get (n : Nat) (hn : n < zeroLine.length) : zeroLine[n] = ⟨0, false⟩ := List.getElem_replicate ..

/-- A line of zeros reads as zero, and every other word as before. -/
theorem scr_zeroLine {st : Store} (h : Memory.wf st.cells = true) (l w : Nat) :
    (⟨BitVec.ofNat 32 ((putScrWords st (64 * l) zeroLine).word (4 * w) 4), (putScrWords st (64 * l) zeroLine).bad w⟩ : PWord 32) =
      if w / 64 = l then ⟨0, false⟩ else ⟨BitVec.ofNat 32 (st.word (4 * w) 4), st.bad w⟩ := by
  have hl := zeroLine_length
  have hg := zeroLine_get
  generalize zeroLine = Z at *
  have := (scr_putScrWords (ws := Z) (st := st) (w := 64 * l) h).2 w
  generalize putScrWords st (64 * l) Z = st' at *
  have e1 : st'.word (4 * w) 4 = _ := congrArg Prod.fst this
  have e2 : st'.bad w = _ := congrArg Prod.snd this
  by_cases hw : w / 64 = l
  · have hin : 64 * l ≤ w ∧ w - 64 * l < Z.length := by omega
    rw [dif_pos hin] at e1 e2
    rw [hg] at e1 e2
    rw [if_pos hw, e1, e2]
    rfl
  · have hin : ¬ (64 * l ≤ w ∧ w - 64 * l < Z.length) := by omega
    rw [dif_neg hin] at e1 e2
    rw [if_neg hw, e1, e2]

/-- The end of HOPEN: the register, the stream, the wait. -/
theorem hopen_ends {t : State} {k : Nat} {x : SxWait} {F : Core → Core} {c : Core} {v : PWord 32} (hc : c = F (t.core k))
    (he : x.ends = []) (hr : c.sync.room x.sig = true) (hrd : x.rd < c.sx.g.length) :
    ∀ z, z = ((t.modCore k F).setG k x.rd v (t.now + 1)).endWait k x →
      z.now = t.now ∧ OnlyCore k t z ∧ (z.core k).chan = c.chan ∧
      (∀ q, (z.core k).g q = if q = x.rd ∧ q ≠ 0 then v else c.g q) ∧ (z.core k).mem = c.mem ∧ (z.core k).sx.wait = none ∧
      (z.core k).sxs = { c.sxs with ready := t.now + 1, state := if c.sxs.state = .waitArr then .run else c.sxs.state } := by
  intro z hz
  subst hz
  have hr' : ((F (t.core k)).setG x.rd v (t.now + 1)).sync.room x.sig = true := by
    rw [← hc]; unfold Core.setG; split <;> exact hr
  simp only [State.setG, State.modCore_modCore]
  rw [State.endWait_eq (f := fun c => (F c).setG x.rd v (t.now + 1)) he hr']
  refine ⟨rfl, OnlyCore.modCore _ _ _, ?_⟩
  simp only [State.core_modCore_same, ← hc, Core.setG_mem, Core.setG_sxs]
  refine ⟨?_, ?_, trivial, trivial, trivial⟩
  · unfold Core.setG; split
    · rfl
    · rfl
  · intro q
    have := Core.g_setG c x.rd q v (t.now + 1) hrd
    generalize c.setG x.rd v (t.now + 1) = d at *
    exact this

end Sys2Proof.Machine
end

