-- ==== Sys2Proof/Laws/Mx.lean ====
section
/-! SUPPORT. What the matrix engine does: tiles, rows, the accumulator file. -/

namespace Sys2Proof.Machine

/-- The checks of a legal engine word all pass. -/
theorem engineBad_none {e : Engine} {w : Nat} (h : engineBad e w = none) :
    opAssigned e (hOpc w) = true ∧ ∀ x ∈ operandChecks e w, x.2.2 = false := by
  have h' := firstBad_none (Option.map_eq_none_iff.mp h)
  have ha : opAssigned e (hOpc w) = true := by
    have := h' (127, 120, !opAssigned e (hOpc w)) (by simp)
    simpa using this
  exact ⟨ha, fun x hx => h' x (by simp [ha, hx])⟩

theorem State.writeIssue_ok {s : State} {k index bank : Nat} {e : Engine} (h : ((s.core k).stampOf bank).readersSeen s.now = 0) :
    s.writeIssue k e index bank = (false, s.modCore k fun c => c.modMx fun m =>
      { m with stamps := modAt m.stamps bank fun x => { x with writers := x.writers + 1 } }) := by
  simp [State.writeIssue, h, State.modStamp]

theorem State.readStockWords_clean {s : State} {k eng w n : Nat} (h : ∀ i, i < n → (s.core k).mem.stock.flaw (w + i) = none) :
    s.readStockWords k eng w n = ((List.range n).map fun i => (s.core k).stockWord (w + i), false, s) := by
  induction n generalizing w with
  | zero => rfl
  | succ n ih =>
    have h0 := h 0 (by omega)
    simp only [Nat.add_zero] at h0
    have h1 : s.readStockWord k eng w = ((s.core k).stockWord w, false, s) := by simp [State.readStockWord, h0]
    rw [State.readStockWords, h1]
    dsimp only
    rw [ih fun i hi => by have := h (i + 1) (by omega); rwa [Nat.add_comm i 1, ← Nat.add_assoc] at this]
    simp [List.range_succ_eq_map, Function.comp_def, Nat.add_assoc, Nat.add_comm 1]

/-- The 64 half words of a stock line as stored. -/
def Core.stockLine (c : Core) (line : Nat) : List (PWord 32) :=
  ((List.range 32).map fun i => c.stockWord (32 * line + i)).flatMap halves

theorem State.readStockLine_clean {s : State} {k eng line : Nat} (h0 : (s.core k).readsZero true line = false)
    (h : ∀ i, i < 32 → (s.core k).mem.stock.flaw (32 * line + i) = none) :
    s.readStockLine k eng line = ((s.core k).stockLine line, false, s) := by
  unfold State.readStockLine
  rw [h0, if_neg (by decide), State.readStockWords_clean h]
  rfl

theorem natToBytes_bytesToNat (bs : List Byte) : natToBytes (bytesToNat bs) bs.length = bs := by
  induction bs with
  | nil => rfl
  | cons b r ih =>
    simp only [List.length_cons, natToBytes, bytesToNat]
    have hb := b.isLt
    have h2 : (b.toNat + 256 * bytesToNat r) / 256 = bytesToNat r := by omega
    rw [h2, ih]
    congr 1
    apply BitVec.eq_of_toNat_eq
    simp; omega

@[simp] theorem cellRead_length (m : List Host.Cell) (a n : Nat) : (cellRead m a n).length = n := by
  induction n generalizing a with
  | zero => rfl
  | succ n ih => simp [cellRead, ih]

theorem cellRead_add (m : List Host.Cell) (a n p : Nat) : cellRead m a (n + p) = cellRead m a n ++ cellRead m (a + n) p := by
  induction n generalizing a with
  | zero => simp [cellRead]
  | succ n ih =>
    rw [Nat.add_right_comm, cellRead, ih, cellRead]
    simp [Nat.add_assoc, Nat.add_comm 1]

theorem cellRead_get (m : List Host.Cell) (a n i : Nat) (h : i < n) : (cellRead m a n)[i]? = some (cellGet m (a + i)) := by
  induction n generalizing a i with
  | zero => omega
  | succ n ih =>
    cases i with
    | zero => simp [cellRead]
    | succ i =>
      rw [cellRead]
      simp only [List.getElem?_cons_succ]
      rw [ih (a + 1) i (by omega)]
      congr 2; omega

theorem natToBytes_add (v n p : Nat) : natToBytes v (n + p) = natToBytes v n ++ natToBytes (v / 256 ^ n) p := by
  induction n generalizing v with
  | zero => simp [natToBytes]
  | succ n ih =>
    rw [Nat.add_right_comm, natToBytes, ih, natToBytes]
    simp [Nat.div_div_eq_div_mul, Nat.pow_succ']

theorem natToBytes_mod (v n : Nat) : natToBytes (v % 256 ^ n) n = natToBytes v n := by
  have := natToBytes_bytesToNat (natToBytes v n)
  rw [natToBytes_length, bytesToNat_natToBytes] at this
  exact this

/-- The halves of a stock word have its bytes. -/
theorem wordBytes_halves (c : Core) (w : Nat) : wordBytes (halves (c.stockWord w)) = cellRead c.mem.stock.cells (8 * w) 8 := by
  have h := natToBytes_bytesToNat (cellRead c.mem.stock.cells (8 * w) 8)
  rw [cellRead_length] at h
  have hlt : bytesToNat (cellRead c.mem.stock.cells (8 * w) 8) < 256 ^ 8 := by
    have := bytesToNat_natToBytes (bytesToNat (cellRead c.mem.stock.cells (8 * w) 8)) 8
    rw [h] at this
    rw [this]
    exact Nat.mod_lt _ (by decide)
  simp only [halves, wordBytes, Core.stockWord, Store.word, List.flatMap_cons, List.flatMap_nil, List.append_nil]
  generalize bytesToNat (cellRead c.mem.stock.cells (8 * w) 8) = v at *
  rw [← h, natToBytes_add v 4 4]
  congr 1
  · rw [← natToBytes_mod v 4, ← natToBytes_mod _ 4]
    congr 1
    simp
  · congr 1
    simp only [BitVec.toNat_setWidth, BitVec.toNat_ushiftRight, BitVec.toNat_ofNat, Nat.shiftRight_eq_div_pow]
    omega

theorem wordBytes_append (a b : List (PWord 32)) : wordBytes (a ++ b) = wordBytes a ++ wordBytes b := by
  simp [wordBytes]

theorem wordBytes_stock (c : Core) (w n : Nat) :
    wordBytes (((List.range n).map fun i => c.stockWord (w + i)).flatMap halves) = cellRead c.mem.stock.cells (8 * w) (8 * n) := by
  induction n generalizing w with
  | zero => rfl
  | succ n ih =>
    have hr : (List.range (n + 1)).map (fun i => c.stockWord (w + i)) =
        c.stockWord w :: (List.range n).map fun i => c.stockWord (w + 1 + i) := by
      simp [List.range_succ_eq_map, Function.comp_def, Nat.add_assoc, Nat.add_comm 1]
    rw [hr, List.flatMap_cons, wordBytes_append, wordBytes_halves, ih, show 8 * (n + 1) = 8 + 8 * n by omega, cellRead_add,
      show 8 * (w + 1) = 8 * w + 8 by omega]

theorem wordBytes_stockLine (c : Core) (line : Nat) :
    wordBytes (c.stockLine line) = cellRead c.mem.stock.cells (256 * line) 256 := by
  have := wordBytes_stock c (32 * line) 32
  rw [Core.stockLine, this]
  congr 1; omega

theorem stockLine_clean {c : Core} {line : Nat} (h : ∀ i, i < 32 → c.mem.stock.bad (32 * line + i) = false) :
    ∀ x ∈ c.stockLine line, x.poison = false := by
  intro x hx
  simp only [Core.stockLine, List.mem_flatMap, List.mem_map, List.mem_range] at hx
  obtain ⟨y, ⟨i, hi, rfl⟩, hx⟩ := hx
  simp [halves, Core.stockWord] at hx
  rcases hx with rfl | rfl <;> exact h i hi

/-- A tile read from clean lines: the bytes of the stock, without poison. -/
theorem State.readTile_clean {s : State} {k line n : Nat} (h0 : ∀ j, j < n → (s.core k).readsZero true (line + j) = false)
    (h : ∀ j, j < 32 * n → (s.core k).mem.stock.flaw (32 * line + j) = none ∧ (s.core k).mem.stock.bad (32 * line + j) = false) :
    ∃ ws, s.readTile k line n = (ws, false, s) ∧ wordBytes ws = cellRead (s.core k).mem.stock.cells (256 * line) (256 * n) := by
  induction n generalizing line with
  | zero => exact ⟨[], rfl, rfl⟩
  | succ n ih =>
    obtain ⟨ws, e1, e2⟩ := ih (line := line + 1) (fun j hj => by have := h0 (j + 1) (by omega); rwa [Nat.add_comm j 1, ← Nat.add_assoc] at this)
      (fun j hj => by have := h (32 + j) (by omega); rwa [← Nat.add_assoc, show 32 * line + 32 = 32 * (line + 1) by omega] at this)
    have hc := stockLine_clean (c := s.core k) (line := line) fun i hi => (h i (by omega)).2
    have hany : ((s.core k).stockLine line).any (·.poison) = false := by
      rw [List.any_eq_false]; intro x hx; simp [hc x hx]
    refine ⟨(s.core k).stockLine line ++ ws, ?_, ?_⟩
    · rw [State.readTile, State.readStockLine_clean (by simpa using h0 0 (by omega)) fun i hi => (h i (by omega)).1]
      dsimp only
      rw [e1, hany]
      rfl
    · rw [wordBytes_append, wordBytes_stockLine, e2, show 256 * (n + 1) = 256 + 256 * n by omega, cellRead_add,
        show 256 * (line + 1) = 256 * line + 256 by omega]

theorem cellGet_of_mem {m : List Host.Cell} (h : Memory.wf m = true) {c : Host.Cell} (hc : c ∈ m) : cellGet m c.1 = c.2 := by
  induction m with
  | nil => simp at hc
  | cons d r ih =>
    obtain ⟨x, v⟩ := d
    rcases List.mem_cons.mp hc with rfl | hc
    · simp [cellGet]
    · have := (Memory.wf_head h).2 c hc
      have hne : x ≠ c.1 := by simp at this; omega
      simp only [cellGet, hne, if_false]
      exact ih (Memory.wf_tail h) hc

/-- Bytes written into an empty memory read back. -/
theorem cellGet_fresh (bs : List Byte) (b : Nat) (h : b < bs.length) : cellGet (cellWrite [] 0 bs) b = bs.getD b 0 := by
  have := cellRead_cellWrite (m := []) rfl 0 bs
  have h2 := cellRead_get (cellWrite [] 0 bs) 0 bs.length b h
  rw [this] at h2
  simp [List.getD, h2]

theorem ternaryBad_none {m : List Host.Cell} (h : Memory.wf m = true) (hv : ∀ b, b < 4096 → byteInvalid (cellGet m b) = false) :
    ternaryBad m = none := by
  unfold ternaryBad
  rw [List.find?_eq_none]
  intro l hl
  simp only [List.mem_range] at hl
  simp only [Bool.not_eq_true, List.any_eq_false, Bool.and_eq_true, decide_eq_true_eq]
  rintro c hc ⟨⟨h1, h2⟩, h3⟩
  rw [← cellGet_of_mem h hc, hv c.1 (by omega)] at h3
  simp at h3

theorem Mx.tile_setTile (m : Mx) (b b' : Nat) (t : Tile) :
    (m.setTile b t).tile b' = if (b = 0 ↔ b' = 0) then t else m.tile b' := by
  unfold Mx.setTile Mx.tile
  by_cases h : b = 0 <;> by_cases h' : b' = 0 <;> simp [h, h']

/-- What MMA_ROW_ENTRY does in the terms of the row. -/
theorem rowEntry_eq {s : State} {k : Nat} {o : MmaOp} {line sline : Nat} {sc da : List (PWord 32)}
    (hcalm : s.overs = []) (h1 : headEntry (s.core k).mx.ops [] = some o) (hq : (s.core k).heads = []) (hs : o.stamp = false)
    (hf : ∀ x, o.slot = some x → x.failed = false)
    (hl : line = (match o.slot with | some x => x.base | none => o.aline) + (o.aslot + o.entered) / rowsPerLine o.afmt)
    (hsl : sline = o.scline + (o.scoff + o.entered) / 64)
    (g1 : gotLine o.got .data (line : Int) = some da) (g2 : gotLine o.got .scale (sline : Int) = some sc)
    (t0 : Tile) (ht : t0 = (s.core k).mx.tile o.buf) (bad p : Bool) (hp : p = o.carries t0 sc da)
    (hb : bad = (!p && tallyLhs (o.contribs t0 sc da) != tallyRhs t0.checks (o.acts da) (o.grainScales sc))) :
    execMmaRowEntry k s = .next ((if bad then
          ((s.advance (o.enterAt o.entered)).faultAt k .mx o.owed.index 0x0140 (pack [(1, o.buf), (8, o.entered),
            (16, tallyLhs (o.contribs t0 sc da)), (16, tallyRhs t0.checks (o.acts da) (o.grainScales sc))])).modCore k
            fun c => c.modMx fun m => { m with tally := satInc m.tally 1 }
        else s.advance (o.enterAt o.entered)).modCore k fun c => c.modMx fun m =>
        { m with
          rows := m.rows + 1
          ops := modMma (fun x => !x.refused && x.entered != x.count)
            (fun x => { x with entered := x.entered + 1
                               got := x.got.filter fun g => g.line ≥ (if g.what == .scale then (sline : Int) else (line : Int))
                               rows := x.rows ++ [{ contrib := o.contribs t0 sc da, poison := p || bad }] }) m.ops }) := by
  have hc : ((s.advance (o.enterAt o.entered)).core k) = s.core k := State.advance_core hcalm _ _
  have hq' : ((s.advance (o.enterAt o.entered)).core k).heads = [] := by rw [hc]; exact hq
  unfold execMmaRowEntry
  cases hx : o.slot with
  | none =>
    simp only [hx] at hl
    have hl' : (line : Int) = _ := congrArg Nat.cast hl
    rw [Nat.cast_add] at hl'
    have hsl' : (sline : Int) = _ := congrArg Nat.cast hsl
    simp only [h1, State.fetchDue_none hq', hc, Option.getD_some, hx, ← hl', ← hsl, g1, g2, Bool.false_eq_true, if_false, hs, Bool.or_false, ← ht]
    subst hb hp
    rfl
  | some x =>
    simp only [hx] at hl
    have hl' : (line : Int) = _ := congrArg Nat.cast hl
    rw [Nat.cast_add] at hl'
    have hsl' : (sline : Int) = _ := congrArg Nat.cast hsl
    have := hf x hx
    simp only [h1, State.fetchDue_none hq', hc, Option.getD_some, hx, ← hl', ← hsl, g1, g2, this, Bool.false_eq_true, if_false, hs, Bool.or_false, ← ht]
    subst hb hp
    rfl

theorem laneBytes_length (ls : List Int) : (laneBytes ls).length = 5 * ls.length := by
  induction ls with
  | nil => rfl
  | cons x r ih => simp [laneBytes] at *; omega

theorem cellRead_sub (m : List Host.Cell) (a n i p : Nat) (h : i + p ≤ n) :
    cellRead m (a + i) p = ((cellRead m a n).drop i).take p := by
  have h1 : cellRead m a n = cellRead m a i ++ (cellRead m (a + i) p ++ cellRead m (a + i + p) (n - i - p)) := by
    rw [← cellRead_add, ← cellRead_add]; congr 1; omega
  rw [h1, List.drop_append_of_le_length (by simp), List.drop_of_length_le (by simp), List.nil_append,
    List.take_append_of_le_length (by simp), List.take_of_length_le (by simp)]

theorem laneBytes_sub (ls : List Int) (i : Nat) (h : i < ls.length) :
    ((laneBytes ls).drop (5 * i)).take 5 = natToBytes (wrapU 40 (ls.getD i 0)) 5 := by
  induction ls generalizing i with
  | nil => simp at h
  | cons x r ih =>
    have e : laneBytes (x :: r) = natToBytes (wrapU 40 x) 5 ++ laneBytes r := rfl
    cases i with
    | zero =>
      rw [e, Nat.mul_zero, List.drop_zero, List.take_append_of_le_length (by simp), List.take_of_length_le (by simp)]
      rfl
    | succ i =>
      have hl : (natToBytes (wrapU 40 x) 5).length = 5 := by simp
      have hd : (natToBytes (wrapU 40 x) 5 ++ laneBytes r).drop 5 = laneBytes r := List.drop_left' hl
      rw [e, show 5 * (i + 1) = 5 + 5 * i by omega, ← List.drop_drop, hd]
      have := ih i (by simpa using h)
      rw [this]; rfl

/-- A lane in range is itself after it is stored. -/
theorem signed40_wrap (v : Int) (h1 : s40Min ≤ v) (h2 : v ≤ s40Max) : signed 40 (wrapU 40 v % 256 ^ 5) = v := by
  simp only [s40Min, s40Max] at h1 h2
  simp only [signed, wrapU]
  norm_num
  omega

/-- Lanes read as they were written, and every other row as before. -/
theorem accLanes_write {c d : Core} {bank dr : Nat} {ls : List Int} (hl : ls.length = 128)
    (hr : ∀ v ∈ ls, s40Min ≤ v ∧ v ≤ s40Max) (hwf : Memory.wf c.mem.acc.cells = true)
    (hc : d.mem.acc.cells = cellWrite c.mem.acc.cells (640 * accRow bank dr) (laneBytes ls)) :
    d.accLanes bank dr = ls ∧ ∀ b r, r < 256 → dr < 256 → (b ≠ bank ∨ r ≠ dr) → d.accLanes b r = c.accLanes b r := by
  have hlen := laneBytes_length ls
  constructor
  · apply List.ext_getElem
    · simp [Core.accLanes, hl]
    · intro i h1 h2
      simp only [Core.accLanes, List.getElem_map, List.getElem_range, Store.word, hc]
      have hi : i < 128 := by rw [← hl]; exact h2
      rw [cellRead_sub _ _ (laneBytes ls).length (5 * i) 5 (by omega), cellRead_cellWrite hwf, laneBytes_sub _ _ h2,
        bytesToNat_natToBytes]
      have hg : ls.getD i 0 = ls[i] := by simp [List.getD, h2]
      rw [hg, signed40_wrap _ (hr _ (List.getElem_mem h2)).1 (hr _ (List.getElem_mem h2)).2]
  · intro b r h1 h2 h3
    simp only [Core.accLanes]
    apply List.map_congr_left
    intro i hi
    simp only [List.mem_range] at hi
    congr 1
    simp only [Store.word, hc]
    congr 1
    refine cellRead_cellWrite_other _ ?_
    rw [hlen, hl]
    simp only [accRow]
    omega

theorem accAdd_range (v c : Int) (h1 : s40Min ≤ v) (h2 : v ≤ s40Max) : s40Min ≤ (accAdd v c).1 ∧ (accAdd v c).1 ≤ s40Max := by
  unfold accAdd
  split
  · exact ⟨h1, h2⟩
  · simp only [satS, s40Min, s40Max]
    norm_num
    split
    · omega
    · split <;> omega

theorem signed40_range (n : Nat) : s40Min ≤ signed 40 n ∧ signed 40 n ≤ s40Max := by
  simp only [signed, s40Min, s40Max]
  norm_num
  split <;> omega

theorem accLanes_range (c : Core) (b r : Nat) : ∀ v ∈ c.accLanes b r, s40Min ≤ v ∧ v ≤ s40Max := by
  intro v hv
  simp only [Core.accLanes, List.mem_map] at hv
  obtain ⟨i, _, rfl⟩ := hv
  exact signed40_range _

theorem accRowAdd_eq {vs cs : List Int} (h1 : vs.length = 128) (h2 : cs.length = 128) :
    accRowAdd vs cs = (List.zipWith (fun v c => (accAdd v c).1) vs cs, ((List.zipWith (fun v c => (accAdd v c).2) vs cs).filter id).length) := by
  have e : (List.range 128).map (fun i => accAdd (vs.getD i 0) (cs.getD i 0)) = List.zipWith accAdd vs cs := by
    apply List.ext_getElem
    · simp [h1, h2]
    · intro i g1 g2
      have hi : i < 128 := by simpa using g1
      simp [List.getD, h1, h2, hi]
  unfold accRowAdd
  simp only [e]
  congr 1
  · rw [List.map_zipWith]
  · have e2 : List.zipWith (fun v c => (accAdd v c).2) vs cs = (List.zipWith accAdd vs cs).map (·.2) := by rw [List.map_zipWith]
    rw [e2, List.filter_map, List.length_map]
    rfl

end Sys2Proof.Machine
end

