-- ==== Sys2Proof/Laws/Dx.lean ====
section
/-! SUPPORT. Laws of the data mover: what a unit and an operation of DX change. -/

namespace Sys2Proof.Machine

theorem issueDx_ok {s t : State} {k u : Nat} {f : Core → Core} {o : DxOp} (hcalm : s.overs = []) (ht : t = (s.advance u).modCore k f) (hn : s.now ≤ u)
    (hr : (f (s.core k)).dxRefusal u o = none) (ho : o.refused = false) (ho2 : o.stamp = false)
    (ha : o.kind = .acw → ((f (s.core k)).stampOf o.bank).readersSeen u = 0) :
    t.issueDx k o false = (s.advance u).modCore k fun c => (f c).dxGoes o u := by
  have htn : t.now = u := by rw [ht]; simp [hn]
  have htc : t.core k = f (s.core k) := by rw [ht]; simp [State.advance_core hcalm]
  unfold State.issueDx
  simp only [Bool.false_eq_true, if_false, htn, htc, hr, Option.isSome_none, Bool.or_self, Bool.false_or]
  obtain ⟨y, hy⟩ : ∃ y : State, y = if o.kind = .acw then t.modCore k fun c => c.modMx fun m =>
      { m with stamps := modAt m.stamps o.bank fun x => { x with writers := x.writers + 1 } } else t := ⟨_, rfl⟩
  have hst : (if (o.kind == DxKind.acw) = true then t.writeIssue k .dx o.owed.index o.bank else (false, t)) = (false, y) := by
    by_cases h : o.kind = .acw
    · rw [hy]
      simp only [h, beq_self_eq_true, if_true]
      rw [State.writeIssue_ok (by rw [htc, htn]; exact ha h)]
    · have hb : (o.kind == DxKind.acw) = false := by simpa using h
      rw [hy]
      simp only [hb, h, Bool.false_eq_true, if_false]
  have hyn : y.now = u := by rw [hy]; split <;> exact htn
  simp only [hst, hyn]
  rw [hy, ht]
  unfold Core.dxGoes
  have hop : ∀ n, ({ o with issue := u, refused := false, stamp := false, rd := n } : DxOp) = { o with issue := u, rd := n } := by
    intro n; cases o; simp_all
  rw [hop]
  by_cases h1 : o.kind = .acw <;> by_cases h2 : o.bin.isSome = true <;> by_cases h3 : o.writesStock = true <;>
    by_cases h4 : o.writesScr = true <;> simp only [h1, h2, h3, h4, if_true, if_false, State.setReady, State.modStream,
      State.modCore_modCore, Bool.false_eq_true, State.modCore_now, State.advance_now, show max s.now u = u by omega, beq_iff_eq] <;> rfl

/-- Words without poison are written as they are: the scratchpad and the write sum change. -/
theorem State.putWords_clean {s : State} {k eng w : Nat} {ws : List (PWord 32)} (hq : (s.core k).heads = [])
    (h : ∀ x ∈ ws, x.poison = false) : ∃ y, s.putWords k eng w ws = s.modCore k fun c =>
      { c with mem := { c.mem with scr := putScrWords c.mem.scr w ws }, ctl := { c.ctl with twinSum := y } } := by
  have hany : ws.any (·.poison) = false := by
    rw [List.any_eq_false]; intro x hx; simp [h x hx]
  unfold State.putWords
  dsimp only
  rw [State.fetchDue_none hq, spoilAll_clean h, hany]
  simp only [State.appendPoison, Bool.false_eq_true, if_false, State.addSum]
  split
  · exact ⟨_, by rw [State.modCore_modCore]; rfl⟩
  · refine ⟨(s.core k).ctl.twinSum, State.modCore_congr ?_⟩
    rfl

theorem Core.heads_mem (c : Core) (m : CoreMem) (r : CoreRegs) : ({ c with mem := m, ctl := r } : Core).heads = c.heads := rfl

/-- Lines without poison are written one after another. -/
theorem State.putLines_clean {k : Nat} {ls : List (List (PWord 32))} : ∀ {s : State} {line : Nat},
    (s.core k).heads = [] → (∀ l ∈ ls, l.length = 64 ∧ ∀ x ∈ l, x.poison = false) → Memory.wf (s.core k).mem.scr.cells = true →
    ∃ y scr, (ls = [] ∧ s.putLines k line ls = s ∨ s.putLines k line ls = s.modCore k fun c =>
      { c with mem := { c.mem with scr := scr }, ctl := { c.ctl with twinSum := y } }) ∧ Memory.wf scr.cells = true ∧
      (ls = [] → scr = (s.core k).mem.scr) ∧
      ∀ w, (⟨BitVec.ofNat 32 (scr.word (4 * w) 4), scr.bad w⟩ : PWord 32) =
        if 64 * line ≤ w ∧ w < 64 * (line + ls.length) then (ls.getD (w / 64 - line) []).getD (w % 64) ⟨0, false⟩
        else (s.core k).scrWord w := by
  induction ls with
  | nil =>
    intro s line hq _ hwf
    refine ⟨0, (s.core k).mem.scr, .inl ⟨rfl, rfl⟩, hwf, fun _ => rfl, fun w => ?_⟩
    rw [if_neg (by simp)]; rfl
  | cons l r ih =>
    intro s line hq hl hwf
    obtain ⟨y1, e1⟩ := State.putWords_clean (s := s) (k := k) (eng := engCode .dx) (w := 64 * line) hq (hl l (by simp)).2
    obtain ⟨w1, w2⟩ := scr_putScrWords (ws := l) (st := (s.core k).mem.scr) (w := 64 * line) hwf
    have hc : (s.putWords k (engCode .dx) (64 * line) l).core k = { s.core k with
        mem := { (s.core k).mem with scr := putScrWords (s.core k).mem.scr (64 * line) l }, ctl := { (s.core k).ctl with twinSum := y1 } } := by
      rw [e1]; simp
    obtain ⟨y2, scr, h1, h2, h3, h4⟩ := ih (s := s.putWords k (engCode .dx) (64 * line) l) (line := line + 1)
      (by rw [hc]; exact hq) (fun l' hl' => hl l' (by simp [hl'])) (by rw [hc]; exact w1)
    have hlen := (hl l (by simp)).1
    refine ⟨if r = [] then y1 else y2, scr, .inr ?_, h2, fun h => by simp at h, fun w => ?_⟩
    · rw [State.putLines]
      rcases h1 with ⟨hr, h1⟩ | h1
      · rw [h1, e1]
        refine State.modCore_congr ?_
        rw [h3 hr, hc, if_pos hr]
      · by_cases hr : r = []
        · subst hr
          rw [State.putLines, e1]
          refine State.modCore_congr ?_
          rw [h3 rfl, hc]
          simp
        · rw [h1, e1, State.modCore_modCore, if_neg hr]
    · rw [h4 w]
      have e2 : ((s.putWords k (engCode .dx) (64 * line) l).core k).scrWord w = if h : 64 * line ≤ w ∧ w - 64 * line < l.length then l[w - 64 * line]'h.2 else (s.core k).scrWord w := by
        rw [hc]
        have := w2 w
        have a1 : (putScrWords (s.core k).mem.scr (64 * line) l).word (4 * w) 4 = _ := congrArg Prod.fst this
        have a2 : (putScrWords (s.core k).mem.scr (64 * line) l).bad w = _ := congrArg Prod.snd this
        simp only [Core.scrWord, a1, a2]
        split
        · simp
        · rfl
      by_cases c1 : 64 * (line + 1) ≤ w ∧ w < 64 * (line + 1 + r.length)
      · have c2 : 64 * line ≤ w ∧ w < 64 * (line + (l :: r).length) := by simp; omega
        rw [if_pos c1, if_pos c2]
        have : w / 64 - line = w / 64 - (line + 1) + 1 := by omega
        rw [this]; rfl
      · rw [if_neg c1, e2]
        by_cases c3 : 64 * line ≤ w ∧ w - 64 * line < l.length
        · have c2 : 64 * line ≤ w ∧ w < 64 * (line + (l :: r).length) := by simp; omega
          have e3 : w / 64 - line = 0 := by omega
          have e4 : w % 64 = w - 64 * line := by omega
          rw [dif_pos c3, if_pos c2, e3, e4]
          simp [c3.2]
        · have c2 : ¬ (64 * line ≤ w ∧ w < 64 * (line + (l :: r).length)) := by simp; omega
          rw [dif_neg c3, if_neg c2]

/-- The stock port is free in a cycle that no load holds. -/
theorem State.takePort_free {s : State} {k due : Nat}
    (h : ((s.core k).mx.portCycles.find? fun x => decide (x.1 ≤ due) && decide (due ≤ x.2)) = none) : s.takePort k due = (0, s) := by
  have : freePort (s.core k).mx.portCycles due ((s.core k).mx.portCycles.length + 1) = due := by
    rw [freePort, h]
  simp [State.takePort, this]

/-- A unit of a fill or of a load written to the scratchpad. -/
theorem writeUnit_scr {s : State} {k t : Nat} {o : DxOp} {ls : List (List (PWord 32))} (hn : s.now = t) (hb : o.bin = none)
    (hq : (s.core k).heads = []) (hf : s.slotFree k 7 t) (hk : o.kind = .fill ∧ o.stock = false ∨ o.kind = .ld)
    (hls : ls = if o.kind = .fill then List.replicate (o.unitLines o.wr) (List.replicate 64 ⟨o.pattern, false⟩) else o.buf.headD [])
    (hl : ∀ l ∈ ls, l.length = 64 ∧ ∀ x ∈ l, x.poison = false) (hwf : Memory.wf (s.core k).mem.scr.cells = true) :
    ∃ scr, (s.writeUnit k t o).now = t ∧ OnlyMem k s (s.writeUnit k t o) scr (s.core k).mem.stock ((s.core k).modDx fun d =>
        { d with ops := modDxOp (· == o) (fun _ => { o with wr := o.wr + 1, buf := o.buf.drop 1 }) d.ops }) ∧
      ∀ w, ((s.writeUnit k t o).core k).scrWord w =
        if 64 * (o.dst + o.wr * o.unit) ≤ w ∧ w < 64 * (o.dst + o.wr * o.unit + ls.length) then (ls.getD (w / 64 - (o.dst + o.wr * o.unit)) []).getD (w % 64) ⟨0, false⟩
        else (s.core k).scrWord w := by
  have hsc : o.writesScr = true ∧ o.writesStock = false ∧ (o.kind == DxKind.acw) = false ∧ (o.kind == .fill) = decide (o.kind = .fill) := by
    rcases hk with ⟨h1, h2⟩ | h1 <;> simp [DxOp.writesScr, DxOp.writesStock, h1] <;> simp [*]
  obtain ⟨hs1, hs2, hs3, hs4⟩ := hsc
  obtain ⟨banks, hbk⟩ : ∃ banks, banks = ((s.core k).unitRun s.now o true o.wr).map (· % 16) := ⟨_, rfl⟩
  obtain ⟨v, hv⟩ : ∃ v, v = s.modCore k fun c => c.modMem fun m => m.claim 7 t banks := ⟨_, rfl⟩
  have htb : s.takeBanks k .dx true t (fun s => ((s.core k).unitRun s.now o true o.wr).map (· % 16)) = (0, v) := by
    rw [State.takeBanks_free (e := .dx) (wr := true) hq hn hf, hv, hbk]; rfl
  have hvc : v.core k = { s.core k with mem := (s.core k).mem.claim 7 t banks } := by rw [hv]; simp [Core.modMem]
  obtain ⟨y, scr, h1, h2, h3, h4⟩ := State.putLines_clean (k := k) (ls := ls) (s := v) (line := o.dst + o.wr * o.unit)
    (by rw [hvc]; exact hq) hl (by rw [hvc]; exact hwf)
  have hw : s.writeUnit k t o = (v.putLines k (o.dst + o.wr * o.unit) ls).modCore k fun c => c.modDx fun d =>
        { d with ops := modDxOp (· == o) (fun _ => { o with wr := o.wr + 1, buf := o.buf.drop 1 }) d.ops } := by
    unfold State.writeUnit
    have hcp : (o.kind == DxKind.copy) = false := by rcases hk with ⟨h1, _⟩ | h1 <;> simp [h1]
    have hrd : o.arow + o.rowsDone - o.arow = o.rowsDone := by omega
    simp only [hb, hs1, hs2, hs3, Option.isSome_none, Bool.and_false, Bool.false_and, Bool.false_eq_true, if_false, if_true, htb,
      Core.loseDx, Nat.add_zero, hrd, hcp]
    have hu : (if (o.kind == DxKind.fill) = true then List.replicate (o.unitLines o.wr) (List.replicate 64 (⟨o.pattern, false⟩ : PWord 32)) else o.buf.headD []) = ls := by
      rw [hls]; simp
    rw [hu]
  have hcore : (s.writeUnit k t o).core k = { (s.core k).modDx fun d =>
        { d with ops := modDxOp (· == o) (fun _ => { o with wr := o.wr + 1, buf := o.buf.drop 1 }) d.ops } with
      mem := { ((s.writeUnit k t o).core k).mem with scr := scr, stock := (s.core k).mem.stock, acc := (s.core k).mem.acc, imem := (s.core k).mem.imem }
      ctl := { (s.core k).ctl with twinSum := if ls = [] then (s.core k).ctl.twinSum else y } } := by
    rw [hw, State.core_modCore_same]
    by_cases hnil : ls = []
    · subst hnil
      rw [h3 rfl, State.putLines, hvc]
      simp [Core.modDx, CoreMem.claim]
    · rcases h1 with ⟨h1, _⟩ | h1
      · exact absurd h1 hnil
      · rw [h1, State.core_modCore_same, hvc, if_neg hnil]
        simp [Core.modDx, CoreMem.claim]
  have hon : OnlyCore k s (s.writeUnit k t o) := by
    rw [hw]
    refine OnlyCore.trans ?_ (OnlyCore.modCore _ _ _)
    have h5 : OnlyCore k s v := by rw [hv]; exact OnlyCore.modCore _ _ _
    rcases h1 with ⟨_, h1⟩ | h1
    · rw [h1]; exact h5
    · rw [h1]; exact h5.trans (OnlyCore.modCore _ _ _)
  have hnow : (s.writeUnit k t o).now = t := by
    rw [hw]
    rcases h1 with ⟨_, h1⟩ | h1 <;> rw [h1, hv] <;> simp [hn]
  refine ⟨scr, hnow, ⟨hon, _, hcore⟩, fun w => ?_⟩
  have : ((s.writeUnit k t o).core k).scrWord w = ⟨BitVec.ofNat 32 (scr.word (4 * w) 4), scr.bad w⟩ := by
    rw [hcore]; rfl
  rw [this, h4, hvc]
  rfl

theorem getD_replicate {α : Type} {x d : α} {n i : Nat} (h : i < n) : (List.replicate n x).getD i d = x := by
  rw [List.getD_eq_getElem?_getD, List.getElem?_replicate, if_pos h, Option.getD_some]

theorem PWord.ofNat_toNat {w : Nat} (x : PWord w) : (⟨BitVec.ofNat w x.val.toNat, x.poison⟩ : PWord w) = x := by
  rw [BitVec.ofNat_toNat, BitVec.setWidth_eq]

theorem stock_putStockWords {ws : List (PWord 64)} : ∀ {st : Store} {w : Nat}, Memory.wf st.cells = true →
    Memory.wf (putStockWords st w ws).cells = true ∧
    ∀ v, ((putStockWords st w ws).word (8 * v) 8, (putStockWords st w ws).bad v) =
      if h : w ≤ v ∧ v - w < ws.length then ((ws[v - w]'h.2).val.toNat, (ws[v - w]'h.2).poison)
      else (st.word (8 * v) 8, st.bad v) := by
  induction ws with
  | nil => intro st w h; exact ⟨h, fun v => by simp [putStockWords]⟩
  | cons x r ih =>
    intro st w h
    obtain ⟨i1, i2⟩ := ih (w := w + 1) (Store.put_cells_wf h 8 w x.val.toNat x.poison)
    refine ⟨i1, fun v => ?_⟩
    rw [putStockWords, i2]
    by_cases c1 : w + 1 ≤ v ∧ v - (w + 1) < r.length
    · have c2 : w ≤ v ∧ v - w < (x :: r).length := by simp; omega
      rw [dif_pos c1, dif_pos c2]
      have : v - w = v - (w + 1) + 1 := by omega
      simp [this]
    · rw [dif_neg c1]
      by_cases c3 : v = w
      · subst c3
        have c2 : v ≤ v ∧ v - v < (x :: r).length := by simp
        rw [dif_pos c2, Store.word_put_same h, Store.bad_put]
        have := x.val.isLt
        simp; omega
      · have c2 : ¬ (w ≤ v ∧ v - w < (x :: r).length) := by simp; omega
        rw [dif_neg c2, Store.word_put_other (by omega), Store.bad_put]
        simp [c3]

theorem evenPoison_clean : ∀ {l : List (PWord 32)}, (∀ x ∈ l, x.poison = false) → evenPoison l = l
  | [], _ => rfl
  | [_], _ => rfl
  | a :: b :: r, h => by
    have ha := h a (by simp)
    have hb := h b (by simp)
    rw [evenPoison, evenPoison_clean (l := r) fun x hx => h x (by simp [hx]), ha, hb]
    congr 1
    · cases a; simp_all
    · congr 1; cases b; simp_all

theorem halves_join (a b : PWord 32) (ha : a.poison = false) (hb : b.poison = false) :
    halves ⟨(a.val.setWidth 64) ||| ((b.val.setWidth 64) <<< 32), a.poison || b.poison⟩ = [a, b] := by
  obtain ⟨av, ap⟩ := a
  obtain ⟨bv, bp⟩ := b
  simp only at ha hb
  subst ha hb
  have e1 : (av.setWidth 64 ||| bv.setWidth 64 <<< 32).setWidth 32 = av := by
    ext i hi
    simp [hi]
  have e2 : ((av.setWidth 64 ||| bv.setWidth 64 <<< 32) >>> 32).setWidth 32 = bv := by
    apply BitVec.eq_of_getLsbD_eq
    intro i hi
    have h1 : av.getLsbD (32 + i) = false := BitVec.getLsbD_of_ge _ _ (by omega)
    have h2 : 32 + i < 64 := by omega
    simp [hi, h1, h2]
  simp [halves, e1, e2]

theorem joinHalves_spec : ∀ {l : List (PWord 32)} {i : Nat}, (∀ x ∈ l, x.poison = false) → 2 * i + 1 < l.length →
    ∃ x, (joinHalves l)[i]? = some x ∧ x.poison = false ∧ halves x = [l.getD (2 * i) ⟨0, false⟩, l.getD (2 * i + 1) ⟨0, false⟩]
  | [], i, _, h => by simp at h
  | [_], i, _, h => by simp at h
  | a :: b :: r, 0, h, _ => by
    have ha := h a (by simp)
    have hb := h b (by simp)
    exact ⟨_, rfl, by simp [ha, hb], halves_join a b ha hb⟩
  | a :: b :: r, i + 1, h, hl => by
    obtain ⟨x, h1, h2, h3⟩ := joinHalves_spec (l := r) (i := i) (fun x hx => h x (by simp [hx])) (by simp at hl; omega)
    refine ⟨x, by simpa [joinHalves] using h1, h2, ?_⟩
    rw [h3]
    have e1 : 2 * (i + 1) = 2 * i + 1 + 1 := by omega
    rw [e1]; rfl

theorem joinHalves_length : ∀ (l : List (PWord 32)), (joinHalves l).length = l.length / 2
  | [] => rfl
  | [_] => by simp [joinHalves]
  | a :: b :: r => by simp [joinHalves, joinHalves_length r]; omega

/-- A stock line without poison is written as it is. -/
theorem State.putStockLine_clean {s : State} {k eng line : Nat} {l : List (PWord 32)} (hl : l.length = 64)
    (h : ∀ x ∈ l, x.poison = false) : ∃ y, s.putStockLine k eng line l = s.modCore k fun c =>
      { c with mem := { c.mem with stock := putStockWords c.mem.stock (32 * line) (joinHalves l) }, ctl := { c.ctl with twinSum := y } } := by
  have hany : (joinHalves l).any (·.poison) = false := by
    rw [List.any_eq_false]
    intro x hx
    obtain ⟨i, hi, rfl⟩ := List.getElem_of_mem hx
    rw [joinHalves_length, hl] at hi
    obtain ⟨x, h1, h2, _⟩ := joinHalves_spec (l := l) (i := i) h (by omega)
    have : (joinHalves l)[i]'(by rw [joinHalves_length, hl]; omega) = x := by
      rw [List.getElem?_eq_getElem (by rw [joinHalves_length, hl]; omega)] at h1
      exact Option.some.inj h1
    rw [this, h2]; decide
  unfold State.putStockLine
  dsimp only
  rw [evenPoison_clean h, spoilAll_clean h, hany]
  simp only [State.appendPoison, Bool.false_eq_true, if_false, State.addSum]
  split
  · exact ⟨_, by rw [State.modCore_modCore]; rfl⟩
  · refine ⟨(s.core k).ctl.twinSum, State.modCore_congr ?_⟩
    rfl

/-- A unit of a store written to the stock. -/
theorem writeUnit_stock {s : State} {k t : Nat} {o : DxOp} {l : List (PWord 32)} {rest : List (List (List (PWord 32)))} (hn : s.now = t) (hb : o.bin = none)
    (hf : ((s.core k).mx.portCycles.find? fun x => decide (x.1 ≤ t) && decide (t ≤ x.2)) = none) (hk : o.kind = .st)
    (hls : o.buf = [l] :: rest) (hl : l.length = 64) (hc : ∀ x ∈ l, x.poison = false) (hwf : Memory.wf (s.core k).mem.stock.cells = true) :
    ∃ stock, (s.writeUnit k t o).now = t ∧ OnlyMem k s (s.writeUnit k t o) (s.core k).mem.scr stock ((s.core k).modDx fun d =>
        { d with ops := modDxOp (· == o) (fun _ => { o with wr := o.wr + 1, buf := rest }) d.ops }) ∧
      ∀ w, halves (((s.writeUnit k t o).core k).stockWord w) =
        if w / 32 = o.dst + o.wr then [l.getD (2 * (w % 32)) ⟨0, false⟩, l.getD (2 * (w % 32) + 1) ⟨0, false⟩]
        else halves ((s.core k).stockWord w) := by
  have hs1 : o.writesScr = false := by simp [DxOp.writesScr, hk]
  have hs2 : o.writesStock = true := by simp [DxOp.writesStock, hk]
  have hs3 : (o.kind == DxKind.acw) = false := by simp [hk]
  have hs4 : (o.kind == DxKind.fill) = false := by simp [hk]
  have hun : o.unit = 1 := by simp [DxOp.unit, hk]
  obtain ⟨y, e1⟩ := State.putStockLine_clean (s := s) (k := k) (eng := engCode .dx) (line := o.dst + o.wr) hl hc
  have hw : s.writeUnit k t o = (s.putStockLine k (engCode .dx) (o.dst + o.wr) l).modCore k fun c => c.modDx fun d =>
        { d with ops := modDxOp (· == o) (fun _ => { o with wr := o.wr + 1, buf := rest }) d.ops } := by
    unfold State.writeUnit
    have hcp : (o.kind == DxKind.copy) = false := by simp [hk]
    have hrd : o.arow + o.rowsDone - o.arow = o.rowsDone := by omega
    simp only [hb, hs1, hs2, hs3, hs4, Option.isSome_none, Bool.and_false, Bool.false_and, Bool.false_eq_true, if_false, if_true,
      State.takePort_free hf, hcp, Core.loseDx, Nat.add_zero, hrd, hls, List.headD_cons, State.putStockLines, hun, Nat.mul_one, List.drop_succ_cons, List.drop_zero]
  obtain ⟨w1, w2⟩ := stock_putStockWords (ws := joinHalves l) (st := (s.core k).mem.stock) (w := 32 * (o.dst + o.wr)) hwf
  obtain ⟨st, hst⟩ : ∃ st, st = putStockWords (s.core k).mem.stock (32 * (o.dst + o.wr)) (joinHalves l) := ⟨_, rfl⟩
  rw [← hst] at w1 w2
  have e1 : s.putStockLine k (engCode .dx) (o.dst + o.wr) l = s.modCore k fun c =>
      { c with mem := { c.mem with stock := st }, ctl := { c.ctl with twinSum := y } } := by
    rw [e1]; exact State.modCore_congr (by rw [hst])
  rw [hw]
  clear hw hst
  generalize hv : (s.putStockLine k (engCode .dx) (o.dst + o.wr) l) = v at *
  have hvc : v.core k = { s.core k with mem := { (s.core k).mem with stock := st }, ctl := { (s.core k).ctl with twinSum := y } } := by
    rw [e1]; simp
  have hvn : v.now = t := by rw [e1]; simp [hn]
  have hvo : OnlyCore k s v := by rw [e1]; exact OnlyCore.modCore _ _ _
  clear e1 hv
  have hcore : (v.modCore k fun c => c.modDx fun d =>
        { d with ops := modDxOp (· == o) (fun _ => { o with wr := o.wr + 1, buf := rest }) d.ops }).core k = { (s.core k).modDx fun d =>
        { d with ops := modDxOp (· == o) (fun _ => { o with wr := o.wr + 1, buf := rest }) d.ops } with
      mem := { (s.core k).mem with stock := st }
      ctl := { (s.core k).ctl with twinSum := y } } := by
    rw [State.core_modCore_same, hvc]; rfl
  generalize hv2 : (v.modCore k fun c => c.modDx fun d =>
        { d with ops := modDxOp (· == o) (fun _ => { o with wr := o.wr + 1, buf := rest }) d.ops }) = v2 at *
  have hv2n : v2.now = t := by rw [← hv2]; simp [hvn]
  have hv2o : OnlyCore k s v2 := by rw [← hv2]; exact hvo.trans (OnlyCore.modCore _ _ _)
  clear hv2 hvc hvn hvo
  refine ⟨st, hv2n, ⟨hv2o, y, by rw [hcore]; rfl⟩, fun w => ?_⟩
  · have := w2 w
    have a1 : st.word (8 * w) 8 = _ := congrArg Prod.fst this
    have a2 : st.bad w = _ := congrArg Prod.snd this
    have e3 : (v2.core k).stockWord w = ⟨BitVec.ofNat 64 (st.word (8 * w) 8), st.bad w⟩ := by rw [hcore]; rfl
    have hjl := joinHalves_length l
    rw [e3, a1, a2]
    by_cases c : w / 32 = o.dst + o.wr
    · have hin : 32 * (o.dst + o.wr) ≤ w ∧ w - 32 * (o.dst + o.wr) < (joinHalves l).length := by omega
      rw [dif_pos hin, if_pos c]
      have e4 : w - 32 * (o.dst + o.wr) = w % 32 := by omega
      obtain ⟨x, g1, g2, g3⟩ := joinHalves_spec (l := l) (i := w % 32) hc (by omega)
      have e5 : (joinHalves l)[w - 32 * (o.dst + o.wr)]'hin.2 = x := by
        have : (joinHalves l)[w - 32 * (o.dst + o.wr)]? = some x := by rw [e4]; exact g1
        rw [List.getElem?_eq_getElem hin.2] at this
        exact Option.some.inj this
      rw [e5, ← g3]
      exact congrArg halves (PWord.ofNat_toNat x)
    · have hin : ¬ (32 * (o.dst + o.wr) ≤ w ∧ w - 32 * (o.dst + o.wr) < (joinHalves l).length) := by omega
      rw [dif_neg hin, if_neg c]; rfl

end Sys2Proof.Machine
end

