-- ==== Sys2Proof/Laws/Vx.lean ====
section
/-! SUPPORT. Laws of the vector chain: loads, the issue of a run, what a run has read, its writes. -/

namespace Sys2Proof.Machine

/-- With no line read owed, time passes to a fixed cycle and nothing else comes about. -/
theorem State.toCycle_none {s : State} {k t n : Nat} {f : State → Nat} (hcalm : s.overs = []) (h : (s.core k).heads = []) (hf : ∀ u, f (s.advance u) = t) (hs : f s = t) :
    s.toCycle k f (n + 1) = s.advance t := by
  unfold State.toCycle
  dsimp only
  have h1 : ∀ a b c, (s.advance t).fetchTo k a b c = s.advance t := fun _ _ _ => State.fetchTo_none (by simpa [State.advance_core hcalm] using h)
  simp only [State.fetchBefore, State.fetchUpTo, hs, h1, hf]
  simp

theorem State.fetchBefore_none {s : State} {k t : Nat} (h : (s.core k).heads = []) : s.fetchBefore k t = s := State.fetchTo_none h

theorem Core.engGoes_heads (c : Core) (e : Engine) (i w u : Nat) : (c.engGoes e i w u).heads = c.heads := by cases e <;> rfl

theorem getD_drop {α : Type} (l : List α) (i j : Nat) (d : α) : (l.drop i).getD j d = l.getD (i + j) d := by
  simp [List.getD_eq_getElem?_getD]

theorem getD_append {α : Type} (a b : List α) (j : Nat) (d : α) : (a ++ b).getD j d = if j < a.length then a.getD j d else b.getD (j - a.length) d := by
  simp only [List.getD_eq_getElem?_getD]
  split
  · rename_i h; rw [List.getElem?_append_left h]
  · rename_i h; rw [List.getElem?_append_right (by omega)]

theorem Slot.full_getD (t : Slot) (n j : Nat) (h : j < n) : (t.full n).getD j ⟨0, false⟩ = t.word j := by
  simp [Slot.full, List.getD_eq_getElem?_getD, h]

theorem getD_modAt_same {α : Type} (l : List α) (i : Nat) (f : α → α) (d : α) (h : i < l.length) : (modAt l i f).getD i d = f (l.getD i d) := by
  induction l generalizing i with
  | nil => simp at h
  | cons x r ih =>
    cases i with
    | zero => simp [modAt]
    | succ n =>
      have := ih n (by simpa using h)
      simp only [modAt, List.getElem?_cons_succ] at this ⊢
      cases hr : r[n]? with
      | none => simp only [hr] at this ⊢; simpa using this
      | some y => simp only [hr] at this ⊢; simpa using this

theorem Vx.load_word (v : Vx) (x : TabOp) (j : Nat) (h1 : x.slot < (if x.tab then v.tab else v.cfg).length)
    (h2 : x.words.length ≤ (if x.tab then 128 else 64)) (h3 : j < (if x.tab then 128 else 64)) :
    ((if x.tab then (v.load x).tab else (v.load x).cfg).getD x.slot {}).word j =
      if j < x.words.length then x.words.getD j ⟨0, false⟩ else ((if x.tab then v.tab else v.cfg).getD x.slot {}).word j := by
  cases ht : x.tab <;> simp only [ht, Bool.false_eq_true, if_false, if_true] at h1 h2 h3 ⊢ <;>
    simp only [Vx.load, ht, Bool.false_eq_true, if_false, if_true] <;>
    rw [getD_modAt_same _ _ _ _ h1, Slot.word, getD_append] <;> split <;> try rfl
  all_goals
    rw [getD_drop, show x.words.length + (j - x.words.length) = j by omega, Slot.full_getD _ _ _ h3]

theorem State.vrun_goes {s : State} {k i w u f : Nat} {o : VrunOp} (hcalm : s.overs = []) (hn : s.now ≤ u) (hq : (s.core k).heads = []) (hl : (s.core k).vx.loads = [])
    (h50 : w.testBit 50 = false) (h51 : w.testBit 51 = false) (ho : o = (s.core k).vrunOp w u (owedOf w i))
    (hc : o.cfgPoison = false → cfgBad o.cfg o.src o.sslot o.oslot = none) (hr : o.cfgPoison = false → (s.core k).vrunRefusal u o = none)
    (hf : f = (s.core k).vrunFirst s.ctEV u o) :
    ((s.advance u).modCore k fun c => c.engGoes .vx i w u).issueVrun k w (owedOf w i) false =
      (s.advance u).modCore k fun c => (c.engGoes .vx i w u).vrunGoes s.ctEV f o := by
  have hm : max s.now u = u := by omega
  obtain ⟨t, ht⟩ : ∃ t, t = (s.advance u).modCore k fun c => c.engGoes .vx i w u := ⟨_, rfl⟩
  have tn : t.now = u := by rw [ht]; simp [hm]
  have te : t.ctEV = s.ctEV := by rw [ht]; exact State.advance_ctEV s u
  have tc : t.core k = (s.core k).engGoes .vx i w u := by rw [ht]; simp [State.advance_core hcalm]
  have tv : (t.core k).vx = (s.core k).vx := by rw [tc]; rfl
  rw [← ht]
  unfold State.issueVrun
  rw [State.fetchBefore_none (by rw [tc, Core.engGoes_heads]; exact hq)]
  have e50 : vrSbin w = false := by rw [vrSbin, bit]; exact h50
  have e51 : vrObin w = false := by rw [vrObin, bit]; exact h51
  have hst : (t.core k).staged (vrCslot w) = (((s.core k).vx.cfg.getD (w % 8) {}).full 64, none) := by
    unfold Core.staged
    rw [tv, hl]
    simp [vrCslot, bits]
  extract_lets s' st cfg op code late x s'' op2 c f' op3 op4 exit tail
  have hst' : st = (((s.core k).vx.cfg.getD (w % 8) {}).full 64, none) := hst
  have hop : op = o := by
    simp only [op, cfg, hst', s', tn, e50, e51]
    rw [ho]
    simp [Core.vrunOp, vrCslot, vrSrc, vrBank, vrRow, vrSline, vrSslot, vrOline, vrOslot, vrCount, bits, binRef, after]
  have hcfg : cfg = o.cfg := by rw [← hop]
  have osb : o.sbin = none := by rw [ho]; rfl
  have oob : o.obin = none := by rw [ho]; rfl
  have ost : o.oslotTaken = none := by rw [ho]; rfl
  have olate : o.late = false := by rw [ho]; rfl
  have ocode : o.code = none := by rw [ho]; rfl
  have oref : o.refused = false := by rw [ho]; rfl
  have oow : o.owed = owedOf w i := by rw [ho]; rfl
  have ock : o.check = u := by rw [ho]; rfl
  clear_value op cfg
  subst hop
  have hcode : code = none := by
    show s'.vrunCheck k op (vrSbin w && vrSrc w == fmtAcc) = none
    unfold State.vrunCheck
    rw [e50]
    simp only [Bool.false_and, Bool.false_eq_true, if_false]
    cases hp : op.cfgPoison with
    | true => rfl
    | false =>
      have h2 : (s'.core k).vrunRefusal s'.now op = none := by
        have : (t.core k).vrunRefusal t.now op = none := by rw [tc, tn]; exact hr hp
        exact this
      rw [hc hp, h2]; rfl
  have hlate : late = false := by simp [late, ock, s', tn]
  have hx : x = (owedOf w i, t) := by
    simp only [x, hlate, hcode, Bool.false_eq_true, if_false]; rfl
  have hs : s'' = t := by simp only [s'', hx]
  have hop2 : op2 = op := by
    simp only [op2, hx, hlate, hcode]
    cases op; simp_all
  have hs' : s' = t := rfl
  clear_value s'' op2
  subst hs hop2
  have hcc : c = s''.core k := rfl
  have hf' : f' = f := by
    have hsl : c.srcLine s''.now op2 = op2.sline := by unfold Core.srcLine; rw [osb]
    show s''.firstEntry k op2 (c.srcLine s''.now op2) = f
    rw [hsl, hf]
    unfold State.firstEntry Core.vrunFirst
    simp only [tv, tn, te]
    have hlb : Vx.loadBound (s.core k).vx op2 = 0 := by unfold Vx.loadBound; rw [hl]; rfl
    rw [hlb]
    all_goals simp only [Nat.max_zero]
    all_goals cases readPush op2 op2.sline <;> first | rfl | simp only [Nat.max_assoc]
  have hop4 : op4 = { op3 with fetch := op3.reads op3.sline } := by
    have hsl : c.srcLine s''.now op3 = op3.sline := by unfold Core.srcLine; rw [show op3.sbin = none from osb]
    simp only [op4, hsl]
  have htail : tail = lastTailOf op4 op4.oline c.vx.lastTail := by
    have hsl : c.outLine s''.now op4 = op4.oline := by
      unfold Core.outLine; rw [show op4.obin = none from oob, show op4.oslotTaken = none from ost]
    simp only [tail, hsl]
  rw [if_neg (by rw [oref]; decide), htail, hcc, tv, te]
  simp only [exit, hcfg, State.setReady, State.modStream, State.modCore_modCore, hop4, op3, hf']
  rw [ht, State.modCore_modCore]
  refine State.modCore_congr ?_
  rw [State.advance_core hcalm]
  rfl

theorem State.vxLine_got {s : State} {k : Nat} {o : VrunOp} {what : LineUse} {line : Int} {ws : List (PWord 32)}
    (h : gotLine o.got what line = some ws) : s.vxLine k o what line = (ws, s) := by unfold State.vxLine; rw [h]

theorem State.vxVector_held {s : State} {k : Nat} {o : VrunOp} {what : LineUse} {f line slot j : Nat} {ws : List (PWord 32)}
    (h : o.held what f line slot j = some ws) : s.vxVector k o what f line slot j = (ws, s) := by
  unfold VrunOp.held at h
  unfold State.vxVector
  dsimp only at h ⊢
  split at h
  · rename_i hf
    rw [if_pos hf]
    split at h
    · rename_i a b ha hb
      rw [State.vxLine_got ha]
      dsimp only
      rw [State.vxLine_got hb]
      simp at h; simp [h]
    · simp at h
  · rename_i hf
    rw [if_neg hf]
    cases hg : gotLine o.got what ((line + vecLine f slot j : Nat) : Int) with
    | none => rw [hg] at h; simp at h
    | some a =>
      rw [hg] at h
      rw [State.vxLine_got hg]
      simp at h; simp [h]

/-- Words without poison of one write port, for any engine. -/
theorem zipIdx_places {ws : List (PWord 32)} {p : Nat} (h : ws ≠ []) :
    ((ws.zipIdx.map fun y => (p + y.2, y.1)).head?.map (·.1)).getD 0 = p ∧ (ws.zipIdx.map fun y => (p + y.2, y.1)).map (·.2) = ws := by
  constructor
  · cases ws with
    | nil => simp at h
    | cons x r => simp
  · rw [List.map_map]
    have : ((fun y : Nat × PWord 32 => y.2) ∘ fun y : PWord 32 × Nat => (p + y.2, y.1)) = Prod.fst := rfl
    rw [this, List.zipIdx_map_fst]

end Sys2Proof.Machine
end

