-- ==== Sys2Proof/Laws/Nx.lean ====
section
/-! SUPPORT. Laws of the network engine: issue, what a handle names, the end of an operation, waits. -/

namespace Sys2Proof.Machine

theorem State.issueNx_goes {t : State} {k : Nat} {o0 o : NxOp} {h : Handle} {now : Bool} (hq : (t.core k).heads = [])
    (hu : (t.core k).usable o0.handle o0.fits = some h) (hr : (t.core k).nxRefusal t.now { o0 with issue := t.now } = none)
    (ho : o = { o0 with issue := t.now, since := t.now + t.ctENX, mseq := if o0.kind = .wait then 0 else h.mseq })
    (h0 : o0.silent = false) (h1 : o0.ponly = false) (h2 : o0.fetch = []) (h3 : o0.words = []) (h4 : o0.sent = 0) (h5 : o0.slip = 0) (h8 : o0.acc = true → o0.kind = .put)
    (hops : o.kind = .put ∨ o.kind = .ring ∨ o.kind = .wait → (t.core k).nx.ops = [])
    (hfl : t.inFlow k { o0 with issue := t.now } = { o0 with issue := t.now }) (h9 : o0.spoils = false) (hcnt : 0 < o0.count ∨ o0.kind = .wait) (hun : o.kind = .tup → ∀ x ∈ (t.core k).nx.ops, x.issue ≠ t.now)
    (hnow : now = (t.modCore k fun c => c.nxStands o h).canLeave k o) :
    t.issueNx k o0 false none = t.modCore k fun c => c.nxGoes o h (o.schedule t.ctENX t.now now) := by
  have hcl : o0.kind = .req → o0.kind ≠ .tup := by intro h; rw [h]; decide
  unfold State.issueNx
  extract_lets x sk s1 o1 code s2 refused ponly silent m spoils op s3 reads s4
  have hx : x = (o0.owed, t) := rfl
  have hsk : sk = false := rfl
  have hs1 : s1 = t := rfl
  have ho1 : o1 = { o0 with issue := t.now } := hfl
  clear_value x sk s1 o1
  subst hx hsk hs1
  have hcode : code = none := by simp only [code, ho1, hr]; rfl
  have hs2 : s2 = s1 := by simp only [s2, hcode]
  have href : refused = false := by simp only [refused, hcode]; rfl
  have hpon : ponly = false := by simp only [ponly, href]; rfl
  have hsil : silent = false := by simp only [silent, href]; rfl
  have hm : m = (if o0.kind = .wait then 0 else h.mseq, if o0.kind = .wait then s1 else s1.modHandle k (hIndex o0.handle) fun e => e.numbered o0) := by
    simp only [m, hsil, Bool.false_eq_true, if_false, hs2]
    unfold State.numberNx
    rw [show (s1.core k).usable o1.handle o1.fits = some h by rw [ho1]; exact hu]
    dsimp only
    by_cases hw : o0.kind = .wait
    · simp [hw, ho1]
    · simp [hw, ho1, Handle.numbered]
  have hspo : spoils = false := by simp only [spoils, href]; rfl
  have hop : op = o := by
    simp only [op, hm, hsil, hpon, hspo, hs2, ho1, ho]
    cases o0; simp_all
  have hhd : (s1.core k).handle (hIndex o0.handle) = h := by
    unfold Core.usable at hu
    dsimp only at hu
    split at hu
    · simpa using hu
    · simp at hu
  clear_value op s2
  subst hop hs2
  have ek : op.kind = o0.kind := by rw [ho]
  have eh : op.handle = o0.handle := by rw [ho]
  have e0 : op.silent = false := by rw [ho]; exact h0
  have e1 : op.ponly = false := by rw [ho]; exact h1
  have e4 : op.sent = 0 := by rw [ho]; exact h4
  have eb : op.begun = false := by rw [ho]; simp [NxOp.begun, h2, h3]
  have hs3 : s3 = s2.modCore k fun c => (if op.kind = .wait then c else c.setHandle (op.handle % 4096) (h.numbered op)).modNx fun n => { n with ops := n.ops ++ [op] } := by
    simp only [s3, hm, href, Bool.false_eq_true, if_false]
    have hnum : h.numbered o0 = h.numbered op := by rw [ho]; rfl
    by_cases hw : o0.kind = .wait
    · simp [hw, ek]
    · rw [ek]
      simp only [hw, if_false, State.modHandle, State.modCore_modCore]
      refine State.modCore_congr ?_
      rw [eh, ← hnum, hhd]; rfl
  clear_value s3
  have ofetch : op.fetch = [] := by rw [ho]; exact h2
  have oself : ({ op with fetch := [] } : NxOp) = op := by cases op; simp_all
  have hrd : reads = (op.kind == .tup) := by simp only [reads, href]; rfl
  have oissue : op.issue = s2.now := by rw [ho]
  have osince : op.since = s2.now + s2.ctENX := by rw [ho]
  have owords : op.words = [] := by rw [ho]; exact h3
  have oslip : op.slip = 0 := by rw [ho]; exact h5
  have hkind : (h.state == .opened && h.gen == hGen o0.handle && o0.fits h.kind) = true := by
    unfold Core.usable at hu
    rw [hhd] at hu
    dsimp only at hu
    split at hu
    · assumption
    · simp at hu
  simp only [Bool.and_eq_true] at hkind
  have leave : op.kind = .put ∨ op.kind = .ring → s3.canLeave k op = now := by
    intro _
    rw [hnow, hs3]; rfl
  have goes : ∀ (f : List LineRead) (r : Option Nat), op.schedule s2.ctENX s2.now now = (f, r) →
      (s2.modCore k fun c => c.nxGoes op h (op.schedule s2.ctENX s2.now now)) = s2.modCore k fun c =>
        match r with
        | some r => ((if op.kind = .wait then c else c.setHandle (op.handle % 4096) (h.numbered op)).modNx fun n => { n with ops := n.ops ++ [{ op with fetch := f }] }).modStream .nx fun t => { t with ready := r }
        | none => ((if op.kind = .wait then c else c.setHandle (op.handle % 4096) (h.numbered op)).modNx fun n => { n with ops := n.ops ++ [{ op with fetch := f }] }) := by
    intro f r hf
    rw [hf]; cases r <;> rfl
  have ops1 : (op.kind = .put ∨ op.kind = .ring ∨ op.kind = .wait) → (s3.core k).nx.ops = [op] := by
    intro h
    rw [hs3, State.core_modCore_same]
    have := hops h
    split <;> simp [Core.modNx, this, Core.setHandle, Core.modChan]
  have sends : op.kind = .put ∨ op.kind = .ring → s3.startReads k = s2.modCore k fun c => c.nxGoes op h (op.schedule s2.ctENX s2.now now) := by
    intro hpr
    have hl := leave hpr
    have ho1 := ops1 (by rcases hpr with h | h <;> simp [h])
    have hpb : (op.kind == .put || op.kind == .ring) = true := by rcases hpr with h | h <;> rw [h] <;> rfl
    have hun : op.unsent = true := by
      unfold NxOp.unsent
      rw [e0, e4]
      rcases hpr with h | h
      · have hc : 0 < op.count := by
          rcases hcnt with hc | hc
          · rw [ho]; exact hc
          · rw [ek, hc] at h; simp at h
        have : 0 < op.packets := by
          unfold NxOp.packets; rw [h]; dsimp only; unfold ceilDiv NxOp.per
          split
          · exact Nat.div_pos (by omega) (by omega)
          · exact Nat.div_pos (by omega) (by omega)
        simp [h, this]
      · have : op.packets = 1 := by unfold NxOp.packets; rw [h]
        simp [h, this]
    have hbg : s3.beginNx k [] (s3.core k).nx.ops = if now then some op else none := by
      rw [ho1]
      unfold State.beginNx
      rw [hpb, e1, hun, eb, hl]
      cases now <;> simp [State.beginNx]
    unfold State.startReads
    rw [hbg]
    cases hnw : now with
    | false =>
      have hsc : op.schedule s2.ctENX s2.now false = ([], none) := by
        unfold NxOp.schedule; rcases hpr with h | h <;> rw [h] <;> rfl
      rw [hnw] at goes
      rw [goes _ _ hsc]
      simp only [Bool.false_eq_true, if_false]
      rw [hs3, oself]
    | true =>
      have hsc : op.schedule s2.ctENX s2.now true = (nxReads (s2.now + s2.ctENX) (if op.bin.isSome then 0 else op.line) (if op.kind = .put then op.linesAt 0 else op.count),
          if op.packets = 1 then some (s2.now + s2.ctENX + (if op.kind = .put then op.linesAt 0 else op.count)) else none) := by
        unfold NxOp.schedule
        rcases hpr with h | h <;> simp only [h] <;> rfl
      rw [hnw] at goes
      rw [goes _ _ hsc]
      simp only [if_true]
      unfold State.beginReads
      extract_lets tt nn base s5
      have ht : tt = s2.now + s2.ctENX := by
        have : s3.ctENX = s2.ctENX := by rw [hs3]; rfl
        have h2 : s3.now = s2.now := by rw [hs3]; rfl
        simp only [tt, this, h2, oissue, osince, oslip]; omega
      have hn2 : nn = if op.kind = .put then op.linesAt 0 else op.count := by
        simp only [nn, e4]
        rcases hpr with h | h <;> rw [h] <;> rfl
      have hbase : base = if op.bin.isSome then 0 else op.line := by
        have hsl : op.srcLine = op.line := by unfold NxOp.srcLine; rcases hpr with h | h <;> rw [h] <;> rfl
        simp only [base, hsl, e4]
        rcases hpr with h | h <;> simp [h]
      have hput : s5 = s3.modCore k fun c => c.modNx fun n => { n with ops := [{ op with fetch := nxReads tt base nn }] } := by
        have : ({ op with fetch := nxReads tt base nn, words := [] } : NxOp) = { op with fetch := nxReads tt base nn } := by rw [← owords]
        simp only [s5, this]
        refine State.modCore_congr ?_
        simp [Core.modNx, ho1]
      have hw : ¬ op.kind = .wait := by rcases hpr with h | h <;> rw [h] <;> decide
      rw [hput, e4, ht, hn2, hbase]
      have hone : (0 + 1 = op.packets) = (op.packets = 1) := by rw [Nat.zero_add]; exact propext eq_comm
      have hops' := hops (by rcases hpr with h | h <;> simp [h])
      rw [hs3]
      simp only [hone, State.setReady, State.modStream, State.modCore_modCore, if_neg hw]
      split
      · refine State.modCore_congr ?_
        simp [Core.modNx, Core.setHandle, Core.modChan, hops', Core.modStream, Core.setStream, Core.stream]
      · refine State.modCore_congr ?_
        simp [Core.modNx, Core.setHandle, Core.modChan, hops']
  cases hk : op.kind with
  | tup =>
    have hh : op.holds = false := by unfold NxOp.holds; rw [hk]; simp
    have hb : (op.kind == .tup) = true := by rw [hk]; rfl
    have hw : ¬ op.kind = .wait := by rw [hk]; decide
    have hsc : op.schedule s2.ctENX s2.now now = (nxReads (s2.now + s2.ctENX) op.srcLine op.srcLines, some (s2.now + s2.ctENX + op.srcLines)) := by
      unfold NxOp.schedule; rw [hk]
    have n3 : s3.now = s2.now := by rw [hs3]; rfl
    have c3 : s3.ctENX = s2.ctENX := by rw [hs3]; rfl
    rw [goes _ _ hsc]
    have hun' := hun hk
    have hmap : ((s2.core k).nx.ops ++ [op]).map (fun x => if x.issue == ({ op with fetch := nxReads (s2.now + s2.ctENX) op.srcLine op.srcLines } : NxOp).issue then ({ op with fetch := nxReads (s2.now + s2.ctENX) op.srcLine op.srcLines } : NxOp) else x) = (s2.core k).nx.ops ++ [{ op with fetch := nxReads (s2.now + s2.ctENX) op.srcLine op.srcLines }] := by
      rw [List.map_append]
      congr 1
      · conv_rhs => rw [← List.map_id (s2.core k).nx.ops]
        refine List.map_congr_left fun x hx => ?_
        have := hun' x hx
        rw [← oissue] at this
        simp [this]
      · simp
    have h4s : s4 = s2.modCore k fun c => (c.setHandle (op.handle % 4096) (h.numbered op)).modNx fun n => { n with ops := n.ops ++ [{ op with fetch := nxReads (s2.now + s2.ctENX) op.srcLine op.srcLines }] } := by
      simp only [s4, hrd, hb, if_true, n3, c3]
      rw [hs3]
      simp only [State.putNx, State.modCore_modCore, if_neg hw]
      refine State.modCore_congr ?_
      simp only [Core.modNx, Core.setHandle, Core.modChan] at hmap ⊢
      rw [hmap]
    rw [hh, hrd, hb, h4s]
    simp only [Bool.false_eq_true, if_false, if_true, State.setReady, State.modStream, State.modCore_modCore, if_neg hw]
    refine State.modCore_congr ?_
    rfl
  | req =>
    have hh : op.holds = false := by unfold NxOp.holds; rw [hk]; simp
    have hb : (op.kind == .tup) = false := by rw [hk]; rfl
    have hw : ¬ op.kind = .wait := by rw [hk]; decide
    have hsc : op.schedule s2.ctENX s2.now now = ([], some (s2.now + 1)) := by
      unfold NxOp.schedule; rw [hk]
    have h4s : s4 = s3 := by simp only [s4, hrd, hb]; rfl
    rw [goes _ _ hsc, hh, hrd, hb, h4s, hs3]
    simp only [Bool.false_eq_true, if_false, State.setReady, State.modStream, State.modCore_modCore, if_neg hw, oself]
    refine State.modCore_congr ?_
    rfl
  | wait =>
    have hh : op.holds = true := by unfold NxOp.holds; rw [hk, e0, e1]; rfl
    have hb : (op.kind == .tup) = false := by rw [hk]; rfl
    have hsc : op.schedule s2.ctENX s2.now now = ([], none) := by
      unfold NxOp.schedule; rw [hk]
    have h4s : s4 = s3 := by simp only [s4, hrd, hb]; rfl
    have hops' := ops1 (.inr (.inr hk))
    have : s3.beginNx k [] (s3.core k).nx.ops = none := by rw [hops']; simp [State.beginNx, hk]
    rw [goes _ _ hsc, hh, if_pos rfl, h4s]
    unfold State.startReads
    rw [this]
    dsimp only
    rw [hs3, oself]
  | put =>
    have hh : op.holds = true := by
      have hc : 0 < op.count := by
        rcases hcnt with hc | hc
        · rw [ho]; exact hc
        · rw [ek, hc] at hk; simp at hk
      have hp : 0 < op.packets := by
        unfold NxOp.packets; rw [hk]; dsimp only; unfold ceilDiv NxOp.per
        split
        · exact Nat.div_pos (by omega) (by omega)
        · exact Nat.div_pos (by omega) (by omega)
      unfold NxOp.holds
      rw [e0, e1, e4, eb, hk]
      by_cases h1 : op.packets = 1
      · simp [h1]
      · have : 1 < op.packets := by omega
        simp [this]
    have h4s : s4 = s3 := by simp only [s4, hrd, hk]; rfl
    rw [hh, if_pos rfl, h4s]
    exact sends (.inl hk)
  | ring =>
    have hh : op.holds = true := by
      unfold NxOp.holds
      have : op.packets = 1 := by unfold NxOp.packets; rw [hk]
      rw [e0, e1, e4, eb, hk, this]; rfl
    have h4s : s4 = s3 := by simp only [s4, hrd, hk]; rfl
    rw [hh, if_pos rfl, h4s]
    exact sends (.inr hk)

theorem NxAlone.fetch {s : State} {k : Nat} {o : NxOp} (h : NxAlone s k o) : o.fetch = [] := by
  have := h.reads
  unfold Core.heads at this
  rw [h.ops] at this
  simp only [List.append_eq_nil_iff] at this
  have h2 := this.2
  cases hf : o.fetch with
  | nil => rfl
  | cons a r => simp [hf] at h2

theorem Core.usable_sender {c : Core} {v : Nat} {h : Handle} (hu : c.usable v isSender = some h) : c.sender v = some h := by
  unfold Core.sender; rw [hu]

theorem Core.usable_handle {c : Core} {v : Nat} {p : Nat → Bool} {h : Handle} (hu : c.usable v p = some h) : c.handle (v % 4096) = h := by
  unfold Core.usable at hu
  dsimp only at hu
  split at hu
  · simpa [hIndex] using hu
  · simp at hu

theorem Core.handle_setHandle (c : Core) (i j : Nat) (h : Handle) : (c.setHandle i h).handle j = if j = i then h else c.handle j := by
  unfold Core.handle Core.setHandle Core.modChan
  by_cases e : j = i
  · subst e; simp [keyGet_keyPut_same]
  · simp [e, keyGet_keyPut_other _ _ _ _ e]

theorem State.lastRead_alone {s : State} {k u : Nat} {o : NxOp} (ho : (s.core k).nx.ops = [o]) (hf : o.fetch = []) : s.lastRead k u = 0 := by
  unfold State.lastRead
  rw [ho]
  by_cases h : o.issue = u
  · simp [h, hf]
  · simp [h]

/-- An operation that is alone and whose end saturates no counter leaves. -/
theorem State.finishNx_alone {s : State} {k : Nat} {f : Core → Core} {o o' : NxOp} (ho : (f (s.core k)).nx.ops = [o']) (hi : o'.issue = o.issue) (hb : o.bin = none)
    (he : o.owed.ends = []) (hr : (f (s.core k)).sync.roomFor s.now o.owed = true) :
    (s.modCore k f).finishNx k o = s.modCore k fun c => ((f c).modNx fun n => { n with ops := [] }).completed s.now o.owed := by
  unfold State.finishNx
  extract_lets full s1 s2
  have hfull : full = false := by simp only [full]; rw [State.core_modCore_same, ho]; rfl
  have h2 : s2 = s1 := by simp only [s2, hfull]; rfl
  have h1 : s1 = s.modCore k fun c => (f c).modNx fun n => { n with ops := [] } := by
    simp only [s1, State.modCore_modCore]
    refine State.modCore_congr ?_
    simp [Core.modNx, ho, hi]
  rw [h2, h1, hb]
  simp only [State.binDone]
  rw [State.complete_eq he (by simpa [Core.modNx] using hr)]

theorem State.startReads_none {s : State} {k : Nat} (h : (s.core k).nx.ops = []) : s.startReads k = s := by
  unfold State.startReads; rw [h]; rfl

theorem State.injectAs_eq (s : State) (t : Transit) : s.injectAs t =
    { s with mesh := { s.mesh with items := s.mesh.items ++ [t] }, bar := (s.noteInj t.pkt).bar } := by
  unfold State.injectAs State.noteInj
  split <;> rfl

theorem State.inject_eq (s : State) (src : Place) (p : Packet) : s.inject src p =
    { s with mesh := { s.mesh with items := s.mesh.items ++ [{ pkt := p, src := src }] }, bar := (s.noteInj p).bar } :=
  s.injectAs_eq _

/-- A packet that the barrier does not count leaves its place. -/
theorem State.inject_free (s : State) (src : Place) {p : Packet} (h : p.counted = false) : s.inject src p =
    { s with mesh := { s.mesh with items := s.mesh.items ++ [{ pkt := p, src := src }] } } := by
  unfold State.inject State.injectAs State.noteInj
  dsimp only
  rw [h]; rfl

/-- The end of a wait of SX that owes its stream nothing and whose signal saturates no counter. -/
theorem State.endWait_plain {s : State} {k : Nat} {x : SxWait} (he : x.ends = []) (h : (s.core k).sync.room x.sig = true) :
    s.endWait k x = s.modCore k fun c =>
      { c with
        sx := { c.sx with wait := none }
        sync := c.sync.signalled s.now x.sig
        sxs := { c.sxs with ready := s.now + 1, state := if c.sxs.state = .waitArr then .run else c.sxs.state } } := by
  unfold State.endWait
  dsimp only
  simp only [State.modStream, State.setReady, State.modCore_modCore, State.modCore_now]
  rw [he, State.complete_eq rfl (by
    simp [Sync.roomFor, Core.modSx, Core.modStream, Core.setStream, h]; cases x.sig <;> rfl)]
  refine State.modCore_congr ?_
  simp only [Core.completed, Core.modSx, Core.modStream, Core.setStream, Core.stream, Sync.signalled]
  split <;> simp_all

theorem State.endNwait_alone {y : State} {k : Nat} {o : NxOp} (h1 : (y.core k).nx.ops = [o]) (hb : o.bin = none) (he : o.owed.ends = [])
    (hr : (y.core k).sync.roomFor y.now o.owed = true) : y.endNwait k o = y.modCore k fun c =>
      ((c.modStream .nx fun t => { t with state := .run, ready := y.now + 1 }).modNx fun n => { n with ops := [] }).completed y.now o.owed := by
  unfold State.endNwait
  have : (y.modStream k .nx fun t => { t with state := .run }).setReady k .nx (y.now + 1) =
      y.modCore k fun c => c.modStream .nx fun t => { t with state := .run, ready := y.now + 1 } := by
    simp only [State.setReady, State.modStream, State.modCore_modCore]
    refine State.modCore_congr ?_
    simp [Core.modStream, Core.stream, Core.setStream]
  rw [this, State.finishNx_alone (o' := o) (by simpa [Core.modStream, Core.setStream] using h1) rfl hb he (by simpa [Core.modStream, Core.setStream] using hr)]

theorem Recorded.modCore {s t : State} {c k : Nat} {f : Core → Core} (h : Recorded s t c) : Recorded s (t.modCore k f) c := h

end Sys2Proof.Machine
end

