-- ==== Sys2Proof/Laws/Chan.lean ====
section
/-! SUPPORT. Laws of the channels: arrivals, the words they place, status words, replies and credit. -/

namespace Sys2Proof.Machine

/-- Lines without poison are written one after another. -/
theorem State.writeLines_clean {k : Nat} {ls : List (List (PWord 32))} : ∀ {s : State} {line : Nat},
    (s.core k).heads = [] → (∀ l ∈ ls, l.length = 64 ∧ ∀ x ∈ l, x.poison = false) → Memory.wf (s.core k).mem.scr.cells = true →
    ∃ y scr, (ls = [] ∧ s.writeLines k false line ls = s ∨ s.writeLines k false line ls = s.modCore k fun c =>
      { c with mem := { c.mem with scr := scr }, ctl := { c.ctl with twinSum := y } }) ∧ Memory.wf scr.cells = true ∧
      (ls = [] → scr = (s.core k).mem.scr) ∧
      ∀ w, (⟨BitVec.ofNat 32 (scr.word (4 * w) 4), scr.bad w⟩ : PWord 32) =
        if 64 * line ≤ w ∧ w < 64 * (line + ls.length) then (ls.getD (w / 64 - line) []).getD (w % 64) ⟨0, false⟩
        else (s.core k).scrWord w := by
  induction ls with
  | nil =>
    intro s line hq _ hwf
    refine ⟨0, (s.core k).mem.scr, .inl ⟨rfl, rfl⟩, hwf, fun _ => rfl, fun w => ?_⟩
    rw [if_neg (by simp)]; rfl
  | cons l r ih =>
    intro s line hq hl hwf
    obtain ⟨y1, e1⟩ := State.putWords_clean (s := s) (k := k) (eng := svc) (w := 64 * line) hq (hl l (by simp)).2
    obtain ⟨w1, w2⟩ := scr_putScrWords (ws := l) (st := (s.core k).mem.scr) (w := 64 * line) hwf
    have hc : (s.putWords k (svc) (64 * line) l).core k = { s.core k with
        mem := { (s.core k).mem with scr := putScrWords (s.core k).mem.scr (64 * line) l }, ctl := { (s.core k).ctl with twinSum := y1 } } := by
      rw [e1]; simp
    obtain ⟨y2, scr, h1, h2, h3, h4⟩ := ih (s := s.putWords k (svc) (64 * line) l) (line := line + 1)
      (by rw [hc]; exact hq) (fun l' hl' => hl l' (by simp [hl'])) (by rw [hc]; exact w1)
    have hlen := (hl l (by simp)).1
    refine ⟨if r = [] then y1 else y2, scr, .inr ?_, h2, fun h => by simp at h, fun w => ?_⟩
    · rw [State.writeLines, if_neg (by decide)]
      rcases h1 with ⟨hr, h1⟩ | h1
      · rw [h1, e1]
        refine State.modCore_congr ?_
        rw [h3 hr, hc, if_pos hr]
      · by_cases hr : r = []
        · subst hr
          rw [State.writeLines, e1]
          refine State.modCore_congr ?_
          rw [h3 rfl, hc]
          simp
        · rw [h1, e1, State.modCore_modCore, if_neg hr]
    · rw [h4 w]
      have e2 : ((s.putWords k (svc) (64 * line) l).core k).scrWord w = if h : 64 * line ≤ w ∧ w - 64 * line < l.length then l[w - 64 * line]'h.2 else (s.core k).scrWord w := by
        rw [hc]
        have := w2 w
        have a1 : (putScrWords (s.core k).mem.scr (64 * line) l).word (4 * w) 4 = _ := congrArg Prod.fst this
        have a2 : (putScrWords (s.core k).mem.scr (64 * line) l).bad w = _ := congrArg Prod.snd this
        simp only [Core.scrWord, a1, a2]
        split
        · simp
        · rfl
      by_cases c1 : 64 * (line + 1) ≤ w ∧ w < 64 * (line + 1 + r.length)
      · have c2 : 64 * line ≤ w ∧ w < 64 * (line + (l :: r).length) := by simp; omega
        rw [if_pos c1, if_pos c2]
        have : w / 64 - line = w / 64 - (line + 1) + 1 := by omega
        rw [this]; rfl
      · rw [if_neg c1, e2]
        by_cases c3 : 64 * line ≤ w ∧ w - 64 * line < l.length
        · have c2 : 64 * line ≤ w ∧ w < 64 * (line + (l :: r).length) := by simp; omega
          have e3 : w / 64 - line = 0 := by omega
          have e4 : w % 64 = w - 64 * line := by omega
          rw [dif_pos c3, if_pos c2, e3, e4]
          simp [c3.2]
        · have c2 : ¬ (64 * line ≤ w ∧ w < 64 * (line + (l :: r).length)) := by simp; omega
          rw [dif_neg c3, if_neg c2]

theorem PacketEnds.of {s t u : State} {i k : Nat} {p : Packet} (h : OnlyCore k (s.dropItem i) t) (hn : t.now = s.now) (hu : u = t.noteSink p) :
    PacketEnds s u i k p := by
  obtain ⟨h1, h2⟩ := h
  subst hu
  refine ⟨?_, ?_⟩
  · rw [h1, hn]
    unfold State.noteSink
    split <;> rfl
  · intro j hj
    have : (t.noteSink p).core j = t.core j := by unfold State.noteSink; split <;> rfl
    rw [this, h2 j hj]; rfl

theorem State.noteSink_core (s : State) (p : Packet) (j : Nat) : (s.noteSink p).core j = s.core j := by
  unfold State.noteSink; split <;> rfl

theorem arrival_core {s : State} {i k : Nat} {p : Packet} {want : Nat → Bool} {core : Nat → Packet → State → State}
    {hub : Packet → State → State} (hi : Stands s i (.core k) p)
    (hd : s.bar.due < s.now) (hg : s.group (groupOf k) = .on) (ha : (s.core k).ctl.attached = true) (ht : s.bar.takes = true) (hw : want p.chan.op = true) :
    s.arrival i want core hub = (core k p (s.dropItem i)).noteSink p := by
  obtain ⟨t, h1, h2, h3, h4, h5, h6⟩ := hi
  unfold State.arrival
  rw [h1]
  dsimp only
  rw [h4, h2, hw, h5, h3, State.advance_past h6]
  dsimp only
  unfold State.deliverCore
  rw [hg, h2, State.advance_past (by omega : s.bar.due + 1 ≤ s.now)]
  simp [ha, ht]

theorem State.judge_dropItem (s : State) (i k : Nat) (p : Packet) : (s.dropItem i).judge k p = s.judge k p := rfl

theorem Handle.touch_eq (h : Handle) (t : Nat) : h.touch t =
    { h with changedAt := (h.touch t).changedAt, was := (h.touch t).was } := by
  unfold Handle.touch; split <;> rfl

@[simp] theorem Handle.touch_ctrl (h : Handle) (t : Nat) : (h.touch t).ctrl = h.ctrl := by rw [Handle.touch_eq]
@[simp] theorem Handle.touch_flags (h : Handle) (t : Nat) : (h.touch t).flags = h.flags := by rw [Handle.touch_eq]
@[simp] theorem Handle.touch_count (h : Handle) (t : Nat) : (h.touch t).count = h.count := by rw [Handle.touch_eq]
@[simp] theorem Handle.touch_slots (h : Handle) (t : Nat) : (h.touch t).slots = h.slots := by rw [Handle.touch_eq]

/-- The status word after a message, written in the control line. -/
theorem State.postStatus_plain {s : State} {k i m : Nat} {h : Handle} (hq : (s.core k).heads = []) (hh : (s.core k).handle i = h)
    (ho : h.state ≠ .closed) (hk : kindStatus h.kind = true) :
    s.postStatus k i (some m) 0 = s.modCore k fun c =>
      let e := { h.touch s.now with count := h.count + 1, seq := s.seqOf h m }
      (c.setHandle i e).modMem fun x => { x with scr := putScrWords x.scr (64 * h.ctrl) e.statusWords } := by
  unfold State.postStatus
  have h0 : (h.state == .closed) = false := by simpa using ho
  dsimp only
  rw [hh, h0, hk]
  simp only [Bool.not_true, Bool.or_self, Bool.false_eq_true, if_false]
  unfold State.writeStatus
  dsimp only
  have hf : Nat.lor (h.touch s.now).flags 0 = (h.touch s.now).flags := Nat.or_zero _
  rw [State.storeWords_clean (by rw [State.core_modCore_same]; exact hq) (by
    intro x hx; simp [Handle.statusWords] at hx; rcases hx with rfl | rfl <;> rfl)]
  rw [State.modCore_modCore]
  refine State.modCore_congr ?_
  rw [State.core_modCore_same, Core.handle_setHandle, if_pos rfl]
  simp only [State.seqOf, hf, Handle.touch_ctrl, Handle.touch_count, Handle.touch_slots]

theorem judge_pass {s : State} {k : Nat} {p : Packet} {h : Handle} (hj : s.judge k p = .pass h) :
    (s.core k).handle p.chan.tidx = h ∧ h.state ≠ .closed ∧ opFits p.chan.op h.kind = true := by
  unfold State.judge at hj
  dsimp only at hj
  split at hj
  · split at hj <;> simp at hj
  · rename_i c1
    split at hj
    · simp at hj
    · rename_i c2
      split at hj
      · simp at hj
      · split at hj
        · simp at hj
        · split at hj
          · simp at hj
          · have := Verdict.pass.inj hj
            rw [this] at c1 c2
            simp at c1 c2
            exact ⟨this, c1.1, c2.1.1⟩

theorem opFits_data {op kind : Nat} (h : opFits op kind = true) (ho : op = opPut ∨ op = opTup ∨ op = opRing) : kindStatus kind = true := by
  unfold opFits at h
  rcases ho with rfl | rfl | rfl <;> simp [opPut, opTup, opRing] at h <;> subst h <;> decide

theorem scrWord_eq (c : Core) (w : Nat) : c.scrWord w = ⟨BitVec.ofNat 32 (c.mem.scr.word (4 * w) 4), c.mem.scr.bad w⟩ := rfl

/-- Words stored in a scratchpad read back; the others are as before. -/
theorem scrWord_put {st : Store} {a : Nat} {ws : List (PWord 32)} (h : Memory.wf st.cells = true) (w : Nat) :
    (⟨BitVec.ofNat 32 ((putScrWords st a ws).word (4 * w) 4), (putScrWords st a ws).bad w⟩ : PWord 32) =
      if a ≤ w ∧ w < a + ws.length then ws.getD (w - a) ⟨0, false⟩ else ⟨BitVec.ofNat 32 (st.word (4 * w) 4), st.bad w⟩ := by
  have := (scr_putScrWords (ws := ws) (w := a) h).2 w
  have a1 : (putScrWords st a ws).word (4 * w) 4 = _ := congrArg Prod.fst this
  have a2 : (putScrWords st a ws).bad w = _ := congrArg Prod.snd this
  rw [a1, a2]
  by_cases c : a ≤ w ∧ w < a + ws.length
  · have c' : a ≤ w ∧ w - a < ws.length := by omega
    rw [dif_pos c', if_pos c, List.getD_eq_getElem?_getD, List.getElem?_eq_getElem c'.2, Option.getD_some]
    exact PWord.ofNat_toNat _
  · have c' : ¬ (a ≤ w ∧ w - a < ws.length) := by omega
    rw [dif_neg c', if_neg c]

theorem any_keyPut {α : Type} {l : List (Nat × α)} {i : Nat} {a b : α} {p : Nat × α → Bool} (h : keyGet l i = some a) (hp : p (i, b) = p (i, a)) :
    (keyPut l i b).any p = l.any p := by
  induction l with
  | nil => simp [keyGet] at h
  | cons x r ih =>
    obtain ⟨x, v⟩ := x
    unfold keyGet at h
    unfold keyPut
    by_cases hx : x = i
    · subst hx
      rw [if_pos rfl] at h
      have := Option.some.inj h
      subst this
      rw [if_neg (by omega), if_pos rfl]
      simp [hp]
    · rw [if_neg hx] at h
      split
      · simp [ih h]
      · have hm : ∀ {r : List (Nat × α)}, keyGet r i = some a → (r.any p || p (i, a)) = r.any p := by
          intro r
          induction r with
          | nil => intro h; simp [keyGet] at h
          | cons y r ih2 =>
            intro h
            obtain ⟨y, w⟩ := y
            unfold keyGet at h
            by_cases hy : y = i
            · subst hy
              rw [if_pos rfl] at h
              rw [Option.some.inj h]
              cases hpa : p (y, a) <;> simp [hpa]
            · rw [if_neg hy] at h
              have := ih2 h
              rw [List.any_cons, Bool.or_assoc, this]
        have := hm h
        rw [List.any_cons, List.any_cons, hp]
        cases hpa : p (i, a)
        · simp
        · rw [hpa] at this
          simp at this
          simp [this]

/-- What an entry counts or pays does not move its control line. -/
theorem Core.writeCode_setHandle {c : Core} {i : Nat} {h e : Handle} {st : Bool} {line n : Nat} (hh : c.handle i = h) (ho : h.state ≠ .closed)
    (h1 : e.state = h.state) (h2 : e.kind = h.kind) (h3 : e.ctrl = h.ctrl) : (c.setHandle i e).writeCode st line n = c.writeCode st line n := by
  have hg : keyGet c.chan.handles i = some h := by
    unfold Core.handle at hh
    cases hk : keyGet c.chan.handles i with
    | none => rw [hk] at hh; rw [← hh] at ho; simp at ho
    | some x => rw [hk] at hh; simpa using hh
  have : (c.setHandle i e).ctrlTouch line n = c.ctrlTouch line n := by
    unfold Core.ctrlTouch Core.setHandle Core.modChan
    exact any_keyPut hg (by simp [h1, h2, h3])
  unfold Core.writeCode
  rw [this]; rfl

/-- The placing of a data packet whose write is `data`. -/
theorem placeAt_data {s : State} {k : Nat} {c : ChanHdr} {h e : Handle} {W : State → State} {data : Nat → Option (PWord 32)} (hq : (s.core k).heads = [])
    (hh : (s.core k).handle c.tidx = h) (ho : h.state ≠ .closed) (hk : kindStatus h.kind = true) (hs : h.stock = false) (he : e = h.took s c)
    (hc : (s.core k).writeCode false (h.base + (c.extent h).1) (c.extent h).2 = none)
    (hctl : ∀ w, w = 64 * h.ctrl ∨ w = 64 * h.ctrl + 1 → data w = none)
    (hW : ∀ v : State, (v.core k).heads = [] → (v.core k).mem.scr = (s.core k).mem.scr → ∃ y scr, W v = v.modCore k (fun c =>
        { c with mem := { c.mem with scr := scr }, ctl := { c.ctl with twinSum := y } }) ∧ Memory.wf scr.cells = true ∧
        ∀ w, (⟨BitVec.ofNat 32 (scr.word (4 * w) 4), scr.bad w⟩ : PWord 32) = (data w).getD ((s.core k).scrWord w)) :
    ∃ t, s.placeAt k c h W = t ∧ OnlyCore k s t ∧ t.now = s.now ∧ (∀ j, (t.core k).handle j = if j = c.tidx then e else (s.core k).handle j) ∧
      tookWord (s.core k) (t.core k) c e data := by
  obtain ⟨v, hv⟩ : ∃ v, v = s.charged k c h := ⟨_, rfl⟩
  obtain ⟨h1, hh1⟩ : ∃ h1, h1 = ({ h with slots := modAt h.slots c.slot fun x => { x with received := x.received + c.charge h } } : Handle) := ⟨_, rfl⟩
  have vc : v.core k = (s.core k).setHandle c.tidx h1 := by
    rw [hv, hh1]; unfold State.charged State.modHandle; rw [State.core_modCore_same, hh]
  obtain ⟨y, scr, w1, w2, w3⟩ := hW v (by rw [vc]; exact hq) (by rw [vc]; rfl)
  obtain ⟨u, hu⟩ : ∃ u, u = (W v).modCore k fun x => x.raiseHigh h.stock (h.base + (c.extent h).1) (c.extent h).2 := ⟨_, rfl⟩
  have uc : u.core k = { ((s.core k).setHandle c.tidx h1).raiseHigh h.stock (h.base + (c.extent h).1) (c.extent h).2 with
      mem := { (s.core k).mem with scr := scr }, ctl := { (s.core k).ctl with twinSum := y } } := by
    rw [hu, w1, State.core_modCore_same, State.core_modCore_same, vc]; rfl
  have un : u.now = s.now := by rw [hu, w1, hv]; rfl
  have uo : OnlyCore k s u := by
    rw [hu, w1, hv]
    exact (OnlyCore.modCore _ _ _).trans ((OnlyCore.modCore _ _ _).trans (OnlyCore.modCore _ _ _))
  have hp : s.placeAt k c h W = if c.last then u.postStatus k c.tidx (some c.mseq) 0 else u := by
    unfold State.placeAt
    have hvc : (v.core k).writeCode h.stock (h.base + (c.extent h).1) (c.extent h).2 = none := by rw [hs, vc]; exact (Core.writeCode_setHandle (e := h1) hh ho (by rw [hh1]) (by rw [hh1]) (by rw [hh1])).trans hc
    dsimp only
    rw [← hv, hvc]
    dsimp only
    rw [← hu]
    cases hl : c.last
    · simp only [Bool.false_eq_true, if_false]
    · simp only [if_true]
  refine ⟨_, hp, ?_⟩
  cases hl : c.last with
  | false =>
    have hee : e = h1 := by rw [he]; unfold Handle.took; rw [hl, hh1]; rfl
    simp only [Bool.false_eq_true, if_false]
    refine ⟨uo, un, ?_, ?_⟩
    · intro j; rw [uc, hee]; exact Core.handle_setHandle (s.core k) _ j _
    · intro w
      have : (u.core k).scrWord w = (data w).getD ((s.core k).scrWord w) := by rw [uc]; exact w3 w
      rw [this, hl]
      cases data w <;> simp
  | true =>
    simp only [if_true]
    have uh : (u.core k).handle c.tidx = h1 := by rw [uc]; exact (Core.handle_setHandle (s.core k) _ _ _).trans (if_pos rfl)
    rw [State.postStatus_plain (h := h1) (by rw [uc]; exact hq) uh (by rw [hh1]; exact ho) (by rw [hh1]; exact hk)]
    have hee : e = { h1.touch u.now with count := h1.count + 1, seq := u.seqOf h1 c.mseq } := by
      rw [he]; unfold Handle.took
      have : u.seqOf h1 c.mseq = s.seqOf h c.mseq := by
        unfold State.seqOf
        have hst : u.strict = s.strict := by rw [uo.1]
        have hln : h1.slots.length = h.slots.length := by
          rw [hh1]; dsimp only; clear * -
          generalize h.slots = l
          unfold modAt; split <;> simp
        rw [hst, hln]
      rw [hl, this, un, hh1]; rfl
    rw [← hee]
    refine ⟨uo.trans (OnlyCore.modCore _ _ _), un, ?_, ?_⟩
    · intro j
      rw [State.core_modCore_same]
      have : ((u.core k).setHandle c.tidx e).handle j = _ := Core.handle_setHandle (u.core k) c.tidx j e
      refine Eq.trans this ?_
      by_cases hj : j = c.tidx
      · rw [if_pos hj, if_pos hj]
      · rw [if_neg hj, if_neg hj, uc]
        exact (Core.handle_setHandle (s.core k) _ j _).trans (if_neg hj)
    · intro w
      rw [State.core_modCore_same]
      have hus : (u.core k).mem.scr = scr := by rw [uc]
      have h1c'' : h1.ctrl = h.ctrl := by rw [hh1]
      have hec : e.ctrl = h.ctrl := by rw [hee, ← h1c'']; exact Handle.touch_ctrl _ _
      have h1c : h1.ctrl = h.ctrl := by rw [hh1]
      have : (((u.core k).setHandle c.tidx e).modMem fun x => { x with scr := putScrWords x.scr (64 * h1.ctrl) e.statusWords }).scrWord w =
          ⟨BitVec.ofNat 32 ((putScrWords scr (64 * h1.ctrl) e.statusWords).word (4 * w) 4), (putScrWords scr (64 * h1.ctrl) e.statusWords).bad w⟩ := by
        rw [← hus]; rfl
      refine Eq.trans this ?_
      rw [scrWord_put w2, w3, hl, hec, h1c]
      have hlen : e.statusWords.length = 2 := rfl
      rw [hlen]
      by_cases c0 : w = 64 * h.ctrl
      · have := hctl w (.inl c0)
        rw [this, if_pos (by omega)]
        simp [c0]
      · by_cases c1 : w = 64 * h.ctrl + 1
        · have := hctl w (.inr c1)
          rw [this, if_pos (by omega)]
          simp [c1]
        · rw [if_neg (by omega)]
          cases data w <;> simp [c0, c1]

theorem arriveOp_core {s : State} {i k op : Nat} {p : Packet} {core : Nat → Packet → State → State} {hub : Packet → State → State}
    (hi : Stands s i (.core k) p) (hd : s.bar.due < s.now)
    (hg : s.group (groupOf k) = .on) (ha : (s.core k).ctl.attached = true) (ht : s.bar.takes = true) (hop : p.chan.op = op) :
    s.arriveOp i op core hub = (core k p (s.dropItem i)).noteSink p := by
  obtain ⟨it, i1, i2, i3, i4⟩ := hi
  unfold State.arriveOp
  rw [i1]
  have : (it.exit == some Place.hub) = false := by rw [i3]; rfl
  dsimp only
  rw [this]
  simp only [Bool.false_and, Bool.false_eq_true, if_false]
  exact arrival_core ⟨it, i1, i2, i3, i4⟩ hd hg ha ht (by rw [hop]; simp)

theorem State.readLines_clean {s : State} {k eng line n : Nat} (h0 : ∀ j, j < n → (s.core k).readsZero false (line + j) = false)
    (h : ∀ w, w < 64 * n → (s.core k).mem.scr.flaw (64 * line + w) = none) :
    s.readLines k eng line n = ((List.range n).map (fun j => (List.range 64).map fun x => (s.core k).scrWord (64 * (line + j) + x)), s) := by
  induction n generalizing line with
  | zero => rfl
  | succ n ih =>
    unfold State.readLines
    have hl : s.readLine k eng line = ((List.range 64).map fun x => (s.core k).scrWord (64 * line + x), s) := by
      unfold State.readLine
      have := h0 0 (by omega)
      rw [Nat.add_zero] at this
      rw [this, if_neg (by decide), State.readWords_clean (fun i hi => h i (by omega))]
    dsimp only
    rw [hl]
    dsimp only
    rw [ih (line := line + 1) (fun j hj => by have := h0 (j + 1) (by omega); rwa [show line + 1 + j = line + (j + 1) by omega])
      (fun w hw => by have := h (64 + w) (by omega); rwa [show 64 * (line + 1) + w = 64 * line + (64 + w) by omega])]
    obtain ⟨g, hg⟩ : ∃ g : Nat → List (PWord 32), g = fun l => (List.range 64).map fun x => (s.core k).scrWord (64 * l + x) := ⟨_, rfl⟩
    have e1 : ∀ l, ((List.range 64).map fun x => (s.core k).scrWord (64 * l + x)) = g l := fun l => by rw [hg]
    simp only [e1]
    clear hg e1
    rw [List.range_succ_eq_map]
    simp only [List.map_cons, List.map_map, Nat.add_zero]
    congr 2
    refine List.map_congr_left fun j _ => ?_
    show g (line + 1 + j) = g (line + (j + 1))
    rw [show line + 1 + j = line + (j + 1) by omega]

/-- A status word written beside nothing else. -/
theorem tookWord_status {c d : Core} {hdr : ChanHdr} {e : Handle} {data : Nat → Option (PWord 32)} {scr : Store} (hwf : Memory.wf scr.cells = true)
    (hd : d.mem.scr = putScrWords scr (64 * e.ctrl) e.statusWords) (hl : hdr.last = true)
    (hctl : ∀ w, w = 64 * e.ctrl ∨ w = 64 * e.ctrl + 1 → data w = none)
    (h3 : ∀ w, (⟨BitVec.ofNat 32 (scr.word (4 * w) 4), scr.bad w⟩ : PWord 32) = (data w).getD (c.scrWord w)) : tookWord c d hdr e data := by
  intro w
  have : d.scrWord w = ⟨BitVec.ofNat 32 ((putScrWords scr (64 * e.ctrl) e.statusWords).word (4 * w) 4), (putScrWords scr (64 * e.ctrl) e.statusWords).bad w⟩ := by
    rw [← hd]; rfl
  rw [this, scrWord_put hwf, h3, hl]
  have hlen : e.statusWords.length = 2 := rfl
  rw [hlen]
  by_cases c0 : w = 64 * e.ctrl
  · have := hctl w (.inl c0)
    rw [this, if_pos (by omega)]
    simp [c0]
  · by_cases c1 : w = 64 * e.ctrl + 1
    · have := hctl w (.inr c1)
      rw [this, if_pos (by omega)]
      simp [c1]
    · rw [if_neg (by omega)]
      cases data w <;> simp [c0, c1]

end Sys2Proof.Machine
end

