-- ==== Sys2Proof/Laws/Links.lean ====
section
/-! SUPPORT. Laws of the routers and the links: what the loss of a port keeps, one port's view of the state. -/

namespace Sys2Proof.Machine

theorem State.leave_origin {s : State} {t : Transit} (h : originates t.src = true) : s.leave t = s := by
  unfold State.leave
  cases hs : t.src <;> simp [hs, originates] at h ⊢

theorem State.beyond_origin {s : State} {t : Transit} (h : originates t.src = true) : s.beyond t = false := by
  unfold State.beyond
  cases hs : t.src <;> simp [hs, originates] at h ⊢

theorem PortKept.refl (x : Port) : PortKept x x := rfl

theorem PortKept.trans {x y z : Port} (h : PortKept x y) (g : PortKept y z) : PortKept x z := by
  unfold PortKept at h g ⊢
  rw [g]; rw [h]

theorem State.port_modPort_same (s : State) (p : Nat) (f : Port → Port) (h : p < s.ports.length) : (s.modPort p f).port p = f (s.port p) := by
  unfold State.port State.modPort
  exact getD_modAt_same _ _ _ _ h

theorem getD_modAt_other {α : Type} (l : List α) (i j : Nat) (f : α → α) (d : α) (h : j ≠ i) : (modAt l i f).getD j d = l.getD j d := by
  unfold modAt
  split
  · rw [List.getD_eq_getElem?_getD, List.getD_eq_getElem?_getD, List.getElem?_set_ne (Ne.symm h)]
  · rfl

@[simp] theorem length_modAt {α : Type} (l : List α) (i : Nat) (f : α → α) : (modAt l i f).length = l.length := by
  unfold modAt
  split <;> simp

theorem modAt_out {α : Type} (l : List α) (i : Nat) (f : α → α) (h : ¬ i < l.length) : modAt l i f = l := by
  unfold modAt
  rw [List.getElem?_eq_none (by omega)]

theorem State.port_modPort_other (s : State) (p q : Nat) (f : Port → Port) (h : q ≠ p) : (s.modPort p f).port q = s.port q :=
  getD_modAt_other s.ports p q f _ h

/-- A change of a port by a function that keeps it so. -/
theorem State.kept_modPort (s : State) (p q : Nat) (f : Port → Port) (h : ∀ x, PortKept x (f x)) : PortKept (s.port q) ((s.modPort p f).port q) := by
  by_cases g : q = p
  · subst g
    by_cases l : q < s.ports.length
    · rw [State.port_modPort_same s q f l]; exact h _
    · have : s.modPort q f = s := by unfold State.modPort; rw [modAt_out s.ports q f l]
      rw [this]; exact PortKept.refl _
  · rw [State.port_modPort_other s p q f g]; exact PortKept.refl _

/-- What the loss and the gain of usability change (R265): the ports as PortKept says, the packets in transit, the fault log, the
barrier's counts and the host interface. -/
def LinkKept (s t : State) : Prop :=
  t = { s with ports := t.ports, mesh := t.mesh, faults := t.faults, bar := t.bar, host := t.host } ∧ t.ports.length = s.ports.length ∧
  ∀ q, PortKept (s.port q) (t.port q)

theorem LinkKept.refl (s : State) : LinkKept s s := ⟨rfl, rfl, fun _ => PortKept.refl _⟩

theorem LinkKept.trans {s t u : State} (h : LinkKept s t) (g : LinkKept t u) : LinkKept s u := by
  refine ⟨?_, g.2.1.trans h.2.1, fun q => (h.2.2 q).trans (g.2.2 q)⟩
  rw [g.1]; rw [h.1]

theorem LinkKept.modPort (s : State) (p : Nat) (f : Port → Port) (h : ∀ x, PortKept x (f x)) : LinkKept s (s.modPort p f) :=
  ⟨rfl, by simp [State.modPort, length_modAt], fun q => State.kept_modPort s p q f h⟩

theorem LinkKept.recordAs (s : State) (kind : FailKind) (a b c d e f : Nat) : LinkKept s (s.recordAs kind a b c d e f) := by
  have h := State.recordAs_eq s kind a b c d e f
  refine ⟨by rw [h], by rw [h], fun q => ?_⟩
  have : (s.recordAs kind a b c d e f).port q = s.port q := by rw [h]; rfl
  rw [this]; exact PortKept.refl _

theorem LinkKept.cutPartials (p : Nat) : ∀ (l : List Partial) (s : State), LinkKept s (s.cutPartials p l)
  | [], s => by
    unfold State.cutPartials
    exact LinkKept.modPort s p _ fun x => rfl
  | q :: r, s => by
    unfold State.cutPartials
    extract_lets n t
    have ht : LinkKept s t := ⟨rfl, rfl, fun _ => PortKept.refl _⟩
    refine LinkKept.trans (ht.trans ?_) (LinkKept.cutPartials p r _)
    exact LinkKept.modPort t p _ fun x => rfl

theorem LinkKept.sunk (s : State) (b : Bool) : LinkKept s (if b then { s with bar := { s.bar with sink := s.bar.sink + 1 } } else s) := by
  cases b
  · exact LinkKept.refl s
  · exact ⟨rfl, rfl, fun _ => PortKept.refl _⟩

theorem LinkKept.noteDiscard (s : State) (p : Nat) : LinkKept s (s.noteDiscard p) := by
  unfold State.noteDiscard
  exact LinkKept.modPort s p _ fun x => rfl

theorem LinkKept.discarded (s : State) (p : Nat) (b : Bool) : LinkKept s (s.discarded p b) := by
  unfold State.discarded
  exact (LinkKept.noteDiscard s p).trans (LinkKept.sunk _ b)

theorem LinkKept.foldl {α : Type} {f : State → α → State} (h : ∀ s p, LinkKept s (f s p)) : ∀ (l : List α) (s : State), LinkKept s (l.foldl f s)
  | [], s => LinkKept.refl s
  | a :: r, s => (h s a).trans (LinkKept.foldl h r _)

theorem LinkKept.dropPool (p : Nat) : ∀ (l : List Queued) (s : State), LinkKept s (s.dropPool p l)
  | [], s => by
    unfold State.dropPool
    exact LinkKept.modPort s p _ fun x => rfl
  | q :: r, s => by
    unfold State.dropPool
    exact LinkKept.trans (LinkKept.discarded s p _) (LinkKept.dropPool p r _)

theorem LinkKept.loseUsable (s : State) (p : Nat) : LinkKept s (s.loseUsable p) := by
  unfold State.loseUsable
  extract_lets a d b
  have h0 : LinkKept s (s.modPort p fun x => { x with usable := false }) := LinkKept.modPort s p _ fun x => rfl
  have ha : LinkKept s a := h0.trans (LinkKept.cutPartials p _ _)
  have hd : LinkKept s d := ha.trans (LinkKept.foldl (fun s b => LinkKept.discarded s p b) _ _)
  have hb : LinkKept s b := hd.trans (LinkKept.dropPool p _ _)
  split
  · exact hb.trans ⟨rfl, rfl, fun _ => PortKept.refl _⟩
  · exact hb

theorem LinkKept.gainUsable (s : State) (p : Nat) : LinkKept s (s.gainUsable p) := by
  unfold State.gainUsable State.endEpisode
  have h : LinkKept s (s.modPort p fun x => { x with usable := true, rx := { x.rx with skip := [] } }) := LinkKept.modPort s p _ fun x => rfl
  split
  · exact h
  · refine h.trans (LinkKept.trans ?_ (LinkKept.recordAs _ _ _ _ _ _ _ _))
    exact LinkKept.modPort _ p _ fun x => rfl

theorem LinkKept.bundleFaults : ∀ (l : List Nat) (s : State), LinkKept s (s.bundleFaults l)
  | [], s => LinkKept.refl s
  | a :: r, s => by
    unfold State.bundleFaults
    extract_lets job
    exact (LinkKept.recordAs s _ _ _ _ _ _ _).trans (LinkKept.bundleFaults r _)

theorem LinkKept.review (s : State) (quiet : Bool) : LinkKept s (s.linkReview quiet) := by
  unfold State.linkReview
  extract_lets ok lost won a b
  have ha : LinkKept s a := by
    show LinkKept s (if quiet then s else s.bundleFaults _)
    split
    · exact LinkKept.refl s
    · exact LinkKept.bundleFaults _ s
  exact (ha.trans (LinkKept.foldl LinkKept.loseUsable _ _)).trans (LinkKept.foldl LinkKept.gainUsable _ _)

theorem State.usable_modPort (s : State) (p q : Nat) (f : Port → Port) (h : ∀ x, (f x).usable = x.usable) :
    ((s.modPort p f).port q).usable = (s.port q).usable := by
  by_cases g : q = p
  · subst g
    by_cases l : q < s.ports.length
    · rw [State.port_modPort_same s q f l, h]
    · have : s.modPort q f = s := by unfold State.modPort; rw [modAt_out s.ports q f l]
      rw [this]
  · rw [State.port_modPort_other s p q f g]

theorem State.port_recordAs (s : State) (kind : FailKind) (a b c d e f q : Nat) : (s.recordAs kind a b c d e f).port q = s.port q := by
  rw [State.recordAs_eq]; rfl

theorem State.usable_cutPartials (p q : Nat) : ∀ (l : List Partial) (s : State), ((s.cutPartials p l).port q).usable = (s.port q).usable
  | [], s => by
    unfold State.cutPartials
    exact State.usable_modPort s p q _ fun x => rfl
  | a :: r, s => by
    unfold State.cutPartials
    extract_lets n t
    rw [State.usable_cutPartials p q r]
    exact State.usable_modPort t p q _ fun x => rfl

theorem State.usable_discarded (s : State) (p q : Nat) (b : Bool) : ((s.discarded p b).port q).usable = (s.port q).usable := by
  have h : ((s.noteDiscard p).port q).usable = (s.port q).usable := by
    unfold State.noteDiscard
    exact State.usable_modPort s p q _ fun x => rfl
  rw [← h]
  unfold State.discarded
  cases b <;> rfl

theorem State.usable_foldDiscarded (p q : Nat) : ∀ (l : List Bool) (s : State), ((l.foldl (fun s b => s.discarded p b) s).port q).usable = (s.port q).usable
  | [], _ => rfl
  | a :: r, s => by rw [List.foldl_cons, State.usable_foldDiscarded p q r, State.usable_discarded]

theorem State.usable_dropPool (p q : Nat) : ∀ (l : List Queued) (s : State), ((s.dropPool p l).port q).usable = (s.port q).usable
  | [], s => by
    unfold State.dropPool
    exact State.usable_modPort s p q _ fun x => rfl
  | a :: r, s => by
    unfold State.dropPool
    rw [State.usable_dropPool p q r, State.usable_discarded]

theorem State.usable_loseUsable (s : State) (p q : Nat) (hl : p < s.ports.length) :
    ((s.loseUsable p).port q).usable = if q = p then false else (s.port q).usable := by
  unfold State.loseUsable
  extract_lets a d b
  have hb : (b.port q).usable = if q = p then false else (s.port q).usable := by
    show ((d.dropPool p _).port q).usable = _
    rw [State.usable_dropPool, State.usable_foldDiscarded, State.usable_cutPartials]
    split
    · rename_i h; subst h; rw [State.port_modPort_same s q _ hl]
    · rename_i h; rw [State.port_modPort_other s p q _ h]
  rw [← hb]
  split <;> rfl

theorem State.usable_gainUsable (s : State) (p q : Nat) (h : q ≠ p) : ((s.gainUsable p).port q).usable = (s.port q).usable := by
  unfold State.gainUsable State.endEpisode
  have h0 : ((s.modPort p fun x => { x with usable := true, rx := { x.rx with skip := [] } }).port q) = s.port q := State.port_modPort_other s p q _ h
  split
  · rw [h0]
  · rw [State.record, State.port_recordAs, State.port_modPort_other _ p q _ h, h0]

theorem State.port_bundleFaults : ∀ (l : List Nat) (s : State) (q : Nat), (s.bundleFaults l).port q = s.port q ∧ (s.bundleFaults l).ports.length = s.ports.length
  | [], _, _ => ⟨rfl, rfl⟩
  | a :: r, s, q => by
    unfold State.bundleFaults
    extract_lets job
    obtain ⟨h1, h2⟩ := State.port_bundleFaults r (s.recordAs (s.linkKind job) 0x0507 2 a 0 0 0) q
    rw [h1, h2, State.port_recordAs]
    exact ⟨rfl, (LinkKept.recordAs s _ _ _ _ _ _ _).2.1⟩

theorem State.usable_foldLose (p : Nat) : ∀ (l : List Nat) (s : State), (∀ q ∈ l, q < s.ports.length) → (p ∈ l ∨ (s.port p).usable = false) →
    ((l.foldl State.loseUsable s).port p).usable = false
  | [], s, _, h => by simpa using h
  | a :: r, s, hl, h => by
    have hlen : (s.loseUsable a).ports.length = s.ports.length := (LinkKept.loseUsable s a).2.1
    refine State.usable_foldLose p r _ (fun q hq => by rw [hlen]; exact hl q (by simp [hq])) ?_
    by_cases g : p = a
    · right; rw [State.usable_loseUsable s a p (hl a (by simp)), if_pos g]
    · rcases h with h | h
      · left; simpa [g] using h
      · right; rw [State.usable_loseUsable s a p (hl a (by simp)), if_neg g, h]

theorem State.usable_foldGain (p : Nat) : ∀ (l : List Nat) (s : State), p ∉ l → ((l.foldl State.gainUsable s).port p).usable = (s.port p).usable
  | [], _, _ => rfl
  | a :: r, s, h => by
    rw [List.foldl_cons, State.usable_foldGain p r _ (by simp at h; exact h.2), State.usable_gainUsable s a p (by simp at h; exact h.1)]

/-- After a review, a port whose logical port does not pass is not usable. -/
theorem State.review_unusable {s : State} {p : Nat} (quiet : Bool) (hp : p < 24) (hl : s.ports.length = 24) (h : s.bundleOk (s.port p).leader = false) :
    ((s.linkReview quiet).port p).usable = false := by
  unfold State.linkReview
  extract_lets ok lost won a b
  have hok : ok p = false := h
  have ha : (a.port p).usable = (s.port p).usable ∧ a.ports.length = s.ports.length := by
    show ((if quiet then s else s.bundleFaults _).port p).usable = _ ∧ _
    cases quiet
    · obtain ⟨h1, h2⟩ := State.port_bundleFaults (lost.map fun p => (s.port p).leader).dedup s p
      exact ⟨by show ((s.bundleFaults _).port p).usable = _; rw [h1], h2⟩
    · exact ⟨rfl, rfl⟩
  rw [State.usable_foldGain p won b (by simp [won, hok])]
  refine State.usable_foldLose p lost a (fun q hq => ?_) ?_
  · rw [ha.2, hl]; simp [lost] at hq; exact hq.1
  · rw [ha.1]
    cases hu : (s.port p).usable
    · right; rfl
    · left; simp [lost, hp, hu, hok]

/-- A port that is not ACTIVE keeps its logical port from passing (R261). -/
theorem State.bundleOk_inactive {s : State} {p : Nat} (hp : p < 24) (h : (s.port p).state ≠ .active) : s.bundleOk (s.port p).leader = false := by
  unfold State.bundleOk
  have : ((s.members (s.port p).leader).all fun q => (s.port q).state == .active && (s.port q).accept && (s.port q).peerId == (s.port (s.port p).leader).peerId) = false := by
    rw [List.all_eq_false]
    exact ⟨p, by simp [State.members, hp], by simp [h]⟩
  simp only [this, Bool.and_false]

theorem modAt_modAt {α : Type} (l : List α) (i : Nat) (f g : α → α) : modAt (modAt l i f) i g = modAt l i fun x => g (f x) := by
  by_cases h : i < l.length
  · unfold modAt
    rw [List.getElem?_eq_getElem h]
    dsimp only
    rw [List.getElem?_set_self h]
    simp
  · rw [modAt_out l i f h, modAt_out l i g h, modAt_out l i _ h]

theorem State.modPort_modPort (s : State) (p : Nat) (f g : Port → Port) : (s.modPort p f).modPort p g = s.modPort p fun x => g (f x) := by
  unfold State.modPort
  dsimp only
  rw [modAt_modAt]

/-- s with port p replaced. -/
def State.withPort (s : State) (p : Nat) (z : Port) : State := { s with ports := modAt s.ports p fun _ => z }

theorem State.withPort_self {s : State} {p : Nat} {x : Port} (h : s.port p = x) (hl : p < s.ports.length) : s = s.withPort p x := by
  unfold State.withPort modAt
  rw [List.getElem?_eq_getElem hl]
  have : s.ports.set p x = s.ports := by
    rw [← h]
    unfold State.port
    rw [List.getD_eq_getElem?_getD, List.getElem?_eq_getElem hl]
    simp
  dsimp only
  rw [this]

theorem State.withPort_modPort (s : State) (p : Nat) (z : Port) (f : Port → Port) : (s.withPort p z).modPort p f = s.withPort p (f z) := by
  unfold State.withPort State.modPort
  dsimp only
  rw [modAt_modAt]

theorem State.modPort_eq {s : State} {p : Nat} {x : Port} (f : Port → Port) (h : s.port p = x) (hl : p < s.ports.length) : s.modPort p f = s.withPort p (f x) := by
  conv_lhs => rw [State.withPort_self h hl]
  exact State.withPort_modPort s p x f

theorem State.withPort_port {s : State} {p : Nat} (z : Port) (hl : p < s.ports.length) : (s.withPort p z).port p = z :=
  State.port_modPort_same s p _ hl

theorem State.startReplay_with {s : State} {p : Nat} (z : Port) (n : BitVec 12) (late : Bool) (hl : p < s.ports.length) (k m : Nat)
    (hk : k = if z.tx.start = some n then z.tx.starts + 1 else 1) (hm : m = if late then z.tx.timeouts + 1 else z.tx.timeouts) :
    (s.withPort p z).startReplay p n late = if k = 8 ∨ m = 4
      then (s.withPort p { z with replays := satInc z.replays 1, tx := { z.tx with resend := some n, start := some n, starts := k, timeouts := m } }).portDown p 0x0502
      else s.withPort p { z with replays := satInc z.replays 1, tx := { z.tx with resend := some n, start := some n, starts := k, timeouts := m } } := by
  unfold State.startReplay
  dsimp only
  rw [State.withPort_port z hl, State.withPort_modPort, ← hk, ← hm]

theorem State.portDown_down {s : State} {p code : Nat} (hp : p < 24) (hl : s.ports.length = 24) :
    ((s.portDown p code).port p).state = .down ∧ ((s.portDown p code).port p).usable = false ∧ (s.portDown p code).now = s.now := by
  unfold State.portDown State.stopPort
  obtain ⟨u, hu⟩ : ∃ u, u = (s.linkFault p code 0).modPort p fun x => { x with state := .down, downTick := (s.linkFault p code 0).tick, locks := 0, settling := false } := ⟨_, rfl⟩
  have hf : LinkKept s (s.linkFault p code 0) := LinkKept.recordAs s _ _ _ _ _ _ _
  have hup : (u.port p).state = .down := by
    rw [hu, State.port_modPort_same _ _ _ (by rw [hf.2.1, hl]; exact hp)]
  have hul : u.ports.length = 24 := by rw [hu]; simp only [State.modPort, length_modAt]; rw [hf.2.1, hl]
  have hk := LinkKept.review u false
  rw [← hu]
  refine ⟨?_, State.review_unusable false hp hul (State.bundleOk_inactive hp (by rw [hup]; decide)), ?_⟩
  · rw [hk.2.2 p]; exact hup
  · rw [hk.1, hu]; show (s.linkFault p code 0).now = _; rw [hf.1]

end Sys2Proof.Machine
end

