-- ==== Sys2Proof/Laws/Jobs.lean ====
section
/-! SUPPORT. Laws of waves, pass boundaries and joining and leaving a job. -/

namespace Sys2Proof.Machine

/-- Time and the barrier unit as they were, but for the notes of faults and the packet counts. -/
def BarKept (s t : State) : Prop :=
  t.now = s.now ∧ t.bar = { s.bar with fail := t.bar.fail, failNext := t.bar.failNext, inj := t.bar.inj, sink := t.bar.sink }

theorem BarKept.refl (s : State) : BarKept s s := ⟨rfl, rfl⟩

theorem BarKept.trans {s t u : State} (h : BarKept s t) (g : BarKept t u) : BarKept s u :=
  ⟨g.1.trans h.1, by rw [g.2]; rw [h.2]⟩

theorem BarKept.of {s t : State} (hn : t.now = s.now) (hb : t.bar = s.bar) : BarKept s t := ⟨hn, by rw [hb]⟩

theorem BarKept.modCore (s : State) (k : Nat) (f : Core → Core) : BarKept s (s.modCore k f) := BarKept.of rfl rfl

theorem BarKept.modHost (s : State) (f : HostIf → HostIf) : BarKept s (s.modHost f) := BarKept.of rfl rfl

theorem BarKept.modJrnl (s : State) (f : Journal → Journal) : BarKept s (s.modJrnl f) := BarKept.of rfl rfl

theorem BarKept.modFin (s : State) (f : Finfin → Finfin) : BarKept s (s.modFin f) := BarKept.of rfl rfl

theorem BarKept.notify (s : State) (t : Nat) (b : List Byte) : BarKept s (s.notify t b) := by
  rw [State.notify_eq]; exact BarKept.of rfl rfl

theorem BarKept.recordAs (s : State) (kind : FailKind) (a b c d e f : Nat) : BarKept s (s.recordAs kind a b c d e f) := by
  have hb : (s.recordAs kind a b c d e f).bar = s.bar.noteFault kind := by
    unfold State.recordAs
    dsimp only
    split
    · rw [State.event, State.notify_eq]
    · rfl
  refine ⟨State.recordAs_now s kind a b c d e f, ?_⟩
  rw [hb]
  unfold Barrier.noteFault
  split
  · rfl
  · split
    · split <;> rfl
    · split <;> rfl
    · rfl

theorem BarKept.hubFault (s : State) (a b : Nat) : BarKept s (s.hubFault a b) := BarKept.recordAs s _ _ _ _ _ _ _

theorem BarKept.faultCore (s : State) (k e a b : Nat) : BarKept s (s.faultCore k e a b) := BarKept.recordAs s _ _ _ _ _ _ _

theorem BarKept.inject (s : State) (src : Place) (p : Packet) : BarKept s (s.inject src p) := by
  rw [State.inject_eq]
  refine ⟨rfl, ?_⟩
  unfold State.noteInj
  dsimp only
  split <;> rfl

theorem BarKept.foldl {α : Type} {f : State → α → State} (h : ∀ s a, BarKept s (f s a)) : ∀ (l : List α) (s : State), BarKept s (l.foldl f s)
  | [], s => BarKept.refl s
  | a :: r, s => (h s a).trans (BarKept.foldl h r _)

/-- The end of a cycle records at most faults of counters. -/
theorem BarKept.endCycle (s : State) : BarKept s s.endCycle := by
  unfold State.endCycle
  refine BarKept.trans (t := { s with overs := [] }) (BarKept.of rfl rfl) (BarKept.foldl (fun s k => BarKept.foldl (fun s n => ?_) _ s) _ _)
  unfold State.capCounter
  dsimp only
  split
  · exact (BarKept.modCore s k _).trans (BarKept.faultCore _ _ _ _ _)
  · exact BarKept.refl s

theorem State.advance_barKept (s : State) (t : Nat) : (s.advance t).bar =
    { s.bar with fail := (s.advance t).bar.fail, failNext := (s.advance t).bar.failNext, inj := (s.advance t).bar.inj, sink := (s.advance t).bar.sink } := by
  unfold State.advance
  split
  · exact (BarKept.endCycle s).2
  · rfl

theorem BarKept.ite {s a b : State} {p : Prop} [Decidable p] (h : BarKept s a) (g : BarKept s b) : BarKept s (if p then a else b) := by
  split
  · exact h
  · exact g

theorem BarKept.reviewBusy (s : State) : BarKept s s.reviewBusy := by
  unfold State.reviewBusy
  exact BarKept.ite (BarKept.ite (BarKept.refl s) ((BarKept.modJrnl s _).trans (BarKept.hubFault _ _ _))) (BarKept.modJrnl s _)

theorem BarKept.journal (s : State) (t : Nat) (p : Word64) (b : List Byte) : BarKept s (s.journal t p b) := by
  unfold State.journal
  exact BarKept.ite (BarKept.refl s) ((BarKept.modJrnl s _).trans (BarKept.reviewBusy _))

theorem BarKept.journalProgram (s : State) (p : Word64) (b : Nat) : BarKept s (s.journalProgram p b) := BarKept.journal _ _ _ _

theorem BarKept.journalLayout (s : State) (p : Word64) : BarKept s (s.journalLayout p) := BarKept.journal _ _ _ _

theorem BarKept.journalOutput (s : State) (p : Word64) (o : OutRes) : BarKept s (s.journalOutput p o) := BarKept.journal _ _ _ _

theorem BarKept.journalEdition (s : State) (p : Word64) : BarKept s (s.journalEdition p) := by
  unfold State.journalEdition
  split
  · exact BarKept.refl s
  · exact BarKept.journal _ _ _ _

theorem BarKept.checkpoint (s : State) : BarKept s s.checkpoint := by
  unfold State.checkpoint
  exact BarKept.ite (BarKept.refl s) ((BarKept.journal _ _ _ _).trans (BarKept.modJrnl _ _))

theorem BarKept.journalClose (s : State) (n : Nat) : BarKept s (s.journalClose n) := by
  unfold State.journalClose
  exact ((BarKept.journal _ _ _ _).trans (BarKept.checkpoint _)).trans (BarKept.modJrnl _ _)

theorem BarKept.journalOpen (s : State) : BarKept s s.journalOpen := by
  unfold State.journalOpen
  refine BarKept.ite (BarKept.modJrnl s _) ?_
  exact (((BarKept.modJrnl s _).trans (BarKept.journal _ _ _ _)).trans ((BarKept.journalProgram _ _ _).trans (BarKept.journalEdition _ _))).trans (BarKept.journalLayout _ _)

theorem BarKept.journalPassEnd (s : State) (p : Word64) (ok : Bool) (n : Nat) : BarKept s (s.journalPassEnd p ok n) := by
  unfold State.journalPassEnd
  dsimp only
  have h1 := fun b => (BarKept.journal s 4 p b).trans (BarKept.modJrnl (s.journal 4 p b) fun j => { j with faultsFrom := s.faults.total })
  refine BarKept.ite (BarKept.trans ?_ (BarKept.checkpoint _)) ?_
  · exact (BarKept.ite ((h1 _).trans (BarKept.journal _ _ _ _)) (h1 _))
  · exact (BarKept.ite ((h1 _).trans (BarKept.journal _ _ _ _)) (h1 _))

theorem BarKept.modEd (s : State) (i : Nat) (f : EdSlot → EdSlot) : BarKept s (s.modEd i f) := BarKept.of rfl rfl

theorem BarKept.latch (s : State) : BarKept s s.latch := by
  unfold State.latch
  split
  · exact BarKept.refl s
  · exact BarKept.of rfl rfl

theorem BarKept.releaseSlot (s : State) (i : Nat) : BarKept s (s.releaseSlot i) := BarKept.of rfl rfl

theorem BarKept.commitEditions (s : State) (x : Contrib) : BarKept s (s.commitEditions x) := by
  unfold State.commitEditions
  dsimp only
  have h1 : BarKept s (if (!x.noPend && !x.notReady) = true then s.latch else s) := BarKept.ite (BarKept.latch s) (BarKept.refl s)
  have h2 := fun (u : State) (h : BarKept s u) (p : Prop) [Decidable p] (i : Nat) => (BarKept.ite (p := p) (h.trans (BarKept.releaseSlot u i)) h)
  exact h2 _ (h2 _ h1 _ 0) _ 1

theorem BarKept.commitRegions (s : State) (k : Nat) (ok : Bool) : BarKept s (s.commitRegions k ok).2 := by
  unfold State.commitRegions
  extract_lets m rs u z new
  have hu : BarKept s u := BarKept.modCore _ _ _
  by_cases h1 : (!ok) = true
  · rw [if_pos h1]; exact hu.trans (BarKept.modCore _ _ _)
  · rw [if_neg h1]
    by_cases h2 : (!m.apply) = true
    · rw [if_pos h2]; exact hu.trans (BarKept.modCore _ _ _)
    · rw [if_neg h2]
      by_cases h3 : (tableOk new && z.all fun x => x.1.matches x.2) = true
      · rw [if_pos h3]; exact hu.trans (BarKept.modCore _ _ _)
      · rw [if_neg h3]; exact hu.trans ((BarKept.modCore _ _ _).trans (BarKept.faultCore _ _ _ _ _))

theorem BarKept.commitCore (s : State) (ok : Bool) (k : Nat) : BarKept s (s.commitCore ok k).2 := by
  unfold State.commitCore
  dsimp only
  split
  · exact BarKept.commitRegions s k ok
  · exact (BarKept.commitRegions s k ok).trans (BarKept.modCore _ _ _)

theorem BarKept.commitCores (ok : Bool) : ∀ (l : List Nat) (s : State), BarKept s (s.commitCores ok l).2
  | [], s => BarKept.refl s
  | k :: r, s => by
    unfold State.commitCores
    exact (BarKept.commitCore s ok k).trans (BarKept.commitCores ok r _)

theorem BarKept.decideOutputs (s : State) (p : Word64) (ok : Bool) : BarKept s (s.decideOutputs p ok) := by
  unfold State.decideOutputs
  dsimp only
  have h : BarKept s (s.modHost fun h => { h with res := [] }) := BarKept.modHost s _
  have h2 : BarKept s ((s.host.res).foldl (fun s o => s.journalOutput p o) (s.modHost fun h => { h with res := [] })) :=
    h.trans (BarKept.foldl (fun s o => BarKept.journalOutput s p o) _ _)
  refine BarKept.ite h (BarKept.ite h2 (h2.trans (BarKept.modHost _ _)))

theorem BarKept.noteSwitch (s : State) (b : Nat) : BarKept s (s.noteSwitch b) := by
  unfold State.noteSwitch
  exact BarKept.ite ((BarKept.journalProgram s _ _).trans (BarKept.hubFault _ _ _)) (BarKept.journalProgram s _ _)

theorem BarKept.applyDecision (s : State) (p : Word64) (ok : Bool) (n : Nat) : BarKept s (s.applyDecision p ok n) := by
  unfold State.applyDecision
  extract_lets x old r s1 moved eds rt s2 s3 s4 s5 s6 s7 s8
  have h1 : BarKept s s1 := BarKept.commitCores ok _ s
  have h2 : BarKept s s2 := by
    show BarKept s (if ok then _ else _)
    refine BarKept.ite (h1.trans (BarKept.trans (t := { s1 with route := { s1.route with calActive := s1.route.calNext } }) (BarKept.of rfl rfl) (BarKept.commitEditions _ _))) h1
  have h3 : BarKept s s3 := h2.trans (BarKept.of rfl rfl)
  have h4 : BarKept s s4 := h3.trans (BarKept.foldl BarKept.noteSwitch _ _)
  have h5 : BarKept s s5 := by
    show BarKept s (if _ then _ else _)
    exact BarKept.ite (h4.trans ((BarKept.journalLayout _ _).trans (BarKept.modJrnl _ _))) h4
  have h6 : BarKept s s6 := by
    show BarKept s (if _ then _ else _)
    exact BarKept.ite (h5.trans (BarKept.journalEdition _ _)) h5
  have h7 : BarKept s s7 := h6.trans (BarKept.decideOutputs _ _ _)
  have h8 : BarKept s s8 := h7.trans (BarKept.journalPassEnd _ _ _ _)
  exact BarKept.ite (h8.trans (BarKept.modHost _ _)) h8

theorem BarKept.recordNow (s : State) (a b : Nat) : BarKept s (s.recordNow a b) := by
  unfold State.recordNow
  dsimp only
  exact BarKept.of (by show State.now (State.recordAs _ _ _ _ _ _ _ _) = _; rw [State.recordAs_now]) rfl

theorem BarKept.noticeFailed (s : State) (b : Bool) : BarKept s (s.noticeFailed b) := by
  unfold State.noticeFailed
  dsimp only
  refine BarKept.trans (t := if b = true then s.recordNow 0x0270 (pack [(16, s.faults.attempt.toNat)]) else s) ?_ (BarKept.notify _ _ _)
  exact BarKept.ite (BarKept.recordNow _ _ _) (BarKept.refl s)

theorem BarKept.eachAttached {f : State → Nat → State} (h : ∀ s a, BarKept s (f s a)) (s : State) : BarKept s (s.eachAttached f) :=
  BarKept.foldl h _ _

/-- What COMMIT makes of the barrier unit (R330, R332). -/
theorem State.commitPass_bar (s : State) (ok u d : Bool) : ∃ f g i j, (s.commitPass ok u d).bar = { s.bar with
    phase := if toHold s.bar.total u d then .held else .commit, lastFailed := !ok, undrained := u, desync := d
    waves := BitVec.ofNat 16 (min s.bar.partWaves 65535), lastTicks := BitVec.ofNat 32 (min (s.tick - s.bar.finishTick) (2 ^ 32 - 1))
    passNum := if ok then s.bar.passNum + 1 else s.bar.passNum, fail := f, failNext := g, inj := i, sink := j, drainx := false, settled := false
    firstDone := none, contributed := false, due := s.now + 32 } := by
  unfold State.commitPass
  extract_lets pass attempt x limited hold s1 s2 fl s3 s4 tw s5 s6
  have h1 : BarKept s s1 := BarKept.eachAttached (fun s k => BarKept.modCore s k _) s
  have h1t : s1.tick = s.tick := by
    have : ∀ (l : List Nat) (s : State), (l.foldl (fun (s : State) k => s.modCore k fun c => c.modCtl fun r => { r with twinLast := r.twinSum }) s).tick = s.tick := by
      intro l; induction l with
      | nil => intro s; rfl
      | cons a r ih => intro s; rw [List.foldl_cons, ih]; rfl
    exact this _ s
  have h4 : BarKept s2 s4 := (BarKept.of rfl rfl : BarKept s2 s3).trans (BarKept.applyDecision s3 _ _ _)
  have h6 : BarKept s2 s6 := by
    have h5 : BarKept s2 s5 := h4.trans (BarKept.of rfl rfl)
    show BarKept s2 (if ok then s5 else s5.noticeFailed limited)
    exact BarKept.ite h5 (h5.trans (BarKept.noticeFailed _ _))
  have e1 := h1.2
  have e6 := h6.2
  have e2 : s2.bar = { s.bar with
      phase := .commit, lastFailed := !ok, undrained := u, desync := d
      waves := BitVec.ofNat 16 (min s.bar.partWaves 65535), lastTicks := BitVec.ofNat 32 (min (s.tick - s.bar.finishTick) (2 ^ 32 - 1))
      passNum := if ok then s.bar.passNum + 1 else s.bar.passNum, fail := false, failNext := s1.bar.failNext, inj := s1.bar.inj, sink := s1.bar.sink
      drainx := false, settled := false, firstDone := none, contributed := false, due := s.now + 32 } := by
    show ({ s1.bar with
      phase := .commit, lastFailed := !ok, undrained := u, desync := d
      waves := BitVec.ofNat 16 (min s1.bar.partWaves 65535), lastTicks := BitVec.ofNat 32 (min (s1.tick - s1.bar.finishTick) (2 ^ 32 - 1))
      passNum := if ok then s1.bar.passNum + 1 else s1.bar.passNum, fail := false
      drainx := false, settled := false, firstDone := none, contributed := false, due := s1.now + 32 } : Barrier) = _
    rw [h1t, h1.1, e1]
  clear_value s6
  by_cases hh : hold = true
  · rw [if_pos hh]
    obtain ⟨v, hv⟩ : ∃ v, v = s6.advance s6.bar.due := ⟨_, rfl⟩
    have he : (v.enterHeld).bar = { v.bar with phase := .held } := by
      unfold State.enterHeld State.phaseEvent State.event
      rw [State.notify_eq]; rfl
    have hk := State.advance_barKept s6 s6.bar.due
    rw [← hv] at hk ⊢
    refine ⟨v.bar.fail, v.bar.failNext, v.bar.inj, v.bar.sink, ?_⟩
    rw [he, hk, e6, e2, if_pos (show toHold s.bar.total u d = true from hh)]
  · rw [if_neg hh]
    refine ⟨s6.bar.fail, s6.bar.failNext, s6.bar.inj, s6.bar.sink, ?_⟩
    rw [e6, e2, if_neg (show ¬ toHold s.bar.total u d = true from hh)]

theorem State.foldl_inject (src : Place) : ∀ (l : List Packet) (s : State), (∀ p ∈ l, p.counted = false) →
    l.foldl (fun s p => s.inject src p) s = { s with mesh := { s.mesh with items := s.mesh.items ++ l.map fun p => { pkt := p, src := src } } }
  | [], s, _ => by simp
  | p :: r, s, h => by
    rw [List.foldl_cons, State.foldl_inject src r _ fun q hq => h q (by simp [hq])]
    rw [State.inject_free s src (h p (by simp))]
    simp

theorem wavePacket_counted (s : State) (d k st dir hops o : Nat) (w : Word32) (x : Contrib) : (s.wavePacket d k st dir hops o w x).counted = false := by
  have h : (s.wavePacket d k st dir hops o w x).cls = clsCtl := by
    unfold Packet.cls Packet.vc Packet.word State.wavePacket headerWord
    simp only [List.getD_cons_zero, bits, pack, BitVec.toNat_ofNat, clsCtl]
    omega
  unfold Packet.counted
  rw [h]; rfl

theorem State.eachAttached_core {f : Core → Core} (hf : ∀ c, f (f c) = f c) (s : State) (k : Nat) :
    (s.eachAttached fun s k => s.modCore k f).core k = if k ∈ s.attachedCores then f (s.core k) else s.core k := by
  unfold State.eachAttached
  have : ∀ (l : List Nat) (s : State), (l.foldl (fun (s : State) k => s.modCore k f) s).core k = if k ∈ l then f (s.core k) else s.core k := by
    intro l
    induction l with
    | nil => intro s; simp
    | cons a r ih =>
      intro s
      rw [List.foldl_cons, ih]
      by_cases e : k = a
      · subst e
        rw [State.core_modCore_same]
        simp only [List.mem_cons, true_or, if_true, hf, ite_self]
      · rw [State.core_modCore_other _ _ _ _ e]
        simp [e]
  exact this _ s

theorem State.foldl_modCore_eq {f : Core → Core} : ∀ (l : List Nat) (s : State), (l.foldl (fun (s : State) k => s.modCore k f) s) = { s with cores := (l.foldl (fun (s : State) k => s.modCore k f) s).cores }
  | [], _ => rfl
  | a :: r, s => by rw [List.foldl_cons, State.foldl_modCore_eq r]; rfl

theorem State.stopStreams_none {s : State} (h : s.fin.runs = []) : s.stopStreams = s.endRuns := by
  unfold State.stopStreams
  rw [h]; rfl

/-- A launched wave of a bench that still waits for the totals of the other slots. -/
theorem State.launch_bench {s : State} {kind : Nat} (h2 : 2 ≤ s.bar.slots.length) (hg : ∀ g ∈ s.bar.got, g.wave ≠ s.bar.wave + 1) :
    s.launch kind = { s with
      bar := { s.bar with
        wave := s.bar.wave + 1, kind := kind, going := true, stage := 0, total := s.contribution kind, contributed := kind == 1
        launchTick := s.tick, partWaves := if kind = 1 then s.bar.partWaves + 1 else s.bar.partWaves, again := false, rehold := false, got := [] }
      mesh := { s.mesh with items := s.mesh.items ++ (s.bar.slots.filter (· != modSlot s.route.me)).map fun n =>
        { src := .hub, pkt := s.wavePacket (withSlot s.route.me n) kind 0 0 0 s.route.me (s.bar.wave + 1) (s.contribution kind) } } } := by
  unfold State.launch
  extract_lets x
  have hf : (s.bar.got.filter fun g => g.wave == s.bar.wave + 1) = [] := by
    rw [List.filter_eq_nil_iff]; intro g hg'; simpa using hg g hg'
  obtain ⟨u, hu⟩ : ∃ u, u = s.modBar fun b =>
    { b with wave := b.wave + 1, kind := kind, going := true, stage := 0, total := x, contributed := kind == 1
             launchTick := s.tick, partWaves := if kind = 1 then b.partWaves + 1 else b.partWaves, again := false, rehold := false
             got := b.got.filter fun g => g.wave == b.wave + 1 } := ⟨_, rfl⟩
  rw [← hu]
  have hub : u.bar = { s.bar with
             wave := s.bar.wave + 1, kind := kind, going := true, stage := 0, total := s.contribution kind, contributed := kind == 1
             launchTick := s.tick, partWaves := if kind = 1 then s.bar.partWaves + 1 else s.bar.partWaves, again := false, rehold := false, got := [] } := by
    rw [hu]; unfold State.modBar; dsimp only; rw [hf]
  have hsend : u.sendStage = { u with mesh := { s.mesh with items := s.mesh.items ++ (s.bar.slots.filter (· != modSlot s.route.me)).map fun n =>
        { src := .hub, pkt := s.wavePacket (withSlot s.route.me n) kind 0 0 0 s.route.me (s.bar.wave + 1) (s.contribution kind) } } } := by
    unfold State.sendStage
    dsimp only
    rw [if_pos (by rw [hub])]
    have hfold : ∀ (l : List Nat) (w : State), w.route = s.route → w.bar.jobTag = s.bar.jobTag → l.foldl (fun (v : State) t =>
        v.inject .hub (v.wavePacket (withSlot u.route.me t) u.bar.kind 0 0 0 u.route.me u.bar.wave u.bar.total)) w =
        { w with mesh := { w.mesh with items := w.mesh.items ++ l.map fun n =>
          { src := .hub, pkt := s.wavePacket (withSlot s.route.me n) kind 0 0 0 s.route.me (s.bar.wave + 1) (s.contribution kind) } } } := by
      intro l
      induction l with
      | nil => intro w _ _; simp
      | cons a r ih =>
        intro w hr hj
        have hp : w.wavePacket (withSlot u.route.me a) u.bar.kind 0 0 0 u.route.me u.bar.wave u.bar.total =
            s.wavePacket (withSlot s.route.me a) kind 0 0 0 s.route.me (s.bar.wave + 1) (s.contribution kind) := by
          rw [hub, hu]; unfold State.wavePacket; rw [hr, hj]; rfl
        rw [List.foldl_cons, hp]
        have hi : w.inject .hub (s.wavePacket (withSlot s.route.me a) kind 0 0 0 s.route.me (s.bar.wave + 1) (s.contribution kind)) =
            { w with mesh := { w.mesh with items := w.mesh.items ++ [{ src := .hub, pkt := s.wavePacket (withSlot s.route.me a) kind 0 0 0 s.route.me (s.bar.wave + 1) (s.contribution kind) }] } } := by
          exact State.inject_free w .hub (wavePacket_counted _ _ _ _ _ _ _ _ _)
        rw [hi]
        refine Eq.trans (ih _ (by exact hr) (by exact hj)) ?_
        simp
    have := hfold (s.bar.slots.filter (· != modSlot s.route.me)) u (by rw [hu]; rfl) (by rw [hub])
    rw [show u.bar.slots = s.bar.slots by rw [hub]; rfl, show modSlot u.route.me = modSlot s.route.me by rw [hu]; rfl]
    rw [this, hu]; rfl
  rw [hsend]
  unfold State.runStages
  dsimp only
  rw [if_pos]
  · rw [hub, hu]; rfl
  · right
    rw [hub]
    show 0 < s.bar.slots.length - 1
    omega

theorem State.waves_open {s : State} (n : Nat) (h : s.bar.stage < 4 ∨ s.bar.going = false) : s.waves n = s := by
  cases n with
  | zero => rfl
  | succ n =>
    unfold State.waves
    rw [if_neg]
    rcases h with h | h
    · simp; omega
    · simp [h]

theorem reach_zero {s : State} {a d : Nat} (h : s.bar.extent a = 1) (hb : s.boxPlace s.route.me a = 0) (hd : d = 0 ∨ d = 1) : s.reach a d = 0 := by
  unfold State.reach
  dsimp only
  rw [h, hb]
  rcases hd with rfl | rfl <;> cases s.bar.wraps a <;> rfl

/-- Stage a + 1 of a job that lies in one bench: nothing is sent. -/
theorem State.sendStage_idle {s : State} (h1 : 0 < s.bar.stage) (h : s.bar.stage < 4 → s.bar.extent (s.bar.stage - 1) = 1 ∧ s.boxPlace s.route.me (s.bar.stage - 1) = 0) :
    s.sendStage = s := by
  unfold State.sendStage
  dsimp only
  rw [if_neg (by omega)]
  by_cases h4 : s.bar.stage < 4
  · rw [if_pos h4]
    obtain ⟨e, b⟩ := h h4
    have r0 : s.reach (s.bar.stage - 1) 0 = 0 := reach_zero e b (.inl rfl)
    have r1 : s.reach (s.bar.stage - 1) 1 = 0 := reach_zero e b (.inr rfl)
    simp only [List.foldl_cons, List.foldl_nil, r0, r1, if_true]
  · rw [if_neg h4]

/-- The later stages of a job that lies in one bench bring nothing. -/
theorem State.runStages_bench (n : Nat) : ∀ (s : State), 0 < s.bar.stage → s.bar.stage ≤ 4 → 5 ≤ s.bar.stage + n → (∀ a < 3, s.bar.extent a = 1 ∧ s.boxPlace s.route.me a = 0) →
    (∀ h ∈ s.bar.got, h.stage = 0) → s.runStages n = { s with bar := { s.bar with stage := 4 } } := by
  induction n with
  | zero => intro s h1 h2 h3; omega
  | succ n ih =>
    intro s h1 h2 h3 hx hg
    unfold State.runStages
    dsimp only
    by_cases h4 : s.bar.stage = 4
    · rw [if_pos (by left; omega), ← h4]
    · have harr : s.bar.arrived = [] := by
        unfold Barrier.arrived
        rw [List.filter_eq_nil_iff]
        intro g hg'
        have := hg g hg'
        simp only [this, Bool.and_eq_true, beq_iff_eq, not_and]
        omega
      have hexp : s.bar.expected s.bar.stage = 0 := by
        unfold Barrier.expected
        rw [if_neg (by omega), (hx (s.bar.stage - 1) (by omega)).1]
      rw [if_neg (by rw [harr, hexp]; simp; omega)]
      obtain ⟨u, hu⟩ : ∃ u, u = s.modBar fun b => { b with total := s.bar.total, stage := b.stage + 1 } := ⟨_, rfl⟩
      have he : (s.modBar fun b => { b with total := b.arrived.foldl (fun x g => x.add g.total) b.total, stage := b.stage + 1 }) = u := by
        rw [hu]; unfold State.modBar; dsimp only; rw [harr]; rfl
      have hub : u.bar.stage = s.bar.stage + 1 := by rw [hu]; rfl
      rw [he, State.sendStage_idle (by omega) (fun h => by rw [hu] at h ⊢; exact hx _ (by have : s.bar.stage + 1 < 4 := h; show s.bar.stage + 1 - 1 < 3; omega))]
      rw [ih u (by omega) (by omega) (by omega) (by rw [hu]; exact hx) (by rw [hu]; exact hg), hu]; rfl

theorem cellGet_cellClear (m : List Host.Cell) (p : Nat → Bool) (a : Nat) :
    cellGet (cellClear m p) a = if p a then 0 else cellGet m a := by
  induction m with
  | nil => simp [cellClear, cellGet]
  | cons c r ih =>
    obtain ⟨x, v⟩ := c
    unfold cellClear at ih ⊢
    rw [List.filter_cons]
    by_cases hp : p x = true
    · rw [if_neg (by simp [hp]), ih]
      by_cases e : x = a
      · subst e; rw [hp]; rfl
      · simp [cellGet, e]
    · rw [if_pos (by simp [hp])]
      by_cases e : x = a
      · subst e; simp [cellGet, hp]
      · simp only [cellGet, e, if_false]; exact ih

/-- A word of a store of which the granules that meet p were made zero. -/
theorem Store.zero_word (st : Store) (p : Nat → Bool) (w : Nat) :
    (⟨BitVec.ofNat 32 ((st.zero 4 p).word (4 * w) 4), (st.zero 4 p).bad w⟩ : PWord 32) =
      if p w then ⟨0, false⟩ else ⟨BitVec.ofNat 32 (st.word (4 * w) 4), st.bad w⟩ := by
  have hb : (st.zero 4 p).bad w = if p w then false else st.bad w := by
    unfold Store.bad Store.zero
    dsimp only
    by_cases h : p w = true
    · rw [if_pos h]; simp [h]
    · rw [if_neg h]
      simp [h]
  have hd : ∀ i, i < 4 → (4 * w + i) / 4 = w := by omega
  have hw : (st.zero 4 p).word (4 * w) 4 = if p w then 0 else st.word (4 * w) 4 := by
    unfold Store.word Store.zero
    dsimp only
    simp only [cellRead, cellGet_cellClear]
    rw [show 4 * w / 4 = w by omega, show (4 * w + 1) / 4 = w by omega, show (4 * w + 1 + 1) / 4 = w by omega, show (4 * w + 1 + 1 + 1) / 4 = w by omega]
    by_cases h : p w = true
    · simp [h, bytesToNat]
    · simp [h]
  rw [hb, hw]
  by_cases h : p w = true
  · simp [h]
  · simp [h]

/-- What the checks of a blank change in a core: its registers and its handles. -/
def CheckKept (c d : Core) : Prop := d = { c with regs := d.regs, chan := d.chan, ctl := d.ctl } ∧ d.ctl.twinSum = c.ctl.twinSum

theorem CheckKept.refl (c : Core) : CheckKept c c := ⟨rfl, rfl⟩

theorem CheckKept.trans {c d e : Core} (h : CheckKept c d) (g : CheckKept d e) : CheckKept c e :=
  ⟨by rw [g.1]; rw [h.1], g.2.trans h.2⟩

/-- A step of the checks of a blank in core k. -/
def CheckStep (k : Nat) (s t : State) : Prop :=
  BarKept s t ∧ t.route = s.route ∧ t.fin = s.fin ∧ t.lc = s.lc ∧ (∀ j, j ≠ k → t.core j = s.core j) ∧ CheckKept (s.core k) (t.core k)

theorem CheckStep.refl (k : Nat) (s : State) : CheckStep k s s := ⟨BarKept.refl s, rfl, rfl, rfl, fun _ _ => rfl, CheckKept.refl _⟩

theorem CheckStep.trans {k : Nat} {s t u : State} (h : CheckStep k s t) (g : CheckStep k t u) : CheckStep k s u :=
  ⟨h.1.trans g.1, g.2.1.trans h.2.1, g.2.2.1.trans h.2.2.1, g.2.2.2.1.trans h.2.2.2.1, fun j hj => (g.2.2.2.2.1 j hj).trans (h.2.2.2.2.1 j hj),
    h.2.2.2.2.2.trans g.2.2.2.2.2⟩

theorem CheckStep.modCore (k : Nat) (s : State) (f : Core → Core) (h : CheckKept (s.core k) (f (s.core k))) : CheckStep k s (s.modCore k f) :=
  ⟨BarKept.modCore s k f, rfl, rfl, rfl, fun j hj => State.core_modCore_other _ _ _ _ hj, by rw [State.core_modCore_same]; exact h⟩

theorem CheckStep.faultCore (k : Nat) (s : State) (e a b : Nat) : CheckStep k s (s.faultCore k e a b) := by
  have hc : ∀ j, (s.faultCore k e a b).core j = s.core j := fun j => State.recordAs_core _ _ _ _ _ _ _ _ _
  refine ⟨BarKept.faultCore s k e a b, ?_, ?_, ?_, fun j _ => hc j, by rw [hc]; exact CheckKept.refl _⟩ <;>
    (unfold State.faultCore State.record; rw [State.recordAs_eq])

theorem CheckStep.checkTable (k : Nat) (s : State) : CheckStep k s (s.checkTable k) := by
  unfold State.checkTable
  split
  · exact CheckStep.refl k s
  · exact (CheckStep.modCore k s _ ⟨rfl, rfl⟩).trans (CheckStep.faultCore _ _ _ _ _)

theorem CheckStep.foldl {α : Type} {k : Nat} {f : State → α → State} (h : ∀ s a, CheckStep k s (f s a)) : ∀ (l : List α) (s : State), CheckStep k s (l.foldl f s)
  | [], s => CheckStep.refl k s
  | a :: r, s => (h s a).trans (CheckStep.foldl h r _)

theorem CheckStep.blankBins (k : Nat) (s : State) : CheckStep k s (s.blankBins k) := by
  unfold State.blankBins
  exact (CheckStep.modCore k s _ ⟨rfl, rfl⟩).trans (CheckStep.foldl (fun s n => CheckStep.faultCore k s _ _ _) _ _)

theorem CheckStep.checkStanding (k : Nat) : ∀ (l : List (Nat × Handle)) (s : State), CheckStep k s (s.checkStanding k l)
  | [], s => CheckStep.refl k s
  | (i, h) :: r, s => by
    unfold State.checkStanding
    split
    · exact ((CheckStep.modCore k s _ ⟨rfl, rfl⟩).trans (CheckStep.faultCore _ _ _ _ _)).trans (CheckStep.checkStanding k r _)
    · exact CheckStep.checkStanding k r _

theorem CheckStep.blankHandles (k : Nat) (s : State) : CheckStep k s (s.blankHandles k) := by
  unfold State.blankHandles
  exact (CheckStep.modCore k s _ ⟨rfl, rfl⟩).trans (CheckStep.checkStanding k _ _)

theorem CheckStep.checkVmap (k : Nat) (s : State) : CheckStep k s (s.checkVmap k) := by
  unfold State.checkVmap
  dsimp only
  split
  · exact CheckStep.modCore k s _ ⟨rfl, rfl⟩
  · split
    · exact CheckStep.modCore k s _ ⟨rfl, rfl⟩
    · exact (CheckStep.modCore k s _ ⟨rfl, rfl⟩).trans (CheckStep.faultCore _ _ _ _ _)

theorem CheckStep.checkContract (k : Nat) (s : State) : CheckStep k s (s.checkContract k) := by
  unfold State.checkContract
  split
  · exact CheckStep.refl k s
  · exact CheckStep.faultCore _ _ _ _ _

/-- A realignment changes the offsets of the crossings and nothing else. -/
theorem State.leaveIdle_kept (s : State) : s.leaveIdle = { s with mesh := s.leaveIdle.mesh, freeCtr := s.leaveIdle.freeCtr } := by
  unfold State.leaveIdle
  split <;> rfl

theorem State.groupOn_kept (s : State) (g : Nat) : (s.groupOn g).now = s.now ∧ (s.groupOn g).bar = s.bar ∧ (s.groupOn g).route = s.route ∧
    (s.groupOn g).fin = s.fin ∧ (s.groupOn g).cores = s.cores ∧ (s.groupOn g).board = s.board := by
  unfold State.groupOn State.leaveIdle
  dsimp only
  split <;> exact ⟨rfl, rfl, rfl, rfl, rfl, rfl⟩

theorem State.wakeCore_core (s : State) (k j : Nat) : (s.wakeCore k).core j = if j = k ∧ s.power.stopped.contains k then (s.core k).resume s.now else s.core j := by
  unfold State.wakeCore
  by_cases h : s.power.stopped.contains k = true
  · rw [if_pos h]
    dsimp only
    have h1 : (if s.group (groupOf k) == .retain then s.groupOn (groupOf k) else s).now = s.now ∧ ∀ i, (if s.group (groupOf k) == .retain then s.groupOn (groupOf k) else s).core i = s.core i := by
      obtain ⟨g1, _, _, _, g5, _⟩ := State.groupOn_kept s (groupOf k)
      split
      · exact ⟨g1, fun i => by unfold State.core; rw [g5]⟩
      · exact ⟨rfl, fun _ => rfl⟩
    obtain ⟨u, hu⟩ : ∃ u, u = if s.group (groupOf k) == .retain then s.groupOn (groupOf k) else s := ⟨_, rfl⟩
    rw [← hu] at h1 ⊢
    by_cases e : j = k
    · subst e
      rw [State.core_modCore_same, if_pos ⟨rfl, h⟩]
      show (u.core j).resume u.now = _
      rw [h1.1, h1.2]
    · rw [State.core_modCore_other _ _ _ _ e, if_neg (fun g => e g.1)]
      exact h1.2 j
  · rw [if_neg h, if_neg (fun g => h g.2)]

theorem State.wakeCore_kept (s : State) (k : Nat) : BarKept s (s.wakeCore k) ∧ (s.wakeCore k).route = s.route ∧ (s.wakeCore k).fin = s.fin := by
  unfold State.wakeCore
  split
  · dsimp only
    obtain ⟨g1, g2, g3, g4, _, _⟩ := State.groupOn_kept s (groupOf k)
    split
    · exact ⟨BarKept.of g1 g2, g3, g4⟩
    · exact ⟨BarKept.of rfl rfl, rfl, rfl⟩
  · exact ⟨BarKept.refl s, rfl, rfl⟩

/-- The starting state, reached from a core that may have been woken. -/
theorem AtStart.blank {c b d : Core} (hb : b = c ∨ ∃ t, b = c.resume t) (h : CheckKept b.blank d) : AtStart c d := by
  have e : b = { c with ctl := b.ctl } ∧ b.ctl.bankActive = c.ctl.bankActive ∧ b.ctl.syncInit0 = c.ctl.syncInit0 ∧ b.ctl.syncInit1 = c.ctl.syncInit1 := by
    rcases hb with rfl | ⟨t, rfl⟩
    · exact ⟨rfl, rfl, rfl, rfl⟩
    · unfold Core.resume
      split <;> exact ⟨rfl, rfl, rfl, rfl⟩
  obtain ⟨e1, e2, e3, e4⟩ := e
  have hd := h.1
  have ht := h.2
  constructor
  · intro w
    have h1 : d.scrWord w = b.blank.scrWord w := by rw [hd]; rfl
    have h2 : b.blank.scrWord w = ⟨BitVec.ofNat 32 ((b.mem.scr.zero 4 fun w => !b.spared (w / 64)).word (4 * w) 4), (b.mem.scr.zero 4 fun w => !b.spared (w / 64)).bad w⟩ := rfl
    have h3 : b.spared (w / 64) = c.spared (w / 64) := by rw [e1]; rfl
    rw [h1, h2, Store.zero_word, h3, e1]
    cases c.spared (w / 64) <;> rfl
  · rw [hd]; show b.mem.stock = _; rw [e1]
  · rw [hd]; show b.mem.imem = _; rw [e1]
  · rw [hd]; rfl
  · rw [hd]; show ({ count := (if b.ctl.bankActive = 0 then b.ctl.syncInit0 else b.ctl.syncInit1).map (·.toNat) } : Sync) = _
    rw [e2, e3, e4]
  · rw [hd]; show ({ rows := b.mx.rows, rowsLatch := b.mx.rowsLatch } : Mx) = _; rw [e1]
  · rw [hd]; show ({ vecs := b.vx.vecs, vecsLatch := b.vx.vecsLatch } : Vx) = _; rw [e1]
  · rw [hd]; rfl
  · rw [hd]; show ({ throttle := b.nx.throttle } : Nx) = _; rw [e1]
  · rw [hd]; rfl
  · intro e _; rw [hd]; cases e <;> rfl
  · rw [ht]; rfl

theorem State.blankCore_spec (s : State) (k : Nat) : BarKept s (s.blankCore k) ∧ (s.blankCore k).route = s.route ∧ (s.blankCore k).fin = s.fin ∧
    (∀ j, j ≠ k → (s.blankCore k).core j = s.core j) ∧ AtStart (s.core k) ((s.blankCore k).core k) := by
  unfold State.blankCore
  dsimp only
  obtain ⟨a, ha⟩ : ∃ a, a = (s.wakeCore k).modCore k Core.blank := ⟨_, rfl⟩
  rw [← ha]
  have h := ((((CheckStep.checkTable k a).trans (CheckStep.blankBins k _)).trans (CheckStep.blankHandles k _)).trans (CheckStep.checkVmap k _)).trans (CheckStep.checkContract k _)
  obtain ⟨w1, w2, w3⟩ := State.wakeCore_kept s k
  refine ⟨(w1.trans (by rw [ha]; exact BarKept.modCore _ _ _)).trans h.1, ?_, ?_, ?_, ?_⟩
  · rw [h.2.1, ha]; exact w2
  · rw [h.2.2.1, ha]; exact w3
  · intro j hj
    rw [h.2.2.2.2.1 j hj, ha, State.core_modCore_other _ _ _ _ hj, State.wakeCore_core, if_neg (fun g => hj g.1)]
  · refine AtStart.blank (b := (s.wakeCore k).core k) ?_ ?_
    · rw [State.wakeCore_core]
      split
      · exact .inr ⟨_, rfl⟩
      · exact .inl rfl
    · have := h.2.2.2.2.2
      rw [ha, State.core_modCore_same] at this
      rw [← ha] at this
      exact this

theorem State.foldl_blankCore : ∀ (l : List Nat) (s : State), l.Nodup → BarKept s (l.foldl State.blankCore s) ∧ (l.foldl State.blankCore s).route = s.route ∧
    (∀ k, (k ∈ l → AtStart (s.core k) ((l.foldl State.blankCore s).core k)) ∧ (k ∉ l → (l.foldl State.blankCore s).core k = s.core k))
  | [], s, _ => ⟨BarKept.refl s, rfl, fun k => ⟨fun h => absurd h List.not_mem_nil, fun _ => rfl⟩⟩
  | a :: r, s, hn => by
    rw [List.nodup_cons] at hn
    obtain ⟨b1, b2, b3, b4, b5⟩ := State.blankCore_spec s a
    obtain ⟨c1, c2, c3⟩ := State.foldl_blankCore r (s.blankCore a) hn.2
    rw [List.foldl_cons]
    refine ⟨b1.trans c1, c2.trans b2, fun k => ⟨fun h => ?_, fun h => ?_⟩⟩
    · by_cases e : k = a
      · subst e; rw [(c3 k).2 hn.1]; exact b5
      · rw [List.mem_cons] at h
        have := (c3 k).1 (h.resolve_left e)
        rwa [b4 k e] at this
    · rw [List.mem_cons, not_or] at h
      rw [(c3 k).2 h.2, b4 k h.1]

theorem BarKept.checkStreams (s : State) : BarKept s s.checkStreams ∧ s.checkStreams.route = s.route ∧ ∀ k, s.checkStreams.core k = s.core k := by
  unfold State.checkStreams
  extract_lets u
  have hu0 : BarKept s u ∧ u.route = s.route ∧ ∀ k, u.core k = s.core k := ⟨BarKept.of rfl rfl, rfl, fun _ => rfl⟩
  have : ∀ (l : List Nat) (v : State), BarKept s v ∧ v.route = s.route ∧ (∀ k, v.core k = s.core k) →
      BarKept s (l.foldl (fun s n =>
        if s.streamOk n then s.modFin fun x => { x with runs := keyPut x.runs n { credit := bits (s.tier2Word n 1) 25 10 } }
        else s.hubFault 0x0809 (finDetail (s.streamSlot n) (s.edSlot (s.streamSlot n)).edition [])) v) ∧
      (l.foldl (fun s n =>
        if s.streamOk n then s.modFin fun x => { x with runs := keyPut x.runs n { credit := bits (s.tier2Word n 1) 25 10 } }
        else s.hubFault 0x0809 (finDetail (s.streamSlot n) (s.edSlot (s.streamSlot n)).edition [])) v).route = s.route ∧
      ∀ k, (l.foldl (fun s n =>
        if s.streamOk n then s.modFin fun x => { x with runs := keyPut x.runs n { credit := bits (s.tier2Word n 1) 25 10 } }
        else s.hubFault 0x0809 (finDetail (s.streamSlot n) (s.edSlot (s.streamSlot n)).edition [])) v).core k = s.core k := by
    intro l
    induction l with
    | nil => intro v h; exact h
    | cons a r ih =>
      intro v h
      rw [List.foldl_cons]
      apply ih
      split
      · exact h
      · refine ⟨h.1.trans (BarKept.hubFault _ _ _), ?_, fun k => ?_⟩
        · unfold State.hubFault State.record; rw [State.recordAs_eq]; exact h.2.1
        · rw [State.hubFault, State.record, State.recordAs_core]; exact h.2.2 k
  exact this _ u hu0

/-- A write of BAR_CTRL with one command bit: its command, with HOLD and HOLD_ON_FAIL written; a refusal under 0x0264 changes nothing but the
record, one under 0x0266 leaves HOLD and HOLD_ON_FAIL. -/
theorem writeBarCtrl_one {s : State} {v : Word32} {bad : List Nat} {n : Nat} {b : Barrier} {r : WriteRes × State} (hb : b = { s.bar with hold := bit v.toNat 0, holdOnFail := bit v.toNat 1 })
    (hn : 2 ≤ n ∧ n ≤ 6) (hv : bits v.toNat 6 2 = 2 ^ (n - 2))
    (hr : r = if n = 2 then State.askAttach { s with bar := b } bad else if n = 3 then State.askDetach { s with bar := b }
      else if n = 4 then State.askAbort { s with bar := b } else if n = 5 then State.askRestart { s with bar := b } else State.askRestartFail { s with bar := b }) :
    bit v.toNat n = true ∧ (r.1 = .done → s.writeBarCtrl v bad = r) ∧ (r.1 = .refused 0x0264 → s.writeBarCtrl v bad = s.barRefuse 0x0264) ∧
      (r.1 = .refused 0x0266 → s.writeBarCtrl v bad =
        (r.1, r.2.modBar fun b => { b with hold := s.bar.hold, holdOnFail := s.bar.holdOnFail })) := by
  have hbit : ∀ i, 2 ≤ i → i ≤ 6 → bit v.toNat i = decide (i = n) := by
    intro i h1 h2
    have e : bit v.toNat i = bit (bits v.toNat 6 2) (i - 2) := by
      unfold bit bits
      rw [show 6 + 1 - 2 = 5 by rfl, Nat.testBit_mod_two_pow, Nat.testBit_div_two_pow]
      rw [decide_eq_true (show i - 2 < 5 by omega), Bool.true_and]
      congr 1
      omega
    rw [e, hv]
    unfold bit
    rw [Nat.testBit_two_pow]
    by_cases h : i = n
    · subst h; simp
    · rw [decide_eq_false (by omega), decide_eq_false h]
  have h0 : bits v.toNat 6 2 ≠ 0 := by rw [hv]; exact (Nat.two_pow_pos _).ne'
  have hs : ({ s with bar := b } : State).ctlSteps v bad = r := by
    rw [hr]
    unfold State.ctlSteps ctlStep
    rw [hbit 2 (by omega) (by omega), hbit 3 (by omega) (by omega), hbit 4 (by omega) (by omega), hbit 5 (by omega) (by omega), hbit 6 (by omega) (by omega)]
    have hc : n = 2 ∨ n = 3 ∨ n = 4 ∨ n = 5 ∨ n = 6 := by omega
    rcases hc with rfl | rfl | rfl | rfl | rfl <;> simp
  have hw : s.writeBarCtrl v bad = match r.1 with
      | .refused code => if code = 0x0264 then s.barRefuse code
        else (r.1, r.2.modBar fun b => { b with hold := s.bar.hold, holdOnFail := s.bar.holdOnFail })
      | _ => r := by
    unfold State.writeBarCtrl
    extract_lets u w
    have hu : u = { s with bar := b } := by rw [hb]; rfl
    have hw : w = r := by simp only [w, hu, hs]
    rw [if_neg h0, hw]
    all_goals rcases r with ⟨⟨⟩, z⟩ <;> rfl
  refine ⟨by rw [hbit n hn.1 hn.2]; simp, fun h => ?_, fun h => ?_, fun h => ?_⟩ <;> rw [hw, h]
  · rfl
  · rfl

theorem Core.detach_detach (c : Core) : c.detach.detach = c.detach := by
  unfold Core.detach
  dsimp only
  congr 1
  congr 1
  rw [List.map_map]
  refine List.map_congr_left fun h _ => ?_
  simp only [Function.comp]
  cases hc : h.2.state == HState.closed
  · simp only [Bool.false_eq_true, if_false]
    rw [if_pos (by rfl)]
  · simp only [if_true, hc]

theorem keyGet_mem {α : Type} {l : List (Nat × α)} {i : Nat} {x : α} (h : keyGet l i = some x) : (i, x) ∈ l := by
  induction l with
  | nil => simp [keyGet] at h
  | cons a r ih =>
    obtain ⟨y, z⟩ := a
    unfold keyGet at h
    split at h
    · rename_i e; simp at h; subst e h; simp
    · exact List.mem_cons_of_mem _ (ih h)

theorem Core.detach_handle (c : Core) (i : Nat) : (c.detach.handle i).state = .closed := by
  unfold Core.handle
  cases h : keyGet c.detach.chan.handles i with
  | none => rfl
  | some x =>
    have := keyGet_mem h
    unfold Core.detach at this
    dsimp only at this
    rw [List.mem_map] at this
    obtain ⟨y, _, hy⟩ := this
    split at hy
    · rename_i e; rw [← show y.2 = x from congrArg Prod.snd hy]; simpa using e
    · rw [← show y.2.shut false = x from congrArg Prod.snd hy]; rfl

theorem State.leaveJob_off {s : State} {n : Nat} (hj : s.jrnl.on = false) : ∃ t, s.leaveJob n = t ∧ t.faults = s.faults ∧
    t.bar = { s.bar with phase := .detached, going := false, got := [], again := false, rehold := false, waitTwin := false } ∧ t.fin.runs = [] ∧
    t.host.tickets = [] ∧ t.host.res = [] ∧ t.host.senders = [] ∧ (∀ k, t.core k = if k ∈ s.attachedCores then (s.core k).detach else s.core k) := by
  unfold State.leaveJob
  have hjc : s.journalClose n = s.modJrnl fun j => { j with on := false, replayId := 0, replayRseq := 0 } := by
    unfold State.journalClose State.journal State.checkpoint
    rw [hj]
    simp only [Bool.not_false, if_true, hj]
  rw [hjc]
  extract_lets a b c d
  have hb : b = { a with cores := b.cores } := State.foldl_modCore_eq _ a
  have hbc : ∀ k, b.core k = if k ∈ s.attachedCores then (s.core k).detach else s.core k := fun k => State.eachAttached_core (f := Core.detach) Core.detach_detach a k
  have ha : a.faults = s.faults ∧ a.bar = s.bar := ⟨rfl, rfl⟩
  clear_value b a
  refine ⟨_, rfl, ?_, ?_, rfl, rfl, rfl, rfl, hbc⟩
  · show b.faults = _; rw [hb]; exact ha.1
  · show ({ b.bar with phase := .detached, going := false, got := [], again := false, rehold := false, waitTwin := false } : Barrier) = _
    rw [hb, ha.2]

/-- What a record of the journal, a fault or a notice changes: the journal, the fault log, the barrier's notes, the messages sent. -/
def Logged (s t : State) : Prop :=
  t = { s with jrnl := t.jrnl, faults := t.faults, bar := t.bar, host := { s.host with sessions := t.host.sessions, out := t.host.out } } ∧
  t.faults.attempt = s.faults.attempt ∧ BarKept s t

theorem Logged.refl (s : State) : Logged s s := ⟨rfl, rfl, BarKept.refl s⟩

theorem Logged.trans {s t u : State} (h : Logged s t) (g : Logged t u) : Logged s u :=
  ⟨by rw [g.1]; rw [h.1], g.2.1.trans h.2.1, h.2.2.trans g.2.2⟩

theorem Logged.ite {s a b : State} {p : Prop} [Decidable p] (h : Logged s a) (g : Logged s b) : Logged s (if p then a else b) := by
  split
  · exact h
  · exact g

theorem Logged.modJrnl (s : State) (f : Journal → Journal) : Logged s (s.modJrnl f) := ⟨rfl, rfl, BarKept.modJrnl s f⟩

theorem Logged.notify (s : State) (t : Nat) (b : List Byte) : Logged s (s.notify t b) := by
  refine ⟨?_, ?_, BarKept.notify s t b⟩
  · unfold State.notify
    dsimp only
    split
    · rfl
    · split <;> rfl
  · rw [State.notify_eq]

theorem Logged.recordAs (s : State) (kind : FailKind) (a b c d e f : Nat) : Logged s (s.recordAs kind a b c d e f) := by
  refine ⟨?_, ?_, BarKept.recordAs s kind a b c d e f⟩
  · unfold State.recordAs
    dsimp only
    split
    · rw [State.event]
      exact (Logged.notify _ _ _).1.trans rfl
    · rfl
  · have hadd : ∀ (x : FaultLog) y, (x.add y).attempt = x.attempt := by
      intro x y; unfold FaultLog.add; dsimp only; split <;> rfl
    unfold State.recordAs
    dsimp only
    split
    · rw [State.event, State.notify_eq]; exact hadd _ _
    · exact hadd _ _

theorem Logged.hubFault (s : State) (a b : Nat) : Logged s (s.hubFault a b) := Logged.recordAs s _ _ _ _ _ _ _

theorem Logged.reviewBusy (s : State) : Logged s s.reviewBusy := by
  unfold State.reviewBusy
  exact Logged.ite (Logged.ite (Logged.refl _) ((Logged.modJrnl _ _).trans (Logged.hubFault _ _ _))) (Logged.modJrnl _ _)

theorem Logged.journal (s : State) (t : Nat) (p : Word64) (b : List Byte) : Logged s (s.journal t p b) := by
  unfold State.journal
  split
  · exact Logged.refl s
  · exact (Logged.modJrnl s _).trans (Logged.reviewBusy _)

theorem Logged.journalEdition (s : State) (p : Word64) : Logged s (s.journalEdition p) := by
  unfold State.journalEdition
  split
  · exact Logged.refl s
  · exact Logged.journal _ _ _ _

theorem Logged.journalOpen (s : State) : Logged s s.journalOpen := by
  unfold State.journalOpen
  refine Logged.ite (Logged.modJrnl s _) ?_
  exact (((Logged.modJrnl s _).trans (Logged.journal _ _ _ _)).trans ((Logged.journal _ _ _ _).trans (Logged.journalEdition _ _))).trans (Logged.journal _ _ _ _)

theorem State.abortCore_idle {s : State} {k : Nat} (h : (s.core k).mx.ops = [] ∧ (s.core k).vx.runs = [] ∧ (s.core k).vx.loads = [] ∧ (s.core k).dx.ops = [] ∧
    (s.core k).nx.ops = [] ∧ (s.core k).sx.acc = [] ∧ (s.core k).sx.wait = none) : s.abortCore k = s.modCore k fun c => c := by
  obtain ⟨h1, h2, h3, h4, h5, h6, h7⟩ := h
  unfold State.abortCore
  dsimp only
  rw [h1, h2, h3, h4, h5, h6, h7]
  simp only [List.foldl_nil]
  refine State.modCore_congr ?_
  generalize s.core k = c at *
  cases c with
  | mk mem regs mxs vxs dxs nxs sxs sync mx vx dx nx sx chan ctl =>
    simp only at h1 h2 h3 h4 h5 h6 h7
    cases mx; cases vx; cases dx; cases nx; cases sx
    simp only at h1 h2 h3 h4 h5 h6 h7
    subst h1 h2 h3 h4 h5 h6 h7
    rfl

theorem mem_keyPut_self {α : Type} (l : List (Nat × α)) (a : Nat) (b : α) : (a, b) ∈ keyPut l a b := by
  induction l with
  | nil => simp [keyPut]
  | cons c r ih =>
    obtain ⟨x, v⟩ := c
    unfold keyPut
    split
    · exact List.mem_cons_of_mem _ ih
    · split <;> simp

theorem mem_keyPut_other {α : Type} {l : List (Nat × α)} {a : Nat} {b : α} {c : Nat × α} (h : c ∈ l) (hc : c.1 ≠ a) : c ∈ keyPut l a b := by
  induction l with
  | nil => exact absurd h List.not_mem_nil
  | cons d r ih =>
    obtain ⟨x, v⟩ := d
    rw [List.mem_cons] at h
    unfold keyPut
    split
    · rw [List.mem_cons]
      rcases h with h | h
      · exact .inl h
      · exact .inr (ih h)
    · split
      · rename_i e
        rcases h with h | h
        · exact absurd (by rw [h]; exact e) hc
        · exact List.mem_cons_of_mem _ h
      · rcases h with h | h
        · rw [h]; simp
        · exact List.mem_cons_of_mem _ (List.mem_cons_of_mem _ h)

theorem State.mem_attached {s : State} {k : Nat} : k ∈ s.attachedCores ↔ ∃ c, (k, c) ∈ s.cores ∧ c.ctl.attached = true := by
  unfold State.attachedCores
  rw [List.mem_map]
  constructor
  · rintro ⟨⟨j, c⟩, h, rfl⟩
    rw [List.mem_filter] at h
    exact ⟨c, h.1, h.2⟩
  · rintro ⟨c, h1, h2⟩
    exact ⟨(k, c), by rw [List.mem_filter]; exact ⟨h1, h2⟩, rfl⟩

theorem State.attached_modCore {s : State} {k j : Nat} (f : Core → Core) (h : k ∈ s.attachedCores) (hf : k = j → (f (s.core j)).ctl.attached = true) :
    k ∈ (s.modCore j f).attachedCores := by
  rw [State.mem_attached] at h ⊢
  obtain ⟨c, h1, h2⟩ := h
  by_cases e : k = j
  · subst e
    exact ⟨f (s.core k), mem_keyPut_self _ _ _, hf rfl⟩
  · exact ⟨c, mem_keyPut_other h1 e, h2⟩


end Sys2Proof.Machine
end

