-- ==== Sys2Proof/Laws/Host.lean ====
section
/-! SUPPORT. Laws of the hub: its messages to cores, outputs, sessions, Finfin. -/

namespace Sys2Proof.Machine

theorem chanPacket_counted {f dm dt sr : Nat} {a : Bool} {h : ChanHdr} {b : List (PWord 64)} (hop : h.op = opPut) :
    (chanPacket clsFwd f dm dt sr a h b).counted = true := by
  have h1 : (chanPacket clsFwd f dm dt sr a h b).cls = clsFwd := by
    unfold Packet.cls Packet.vc Packet.word chanPacket headerWord
    simp only [List.getD_cons_zero, bits, pack, BitVec.toNat_ofNat, clsFwd]
    omega
  have h2 : bits ((chanPacket clsFwd f dm dt sr a h b).word 1) 3 0 = opPut := by
    unfold Packet.word chanPacket ChanHdr.word1
    rw [hop]
    simp only [List.getD_cons_succ, List.getD_cons_zero, bits, pack, BitVec.toNat_ofNat, opPut]
    omega
  unfold Packet.counted
  rw [h1, h2]
  cases (chanPacket clsFwd f dm dt sr a h b).dtgt == hubTgt <;> rfl

theorem State.hubPuts_eq {t : HubTarget} {mseq off n : Nat} {bad : Bool} : ∀ (fuel j : Nat) (s : State) (data : List Byte),
    (n + 15) / 16 ≤ j + fuel →
    s.hubPuts t mseq off n j bad data fuel = { s with
      mesh := { s.mesh with items := s.mesh.items ++ ((List.range' j ((n + 15) / 16 - j)).map fun i =>
        { src := .hub
          pkt := chanPacket clsFwd 0 s.route.me t.core s.route.me false
            { op := opPut, tidx := hIndex t.handle, tgen := hGen t.handle, slot := t.slot, mseq := mseq, pkt := i % 256
              last := decide (n ≤ 16 * (i + 1)), ponly := bad, off := off + 16 * i, n := min 16 (n - 16 * i) - 1 }
            (if bad then poisonBody (32 * min 16 (n - 16 * i)) else toWords64 ((data.drop (4096 * (i - j))).take (256 * min 16 (n - 16 * i))) (32 * min 16 (n - 16 * i))) }) }
      bar := { s.bar with inj := s.bar.inj + BitVec.ofNat 64 ((n + 15) / 16 - j) } } := by
  intro fuel
  induction fuel with
  | zero =>
    intro j s data h
    rw [show (n + 15) / 16 - j = 0 by omega]
    simp [State.hubPuts]
  | succ f ih =>
    intro j s data h
    unfold State.hubPuts
    by_cases hm : min 16 (n - 16 * j) = 0
    · rw [show (n + 15) / 16 - j = 0 by omega]
      simp [hm]
    · dsimp only
      rw [if_neg hm, State.inject_eq, ih _ _ _ (by omega)]
      obtain ⟨c, hc⟩ : ∃ c, (n + 15) / 16 - j = c + 1 := ⟨(n + 15) / 16 - j - 1, by omega⟩
      rw [show (n + 15) / 16 - (j + 1) = c by omega, hc, List.range'_succ]
      unfold State.noteInj
      rw [chanPacket_counted rfl]
      have hinj : ∀ b : Word64, b + 1 + BitVec.ofNat 64 c = b + BitVec.ofNat 64 (c + 1) := by
        intro b; rw [BitVec.add_assoc]; congr 1; apply BitVec.eq_of_toNat_eq; simp; omega
      have hbody : ∀ i ∈ List.range' (j + 1) c, ((data.drop (256 * min 16 (n - 16 * j))).drop (4096 * (i - (j + 1)))) = data.drop (4096 * (i - j)) := by
        intro i hi
        rw [List.mem_range'_1] at hi
        rw [List.drop_drop]; congr 1; omega
      have hmap := List.map_congr_left (l := List.range' (j + 1) c) (f := fun i => ({ src := Place.hub, pkt := (chanPacket clsFwd 0 s.route.me t.core s.route.me false
            { op := opPut, tidx := hIndex t.handle, tgen := hGen t.handle, slot := t.slot, mseq := mseq, pkt := i % 256, last := decide (n ≤ 16 * (i + 1)), ponly := bad, off := off + 16 * i, n := min 16 (n - 16 * i) - 1 }
            (if bad then poisonBody (32 * min 16 (n - 16 * i)) else toWords64 (((data.drop (256 * min 16 (n - 16 * j))).drop (4096 * (i - (j + 1)))).take (256 * min 16 (n - 16 * i))) (32 * min 16 (n - 16 * i)))) } : Transit))
        (fun i hi => by rw [hbody i hi])
      simp only [if_true, List.map_cons, List.append_assoc, List.cons_append, List.nil_append, Nat.sub_self, Nat.mul_zero, List.drop_zero]
      rw [hmap, hinj]

theorem State.hubMessage_eq {s : State} {t : HubTarget} {mseq off n : Nat} {bad : Bool} {data : List Byte} :
    s.hubMessage t mseq off n bad data = s.withHubMessage t mseq off n bad data := by
  unfold State.hubMessage
  rw [State.hubPuts_eq _ _ _ _ (by omega)]
  unfold State.withHubMessage State.hubPackets
  rw [List.range_eq_range']
  rfl

theorem markSent_eq {p : Word64} : ∀ (pre : List Ticket) (t : Ticket) (post : List Ticket), (∀ x ∈ pre, x.pass ≠ p ∨ x.sent = true) → t.pass = p → t.sent = false →
    markSent p (pre ++ t :: post) = pre ++ { t with sent := true } :: post ∧ (pre ++ t :: post).find? (fun t => t.pass == p && !t.sent) = some t := by
  intro pre
  induction pre with
  | nil => intro t post _ h1 h2; simp [markSent, h1, h2]
  | cons a r ih =>
    intro t post ha h1 h2
    obtain ⟨i1, i2⟩ := ih t post (fun x hx => ha x (by simp [hx])) h1 h2
    have : ¬ (a.pass = p ∧ (!a.sent) = true) := by
      rintro ⟨x, y⟩
      rcases ha a (by simp) with h | h
      · exact h x
      · rw [h] at y; exact absurd y (by decide)
    refine ⟨?_, ?_⟩
    · rw [List.cons_append, markSent, if_neg (by simpa using this), i1]; rfl
    · rw [List.cons_append, List.find?_cons_of_neg (by simpa using this)]; exact i2

theorem State.sendLines_eq {o : Output} {m : Nat} (hm : 0 < m) : ∀ (fuel off : Nat) (s : State), o.lines - off ≤ fuel →
    s.sendLines o off m fuel = s.outputFrom o off m := by
  intro fuel
  induction fuel with
  | zero =>
    intro off s h
    unfold State.outputFrom State.sendLines
    rw [show (o.lines - off + m - 1) / m = 0 from Nat.div_eq_of_lt (by omega)]
    rfl
  | succ f ih =>
    intro off s h
    unfold State.sendLines
    dsimp only
    by_cases hz : o.lines - off = 0
    · rw [if_pos (by omega)]
      unfold State.outputFrom
      rw [show (o.lines - off + m - 1) / m = 0 from Nat.div_eq_of_lt (by omega)]
      rfl
    · rw [if_neg (by omega), ih _ _ (by omega)]
      unfold State.outputFrom
      have hk : (o.lines - off + m - 1) / m = (o.lines - (off + min m (o.lines - off)) + m - 1) / m + 1 := by
        by_cases hle : m ≤ o.lines - off
        · rw [Nat.min_eq_left hle, show o.lines - off + m - 1 = (o.lines - (off + m) + m - 1) + m by omega, Nat.add_div_right _ hm]
        · rw [Nat.min_eq_right (show o.lines - off ≤ m by omega), show o.lines - (off + (o.lines - off)) + m - 1 = m - 1 by omega]
          rw [show o.lines - off + m - 1 = (o.lines - off - 1) + m by omega, Nat.add_div_right _ hm, Nat.div_eq_of_lt (show o.lines - off - 1 < m by omega),
            Nat.div_eq_of_lt (show m - 1 < m by omega)]
      rw [hk, List.range_succ_eq_map, List.foldl_cons, List.foldl_map]
      by_cases hle : m ≤ o.lines - off
      · have : ∀ j, off + min m (o.lines - off) + m * j = off + m * (j + 1) := by
          intro j; rw [Nat.min_eq_left hle, Nat.mul_add]; omega
        simp only [this, Nat.mul_zero, Nat.add_zero, Nat.succ_eq_add_one, outputBody]
      · rw [show (o.lines - (off + min m (o.lines - off)) + m - 1) / m = 0 from Nat.div_eq_of_lt (by omega)]
        simp [outputBody]

theorem State.notify_outputs (s : State) (t : Nat) (b : List Byte) : (s.notify t b).host.outputs = s.host.outputs := by
  unfold State.notify
  dsimp only
  split
  · rfl
  · split <;> rfl

theorem State.recordAs_outputs (s : State) (kind : FailKind) (a b c d e f : Nat) : (s.recordAs kind a b c d e f).host.outputs = s.host.outputs := by
  unfold State.recordAs
  dsimp only
  split
  · rw [State.event, State.notify_outputs]
  · rfl

theorem hostOnly_trans {s t u : State} (h : t = { s with host := t.host }) (g : u = { t with host := u.host }) : u = { s with host := u.host } := by
  rw [g, h]

theorem State.outputFrom_kept (o : Output) (off m : Nat) (s : State) : s.outputFrom o off m = { s with host := (s.outputFrom o off m).host } ∧
    (s.outputFrom o off m).host.outputs = s.host.outputs := by
  unfold State.outputFrom
  generalize List.range ((o.lines - off + m - 1) / m) = l
  induction l generalizing s with
  | nil => exact ⟨rfl, rfl⟩
  | cons a r ih =>
    rw [List.foldl_cons]
    obtain ⟨i1, i2⟩ := ih (s.notify 0x30 (outputBody o (off + m * a) (min m (o.lines - (off + m * a)))))
    refine ⟨?_, i2.trans (State.notify_outputs _ _ _)⟩
    exact hostOnly_trans (State.notify_eq _ _ _) i1

theorem foldMin {α : Type} {f : α → Nat} {g : Option α → α → Option α} (g1 : ∀ o, g none o = some o)
    (g2 : ∀ x o, g (some x) o = if f o < f x then some o else some x) {o : α} {pre post : List α} (h1 : ∀ y ∈ pre, f o < f y) (h2 : ∀ y ∈ post, f o ≤ f y) :
    (pre ++ o :: post).foldl g none = some o := by
  have ha : ∀ (l : List α) (m : Option α), (∀ y ∈ l, f o < f y) → (∀ x, m = some x → f o < f x) → ∀ x, l.foldl g m = some x → f o < f x := by
    intro l
    induction l with
    | nil => intro m _ hm x hx; exact hm x hx
    | cons a r ih =>
      intro m hy hm x hx
      rw [List.foldl_cons] at hx
      refine ih _ (fun y hy' => hy y (by simp [hy'])) ?_ x hx
      intro z hz
      cases m with
      | none => rw [g1] at hz; cases hz; exact hy _ (by simp)
      | some w =>
        rw [g2] at hz
        split at hz
        · cases hz; exact hy _ (by simp)
        · cases hz; exact hm _ rfl
  have hb : ∀ (l : List α), (∀ y ∈ l, f o ≤ f y) → l.foldl g (some o) = some o := by
    intro l
    induction l with
    | nil => intro _; rfl
    | cons a r ih =>
      intro hy
      rw [List.foldl_cons, g2, if_neg (by have := hy a (by simp); omega)]
      exact ih (fun y hy' => hy y (by simp [hy']))
  rw [List.foldl_append, List.foldl_cons]
  obtain ⟨m, hm⟩ : ∃ m, m = pre.foldl g none := ⟨_, rfl⟩
  rw [← hm]
  have hp := ha pre none h1 (by intro x hx; cases hx)
  rw [← hm] at hp
  cases m with
  | none => rw [g1]; exact hb post h2
  | some w => rw [g2, if_pos (hp w rfl)]; exact hb post h2

theorem findMin {g : Option Output → Output → Option Output} (g1 : ∀ o, g none o = some o)
    (g2 : ∀ x o, g (some x) o = if o.tick < x.tick then some o else some x) {l : List Output} {o : Output} {pre post : List Output}
    (hl : l = pre ++ o :: post) (hs : o.sent = o.lines)
    (h1 : ∀ y ∈ pre, y.sent = y.lines → o.tick < y.tick) (h2 : ∀ y ∈ post, y.sent = y.lines → o.tick ≤ y.tick) :
    (l.filter fun o => o.sent == o.lines).foldl g none = some o := by
  rw [hl, List.filter_append, List.filter_cons_of_pos (by simpa using hs)]
  refine foldMin (f := Output.tick) g1 g2 ?_ ?_ <;> intro y hy <;> rw [List.mem_filter] at hy
  · exact h1 y hy.1 (by simpa using hy.2)
  · exact h2 y hy.1 (by simpa using hy.2)

theorem State.request_run {s : State} {src : Sender} {n : Nat} {x y : Session} {type : Nat} {lost : Bool}
    {f : Session → State → (Nat × List (List Byte)) × State} (h : Arrives s src n x)
    (hy : keyGet (f x s).2.host.sessions n = some y) (hn : y.nseq = x.nseq) :
    s.request src n x.nseq type lost f = (f x s).2.answered n ((f x s).2.replyPort x src) y type (f x s).1.1 (f x s).1.2 := by
  obtain ⟨h1, h2, h3⟩ := h
  unfold State.request
  rw [h1, h2]
  dsimp only
  have hb : (x.proved && (x.ip != src.ip.toNat || x.udp != src.udp.toNat)) = false := by
    cases hp : x.proved
    · rfl
    · obtain ⟨a, b⟩ := h3 hp; simp [a, b]
  rw [hb, if_neg (by decide), if_neg (by decide), if_pos rfl]
  have : (((f x s).2.send ((f x s).1.2.map fun b => ({ port := (f x s).2.replyPort x src, session := n, type := type % 128 + 128, status := (f x s).1.1, seq := x.nseq, body := b } : Msg))).host.sessions) = (f x s).2.host.sessions := rfl
  rw [this, hy]
  dsimp only
  rw [← hn]
  rfl

theorem keyGet_keyDel {α : Type} (l : List (Nat × α)) (a : Nat) : keyGet (keyDel l a) a = none := by
  induction l with
  | nil => rfl
  | cons b r ih =>
    obtain ⟨x, v⟩ := b
    unfold keyDel at ih ⊢
    rw [List.filter_cons]
    split
    · rename_i h
      unfold keyGet
      rw [if_neg (by simpa using h)]
      exact ih
    · exact ih

theorem State.permitsBurst_one {s : State} {w : Who} {b : Bool} {a : Nat} : s.permitsBurst w b a 1 = s.permits w b a := by
  simp [State.permitsBurst, List.range_succ]

theorem State.mtuOf_room (s : State) (e : Nat) : 1280 ≤ s.mtuOf e := by unfold State.mtuOf; omega

theorem State.freeBytes_eq (n : Nat) : ∀ s : State, (s.freeBytes n).1.length = 8 * n ∧ (s.freeBytes n).2 = { s with freeCtr := (s.freeBytes n).2.freeCtr } := by
  induction n with
  | zero => intro s; exact ⟨rfl, rfl⟩
  | succ n ih =>
    intro s
    obtain ⟨i1, i2⟩ := ih s.fresh.2
    refine ⟨?_, ?_⟩
    · show (natToBytes s.fresh.1.toNat 8 ++ (s.fresh.2.freeBytes n).1).length = _
      rw [List.length_append, i1, natToBytes_length]; omega
    · show (s.fresh.2.freeBytes n).2 = _
      rw [i2]; rfl

theorem HostIf.room_free {h : HostIf} {n : Nat} (hn : n < 8) (h0 : keyGet h.sessions n = none) (hm : ∀ m < n, (keyGet h.sessions m).isSome = true) : h.room = some n := by
  have : (List.range 8).find? (fun n => (keyGet h.sessions n).isNone) = some n := by
    rw [List.find?_range_eq_some]
    refine ⟨by rw [h0]; rfl, List.mem_range.2 hn, fun m hm' => ?_⟩
    have := hm m hm'
    cases hk : keyGet h.sessions m <;> simp_all
  unfold HostIf.room
  rw [this]

theorem HostIf.room_oldest {h : HostIf} {n : Nat} (hm : ∀ m < 8, (keyGet h.sessions m).isSome = true) {pre post : List (Nat × Session)} {x : Session}
    (hs : h.sessions = pre ++ (n, x) :: post) (hx : x.proved = false)
    (h1 : ∀ y ∈ pre, y.2.proved = false → x.tick < y.2.tick) (h2 : ∀ y ∈ post, y.2.proved = false → x.tick ≤ y.2.tick) : h.room = some n := by
  have hnone : (List.range 8).find? (fun n => (keyGet h.sessions n).isNone) = none := by
    rw [List.find?_eq_none]
    intro m hm'
    have := hm m (List.mem_range.1 hm')
    rw [Option.isNone_iff_eq_none]
    intro e
    rw [e] at this
    exact absurd this (by decide)
  have hf : (h.sessions.filter fun x => !x.2.proved) = (pre.filter fun x => !x.2.proved) ++ (n, x) :: (post.filter fun x => !x.2.proved) := by
    rw [hs, List.filter_append, List.filter_cons_of_pos (by simp [hx])]
  unfold HostIf.room
  rw [hnone]
  dsimp only
  rw [hf]
  have := fun {g : Option (Nat × Session) → (Nat × Session) → Option (Nat × Session)} g1 g2 =>
      foldMin (f := fun x : Nat × Session => x.2.tick) (g := g) g1 g2 (o := (n, x)) (pre := pre.filter fun x => !x.2.proved) (post := post.filter fun x => !x.2.proved)
    (fun y hy => by rw [List.mem_filter] at hy; exact h1 y hy.1 (by simpa using hy.2)) (fun y hy => by rw [List.mem_filter] at hy; exact h2 y hy.1 (by simpa using hy.2))
  generalize hz : List.foldl _ (none : Option (Nat × Session)) _ = z
  rw [show z = some (n, x) from hz.symm.trans (this (fun _ => rfl) (fun _ _ => rfl))]
  rfl

theorem HostIf.room_full {h : HostIf} (hm : ∀ m < 8, (keyGet h.sessions m).isSome = true) (hp : ∀ x ∈ h.sessions, x.2.proved = true) : h.room = none := by
  have hnone : (List.range 8).find? (fun n => (keyGet h.sessions n).isNone) = none := by
    rw [List.find?_eq_none]
    intro m hm'
    have := hm m (List.mem_range.1 hm')
    rw [Option.isNone_iff_eq_none]
    intro e
    rw [e] at this
    exact absurd this (by decide)
  have hf : (h.sessions.filter fun x => !x.2.proved) = [] := by
    rw [List.filter_eq_nil_iff]
    intro x hx
    simp [hp x hx]
  unfold HostIf.room
  rw [hnone]
  dsimp only
  rw [hf]
  rfl

theorem State.ownerDigest_kept (s : State) : s.ownerDigest.2 = { s with freeCtr := s.ownerDigest.2.freeCtr } := by
  unfold State.ownerDigest
  split
  · rfl
  · exact (State.freeBytes_eq 8 s).2

theorem State.report_eq (s : State) (nonce : List Byte) (hn : nonce.length = 32) : ∃ b k, s.report nonce = (b ++ edSign s.sec.priv s.sec.pub b, { s with freeCtr := k }) ∧
    b.take 2 = natToBytes 1 2 ∧ (b.drop 8).take 8 = natToBytes s.moduleId.toNat 8 ∧ (b.drop 32).take 8 = natToBytes s.tick 8 ∧ b.drop (b.length - 32) = nonce := by
  unfold State.report
  extract_lets x d b
  refine ⟨b, d.2.freeCtr, by rw [← State.ownerDigest_kept], ?_, ?_, ?_, ?_⟩
  · show List.take 2 (_ ++ nonce) = _
    simp
  · show List.take 8 (List.drop 8 (_ ++ nonce)) = _
    simp [List.take_append, List.drop_append, List.take_of_length_le]
  · show List.take 8 (List.drop 32 (_ ++ nonce)) = _
    simp [List.drop_append, List.drop_eq_nil_of_le]
  · have : ∃ a, b = a ++ nonce := ⟨_, rfl⟩
    obtain ⟨a, ha⟩ := this
    rw [ha, List.length_append, hn, Nat.add_sub_cancel, List.drop_left]

theorem State.notify_closed {s : State} {t : Nat} {b : List Byte} {n : Nat} (h : keyGet s.host.sessions n = none) :
    keyGet (s.notify t b).host.sessions n = none := by
  unfold State.notify
  dsimp only
  split
  · exact h
  · rename_i x hx
    split
    · exact h
    · have : n ≠ bits s.host.ctrl.toNat 2 0 := by intro e; rw [← e, h] at hx; cases hx
      exact (keyGet_keyPut_other _ _ _ _ this).trans h

theorem State.recordAs_closed {s : State} {kind : FailKind} {a b c d e f n : Nat} (h : keyGet s.host.sessions n = none) :
    keyGet (s.recordAs kind a b c d e f).host.sessions n = none := by
  unfold State.recordAs
  dsimp only
  split
  · exact State.notify_closed h
  · exact h

theorem AtHub.run {s : State} {i op : Nat} {p : Packet} (h : AtHub s i op p) (h8 : 8 ≤ op) (hB : op ≤ 0xB) (hub : Packet → State → State) :
    s.atHub i op hub = hub p (s.dropItem i) := by
  obtain ⟨⟨t, h1, h2, h3, h4, h5, h6⟩, hc, hd, ho⟩ := h
  unfold State.atHub
  rw [h1]
  dsimp only
  rw [h3, if_pos (by rfl)]
  unfold State.arriveOp
  rw [h1]
  dsimp only
  rw [h3, h2, if_neg (by simp; exact hc)]
  unfold State.arrival
  rw [h1]
  dsimp only
  rw [h4, h2, ho, h5, if_neg (by simp), State.advance_past h6, h3]
  dsimp only
  unfold State.noteSink
  have : p.counted = false := by
    unfold Packet.counted
    rw [hd, show bits (p.word 1) 3 0 = op from ho]
    simp; intro _; omega
  rw [this]; rfl

theorem finPacket_counted (s : State) {dm op vm tg ed sh pk : Nat} {l : Bool} {b : List (PWord 64)} (h8 : 8 ≤ op) (hB : op ≤ 0xB) :
    (s.finPacket dm op vm tg ed sh pk l b).counted = false := by
  have h1 : (s.finPacket dm op vm tg ed sh pk l b).dtgt = hubTgt := by
    unfold Packet.dtgt Packet.word State.finPacket headerWord
    simp only [List.getD_cons_zero, bits, pack, BitVec.toNat_ofNat, hubTgt]
    omega
  have h2 : bits ((s.finPacket dm op vm tg ed sh pk l b).word 1) 3 0 = op := by
    unfold Packet.word State.finPacket
    simp only [List.getD_cons_succ, List.getD_cons_zero, bits, pack, BitVec.toNat_ofNat]
    omega
  unfold Packet.counted
  rw [h1, h2]
  simp; intro _; omega

theorem State.inject_fin (s t : State) {dm op vm tg ed sh pk : Nat} {l : Bool} {b : List (PWord 64)} (h8 : 8 ≤ op) (hB : op ≤ 0xB) :
    t.inject .hub (s.finPacket dm op vm tg ed sh pk l b) =
      { t with mesh := { t.mesh with items := t.mesh.items ++ [{ src := .hub, pkt := s.finPacket dm op vm tg ed sh pk l b }] } } := by
  rw [State.inject_eq]
  unfold State.noteInj
  rw [finPacket_counted s h8 hB]; rfl

theorem State.sendObject_eq {p : Packet} : ∀ (n j : Nat) (s : State) (data : List Byte), s.sendObject p j data n = { s with
    mesh := { s.mesh with items := s.mesh.items ++ ((List.range n).map fun i => ({ src := Place.hub, pkt := (s.finPacket p.src 9 p.finVmod p.finTag p.finEd p.finShard (j + i) (i + 1 == n) (toWords64 ((data.drop (4096 * i)).take 4096) (ceilDiv ((data.drop (4096 * i)).take 4096).length 8))) } : Transit)) } } := by
  intro n
  induction n with
  | zero => intro j s data; simp [State.sendObject]
  | succ n ih =>
    intro j s data
    unfold State.sendObject
    dsimp only
    rw [State.inject_fin _ _ (by omega) (by omega), ih, List.range_succ_eq_map, List.map_cons, List.map_map]
    have e1 : ∀ i, j + 1 + i = j + (i + 1) := by intro i; omega
    have e2 : ∀ i, (i + 1 + 1 == n + 1) = (i + 1 == n) := by intro i; simp
    have e3 : ∀ i, (data.drop 4096).drop (4096 * i) = data.drop (4096 * (i + 1)) := by intro i; rw [List.drop_drop]; congr 1; omega
    simp only [Function.comp_def, Nat.succ_eq_add_one, e1, e2, e3, Nat.add_zero, Nat.mul_zero, List.drop_zero, List.append_assoc, List.cons_append, List.nil_append]
    have e4 : (n == 0) = (0 + 1 == n + 1) := by cases n <;> rfl
    rw [e4]
    rfl

theorem State.sendObject_packets {p : Packet} {s : State} {data : List Byte} : s.sendObject p 0 data (ceilDiv data.length 4096) = { s with
    mesh := { s.mesh with items := s.mesh.items ++ s.objectPackets p data } } := by
  rw [State.sendObject_eq]
  unfold State.objectPackets
  simp only [Nat.zero_add]

theorem Recorded.of_faults {s u t : State} {c : Nat} (h : u.faults = s.faults) (r : Recorded u t c) : Recorded s t c := by
  unfold Recorded at r ⊢
  rw [h] at r
  exact r

theorem State.wordBytes64_clean : ∀ (l : List (PWord 64)) (s : State), (∀ w ∈ l, w.poison = false) →
    s.wordBytes64 l = (l.flatMap fun w => natToBytes w.val.toNat 8, s) := by
  intro l
  induction l with
  | nil => intro s _; rfl
  | cons a r ih =>
    intro s h
    unfold State.wordBytes64
    dsimp only
    rw [h a (by simp), if_neg (by decide), if_neg (by decide), ih _ (fun w hw => h w (by simp [hw]))]
    rfl

theorem State.fin_write {s : State} {o : Nat} {v : Word32} (h : isFinRow o = true) (ho : o < 0x100000) (h4 : o % 4 = 0) :
    exec (.finfinRegisterWrite (0xA00000 + o) v) s = .next (s.writeFin o v).2 := by
  simp only [exec, execFinfinRegisterWrite]
  unfold State.blockRow
  have e1 : (0xA00000 + o) / 0x100000 = 10 := by omega
  have e2 : (0xA00000 + o) % 0x100000 = o := by omega
  rw [if_pos ⟨e1, by decide, by rw [e2]; exact h, by omega⟩]
  unfold State.regWrite
  have e3 : coreAt (0xA00000 + o) = none := by unfold coreAt; rw [if_neg (by omega)]
  dsimp only
  rw [e3, e1, e2]
  rfl

theorem State.journal_on {s : State} {t : Nat} {p : Word64} {b : List Byte} (h : s.jrnl.on = true) (hf : 2097152 ≤ (s.jrnl.withRecord t p b).free) :
    s.journal t p b = { s with jrnl := s.jrnl.withRecord t p b } := by
  unfold State.journal
  rw [h, if_neg (by decide)]
  dsimp only
  unfold State.reviewBusy
  rw [if_neg]
  · rfl
  · exact Nat.not_lt.2 hf

/-- The tick from which an operation that starts now on connection c leaves (R433). -/
def State.plbLeave (s : State) (c : Nat) : Nat := max s.tick (s.host.eth.getD (s.conn c).port {}).pfc

theorem State.plbStart_eq {s : State} {c : Nat} {o : PlbOp} : s.plbStart c o = { s with
    host := { s.host with plb := keyPut s.host.plb c { s.conn c with
      ops := (s.conn c).ops ++ [{ o with addr := (s.conn c).base + o.addr, leave := s.plbLeave c }]
      tick := if (s.conn c).ops = [] then s.tick else (s.conn c).tick } } } := by
  unfold State.plbStart State.modConn State.modHost State.plbLeave
  dsimp only
  cases h : (s.conn c).ops <;> simp

theorem State.conn_keep (s : State) (c : Nat) (y : PlbConn) : ({ s with host := { s.host with plb := keyPut s.host.plb c y } } : State).conn c = y := by
  show (keyGet (keyPut s.host.plb c y) c).getD {} = _
  rw [keyGet_keyPut_same]; rfl

/-- One record of a batch leaves, in one write or in two at the end of the ring. -/
theorem State.exportRecord_eq (s : State) (r : Word64 × List Byte) : s.exportRecord r = { s with
    jrnl := { s.jrnl with sentN := s.jrnl.sentN + 1, ringPos := (s.jrnl.ringPos + r.2.length) % s.jrnl.ring }
    host := { s.host with
      plb := keyPut s.host.plb s.jrnl.conn { s.conn s.jrnl.conn with
        ops := (s.conn s.jrnl.conn).ops ++ exportOps ((s.conn s.jrnl.conn).base + s.jrnl.base) (s.plbLeave s.jrnl.conn) s.jrnl.ring s.jrnl.ringPos [r]
        tick := if (s.conn s.jrnl.conn).ops = [] then s.tick else (s.conn s.jrnl.conn).tick } } } := by
  have hadd : ∀ a b c : Word64, a + (b + c) = a + b + c := fun a b c => (BitVec.add_assoc a b c).symm
  unfold State.exportRecord
  extract_lets p m u v
  obtain ⟨y, hy⟩ : ∃ y : PlbConn, y = { s.conn s.jrnl.conn with
      ops := (s.conn s.jrnl.conn).ops ++ [{ use := .records r.1, addr := (s.conn s.jrnl.conn).base + s.jrnl.base + BitVec.ofNat 64 p, data := r.2.take m, leave := s.plbLeave s.jrnl.conn }]
      tick := if (s.conn s.jrnl.conn).ops = [] then s.tick else (s.conn s.jrnl.conn).tick } := ⟨_, rfl⟩
  have hu : u = { s with host := { s.host with plb := keyPut s.host.plb s.jrnl.conn y } } := by
    simp only [u, State.ringWrite, State.plbStart_eq, hadd, hy]
  have huc : u.conn s.jrnl.conn = y := by rw [hu]; exact State.conn_keep s _ _
  clear_value u
  by_cases hm : m < r.2.length
  · have hv : v = u.ringWrite (.records r.1) 0 (r.2.drop m) := if_pos hm
    have hl : u.plbLeave s.jrnl.conn = s.plbLeave s.jrnl.conn := by
      unfold State.plbLeave; rw [huc, hu, hy]; rfl
    rw [hv, State.ringWrite, show u.jrnl = s.jrnl by rw [hu], State.plbStart_eq, hl, huc, hu, hy]
    simp only [State.modJrnl, keyPut_keyPut, exportOps, p, m, hadd, List.append_assoc, List.append_nil]
    rw [if_pos hm, if_neg (by simp)]
    rfl
  · have hv : v = u := if_neg hm
    rw [hv, hu, hy]
    simp only [State.modJrnl, exportOps, p, m, List.append_nil]
    rw [if_neg hm]

theorem exportOps_cons (base : Word64) (leave ring pos : Nat) (r : Word64 × List Byte) (l : List (Word64 × List Byte)) :
    exportOps base leave ring pos (r :: l) = exportOps base leave ring pos [r] ++ exportOps base leave ring ((pos + r.2.length) % ring) l := by
  simp only [exportOps, List.append_nil]

/-- A batch of records leaves for the ring. -/
theorem State.export_eq (base : Word64) (size : Word32) (c : Nat) : ∀ (l : List (Word64 × List Byte)) (s : State), s.jrnl.conn = c → s.jrnl.base = base → s.jrnl.size = size → l ≠ [] →
    l.foldl State.exportRecord s = { s with
      jrnl := { s.jrnl with sentN := s.jrnl.sentN + l.length, ringPos := ringAfter (1048576 * size.toNat - 16) s.jrnl.ringPos l }
      host := { s.host with
        plb := keyPut s.host.plb c { s.conn c with
          ops := (s.conn c).ops ++ exportOps ((s.conn c).base + base) (s.plbLeave c) (1048576 * size.toNat - 16) s.jrnl.ringPos l
          tick := if (s.conn c).ops = [] then s.tick else (s.conn c).tick } } } := by
  intro l
  induction l with
  | nil => intro s _ _ _ h; exact absurd rfl h
  | cons r l ih =>
    intro s hc hb hs _
    have hring : s.jrnl.ring = 1048576 * size.toNat - 16 := by unfold Journal.ring; rw [hs]
    rw [List.foldl_cons]
    obtain ⟨t, ht⟩ : ∃ t, t = s.exportRecord r := ⟨_, rfl⟩
    rw [← ht]
    obtain ⟨y, hy⟩ : ∃ y : PlbConn, y = { s.conn c with
        ops := (s.conn c).ops ++ exportOps ((s.conn c).base + base) (s.plbLeave c) (1048576 * size.toNat - 16) s.jrnl.ringPos [r]
        tick := if (s.conn c).ops = [] then s.tick else (s.conn c).tick } := ⟨_, rfl⟩
    rw [State.exportRecord_eq, hc, hb, hring, ← hy] at ht
    by_cases hl : l = []
    · subst hl
      rw [List.foldl_nil, ht, hy]
      simp only [ringAfter, List.length_singleton]
    · have hcx : t.conn c = y := by rw [ht]; exact State.conn_keep s _ _
      have htl : t.plbLeave c = s.plbLeave c := by unfold State.plbLeave; rw [hcx, ht, hy]; rfl
      rw [ih t (by rw [ht]; exact hc) (by rw [ht]; exact hb) (by rw [ht]; exact hs) hl, htl, hcx, ht, hy, exportOps_cons _ _ _ _ r l]
      simp only [ringAfter, List.length_cons, keyPut_keyPut, List.append_assoc]
      rw [if_neg (by simp [exportOps])]
      simp only [Nat.add_assoc, Nat.add_comm 1]

theorem Journal.free_busy (j : Journal) (b : Bool) : ({ j with busy := b } : Journal).free = j.free := rfl

theorem State.recordNow_spec (s : State) (code d : Nat) : s.recordNow code d = { s with faults := (s.recordNow code d).faults, host := (s.recordNow code d).host } ∧
    Recorded s (s.recordNow code d) code := by
  unfold State.recordNow
  dsimp only
  obtain ⟨t, ht⟩ : ∃ t : State, t = { s with bar := { s.bar with phase := .run } } := ⟨_, rfl⟩
  have h := State.recordAs_eq t .always code 5 0 0 0 d
  have hr := State.recordAs_recorded t .always code 5 0 0 0 d
  rw [← ht]
  refine ⟨?_, ?_⟩
  · conv_lhs => rw [h]
    rw [ht]
  · refine Recorded.of_faults (u := t) (by rw [ht]) ?_
    exact hr

theorem State.passBlock {s : State} {a o : Nat} {v : Word32} {w : Who} (ha : a = 0x100000 + o) (ho : o < 0x100000) : s.regWrite w a v = s.writePass o v := by
  subst ha
  unfold State.regWrite
  have e1 : (0x100000 + o) / 0x100000 = 1 := by omega
  have e2 : (0x100000 + o) % 0x100000 = o := by omega
  have e3 : coreAt (0x100000 + o) = none := by unfold coreAt; rw [if_neg (by omega)]
  dsimp only
  rw [e3, e1, e2]
  rfl

theorem State.notify_plb (s : State) (t : Nat) (b : List Byte) : (s.notify t b).host.plb = s.host.plb := by
  unfold State.notify
  dsimp only
  split
  · rfl
  · split <;> rfl

theorem State.recordAs_plb (s : State) (kind : FailKind) (a b c d e f : Nat) : (s.recordAs kind a b c d e f).host.plb = s.host.plb := by
  unfold State.recordAs
  dsimp only
  split
  · rw [State.event, State.notify_plb]
  · rfl

theorem State.plbRow {s : State} {c w : Nat} {v : Word32} (hc : c < 256) (hw : w < 16) :
    exec (.plbConnWrite (0x704000 + 64 * c + 4 * w) v) s = .next (s.writePlb (64 * c + 4 * w) v).2 := by
  simp only [exec, execPlbConnWrite]
  rw [if_pos (by omega)]
  have key : ∀ o, o < 0x4000 → s.writeEth (0x4000 + o) v = s.writePlb o v := by
    intro o ho
    unfold State.writeEth
    rw [if_neg (by omega), if_neg (by omega), if_neg (by omega), if_pos (by omega), Nat.add_sub_cancel_left]
  have e : 0x704000 + 64 * c + 4 * w - 0x700000 = 0x4000 + (64 * c + 4 * w) := by omega
  rw [e, key _ (by omega)]

theorem State.opsFail_none : ∀ (l : List PlbOp) (s : State), (∀ o ∈ l, ∀ tag, o.use ≠ .fetch tag) → s.opsFail l = s := by
  intro l
  induction l with
  | nil => intro s _; rfl
  | cons o r ih =>
    intro s h
    unfold State.opsFail
    cases hu : o.use with
    | fetch tag => exact absurd hu (h o (by simp) tag)
    | records q => exact ih s fun o ho => h o (by simp [ho])
    | marker q => exact ih s fun o ho => h o (by simp [ho])
    | consumed => exact ih s fun o ho => h o (by simp [ho])

theorem State.modEth_eq (s : State) (e : Nat) (f : EthPort → EthPort) : s.modEth e f = { s with host := { s.host with eth := modAt s.host.eth e f } } := rfl

theorem State.readFrame_one {s : State} {w : Who} {a : Nat} {v : Option Word32} {t : State} (h4 : a % 4 = 0) (h32 : a < 2 ^ 32) (hp : s.permits w false a = true)
    (hr : s.regRead a = (v, t)) : s.readFrame w a 1 = (natToBytes (if v.isNone = true then stUnmapped else stOk) 1 ++ natToBytes 0 1 ++ natToBytes (v.getD 0).toNat 4, t) := by
  have hb1 : s.readBurst a 1 = (([v.getD 0], v.isNone || false), t) := by
    unfold State.readBurst State.readBurst
    dsimp only
    rw [if_pos h32, hr]
  unfold State.readFrame
  dsimp only
  rw [if_neg (by omega), State.permitsBurst_one, hp, if_neg (by decide), hb1]
  simp

theorem State.candidate_spec {s : State} {i : Nat} (h : s.candidate = some i) : (i = 0 ∨ i = 1) ∧ s.isCandidate i = true ∧
    (s.isCandidate (1 - i) = true → s.slotSvn (1 - i) < s.slotSvn i ∨ i = 0 ∧ s.slotSvn 1 = s.slotSvn 0) := by
  unfold State.candidate at h
  split at h
  · rename_i h0
    split at h
    · rename_i h1
      simp only [Bool.and_eq_true, decide_eq_true_eq] at h1
      cases h
      exact ⟨.inr rfl, h1.1, fun _ => .inl h1.2⟩
    · rename_i h1
      cases h
      refine ⟨.inl rfl, h0, fun hc => ?_⟩
      simp only [Bool.and_eq_true, decide_eq_true_eq, not_and] at h1
      have := h1 hc
      show s.slotSvn 1 < s.slotSvn 0 ∨ _
      rcases Nat.lt_or_ge (s.slotSvn 1) (s.slotSvn 0) with g | g
      · exact .inl g
      · exact .inr ⟨rfl, by omega⟩
  · rename_i h0
    split at h
    · rename_i h1
      cases h
      exact ⟨.inr rfl, h1, fun hc => absurd hc h0⟩
    · cases h

theorem State.record_kept (s : State) (a b c d e f : Nat) : s.record a b c d e f = { s with
    faults := (s.record a b c d e f).faults, bar := (s.record a b c d e f).bar, host := (s.record a b c d e f).host } :=
  State.recordAs_eq s (s.kindOf a) a b c d e f

theorem State.record_recorded (s : State) (a b c d e f : Nat) : Recorded s (s.record a b c d e f) a := State.recordAs_recorded s (s.kindOf a) a b c d e f

theorem State.recordAs_eth (s : State) (kind : FailKind) (a b c d e f : Nat) : (s.recordAs kind a b c d e f).host.eth = s.host.eth := by
  have hn : ∀ (s : State) t b, (s.notify t b).host.eth = s.host.eth := by
    intro s t b
    unfold State.notify
    dsimp only
    split
    · rfl
    · split <;> rfl
  unfold State.recordAs
  dsimp only
  split
  · rw [State.event, hn]
  · rfl

end Sys2Proof.Machine
end

