-- ==== Sys2Proof/Laws/Power.lean ====
section
/-! SUPPORT. What the commands of flash, clocks, throttling, supply and sleep do (R454 to R473, R482, R486, R490). -/

namespace Sys2Proof.Machine

theorem State.flashRefuse_eq (s : State) (c : Nat) : (s.flashRefuse c).2 = State.record s c 5 0 0 0 0 := rfl

theorem keyGet_low {α : Type} {l : List (Nat × α)} {a : Nat} {x : α} (h : keyGet l a = some x) : (a, x) ∈ l := by
  induction l with
  | nil => cases h
  | cons b r ih =>
    unfold keyGet at h
    split at h
    · rename_i g; cases h; subst g; exact List.mem_cons_self
    · exact List.mem_cons_of_mem _ (ih h)

theorem cellGet_append (l m : List Host.Cell) (a : Nat) : cellGet (l ++ m) a = if (l.any fun c => c.1 == a) then cellGet l a else cellGet m a := by
  induction l with
  | nil => rfl
  | cons b r ih =>
    have hd : ∀ x : List Host.Cell, cellGet (b :: x) a = if b.1 = a then b.2 else cellGet x a := fun _ => rfl
    rw [List.cons_append, hd, hd, List.any_cons]
    by_cases h : b.1 = a
    · rw [if_pos h, if_pos h, show (b.1 == a) = true by simpa using h]; rfl
    · rw [if_neg h, if_neg h, show (b.1 == a) = false by simpa using h, ih, Bool.false_or]

theorem cellGet_none {l : List Host.Cell} {a : Nat} (h : (l.any fun c => c.1 == a) = false) : cellGet l a = 0 := by
  induction l with
  | nil => rfl
  | cons b r ih =>
    rw [List.any_cons, Bool.or_eq_false_iff] at h
    unfold cellGet
    rw [if_neg (by simpa using h.1)]
    exact ih h.2

theorem cellGet_filter (l : List Host.Cell) (p : Nat → Bool) (a : Nat) : cellGet (l.filter fun c => p c.1) a = if p a then cellGet l a else 0 := by
  induction l with
  | nil => simp [cellGet]
  | cons b r ih =>
    rw [List.filter_cons]
    by_cases h : b.1 = a
    · by_cases g : p b.1
      · rw [if_pos g]; unfold cellGet; rw [if_pos h, if_pos h, if_pos (by rw [← h]; exact g)]
      · rw [if_neg g, ih, if_neg (by rw [← h]; exact g), if_neg (by rw [← h]; exact g)]
    · by_cases g : p b.1
      · rw [if_pos g]; unfold cellGet; rw [if_neg h, if_neg h, ih]
      · rw [if_neg g, ih]; conv => rhs; unfold cellGet; rw [if_neg h]

theorem cellGet_shift (l : List Host.Cell) (o a : Nat) : cellGet (l.map fun c => (o + c.1, c.2)) a = if o ≤ a then cellGet l (a - o) else 0 := by
  induction l with
  | nil => simp [cellGet]
  | cons b r ih =>
    have hd : ∀ (c : Host.Cell) (x : List Host.Cell) n, cellGet (c :: x) n = if c.1 = n then c.2 else cellGet x n := fun _ _ _ => rfl
    rw [List.map_cons, hd, hd, ih]
    by_cases h : o + b.1 = a
    · rw [if_pos h, if_pos (by omega), if_pos (by omega)]
    · rw [if_neg h]
      split
      · rw [if_neg (by omega)]
      · rfl

theorem cellGet_programBlock (flash win : List Host.Cell) (o a : Nat) (hw : ∀ c ∈ win, c.1 < 65536) :
    cellGet (programBlock flash win o) a = if o ≤ a ∧ a < o + 65536 then cellGet win (a - o) else cellGet flash a := by
  unfold programBlock
  dsimp only
  rw [List.append_assoc, cellGet_append, cellGet_append]
  rw [cellGet_filter flash (fun x => decide (x < o)), cellGet_shift, cellGet_filter flash (fun x => decide (o + 65536 ≤ x))]
  by_cases h1 : a < o
  · rw [if_neg (by omega : ¬ (o ≤ a ∧ _))]
    split
    · rw [if_pos (by simpa using h1)]
    · rename_i h
      rw [if_neg (by
        simp only [List.any_map, List.any_eq_true, Function.comp_apply, beq_iff_eq, not_exists, not_and]
        intro c _ hc; omega), if_neg (by simp; omega)]
      refine (cellGet_none ?_).symm
      rw [Bool.eq_false_iff]
      intro hh
      apply h
      rw [List.any_eq_true] at hh ⊢
      obtain ⟨c, hc, hca⟩ := hh
      exact ⟨c, List.mem_filter.mpr ⟨hc, by simp at hca; simp [hca, h1]⟩, hca⟩
  · rw [if_neg (by
        rw [List.any_eq_true]
        rintro ⟨c, hc, hca⟩
        have := (List.mem_filter.mp hc).2
        simp at hca this; omega)]
    by_cases h2 : a < o + 65536
    · rw [if_pos (by omega : o ≤ a ∧ _)]
      split
      · rw [if_pos (by omega)]
      · rename_i h
        rw [if_neg (by simp; omega)]
        refine (cellGet_none ?_).symm
        rw [Bool.eq_false_iff]
        intro hh
        apply h
        rw [List.any_eq_true] at hh ⊢
        obtain ⟨c, hc, hca⟩ := hh
        refine ⟨(o + c.1, c.2), List.mem_map.mpr ⟨c, hc, rfl⟩, ?_⟩
        simp at hca ⊢; omega
    · rw [if_neg (by omega : ¬ (o ≤ a ∧ _))]
      rw [if_neg (by
        rw [List.any_eq_true]
        rintro ⟨c, hc, hca⟩
        obtain ⟨d, hd, rfl⟩ := List.mem_map.mp hc
        have := hw d hd
        simp at hca; omega), if_pos (by simp; omega)]

theorem State.ownerKey_some {s : State} {i u : Nat} : (s.ownerKey i u).isNone = false ↔
    ∃ r, s.sec.owned = true ∧ s.sec.ownerRec = some r ∧ i < 4 ∧ bit (numAt r.body (136 + i) 1) 7 = true ∧ bit (numAt r.body (136 + i) 1) u = true := by
  unfold State.ownerKey
  cases ho : s.sec.owned <;> cases hr : s.sec.ownerRec <;> simp

theorem closeSessions_eq (s : State) (l : List (Nat × Session)) : l.foldl (fun (s : State) x => s.closeSession x.1) s =
    { s with host := { s.host with sessions := s.host.sessions.filter fun c => l.all fun x => c.1 != x.1 } } := by
  induction l generalizing s with
  | nil => simp
  | cons b r ih =>
    rw [List.foldl_cons, ih]
    show ({ s with host := { s.host with sessions := List.filter _ (keyDel s.host.sessions b.1) } } : State) = _
    unfold keyDel
    rw [List.filter_filter]
    rw [show (fun c : Nat × Session => (b :: r).all fun x => c.1 != x.1) = (fun c => (r.all fun x => c.1 != x.1) && c.1 != b.1) by
      funext c; rw [List.all_cons, Bool.and_comm]]

theorem keyGet_filter_some {α : Type} {l : List (Nat × α)} {p : Nat → Bool} {a : Nat} : keyGet (l.filter fun c => p c.1) a = if p a then keyGet l a else none := by
  induction l with
  | nil => simp [keyGet]
  | cons b r ih =>
    rw [List.filter_cons]
    by_cases h : b.1 = a
    · by_cases g : p b.1
      · rw [if_pos g]; unfold keyGet; rw [if_pos h, if_pos h, if_pos (by rw [← h]; exact g)]
      · rw [if_neg g, ih, if_neg (by rw [← h]; exact g), if_neg (by rw [← h]; exact g)]
    · by_cases g : p b.1
      · rw [if_pos g]; unfold keyGet; rw [if_neg h, if_neg h, ih]
      · rw [if_neg g, ih]; conv => rhs; unfold keyGet; rw [if_neg h]

theorem Clocks.setRef_kept (c : Clocks) (r : Nat) (x : RefClk) :
    (c.setRef r x).cfg = c.cfg ∧ (c.setRef r x).active = c.active ∧ (c.setRef r x).switches = c.switches ∧ (c.setRef r x).holdover = c.holdover ∧ (c.setRef r x).holdLimit = c.holdLimit := by
  unfold Clocks.setRef; split <;> exact ⟨rfl, rfl, rfl, rfl, rfl⟩

theorem Clocks.modRef_kept (c : Clocks) (r : Nat) (f : RefClk → RefClk) :
    (c.modRef r f).cfg = c.cfg ∧ (c.modRef r f).active = c.active ∧ (c.modRef r f).switches = c.switches ∧ (c.modRef r f).holdover = c.holdover ∧ (c.modRef r f).holdLimit = c.holdLimit :=
  Clocks.setRef_kept c r _

theorem Clocks.ref_modRef_other {c : Clocks} {r q : Nat} (h : r = 0 ∧ q = 1 ∨ r = 1 ∧ q = 0) (f : RefClk → RefClk) : (c.modRef r f).ref q = c.ref q := by
  rcases h with ⟨rfl, rfl⟩ | ⟨rfl, rfl⟩ <;> rfl

/-- What the loss of reference r does (R455). -/
theorem State.loseRef_spec (s : State) (r : Nat) (u : State) (hr : r = 0 ∨ r = 1)
    (hu : u = { s with clk := s.clk.modRef r fun x => { x with present := false, since := s.tick } }) :
    ((s.clk.ref r).present = false → s.loseRef r = s) ∧
    ((s.clk.ref r).present = true →
      (s.clk.active ≠ r → s.loseRef r = u) ∧
      (s.clk.active = r → (s.clk.ref (1 - r)).present = true → s.loseRef r =
        (State.record { u with clk := { u.clk with active := 1 - r, switches := s.clk.switches + 1 } } 0x0601 6 r 0 0 0)) ∧
      (s.clk.active = r → (s.clk.ref (1 - r)).present = false → s.loseRef r =
        (State.record { u with clk := { u.clk with holdover := true, switches := s.clk.switches + 1 } } 0x0602 6 r 0 0 0))) := by
  obtain ⟨k1, k2, k3, k4, k5⟩ := Clocks.modRef_kept s.clk r fun x => { x with present := false, since := s.tick }
  have hoth : u.clk.ref (1 - r) = s.clk.ref (1 - r) := by
    rw [hu]
    exact Clocks.ref_modRef_other (by omega) _
  have ha : u.clk.active = s.clk.active := by rw [hu]; exact k2
  have hsw : u.clk.switches = s.clk.switches := by rw [hu]; exact k3
  have hx : s.loseRef r = if !(s.clk.ref r).present then s else if u.clk.active ≠ r then u
      else if (u.clk.ref (1 - r)).present then (u.modClk fun c => { c with active := 1 - r, switches := c.switches + 1 }).powerFault 0x0601 r 0
      else (u.modClk fun c => { c with holdover := true, switches := c.switches + 1 }).powerFault 0x0602 r 0 := by
    rw [hu]; rfl
  rw [ha, hoth] at hx
  refine ⟨fun h => ?_, fun h => ⟨fun g => ?_, fun g1 g2 => ?_, fun g1 g2 => ?_⟩⟩
  · rw [hx, h]; rfl
  · rw [hx, h, if_neg (by decide), if_pos g]
  · rw [hx, h, if_neg (by decide), if_neg (by simpa using g1), if_pos g2, ← hsw]; rfl
  · rw [hx, h, if_neg (by decide), if_neg (by simpa using g1), if_neg (by rw [g2]; decide), ← hsw]; rfl

theorem State.monitored_iff (s : State) (r : Nat) : s.monitored r = true ↔ s.board.standby = true ∧ (r = 0 ∨ r = 1) ∧ bit s.clk.cfg.toNat (2 + r) = true := by
  unfold State.monitored Clocks.enabled
  simp only [Bool.and_eq_true, decide_eq_true_eq, and_assoc]
  rw [show r < 2 ↔ r = 0 ∨ r = 1 by omega]

/-- One reference in a write of CLK_CFG. -/
def clkStep (old : Clocks) (s : State) (r : Nat) : State :=
  if old.enabled r && !s.clk.enabled r then s.loseRef r
  else if !old.enabled r && s.clk.enabled r then s.modClk fun c => c.modRef r fun x => { x with since := s.tick }
  else s

theorem writeClkCfg_eq (s : State) (v : Word32) (u : State) (hu : u = { s with clk := { s.clk with cfg := v &&& 0xF } }) (ha : s.clk.active = 0 ∨ s.clk.active = 1) :
    s.writeClkCfg v = clkStep s.clk (clkStep s.clk u (1 - s.clk.active)) s.clk.active := by
  rw [hu]; rfl

theorem enabled_masked (c : Clocks) (v : Word32) (r : Nat) (h : r < 2) : ({ c with cfg := v &&& 0xF } : Clocks).enabled r = bit v.toNat (2 + r) := by
  unfold Clocks.enabled bit
  dsimp only
  rcases (by omega : r = 0 ∨ r = 1) with rfl | rfl <;> (simp [Nat.testBit_and]; intro _; decide)

theorem State.power_kept (s : State) (c l d : Nat) : s.powerFault c l d = { s with
    faults := (s.powerFault c l d).faults, bar := (s.powerFault c l d).bar, host := (s.powerFault c l d).host } :=
  State.record_kept s c 6 l 0 0 d

theorem State.power_recorded (s : State) (c l d : Nat) : Recorded s (s.powerFault c l d) c := State.record_recorded s c 6 l 0 0 d

theorem State.overheat_spec (s : State) (n : Nat) : ∃ v, s.overheat n = v ∧ v.clk = { s.clk with thermal := 8, thermalTick := s.tick, hot := true } ∧
    v = { s with clk := v.clk, faults := v.faults, bar := v.bar, host := v.host } ∧
    v.faults.total = s.faults.total + (if s.clk.thermal = 0 then 1 else 0) + (if s.clk.hot then 0 else 1) ∧
    (s.clk.hot = false → ∃ x, Recorded x v 0x0622) ∧ (s.clk.thermal = 0 → s.clk.hot = true → Recorded s v 0x0620) := by
  obtain ⟨a, ha⟩ : ∃ a, a = s.thermalEpisode n := ⟨_, rfl⟩
  have hak : a = { s with faults := a.faults, bar := a.bar, host := a.host } ∧ a.faults.total = s.faults.total + (if s.clk.thermal = 0 then 1 else 0) ∧
      (s.clk.thermal = 0 → Recorded s a 0x0620) := by
    rw [ha]
    unfold State.thermalEpisode
    split
    · rename_i h
      exact ⟨State.power_kept _ _ _ _, (State.power_recorded _ _ _ _).1, fun _ => State.power_recorded _ _ _ _⟩
    · rename_i h
      exact ⟨rfl, by simp, fun g => absurd g h⟩
  obtain ⟨h1, h2, h3⟩ := hak
  have hac : a.clk = s.clk := by rw [h1]
  have hat : a.tick = s.tick := by rw [h1]; rfl
  obtain ⟨b, hb⟩ : ∃ b : State, b = { a with clk := { s.clk with thermal := 8, thermalTick := s.tick } } := ⟨_, rfl⟩
  have hx : s.overheat n = if b.clk.hot then b else ({ b with clk := { b.clk with hot := true } } : State).powerFault 0x0622 n 0 := by
    unfold State.overheat
    dsimp only
    rw [← ha, hb]
    unfold State.modClk
    rw [hac, hat]
  have hbh : b.clk.hot = s.clk.hot := by rw [hb]
  have hbf : b.faults = a.faults := by rw [hb]
  rw [hx, hbh]
  cases hh : s.clk.hot with
  | true =>
    refine ⟨b, rfl, by rw [hb]; dsimp only; rw [← hh], ?_, by rw [hbf, h2]; simp, (by intro g; cases g), fun g _ => ?_⟩
    · rw [hb, h1]
    · have := h3 g
      unfold Recorded at this ⊢
      rw [hbf]
      exact this
  | false =>
    have k1 := State.power_kept ({ b with clk := { b.clk with hot := true } } : State) 0x0622 n 0
    have k2 := State.power_recorded ({ b with clk := { b.clk with hot := true } } : State) 0x0622 n 0
    refine ⟨_, rfl, ?_, ?_, ?_, fun _ => ⟨_, k2⟩, (by intro _ g; cases g)⟩
    · show (State.powerFault _ _ _ _).clk = _
      rw [k1, hb]
    · rw [if_neg (by decide)]
      generalize ({ b with clk := { b.clk with hot := true } } : State).powerFault 0x0622 n 0 = y at k1 ⊢
      have hyc : y.clk = { b.clk with hot := true } := by rw [k1]
      rw [hyc]
      conv_lhs => rw [k1]
      rw [hb]
      dsimp only
      rw [h1]
    · show (State.powerFault _ _ _ _).faults.total = _
      rw [k2.1]
      show b.faults.total + 1 = _
      rw [hbf, h2]
      simp

theorem hottest_all (f : Nat → BitVec 16) : (((List.range 104).map f).all fun t => decide (t.toInt < 1520)) = true ↔ ¬ ∃ n, n < 104 ∧ 1520 ≤ (f n).toInt := by
  simp [List.all_eq_true]

theorem keyGet_keyDel_other {α : Type} (l : List (Nat × α)) {a b : Nat} (h : b ≠ a) : keyGet (keyDel l a) b = keyGet l b := by
  unfold keyDel
  rw [keyGet_filter_some (p := fun x => x != a), if_pos (by simpa using h)]

theorem State.group_eq {s t : State} (h : t.power.groups = s.power.groups) (g : Nat) : t.group g = s.group g := by
  unfold State.group; rw [h]

theorem State.group_groupOn_same (s : State) (g : Nat) : (s.groupOn g).group g = .on := by
  unfold State.groupOn State.noteOn State.group
  dsimp only
  rw [keyGet_keyDel]; rfl

theorem State.group_groupOn_other (s : State) {g h : Nat} (e : h ≠ g) : (s.groupOn g).group h = s.group h := by
  unfold State.groupOn State.noteOn State.group
  dsimp only
  rw [keyGet_keyDel_other _ e, s.leaveIdle_kept]

theorem mem_groupCores {g k : Nat} : k ∈ groupCores g ↔ k < 768 ∧ groupOf k = g := by
  unfold groupCores
  rw [List.mem_filter, List.mem_range]
  simp

/-- A set of cores is changed, each in the same way; the way may look at the clock. -/
theorem State.foldl_modCore {f : Core → Core} : ∀ (l : List Nat) (s : State), l.Nodup →
    (∀ k, (k ∈ l → (l.foldl (fun (s : State) k => s.modCore k f) s).core k = f (s.core k)) ∧
      (k ∉ l → (l.foldl (fun (s : State) k => s.modCore k f) s).core k = s.core k))
  | [], s, _ => fun k => ⟨fun h => absurd h List.not_mem_nil, fun _ => rfl⟩
  | a :: r, s, hn => by
    rw [List.nodup_cons] at hn
    intro k
    rw [List.foldl_cons]
    have ih := State.foldl_modCore (f := f) r (s.modCore a f) hn.2 k
    refine ⟨fun h => ?_, fun h => ?_⟩
    · by_cases g : k = a
      · subst g
        rw [ih.2 hn.1, State.core_modCore_same]
      · rw [ih.1 (by simpa [g] using h), State.core_modCore_other _ _ _ _ g]
    · simp only [List.mem_cons, not_or] at h
      rw [ih.2 h.2, State.core_modCore_other _ _ _ _ h.1]

theorem foldl_powered (l : List Nat) (s : State) (hl : l.Nodup) : ∃ t, (l.foldl (fun (s : State) k => s.modCore k fun c => c.powered (s.now - s.power.coresFrom)) s) = t ∧
    t = { s with cores := t.cores } ∧ (∀ k, (k ∈ l → t.core k = (s.core k).powered (s.now - s.power.coresFrom)) ∧ (k ∉ l → t.core k = s.core k)) := by
  have h : ∀ (l : List Nat) (u : State), u.now = s.now → u.power = s.power →
      (l.foldl (fun (s : State) k => s.modCore k fun c => c.powered (s.now - s.power.coresFrom)) u) =
      l.foldl (fun (v : State) k => v.modCore k fun c => c.powered (s.now - s.power.coresFrom)) u := by
    intro l
    induction l with
    | nil => intro u _ _; rfl
    | cons a r ih =>
      intro u h1 h2
      rw [List.foldl_cons, List.foldl_cons, h1, h2]
      exact ih _ h1 h2
  rw [h l s rfl rfl]
  exact ⟨_, rfl, State.foldl_modCore_eq _ _, State.foldl_modCore l s hl⟩

theorem groupCores_nodup (g : Nat) : (groupCores g).Nodup := List.Nodup.filter _ List.nodup_range

theorem State.groupFails_spec (s : State) (g : Nat) : ∃ t, s.groupFails g = t ∧ Recorded s t 0x0626 ∧ t.group g = .failed ∧ (∀ h, h ≠ g → t.group h = s.group h) ∧ t.cores = s.cores ∧
    (∀ j, j ∈ t.board.coresFailed ↔ j ∈ s.board.coresFailed ∨ j < 768 ∧ groupOf j = g) := by
  obtain ⟨v, hv⟩ : ∃ v, v = s.leaveIdle := ⟨_, rfl⟩
  have hvs := s.leaveIdle_kept
  rw [← hv] at hvs
  obtain ⟨u, hu⟩ : ∃ u : State, u = { v with power := { s.power with groups := keyPut s.power.groups g .failed }, board := { s.board with coresFailed := (groupCores g).foldl markPut s.board.coresFailed } } := ⟨_, rfl⟩
  have k := State.power_kept u 0x0626 (groupDomain g) 0
  have kr := State.power_recorded u 0x0626 (groupDomain g) 0
  have hx : s.groupFails g = u.powerFault 0x0626 (groupDomain g) 0 := by
    unfold State.groupFails
    rw [← hv, hu]
    rw [hvs]
  have huf : u.faults = s.faults ∧ u.cores = s.cores := by rw [hu, hvs]; exact ⟨rfl, rfl⟩
  rw [hx]
  generalize u.powerFault 0x0626 (groupDomain g) 0 = t at k kr ⊢
  refine ⟨t, rfl, ?_, ?_, fun h e => ?_, by rw [k]; exact huf.2, fun j => ?_⟩
  · exact Recorded.of_faults (u := u) huf.1 kr
  · rw [k, hu]; unfold State.group; dsimp only; rw [keyGet_keyPut_same]; rfl
  · rw [k, hu]; unfold State.group; dsimp only; rw [keyGet_keyPut_other _ _ _ _ e]
  · rw [k, hu]
    dsimp only
    have : ∀ (l m : List Nat), j ∈ l.foldl markPut m ↔ j ∈ m ∨ j ∈ l := by
      intro l
      induction l with
      | nil => intro m; simp
      | cons a r ih => intro m; rw [List.foldl_cons, ih, mem_markPut, List.mem_cons]; tauto
    rw [this, mem_groupCores]

theorem bit_andNot {v old : Word32} {b : Nat} (h : b < 32) : bit (v &&& ~~~old).toNat b = (bit v.toNat b && !bit old.toNat b) := by
  unfold bit
  rw [BitVec.testBit_toNat, BitVec.getLsbD_and, BitVec.getLsbD_not, BitVec.testBit_toNat, BitVec.testBit_toNat]
  simp [h]

theorem mem_reqGroups {w : Nat} {v old : Word32} {g : Nat} : g ∈ reqGroups w (v &&& ~~~old) ↔ ∃ b < 32, g = 32 * w + b ∧ bit v.toNat b = true ∧ bit old.toNat b = false := by
  unfold reqGroups
  rw [List.mem_map]
  constructor
  · rintro ⟨b, hb, rfl⟩
    obtain ⟨h1, h2⟩ := List.mem_filter.mp hb
    have hb32 := List.mem_range.mp h1
    refine ⟨b, hb32, rfl, ?_⟩
    rw [bit_andNot hb32] at h2
    simpa using h2
  · rintro ⟨b, hb, rfl, h1, h2⟩
    exact ⟨b, List.mem_filter.mpr ⟨List.mem_range.mpr hb, by rw [bit_andNot hb, h1, h2]; rfl⟩, rfl⟩

/-- What a group's turning OFF does (R465, R466). -/
theorem State.groupOff_spec (s : State) (g : Nat) : ∃ t, s.groupOff g = t ∧ t.now = s.now ∧ t.power.coresFrom = s.power.coresFrom ∧ t.faults = s.faults ∧ t.power.offReq = s.power.offReq ∧
    (s.group g = .failed → t = s) ∧ (s.group g ≠ .failed → t.group g = .off ∧ ∀ k, groupOf k = g → k < 768 → k ∉ t.power.stopped ∧ t.core k = (s.core k).powered (s.now - s.power.coresFrom)) ∧
    (∀ h, h ≠ g → t.group h = s.group h) ∧ (∀ k, ¬(groupOf k = g ∧ k < 768) → (k ∈ t.power.stopped ↔ k ∈ s.power.stopped) ∧ t.core k = s.core k) := by
  unfold State.groupOff
  by_cases hf : s.group g = .failed
  · rw [if_pos (by rw [hf]; rfl)]
    exact ⟨s, rfl, rfl, rfl, rfl, rfl, fun _ => rfl, fun h => absurd hf h, fun _ _ => rfl, fun _ _ => ⟨Iff.rfl, rfl⟩⟩
  · rw [if_neg (by simpa using hf)]
    obtain ⟨u, hu1, hu2, hu3⟩ := foldl_powered (groupCores g) s (groupCores_nodup g)
    dsimp only
    rw [hu1]
    have hus : u.power = s.power := by rw [hu2]
    refine ⟨_, rfl, ?_, ?_, ?_, ?_, fun h => absurd h hf, fun _ => ⟨?_, fun k h1 h2 => ⟨?_, (hu3 k).1 (mem_groupCores.mpr ⟨h2, h1⟩)⟩⟩, fun h e => ?_, fun k hk => ⟨?_, (hu3 k).2 fun hm => hk ⟨(mem_groupCores.mp hm).2, (mem_groupCores.mp hm).1⟩⟩⟩
    · show u.now = _; rw [hu2]
    · show u.power.coresFrom = _; rw [hus]
    · show u.faults = _; rw [hu2]
    · show u.power.offReq = _; rw [hus]
    · unfold State.group State.modPower; dsimp only; rw [keyGet_keyPut_same]; rfl
    · show k ∉ u.power.stopped.filter _
      rw [List.mem_filter]
      rintro ⟨-, h⟩
      have : k ∈ groupCores g := mem_groupCores.mpr ⟨h2, h1⟩
      simp [this] at h
    · unfold State.group State.modPower; dsimp only; rw [keyGet_keyPut_other _ _ _ _ e, hus]
    · show k ∈ u.power.stopped.filter _ ↔ _
      rw [List.mem_filter, hus]
      have : k ∉ groupCores g := fun hm => hk ⟨(mem_groupCores.mp hm).2, (mem_groupCores.mp hm).1⟩
      simp [this]

theorem State.foldl_groupOff : ∀ (l : List Nat) (s : State), l.Nodup → ∃ t, l.foldl State.groupOff s = t ∧ t.now = s.now ∧ t.power.coresFrom = s.power.coresFrom ∧ t.faults = s.faults ∧ t.power.offReq = s.power.offReq ∧
    (∀ g, g ∈ l → s.group g ≠ .failed → t.group g = .off ∧ ∀ k, k < 768 → groupOf k = g → k ∉ t.power.stopped ∧ t.core k = (s.core k).powered (s.now - s.power.coresFrom)) ∧
    (∀ g, ¬(g ∈ l ∧ s.group g ≠ .failed) → t.group g = s.group g ∧ ∀ k, groupOf k = g → (k ∈ t.power.stopped ↔ k ∈ s.power.stopped) ∧ t.core k = s.core k)
  | [], s, _ => ⟨s, rfl, rfl, rfl, rfl, rfl, fun g h => absurd h List.not_mem_nil, fun g _ => ⟨rfl, fun _ _ => ⟨Iff.rfl, rfl⟩⟩⟩
  | a :: r, s, hn => by
    rw [List.nodup_cons] at hn
    obtain ⟨u, hu, a1, a2, a3, a4, a5, a6, a7, a8⟩ := State.groupOff_spec s a
    obtain ⟨t, ht, b1, b2, b3, b4, b5, b6⟩ := State.foldl_groupOff r u hn.2
    refine ⟨t, by rw [List.foldl_cons, hu, ht], b1.trans a1, b2.trans a2, b3.trans a3, b4.trans a4, fun g hg hf => ?_, fun g hg => ?_⟩
    · by_cases e : g = a
      · subst e
        obtain ⟨c1, c2⟩ := a6 hf
        obtain ⟨d1, d2⟩ := b6 g (fun h => hn.1 h.1)
        refine ⟨d1.trans c1, fun k hk hkg => ⟨fun h => (c2 k hkg hk).1 ((d2 k hkg).1.mp h), (d2 k hkg).2.trans (c2 k hkg hk).2⟩⟩
      · have hgr : g ∈ r := by simpa [e] using hg
        obtain ⟨d1, d2⟩ := b5 g hgr (by rw [a7 g e]; exact hf)
        refine ⟨d1, fun k hk hkg => ⟨(d2 k hk hkg).1, ?_⟩⟩
        rw [(d2 k hk hkg).2, (a8 k (fun h => e (hkg.symm.trans h.1))).2, a1, a2]
    · by_cases e : g = a
      · subst e
        have hf : s.group g = .failed := by
          by_cases hf : s.group g = .failed
          · exact hf
          · exact absurd ⟨List.mem_cons_self, hf⟩ hg
        have hus := a5 hf
        rw [hus] at b6
        exact b6 g fun h => hn.1 h.1
      · obtain ⟨d1, d2⟩ := b6 g (fun h => hg ⟨List.mem_cons_of_mem _ h.1, by rw [← a7 g e]; exact h.2⟩)
        refine ⟨d1.trans (a7 g e), fun k hk => ?_⟩
        have := a8 k (fun h => e (hk.symm.trans h.1))
        exact ⟨(d2 k hk).1.trans this.1, (d2 k hk).2.trans this.2⟩

theorem reqGroups_nodup (w : Nat) (v : Word32) : (reqGroups w v).Nodup := by
  unfold reqGroups
  refine List.Nodup.map (fun a b h => ?_) (List.Nodup.filter _ List.nodup_range)
  omega

end Sys2Proof.Machine
end

