-- ==== Sys2Proof/Laws/Regs.lean ====
section
/-! SUPPORT. What writes and reads of the control space do (R22, R23, R155, R259, R269, R291). -/

namespace Sys2Proof.Machine

theorem coreAt_none {a : Nat} (h : a < 0x10000000) : coreAt a = none := by
  unfold coreAt; rw [if_neg (by omega)]

theorem coreAt_some {k o : Nat} (hk : k < 768) (ho : o < 0x40000) : coreAt (0x10000000 + 0x40000 * k + o) = some (k, o) := by
  unfold coreAt
  rw [if_pos (by omega)]
  congr 2 <;> omega

/-- A row of the Link ports block. -/
theorem State.blockRow_links {s : State} {o : Nat} {p : Nat → Bool} {v : Word32} (h : o < 0x100000) (hp : p o = true) (h4 : o % 4 = 0) :
    s.blockRow 6 p (0x600000 + o) v = (s.writeLinks o v).2 := by
  have e1 : (0x600000 + o) / 0x100000 = 6 := by omega
  have e2 : (0x600000 + o) % 0x100000 = o := by omega
  unfold State.blockRow
  rw [if_pos ⟨e1, by decide, by rw [e2]; exact hp, by omega⟩]
  unfold State.regWrite
  dsimp only
  rw [coreAt_none (by omega), e1, e2]
  rfl

theorem State.route_row {s : State} {o : Nat} {v : Word32} (h : o < 0x14000) (h2 : 0x6000 ≤ o) (hp : (s.routeReg o).isSome = true) (h4 : o % 4 = 0) :
    exec (.routingRegisterWrite (0x600000 + o) v) s = .next (s.writeRoute o v).2 := by
  simp only [exec, execRoutingRegisterWrite]
  rw [State.blockRow_links (by omega) hp h4]
  unfold State.writeLinks
  rw [if_neg (by omega), if_pos hp]

theorem State.route_shut {s : State} {o : Nat} {v : Word32} (h : o ≠ 0x8004 ∧ o ≠ 0x8008) (h1 : s.anyAttached = true) (h2 : s.bar.phase ≠ .held) (h3 : s.routeFree o = false) :
    (s.writeRoute o v).2 = State.record s 0x0444 5 0 0 0 0 := by
  unfold State.writeRoute
  rw [if_neg (by omega), if_pos (by rw [h1, h3]; simpa using h2)]
  rfl

theorem State.route_put {s : State} {o : Nat} {v : Word32} (h : o ≠ 0x8004 ∧ o ≠ 0x8008) (h1 : s.anyAttached = false ∨ s.bar.phase = .held ∨ s.routeFree o = true) :
    (s.writeRoute o v).2 = s.putRoute o v := by
  unfold State.writeRoute
  rw [if_neg (by omega), if_neg (by rcases h1 with h | h | h <;> rw [h] <;> simp)]

theorem State.routeReg_some {s : State} {o : Nat} (h : o = 0x8000 ∨ o = 0x8004 ∨ o = 0x8008 ∨ o = 0x800C ∨ (0x8010 ≤ o ∧ o < 0x8028) ∨ (0x8030 ≤ o ∧ o < 0x8050) ∨ o = 0x8050 ∨
    (0x10000 ≤ o ∧ o < 0x14000) ∨ (0xC000 ≤ o ∧ o < 0xF000)) : (s.routeReg o).isSome = true := by
  unfold State.routeReg
  dsimp only
  split; · rfl
  split; · rfl
  split; · rfl
  split; · rfl
  split; · rfl
  split; · rfl
  split; · rfl
  split; · rfl
  have : calAt o = some ((o - 0xC000) / 0x200, o / 0x100 % 2, o % 0x100) := by
    unfold calAt; rw [if_pos (by omega)]
  rw [this]
  rfl

theorem State.routeFree_no {s : State} {o : Nat} (h : o ≠ 0x800C ∧ o ≠ 0x8050) (h2 : o < 0xC000 ∨ 0xF000 ≤ o) : s.routeFree o = false := by
  unfold State.routeFree
  have : calAt o = none := by unfold calAt; rw [if_neg (by omega)]
  rw [this]
  simp [h.1, h.2]

theorem State.routeFree_cal {s : State} {p b i : Nat} (hp : p < 24) (hb : b < 2) (hi : i < 64) :
    s.routeFree (0xC000 + 0x200 * p + 0x100 * b + 4 * i) = decide (¬(b = 1 ↔ s.route.calActive = true)) := by
  unfold State.routeFree
  have : calAt (0xC000 + 0x200 * p + 0x100 * b + 4 * i) = some (p, b, 4 * i) := by
    unfold calAt; rw [if_pos (by omega)]
    congr 2
    · omega
    · congr 1 <;> omega
  rw [this]
  have e1 : (0xC000 + 0x200 * p + 0x100 * b + 4 * i == 0x800C) = false := by simp; omega
  have e2 : (0xC000 + 0x200 * p + 0x100 * b + 4 * i == 0x8050) = false := by simp; omega
  rw [e1, e2]
  simp

theorem State.evaluate_extra {s : State} {p : Nat} (hp : p < 24) (hl : s.ports.length = 24) (h : bit (s.port p).expect.toNat 31 = false) :
    ((s.evaluate p).port p).state = .extra ∧ ((s.evaluate p).port p).usable = false ∧ (s.evaluate p).cores = s.cores := by
  unfold State.evaluate
  dsimp only
  rw [if_pos (by rw [h]; rfl)]
  obtain ⟨u, hu⟩ : ∃ u, u = (s.modPort p fun x => { x with state := .extra }).linkFault p 0x0505 0 := ⟨_, rfl⟩
  have hf : LinkKept (s.modPort p fun x => { x with state := .extra }) u := by rw [hu]; exact LinkKept.recordAs _ _ _ _ _ _ _ _
  have hml : (s.modPort p fun x => { x with state := .extra }).ports.length = 24 := by simp only [State.modPort, length_modAt]; exact hl
  have hup : (u.port p).state = .extra := by
    rw [hf.2.2 p, State.port_modPort_same _ _ _ (by omega)]
  have hul : u.ports.length = 24 := hf.2.1.trans hml
  have hk := LinkKept.review u false
  rw [← hu]
  refine ⟨?_, State.review_unusable false hp hul (State.bundleOk_inactive hp (by rw [hup]; decide)), ?_⟩
  · rw [hk.2.2 p]; exact hup
  · rw [hk.1]; show u.cores = _; rw [hf.1]; rfl

/-- The cores and the LINK_CFG of every port stay. -/
def CfgKept (s t : State) : Prop := t.cores = s.cores ∧ ∀ q, (t.port q).cfg = (s.port q).cfg

theorem CfgKept.refl (s : State) : CfgKept s s := ⟨rfl, fun _ => rfl⟩

theorem CfgKept.trans {s t u : State} (h : CfgKept s t) (g : CfgKept t u) : CfgKept s u := ⟨g.1.trans h.1, fun q => (g.2 q).trans (h.2 q)⟩

theorem CfgKept.of_link {s t : State} (h : LinkKept s t) : CfgKept s t := ⟨by rw [h.1], fun q => by rw [h.2.2 q]⟩

theorem CfgKept.modPort (s : State) (p : Nat) (f : Port → Port) (h : ∀ x, (f x).cfg = x.cfg) : CfgKept s (s.modPort p f) := by
  refine ⟨rfl, fun q => ?_⟩
  by_cases e : q = p
  · subst e
    by_cases hl : q < s.ports.length
    · rw [State.port_modPort_same _ _ _ hl, h]
    · unfold State.modPort State.port; dsimp only; rw [modAt_out _ _ _ hl]
  · rw [State.port_modPort_other _ _ _ _ e]

theorem CfgKept.evaluate (s : State) (p : Nat) : CfgKept s (s.evaluate p) := by
  unfold State.evaluate
  dsimp only
  split
  · refine CfgKept.trans ?_ (CfgKept.of_link (LinkKept.review _ _))
    unfold State.linkFault
    refine CfgKept.trans ?_ (CfgKept.of_link (LinkKept.recordAs _ _ _ _ _ _ _ _))
    exact CfgKept.modPort s p _ fun _ => rfl
  · split
    · refine CfgKept.trans ?_ (CfgKept.of_link (LinkKept.review _ _))
      unfold State.linkFault
      refine CfgKept.trans ?_ (CfgKept.of_link (LinkKept.recordAs _ _ _ _ _ _ _ _))
      exact CfgKept.modPort s p _ fun _ => rfl
    · exact (CfgKept.modPort s p (fun x => { x with state := .active }) fun _ => rfl).trans (CfgKept.of_link (LinkKept.review _ _))

theorem CfgKept.reevaluate (s : State) (p : Nat) : CfgKept s (s.reevaluate p) := by
  unfold State.reevaluate; split
  · exact CfgKept.evaluate s p
  · exact CfgKept.refl s

theorem CfgKept.stopPort (s : State) (p : Nat) (st : PortState) (q : Bool) : CfgKept s (s.stopPort p st q) :=
  (CfgKept.modPort s p (fun x => { x with state := st, downTick := s.tick, locks := 0, settling := false }) fun _ => rfl).trans (CfgKept.of_link (LinkKept.review _ _))

theorem CfgKept.noteOn : ∀ (l : List Nat) (s : State), CfgKept s (l.foldl State.noteOn s)
  | [], s => CfgKept.refl s
  | a :: r, s => CfgKept.trans ⟨rfl, fun _ => rfl⟩ (CfgKept.noteOn r (s.noteOn a))

theorem CfgKept.startPort (s : State) (p : Nat) : CfgKept s (s.startPort p) := by
  unfold State.startPort
  extract_lets cold wait on pw s1 s2
  have h2 : CfgKept s s2 := CfgKept.trans (t := s1) ⟨rfl, fun _ => rfl⟩ (CfgKept.noteOn on s1)
  split
  · exact h2.trans (CfgKept.modPort _ _ _ fun _ => rfl)
  · unfold State.train
    refine h2.trans (CfgKept.trans ?_ (CfgKept.modPort _ _ _ fun _ => rfl))
    exact ⟨rfl, fun _ => rfl⟩

theorem expect_row {s : State} {p : Nat} {v : Word32} {f : Port → Port} {a : Nat} (hp : p < 24)
    (ha : (a, f) ∈ [(0x600008 + 0x400 * p, fun x : Port => { x with expect := v &&& 0xC01FFFFF }),
      (0x60000C + 0x400 * p, fun x : Port => { x with expectId := (hi32 x.expectId).setWidth 64 <<< 32 ||| v.setWidth 64 }),
      (0x600010 + 0x400 * p, fun x : Port => { x with expectId := (v.setWidth 64) <<< 32 ||| (lo32 x.expectId).setWidth 64 })]) :
    exec (.linkExpectWrite a v) s = .next (({ s with ports := modAt s.ports p f } : State).reevaluate p) := by
  have h : ∀ o, o = 0x08 ∨ o = 0x0C ∨ o = 0x10 → exec (.linkExpectWrite (0x600000 + (0x400 * p + o)) v) s = .next (s.writeExpect p o v) := by
    intro o ho
    simp only [exec, execLinkExpectWrite]
    rw [State.blockRow_links (by omega) (by
      have : (0x400 * p + o) % 0x400 = o := by omega
      rw [this]
      simp only [Bool.and_eq_true, decide_eq_true_eq]
      refine ⟨by omega, ?_⟩
      rcases ho with rfl | rfl | rfl <;> rfl) (by omega)]
    unfold State.writeLinks
    rw [if_pos (by omega), show (0x400 * p + o) / 0x400 = p by omega, show (0x400 * p + o) % 0x400 = o by omega]
    unfold State.writeLink
    rw [if_neg (by omega), if_pos ho]
  simp only [List.mem_cons, List.not_mem_nil, or_false, Prod.mk.injEq] at ha
  rcases ha with ⟨rfl, rfl⟩ | ⟨rfl, rfl⟩ | ⟨rfl, rfl⟩
  · rw [show 0x600008 + 0x400 * p = 0x600000 + (0x400 * p + 0x08) by omega, h _ (.inl rfl)]; rfl
  · rw [show 0x60000C + 0x400 * p = 0x600000 + (0x400 * p + 0x0C) by omega, h _ (.inr (.inl rfl))]; rfl
  · rw [show 0x600010 + 0x400 * p = 0x600000 + (0x400 * p + 0x10) by omega, h _ (.inr (.inr rfl))]; rfl

theorem expect_same {p : Nat} {v : Word32} {f : Port → Port} {a : Nat}
    (ha : (a, f) ∈ [(0x600008 + 0x400 * p, fun x : Port => { x with expect := v &&& 0xC01FFFFF }),
      (0x60000C + 0x400 * p, fun x : Port => { x with expectId := (hi32 x.expectId).setWidth 64 <<< 32 ||| v.setWidth 64 }),
      (0x600010 + 0x400 * p, fun x : Port => { x with expectId := (v.setWidth 64) <<< 32 ||| (lo32 x.expectId).setWidth 64 })]) (x : Port) :
    (f x).trained = x.trained ∧ (f x).rx = x.rx := by
  simp only [List.mem_cons, List.not_mem_nil, or_false, Prod.mk.injEq] at ha
  rcases ha with ⟨rfl, rfl⟩ | ⟨rfl, rfl⟩ | ⟨rfl, rfl⟩ <;> exact ⟨rfl, rfl⟩

theorem cfg_row {s : State} {p : Nat} {v : Word32} (hp : p < 24) : exec (.linkCfgWrite (0x600000 + 0x400 * p) v) s = .next (s.writeLinkCfg p v).2 := by
  simp only [exec, execLinkCfgWrite]
  rw [State.blockRow_links (by omega) (by simp; omega) (by omega)]
  unfold State.writeLinks
  rw [if_pos (by omega), show (0x400 * p) / 0x400 = p by omega, show (0x400 * p) % 0x400 = 0 by omega]
  rfl

/-- A row of the barrier's set-up stores in the phase it names and is refused in any other (R338). -/
theorem bar_row {s : State} {v : Word32} {ph : Phase} {g : Barrier → Barrier} (o : Nat) (h4 : o % 4 = 0) (hp : barPhase o = some ph) (hg : ∀ b, b.put o v = g b) :
    exec (.barrierConfigWrite (0x900000 + o) v) s = .next (if s.bar.phase = ph then { s with bar := g s.bar } else (s.barRefuse 0x0264).2) := by
  have hl : o < 0x100000 := by
    unfold barPhase at hp
    split at hp
    · omega
    · split at hp
      · omega
      · simp at hp
  simp only [exec, execBarrierConfigWrite]
  rw [show 0x900000 + o - 0x900000 = o by omega, if_pos ⟨by omega, by omega, by rw [hp]; rfl⟩]
  unfold State.writeBar
  rw [hp]
  dsimp only
  unfold State.modBar
  dsimp only
  rw [hg]
  split <;> rfl

theorem bar_mask {n : Nat} (hn : n < 24) (v : Word32) : barPhase (0x100 + 4 * n) = some .detached ∧ ∀ b : Barrier, b.put (0x100 + 4 * n) v = { b with mask := b.mask.set n v } := by
  constructor
  · unfold barPhase; rw [if_neg (by omega), if_pos (by omega)]
  · intro b
    unfold Barrier.put
    rw [if_neg (by omega), if_neg (by omega), if_neg (by omega), if_neg (by omega), if_neg (by omega), if_neg (by omega), show (0x100 + 4 * n - 0x100) / 4 = n by omega]

theorem desc_row {s : State} {v : Word32} {a : Nat} (h : (∃ n w, n < 256 ∧ w < 3 ∧ a = 0x702000 + 16 * n + 4 * w) ∨ (∃ n w, n < 64 ∧ w < 2 ∧ a = 0x703000 + 8 * n + 4 * w)) :
    exec (.descriptorWrite a v) s = .next (s.writeDesc (a - 0x700000) v).2 := by
  simp only [exec, execDescriptorWrite]
  unfold State.writeEth
  rcases h with ⟨n, w, hn, hw, rfl⟩ | ⟨n, w, hn, hw, rfl⟩ <;>
    rw [if_pos (by omega), if_neg (by omega), if_neg (by omega), if_pos (by omega)]

theorem latch_link {s : State} {p o : Nat} (hp : p < 24) (ho : o = 0x40 ∨ o = 0x48) : exec (.latchingRead (0x600000 + o + 0x400 * p)) s = .next (s.modPort p fun x => x.latch o) := by
  simp only [exec, execLatchingRead]
  have e1 : (0x600000 + o + 0x400 * p) / 0x100000 = 6 := by omega
  have e2 : (0x600000 + o + 0x400 * p) % 0x100000 = o + 0x400 * p := by omega
  have e3 : (o + 0x400 * p) % 0x400 = o := by omega
  have e4 : (o + 0x400 * p) / 0x400 = p := by omega
  rw [if_pos]
  · unfold State.regRead
    rw [coreAt_none (by omega), e1, e2]
    show Host.Outcome.next (s.linkLatch (o + 0x400 * p)) = _
    unfold State.linkLatch
    rw [if_pos (by omega), e3, e4]
  · unfold isLatching
    rw [coreAt_none (by omega)]
    dsimp only
    rw [e1, e2, e3]
    have : decide (o + 0x400 * p < 0x6000) = true := decide_eq_true (by omega)
    rw [this]
    rcases ho with rfl | rfl <;> rfl

/-- The core answers at once: its group is ON or in RETAIN and its clock runs. -/
structure AwakeAt (s : State) (k : Nat) : Prop where
  lt : k < 768
  main : s.power.mainOn = true
  group : s.group (groupOf k) = .on ∨ s.group (groupOf k) = .retain
  runs : k ∉ s.power.stopped

theorem AwakeAt.answers {s : State} {k : Nat} (h : AwakeAt s k) : s.answers k = true ∧ s.wakeCore k = s := by
  constructor
  · unfold State.answers
    rw [h.main]
    rcases h.group with g | g <;> rw [g] <;> rfl
  · unfold State.wakeCore
    rw [if_neg (by simpa using h.runs)]

theorem AwakeAt.hostWrite {s : State} {k : Nat} (h : AwakeAt s k) {o : Nat} (v : Word32) (hm : s.coreMapped k o = true) :
    s.hostWrite k o v = ((s.coreWrite k o v).1, (s.coreWrite k o v).2.noteHost k o) := by
  unfold State.hostWrite
  rw [if_pos (by rw [h.answers.1, hm]; rfl), h.answers.2]

theorem AwakeAt.hostRead {s : State} {k : Nat} (h : AwakeAt s k) {o : Nat} (hm : s.coreMapped k o = true) : s.hostRead k o = s.coreRead k o := by
  unfold State.hostRead
  rw [if_pos (by rw [h.answers.1, hm]; rfl), h.answers.2]

/-- Only a write of a word that CWR can write too is noted (R198). -/
theorem State.noteHost_other (s : State) (k : Nat) {o : Nat} (h1 : o ≠ 0x3000) (h2 : o < 0x1800 ∨ 0x1C00 < o) : s.noteHost k o = s := by
  unfold State.noteHost
  rw [if_neg (by omega)]

theorem AwakeAt.row {s : State} {k : Nat} (h : AwakeAt s k) {o : Nat} {p : Nat → Bool} (v : Word32) (ho : o < 0x40000) (hp : p o = true) (h4 : o % 4 = 0)
    (hm : s.coreMapped k o = true) : s.coreRow p (0x10000000 + 0x40000 * k + o) v = (s.coreWrite k o v).2.noteHost k o := by
  unfold State.coreRow
  rw [coreAt_some h.lt ho]
  dsimp only
  rw [if_pos (by rw [hp, show (0x10000000 + 0x40000 * k + o) % 4 = 0 by omega]; rfl), h.hostWrite v hm]

theorem loadable_no {s : State} {k : Nat} (h1 : (s.core k).ctl.attached = true) (h2 : s.bar.phase ≠ .held) : s.loadable k = false := by
  unfold State.loadable; rw [h1]; simpa using h2

theorem loadable_yes {s : State} {k : Nat} (h : (s.core k).ctl.attached = false ∨ s.bar.phase = .held) : s.loadable k = true := by
  unfold State.loadable; rcases h with h | h <;> rw [h] <;> simp

theorem bankLocked_yes {s : State} {k b : Nat} (h1 : (s.core k).ctl.attached = true) (h2 : (s.core k).ctl.bankActive = b) : s.bankLocked k b = true := by
  unfold State.bankLocked; rw [h1, h2]; simp

theorem bankLocked_no {s : State} {k b : Nat} (h : (s.core k).ctl.attached = false ∨ (s.core k).ctl.bankActive ≠ b) : s.bankLocked k b = false := by
  unfold State.bankLocked; rcases h with h | h
  · rw [h]; rfl
  · simp [h]

theorem mem_markFold (v i : Nat) : ∀ (n : Nat) (l : List Nat) (j : Nat), j ∈ (List.range n).foldl (fun l b => markSet l (i + b) (bit v b)) l ↔
    (if i ≤ j ∧ j < i + n then bit v (j - i) = true else j ∈ l)
  | 0, l, j => by rw [if_neg (by omega)]; rfl
  | n + 1, l, j => by
    rw [List.range_succ, List.foldl_append, List.foldl_cons, List.foldl_nil]
    have hm : ∀ (m : List Nat) (a : Nat) (p : Bool), j ∈ markSet m a p ↔ if j = a then p = true else j ∈ m := by
      intro m a p
      unfold markSet
      cases p
      · rw [if_neg (by decide), List.mem_filter]
        by_cases e : j = a <;> simp [e]
      · rw [if_pos rfl, mem_markPut]
        by_cases e : j = a <;> simp [e]
    rw [hm, mem_markFold v i n l j]
    by_cases e : j = i + n
    · rw [if_pos e, if_pos (by omega), e]; simp
    · rw [if_neg e]
      by_cases g : i ≤ j ∧ j < i + n
      · rw [if_pos g, if_pos (by omega)]
      · rw [if_neg g, if_neg (by omega)]

theorem aperture_word {c : Core} {line i : Nat} {st : Bool} (hst : bit c.regs.aperture.toNat 0 = st) (hl : line = 512 * bits c.regs.aperture.toNat 10 1 + i / 64)
    (h : line < if st then 0x50000 else 0x4000) : c.apertureWord (4 * i) = some (st, 64 * line + i % 64) := by
  unfold Core.apertureWord
  dsimp only
  rw [hst, show 4 * i / 256 = i / 64 by omega, ← hl, if_pos (by exact h), show 4 * i % 256 / 4 = i % 64 by omega]

theorem AwakeAt.aperture {s : State} {k : Nat} (h : AwakeAt s k) {line i : Nat} {st : Bool} (v : Word32) (hi : i < 0x8000) (hst : bit (s.core k).regs.aperture.toNat 0 = st)
    (hl : line = 512 * bits (s.core k).regs.aperture.toNat 10 1 + i / 64) (hb : line < if st then 0x50000 else 0x4000) :
    exec (.apertureWrite (0x10000000 + 0x40000 * k + (0x20000 + 4 * i)) v) s = .next (s.writeAperture k st (64 * line + i % 64) v).2 ∧
    exec (.apertureRead (0x10000000 + 0x40000 * k + (0x20000 + 4 * i))) s = .next (s.readAperture k st (64 * line + i % 64)).2 := by
  have hw := aperture_word hst hl hb
  have hm : s.coreMapped k (0x20000 + 4 * i) = true := by
    unfold State.coreMapped
    rw [if_neg (by omega), if_neg (by omega), show 0x20000 + 4 * i - 0x20000 = 4 * i by omega, hw]
    rfl
  constructor
  · simp only [exec, execApertureWrite]
    rw [h.row v (by omega) (by unfold isAperture; simp; omega) (by omega) hm, State.noteHost_other _ _ (by omega) (by omega)]
    unfold State.coreWrite
    rw [if_neg (by omega), if_neg (by omega), if_neg (by omega), if_neg (by omega), if_neg (by omega), if_neg (by omega), show 0x20000 + 4 * i - 0x20000 = 4 * i by omega, hw]
  · simp only [exec, execApertureRead]
    rw [coreAt_some h.lt (by omega)]
    dsimp only
    rw [if_pos ⟨by unfold isAperture; simp; omega, by omega⟩, h.hostRead hm]
    unfold State.coreRead
    rw [if_neg (by omega), if_neg (by omega), show 0x20000 + 4 * i - 0x20000 = 4 * i by omega, hw]

theorem AwakeAt.latch {s : State} {k : Nat} (h : AwakeAt s k) {o : Nat} (ho : o < 0x10000) (hl : latching o = true) :
    exec (.latchingRead (0x10000000 + 0x40000 * k + o)) s = .next (s.readLatch k o).2 := by
  simp only [exec, execLatchingRead]
  rw [if_pos]
  · unfold State.regRead
    rw [coreAt_some h.lt (by omega)]
    dsimp only
    rw [h.hostRead (by unfold State.coreMapped; rw [if_pos ho, hl]; rfl)]
    unfold State.coreRead
    rw [if_pos ho, if_pos hl]
  · unfold isLatching
    rw [coreAt_some h.lt (by omega)]
    exact hl

theorem Logged.crossingFaults : ∀ (l : List (Nat × Nat)) (s : State), Logged s (s.crossingFaults l) ∧ (s.crossingFaults l).faults.total = s.faults.total + BitVec.ofNat 64 l.length
  | [], s => ⟨Logged.refl s, by simp [State.crossingFaults]⟩
  | (a, b) :: r, s => by
    have ih := Logged.crossingFaults r (s.record 0x0611 3 a 0 0 (pack [(5, b % 32), (5, b / 32)]))
    unfold State.crossingFaults
    refine ⟨(Logged.recordAs _ _ _ _ _ _ _ _).trans ih.1, ?_⟩
    rw [ih.2, (State.record_recorded _ _ _ _ _ _ _).1, List.length_cons]
    rw [BitVec.ofNat_add, BitVec.add_assoc, BitVec.add_comm (1 : BitVec 64)]
    rfl

theorem Logged.failedCores : ∀ (l : List Nat) (s : State), Logged s (l.foldl (fun (s : State) k => s.record 0x0640 1 k 0 0 0) s) ∧
    (l.foldl (fun (s : State) k => s.record 0x0640 1 k 0 0 0) s).faults.total = s.faults.total + BitVec.ofNat 64 l.length
  | [], s => ⟨Logged.refl s, by simp⟩
  | a :: r, s => by
    have ih := Logged.failedCores r (s.record 0x0640 1 a 0 0 0)
    rw [List.foldl_cons]
    refine ⟨(Logged.recordAs _ _ _ _ _ _ _ _).trans ih.1, ?_⟩
    rw [ih.2, (State.record_recorded _ _ _ _ _ _ _).1, List.length_cons]
    rw [BitVec.ofNat_add, BitVec.add_assoc, BitVec.add_comm (1 : BitVec 64)]
    rfl

theorem foldl_noteOn_kept : ∀ (l : List Nat) (s : State), (l.foldl State.noteOn s).sec = s.sec ∧ (l.foldl State.noteOn s).faults = s.faults
  | [], _ => ⟨rfl, rfl⟩
  | a :: r, s => ⟨(foldl_noteOn_kept r (s.noteOn a)).1, (foldl_noteOn_kept r (s.noteOn a)).2⟩

theorem foldl_startPort_kept : ∀ (l : List Nat) (s : State), (l.foldl State.startPort s).sec = s.sec ∧ (l.foldl State.startPort s).faults = s.faults
  | [], _ => ⟨rfl, rfl⟩
  | a :: r, s => by
    rw [List.foldl_cons, (foldl_startPort_kept r _).1, (foldl_startPort_kept r _).2]
    unfold State.startPort
    extract_lets cold wait on pw s1 s2
    have h : s2.sec = s.sec ∧ s2.faults = s.faults := foldl_noteOn_kept on s1
    split
    · exact h
    · exact h


end Sys2Proof.Machine
end

