-- ==== Sys2Proof/WellFormed.lean ====
section
/-! DEFINITION. Well-formed commands: every operand names something that the module has. Each refused term has the name of
its reason. -/

namespace Sys2Proof

/-- Why a command is not well formed. -/
inductive IllFormed where
  /-- No core has that index (R11: 0 to 767). -/
  | noSuchCore
  /-- No tensor link port has that number (R240: 0 to 23). -/
  | noSuchPort
  /-- No core group has that number (R463: 0 to 95). -/
  | noSuchGroup
  /-- No link-edge group stands at that power domain (R463). -/
  | noSuchEdgeGroup
  /-- A handle has 12 bits of index (R182, R293). -/
  | noSuchHandle
  /-- No host-transport session has that number (R436: 0 to 7). -/
  | noSuchSession
  /-- No Ethernet port has that number (R433: 0 to 7). -/
  | noSuchEthPort
  /-- No plane-B connection has that number (R453: 0 to 255). -/
  | noSuchConnection
  /-- No lane of a port has that number (R241: 0 to 3). -/
  | noSuchLane
  /-- No junction sensor has that number (R470: 0 to 103). -/
  | noSuchSensor
  /-- There are two clock references, A and B (R454). -/
  | noSuchReference
  /-- No tier-2 stream has that number (R385: 0 to 255). -/
  | noSuchStream
  /-- SX has no SLOOP and no SEND of the engine streams (R147, R193). -/
  | noSuchForm
  /-- Only NX and SX wait for arrivals (R320). -/
  | noSuchWaiter
  /-- Control-space addresses are byte addresses of 32-bit words, of 32 bits (R10, R22). -/
  | badAddress
  /-- The four bits of NSLOT name 1 to 16 slots, and a slot holds one flit of 8 words (R244, R245). -/
  | badFlits
  /-- A link-control codeword carries a credit for each of ten virtual channels (R252). -/
  | badCredit
  /-- A byte field with the wrong length (R476, R487). -/
  | badLength
  /-- A field of a message outside its width (R437, R446, R449). -/
  | badField
  /-- Self-test results name cores and router stops (R223, R501). -/
  | badResults
deriving DecidableEq, Repr

/-- A reason unless a check holds. -/
def need (b : Bool) (r : IllFormed) : Option IllFormed := if b then none else some r

/-- The first reason of a list of checks. -/
def first : List (Option IllFormed) → Option IllFormed
  | [] => none
  | some r :: _ => some r
  | none :: l => first l

def coreOk (k : Nat) : Option IllFormed := need (decide (k < 768)) .noSuchCore
def portOk (p : Nat) : Option IllFormed := need (decide (p < 24)) .noSuchPort
def groupOk (g : Nat) : Option IllFormed := need (decide (g < 96)) .noSuchGroup
def groupsOk (l : List Nat) : Option IllFormed := need (l.all fun g => decide (g < 96)) .noSuchGroup
/-- Link-edge groups stand at places 24 to 27 of each die's 30 domains. -/
def edgeOk (g : Nat) : Option IllFormed :=
  need (decide (g < 120) && decide (24 ≤ g % 30) && decide (g % 30 ≤ 27)) .noSuchEdgeGroup
def handleOk (h : Nat) : Option IllFormed := need (decide (h < 4096)) .noSuchHandle
def sessionOk (n : Nat) : Option IllFormed := need (decide (n < 8)) .noSuchSession
def ethOk (e : Nat) : Option IllFormed := need (decide (e < 8)) .noSuchEthPort
def connOk (c : Nat) : Option IllFormed := need (decide (c < 256)) .noSuchConnection
def laneOk (l : Nat) : Option IllFormed := need (decide (l < 4)) .noSuchLane
def sensorOk (n : Nat) : Option IllFormed := need (decide (n < 104)) .noSuchSensor
def refOk (r : Nat) : Option IllFormed := need (decide (r < 2)) .noSuchReference
def streamOk (n : Nat) : Option IllFormed := need (decide (n < 256)) .noSuchStream
def engineOk (e : Engine) : Option IllFormed := need (decide (e ≠ .sx)) .noSuchForm
def waiterOk (e : Engine) : Option IllFormed := need (decide (e = .nx ∨ e = .sx)) .noSuchWaiter
def addrOk (a : Nat) : Option IllFormed := need (decide (a < 2 ^ 32) && decide (a % 4 = 0)) .badAddress
def flitsOk (l : List (List (BitVec 64))) : Option IllFormed :=
  need (decide (1 ≤ l.length) && decide (l.length ≤ 16) && l.all fun f => f.length == 8) .badFlits
def creditOk (l : List (BitVec 16)) : Option IllFormed := need (l.length == 10) .badCredit
def bytesOk (l : List (BitVec 8)) (n : Nat) : Option IllFormed := need (l.length == n) .badLength
def seedOk : Option (List (BitVec 8)) → Option IllFormed
  | none => none
  | some l => bytesOk l 32
def ticketOk (tkt lines line : Nat) : Option IllFormed :=
  need (decide (tkt < 2 ^ 16) && decide (lines < 2 ^ 16) && decide (line < 2 ^ 16)) .badField
def oackOk (id acked : Nat) : Option IllFormed := need (decide (id < 2 ^ 16) && decide (acked < 2 ^ 32)) .badField
def typeOk (t : Nat) : Option IllFormed := need (decide (t < 2 ^ 8)) .badField
def telemetryOk (energy : List Nat) (temps : List (BitVec 16)) : Option IllFormed :=
  need (energy.length == 6 && temps.length == 104) .badLength
def selfTestOk (failed : List Nat) (crossings : List (Nat × Nat)) : Option IllFormed :=
  need (failed.all (fun k => decide (k < 768)) && crossings.all fun x => decide (x.1 < 1024) && decide (x.2 < 1024)) .badResults
/-- Who makes an access: a session has a number below 8. -/
def whoOk : Who → Option IllFormed
  | .session n => sessionOk n
  | .mgmt => none
  | .jtag => none

/-- Why a command is ill formed; none: it is well formed. -/
def Instr.illFormed : Instr → Option IllFormed
  | .tload k | .tloadComplete k | .mma k | .mmaRowEntry k | .mmaRowWrite k | .mmaComplete k | .vcfg k | .vtab k
  | .tableLoadComplete k | .vrun k | .vrunVectorEntry k | .vrunLineWrite k | .vrunComplete k | .dpat k | .dfill k
  | .dcopy k | .dld k | .dst k | .dacr k | .dacw k | .dxUnitTransfer k | .dxComplete k | .nput k | .ntup k | .nring k
  | .nreq k | .nwait k | .nwaitComplete k | .nxPacketAccept k | .niThrottlePeriod k | .snop k _ | .sendComplete k _
  | .islandHang k | .serviceForced k _ | .add k | .sub k | .and k | .or k | .xor k | .sll k | .srl k | .sra k
  | .slt k | .sltu k | .mul k | .addi k | .andi k | .ori k | .xori k | .lui k | .shi k | .slti k | .ldw k | .stw k
  | .ldp k | .crd k | .cwr k | .sxAccess k | .beq k | .bne k | .blt k | .bge k | .bltu k | .bgeu k | .dbnz k | .jal k
  | .jr k | .swait k | .ssig k | .sdly k | .await k | .awaitComplete k | .hopen k | .hopenComplete k | .hclose k
  | .hcloseComplete k | .xlat k | .sxSend k | .burnishRead k | .creditWatchdog k | .cycleStretch k | .droopWindow k
  | .coreStop k | .wake k _ | .clrCe k => first [coreOk k]
  | .sloop k e | .send k e => first [coreOk k, engineOk e]
  | .put _ | .tup _ | .ring _ | .req _ | .rpl _ | .grant _ | .yield _ | .packetRoute _ | .reservationGrant _
  | .moduleFinished | .waveContribution _ | .blank | .passStart | .drainWatchdog | .lostWatchdog | .hold _
  | .detach _ | .abort _ | .restart _ | .restartFail _ | .ticketDelivery | .outputRelease | .outputResend | .sreq _
  | .sdata _ | .snone _ | .finfinRequest | .shardTimeout | .load _ | .finfinAbort _ | .repair _ | .activate _
  | .release _ | .tsum _ | .twinWatchdog | .journalExport | .journalConsumedPoll | .journalExportRetry | .seal _
  | .sealComplete | .snap _ | .checkpoint _ | .mgmtRead _ _ | .mgmtWrite _ _ | .mgmtDynamicAddress _ | .bypass
  | .idcode | .samplePreload _ _ | .extest _ _ | .dbgacc _ _ _ _ | .standbyPowerDown | .imageCheck | .mainRegulation
  | .modResetAssert | .modResetRelease _ _ _ | .programComplete | .refRevert | .thermalDemandLower _
  | .powerDemandRaise | .powerDemandLower | .droopDemandLower | .inputVoltageExcursion | .undervoltage | .clear
  | .faultLogTailWrite _ | .latencyContractWrite _ | .passCtrlWrite _ | .twinCfgWrite _ | .inputVoltageReturn => none
  | .yieldSend k h | .closeDrainComplete k h => first [coreOk k, handleOk h]
  | .arrivalWatchdog k e => first [coreOk k, waiterOk e]
  | .codewordTransmit p | .poisonCodeword p _ _ _ | .idleCodeword p _ _ | .uncorrectableCodeword p | .replayTimeout p
  | .trainingComplete p | .trainingTimeout p | .noPeerRetry p | .retrain p | .discardEpisodeEnd p | .laserSettled p
  | .clrErr p => first [portOk p]
  | .dataCodeword p _ _ _ flits => first [portOk p, flitsOk flits]
  | .lcw p _ _ _ _ credit _ _ => first [portOk p, creditOk credit]
  | .laneLoss p l => first [portOk p, laneOk l]
  | .attach _ bad => first [groupsOk bad]
  | .tier2StreamSend n => first [streamOk n]
  | .hello src _ nonce => first [ethOk src.port, bytesOk nonce 32]
  | .prove src _ n _ sig => first [ethOk src.port, sessionOk n, bytesOk sig 64]
  | .sclose src n _ | .rd src n _ _ _ | .wr src n _ _ _ => first [ethOk src.port, sessionOk n]
  | .ticket src n _ _ tkt lines line _ _ => first [ethOk src.port, sessionOk n, ticketOk tkt lines line]
  | .oack src n _ id acked => first [ethOk src.port, sessionOk n, oackOk id acked]
  | .sessionTimeout n => first [sessionOk n]
  | .arpRequest e _ | .neighborDiscovery e _ | .icmpEcho e _ _ _ | .pauseFrame e | .pfcFrame e _ _
  | .ethFrameDiscard e | .ethLinkChange e _ => first [ethOk e]
  | .roceResponse c _ _ | .roceRequestNak c | .cnp c | .rateRestore c | .roceAckTimeout c | .roceReestablish c => first [connOk c]
  | .standbyPowerUp seed0 seed1 _ _ _ _ _ _ _ => first [seedOk seed0, seedOk seed1]
  | .selfTestComplete failed crossings _ _ => first [selfTestOk failed crossings]
  | .program w | .floorCommit w | .ownerCommit w => first [whoOk w]
  | .refNoEdge r | .refMonitorWindow r _ _ | .refPresent r => first [refOk r]
  | .thermalDemandRaise n _ | .junctionOver95c n _ | .thermalTrip n _ => first [sensorOk n]
  | .telemetryUpdate energy _ _ _ _ temps => first [telemetryOk energy temps]
  | .retainEntry g => first [groupOk g]
  | .linkEdgeGroupOff g => first [edgeOk g]
  | .pwrOffReqWrite a _ | .lcDeclWrite a _ | .instructionWindowWrite a _ | .binDescWrite a _ | .regionDescWrite a _
  | .apertureWrite a _ | .apertureRead a | .gridVmapWrite a _ | .patchWrite a _ | .routingRegisterWrite a _
  | .linkExpectWrite a _ | .linkCfgWrite a _ | .clkCfgWrite a _ | .plbConnWrite a _ | .barrierConfigWrite a _
  | .finfinRegisterWrite a _ | .descriptorWrite a _ | .latchingRead a => first [addrOk a]
  | .registerWrite w a _ => first [whoOk w, addrOk a]
  | .malformedDatagram src n _ type => first [ethOk src.port, sessionOk n, typeOk type]
  | .forwardedTicket _ tkt lines line _ _ => first [ticketOk tkt lines line]

/-- A well-formed command. -/
def Instr.wellFormed (i : Instr) : Bool := i.illFormed.isNone

end Sys2Proof
end

