-- ==== Sys2Proof/Tests/Slice0.lean ====
section
/-! SUPPORT. Tests: ill-formed commands that the check refuses, figures of the spec's own examples, and for
every statement with hypotheses a state and operands that meet them. -/

set_option Elab.async false

namespace Sys2Proof.Tests

open Sys2Proof Sys2Proof.Machine

/-! ## States -/

/-- An attached core 0 and nothing else. -/
def only (c : Core) : State := { State.reset with cores := [(0, { c with ctl := { c.ctl with attached := true } })] }

/-- A stream that runs, from cycle 0 on. -/
def live : Stream := { state := .run }

/-- A memory that holds w at index 0 of the first bank of an engine. -/
def code (e : Engine) (w : Nat) : Store := { cells := cellWrite [] (imemBase e 0) (natToBytes w (instrBytes e)) }

/-- Core 0 whose stream e runs and has w at index 0. -/
def runs (e : Engine) (w : Nat) : Core := ({ mem := { imem := code e w } } : Core).setStream e live

/-- Whether SX can issue w: the fields of SxIssues as one check. -/
def sxReady (s : State) (k i w u : Nat) (rs : List Nat) : Bool :=
  decide (s.overs = []) && s.canIssue k .sx && (s.core k).sx.wait.isNone && (s.core k).sxs.pc == i && (s.core k).instr .sx i == w && (s.core k).instrFlaws .sx i == []
    && (sxBad w).isNone && (s.core k).sxs.loops == [] && (s.core k).sx.readable rs && u == max s.now (max (s.core k).sxs.ready ((s.core k).sx.readyAt rs))

theorem sxReady_spec {s : State} {k i w u : Nat} {rs : List Nat} (h : sxReady s k i w u rs = true) : SxIssues s k i w u rs := by
  simp only [sxReady, Bool.and_eq_true, beq_iff_eq, Option.isNone_iff_eq_none, decide_eq_true_eq] at h
  obtain ⟨⟨⟨⟨⟨⟨⟨⟨⟨z, a⟩, b⟩, c⟩, d⟩, e⟩, f⟩, g⟩, i⟩, j⟩ := h
  exact ⟨z, a, b, c, d, e, f, g, i, j⟩

/-- Whether an engine can issue w: the fields of EngIssues as one check. -/
def engReady (s : State) (k : Nat) (e : Engine) (i w u r : Nat) : Bool :=
  decide (s.overs = []) && s.canIssue k e && ((s.core k).stream e).pc == i && (s.core k).instr e i == w && (s.core k).instrFlaws e i == [] && (engineBad e w).isNone
    && u == max s.now (r + hDelay w) && (s.core k).sync.holds u (hWaits w) && !s.contended k e u (hWaits w)
    && ((s.core k).sync.take u (hWaits w)).room (if hSbi w then hSigB w else none)
    && (hOpc w == opSend || decide ((nextIndex i ((s.core k).stream e).loops).1 < bankLen e))

theorem engReady_spec {s : State} {k : Nat} {e : Engine} {i w u r : Nat} (h : engReady s k e i w u r = true) : EngIssues s k e i w u r := by
  simp only [engReady, Bool.and_eq_true, Bool.or_eq_true, beq_iff_eq, Option.isNone_iff_eq_none, decide_eq_true_eq, Bool.not_eq_true'] at h
  obtain ⟨⟨⟨⟨⟨⟨⟨⟨⟨⟨z, a⟩, b⟩, c⟩, d⟩, f⟩, g⟩, i⟩, y⟩, j⟩, l⟩ := h
  exact ⟨z, a, b, c, d, f, g, i, y, j, l⟩

/-! ## Hypotheses met: the scalar control core -/

/-- SX at index 0 with a word, g7 = 0x80000005 and g8 = 3. -/
def sx (w : Nat) : State :=
  let c := runs .sx w
  only { c with sx := { c.sx with g := (c.sx.g.set 7 { val := 0x80000005 }).set 8 { val := 3 } } }

/-- An immediate form of rd = 6, ra = 7 and imm16 = 1; LUI has no ra. -/
def immWord (op : Nat) : Nat := op * 2 ^ 26 + (if op = 6 then 0xC00001 else 0xC70001)

theorem test_sxArithmetic_met :
    (∀ row ∈ sxOpRows, let w := 0x04C74000 + row.2.1;
      SxIssues (sx w) 0 0 w 0 [xRa w, xRb w] ∧ xOpc w = 1 ∧ xFunc w = row.2.1) ∧
    (∀ row ∈ sxImmRows, let w := immWord row.2.1;
      SxIssues (sx w) 0 0 w 0 [xRa w] ∧ xOpc w = row.2.1) := by
  refine ⟨fun row h => ?_, fun row h => ?_⟩
  · have := (by decide +kernel : ∀ row ∈ sxOpRows, let w := 0x04C74000 + row.2.1;
      sxReady (sx w) 0 0 w 0 [xRa w, xRb w] = true ∧ xOpc w = 1 ∧ xFunc w = row.2.1) row h
    exact ⟨sxReady_spec this.1, this.2⟩
  · have := (by decide +kernel : ∀ row ∈ sxImmRows, let w := immWord row.2.1;
      sxReady (sx w) 0 0 w 0 [xRa w] = true ∧ xOpc w = row.2.1) row h
    exact ⟨sxReady_spec this.1, this.2⟩

/-- A branch to the index after the next but four, with ra = 7 and rb = 8; DBNZ has no rb. -/
def branchWord (op : Nat) : Nat := op * 2 ^ 26 + (if op = 0x1E then 0xE00005 else 0xE80005)

theorem test_sxTransfers_met :
    (∀ row ∈ sxBranchRows, let w := branchWord row.2.1;
      SxIssues (sx w) 0 0 w 0 [bRa w, bRb w] ∧ xOpc w = row.2.1 ∧ 0 ≤ sxTarget 0 w ∧ sxTarget 0 w ≤ 8191 ∧
        (((sx w).core 0).g (bRa w)).poison = false ∧ (((sx w).core 0).g (bRb w)).poison = false) ∧
    (let w := branchWord 0x1E;
      SxIssues (sx w) 0 0 w 0 [bRa w] ∧ xOpc w = 0x1E ∧ bRa w ≠ 0 ∧ 0 ≤ sxTarget 0 w ∧ sxTarget 0 w ≤ 8191 ∧ (((sx w).core 0).g (bRa w)).poison = false) ∧
    (let w := 0x7CC01FFF;
      SxIssues (sx w) 0 0 w 0 [] ∧ xOpc w = 0x1F ∧ (BitVec.ofNat 21 w).toInt = 8191) ∧
    (let w := 0x80080000;
      SxIssues (sx w) 0 0 w 0 [xRa w] ∧ xOpc w = 0x20 ∧ (((sx w).core 0).g (xRa w)).poison = false ∧ (((sx w).core 0).g (xRa w)).val.toNat ≤ 8191) := by
  refine ⟨fun row h => ?_, ⟨sxReady_spec (by decide +kernel), by decide +kernel⟩, ⟨sxReady_spec (by decide +kernel), by decide +kernel⟩,
    sxReady_spec (by decide +kernel), by decide +kernel⟩
  have := (by decide +kernel : ∀ row ∈ sxBranchRows, let w := branchWord row.2.1;
    sxReady (sx w) 0 0 w 0 [bRa w, bRb w] = true ∧ xOpc w = row.2.1 ∧ 0 ≤ sxTarget 0 w ∧ sxTarget 0 w ≤ 8191 ∧
      (((sx w).core 0).g (bRa w)).poison = false ∧ (((sx w).core 0).g (bRb w)).poison = false) row h
  exact ⟨sxReady_spec this.1, this.2⟩

/-- SWAIT of one from counter 47, SSIG of 256 to it, SDLY of 65,535: each with what its clause asks; counter 47 holds `n`. -/
def counting (w n : Nat) : State := only { runs .sx w with sync := { count := List.replicate 47 0 ++ [n] } }

theorem test_sxCounters_met :
    (let w := 0xA2F00000;
      SxIssues (counting w 1) 0 0 w 0 [] ∧ xOpc w = 0x28 ∧ scN w = 1 ∧ scN w ≤ ((counting w 1).core 0).sync.seen 0 (scCtr w) ∧
        (counting w 1).contended 0 .sx 0 [(scCtr w, scN w)] = false) ∧
    (let w := 0xA6FFF000;
      SxIssues (counting w 65279) 0 0 w 0 [] ∧ xOpc w = 0x29 ∧ ((counting w 65279).core 0).sync.count.getD (scCtr w) 0 + scN w = 65535 ∧
        ((counting w 65279).core 0).sync.count.length = 48) ∧
    (let w := 0xA800FFFF;
      SxIssues (counting w 0) 0 0 w 0 [] ∧ xOpc w = 0x2A) :=
  ⟨⟨sxReady_spec (by decide +kernel), by decide +kernel⟩, ⟨sxReady_spec (by decide +kernel), by decide +kernel⟩, sxReady_spec (by decide +kernel),
    by decide +kernel⟩

/-- A word with ra = 7 and rb = 8, or rd = 8, whose other fields are legal. -/
def controlWord (op : Nat) : Nat :=
  op * 2 ^ 26 + (if op = 0x20 ∨ op = 0x30 ∨ op = 0x31 then 0x70000 else if op = 0x2B then 0xE8FC00 else if op = 0x1E then 0xE00000
    else if 0x18 ≤ op ∧ op ≤ 0x1D then 0xE80000 else 0x1070000 + (if op = 0x32 then 3 else 0x1234))

/-- SX at index 0 with a word and a poisoned g7, and a register file in which an access of g8 is ready. -/
def tainted (w : Nat) : State :=
  let c := runs .sx w
  only { c with sx := { c.sx with g := c.sx.g.set 7 { poison := true } } }

theorem test_sxPoisonedControl_met : ∀ row ∈ sxControlRows, let w := controlWord row.2.1;
    SxIssues (tainted w) 0 0 w 0 (row.2.2.1 w) ∧ xOpc w = row.2.1 ∧ ∃ r ∈ row.2.2.2 w, (((tainted w).core 0).g r).poison = true := by
  intro row h
  have := (by decide +kernel : ∀ row ∈ sxControlRows, let w := controlWord row.2.1;
    sxReady (tainted w) 0 0 w 0 (row.2.2.1 w) = true ∧ xOpc w = row.2.1 ∧ ∃ r ∈ row.2.2.2 w, (((tainted w).core 0).g r).poison = true) row h
  exact ⟨sxReady_spec this.1, this.2⟩

/-- SX at index 0 with a word of rd = 8 or 10 and ra = 7, where g7 = 0xEDC0. -/
def accessing (w : Nat) : State :=
  let c := runs .sx w
  only { c with sx := { c.sx with g := c.sx.g.set 7 { val := 0xEDC0 } } }

theorem test_sxAccessIssues_met : ∀ row ∈ sxAccessRows, let w := controlWord row.2.1;
    SxIssues (accessing w) 0 0 w 0 (row.2.2.1 w) ∧ xOpc w = row.2.1 ∧ (∀ r ∈ row.2.2.2.1 w, (((accessing w).core 0).g r).poison = false) ∧
      (row.2.2.2.2 ((accessing w).core 0) w).addressed ((accessing w).core 0) = true ∧ ((accessing w).core 0).sx.g.length = 32 := by
  intro row h
  have := (by decide +kernel : ∀ row ∈ sxAccessRows, let w := controlWord row.2.1;
    sxReady (accessing w) 0 0 w 0 (row.2.2.1 w) = true ∧ xOpc w = row.2.1 ∧ (∀ r ∈ row.2.2.2.1 w, (((accessing w).core 0).g r).poison = false) ∧
      (row.2.2.2.2 ((accessing w).core 0) w).addressed ((accessing w).core 0) = true ∧ ((accessing w).core 0).sx.g.length = 32) row h
  exact ⟨sxReady_spec this.1, this.2⟩

/-! ## Hypotheses met: streams and accesses -/

/-- An engine word without waits and signals. -/
def plain (op low : Nat) : Nat := op * 2 ^ 120 + 0x3F * 2 ^ 114 + 0x3F * 2 ^ 104 + 0x3F * 2 ^ 94 + 0x3F * 2 ^ 84 + low

theorem test_streamControl_met :
    (∀ e ∈ [Engine.mx, .vx, .dx, .nx], ∀ op ∈ [0xF0, 0xF1, 0xF2], let w := plain op (if op = 0xF1 then (bankLen e - 2) * 2 ^ 16 + 65535 else 0);
      let s := only (runs e w)
      (e ≠ .sx ∧ (s.core 0).heads = [] ∧ ((s.core 0).engSync w 0).roomFor 0 (owedOf w 0) = true ∧ hOpc w = op ∧
        (op = 0xF1 → 0 + (bits w 27 16 + 1) + 1 = bankLen e ∧ ((s.core 0).stream e).loops = [])) ∧
        EngIssues s 0 e 0 w 0 ((s.core 0).stream e).ready) ∧
    (∀ e ∈ [Engine.mx, .vx, .dx, .nx], let s := only (({} : Core).setStream e { state := .run, sendAt := some 7 })
      s.overs = [] ∧ ((s.core 0).stream e).sendAt = some 7 ∧ ((s.core 0).stream e).sendOwed.ends = [] ∧ (s.core 0).streamDone e = true ∧
        (s.core 0).sync.roomFor (max s.now 7) ((s.core 0).stream e).sendOwed = true) := by
  refine ⟨fun e h op g => ?_, by decide +kernel⟩
  have := (by decide +kernel : ∀ e ∈ [Engine.mx, .vx, .dx, .nx], ∀ op ∈ [0xF0, 0xF1, 0xF2],
    let w := plain op (if op = 0xF1 then (bankLen e - 2) * 2 ^ 16 + 65535 else 0);
    let s := only (runs e w)
    (e ≠ .sx ∧ (s.core 0).heads = [] ∧ ((s.core 0).engSync w 0).roomFor 0 (owedOf w 0) = true ∧ hOpc w = op ∧
      (op = 0xF1 → 0 + (bits w 27 16 + 1) + 1 = bankLen e ∧ ((s.core 0).stream e).loops = [])) ∧
      engReady s 0 e 0 w 0 ((s.core 0).stream e).ready = true) e h op g
  exact ⟨this.1, engReady_spec this.2⟩

/-- MX waits for one count of counter 5, and nothing is in flight. -/
theorem test_islandHang_met :
    (only (runs .mx (plain 0xF0 0 - 0x3F * 2 ^ 114 + 5 * 2 ^ 114 + 2 ^ 110))).hung 0 = true := by decide +kernel

/-- An operation of each engine with a read owed. -/
def read0 : LineRead := { due := 0, row := 0, what := .data, line := 0 }
def mmaEx : MmaOp :=
  { owed := {}, issue := 0, buf := 0, afmt := 0, aline := 0, aslot := 0, scline := 100, scoff := 0, count := 1, bank := 3, drow := 255, ovw := false
    bin := none, refused := false, stamp := false, first := 20, p2 := 2 }
def vrunEx : VrunOp :=
  { owed := {}, issue := 0, cslot := 0, src := 0, bank := 0, row := 0, sline := 0, sslot := 0, sbin := none, oline := 0, oslot := 0, obin := none, count := 1 }
def dxEx (kind : DxKind) : DxOp :=
  { owed := {}, issue := 0, kind := kind, stock := false, src := 0, dst := 0, count := 1, bank := 0, arow := 0, bin := none, pattern := 0, refused := false }
def nxEx (kind : NxKind) : NxOp := { owed := {}, issue := 0, kind := kind, handle := 5 }

/-- Core c, whose banks island ports have taken in every cycle from 0 to 300. -/
def taken (c : Core) : State := only { c with mem := { c.mem with bankRuns := (List.range 16).map fun b => (b, 0, 300) } }

/-- A core in which the next access of e falls in a cycle from 100 on. -/
def accessOf (e : Engine) : State := taken { ({} : Core) with
  mx := if e = .mx then { ops := [.mma { mmaEx with fetch := [{ read0 with due := 100 }] }] } else {}
  vx := if e = .vx then { runs := [{ vrunEx with outs := [{ count := false, due := 110, line := 0, words := [] }] }] } else {}
  dx := if e = .dx then { ops := [{ dxEx .copy with issue := 100 }] } else {}
  nx := if e = .nx then { ops := [{ nxEx .wait with issue := 100 }] } else {}
  sx := if e = .sx then { acc := [{ sxAcc .ldw 1 false with due := 100 }] } else {} }

theorem test_coreService_met :
    (∀ e ∈ [Engine.mx, .vx, .dx, .nx, .sx], let s := accessOf e
      s.overs = [] ∧ ((s.nextAccess 0 e).any fun a => decide ((s.advance (max a.due s.now)).nextAccess 0 e = some a) &&
        (s.core 0).heads.all (fun x => decide (max a.due s.now ≤ x.1.due)) && a.banks.any ((s.core 0).mem.starved (max a.due s.now))) = true) ∧
    (let s : State := { only {} with power := { State.reset.power with mainOn := true } }
     s.overs = [] ∧ 0 < s.grade ∧ s.power.mainOn = true ∧ (s.core 0).regs.burnEnable = true ∧
        ∀ i, i < 32 → (s.core 0).mem.stock.flaw (32 * (s.core 0).regs.burnNext + i) = none) := by decide +kernel

/-- Core c with one access of SX in flight. -/
def due5 (c : Core) (a : SxAcc) : State := only { c with sx := { acc := [{ a with due := 5 }] } }

theorem due5_next {c : Core} {a : SxAcc} (h : a.refused = false ∧ a.ends = [] ∧ a.sig = none ∧ a.rd < 32 ∧ a.rd2 < 32)
    (r : ((due5 c a).core 0).heads = []) : SxAccessNext (due5 c a) 0 { a with due := 5 } [] :=
  ⟨rfl, rfl, h.1, h.2.1, h.2.2.1, r, Nat.zero_le _, h.2.2.2.1, h.2.2.2.2, rfl⟩

def ldwTop : SxAcc := { sxAcc .ldw 9 false with addr := 2 ^ 20 - 1 }
def ldpTop : SxAcc := { sxAcc .ldp 30 false with rd2 := 31, addr := 2 ^ 20 - 2 }
def crdTop : SxAcc := { sxAcc .crd 9 false with addr := 0xFFFC }
def xlatTop : SxAcc := { sxAcc .xlat 9 false with addr := 3, data := ⟨255, true⟩ }
def patched : Core := { ctl := { patchValid := [1023] } }

theorem test_sxLoadEffect_met :
    (SxAccessNext (due5 {} ldwTop) 0 { ldwTop with due := 5 } [] ∧ ldwTop.rd2 = 0 ∧ ldwTop.addr < 2 ^ 20 ∧ (due5 {} ldwTop).plainRead 0 5 ldwTop.addr 1) ∧
    (SxAccessNext (due5 {} ldpTop) 0 { ldpTop with due := 5 } [] ∧ ldpTop.addr + 1 < 2 ^ 20 ∧ ldpTop.addr % 2 = 0 ∧ ldpTop.rd2 = ldpTop.rd + 1 ∧
      (due5 {} ldpTop).plainRead 0 5 ldpTop.addr 2) ∧
    (SxAccessNext (due5 {} crdTop) 0 { crdTop with due := 5 } [] ∧ crdTop.rd2 = 0 ∧ crdTop.addr % 4 = 0 ∧ crdTop.addr < 0x10000 ∧
      latching crdTop.addr = false ∧ (due5 {} crdTop).strict = false) ∧
    (SxAccessNext (due5 patched xlatTop) 0 { xlatTop with due := 5 } [] ∧ xlatTop.rd2 = 0 ∧ xlatTop.data.val.toNat < 256 ∧
      ((due5 patched xlatTop).core 0).ctl.patchValid.contains (256 * xlatTop.addr + xlatTop.data.val.toNat) = true) :=
  ⟨⟨due5_next (by decide +kernel) (by decide +kernel), rfl, by decide, ⟨by decide +kernel, by decide +kernel⟩, by decide +kernel, by decide +kernel, by decide +kernel⟩,
    ⟨due5_next (by decide +kernel) (by decide +kernel), by decide, by decide, rfl,
      ⟨by decide +kernel, by decide +kernel⟩, by decide +kernel, by decide +kernel, by decide +kernel⟩,
    ⟨due5_next (by decide +kernel) (by decide +kernel), by decide +kernel⟩, due5_next (by decide +kernel) (by decide +kernel), by decide +kernel⟩

def stwTop : SxAcc := { sxAcc .stw 0 false with addr := 2 ^ 20 - 1, data := ⟨0xFFFFFFFF, false⟩ }
def cwrBank : SxAcc := { sxAcc .cwr 0 false with addr := 0x3000, data := ⟨2, false⟩ }

theorem test_sxStoreEffect_met :
    (SxAccessNext (due5 {} stwTop) 0 { stwTop with due := 5 } [] ∧ stwTop.addr < 2 ^ 20 ∧ stwTop.data.poison = false ∧ (due5 {} stwTop).slotFree 0 10 5 ∧
      ((due5 {} stwTop).core 0).narrowCode (stwTop.addr / 64) = none ∧ ((due5 {} stwTop).core 0).ctrlEntry (stwTop.addr / 64) = none ∧
      Memory.wf ((due5 {} stwTop).core 0).mem.scr.cells = true) ∧
    (SxAccessNext (due5 {} cwrBank) 0 { cwrBank with due := 5 } [] ∧ cwrBank.kind = .cwr ∧ cwrBank.addr = 0x3000 ∧
      ((due5 {} cwrBank).advance 5).hostWrote 0 0x3000 = false) :=
  ⟨⟨due5_next (by decide +kernel) (by decide +kernel), by decide, rfl, ⟨by decide +kernel, by decide +kernel⟩, by decide +kernel, by decide +kernel, by decide +kernel⟩,
    due5_next (by decide +kernel) (by decide +kernel), rfl, rfl, by decide +kernel⟩

/-! ## Hypotheses met: waits of SX and handles -/

/-- Entry 5 of generation 2: an open window of four lines at line 200 with its control line at 100. -/
def window : Handle := { state := .opened, kind := 1, gen := 2, base := 200, size := 3, ctrl := 100, slots := [⟨0, 0, 9, 4, 4, 0, 0, 0⟩] }

/-- Core c with that entry, and g7 the handle. -/
def withWindow (c : Core) (h : Handle) : Core :=
  { c with chan := { c.chan with handles := [(5, h)] }, sx := { c.sx with g := c.sx.g.set 7 { val := 0x2005 } } }

/-- An AWAIT, a HOPEN, both HCLOSE and a SEND at the last index but one from the bank's end. -/
theorem test_sxWaitsStart_met :
    ∀ w ∈ [0xACE8FC00, 0xC1070000, 0xC4070001, 0xC4070000, 0xFC000000], let s := only (withWindow (runs .sx w) window)
      SxIssues s 0 0 w 0 (if xOpc w = 0x2B then [awRa w, awRb w] else if xOpc w = 0x3F then [] else [xRa w]) ∧
        (xOpc w = 0x2B ∨ xOpc w = 0x30 ∨ xOpc w = 0x31 ∨ xOpc w = 0x3F) ∧ (s.core 0).sx.g.length = 32 ∧
        (xOpc w = 0x2B → ((s.core 0).g (awRa w)).poison = false ∧ ((s.core 0).g (awRb w)).poison = false ∧
          (s.core 0).usable (((s.core 0).g (awRa w)).val.toNat % 65536) kindStatus = some window) ∧
        (xOpc w = 0x30 ∨ xOpc w = 0x31 → ((s.core 0).g (xRa w)).poison = false) ∧
        (xOpc w = 0x30 → (s.core 0).narrowIssue ((s.core 0).g (xRa w)).val.toNat = none) := by
  intro w h
  have := (by decide +kernel : ∀ w ∈ [0xACE8FC00, 0xC1070000, 0xC4070001, 0xC4070000, 0xFC000000], let s := only (withWindow (runs .sx w) window)
    sxReady s 0 0 w 0 (if xOpc w = 0x2B then [awRa w, awRb w] else if xOpc w = 0x3F then [] else [xRa w]) = true ∧
      (xOpc w = 0x2B ∨ xOpc w = 0x30 ∨ xOpc w = 0x31 ∨ xOpc w = 0x3F) ∧ (s.core 0).sx.g.length = 32 ∧
      (xOpc w = 0x2B → ((s.core 0).g (awRa w)).poison = false ∧ ((s.core 0).g (awRb w)).poison = false ∧
        (s.core 0).usable (((s.core 0).g (awRa w)).val.toNat % 65536) kindStatus = some window) ∧
      (xOpc w = 0x30 ∨ xOpc w = 0x31 → ((s.core 0).g (xRa w)).poison = false) ∧
      (xOpc w = 0x30 → (s.core 0).narrowIssue ((s.core 0).g (xRa w)).val.toNat = none)) w h
  exact ⟨sxReady_spec this.1, this.2⟩

/-- A wait of SX on that entry, due in cycle 5. -/
def waitEx (kind : SxWaitKind) (v : Nat) (target : Word32) : SxWait :=
  { kind := kind, handle := v, line := 100, target := target, rd := 9, index := 0, refused := false, due := 5, ends := [] }
def waiting (c : Core) (x : SxWait) : State := only { c with sx := { c.sx with wait := some x } }

theorem waiting_next {c : Core} {x : SxWait} (h : ((waiting c x).core 0).sx.acc = [] ∧ x.refused = false ∧ x.ends = [] ∧ ((waiting c x).core 0).heads = [] ∧
    ((waiting c x).core 0).sync.room x.sig = true) : SxWaitNext (waiting c x) 0 x :=
  ⟨rfl, rfl, h.1, h.2.1, h.2.2.1, h.2.2.2.1, Nat.zero_le _, h.2.2.2.2⟩

/-- Flags of a status word in the control line: REFUSED of R296. -/
def flagged : Core := { withWindow {} window with mem := { scr := { cells := cellWrite [] (256 * 100) [0, 0, 0, 0, 0, 0, 8, 0] } } }

/-- The four cases of an AWAIT: its count is reached, or missed by most, with or without a flag; what counts as reached at the border. -/
def awaitCases : List (Core × Word32 × Nat × Nat) :=
  [(withWindow {} window, 0, 0, 0), (withWindow {} window, 1, 2 ^ 32 - 1, 0), (flagged, 1, 2 ^ 32 - 1, 8), (withWindow {} window, 0x80000000, 2 ^ 31, 0)]

/-- Entries to close: owners settled and with credit outstanding, a read window, its two ends, a sender. -/
def closeCases : List Handle :=
  [window, { window with slots := [⟨0, 0, 9, 4, 4, 3, 1, 0⟩] }, { window with kind := 3 }, { window with kind := 4 }, { window with kind := 6 }]

theorem test_sxWaitsEnd_met :
    (∀ c ∈ awaitCases, let x := waitEx .await 0x2005 c.2.1
      let s := waiting c.1 x
      SxWaitNext s 0 x ∧ (s.core 0).ctl.stopAt = none ∧ s.slotFree 0 10 5 ∧ x.waitTick = none ∧ (s.core 0).alive x.handle = true ∧
        ((s.core 0).handle (hIndex x.handle)).changedAt ≠ x.due ∧
        (s.core 0).mem.scr.flaw (64 * x.line) = none ∧ (s.core 0).mem.scr.flaw (64 * x.line + 1) = none ∧
        (((s.core 0).scrWord (64 * x.line)).val - x.target).toNat = c.2.2.1 ∧ ((s.core 0).scrWord (64 * x.line + 1)).val.toNat / 65536 % 32 = c.2.2.2) ∧
    (∀ h ∈ closeCases, let x := waitEx .hclose 0x2005 0
      let s := waiting (withWindow {} h) x
      SxWaitNext s 0 x ∧ (s.core 0).usable x.handle (fun _ => true) = some h ∧ (isOwner h.kind || isSender h.kind) = true) := by
  refine ⟨fun c h => ?_, fun e h => ?_⟩
  · have := (by decide +kernel : ∀ c ∈ awaitCases, let x := waitEx .await 0x2005 c.2.1; let s := waiting c.1 x
      ((s.core 0).sx.acc = [] ∧ x.refused = false ∧ x.ends = [] ∧ (s.core 0).heads = [] ∧ (s.core 0).sync.room x.sig = true) ∧
      (s.core 0).ctl.stopAt = none ∧ ((s.core 0).mem.used 10 5 = false ∧ s.held 0 10 5 = []) ∧ x.waitTick = none ∧ (s.core 0).alive x.handle = true ∧
        ((s.core 0).handle (hIndex x.handle)).changedAt ≠ x.due ∧
        (s.core 0).mem.scr.flaw (64 * x.line) = none ∧ (s.core 0).mem.scr.flaw (64 * x.line + 1) = none ∧
        (((s.core 0).scrWord (64 * x.line)).val - x.target).toNat = c.2.2.1 ∧ ((s.core 0).scrWord (64 * x.line + 1)).val.toNat / 65536 % 32 = c.2.2.2) c h
    exact ⟨waiting_next this.1, this.2⟩
  · have := (by decide +kernel : ∀ h ∈ closeCases, let x := waitEx .hclose 0x2005 0; let s := waiting (withWindow {} h) x
      ((s.core 0).sx.acc = [] ∧ x.refused = false ∧ x.ends = [] ∧ (s.core 0).heads = [] ∧ (s.core 0).sync.room x.sig = true) ∧
      (s.core 0).usable x.handle (fun _ => true) = some h ∧ (isOwner h.kind || isSender h.kind) = true) e h
    exact ⟨waiting_next this.1, this.2⟩

/-- The descriptor of a read window at lines 200 to 207 with its control line at 100, as entry 4,095; line 10 of a core holds it from word 61 on. -/
def rdwinBytes : List Byte := [0xFF, 0x3F, 0, 0, 200, 0, 0, 0, 7, 0, 100, 0]
def described : Core := { mem := { scr := { cells := cellWrite [] (256 * 10 + 4 * 61) rdwinBytes } } }
def hopenEx (stage : OpenStage) : SxWait := { waitEx .hopen (64 * 10 + 61) 0 with
  stage := stage, words := (List.range 3).map fun j => (described.scrWord (64 * 10 + 61 + j)) }

theorem test_handleOpens_met :
    (∀ stage ∈ [OpenStage.read, .write, .done], SxWaitNext (waiting described (hopenEx stage)) 0 (hopenEx stage)) ∧
    (let x := hopenEx .read
     x.handle < 2 ^ 20 ∧ (waiting described x).plainRead 0 x.due (64 * (x.handle / 64)) 64) ∧
    (let x := hopenEx .write
     let s := waiting described x
     s.openRefusal 0 x.handle x.words = none ∧ (parseDesc x.words).index = 4095 ∧ (s.newEntry 0 x.words).ctrl = 100 ∧
       kindStatus (s.newEntry 0 x.words).kind = true ∧ s.slotFree 0 10 x.due ∧ Memory.wf (s.core 0).mem.scr.cells = true) ∧
    (hopenEx .done).rd < ((waiting described (hopenEx .done)).core 0).sx.g.length :=
  ⟨fun st _ => waiting_next ⟨rfl, rfl, rfl, by cases st <;> decide +kernel, rfl⟩,
    ⟨by decide +kernel, ⟨by decide +kernel, by decide +kernel⟩, by decide +kernel, by decide +kernel, by decide +kernel⟩,
    ⟨by decide +kernel, by decide +kernel, by decide +kernel, by decide +kernel, ⟨by decide +kernel, by decide +kernel⟩, by decide +kernel⟩, by decide +kernel⟩


/-! ## Hypotheses met: the matrix engine -/

/-- MX at index 0 with a word, a tile in buffer 0; the stock is one STAGING region. -/
def mx (w : Nat) : State :=
  let c := runs .mx w
  only { c with mx := { t0 := { state := .ready } }, regs := { c.regs with regions := c.regs.regions.set 0 { w0 := 0x80480000, w1 := 327679 } } }

/-- A TLOAD of a tile of format f into buffer 1 from the last lines of the stock. -/
def tloadWord (f : Nat) : Nat := plain 1 (1 + 2 * f + 16 * (327680 - tileLines f))

/-- An MMA of one row: INT4 activations from line 0, scales from line 100, bank 3, row 255. -/
def mmaWord : Nat := plain 2 (2 + 100 * 2 ^ 20 + 3 * 2 ^ 48 + 255 * 2 ^ 50)

theorem test_mxIssue_met :
    (∀ f ∈ [0, 1, 2, 3], EngIssues (mx (tloadWord f)) 0 .mx 0 (tloadWord f) 0 ((mx (tloadWord f)).core 0).mxs.ready ∧ hOpc (tloadWord f) = 1 ∧
      tloadWord f % 2 = 1 ∧ tloadWord f / 2 % 8 = f ∧
      ((mx (tloadWord f)).core 0).readCode true (tloadWord f / 16 % 2 ^ 19) (tileLines f) = none ∧ tloadWord f / 16 % 2 ^ 19 + tileLines f = 327680) ∧
    (EngIssues (mx mmaWord) 0 .mx 0 mmaWord 0 ((mx mmaWord).readyMma 0) ∧ hOpc mmaWord = 2 ∧ ((mx mmaWord).core 0).heads = [] ∧
      mmaInconsistent (((mx mmaWord).core 0).mx.tile (mmBuf mmaWord)).fmt mmaWord = none ∧
      (rowInterval2 (((mx mmaWord).core 0).mx.tile (mmBuf mmaWord)).fmt (mmAfmt mmaWord)).isSome = true ∧
      ((mx mmaWord).core 0).mmaRefusal 0 mmaWord = none ∧ mmDrow mmaWord + mmCount mmaWord = 256 ∧ mmBank mmaWord = 3 ∧
      (((mx mmaWord).core 0).stampOf (mmBank mmaWord)).readersSeen 0 = 0) := by
  refine ⟨fun f h => ?_, engReady_spec (by decide +kernel), by decide +kernel⟩
  have := (by decide +kernel : ∀ f ∈ [0, 1, 2, 3], engReady (mx (tloadWord f)) 0 .mx 0 (tloadWord f) 0 ((mx (tloadWord f)).core 0).mxs.ready = true ∧
    hOpc (tloadWord f) = 1 ∧ tloadWord f % 2 = 1 ∧ tloadWord f / 2 % 8 = f ∧
      ((mx (tloadWord f)).core 0).readCode true (tloadWord f / 16 % 2 ^ 19) (tileLines f) = none ∧ tloadWord f / 16 % 2 ^ 19 + tileLines f = 327680) f h
  exact ⟨engReady_spec this.1, this.2⟩

/-- A load of a ternary tile into buffer 1 from the last lines of the stock. -/
def loadEx : LoadOp := { owed := {}, buf := 1, fmt := 3, line := 327680 - tileLines 3, refused := false, start := 4, ports := 5 }

theorem test_tileLoads_met :
    let s := only { mx := { ops := [.load loadEx] } }
    s.overs = [] ∧ headLoad (s.core 0).mx.ops [] = some loadEx ∧ loadEx.refused = false ∧ loadEx.owed.ends = [] ∧
    (s.core 0).sync.roomFor (max s.now (loadEx.start + loadEx.ports - 1)) loadEx.owed = true ∧
    loadPending (dropLoad (s.core 0).mx.ops) loadEx.buf = false ∧
    (∀ b, b < 4096 → byteInvalid (cellGet (s.core 0).mem.stock.cells (256 * loadEx.line + b)) = false) ∧
    (∀ j, j < tileLines loadEx.fmt → (s.core 0).readsZero true (loadEx.line + j) = false) ∧
    (∀ j, j < 32 * tileLines loadEx.fmt → (s.core 0).mem.stock.flaw (32 * loadEx.line + j) = none ∧ (s.core 0).mem.stock.bad (32 * loadEx.line + j) = false) :=
  ⟨rfl, by decide +kernel, rfl, rfl, by decide +kernel, rfl, fun _ _ => (by decide : byteInvalid 0 = false), fun _ _ => rfl, fun _ _ => ⟨rfl, rfl⟩⟩

def zeros : List (PWord 32) := List.replicate 64 ⟨0, false⟩
def ones : List (PWord 32) := List.replicate 64 ⟨0x01010101, false⟩

/-- A row about to enter, with its lines read: data da, scales of 1, tile t. -/
def entering (t : Tile) (da : List (PWord 32)) : State × MmaOp :=
  let o := { mmaEx with got := [⟨.scale, 100, ones⟩, ⟨.data, 0, da⟩] }
  (only { mx := { t0 := t, ops := [.mma o] } }, o)

/-- Column scales of zero make every contribution zero. -/
theorem contribs_of_zero_scales {o : MmaOp} {t : Tile} {sc da : List (PWord 32)} (h : ∀ n, n < 128 → t.scales n = [0, 0, 0, 0]) :
    o.contribs t sc da = List.replicate 128 0 := by
  refine List.eq_replicate_iff.2 ⟨by simp [MmaOp.contribs], fun x hx => ?_⟩
  obtain ⟨n, hn, rfl⟩ := List.mem_map.1 hx
  rw [h n (List.mem_range.1 hn)]
  simp [contribution, List.range_succ, sumInt]

/-- The three cases of the row: it agrees with the tally, it fails it, it is poisoned by its tile. -/
def rowCases : List (Tile × List (PWord 32) × Nat) := [({}, zeros, 0), ({ cells := [(256 * 66, 1)] }, ones, 1), ({ poison := true }, ones, 2)]

theorem test_mmaRowEnters_met : ∀ x ∈ rowCases, let s := (entering x.1 x.2.1).1
    let o := (entering x.1 x.2.1).2
    s.overs = [] ∧ headEntry (s.core 0).mx.ops [] = some o ∧ (s.core 0).heads = [] ∧ o.stamp = false ∧ o.slot = none ∧
    gotLine o.got .data ((o.aline + (o.aslot + o.entered) / rowsPerLine o.afmt : Nat) : Int) = some x.2.1 ∧
    gotLine o.got .scale ((o.scline + (o.scoff + o.entered) / 64 : Nat) : Int) = some ones ∧
    o.carries x.1 ones x.2.1 = decide (x.2.2 = 2) ∧
    (x.2.2 = 0 → tallyLhs (o.contribs x.1 ones x.2.1) = tallyRhs x.1.checks (o.acts x.2.1) (o.grainScales ones)) ∧
    (x.2.2 = 1 → tallyLhs (o.contribs x.1 ones x.2.1) ≠ tallyRhs x.1.checks (o.acts x.2.1) (o.grainScales ones)) := by
  intro x hx
  have hz := (by decide +kernel : ∀ x ∈ rowCases, ∀ n, n < 128 → x.1.scales n = [0, 0, 0, 0]) x hx
  simp only [contribs_of_zero_scales hz]
  exact (by decide +kernel : ∀ x ∈ rowCases, let s := (entering x.1 x.2.1).1
    let o := (entering x.1 x.2.1).2
    s.overs = [] ∧ headEntry (s.core 0).mx.ops [] = some o ∧ (s.core 0).heads = [] ∧ o.stamp = false ∧ o.slot = none ∧
    gotLine o.got .data ((o.aline + (o.aslot + o.entered) / rowsPerLine o.afmt : Nat) : Int) = some x.2.1 ∧
    gotLine o.got .scale ((o.scline + (o.scoff + o.entered) / 64 : Nat) : Int) = some ones ∧
    o.carries x.1 ones x.2.1 = decide (x.2.2 = 2) ∧
    (x.2.2 = 0 → tallyLhs (List.replicate 128 0) = tallyRhs x.1.checks (o.acts x.2.1) (o.grainScales ones)) ∧
    (x.2.2 = 1 → tallyLhs (List.replicate 128 0) ≠ tallyRhs x.1.checks (o.acts x.2.1) (o.grainScales ones))) x hx

theorem test_mmaRowsWritten_met :
    (∀ v ∈ [s40Min, s40Max], ∀ ovw ∈ [false, true],
      let o := { mmaEx with entered := 1, ovw := ovw, rows := [⟨List.replicate 128 v, false⟩] }
      let s := only { mx := { ops := [.mma o] } }
      s.overs = [] ∧ headWrite (s.core 0).mx.ops = some o ∧ (List.replicate 128 v).length = 128 ∧ (∀ x ∈ List.replicate 128 v, s40Min ≤ x ∧ x ≤ s40Max) ∧
        o.stamp = false ∧ o.drow + o.written = 255 ∧ o.bank < 4 ∧ (s.core 0).accPoison o.bank 255 = false ∧ Memory.wf (s.core 0).mem.acc.cells = true) ∧
    (let o := { mmaEx with entered := 1, written := 1 }
     let s := only { mx := { ops := [.mma o] } }
     s.overs = [] ∧ headMma (s.core 0).mx.ops = some o ∧ o.refused = false ∧ o.written = o.count ∧ o.bin = none ∧ o.owed.ends = [] ∧
        (s.core 0).sync.roomFor (max s.now (o.enterAt (o.count - 1) + s.ctD)) o.owed = true) := by
  decide +kernel

/-! ## Hypotheses met: the data mover -/

/-- DX at index 0 with a word; the stock is one STAGING region. -/
def dx (w : Nat) : State :=
  let c := runs .dx w
  only { c with regs := { c.regs with regions := c.regs.regions.set 0 { w0 := 0x80480000, w1 := 327679 } } }

/-- One word for each row of the data mover, at the ends of the memories. -/
def dxWord (op : Nat) : Nat := plain op (
  if op = 2 then 327679 + 2 ^ 38 else if op = 3 then 327679 * 2 ^ 19 + 2 ^ 57 else if op = 4 then 327679 + 16383 * 2 ^ 19
  else if op = 5 then 16383 + 327679 * 2 ^ 14 else if op = 1 then 0xFFFFFFFF else 3 + 255 * 4 + 16381 * 2 ^ 18)

theorem test_dataMover_met :
    (∀ row ∈ dxRows, let w := dxWord row.2.1;
      EngIssues (dx w) 0 .dx 0 w 0 ((dx w).core 0).dxs.ready ∧ hOpc w = row.2.1 ∧
      ((dx w).core 0).dxRefusal 0 (row.2.2 ((dx w).core 0) w (owedOf w 0)) = none ∧
      (((dx w).core 0).stampOf (row.2.2 ((dx w).core 0) w (owedOf w 0)).bank).readersSeen 0 = 0) ∧
    (EngIssues (dx (dxWord 1)) 0 .dx 0 (dxWord 1) 0 ((dx (dxWord 1)).core 0).dxs.ready ∧ hOpc (dxWord 1) = 1 ∧
      (((dx (dxWord 1)).core 0).engSync (dxWord 1) 0).roomFor 0 (owedOf (dxWord 1) 0) = true) ∧
    (∀ kind ∈ [DxKind.fill, .copy, .ld, .st, .acr, .acw], let o := { dxEx kind with rd := (dxEx kind).units, wr := (dxEx kind).units };
      let s := only { dx := { ops := [o] } };
      s.overs = [] ∧ (firstDx s.ctEDX s.ctDDX (s.core 0).dx.ops).map (·.2) = some o ∧ o.refused = false ∧ o.bin = none ∧ o.owed.ends = [] ∧
        ∀ u, u < 200 → (s.core 0).sync.roomFor u o.owed = true) := by
  refine ⟨fun row h => ?_, ⟨engReady_spec (by decide +kernel), by decide +kernel⟩, by decide +kernel⟩
  have := (by decide +kernel : ∀ row ∈ dxRows, let w := dxWord row.2.1;
    engReady (dx w) 0 .dx 0 w 0 ((dx w).core 0).dxs.ready = true ∧ hOpc w = row.2.1 ∧
      ((dx w).core 0).dxRefusal 0 (row.2.2 ((dx w).core 0) w (owedOf w 0)) = none ∧
      (((dx w).core 0).stampOf (row.2.2 ((dx w).core 0) w (owedOf w 0)).bank).readersSeen 0 = 0) row h
  exact ⟨engReady_spec this.1, this.2⟩

/-- The four kinds of unit: a fill and a load and a store to be written, a load to be read. -/
theorem test_dxMoves_met : ∀ x ∈ [({ dxEx .fill with rd := 1, dst := 16383, pattern := 7 }, true), (dxEx .ld, false),
      ({ dxEx .ld with rd := 1, buf := [[ones]] }, true), ({ dxEx .st with rd := 1, dst := 327679, buf := [[ones]] }, true)],
    let s := only { dx := { ops := [x.1] } }
    ∃ t, t < 200 ∧ s.overs = [] ∧ nextTransfer s.ctEDX s.ctDDX (s.core 0).dx.ops = some (t, x.2, x.1) ∧ s.now ≤ t ∧ x.1.bin = none ∧ (s.core 0).heads = [] ∧
    (s.core 0).mem.used 7 t = false ∧ s.held 0 7 t = [] ∧
    ((s.core 0).mx.portCycles.find? fun y => decide (y.1 ≤ t) && decide (t ≤ y.2)) = none ∧
    Memory.wf (s.core 0).mem.scr.cells = true ∧ Memory.wf (s.core 0).mem.stock.cells = true ∧ (s.core 0).readsZero true (x.1.src + x.1.rd) = false ∧
    (∀ j, j < 32 → (s.core 0).mem.stock.flaw (32 * (x.1.src + x.1.rd) + j) = none) ∧ ones.length = 64 ∧ ∀ y ∈ ones, y.poison = false := by
  decide +kernel

/-! ## Hypotheses met: the vector chain -/

def vx (w : Nat) : State := only (runs .vx w)

theorem test_vxLoads_met :
    (∀ x ∈ [(1, false, 7, 16383, 1), (2, true, 15, 16382, 2)],
      let w := plain x.1 (if x.2.1 then 15 + 16382 * 2 ^ 4 + 2 ^ 18 else 7 + 16383 * 2 ^ 3);
      ((vx w).core 0).heads = [] ∧ EngIssues (vx w) 0 .vx 0 w 0 ((vx w).core 0).vxs.ready ∧
      (hOpc w = 1 ∧ x.2.1 = false ∧ x.2.2.1 = w % 8 ∧ x.2.2.2.1 = w / 2 ^ 3 % 2 ^ 14 ∧ x.2.2.2.2 = 1 ∨
        hOpc w = 2 ∧ x.2.1 = true ∧ x.2.2.1 = w % 16 ∧ x.2.2.2.1 = w / 2 ^ 4 % 2 ^ 14 ∧ x.2.2.2.2 = w / 2 ^ 18 % 2 + 1) ∧
      ((vx w).core 0).readCode false x.2.2.2.1 x.2.2.2.2 = none) ∧
    (∀ x ∈ [({ owed := {}, issue := 0, tab := false, slot := 7, lines := 1, words := ones, refused := false, due := 3 } : TabOp),
        { owed := {}, issue := 0, tab := true, slot := 15, lines := 2, words := ones ++ ones, refused := false, due := 3 },
        { owed := {}, issue := 0, tab := true, slot := 0, lines := 1, words := ones, refused := false, due := 3 }],
      let s := only { vx := { loads := [x] } };
      s.overs = [] ∧ (s.core 0).heads = [] ∧ firstLoad (s.core 0).vx.loads = some x ∧ s.now ≤ x.due ∧ x.owed.ends = [] ∧ (s.core 0).sync.roomFor x.due x.owed = true ∧
        lateRun x.slot (s.core 0).vx.runs = none ∧ x.slot < (if x.tab then (s.core 0).vx.tab else (s.core 0).vx.cfg).length ∧
        x.words.length ≤ (if x.tab then 128 else 64)) := by
  refine ⟨fun x h => ?_, by decide +kernel⟩
  have := (by decide +kernel : ∀ x ∈ [(1, false, 7, 16383, 1), (2, true, 15, 16382, 2)],
    let w := plain x.1 (if x.2.1 then 15 + 16382 * 2 ^ 4 + 2 ^ 18 else 7 + 16383 * 2 ^ 3);
    ((vx w).core 0).heads = [] ∧ engReady (vx w) 0 .vx 0 w 0 ((vx w).core 0).vxs.ready = true ∧
      (hOpc w = 1 ∧ x.2.1 = false ∧ x.2.2.1 = w % 8 ∧ x.2.2.2.1 = w / 2 ^ 3 % 2 ^ 14 ∧ x.2.2.2.2 = 1 ∨
        hOpc w = 2 ∧ x.2.1 = true ∧ x.2.2.1 = w % 16 ∧ x.2.2.2.1 = w / 2 ^ 4 % 2 ^ 14 ∧ x.2.2.2.2 = w / 2 ^ 18 % 2 + 1) ∧
      ((vx w).core 0).readCode false x.2.2.2.1 x.2.2.2.2 = none) x h
  exact ⟨this.1, engReady_spec this.2.1, this.2.2⟩

/-- VX at index 0 with a word, and a configuration whose chain is one REQUANT stage in slot 0. -/
def vxr (w : Nat) : State :=
  let c := runs .vx w
  only { c with vx := { c.vx with cfg := c.vx.cfg.set 0 { words := List.replicate 8 ⟨0, false⟩ ++ [⟨1, false⟩] } } }

/-- A VRUN of one vector from the last line of the scratchpad, and of the last row of the last bank. -/
def vrunWords : List Nat := [plain 3 (16383 * 2 ^ 6), plain 3 (4 * 2 ^ 3 + 3 * 2 ^ 6 + 255 * 2 ^ 8)]

theorem test_vrunIssues_met : ∀ w ∈ vrunWords, let o := ((vxr w).core 0).vrunOp w 0 (owedOf w 0)
    EngIssues (vxr w) 0 .vx 0 w 0 ((vxr w).core 0).vxs.ready ∧ hOpc w = 3 ∧ ((vxr w).core 0).heads = [] ∧ ((vxr w).core 0).vx.loads = [] ∧
    w.testBit 50 = false ∧ w.testBit 51 = false ∧ o.cfgPoison = false ∧ cfgBad o.cfg o.src o.sslot o.oslot = none ∧
    ((vxr w).core 0).vrunRefusal 0 o = none := by
  intro w h
  have := (by decide +kernel : ∀ w ∈ vrunWords, let o := ((vxr w).core 0).vrunOp w 0 (owedOf w 0)
    engReady (vxr w) 0 .vx 0 w 0 ((vxr w).core 0).vxs.ready = true ∧ hOpc w = 3 ∧ ((vxr w).core 0).heads = [] ∧ ((vxr w).core 0).vx.loads = [] ∧
    w.testBit 50 = false ∧ w.testBit 51 = false ∧ o.cfgPoison = false ∧ cfgBad o.cfg o.src o.sslot o.oslot = none ∧
    ((vxr w).core 0).vrunRefusal 0 o = none) w h
  exact ⟨engReady_spec this.1, this.2⟩

/-- A vector about to enter a chain with one GATHER stage: in range (no lane fails) or with an index of −1. -/
theorem test_vectorEnters_met : ∀ x ∈ [(({} : List Nat), ones, false), (List.replicate 8 0 ++ [9], List.replicate 64 ⟨0xFFFFFFFF, false⟩, true)],
    let o := { vrunEx with cfg := x.1, got := [⟨.data, 0, x.2.1⟩], snap := zeros }
    let s := only { vx := { runs := [o] } }
    s.overs = [] ∧ (s.core 0).vx.runs.find? VrunOp.entering = some o ∧ (s.core 0).heads = [] ∧ s.now ≤ o.enterAt ∧ o.src ≠ fmtAcc ∧ o.slot = none ∧ o.readBad = false ∧
    (o.inLanes o.entered).isSome = true ∧ (o.stream o.entered).isSome = true ∧ o.oorSeen = false ∧
    (runChain { tabs := (s.core 0).vx.tab, b := (o.stream o.entered).getD [], snap := o.snap } 0
      { lanes := (o.inLanes o.entered).getD [], red := emptyStates 0 (s.core 0).vx.reduce (cChain o.cfg) } (cChain o.cfg)).firstOor.isSome = x.2.2 := by
  decide +kernel

theorem test_vrunEnds_met :
    (let x : OutWrite := { count := false, due := 9, line := 8191, words := ones.zipIdx.map fun y => (0 + y.2, y.1) }
     let o := { vrunEx with outs := [x] }
     let s := only { vx := { runs := [o] } }
     s.overs = [] ∧ (s.core 0).vx.runs.find? ((s.core 0).hasWrite s.now) = some o ∧ o.obin = none ∧ o.oslotTaken = none ∧ o.scaleWords = [] ∧
        (∀ y ∈ ones, y.poison = false) ∧ s.now ≤ max x.due ((s.core 0).vx.lastOut + 1) ∧ (s.core 0).heads = [] ∧ (s.core 0).mem.used 5 9 = false ∧ s.held 0 5 9 = [] ∧
        x.line + o.oline < 8192 ∧ (s.core 0).writeCode false (x.line + o.oline) 1 = none ∧ Memory.wf (s.core 0).mem.scr.cells = true) ∧
    (let o := { vrunEx with entered := 1, lastWrite := 12 }
     let s := only { vx := { runs := [o] } }
     s.overs = [] ∧ firstDone s.ctEV (s.core 0).vx.runs = some (12, o) ∧ o.refused = false ∧ o.sbin = none ∧ o.obin = none ∧ o.owed.ends = [] ∧
        (s.core 0).sync.roomFor (max s.now 12) o.owed = true) := by
  decide +kernel

/-! ## Hypotheses met: the network engine -/

/-- The entry 5 that a send, a request or a wait of each row names. -/
def endOf (kind : Nat) : Handle :=
  { window with kind := kind, slots := [], tgtMod := 0, tgtCore := 1, ohandle := 0x3006, rsize := 15, grant := 64, credit := 64 }

/-- A word of each row of NX, its entry, and the state in which it is next: the last line of the scratchpad to the first of the window. -/
def nxCases : List ((Nat → Instr) × Nat × Handle) :=
  [(.nput, plain 1 (0x2005 + 16383 * 2 ^ 32 + 2 ^ 58), endOf 4), (.ntup, plain 2 (0x2005 + 0x7FFFF * 2 ^ 37), endOf 4),
   (.nring, plain 3 (0x2005 + 16383 * 2 ^ 16), endOf 5), (.nreq, plain 4 (0x2005 + 16383 * 2 ^ 32), endOf 6), (.nwait, plain 5 (0x2005 + 2 ^ 16), endOf 6)]
def nx (w : Nat) (h : Handle) : State := only (withWindow (runs .nx w) h)
def nxOp (x : ((Nat → Instr) × Nat × (Nat → Nat → Owed → NxOp)) × (Nat → Instr) × Nat × Handle) : NxOp :=
  let w := x.2.2.1
  { x.1.2.2 w x.2.2.2.ctrl (owedOf w 0) with issue := 0, since := State.reset.ctENX, mseq := if hOpc w = 5 then 0 else x.2.2.2.mseq }

theorem test_nxIssues_met : ∀ x ∈ nxRows.zip nxCases, let w := x.2.2.1
    let s := nx w x.2.2.2
    EngIssues s 0 .nx 0 w 0 (s.core 0).nxs.ready ∧ (s.core 0).heads = [] ∧ hOpc w = x.1.2.1 ∧
      (s.core 0).usable (w % 2 ^ 16) (nxOp x).fits = some x.2.2.2 ∧ (s.core 0).nxRefusal 0 (nxOp x) = none ∧ (s.core 0).nx.ops = [] ∧
      ((nxOp x).kind = .put → s.nputIncons 0 w = none) ∧ ((nxOp x).kind = .tup → s.ntupIncons 0 w = none) := by
  intro x h
  have := (by decide +kernel : ∀ x ∈ nxRows.zip nxCases, let w := x.2.2.1
    let s := nx w x.2.2.2
    engReady s 0 .nx 0 w 0 (s.core 0).nxs.ready = true ∧ (s.core 0).heads = [] ∧ hOpc w = x.1.2.1 ∧
      (s.core 0).usable (w % 2 ^ 16) (nxOp x).fits = some x.2.2.2 ∧ (s.core 0).nxRefusal 0 (nxOp x) = none ∧ (s.core 0).nx.ops = [] ∧
      ((nxOp x).kind = .put → s.nputIncons 0 w = none) ∧ ((nxOp x).kind = .tup → s.ntupIncons 0 w = none)) x h
  exact ⟨engReady_spec this.1, this.2⟩

/-- An operation in flight at entry 5 of generation 2, and core 0 with it. -/
def sending (o : NxOp) (h : Handle) : State := only (withWindow { nx := { ops := [o] } } h)
def sendCases : List (NxOp × Handle) :=
  [({ nxEx .put with count := 1, words := ones }, endOf 4), ({ nxEx .tup with count := 1, words := ones }, endOf 4),
   ({ nxEx .ring with count := 1, words := ones }, endOf 5), ({ nxEx .req with count := 20, sent := 1 }, endOf 6)]

theorem test_nxSends_met : ∀ x ∈ sendCases, let o := { x.1 with handle := 0x2005 }
    let s := sending o x.2
    s.overs = [] ∧ NxAlone s 0 o ∧ (s.core 0).usable o.handle isSender = some x.2 ∧ o.silent = false ∧ o.ponly = false ∧ o.bin = none ∧ o.slot = none ∧
    o.unsent = true ∧ (o.kind = .put ∨ o.kind = .ring → o.words ≠ []) ∧ s.canLeave 0 o = true ∧
    (o.kind ≠ .req → o.sent + 1 = o.packets ∧ o.owed.ends = [] ∧ (s.core 0).sync.roomFor (max s.now (o.issue + s.ctENX + o.slip)) o.owed = true) := by
  intro x h
  have := (by decide +kernel : ∀ x ∈ sendCases, let o := { x.1 with handle := 0x2005 }
    let s := sending o x.2
    s.overs = [] ∧ ((s.core 0).heads = [] ∧ (s.core 0).nx.ops = [o]) ∧ (s.core 0).usable o.handle isSender = some x.2 ∧ o.silent = false ∧ o.ponly = false ∧
    o.bin = none ∧ o.slot = none ∧ o.unsent = true ∧ (o.kind = .put ∨ o.kind = .ring → o.words ≠ []) ∧ s.canLeave 0 o = true ∧
    (o.kind ≠ .req → o.sent + 1 = o.packets ∧ o.owed.ends = [] ∧ (s.core 0).sync.roomFor (max s.now (o.issue + s.ctENX + o.slip)) o.owed = true)) x h
  exact ⟨this.1, ⟨this.2.1.1, this.2.1.2⟩, this.2.2⟩

/-- A wait of NX for the count of its target: reached, missed, missed with a flag. -/
def waitCases : List (Core × Word32 × Nat × Nat) := [({}, 0, 0, 0), ({}, 1, 2 ^ 32 - 1, 0), ({ mem := flagged.mem }, 1, 2 ^ 32 - 1, 8)]
def waitNx (c : Core × Word32 × Nat × Nat) : State × NxOp :=
  let o := { nxEx .wait with handle := 0x2005, line := 100, target := c.2.1 }
  (only (withWindow { c.1 with nx := { ops := [o] } } window), o)

theorem test_nxWaits_met :
    (∀ c ∈ waitCases, let s := (waitNx c).1
      let o := (waitNx c).2
      let u := max s.now (o.issue + s.ctENX + o.slip)
      s.overs = [] ∧ NxAlone s 0 o ∧ o.kind = .wait ∧ o.silent = false ∧ o.waitTick = none ∧ o.bin = none ∧ (s.core 0).ctl.stopAt = none ∧
        s.slotFree 0 8 u ∧ (s.core 0).alive o.handle = true ∧ ((s.core 0).handle (hIndex o.handle)).changedAt ≠ u ∧
        (s.core 0).mem.scr.flaw (64 * o.line) = none ∧ (s.core 0).mem.scr.flaw (64 * o.line + 1) = none ∧
        (((s.core 0).scrWord (64 * o.line)).val - o.target).toNat = c.2.2.1 ∧ ((s.core 0).scrWord (64 * o.line + 1)).val.toNat / 65536 % 32 = c.2.2.2 ∧
        o.owed.ends = [] ∧ (s.core 0).sync.roomFor u o.owed = true) ∧
    ((only {}).overs = [] ∧ ((only {}).core 0).ctl.attached = true ∧ ((only {}).core 0).nx.ops = []) := by
  refine ⟨fun c h => ?_, by decide +kernel⟩
  have := (by decide +kernel : ∀ c ∈ waitCases, let s := (waitNx c).1
      let o := (waitNx c).2
      let u := max s.now (o.issue + s.ctENX + o.slip)
      ((s.core 0).heads = [] ∧ (s.core 0).nx.ops = [o]) ∧ o.kind = .wait ∧ o.silent = false ∧ o.waitTick = none ∧ o.bin = none ∧ (s.core 0).ctl.stopAt = none ∧
        ((s.core 0).mem.used 8 u = false ∧ s.held 0 8 u = []) ∧ (s.core 0).alive o.handle = true ∧ ((s.core 0).handle (hIndex o.handle)).changedAt ≠ u ∧
        (s.core 0).mem.scr.flaw (64 * o.line) = none ∧ (s.core 0).mem.scr.flaw (64 * o.line + 1) = none ∧
        (((s.core 0).scrWord (64 * o.line)).val - o.target).toNat = c.2.2.1 ∧ ((s.core 0).scrWord (64 * o.line + 1)).val.toNat / 65536 % 32 = c.2.2.2 ∧
        o.owed.ends = [] ∧ (s.core 0).sync.roomFor u o.owed = true) c h
  exact ⟨rfl, ⟨this.1.1, this.1.2⟩, this.2⟩

/-- A send without credit, a wait of NX and a wait of SX, under watchdogs of 2^1 and of the longest shift. -/
def watched (v : Nat) (c : Core) : State := only { c with chan := { c.chan with creditShift := BitVec.ofNat _ v, arriveShift := BitVec.ofNat _ v } }
def dryPut : NxOp := { nxEx .put with handle := 0x2005, count := 1 }
def dryEnd : Handle := { endOf 4 with credit := 0 }
def waited : NxOp := { nxEx .wait with handle := 0x2005, line := 100, target := 1, waitTick := some 7 }
def waitedSx : SxWait := { waitEx .await 0x2005 1 with waitTick := some 7 }

theorem test_channelWatchdogs_met : ∀ v ∈ [1, 63],
    (let s := watched v (withWindow { nx := { ops := [dryPut] } } dryEnd)
     let u := max s.now (max (s.core 0).chan.creditFrom dryPut.since + 2 ^ watchShift (s.core 0).chan.creditShift.toNat - 1 - (s.core 0).chan.creditCount)
     s.overs = [] ∧ NxAlone s 0 dryPut ∧ (s.core 0).sender dryPut.handle = some dryEnd ∧ dryPut.unsent = true ∧ dryPut.kind ≠ .req ∧ dryPut.bin = none ∧
      dryEnd.credit < dryPut.charge dryEnd dryPut.sent ∧ (s.core 0).chan.creditShift ≠ 0 ∧ dryPut.owed.ends = [] ∧
      (s.core 0).sync.roomFor (u + 1) dryPut.owed = true) ∧
    (let s := watched v (withWindow { nx := { ops := [waited] } } window)
     s.overs = [] ∧ (s.core 0).nx.ops = [waited] ∧ waited.kind = .wait ∧ waited.waitTick = some 7 ∧ waited.bin = none ∧ (s.core 0).chan.arriveShift ≠ 0 ∧
      waited.owed.ends = [] ∧ (s.core 0).sync.roomFor (s.advanceTick (7 + 2 ^ watchShift (s.core 0).chan.arriveShift.toNat)).now waited.owed = true) ∧
    (let s := watched v { withWindow {} window with sx := { wait := some waitedSx } }
     s.overs = [] ∧ (s.core 0).sx.wait = some waitedSx ∧ waitedSx.waitTick = some 7 ∧ (s.core 0).chan.arriveShift ≠ 0 ∧ waitedSx.ends = [] ∧
      (s.core 0).sync.room waitedSx.sig = true) := by
  intro v h
  have := (by decide +kernel : ∀ v ∈ [1, 63],
    (let s := watched v (withWindow { nx := { ops := [dryPut] } } dryEnd)
     let u := max s.now (max (s.core 0).chan.creditFrom dryPut.since + 2 ^ watchShift (s.core 0).chan.creditShift.toNat - 1 - (s.core 0).chan.creditCount)
     ((s.core 0).heads = [] ∧ (s.core 0).nx.ops = [dryPut]) ∧ (s.core 0).sender dryPut.handle = some dryEnd ∧ dryPut.unsent = true ∧ dryPut.kind ≠ .req ∧
      dryPut.bin = none ∧ dryEnd.credit < dryPut.charge dryEnd dryPut.sent ∧ (s.core 0).chan.creditShift ≠ 0 ∧ dryPut.owed.ends = [] ∧
      (s.core 0).sync.roomFor (u + 1) dryPut.owed = true) ∧
    (let s := watched v (withWindow { nx := { ops := [waited] } } window)
     s.overs = [] ∧ (s.core 0).nx.ops = [waited] ∧ waited.kind = .wait ∧ waited.waitTick = some 7 ∧ waited.bin = none ∧ (s.core 0).chan.arriveShift ≠ 0 ∧
      waited.owed.ends = [] ∧ (s.core 0).sync.roomFor (s.advanceTick (7 + 2 ^ watchShift (s.core 0).chan.arriveShift.toNat)).now waited.owed = true) ∧
    (let s := watched v { withWindow {} window with sx := { wait := some waitedSx } }
     s.overs = [] ∧ (s.core 0).sx.wait = some waitedSx ∧ waitedSx.waitTick = some 7 ∧ (s.core 0).chan.arriveShift ≠ 0 ∧ waitedSx.ends = [] ∧
      (s.core 0).sync.room waitedSx.sig = true)) v h
  exact ⟨⟨rfl, ⟨this.1.1.1, this.1.1.2⟩, this.1.2⟩, this.2⟩

/-! ## Hypotheses met: arrivals -/

/-- Core c in a pass, with packet p at its exit. -/
def arriving (c : Core) (p : Packet) : State :=
  { only c with
    now := 10, bar := { State.reset.bar with phase := .run }
    mesh := { State.reset.mesh with items := [{ pkt := p, src := .core 1, exit := some (.core 0), entered := some 0 }] } }

/-- A packet for entry 5 of generation 2 of core 0, from core 0 of this module: a last packet of one line, or one word, in the last place. -/
def toEntry (hdr : ChanHdr) (words : Nat) : Packet :=
  chanPacket clsFwd 0 0 0 0 false { hdr with score := 0, tidx := 5, tgen := 2, last := true } (List.replicate words ⟨7, false⟩)

theorem packet_next {c : Core} {p : Packet} {h : Handle}
    (a : (arriving c p).group (groupOf 0) = .on ∧ (arriving c p).blocked 0 { pkt := p, src := .core 1, exit := some (.core 0), entered := some 0 } = false ∧
      (arriving c p).arrives { pkt := p, src := .core 1, exit := some (.core 0), entered := some 0 } = true ∧
      (arriving c p).judge 0 p = .pass h ∧ ((arriving c p).core 0).heads = [] ∧ Memory.wf ((arriving c p).core 0).mem.scr.cells = true) :
    PacketNext (arriving c p) 0 0 p h :=
  ⟨⟨_, rfl, rfl, rfl, a.2.1, a.2.2.1, Nat.zero_le _⟩, a.1, rfl, rfl, (by decide : State.reset.bar.due < 10), a.2.2.2.1, a.2.2.2.2.1, a.2.2.2.2.2⟩

/-- A PUT and a TUP for the window, a RING for a ring in its place. -/
def dataCases : List (Packet × Handle) :=
  [(toEntry { op := opPut, off := 3 } 32, window), (toEntry { op := opTup, off := 127 } 1, window), (toEntry { op := opRing, off := 3 } 32, { window with kind := 2 })]

theorem test_dataArrives_met : ∀ x ∈ dataCases, let s := arriving (withWindow {} x.2) x.1
    PacketNext s 0 0 x.1 x.2 ∧ x.2.stock = false ∧ (s.core 0).writeCode false (x.2.base + (x.1.chan.extent x.2).1) (x.1.chan.extent x.2).2 = none ∧
    x.2.ctrl < x.2.base + (x.1.chan.extent x.2).1 ∧ x.1.chan.acc = false ∧ x.2.sharedRing = false ∧ x.1.chan.skip = 0 ∧
    (x.1.chan.op = opTup → (∀ y ∈ x.1.tuple, y.poison = false) ∧ x.1.chan.off % 32 + x.1.chan.n < 32) ∧
    (x.1.chan.op ≠ opTup → ∀ l ∈ x.1.linesOf, l.length = 64 ∧ ∀ y ∈ l, y.poison = false) := by
  intro x h
  have := (by decide +kernel : ∀ x ∈ dataCases, let s := arriving (withWindow {} x.2) x.1
    (s.group (groupOf 0) = .on ∧ s.blocked 0 { pkt := x.1, src := .core 1, exit := some (.core 0), entered := some 0 } = false ∧
      s.arrives { pkt := x.1, src := .core 1, exit := some (.core 0), entered := some 0 } = true ∧
      s.judge 0 x.1 = .pass x.2 ∧ (s.core 0).heads = [] ∧ Memory.wf (s.core 0).mem.scr.cells = true) ∧
    x.2.stock = false ∧ (s.core 0).writeCode false (x.2.base + (x.1.chan.extent x.2).1) (x.1.chan.extent x.2).2 = none ∧
    x.2.ctrl < x.2.base + (x.1.chan.extent x.2).1 ∧ x.1.chan.acc = false ∧ x.2.sharedRing = false ∧ x.1.chan.skip = 0 ∧
    (x.1.chan.op = opTup → (∀ y ∈ x.1.tuple, y.poison = false) ∧ x.1.chan.off % 32 + x.1.chan.n < 32) ∧
    (x.1.chan.op ≠ opTup → ∀ l ∈ x.1.linesOf, l.length = 64 ∧ ∀ y ∈ l, y.poison = false)) x h
  exact ⟨packet_next this.1, this.2⟩

/-- A request for the last line of a read window, and the last reply that an NREQ of one line waits for. -/
def reqEx : Packet := toEntry { op := opReq, off := 3 } 0
def rplEx : Packet := toEntry { op := opRpl, dline := 300, rhandle := 0x2005 } 32
def replyEx : Reply := { handle := 0x2005, dline := 300, lines := 1, op := 0 }
def askedEx : NxOp := { nxEx .req with handle := 0x2005, count := 1, sent := 1, left := 1 }
def asking : Core := let c := withWindow { nx := { ops := [askedEx] } } (endOf 6); { c with chan := { c.chan with replies := [replyEx] } }

theorem test_readsReturn_met :
    (let h := { window with kind := 3 }
     let s := arriving (withWindow {} h) reqEx
     PacketNext s 0 0 reqEx h ∧ reqEx.chan.op = opReq ∧ h.stock = false ∧ kindStatus h.kind = true ∧ h.state ≠ .closed ∧
      (s.core 0).readCode false (h.base + reqEx.chan.off) (reqEx.chan.n + 1) = none ∧
      (∀ j, j < reqEx.chan.n + 1 → (s.core 0).readsZero false (h.base + reqEx.chan.off + j) = false) ∧
      (∀ w, w < 64 * (reqEx.chan.n + 1) → (s.core 0).mem.scr.flaw (64 * (h.base + reqEx.chan.off) + w) = none)) ∧
    (let s := arriving asking rplEx
     s.group (groupOf 0) = .on ∧ (s.core 0).ctl.attached = true ∧ s.bar.takes = true ∧ s.bar.due < s.now ∧ (s.core 0).heads = [] ∧
      Memory.wf (s.core 0).mem.scr.cells = true ∧ rplEx.chan.op = opRpl ∧ rplEx.chan.err = false ∧ Stands s 0 (.core 0) rplEx ∧
      (s.core 0).replyFor rplEx.chan = some replyEx ∧ (s.core 0).nx.ops = [askedEx] ∧ askedEx.kind = .req ∧ askedEx.issue = replyEx.op ∧ askedEx.left = 1 ∧
      askedEx.sent = askedEx.packets ∧ askedEx.bin = none ∧ askedEx.slot = none ∧ askedEx.owed.ends = [] ∧ (s.core 0).sync.roomFor s.now askedEx.owed = true ∧
      (s.core 0).handle (replyEx.handle % 4096) = endOf 6 ∧ (endOf 6).state ≠ .closed ∧ (endOf 6).gen = replyEx.handle / 4096 % 16 ∧
      kindStatus (endOf 6).kind = true ∧ (s.core 0).writeCode false replyEx.dline (rplEx.chan.n + 1) = none ∧ (endOf 6).ctrl < replyEx.dline ∧
      ∀ j, j ≤ rplEx.chan.n → (rplEx.lineAt j).length = 64 ∧ ∀ x ∈ rplEx.lineAt j, x.poison = false) := by
  refine ⟨⟨packet_next (by decide +kernel), by decide +kernel⟩, by decide +kernel, by decide +kernel, by decide +kernel, by decide, by decide +kernel, by decide +kernel,
    by decide +kernel, by decide +kernel, ⟨_, rfl, rfl, rfl, by decide +kernel, by decide +kernel, Nat.zero_le _⟩, by decide +kernel⟩

/-- A grant up to the ceiling, a yield, an entry that has yet to yield, a settled one that closes. -/
def grantEx : Packet := chanPacket clsFwd 0 0 0 0 false { op := opGrant, score := 1, tidx := 5, tgen := 2, off := 64 } []
def yieldEx : Packet := toEntry { op := opYield, off := 4 } 0
def yielding : Core := { chan := { yields := [⟨0x2005, endOf 4⟩] } }

theorem test_creditMoves_met :
    (let h := { endOf 4 with credit := 0 }
     let s := arriving (withWindow {} h) grantEx
     PacketNext s 0 0 grantEx h ∧ grantEx.chan.op = opGrant ∧ (s.core 0).nx.ops = [] ∧ h.credit + grantEx.chan.off = h.ceiling) ∧
    (PacketNext (arriving (withWindow {} window) yieldEx) 0 0 yieldEx window ∧ yieldEx.chan.op = opYield) ∧
    (((only yielding).core 0).yieldAt 5 = some ⟨0x2005, endOf 4⟩) ∧
    (let s := only (withWindow {} { window with state := .closing, slots := [⟨0, 0, 9, 4, 4, 3, 1, 0⟩] })
     ((s.core 0).handle 5).state = .closing ∧ ((s.core 0).handle 5).settled = true) :=
  ⟨⟨packet_next (by decide +kernel), by decide +kernel⟩, ⟨packet_next (by decide +kernel), by decide +kernel⟩, by decide +kernel, by decide +kernel⟩

/-! ## Hypotheses met: mesh, links -/

/-- A packet of core 1 before its router, in an aligned mesh with routing configuration cfg whose first exits are ports 14 and 15. -/
def leaving (cfg : Nat) (t : Transit) : State :=
  { only {} with
    mesh := { State.reset.mesh with aligned := true, items := [t] }
    route := { State.reset.route with cfg := BitVec.ofNat 32 cfg, dir := [0x8000000E, 0x8000000F, 16, 17, 18, 19], seen := [0x0442] }
    ports := modAt State.reset.ports 15 fun x => { x with usable := true } }
def bound (dmod dtgt : Nat) : Transit := { pkt := chanPacket clsFwd 0 dmod dtgt 0 false { op := opPut } (List.replicate 32 ⟨7, false⟩), src := .core 1 }

/-- Here: the last core, the hub, a reserved target. Away: along a line, and in a ring of four modules both ways. -/
theorem test_packetsRouted_met :
    (∀ x ∈ [(0, 767), (0, 0x3FF), (0, 768), (0, 0x3FE)], let s := leaving 0 (bound x.1 x.2)
      let t := bound x.1 x.2
      s.mesh.items[0]? = some t ∧ s.mesh.aligned = true ∧ s.blocked 0 t = false ∧ originates t.src = true ∧ s.mesh.realignAt ≤ s.tick ∧ s.mayEnter t = true ∧
        t.flaws = [] ∧ t.exit = none ∧ t.pkt.vc ≤ 9 ∧ t.pkt.reservedBits = 0 ∧ t.pkt.dmod = s.route.me ∧ t.pkt.dtgt = x.2 ∧ 0x0442 ∈ s.route.seen ∧ t.pkt.counted = true) ∧
    (∀ x ∈ [(3, 1, 0), (3 + 2 ^ 13, 1, 0), (3 + 2 ^ 13, 3, 1)], let s := leaving x.1 (bound x.2.1 5)
      let t := bound x.2.1 5
      let f := (modAxis t.pkt.dmod 0 + s.route.dim 0 - modAxis s.route.me 0) % s.route.dim 0
      s.mesh.items[0]? = some t ∧ s.mesh.aligned = true ∧ s.blocked 0 t = false ∧ originates t.src = true ∧ s.mesh.realignAt ≤ s.tick ∧ s.mayEnter t = true ∧
        t.flaws = [] ∧ t.exit = none ∧ t.pkt.vc ≤ 9 ∧ t.pkt.reservedBits = 0 ∧ t.pkt.dtgt < 768 ∧ t.pkt.dmod ≠ s.route.me ∧ s.route.inside t.pkt.dmod = true ∧
        s.route.inside s.route.me = true ∧ (∀ q < 24, s.compat q = false) ∧ modAxis t.pkt.dmod 0 ≠ modAxis s.route.me 0 ∧
        (if s.route.wrap 0 then (2 * f < s.route.dim 0 ∧ x.2.2 = 0) ∨ (s.route.dim 0 < 2 * f ∧ x.2.2 = 1)
          else x.2.2 = if modAxis s.route.me 0 < modAxis t.pkt.dmod 0 then 0 else 1) ∧
        bit (s.route.dir.getD x.2.2 0).toNat 31 = true ∧ 14 ≤ bits (s.route.dir.getD x.2.2 0).toNat 4 0 ∧ bits (s.route.dir.getD x.2.2 0).toNat 4 0 < 24) ∧
    (let t := { bound 1 5 with exit := some (.port 15), outVc := 6 }
     let s := leaving 3 t
     s.mesh.items[0]? = some t ∧ s.blocked 0 t = false ∧ s.mayEnter t = true ∧ t.granted = none ∧ s.members 15 = [15] ∧ t.pkt.adapt = false ∧
      (s.port 15).usable = true ∧ s.compat 15 = false ∧ t.pkt.cls ≠ clsTns ∧ t.pkt.len ≤ s.poolFree 15 t.outVc ∧
      s.turn (15, t.outVc) (s.allAskers (15, t.outVc)) t.src = true) := by decide +kernel

/-- The ports, with x in place of port p. -/
def linked (p : Nat) (x : Port) : State := { only {} with ports := State.reset.ports.set p x }
def portEx (st : PortState) : Port := { State.reset.port 0 with state := st }

theorem test_portsTrain_met : ∀ p ∈ [0, 23],
    (∀ st ∈ [PortState.active, .training, .noPeer, .down], let s := linked p (portEx st)
      s.ports.length = 24 ∧ s.overs = [] ∧ (s.port p).state = st ∧ (st = .active → (s.port p).trained = true) ∧
        (st = .down → bit (s.port p).cfg.toNat 1 = true)) ∧
    (let s := linked p { portEx .active with settling := true, episode := some (5, 3) }
     (s.port p).settling = true ∧ (s.port p).episode = some (5, 3)) ∧
    (let s := { only {} with power := { State.reset.power with edgeOff := [] } }
     ∀ g ∈ edgeDomains, g ∉ s.power.edgeOff ∧ ∀ q < 24, (s.port q).state = .disabled ∧ (s.port q).settling = false) := by
  decide +kernel

/-- A port whose last codewords, 6 and 7, wait for their acknowledgement. -/
def held0 : List Sent := [{ cw := .idle 6, tick := 0 }, { cw := .idle 7, tick := 0 }]
def unacked : Port := { portEx .discover with usable := true, tx := { ack := 5, seq := 8, buf := held0 } }

/-- A record as the port expects it, heard once. -/
def recordEx : BitVec 128 := BitVec.ofNat 128 (9 * 2 ^ 96 + 3 * 2 ^ 112 + 2 ^ 120)
def expecting : Port := { unacked with expect := 0x80030009, rx := { heard := some recordEx } }

theorem test_codewordsArrive_met : ∀ p ∈ [0, 23],
    (let s := linked p unacked
     s.ports.length = 24 ∧ s.overs = [] ∧ s.port p = unacked ∧ unacked.trained = true ∧ unacked.rx.eseq = 0 ∧ unacked.tx.resend = none ∧ s.compat p = false ∧
      unacked.rx.skipping 9 = 0 ∧ s.occupancy p 9 < depthOf p ∧ unacked.usable = true ∧ 0 < (6 - unacked.tx.ack).toNat ∧
      (6 - unacked.tx.ack).toNat ≤ (unacked.tx.seq - (unacked.tx.ack + 1)).toNat ∧ unacked.tx.seq ≠ unacked.tx.ack + 1 ∧
      (if unacked.tx.start = some (unacked.tx.ack + 1) then unacked.tx.starts + 1 else 1) ≠ 8 ∧ unacked.tx.timeouts ≠ 4 ∧ unacked.tx.timeouts ≠ 3 ∧
      unacked.rx.ueTicks.length + 1 ≤ unacked.ueLimit ∧ unacked.tx.buf = { cw := .idle 6, tick := 0 } :: [{ cw := .idle 7, tick := 0 }]) ∧
    (let x := { unacked with rx := { unacked.rx with ueTicks := List.replicate 32 0 } }
     x.ueLimit < (x.rx.ueTicks.filter (fun t => decide ((linked p x).tick < t + 100000)) ++ [(linked p x).tick]).length) ∧
    (let s := linked p { unacked with tx := { unacked.tx with timeouts := 3 } }
     (s.port p).tx.timeouts = 3) ∧
    (let s := linked p expecting
     s.port p = expecting ∧ expecting.trained = true ∧ expecting.rx.known = false ∧ expecting.rx.heard = some recordEx ∧ bit expecting.expect.toNat 31 = true ∧
      bits recordEx.toNat 111 96 = bits expecting.expect.toNat 15 0 ∧ bits recordEx.toNat 116 112 = bits expecting.expect.toNat 20 16 ∧
      bit expecting.expect.toNat 30 = false ∧ bit recordEx.toNat 117 = s.compat p ∧ bit recordEx.toNat 120 = true) := by
  decide +kernel

/-- One packet of two flits in the pool, on a channel of class REQ and on one of class TNS whose flow is listed. -/
def poolOf (vc : Nat) : Queued := { vc := vc, flow := 2, flits := List.replicate 2 (List.replicate 8 ⟨1, false⟩), counted := true }
def sendingPort (tx : LinkTx) : Port := { portEx .active with usable := true, tx := tx, cal0 := [(0, 0x82)] }

/-- The clauses of a codeword boundary: an LCW is due by each of its causes, a codeword is to be sent again, none may be sent, a DATA codeword waits, or
a packet of the pool fills one. -/
theorem test_codewordsLeave_met :
    (∀ t ∈ [({ nakDue := true } : LinkTx), { xoffDue := true }, { dirty := true, sinceLcw := 31 }, { sinceLcw := 1023 }],
      let s := linked 23 (sendingPort t)
      s.ports.length = 24 ∧ (s.port 23).trained = true ∧ (s.port 23).tx = t ∧
        (t.nakDue = true ∨ t.xoffDue = true ∨ (t.dirty = true ∧ 31 ≤ t.sinceLcw) ∨ 1023 ≤ t.sinceLcw)) ∧
    (let t : LinkTx := { ack := 5, seq := 8, buf := held0, resend := some 7, sinceLcw := 1022 }
     t.buf[1]? = some { cw := .idle 7, tick := 0 } ∧ ((Codeword.idle 7).seqOf - 7).toNat < 2048 ∧
      ∀ j < 1, ∀ r, t.buf[j]? = some r → 2048 ≤ (r.cw.seqOf - 7).toNat) ∧
    (let t : LinkTx := { ack := 5, seq := 5 + 1025 }
     t.resend = none ∧ 1024 ≤ (t.seq - (t.ack + 1)).toNat) ∧
    (let s := linked 23 (sendingPort { next := some (.data 0 0 []) })
     (s.port 23).tx.next.isSome = true ∧ s.compat 23 = false ∧ ((s.port 23).tx.seq - ((s.port 23).tx.ack + 1)).toNat < 1024) ∧
    (∀ vc ∈ [0, 5], let s := linked 23 (sendingPort { pool := [poolOf vc], credit := List.replicate 10 2 })
      (s.port 23).tx.next = none ∧ (s.port 23).usable = true ∧ s.compat 23 = false ∧ (s.port 23).tx.pool = [poolOf vc] ∧ (poolOf vc).vc < 10 ∧
        (poolOf vc).flits ≠ [] ∧ (poolOf vc).flits.length ≤ 10 ∧
        (poolOf vc).flits.length ≤ ((s.port 23).tx.credit.getD vc 0 - (s.port 23).tx.sent.getD vc 0).toNat ∧
        (∀ f ∈ (poolOf vc).flits, ∀ w ∈ f, w.poison = false) ∧
        ((poolOf vc).vc / 2 = clsTns → bit (s.calEntry 23 ((s.port 23).tx.cp % 256)) 7 = true ∧
          bits (s.calEntry 23 ((s.port 23).tx.cp % 256)) 4 0 = (poolOf vc).flow)) := by
  refine ⟨by decide +kernel, ⟨rfl, by decide, fun j h r e => ?_⟩, by decide +kernel, by decide +kernel, by decide +kernel⟩
  obtain rfl : j = 0 := by omega
  cases e
  decide

/-! ## Hypotheses met: the barrier -/

/-- A module of a bench of three in slots 0 to 2, with barrier state f and the packets ts. -/
def benched (c : Core) (f : Barrier → Barrier) (ts : List Transit) : State :=
  { only c with
    bar := f { State.reset.bar with cfg := 7, mask := 1 :: List.replicate 23 0 }
    mesh := { State.reset.mesh with aligned := true, bridgeOk := 15, items := ts } }

/-- A core whose five streams have ended. -/
def doneCore : Core := let e : Stream := { state := .ended }; { mxs := e, vxs := e, dxs := e, nxs := e, sxs := e }

theorem test_wavesLaunch_met :
    (let s := benched doneCore (fun b => { b with phase := .run }) []
     s.overs = [] ∧ s.finished = true ∧ s.twinOn = false ∧ s.fin.runs = [] ∧ s.bar.got = [] ∧ 2 ≤ s.bar.slots.length) ∧
    (∀ ph ∈ [Phase.parting, .lost], let s := benched {} (fun b => { b with phase := ph, firstDone := some 7 }) []
     s.bar.firstDone = some 7 ∧ (s.bar.phase = .parting ∨ (s.bar.phase = .lost ∧ s.bar.kind = 1)) ∧ bits s.bar.watch.toNat 4 0 ≠ 0 ∧ s.bar.drainx = false) ∧
    (let s := benched {} (fun b => { b with phase := .parting, going := true }) []
     s.bar.going = true ∧ s.bar.phase ≠ .lost ∧ bits s.bar.watch.toNat 12 8 ≠ 0) := by decide +kernel

/-- A module that parts in wave 1 with total x, to which the module in slot 2 sends total y; g are totals that it has. -/
def waveFrom (t : Nat) (y : Contrib) : Packet := (benched {} id []).wavePacket 0 1 0 0 0 (8192 * t) 1 y
def deciding (x y : Contrib) (g : List Got) : State :=
  benched {} (fun b => { b with phase := .parting, going := true, wave := 1, total := x, got := g })
    [{ pkt := waveFrom 2 y, src := .port 0, exit := some .hub, entered := some 0 }]
def gotEx (y : Contrib) : Got := { wave := 1, kind := 1, stage := 0, origin := 8192, total := y }

/-- Totals of one module and what each row of the decision asks of their sum: other passes, other modules, settled, failed, success, undrained, again. -/
def decideCases : List (Contrib × Contrib) :=
  [({ mods := 1 }, { mods := 1, passMax := 1 }), ({ mods := 1 }, { mods := 2 }), ({ mods := 1 }, { mods := 1, settled := true }),
   ({ mods := 1 }, { mods := 1, fail := true }), ({ mods := 1 }, { mods := 1 }), ({ mods := 1, inj := 1 }, { mods := 1, drainx := true }),
   ({ mods := 1, inj := 1 }, { mods := 1 })]

theorem test_wavesDecide_met :
    (∀ x ∈ decideCases, ∀ got ∈ [[], [gotEx { mods := 1 }]], let s := deciding x.1 x.2 got
      let p := waveFrom 2 x.2
      s.mesh.items[0]? = some { pkt := p, src := .port 0, exit := some .hub, entered := some 0 } ∧
        s.blocked 0 { pkt := p, src := .port 0, exit := some .hub, entered := some 0 } = false ∧
        s.arrives { pkt := p, src := .port 0, exit := some .hub, entered := some 0 } = true ∧ p.cls = clsCtl ∧ p.word 2 = s.bar.jobTag.toNat ∧
        s.inBox p.waveOrigin = true ∧ modSlot p.waveOrigin ∈ s.bar.slots ∧ p.waveStage = 0 ∧ p.waveKind = 1 ∧ p.waveNum = s.bar.wave ∧ s.bar.phase = .parting ∧
        s.bar.going = true ∧ s.bar.kind = 1 ∧ s.bar.stage = 0 ∧ (∀ a < 3, s.bar.extent a = 1 ∧ s.boxPlace s.route.me a = 0) ∧
        (∀ h ∈ s.bar.got, h.wave = s.bar.wave ∧ h.stage = 0 ∧ h.kind = 1 ∧ h.origin ≠ p.waveOrigin) ∧
        (got = [] → s.bar.got.length + 1 < s.bar.slots.length - 1) ∧ (got ≠ [] → s.bar.got.length + 1 = s.bar.slots.length - 1)) ∧
    (decideCases.map fun x => let t := (x.1.add { mods := 1 }).add (waveFrom 2 x.2).waveTotal
      (decide (t.passMin = t.passMax), decide (t.mods = 3), t.settled, decide (t.inj = t.sink), t.fail, t.drainx)) =
      [(false, true, false, true, false, false), (true, false, false, true, false, false), (true, true, true, true, false, false),
       (true, true, false, true, true, false), (true, true, false, true, false, false), (true, true, false, false, false, true),
       (true, true, false, false, false, false)] := ⟨by decide +kernel, by decide +kernel⟩

theorem test_passBegins_met :
    (∀ ph ∈ [Phase.commit, .blank], let s := benched doneCore (fun b => { b with phase := ph }) []
      s.overs = [] ∧ (s.bar.phase = .commit ∨ (s.bar.phase = .blank ∧ s.bar.blanked = false)) ∧ s.attachedCores = [0]) ∧
    (let s := benched doneCore (fun b => { b with phase := .blank, blanked := true }) []
     s.bar.phase = .blank ∧ s.bar.blanked = true) := by decide +kernel

/-- Where each command of BAR_CTRL is refused, and where it is not. -/
theorem test_jobCommands_met :
    (∀ v ∈ [0, 3], bits (BitVec.ofNat 32 v).toNat 6 2 = 0) ∧
    (∀ x ∈ [(true, [gotEx {}]), (false, [])], let s := benched {} (fun b => { b with phase := .held, going := x.1, got := x.2 }) []
      s.bar.phase = .held ∧ s.bar.going = x.1 ∧ 2 ≤ s.bar.slots.length ∧ (x.1 = false → ∀ g ∈ s.bar.got, g.wave ≠ s.bar.wave + 1)) ∧
    (∀ x ∈ [(2, Phase.run, 1), (3, .run, 1), (4, .detached, 1), (5, .run, 1), (6, .lost, 2)], let s := benched {} (fun b => { b with phase := x.2.1, kind := x.2.2 }) []
      bits (BitVec.ofNat 32 (2 ^ x.1)).toNat 6 2 = 2 ^ (x.1 - 2) ∧ (x.1 = 2 → s.bar.phase ≠ .detached) ∧ (x.1 = 3 → s.bar.phase ≠ .held ∧ s.bar.phase ≠ .lost) ∧
        (x.1 = 4 → s.bar.phase = .detached) ∧ (x.1 = 5 → s.bar.phase ≠ .lost) ∧ (x.1 = 6 → s.bar.phase ≠ .lost ∨ s.bar.kind ≠ 1)) ∧
    (let s := benched {} id []
     s.bar.phase = .detached ∧ s.attachBad = false ∧ s.placeable = true ∧ ∀ k ∈ s.bar.named, s.group (groupOf k) ≠ .off) ∧
    (∀ x ∈ [(3, Phase.held), (3, .lost), (4, .run)], let s := benched {} (fun b => { b with phase := x.2 }) []
      (x.1 = 3 → s.bar.phase = .held ∨ s.bar.phase = .lost) ∧ (x.1 = 4 → s.bar.phase ≠ .detached) ∧ s.jrnl.on = false ∧ s.attachedCores = [0] ∧
        (s.core 0).ctl.attached = true ∧ (s.core 0).mx.ops = [] ∧ (s.core 0).vx.runs = [] ∧ (s.core 0).vx.loads = [] ∧ (s.core 0).dx.ops = [] ∧
        (s.core 0).nx.ops = [] ∧ (s.core 0).sx.acc = [] ∧ (s.core 0).sx.wait = none) ∧
    (∀ kind ∈ [1, 2], let s := benched {} (fun b => { b with phase := .lost, kind := kind }) []
      s.bar.phase = .lost ∧ s.bar.kind = kind ∧ 2 ≤ s.bar.slots.length ∧ ∀ g ∈ s.bar.got, g.wave ≠ s.bar.wave + 1) := by refine ⟨?_, ?_, ?_, ?_, ?_, ?_⟩ <;> decide +kernel

/-! ## Hypotheses met: what the hub sends to cores, outputs -/

/-- In a pass: a ticket for core 0 whose charge is n lines, and a tier-2 stream with a shard of one line whose digits are there. -/
def ticketEx (n : Nat) : Ticket := { pass := 0, tkt := 255, lines := n, line := 0, tag := 0, rseq := 0, data := List.replicate (256 * n) 0 }
def shardEx : Shard := { tier := 2, vcore := 0, offset := 3, lines := 1, holders := [0], resOff := 0, digest := [] }
def hubbed (n credit : Nat) : State :=
  { benched {} (fun b => { b with phase := .run }) [] with
    host := { State.reset.host with tickets := [ticketEx 1, ticketEx n], tkt := [(1021, BitVec.ofNat 32 (2 * 1024))], senders := [] }
    fin := { State.reset.fin with
      streams := [(0, 0x80002005)], slots := [{ state := .admitted, shards := [shardEx] }, {}]
      runs := [(0, { idx := 0, credit := credit, data := some (List.replicate 256 0) })] } }

theorem test_hubSends_met : ∀ n ∈ [1, 3],
    (let s := { hubbed n (n - 1) with host := { (hubbed n (n - 1)).host with tickets := [{ ticketEx 1 with sent := true }, ticketEx n] } }
     s.bar.phase = .run ∧ s.host.tickets = [{ ticketEx 1 with sent := true }] ++ ticketEx n :: [] ∧ (ticketEx n).pass = s.bar.passNum ∧ (ticketEx n).sent = false ∧
      (s.tktTarget (ticketEx n).tkt).isSome = true ∧ (n = 1 → (ticketEx n).lines ≤ (s.tktSender (ticketEx n).tkt).credit) ∧
      (n = 3 → (s.tktSender (ticketEx n).tkt).credit < (ticketEx n).lines) ∧
      keyGet s.fin.runs 0 = some { idx := 0, credit := n - 1, data := some (List.replicate 256 0) } ∧ s.streamCore 0 = some 0 ∧
      (s.edSlot (s.streamSlot 0)).shards[s.streamFirst 0]? = some shardEx ∧ 0 < s.streamCount 0 ∧ (n = 1 → n - 1 < shardEx.lines) ∧
      (n = 3 → shardEx.lines ≤ n - 1)) := by decide +kernel

/-- A host on port 0 with session 0; the first four ports are up. -/
def hosted (x : Session) (f : HostIf → HostIf) : State :=
  { only {} with
    sec := { State.reset.sec with stage := .ready }
    host := f { State.reset.host with eth := List.replicate 8 { up := true }, ctrl := 0x13870F00, sessions := [(0, x)] } }
def hostEx : Sender := { port := 0, ip := 7, udp := 9, v6 := false }
def proved : Session := { proved := true, ip := 7, udp := 9 }
def outEx (sent resends : Nat) : Output := { pass := 3, id := 63, lines := 40, cells := [], acked := 2, sent := sent, resends := resends }

theorem test_outputsLeave_met :
    (∀ x ∈ [(39, 0), (40, 14), (40, 15)], let s := hosted proved fun h => { h with outputs := [{ outEx 40 0 with id := 62, tick := 5 }, outEx x.1 x.2] }
      s.overs = [] ∧ (keyGet s.host.sessions (bits s.host.ctrl.toNat 2 0)).isSome = true ∧ (s.sendPort proved).isSome = true ∧
        s.host.outputs = [{ outEx 40 0 with id := 62, tick := 5 }] ++ outEx x.1 x.2 :: [] ∧
        (∀ y ∈ [{ outEx 40 0 with id := 62, tick := 5 }], y.lines ≤ y.sent ∧ (outEx x.1 x.2).tick < y.tick ∧ (y.pass ≠ (outEx x.1 x.2).pass ∨ y.id ≠ (outEx x.1 x.2).id)) ∧
        s.jrnl.busy = false ∧ (x.1 = 39 → (outEx x.1 x.2).sent < (outEx x.1 x.2).lines) ∧ (x.1 = 40 → (outEx x.1 x.2).sent = (outEx x.1 x.2).lines) ∧
        s.hostPort hostEx.port = true ∧ proved.proved = true ∧ proved.ip = hostEx.ip.toNat ∧ proved.udp = hostEx.udp.toNat ∧ ∀ r ∈ s.host.res, r.placed = true) ∧
    (let s := { hosted proved id with twin := { State.reset.twin with cfg := 3 } }
     s.anyAttached = true ∧ bits s.twin.cfg.toNat 1 0 = 3 ∧ (List.replicate 256 (0 : Byte)).length = 256 * 1 ∧ s.jrnl.on = false) := by
  refine ⟨?_, ?_⟩ <;> decide +kernel

/-! ## Hypotheses met: sessions -/

/-- A session with a reply of SEQ 5 kept and NSEQ 6, proved or not. -/
def kept (p : Bool) : Session := { proved with proved := p, nseq := 6, cache := [(5, [])] }

/-- An address that the session may read and write, one of a free place, one that its access does not reach. -/
theorem test_requestsAnswered_met :
    (∀ p ∈ [true, false], let s := hosted (kept p) id
      s.hostPort hostEx.port = true ∧ keyGet s.host.sessions 0 = some (kept p) ∧ (kept p).ip = hostEx.ip.toNat ∧ (kept p).udp = hostEx.udp.toNat ∧
        (kept p).cache = [] ++ (5, []) :: [] ∧ (kept p).nseq ≠ 5 ∧ (∀ c ∈ (kept p).cache, c.1 ≠ 4) ∧
        s.permits (.session 0) false 0xA00014 = p ∧ (p = true → s.permits (.session 0) true 0xA00014 = true) ∧
        (keyGet (s.regRead 0xA00014).2.host.sessions 0).map (·.nseq) = some (kept p).nseq ∧
        (keyGet (s.regWrite (.session 0) 0xA00014 0).2.host.sessions 0).map (·.nseq) = some (kept p).nseq) ∧
    (∀ c ∈ [0, 1], let closed : Option Word64 := if c = 0 then none else some 1
      let s := hosted (kept true) fun h =>
        { h with listClosed := closed, tkt := [(1020, 0x80000000), (1022, 2)], eth := List.replicate 8 { up := true, mtu := 0x2400 } }
      s.anyAttached = true ∧ s.twinOn = false ∧ ((1 : Word64) - s.bar.passNum).toNat < bits s.host.ctrl.toNat 15 8 + 1 ∧ s.host.listClosed = closed ∧
        bit (s.tktWord 255 0) 31 = true ∧ 1 + 2 ≤ bits (s.tktWord 255 2) 16 0 + 1 ∧ s.host.ticketBytes + 32 + 256 * 2 ≤ 67108864 ∧
        s.jrnl.on = false ∧ s.jrnl.busy = false ∧ (List.replicate 512 (0 : Byte)).length = 256 * 2 ∧ 112 + 256 * 35 ≤ s.mtuOf hostEx.port) := by
  refine ⟨?_, ?_⟩ <;> decide +kernel

/-- A module whose owner keys have slot 0 filled with a key of its owner's; the neutral point signs anything by itself. -/
def point1 : List Byte := 1 :: List.replicate 31 0
def owned (x : Session) : State :=
  let s := hosted x id
  { s with sec := { s.sec with
      owned := true
      ownerRec := some { seq := 0, body := List.replicate 8 0 ++ point1 ++ List.replicate 96 0 ++ [0x81] ++ List.replicate 100 0, sign := [] } } }

theorem test_sessionsOpen_met :
    (∀ n < 8, let s := { hosted {} id with host := { (hosted {} id).host with sessions := (List.range n).map fun m => (m, ({} : Session)) } }
      s.overs = [] ∧ s.hostPort hostEx.port = true ∧ keyGet s.host.sessions n = none ∧ ∀ m < n, (keyGet s.host.sessions m).isSome = true) ∧
    (∀ p ∈ [true, false], let s := { hosted {} id with host := { (hosted {} id).host with sessions := (List.range 7).map (fun m => (m, proved)) ++ [(7, ({ proved := p } : Session))] } }
      (∀ m < 8, (keyGet s.host.sessions m).isSome = true) ∧ (p = true → ∀ x ∈ s.host.sessions, x.2.proved = true) ∧
        (p = false → s.host.sessions = (List.range 7).map (fun m => (m, proved)) ++ (7, ({} : Session)) :: [] ∧ ∀ y ∈ (List.range 7).map (fun m => (m, proved)), y.2.proved = true)) ∧
    (∀ ok ∈ [true, false], let x : Session := { nonce := List.replicate 32 0, nseq := 6 }
      let s := owned x
      keyGet s.host.sessions 0 = some x ∧ x.proved = false ∧ s.ownerKey 0 0 = some point1 ∧ x.cache = [] ∧
        edVerify point1 (natToBytes s.moduleId.toNat 8 ++ natToBytes 0 2 ++ x.nonce) (point1 ++ List.replicate 32 (if ok then 0 else 1)) = ok) ∧
    (∀ p ∈ [true, false], keyGet (hosted (kept p) id).host.sessions 0 = some (kept p) ∧ (kept p).proved = p) := by
  refine ⟨?_, ?_, ?_, ?_⟩ <;> decide +kernel

/-! ## Hypotheses met: Finfin -/

/-- The module with packet p at the hub. -/
def atHub (p : Packet) (f : State → State) : State :=
  let s := f (only {})
  { s with mesh := { s.mesh with items := [{ pkt := p, src := .port 0, exit := some .hub, entered := some 0 }] } }

theorem atHub_met {op : Nat} {p : Packet} {f : State → State}
    (h : (atHub p f).blocked 0 { pkt := p, src := .port 0, exit := some .hub, entered := some 0 } = false ∧
      (atHub p f).arrives { pkt := p, src := .port 0, exit := some .hub, entered := some 0 } = true ∧
      p.cls ≠ clsCtl ∧ p.dtgt = hubTgt ∧ p.chan.op = op) : AtHub (atHub p f) 0 op p :=
  ⟨⟨_, rfl, rfl, rfl, h.1, h.2.1, Nat.zero_le _⟩, h.2.2⟩

/-- A message between hubs about shard n (or the manifest) of edition 9, VMOD 4. -/
def finMsg (op n : Nat) (last : Bool) (words : Nat) : Packet := (only {}).finPacket 0 op 4 77 9 n 0 last (List.replicate words ⟨0, false⟩)
/-- Slot 1 with edition 9: shard 0 in stock from line 3 of region 63 of core 0, one line of zeros. -/
def zeroLine : List Byte := List.replicate 256 0
def shard0 (ok : Bool) : Shard := { tier := 0, vcore := 0, offset := 3, lines := 1, holders := [0, 1], resOff := 0, digest := sha512 zeroLine, ok := ok }
def edition9 (st : EdState) (ok : Bool) : EdSlot := { state := st, region := 63, edition := 9, man := [1], vmod := 4, shards := [shard0 ok] }
def withEdition (st : EdState) (ok : Bool) (fs : List Fetch) (s : State) : State :=
  { s with fin := { s.fin with slots := [{}, edition9 st ok], fetches := fs, holders := [0x80000003, 0x80000005] ++ List.replicate 30 0 } }

/-- Whether the slot serves a request: EdSlot.serves as a check. -/
theorem serves_met {n : Nat} (h : n = 0 ∨ n = 0xFFFFFFFF) : (edition9 .admitted true).serves (finMsg 8 n false 0) := by
  rcases h with rfl | rfl
  · exact ⟨by decide +kernel, by decide +kernel, by decide, by decide, by decide, .inr ⟨_, rfl, rfl, rfl⟩⟩
  · exact ⟨by decide +kernel, by decide +kernel, by decide, by decide, by decide, .inl (by decide +kernel)⟩

/-- Requests: for an object in slot 1, for one that neither slot has; for no object when 256 answers wait. -/
theorem test_shardsFetched_requests_met :
    (∀ n ∈ [0, 0xFFFFFFFF], let p := finMsg 8 n false 0
      let s := atHub p (withEdition .admitted true [])
      AtHub s 0 8 p ∧ s.overs = [] ∧ ({ s with mesh := { s.mesh with items := s.mesh.items.eraseIdx 0 } } : State).inService < 256 ∧
        (s.edSlot 1).serves p ∧ ¬ (s.edSlot 0).serves p ∧ p.finShard = n) ∧
    (let p := finMsg 8 0 false 0
     let s := atHub p (withEdition .admitted false [])
     AtHub s 0 8 p ∧ ∀ j < 2, ¬ (s.edSlot j).serves p) ∧
    (let s := { only {} with mesh := { State.reset.mesh with items := List.replicate 256 { pkt := finMsg 0xA 0 false 0, src := .hub } } }
     256 ≤ s.inService) := by
  refine ⟨fun n h => ⟨atHub_met (by rcases List.mem_pair.1 h with rfl | rfl <;> decide +kernel), rfl, by rcases List.mem_pair.1 h with rfl | rfl <;> decide +kernel,
    serves_met (List.mem_pair.1 h), fun x => x.2.2.1 rfl, by rcases List.mem_pair.1 h with rfl | rfl <;> decide +kernel⟩, ⟨atHub_met (by decide +kernel), fun j hj x => ?_⟩, by decide +kernel⟩
  obtain rfl | rfl : j = 0 ∨ j = 1 := by omega
  · exact absurd x.2.2.1 (by decide)
  · rcases x.2.2.2.2.2 with h | ⟨y, h, ok, -⟩
    · exact absurd h (by decide +kernel)
    · have : (finMsg 8 0 false 0).finShard = 0 := by decide +kernel
      rw [this] at h
      cases h
      exact absurd ok (by decide)

/-- A fetch of shard 0 for the load of slot 1: waiting, or with a request in flight at the first, at the last holder, in the last round. -/
def fetch0 (going : Bool) (pos round : Nat) : Fetch := { slot := 1, obj := some 0, use := .load, going := going, tag := 77, pos := pos, round := round, sent := 7 }

theorem test_shardsFetched_fetches_met :
    (let s := withEdition .loading false [fetch0 false 0 0] (only {})
     s.fin.fetches = [] ++ fetch0 false 0 0 :: [] ∧ (fetch0 false 0 0).going = false ∧ (s.fin.fetches.filter (·.going)).length < 64 ∧
      bit (s.fin.holders.getD ((s.holdersOf (fetch0 false 0 0)).getD 0 0) 0).toNat 31 = true ∧
      bit (s.fin.holders.getD ((s.holdersOf (fetch0 false 0 0)).getD 1 0) 0).toNat 0 = true) ∧
    (let s := withEdition .loading false (List.replicate 64 (fetch0 true 0 0)) (only {})
     64 ≤ (s.fin.fetches.filter (·.going)).length) ∧
    (∀ x ∈ [(0, 0), (1, 0), (1, 1)], let s := atHub (finMsg 0xA 0 false 0) (withEdition .loading false [fetch0 true x.1 x.2])
      AtHub s 0 0xA (finMsg 0xA 0 false 0) ∧ s.fin.fetches = [] ++ fetch0 true x.1 x.2 :: [] ∧ (fetch0 true x.1 x.2).tag = (finMsg 0xA 0 false 0).finTag ∧
        (x = (0, 0) → (fetch0 true x.1 x.2).pos + 1 < (s.holdersOf (fetch0 true x.1 x.2)).length) ∧
        (x.1 = 1 → (s.holdersOf (fetch0 true x.1 x.2)).length ≤ (fetch0 true x.1 x.2).pos + 1) ∧ (x.2 = 0 → (fetch0 true x.1 x.2).round < s.fin.rounds) ∧
        (x.2 = 1 → s.fin.rounds ≤ (fetch0 true x.1 x.2).round) ∧ (fetch0 true x.1 x.2).slot < s.fin.slots.length) := by
  refine ⟨by decide +kernel, by decide +kernel, fun x h => ?_⟩
  have := (by decide +kernel : ∀ x ∈ [(0, 0), (1, 0), (1, 1)], let s := atHub (finMsg 0xA 0 false 0) (withEdition .loading false [fetch0 true x.1 x.2])
      (s.blocked 0 { pkt := finMsg 0xA 0 false 0, src := .port 0, exit := some .hub, entered := some 0 } = false ∧
        s.arrives { pkt := finMsg 0xA 0 false 0, src := .port 0, exit := some .hub, entered := some 0 } = true ∧
        (finMsg 0xA 0 false 0).cls ≠ clsCtl ∧ (finMsg 0xA 0 false 0).dtgt = hubTgt ∧ (finMsg 0xA 0 false 0).chan.op = 0xA) ∧
      s.fin.fetches = [] ++ fetch0 true x.1 x.2 :: [] ∧ (fetch0 true x.1 x.2).tag = (finMsg 0xA 0 false 0).finTag ∧
        (x = (0, 0) → (fetch0 true x.1 x.2).pos + 1 < (s.holdersOf (fetch0 true x.1 x.2)).length) ∧
        (x.1 = 1 → (s.holdersOf (fetch0 true x.1 x.2)).length ≤ (fetch0 true x.1 x.2).pos + 1) ∧ (x.2 = 0 → (fetch0 true x.1 x.2).round < s.fin.rounds) ∧
        (x.2 = 1 → s.fin.rounds ≤ (fetch0 true x.1 x.2).round) ∧ (fetch0 true x.1 x.2).slot < s.fin.slots.length) x h
  exact ⟨atHub_met this.1, this.2⟩

/-- The last packet of the shard: with its bytes, or short of them; region 63 of core 0 is an EDITION region of the stock that holds it. -/
def sdataEx (n : Nat) : Packet := finMsg 9 0 true n
def regioned (s : State) : State :=
  let r : Region := { w0 := 0x80180000, w1 := 3 }
  s.modCore 0 fun c => { c with regs := { c.regs with regions := c.regs.regions.set 63 r } }

theorem test_shardsFetched_data_met :
    (∀ n ∈ [32, 24], let s := atHub (sdataEx n) (withEdition .loading false [fetch0 true 0 0])
      AtHub s 0 9 (sdataEx n) ∧ (sdataEx n).finLast = true ∧ (fetch0 true 0 0).tag = (sdataEx n).finTag ∧ (∀ w ∈ (sdataEx n).body, w.poison = false) ∧
        (s.edSlot 1).shards[0]? = some (shard0 false) ∧ ((sdataEx n).body.flatMap fun w => natToBytes w.val.toNat 8) = List.replicate (8 * n) 0) ∧
    (zeroLine.length = 256 * (shard0 false).lines ∧ sha512 zeroLine = (shard0 false).digest) ∧
    (let s := regioned (withEdition .loading false [] (only {}))
     s.finCore (shard0 false).vcore = some 0 ∧ ((s.core 0).table[(s.edSlot 1).region.toNat]?).any (fun r =>
        r.valid && r.stock && r.kind == kindEdition && decide ((shard0 false).offset + (shard0 false).lines ≤ r.cap)) = true) := by
  refine ⟨fun n h => ⟨?_, ?_⟩, ⟨by decide +kernel, by simp only [shard0]⟩, by decide +kernel⟩
  · exact atHub_met (by rcases List.mem_pair.1 h with rfl | rfl <;> decide +kernel)
  · rcases List.mem_pair.1 h with rfl | rfl <;> exact ⟨by decide +kernel, by decide +kernel, by decide +kernel, rfl, by decide +kernel⟩

/-! ## Hypotheses met: editions, journal, twin mode, contracts -/

/-- A module whose edition slots are in two states, in regions 0 and 1, in a phase of the barrier. -/
def slotted (a b : EdState) (ph : Phase) : State :=
  let s := benched {} (fun x => { x with phase := ph }) []
  { s with fin := { s.fin with slots := [{ state := a }, { state := b, region := 1 }] } }

/-- A write of FINFIN_CTRL with LOAD, ABORT or REPAIR of slot 1; the states of that slot in which each clause applies. -/
theorem test_editionCommands_met :
    (let s := slotted .verified .empty .held
     s.fin.slots.length = 2 ∧ bit (3 : Word32).toNat 0 = true ∧ bit (3 : Word32).toNat 2 = false ∧ flag (bit (3 : Word32).toNat 1) = 1 ∧ (s.edSlot 1).state = .empty ∧
      (s.edSlot 1).region ≠ (s.edSlot (1 - 1)).region) ∧
    (let s := slotted .verified .loading .held
     (s.edSlot 1).state ≠ .empty ∧ (s.edSlot 1).state = .loading ∧ bit (6 : Word32).toNat 0 = false ∧ bit (6 : Word32).toNat 2 = true ∧ flag (bit (6 : Word32).toNat 1) = 1 ∧
      (s.edSlot 0).state ≠ .loading) ∧
    (bit (0x42 : Word32).toNat 0 = false ∧ bit (0x42 : Word32).toNat 2 = false ∧ bit (0x42 : Word32).toNat 6 = true ∧ bits (0x40 : Word32).toNat 8 6 = 1) ∧
    (∀ x ∈ [(EdState.verified, Phase.detached), (.failed, .detached), (.verified, .held)], let s := slotted x.1 .verified x.2
      s.bar.phase = x.2 ∧ (s.edSlot 0).state = x.1 ∧ (s.edSlot 1).state = .verified) ∧
    (∀ i < 2, bits (BitVec.ofNat 32 (2 ^ (7 + i))).toNat 8 6 = 2 * 2 ^ i) ∧
    (∀ st ∈ [EdState.verified, .failed, .resident, .empty, .admitted, .loading], ∀ ph ∈ [Phase.detached, .held], let s := slotted .empty st ph
      (s.edSlot 1).state = st ∧ s.bar.phase = ph ∧ s.fin.slots.length = 2 ∧ (st ≠ .loading → ∀ e ∈ s.fin.slots, e.state ≠ .loading) ∧
        (st = .loading → ∃ e ∈ s.fin.slots, e.state = .loading)) ∧
    ((only {}).anyAttached = true ∧ (only {}).bar.phase ≠ .held ∧ State.reset.anyAttached = false) := by
  refine ⟨?_, ?_, ?_, ?_, ?_, ?_, ?_⟩ <;> decide +kernel

/-- A journal that exports on connection 0, with two records of which none, or all, were exported. -/
def journalled (f : Journal → Journal) : State :=
  let s := benched {} (fun x => { x with phase := .held }) []
  { s with
    jrnl := f { s.jrnl with on := true, size := 1, buf := [(0, [1]), (1, [2])], rseq := 2 }
    host := { s.host with plb := [(0, { w0 := 1, state := 1 })] } }

theorem test_journalKept_met :
    (∀ n ∈ [0, 2], let s := journalled fun j => { j with sentN := n }
      let b := fitRing s.jrnl.ring (recordBytes (s.jrnl.buf.take s.jrnl.sentN)) (s.jrnl.buf.drop s.jrnl.sentN)
      s.connUp s.jrnl.conn = true ∧ s.jrnl.size ≠ 0 ∧ (n = 0 → b ≠ []) ∧ (n = 2 → b = [])) ∧
    (only {}).connUp (only {}).jrnl.conn = false ∧
    (∀ b < 2, (journalled fun j => { j with sealing := [b] }).jrnl.sealing = b :: []) ∧
    (bit (0xC : Word32).toNat 2 = true ∧ bits (0xC : Word32).toNat 5 4 = 0 ∧ bits (0xC : Word32).toNat 3 3 = 1) ∧
    (bit (0x11 : Word32).toNat 4 = true ∧ bit (0x11 : Word32).toNat 2 = false ∧ bits (0x11 : Word32).toNat 5 4 = 1 ∧ (only {}).bar.phase ≠ .held) ∧
    (let s := journalled id
     let j : Journal := { s.jrnl with enable := true }
     s.bar.phase = .held ∧ j.on = true ∧ bit (0x21 : Word32).toNat 2 = false ∧ bits (0x21 : Word32).toNat 5 4 = 2 ∧
      2097152 + 4096 ≤ j.free) := by
  refine ⟨?_, ?_, ?_, ?_, ?_, ?_⟩ <;> decide +kernel

/-- A number read from zeros is zero. -/
theorem numAt_zeros {l : List Byte} (h : ∀ x ∈ l, x = 0) (a n : Nat) : numAt l a n = 0 := by
  have : ∀ m : List Byte, (∀ x ∈ m, x = 0) → leNat m = 0 := fun m hm => by
    induction m with
    | nil => rfl
    | cons b r ih => simp [leNat, hm b (by simp), ih fun x hx => hm x (by simp [hx])]
  exact this _ fun x hx => h x (List.mem_of_mem_drop (List.mem_of_mem_take hx))

/-- A parting that waits for the partner in slot 1, whose summary agrees or differs in its first sum; its second packet is there. -/
def sumMsg (w : Nat) : Packet :=
  { hdr := [headerWord clsFwd 65 0 0 hubTgt 8192 false, 0xB, 0, 0, 0, 0, 0, 0], body := [⟨BitVec.ofNat 64 w, false⟩] }
def twinned (s : State) : State :=
  { s with bar := { s.bar with phase := .parting, waitTwin := true }, twin := { s.twin with cfg := 0x1405, got := [(1, [])] } }

/-- The sums of that module are zero. -/
theorem twinned_sums (w : Nat) : ∀ x ∈ (atHub (sumMsg w) twinned).coreSums, x = 0 := by
  have : (atHub (sumMsg w) twinned).virtualCores.filterMap (fun c => (c.2.virtualIndex c.1).map fun i => (i, c.2.ctl.twinLast)) = [(0, 0)] := by
    show (only {}).virtualCores.filterMap _ = _
    decide +kernel
  intro x hx
  unfold State.coreSums at hx
  rw [this] at hx
  obtain ⟨i, -, hx⟩ := List.mem_flatMap.1 hx
  rw [show (keyGet [(0, (0 : Word64))] i).getD 0 = 0 by unfold keyGet; split <;> simp [keyGet]] at hx
  exact (by decide : ∀ x ∈ natToBytes 0 8, x = 0) x hx

theorem test_twinCompares_met :
    (let s := atHub (sumMsg 0) id
     AtHub s 0 0xB (sumMsg 0) ∧ bit s.twin.cfg.toNat 0 = false ∧ s.bar.waitTwin = false) ∧
    (∀ w < 2, let s := atHub (sumMsg w) twinned
      AtHub s 0 0xB (sumMsg w) ∧ bit s.twin.cfg.toNat 0 = true ∧ BitVec.ofNat 64 ((sumMsg w).word 2) = s.bar.passNum ∧ (sumMsg w).src = s.partner ∧
        (∀ x ∈ (sumMsg w).body, x.poison = false) ∧ s.bar.waitTwin = true ∧ bits s.twin.cfg.toNat 12 8 ≠ 0 ∧ s.overs = [] ∧
        keyPut s.twin.got (sumMsg w).finPkt ((sumMsg w).body.flatMap fun x => natToBytes x.val.toNat 8) = [(0, natToBytes w 8), (1, [])] ∧
        ((List.range 768).filter (fun n => numAt s.coreSums (8 * n) 8 != numAt (natToBytes w 8 ++ []) (8 * n) 8) = [] ↔ w = 0)) ∧
    ((only {}).bar.phase = .detached ∧ (benched {} (fun b => { b with phase := .run }) []).bar.phase ≠ .detached ∧ (only {}).strict = false ∧
      ({ only {} with strict := true } : State).strict = true) := by
  refine ⟨⟨atHub_met (by decide +kernel), by decide +kernel, by decide +kernel⟩, fun w h => ?_, by decide +kernel⟩
  have sums := numAt_zeros (twinned_sums w)
  obtain rfl | rfl : w = 0 ∨ w = 1 := by omega
  · refine ⟨atHub_met (by decide +kernel), by decide +kernel, by decide +kernel, by decide +kernel, by decide +kernel, rfl, by decide +kernel, rfl,
      by decide +kernel, iff_of_true (List.filter_eq_nil_iff.2 fun n _ => ?_) rfl⟩
    rw [sums, numAt_zeros (by decide)]
    decide
  · refine ⟨atHub_met (by decide +kernel), by decide +kernel, by decide +kernel, by decide +kernel, by decide +kernel, rfl, by decide +kernel, rfl,
      by decide +kernel, iff_of_false (fun h => absurd (List.filter_eq_nil_iff.1 h 0 (by simp)) ?_) (by decide)⟩
    rw [sums]
    decide +kernel

/-- A contract that the part does not support, one that it does with and without an attached core. -/
theorem test_latencyContract_met :
    bit State.reset.lcSupported (bits (0xFF : Word32).toNat 7 0) = false ∧ bit State.reset.lcSupported (bits (1 : Word32).toNat 7 0) = true ∧
    bits (1 : Word32).toNat 7 0 = State.reset.lc ∧ (∀ c ∈ State.reset.cores, c.2.ctl.attached = false) ∧ State.reset.lc < 256 := by decide +kernel

/-! ## Hypotheses met: Ethernet and plane B -/

/-- Ports that are all e; a connection 255 on port 4 with the operations ops. -/
def ported (e : EthPort) : State := hosted proved fun h => { h with eth := List.replicate 8 e }
def onPlb (x : PlbConn) (f : HostIf → HostIf) : State := hosted proved fun h => f { h with plb := [(255, x)] }
def plbOp (use : PlbUse) (leave : Nat) : PlbOp := { use := use, addr := 0, len := 8, leave := leave }

theorem test_portsAndConnections_met :
    (let s := ported { up := true, cfg := 0x1C, ip4 := 7, ip6 := [7, 0, 0, 0] }
     s.ethUp 0 = true ∧ (s.eth 0).ip4 = 7 ∧ (s.eth 0).ip4 ≠ 8 ∧ (s.eth 0).addr6 = (7 : BitVec 128).toNat ∧ (s.eth 0).addr6 ≠ (8 : BitVec 128).toNat ∧ s.ethUp 7 = true ∧
      bit (s.eth 7).cfg.toNat 2 = true ∧ (8 : BitVec 8).getLsbD (bits (s.eth 7).cfg.toNat 5 3) = true ∧ (4 : BitVec 8).getLsbD (bits (s.eth 7).cfg.toNat 5 3) = false ∧
      bit (ported { up := true, cfg := 0 }).host.ctrl.toNat 0 = false ∧ ∀ x ∈ s.host.plb, x.2.port = 7 → x.2.state ≠ 1) ∧
    (∀ seen ∈ [true, false], let s := { ported { seen := seen, cfg := 3 } with power := { State.reset.power with mainOn := true } }
      s.ethUp 7 = false ∧ s.power.mainOn = true ∧ bit (s.eth 7).cfg.toNat 0 = true ∧ (s.eth 7).seen = seen ∧ ∀ x ∈ s.host.plb, x.2.port = 7 → x.2.state ≠ 0) ∧
    (∀ u ∈ [PlbUse.fetch 3, .records 4, .marker 5, .consumed], ∀ n ∈ [0, 7], ∀ leave ∈ [0, 9], let s := onPlb { w0 := 1, state := 1, ops := [plbOp u leave], retries := n } id
      s.connUp 255 = true ∧ (s.conn 255).ops = plbOp u leave :: [] ∧ (leave = 9 → s.tick < leave) ∧ (leave = 0 → leave ≤ s.tick) ∧ (List.replicate 8 (0 : Byte)).length = 8 ∧
        s.overs = [] ∧ (n = 0 → (s.conn 255).retries < 7) ∧ (n = 7 → 7 ≤ (s.conn 255).retries) ∧ s.jrnl.conn ≠ 255 ∧ ¬(s.conn 255).rate < 2 ^ (s.conn 255).rateExp) ∧
    (let s := onPlb { w0 := 1, state := 1, rateExp := 5 } id
     s.connUp 255 = true ∧ (s.conn 255).rate < 2 ^ (s.conn 255).rateExp) ∧
    (∀ up ∈ [true, false], let s := onPlb { w0 := 1, state := 2 } fun h => { h with eth := List.replicate 8 { up := up } }
      bit (s.conn 255).w0.toNat 0 = true ∧ (s.conn 255).state = 2 ∧ s.ethUp (s.conn 255).port = up ∧ (s.conn 255).ops = [] ∧ s.overs = []) ∧
    (let s := onPlb {} id
     bit (s.conn 255).w0.toNat 0 = false ∧ s.ethUp (s.conn 255).port = true ∧ bit (1 : Word32).toNat 0 = true ∧ bit (2 : Word32).toNat 0 = false) := by
  refine ⟨?_, ?_, ?_, ?_, ?_, ?_⟩ <;> decide +kernel

/-! ## Hypotheses met: management, boot, security -/

def staged (f : Security → Security) : State := { State.reset with sec := f State.reset.sec }

theorem test_managementAnswers_met :
    (∀ st ∈ [Stage.romFw, .ready], let s := staged fun x => { x with stage := st }
      s.board.standby = true ∧ s.board.low = false ∧ s.permits .mgmt false 0xA00014 = decide (st = .ready) ∧ s.permits .mgmt true 0xA00014 = decide (st = .ready) ∧
        s.board.smbus = false ∧ s.sec.debug = false ∧ s.anyAttached = false ∧ (only {}).anyAttached = true ∧ (only {}).board.standby = true) ∧
    ((2 : Word32).toNat % 4 ≠ 0 ∧ (0xA00014 : Word32).toNat % 4 = 0) ∧
    (let s := staged fun x => { x with stage := .ready, debug := true }
     s.sec.debug = true ∧ s.permits .jtag false 0xA00014 = true) := by refine ⟨?_, ?_, ?_⟩ <;> decide +kernel

/-- The 1st slot holds an image header of SVN n: only MAGIC, SVN and a LEN of 0. -/
def header (i n : Nat) : List Host.Cell := cellWrite [] (slotBase i) (natToBytes 0x57464C48 4 ++ natToBytes n 4)

/-- A floor record whose signature the neutral point checks. -/
def floorRecEx (ok : Bool) : FloorRec := { seq := 2, svn := 5, sign := point1 ++ List.replicate 32 (if ok then 0 else 1) }
def ownerRecEx (ok : Bool) : OwnerRec := { seq := 2, body := List.replicate 208 0, sign := point1 ++ List.replicate 32 (if ok then 0 else 1) }

/-- Only a seed decides whether a record verifies at power-up: the two cases stand for a key of the neutral point. -/
theorem test_bootAndReset_met :
    (∀ f ∈ [none, some (floorRecEx true)], let s := { (staged fun x => { x with floorRec := f }) with board := { State.reset.board with standby := false } }
      s.board.standby = false ∧ s.sec.floorRec = f) ∧
    (∀ ok ∈ [true, false], edVerify point1 (natToBytes (9 : Word64).toNat 8 ++ natToBytes (floorRecEx ok).seq.toNat 8 ++ natToBytes (floorRecEx ok).svn.toNat 4) (floorRecEx ok).sign = ok) ∧
    (let s := staged id
     s.board.standby = true ∧ s.board.low = false ∧ s.sec.stage = .romFw ∧ s.candidate = none ∧ s.sec.floorRec = none ∧ s.anyAttached = false ∧ s.power.tripped = 0 ∧
      (only {}).anyAttached = true ∧ ({ State.reset with power := { State.reset.power with tripped := 3 } } : State).power.tripped ≠ 0) ∧
    (∀ i ∈ [0, 1], let s := staged fun x => { x with flash := header i 7 }
      s.candidate = some i ∧ s.isCandidate i = true ∧ s.imageGood i = false ∧
        (State.record { s with sec := { s.sec with tried := s.sec.tried ++ [i] } } 0x0704 5 0 0 0 (pack [(1, i), (32, s.slotSvn i)])).candidate = none) ∧
    (let s := staged fun x => { x with flash := header 0 6 ++ header 1 7 }
     s.candidate = some 1 ∧ s.isCandidate 0 = true ∧ s.slotSvn 0 < s.slotSvn 1 ∧ s.imageGood 1 = false ∧
      (State.record { s with sec := { s.sec with tried := s.sec.tried ++ [1] } } 0x0704 5 0 0 0 (pack [(1, 1), (32, s.slotSvn 1)])).candidate ≠ none) ∧
    (∀ on ∈ [true, false], let s := { (staged fun x => { x with stage := .fwStart }) with
        power := { State.reset.power with mainOn := on }, ports := State.reset.ports.map fun (p : Port) => { p with cfg := 0 } }
      s.power.mainOn = on ∧ s.power.excursion = false ∧ s.power.tripped = 0 ∧ s.board.low = false ∧ s.board.tested = false ∧ (∀ p < 24, bit (s.port p).cfg.toNat 0 = false) ∧
        s.sec.ownerRec = none) ∧
    (∀ ok ∈ [true, false], edVerify point1 (natToBytes (9 : Word64).toNat 8 ++ natToBytes (ownerRecEx ok).seq.toNat 8 ++ (ownerRecEx ok).body) (ownerRecEx ok).sign = ok) ∧
    (∀ st ∈ [Stage.haltId, .ready], let s := { (staged fun x => { x with stage := st }) with board := { State.reset.board with low := true } }
      s.board.low = true ∧ s.sec.floorRec = none ∧ s.sec.stage = st) := by
  refine ⟨?_, ?_, ?_, ?_, ?_, ?_, ?_, ?_⟩ <;> decide +kernel

/-- The record of test_bootAndReset_met in a module whose key is the neutral point. -/
theorem test_ownerRecordRead_met :
    ∀ ok ∈ [true, false], let s := { (staged fun x => { x with stage := .fwStart, pub := point1, ownerRec := some (ownerRecEx ok) }) with
        power := { State.reset.power with mainOn := true } }
      s.sec.stage = .fwStart ∧ s.power.mainOn = true ∧ s.board.tested = false ∧ s.sec.ownerRec = some (ownerRecEx ok) ∧
        edVerify s.sec.pub (natToBytes s.moduleId.toNat 8 ++ natToBytes (ownerRecEx ok).seq.toNat 8 ++ (ownerRecEx ok).body) (ownerRecEx ok).sign = ok := by decide +kernel

/-- An image counts as good where the key's digest is in the mask ROM, whose contents no state holds: a body of one byte. -/
def imageEx : List Byte :=
  natToBytes 0x57464C48 4 ++ natToBytes 7 4 ++ natToBytes 1 4 ++ List.replicate 52 0 ++ sha512 [0] ++ [0] ++ (point1 ++ List.replicate 32 0) ++ point1
theorem test_imageGood_met (h : Config.romKeyDigest 0 = sha512 point1) : let s := staged fun x => { x with flash := cellWrite [] (slotBase 0) imageEx }
    s.candidate = some 0 ∧ s.imageGood 0 = true := by
  refine ⟨by decide +kernel, ?_⟩
  have a : ∀ (s : State), s.slotBytes 0 12 1 = [0] → s.imageGood 0 = (decide (1 ≤ s.imageLen 0) && decide (s.imageLen 0 ≤ 33554176) && true && (s.slotBytes 0 13 51).all (· == 0)
    && (s.sec.torn.all fun o => !(decide (slotBase 0 ≤ o) && decide (o < slotBase 0 + slotSize)))
    && sha512 (s.slotBytes 0 (192 + s.imageLen 0) 32) == Config.romKeyDigest 0 && sha512 (s.slotBytes 0 128 (s.imageLen 0)) == s.slotBytes 0 64 64
    && edVerify (s.slotBytes 0 (192 + s.imageLen 0) 32) (s.slotBytes 0 0 (128 + s.imageLen 0)) (s.slotBytes 0 (128 + s.imageLen 0) 64)) := fun s e => by
    simp [State.imageGood, e, leNat]
  refine (a _ (by decide +kernel)).trans ?_
  rw [h]
  decide +kernel

theorem test_flashCommands_met :
    (∀ x ∈ [(Stage.haltId, 0x2000000, 0), (.ready, 0x2000000, 0), (.ready, 0x5FF0000, 0), (.romFw, 0x2000000, 0), (.ready, 0x5FF0001, 0)],
      let s := staged fun y => { y with stage := x.1, flashOff := BitVec.ofNat 27 x.2.1, slot := x.2.2 }
      s.sec.stage = x.1 ∧ s.proved .mgmt = true ∧ s.mayProgram s.sec.flashOff.toNat = (x.1 != .ready || x.2.1 == 0x5FF0000)) ∧
    (let s := staged fun y => { y with ops := [.program 0x5FF0000 [(65535, 3)]] }
     s.sec.ops = [.program 0x5FF0000 [(65535, 3)]] ∧ (∀ c ∈ [((65535, 3) : Host.Cell)], c.1 < 65536) ∧ State.reset.sec.ops = []) ∧
    (∀ x ∈ [(0, 1), (1, 0), (1, 1)], let s := { hosted proved id with sec := { (hosted proved id).sec with floor := BitVec.ofNat 32 x.1, svn := BitVec.ofNat 32 x.2 } }
      keyGet s.host.sessions 0 = some proved ∧ proved.proved = true ∧ s.sec.stage = .ready ∧ s.sec.ops = [] ∧ s.sec.floorRec = none ∧
        (decide (s.sec.svn.toNat < s.sec.floor.toNat) = (x.2 == 0))) ∧
    (State.reset.sec.stage ≠ .ready ∧ (hosted {} id).proved (.session 0) = false ∧ (hosted {} id).sec.stage = .ready) ∧
    (let s := staged fun y => { y with stage := .ready, ops := [.floor] }
     s.sec.stage = .ready ∧ s.sec.ops ≠ []) := by refine ⟨?_, ?_, ?_, ?_, ?_⟩ <;> decide +kernel

/-- The body of an owner record: EPOCH e, slot 3 VALID with its key the neutral point and the uses u, signed by slot g. -/
def ownerBody (e u g : Nat) : List Byte := natToBytes e 8 ++ List.replicate 96 0 ++ point1 ++ [0, 0, 0, BitVec.ofNat 8 u, BitVec.ofNat 8 g, 0, 0, 0] ++ point1 ++ List.replicate 32 0
theorem test_ownerCommits_met :
    (∀ x ∈ [(1, 0x84, 255, true), (0, 0x84, 255, false), (1, 0x80, 255, false)], let s := staged fun y => { y with stage := .ready, win := cellWrite [] 0 (ownerBody x.1 x.2.1 x.2.2.1) }
      cellRead s.sec.win 0 208 = ownerBody x.1 x.2.1 x.2.2.1 ∧ s.sec.stage = .ready ∧ s.sec.ops = [] ∧ s.ownerAccepted (ownerBody x.1 x.2.1 x.2.2.1) (Who.mgmt == .mgmt) = x.2.2.2 ∧
        s.sec.ownerRec = none) ∧
    (∀ e ∈ [5, 6], let s := staged fun y => { y with stage := .ready, owned := true, ownerRec := some { seq := 2, body := ownerBody 5 0x84 255, sign := [] } }
      s.ownerAccepted (ownerBody e 0x84 3) false = decide (e = 6)) := by refine ⟨?_, ?_⟩ <;> decide +kernel

/-! ## Hypotheses met: clocks, throttling, supply, sleep -/

/-- The references: present or not, which is active, holdover. -/
def refs (a b : Bool) (active : Nat) (hold : Bool) (cfg : Word32) : State :=
  { State.reset with clk := { State.reset.clk with refA := { present := a }, refB := { present := b }, active := active, holdover := hold, cfg := cfg } }

theorem test_referenceMonitor_met :
    (∀ r < 2, (refs true true 0 false 0xC).monitored r = true ∧ (refs true true 0 false 0).monitored r = false ∧ ((refs false false 0 false 0xC).clk.ref r).present = false ∧
      ((refs false false 0 false 0xC).clk.ref r).offset.toInt.natAbs ≤ 2000) ∧
    (∀ r < 2, ∀ other ∈ [true, false], ∀ x ∈ [(0, false), (1, false), (0, true)], let s := refs (r == 0 || other) (r == 1 || other) x.1 x.2 0xC
      (s.clk.ref r).present = true ∧ (s.clk.ref (1 - r)).present = other ∧ s.clk.active = x.1 ∧ s.clk.holdover = x.2 ∧ s.clk.holdLimit = false ∧ s.overs = []) ∧
    (∀ n ∈ [2000, 2001, 5000, 5001], (BitVec.ofNat 16 n).toInt.natAbs = n ∧ (BitVec.ofInt 16 (-n)).toInt.natAbs = n) ∧
    (∀ cfg ∈ [0xE, 0xF], let s := refs true true (1 - bits cfg 0 0) false (BitVec.ofNat 32 cfg)
      bit s.clk.cfg.toNat 1 = true ∧ s.monitored (bits s.clk.cfg.toNat 0 0) = true ∧ (s.clk.ref (bits s.clk.cfg.toNat 0 0)).present = true ∧ s.clk.active ≠ bits s.clk.cfg.toNat 0 0) ∧
    (∀ r < 2, let s := refs true true r false 0xC
      s.clk.enabled r = true ∧ bit (2 ^ (3 - r)) (2 + r) = false ∧ s.clk.enabled (1 - r) = bit (2 ^ (3 - r)) (3 - r)) := by refine ⟨?_, ?_, ?_, ?_, ?_⟩ <;> decide +kernel

/-- Standby power with the demands at n and their last changes at tick t; 1,400 W to 14,000 tenths. -/
def throttled (n t pin : Nat) : State :=
  { State.reset with
    clk := { State.reset.clk with thermal := n, power := n, droop := n, thermalTick := t, powerTick := t, droopTick := t }
    tel := { State.reset.tel with pin := BitVec.ofNat 16 pin }
    power := { State.reset.power with mainOn := true } }

theorem test_throttleAndSupply_met :
    (∀ n ∈ [0, 8], ∀ t ∈ [0, 5], let s := throttled n t 14001
      s.overs = [] ∧ s.board.standby = true ∧ s.power.mainOn = true ∧ s.group (groupOf 767) = .on ∧ 767 ∉ s.power.stopped ∧ s.clk.thermal = n ∧ s.clk.power = n ∧ s.clk.droop = n ∧
        s.clk.thermalTick = t ∧ 10 * s.power.limit.toNat < s.tel.pin.toNat ∧ s.tel.energy.length = 6 ∧ s.power.tripped ≠ 4 ∧ s.power.excursion = false ∧ s.clk.hot = false) ∧
    (16 * (State.reset.tel.therm.toNat : Int) = 1440 ∧ (1440 : BitVec 16).toInt = 1440 ∧ (1439 : BitVec 16).toInt < 1440 ∧ (1392 : BitVec 16).toInt = 1440 - 48 ∧
      (1520 : BitVec 16).toInt = 1520 ∧ (1680 : BitVec 16).toInt = 1680) ∧
    ((throttled 8 0 14000).tel.pin.toNat ≤ 10 * (throttled 8 0 14000).power.limit.toNat ∧
      100 * (throttled 8 0 13300).tel.pin.toNat ≤ 95 * (10 * (throttled 8 0 13300).power.limit.toNat) ∧
      95 * (10 * (throttled 8 0 13301).power.limit.toNat) < 100 * (throttled 8 0 13301).tel.pin.toNat) := by refine ⟨?_, ?_, ?_⟩ <;> decide +kernel

/-- The last group, 95, holds the cores whose coordinates end its part of the grid; group g in state st, the cores ks stopped. -/
def sleeping (st : GroupState) (ks : List Nat) (f : Power → Power) : State :=
  { State.reset with power := f { State.reset.power with groups := [(95, st)], stopped := ks } }
def lastGroup : List Nat := (List.range 768).filter fun k => groupOf k == 95

theorem test_sleepStates_met :
    (let s := sleeping .on [] id
     s.group 95 = .on ∧ 767 ∉ s.power.stopped ∧ groupOf 767 = 95 ∧ (only doneCore).core 0 = { doneCore with ctl := { doneCore.ctl with attached := true } } ∧
      (only doneCore).mayStop 0 = true ∧ (only {}).mayStop 0 = false ∧ (only doneCore).group (groupOf 0) = .on ∧ 0 ∉ (only doneCore).power.stopped) ∧
    (∀ sleep ∈ [0, 0x400], let s := sleeping .on lastGroup fun p => { p with sleep := BitVec.ofNat 32 sleep }
      s.group 95 = .on ∧ bit s.power.sleep.toNat 10 = (sleep == 0x400) ∧ (∀ k < 768, groupOf k = 95 → k ∈ s.power.stopped) ∧ 767 ∈ s.power.stopped) ∧
    (∀ st ∈ [GroupState.retain, .off, .failed], (sleeping st lastGroup id).group 95 = st) ∧
    (∀ v ∈ [0, 0x80000000], let s := sleeping .off [] fun p => { p with offReq := [0, 0, BitVec.ofNat 32 v] }
      s.group 95 = .off ∧ bit (s.power.offReq.getD 2 0).toNat 31 = (v != 0) ∧ s.power.offReq.length = 3) ∧
    (let s := only {}
     groupOf 0 = 0 ∧ (s.core 0).ctl.attached = true ∧ bit (1 : Word32).toNat 0 = true ∧ bit (s.power.offReq.getD 0 0).toNat 0 = false ∧ s.power.offReq.length = 3) ∧
    (let s := sleeping .on [] id
     ∀ b < 32, bit (0x80000000 : Word32).toNat b = true → bit (s.power.offReq.getD 2 0).toNat b = false → ∀ k < 768, groupOf k = 64 + b → (s.core k).ctl.attached = false) := by
  refine ⟨?_, ?_, ?_, ?_, ?_, ?_⟩ <;> decide +kernel

/-! ## Hypotheses met: registers -/

/-- Core 767, attached or not, in barrier state ph. -/
def awake (att : Bool) (ph : Phase) (c : Core) : State :=
  { State.reset with
    cores := [(767, { c with ctl := { c.ctl with attached := att } })]
    bar := { State.reset.bar with phase := ph }
    power := { State.reset.power with mainOn := true } }
/-- A scratchpad and a stock aperture of which one region may be written, the other not. -/
def aperture (v : Nat) (regions : List Region) : Core := { regs := { aperture := BitVec.ofNat _ v, regions := regions } }

theorem test_coreBlockWrites_met :
    (∀ att ∈ [true, false], ∀ ph ∈ [Phase.run, .held], let s := awake att ph {}
      s.power.mainOn = true ∧ s.group (groupOf 767) = .on ∧ 767 ∉ s.power.stopped ∧ (s.core 767).ctl.attached = att ∧ s.bar.phase = ph ∧ (s.core 767).ctl.bankActive = 0 ∧
        bit (s.core 767).regs.aperture.toNat 0 = false ∧ s.apertureRefused 767 false 511 = (att && ph == .run) ∧ (s.core 767).mem.scr.flaw (64 * 511 + 63) = none) ∧
    (∀ e ∈ allEngines, ∀ b < 2, let s := awake true .run { ctl := { imemSel := BitVec.ofNat _ (8 * b + (engCode e - 1)) } }
      (s.core 767).ctl.imemSel.toNat = 8 * b + (engCode e - 1) ∧ (s.core 767).ctl.bankActive ≠ 1 ∧ 0 < bankBytes e / 4) ∧
    (∀ r ∈ [true, false], let s := awake false .detached (aperture 1 (if r then [{ w0 := 0x80480000 }] else []))
      bit (s.core 767).regs.aperture.toNat 0 = true ∧ s.apertureRefused 767 true 0 = !r ∧ (s.core 767).mem.stock.flaw 0 = none) ∧
    (∀ st ∈ [GroupState.off, .failed], (sleeping st [] id).group (groupOf 767) = st ∧ State.reset.power.mainOn = false) := by
  refine ⟨?_, ?_, ?_, ?_⟩ <;> decide +kernel

theorem test_blockWrites_met :
    (let s := { State.reset with faults := { State.reset.faults with head := 3, tail := 1 } }
     (s.faults.head - 2).toNat ≤ (s.faults.head - s.faults.tail).toNat ∧ (s.faults.head - s.faults.tail).toNat < (s.faults.head - 0).toNat) ∧
    ((only {}).anyAttached = true ∧ (only {}).bar.phase ≠ .held ∧ State.reset.anyAttached = false ∧ State.reset.route.calActive = false ∧ State.reset.ports.length = 24) ∧
    (∀ known ∈ [true, false], let s := linked 23 { portEx .active with rx := { known := known } }
      (s.port 23).trained = true ∧ (State.reset.port 23).trained = false ∧ (s.port 23).rx.known = known ∧ bit (0 : Word32).toNat 31 = false ∧ s.anyAttached = true) ∧
    ((∀ n ∈ [0x10, 0x100], ((State.reset.port 23).cfg ^^^ ((State.reset.port 23).cfg ^^^ BitVec.ofNat 32 n)) &&& 0x1F4 ≠ 0) ∧
      bit (State.reset.port 23).cfg.toNat 0 = true ∧ (linked 23 (portEx .active)).port 23 = portEx .active ∧
      ((State.reset.port 23).cfg ^^^ (State.reset.port 23).cfg &&& 0xFFFFFFFE) &&& 0x1F4 = 0) ∧
    (∀ ph ∈ [Phase.detached, .lost, .run], (awake true ph {}).bar.phase = ph) ∧
    (let s := hosted proved id
     keyGet s.host.sessions 0 = some proved ∧ proved.proved = true ∧ s.sec.stage = .ready ∧ bit (0xFFFF000F : Word32).toNat 4 = false ∧
      (awake true .run {}).group (groupOf 767) = .on) := by
  refine ⟨?_, ?_, ?_, ?_, ?_, ?_⟩ <;> decide +kernel

/-! ## Ill-formed commands -/

/-- For each check, a command that it refuses; and the command that it lets pass. -/
theorem test_illFormed :
    (([(.tload 768, .noSuchCore), (.clrErr 24, .noSuchPort), (.retainEntry 96, .noSuchGroup), (.attach 4 [0, 96], .noSuchGroup), (.linkEdgeGroupOff 23, .noSuchEdgeGroup),
      (.yieldSend 0 4096, .noSuchHandle), (.sessionTimeout 8, .noSuchSession), (.pauseFrame 8, .noSuchEthPort), (.cnp 256, .noSuchConnection), (.laneLoss 0 4, .noSuchLane),
      (.thermalTrip 104 0, .noSuchSensor), (.refPresent 2, .noSuchReference), (.tier2StreamSend 256, .noSuchStream), (.send 0 .sx, .noSuchForm),
      (.arrivalWatchdog 0 .mx, .noSuchWaiter), (.latchingRead 2, .badAddress), (.latchingRead 0x100000000, .badAddress), (.dataCodeword 0 false 0 0 [], .badFlits),
      (.dataCodeword 0 false 0 0 [[0]], .badFlits), (.lcw 0 false 0 0 false [] 0 none, .badCredit), (.hello hostEx 0 [], .badLength), (.telemetryUpdate [] 0 0 0 0 [], .badLength),
      (.ticket hostEx 0 0 0 65536 1 0 0 [], .badField), (.oack hostEx 0 0 0 0x100000000, .badField), (.malformedDatagram hostEx 0 0 256, .badField),
      (.selfTestComplete [768] [] 0 0, .badResults), (.program (.session 8), .noSuchSession)] : List (Instr × IllFormed)).all fun x => x.1.illFormed == some x.2) = true ∧
    (([.tload 767, .clrErr 23, .retainEntry 95, .linkEdgeGroupOff 27, .yieldSend 767 4095, .latchingRead 0xFFFFFFFC, .send 767 .nx, .retainEntry 0, .thermalTrip 103 0] : List Instr).all
      fun i => i.wellFormed) = true := by decide +kernel

/-- The table gives no row any bits. -/
theorem test_noWordSpells : decodeTableWord 32 0xACA63000 = none := rfl

/-! ## Figures of the spec's examples -/

/-- The column of chapter 2: the contribution, both sides of the tally, the sum, requantization and packing. -/
theorem test_figures_arithmetic :
    (let w : List Int := [3, -8, 7, -1] ++ List.replicate 124 0
     let a : List Int := [2, 6, -3, 7] ++ List.replicate 124 0
     contribution w a [5, 0, 0, 0] [9, 0, 0, 0] = -3150 ∧ tallyLhs [-3150] = 0xF3B2 ∧
      tallyRhs ([0x000F, 0xFFD8, 0x0023, 0xFFFB] ++ List.replicate 124 0) a [9, 0, 0, 0] = 0xF3B2) ∧
    accAdd 1000 (-3150) = (-2150, false) ∧ requant (-2150) 13107 17 16 = (-215, false) ∧ requant (-2150) 13107 17 8 = (-128, true) ∧
    packGrain [900, -215] true = ([112, -27], 8, 0) ∧ packedBits fmtInt4 [0x83, 0xF7] 1 = 8 ∧
    accAdd 549755813788 300 = (549755813887, true) ∧ accAdd 549755813887 (-1000000000) = (549755813887, false) ∧ accAdd (-3150) 150 = (-3000, false) := by
  decide +kernel

/-- The exp step of chapter 5: entries 243 and 244 of the table are 14,540 and 15,478, and the lane is −200. -/
theorem test_figures_lut :
    (lut (4 * 2 ^ 14 + 2 ^ 26 + wrapU 32 (-4096) * 2 ^ 32) { words := List.replicate 121 ⟨0, false⟩ ++ [⟨14540 * 65536, false⟩, ⟨15478, false⟩] } (-200)).1 = 15009 := by decide +kernel

/-- The SX program of chapter 8: AWAIT names g5, g6, counter 12 and +1; ADDI gives 8; BNE goes to index 40. -/
theorem test_figures_sx :
    (match exec (.addi 0) (let c := runs .sx 0x08C60001; only { c with sx := { c.sx with g := c.sx.g.set 6 { val := 7 } } }) with
      | .next t => ((t.core 0).g 6).val == 8 && (t.core 0).sxs.pc == 1
      | _ => false) = true ∧
    (xOpc 0xACA63000 = 0x2B ∧ sxBad 0xACA63000 = none ∧ xOpc 0x64C7FFFE = 0x19 ∧ bRa 0x64C7FFFE = 6 ∧ bRb 0x64C7FFFE = 7 ∧ sxTarget 42 0x64C7FFFE = 40) := by decide +kernel

/-- A counter at 65,530 (R142): 15 signalled make 0x0201 and 65,535 at the end of the cycle; with a wait of 12 met in it, 65,533 and no record. -/
theorem test_figures_counters :
    (let s := (only { sync := { count := [65530] } }).signal 0 0 15
     (((s.advance 1).core 0).sync.count = [65535] ∧ (s.advance 1).faults.total = 1) ∧
      let t := (s.modCore 0 fun c => { c with sync := c.sync.take 0 [(0, 12)] }).advance 1
      (t.core 0).sync.count = [65533] ∧ t.faults.total = 0) := by decide +kernel

/-- Core (20, 13) of R11, R225 and R463; the bridges and stops from core 0 to core 767 of R230; virtual (5, 3) of R236. -/
theorem test_figures_places :
    coreAt 0x16D00000 = some (436, 0) ∧ coreAt 0x1BFFFFFF = some (767, 0x3FFFF) ∧ groupOf 436 = 73 ∧ groupDomain 73 = 91 ∧ bridgeOf 15 16 = some 0 ∧ bridgeOf 383 415 = some 2 ∧
      (meshPath 0 767).length = 54 ∧ ((0 :: meshPath 0 767).zip (meshPath 0 767)).filterMap (fun x => bridgeOf x.1 x.2) = [0, 2] ∧
      ({ ctl := { gridVmap := 0x800B7D80 } } : Core).virtualIndex 485 = some (3 * 32 + 5) := by decide +kernel

/-- The first hops of chapter 12: from bench (3, 5, 2), slot 4, to bench (30, 5, 14), slot 6: by the leader F1 on VC 4, past the dateline on VC 5. -/
theorem test_figures_route :
    (∀ x ∈ [(3, Place.core 0, 4, 4), (0, .port 14, 4, 5), (31, .port 14, 5, 5)],
      (({ State.reset with route := { State.reset.route with
          cfg := BitVec.ofNat 32 (31 + 32 * 15 + 512 * 15 + 8192 * 7), dir := [0x8000000E, 0x8000000F, 0, 0, 0, 0]
          self := BitVec.ofNat 16 (x.1 + 32 * 5 + 512 * 2 + 8192 * 4) } } : State).choose x.2.1
        (({ hdr := [headerWord clsTns 1 13 (30 + 32 * 5 + 512 * 14 + 8192 * 6) 0x120 0 false, 0, 0, 0, 0, 0, 0, 0] } : Packet).onVc x.2.2.1)) = .go (.port 15) x.2.2.2) := by decide +kernel

/-- The tally mismatch of chapter 18: DETAIL, and the bytes of the entry. -/
theorem test_figures_fault :
    pack [(1, 1), (8, 5), (16, 0xF3B2), (16, 0xF3B3)] = 0x000001E767E7640B ∧
    ({ code := 0x0140, flags := 0x11, source := 1, loc := 436, aux := 37, pass := 0, tick := 0, detail := 0x000001E767E7640B } : FaultEntry).image =
      [0x40, 0x01, 0x11, 0x01, 0xB4, 0x01, 0x25, 0x00] ++ List.replicate 16 0 ++ [0x0B, 0x64, 0xE7, 0x67, 0xE7, 0x01, 0, 0] := by decide +kernel

/-- The boot of chapter 21: of SVN 7 in slot 1 and SVN 6 in slot 0 slot 1 is tried first, and slot 0 stands after it; under a floor of 7 none does. -/
theorem test_figures_boot :
    (let s := staged fun x => { x with flash := header 0 6 ++ header 1 7, floor := 6 }
     s.candidate = some 1 ∧ ({ s with sec := { s.sec with tried := [1] } } : State).candidate = some 0) ∧
    (let s := staged fun x => { x with flash := header 0 6 ++ header 1 7, floor := 7, tried := [1] }
     s.candidate = none) := by decide +kernel

/-- FIPS 180-4's example of SHA-512: "abc". -/
theorem test_figures_sha512 : (sha512 [0x61, 0x62, 0x63]).take 4 = [221, 175, 53, 161] := by decide +kernel

end Sys2Proof.Tests
end

/-! SUPPORT. What a core reads right after reset, and the frames of the management interface of one word: the statements of the scope. -/

namespace Sys2Proof.Machine

/-! ## A core right after reset (R24, R94, log 4) -/

/-- Every core is at its start: reset lists none. -/
@[simp] theorem State.core_reset (k : Nat) : State.reset.core k = {} := rfl

theorem cellRead_nil (a n : Nat) : cellRead [] a n = List.replicate n 0 := by
  induction n generalizing a with
  | zero => rfl
  | succ n ih => rw [cellRead, ih, List.replicate_succ]; rfl

theorem bytesToNat_zeros (n : Nat) : bytesToNat (List.replicate n 0) = 0 := by
  induction n with
  | zero => rfl
  | succ n ih => rw [List.replicate_succ, bytesToNat, ih]; rfl

/-- A memory that nothing has written holds zeros. -/
@[simp] theorem Store.word_unwritten (a n : Nat) : ({} : Store).word a n = 0 := by
  rw [Store.word, cellRead_nil, bytesToNat_zeros]

theorem Core.scrWord_unwritten (w : Nat) : ({} : Core).scrWord w = ⟨0, false⟩ := by
  rw [Core.scrWord, Store.word_unwritten]; rfl

theorem Core.stockWord_unwritten (w : Nat) : ({} : Core).stockWord w = ⟨0, false⟩ := by
  rw [Core.stockWord, Store.word_unwritten]; rfl

theorem Core.instr_unwritten (e : Engine) (i : Nat) : ({} : Core).instr e i = 0 :=
  Store.word_unwritten _ _

theorem Core.stream_pc_unwritten (e : Engine) : (({} : Core).stream e).pc = 0 := by
  cases e <;> rfl

/-! ## Frames of R497 -/

theorem State.awake_iff {s : State} : s.awake = true ↔ s.board.standby = true ∧ s.board.low = false := by
  simp [State.awake]

theorem State.readFrame_malformed {s : State} {w : Who} {a n : Nat} (h : a % 4 ≠ 0 ∨ n = 0 ∨ 64 < n) :
    s.readFrame w a n = (natToBytes stMalformed 1 ++ natToBytes (n - 1) 1, s) := by
  rw [State.readFrame, if_pos h]

theorem State.readFrame_denied {s : State} {w : Who} {a : Nat} (h4 : a % 4 = 0) (hp : s.permits w false a = false) :
    s.readFrame w a 1 = (natToBytes stDenied 1 ++ natToBytes 0 1, s) := by
  rw [State.readFrame, if_neg (by omega), State.permitsBurst_one, hp]; rfl

theorem State.writeFrame_denied {s : State} {w : Who} {a : Nat} {v : Word32} (h4 : a % 4 = 0) (hp : s.permits w true a = false) :
    s.writeFrame w a [v] = (natToBytes stDenied 1 ++ natToBytes 0 1 ++ natToBytes 0xFF 1 ++ List.replicate 3 0xFF, s) := by
  rw [State.writeFrame, if_neg (by simp [h4]), List.length_singleton, State.permitsBurst_one, hp]; rfl

/-- A burst of one word counts what became of that word. -/
theorem State.writeBurst_one {s t : State} {w : Who} {a : Nat} {v : Word32} {r : WriteRes} (h32 : a < 2 ^ 32) (hw : s.regWrite w a v = (r, t)) :
    s.writeBurst w a 0 {} [v] = (Wrote.note {} 0 r, t) := by
  rw [State.writeBurst, if_pos h32, hw, State.writeBurst]

/-- The 16 bits of a WR reply that say that no word was refused (R437), cut to the 8 of a frame (R497, log 32). -/
theorem natToBytes_noIndex : natToBytes 0xFFFF 1 = natToBytes 0xFF 1 := by decide

/-- The status and the index of the first refused word, as a frame of one word carries them: 0xFF where none was refused. -/
theorem State.writeFrame_one {s t : State} {w : Who} {a : Nat} {v : Word32} {r : WriteRes} (h4 : a % 4 = 0) (h32 : a < 2 ^ 32) (hp : s.permits w true a = true)
    (hw : s.regWrite w a v = (r, t)) : s.writeFrame w a [v] = ((match r with
      | .done => natToBytes stOk 1 ++ natToBytes 0 1 ++ natToBytes 0xFF 1
      | .unmapped => natToBytes stUnmapped 1 ++ natToBytes 0 1 ++ natToBytes 0xFF 1
      | .refused _ => natToBytes stRefused 1 ++ natToBytes 0 1 ++ natToBytes 0 1) ++ List.replicate 3 0xFF, t) := by
  rw [State.writeFrame, if_neg (by simp [h4]), List.length_singleton, State.permitsBurst_one, hp, State.writeBurst_one h32 hw]
  cases r with
  | done => simp [Wrote.note, natToBytes_noIndex]
  | unmapped => simp [Wrote.note, natToBytes_noIndex]
  | refused c => rfl

/-! ## The commands that carry a frame (R497, R499) -/

section Awake
variable {s : State} (h : s.awake = true)
include h

theorem exec_mgmtRead_awake {addr : Word32} {n : Nat} {f : List Byte} {t : State} (hf : s.readFrame .mgmt addr.toNat n = (f, t)) :
    exec (.mgmtRead addr n) s = .next { t with board := { t.board with mgmtOut := t.board.mgmtOut ++ [f] } } := by
  simp only [exec, execMgmtRead]
  rw [if_pos h, hf]; rfl

theorem exec_mgmtWrite_awake {addr : Word32} {l : List Word32} {f : List Byte} {t : State} (hf : s.writeFrame .mgmt addr.toNat l = (f, t)) :
    exec (.mgmtWrite addr l) s = .next { t with board := { t.board with mgmtOut := t.board.mgmtOut ++ [f] } } := by
  simp only [exec, execMgmtWrite]
  rw [if_pos h, hf]; rfl

theorem exec_mgmtDynamicAddress_awake (a : BitVec 7) : exec (.mgmtDynamicAddress a) s =
    .next (if s.board.smbus = false then { s with board := { s.board with mgmtAddr := some a.toNat } } else s) := by
  simp only [exec, execMgmtDynamicAddress, h, Bool.true_and, Bool.not_eq_true']; rfl

theorem exec_dbgacc_shut (write : Bool) (addr : Word32) (n : Nat) (l : List Word32) (hd : s.sec.debug = false) :
    exec (.dbgacc write addr n l) s = .next s.bypass := by
  simp only [exec, execDbgacc, h, hd]; rfl

theorem exec_dbgacc_read {addr : Word32} {n : Nat} {l : List Word32} {f : List Byte} {t : State} (hd : s.sec.debug = true)
    (hf : s.readFrame .jtag addr.toNat n = (f, t)) : exec (.dbgacc false addr n l) s = .next (t.jtag 4 f) := by
  simp only [exec, execDbgacc, h, hd, hf]; rfl

end Awake

/-! ## JTAG (R499) -/

section Standby
variable {s : State} (h : s.board.standby = true)
include h

theorem exec_bypass_standby : exec .bypass s = .next s.bypass := by
  simp only [exec, execBypass, h, if_true]

theorem exec_idcode_standby : exec .idcode s = .next (s.jtag 1 (natToBytes s.idcode 4)) := by
  simp only [exec, execIdcode, h, if_true]

theorem exec_samplePreload_standby (pins load : BitVec 60) :
    exec (.samplePreload pins load) s = .next ((s.jtag 2 (natToBytes pins.toNat 8)).modBoard fun b => { b with scan := load }) := by
  simp only [exec, execSamplePreload, h, if_true]

theorem exec_extest_standby (pins load : BitVec 60) : exec (.extest pins load) s = .next (if s.anyAttached = true then s.bypass
    else (s.jtag 3 (natToBytes pins.toNat 8)).modBoard fun b => { b with scan := load, driven := some load }) := by
  simp only [exec, execExtest, h]; rfl

end Standby

/-! ## The statements -/

/-- Settles O52: each command makes its frame or puts its instruction in force, and the frame of one word is what the one access gives. -/
theorem managementAnswers : Obligations.ManagementAnswers := by
  unfold Obligations.ManagementAnswers
  intro s
  refine ⟨fun hs hl => ?_, fun hs => ?_⟩
  · have ha : s.awake = true := State.awake_iff.mpr ⟨hs, hl⟩
    refine ⟨fun addr count hbad => ?malformed, fun addr h4 => ⟨fun hp => ?readDenied, fun v t hp hr => ?read, fun w hp => ?writeDenied, fun w r t hp hw => ?write⟩,
      fun hb a => ?dynamic, fun hb a => ?smbus, fun write addr count words hd => ?shut, fun addr v t words hd h4 hp hr => ?debug⟩
    case malformed => exact exec_mgmtRead_awake ha (State.readFrame_malformed hbad)
    case readDenied => exact exec_mgmtRead_awake ha (State.readFrame_denied h4 hp)
    case read => exact exec_mgmtRead_awake ha (State.readFrame_one h4 addr.isLt hp hr)
    case writeDenied => exact exec_mgmtWrite_awake ha (State.writeFrame_denied h4 hp)
    case write => exact exec_mgmtWrite_awake ha (State.writeFrame_one h4 addr.isLt hp hw)
    case dynamic => rw [exec_mgmtDynamicAddress_awake ha, if_pos hb]
    case smbus => rw [exec_mgmtDynamicAddress_awake ha, hb]; rfl
    case shut => exact exec_dbgacc_shut ha write addr count words hd
    case debug => exact exec_dbgacc_read ha hd (State.readFrame_one h4 addr.isLt hp hr)
  · refine ⟨exec_bypass_standby hs, exec_idcode_standby hs, exec_samplePreload_standby hs, fun pins load hn => ?_, fun pins load hat => ?_⟩
    · rw [exec_extest_standby hs, hn]; rfl
    · rw [exec_extest_standby hs, if_pos hat]; rfl

/-- Settles O2: the registers by evaluation of the block that answers each address, the cores by what a core that nothing has written reads. -/
theorem resetValues : Obligations.ResetValues := by
  unfold Obligations.ResetValues
  refine ⟨by decide, rfl, by decide +kernel, fun k => ?_⟩
  rw [State.core_reset]
  exact ⟨rfl, rfl, Core.stream_pc_unwritten, Core.scrWord_unwritten, Core.stockWord_unwritten, Core.instr_unwritten⟩

end Sys2Proof.Machine

/-! SUPPORT. The rows of a core block: which part of the block a write of each row reaches, what that part does with it, and a block that does not answer. -/

namespace Sys2Proof.Machine

/-! ## Fields of DETAIL (R416) -/

theorem pack_one {w v : Nat} (h : v < 2 ^ w) : pack [(w, v)] = v := by
  simp only [pack, Nat.mul_zero, Nat.add_zero, Nat.mod_eq_of_lt h]

theorem pack_pair {w v w' v' : Nat} (h : v < 2 ^ w) (h' : v' < 2 ^ w') : pack [(w, v), (w', v')] = v + 2 ^ w * v' := by
  simp only [pack, Nat.mul_zero, Nat.add_zero, Nat.mod_eq_of_lt h, Nat.mod_eq_of_lt h']

/-! ## Offsets that hold a register (R23) -/

theorem State.coreMapped_of_reg {s : State} {k o : Nat} (ho : o < 0x10000) (h : (s.coreReg k o).isSome = true) : s.coreMapped k o = true := by
  rw [State.coreMapped, if_pos ho, h, Bool.or_true]

theorem State.coreMapped_mem {s : State} {k o : Nat} (h : o = 0x1000 ∨ (0x1100 ≤ o ∧ o < 0x1300) ∨ (0x1400 ≤ o ∧ o < 0x1800)) :
    s.coreMapped k o = true := by
  refine State.coreMapped_of_reg (by omega) ?_
  rw [State.coreReg, if_neg (by omega), if_pos (by omega)]
  simp only [Core.readMem, descDefined, apply_ite Option.isSome, Option.isSome_some, Option.isSome_none, Bool.if_true_left, Bool.if_false_right, Bool.and_true,
    Bool.or_eq_true, Bool.and_eq_true, decide_eq_true_eq]
  omega

theorem State.coreMapped_stream {s : State} {k o : Nat}
    (h : o = 0x3030 ∨ o = 0x3034 ∨ o = 0x3040 ∨ (0x3200 ≤ o ∧ o < 0x32C0) ∨ (0x3300 ≤ o ∧ o < 0x33C0)) : s.coreMapped k o = true := by
  refine State.coreMapped_of_reg (by omega) ?_
  rw [State.coreReg, if_neg (by omega), if_neg (by omega), if_neg (by omega), if_pos (by omega)]
  simp only [State.readStream, apply_ite Option.isSome, Option.isSome_some, Option.isSome_none, Bool.if_true_left, Bool.if_false_right, Bool.and_true,
    Bool.or_eq_true, decide_eq_true_eq]
  omega

theorem State.coreMapped_patch {s : State} {k o : Nat} (h : 0x6000 ≤ o ∧ o < 0x7080) : s.coreMapped k o = true := by
  refine State.coreMapped_of_reg (by omega) ?_
  rw [State.coreReg, if_neg (by omega), if_neg (by omega), if_neg (by omega), if_neg (by omega)]
  simp only [Core.readChan, apply_ite Option.isSome, Option.isSome_some, Option.isSome_none, Bool.if_true_left, Bool.if_false_right, Bool.and_true,
    Bool.or_eq_true, decide_eq_true_eq]
  omega

/-! ## The part of the block that a write reaches -/

theorem State.coreWrite_bin {s : State} {k o : Nat} (v : Word32) (h : 0x1100 ≤ o ∧ o < 0x1300) : s.coreWrite k o v = s.writeBin k o v := by
  rw [State.coreWrite, if_neg (by omega), if_pos (by omega), State.writeMem, if_neg (by omega), if_neg (by omega), if_neg (by omega), if_neg (by omega), if_pos h]

theorem State.coreWrite_region {s : State} {k o : Nat} (v : Word32) (h : 0x1400 ≤ o ∧ o < 0x1800) : s.coreWrite k o v = s.writeRegion k o v := by
  rw [State.coreWrite, if_neg (by omega), if_pos (by omega), State.writeMem, if_neg (by omega), if_neg (by omega), if_neg (by omega), if_neg (by omega),
    if_neg (by omega), if_pos h]

theorem State.coreWrite_decl {s : State} {k o : Nat} (v : Word32) (h : o = 0x3030 ∨ o = 0x3034) : s.coreWrite k o v = s.writeInit k o v := by
  rw [State.coreWrite, if_neg (by omega), if_neg (by omega), if_neg (by omega), if_pos (by omega), State.writeStream, if_neg (by omega), if_neg (by omega), if_pos h]

theorem State.coreWrite_counter {s : State} {k o : Nat} (v : Word32) (h : (0x3200 ≤ o ∧ o < 0x32C0) ∨ (0x3300 ≤ o ∧ o < 0x33C0)) :
    s.coreWrite k o v = s.writeInit k o v := by
  rw [State.coreWrite, if_neg (by omega), if_neg (by omega), if_neg (by omega), if_pos (by omega), State.writeStream, if_neg (by omega), if_neg (by omega),
    if_neg (by omega), if_neg (by omega), if_pos h]

theorem State.coreWrite_patch {s : State} {k o : Nat} (v : Word32) (h : 0x6000 ≤ o ∧ o < 0x7080) : s.coreWrite k o v = s.writePatch k o v := by
  rw [State.coreWrite, if_neg (by omega), if_neg (by omega), if_neg (by omega), if_neg (by omega), if_pos (by omega), State.writeChan,
    if_neg (by omega), if_neg (by omega), if_neg (by omega), if_neg (by omega), if_pos h]

theorem State.coreWrite_window {s : State} {k o : Nat} (v : Word32) (h : o < 0x10000) : s.coreWrite k (0x10000 + o) v = s.writeWindow k o v := by
  rw [State.coreWrite, if_neg (by omega), if_neg (by omega), if_neg (by omega), if_neg (by omega), if_neg (by omega), if_pos (by omega), Nat.add_sub_cancel_left]

/-! ## The rows of a core that answers at once -/

section Awake
variable {s : State} {k : Nat} (h : AwakeAt s k)
include h

/-- A row whose word CWR cannot write does what the block does with the write. -/
theorem AwakeAt.row_unnoted {o : Nat} {p : Nat → Bool} (v : Word32) (ho : o < 0x40000) (hp : p o = true) (h4 : o % 4 = 0) (hm : s.coreMapped k o = true)
    (h1 : o ≠ 0x3000) (h2 : o < 0x1800 ∨ 0x1C00 < o) : s.coreRow p (0x10000000 + 0x40000 * k + o) v = (s.coreWrite k o v).2 := by
  rw [h.row v ho hp h4 hm, State.noteHost_other _ _ h1 h2]

theorem AwakeAt.exec_clrCe : exec (.clrCe k) s = .next (s.modCore k fun c => { c with regs := { c.regs with scrCe := 0, stockCe := 0 } }) := by
  simp only [exec, execClrCe]
  rw [if_pos h.lt, h.hostWrite 1 (State.coreMapped_mem (.inl rfl)), State.noteHost_other _ _ (by decide) (by decide)]
  rfl

theorem AwakeAt.exec_binDesc {o : Nat} (v : Word32) (h4 : o % 4 = 0) (ho : 0x1100 ≤ o ∧ o < 0x1300) :
    exec (.binDescWrite (0x10000000 + 0x40000 * k + o) v) s = .next (s.writeBin k o v).2 := by
  simp only [exec, execBinDescWrite]
  rw [h.row_unnoted v (by omega) (by simpa [isBin] using ho) h4 (State.coreMapped_mem (.inr (.inl ho))) (by omega) (by omega), State.coreWrite_bin v ho]

theorem AwakeAt.exec_regionDesc {o : Nat} (v : Word32) (h4 : o % 4 = 0) (ho : 0x1400 ≤ o ∧ o < 0x1800) :
    exec (.regionDescWrite (0x10000000 + 0x40000 * k + o) v) s = .next (s.writeRegion k o v).2 := by
  simp only [exec, execRegionDescWrite]
  rw [h.row_unnoted v (by omega) (by simpa [isRegion] using ho) h4 (State.coreMapped_mem (.inr (.inr ho))) (by omega) (by omega), State.coreWrite_region v ho]

theorem AwakeAt.exec_gridVmap (v : Word32) : exec (.gridVmapWrite (0x10000000 + 0x40000 * k + 0x3040) v) s = .next (s.writeVmap k v).2 := by
  simp only [exec, execGridVmapWrite]
  rw [h.row_unnoted v (by decide) rfl rfl (State.coreMapped_stream (by decide)) (by decide) (by decide)]
  rfl

theorem AwakeAt.exec_lcDecl {b : Nat} (v : Word32) (hb : b < 2) :
    exec (.lcDeclWrite (0x10000000 + 0x40000 * k + (0x3030 + 4 * b)) v) s = .next (s.writeInit k (0x3030 + 4 * b) v).2 := by
  have ho : 0x3030 + 4 * b = 0x3030 ∨ 0x3030 + 4 * b = 0x3034 := by omega
  simp only [exec, execLcDeclWrite]
  rw [h.row_unnoted v (by omega) (by simp [isLcDecl]; omega) (by omega) (State.coreMapped_stream (by omega)) (by omega) (by omega), State.coreWrite_decl v ho]

theorem AwakeAt.exec_counter {b n : Nat} (v : Word32) (hb : b < 2) (hn : n < 48) :
    exec (.instructionWindowWrite (0x10000000 + 0x40000 * k + (0x3200 + 0x100 * b + 4 * n)) v) s = .next (s.writeInit k (0x3200 + 0x100 * b + 4 * n) v).2 := by
  have ho : (0x3200 ≤ 0x3200 + 0x100 * b + 4 * n ∧ 0x3200 + 0x100 * b + 4 * n < 0x32C0) ∨
      (0x3300 ≤ 0x3200 + 0x100 * b + 4 * n ∧ 0x3200 + 0x100 * b + 4 * n < 0x33C0) := by omega
  simp only [exec, execInstructionWindowWrite]
  rw [h.row_unnoted v (by omega) (by simp [isWindow]; omega) (by omega) (State.coreMapped_stream (by omega)) (by omega) (by omega), State.coreWrite_counter v ho]

theorem AwakeAt.exec_window {i : Nat} {x : Engine × Nat × Nat} (v : Word32) (hi : i < 0x4000) (hx : (s.core k).windowByte (4 * i) = some x) :
    exec (.instructionWindowWrite (0x10000000 + 0x40000 * k + (0x10000 + 4 * i)) v) s = .next (s.writeWindow k (4 * i) v).2 := by
  have hm : s.coreMapped k (0x10000 + 4 * i) = true := by
    rw [State.coreMapped, if_neg (by omega), if_pos (by omega), Nat.add_sub_cancel_left, hx]; rfl
  simp only [exec, execInstructionWindowWrite]
  rw [h.row_unnoted v (by omega) (by simp [isWindow]; omega) (by omega) hm (by omega) (by omega), State.coreWrite_window v (by omega)]

theorem AwakeAt.exec_patch {o : Nat} (v : Word32) (h4 : o % 4 = 0) (ho : 0x6000 ≤ o ∧ o < 0x7080) :
    exec (.patchWrite (0x10000000 + 0x40000 * k + o) v) s = .next (s.writePatch k o v).2 := by
  simp only [exec, execPatchWrite]
  rw [h.row_unnoted v (by omega) (by simpa [isPatch] using ho) h4 (State.coreMapped_patch ho) (by omega) (by omega), State.coreWrite_patch v ho]

end Awake

/-! ## Bins, regions and GRID_VMAP (R60, R72, R238) -/

theorem State.writeBin_shut {s : State} {k n w : Nat} (v : Word32) (hl : s.loadable k = false) (hn : n < 32) (hw : w < 4) :
    (s.writeBin k (0x1100 + 16 * n + 4 * w) v).2 = State.record s 0x030F 1 k 0 0 n := by
  rw [State.writeBin, hl, show (0x1100 + 16 * n + 4 * w - 0x1100) / 16 = n by omega, pack_one hn]; rfl

theorem State.writeBin_word0 {s : State} {k n : Nat} (v : Word32) (hl : s.loadable k = true) :
    (s.writeBin k (0x1100 + 16 * n + 4 * 0) v).2 =
      s.modCore k fun c => { c with regs := { c.regs with bins := modAt c.regs.bins n fun b => { b with desc := v &&& 0xBFFFFFFF } } } := by
  rw [State.writeBin, hl, show (0x1100 + 16 * n + 4 * 0 - 0x1100) / 16 = n by omega]
  dsimp only
  rw [if_neg (by decide), if_pos (by omega)]; rfl

/-- The other words of BIN_DESC are read-only. -/
theorem State.writeBin_other {s : State} {k n w : Nat} (v : Word32) (hl : s.loadable k = true) (hw : w < 4) (h0 : w ≠ 0) :
    (s.writeBin k (0x1100 + 16 * n + 4 * w) v).2 = s := by
  rw [State.writeBin, hl, if_neg (by decide), if_neg (by omega)]; rfl

theorem State.writeRegion_shut {s : State} {k n w : Nat} (v : Word32) (hl : s.loadable k = false) (hn : n < 64) (hw : w < 4) :
    (s.writeRegion k (0x1400 + 16 * n + 4 * w) v).2 = State.record s 0x030F 1 k 0 0 n := by
  rw [State.writeRegion, hl, show (0x1400 + 16 * n + 4 * w - 0x1400) / 16 = n by omega, pack_one hn]; rfl

theorem State.writeRegion_open {s : State} {k n w : Nat} (v : Word32) (hl : s.loadable k = true) (hw : w < 4) :
    (s.writeRegion k (0x1400 + 16 * n + 4 * w) v).2 =
      s.modCore k fun c => { c with regs := { c.regs with regions := modAt c.regs.regions n fun r =>
        if w = 0 then { r with w0 := v &&& 0x807FFFFF } else if w = 1 then { r with w1 := v &&& 0x7FFFF }
        else if w = 2 then { r with commit := bits v.toNat 19 0, high := bits v.toNat 19 0 } else r } } := by
  rw [State.writeRegion, hl, show (0x1400 + 16 * n + 4 * w - 0x1400) / 16 = n by omega, show (0x1400 + 16 * n + 4 * w) / 4 % 4 = w by omega]; rfl

theorem State.writeVmap_shut {s : State} {k : Nat} (v : Word32) (hl : s.loadable k = false) : (s.writeVmap k v).2 = State.record s 0x0430 1 k 0 0 0 := by
  rw [State.writeVmap, hl]; rfl

theorem State.writeVmap_open {s : State} {k : Nat} (v : Word32) (hl : s.loadable k = true) :
    (s.writeVmap k v).2 = s.modCore k fun c => { c with ctl := { c.ctl with gridVmap := v &&& 0x801FFFFF } } := by
  rw [State.writeVmap, hl]; rfl

/-! ## Banks, counter tables and LC_DECL (R155, R218, R405) -/

/-- DETAIL of a refused write of a table: no stream, and the word address. -/
theorem State.refuseBank_table {s : State} {k word : Nat} (h : word < 0x4000) : (s.refuseBank k 7 word).2 = State.record s 0x0103 1 k 0 0 (7 + 8 * word) := by
  rw [State.refuseBank, pack_pair (by decide) h]; rfl

theorem State.writeInit_decl_shut {s : State} {k b : Nat} (v : Word32) (hb : b < 2) (hl : s.bankLocked k b = true) :
    (s.writeInit k (0x3030 + 4 * b) v).2 = State.record s 0x0103 1 k 0 0 (7 + 8 * (0xC0C + b)) := by
  unfold State.writeInit
  dsimp only
  rw [if_pos (show 0x3030 + 4 * b < 0x3100 by omega), show (0x3030 + 4 * b - 0x3030) / 4 = b by omega, if_pos hl, show (0x3030 + 4 * b) / 4 = 0xC0C + b by omega,
    State.refuseBank_table (by omega)]

theorem State.writeInit_decl_open {s : State} {k b : Nat} (v : Word32) (hb : b < 2) (hl : s.bankLocked k b = false) :
    (s.writeInit k (0x3030 + 4 * b) v).2 = (s.unseal b).modCore k fun c => { c with ctl := { c.ctl with
      lcDecl0 := if b = 0 then v.setWidth 8 else c.ctl.lcDecl0, lcDecl1 := if b = 1 then v.setWidth 8 else c.ctl.lcDecl1 } } := by
  unfold State.writeInit
  dsimp only
  rw [if_pos (show 0x3030 + 4 * b < 0x3100 by omega), show (0x3030 + 4 * b - 0x3030) / 4 = b by omega, if_neg (by simp [hl])]
  obtain rfl | rfl : b = 0 ∨ b = 1 := by omega
  · rfl
  · rfl

theorem State.writeInit_counter_shut {s : State} {k b n : Nat} (v : Word32) (hb : b < 2) (hn : n < 48) (hl : s.bankLocked k b = true) :
    (s.writeInit k (0x3200 + 0x100 * b + 4 * n) v).2 = State.record s 0x0103 1 k 0 0 (7 + 8 * (0xC80 + 0x40 * b + n)) := by
  unfold State.writeInit
  dsimp only
  rw [if_neg (show ¬ 0x3200 + 0x100 * b + 4 * n < 0x3100 by omega), show (0x3200 + 0x100 * b + 4 * n - 0x3200) / 0x100 = b by omega, if_pos hl,
    show (0x3200 + 0x100 * b + 4 * n) / 4 = 0xC80 + 0x40 * b + n by omega, State.refuseBank_table (by omega)]

theorem State.writeInit_counter_open {s : State} {k b n : Nat} (v : Word32) (hb : b < 2) (hn : n < 48) (hl : s.bankLocked k b = false) :
    (s.writeInit k (0x3200 + 0x100 * b + 4 * n) v).2 = (s.unseal b).modCore k fun c => { c with ctl := { c.ctl with
      syncInit0 := if b = 0 then c.ctl.syncInit0.set n (v.setWidth 16) else c.ctl.syncInit0
      syncInit1 := if b = 1 then c.ctl.syncInit1.set n (v.setWidth 16) else c.ctl.syncInit1 } } := by
  unfold State.writeInit
  dsimp only
  rw [if_neg (show ¬ 0x3200 + 0x100 * b + 4 * n < 0x3100 by omega), show (0x3200 + 0x100 * b + 4 * n - 0x3200) / 0x100 = b by omega, if_neg (by simp [hl])]
  simp only [if_neg (show ¬ 0x3200 + 0x100 * b + 4 * n = 0x3030 by omega), if_neg (show ¬ 0x3200 + 0x100 * b + 4 * n = 0x3034 by omega)]
  obtain rfl | rfl : b = 0 ∨ b = 1 := by omega
  · rw [show (0x3200 + 0x100 * 0 + 4 * n - 0x3200) / 4 = n by omega]; rfl
  · rw [show (0x3200 + 0x100 * 1 + 4 * n - 0x3300) / 4 = n by omega]; rfl

theorem engineAt_engCode (e : Engine) : engineAt (engCode e - 1) = e := by cases e <;> rfl

theorem engCode_pred_lt (e : Engine) : engCode e - 1 < 5 := by cases e <;> decide

theorem bankBytes_le (e : Engine) : bankBytes e ≤ 0x10000 := by cases e <;> decide

/-- IMEM_SEL names a stream and a bank (R155). -/
theorem Core.windowByte_selected {c : Core} {e : Engine} {b i : Nat} (hs : c.ctl.imemSel.toNat = 8 * b + (engCode e - 1)) (hb : b < 2) (hi : i < bankBytes e / 4) :
    c.windowByte (4 * i) = some (e, b, imemBase e b + 4 * i) := by
  have he := engCode_pred_lt e
  have hn : bits c.ctl.imemSel.toNat 2 0 = engCode e - 1 := by rw [hs]; simp only [bits]; omega
  have hb2 : b % 2 = b := Nat.mod_eq_of_lt hb
  have hbank : bits c.ctl.imemSel.toNat 3 3 = b := by rw [hs]; simp only [bits]; omega
  unfold Core.windowByte
  dsimp only
  rw [hn, hbank, engineAt_engCode, if_pos ⟨he, by omega⟩]

theorem State.writeWindow_open {s : State} {k o a b : Nat} {e : Engine} (v : Word32) (hx : (s.core k).windowByte o = some (e, b, a)) (hl : s.bankLocked k b = false) :
    (s.writeWindow k o v).2 = (s.unseal b).modCore k fun c => { c with mem := { c.mem with imem := c.mem.imem.put 4 (a / 4) v.toNat false } } := by
  unfold State.writeWindow
  rw [hx]
  dsimp only
  rw [if_neg (by simp [hl])]; rfl

/-! ## The patch table (R360) -/

theorem State.writePatch_shut {s : State} {k o : Nat} (v : Word32) (hl : s.loadable k = false) (ho : o < 0x40000) :
    (s.writePatch k o v).2 = State.record s 0x0433 1 k 0 0 o := by
  unfold State.writePatch
  dsimp only
  rw [hl, if_pos (show (!false) = true from rfl), pack_one ho]; rfl

section
variable {s : State} {k : Nat} (v : Word32) (ha : (s.core k).ctl.attached = false) (hh : s.bar.phase ≠ .held)
include ha hh

theorem State.writePatch_table {i : Nat} (hi : i < 0x400) :
    (s.writePatch k (0x6000 + 4 * i) v).2 = s.modCore k fun c => { c with ctl := { c.ctl with patch := putWord c.ctl.patch i v } } := by
  unfold State.writePatch
  dsimp only
  rw [loadable_yes (.inl ha), if_neg (by decide), if_pos (by omega), if_neg (by simpa using hh), show (0x6000 + 4 * i - 0x6000) / 4 = i by omega]; rfl

/-- A write of PATCH_VALID puts the 32 valid bits of its word. -/
theorem State.writePatch_valid (w : Nat) :
    (s.writePatch k (0x7000 + 4 * w) v).2 = s.modCore k fun c => { c with ctl := { c.ctl with
      patchValid := (List.range 32).foldl (fun l b => markSet l (32 * w + b) (bit v.toNat b)) c.ctl.patchValid } } := by
  unfold State.writePatch
  dsimp only
  rw [loadable_yes (.inl ha), if_neg (by decide), if_neg (by omega), if_neg (by simpa using hh), show 8 * (0x7000 + 4 * w - 0x7000) = 32 * w by omega]; rfl

end

/-! ## The aperture (R79) -/

theorem State.readStockWord_clean {s : State} {k eng w : Nat} (h : (s.core k).mem.stock.flaw w = none) :
    s.readStockWord k eng w = ((s.core k).stockWord w, false, s) := by simp [State.readStockWord, h]

/-- DETAIL of 0x0310 is the line. -/
theorem State.writeAperture_shut {s : State} {k w : Nat} {stock : Bool} (v : Word32) (hr : s.apertureRefused k stock (w / 64) = true)
    (hw : w / 64 < 2 ^ (if stock then 19 else 14)) : (s.writeAperture k stock w v).2 = State.record s 0x0310 1 k 6 0 (w / 64) := by
  unfold State.writeAperture
  rw [if_pos hr, pack_one hw]; rfl

theorem State.writeAperture_scr {s : State} {k w : Nat} (v : Word32) (hr : s.apertureRefused k false (w / 64) = false) :
    (s.writeAperture k false w v).2 = s.modCore k fun c => { c with mem := { c.mem with scr := c.mem.scr.put 4 w v.toNat false } } := by
  unfold State.writeAperture
  rw [hr, if_neg (by decide), if_neg (by decide)]; rfl

/-- The half of the stock word that the write names is replaced; the other half and the poison stay. -/
theorem State.writeAperture_stock {s : State} {k w : Nat} (v : Word32) (hr : s.apertureRefused k true (w / 64) = false)
    (hf : (s.core k).mem.stock.flaw (w / 2) = none) {x y : Word64} (hx : x = ((s.core k).stockWord (w / 2)).val)
    (hy : y = if w % 2 = 0 then ((x >>> 32) <<< 32) ||| v.setWidth 64 else (x.setWidth 32).setWidth 64 ||| (v.setWidth 64 <<< 32)) :
    (s.writeAperture k true w v).2 = s.modCore k fun c => { c with mem := { c.mem with
      stock := c.mem.stock.put 8 (w / 2) y.toNat ((s.core k).stockWord (w / 2)).poison } } := by
  subst hx hy
  unfold State.writeAperture
  rw [hr, if_neg (by decide), if_pos rfl, State.readStockWord_clean hf]; rfl

/-- A read that meets no error changes nothing. -/
theorem State.readAperture_scr {s : State} {k w : Nat} (hf : (s.core k).mem.scr.flaw w = none) : (s.readAperture k false w).2 = s := by
  unfold State.readAperture
  split
  · rfl
  · rw [if_neg (by decide), State.readWord_clean hf]

theorem State.readAperture_stock {s : State} {k w : Nat} (hf : (s.core k).mem.stock.flaw (w / 2) = none) : (s.readAperture k true w).2 = s := by
  unfold State.readAperture
  split
  · rfl
  · rw [if_pos rfl, State.readStockWord_clean hf]

/-! ## A core block that does not answer (R466) -/

theorem State.answers_no {s : State} {k : Nat} (h : s.power.mainOn = false ∨ s.group (groupOf k) = .off ∨ s.group (groupOf k) = .failed) : s.answers k = false := by
  unfold State.answers
  rcases h with h | h | h <;> rw [h]
  · rfl
  · exact Bool.and_false _
  · exact Bool.and_false _

section Silent
variable {s : State} {k : Nat} (h : s.answers k = false)
include h

theorem State.hostWrite_silent (o : Nat) (v : Word32) : s.hostWrite k o v = (.unmapped, s) := by
  rw [State.hostWrite, h]; rfl

theorem State.hostRead_silent (o : Nat) : s.hostRead k o = (none, s) := by
  rw [State.hostRead, h]; rfl

theorem State.coreRow_silent {o : Nat} (hk : k < 768) (ho : o < 0x40000) (p : Nat → Bool) (v : Word32) : s.coreRow p (0x10000000 + 0x40000 * k + o) v = s := by
  unfold State.coreRow
  rw [coreAt_some hk ho]
  dsimp only
  rw [State.hostWrite_silent h, ite_self]

theorem State.regRead_silent {o : Nat} (hk : k < 768) (ho : o < 0x40000) : s.regRead (0x10000000 + 0x40000 * k + o) = (none, s) := by
  rw [State.regRead, coreAt_some hk ho]
  exact State.hostRead_silent h o

theorem exec_clrCe_silent : exec (.clrCe k) s = .next s := by
  simp only [exec, execClrCe, State.hostWrite_silent h, ite_self]

theorem exec_apertureRead_silent {o : Nat} (hk : k < 768) (ho : o < 0x40000) : exec (.apertureRead (0x10000000 + 0x40000 * k + o)) s = .next s := by
  simp only [exec, execApertureRead, coreAt_some hk ho, State.hostRead_silent h, ite_self]

theorem exec_latchingRead_silent {o : Nat} (hk : k < 768) (ho : o < 0x40000) : exec (.latchingRead (0x10000000 + 0x40000 * k + o)) s = .next s := by
  simp only [exec, execLatchingRead, State.regRead_silent h hk ho, ite_self]

/-- No row of a core block has an effect where the block does not answer. -/
theorem exec_row_silent {o : Nat} {v : Word32} {i : Instr} (hk : k < 768) (ho : o < 0x40000)
    (hi : i ∈ let a := 0x10000000 + 0x40000 * k + o
      [Instr.clrCe k, .binDescWrite a v, .regionDescWrite a v, .gridVmapWrite a v, .lcDeclWrite a v, .instructionWindowWrite a v, .patchWrite a v,
        .apertureWrite a v, .apertureRead a, .latchingRead a]) : exec i s = .next s := by
  have row := fun p => congrArg (Host.Outcome.next (φ := Fault) (ρ := Refusal)) (State.coreRow_silent h hk ho p v)
  simp only [List.mem_cons, List.not_mem_nil, or_false] at hi
  rcases hi with rfl | rfl | rfl | rfl | rfl | rfl | rfl | rfl | rfl | rfl
  · exact exec_clrCe_silent h
  · exact row isBin
  · exact row isRegion
  · exact row isVmap
  · exact row isLcDecl
  · exact row isWindow
  · exact row isPatch
  · exact row isAperture
  · exact exec_apertureRead_silent h hk ho
  · exact exec_latchingRead_silent h hk ho

end Silent

/-! ## The statement -/

/-- Settles O58: each row of a core that answers is the write or the read of its part of the block, and a core that does not answer leaves every row without effect. -/
theorem coreBlockWrites : Obligations.CoreBlockWrites := by
  unfold Obligations.CoreBlockWrites
  refine ⟨fun s k A hk hmain hg hrun hA => ?answers, fun s k o a v i hk ho ha hi hoff => ?silent⟩
  case answers =>
    subst hA
    have hw : AwakeAt s k := ⟨hk, hmain, hg, hrun⟩
    refine ⟨hw.exec_clrCe, fun n w v hn hw4 => ?bins, fun n w v hn hw4 => ?regions, fun v => ?vmap, fun b n v u hb hn hu => ?banks, fun i w v hi => ?patch,
      fun line i v hline hi => ?aperture, hw.latch (by decide) rfl, hw.latch (by decide) rfl, hw.latch (by decide) rfl, hw.latch (by decide) rfl, hw.latch (by decide) rfl⟩
    case bins =>
      rw [hw.exec_binDesc v (by omega) (by omega)]
      refine ⟨fun hat hph => ?_, fun hl => ⟨fun h0 => ?_, fun h0 => ?_⟩⟩
      · rw [State.writeBin_shut v (loadable_no hat hph) hn hw4]
      · rw [h0, State.writeBin_word0 v (loadable_yes hl)]
      · rw [State.writeBin_other v (loadable_yes hl) hw4 h0]
    case regions =>
      rw [hw.exec_regionDesc v (by omega) (by omega)]
      refine ⟨fun hat hph => ?_, fun hl => ?_⟩
      · rw [State.writeRegion_shut v (loadable_no hat hph) hn hw4]
      · rw [State.writeRegion_open v (loadable_yes hl) hw4]
    case vmap =>
      rw [hw.exec_gridVmap v]
      refine ⟨fun hat hph => ?_, fun hl => ?_⟩
      · rw [State.writeVmap_shut v (loadable_no hat hph)]
      · rw [State.writeVmap_open v (loadable_yes hl)]
    case banks =>
      subst hu
      rw [hw.exec_lcDecl v hb, hw.exec_counter v hb hn]
      refine ⟨fun hat hbank => ?_, fun hfree => ⟨?_, ?_, fun e i hsel hi => ?_⟩⟩
      · rw [State.writeInit_decl_shut v hb (bankLocked_yes hat hbank), State.writeInit_counter_shut v hb hn (bankLocked_yes hat hbank)]
        exact ⟨rfl, rfl⟩
      · rw [State.writeInit_decl_open v hb (bankLocked_no hfree)]; rfl
      · rw [State.writeInit_counter_open v hb hn (bankLocked_no hfree)]; rfl
      · have hx := Core.windowByte_selected hsel hb hi
        have he := bankBytes_le e
        rw [hw.exec_window v (by omega) hx, State.writeWindow_open v hx (bankLocked_no hfree)]; rfl
    case patch =>
      rw [hw.exec_patch v (by omega) (by omega)]
      refine ⟨fun hat hph => ?_, fun hat hph hw20 => ⟨?_, ?_⟩⟩
      · rw [State.writePatch_shut v (loadable_no hat hph) (by omega)]
      · rw [State.writePatch_table v hat hph hi]
      · rw [hw.exec_patch v (by omega) (by omega), State.writePatch_valid v hat hph w]
        refine ⟨_, rfl, rfl, fun j hj => State.core_modCore_other _ _ _ _ hj, ?_, fun j => ?_⟩
        · rw [State.core_modCore_same]
        · rw [State.core_modCore_same]; exact mem_markFold v.toNat (32 * w) 32 _ j
    case aperture =>
      have hl : (64 * line + i % 64) / 64 = line := by omega
      refine ⟨fun hsel hb => ?_, fun hsel hb => ?_⟩
      · obtain ⟨ew, er⟩ := hw.aperture v hi hsel hline hb
        rw [ew, er]
        refine ⟨fun hr => ?_, fun hr => ?_, fun hf => ?_⟩
        · rw [State.writeAperture_shut v (by rwa [hl]) (by rwa [hl]), hl]
        · rw [State.writeAperture_scr v (by rwa [hl])]
        · rw [State.readAperture_scr hf]
      · obtain ⟨ew, er⟩ := hw.aperture v hi hsel hline hb
        have hhalf : (64 * line + i % 64) % 2 = i % 2 := by omega
        rw [ew, er]
        refine ⟨fun hr => ?_, fun hr hf x y hx hy => ?_, fun hf => ?_⟩
        · rw [State.writeAperture_shut v (by rwa [hl]) (by rw [hl, if_pos rfl]; omega), hl]
        · rw [← hhalf] at hy
          rw [State.writeAperture_stock v (by rwa [hl]) hf hx hy]
        · rw [State.readAperture_stock hf]
  case silent =>
    subst ha
    exact exec_row_silent (State.answers_no hoff) hk ho hi

end Sys2Proof.Machine

/-! SUPPORT. The rows of an MMA: what a row that enters changes, what a written row leaves in the accumulator file, and the completion. -/

namespace Sys2Proof.Machine

/-! ## A fault of an engine -/

@[simp] theorem State.faultAt_now (s : State) (k : Nat) (e : Engine) (index code detail : Nat) :
    (s.faultAt k e index code detail).now = s.now := State.recordAs_now ..

@[simp] theorem State.faultAt_core (s : State) (k : Nat) (e : Engine) (index code detail j : Nat) :
    (s.faultAt k e index code detail).core j = s.core j := State.recordAs_core ..

theorem State.faultAt_recorded (s : State) (k : Nat) (e : Engine) (index code detail : Nat) :
    Recorded s (s.faultAt k e index code detail) code := State.recordAs_recorded ..

/-! ## A row enters the array (R38, R86, R100) -/

/-- The matrix engine after a row has entered: MX_ROWS counts it, the MMA holds it, and the lines that no later row needs are let go. -/
def Mx.rowEnters (m : Mx) (line sline : Nat) (row : MmaRow) : Mx :=
  { m with
    rows := m.rows + 1
    ops := modMma (fun x => !x.refused && x.entered != x.count) (fun x => { x with
      entered := x.entered + 1
      got := x.got.filter fun g => g.line ≥ (if g.what == .scale then (sline : Int) else (line : Int))
      rows := x.rows ++ [row] }) m.ops }

/-- Whether the tally of R43 tells a row from the products that the check entries promise. -/
def MmaOp.tallyFails (o : MmaOp) (t : Tile) (sc da : List (PWord 32)) : Bool :=
  tallyLhs (o.contribs t sc da) != tallyRhs t.checks (o.acts da) (o.grainScales sc)

theorem MmaOp.tallyFails_iff {o : MmaOp} {t : Tile} {sc da : List (PWord 32)} :
    o.tallyFails t sc da = true ↔ tallyLhs (o.contribs t sc da) ≠ tallyRhs t.checks (o.acts da) (o.grainScales sc) := bne_iff_ne

/-- The record of a row that fails its tally: 0x0140, and MX_TALLY counts it. -/
def State.tallyFault (s : State) (k : Nat) (o : MmaOp) (t : Tile) (sc da : List (PWord 32)) : State :=
  (s.faultAt k .mx o.owed.index 0x0140 (pack [(1, o.buf), (8, o.entered), (16, tallyLhs (o.contribs t sc da)),
    (16, tallyRhs t.checks (o.acts da) (o.grainScales sc))])).modCore k fun c => c.modMx fun m => { m with tally := satInc m.tally 1 }

theorem State.tallyFault_now (s : State) (k : Nat) (o : MmaOp) (t : Tile) (sc da : List (PWord 32)) :
    (s.tallyFault k o t sc da).now = s.now := by simp [State.tallyFault]

theorem State.tallyFault_core_same (s : State) (k : Nat) (o : MmaOp) (t : Tile) (sc da : List (PWord 32)) :
    (s.tallyFault k o t sc da).core k = (s.core k).modMx fun m => { m with tally := satInc m.tally 1 } := by
  simp [State.tallyFault]

theorem State.tallyFault_core_other {j k : Nat} (h : j ≠ k) (s : State) (o : MmaOp) (t : Tile) (sc da : List (PWord 32)) :
    (s.tallyFault k o t sc da).core j = s.core j := by
  simp [State.tallyFault, State.core_modCore_other _ _ _ _ h]

theorem State.tallyFault_recorded (s : State) (k : Nat) (o : MmaOp) (t : Tile) (sc da : List (PWord 32)) :
    Recorded s (s.tallyFault k o t sc da) 0x0140 := State.faultAt_recorded ..

/-- A row is poisoned by what it carries or by its tally, and a row that carries poison is not checked (R95, R100). -/
def MmaOp.rowOf (o : MmaOp) (t : Tile) (sc da : List (PWord 32)) : MmaRow :=
  ⟨o.contribs t sc da, o.carries t sc da || (!o.carries t sc da && o.tallyFails t sc da)⟩

theorem MmaOp.rowOf_poison_of_carries {o : MmaOp} {t : Tile} {sc da : List (PWord 32)} (h : o.carries t sc da = true) :
    (o.rowOf t sc da).poison = true := by simp [MmaOp.rowOf, h]

theorem MmaOp.rowOf_poison_of_clean {o : MmaOp} {t : Tile} {sc da : List (PWord 32)} (h : o.carries t sc da = false) :
    (o.rowOf t sc da).poison = o.tallyFails t sc da := by simp [MmaOp.rowOf, h]

/-! ## A row is written (R39, R40, R95, R102) -/

/-- The lanes that the write of a row leaves: its contributions, or their sticky sums with the lanes before it. -/
def MmaOp.lanesOver (o : MmaOp) (old contrib : List Int) : List Int :=
  if o.ovw then contrib else List.zipWith (fun v c => (accAdd v c).1) old contrib

/-- How many lanes the write of a row clamps. -/
def MmaOp.clampsOver (o : MmaOp) (old contrib : List Int) : Nat :=
  if o.ovw then 0 else ((List.zipWith (fun v c => (accAdd v c).2) old contrib).filter id).length

theorem Core.accLanes_length (c : Core) (bank row : Nat) : (c.accLanes bank row).length = 128 := by simp [Core.accLanes]

theorem MmaOp.lanesOver_length (o : MmaOp) {old contrib : List Int} (ho : old.length = 128) (hc : contrib.length = 128) :
    (o.lanesOver old contrib).length = 128 := by
  unfold MmaOp.lanesOver
  split
  · exact hc
  · simp [ho, hc]

/-- Neither an overwrite nor a sticky sum leaves the range of acc40. -/
theorem MmaOp.lanesOver_range (o : MmaOp) {old contrib : List Int} (ho : ∀ v ∈ old, s40Min ≤ v ∧ v ≤ s40Max)
    (hc : ∀ v ∈ contrib, s40Min ≤ v ∧ v ≤ s40Max) : ∀ v ∈ o.lanesOver old contrib, s40Min ≤ v ∧ v ≤ s40Max := by
  unfold MmaOp.lanesOver
  split
  · exact hc
  · intro v hv
    obtain ⟨i, hi, rfl⟩ := List.mem_iff_getElem.1 hv
    rw [List.getElem_zipWith]
    obtain ⟨hmin, hmax⟩ := ho _ (List.getElem_mem (List.lt_length_left_of_zipWith hi))
    exact accAdd_range _ _ hmin hmax

theorem MmaOp.rowSum_eq (o : MmaOp) {old contrib : List Int} (ho : old.length = 128) (hc : contrib.length = 128) :
    (if o.ovw = true then (contrib, 0) else accRowAdd old contrib) = (o.lanesOver old contrib, o.clampsOver old contrib) := by
  unfold MmaOp.lanesOver MmaOp.clampsOver
  split
  · rfl
  · exact accRowAdd_eq ho hc

/-- The core after a row without poison has been written to the accumulator file. -/
def Core.putAccLanes (c : Core) (bank row : Nat) (lanes : List Int) : Core :=
  c.modMem fun m => { m with acc :=
    { m.acc with cells := cellWrite m.acc.cells (640 * accRow bank row) (laneBytes lanes)
                 poison := markSet m.acc.poison (accRow bank row) false } }

theorem State.putAccRow_clean (s : State) (k bank row : Nat) (lanes : List Int) :
    s.putAccRow k bank row (laneBytes lanes) false = s.modCore k fun c => c.putAccLanes bank row lanes := rfl

/-- The lanes of a row without poison read back, and those of every other row are as they were. -/
theorem Core.accLanes_putAccLanes {c : Core} {bank dr : Nat} {lanes : List Int} (hwf : Memory.wf c.mem.acc.cells = true)
    (hl : lanes.length = 128) (hr : ∀ v ∈ lanes, s40Min ≤ v ∧ v ≤ s40Max) :
    (c.putAccLanes bank dr lanes).accLanes bank dr = lanes ∧
    ∀ b r, r < 256 → dr < 256 → (b ≠ bank ∨ r ≠ dr) → (c.putAccLanes bank dr lanes).accLanes b r = c.accLanes b r :=
  accLanes_write hl hr hwf rfl

theorem Core.accPoison_putAccLanes (c : Core) (bank dr b r : Nat) (lanes : List Int) :
    (c.putAccLanes bank dr lanes).accPoison b r = if accRow b r = accRow bank dr then false else c.accPoison b r := by
  have h := @mem_markSet c.mem.acc.poison (accRow bank dr) (accRow b r) false
  rw [Bool.eq_iff_iff]
  show List.contains _ _ = true ↔ _
  rw [List.contains_iff_mem, Core.putAccLanes, Core.modMem, h]
  split
  · simp
  · exact List.contains_iff_mem.symm

theorem accRow_ne {bank dr b r : Nat} (hr : r < 256) (hd : dr < 256) (h : b ≠ bank ∨ r ≠ dr) : accRow b r ≠ accRow bank dr := by
  simp only [accRow]; omega

/-- The matrix engine after the write of its oldest row: the clamped lanes counted, SAT of the bank set if there are any, the row gone. -/
def Mx.rowWritten (m : Mx) (bank clamps : Nat) (rest : List MmaRow) : Mx :=
  { m with
    satAcc := satInc m.satAcc clamps
    stamps := if clamps = 0 then m.stamps else modAt m.stamps bank fun t => { t with sat := true }
    ops := modMma (fun x => !x.rows.isEmpty) (fun x => { x with written := x.written + 1, rows := rest }) m.ops }

/-- The write of a row without poison to a row without poison. -/
theorem exec_mmaRowWrite_clean {s : State} {k : Nat} {o : MmaOp} {row : MmaRow} {rest : List MmaRow} (hcalm : s.overs = [])
    (hhead : headWrite (s.core k).mx.ops = some o) (hrows : o.rows = row :: rest) (hlen : row.contrib.length = 128)
    (hrow : row.poison = false) (hstamp : o.stamp = false) (hacc : (s.core k).accPoison o.bank (o.drow + o.written) = false) :
    exec (.mmaRowWrite k) s = .next ((s.advance (o.enterAt o.written + s.ctD)).modCore k fun c =>
      (c.putAccLanes o.bank (o.drow + o.written) (o.lanesOver ((s.core k).accLanes o.bank (o.drow + o.written)) row.contrib)).modMx fun m =>
        m.rowWritten o.bank (o.clampsOver ((s.core k).accLanes o.bank (o.drow + o.written)) row.contrib) rest) := by
  show execMmaRowWrite k s = _
  simp only [execMmaRowWrite, hhead, hrows, State.advance_core hcalm, hrow, hstamp, hacc, Bool.or_false, Bool.and_false,
    MmaOp.rowSum_eq o (Core.accLanes_length ..) hlen, State.putAccRow_clean, State.modCore_modCore]
  rfl

/-! ## An MMA completes (R92, R96) -/

/-- A read that names no bin advances none. -/
theorem State.binDone_none (s : State) (k : Nat) (slot : Option BinSlot) (write : Bool) : s.binDone k none slot write = s := rfl

/-- The core after an MMA that names a bank has left: WRITERS of the bank falls in cycle u. -/
def Core.mmaLeaves (c : Core) (bank u : Nat) : Core :=
  { c with mx := { c.mx with
      ops := dropMma c.mx.ops
      stamps := modAt c.mx.stamps bank fun x => { x with writers := x.writers - 1, writeFall := some u } } }

theorem exec_mmaComplete_written {s : State} {k u : Nat} {o : MmaOp} (hcalm : s.overs = []) (hhead : headMma (s.core k).mx.ops = some o)
    (href : o.refused = false) (hwritten : o.written = o.count) (hbin : o.bin = none) (hends : o.owed.ends = [])
    (hu : u = max s.now (o.enterAt (o.count - 1) + s.ctD)) (hroom : (s.core k).sync.roomFor u o.owed = true) :
    exec (.mmaComplete k) s = .next ((s.advance (o.enterAt (o.count - 1) + s.ctD)).modCore k fun c => (c.mmaLeaves o.bank u).completed u o.owed) := by
  have hnow : (s.advance (o.enterAt (o.count - 1) + s.ctD)).now = u := by rw [State.advance_now, hu]
  have hleave : (((s.advance (o.enterAt (o.count - 1) + s.ctD)).modCore k fun c => c.modMx fun m => { m with ops := dropMma m.ops }).writeDone k o.bank)
      = (s.advance (o.enterAt (o.count - 1) + s.ctD)).modCore k fun c => c.mmaLeaves o.bank u := by
    simp only [State.writeDone, State.modStamp, State.modCore_modCore, State.modCore_now, hnow]
    rfl
  show execMmaComplete k s = _
  simp only [execMmaComplete, hhead, href, hwritten, Bool.false_or, beq_self_eq_true, if_true, Bool.false_eq_true, if_false, hleave, hbin]
  rw [State.binDone_none, State.complete_eq hends (by rw [State.advance_core hcalm, hnow]; exact hroom), hnow]

/-! ## The statements -/

/-- Settles O19: a row that carries poison or agrees with its tally changes the engine alone; one that fails the tally is recorded and counted first. -/
theorem mmaRowEnters : Obligations.MmaRowEnters := by
  unfold Obligations.MmaRowEnters
  intro s k u o t0 line sline sc da hcalm hhead hreads hstamp hslot hline hsline hda hsc ht0 hu
  have hc (j : Nat) : (s.advance (o.enterAt o.entered)).core j = s.core j := State.advance_core hcalm _ _
  have he : exec (.mmaRowEntry k) s = .next ((if (!o.carries t0 sc da && o.tallyFails t0 sc da) = true
      then (s.advance (o.enterAt o.entered)).tallyFault k o t0 sc da else s.advance (o.enterAt o.entered)).modCore k
        fun c => c.modMx fun m => m.rowEnters line sline (o.rowOf t0 sc da)) :=
    rowEntry_eq hcalm hhead hreads hstamp hslot hline hsline hda hsc t0 ht0 _ _ rfl rfl
  subst hu
  by_cases hfail : (!o.carries t0 sc da && o.tallyFails t0 sc da) = true
  · obtain ⟨hclean, htally⟩ : o.carries t0 sc da = false ∧ o.tallyFails t0 sc da = true := by simpa using hfail
    rw [if_pos hfail] at he
    refine ⟨_, he, (State.tallyFault_now ..).trans (State.advance_now ..), fun j hj => ?others, ?changes⟩
    case others => rw [State.core_modCore_other _ _ _ _ hj, State.tallyFault_core_other hj, hc]
    case changes =>
      rw [State.core_modCore_same, State.tallyFault_core_same, hc]
      refine ⟨rfl, ⟨_, rfl, MmaOp.rowOf_poison_of_carries, MmaOp.rowOf_poison_of_clean⟩, fun hok => ?_, fun _ _ => ⟨?_, rfl⟩⟩
      · exact hok.elim (fun hcarries => absurd hcarries (by rw [hclean]; decide)) fun heq => absurd heq (MmaOp.tallyFails_iff.1 htally)
      · exact Recorded.of_eq (State.advance_faults hcalm _) (State.tallyFault_recorded _ k o t0 sc da)
  · rw [if_neg hfail] at he
    refine ⟨_, he, State.advance_now .., (OnlyCore.issued k _ hcalm _).2, ?_⟩
    rw [State.core_modCore_same, hc]
    exact ⟨rfl, ⟨_, rfl, MmaOp.rowOf_poison_of_carries, MmaOp.rowOf_poison_of_clean⟩, fun _ => ⟨OnlyCore.issued k _ hcalm _, rfl⟩,
      fun hclean hne => absurd (by rw [hclean, MmaOp.tallyFails_iff.2 hne]; rfl) hfail⟩

/-- Settles O20: the row written is one write to the accumulator file beside one change of the engine, and the completion is the MMA's leaving and its signals. -/
theorem mmaRowsWritten : Obligations.MmaRowsWritten := by
  unfold Obligations.MmaRowsWritten
  refine ⟨?write, ?complete⟩
  case write =>
    intro s k u dr o row rest old hcalm hhead hrows hlen hrange hrow hstamp hdr hdr' _ hacc hwf hold hu
    subst hdr hold hu
    have he := exec_mmaRowWrite_clean hcalm hhead hrows hlen hrow hstamp hacc
    have hlanes := (s.core k).accLanes_length o.bank (o.drow + o.written)
    obtain ⟨hsame, hother⟩ := Core.accLanes_putAccLanes (bank := o.bank) (dr := o.drow + o.written) hwf (o.lanesOver_length hlanes hlen)
      (o.lanesOver_range (accLanes_range _ _ _) hrange)
    refine ⟨_, he, State.advance_now .., OnlyCore.issued k _ hcalm _, ?_⟩
    rw [State.core_modCore_same, State.advance_core hcalm]
    refine ⟨hsame, ?poison, fun b r hr hne => ⟨hother b r hr hdr' hne, ?others⟩, rfl, rfl, rfl, rfl, rfl⟩
    case poison => exact (Core.accPoison_putAccLanes ..).trans (if_pos rfl)
    case others => exact (Core.accPoison_putAccLanes ..).trans (if_neg (accRow_ne hr hdr' hne))
  case complete =>
    intro s k u o hcalm hhead href hwritten hbin hends hu hroom
    refine ⟨_, exec_mmaComplete_written hcalm hhead href hwritten hbin hends hu hroom, ?_, OnlyCore.issued k _ hcalm _, ?_⟩
    · rw [State.modCore_now, State.advance_now, hu]
    · rw [State.core_modCore_same, State.advance_core hcalm]; rfl

end Sys2Proof.Machine

/-! SUPPORT. Forced service and burnish, and what an access of SX delivers. -/

namespace Sys2Proof.Machine

/-! ## Reads that are not due yet -/

theorem earliest_mem {l : List (LineRead × Reader)} {x : LineRead × Reader} (h : earliest l = some x) : x ∈ l := by
  induction l generalizing x with
  | nil => cases h
  | cons y r ih =>
    rw [earliest] at h
    split at h
    next => cases h; exact List.mem_cons_self
    next z hz =>
      split at h
      · cases h; exact List.mem_cons_of_mem _ (ih hz)
      · cases h; exact List.mem_cons_self

/-- Where no engine owes a read that falls before cycle t, none is made. -/
theorem State.fetchPast_none {s : State} {k t n : Nat} (h : ∀ x ∈ (s.core k).heads, t ≤ x.1.due) : s.fetchPast k t n = s := by
  cases n with
  | zero => rfl
  | succ n =>
    rw [State.fetchPast]
    split
    next x hx => rw [if_neg (Nat.not_lt.2 (h x (earliest_mem hx)))]
    next => rfl

/-! ## SERVICE_FORCED (R54) -/

/-- The core after a service request has taken the slot of the access a of engine e in cycle t. -/
def Core.serviceTakes (c : Core) (e : Engine) (a : Access) (t enx : Nat) : Core :=
  ((c.displace e a t enx).modRegs fun r => { r with svcForced := satInc r.svcForced 1 }).modMem fun m =>
    { m with slotCycle := t
             slotBanks := (if m.slotCycle = t then m.slotBanks else []) ++ (a.banks.filter (m.starved t)).map fun b => (2 * svc, b) }

theorem exec_serviceForced_starved {s : State} {k : Nat} {e : Engine} {a : Access} (hk : k < 768) (hcalm : s.overs = [])
    (ha : s.nextAccess k e = some a) (hstill : (s.advance (max a.due s.now)).nextAccess k e = some a)
    (hreads : ∀ x ∈ (s.core k).heads, max a.due s.now ≤ x.1.due)
    (hstarved : a.banks.any ((s.core k).mem.starved (max a.due s.now)) = true) :
    exec (.serviceForced k e) s = .next ((s.advance (max a.due s.now)).modCore k fun c =>
      c.serviceTakes e a (max a.due s.now) s.ctENX) := by
  have hcore := State.advance_core hcalm (max a.due s.now) k
  have hcycle : max a.due (s.advance (max a.due s.now)).now = max a.due s.now := by rw [State.advance_now]; omega
  show execServiceForced k e s = _
  simp only [execServiceForced, ha, State.fetchPast_none (by rwa [hcore]), hstill]
  rw [if_pos ⟨hk, hcycle, by rwa [hcore]⟩]
  rfl

/-! ## BURNISH_READ (R69, R70) -/

theorem State.advanceTick_tick {s : State} (h : 0 < s.grade) (t : Nat) : t ≤ (s.advanceTick t).tick := by
  rw [State.tick, State.advanceTick, State.advance_tickBase, State.advance_grade, State.advance_now]
  have hreached : t - s.tickBase ≤ max s.now ((t - s.tickBase) * Config.cyclesPerTick s.grade) / Config.cyclesPerTick s.grade :=
    (Nat.le_div_iff_mul_le h).2 (Nat.le_max_right ..)
  omega

/-- A word without error is read and nothing more, poisoned or not. -/
theorem State.burnishWord_clean {s : State} {k w : Nat} (h : (s.core k).mem.stock.flaw w = none) : s.burnishWord k w = s := by
  simp only [State.burnishWord, h, ite_self]

theorem State.burnishWords_clean {s : State} {k b : Nat} {l : List Nat} (h : ∀ i ∈ l, (s.core k).mem.stock.flaw (b + i) = none) :
    l.foldl (fun s i => s.burnishWord k (b + i)) s = s := by
  induction l with
  | nil => rfl
  | cons i l ih =>
    rw [List.foldl_cons, State.burnishWord_clean (h i List.mem_cons_self)]
    exact ih fun j hj => h j (List.mem_cons_of_mem i hj)

/-- The registers after burnish has read its line in steady tick n: the next line, and a sweep more after the last. -/
def Core.burnished (c : Core) (n : Nat) : Core :=
  c.modRegs fun r => { r with
    burnNext := (r.burnNext + 1) % stockLines, burnTick := n
    burnSweeps := if r.burnNext + 1 = stockLines then r.burnSweeps + 1 else r.burnSweeps }

theorem exec_burnishRead_clean {s : State} {k : Nat} (hk : k < 768) (hcalm : s.overs = []) (hmain : s.power.mainOn = true)
    (hon : (s.core k).regs.burnEnable = true)
    (hclean : ∀ i, i < 32 → (s.core k).mem.stock.flaw (32 * (s.core k).regs.burnNext + i) = none) :
    exec (.burnishRead k) s = .next
      ((s.advanceTick ((s.core k).regs.burnTick + (s.core k).regs.burnPeriod.toNat + 2)).modCore k fun c =>
        c.burnished (s.advanceTick ((s.core k).regs.burnTick + (s.core k).regs.burnPeriod.toNat + 2)).tick) := by
  have hcore (n : Nat) : (s.advanceTick n).core k = s.core k := State.advance_core hcalm _ k
  have hgo : (!(decide (k < 768) && s.power.mainOn && (s.core k).regs.burnEnable)) = false := by simp [hk, hmain, hon]
  show execBurnishRead k s = _
  simp only [execBurnishRead, hgo, Bool.false_eq_true, if_false]
  rw [State.burnishWords_clean fun i hi => by rw [hcore]; exact hclean i (List.mem_range.1 hi)]
  exact congrArg _ (State.modCore_congr (by rw [hcore]; rfl))

/-! ## What an access of SX delivers (R196, R198, R199, R205) -/

theorem State.plainRead_advance {s : State} {k t w n u : Nat} (hcalm : s.overs = []) (h : s.plainRead k t w n) :
    (s.advance u).plainRead k t w n := by
  obtain ⟨hfree, hopen, hshown, hclean⟩ := h
  have hcore := State.advance_core hcalm u k
  exact ⟨State.slotFree_advance hcalm hfree, by rwa [hcore], by rwa [hcore], by rwa [hcore]⟩

theorem State.doXlat_valid {s : State} {k : Nat} {a : SxAcc} (hin : a.data.val.toNat < 256)
    (hvalid : (s.core k).ctl.patchValid.contains (256 * a.addr + a.data.val.toNat) = true) :
    s.doXlat k a = s.deliver k a [⟨(keyGet (s.core k).ctl.patch (256 * a.addr + a.data.val.toNat)).getD 0, false⟩] := by
  simp only [State.doXlat]
  rw [if_pos ⟨hin, hvalid⟩]

section Kinds
variable {k : Nat} {a : SxAcc} (s : State) (hdone : a.refused = false)
include hdone

theorem State.doAcc_ldw (hkind : a.kind = .ldw) : s.doAcc k a = s.doLoad k a 1 := by simp [State.doAcc, hdone, hkind]

theorem State.doAcc_ldp (hkind : a.kind = .ldp) : s.doAcc k a = s.doLoad k a 2 := by simp [State.doAcc, hdone, hkind]

theorem State.doAcc_crd (hkind : a.kind = .crd) : s.doAcc k a = s.doCrd k a := by simp [State.doAcc, hdone, hkind]

theorem State.doAcc_xlat (hkind : a.kind = .xlat) : s.doAcc k a = s.doXlat k a := by simp [State.doAcc, hdone, hkind]

end Kinds

section Next
variable {s : State} {k : Nat} {a : SxAcc} {r : List SxAcc} (h : SxAccessNext s k a r)
include h

theorem SxAccessNext.advance_now : (s.advance a.due).now = a.due := by
  rw [State.advance_now, Nat.max_eq_right h.due]

/-- An access that only delivers: the words are its one effect. -/
theorem SxAccessNext.delivers {ws : List (PWord 32)} (hd : (s.advance a.due).doAcc k a = (s.advance a.due).deliver k a ws) :
    ∃ t, exec (.sxAccess k) s = .next t ∧ t.now = a.due ∧ OnlyCore k s t ∧ SxDelivers (s.core k) (t.core k) r ∧
      ∀ q, (t.core k).g q = if q = a.rd2 ∧ q ≠ 0 then ws.getD 1 ⟨0, true⟩
        else if q = a.rd ∧ q ≠ 0 then ws.headD ⟨0, true⟩ else (s.core k).g q :=
  access_delivers h (f := fun c => c) (fun _ => rfl) (fun _ => rfl) (fun _ => rfl) (fun _ => rfl) (fun _ => rfl)
    (hd.trans State.deliver_id.symm)

/-- A load takes its slot and delivers the n words that stand at its address. -/
theorem SxAccessNext.loads {n : Nat} (hp : s.plainRead k a.due a.addr n)
    (hd : (s.advance a.due).doAcc k a = (s.advance a.due).doLoad k a n) :
    ∃ t, exec (.sxAccess k) s = .next t ∧ t.now = a.due ∧ OnlyCore k s t ∧ SxDelivers (s.core k) (t.core k) r ∧
      ∀ q, (t.core k).g q = if q = a.rd2 ∧ q ≠ 0 then ((List.range n).map fun i => (s.core k).scrWord (a.addr + i)).getD 1 ⟨0, true⟩
        else if q = a.rd ∧ q ≠ 0 then ((List.range n).map fun i => (s.core k).scrWord (a.addr + i)).headD ⟨0, true⟩
        else (s.core k).g q := by
  have hcore := State.advance_core h.calm a.due k
  refine access_delivers h (f := fun c => c.modMem fun m => m.claim 10 a.due [a.addr / 64 % 16]) (fun _ => rfl) (fun _ => rfl)
    (fun _ => rfl) (fun _ => rfl) (fun _ => rfl) (hd.trans ?_)
  rw [State.doLoad_plain (by rw [hcore]; exact h.reads) h.advance_now (State.plainRead_advance h.calm hp), hcore]

end Next

/-- The second destination g0 takes no word. -/
theorem deliver_one {b q : Nat} (hb : b = 0) (x y : PWord 32) : (if q = b ∧ q ≠ 0 then x else y) = y :=
  if_neg fun ⟨hq, h0⟩ => h0 (hq.trans hb)

/-! ## The statements -/

/-- Settles O11: no read falls before the cycle of the displaced access, so that it is the one that the request takes; a line without errors changes only what burnish counts. -/
theorem coreService : Obligations.CoreService := by
  unfold Obligations.CoreService
  refine fun s k hk => ⟨fun e a hcalm ha hstill hreads hstarved => ?forced, fun r hcalm hr hgrade hmain hon hclean => ?burnish⟩
  case forced =>
    refine ⟨_, exec_serviceForced_starved hk hcalm ha hstill hreads hstarved, ?_, OnlyCore.issued k _ hcalm _, ?_⟩
    · rw [State.modCore_now, State.advance_now]; omega
    · rw [State.core_modCore_same, State.advance_core hcalm]; rfl
  case burnish =>
    subst hr
    refine ⟨_, exec_burnishRead_clean hk hcalm hmain hon hclean, OnlyCore.issued k _ hcalm _, State.advanceTick_tick hgrade _, ?_⟩
    rw [State.core_modCore_same, State.advanceTick, State.advance_core hcalm]; rfl

/-- Settles O12: LDW and LDP are loads that nothing holds back; CRD and XLAT deliver the value that they find, and touch no memory. -/
theorem sxLoadEffect : Obligations.SxLoadEffect := by
  unfold Obligations.SxLoadEffect
  intro s k a r h
  have hcore := State.advance_core h.calm a.due k
  refine ⟨fun hkind hrd2 _ hp => ?ldw, fun hkind _ _ hrd2 hp => ?ldp, fun hkind hrd2 h4 hoff hlatch hstrict => ?crd,
    fun hkind hrd2 hin hvalid => ?xlat⟩
  case ldw =>
    obtain ⟨t, he, hnow, honly, hdel, hg⟩ := h.loads hp (State.doAcc_ldw _ h.done hkind)
    exact ⟨t, he, hnow, honly, hdel, fun q => (hg q).trans (deliver_one hrd2 _ _)⟩
  case ldp =>
    obtain ⟨t, he, hnow, honly, hdel, hg⟩ := h.loads hp (State.doAcc_ldp _ h.done hkind)
    refine ⟨t, he, hnow, honly, hdel, fun q => (hg q).trans ?_⟩
    rw [hrd2]
    by_cases hsecond : q = a.rd + 1
    · rw [if_pos ⟨hsecond, by omega⟩, if_neg (by omega), if_pos hsecond]; rfl
    · rw [if_neg fun hq => hsecond hq.1, if_neg hsecond]; rfl
  case crd =>
    obtain ⟨t, he, hnow, honly, hdel, hg⟩ := h.delivers
      ((State.doAcc_crd _ h.done hkind).trans (doCrd_plain h4 hoff hlatch (by rwa [State.advance_strict])))
    exact ⟨t, he, hnow, honly, hdel, fun q => (hg q).trans (deliver_one hrd2 _ _)⟩
  case xlat =>
    obtain ⟨t, he, hnow, honly, hdel, hg⟩ := h.delivers
      ((State.doAcc_xlat _ h.done hkind).trans (State.doXlat_valid hin (by rwa [hcore])))
    exact ⟨t, he, hnow, honly, hdel, fun q => (hg q).trans ((deliver_one hrd2 _ _).trans (by rw [hcore]; rfl))⟩

end Sys2Proof.Machine

/-! SUPPORT. The matrix engine takes its instructions: the issue of a TLOAD and of an MMA, and a load that has read its tile. -/

namespace Sys2Proof.Machine

/-! ## The state of the issue cycle -/

theorem EngIssues.issued_now {s : State} {k i w u r : Nat} {e : Engine} (h : EngIssues s k e i w u r) :
    ((s.advance u).modCore k fun c => c.engGoes e i w u).now = u := by
  rw [State.modCore_now, State.advance_now, Nat.max_eq_right h.now_le]

theorem EngIssues.issued_core {s : State} {k i w u r : Nat} {e : Engine} (h : EngIssues s k e i w u r) :
    ((s.advance u).modCore k fun c => c.engGoes e i w u).core k = (s.core k).engGoes e i w u := by
  rw [State.core_modCore_same, State.advance_core h.calm]

/-! ## The fields of a TLOAD (R82, R157) -/

/-- A legal TLOAD names a format of R31: the field is the format. -/
theorem tlFmt_of_legal {w : Nat} (hlegal : engineBad .mx w = none) (hop : hOpc w = 1) : tlFmt w = w / 2 % 8 := by
  obtain ⟨-, hchecks⟩ := engineBad_none hlegal
  have hfmt := hchecks (3, 1, decide (bits w 3 1 ≥ 4)) (by simp [operandChecks, hop, opSnop, opSend, opSloop])
  rw [tlFmt, if_neg (by simpa using hfmt)]
  rfl

/-! ## Issue of a TLOAD (R92) -/

/-- The matrix engine after a TLOAD has issued in cycle u: its buffer is LOADING, and the port is taken to the load's last cycle. -/
def Mx.loadIssues (m : Mx) (l : LoadOp) (u : Nat) : Mx :=
  { (m.setTile l.buf { m.tile l.buf with state := .loading, fmt := l.fmt }).setLastDone l.buf (l.start + l.ports - 1) with
    ops := m.ops ++ [.load l], lastPort := some (l.start + l.ports - 1), tloadAt := some u }

/-- The load of a TLOAD that issues in cycle u: after the load before it and the last row entry of its buffer. -/
def Mx.loadOf (m : Mx) (w u : Nat) (o : Owed) : LoadOp :=
  { owed := o, buf := tlBuf w, fmt := tlFmt w, line := tlLine w, refused := false
    start := max (u + 1) (max (after m.lastPort) (after (m.lastEntry (tlBuf w)))), ports := tilePorts (tlFmt w) }

theorem State.issueLoad_allowed {s : State} {k w : Nat} {o : Owed} (h : (s.core k).readCode true (tlLine w) (tileLines (tlFmt w)) = none) :
    s.issueLoad k w o false = s.modCore k fun c =>
      (c.modStream .mx fun x => { x with ready := s.now + 1 }).modMx fun m => m.loadIssues ((s.core k).mx.loadOf w s.now o) s.now := by
  simp only [State.issueLoad, h, Option.isSome_none, Bool.and_false, Bool.or_false, Bool.false_eq_true, if_false, State.setReady, State.modStream,
    State.modCore_modCore]
  rfl

/-! ## Issue of an MMA (R89, R92, R96) -/

theorem MxOp.reads_of_heads {c : Core} (h : c.heads = []) : ∀ o, MxOp.mma o ∈ c.mx.ops → o.fetch = [] := by
  intro o ho
  simp only [Core.heads, List.append_eq_nil_iff, List.filterMap_eq_nil_iff] at h
  obtain ⟨⟨⟨hmx, -⟩, -⟩, -⟩ := h
  simpa using hmx _ ho

/-- Where the MMAs in flight owe no read, none of their reads moves. -/
theorem respread_none (lim : Nat) : ∀ {ops : List MxOp}, (∀ o, MxOp.mma o ∈ ops → o.fetch = []) → respread lim ops = (ops, lim)
  | [], _ => rfl
  | .load l :: r, h => by
    rw [respread, respread_none lim fun o ho => h o (List.mem_cons_of_mem _ ho)]
  | .mma o :: r, h => by
    rw [respread, respread_none lim fun o ho => h o (List.mem_cons_of_mem _ ho)]
    have hfetch := h o List.mem_cons_self
    cases o
    cases hfetch
    rfl

/-- The MMA of a word that issues in cycle u, its first row entering in cycle first. -/
def mmaOf (w u : Nat) (o : Owed) (first p2 : Nat) : MmaOp :=
  { owed := o, issue := u, buf := mmBuf w, afmt := mmAfmt w, aline := mmAline w, aslot := mmAslot w, scline := mmScline w, scoff := mmScoff w
    count := mmCount w, bank := mmBank w, drow := mmDrow w, ovw := mmMode w, bin := binRef (mmAline w) (mmSrc w) (hAdv w), refused := false
    stamp := false, first := first, p2 := p2 }

/-- The matrix engine after an MMA has issued: WRITERS of its bank rises, and the last row entry of its buffer is known. -/
def Mx.mmaIssues (m : Mx) (o : MmaOp) : Mx :=
  ({ m with
    stamps := modAt m.stamps o.bank fun x => { x with writers := x.writers + 1 }
    ops := m.ops ++ [.mma { o with fetch := o.reads }], tloadAt := none } : Mx).setLastEntry o.buf (o.first + (o.count - 1) * o.p2 / 2)

/-- The core after a write has issued on a bank: WRITERS rises (R96). -/
def Core.writerRises (c : Core) (bank : Nat) : Core :=
  c.modMx fun m => { m with stamps := modAt m.stamps bank fun x => { x with writers := x.writers + 1 } }

theorem State.issueMma_allowed {s : State} {k w p2 first : Nat} {o : Owed}
    (hform : mmaInconsistent ((s.core k).mx.tile (mmBuf w)).fmt w = none)
    (hp2 : rowInterval2 ((s.core k).mx.tile (mmBuf w)).fmt (mmAfmt w) = some p2)
    (hgo : (s.core k).mmaRefusal s.now w = none) (hreads : (s.core k).heads = []) (hstamp : ((s.core k).stampOf (mmBank w)).readersSeen s.now = 0)
    (hfirst : first = max (s.now + s.ctE) (after ((s.core k).mx.lastDone (mmBuf w)))) :
    s.issueMma k w o false = s.modCore k fun c =>
      (c.modStream .mx fun x => { x with ready := first - s.ctE + ceilDiv (mmCount w * p2) 2 }).modMx fun m => m.mmaIssues (mmaOf w s.now o first p2) := by
  have hstay (lim : Nat) : (respread lim (s.core k).mx.ops).1 = (s.core k).mx.ops :=
    congrArg Prod.fst (respread_none lim (MxOp.reads_of_heads hreads))
  have hwrite : s.writeIssue k .mx o.index (mmBank w) = (false, s.modCore k fun c => c.writerRises (mmBank w)) := State.writeIssue_ok hstamp
  have hheads : ((s.modCore k fun c => c.writerRises (mmBank w)).core k).heads = [] := by rw [State.core_modCore_same]; exact hreads
  have hfirst' : max (s.now + (s.modCore k fun c => c.writerRises (mmBank w)).ctE)
      (after (((s.modCore k fun c => c.writerRises (mmBank w)).core k).mx.lastDone (mmBuf w))) = first := by
    rw [State.core_modCore_same, hfirst]; rfl
  simp only [State.issueMma, hform, hgo, hp2, hwrite, hfirst', Option.getD_some, Option.isSome_none, Bool.or_false, Bool.false_eq_true, if_false,
    State.fetchDue_none hheads, State.modCore_now, State.setReady, State.modStream, State.modCore_modCore]
  refine State.modCore_congr ?_
  unfold Core.modMx
  split
  next => rfl
  next => simp only [Core.writerRises, Core.modMx, Core.modStream, Core.setStream, Core.stream, hstay]; rfl

/-! ## A load that has read its tile (R82, R83, R85) -/

/-- The tile in a buffer after the load l has left its bytes there: READY and clean, with the format of the load. -/
def Tile.loaded (t : Tile) (l : LoadOp) (bytes : List Byte) : Tile :=
  { state := .ready, fmt := t.fmt, poison := false, cells := cellWrite [] 0 bytes, held := l.fmt }

/-- The core after a load has left its tile in its buffer. -/
def Core.loadLeaves (c : Core) (l : LoadOp) (bytes : List Byte) : Core :=
  c.modMx fun m => { m.setTile l.buf ((m.tile l.buf).loaded l bytes) with
    ops := dropLoad m.ops, past := if c.dx.ops.isEmpty then [] else m.past ++ [(l.start, l.start + l.ports - 1)] }

@[simp] theorem Tile.loaded_cells (t : Tile) (l : LoadOp) (bytes : List Byte) : (t.loaded l bytes).cells = cellWrite [] 0 bytes := rfl

section
variable (c : Core) (l : LoadOp) (bytes : List Byte) (u : Nat)

theorem Core.tile_loadLeaves_same :
    ((c.loadLeaves l bytes).completed u l.owed).mx.tile l.buf = (c.mx.tile l.buf).loaded l bytes :=
  (Mx.tile_setTile c.mx l.buf l.buf _).trans (if_pos Iff.rfl)

theorem Core.tile_loadLeaves_other {b : Nat} (h : ¬(l.buf = 0 ↔ b = 0)) :
    ((c.loadLeaves l bytes).completed u l.owed).mx.tile b = c.mx.tile b :=
  (Mx.tile_setTile c.mx l.buf b _).trans (if_neg h)

end

/-- The bytes of a tile as the stock holds them. -/
def Core.tileBytes (c : Core) (l : LoadOp) : List Byte := cellRead c.mem.stock.cells (256 * l.line) (256 * tileLines l.fmt)

theorem Core.tileBytes_get (c : Core) (l : LoadOp) {b : Nat} (hb : b < 256 * tileLines l.fmt) :
    cellGet (cellWrite [] 0 (c.tileBytes l)) b = cellGet c.mem.stock.cells (256 * l.line + b) := by
  have hread := cellRead_get c.mem.stock.cells (256 * l.line) _ b hb
  rw [cellGet_fresh _ _ (by rwa [Core.tileBytes, cellRead_length]), Core.tileBytes, List.getD, hread]
  rfl

/-- A ternary tile whose data bytes hold no invalid code is taken as it is; the other formats have none (R32). -/
theorem Core.loaded_codes {c : Core} {l : LoadOp} (h : l.fmt = fmtTernary → ∀ b, b < 4096 → byteInvalid (cellGet c.mem.stock.cells (256 * l.line + b)) = false) :
    (if l.fmt ≠ fmtTernary then none else ternaryBad (cellWrite [] 0 (c.tileBytes l))) = none := by
  split
  · rfl
  next hternary =>
    have hfmt : l.fmt = fmtTernary := not_not.1 hternary
    have hdata : 4096 ≤ 256 * tileLines l.fmt := by rw [hfmt]; decide
    refine ternaryBad_none (Memory.wf_cellWrite rfl _ _) fun b hb => ?_
    rw [c.tileBytes_get l (hb.trans_le hdata), h hfmt b hb]

theorem exec_tloadComplete_clean {s : State} {k u : Nat} {l : LoadOp} (hcalm : s.overs = []) (hhead : headLoad (s.core k).mx.ops [] = some l)
    (href : l.refused = false) (hends : l.owed.ends = []) (hu : u = max s.now (l.start + l.ports - 1))
    (hroom : (s.core k).sync.roomFor u l.owed = true) (hlast : loadPending (dropLoad (s.core k).mx.ops) l.buf = false)
    (hcodes : l.fmt = fmtTernary → ∀ b, b < 4096 → byteInvalid (cellGet (s.core k).mem.stock.cells (256 * l.line + b)) = false)
    (hzero : ∀ j, j < tileLines l.fmt → (s.core k).readsZero true (l.line + j) = false)
    (hclean : ∀ j, j < 32 * tileLines l.fmt → (s.core k).mem.stock.flaw (32 * l.line + j) = none ∧ (s.core k).mem.stock.bad (32 * l.line + j) = false) :
    exec (.tloadComplete k) s = .next ((s.advance (l.start + l.ports - 1)).modCore k fun c =>
      (c.loadLeaves l ((s.core k).tileBytes l)).completed u l.owed) := by
  have hcore := State.advance_core hcalm (l.start + l.ports - 1) k
  have hnow : (s.advance (l.start + l.ports - 1)).now = u := by rw [State.advance_now, hu]
  obtain ⟨ws, hread, hbytes⟩ := State.readTile_clean (s := s.advance (l.start + l.ports - 1)) (k := k) (line := l.line) (n := tileLines l.fmt)
    (by rwa [hcore]) (by rwa [hcore])
  rw [hcore] at hbytes
  have hgood := Core.loaded_codes hcodes
  rw [Core.tileBytes, ← hbytes] at hgood
  show execTloadComplete k s = _
  simp only [execTloadComplete, hhead, href, hread, hgood, Bool.false_eq_true, if_false, false_or]
  rw [State.complete_eq hends (by rw [hcore, hnow]; exact hroom), hnow]
  refine congrArg _ (State.modCore_congr ?_)
  rw [hcore]
  simp only [Core.modMx, hlast, hbytes]
  rfl

/-! ## The statements -/

/-- Settles O17: both instructions issue as any engine word does; what they then change is the matrix engine and the bound of its stream. -/
theorem mxIssue : Obligations.MxIssue := by
  unfold Obligations.MxIssue
  refine fun s k i w u => ⟨fun b f at' h hop hb hf hread hat => ?tload, fun o p2 first h hop hform hp2 hgo hreads hstamp hfirst ho => ?mma⟩
  case tload =>
    have hfmt : tlFmt w = f := (tlFmt_of_legal h.legal hop).trans hf.symm
    have hbuf : tlBuf w = b := by rw [hb]; simp [tlBuf, bits]
    have he : exec (.tload k) s = _ := congrArg Host.Outcome.next ((State.issueOp_ready h (by simp [wantOp, hop])).trans
      (State.issueLoad_allowed (by rw [h.issued_core, hfmt]; exact hread)))
    rw [State.modCore_modCore, h.issued_now, h.issued_core] at he
    refine ⟨_, he, h.issued_now, OnlyCore.issued k u h.calm _, ?_⟩
    rw [State.core_modCore_same, State.advance_core h.calm]
    subst hbuf hfmt hat
    rfl
  case mma =>
    have hctE : ((s.advance u).modCore k fun c => c.engGoes .mx i w u).ctE = s.ctE := State.advance_ctE s u
    have he : exec (.mma k) s = _ := congrArg Host.Outcome.next ((State.issueOp_ready h (by simp [wantOp, hop])).trans
      (State.issueMma_allowed (first := first) (by rw [h.issued_core]; exact hform)
        (by rw [h.issued_core]; exact hp2) (by rw [h.issued_core, h.issued_now]; exact hgo) (by rw [h.issued_core, Core.engGoes_heads]; exact hreads)
        (by rw [h.issued_core, h.issued_now]; exact hstamp) (by rw [h.issued_core, h.issued_now, hctE]; exact hfirst)))
    rw [State.modCore_modCore, h.issued_now, hctE] at he
    refine ⟨_, he, h.issued_now, OnlyCore.issued k u h.calm _, ?_⟩
    rw [State.core_modCore_same, State.advance_core h.calm]
    subst ho
    rfl

/-- Settles O18: a load of clean lines reads the bytes of the stock, and leaves them as one tile in its buffer when it completes. -/
theorem tileLoads : Obligations.TileLoads := by
  unfold Obligations.TileLoads
  intro s k l hcalm hhead href hends hroom hlast hcodes hzero hclean
  have hcore := State.advance_core hcalm (l.start + l.ports - 1) k
  refine ⟨_, exec_tloadComplete_clean hcalm hhead href hends rfl hroom hlast hcodes hzero hclean, ?_, OnlyCore.issued k _ hcalm _, ?_⟩
  · rw [State.modCore_now, State.advance_now]
  · rw [State.core_modCore_same, hcore]
    have hsame := (s.core k).tile_loadLeaves_same l ((s.core k).tileBytes l) (max s.now (l.start + l.ports - 1))
    refine ⟨by rw [hsame]; rfl, by rw [hsame]; rfl, by rw [hsame]; rfl, by rw [hsame]; rfl, fun b hb => ?bytes, fun b hb hbuf hne => ?other, rfl, rfl, rfl⟩
    case bytes => rw [hsame, Tile.loaded_cells, Core.tileBytes_get _ l hb]
    case other => exact Core.tile_loadLeaves_other _ _ _ _ (by omega)

end Sys2Proof.Machine

/-! SUPPORT. The rows of the other blocks: routing registers, link ports, the barrier's configuration, descriptors, latching reads, and the write of
a register without a row of its own. -/

namespace Sys2Proof.Machine

/-! ## Routing registers (R291, R292) -/

/-- The routing registers that may be written only where no core is attached or the barrier holds: ROUTE_CFG, the direction, slot and rank tables. -/
def routeTable (o : Nat) : Prop :=
  o = 0x8000 ∨ (0x8010 ≤ o ∧ o < 0x8028) ∨ (0x8030 ≤ o ∧ o < 0x8050) ∨ (0x10000 ≤ o ∧ o < 0x14000)

theorem routeTable_of_mem {a : Nat}
    (h : a ∈ [0x608000] ++ (List.range 6).map (fun j => 0x608010 + 4 * j) ++ (List.range 8).map (fun j => 0x608030 + 4 * j) ++
      (List.range 4096).map (fun j => 0x610000 + 4 * j)) : ∃ o, a = 0x600000 + o ∧ o % 4 = 0 ∧ routeTable o := by
  simp only [List.mem_append, List.mem_singleton, List.mem_map, List.mem_range] at h
  unfold routeTable
  rcases h with ((rfl | ⟨j, hj, rfl⟩) | ⟨j, hj, rfl⟩) | ⟨j, hj, rfl⟩
  · exact ⟨0x8000, rfl, rfl, .inl rfl⟩
  · exact ⟨0x8010 + 4 * j, by omega, by omega, by omega⟩
  · exact ⟨0x8030 + 4 * j, by omega, by omega, by omega⟩
  · exact ⟨0x10000 + 4 * j, by omega, by omega, by omega⟩

theorem exec_routeTable_shut {s : State} {o : Nat} {v : Word32} (ho : routeTable o) (h4 : o % 4 = 0) (hatt : s.anyAttached = true) (hph : s.bar.phase ≠ .held) :
    exec (.routingRegisterWrite (0x600000 + o) v) s = .next (State.record s 0x0444 5 0 0 0 0) := by
  unfold routeTable at ho
  rw [State.route_row (by omega) (by omega) (State.routeReg_some (by omega)) h4, State.route_shut (by omega) hatt hph (State.routeFree_no (by omega) (by omega))]

theorem exec_routeTable_put {s : State} {o : Nat} {v : Word32} (ho : routeTable o) (h4 : o % 4 = 0) (hopen : s.anyAttached = false ∨ s.bar.phase = .held) :
    exec (.routingRegisterWrite (0x600000 + o) v) s = .next (s.putRoute o v) := by
  unfold routeTable at ho
  rw [State.route_row (by omega) (by omega) (State.routeReg_some (by omega)) h4, State.route_put (by omega) (hopen.imp_right .inl)]

/-- PORT_ARB and CAL_SEL may be written at any time. -/
theorem exec_routeFree_put {s : State} {o : Nat} {v : Word32} (ho : o = 0x800C ∨ o = 0x8050) :
    exec (.routingRegisterWrite (0x600000 + o) v) s = .next (s.putRoute o v) := by
  rw [State.route_row (by omega) (by omega) (State.routeReg_some (by omega)) (by omega),
    State.route_put (by omega) (.inr (.inr (by rcases ho with rfl | rfl <;> rfl)))]

/-- ROUTE_SELF and the count of discards are read-only. -/
theorem exec_routeRo {s : State} {o : Nat} {v : Word32} (ho : o = 0x8004 ∨ o = 0x8008) : exec (.routingRegisterWrite (0x600000 + o) v) s = .next s := by
  rw [State.route_row (by omega) (by omega) (State.routeReg_some (by omega)) (by omega), State.writeRoute, if_pos ho]

section
variable (s : State) (v : Word32)

theorem State.putRoute_dir {j : Nat} (hj : j < 6) :
    s.putRoute (0x8010 + 4 * j) v = { s with route := { s.route with dir := s.route.dir.set j (v &&& 0x8000001F) } } := by
  unfold State.putRoute
  rw [if_neg (by omega), if_neg (by omega), if_pos (by omega), show (0x8010 + 4 * j - 0x8010) / 4 = j by omega]

theorem State.putRoute_slot {j : Nat} (hj : j < 8) :
    s.putRoute (0x8030 + 4 * j) v = { s with route := { s.route with slot := s.route.slot.set j (v &&& 0x8000001F) } } := by
  unfold State.putRoute
  rw [if_neg (by omega), if_neg (by omega), if_neg (by omega), if_pos (by omega), show (0x8030 + 4 * j - 0x8030) / 4 = j by omega]

theorem State.putRoute_rank {j : Nat} (hj : j < 4096) :
    s.putRoute (0x10000 + 4 * j) v = { s with route := { s.route with rank := putWord s.route.rank j (v &&& 0x83FFFFFF) } } := by
  unfold State.putRoute
  rw [if_neg (by omega), if_neg (by omega), if_neg (by omega), if_neg (by omega), if_neg (by omega), if_pos (by omega),
    show (0x10000 + 4 * j - 0x10000) / 4 = j by omega]

end

section Calendar
variable {p b i : Nat} (hp : p < 24) (hb : b < 2) (hi : i < 64)
include hp hb hi

theorem calAt_calendar : calAt (0xC000 + 0x200 * p + 0x100 * b + 4 * i) = some (p, b, 4 * i) := by
  rw [calAt, if_pos (by omega), show (0xC000 + 0x200 * p + 0x100 * b + 4 * i - 0xC000) / 0x200 = p by omega,
    show (0xC000 + 0x200 * p + 0x100 * b + 4 * i) / 0x100 % 2 = b by omega, show (0xC000 + 0x200 * p + 0x100 * b + 4 * i) % 0x100 = 4 * i by omega]

theorem State.putRoute_calendar (s : State) (v : Word32) :
    s.putRoute (0xC000 + 0x200 * p + 0x100 * b + 4 * i) v = s.modPort p fun x => { x with
      cal0 := if b = 0 then cellWrite x.cal0 (4 * i) (natToBytes (v &&& 0x9F9F9F9F).toNat 4) else x.cal0
      cal1 := if b = 1 then cellWrite x.cal1 (4 * i) (natToBytes (v &&& 0x9F9F9F9F).toNat 4) else x.cal1 } := by
  unfold State.putRoute
  rw [if_neg (by omega), if_neg (by omega), if_neg (by omega), if_neg (by omega), if_neg (by omega), if_neg (by omega), calAt_calendar hp hb hi]
  obtain rfl | rfl : b = 0 ∨ b = 1 := by omega
  · rfl
  · rfl

/-- The calendar bank in force is refused. -/
theorem exec_calendar_shut {s : State} {v : Word32} (hatt : s.anyAttached = true) (hph : s.bar.phase ≠ .held) (hact : b = 1 ↔ s.route.calActive = true) :
    exec (.routingRegisterWrite (0x60C000 + 0x200 * p + 0x100 * b + 4 * i) v) s = .next (State.record s 0x0444 5 0 0 0 0) := by
  rw [show 0x60C000 + 0x200 * p + 0x100 * b + 4 * i = 0x600000 + (0xC000 + 0x200 * p + 0x100 * b + 4 * i) by omega,
    State.route_row (by omega) (by omega) (State.routeReg_some (by omega)) (by omega),
    State.route_shut (by omega) hatt hph (by rw [State.routeFree_cal hp hb hi]; exact decide_eq_false (not_not.2 hact))]

theorem exec_calendar_put {s : State} {v : Word32} (hopen : s.anyAttached = false ∨ s.bar.phase = .held ∨ ¬(b = 1 ↔ s.route.calActive = true)) :
    exec (.routingRegisterWrite (0x60C000 + 0x200 * p + 0x100 * b + 4 * i) v) s =
      .next (s.putRoute (0xC000 + 0x200 * p + 0x100 * b + 4 * i) v) := by
  rw [show 0x60C000 + 0x200 * p + 0x100 * b + 4 * i = 0x600000 + (0xC000 + 0x200 * p + 0x100 * b + 4 * i) by omega,
    State.route_row (by omega) (by omega) (State.routeReg_some (by omega)) (by omega),
    State.route_put (by omega) (hopen.imp_right (.imp_right fun h => by rw [State.routeFree_cal hp hb hi]; exact decide_eq_true h))]

end Calendar

/-! ## Link ports (R259, R264, R269) -/

section Ports
variable {s : State} {p : Nat} {v : Word32} (hp : p < 24) (hl : s.ports.length = 24)
include hp hl

theorem reevaluate_idle (f : Port → Port) (hf : (f (s.port p)).trained = (s.port p).trained ∧ (f (s.port p)).rx = (s.port p).rx)
    (h : (s.port p).trained = false ∨ (s.port p).rx.known = false) : (s.modPort p f).reevaluate p = s.modPort p f := by
  rw [State.reevaluate, State.port_modPort_same _ _ _ (by omega), hf.1, hf.2, if_neg (by rcases h with h | h <;> simp [h])]

/-- A peer that answers where none is expected is EXTRA (R259). -/
theorem reevaluate_extra (f : Port → Port) (hf : (f (s.port p)).trained = (s.port p).trained ∧ (f (s.port p)).rx = (s.port p).rx)
    (ht : (s.port p).trained = true) (hk : (s.port p).rx.known = true) (he : bit (f (s.port p)).expect.toNat 31 = false) :
    (((s.modPort p f).reevaluate p).port p).state = .extra ∧ (((s.modPort p f).reevaluate p).port p).usable = false ∧
      ((s.modPort p f).reevaluate p).cores = s.cores := by
  have hport : (s.modPort p f).port p = f (s.port p) := State.port_modPort_same _ _ _ (by omega)
  rw [State.reevaluate, hport, hf.1, hf.2, ht, hk, Bool.and_self, if_pos rfl]
  exact State.evaluate_extra hp (by rw [State.modPort_ports, length_modAt, hl]) (by rw [hport]; exact he)

end Ports

theorem bit_two_of_and {x : Word32} (h : x &&& 4 = 0) : bit x.toNat 2 = false := by
  rw [bit, BitVec.testBit_toNat]
  simpa using congrArg (fun y : Word32 => y.getLsbD 2) h

section LinkCfg
variable {s : State} {p : Nat} {v n : Word32} (hn : n = if 14 ≤ p then v else v &&& ~~~4#32)
include hn

theorem State.writeLinkCfg_shut (hmoved : ((s.port p).cfg ^^^ n) &&& 0x1F4 ≠ 0) (hatt : s.anyAttached = true) :
    (s.writeLinkCfg p v).2 = State.record s 0x050B 2 p 0 0 0 := by
  simp only [State.writeLinkCfg, farPort, decide_eq_true_eq, ← hn]
  rw [if_pos (by simpa [hatt] using hmoved)]

/-- What a write of LINK_CFG that is not refused does: the port stops where ENABLE falls and starts where it rises, and a new COMPAT is a new evaluation. -/
theorem State.writeLinkCfg_open (hopen : ((s.port p).cfg ^^^ n) &&& 0x1F4 = 0 ∨ s.anyAttached = false) :
    ∃ t u : State, t = (if bit (s.port p).cfg.toNat 0 && !bit n.toNat 0 then (s.modPort p fun x => { x with cfg := n }).stopPort p .disabled true
        else (s.modPort p fun x => { x with cfg := n }).linkReview) ∧
      u = (if bit ((s.port p).cfg ^^^ n).toNat 2 then t.reevaluate p else t) ∧
      (s.writeLinkCfg p v).2 = (if (!bit (s.port p).cfg.toNat 0 && bit n.toNat 0) && u.board.tested then u.startPort p else u) := by
  refine ⟨_, _, rfl, rfl, ?_⟩
  simp only [State.writeLinkCfg, farPort, decide_eq_true_eq, ← hn]
  rw [if_neg]
  rw [Bool.and_eq_true, bne_iff_ne]
  rintro ⟨hmoved, hatt⟩
  exact hopen.elim hmoved fun hnone => Bool.false_ne_true (hnone.symm.trans hatt)

/-- Beside LINK_CFG itself, a write that is not refused keeps the cores and LINK_CFG of every port. -/
theorem State.writeLinkCfg_kept (hopen : ((s.port p).cfg ^^^ n) &&& 0x1F4 = 0 ∨ s.anyAttached = false) :
    CfgKept (s.modPort p fun x => { x with cfg := n }) (s.writeLinkCfg p v).2 := by
  obtain ⟨t, u, ht, hu, he⟩ := State.writeLinkCfg_open hn hopen
  have hstop : CfgKept (s.modPort p fun x => { x with cfg := n }) t := by
    rw [ht]
    split
    · exact CfgKept.stopPort _ p _ _
    · exact CfgKept.of_link (LinkKept.review _ _)
  have heval : CfgKept t u := by
    rw [hu]
    split
    · exact CfgKept.reevaluate t p
    · exact CfgKept.refl t
  rw [he]
  split
  · exact (hstop.trans heval).trans (CfgKept.startPort u p)
  · exact hstop.trans heval

theorem State.writeLinkCfg_off (hopen : ((s.port p).cfg ^^^ n) &&& 0x1F4 = 0 ∨ s.anyAttached = false) (hwas : bit (s.port p).cfg.toNat 0 = true)
    (hoff : bit n.toNat 0 = false) (hcompat : ((s.port p).cfg ^^^ n) &&& 4 = 0) :
    (s.writeLinkCfg p v).2 = (s.modPort p fun x => { x with cfg := n }).stopPort p .disabled true := by
  obtain ⟨t, u, ht, hu, he⟩ := State.writeLinkCfg_open hn hopen
  rw [hwas, hoff] at ht he
  rw [bit_two_of_and hcompat] at hu
  rw [he, hu, ht]
  rfl

end LinkCfg

/-- A port that stops is in its new state, and carries no traffic. -/
theorem State.stopPort_stopped {s : State} {p : Nat} {st : PortState} (quiet : Bool) (hp : p < 24) (hl : s.ports.length = 24) (hst : st ≠ .active) :
    ((s.stopPort p st quiet).port p).state = st ∧ ((s.stopPort p st quiet).port p).usable = false := by
  obtain ⟨u, hu⟩ : ∃ u, u = s.modPort p fun x => { x with state := st, downTick := s.tick, locks := 0, settling := false } := ⟨_, rfl⟩
  have hup : (u.port p).state = st := by rw [hu, State.port_modPort_same _ _ _ (by omega)]
  have hlen : u.ports.length = 24 := by rw [hu, State.modPort_ports, length_modAt, hl]
  rw [State.stopPort, ← hu]
  obtain ⟨-, -, hkept⟩ := LinkKept.review u quiet
  refine ⟨?_, State.review_unusable quiet hp hlen (State.bundleOk_inactive hp (by rwa [hup]))⟩
  rw [hkept p]
  exact hup

/-! ## The descriptor tables (R453) -/

theorem State.writeDesc_shut {s : State} (o : Nat) (v : Word32) (hatt : s.anyAttached = true) (hph : s.bar.phase ≠ .held) :
    (s.writeDesc o v).2 = State.record s 0x0463 5 0 0 0 0 := by
  rw [State.writeDesc, State.descOpen, hatt, if_pos (by simpa using hph)]
  rfl

section Descriptors
variable {s : State} {n w : Nat} (v : Word32) (hopen : s.anyAttached = false ∨ s.bar.phase = .held)
include hopen

theorem State.descOpen_of : s.descOpen = true := by
  rw [State.descOpen]
  rcases hopen with h | h <;> simp [h]

theorem State.writeDesc_ticket (hn : n < 256) (hw : w < 3) : (s.writeDesc (0x2000 + 16 * n + 4 * w) v).2 =
    { s with host := { s.host with tkt := putWord s.host.tkt (4 * n + w) (v &&& (if w = 0 then 0x8007FFFF else if w = 1 then 0x3FFFFFF else 0x1FFFF)) } } := by
  rw [State.writeDesc, State.descOpen_of hopen, if_neg (by decide), if_pos (by omega), show (0x2000 + 16 * n + 4 * w - 0x2000) / 4 = 4 * n + w by omega,
    show (0x2000 + 16 * n + 4 * w) / 4 % 4 = w by omega]
  obtain rfl | rfl | rfl : w = 0 ∨ w = 1 ∨ w = 2 := by omega
  · rfl
  · rfl
  · rfl

theorem State.writeDesc_output (hw : w < 2) : (s.writeDesc (0x3000 + 8 * n + 4 * w) v).2 =
    { s with host := { s.host with outd := putWord s.host.outd (2 * n + w) (v &&& (if w = 0 then 0x8000FFFF else 0x7FFFFFF)) } } := by
  rw [State.writeDesc, State.descOpen_of hopen, if_neg (by decide), if_neg (by omega), show (0x3000 + 8 * n + 4 * w - 0x3000) / 4 = 2 * n + w by omega,
    show (0x3000 + 8 * n + 4 * w) / 4 % 2 = w by omega]
  rfl

end Descriptors

/-! ## Latching reads (R104) -/

theorem exec_latchingRead_block {s : State} {a : Nat} (ha : a < 0x10000000) (h : isLatching a = true) :
    exec (.latchingRead a) s = .next (s.blockLatch (a / 0x100000) (a % 0x100000)) := by
  simp only [exec, execLatchingRead, h, if_true, State.regRead, coreAt_none ha]

theorem energyAt_rail {d : Nat} (hd : d < 5) : energyAt (0x10 + 8 * d) = some (1 + d, false) := by
  rw [energyAt, if_neg (by omega), if_neg (by omega), if_pos (by omega), show (0x10 + 8 * d - 0x10) / 8 = d by omega, show (0x10 + 8 * d) % 8 = 0 by omega]
  rfl

/-- Beside the energy of the module, those of the five rails are latched by a read of their low word. -/
theorem exec_latchingRead_rail {s : State} {d : Nat} (hd : d < 5) :
    exec (.latchingRead (0xB00010 + 8 * d)) s =
      .next { s with tel := { s.tel with latch := s.tel.latch.set (1 + d) (hi32 (s.tel.energy.getD (1 + d) 0)) } } := by
  have hblock : (0xB00010 + 8 * d) / 0x100000 = 11 := by omega
  have hoff : (0xB00010 + 8 * d) % 0x100000 = 0x10 + 8 * d := by omega
  have hlatch : isLatching (0xB00010 + 8 * d) = true := by
    rw [isLatching, coreAt_none (by omega)]
    simp [hblock, hoff, energyAt_rail hd]
  rw [exec_latchingRead_block (by omega) hlatch, hblock, hoff]
  show Host.Outcome.next (s.modTel fun t => t.latchAt (0x10 + 8 * d)) = _
  simp only [State.modTel, Telemetry.latchAt, energyAt_rail hd]

/-! ## A register without a row of its own (R23, R437, R497) -/

/-- The management interface and a proved session write every block once the module is READY. -/
theorem State.permits_ready {s : State} {w : Who} (a : Nat)
    (hw : w = .mgmt ∨ ∃ n x, w = .session n ∧ keyGet s.host.sessions n = some x ∧ x.proved = true) (hready : s.sec.stage = .ready) :
    s.permits w true a = true := by
  rcases hw with rfl | ⟨n, x, rfl, hx, hproved⟩
  · simp [State.permits, hready]
  · simp [State.permits, State.proved, hready, hx, hproved]

theorem exec_registerWrite {s : State} {w : Who} {a : Nat} (v : Word32) (hperm : s.permits w true a = true) (h4 : a % 4 = 0) (ha : a < 2 ^ 32)
    (hrow : hasRow a v = false) :
    exec (.registerWrite w a v) s = .next (s.regWrite w a v).2 := by
  simp only [exec, execRegisterWrite]
  rw [if_pos ⟨h4, ha, by rw [hrow]; rfl, hperm⟩]

/-- Between the last block and the core blocks nothing takes a write. -/
theorem State.regWrite_unmapped {s : State} {w : Who} {a : Nat} {v : Word32} (hlo : 0xC00000 ≤ a) (hhi : a < 0x10000000) : s.regWrite w a v = (.unmapped, s) := by
  have hb : 12 ≤ a / 0x100000 := by omega
  unfold State.regWrite
  rw [coreAt_none hhi]
  dsimp only
  iterate 12 rw [if_neg (by omega)]

theorem exec_registerWrite_unmapped {s : State} {w : Who} {a : Nat} {v : Word32} (hlo : 0xC00000 ≤ a) (hhi : a < 0x10000000) :
    exec (.registerWrite w a v) s = .next s := by
  simp only [exec, execRegisterWrite, State.regWrite_unmapped hlo hhi, ite_self]

/-! ## REGION_NEXT (R72, R198) -/

/-- A description of a region to come after the write of its word j. -/
def RegionNext.put (x : RegionNext) (j : Nat) (v : Word32) : RegionNext :=
  { w0 := if j = 0 then v &&& 0x807FFFFF else x.w0, w1 := if j = 1 then v &&& 0x7FFFF else x.w1, w2 := if j = 2 then v &&& 0x800FFFFF else x.w2 }

/-- A core after the write of a word of REGION_NEXT in cycle t: the host's write is remembered beside what SX writes in the cycle. -/
def Core.nextPut (c : Core) (n j : Nat) (v : Word32) (t : Nat) : Core :=
  { c with
    regs := { c.regs with next := modAt c.regs.next n fun x => x.put j v }
    ctl := { c.ctl with hostCycle := t, hostWords := markPut (if c.ctl.hostCycle = t then c.ctl.hostWords else []) (0x1800 + 16 * n + 4 * j) } }

section RegionNext
variable {s : State} {k n j : Nat} (v : Word32) (hn : n < 64) (hj : j < 3)
include hn hj

theorem State.coreMapped_next : s.coreMapped k (0x1800 + 16 * n + 4 * j) = true := by
  refine State.coreMapped_of_reg (by omega) ?_
  rw [State.coreReg, if_neg (by omega), if_pos (by omega), Core.readMem, if_neg (by omega), if_neg (by omega), if_neg (by omega), if_neg (by omega),
    if_neg (by omega), if_neg (by omega), if_neg (by omega), if_neg (by omega), if_pos]
  · rfl
  · simp only [descDefined, Bool.or_eq_true, Bool.and_eq_true, decide_eq_true_eq]
    omega

theorem State.coreWrite_next : (s.coreWrite k (0x1800 + 16 * n + 4 * j) v).2 =
    s.modCore k fun c => c.modRegs fun r => { r with next := modAt r.next n fun x => x.put j v } := by
  rw [State.coreWrite, if_neg (by omega), if_pos (by omega), State.writeMem, if_neg (by omega), if_neg (by omega), if_neg (by omega), if_neg (by omega),
    if_neg (by omega), if_neg (by omega), if_pos (by omega), State.writeRegionNext, show (0x1800 + 16 * n + 4 * j - 0x1800) / 16 = n by omega,
    show (0x1800 + 16 * n + 4 * j) / 4 % 4 = j by omega]
  obtain rfl | rfl | rfl : j = 0 ∨ j = 1 ∨ j = 2 := by omega
  · rfl
  · rfl
  · rfl

theorem hasRow_next (hk : k < 768) : hasRow (0x10000000 + 0x40000 * k + (0x1800 + 16 * n + 4 * j)) v = false := by
  rw [hasRow, coreAt_some hk (by omega)]
  simp only [isLcDecl, isWindow, isBin, isRegion, isAperture, isVmap, isPatch, Bool.or_eq_false_iff, Bool.and_eq_false_iff, beq_eq_false_iff_ne,
    decide_eq_false_iff_not]
  omega

theorem AwakeAt.exec_regionNext (h : AwakeAt s k) {w : Who} (hperm : ∀ a, s.permits w true a = true) :
    exec (.registerWrite w (0x10000000 + 0x40000 * k + (0x1800 + 16 * n + 4 * j)) v) s = .next (s.modCore k fun c => c.nextPut n j v s.now) := by
  have hk := h.lt
  rw [exec_registerWrite v (hperm _) (by omega) (by omega) (hasRow_next v hn hj hk), State.regWrite, coreAt_some hk (by omega)]
  dsimp only
  rw [h.hostWrite v (State.coreMapped_next hn hj)]
  dsimp only
  rw [State.coreWrite_next v hn hj, State.noteHost, if_pos (by omega), State.modCore_modCore]
  rfl

end RegionNext

/-! ## FAULT_CTRL and HT_CTRL (R432, R442) -/

theorem State.writeFaults_ctrl (s : State) {v : Word32} (hclear : bit v.toNat 4 = false) :
    (s.writeFaults 0x0C v).2 = s.modFaults fun f => { f with rerunMax := bits v.toNat 3 0, notify := bits v.toNat 24 16 } := by
  rw [State.writeFaults, if_neg (by decide), if_pos rfl, hclear]
  rfl

theorem State.writeHtCtrl_eq (s : State) (v : Word32) : s.writeHtCtrl v = { s with host := { s.host with
      ctrl := v &&& 0xFFFFFF07
      outputs := if keyGet s.host.sessions (bits s.host.ctrl.toNat 2 0) = none ∧ keyGet s.host.sessions (bits v.toNat 2 0) ≠ none then
          s.host.outputs.map fun o => { o with sent := o.acked, tick := s.tick } else s.host.outputs } } := by
  have hcond : (keyGet s.host.sessions (bits s.host.ctrl.toNat 2 0)).isNone && (keyGet s.host.sessions (bits v.toNat 2 0)).isSome ↔
      keyGet s.host.sessions (bits s.host.ctrl.toNat 2 0) = none ∧ keyGet s.host.sessions (bits v.toNat 2 0) ≠ none := by
    rw [Bool.and_eq_true, Option.isNone_iff_eq_none, Option.isSome_iff_ne_none]
  simp only [State.writeHtCtrl, hcond]
  split
  · rfl
  · rfl

/-! ## The statement -/

/-- Settles O59: each row reaches one part of its block, and that part stores the word or records the refusal. -/
theorem blockWrites : Obligations.BlockWrites := by
  unfold Obligations.BlockWrites
  refine ⟨fun s => rfl, fun s v => ?tail, fun s p hp => ?clear, fun s v => ?routing, fun s p v f a hp hl => ?links, fun s v a ph g hrow => ?barrier,
    fun s v n w => ?descriptors, fun s => ?latches, fun s w v hw hready => ?registers⟩
  case tail =>
    have he : exec (.faultLogTailWrite v) s = .next (s.modFaults fun f => f.consume v) := rfl
    rw [he]
    refine ⟨fun h => ?_, fun h => ?_⟩
    · rw [State.modFaults, FaultLog.consume, if_pos h]
    · rw [State.modFaults, FaultLog.consume, if_neg (by omega)]
  case clear =>
    simp only [exec, execClrErr]
    rw [if_pos hp]
    rfl
  case routing =>
    refine ⟨fun a ha hatt hph => ?_, exec_routeFree_put (.inl rfl), exec_routeFree_put (.inr rfl), fun a ha => ?_, fun hopen => ?_, fun p b i hp hb hi => ?_⟩
    · obtain ⟨o, rfl, h4, ho⟩ := routeTable_of_mem ha
      exact exec_routeTable_shut ho h4 hatt hph
    · simp only [List.mem_cons, List.not_mem_nil, or_false] at ha
      rcases ha with rfl | rfl
      · exact exec_routeRo (.inl rfl)
      · exact exec_routeRo (.inr rfl)
    · refine ⟨exec_routeTable_put (.inl rfl) rfl hopen, fun j hj => ?_, fun j hj => ?_, fun j hj => ?_⟩
      · rw [← State.putRoute_dir s v hj, show 0x608010 + 4 * j = 0x600000 + (0x8010 + 4 * j) by omega]
        exact exec_routeTable_put (by unfold routeTable; omega) (by omega) hopen
      · rw [← State.putRoute_slot s v hj, show 0x608030 + 4 * j = 0x600000 + (0x8030 + 4 * j) by omega]
        exact exec_routeTable_put (by unfold routeTable; omega) (by omega) hopen
      · rw [← State.putRoute_rank s v hj, show 0x610000 + 4 * j = 0x600000 + (0x10000 + 4 * j) by omega]
        exact exec_routeTable_put (by unfold routeTable; omega) (by omega) hopen
    · refine ⟨exec_calendar_shut hp hb hi, fun hopen => ?_⟩
      rw [exec_calendar_put hp hb hi hopen, State.putRoute_calendar hp hb hi]
      rfl
  case links =>
    refine ⟨fun ha => ?expect, fun n hn => ?cfg⟩
    case expect =>
      have hsame := expect_same ha (s.port p)
      rw [expect_row hp ha]
      refine ⟨fun hidle => ?_, fun htrained hknown hexpect => ?_⟩
      · exact congrArg Host.Outcome.next (reevaluate_idle hp hl f hsame hidle)
      · exact ⟨_, rfl, reevaluate_extra hp hl f hsame htrained hknown hexpect⟩
    case cfg =>
      rw [cfg_row hp]
      refine ⟨fun hmoved hatt => ?_, fun hopen => ?_⟩
      · rw [State.writeLinkCfg_shut hn hmoved hatt]
      · obtain ⟨hcores, hcfg⟩ := State.writeLinkCfg_kept hn hopen
        refine ⟨_, rfl, hcores, ?_, fun q hq => ?_, fun hwas hoff hactive hcompat => ?_⟩
        · rw [hcfg, State.port_modPort_same _ _ _ (by omega)]
        · rw [hcfg, State.port_modPort_other _ _ _ _ hq]
        · rw [State.writeLinkCfg_off hn hopen hwas hoff hcompat]
          exact State.stopPort_stopped true hp (by rw [State.modPort_ports, length_modAt, hl]) (by decide)
  case barrier =>
    obtain ⟨o, rfl, h4, hphase, hput⟩ : ∃ o, a = 0x900000 + o ∧ o % 4 = 0 ∧ barPhase o = some ph ∧ ∀ b : Barrier, b.put o v = g b := by
      rcases hrow with ⟨rfl, rfl, rfl⟩ | ⟨rfl, rfl, rfl⟩ | ⟨rfl, rfl, rfl⟩ | ⟨rfl, rfl, rfl⟩ | ⟨rfl, rfl, rfl⟩ | ⟨rfl, rfl, rfl⟩ | ⟨n, hn, rfl, rfl, rfl⟩
      · exact ⟨0x00, rfl, rfl, rfl, fun _ => rfl⟩
      · exact ⟨0x04, rfl, rfl, rfl, fun _ => rfl⟩
      · exact ⟨0x10, rfl, rfl, rfl, fun _ => rfl⟩
      · exact ⟨0x14, rfl, rfl, rfl, fun _ => rfl⟩
      · exact ⟨0x18, rfl, rfl, rfl, fun _ => rfl⟩
      · exact ⟨0x20, rfl, rfl, rfl, fun _ => rfl⟩
      · obtain ⟨hphase, hput⟩ := bar_mask hn v
        exact ⟨0x100 + 4 * n, by omega, by omega, hphase, hput⟩
    rw [bar_row o h4 hphase hput]
    refine ⟨fun h => ?_, fun h => ?_⟩
    · rw [if_pos h]
    · rw [if_neg h]
      exact ⟨s.barDetail, rfl⟩
  case descriptors =>
    refine ⟨fun hn hw => ?tickets, fun hn hw => ?outputs⟩
    case tickets =>
      rw [desc_row (.inl ⟨n, w, hn, hw, rfl⟩), show 0x702000 + 16 * n + 4 * w - 0x700000 = 0x2000 + 16 * n + 4 * w by omega]
      refine ⟨fun hatt hph => ?_, fun hopen => ?_⟩
      · rw [State.writeDesc_shut _ v hatt hph]
      · rw [State.writeDesc_ticket v hopen hn hw]
    case outputs =>
      rw [desc_row (.inr ⟨n, w, hn, hw, rfl⟩), show 0x703000 + 8 * n + 4 * w - 0x700000 = 0x3000 + 8 * n + 4 * w by omega]
      refine ⟨fun hatt hph => ?_, fun hopen => ?_⟩
      · rw [State.writeDesc_shut _ v hatt hph]
      · rw [State.writeDesc_output v hopen hw]
  case latches =>
    exact ⟨exec_latchingRead_block (by decide) rfl, exec_latchingRead_block (by decide) rfl, exec_latchingRead_block (by decide) rfl,
      exec_latchingRead_block (by decide) rfl, exec_latchingRead_block (by decide) rfl, exec_latchingRead_block (by decide) rfl,
      exec_latchingRead_block (by decide) rfl, fun p hp => ⟨latch_link hp (.inl rfl), latch_link hp (.inr rfl)⟩,
      exec_latchingRead_block (by decide) rfl, fun d hd => exec_latchingRead_rail hd⟩
  case registers =>
    have hperm := fun a => State.permits_ready a hw hready
    refine ⟨exec_registerWrite v (hperm _) rfl (by decide) rfl, exec_registerWrite v (hperm _) rfl (by decide) rfl,
      exec_registerWrite v (hperm _) rfl (by decide) rfl, exec_registerWrite v (hperm _) rfl (by decide) rfl,
      exec_registerWrite v (hperm _) rfl (by decide) rfl, ?htCtrl, fun hclear => ?faultCtrl, fun a _ hlo hhi => exec_registerWrite_unmapped hlo hhi,
      fun k n j hk hn hj hmain hon hrun => ?next⟩
    case htCtrl =>
      rw [exec_registerWrite v (hperm _) rfl (by decide) rfl, ← State.writeHtCtrl_eq]
      rfl
    case faultCtrl =>
      have hrow : hasRow 0x40000C v = false := by simp [hasRow, coreAt, hclear]
      rw [exec_registerWrite v (hperm _) rfl (by decide) hrow]
      exact congrArg Host.Outcome.next (s.writeFaults_ctrl hclear)
    case next =>
      have hawake : AwakeAt s k := ⟨hk, hmain, .inl hon, hrun⟩
      rw [show 0x10000000 + 0x40000 * k + 0x1800 + 16 * n + 4 * j = 0x10000000 + 0x40000 * k + (0x1800 + 16 * n + 4 * j) by omega]
      exact hawake.exec_regionNext v hn hj hperm

end Sys2Proof.Machine

/-! SUPPORT. The vector chain: the loads of its slots, the issue of a run, a vector that enters, the line writes and the end of a run. -/

namespace Sys2Proof.Machine

/-! ## Issue of a VCFG or a VTAB (R128) -/

/-- The load that a VCFG or a VTAB issued in cycle u puts in flight: its lines are read in cycles u + 1 to u + n. -/
def Vx.loadOf (v : Vx) (tab : Bool) (slot line n u : Nat) (o : Owed) : TabOp :=
  { owed := o, issue := u, tab := tab, slot := slot, lines := n, words := [], refused := false
    fetch := (List.range n).map fun j => { due := u + 1 + j, row := 0, what := .table, line := ((line + j : Nat) : Int) }
    due := max (u + n + 1) (after v.lastExit) }

/-- The core after a load has issued in cycle u: the next VX instruction issues n cycles later. -/
def Core.loadIssues (c : Core) (x : TabOp) : Core :=
  (c.modStream .vx fun t => { t with ready := x.issue + x.lines }).modVx fun v => { v with loads := v.loads ++ [x] }

theorem State.issueTab_allowed {s : State} {k slot line n : Nat} {tab : Bool} {o : Owed} (hreads : (s.core k).heads = [])
    (hread : (s.core k).readCode false line n = none) :
    s.issueTab k tab slot line n o false = s.modCore k fun c => c.loadIssues ((s.core k).vx.loadOf tab slot line n s.now o) := by
  simp only [State.issueTab, State.fetchBefore_none hreads, hread, Option.isSome_none, Bool.or_false, Bool.false_eq_true, if_false,
    State.setReady, State.modStream, State.modCore_modCore]
  rfl

/-- A VCFG, or with tab a VTAB, whose lines may be read. -/
theorem exec_load_allowed {s : State} {k i w u slot line n : Nat} {tab : Bool} (h : EngIssues s k .vx i w u (s.core k).vxs.ready)
    (hreads : (s.core k).heads = [])
    (hform : hOpc w = 1 ∧ tab = false ∧ slot = w % 8 ∧ line = w / 2 ^ 3 % 2 ^ 14 ∧ n = 1 ∨
      hOpc w = 2 ∧ tab = true ∧ slot = w % 16 ∧ line = w / 2 ^ 4 % 2 ^ 14 ∧ n = w / 2 ^ 18 % 2 + 1)
    (hread : (s.core k).readCode false line n = none) :
    exec (if tab then .vtab k else .vcfg k) s = .next ((s.advance u).modCore k fun c =>
      (c.engGoes .vx i w u).loadIssues ((s.core k).vx.loadOf tab slot line n u (owedOf w i))) := by
  have hbound : s.boundOf k .vx = (s.core k).vxs.ready := State.boundOf_eq h.calm hreads
  have hissue := State.issueTab_allowed (s := (s.advance u).modCore k fun c => c.engGoes .vx i w u) (k := k) (slot := slot) (tab := tab)
    (o := owedOf w i) (line := line) (n := n) (by rw [h.issued_core, Core.engGoes_heads]; exact hreads) (by rw [h.issued_core]; exact hread)
  rw [State.modCore_modCore, h.issued_now, h.issued_core] at hissue
  obtain ⟨hop, rfl, hslot, hline, hn⟩ | ⟨hop, rfl, hslot, hline, hn⟩ := hform
  case inl =>
    show execVcfg k s = _
    have hslot' : vcSlot w = slot := by simp [vcSlot, bits, hslot]
    have hline' : vcLine w = line := by rw [hline]; rfl
    rw [execVcfg, hbound, State.issueOp_ready h (by simp [wantOp, hop]), hslot', hline', ← hn, hissue]
    rfl
  case inr =>
    show execVtab k s = _
    have hslot' : vtSlot w = slot := by simp [vtSlot, bits, hslot]
    have hline' : vtLine w = line := by rw [hline]; rfl
    have hlines : vtLines w = n := by rw [hn]; rfl
    rw [execVtab, hbound, State.issueOp_ready h (by simp [wantOp, hop]), hslot', hline', hlines, hissue]
    rfl

/-! ## A load takes effect (R111, R128) -/

theorem State.lateChecks_none {s : State} {k slot due n : Nat} (h : lateRun slot (s.core k).vx.runs = none) :
    s.lateChecks k slot due n = s := by
  cases n with
  | zero => rfl
  | succ n => rw [State.lateChecks, h]

theorem exec_tableLoadComplete_alone {s : State} {k : Nat} {x : TabOp} (hcalm : s.overs = []) (hreads : (s.core k).heads = [])
    (hfirst : firstLoad (s.core k).vx.loads = some x) (hdue : s.now ≤ x.due) (hends : x.owed.ends = [])
    (hroom : (s.core k).sync.roomFor x.due x.owed = true) (hlate : x.tab = false → lateRun x.slot (s.core k).vx.runs = none) :
    exec (.tableLoadComplete k) s = .next ((s.advance x.due).modCore k fun c => (c.modVx fun v => v.load x).completed x.due x.owed) := by
  have hcore := State.advance_core hcalm x.due k
  have hnow : (s.advance x.due).now = x.due := by rw [State.advance_now, Nat.max_eq_right hdue]
  have hcycle : s.toCycle k (fun s => ((firstLoad (s.core k).vx.loads).map (·.due)).getD 0) ((s.core k).owedReads + 1) = s.advance x.due :=
    State.toCycle_none hcalm hreads (fun u => by rw [State.advance_core hcalm, hfirst]; rfl) (by rw [hfirst]; rfl)
  have hdone : ((s.advance x.due).modCore k fun c => c.modVx fun v => v.load x).complete k .vx x.owed =
      (s.advance x.due).modCore k fun c => (c.modVx fun v => v.load x).completed x.due x.owed := by
    rw [State.complete_eq hends (by rw [hcore, hnow]; exact hroom), hnow]
  show execTableLoadComplete k s = _
  simp only [execTableLoadComplete, hfirst, hcycle, hcore, Option.getD_some, hdone]
  cases htab : x.tab with
  | true => rfl
  | false =>
    rw [if_neg Bool.false_ne_true, State.lateChecks_none]
    rw [State.core_modCore_same, hcore]
    exact hlate htab

/-! ## Issue of a VRUN (R127) -/

theorem exec_vrun_allowed {s : State} {k i w u f : Nat} {o : VrunOp} (h : EngIssues s k .vx i w u (s.core k).vxs.ready) (hop : hOpc w = 3)
    (hreads : (s.core k).heads = []) (hloads : (s.core k).vx.loads = []) (hsbin : w.testBit 50 = false) (hobin : w.testBit 51 = false)
    (ho : o = (s.core k).vrunOp w u (owedOf w i)) (hcfg : o.cfgPoison = false → cfgBad o.cfg o.src o.sslot o.oslot = none)
    (hgo : o.cfgPoison = false → (s.core k).vrunRefusal u o = none) (hf : f = (s.core k).vrunFirst s.ctEV u o) :
    exec (.vrun k) s = .next ((s.advance u).modCore k fun c => (c.engGoes .vx i w u).vrunGoes s.ctEV f o) := by
  show execVrun k s = _
  rw [execVrun, State.boundOf_eq h.calm hreads]
  exact congrArg Host.Outcome.next ((State.issueOp_ready h (by simp [wantOp, hop])).trans
    (State.vrun_goes h.calm h.now_le hreads hloads hsbin hobin ho hcfg hgo hf))

/-! ## A vector enters the chain (R107 to R109, R127) -/

/-- The chain after the next vector of the run o has entered in cycle u: the running states, the counts of clamped and out-of-range lanes, and the
run with what leaves the chain. -/
def Vx.vectorEnters (v : Vx) (o : VrunOp) (u : Nat) (a : ChainAcc) : Vx :=
  { v with reduce := a.red, vecs := v.vecs + 1, oor := satInc v.oor a.oor, satOut := satInc v.satOut a.sat
           runs := updRun VrunOp.entering (fun _ =>
             { ({ o with got := o.keepLines o.sline o.entered }.emit (u + chainLen o.cfg) a) with
               entered := o.entered + 1, oorSeen := o.oorSeen || a.firstOor.isSome }) v.runs }

theorem VrunOp.inLanes_some {o : VrunOp} {j : Nat} {ls : List Lane} (h : o.inLanes j = some ls) :
    ∃ ws sc, o.held .data o.src o.sline o.sslot j = some ws ∧
      (if cScaled o.cfg then gotLine o.got .scale (scaleAddr (cSscword o.cfg) (rplOf o.src) o.sline (cSdbase o.cfg) o.sslot j / 64)
        else some []) = some sc ∧
      ls = (lanesOf o.src ws).zipIdx.map fun p =>
        let w := sc.getD (wrapU 6 (scaleAddr (cSscword o.cfg) (rplOf o.src) o.sline (cSdbase o.cfg) o.sslot j)) ⟨0, false⟩
        { val := if cScaled o.cfg then p.1.1 * ((bits w.val.toNat (8 * (p.2 / 32) + 7) (8 * (p.2 / 32)) : Nat) : Int) else p.1.1
          pred := true
          poison := p.1.2 || o.cfgPoison || (cScaled o.cfg && w.poison) } := by
  unfold VrunOp.inLanes at h
  dsimp only at h
  split at h
  next ws sc hws hsc => exact ⟨ws, sc, hws, hsc, (Option.some.inj h).symm⟩
  next => cases h

/-- The scale line of a vector, where the run is scaled, is one that the run has read. -/
theorem State.scaleLine_got {s : State} {k : Nat} {o : VrunOp} {line : Int} {scaled : Bool} {sc : List (PWord 32)}
    (h : (if scaled then gotLine o.got .scale line else some []) = some sc) :
    (if scaled then s.vxLine k o .scale line else ([], s)) = (sc, s) := by
  cases scaled with
  | true => exact State.vxLine_got h
  | false => cases h; rfl

theorem State.stream_held {s : State} {k : Nat} {o : VrunOp} {j : Nat} {str : List (Int × Bool)} (h : o.stream j = some str) :
    (if cBen o.cfg then (lanesOf (strFmt o.cfg) (s.vxVector k o .stream (strFmt o.cfg) (cBline o.cfg) 0 j).1,
      (s.vxVector k o .stream (strFmt o.cfg) (cBline o.cfg) 0 j).2) else (([] : List (Int × Bool)), s)) = (str, s) := by
  unfold VrunOp.stream at h
  cases hben : cBen o.cfg with
  | true =>
    rw [hben, if_pos rfl, Option.map_eq_some_iff] at h
    obtain ⟨ws, hws, rfl⟩ := h
    rw [if_pos rfl, State.vxVector_held hws]
  | false => rw [hben] at h; cases h; rfl

theorem State.toEntry_none {s : State} {k : Nat} {o : VrunOp} (hcalm : s.overs = []) (hreads : (s.core k).heads = [])
    (hrun : (s.core k).vx.runs.find? VrunOp.entering = some o) : s.toEntry k = s.advance o.enterAt :=
  State.toCycle_none hcalm hreads (fun u => by rw [State.advance_core hcalm, hrun]; rfl) (by rw [hrun]; rfl)

/-! ### The record of a lane out of range (R121) -/

theorem State.noteOor_cases (s : State) (k : Nat) (o : VrunOp) (a : ChainAcc) :
    s.noteOor k o a = s ∨ ∃ detail, s.noteOor k o a = s.faultAt k .vx o.owed.index 0x0162 detail := by
  unfold State.noteOor State.vxFault
  split
  next =>
    cases o.oorSeen
    case true => exact .inl rfl
    case false =>
      cases o.cfgPoison
      case true => exact .inl rfl
      case false => exact .inr ⟨_, rfl⟩
  next => exact .inl rfl

@[simp] theorem State.noteOor_now (s : State) (k : Nat) (o : VrunOp) (a : ChainAcc) : (s.noteOor k o a).now = s.now := by
  obtain h | ⟨detail, h⟩ := s.noteOor_cases k o a <;> simp [h]

@[simp] theorem State.noteOor_core (s : State) (k : Nat) (o : VrunOp) (a : ChainAcc) (j : Nat) : (s.noteOor k o a).core j = s.core j := by
  obtain h | ⟨detail, h⟩ := s.noteOor_cases k o a <;> simp [h]

theorem State.noteOor_silent {s : State} {k : Nat} {o : VrunOp} {a : ChainAcc}
    (h : a.firstOor = none ∨ o.oorSeen = true ∨ o.cfgPoison = true) : s.noteOor k o a = s := by
  unfold State.noteOor State.vxFault
  rcases h with h | h | h
  · rw [h]
  all_goals split <;> simp [h]

theorem State.noteOor_recorded {s : State} {k l : Nat} {o : VrunOp} {a : ChainAcc} (hfirst : a.firstOor = some l) (hseen : o.oorSeen = false)
    (hcfg : o.cfgPoison = false) : Recorded s (s.noteOor k o a) 0x0162 := by
  rw [State.noteOor, hfirst]
  simp only [hseen, State.vxFault, hcfg, Bool.false_eq_true, if_false]
  exact State.faultAt_recorded ..

/-- The entry of a vector whose lines the run has read. -/
theorem exec_vrunVectorEntry_held {s : State} {k : Nat} {o : VrunOp} {ls : List Lane} {str : List (Int × Bool)} {a : ChainAcc}
    (hcalm : s.overs = []) (hrun : (s.core k).vx.runs.find? VrunOp.entering = some o) (hreads : (s.core k).heads = []) (hdue : s.now ≤ o.enterAt)
    (hsrc : o.src ≠ fmtAcc) (hslot : o.slot = none) (hbad : o.readBad = false) (hls : o.inLanes o.entered = some ls)
    (hstr : o.stream o.entered = some str)
    (ha : a = runChain { tabs := (s.core k).vx.tab, b := str, snap := o.snap } 0
      { lanes := ls, red := if o.entered = 0 then emptyStates 0 (s.core k).vx.reduce (cChain o.cfg) else (s.core k).vx.reduce }
      (cChain o.cfg)) :
    exec (.vrunVectorEntry k) s = .next (((s.advance o.enterAt).noteOor k o a).modCore k fun c => c.modVx fun v => v.vectorEnters o o.enterAt a) := by
  have hcore := State.advance_core hcalm o.enterAt k
  have hnow : ((s.advance o.enterAt).noteOor k o a).now = o.enterAt := by rw [State.noteOor_now, State.advance_now, Nat.max_eq_right hdue]
  obtain ⟨ws, sc, hws, hsc, rfl⟩ := VrunOp.inLanes_some hls
  have hacc : (o.src == fmtAcc) = false := by simpa using hsrc
  show execVrunVectorEntry k s = _
  -- Each read of the entry is one of the lines held, and no fault of a read comes in: what is left is the chain's result `a`.
  simp only [execVrunVectorEntry, hrun, hsrc, false_and, if_false, State.enterVector, State.toEntry_none hcalm hreads hrun, hcore, Option.getD_some, hacc,
    hslot, hbad, Bool.not_false, Bool.and_true, Bool.false_and, Bool.false_eq_true, State.scaleLine_got hsc, State.vxVector_held hws,
    State.stream_held hstr, Bool.or_false, ← ha, hnow, Vx.vectorEnters]

/-! ## A line of a run is written (R124, R127) -/

theorem Core.outLine_plain {c : Core} {t : Nat} {o : VrunOp} (hbin : o.obin = none) (htaken : o.oslotTaken = none) : c.outLine t o = o.oline := by
  rw [Core.outLine, htaken, hbin]

/-- A run without scale words writes its oldest data line next. -/
theorem VrunOp.nextWrite_data {o : VrunOp} {x : OutWrite} {rest : List OutWrite} (houts : o.outs = x :: rest) (hscale : o.scaleWords = [])
    (line : Nat) : o.nextWrite line = some (false, x.due, (x.line : Int), x.words) := by
  simp only [VrunOp.nextWrite, houts, hscale]
  rfl

/-- The core after the words of one line have been written: the line counts for its APPEND region, and the words stand in the scratchpad and in the
write sum. -/
def Core.lineStored (c : Core) (line w : Nat) (ws : List (PWord 32)) (sum : Word64) : Core :=
  { c.raiseHigh false line 1 with mem := { c.mem with scr := putScrWords c.mem.scr w ws }, ctl := { c.ctl with twinSum := sum } }

theorem Core.writeCode_inside {c : Core} {line n : Nat} (h : c.writeCode false line n = none) : line + n ≤ scrLines := by
  by_contra hout
  simp [Core.writeCode, Nat.lt_of_not_le hout] at h

theorem State.vxWrite_allowed {s : State} {k line p : Nat} {o : VrunOp} {ws : List (PWord 32)} (hreads : (s.core k).heads = [])
    (hgo : (s.core k).writeCode false line 1 = none) (hne : ws ≠ []) (hclean : ∀ y ∈ ws, y.poison = false) :
    ∃ sum, s.vxWrite k o line (ws.zipIdx.map fun y => (p + y.2, y.1)) = s.modCore k fun c => c.lineStored line (64 * line + p) ws sum := by
  obtain ⟨hplace, hwords⟩ := zipIdx_places (p := p) hne
  have hin : spanOut (line : Int) 1 = false := by
    have hle := Core.writeCode_inside hgo
    rw [spanOut, decide_eq_false (by omega), decide_eq_false (by omega)]; rfl
  obtain ⟨sum, hput⟩ := State.putWords_clean (s := s.modCore k fun c => c.raiseHigh false line 1) (k := k) (eng := engCode .vx) (w := 64 * line + p)
    (by rw [State.core_modCore_same]; exact hreads) hclean
  refine ⟨sum, ?_⟩
  simp only [State.vxWrite, hin, Bool.false_eq_true, if_false, Int.toNat_natCast, hgo, hplace, hwords, hput, State.modCore_modCore]
  rfl

/-- VRUN_LINE_WRITE, where the run that writes has a data line and no scale words. -/
theorem exec_vrunLineWrite_data {s : State} {k : Nat} {o : VrunOp} {x : OutWrite} {rest : List OutWrite}
    (hrun : (s.core k).vx.runs.find? ((s.core k).hasWrite s.now) = some o) (houts : o.outs = x :: rest) (hscale : o.scaleWords = []) :
    exec (.vrunLineWrite k) s = .next (s.writeNext k o false x.due x.line x.words) := by
  show execVrunLineWrite k s = _
  simp only [execVrunLineWrite, hrun, VrunOp.nextWrite_data houts hscale]

/-- The core after a data line of a run has taken its bank slot in cycle u. -/
def Core.lineClaims (c : Core) (line u : Nat) : Core := c.modMem fun m => m.claim 5 u (bankOf line)

/-- The vector chain after a data line of a run has been written in cycle u. -/
def Vx.lineLeaves (v : Vx) (o : VrunOp) (u : Nat) (rest : List OutWrite) : Vx :=
  { v with lastOut := u, runs := updRun (fun r => r == o) (fun _ => { o with outs := rest, lastWrite := u }) v.runs }

/-- A data line outside bins whose bank is free is written in its due cycle. -/
theorem State.writeNext_data {s : State} {k u due line : Nat} {o : VrunOp} {x : OutWrite} {rest : List OutWrite} {ws : List (Nat × PWord 32)}
    (hcalm : s.overs = []) (hu : u = max due ((s.core k).vx.lastOut + 1)) (hdue : s.now ≤ u) (hreads : (s.core k).heads = [])
    (hfree : s.slotFree k 5 u) (hbin : o.obin = none) (htaken : o.oslotTaken = none) (houts : o.outs = x :: rest) (hcount : x.count = false)
    {t : State} (ht : t = ((s.advance u).modCore k fun c => c.lineClaims (line + o.oline) u).vxWrite k o ((line + o.oline : Nat) : Int) ws) :
    s.writeNext k o false due line ws = t.modCore k fun c => c.modVx fun v => v.lineLeaves o t.now rest := by
  have hbanks := State.takeBanks_free (s := s.advance u) (k := k) (e := .vx) (wr := true) (banks := fun _ => bankOf ((line + o.oline : Nat) : Int))
    (by rw [State.advance_core hcalm]; exact hreads) (by rw [State.advance_now, Nat.max_eq_right hdue]) (State.slotFree_advance hcalm hfree)
  subst ht
  simp only [State.writeNext, ← hu, Core.outLine_plain hbin htaken, hbin, htaken, houts, hcount, List.head?_cons, Option.map_some, Option.getD_some,
    Option.isSome_none, Bool.not_false, Bool.and_true, Bool.and_false, Bool.false_and, Bool.or_false, Bool.false_eq_true, if_false,
    List.drop_succ_cons, List.drop_zero, ← Nat.cast_add, hbanks, Vx.lineLeaves]
  rfl

/-! ## The end of a run (R127) -/

theorem exec_vrunComplete_written {s : State} {k d u : Nat} {o : VrunOp} (hcalm : s.overs = [])
    (hdone : firstDone s.ctEV (s.core k).vx.runs = some (d, o)) (href : o.refused = false) (hsbin : o.sbin = none) (hobin : o.obin = none)
    (hends : o.owed.ends = []) (hu : u = max s.now d) (hroom : (s.core k).sync.roomFor u o.owed = true) :
    exec (.vrunComplete k) s = .next ((s.advance d).modCore k fun c => (c.modVx fun v => { v with runs := dropRun o v.runs }).completed u o.owed) := by
  have hnow : (s.advance d).now = u := by rw [State.advance_now, hu]
  show execVrunComplete k s = _
  simp only [execVrunComplete, hdone, href, Bool.false_eq_true, if_false, hsbin, hobin, State.binDone_none, State.modRuns]
  rw [State.complete_eq hends (by rw [State.advance_core hcalm, hnow]; exact hroom), hnow]

/-! ## The statements -/

/-- Settles O23: both loads issue alike, and the words of a load that takes effect stand in front of what its slot held. -/
theorem vxLoads : Obligations.VxLoads := by
  unfold Obligations.VxLoads
  refine fun s k hcalm hreads => ⟨fun i w u tab slot line n h hform hread => ?issue, fun x hfirst hdue hends hroom hlate => ?effect⟩
  case issue =>
    refine ⟨_, exec_load_allowed h hreads hform hread, ?_, OnlyCore.issued k u hcalm _, ?_⟩
    · rw [State.modCore_now, State.advance_now, Nat.max_eq_right h.now_le]
    · rw [State.core_modCore_same, State.advance_core hcalm]; rfl
  case effect =>
    have hcore := State.advance_core hcalm x.due k
    refine ⟨_, exec_tableLoadComplete_alone hcalm hreads hfirst hdue hends hroom hlate, ?_, OnlyCore.issued k _ hcalm _, ?_, fun j hslot hlen hj => ?_⟩
    · rw [State.modCore_now, State.advance_now, Nat.max_eq_right hdue]
    · rw [State.core_modCore_same, hcore]
    · rw [State.core_modCore_same, hcore]
      exact (s.core k).vx.load_word x j hslot hlen hj

/-- Settles O24: the issue of any VX word, then the run with the schedule that no pending load delays. -/
theorem vrunIssues : Obligations.VrunIssues := by
  unfold Obligations.VrunIssues
  intro s k i w u f o h hop hreads hloads hsbin hobin ho hcfg hgo hf
  refine ⟨_, exec_vrun_allowed h hop hreads hloads hsbin hobin ho hcfg hgo hf, ?_, OnlyCore.issued k u h.calm _, ?_⟩
  · rw [State.modCore_now, State.advance_now, Nat.max_eq_right h.now_le]
  · rw [State.core_modCore_same, State.advance_core h.calm]

/-- Settles O25: the lines that the run has read give the lanes and the stream; beside the change of VX there is at most the record of a lane
out of range. -/
theorem vectorEnters : Obligations.VectorEnters := by
  unfold Obligations.VectorEnters
  intro s k o ls str a hcalm hrun hreads hdue hsrc hslot hbad hls hstr ha
  have hcore (j : Nat) : ((s.advance o.enterAt).noteOor k o a).core j = s.core j := by rw [State.noteOor_core, State.advance_core hcalm]
  refine ⟨_, exec_vrunVectorEntry_held hcalm hrun hreads hdue hsrc hslot hbad hls hstr ha, ?now, fun hsilent => ?silent,
    fun l hfirst hseen hcfg => ?recorded, fun j hj => ?others, ?core⟩
  case now => rw [State.modCore_now, State.noteOor_now, State.advance_now, Nat.max_eq_right hdue]
  case silent => rw [State.noteOor_silent hsilent]; exact OnlyCore.issued k _ hcalm _
  case recorded => exact Recorded.of_eq (State.advance_faults hcalm _) (State.noteOor_recorded (s := s.advance o.enterAt) (k := k) hfirst hseen hcfg)
  case others => rw [State.core_modCore_other _ _ _ _ hj, hcore]
  case core => rw [State.core_modCore_same, hcore]; rfl

/-- Settles O26: a line write is one store of words beside the change of the run; the end of a run is its leaving and its signals. -/
theorem vrunEnds : Obligations.VrunEnds := by
  unfold Obligations.VrunEnds
  refine fun s k o hcalm => ⟨fun x rest p ws u hrun hbin htaken houts hscale hcount hwords hne hclean hu hdue hreads hfree _ hgo hwf => ?write,
    fun d u hdone href hsbin hobin hends hu hroom => ?complete⟩
  case write =>
    have hcore := State.advance_core hcalm u k
    have hnow : (s.advance u).now = u := by rw [State.advance_now, Nat.max_eq_right hdue]
    obtain ⟨sum, hwrite⟩ := State.vxWrite_allowed (k := k) (o := o) (p := p) (s := (s.advance u).modCore k fun c => c.lineClaims (x.line + o.oline) u)
      (by rw [State.core_modCore_same, hcore]; exact hreads) (by rw [State.core_modCore_same, hcore]; exact hgo) hne hclean
    have he := exec_vrunLineWrite_data hrun houts hscale
    rw [hwords, State.writeNext_data hcalm hu hdue hreads hfree hbin htaken houts hcount rfl, hwrite] at he
    simp only [State.modCore_modCore, State.modCore_now, hnow] at he
    refine ⟨_, putScrWords (s.core k).mem.scr (64 * (x.line + o.oline) + p) ws, he, hnow, ⟨OnlyCore.issued k u hcalm _, sum, ?core⟩, fun q => ?words⟩
    case core => rw [State.core_modCore_same, hcore]; rfl
    case words =>
      rw [State.core_modCore_same, hcore]
      exact scrWord_put hwf q
  case complete =>
    refine ⟨_, exec_vrunComplete_written hcalm hdone href hsbin hobin hends hu hroom, ?_, OnlyCore.issued k d hcalm _, ?_⟩
    · rw [State.modCore_now, State.advance_now, hu]
    · rw [State.core_modCore_same, State.advance_core hcalm]

end Sys2Proof.Machine

/-! SUPPORT. The control of a stream: waits, signals and delays of SX, the instructions that every stream has, the waits of SX, and the hang check. -/

namespace Sys2Proof.Machine

/-! ## SX passes in sequence (R148, R206) -/

theorem SxIssues.issued_now {s : State} {k i w u : Nat} {rs : List Nat} {f : Core → Core} (h : SxIssues s k i w u rs) :
    ((s.advance u).modCore k f).now = u := by
  rw [State.modCore_now, State.advance_now, Nat.max_eq_right h.now_le]

/-- In the issue cycle, an instruction of SX that leaves its stream alone passes to the next index. -/
theorem SxIssues.passes {s : State} {k i w u : Nat} {rs : List Nat} {f : Core → Core} (h : SxIssues s k i w u rs) (hi : i + 1 < 8192)
    (hf : (f (s.core k)).sxs = (s.core k).sxs) :
    ((s.advance u).modCore k f).sxDone k { index := i } = (s.advance u).modCore k fun c => (f c).sxGoes (i + 1) (u + 1) := by
  have hsxs : (((s.advance u).modCore k f).core k).sxs = (s.core k).sxs := by rw [State.core_modCore_same, State.advance_core h.calm, hf]
  rw [State.sxDone_eq (by rw [hsxs]; exact h.index) (by rw [hsxs]; exact h.loops) (by rw [hsxs]; exact h.notHalted) hi, State.modCore_modCore,
    h.issued_now]

theorem State.modCore_self (s : State) (k : Nat) (f : Core → Core) : (s.modCore k fun c => c).modCore k f = s.modCore k f :=
  State.modCore_modCore s k _ f

/-! ## Counters and delays of SX (R202) -/

theorem sxWaits_of_legal {w : Nat} (hlegal : sxBad w = none) (hop : xOpc w = 0x28) : sxWaits w = [(scCtr w, scN w)] := by
  rw [sxWaits, if_pos ⟨hop, counter_legal hlegal (.inl hop)⟩]

theorem exec_swait_issues {s : State} {k i w u : Nat} (h : SxIssues s k i w u []) (hi : i + 1 < 8192) (hop : xOpc w = 0x28)
    (hold : scN w ≤ (s.core k).sync.seen u (scCtr w)) (hturn : s.contended k .sx u [(scCtr w, scN w)] = false) :
    exec (.swait k) s = .next ((s.advance u).modCore k fun c =>
      ({ c with sync := c.sync.take u [(scCtr w, scN w)] } : Core).sxGoes (i + 1) (u + 1)) := by
  show execSwait k s = _
  rw [execSwait, State.issueSx_waits (reads := fun _ => []) h (by simp [wantX, hop]) (sxWaits_of_legal h.legal hop) hold hturn, h.passes hi rfl]

theorem exec_ssig_issues {s : State} {k i w u : Nat} (h : SxIssues s k i w u []) (hi : i + 1 < 8192) (hop : xOpc w = 0x29)
    (hroom : (s.core k).sync.count.getD (scCtr w) 0 + scN w ≤ 65535) :
    exec (.ssig k) s = .next ((s.advance u).modCore k fun c =>
      ({ c with sync := c.sync.add u (scCtr w) (scN w) } : Core).sxGoes (i + 1) (u + 1)) := by
  show execSsig k s = _
  rw [execSsig, State.issueSx_ready (reads := fun _ => []) h (by simp [wantX, hop]) rfl, if_pos (counter_legal h.legal (.inr hop)),
    State.signal_room (by rwa [State.core_modCore_same, State.advance_core h.calm]), State.modCore_self, h.issued_now,
    h.passes hi rfl]

theorem exec_sdly_issues {s : State} {k i w u : Nat} (h : SxIssues s k i w u []) (hi : i + 1 < 8192) (hop : xOpc w = 0x2A) :
    exec (.sdly k) s = .next ((s.advance u).modCore k fun c => c.sxGoes (i + 1) (u + xImm w + 1)) := by
  show execSdly k s = _
  rw [execSdly, State.issueSx_ready (reads := fun _ => []) h (by simp [wantX, hop]) rfl, if_neg Bool.false_ne_true, h.passes hi rfl, State.setReady,
    State.modStream, State.modCore_modCore, h.issued_now]
  rfl

theorem Sync.take_count (y : Sync) (u a m n : Nat) :
    (y.take u [(a, m)]).count.getD n 0 = if n = a then y.count.getD n 0 - m else y.count.getD n 0 :=
  getD_modAt y.count a n (fun v => v - m) (.inl (Nat.zero_sub m))

theorem Sync.add_count {y : Sync} {a : Nat} (h : a < y.count.length) (u m n : Nat) :
    (y.add u a m).count.getD n 0 = if n = a then y.count.getD n 0 + m else y.count.getD n 0 :=
  getD_modAt y.count a n (fun v => v + m) (.inr h)

/-- Settles O6: each passes in sequence in its issue cycle, after its change of the one counter that it names. -/
theorem sxCounters : Obligations.SxCounters := by
  unfold Obligations.SxCounters
  intro s k i w u h hi
  have hissued := OnlyCore.issued_all (k := k) h.calm h.now_le
  refine ⟨fun hop hold hturn => ?swait, fun hop hroom hlen => ?ssig, fun hop => ?sdly⟩
  case swait =>
    obtain ⟨hnow, honly, hcore⟩ := hissued fun c => ({ c with sync := c.sync.take u [(scCtr w, scN w)] } : Core).sxGoes (i + 1) (u + 1)
    refine ⟨_, exec_swait_issues h hi hop hold hturn, hnow, honly, hcore, fun n => ?_⟩
    rw [hcore]
    exact Sync.take_count ..
  case ssig =>
    obtain ⟨hnow, honly, hcore⟩ := hissued fun c => ({ c with sync := c.sync.add u (scCtr w) (scN w) } : Core).sxGoes (i + 1) (u + 1)
    refine ⟨_, exec_ssig_issues h hi hop hroom, hnow, honly, hcore, fun n => ?_⟩
    rw [hcore]
    exact Sync.add_count (hlen ▸ counter_legal h.legal (.inr hop)) ..
  case sdly => exact ⟨_, exec_sdly_issues h hi hop, hissued _⟩

/-! ## The instructions that every engine stream has (R147 to R150) -/

theorem Core.modStream_modStream (c : Core) (e : Engine) (f g : Stream → Stream) :
    (c.modStream e f).modStream e g = c.modStream e fun x => g (f x) := by
  rw [Core.modStream, Core.modStream, Core.stream_setStream, Core.setStream_setStream, Core.modStream]

theorem Core.engGoes_sync (c : Core) (e : Engine) (i w u : Nat) : (c.engGoes e i w u).sync = c.engSync w u := Core.modStream_sync ..

/-- An instruction of an engine stream that changes no counter itself completes in its issue cycle. -/
theorem EngIssues.completes {s : State} {k i w u r : Nat} {e : Engine} (h : EngIssues s k e i w u r) {f : Core → Core}
    (hf : (f (s.core k)).sync = (s.core k).engSync w u) (hroom : ((s.core k).engSync w u).roomFor u (owedOf w i) = true) :
    ((s.advance u).modCore k f).complete k e (owedOf w i) = (s.advance u).modCore k fun c => (f c).completed u (owedOf w i) := by
  have hnow : (s.advance u).now = u := (State.advance_now ..).trans (Nat.max_eq_right h.now_le)
  have hroom' : (f ((s.advance u).core k)).sync.roomFor (s.advance u).now (owedOf w i) = true := by
    rw [State.advance_core h.calm, hf, hnow]; exact hroom
  rw [State.complete_eq rfl hroom', hnow]

section Engines
variable {s : State} {k i w u : Nat} {e : Engine} (hsx : e ≠ .sx) (hreads : (s.core k).heads = [])
  (h : EngIssues s k e i w u ((s.core k).stream e).ready)
include hsx hreads h

theorem exec_snop_issues (hroom : ((s.core k).engSync w u).roomFor u (owedOf w i) = true) (hop : hOpc w = 0xF0) :
    exec (.snop k e) s = .next ((s.advance u).modCore k fun c =>
      ((c.engGoes e i w u).modStream e fun x => { x with ready := u + 1 }).completed u (owedOf w i)) := by
  show execSnop k e s = _
  rw [execSnop, if_neg hsx, State.boundOf_eq h.calm hreads, State.issueOp_ready h (by simp [hop, opSnop]), State.setReady, State.modStream,
    State.modCore_modCore, h.issued_now, h.completes ((Core.modStream_sync ..).trans (Core.engGoes_sync ..)) hroom]

theorem exec_sloop_issues (hroom : ((s.core k).engSync w u).roomFor u (owedOf w i) = true) (hop : hOpc w = 0xF1)
    (hgood : sloopBad e i (sloopBody w) ((s.core k).stream e).loops = false) :
    exec (.sloop k e) s = .next ((s.advance u).modCore k fun c => ((c.engGoes e i w u).modStream e fun x => { x with
      pc := i + 1, ready := u + 1
      loops := { first := i + 1, last := i + sloopBody w, left := sloopIter w } :: ((s.core k).stream e).loops }).completed u (owedOf w i)) := by
  show execSloop k e s = _
  rw [execSloop, if_neg hsx, State.boundOf_eq h.calm hreads]
  dsimp only
  rw [State.issueOp_ready h (by simp [wantOp, hop, opSloop]), if_neg Bool.false_ne_true]
  rw [show (owedOf w i).index = i from rfl, hgood, if_neg Bool.false_ne_true, State.setReady, State.modStream, State.modStream, State.modCore_modCore,
    State.modCore_modCore, h.issued_now,
    h.completes ((Core.modStream_sync ..).trans ((Core.modStream_sync ..).trans (Core.engGoes_sync ..))) hroom]
  simp only [Core.modStream_modStream]

theorem exec_send_issues (hop : hOpc w = 0xF2) :
    exec (.send k e) s = .next ((s.advance u).modCore k fun c => (c.engGoes e i w u).modStream e fun x => { x with
      pc := i, sendAt := some u, sendOwed := owedOf w i }) := by
  show execSend k e s = _
  rw [execSend, if_neg hsx, State.boundOf_eq h.calm hreads, State.issueOp_ready h (by simp [wantOp, hop, opSend]), h.issued_now, State.modStream,
    State.modCore_modCore]
  rfl

end Engines

theorem sloopBad_false {e : Engine} {i n : Nat} {loops : List Loop} (hin : i + n < bankLen e) (hdepth : loops.length < 4)
    (hnest : ∀ l, loops.head? = some l → i + n ≤ l.last) : sloopBad e i n loops = false := by
  cases loops with
  | nil => simp [sloopBad]; omega
  | cons l r =>
    have := hnest l rfl
    simp [sloopBad] at hdepth ⊢
    omega

/-- The stream after its SEND has completed. -/
def Stream.sent (x : Stream) : Stream :=
  { x with state := if x.state = .abandoned then .abandoned else .ended, loops := [], sendAt := none, sendOwed := {} }

theorem exec_sendComplete_done {s : State} {k u : Nat} {e : Engine} {o : Owed} (hcalm : s.overs = []) (hat : ((s.core k).stream e).sendAt = some u)
    (howed : ((s.core k).stream e).sendOwed = o) (hends : o.ends = []) (hdone : (s.core k).streamDone e = true)
    (hroom : (s.core k).sync.roomFor (max s.now u) o = true) :
    exec (.sendComplete k e) s = .next ((s.advance u).modCore k fun c => (c.modStream e Stream.sent).completed (max s.now u) o) := by
  show execSendComplete k e s = _
  rw [execSendComplete, hat]
  dsimp only
  rw [if_pos hdone, howed, State.modStream, State.complete_eq hends (by rw [Core.modStream_sync, State.advance_core hcalm, State.advance_now]; exact hroom),
    State.advance_now]
  rfl

/-- Settles O9: the issue of each is the issue of an engine instruction, then the change of its stream alone, and its completion. -/
theorem streamControl : Obligations.StreamControl := by
  unfold Obligations.StreamControl
  refine ⟨fun s k e i w u hsx hreads h hroom => ?issue, fun s k e u o hcalm hat howed hends hdone hroom => ?complete⟩
  case issue =>
    have hissued := OnlyCore.issued_all (k := k) h.calm h.now_le
    refine ⟨fun hop => ⟨_, exec_snop_issues hsx hreads h hroom hop, hissued _⟩, fun hop hin hdepth hnest => ?_,
      fun hop => ⟨_, exec_send_issues hsx hreads h hop, hissued _⟩⟩
    exact ⟨_, exec_sloop_issues hsx hreads h hroom hop (sloopBad_false hin hdepth hnest), hissued _⟩
  case complete =>
    refine ⟨_, exec_sendComplete_done hcalm hat howed hends hdone hroom, ?_, OnlyCore.issued k _ hcalm _, ?_⟩
    · rw [State.modCore_now, State.advance_now]
    · rw [State.core_modCore_same, State.advance_core hcalm]; rfl

/-! ## The waits of SX (R203, R204) -/

/-- A control use of clean registers, in the state of the issue cycle. -/
theorem SxIssues.guards {s : State} {k i w u : Nat} {rs uses : List Nat} {o : Owed} {f : State → State} (h : SxIssues s k i w u rs)
    (hclean : ∀ r ∈ uses, ((s.core k).g r).poison = false) :
    ((s.advance u).modCore k fun c => c).guardUse k o uses f = f ((s.advance u).modCore k fun c => c) :=
  State.guardUse_ok (by rwa [State.core_modCore_same, State.advance_core h.calm])

theorem State.issued_ctESX (s : State) (k u : Nat) (f : Core → Core) : ((s.advance u).modCore k f).ctESX = s.ctESX := State.advance_ctESX s u

/-- The wait of an AWAIT of register a for register b's count, in cycle u. -/
def State.awaitWait (s : State) (k w u : Nat) (e : Handle) : SxWait :=
  { kind := .await, handle := ((s.core k).g (awRa w)).val.toNat % 65536, line := e.ctrl, target := ((s.core k).g (awRb w)).val, sig := awSig w, index := 0
    refused := false, due := u + s.ctESX, ends := [] }

/-- The wait of a HOPEN of the descriptor that register a addresses. -/
def State.hopenWait (s : State) (k w u : Nat) : SxWait :=
  { kind := .hopen, handle := ((s.core k).g (xRa w)).val.toNat, rd := xRd w, index := 0, refused := false, due := u + s.ctESX, ends := [] }

/-- The wait of an HCLOSE of the handle in register a. -/
def State.hcloseWait (s : State) (k w u : Nat) : SxWait :=
  { kind := .hclose, handle := ((s.core k).g (xRa w)).val.toNat % 65536, now := w.testBit 0, index := 0, refused := false, due := u + s.ctESX + 1
    ends := [] }

theorem exec_await_issues {s : State} {k i w u : Nat} {e : Handle} (h : SxIssues s k i w u [awRa w, awRb w]) (hop : xOpc w = 0x2B)
    (ha : ((s.core k).g (awRa w)).poison = false) (hb : ((s.core k).g (awRb w)).poison = false)
    (hu : (s.core k).usable (((s.core k).g (awRa w)).val.toNat % 65536) kindStatus = some e) :
    exec (.await k) s = .next (((s.advance u).modCore k fun c => c).startWait k { index := i } (s.awaitWait k w u e)) := by
  show execAwait k s = _
  rw [execAwait, State.issueSx_ready (reads := fun w => [awRa w, awRb w]) h (by simp [wantX, hop]) rfl, if_neg Bool.false_ne_true,
    h.guards (by simp [ha, hb])]
  have hentry : (s.core k).handle (hIndex ((s.core k).gv (awRa w) % 65536)) = e := Core.usable_handle hu
  have husable : (s.core k).usable ((s.core k).gv (awRa w) % 65536) kindStatus = some e := hu
  simp only [State.core_modCore_same, State.advance_core h.calm, hentry, husable, Option.isNone_some, Bool.false_eq_true, if_false, h.issued_now,
    State.issued_ctESX]
  rfl

theorem exec_hopen_issues {s : State} {k i w u : Nat} (h : SxIssues s k i w u [xRa w]) (hop : xOpc w = 0x30)
    (ha : ((s.core k).g (xRa w)).poison = false) (hok : (s.core k).narrowIssue ((s.core k).g (xRa w)).val.toNat = none) :
    exec (.hopen k) s = .next (((s.advance u).modCore k fun c => c).startWait k { index := i } (s.hopenWait k w u)) := by
  show execHopen k s = _
  rw [execHopen, State.issueSx_ready (reads := fun w => [xRa w]) h (by simp [wantX, hop]) rfl, if_neg Bool.false_ne_true, h.guards (by simp [ha])]
  have hgood : (s.core k).narrowIssue ((s.core k).gv (xRa w)) = none := hok
  simp only [State.core_modCore_same, State.advance_core h.calm, h.issued_now, State.issued_ctESX, hgood]
  rfl

theorem exec_hclose_issues {s : State} {k i w u : Nat} (h : SxIssues s k i w u [xRa w]) (hop : xOpc w = 0x31)
    (ha : ((s.core k).g (xRa w)).poison = false) :
    exec (.hclose k) s = .next (((s.advance u).modCore k fun c => c).startWait k { index := i } (s.hcloseWait k w u)) := by
  show execHclose k s = _
  rw [execHclose, State.issueSx_ready (reads := fun w => [xRa w]) h (by simp [wantX, hop]) rfl, if_neg Bool.false_ne_true, h.guards (by simp [ha])]
  simp only [State.core_modCore_same, State.advance_core h.calm, h.issued_now, State.issued_ctESX]
  rfl

theorem exec_sxSend_issues {s : State} {k i w u : Nat} (h : SxIssues s k i w u []) (hop : xOpc w = 0x3F) :
    exec (.sxSend k) s = .next ((s.advance u).modCore k fun c =>
      { c with sxs := { c.sxs with state := .run, sendAt := some u, sendOwed := { index := i } } }) := by
  show execSxSend k s = _
  rw [execSxSend, State.issueSx_ready (reads := fun _ => []) h (by simp [wantX, hop]) rfl, State.modStream, State.modCore_self, h.issued_now]
  rfl

theorem xRd_lt (w : Nat) : xRd w < 32 := by simp only [xRd, bits]; omega

/-- Settles O14: what a started wait changes is said once, by `wait_starts`; the end of the stream is one change of the stream. -/
theorem sxWaitsStart : Obligations.SxWaitsStart := by
  unfold Obligations.SxWaitsStart
  intro s k i w u hi hlen
  refine ⟨fun e h hop ha hb hu => ?await, fun h hop ha hok => ?hopen, fun h hop ha => ?hclose, fun h hop => ?send⟩
  case await =>
    obtain ⟨hnow, honly, hstands, hwait, -⟩ := wait_starts (x := s.awaitWait k w u e) h hi _ rfl
    exact ⟨_, exec_await_issues h hop ha hb hu, hnow, honly, hstands, hwait⟩
  case hopen =>
    obtain ⟨hnow, honly, hstands, hwait, hreg⟩ := wait_starts (x := s.hopenWait k w u) h hi _ rfl
    exact ⟨_, exec_hopen_issues h hop ha hok, hnow, honly, hstands, hwait, hreg hlen (xRd_lt w)⟩
  case hclose =>
    obtain ⟨hnow, honly, hstands, hwait, -⟩ := wait_starts (x := s.hcloseWait k w u) h hi _ rfl
    exact ⟨_, exec_hclose_issues h hop ha, hnow, honly, hstands, hwait⟩
  case send => exact ⟨_, exec_sxSend_issues h hop, OnlyCore.issued_all h.calm h.now_le _⟩

/-! ## The hang check (R153) -/

/-- The core after the streams that p names have been abandoned. -/
def Core.abandonWhere (c : Core) (p : Engine → Bool) (l : List Engine) : Core :=
  l.foldl (fun c e => if p e then c.modStream e fun t => { t with state := .abandoned } else c) c

theorem Core.abandonWhere_cons (c : Core) (p : Engine → Bool) (e : Engine) (l : List Engine) :
    c.abandonWhere p (e :: l) = (if p e then c.modStream e fun t => { t with state := .abandoned } else c).abandonWhere p l := rfl

theorem Core.abandonWhere_stream {p : Engine → Bool} {e : Engine} : ∀ {l : List Engine} (c : Core), l.Nodup →
    (c.abandonWhere p l).stream e = if e ∈ l ∧ p e = true then { c.stream e with state := .abandoned } else c.stream e
  | [], c, _ => by simp [Core.abandonWhere]
  | a :: l, c, hn => by
    obtain ⟨ha, hl⟩ := List.nodup_cons.mp hn
    rw [Core.abandonWhere_cons, Core.abandonWhere_stream _ hl]
    by_cases he : e = a
    · subst he
      cases hp : p e <;> simp [ha]
    · have hkept : (if p a = true then c.modStream a fun t => { t with state := .abandoned } else c).stream e = c.stream e := by
        split
        · exact Core.modStream_other _ _ _ _ he
        · rfl
      rw [hkept]
      simp [he]

/-- Cores that differ in their streams alone. -/
def Core.SameButStreams (c d : Core) : Prop :=
  ({ d with mxs := c.mxs, vxs := c.vxs, dxs := c.dxs, nxs := c.nxs, sxs := c.sxs } : Core) = c

theorem Core.sameButStreams_modStream (c d : Core) (e : Engine) (f : Stream → Stream) (h : c.SameButStreams d) : c.SameButStreams (d.modStream e f) := by
  cases e <;> exact h

theorem Core.sameButStreams_abandonWhere (c : Core) (p : Engine → Bool) : ∀ (l : List Engine) (d : Core), c.SameButStreams d →
    c.SameButStreams (d.abandonWhere p l)
  | [], _, h => h
  | a :: l, d, h => by
    rw [Core.abandonWhere_cons]
    refine Core.sameButStreams_abandonWhere c p l _ ?_
    split
    · exact Core.sameButStreams_modStream c d a _ h
    · exact h

theorem exec_islandHang_hung {s : State} {k : Nat} (h : s.hung k = true) :
    exec (.islandHang k) s = .next ((s.record 0x0202 1 k 0 (s.hangAux k) (s.core k).hangDetail).modCore k fun c =>
      c.abandonWhere (s.stalled k) allEngines) := by
  show execIslandHang k s = _
  rw [execIslandHang, if_pos h]
  rfl

/-- Settles O10: one record, and one change of the streams that wait on counters. -/
theorem islandHang : Obligations.IslandHang := by
  unfold Obligations.IslandHang
  intro s k h
  have hcore (j : Nat) : (s.record 0x0202 1 k 0 (s.hangAux k) (s.core k).hangDetail).core j = s.core j := State.recordAs_core ..
  refine ⟨_, exec_islandHang_hung h, State.recordAs_now .., fun j hj => ?others, Recorded.modCore (State.record_recorded ..), fun e => ?streams, ?kept⟩
  case others => rw [State.core_modCore_other _ _ _ _ hj, hcore]
  case streams =>
    rw [State.core_modCore_same, hcore, Core.abandonWhere_stream _ (by decide)]
    cases e <;> simp [allEngines]
  case kept =>
    rw [State.core_modCore_same, hcore]
    exact Core.sameButStreams_abandonWhere _ _ _ _ rfl

end Sys2Proof.Machine

/-! SUPPORT. The accesses of SX that write: a store to the scratchpad, and the selection of the next bank. -/

namespace Sys2Proof.Machine

/-! ## The write sum (R398) -/

/-- The core after the bytes of a write have joined its write sum, where it is attached. -/
def Core.summed (c : Core) (stock : Bool) (addr : Nat) (data : List Byte) (mask : List Bool) : Core :=
  if c.ctl.attached then c.modCtl fun r => { r with twinSum := r.twinSum + BitVec.ofNat 64 (sumTerm stock addr data mask) } else c

theorem State.addSum_modCore (s : State) (k : Nat) (f : Core → Core) (stock : Bool) (addr : Nat) (data : List Byte) (mask : List Bool) :
    (s.modCore k f).addSum k stock addr data mask = s.modCore k fun c => (f c).summed stock addr data mask := by
  rw [State.addSum, State.core_modCore_same]
  split
  next hon => rw [State.modCore_modCore]; exact State.modCore_congr (if_pos hon).symm
  next hoff => exact State.modCore_congr (if_neg hoff).symm

theorem Core.summed_kept (c : Core) (stock : Bool) (addr : Nat) (data : List Byte) (mask : List Bool) :
    (c.summed stock addr data mask).mem = c.mem ∧ (c.summed stock addr data mask).sx = c.sx := by
  unfold Core.summed
  split <;> exact ⟨rfl, rfl⟩

/-! ## An access that changes its core alone (R199) -/

/-- The oldest access is gone. -/
def Core.accLeaves (c : Core) : Core := c.modSx fun x => { x with acc := x.acc.drop 1 }

theorem SxAccessNext.writes {s : State} {k : Nat} {a : SxAcc} {r : List SxAcc} {f : Core → Core} (h : SxAccessNext s k a r)
    (hd : (s.advance a.due).doAcc k a = (s.advance a.due).modCore k f) :
    exec (.sxAccess k) s = .next ((s.advance a.due).modCore k fun c => (f c).accLeaves) := by
  show execSxAccess k s = _
  rw [execSxAccess, h.oldest]
  dsimp only
  rw [hd, State.modCore_modCore, h.sig, h.ends]
  rfl

theorem Core.accLeaves_sx {c : Core} {a : SxAcc} {r : List SxAcc} (h : c.sx.acc = a :: r) : c.accLeaves.sx = { c.sx with acc := r } := by
  simp [Core.accLeaves, h]

/-! ## STW (R196) -/

/-- The core after a store has taken its slot and written its word. -/
def Core.stored (c : Core) (a : SxAcc) : Core :=
  ((c.modMem fun m => m.claim 10 a.due [a.addr / 64 % 16]).modMem fun m => { m with scr := m.scr.put 4 a.addr a.data.val.toNat false }).summed
    false a.addr (wordBytes [a.data]) [false]

theorem Core.stored_sx (c : Core) (a : SxAcc) : (c.stored a).sx = c.sx := (Core.summed_kept ..).2

theorem Core.stored_mem (c : Core) (a : SxAcc) :
    (c.stored a).mem = { c.mem.claim 10 a.due [a.addr / 64 % 16] with scr := c.mem.scr.put 4 a.addr a.data.val.toNat false } := (Core.summed_kept ..).1

theorem Core.stored_scrWord {c : Core} {a : SxAcc} (hwf : Memory.wf c.mem.scr.cells = true) (hclean : a.data.poison = false) (w : Nat) :
    (c.stored a).scrWord w = if w = a.addr then a.data else c.scrWord w := by
  have hput : (c.stored a).mem.scr = putScrWords c.mem.scr a.addr [a.data] := by rw [Core.stored_mem, putScrWords, hclean]; rfl
  rw [scrWord_eq, hput, scrWord_put hwf]
  by_cases hw : w = a.addr
  · subst hw; simp
  · rw [if_neg (by simp; omega), if_neg hw, scrWord_eq]

theorem SxAccessNext.stores {s : State} {k : Nat} {a : SxAcc} {r : List SxAcc} (h : SxAccessNext s k a r) (hkind : a.kind = .stw)
    (hclean : a.data.poison = false) (hfree : s.slotFree k 10 a.due) (hopen : (s.core k).narrowCode (a.addr / 64) = none)
    (hdata : (s.core k).ctrlEntry (a.addr / 64) = none) :
    exec (.sxAccess k) s = .next ((s.advance a.due).modCore k fun c => (c.stored a).accLeaves) := by
  have hcore := State.advance_core h.calm a.due k
  refine h.writes (f := fun c => c.stored a) ?_
  rw [State.doAcc, h.done, hkind, if_neg Bool.false_ne_true]
  refine (State.doStore_plain (by rw [hcore]; exact h.reads) h.advance_now hclean (State.slotFree_advance h.calm hfree) (by rwa [hcore])
    (by rwa [hcore])).trans ?_
  exact State.addSum_modCore ..

/-! ## CWR of IBANK (R156, R198) -/

/-- The core after a write of IBANK. -/
def Core.bankSelected (c : Core) (v : Word32) : Core := c.modCtl fun r => { r with bankNext := v.toNat / 2 % 2 }

theorem SxAccessNext.selectsBank {s : State} {k : Nat} {a : SxAcc} {r : List SxAcc} (h : SxAccessNext s k a r) (hkind : a.kind = .cwr)
    (haddr : a.addr = 0x3000) (hfree : (s.advance a.due).hostWrote k 0x3000 = false) :
    exec (.sxAccess k) s = .next ((s.advance a.due).modCore k fun c => (c.bankSelected a.data.val).accLeaves) := by
  refine h.writes (f := fun c => c.bankSelected a.data.val) ?_
  rw [State.doAcc, h.done, hkind, if_neg Bool.false_ne_true]
  show (s.advance a.due).doCwr k a = _
  rw [State.doCwr, haddr, badOffset_false (by decide) (by decide), if_neg Bool.false_ne_true, if_pos (.inl rfl), hfree, if_neg Bool.false_ne_true]
  rfl

/-- Settles O13: either access changes its core alone, in its due cycle, and leaves. -/
theorem sxStoreEffect : Obligations.SxStoreEffect := by
  unfold Obligations.SxStoreEffect
  intro s k a r h
  refine ⟨fun hkind _ hclean hfree hopen hdata hwf => ?stw, fun hkind haddr hfree => ?cwr⟩
  case stw =>
    obtain ⟨hnow, honly, hcore⟩ := OnlyCore.issued_all (k := k) h.calm h.due fun c => (c.stored a).accLeaves
    refine ⟨_, h.stores hkind hclean hfree hopen hdata, hnow, honly, ?_⟩
    rw [hcore]
    have hword (w : Nat) : ((s.core k).stored a).accLeaves.scrWord w = if w = a.addr then a.data else (s.core k).scrWord w :=
      Core.stored_scrWord hwf hclean w
    have hmem : ((s.core k).stored a).accLeaves.mem = _ := Core.stored_mem ..
    refine ⟨(hword _).trans (if_pos rfl), fun w hw => (hword w).trans (if_neg hw), ?_⟩
    rw [hmem]
    refine ⟨rfl, rfl, rfl, Store.put_cells_wf hwf 4 _ _ false, ?_⟩
    rw [Core.accLeaves_sx (by rw [Core.stored_sx]; exact h.oldest), Core.stored_sx]
  case cwr =>
    obtain ⟨hnow, honly, hcore⟩ := OnlyCore.issued_all (k := k) h.calm h.due fun c => (c.bankSelected a.data.val).accLeaves
    refine ⟨_, h.selectsBank hkind haddr hfree, hnow, honly, hcore.trans ?_⟩
    simp only [Core.accLeaves, Core.bankSelected, Core.modSx, Core.modCtl, h.oldest, List.drop_one, List.tail_cons]

end Sys2Proof.Machine

/-! SUPPORT. The boundary of a pass: the blank of every attached core, and the start of every stream. -/

namespace Sys2Proof.Machine

theorem State.advance_passNum {s : State} (hcalm : s.overs = []) (t : Nat) : (s.advance t).bar.passNum = s.bar.passNum := by
  rw [State.advance_bar hcalm]

/-! ## The blank (R338) -/

/-- The module after its attached cores have returned to the starting state. -/
def State.blankedOut (s : State) : State :=
  let t := (s.eachAttached State.blankCore).checkStreams
  { t with
    route := { t.route with seen := [] }
    bar := { t.bar with inj := 0, sink := 0, blanked := true, due := s.now + 1024 } }

theorem exec_blank_due {s : State} (hphase : s.bar.phase = .blank) (hnew : s.bar.blanked = false) : exec .blank s = .next s.blankedOut := by
  have hcommit : (s.bar.phase == .commit) = false := by rw [hphase]; rfl
  have hblank : (s.bar.phase == .blank && !s.bar.blanked) = true := by rw [hphase, hnew]; rfl
  show execBlank s = _
  simp only [execBlank, hcommit, hblank, Bool.false_eq_true, if_false, if_true]
  rfl

theorem exec_blank_commit {s : State} (hphase : s.bar.phase = .commit) : exec .blank s = exec .blank (s.advance s.bar.due).enterBlank := by
  have hcommit : (s.bar.phase == .commit) = true := by rw [hphase]; rfl
  show execBlank s = execBlank _
  simp only [execBlank, hcommit, if_true]
  rfl

theorem State.blankedOut_core {s : State} (hnodup : s.attachedCores.Nodup) (k : Nat) :
    (k ∈ s.attachedCores → AtStart (s.core k) (s.blankedOut.core k)) ∧ (k ∉ s.attachedCores → s.blankedOut.core k = s.core k) := by
  have hkept : s.blankedOut.core k = (s.attachedCores.foldl State.blankCore s).core k := (BarKept.checkStreams _).2.2 k
  rw [hkept]
  exact (State.foldl_blankCore s.attachedCores s hnodup).2.2 k

/-- The time and the barrier unit through the blank, but for what it sets itself. -/
theorem State.blankedOut_kept {s : State} (hnodup : s.attachedCores.Nodup) :
    s.blankedOut.now = s.now ∧ s.blankedOut.bar.phase = s.bar.phase ∧ s.blankedOut.bar.passNum = s.bar.passNum := by
  obtain ⟨hnow, hbar⟩ := (State.foldl_blankCore s.attachedCores s hnodup).1.trans (BarKept.checkStreams _).1
  refine ⟨hnow, ?_, ?_⟩
  · exact (congrArg Barrier.phase hbar).trans rfl
  · exact (congrArg Barrier.passNum hbar).trans rfl

/-- A blank is a blank of the state in which the module has entered BLANK. -/
theorem exec_blank_entered {s : State} (hcalm : s.overs = []) (h : s.bar.phase = .commit ∨ (s.bar.phase = .blank ∧ s.bar.blanked = false)) :
    ∃ r, exec .blank s = exec .blank r ∧ r.bar.phase = .blank ∧ r.bar.blanked = false ∧ r.bar.passNum = s.bar.passNum ∧ r.cores = s.cores ∧
      r.now = if s.bar.phase = .commit then max s.now s.bar.due else s.now := by
  rcases h with hcommit | ⟨hblank, hnew⟩
  · refine ⟨_, exec_blank_commit hcommit, rfl, rfl, State.advance_passNum hcalm _, State.advance_cores hcalm _, ?_⟩
    rw [if_pos hcommit]
    exact State.advance_now ..
  · exact ⟨s, rfl, hblank, hnew, rfl, rfl, (if_neg (by rw [hblank]; decide)).symm⟩

/-! ## The start of a pass (R151, R219, R337) -/

/-- The core with every stream at index 0 from cycle u on, or ABANDONED where the declared contract is not the one in force. -/
def Core.started (c : Core) (lc u : Nat) : Core :=
  let x : Stream := { state := if c.declared = lc then .run else .abandoned, ready := u }
  { c with mxs := x, vxs := x, dxs := x, nxs := x, sxs := x }

theorem Core.started_started (c : Core) (lc u : Nat) : (c.started lc u).started lc u = c.started lc u := rfl

theorem State.startCore_eq (s : State) (k : Nat) : s.startCore k = s.modCore k fun c => c.started s.lc s.now := by
  unfold State.startCore
  exact State.modCore_congr rfl

theorem State.foldl_startCore {lc u : Nat} : ∀ (l : List Nat) (s : State), s.lc = lc → s.now = u →
    l.foldl State.startCore s = l.foldl (fun (s : State) k => s.modCore k fun c => c.started lc u) s
  | [], _, _, _ => rfl
  | k :: l, s, hlc, hnow => by
    rw [List.foldl_cons, List.foldl_cons, State.startCore_eq, hlc, hnow]
    exact State.foldl_startCore l _ hlc hnow

/-- Nothing but the cores changes when their streams start. -/
theorem State.eachAttached_start (s : State) : s.eachAttached State.startCore = { s with cores := (s.eachAttached State.startCore).cores } := by
  rw [State.eachAttached, State.foldl_startCore (lc := s.lc) (u := s.now) _ _ rfl rfl]
  exact State.foldl_modCore_eq _ _

theorem State.eachAttached_start_core (s : State) (k : Nat) :
    (s.eachAttached State.startCore).core k = if k ∈ s.attachedCores then (s.core k).started s.lc s.now else s.core k := by
  rw [State.eachAttached, State.foldl_startCore (lc := s.lc) (u := s.now) _ _ rfl rfl]
  exact State.eachAttached_core (fun c => Core.started_started c s.lc s.now) s k

/-! ## Output reservations (R448) -/

/-- What the placing of outputs leaves: time, the barrier unit but for its counts, the cores, and at the host interface all but the reservations,
which keep their numbers. -/
def Placed (s t : State) : Prop :=
  BarKept s t ∧ t.cores = s.cores ∧ t.host = { s.host with res := t.host.res } ∧ t.host.res.map (·.id) = s.host.res.map (·.id)

theorem Placed.refl (s : State) : Placed s s := ⟨BarKept.refl s, rfl, rfl, rfl⟩

theorem Placed.trans {s t u : State} (h : Placed s t) (g : Placed t u) : Placed s u := by
  obtain ⟨hbar, hcores, hhost, hids⟩ := h
  obtain ⟨gbar, gcores, ghost, gids⟩ := g
  exact ⟨hbar.trans gbar, gcores.trans hcores, by rw [ghost, hhost], gids.trans hids⟩

theorem State.grantOutput_id (s : State) (o : OutRes) : (s.grantOutput o).1.id = o.id := by
  unfold State.grantOutput
  dsimp only
  split
  · rfl
  · split <;> rfl

theorem Placed.grantOutput (s : State) (o : OutRes) : Placed s (s.grantOutput o).2 := by
  unfold State.grantOutput
  dsimp only
  split
  · exact Placed.refl s
  · split
    · exact Placed.refl s
    · exact ⟨BarKept.inject .., by rw [State.inject_eq], by rw [State.inject_eq], by rw [State.inject_eq]⟩

theorem Placed.replace (s : State) {o g : OutRes} (h : g.id = o.id) :
    Placed s (s.modHost fun x => { x with res := x.res.map fun y => if y.id = o.id then g else y }) := by
  refine ⟨BarKept.modHost .., rfl, rfl, ?_⟩
  rw [State.modHost, List.map_map]
  refine List.map_congr_left fun y _ => ?_
  by_cases hy : y.id = o.id <;> simp [hy, h]

theorem Placed.placeOutputs : ∀ (l : List OutRes) (s : State), Placed s (s.placeOutputs l)
  | [], s => Placed.refl s
  | o :: l, s => by
    rw [State.placeOutputs]
    refine (Placed.grantOutput s _).trans ((Placed.replace _ ?_).trans (Placed.placeOutputs l _))
    rw [State.grantOutput_id]
    split <;> rfl

/-- The host interface as a pass starts: no ticket is sent, and the list of the pass is closed. -/
def HostIf.opened (h : HostIf) (p : Word64) : HostIf :=
  { h with tickets := h.tickets.map (fun t => { t with sent := false }), senders := [], listClosed := some p }

/-- The reservations with which a pass starts, one for each VALID output. -/
def State.reserved (s : State) : List OutRes := ((List.range 64).filter s.outValid).map fun o => { id := o, lines := s.outLines o }

/-- The state of cycle S, before the outputs are placed. -/
def State.passOpened (s : State) : State :=
  let t := { s.advance s.bar.due with bar := { (s.advance s.bar.due).bar with phase := .run } }
  { t with
    cores := (t.eachAttached State.startCore).cores
    host := { s.host.opened s.bar.passNum with res := s.reserved } }

theorem exec_passStart_due {s : State} (hcalm : s.overs = []) (hphase : s.bar.phase = .blank) (hdone : s.bar.blanked = true) :
    exec .passStart s = .next (s.passOpened.placeOutputs s.reserved) := by
  show execPassStart s = _
  have hgo : (s.bar.phase == .blank && s.bar.blanked) = true := by rw [hphase, hdone]; rfl
  simp only [execPassStart, hgo, if_true]
  rw [State.eachAttached_start, State.passOpened, State.advance_calm hcalm]
  rfl

/-- Settles O40: a blank is the same from BLANK as from COMMIT, once BLANK has been entered; a pass starts with a change of the attached cores and of
the host interface, and the placing of outputs keeps both. -/
theorem passBegins : Obligations.PassBegins := by
  unfold Obligations.PassBegins
  intro s hcalm
  refine ⟨fun hphase hnodup => ?blank, fun hphase hdone => ?start⟩
  case blank =>
    obtain ⟨r, he, hblank, hnew, hpass, hcores, hnow⟩ := exec_blank_entered hcalm hphase
    have hattached : r.attachedCores = s.attachedCores := by rw [State.attachedCores, State.attachedCores, hcores]
    have hcore (k : Nat) : r.core k = s.core k := by rw [State.core, State.core, hcores]
    rw [← hattached] at hnodup
    obtain ⟨htime, hstays, hnum⟩ := State.blankedOut_kept hnodup
    refine ⟨_, _, he.trans (exec_blank_due hblank hnew), rfl, htime.trans hnow, fun k => ?_, hstays.trans hblank, hnum.trans hpass, rfl, rfl, rfl,
      congrArg (· + 1024) hnow, rfl⟩
    rw [← hcore, ← hattached]
    exact State.blankedOut_core hnodup k
  case start =>
    obtain ⟨⟨hnow, hbar⟩, hcores, hhost, hids⟩ := Placed.placeOutputs s.reserved s.passOpened
    have htime : (s.passOpened.placeOutputs s.reserved).now = max s.now s.bar.due := hnow.trans (State.advance_now ..)
    refine ⟨_, exec_passStart_due hcalm hphase hdone, htime, ?phase, ?pass, fun k => ?core, ?tickets, ?senders, ?closed, ?outputs⟩
    case phase => rw [hbar]; rfl
    case pass => rw [hbar]; exact State.advance_passNum hcalm _
    case core =>
      rw [htime, State.core, hcores]
      refine (State.eachAttached_start_core _ k).trans ?_
      rw [State.advance_calm hcalm]
      rfl
    case tickets => rw [hhost]; rfl
    case senders => rw [hhost]; rfl
    case closed => rw [hhost]; rfl
    case outputs =>
      rw [hids]
      exact (List.map_map ..).trans (List.map_id _)

end Sys2Proof.Machine

/-! SUPPORT. Sleep: the stop of a core, RETAIN and OFF of its group, and what wakes them. -/

namespace Sys2Proof.Machine

/-! ## The largest of a list -/

section LargestOf
variable {α : Type} (f : α → Nat)

theorem le_foldl_max (l : List α) (n : Nat) :
    n ≤ l.foldl (fun m x => max m (f x)) n ∧ ∀ x ∈ l, f x ≤ l.foldl (fun m x => max m (f x)) n := by
  induction l generalizing n with
  | nil => exact ⟨le_rfl, fun x hx => absurd hx List.not_mem_nil⟩
  | cons a l ih =>
    obtain ⟨hstart, hrest⟩ := ih (max n (f a))
    refine ⟨le_trans (le_max_left ..) hstart, fun x hx => ?_⟩
    rcases List.mem_cons.mp hx with rfl | hx
    · exact le_trans (le_max_right ..) hstart
    · exact hrest x hx

theorem foldl_max_attained (l : List α) (n : Nat) :
    l.foldl (fun m x => max m (f x)) n = n ∨ ∃ x ∈ l, l.foldl (fun m x => max m (f x)) n = f x := by
  induction l generalizing n with
  | nil => exact .inl rfl
  | cons a l ih =>
    rw [List.foldl_cons]
    rcases ih (max n (f a)) with hstart | ⟨x, hx, hfx⟩
    · rcases max_choice n (f a) with hn | ha
      · exact .inl (hstart.trans hn)
      · exact .inr ⟨a, List.mem_cons_self, hstart.trans ha⟩
    · exact .inr ⟨x, List.mem_cons_of_mem _ hx, hfx⟩

end LargestOf

theorem mem_allEngines (e : Engine) : e ∈ allEngines := by cases e <;> decide

/-! ## STOP (R154, R465) -/

theorem State.ready_le_stopFrom (s : State) (k : Nat) (e : Engine) :
    (if s.stalled k e = true then (s.testOf k e).2 else ((s.core k).stream e).ready) ≤ s.stopFrom k :=
  (le_foldl_max (fun e => if s.stalled k e then (s.testOf k e).2 else ((s.core k).stream e).ready) allEngines 0).2 e (mem_allEngines e)

theorem exec_coreStop_stops {s : State} {k : Nat} (hk : k < 768) (hon : s.group (groupOf k) = .on) (hruns : k ∉ s.power.stopped)
    (hstop : s.mayStop k = true) {u : State} (hu : u = s.advance (s.stopFrom k + bits s.power.sleep.toNat 9 0 + 1)) :
    exec (.coreStop k) s = .next (({ u with power := { u.power with stopped := markPut u.power.stopped k } } : State).modCore k fun c =>
      c.modCtl fun r => { r with stopAt := some u.now }) := by
  have hgo : (decide (k < 768) && s.group (groupOf k) == .on && !s.power.stopped.contains k && s.mayStop k) = true := by simp [hk, hon, hruns, hstop]
  show execCoreStop k s = _
  rw [execCoreStop, if_pos hgo, hu]
  rfl

theorem exec_coreStop_runs {s : State} {k : Nat} (h : s.mayStop k = false) : exec (.coreStop k) s = .next s := by
  show execCoreStop k s = _
  rw [execCoreStop, if_neg (by simp [h])]

/-- A core that may stop is at rest but for its waits (R154). -/
theorem State.mayStop_rests {s : State} {k : Nat} (h : s.mayStop k = true) :
    (s.core k).mx.ops = [] ∧ (s.core k).vx.loads = [] ∧ (s.core k).vx.runs = [] ∧ (s.core k).dx.ops = [] ∧ (s.core k).sx.acc = [] ∧
    (∀ o ∈ (s.core k).nx.ops, o.kind = .wait) ∧
    (∀ e, ((s.core k).stream e).sendAt = none ∧ (((s.core k).stream e).state = .ended ∨ ((s.core k).stream e).state = .abandoned ∨
      ((s.core k).stream e).state = .waitArr ∨ s.stalled k e = true)) ∧
    ((∃ e, ((s.core k).stream e).state = .waitArr) ∨ (s.core k).finished = true) := by
  simp only [State.mayStop, Bool.and_eq_true, Bool.or_eq_true, List.isEmpty_iff, List.all_eq_true, List.any_eq_true, beq_iff_eq, Option.isNone_iff_eq_none,
    mem_allEngines, true_and, forall_const, and_assoc, List.contains_iff_mem, List.mem_cons, List.not_mem_nil, or_false, or_assoc] at h
  obtain ⟨hmx, hloads, hruns, hdx, hsx, hnx, -, hstreams, hwaits⟩ := h
  exact ⟨hmx, hloads, hruns, hdx, hsx, fun o ho => (hnx o ho).1, hstreams, hwaits⟩

/-! ## RETAIN (R465) -/

theorem exec_retainEntry_enters {s : State} {g : Nat} (hg : g < 96) (hon : s.group g = .on) (hen : bit s.power.sleep.toNat 10 = true)
    (hall : ∀ k < 768, groupOf k = g → k ∈ s.power.stopped) :
    exec (.retainEntry g) s = .next ((s.advanceTick (s.stoppedTick g + bits s.power.sleep.toNat 31 16 + 1)).modPower fun p =>
      { p with groups := keyPut p.groups g .retain }) := by
  have hstopped : ((groupCores g).all fun k => s.power.stopped.contains k) = true := by
    simp only [List.all_eq_true, List.contains_iff_mem]
    intro k hk
    obtain ⟨hlt, hgk⟩ := mem_groupCores.mp hk
    exact hall k hlt hgk
  have hgo : (decide (g < 96) && bit s.power.sleep.toNat 10 && s.group g == .on && (groupCores g).all fun k => s.power.stopped.contains k) = true := by
    rw [hstopped, hen, hon, decide_eq_true hg]; rfl
  show execRetainEntry g s = _
  rw [execRetainEntry, if_pos hgo]

theorem exec_retainEntry_stays {s : State} {g : Nat} (h : bit s.power.sleep.toNat 10 = false ∨ ∃ k < 768, groupOf k = g ∧ k ∉ s.power.stopped) :
    exec (.retainEntry g) s = .next s := by
  have hno : ¬(bit s.power.sleep.toNat 10 = true ∧ ((groupCores g).all fun k => s.power.stopped.contains k) = true) := by
    rintro ⟨hen, hall⟩
    rcases h with hdis | ⟨k, hk, hgk, hruns⟩
    · exact absurd (hen.symm.trans hdis) (by decide)
    · exact hruns (List.contains_iff_mem.mp (List.all_eq_true.mp hall k (mem_groupCores.mpr ⟨hk, hgk⟩)))
  show execRetainEntry g s = _
  rw [execRetainEntry, if_neg]
  simp only [Bool.and_eq_true]
  rintro ⟨⟨⟨-, hen⟩, -⟩, hall⟩
  exact hno ⟨hen, hall⟩

/-- The cycle in which the last core of group g stopped. -/
def State.lastStop (s : State) (g : Nat) : Nat := (groupCores g).foldl (fun n k => max n ((s.core k).ctl.stopAt.getD 0)) 0

theorem State.stopAt_le_lastStop {s : State} {g k : Nat} (hk : k < 768) (hg : groupOf k = g) : (s.core k).ctl.stopAt.getD 0 ≤ s.lastStop g :=
  (le_foldl_max (fun k => (s.core k).ctl.stopAt.getD 0) (groupCores g) 0).2 k (mem_groupCores.mpr ⟨hk, hg⟩)

theorem State.lastStop_attained (s : State) (g : Nat) :
    s.lastStop g = 0 ∨ ∃ k < 768, groupOf k = g ∧ (s.core k).ctl.stopAt = some (s.lastStop g) := by
  rcases foldl_max_attained (fun k => (s.core k).ctl.stopAt.getD 0) (groupCores g) 0 with hz | ⟨k, hk, hlast⟩
  · exact .inl hz
  · obtain ⟨hlt, hg⟩ := mem_groupCores.mp hk
    have hlast' : s.lastStop g = (s.core k).ctl.stopAt.getD 0 := hlast
    cases hstop : (s.core k).ctl.stopAt with
    | none => exact .inl (hlast'.trans (by rw [hstop]; rfl))
    | some u => exact .inr ⟨k, hlt, hg, by rw [hlast', hstop]; rfl⟩

/-! ## WAKE (R154, R465 to R467) -/

/-- A core that runs again counts on from the cycle in which it stopped. -/
theorem Core.resume_of_stopAt {c : Core} {t u : Nat} (h : c.ctl.stopAt = some u) :
    c.resume t = { c with ctl := { c.ctl with stopAt := none, cycleBase := c.ctl.cycleBase + (t - u) } } := by
  unfold Core.resume
  rw [h]
  rfl

theorem Core.resume_ctl (c : Core) (t : Nat) : c.resume t = { c with ctl := (c.resume t).ctl } := by
  unfold Core.resume
  split <;> rfl

/-- CORE_CYCLE has no gap (R154). -/
theorem State.coreCycle_resume {s t : State} {c : Core} {u : Nat} (hnow : t.now = s.now) (hfrom : t.power.coresFrom = s.power.coresFrom)
    (hstop : c.ctl.stopAt = some u) (hpast : u ≤ s.now) (hrun : s.power.coresFrom + c.ctl.cycleBase ≤ u) :
    t.coreCycle (c.resume s.now) = s.coreCycle c := by
  rw [Core.resume_of_stopAt hstop, State.coreCycle, State.coreCycle, hstop, hnow, hfrom]
  simp only [Option.getD_none, Option.getD_some]
  congr 1
  omega

theorem State.groupOn_power (s : State) (g : Nat) :
    (s.groupOn g).power.coresFrom = s.power.coresFrom ∧ (s.groupOn g).power.stopped = s.power.stopped ∧ (s.groupOn g).faults = s.faults := by
  unfold State.groupOn State.noteOn
  dsimp only
  rw [s.leaveIdle_kept]
  exact ⟨rfl, rfl, rfl⟩

/-- The state in which group g is ON, from one in which it is ON or in RETAIN. -/
def State.roused (s : State) (g : Nat) : State := if s.group g == .retain then s.groupOn g else s

theorem State.roused_group_same {s : State} {g : Nat} (h : s.group g = .on ∨ s.group g = .retain) : (s.roused g).group g = .on := by
  unfold State.roused
  rcases h with hon | hret
  · rw [hon]; exact hon
  · rw [hret]; exact State.group_groupOn_same s g

theorem State.roused_group_other (s : State) {g h : Nat} (e : h ≠ g) : (s.roused g).group h = s.group h := by
  unfold State.roused
  split
  · exact State.group_groupOn_other s e
  · rfl

theorem State.roused_kept (s : State) (g : Nat) : (s.roused g).now = s.now ∧ (s.roused g).faults = s.faults ∧
    (s.roused g).power.stopped = s.power.stopped ∧ (s.roused g).power.coresFrom = s.power.coresFrom := by
  unfold State.roused
  obtain ⟨hfrom, hstopped, hfaults⟩ := State.groupOn_power s g
  split
  · exact ⟨(State.groupOn_kept s g).1, hfaults, hstopped, hfrom⟩
  · exact ⟨rfl, rfl, rfl, rfl⟩

theorem State.wakeCore_stopped {s : State} {k : Nat} (h : k ∈ s.power.stopped) : s.wakeCore k =
    ({ s.roused (groupOf k) with power := { (s.roused (groupOf k)).power with
      stopped := (s.roused (groupOf k)).power.stopped.filter (· != k) } } : State).modCore k fun c => c.resume (s.roused (groupOf k)).now := by
  rw [State.wakeCore, if_pos (List.contains_iff_mem.mpr h)]
  rfl

/-- What a wake event of a stopped core leaves of the module: the core out of STOP, its group ON, no fault, no time. -/
theorem State.wakeCore_wakes {s : State} {k : Nat} (h : k ∈ s.power.stopped) (hg : s.group (groupOf k) = .on ∨ s.group (groupOf k) = .retain) :
    (∀ j, j ∈ (s.wakeCore k).power.stopped ↔ j ≠ k ∧ j ∈ s.power.stopped) ∧ (s.wakeCore k).group (groupOf k) = .on ∧
    (∀ g, g ≠ groupOf k → (s.wakeCore k).group g = s.group g) ∧ (s.wakeCore k).now = s.now ∧ (s.wakeCore k).faults = s.faults ∧
    (s.wakeCore k).power.coresFrom = s.power.coresFrom := by
  obtain ⟨hnow, hfaults, hstopped, hfrom⟩ := State.roused_kept s (groupOf k)
  rw [State.wakeCore_stopped h]
  refine ⟨fun j => ?_, State.roused_group_same hg, fun g e => State.roused_group_other s e, hnow, hfaults, hfrom⟩
  rw [State.modCore_power, hstopped, List.mem_filter, and_comm, bne_iff_ne]

theorem State.wakeCore_core_same {s : State} {k : Nat} (h : k ∈ s.power.stopped) : (s.wakeCore k).core k = (s.core k).resume s.now := by
  rw [State.wakeCore_core, if_pos ⟨rfl, List.contains_iff_mem.mpr h⟩]

theorem State.wakeCore_core_other {s : State} {k j : Nat} (h : j ≠ k) : (s.wakeCore k).core j = s.core j := by
  rw [State.wakeCore_core, if_neg fun e => h e.1]

section Wakes
variable {s : State} {k : Nat} {ok : Bool} (hk : k < 768)
include hk

theorem exec_wake_sleeping (h : s.group (groupOf k) = .on ∨ s.group (groupOf k) = .retain ∧ ok = true) :
    exec (.wake k ok) s = .next (s.wakeCore k) := by
  show execWake k ok s = _
  simp only [execWake, if_neg (Nat.not_le.mpr hk)]
  rcases h with hon | ⟨hret, rfl⟩
  · rw [hon]
  · rw [hret]; rfl

theorem exec_wake_fails (h : s.group (groupOf k) = .retain ∨
    s.group (groupOf k) = .off ∧ bit (s.power.offReq.getD (groupOf k / 32) 0).toNat (groupOf k % 32) = false) :
    exec (.wake k false) s = .next (s.groupFails (groupOf k)) := by
  show execWake k false s = _
  simp only [execWake, if_neg (Nat.not_le.mpr hk)]
  rcases h with hret | ⟨hoff, hreq⟩
  · rw [hret]; rfl
  · rw [hoff, hreq, State.powerGroup, hoff]; rfl

theorem exec_wake_powers (hoff : s.group (groupOf k) = .off) (hreq : bit (s.power.offReq.getD (groupOf k / 32) 0).toNat (groupOf k % 32) = false) :
    exec (.wake k true) s = .next (s.powerGroup (groupOf k) true) := by
  show execWake k true s = _
  simp only [execWake, if_neg (Nat.not_le.mpr hk)]
  rw [hoff, hreq]; rfl

theorem exec_wake_requestedOff (hoff : s.group (groupOf k) = .off)
    (hreq : bit (s.power.offReq.getD (groupOf k / 32) 0).toNat (groupOf k % 32) = true) : exec (.wake k ok) s = .next s := by
  show execWake k ok s = _
  simp only [execWake, if_neg (Nat.not_le.mpr hk)]
  rw [hoff, hreq]; rfl

theorem exec_wake_failed (hf : s.group (groupOf k) = .failed) : exec (.wake k ok) s = .next s := by
  show execWake k ok s = _
  simp only [execWake, if_neg (Nat.not_le.mpr hk)]
  rw [hf]

end Wakes

/-- What a group's leaving OFF does (R465, R466). -/
theorem State.powerGroup_spec {s : State} {g : Nat} (hoff : s.group g = .off) : ∃ t, s.powerGroup g true = t ∧ t.group g = .on ∧
    (∀ h, h ≠ g → t.group h = s.group h) ∧ t.faults = s.faults ∧ t.now = s.now ∧
    (∀ j, j < 768 → groupOf j = g → t.core j = (s.core j).powered (s.now - s.power.coresFrom)) ∧ (∀ j, groupOf j ≠ g → t.core j = s.core j) := by
  obtain ⟨u, hu, hkept, hcores⟩ := foldl_powered (groupCores g) s (groupCores_nodup g)
  have hpower : u.power = s.power := by rw [hkept]
  have hcore (j : Nat) : (u.groupOn g).core j = u.core j := by rw [State.core, (State.groupOn_kept u g).2.2.2.2.1]; rfl
  have hgroups (h : Nat) : u.group h = s.group h := State.group_eq (by rw [hpower]) h
  refine ⟨u.groupOn g, ?_, State.group_groupOn_same u g, fun h e => (State.group_groupOn_other u e).trans (hgroups h), ?_, ?_, fun j hj hg => ?_,
    fun j hg => ?_⟩
  · rw [State.powerGroup, hoff, ← hu]; rfl
  · rw [(State.groupOn_power u g).2.2, hkept]
  · rw [(State.groupOn_kept u g).1, hkept]
  · rw [hcore]; exact (hcores j).1 (mem_groupCores.mpr ⟨hj, hg⟩)
  · rw [hcore]; exact (hcores j).2 fun hm => hg (mem_groupCores.mp hm).2

/-! ## PWR_OFF_REQ (R466) -/

/-- Whether a core of group g is attached. -/
def State.attachedIn (s : State) (g : Nat) : Bool := (groupCores g).any fun k => (s.core k).ctl.attached

theorem State.attachedIn_iff {s : State} {g : Nat} : s.attachedIn g = true ↔ ∃ k < 768, groupOf k = g ∧ (s.core k).ctl.attached = true := by
  simp only [State.attachedIn, List.any_eq_true, mem_groupCores, and_assoc]

theorem State.attachedIn_eq_false {s : State} {g : Nat} : s.attachedIn g = false ↔ ∀ k < 768, groupOf k = g → (s.core k).ctl.attached = false := by
  simp only [State.attachedIn, List.any_eq_false, mem_groupCores, Bool.not_eq_true, and_imp]

/-- The first of the groups of a request of which p holds. -/
theorem reqGroups_find {w b : Nat} {v : Word32} {p : Nat → Bool} (hb : b < 32) (hv : bit v.toNat b = true) (hp : p (32 * w + b) = true)
    (hfirst : ∀ c < b, bit v.toNat c = true → p (32 * w + c) = false) : (reqGroups w v).find? p = some (32 * w + b) := by
  have hlow : (List.range 32).find? (fun c => decide (bit v.toNat c = true ∧ (p ∘ fun c => 32 * w + c) c = true)) = some b := by
    rw [List.find?_range_eq_some]
    refine ⟨decide_eq_true ⟨hv, hp⟩, List.mem_range.mpr hb, fun c hc => ?_⟩
    rw [decide_eq_false]
    · rfl
    · rintro ⟨hbit, hmeets⟩
      exact absurd ((hfirst c hc hbit).symm.trans hmeets) (by decide)
  rw [reqGroups, List.find?_map, List.find?_filter, hlow]
  rfl

theorem exec_pwrOffReqWrite {s : State} {w : Nat} {v : Word32} (hw : w < 3) :
    exec (.pwrOffReqWrite (0x300010 + 4 * w) v) s = .next (s.writeOffReq w v).2 := by
  show execPwrOffReqWrite (0x300010 + 4 * w) v s = _
  rw [execPwrOffReqWrite, if_pos (by omega), show (0x300010 + 4 * w - 0x300010) / 4 = w by omega]

/-- The groups that a write of PWR_OFF_REQ newly requests. -/
def State.newlyOff (s : State) (w : Nat) (v : Word32) : List Nat := reqGroups w (v &&& ~~~(s.power.offReq.getD w 0))

theorem State.mem_newlyOff {s : State} {w g : Nat} {v : Word32} : g ∈ s.newlyOff w v ↔
    ∃ b < 32, g = 32 * w + b ∧ bit v.toNat b = true ∧ bit (s.power.offReq.getD w 0).toNat b = false := mem_reqGroups

theorem State.writeOffReq_refused {s : State} {w g : Nat} {v : Word32} (h : (s.newlyOff w v).find? s.attachedIn = some g) :
    (s.writeOffReq w v).2 = s.powerFault 0x0630 (groupDomain g) 0 := by
  unfold State.writeOffReq
  dsimp only
  rw [show (reqGroups w (v &&& ~~~(s.power.offReq.getD w 0))).find? (fun g => (groupCores g).any fun k => (s.core k).ctl.attached) = some g from h]

theorem State.writeOffReq_done {s : State} {w : Nat} {v : Word32} (h : (s.newlyOff w v).find? s.attachedIn = none) :
    (s.writeOffReq w v).2 = (s.newlyOff w v).foldl State.groupOff (s.modPower fun p => { p with offReq := p.offReq.set w v }) := by
  unfold State.writeOffReq
  dsimp only
  rw [show (reqGroups w (v &&& ~~~(s.power.offReq.getD w 0))).find? (fun g => (groupCores g).any fun k => (s.core k).ctl.attached) = none from h]
  rfl

/-- A write of PWR_OFF_REQ that names an attached core is refused under its first such group. -/
theorem pwrOffReq_refused {s : State} {w b : Nat} {v : Word32} (hw : w < 3) (hb : b < 32) (hv : bit v.toNat b = true)
    (hnew : bit (s.power.offReq.getD w 0).toNat b = false) (hattached : s.attachedIn (32 * w + b) = true)
    (hfirst : ∀ c < b, bit v.toNat c = true → bit (s.power.offReq.getD w 0).toNat c = false → s.attachedIn (32 * w + c) = false) :
    exec (.pwrOffReqWrite (0x300010 + 4 * w) v) s = .next (s.powerFault 0x0630 (groupDomain (32 * w + b)) 0) := by
  rw [exec_pwrOffReqWrite hw, State.writeOffReq_refused]
  refine reqGroups_find hb (by rw [bit_andNot hb, hv, hnew]; rfl) hattached fun c hc hbit => ?_
  rw [bit_andNot (by omega), Bool.and_eq_true, Bool.not_eq_true'] at hbit
  exact hfirst c hc hbit.1 hbit.2

/-- A write of PWR_OFF_REQ that names no attached core turns its new groups OFF. -/
theorem pwrOffReq_done {s : State} {w : Nat} {v : Word32} (hw : w < 3) (hnone : ∀ g ∈ s.newlyOff w v, s.attachedIn g = false) :
    exec (.pwrOffReqWrite (0x300010 + 4 * w) v) s =
      .next ((s.newlyOff w v).foldl State.groupOff (s.modPower fun p => { p with offReq := p.offReq.set w v })) := by
  rw [exec_pwrOffReqWrite hw, State.writeOffReq_done]
  refine List.find?_eq_none.mpr ?_
  intro g hg
  rw [hnone g hg]
  exact Bool.false_ne_true

/-! ## The statement -/

/-- Settles O57: each command is one of its own laws; a core's and a group's state go through STOP, RETAIN and OFF by `wakeCore`, `groupOff` and
`powerGroup`. -/
theorem sleepStates : Obligations.SleepStates := by
  unfold Obligations.SleepStates
  refine ⟨fun s k hk => ?stop, fun s g hg hon => ?retain, fun s k g ok hk hgk => ?wake, fun s w v hw _ => ?off⟩
  case stop =>
    refine ⟨fun hon hruns hstop => ?_, exec_coreStop_runs, State.mayStop_rests, fun e => ⟨fun hst => ?_, fun hst => ?_⟩⟩
    · refine ⟨_, _, rfl, exec_coreStop_stops hk hon hruns hstop rfl, rfl, fun j => ?_, fun j hj => State.core_modCore_other _ _ _ _ hj,
        State.core_modCore_same ..⟩
      rw [State.modCore_power, State.advance_power]
      exact mem_markPut
    · simpa only [hst, if_true] using s.ready_le_stopFrom k e
    · simpa only [hst, Bool.false_eq_true, if_false] using s.ready_le_stopFrom k e
  case retain =>
    refine ⟨fun hen hall => ?_, exec_retainEntry_stays⟩
    exact ⟨s.lastStop g, _, fun k hk hgk => State.stopAt_le_lastStop hk hgk, s.lastStop_attained g, rfl, exec_retainEntry_enters hg hon hen hall⟩
  case wake =>
    subst hgk
    refine ⟨fun hg hstopped => ?wakes, fun hg hok => ?fails, fun hoff hreq hok => ?powers, exec_wake_requestedOff hk, exec_wake_failed hk⟩
    case wakes =>
      obtain ⟨hset, hon, hgroups, hnow, hfaults, hfrom⟩ := State.wakeCore_wakes hstopped (hg.imp_right And.left)
      refine ⟨_, exec_wake_sleeping hk hg, hset, hon, hgroups, fun j hj => State.wakeCore_core_other hj, hnow, hfaults, ?_⟩
      rw [State.wakeCore_core_same hstopped]
      refine ⟨Core.resume_ctl .., fun u hu hpast => ⟨?_, State.coreCycle_resume hnow hfrom hu hpast⟩⟩
      rw [Core.resume_of_stopAt hu]
    case fails =>
      subst hok
      obtain ⟨t, rfl, hall⟩ := State.groupFails_spec s (groupOf k)
      exact ⟨_, exec_wake_fails hk hg, hall⟩
    case powers =>
      subst hok
      obtain ⟨t, rfl, hall⟩ := State.powerGroup_spec hoff
      exact ⟨_, exec_wake_powers hk hoff hreq, hall⟩
  case off =>
    refine ⟨fun b hb hv hnew hattached hfirst => ?refused, fun hnone => ?done⟩
    case refused =>
      exact pwrOffReq_refused hw hb hv hnew (State.attachedIn_iff.mpr hattached) fun c hc hbit hold =>
        State.attachedIn_eq_false.mpr (hfirst c hc hbit hold)
    case done =>
      obtain ⟨t, rfl, hnow, -, hfaults, hreq, hoff, hkept⟩ := State.foldl_groupOff (s.newlyOff w v)
        (s.modPower fun p => { p with offReq := p.offReq.set w v }) (reqGroups_nodup ..)
      have hmem (g : Nat) : (∃ b < 32, g = 32 * w + b ∧ bit v.toNat b = true ∧ bit (s.power.offReq.getD w 0).toNat b = false ∧ s.group g ≠ .failed) ↔
          g ∈ s.newlyOff w v ∧ s.group g ≠ .failed := by
        simp only [State.mem_newlyOff, ← and_assoc, exists_and_right]
      refine ⟨_, pwrOffReq_done hw fun g hg => ?_, hreq, hfaults, hnow, fun g hg => ?_, fun g hg => ?_⟩
      · obtain ⟨b, hb, rfl, hv, hnew⟩ := State.mem_newlyOff.mp hg
        exact State.attachedIn_eq_false.mpr (hnone b hb hv hnew)
      · obtain ⟨hin, hok⟩ := (hmem g).mp hg
        exact hoff g hin hok
      · exact hkept g fun h => hg ((hmem g).mpr h)

end Sys2Proof.Machine

/-! SUPPORT. The data mover: the issue of its operations, the end of one, and the units that it moves. -/

namespace Sys2Proof.Machine

/-! ## Issue of an operation (R174, R178, R179) -/

theorem bits_from_zero (v hi : Nat) : bits v hi 0 = v % 2 ^ (hi + 1) := by rw [bits, pow_zero, Nat.div_one, Nat.sub_zero]

theorem ofNat_mod_two_pow (w x : Nat) : BitVec.ofNat w (x % 2 ^ w) = BitVec.ofNat w x := BitVec.eq_of_toNat_eq (by simp)

/-- Whether the data mover refuses an operation does not depend on the streams and the counters. -/
theorem Core.engGoes_dxRefusal (c : Core) (e : Engine) (i w u t : Nat) (o : DxOp) : (c.engGoes e i w u).dxRefusal t o = c.dxRefusal t o := by
  cases e <;> rfl

theorem Core.engGoes_stampOf (c : Core) (e : Engine) (i w u b : Nat) : (c.engGoes e i w u).stampOf b = c.stampOf b := by
  cases e <;> rfl

/-- No row of the data mover makes an operation that is refused or has met a stamp. -/
theorem dxRows_fresh {row : (Nat → Instr) × Nat × (Core → Nat → Owed → DxOp)} (hrow : row ∈ dxRows) (c : Core) (w : Nat) (o : Owed) :
    (row.2.2 c w o).refused = false ∧ (row.2.2 c w o).stamp = false := by
  simp only [dxRows, List.mem_cons, List.not_mem_nil, or_false] at hrow
  rcases hrow with rfl | rfl | rfl | rfl | rfl | rfl <;> exact ⟨rfl, rfl⟩

/-- Each row of the data mover issues, as any engine word does, the operation that its word makes. -/
theorem exec_dxRow_issues {s : State} {k i w u : Nat} (h : EngIssues s k .dx i w u (s.core k).dxs.ready)
    {row : (Nat → Instr) × Nat × (Core → Nat → Owed → DxOp)} (hrow : row ∈ dxRows) (hop : hOpc w = row.2.1) :
    exec (row.1 k) s = .next (((s.advance u).modCore k fun c => c.engGoes .dx i w u).issueDx k (row.2.2 (s.core k) w (owedOf w i)) false) := by
  simp only [dxRows, List.mem_cons, List.not_mem_nil, or_false] at hrow
  rcases hrow with rfl | rfl | rfl | rfl | rfl | rfl
  all_goals
    refine congrArg Host.Outcome.next ((State.issueOp_ready h (by simp [wantOp, hop])).trans ?_)
    simp only [h.issued_core, dfLine, dcSline, dlSline, dsSline, daBank, bits_from_zero]
    rfl

/-! ## DPAT (R174) -/

theorem exec_dpat_issues {s : State} {k i w u : Nat} (h : EngIssues s k .dx i w u (s.core k).dxs.ready) (hop : hOpc w = 1)
    (hroom : ((s.core k).engSync w u).roomFor u (owedOf w i) = true) :
    exec (.dpat k) s = .next ((s.advance u).modCore k fun c => (((c.engGoes .dx i w u).modStream .dx fun x => { x with ready := u + 1 }).modDx fun d =>
      { d with fillpat := BitVec.ofNat 32 w }).completed u (owedOf w i)) := by
  have hpat : BitVec.ofNat 32 (bits w 31 0) = BitVec.ofNat 32 w := by rw [bits_from_zero, ofNat_mod_two_pow]
  refine congrArg Host.Outcome.next ((State.issueOp_ready h (by simp [wantOp, hop])).trans ?_)
  rw [if_neg Bool.false_ne_true, hpat]
  dsimp only
  rw [State.setReady, State.modStream, State.modCore_modCore, State.modCore_modCore, State.modCore_now, h.issued_now]
  exact h.completes rfl hroom

/-! ## An operation that has moved its units (R96, R179) -/

/-- The core after the operation o has left in cycle u: WRITERS of a DACW's bank falls. -/
def Core.dxLeaves (c : Core) (o : DxOp) (u : Nat) : Core :=
  { c with
    dx := { c.dx with ops := dropDx o c.dx.ops }
    mx := if o.kind = .acw then { c.mx with stamps := modAt c.mx.stamps o.bank fun x => { x with writers := x.writers - 1, writeFall := some u } } else c.mx }

theorem exec_dxComplete_moved {s : State} {k t u : Nat} {o : DxOp} (hcalm : s.overs = []) (hfirst : firstDx s.ctEDX s.ctDDX (s.core k).dx.ops = some (t, o))
    (href : o.refused = false) (hbin : o.bin = none) (hends : o.owed.ends = []) (hu : u = max s.now t) (hroom : (s.core k).sync.roomFor u o.owed = true) :
    exec (.dxComplete k) s = .next ((s.advance t).modCore k fun c => (c.dxLeaves o u).completed u o.owed) := by
  have hnow : (s.advance t).now = u := by rw [State.advance_now, hu]
  have hleaves : (let y := (s.advance t).modCore k fun c => c.modDx fun d => { d with ops := dropDx o d.ops }
      if o.kind == .acw then y.writeDone k o.bank else y) = (s.advance t).modCore k fun c => c.dxLeaves o u := by
    dsimp only
    by_cases hacw : o.kind = .acw
    · rw [if_pos (by rw [hacw]; rfl), State.writeDone, State.modStamp, State.modCore_modCore, State.modCore_now, hnow]
      refine State.modCore_congr ?_
      rw [Core.dxLeaves, if_pos hacw]
      rfl
    · rw [if_neg (by simpa using hacw)]
      refine State.modCore_congr ?_
      rw [Core.dxLeaves, if_neg hacw]
      rfl
  show execDxComplete k s = _
  simp only [execDxComplete, hfirst, href, hbin, Bool.false_eq_true, if_false, State.binDone_none]
  rw [hleaves, State.complete_eq hends (by rw [State.advance_core hcalm, hnow]; exact hroom), hnow]

/-- Settles O21: every row issues the operation of its word, which changes the mover, the bound of its stream, the stamp of a DACW's bank and the
high-water mark of an APPEND region; the end of an operation is its leaving and its signals. -/
theorem dataMover : Obligations.DataMover := by
  unfold Obligations.DataMover
  refine ⟨fun s k i w u h => ⟨fun row hrow o hop ho hgo hstamp => ?issue, fun hop hroom => ?pattern⟩,
    fun s k t u o hcalm hfirst href hbin hends hu hroom => ?complete⟩
  case issue =>
    have he := exec_dxRow_issues h hrow hop
    obtain ⟨hfresh, hclean⟩ := dxRows_fresh hrow (s.core k) w (owedOf w i)
    rw [← ho] at he hfresh hclean
    rw [issueDx_ok h.calm rfl h.now_le (by rwa [Core.engGoes_dxRefusal]) hfresh hclean fun hacw => by rw [Core.engGoes_stampOf]; exact hstamp hacw] at he
    refine ⟨_, he, h.issued_now, OnlyCore.issued k u h.calm _, ?_⟩
    rw [State.core_modCore_same, State.advance_core h.calm]
  case pattern =>
    refine ⟨_, exec_dpat_issues h hop hroom, h.issued_now, OnlyCore.issued k u h.calm _, ?_⟩
    rw [State.core_modCore_same, State.advance_core h.calm]
  case complete =>
    refine ⟨_, exec_dxComplete_moved hcalm hfirst href hbin hends hu hroom, ?_, OnlyCore.issued k t hcalm _, ?_⟩
    · rw [State.modCore_now, State.advance_now, hu]
    · rw [State.core_modCore_same, State.advance_core hcalm]
      rfl

end Sys2Proof.Machine

/-! SUPPORT. The units of the data mover: a fill and a load written to the scratchpad, a load read from the stock, a store written to it. -/

namespace Sys2Proof.Machine

/-- The change of one memory that a cycle makes stays one when only time has passed before it. -/
theorem OnlyMem.advance {s v : State} {k t : Nat} {scr stock : Store} {c : Core} (hcalm : s.overs = []) (h : OnlyMem k (s.advance t) v scr stock c) :
    OnlyMem k s v scr stock c :=
  ⟨(OnlyCore.advance k hcalm t).trans h.1, h.2⟩

theorem exec_dxUnitTransfer_write {s : State} {k t : Nat} {o : DxOp} (hnext : nextTransfer s.ctEDX s.ctDDX (s.core k).dx.ops = some (t, true, o)) :
    exec (.dxUnitTransfer k) s = .next ((s.advance t).writeUnit k t o) := by
  show execDxUnitTransfer k s = _
  rw [execDxUnitTransfer, hnext]
  rfl

/-- The mover after the stock line of the next unit of the operation o has been read. -/
def Core.lineRead (c : Core) (o : DxOp) (l : List (PWord 32)) : Core :=
  c.modDx fun d => { d with ops := modDxOp (· == o) (fun _ => { o with rd := o.rd + 1, buf := o.buf ++ [[l]] }) d.ops }

section Unit
variable {s : State} {k t : Nat} {o : DxOp}

theorem State.readUnit_ld (hkind : o.kind = .ld) (hport : ((s.core k).mx.portCycles.find? fun x => decide (x.1 ≤ t) && decide (t ≤ x.2)) = none)
    (hzero : (s.core k).readsZero true (o.src + o.rd) = false) (hclean : ∀ j, j < 32 → (s.core k).mem.stock.flaw (32 * (o.src + o.rd) + j) = none) :
    s.readUnit k t o = s.modCore k fun c => c.lineRead o ((s.core k).stockLine (o.src + o.rd)) := by
  have hstock : o.readsStock = true := by rw [DxOp.readsStock, hkind]; rfl
  have hscr : o.readsScr = false := by rw [DxOp.readsScr, hkind]; rfl
  have hacr : (DxKind.ld == DxKind.acr) = false := rfl
  have hunit : o.unit = 1 := by rw [DxOp.unit, hkind]
  simp only [State.readUnit, Core.lineRead, hkind, hacr, hstock, hscr, hunit, State.takePort_free hport, State.readStockLines,
    State.readStockLine_clean hzero hclean, Core.loseDx, Bool.false_and, Bool.and_false, Bool.false_eq_true, if_false, if_true, Nat.mul_one, Nat.add_zero]
  rfl

theorem exec_dxUnitTransfer_readLd (hcalm : s.overs = []) (hnext : nextTransfer s.ctEDX s.ctDDX (s.core k).dx.ops = some (t, false, o)) (hkind : o.kind = .ld)
    (hport : ((s.core k).mx.portCycles.find? fun x => decide (x.1 ≤ t) && decide (t ≤ x.2)) = none)
    (hzero : (s.core k).readsZero true (o.src + o.rd) = false) (hclean : ∀ j, j < 32 → (s.core k).mem.stock.flaw (32 * (o.src + o.rd) + j) = none) :
    exec (.dxUnitTransfer k) s = .next ((s.advance t).modCore k fun c => c.lineRead o ((s.core k).stockLine (o.src + o.rd))) := by
  have hacr : (o.kind == DxKind.acr) = false := by rw [hkind]; rfl
  have hcore := State.advance_core hcalm t k
  show execDxUnitTransfer k s = _
  rw [execDxUnitTransfer, hnext]
  simp only [hacr, Bool.false_and, Bool.false_eq_true, if_false]
  rw [State.readUnit_ld hkind (by rwa [hcore]) (by rwa [hcore]) (by rwa [hcore]), hcore]

end Unit

theorem DxOp.fill_lines {o : DxOp} (hkind : o.kind = .fill) (hscr : o.stock = false) : o.unit = 4 ∧ o.unitLines o.wr = min 4 (o.count - 4 * o.wr) := by
  have hunit : o.unit = 4 := by rw [DxOp.unit, hkind, hscr]; rfl
  refine ⟨hunit, ?_⟩
  rw [DxOp.unitLines, hunit, DxOp.lines, hkind, Nat.mul_comm]

/-- Settles O22: a unit that is written is one store of lines beside the change of the mover; a unit that is read leaves its line in the mover. -/
theorem dxMoves : Obligations.DxMoves := by
  unfold Obligations.DxMoves
  intro s k t wr o hcalm hnext hdue hbin hreads hfree hport hscr hstock
  have hcore := State.advance_core hcalm t k
  have hnow : (s.advance t).now = t := by rw [State.advance_now, Nat.max_eq_right hdue]
  refine ⟨fun hwr hkind hmem => ?fill, fun hwr hkind hzero hclean => ?read,
    fun l rest hwr hkind hbuf hlen hl => ?load, fun l rest hwr hkind hbuf hlen hl => ?store⟩
  case fill =>
    subst hwr
    obtain ⟨hunit, hlines⟩ := DxOp.fill_lines hkind hmem
    obtain ⟨scr, hvnow, honly, hwords⟩ := writeUnit_scr (s := s.advance t) (k := k) (o := o) hnow hbin (by rwa [hcore]) (State.slotFree_advance hcalm hfree)
      (.inl ⟨hkind, hmem⟩) (if_pos hkind).symm
      (fun l hl => by
        rw [List.eq_of_mem_replicate hl]
        exact ⟨List.length_replicate, fun x hx => by rw [List.eq_of_mem_replicate hx]⟩) (by rwa [hcore])
    rw [hcore] at honly hwords
    refine ⟨_, scr, exec_dxUnitTransfer_write hnext, hvnow, honly.advance hcalm, fun w => ?_⟩
    rw [hwords, hunit, List.length_replicate, hlines, Nat.mul_comm o.wr 4]
    refine if_ctx_congr Iff.rfl (fun hin => ?_) fun _ => rfl
    rw [getD_replicate (by omega), getD_replicate (Nat.mod_lt _ (by decide))]
  case read =>
    subst hwr
    refine ⟨_, exec_dxUnitTransfer_readLd hcalm hnext hkind hport hzero hclean, hnow, OnlyCore.issued k t hcalm _, ?_⟩
    rw [State.core_modCore_same, hcore]
    rfl
  case load =>
    subst hwr
    have hunit : o.unit = 1 := by rw [DxOp.unit, hkind]
    obtain ⟨scr, hvnow, honly, hwords⟩ := writeUnit_scr (s := s.advance t) (k := k) (o := o) (ls := [l]) hnow hbin (by rwa [hcore])
      (State.slotFree_advance hcalm hfree)
      (.inr hkind) (by rw [if_neg (by rw [hkind]; decide), hbuf]; rfl)
      (fun l' hl' => by rw [List.mem_singleton.mp hl']; exact ⟨hlen, hl⟩) (by rwa [hcore])
    rw [hcore, hbuf] at honly
    rw [hcore] at hwords
    refine ⟨_, scr, exec_dxUnitTransfer_write hnext, hvnow, honly.advance hcalm, fun w => ?_⟩
    rw [hwords, hunit, Nat.mul_one, List.length_singleton]
    refine if_ctx_congr (by omega) (fun hin => ?_) fun _ => rfl
    rw [hin, Nat.sub_self]
    rfl
  case store =>
    subst hwr
    obtain ⟨stock, hvnow, honly, hwords⟩ := writeUnit_stock (s := s.advance t) (k := k) (o := o) hnow hbin (by rwa [hcore]) hkind hbuf hlen hl (by rwa [hcore])
    rw [hcore] at honly hwords
    exact ⟨_, stock, exec_dxUnitTransfer_write hnext, hvnow, honly.advance hcalm, hwords⟩

end Sys2Proof.Machine

/-! SUPPORT. The network engine: the issue of its instructions. -/

namespace Sys2Proof.Machine

/-! ## Issue of an NX instruction (R183, R187, R301) -/

/-- An operation as its word makes it: it has sent and read nothing, and it is to send something or to wait. -/
structure NxOp.Fresh (o : NxOp) : Prop where
  silent : o.silent = false
  ponly : o.ponly = false
  spoils : o.spoils = false
  fetch : o.fetch = []
  words : o.words = []
  sent : o.sent = 0
  slip : o.slip = 0
  acc : o.acc = true → o.kind = .put
  count : 0 < o.count ∨ o.kind = .wait

section Rows
variable {row : (Nat → Instr) × Nat × (Nat → Nat → Owed → NxOp)} (hrow : row ∈ nxRows)
include hrow

theorem nxRows_fresh (w l : Nat) (o : Owed) : (row.2.2 w l o).Fresh := by
  simp only [nxRows, List.mem_cons, List.not_mem_nil, or_false] at hrow
  rcases hrow with rfl | rfl | rfl | rfl | rfl
  · exact ⟨rfl, rfl, rfl, rfl, rfl, rfl, rfl, fun _ => rfl, .inl (Nat.succ_pos _)⟩
  all_goals exact ⟨rfl, rfl, rfl, rfl, rfl, rfl, rfl, nofun, by simp [nxPlain]⟩

theorem nxRows_handle (w l : Nat) (o : Owed) : (row.2.2 w l o).handle = w % 2 ^ 16 := by
  simp only [nxRows, List.mem_cons, List.not_mem_nil, or_false] at hrow
  rcases hrow with rfl | rfl | rfl | rfl | rfl <;> rfl

/-- NWAIT alone waits. -/
theorem nxRows_wait (w l : Nat) (o : Owed) : (row.2.2 w l o).kind = .wait ↔ row.2.1 = 5 := by
  simp only [nxRows, List.mem_cons, List.not_mem_nil, or_false] at hrow
  rcases hrow with rfl | rfl | rfl | rfl | rfl <;> simp [nxPlain]

end Rows

/-- In strict mode an NPUT that is consistent has the class and the flow of its handle's first message (R390). -/
theorem State.nputIncons_flow {s : State} {k w f : Nat} {c : Bool} {h : Handle} (hgood : s.nputIncons k w = none) (hstrict : s.strict = true)
    (hu : (s.core k).usable (nxHandle w) (fun x => x == kWinSend) = some h) (hf : h.flow = some (c, f)) : c = npCls w ∧ f = npFlow w := by
  simp only [State.nputIncons, hstrict, hu, hf, if_true] at hgood
  grind

theorem State.ntupIncons_flow {s : State} {k w f : Nat} {c : Bool} {h : Handle} (hgood : s.ntupIncons k w = none) (hstrict : s.strict = true)
    (hu : (s.core k).usable (nxHandle w) (fun x => x == kWinSend) = some h) (hf : h.flow = some (c, f)) : c = true ∧ f = 0 := by
  simp only [State.ntupIncons, hstrict, hu, hf, if_true] at hgood
  grind

/-- What the two consistency rules look at is as it was before the issue. -/
theorem EngIssues.issued_incons {s : State} {k i w u r : Nat} {e : Engine} (h : EngIssues s k e i w u r) :
    ((s.advance u).modCore k fun c => c.engGoes e i w u).nputIncons k w = s.nputIncons k w ∧
      ((s.advance u).modCore k fun c => c.engGoes e i w u).ntupIncons k w = s.ntupIncons k w := by
  have hstrict : ((s.advance u).modCore k fun c => c.engGoes e i w u).strict = s.strict := State.advance_strict s u
  have husable (v : Nat) (p : Nat → Bool) : ((s.core k).engGoes e i w u).usable v p = (s.core k).usable v p := by cases e <;> rfl
  constructor
  · simp only [State.nputIncons, hstrict, h.issued_core, husable]
  · simp only [State.ntupIncons, hstrict, h.issued_core, husable]

section Issue
variable {s : State} {k i w u : Nat} (h : EngIssues s k .nx i w u (s.core k).nxs.ready) (hreads : (s.core k).heads = [])
  (hroom : (s.core k).nx.ops.length < 16)
include h hreads hroom

theorem EngIssues.issuesNx {n : Nat} (hop : hOpc w = n) (body : Nat → Owed → Bool → State → State) :
    s.issueOp k .nx (s.boundOf k .nx) (s.wantNx k n) body = body w (owedOf w i) false ((s.advance u).modCore k fun c => c.engGoes .nx i w u) := by
  rw [State.boundOf_eq h.calm hreads]
  exact State.issueOp_ready h (by simp [State.wantNx, wantOp, Core.nxOpen, hroom, hop])

/-- Each row of NX issues, as any engine word does, the operation that its word makes, where the word is consistent. -/
theorem exec_nxRow_issues {row : (Nat → Instr) × Nat × (Nat → Nat → Owed → NxOp)} (hrow : row ∈ nxRows) (hop : hOpc w = row.2.1) {o : NxOp}
    (ho : o = row.2.2 w ((s.core k).handle (w % 4096)).ctrl (owedOf w i)) (hput : o.kind = .put → s.nputIncons k w = none)
    (htup : o.kind = .tup → s.ntupIncons k w = none) :
    exec (row.1 k) s = .next (((s.advance u).modCore k fun c => c.engGoes .nx i w u).issueNx k o false none) := by
  obtain ⟨hnput, hntup⟩ := h.issued_incons
  simp only [nxRows, List.mem_cons, List.not_mem_nil, or_false] at hrow
  rcases hrow with rfl | rfl | rfl | rfl | rfl <;> refine congrArg Host.Outcome.next ((h.issuesNx hreads hroom hop _).trans ?_)
  case inl =>
    rw [hnput, hput (by rw [ho]; rfl), ho, nxHandle, bits_from_zero]
    rfl
  case inr.inl =>
    rw [hntup, htup (by rw [ho]; rfl), ho, nxHandle, bits_from_zero]
    rfl
  case inr.inr.inl =>
    rw [ho, nxHandle, bits_from_zero]
    rfl
  case inr.inr.inr.inl =>
    rw [ho, nxHandle, bits_from_zero]
    rfl
  case inr.inr.inr.inr =>
    have hindex : hIndex (w % 2 ^ 16) = w % 4096 := Nat.mod_mod_of_dvd w (by decide)
    have htarget : BitVec.ofNat 32 (nwTarget w) = BitVec.ofNat 32 (w / 2 ^ 16) := ofNat_mod_two_pow 32 (w / 2 ^ 16)
    rw [h.issued_core, htarget, ho, nxHandle, bits_from_zero, hindex]
    rfl

end Issue

/-- An operation stays as it is where its class and its flow are those of its handle's first message already (R390). -/
theorem State.inFlow_kept {s : State} {k : Nat} {o : NxOp}
    (hsame : ∀ e c f, s.strict = true → o.kind = .put ∨ o.kind = .tup → (s.core k).usable o.handle o.fits = some e → e.flow = some (c, f) →
      c = o.fwd ∧ f = o.flow) :
    s.inFlow k o = o := by
  unfold State.inFlow
  split
  next e hu =>
    split
    next c f hflow =>
      split
      next hstrict =>
        simp only [Bool.and_eq_true, Bool.or_eq_true, beq_iff_eq] at hstrict
        obtain ⟨rfl, rfl⟩ := hsame e c f hstrict.1 hstrict.2 hu hflow
        rfl
      next => rfl
    next => rfl
  next => rfl

/-- A consistent word makes an operation whose class and flow are those of its handle's first message. -/
theorem nxRows_flow {s : State} {k w l f : Nat} {o : Owed} {e : Handle} {c : Bool} {row : (Nat → Instr) × Nat × (Nat → Nat → Owed → NxOp)}
    (hrow : row ∈ nxRows) (hput : (row.2.2 w l o).kind = .put → s.nputIncons k w = none)
    (htup : (row.2.2 w l o).kind = .tup → s.ntupIncons k w = none) (hstrict : s.strict = true)
    (hsends : (row.2.2 w l o).kind = .put ∨ (row.2.2 w l o).kind = .tup) (hu : (s.core k).usable (w % 2 ^ 16) (row.2.2 w l o).fits = some e)
    (hflow : e.flow = some (c, f)) : c = (row.2.2 w l o).fwd ∧ f = (row.2.2 w l o).flow := by
  have hhandle : nxHandle w = w % 2 ^ 16 := bits_from_zero w 15
  simp only [nxRows, List.mem_cons, List.not_mem_nil, or_false] at hrow
  rcases hrow with rfl | rfl | rfl | rfl | rfl
  case inl => exact State.nputIncons_flow (hput rfl) hstrict (by rw [hhandle]; exact hu) hflow
  case inr.inl => exact State.ntupIncons_flow (htup rfl) hstrict (by rw [hhandle]; exact hu) hflow
  all_goals exact absurd hsends (by simp [nxPlain])

/-- Settles O27: every row issues the operation of its word, which its entry numbers and which begins the reads that flow control allows. -/
theorem nxIssues : Obligations.NxIssues := by
  unfold Obligations.NxIssues
  intro s k i w u h row o now hissue hreads hrow hop hu hgo ho hroom hput htup hfirst hother hnow
  have hfresh := nxRows_fresh hrow w ((s.core k).handle (w % 4096)).ctrl (owedOf w i)
  have hhandle := nxRows_handle hrow w ((s.core k).handle (w % 4096)).ctrl (owedOf w i)
  have hwait := nxRows_wait hrow w ((s.core k).handle (w % 4096)).ctrl (owedOf w i)
  have hctENX : ((s.advance u).modCore k fun c => c.engGoes .nx i w u).ctENX = s.ctENX := State.advance_ctENX s u
  obtain ⟨hnput, hntup⟩ := hissue.issued_incons
  rw [← hop] at hwait
  have hput' : (row.2.2 w ((s.core k).handle (w % 4096)).ctrl (owedOf w i)).kind = .put → s.nputIncons k w = none := fun hk => hput (by rw [ho]; exact hk)
  have htup' : (row.2.2 w ((s.core k).handle (w % 4096)).ctrl (owedOf w i)).kind = .tup → s.ntupIncons k w = none := fun hk => htup (by rw [ho]; exact hk)
  have he := exec_nxRow_issues hissue hreads hroom hrow hop rfl hput' htup'
  have hgoes := State.issueNx_goes (t := (s.advance u).modCore k fun c => c.engGoes .nx i w u) (k := k)
    (o0 := row.2.2 w ((s.core k).handle (w % 4096)).ctrl (owedOf w i)) (o := o) (h := h) (now := now)
    (by rw [hissue.issued_core, Core.engGoes_heads]; exact hreads)
    (by rw [hissue.issued_core, hhandle]; subst ho; exact hu) (by rw [hissue.issued_core, hissue.issued_now]; subst ho; exact hgo)
    (by simp only [hissue.issued_now, hctENX, ho, hwait])
    hfresh.silent hfresh.ponly hfresh.fetch hfresh.words hfresh.sent hfresh.slip hfresh.acc
    (by rw [hissue.issued_core]; exact hfirst)
    (State.inFlow_kept fun e c f hstrict hsends hused hflow => nxRows_flow hrow (by rwa [hnput]) (by rwa [hntup]) hstrict hsends
      (by rw [← hhandle]; exact hused) hflow) hfresh.spoils hfresh.count
    (by rw [hissue.issued_core, hissue.issued_now]; exact hother) (by rw [hnow, State.modCore_modCore])
  rw [hgoes, hctENX, hissue.issued_now, State.modCore_modCore] at he
  refine ⟨_, he, hissue.issued_now, OnlyCore.issued k u hissue.calm _, ?_⟩
  rw [State.core_modCore_same, State.advance_core hissue.calm]

end Sys2Proof.Machine

/-! SUPPORT. The waits of the network engine and its throttle period. -/

namespace Sys2Proof.Machine

/-! ## A bank slot (R53) -/

/-- The core after a port has taken banks in cycle u, with the count of cycles lost to other ports. -/
def Core.claims (c : Core) (port u : Nat) (banks : List Nat) (lost : BitVec 16) : Core :=
  (c.modMem fun m => m.claim port u banks).modRegs fun r => { r with islandConf := lost }

section Slot
variable {s : State} {k port : Nat} {banks : State → List Nat} (hreads : (s.core k).heads = [])
include hreads

/-- A port that is idle takes banks that nothing holds in the present cycle. -/
theorem State.takeBanksIn_free (hfree : s.slotFree k port s.now) (n : Nat) :
    s.takeBanksIn k port banks (n + 1) = (0, s.modCore k fun c => c.modMem fun m => m.claim port s.now (banks s)) := by
  obtain ⟨hidle, hheld⟩ := hfree
  have hany : ((banks s).any fun b => (s.held k port s.now).contains b) = false := by simp [hheld]
  rw [State.takeBanksIn]
  dsimp only
  rw [State.fetchUpTo, State.fetchTo_none hreads, hidle, if_neg Bool.false_ne_true, hany, if_neg Bool.false_ne_true]

/-- However late such an access is: besides the slot only the count of the cycles lost before may change. -/
theorem State.takeBanks_late {e : Engine} {wr : Bool} (hfree : s.slotFree k (portOf e wr) s.now) (due : Nat) :
    ∃ lost, (s.takeBanks k e wr due banks).2 = s.modCore k fun c => c.claims (portOf e wr) s.now (banks s) lost := by
  rw [State.takeBanks]
  dsimp only
  rw [State.takeBanksIn_free hreads hfree]
  split
  · exact ⟨(s.core k).regs.islandConf, State.modCore_congr (f := fun c => c.modMem fun m => m.claim (portOf e wr) s.now (banks s)) rfl⟩
  · rw [State.modCore_modCore]
    exact ⟨_, State.modCore_congr rfl⟩

end Slot

/-! ## NWAIT (R186, R297) -/

/-- The status word as a read of its control line finds it, where nothing has changed it in the cycle of the read. -/
theorem State.readStatus_clean {s : State} {k eng line : Nat} {h : Handle} (hnew : h.changedAt ≠ s.now)
    (hcount : (s.core k).mem.scr.flaw (64 * line) = none) (hflags : (s.core k).mem.scr.flaw (64 * line + 1) = none) :
    s.readStatus k eng line h = (((s.core k).scrWord (64 * line)).val, ((s.core k).scrWord (64 * line + 1)).val.toNat / 65536 % 32, s) := by
  rw [State.readStatus, State.readWord_clean hcount]
  dsimp only
  rw [State.readWord_clean hflags, if_neg hnew]
  rfl

/-- The core after the wait o has read its status word in cycle u. -/
def Core.statusRead (c : Core) (o : NxOp) (u : Nat) (lost : BitVec 16) : Core :=
  (c.claims 8 u [o.line % 16] lost).modNx fun x => { x with ops := [{ o with readAt := u }] }

/-- The core after the wait has ended in cycle u: the stream runs on after the cycle, and its signals are given. -/
def Core.waitEnds (c : Core) (o : NxOp) (u : Nat) : Core :=
  ((c.modStream .nx fun t => { t with state := .run, ready := u + 1 }).modNx fun x => { x with ops := [] }).completed u o.owed

/-- The core after the stream has entered WAIT_ARR at a tick. -/
def Core.waitStays (c : Core) (o : NxOp) (u tick : Nat) : Core :=
  (c.modStream .nx fun t => { t with state := .waitArr }).modNx fun x => { x with ops := [{ o with readAt := u, waitTick := some tick }] }

/-- Whether a status word ends the wait o: its COUNT has reached the target, or a flag is set. -/
def Core.waitOver (c : Core) (o : NxOp) : Bool :=
  reached (c.scrWord (64 * o.line)).val o.target || (c.scrWord (64 * o.line + 1)).val.toNat / 65536 % 32 != 0

/-- The first read of the status word ends the wait, or the stream waits on in WAIT_ARR. -/
theorem exec_nwaitComplete_first {s : State} {k u : Nat} {o : NxOp} (hcalm : s.overs = []) (halone : NxAlone s k o) (hkind : o.kind = .wait)
    (hloud : o.silent = false) (hfirst : o.waitTick = none) (hbin : o.bin = none) (hruns : (s.core k).ctl.stopAt = none)
    (hu : u = max s.now (o.issue + s.ctENX + o.slip)) (hfree : s.slotFree k 8 u) (halive : (s.core k).alive o.handle = true)
    (hnew : ((s.core k).handle (hIndex o.handle)).changedAt ≠ u) (hcount : (s.core k).mem.scr.flaw (64 * o.line) = none)
    (hflags : (s.core k).mem.scr.flaw (64 * o.line + 1) = none) (hends : o.owed.ends = []) (hroom : (s.core k).sync.roomFor u o.owed = true) :
    ∃ lost, exec (.nwaitComplete k) s = .next ((s.advance u).modCore k fun c =>
      if (s.core k).waitOver o then (c.statusRead o u lost).waitEnds o u else (c.statusRead o u lost).waitStays o u (s.advance u).tick) := by
  have hcore := State.advance_core hcalm u k
  have hnow : (s.advance u).now = u := by rw [State.advance_now, hu]; omega
  have hdue : s.advance (o.issue + s.ctENX + o.slip) = s.advance u := by rw [State.advance_calm hcalm, State.advance_calm hcalm, hu]; congr 1; omega
  have hwait : (s.core k).nxWait = some o := by simp [Core.nxWait, halone.ops, hkind]
  obtain ⟨lost, hslot⟩ := State.takeBanks_late (s := s.advance u) (k := k) (banks := fun _ => [o.line % 16]) (e := .nx) (wr := false)
    (by rw [hcore]; exact halone.reads) (by rw [hnow]; exact State.slotFree_advance hcalm hfree) (o.issue + s.ctENX + o.slip)
  rw [hnow] at hslot
  refine ⟨lost, ?_⟩
  have hread : ((s.advance u).modCore k fun c => c.claims 8 u [o.line % 16] lost).readStatus k (engCode .nx) o.line ((s.core k).handle (hIndex o.handle)) =
      (((s.core k).scrWord (64 * o.line)).val, ((s.core k).scrWord (64 * o.line + 1)).val.toNat / 65536 % 32,
        (s.advance u).modCore k fun c => c.claims 8 u [o.line % 16] lost) := by
    rw [State.readStatus_clean (by rw [State.modCore_now, hnow]; exact hnew) (by rw [State.core_modCore_same, hcore]; exact hcount)
      (by rw [State.core_modCore_same, hcore]; exact hflags), State.core_modCore_same, hcore]
    rfl
  have hput : ((s.advance u).modCore k fun c => c.claims 8 u [o.line % 16] lost).putNx k { o with readAt := u } =
      (s.advance u).modCore k fun c => c.statusRead o u lost := by
    rw [State.putNx, State.modCore_modCore]
    refine State.modCore_congr ?_
    rw [hcore]
    simp [Core.statusRead, Core.modNx, Core.claims, Core.modMem, Core.modRegs, halone.ops]
  have hhandle : ((s.core k).claims 8 u [o.line % 16] lost).handle (hIndex o.handle) = (s.core k).handle (hIndex o.handle) := rfl
  have halive' : ((s.core k).statusRead o u lost).alive o.handle = true := halive
  simp only [hloud, hfirst] at hput
  show execNwaitComplete k s = _
  simp only [execNwaitComplete, hwait, hruns, hfirst, hloud, hdue, hslot, Option.isSome_none, Bool.false_and, Bool.or_false, Bool.false_eq_true, if_false,
    State.modCore_now, hnow, State.core_modCore_same, hcore, show portOf .nx false = 8 from rfl, hhandle, hread, hput, halive', Bool.not_true, Bool.and_false]
  rw [Core.waitOver]
  split
  next =>
    have hend := State.endNwait_alone (y := (s.advance u).modCore k fun c => c.statusRead o u lost) (k := k) (o := { o with readAt := u })
      (by rw [State.core_modCore_same]; rfl) hbin hends (by rw [State.core_modCore_same, State.modCore_now, hcore, hnow]; exact hroom)
    simp only [hloud, hfirst] at hend
    rw [hend, State.modCore_modCore, State.modCore_now, hnow]
    rfl
  next =>
    have htick : ((s.advance u).modCore k fun c => c.statusRead o u lost).tick = (s.advance u).tick := rfl
    rw [State.putNx, State.modStream, State.modCore_modCore, State.modCore_modCore, htick]
    refine congrArg Host.Outcome.next (State.modCore_congr ?_)
    simp [Core.waitStays, Core.statusRead, Core.modNx, Core.modStream, Core.setStream, hloud, hfirst]

/-! ## The throttle period (R288) -/

theorem exec_niThrottlePeriod_idle {s : State} {k p : Nat} (hcalm : s.overs = []) (hon : (s.core k).ctl.attached = true) (hidle : (s.core k).nx.ops = [])
    (hp : p = (s.core k).nx.throttle.toNat / 2 ^ 16 % 2 ^ 10 + 1) :
    ∃ n, exec (.niThrottlePeriod k) s = .next ((s.advance (s.now + (p - s.coreCycle (s.core k) % p))).modCore k fun c =>
      c.modNx fun x => { x with period := n, reqFlits := 0, fwdFlits := 0 }) := by
  have hperiod : bits (s.core k).nx.throttle.toNat 25 16 + 1 = p := hp.symm
  refine ⟨(s.advance (s.now + (p - s.coreCycle (s.core k) % p))).periodOf k, ?_⟩
  show execNiThrottlePeriod k s = _
  rw [execNiThrottlePeriod, if_pos hon]
  dsimp only
  rw [hperiod, State.startReads_none]
  rw [State.core_modCore_same, State.advance_core hcalm]
  exact hidle

/-- Settles O29: the read of the status word takes a slot and its cycle, and the condition alone decides whether the wait ends or stays; a period
starts with one change of the network engine. -/
theorem nxWaits : Obligations.NxWaits := by
  unfold Obligations.NxWaits
  refine ⟨fun s k u n f o hcalm halone hkind hloud hfirst hbin hruns hu hfree halive hnew hcount hflags hn hf hends hroom => ?wait,
    fun s k p hcalm hon hidle hp => ?throttle⟩
  case wait =>
    have hcore := State.advance_core hcalm u k
    have hnow : (s.advance u).now = u := by rw [State.advance_now, hu]; omega
    obtain ⟨lost, he⟩ := exec_nwaitComplete_first hcalm halone hkind hloud hfirst hbin hruns hu hfree halive hnew hcount hflags hends hroom
    refine ⟨_, he, hnow, OnlyCore.issued k u hcalm _, ?_⟩
    rw [State.core_modCore_same, hcore]
    have hover : (s.core k).waitOver o = true ↔ n < 2 ^ 31 ∨ f ≠ 0 := by rw [Core.waitOver, ← hf, reached, ← hn]; simp
    by_cases h : (s.core k).waitOver o = true
    · rw [if_pos h]
      exact ⟨rfl, rfl, fun _ => ⟨rfl, rfl, rfl⟩, fun hlow hclear => absurd (hover.mp h) (by omega)⟩
    · rw [if_neg h]
      exact ⟨rfl, rfl, fun hmet => absurd (hover.mpr hmet) h, fun _ _ => ⟨rfl, rfl, rfl⟩⟩
  case throttle =>
    obtain ⟨n, he⟩ := exec_niThrottlePeriod_idle hcalm hon hidle hp
    refine ⟨_, n, he, ?_, OnlyCore.issued k _ hcalm _, ?_⟩
    · rw [State.modCore_now, State.advance_now]; omega
    · rw [State.core_modCore_same, State.advance_core hcalm]

end Sys2Proof.Machine

/-! SUPPORT. The packets of the network engine that leave. -/

namespace Sys2Proof.Machine

/-! ## Credit and source reads (R187, R305, R319) -/

/-- An operation that is alone and whose charge its entry can pay leaves none that waits for CREDIT. -/
theorem Core.creditWaits_paid {c : Core} {o : NxOp} {h : Handle} (hops : c.nx.ops = [o]) (hsender : c.sender o.handle = some h)
    (hpaid : o.kind = .req ∨ o.charge h o.sent ≤ h.credit) : c.creditWaits = [] := by
  have hdue : (o.kind != .req && decide (h.credit < o.charge h o.sent)) = false := by
    rcases hpaid with hreq | hcredit
    · simp [hreq]
    · simp [hcredit]
  rw [Core.creditWaits, hops]
  by_cases hunsent : o.unsent = true
  · simp only [firstSends, hunsent, List.contains_nil, Bool.not_false, Bool.and_self, if_true, List.filterMap_cons, hsender, hdue, Bool.false_eq_true, if_false,
      List.filterMap_nil]
  · simp [firstSends, hunsent]

/-- The core after the count of the credit watchdog is settled for cycle u, in which no operation waits. -/
def Core.creditSettled (c : Core) (u : Nat) : Core := c.modChan fun y => { y with creditFrom := max y.creditFrom (u + 1) }

theorem Core.sender_creditSettled (c : Core) (u v : Nat) : (c.creditSettled u).sender v = c.sender v := rfl

/-- Where no operation waits for CREDIT the watchdog's count stands, and is settled for the present cycle. -/
theorem State.settleCredit_none {s : State} {k : Nat} (hnone : (s.core k).creditWaits = []) :
    s.settleCredit k = s.modCore k fun c => c.creditSettled s.now := by
  rw [State.settleCredit, Core.creditStart, hnone, State.modCore_modCore]
  refine State.modCore_congr ?_
  simp [Core.modNx, Core.modChan, Core.creditSettled]

/-- An operation that is alone and needs no source lines, or has read them, begins no reads. -/
theorem State.startReads_read {s : State} {k : Nat} {o : NxOp} (hops : (s.core k).nx.ops = [o]) (hread : o.kind = .put ∨ o.kind = .ring → o.words ≠ []) :
    s.startReads k = s := by
  have hbegun : ((o.kind == .put || o.kind == .ring) && !o.begun) = false := by
    by_cases hk : o.kind = .put ∨ o.kind = .ring
    · simp [NxOp.begun, hread hk]
    · simpa using fun h => absurd h hk
  have hnone : s.beginNx k [] [o] = none := by
    rw [State.beginNx, if_neg]
    · rfl
    · grind
  rw [State.startReads, hops, hnone]

/-- An operation that is alone, has read its source lines and can leave is the next to act. -/
theorem State.nextNx_alone {s : State} {k : Nat} {o : NxOp} (hloud : o.silent = false) (hunsent : o.unsent = true)
    (hread : o.kind = .put ∨ o.kind = .ring → o.words ≠ []) (hleave : s.canLeave k o = true) : s.nextNx k [] [o] = some o := by
  have hready : (o.begun || o.ponly || !(o.kind == .put || o.kind == .ring)) = true := by
    by_cases hk : o.kind = .put ∨ o.kind = .ring
    · simp [NxOp.begun, hread hk]
    · grind
  simp only [State.nextNx, hloud, hunsent, hready, hleave, List.contains_nil, Bool.not_false, Bool.false_and, Bool.and_self, Bool.false_eq_true, if_false, if_true]

/-- A packet that can leave has its charge in CREDIT, or is a request, which has none. -/
theorem State.canLeave_paid {s : State} {k : Nat} {o : NxOp} {h : Handle} (hsender : (s.core k).sender o.handle = some h) (hleave : s.canLeave k o = true) :
    o.kind = .req ∨ o.charge h o.sent ≤ h.credit := by
  simp only [State.canLeave, State.canGo, hsender, Bool.and_eq_true] at hleave
  grind

/-! ## Acceptance by the router (R281, R288) -/

/-- The state after the router has taken packet p of o: the packet stands before the mesh, and the pool of its reservation notes the turn. -/
def State.takesPacket (s : State) (k : Nat) (o : NxOp) (p : Packet) : State :=
  { s with
    bar := (s.noteInj p).bar
    mesh := { s.mesh with
      items := s.mesh.items ++ [s.accepted k p]
      turns := (s.nxPool k o).elim s.mesh.turns fun x => keyPut s.mesh.turns (10 * x.1 + x.2) (Place.core k).rank } }

/-- The barrier's counts after an injection depend on the barrier and the packet alone. -/
theorem State.noteInj_bar (s : State) (p : Packet) :
    (s.noteInj p).bar = if p.counted then { s.bar with inj := s.bar.inj + 1 } else s.bar := by
  unfold State.noteInj
  split <;> rfl

theorem State.accepted_pkt (s : State) (k : Nat) (p : Packet) : (s.accepted k p).pkt = p := by
  unfold State.accepted
  split
  · split <;> rfl
  · rfl

/-- The router's acceptance changes the throttle's counts of the core and, beside them, the mesh and the barrier alone. -/
theorem State.acceptNx_eq (s : State) (k : Nat) (o : NxOp) (p : Packet) :
    ∃ n r f, s.acceptNx k o p = (s.takesPacket k o p).modCore k fun c => c.modNx fun x => { x with period := n, reqFlits := r, fwdFlits := f } := by
  rw [State.acceptNx, State.takesPacket]
  cases s.nxPool k o with
  | none =>
    dsimp only
    rw [State.injectAs_eq, State.noteInj_bar, State.noteInj_bar, State.accepted_pkt]
    exact ⟨_, _, _, rfl⟩
  | some pool =>
    dsimp only
    rw [State.injectAs_eq, State.noteInj_bar, State.noteInj_bar, State.accepted_pkt]
    exact ⟨_, _, _, rfl⟩

theorem State.freest_cons_cons (s : State) (v p q : Nat) (r : List Nat) : s.freest v (p :: q :: r) =
    if s.poolFree p v ≥ s.poolFree (s.freest v (q :: r)) v then p else s.freest v (q :: r) := rfl

section Routing
variable (s : State) (n : Nat) (cs : List (Nat × Core))

/-! What the router makes of a packet depends neither on the cycle nor on the cores. -/

theorem State.freest_of_time_cores (v : Nat) (ps : List Nat) : { s with now := n, cores := cs }.freest v ps = s.freest v ps := by
  induction ps with
  | nil => rfl
  | cons p r ih => cases r with
    | nil => rfl
    | cons q r =>
      rw [State.freest_cons_cons, State.freest_cons_cons, ih]
      rfl

theorem State.poolOf_of_time_cores (e : Place) (v : Nat) (p : Packet) : { s with now := n, cores := cs }.poolOf e v p = s.poolOf e v p := by
  cases e with
  | port l =>
    rw [State.poolOf, State.poolOf, State.memberFor, State.memberFor, State.freest_of_time_cores]
    rfl
  | _ => rfl

theorem State.choose_of_time_cores (src : Place) (p : Packet) : { s with now := n, cores := cs }.choose src p = s.choose src p := rfl

theorem State.accepted_of_time_cores (k : Nat) (p : Packet) : { s with now := n, cores := cs }.accepted k p = s.accepted k p := by
  simp only [State.accepted, State.choose_of_time_cores, State.poolOf_of_time_cores]

/-- The pool of an operation's packet looks at the sender entry of its handle besides. -/
theorem State.nxPool_of_time_cores {k : Nat} {o : NxOp}
    (hsender : ({ s with now := n, cores := cs }.core k).sender o.handle = (s.core k).sender o.handle) :
    { s with now := n, cores := cs }.nxPool k o = s.nxPool k o := by
  have hpacket (h : Handle) (body : List (PWord 64)) : { s with now := n, cores := cs }.nxPacket k o h body = s.nxPacket k o h body := rfl
  have hport (q : Nat) : { s with now := n, cores := cs }.port q = s.port q := rfl
  simp only [State.nxPool, State.nxExit, hsender, hpacket, hport, State.choose_of_time_cores, State.poolOf_of_time_cores]

end Routing

/-- A later cycle, and a change of the core that keeps the sender of the packet's handle, leave the router's acceptance as it is. -/
theorem State.takesPacket_modCore {s : State} {k u : Nat} {o : NxOp} {p : Packet} {f : Core → Core} (hcalm : s.overs = [])
    (hsender : (f (s.core k)).sender o.handle = (s.core k).sender o.handle) :
    ((s.advance u).modCore k f).takesPacket k o p = ((s.takesPacket k o p).advance u).modCore k f := by
  have hlater : (s.advance u).modCore k f = { s with now := max s.now u, cores := (s.modCore k f).cores } := by rw [State.advance_calm hcalm]; rfl
  have hcore : ({ s with now := max s.now u, cores := (s.modCore k f).cores }.core k).sender o.handle = (s.core k).sender o.handle := by
    rw [← hlater, State.core_modCore_same, State.advance_core hcalm, hsender]
  rw [hlater, State.advance_calm (s := s.takesPacket k o p) hcalm, State.takesPacket, State.nxPool_of_time_cores s _ _ hcore, State.accepted_of_time_cores,
    State.noteInj_bar, State.takesPacket, State.noteInj_bar]
  rfl

/-! ## A packet leaves (R187, R305, R311) -/

/-- The core after a packet of o has left in cycle u: its entry has paid, and the counts of the throttle and of the credit watchdog are settled. -/
def Core.paysPacket (c : Core) (o : NxOp) (h : Handle) (u n r f : Nat) : Core :=
  (((c.creditSettled u).modNx fun x => { x with period := n, reqFlits := r, fwdFlits := f }).setHandle (o.handle % 4096) (o.after h)).modChan fun y =>
    { y with creditCount := if o.short then 0 else y.creditCount }

section Pays
variable (c : Core) (o : NxOp) (h : Handle) (u n r f : Nat)

theorem Core.paysPacket_mem : (c.paysPacket o h u n r f).mem = c.mem := by simp [Core.paysPacket, Core.creditSettled, Core.setHandle]

theorem Core.paysPacket_ops : (c.paysPacket o h u n r f).nx.ops = c.nx.ops := by simp [Core.paysPacket, Core.creditSettled, Core.setHandle]

theorem Core.paysPacket_sync : (c.paysPacket o h u n r f).sync = c.sync := by simp [Core.paysPacket, Core.creditSettled, Core.setHandle]

theorem Core.paysPacket_replies : (c.paysPacket o h u n r f).chan.replies = c.chan.replies := by
  simp [Core.paysPacket, Core.creditSettled, Core.setHandle]

theorem Core.paysPacket_handle (j : Nat) : (c.paysPacket o h u n r f).handle j = if j = o.handle % 4096 then o.after h else c.handle j :=
  Core.handle_setHandle _ _ _ _

end Pays

/-- The core after a request has reserved the lines of its reply in cycle u. -/
def Core.awaitsReply (c : Core) (o : NxOp) (u : Nat) : Core :=
  (c.modNx fun x => { x with ops := [{ o with sent := o.sent + 1, left := o.left + 1, since := u, short := false, words := [] }] }).modChan fun y =>
    { y with replies := y.replies ++
        [{ handle := o.handle, dline := (o.line + 16 * o.sent) % 16384, lines := o.linesAt o.sent, op := o.issue }] }

/-- The core after the next packet of o has left in cycle u: a request waits on for its reply, any other operation ends. -/
def Core.packetLeaves (c : Core) (o : NxOp) (h : Handle) (u n r f : Nat) : Core :=
  if o.kind = .req then (c.paysPacket o h u n r f).awaitsReply o u
  else ((c.paysPacket o h u n r f).modNx fun x => { x with ops := [] }).completed u o.owed

section LeavesCore
variable (c : Core) (o : NxOp) (h : Handle) (u n r f : Nat)

theorem Core.packetLeaves_mem : (c.packetLeaves o h u n r f).mem = c.mem := by
  unfold Core.packetLeaves
  split
  · rw [Core.awaitsReply, Core.modChan_mem, Core.modNx_mem, Core.paysPacket_mem]
  · rw [Core.completed, Core.modNx_mem, Core.paysPacket_mem]

theorem Core.packetLeaves_handle (j : Nat) : (c.packetLeaves o h u n r f).handle j = if j = o.handle % 4096 then o.after h else c.handle j := by
  rw [← c.paysPacket_handle o h u n r f j]
  unfold Core.packetLeaves
  split
  · rw [Core.handle, Core.awaitsReply, Core.modChan_chan, Core.modNx_chan, Core.handle]
  · rw [Core.handle, Core.completed, Core.modNx_chan, Core.handle]

theorem Core.packetLeaves_last (hlast : o.kind ≠ .req) : (c.packetLeaves o h u n r f).nx.ops = [] ∧
    (c.packetLeaves o h u n r f).sync = (c.completed u o.owed).sync ∧ (c.packetLeaves o h u n r f).chan.replies = c.chan.replies := by
  rw [Core.packetLeaves, if_neg hlast]
  simp [Core.completed, Core.paysPacket_sync, Core.paysPacket_replies]

theorem Core.packetLeaves_request (hreq : o.kind = .req) :
    (c.packetLeaves o h u n r f).nx.ops = [{ o with sent := o.sent + 1, left := o.left + 1, since := u, short := false, words := [] }] ∧
      (c.packetLeaves o h u n r f).sync = c.sync ∧ (c.packetLeaves o h u n r f).chan.replies = c.chan.replies ++
        [{ handle := o.handle, dline := (o.line + 16 * o.sent) % 16384, lines := o.linesAt o.sent, op := o.issue }] := by
  rw [Core.packetLeaves, if_pos hreq]
  simp [Core.awaitsReply, Core.paysPacket_sync, Core.paysPacket_replies]

end LeavesCore

/-- The sender entry pays, after the router's acceptance and the settling of the two counts. -/
theorem Core.modSender_pays {c : Core} {o : NxOp} {h : Handle} (husable : c.usable o.handle isSender = some h) (u n r f : Nat) :
    ((((c.creditSettled u).modNx fun x => { x with period := n, reqFlits := r, fwdFlits := f }).modSender o.handle o.after).modChan fun z =>
      { z with creditCount := if o.short then 0 else z.creditCount }) = c.paysPacket o h u n r f := by
  have hkept : ((c.creditSettled u).modNx fun x => { x with period := n, reqFlits := r, fwdFlits := f }).usable o.handle isSender = some h := husable
  rw [Core.modSender, hkept]
  rfl

section Leaves
variable {s : State} {k u : Nat} {o : NxOp} {h : Handle}

/-- A line read that is not owed is not awaited. -/
theorem State.toCycle_lastRead_alone (hcalm : s.overs = []) (halone : NxAlone s k o) (n : Nat) : s.toCycle k (fun y => y.lastRead k o.issue) (n + 1) = s := by
  have hread (y : State) (hy : y.core k = s.core k) : y.lastRead k o.issue = 0 := State.lastRead_alone (by rw [hy]; exact halone.ops) halone.fetch
  rw [State.toCycle_none hcalm halone.reads (fun v => hread _ (State.advance_core hcalm v k)) (hread s rfl), State.advance_calm hcalm,
    Nat.max_eq_left (Nat.zero_le _)]

/-- A request that has left stays, with a place for its reply. -/
theorem State.putNx_request (hops : (s.core k).nx.ops = [o]) (hreq : o.kind = .req) (n r f : Nat) :
    (((s.modCore k fun c => c.paysPacket o h u n r f).putNx k
      { o with sent := o.sent + 1, left := o.left + 1, since := u, short := false, words := [] }).modCore k fun c => c.modChan fun y =>
        { y with replies := y.replies ++
            [{ handle := o.handle, dline := (o.line + 16 * o.sent) % 16384, lines := o.linesAt o.sent, op := o.issue }] }) =
      s.modCore k fun c => c.packetLeaves o h u n r f := by
  rw [State.putNx, State.modCore_modCore, State.modCore_modCore]
  refine State.modCore_congr ?_
  rw [Core.packetLeaves, if_pos hreq]
  simp [Core.awaitsReply, Core.paysPacket_ops, Core.modNx, hops]

/-- An operation whose last packet has left ends. -/
theorem State.finishNx_last (hops : (s.core k).nx.ops = [o]) (hlast : o.kind ≠ .req) (hbin : o.bin = none) (hends : o.owed.ends = [])
    (hroom : (s.core k).sync.roomFor s.now o.owed = true) (n r f : Nat) :
    ((s.modCore k fun c => c.paysPacket o h s.now n r f).finishNx k
      { o with sent := o.packets, since := s.now, short := false, words := [] }).startReads k =
        s.modCore k fun c => c.packetLeaves o h s.now n r f := by
  have hend := State.finishNx_alone (s := s) (k := k) (f := fun c => c.paysPacket o h s.now n r f) (o' := o)
    (o := { o with sent := o.packets, since := s.now, short := false, words := [] }) (by rw [Core.paysPacket_ops, hops]) rfl hbin hends
    (by rw [Core.paysPacket_sync, hroom])
  rw [hend, State.startReads_none (by rw [State.core_modCore_same]; rfl)]
  exact State.modCore_congr (by rw [Core.packetLeaves, if_neg hlast])

/-- The router takes the next packet of an operation that is alone in the cycle it is due. -/
theorem State.acceptPacket_alone (hcalm : s.overs = []) (halone : NxAlone s k o) (husable : (s.core k).usable o.handle isSender = some h)
    (hbin : o.bin = none) (hpaid : o.kind = .req ∨ o.charge h o.sent ≤ h.credit) (hu : u = max s.now (o.issue + s.ctENX + o.slip))
    (hlast : o.kind ≠ .req → o.sent + 1 = o.packets ∧ o.owed.ends = [] ∧ (s.core k).sync.roomFor u o.owed = true) :
    ∃ n r f, s.acceptPacket k o h = ((s.takesPacket k o (s.nxPacket k o h o.body)).advance u).modCore k fun c => c.packetLeaves o h u n r f := by
  have hcore := State.advance_core hcalm u k
  have hnow : (s.advance u).now = u := by rw [State.advance_now, hu]; omega
  have hdue : s.advance (o.issue + s.ctENX + o.slip) = s.advance u := by rw [State.advance_calm hcalm, State.advance_calm hcalm, hu]; congr 1; omega
  have hcycle := State.toCycle_lastRead_alone (State.advance_overs hcalm u) (k := k) (o := o) ⟨by rw [hcore]; exact halone.reads, by rw [hcore]; exact halone.ops⟩
    (s.core k).owedReads
  have hsettle := State.settleCredit_none (s := s.advance u) (k := k)
    (by rw [hcore]; exact Core.creditWaits_paid halone.ops (Core.usable_sender husable) hpaid)
  obtain ⟨n, r, f, haccept⟩ := State.acceptNx_eq ((s.advance u).modCore k fun c => c.creditSettled u) k o (s.nxPacket k o h o.body)
  rw [State.takesPacket_modCore (f := fun c => c.creditSettled u) hcalm (Core.sender_creditSettled _ u o.handle), State.modCore_modCore] at haccept
  have hpacket : ((s.advance u).modCore k fun c => c.creditSettled u).nxPacket k o h o.body = s.nxPacket k o h o.body := by rw [State.advance_calm hcalm]; rfl
  have hops : ((s.core k).creditSettled u).nx.ops = [o] := halone.ops
  have hsame : ([o].find? fun x => x.issue == o.issue).getD o = o := by simp
  obtain ⟨y, hydef⟩ : ∃ y, (s.takesPacket k o (s.nxPacket k o h o.body)).advance u = y := ⟨_, rfl⟩
  have hy : y.core k = s.core k := hydef ▸ State.advance_core (s := s.takesPacket k o (s.nxPacket k o h o.body)) hcalm u k
  have hynow : y.now = u := by rw [← hydef, State.advance_now, hu]; exact Nat.max_eq_right (Nat.le_max_left _ _)
  rw [hydef] at haccept
  refine ⟨n, r, f, ?_⟩
  simp only [State.acceptPacket, hdue, hcore, hcycle, hsettle, hnow, State.core_modCore_same, hops, hsame, hpacket, haccept, hydef, State.modCore_modCore]
  rw [State.modCore_congr (s := y) (g := fun c => c.paysPacket o h u n r f) (Core.modSender_pays (by rw [hy]; exact husable) u n r f)]
  by_cases hreq : o.kind = .req
  · have hkind : (o.kind == .req) = true := beq_iff_eq.mpr hreq
    simp only [hkind, if_true, State.modCore_now, hynow]
    exact State.putNx_request (by rw [hy]; exact halone.ops) hreq n r f
  · obtain ⟨hpackets, hends, hroom⟩ := hlast hreq
    simp only [hreq, beq_iff_eq, if_false, State.modCore_now, hpackets, if_true]
    rw [← hynow, ← hy] at hroom
    rw [← hynow]
    exact State.finishNx_last (by rw [hy]; exact halone.ops) hreq hbin hends hroom n r f

end Leaves

/-! ## NX_PACKET_ACCEPT (R187, R188) -/

theorem exec_nxPacketAccept_alone {s : State} {k : Nat} {o : NxOp} {h : Handle} (halone : NxAlone s k o) (husable : (s.core k).usable o.handle isSender = some h)
    (hloud : o.silent = false) (hunsent : o.unsent = true) (hread : o.kind = .put ∨ o.kind = .ring → o.words ≠ []) (hleave : s.canLeave k o = true) :
    exec (.nxPacketAccept k) s = .next (s.acceptPacket k o h) := by
  show execNxPacketAccept k s = _
  simp only [execNxPacketAccept, State.startReads_read halone.ops hread, halone.ops, State.nextNx_alone hloud hunsent hread hleave, hloud,
    Core.usable_sender husable, Bool.false_eq_true, if_false]

/-- Settles O28: an operation that is alone has begun no reads that it still owes, so its packet is taken in the cycle it is due; the entry pays its
charge, and the operation ends or, for a request, stays for its reply. -/
theorem nxSends : Obligations.NxSends := by
  unfold Obligations.NxSends
  intro s k u o h p hcalm halone husable hloud _ hbin _ hunsent hread hleave hu hp hlast
  obtain ⟨n, r, f, he⟩ := State.acceptPacket_alone hcalm halone husable hbin (State.canLeave_paid (Core.usable_sender husable) hleave) hu hlast
  rw [← hp] at he
  have hcore (j : Nat) : ((s.takesPacket k o p).advance u).core j = s.core j := State.advance_core (s := s.takesPacket k o p) hcalm u j
  have hnow : max s.now u = u := by rw [hu]; omega
  refine ⟨_, (exec_nxPacketAccept_alone halone husable hloud hunsent hread hleave).trans (congrArg Host.Outcome.next he), ?state,
    fun j hj => (State.core_modCore_other _ _ _ _ hj).trans (hcore j), ?_⟩
  case state =>
    rw [State.advance_calm (s := s.takesPacket k o p) hcalm, show max (s.takesPacket k o p).now u = u from hnow]
    rfl
  rw [State.core_modCore_same, hcore]
  exact ⟨Core.packetLeaves_mem .., Core.packetLeaves_handle _ o h u n r f, Core.packetLeaves_last _ o h u n r f, Core.packetLeaves_request _ o h u n r f⟩

end Sys2Proof.Machine

/-! SUPPORT. The instructions of SX that complete in their issue cycle: the command of a row is one shared operation, and what it computes on numbers
is the row's function on words. -/

namespace Sys2Proof.Machine

/-! ## OP and the immediate forms (R193, R194) -/

theorem sxOpRows_exec {row : (Nat → Instr) × Nat × Nat × (Word32 → Word32 → Word32)} (hrow : row ∈ sxOpRows) :
    ∃ f : Nat → Nat → Nat, (∀ k s, exec (row.1 k) s = .next (s.opArith k row.2.1 row.2.2.1 f)) ∧
      ∀ a b : Word32, w32 (f a.toNat b.toNat) = row.2.2.2 a b := by
  simp only [sxOpRows, List.mem_cons, List.not_mem_nil, or_false] at hrow
  obtain rfl | rfl | rfl | rfl | rfl | rfl | rfl | rfl | rfl | rfl | rfl := hrow
  · exact ⟨_, fun _ _ => rfl, w32_add⟩
  · exact ⟨_, fun _ _ => rfl, w32_sub⟩
  · exact ⟨_, fun _ _ => rfl, w32_and⟩
  · exact ⟨_, fun _ _ => rfl, w32_or⟩
  · exact ⟨_, fun _ _ => rfl, w32_xor⟩
  · exact ⟨_, fun _ _ => rfl, fun a b => w32_sll a (b.toNat % 32)⟩
  · exact ⟨_, fun _ _ => rfl, fun a b => w32_srl a (b.toNat % 32)⟩
  · exact ⟨_, fun _ _ => rfl, fun a b => w32_sra a (b.toNat % 32)⟩
  · exact ⟨_, fun _ _ => rfl, w32_slt⟩
  · exact ⟨_, fun _ _ => rfl, w32_sltu⟩
  · exact ⟨_, fun _ _ => rfl, w32_mul⟩

/-- An immediate of 16 bits as an operand of 32. -/
theorem xImm_setWidth (w : Nat) : ((BitVec.ofNat 16 (xImm w)).setWidth 32).toNat = xImm w := imm_setWidth (ximm_lt w)

theorem w32_andi (a : Word32) (w : Nat) : w32 (Nat.land a.toNat (xImm w)) = a &&& (BitVec.ofNat 16 (xImm w)).setWidth 32 := by
  rw [← w32_and, xImm_setWidth]

theorem w32_ori (a : Word32) (w : Nat) : w32 (Nat.lor a.toNat (xImm w)) = a ||| (BitVec.ofNat 16 (xImm w)).setWidth 32 := by
  rw [← w32_or, xImm_setWidth]

theorem w32_xori (a : Word32) (w : Nat) : w32 (Nat.xor a.toNat (xImm w)) = a ^^^ (BitVec.ofNat 16 (xImm w)).setWidth 32 := by
  rw [← w32_xor, xImm_setWidth]

theorem w32_lui (w : Nat) : w32 (xImm w * 65536) = (BitVec.ofNat 16 (xImm w)).setWidth 32 <<< 16 := by
  rw [← w32_sll, xImm_setWidth]
  rfl

theorem w32_shi (a : Word32) (w : Nat) :
    w32 (if bits (xImm w) 6 5 = 0 then a.toNat * 2 ^ (xImm w % 32) else if bits (xImm w) 6 5 = 1 then a.toNat / 2 ^ (xImm w % 32)
        else sra32 a.toNat (xImm w % 32)) =
      if (BitVec.ofNat 16 (xImm w)).toNat / 32 % 4 = 0 then a <<< ((BitVec.ofNat 16 (xImm w)).toNat % 32)
      else if (BitVec.ofNat 16 (xImm w)).toNat / 32 % 4 = 1 then a >>> ((BitVec.ofNat 16 (xImm w)).toNat % 32)
      else a.sshiftRight ((BitVec.ofNat 16 (xImm w)).toNat % 32) := by
  rw [BitVec.toNat_ofNat, Nat.mod_eq_of_lt (ximm_lt w), show bits (xImm w) 6 5 = xImm w / 32 % 4 from rfl]
  split
  next => exact w32_sll a _
  next =>
    split
    · exact w32_srl a _
    · exact w32_sra a _

theorem w32_slti (a : Word32) (n : Nat) :
    w32 (flag (decide (sgn32 a.toNat < sext16 n))) = if a.slt ((BitVec.ofNat 16 n).signExtend 32) then 1 else 0 := by
  rw [w32_flag, sgn32_toNat, sext16_eq, BitVec.slt, BitVec.toInt_signExtend_of_le (by decide)]

theorem sxImmRows_exec {row : (Nat → Instr) × Nat × (Word32 → BitVec 16 → Word32)} (hrow : row ∈ sxImmRows) :
    ∃ f : Nat → Nat → Nat, (∀ k s, exec (row.1 k) s = .next (s.immArith k row.2.1 f)) ∧
      ∀ (a : Word32) (w : Nat), w32 (f a.toNat (xImm w)) = row.2.2 a (BitVec.ofNat 16 (xImm w)) := by
  simp only [sxImmRows, List.mem_cons, List.not_mem_nil, or_false] at hrow
  obtain rfl | rfl | rfl | rfl | rfl | rfl | rfl := hrow
  · exact ⟨_, fun _ _ => rfl, fun a w => w32_addi a (xImm w)⟩
  · exact ⟨_, fun _ _ => rfl, w32_andi⟩
  · exact ⟨_, fun _ _ => rfl, w32_ori⟩
  · exact ⟨_, fun _ _ => rfl, w32_xori⟩
  · exact ⟨_, fun _ _ => rfl, fun _ w => w32_lui w⟩
  · exact ⟨_, fun _ _ => rfl, w32_shi⟩
  · exact ⟨_, fun _ _ => rfl, fun a w => w32_slti a (xImm w)⟩

/-- Settles O4: the command of a row is the shared operation that issues, writes its register and passes in sequence. -/
theorem sxArithmetic : Obligations.SxArithmetic := by
  unfold Obligations.SxArithmetic
  refine ⟨fun row hrow s k i w u h hop hfunc hi => ?op, fun row hrow s k i w u h hop hi => ?imm⟩
  case op =>
    obtain ⟨f, he, hf⟩ := sxOpRows_exec hrow
    exact ⟨_, (he k s).trans (congrArg _ (State.opArith_ready h hop hfunc hi (hf _ _))), OnlyCore.issued_all h.calm h.now_le _⟩
  case imm =>
    obtain ⟨f, he, hf⟩ := sxImmRows_exec hrow
    exact ⟨_, (he k s).trans (congrArg _ (State.immArith_ready h hop hi (hf _ _))), OnlyCore.issued_all h.calm h.now_le _⟩

/-! ## Branches and jumps (R193, R200) -/

theorem sxBranchRows_exec {row : (Nat → Instr) × Nat × (Word32 → Word32 → Bool)} (hrow : row ∈ sxBranchRows) :
    ∃ p : Nat → Nat → Bool, (∀ k s, exec (row.1 k) s = .next (s.branch k row.2.1 p)) ∧
      ∀ a b : Word32, p a.toNat b.toNat = row.2.2 a b := by
  simp only [sxBranchRows, List.mem_cons, List.not_mem_nil, or_false] at hrow
  obtain rfl | rfl | rfl | rfl | rfl | rfl := hrow
  · exact ⟨_, fun _ _ => rfl, beq_toNat⟩
  · exact ⟨_, fun _ _ => rfl, fun a b => congrArg not (beq_toNat a b)⟩
  · refine ⟨_, fun _ _ => rfl, fun a b => ?_⟩
    rw [sgn32_toNat, sgn32_toNat]
    rfl
  · refine ⟨_, fun _ _ => rfl, fun a b => ?_⟩
    rw [sgn32_toNat, sgn32_toNat]
    rfl
  · exact ⟨_, fun _ _ => rfl, fun _ _ => rfl⟩
  · exact ⟨_, fun _ _ => rfl, fun _ _ => rfl⟩

/-- A transfer in the issue cycle, after what the instruction writes. -/
theorem SxIssues.jumps {s : State} {k i w u : Nat} {rs : List Nat} {target : Int} {before : State → State} {f : Core → Core}
    (h : SxIssues s k i w u rs) (h0 : 0 ≤ target) (h1 : target ≤ 8191)
    (hf : before ((s.advance u).modCore k fun c => c) = (s.advance u).modCore k f) :
    ((s.advance u).modCore k fun c => c).sxJump k { index := i } target before =
      (s.advance u).modCore k fun c => (f c).sxGoes target.toNat (u + 1) := by
  rw [State.sxJump_ok h0 h1, hf, State.modCore_modCore, h.issued_now]
  rfl

theorem sxTarget_eq (i w : Nat) : (i : Int) + sext16 (xImm w) = sxTarget i w := by rw [sext16_eq, ofNat_xImm, sxTarget]

theorem toNat_w32_wrapU (v : Int) : (w32 (wrapU 32 v)).toNat = wrapU 32 v := by
  rw [w32, BitVec.toNat_ofNat, wrapU]
  omega

/-- The number that DBNZ writes and tests is its register less one, on words. -/
theorem w32_decrement (a : Word32) : w32 (wrapU 32 ((a.toNat : Int) - 1)) = a - 1 := w32_sub a 1

theorem decrement_eq_zero (a : Word32) : wrapU 32 ((a.toNat : Int) - 1) = 0 ↔ a - 1 = 0 := by
  rw [← w32_decrement, ← BitVec.toNat_inj, toNat_w32_wrapU]
  exact Iff.rfl

theorem exec_dbnz_issues {s : State} {k i w u : Nat} (h : SxIssues s k i w u [bRa w]) (hop : xOpc w = 0x1E) (hreg : bRa w ≠ 0) (hi : i + 1 < 8192)
    (h0 : 0 ≤ sxTarget i w) (h1 : sxTarget i w ≤ 8191) (hclean : ((s.core k).g (bRa w)).poison = false) :
    exec (.dbnz k) s = .next ((s.advance u).modCore k fun c =>
      (c.setG (bRa w) ⟨((s.core k).g (bRa w)).val - 1, false⟩ (u + 1)).sxGoes
        (if ((s.core k).g (bRa w)).val - 1 = 0 then i + 1 else (sxTarget i w).toNat) (u + 1)) := by
  show execDbnz k s = _
  rw [execDbnz, State.issueSx_ready (reads := fun w => [bRa w]) h (by simp [wantX, hop]) rfl, if_neg Bool.false_ne_true, if_neg hreg,
    h.guards (by simp [hclean])]
  simp only [Core.gv, State.core_modCore_same, State.advance_core h.calm, w32_decrement, decrement_eq_zero, sxTarget_eq]
  split
  next hz => rw [State.setG, State.modCore_self, h.issued_now, h.passes hi (Core.setG_sxs ..)]
  next hnz =>
    rw [h.jumps h0 h1]
    rw [State.setG, State.modCore_self, h.issued_now]

theorem jalTarget_eq (i w : Nat) : (i : Int) + signed 21 (bits w 20 0) = (i : Int) + (BitVec.ofNat 21 w).toInt := by
  rw [signed21_eq, bits_from_zero, ofNat_mod_two_pow]

theorem exec_jal_issues {s : State} {k i w u : Nat} (h : SxIssues s k i w u []) (hop : xOpc w = 0x1F)
    (h0 : 0 ≤ (i : Int) + (BitVec.ofNat 21 w).toInt) (h1 : (i : Int) + (BitVec.ofNat 21 w).toInt ≤ 8191) :
    exec (.jal k) s = .next ((s.advance u).modCore k fun c =>
      (c.setG (xRd w) ⟨BitVec.ofNat 32 (i + 1), false⟩ (u + 1)).sxGoes ((i : Int) + (BitVec.ofNat 21 w).toInt).toNat (u + 1)) := by
  show execJal k s = _
  rw [execJal, State.issueSx_ready (reads := fun _ => []) h (by simp [wantX, hop]) rfl, if_neg Bool.false_ne_true, jalTarget_eq,
    h.jumps h0 h1 (f := fun c => c.setG (xRd w) ⟨BitVec.ofNat 32 (i + 1), false⟩ (u + 1))]
  rw [State.setG, State.modCore_self, h.issued_now]
  rfl

theorem exec_jr_issues {s : State} {k i w u : Nat} (h : SxIssues s k i w u [xRa w]) (hop : xOpc w = 0x20)
    (hclean : ((s.core k).g (xRa w)).poison = false) (hlow : ((s.core k).g (xRa w)).val.toNat ≤ 8191) :
    exec (.jr k) s = .next ((s.advance u).modCore k fun c => c.sxGoes ((s.core k).g (xRa w)).val.toNat (u + 1)) := by
  show execJr k s = _
  rw [execJr, State.issueSx_ready (reads := fun w => [xRa w]) h (by simp [wantX, hop]) rfl, if_neg Bool.false_ne_true, h.guards (by simp [hclean]),
    State.core_modCore_same, State.advance_core h.calm, Core.gv, h.jumps (f := fun c => c) (Int.natCast_nonneg _) (by omega) rfl]
  rfl

/-- Settles O5: where control goes is the one thing that the transfers do, besides the register that DBNZ and JAL write. -/
theorem sxTransfers : Obligations.SxTransfers := by
  unfold Obligations.SxTransfers
  refine ⟨fun row hrow s k i w u h hop hi h0 h1 ha hb => ?branch, fun s k i w u => ⟨fun h hop hreg hi h0 h1 hclean => ?dbnz,
    fun h hop h0 h1 => ?jal, fun h hop hclean hlow => ?jr⟩⟩
  case branch =>
    obtain ⟨p, he, hp⟩ := sxBranchRows_exec hrow
    exact ⟨_, (he k s).trans (congrArg _ (branch_eq h hop hi h0 h1 ha hb (hp _ _))), OnlyCore.issued_all h.calm h.now_le _⟩
  case dbnz => exact ⟨_, exec_dbnz_issues h hop hreg hi h0 h1 hclean, OnlyCore.issued_all h.calm h.now_le _⟩
  case jal => exact ⟨_, exec_jal_issues h hop h0 h1, OnlyCore.issued_all h.calm h.now_le _⟩
  case jr => exact ⟨_, exec_jr_issues h hop hclean hlow, OnlyCore.issued_all h.calm h.now_le _⟩

end Sys2Proof.Machine

/-! SUPPORT. The control uses of SX, and the accesses that it starts. -/

namespace Sys2Proof.Machine

/-! ## Control uses (R191) -/

/-- The command of a row of control uses issues, and what it then does is guarded by the registers whose poison forbids it. -/
def GuardsUses (row : (Nat → Instr) × Nat × (Nat → List Nat) × (Nat → List Nat)) : Prop :=
  ∃ body : Nat → Nat → Owed → Bool → State → State,
    (∀ k s, exec (row.1 k) s = .next (s.issueSx k (wantX row.2.1) row.2.2.1 (fun _ => []) (body k))) ∧
    ∀ k w o t, (∃ r ∈ row.2.2.2 w, r ≠ 0) → ∃ f, body k w o false t = t.guardUse k o (row.2.2.2 w) f

/-- DBNZ of g0 is inconsistent before it is a use of g0; every other row is guarded whatever its register. -/
theorem guardsUses_of_mem {row : (Nat → Instr) × Nat × (Nat → List Nat) × (Nat → List Nat)} (hrow : row ∈ sxControlRows) : GuardsUses row := by
  simp only [sxControlRows, List.mem_cons, List.not_mem_nil, or_false] at hrow
  obtain rfl | rfl | rfl | rfl | rfl | rfl | rfl | rfl | rfl | rfl | rfl | rfl | rfl | rfl | rfl | rfl | rfl := hrow
  pick_goal 7 -- DBNZ
  · refine ⟨_, fun _ _ => rfl, fun k w o t ⟨r, hr, hne⟩ => ⟨_, (if_neg Bool.false_ne_true).trans (if_neg ?_)⟩⟩
    rwa [← List.mem_singleton.mp hr]
  all_goals exact ⟨_, fun _ _ => rfl, fun _ _ _ _ _ => ⟨_, if_neg Bool.false_ne_true⟩⟩

theorem Core.ne_zero_of_poison {c : Core} {r : Nat} (h : (c.g r).poison = true) : r ≠ 0 := by
  rintro rfl
  cases h

/-- Settles O7: the guard of each row finds a poisoned register, and a poisoned use only records its code and abandons the stream. -/
theorem sxPoisonedControl : Obligations.SxPoisonedControl := by
  unfold Obligations.SxPoisonedControl
  intro row hrow s k i w u h hop hpoison
  obtain ⟨body, he, hguard⟩ := guardsUses_of_mem hrow
  obtain ⟨r, hr, hbad⟩ := hpoison
  obtain ⟨f, hf⟩ := hguard k w { index := i } ((s.advance u).modCore k fun c => c) ⟨r, hr, Core.ne_zero_of_poison hbad⟩
  rw [he]
  exact sx_poison h (by simp [wantX, hop]) ⟨r, hr, hbad⟩ hf

/-! ## The issue of an access (R196 to R199, R205) -/

theorem Core.wordAddr_eq (c : Core) (w : Nat) : c.wordAddr w = ((c.g (xRa w)).val + (BitVec.ofNat 16 w).signExtend 32).toNat := by
  rw [Core.wordAddr, ← toNat_w32_wrapU, Core.gv, w32_addi, ofNat_xImm]

theorem Core.regAddr_eq (c : Core) (w : Nat) : (c.gv (xRa w) + xImm w) % 2 ^ 32 = ((c.g (xRa w)).val + (BitVec.ofNat 16 w).setWidth 32).toNat := by
  rw [BitVec.toNat_add, ← ofNat_xImm, imm_setWidth (ximm_lt w)]
  rfl

/-- The first destination of a legal LDP is neither g0 nor g31, so that the second is the register after it (R197). -/
theorem ldp_even {w : Nat} (hlegal : sxBad w = none) (hop : xOpc w = 0x12) : xRd w < 31 := by
  have hcheck : (bit w 21 || xRd w == 0) = false := (sxBad_none hlegal).2 (25, 21, bit w 21 || xRd w == 0) (by simp [xChecks, hop])
  obtain ⟨heven, -⟩ := Bool.or_eq_false_iff.mp hcheck
  rw [bit, Nat.testBit_eq_decide_div_mod_eq, decide_eq_false_iff_not] at heven
  simp only [xRd, bits]
  omega

/-- The command of a row of accesses issues; with clean uses, an address that is not refused and a legal word it starts the row's access. -/
def StartsAccess (row : (Nat → Instr) × Nat × (Nat → List Nat) × (Nat → List Nat) × (Core → Nat → SxAcc)) : Prop :=
  ∃ body : Nat → Nat → Owed → Bool → State → State,
    (∀ k s, exec (row.1 k) s = .next (s.issueSx k (wantX row.2.1) row.2.2.1 (fun _ => []) (body k))) ∧
    ∀ k w o t, sxBad w = none → xOpc w = row.2.1 → (∀ r ∈ row.2.2.2.1 w, ((t.core k).g r).poison = false) →
      (row.2.2.2.2 (t.core k) w).addressed (t.core k) = true → body k w o false t = t.startAcc k o (row.2.2.2.2 (t.core k) w)

theorem startsAccess_of_mem {row : (Nat → Instr) × Nat × (Nat → List Nat) × (Nat → List Nat) × (Core → Nat → SxAcc)} (hrow : row ∈ sxAccessRows) :
    StartsAccess row := by
  simp only [sxAccessRows, List.mem_cons, List.not_mem_nil, or_false] at hrow
  obtain rfl | rfl | rfl | rfl | rfl | rfl := hrow
  · refine ⟨_, fun _ _ => rfl, fun k w o t _ _ hclean haddr => (if_neg Bool.false_ne_true).trans ((State.guardUse_ok hclean).trans ?_)⟩
    exact SxAcc.startMem_eq (Core.wordAddr_eq ..) (Option.isNone_iff_eq_none.mp haddr)
  · refine ⟨_, fun _ _ => rfl, fun k w o t _ _ hclean haddr => (if_neg Bool.false_ne_true).trans ((State.guardUse_ok hclean).trans ?_)⟩
    exact SxAcc.startMem_eq (Core.wordAddr_eq ..) (Option.isNone_iff_eq_none.mp haddr)
  · refine ⟨_, fun _ _ => rfl, fun k w o t hlegal hop hclean haddr => (if_neg Bool.false_ne_true).trans ((State.guardUse_ok hclean).trans ?_)⟩
    obtain ⟨hnarrow, heven⟩ := Bool.and_eq_true_iff.mp haddr
    have hrd := ldp_even hlegal hop
    have haligned : ((((t.core k).g (xRa w)).val + (BitVec.ofNat 16 w).signExtend 32).toNat) % 2 = 0 := beq_iff_eq.mp heven
    rw [if_neg (by rw [Core.wordAddr_eq]; omega), if_neg (by omega)]
    exact SxAcc.startMem_eq (Core.wordAddr_eq ..) (Option.isNone_iff_eq_none.mp hnarrow)
  · refine ⟨_, fun _ _ => rfl, fun k w o t _ _ hclean _ => (if_neg Bool.false_ne_true).trans ((State.guardUse_ok hclean).trans ?_)⟩
    rw [Core.regAddr_eq]
  · refine ⟨_, fun _ _ => rfl, fun k w o t _ _ hclean _ => (if_neg Bool.false_ne_true).trans ((State.guardUse_ok hclean).trans ?_)⟩
    rw [Core.regAddr_eq]
  · refine ⟨_, fun _ _ => rfl, fun k w o t _ _ hclean _ => (if_neg Bool.false_ne_true).trans ((State.guardUse_ok hclean).trans ?_)⟩
    rw [bits_from_zero]
    rfl

/-- The access of a row: its destinations are general registers, and it owes its stream nothing. -/
theorem sxAccessRows_regs {row : (Nat → Instr) × Nat × (Nat → List Nat) × (Nat → List Nat) × (Core → Nat → SxAcc)} (hrow : row ∈ sxAccessRows)
    {w : Nat} (hlegal : sxBad w = none) (hop : xOpc w = row.2.1) (c : Core) :
    (row.2.2.2.2 c w).rd < 32 ∧ (row.2.2.2.2 c w).rd2 < 32 ∧ (row.2.2.2.2 c w).ends = [] := by
  simp only [sxAccessRows, List.mem_cons, List.not_mem_nil, or_false] at hrow
  obtain rfl | rfl | rfl | rfl | rfl | rfl := hrow
  · exact ⟨xRd_lt w, Nat.succ_pos _, rfl⟩
  · exact ⟨Nat.succ_pos _, Nat.succ_pos _, rfl⟩
  · exact ⟨xRd_lt w, Nat.succ_lt_succ (ldp_even hlegal hop), rfl⟩
  · exact ⟨xRd_lt w, Nat.succ_pos _, rfl⟩
  · exact ⟨Nat.succ_pos _, Nat.succ_pos _, rfl⟩
  · exact ⟨xRd_lt w, Nat.succ_pos _, rfl⟩

/-- Settles O8: every row starts its access in the issue cycle; what a start changes is said once, by `access_goes`. -/
theorem sxAccessIssues : Obligations.SxAccessIssues := by
  unfold Obligations.SxAccessIssues
  intro row hrow s k i w u h hop hi hclean haddr hlen
  obtain ⟨body, he, hstarts⟩ := startsAccess_of_mem hrow
  obtain ⟨hrd, hrd2, hends⟩ := sxAccessRows_regs hrow h.legal hop (s.core k)
  have hcore : ((s.advance u).modCore k fun c => c).core k = s.core k := by rw [State.core_modCore_same, State.advance_core h.calm]
  have hbody := hstarts k w { index := i } ((s.advance u).modCore k fun c => c) h.legal hop (by rwa [hcore]) (by rwa [hcore])
  rw [hcore] at hbody
  obtain ⟨hnow, honly, hlast, hrest⟩ := access_goes (a := row.2.2.2.2 (s.core k) w) h hi hlen hrd hrd2 rfl
  rw [he, State.issueSx_ready h (by simp [wantX, hop]) rfl, hbody]
  exact ⟨_, rfl, hnow, honly, hlast.trans (by simp only [hends]), hrest⟩

end Sys2Proof.Machine

/-! SUPPORT. The ends of the waits of SX: AWAIT and HCLOSE, and the stages of a HOPEN. -/

namespace Sys2Proof.Machine

/-! ## The end of a wait (R203, R206) -/

/-- The core after the wait x has ended in its due cycle: the stream runs on after it, and the signal is given. -/
def Core.sxWaitEnds (c : Core) (x : SxWait) : Core :=
  { c with
    sx := { c.sx with wait := none }
    sync := c.sync.signalled x.due x.sig
    sxs := { c.sxs with ready := x.due + 1, state := if c.sxs.state = .waitArr then .run else c.sxs.state } }

section Next
variable {s : State} {k : Nat} {x : SxWait} (h : SxWaitNext s k x)
include h

theorem SxWaitNext.advance_now : (s.advance x.due).now = x.due := by
  rw [State.advance_now, Nat.max_eq_right h.due]

/-- What the wait in flight has become, y, ends it alike where it has the signal of x. -/
theorem SxWaitNext.ends_as {f : Core → Core} {y : SxWait} (hf : (f (s.core k)).sync = (s.core k).sync) (hsig : y.sig = x.sig) (hends : y.ends = []) :
    ((s.advance x.due).modCore k f).endWait k y = (s.advance x.due).modCore k fun c => (f c).sxWaitEnds x := by
  rw [State.endWait_eq hends (by rw [State.advance_core h.calm, hf, hsig]; exact h.room), h.advance_now, hsig]
  rfl

/-- The SX port takes the bank of a line in the due cycle. -/
theorem SxWaitNext.takes (hfree : s.slotFree k 10 x.due) (line : Nat) :
    ((s.advance x.due).takeBanks k .sx false x.due fun _ => [line % 16]).2 =
      (s.advance x.due).modCore k fun c => c.modMem fun m => m.claim 10 x.due [line % 16] := by
  rw [State.takeBanks_free (e := .sx) (wr := false) (by rw [State.advance_core h.calm]; exact h.reads) h.advance_now
    (State.slotFree_advance h.calm hfree)]
  rfl

end Next

/-! ## AWAIT (R203, R297) -/

/-- The core after the wait x has read its status word in its due cycle. -/
def Core.awaitRead (c : Core) (x : SxWait) : Core :=
  (c.modMem fun m => m.claim 10 x.due [x.line % 16]).modSx fun y => { y with wait := some { x with readAt := x.due } }

/-- The core after the stream has entered WAIT_ARR at a tick. -/
def Core.awaitStays (c : Core) (x : SxWait) (tick : Nat) : Core :=
  ({ c with sxs := { c.sxs with state := .waitArr } } : Core).modSx fun y => { y with wait := some { x with readAt := x.due, waitTick := some tick } }

/-- Whether a status word ends the wait x: its COUNT has reached the target, or a flag is set. -/
def Core.awaitOver (c : Core) (x : SxWait) : Bool :=
  reached (c.scrWord (64 * x.line)).val x.target || (c.scrWord (64 * x.line + 1)).val.toNat / 65536 % 32 != 0

/-- With the bank taken, the read finds the status word as it stands, where nothing has changed it in the due cycle. -/
theorem SxWaitNext.readsStatus {s : State} {k : Nat} {x : SxWait} (h : SxWaitNext s k x)
    (hnew : ((s.core k).handle (hIndex x.handle)).changedAt ≠ x.due) (hcount : (s.core k).mem.scr.flaw (64 * x.line) = none)
    (hflags : (s.core k).mem.scr.flaw (64 * x.line + 1) = none) :
    ((s.advance x.due).modCore k fun c => c.modMem fun m => m.claim 10 x.due [x.line % 16]).readStatus k (engCode .sx) x.line
        ((s.core k).handle (hIndex x.handle)) =
      (((s.core k).scrWord (64 * x.line)).val, ((s.core k).scrWord (64 * x.line + 1)).val.toNat / 65536 % 32,
        (s.advance x.due).modCore k fun c => c.modMem fun m => m.claim 10 x.due [x.line % 16]) := by
  have hcore := State.advance_core h.calm x.due k
  rw [State.readStatus_clean (by rw [State.modCore_now, h.advance_now]; exact hnew) (by rw [State.core_modCore_same, hcore]; exact hcount)
    (by rw [State.core_modCore_same, hcore]; exact hflags), State.core_modCore_same, hcore]
  rfl

theorem SxWaitNext.awaits {s : State} {k : Nat} {x : SxWait} (h : SxWaitNext s k x) (hkind : x.kind = .await)
    (hruns : (s.core k).ctl.stopAt = none) (hfree : s.slotFree k 10 x.due) (hfirst : x.waitTick = none) (halive : (s.core k).alive x.handle = true)
    (hnew : ((s.core k).handle (hIndex x.handle)).changedAt ≠ x.due) (hcount : (s.core k).mem.scr.flaw (64 * x.line) = none)
    (hflags : (s.core k).mem.scr.flaw (64 * x.line + 1) = none) :
    exec (.awaitComplete k) s = .next ((s.advance x.due).modCore k fun c =>
      if (s.core k).awaitOver x then (c.awaitRead x).sxWaitEnds x else (c.awaitRead x).awaitStays x (s.advance x.due).tick) := by
  have hcore := State.advance_core h.calm x.due k
  have halone : (s.core k).sxAlone = true := by simp [Core.sxAlone, h.accs, hruns]
  have hhandle : ((s.core k).modMem fun m => m.claim 10 x.due [x.line % 16]).handle (hIndex x.handle) = (s.core k).handle (hIndex x.handle) := rfl
  have hput : ((s.advance x.due).modCore k fun c => c.modMem fun m => m.claim 10 x.due [x.line % 16]).putWait k { x with readAt := x.due } =
      (s.advance x.due).modCore k fun c => c.awaitRead x := by rw [State.putWait, State.modCore_modCore]; rfl
  have halive' : ((s.core k).awaitRead x).alive x.handle = true := halive
  show execAwaitComplete k s = _
  simp only [hkind, hfirst, h.done] at hput
  simp only [execAwaitComplete, h.waits, hkind, halone, hfirst, h.done, h.takes hfree, h.readsStatus hnew hcount hflags, hput, halive', hhandle,
    State.modCore_now, h.advance_now, State.core_modCore_same, hcore, Option.isSome_none, Bool.false_eq_true, if_false, ne_eq, not_true_eq_false,
    Bool.not_true, false_and, or_self, Bool.and_false]
  rw [Core.awaitOver]
  split
  next => exact congrArg _ (h.ends_as rfl rfl h.ends)
  next =>
    have htick : ((s.advance x.due).modCore k fun c => c.awaitRead x).tick = (s.advance x.due).tick := rfl
    rw [State.putWait, State.modStream, State.modCore_modCore, State.modCore_modCore, htick]
    refine congrArg _ (State.modCore_congr ?_)
    simp [Core.awaitStays, Core.awaitRead, Core.modStream, Core.setStream, Core.stream, Core.modSx, hkind, hfirst, h.done]

/-! ## HCLOSE (R313 to R317) -/

/-- The entry h after an HCLOSE in cycle u. -/
def Handle.afterClose (h : Handle) (u : Nat) (atOnce : Bool) : Handle :=
  if isOwner h.kind = false then (h.touch u).shut false
  else if h.kind = kRdwinOwn ∨ atOnce = true then (h.touch u).shut true
  else if h.settled then (h.touch u).shut false
  else { h with state := .closing }

/-- The YIELDs that wait after an HCLOSE of the entry h, named v. -/
def Handle.yieldsAfter (h : Handle) (v : Nat) (l : List Yield) : List Yield :=
  if isOwner h.kind then l else if h.kind = kRdwinReq then (l.filter fun y => y.handle != v) ++ [⟨v, h⟩] else l ++ [⟨v, h⟩]

/-- The core after an HCLOSE of the entry h, named v, in cycle u. -/
def Core.closes (c : Core) (v : Nat) (h : Handle) (u : Nat) (atOnce : Bool) : Core :=
  (c.setHandle (hIndex v) (h.afterClose u atOnce)).modChan fun x => { x with yields := h.yieldsAfter v x.yields }

theorem isSender_iff {n : Nat} : isSender n = true ↔ (n = kWinSend ∨ n = kRingSend) ∨ n = kRdwinReq := by
  simp [isSender, kWinSend, kRingSend, kRdwinReq]

theorem State.closeHandle_usable {s : State} {k v : Nat} {now : Bool} {h : Handle} (hu : (s.core k).usable v (fun _ => true) = some h)
    (hkind : (isOwner h.kind || isSender h.kind) = true) :
    s.closeHandle k v now = (none, s.modCore k fun c => c.closes v h s.now (now && !s.strict)) := by
  have hentry : (s.core k).handle (hIndex v) = h := Core.usable_handle hu
  have howner (f : Handle → Handle) (ho : isOwner h.kind = true) (hf : f h = h.afterClose s.now (now && !s.strict)) :
      s.modHandle k (hIndex v) f = s.modCore k fun c => c.closes v h s.now (now && !s.strict) := by
    rw [State.modHandle]
    refine State.modCore_congr ?_
    rw [hentry, hf, Core.closes]
    simp only [Handle.yieldsAfter, ho, if_true]
    rfl
  rw [State.closeHandle]
  simp only [hu]
  split
  next hsend =>
    have ho : isOwner h.kind = false := by rcases hsend with hk | hk <;> rw [hk] <;> rfl
    have hr : h.kind ≠ kRdwinReq := by rcases hsend with hk | hk <;> rw [hk] <;> decide
    simp only [Core.closes, Handle.afterClose, Handle.yieldsAfter, ho, hr, Bool.false_eq_true, if_true, if_false]
  next hsend =>
    split
    next hreq =>
      have ho : isOwner h.kind = false := by rw [hreq]; rfl
      simp only [Core.closes, Handle.afterClose, Handle.yieldsAfter, ho, if_pos hreq, Bool.false_eq_true, if_true, if_false]
    next hreq =>
      have ho : isOwner h.kind = true := (Bool.or_eq_true_iff.mp hkind).resolve_right fun hs => (isSender_iff.mp hs).elim hsend hreq
      have howns : ¬isOwner h.kind = false := by rw [ho]; decide
      split_ifs with hown hnow hset
      all_goals refine congrArg (Prod.mk none) (howner _ ho ?_)
      · rw [Handle.afterClose, if_neg howns, if_pos (.inl hown)]
      · rw [Handle.afterClose, if_neg howns, if_pos (.inr hnow)]
      · rw [Handle.afterClose, if_neg howns, if_neg (not_or.mpr ⟨hown, hnow⟩), if_pos hset]
      · rw [Handle.afterClose, if_neg howns, if_neg (not_or.mpr ⟨hown, hnow⟩), if_neg hset]

theorem SxWaitNext.closes {s : State} {k : Nat} {x : SxWait} {e : Handle} (h : SxWaitNext s k x) (hkind : x.kind = .hclose)
    (hu : (s.core k).usable x.handle (fun _ => true) = some e) (hfits : (isOwner e.kind || isSender e.kind) = true) :
    exec (.hcloseComplete k) s = .next ((s.advance x.due).modCore k fun c => (c.closes x.handle e x.due (x.now && !s.strict)).sxWaitEnds x) := by
  have hcore := State.advance_core h.calm x.due k
  show execHcloseComplete k s = _
  simp only [execHcloseComplete, h.waits, hkind, h.accs, List.isEmpty_nil, ne_eq, not_true_eq_false, or_self, if_false]
  rw [State.closeHandle_usable (by rwa [hcore]) hfits, h.advance_now, State.advance_strict]
  exact congrArg _ (h.ends_as rfl rfl h.ends)

/-- Settles O15: the one read of the status word decides whether the wait ends or stays; a close changes its entry and the YIELDs that wait, and every
wait ends alike. -/
theorem sxWaitsEnd : Obligations.SxWaitsEnd := by
  unfold Obligations.SxWaitsEnd
  intro s k x h
  refine ⟨fun n f hkind hruns hfree hfirst halive hnew hcount hflags hn hf => ?await, fun e hkind hu hfits => ?hclose⟩
  case await =>
    refine ⟨_, h.awaits hkind hruns hfree hfirst halive hnew hcount hflags, ?_, OnlyCore.issued k _ h.calm _, ?_⟩
    · rw [State.modCore_now, h.advance_now]
    rw [State.core_modCore_same, State.advance_core h.calm]
    have hover : (s.core k).awaitOver x = true ↔ n < 2 ^ 31 ∨ f ≠ 0 := by rw [Core.awaitOver, ← hf, reached, ← hn]; simp
    by_cases hend : (s.core k).awaitOver x = true
    · rw [if_pos hend]
      exact ⟨fun _ => ⟨rfl, rfl, rfl, rfl, rfl, rfl, rfl⟩, fun hlow hclear => absurd (hover.mp hend) (by omega)⟩
    · rw [if_neg hend]
      exact ⟨fun hmet => absurd (hover.mpr hmet) hend, fun _ _ => ⟨rfl, rfl, rfl⟩⟩
  case hclose =>
    refine ⟨_, h.closes hkind hu hfits, ?_, OnlyCore.issued k _ h.calm _, ?_⟩
    · rw [State.modCore_now, h.advance_now]
    rw [State.core_modCore_same, State.advance_core h.calm]
    refine ⟨⟨rfl, rfl, rfl, rfl, rfl, rfl, rfl⟩, fun j hj => ?_, ?_, ?_⟩
    · exact (Core.handle_setHandle ..).trans (if_neg hj)
    · refine ((Core.handle_setHandle ..).trans (if_pos rfl)).trans ?_
      simp only [Handle.afterClose, Bool.and_eq_true, Bool.not_eq_true']
    · rfl

/-! ## HOPEN (R204, R298) -/

theorem State.readLine_clean {s : State} {k eng line : Nat} (hshown : (s.core k).readsZero false line = false)
    (hclean : ∀ j, j < 64 → (s.core k).mem.scr.flaw (64 * line + j) = none) :
    s.readLine k eng line = ((List.range 64).map fun j => (s.core k).scrWord (64 * line + j), s) := by
  rw [State.readLine, hshown, if_neg Bool.false_ne_true, State.readWords_clean hclean]

/-- The core after the read of the descriptor: its words stand in the wait. -/
def Core.hopenReads (c : Core) (x : SxWait) : Core :=
  (c.modMem fun m => m.claim 10 x.due [x.handle / 64 % 16]).modSx fun y => { y with wait := some { x with
    stage := .write, due := x.due + 1
    words := ((List.range 64).map fun j => c.scrWord (64 * (x.handle / 64) + j)).drop (x.handle % 64) } }

/-- The core after the descriptor has been accepted: the entry e at index i is open, its control line, where it has one, reads zero, and the wait
holds the handle. -/
def Core.hopenWrites (c : Core) (x : SxWait) (i : Nat) (e : Handle) : Core :=
  ((c.setHandle i e).modMem fun m =>
    if kindStatus e.kind then { m.claim 10 x.due [e.ctrl % 16] with scr := putScrWords m.scr (64 * e.ctrl) zeroLine } else m).modSx fun y =>
      { y with wait := some { x with stage := .done, due := x.due + 3, result := ⟨BitVec.ofNat 32 (i + 4096 * e.gen), false⟩ } }

/-- A state that differs in its memory alone, as after a slot has been taken, opens the same entry. -/
theorem State.openEntry_as {s t : State} {k index a : Nat} {ws : List (PWord 32)} {m : CoreMem}
    (hcore : t.core k = { s.core k with mem := m }) (hroute : t.route = s.route) (hstrict : t.strict = s.strict) (hreads : (s.core k).heads = [])
    (hok : s.openRefusal k a ws = none) :
    t.openEntry k index a ws = (some ((parseDesc ws).index + 4096 * (s.newEntry k ws).gen), t.modCore k fun c =>
      (c.setHandle (parseDesc ws).index (s.newEntry k ws)).modMem fun m =>
        if kindStatus (s.newEntry k ws).kind then { m with scr := putScrWords m.scr (64 * (s.newEntry k ws).ctrl) zeroLine } else m) :=
  State.openEntry_ok ((State.openRefusal_congr hroute hstrict hcore).trans hok) (State.newEntry_congr hroute hcore).symm rfl (by rw [hcore]; exact hreads)

section Hopen
variable {s : State} {k : Nat} {x : SxWait} (h : SxWaitNext s k x) (hkind : x.kind = .hopen)
include h hkind

theorem SxWaitNext.opening (hstage : x.stage = .read) : exec (.sxAccess k) s = .next (s.hopenRead k x) := by
  show execSxAccess k s = _
  rw [execSxAccess, h.accs, h.waits]
  simp only [hkind, hstage, ne_eq, not_true_eq_false, if_false]

theorem SxWaitNext.accepting (hstage : x.stage = .write) : exec (.sxAccess k) s = .next (s.hopenWrite k x) := by
  show execSxAccess k s = _
  rw [execSxAccess, h.accs, h.waits]
  simp only [hkind, hstage, ne_eq, not_true_eq_false, if_false]

theorem SxWaitNext.readsDescriptor (hstage : x.stage = .read) (hp : s.plainRead k x.due (64 * (x.handle / 64)) 64) :
    exec (.sxAccess k) s = .next ((s.advance x.due).modCore k fun c => c.hopenReads x) := by
  have hcore := State.advance_core h.calm x.due k
  have hshown := hp.shown
  rw [Nat.mul_div_cancel_left _ (by decide)] at hshown
  rw [h.opening hkind hstage, State.hopenRead, h.takes hp.free, State.readLine_clean (by rw [State.core_modCore_same, hcore]; exact hshown)
    (by rw [State.core_modCore_same, hcore]; exact hp.clean), State.putWait, State.modCore_modCore, State.modCore_now, h.advance_now]
  refine congrArg _ (State.modCore_congr ?_)
  rw [State.core_modCore_same]
  rfl

theorem SxWaitNext.acceptsDescriptor (hstage : x.stage = .write) (hok : s.openRefusal k x.handle x.words = none)
    (hfree : kindStatus (s.newEntry k x.words).kind = true → s.slotFree k 10 x.due) :
    exec (.sxAccess k) s = .next ((s.advance x.due).modCore k fun c => c.hopenWrites x (parseDesc x.words).index (s.newEntry k x.words)) := by
  have hcore := State.advance_core h.calm x.due k
  have hok' : (s.advance x.due).openRefusal k x.handle x.words = none :=
    (State.openRefusal_congr (State.advance_route s x.due) (State.advance_strict s x.due) hcore).trans hok
  rw [h.accepting hkind hstage, State.hopenWrite, hok', Option.isNone_none, Bool.true_and]
  by_cases hstatus : kindStatus (s.newEntry k x.words).kind = true
  · have hclaimed : ((s.advance x.due).modCore k fun c => c.modMem fun m => m.claim 10 x.due [(parseDesc x.words).entry.ctrl % 16]).core k =
        { s.core k with mem := (s.core k).mem.claim 10 x.due [(parseDesc x.words).entry.ctrl % 16] } := by rw [State.core_modCore_same, hcore]; rfl
    rw [if_pos (show kindStatus (parseDesc x.words).entry.kind = true from hstatus), h.takes (hfree hstatus),
      State.openEntry_as hclaimed (State.advance_route s x.due) (State.advance_strict s x.due) h.reads hok, State.putWait, State.modCore_modCore, State.modCore_modCore]
    refine congrArg _ (State.modCore_congr ?_)
    simp only [Core.hopenWrites, hstatus, if_true, State.modCore_now, h.advance_now]
    rfl
  · rw [if_neg (show ¬kindStatus (parseDesc x.words).entry.kind = true from hstatus),
      State.openEntry_as hcore (State.advance_route s x.due) (State.advance_strict s x.due) h.reads hok, State.putWait, State.modCore_modCore]
    refine congrArg _ (State.modCore_congr ?_)
    simp only [Core.hopenWrites, hstatus, h.advance_now]
    rfl

theorem SxWaitNext.delivers (hstage : x.stage = .done) :
    exec (.hopenComplete k) s =
      .next ((((s.advance x.due).modCore k fun c => c).setG k x.rd x.result (x.due + 1)).endWait k x) := by
  show execHopenComplete k s = _
  simp only [execHopenComplete, h.waits, hkind, hstage, h.accs, List.isEmpty_nil, ne_eq, not_true_eq_false, or_self, if_false]
  rw [State.setG, State.setG, State.modCore_self, h.advance_now]

end Hopen

theorem Core.hopenWrites_handle (c : Core) (x : SxWait) (i j : Nat) (e : Handle) :
    (c.hopenWrites x i e).handle j = if j = i then e else c.handle j := Core.handle_setHandle ..

theorem Core.hopenWrites_scrWord {c : Core} (hwf : Memory.wf c.mem.scr.cells = true) (x : SxWait) (i : Nat) (e : Handle) (w : Nat) :
    (c.hopenWrites x i e).scrWord w = if kindStatus e.kind ∧ w / 64 = e.ctrl then ⟨0, false⟩ else c.scrWord w := by
  by_cases hstatus : kindStatus e.kind = true
  · have hscr : (c.hopenWrites x i e).mem.scr = putScrWords c.mem.scr (64 * e.ctrl) zeroLine := by
      simp only [Core.hopenWrites, Core.modMem, Core.modSx, hstatus, if_true]
      rfl
    rw [scrWord_eq, hscr, scr_zeroLine hwf]
    simp only [hstatus, true_and]
    rfl
  · have hscr : (c.hopenWrites x i e).mem.scr = c.mem.scr := by
      simp only [Core.hopenWrites, Core.modMem, Core.modSx, hstatus]
      rfl
    rw [scrWord_eq, hscr, if_neg fun hboth => hstatus hboth.1, scrWord_eq]

/-- Nothing but the scratchpad changes in the memories of the core. -/
theorem Core.hopenWrites_kept (c : Core) (x : SxWait) (i : Nat) (e : Handle) :
    (c.hopenWrites x i e).mem.stock = c.mem.stock ∧ (c.hopenWrites x i e).mem.acc = c.mem.acc ∧ (c.hopenWrites x i e).mem.imem = c.mem.imem := by
  simp only [Core.hopenWrites, Core.modMem, Core.modSx]
  split <;> exact ⟨rfl, rfl, rfl⟩

/-- Settles O16: the two stages of the access command, which log 33 gives a HOPEN, change the core alone, and the completion is an end of a wait that
writes its register first. -/
theorem handleOpens : Obligations.HandleOpens := by
  unfold Obligations.HandleOpens
  intro s k x h hkind
  have hcore := State.advance_core h.calm x.due k
  have hissued := OnlyCore.issued_all (k := k) h.calm h.due
  refine ⟨fun hstage _ hp => ?read, fun e i hstage hok he hi hfree hwf => ?write, fun hstage hrd => ?done⟩
  case read => exact ⟨_, h.readsDescriptor hkind hstage hp, hissued _⟩
  case write =>
    subst he hi
    obtain ⟨hnow, honly, hopened⟩ := hissued fun c => c.hopenWrites x (parseDesc x.words).index (s.newEntry k x.words)
    refine ⟨_, h.acceptsDescriptor hkind hstage hok hfree, hnow, honly, ?_⟩
    rw [hopened]
    obtain ⟨hstock, hacc, himem⟩ := Core.hopenWrites_kept (s.core k) x (parseDesc x.words).index (s.newEntry k x.words)
    exact ⟨(Core.hopenWrites_handle ..).trans (if_pos rfl), fun j hj => (Core.hopenWrites_handle ..).trans (if_neg hj),
      Core.hopenWrites_scrWord hwf _ _ _, hstock, hacc, himem, rfl, rfl⟩
  case done =>
    have hends := hopen_ends (t := s.advance x.due) (F := fun c => c) (v := x.result) rfl h.ends (by rw [hcore]; exact h.room) (by rwa [hcore])
    rw [hcore, h.advance_now] at hends
    obtain ⟨hnow, honly, hchan, hg, hmem, hwait, hsxs⟩ := hends _ rfl
    exact ⟨_, h.delivers hkind hstage, hnow, (OnlyCore.advance k h.calm x.due).trans honly, hg, hmem, hchan, hwait, hsxs⟩

end Sys2Proof.Machine

/-! SUPPORT. What no command changes, and what every command keeps: one lemma per function of the model that gives a next state. -/

namespace Sys2Proof.Machine

/-! ## What is kept (R217, R414, log 1) -/

/-- The ring of the fault log holds at most 4,096 entries (R414). -/
def FaultLog.fits (f : FaultLog) : Prop := (f.head - f.tail).toNat ≤ 4096

/-- State s is sound, and its queue, grade and stepping are those of q. -/
def State.Keeps (s q : State) : Prop :=
  s.pending = q.pending ∧ s.grade = q.grade ∧ s.stepB = q.stepB ∧ bit s.lcSupported s.lc = true ∧ s.faults.fits

/-- The next state that a command answers, where it answers one, keeps what q fixes. -/
def OutKeeps (q : State) : Host.Outcome State Fault Refusal → Prop
  | .next t => t.Keeps q
  | _ => True

theorem State.sound_iff {s : State} : s.sound = true ↔ bit s.lcSupported s.lc = true ∧ s.faults.fits := by
  rw [State.sound, Bool.and_eq_true, decide_eq_true_iff, FaultLog.fits]

theorem State.Keeps.self {s : State} (h : s.sound = true) : s.Keeps s :=
  ⟨rfl, rfl, rfl, State.sound_iff.mp h⟩

/-! ## The fault log (R414, R432) -/

theorem FaultLog.fits_empty : FaultLog.fits {} := by
  unfold FaultLog.fits
  decide

/-- A full ring takes no entry; one that is not full takes one. -/
theorem FaultLog.fits.add {f : FaultLog} (hf : f.fits) (e : FaultEntry) : (f.add e).fits := by
  unfold FaultLog.add
  dsimp only
  split
  · exact hf
  · next hroom =>
    unfold FaultLog.fits at *
    dsimp only at *
    bv_omega

theorem FaultLog.fits_clear {f : FaultLog} : f.clear.fits := by
  simp [FaultLog.clear, FaultLog.fits]

theorem FaultLog.fits.consume {f : FaultLog} (hf : f.fits) (v : Word32) : (f.consume v).fits := by
  unfold FaultLog.consume
  split
  · next hforward => exact hforward.trans hf
  · exact hf

theorem FaultLog.fits.latch {f : FaultLog} (hf : f.fits) (o : Nat) : (f.latch o).fits := by
  unfold FaultLog.latch
  split <;> exact hf

section
variable {q s t : State}

/-! ## How a next state is built

The proofs below follow the definitions: `.ite` a conditional, `.foldl` a fold, `.other` an update of fields that nothing here speaks of,
`.of_fst` the state of a pair that a match has taken apart; `₂` and `₃` are for the last part of a pair and of a triple. -/

theorem State.Keeps.ite {c : Prop} {_ : Decidable c} (hs : s.Keeps q) (ht : t.Keeps q) : (if c then s else t).Keeps q := by
  split <;> assumption

theorem State.Keeps.ite₂ {α : Type} {c : Prop} {_ : Decidable c} {x y : α × State} (hx : x.2.Keeps q) (hy : y.2.Keeps q) :
    (if c then x else y).2.Keeps q := by
  split <;> assumption

theorem State.Keeps.ite₃ {α β : Type} {c : Prop} {_ : Decidable c} {x y : α × β × State} (hx : x.2.2.Keeps q) (hy : y.2.2.Keeps q) :
    (if c then x else y).2.2.Keeps q := by
  split <;> assumption

theorem State.Keeps.foldl {α : Type} {f : State → α → State} {l : List α} (hs : s.Keeps q)
    (hf : ∀ {s a}, s.Keeps q → (f s a).Keeps q) : (l.foldl f s).Keeps q := by
  induction l generalizing s with
  | nil => exact hs
  | cons a r ih => exact ih (hf hs)

theorem State.Keeps.of_fst {α : Type} {r : α × State} {a : α} (hr : r.2.Keeps q) (e : r = (a, t)) : t.Keeps q := by
  rw [e] at hr
  exact hr

theorem State.Keeps.of_fst₂ {α β : Type} {r : α × β × State} {a : α} {b : β} (hr : r.2.2.Keeps q) (e : r = (a, b, t)) : t.Keeps q := by
  rw [e] at hr
  exact hr

theorem State.Keeps.other {now : Nat} {overs : List Nat} {tickBase freeCtr : Nat} {strict : Bool} {cores : List (Nat × Core)}
    {bar : Barrier} {mesh : Mesh} {route : Route} {ports : List Port} {power : Power} {moduleId : Word64} {fin : Finfin}
    {jrnl : Journal} {twin : Twin} {host : HostIf} {clk : Clocks} {tel : Telemetry} {sec : Security} {board : Board} (h : s.Keeps q) :
    State.Keeps { s with now, overs, tickBase, freeCtr, strict, cores, bar, mesh, route, ports, power, moduleId, fin, jrnl, twin, host
                         clk, tel, sec, board } q := h

theorem State.Keeps.fits (h : s.Keeps q) : s.faults.fits := by
  obtain ⟨-, -, -, -, hf⟩ := h
  exact hf

theorem State.Keeps.withFaults {f : FaultLog} (h : s.Keeps q) (hf : f.fits) : State.Keeps { s with faults := f } q := by
  obtain ⟨hp, hg, hb, hc, -⟩ := h
  exact ⟨hp, hg, hb, hc, hf⟩

theorem State.Keeps.withContract {n : Nat} (h : s.Keeps q) (hn : bit s.lcSupported n = true) : State.Keeps { s with lc := n } q := by
  obtain ⟨hp, hg, hb, -, hf⟩ := h
  exact ⟨hp, hg, hb, hn, hf⟩

/-- The contract native to the stepping is one that the part supports (R217). -/
theorem State.Keeps.native (h : s.Keeps q) : State.Keeps { s with lc := if s.stepB then 1 else 0 } q := by
  refine h.withContract ?_
  unfold State.lcSupported
  cases s.stepB <;> decide

theorem State.Keeps.modFaults {f : FaultLog → FaultLog} (h : s.Keeps q) (hf : (f s.faults).fits) : (s.modFaults f).Keeps q :=
  h.withFaults hf

theorem State.Keeps.notify {type : Nat} {body : List Byte} (h : s.Keeps q) : (s.notify type body).Keeps q := by
  rw [State.notify_eq]
  exact h.other

theorem State.Keeps.event {kind : Nat} {rest : List Byte} (h : s.Keeps q) : (s.event kind rest).Keeps q := h.notify

theorem State.Keeps.recordAs {kind : FailKind} {code source loc eng aux detail : Nat} (h : s.Keeps q) :
    (s.recordAs kind code source loc eng aux detail).Keeps q := by
  have hlogged (e : FaultEntry) (b : Barrier) : State.Keeps { s with faults := s.faults.add e, bar := b } q :=
    (h.withFaults (h.fits.add e)).other
  unfold State.recordAs
  exact .ite (hlogged _ _).event (hlogged _ _)

/-! ## Cores, free values, faults, time, memory reads -/

theorem State.Keeps.setCore {k : Nat} {c : Core} (h : s.Keeps q) : (s.setCore k c).Keeps q := h.other

theorem State.Keeps.modCore {k : Nat} {f : Core → Core} (h : s.Keeps q) : (s.modCore k f).Keeps q := h.setCore

theorem State.Keeps.fresh (h : s.Keeps q) : s.fresh.2.Keeps q := h.other

theorem State.Keeps.spoil {w : PWord 32} (h : s.Keeps q) : (s.spoil w).2.Keeps q := .ite₂ h.fresh h

theorem State.Keeps.spoilAll {l : List (PWord 32)} (h : s.Keeps q) : (s.spoilAll l).2.Keeps q := by
  induction l generalizing s with
  | nil => exact h
  | cons a l ih => exact ih h.spoil

theorem State.Keeps.noteOn {n : Nat} (h : s.Keeps q) : (s.noteOn n).Keeps q := h.other

theorem State.Keeps.record {code source loc eng aux detail : Nat} (h : s.Keeps q) : (s.record code source loc eng aux detail).Keeps q := h.recordAs

theorem State.Keeps.faultAt {k : Nat} {e : Engine} {index code detail : Nat} (h : s.Keeps q) : (s.faultAt k e index code detail).Keeps q := h.record

theorem State.Keeps.faultCore {k eng code detail : Nat} (h : s.Keeps q) : (s.faultCore k eng code detail).Keeps q := h.record

theorem State.Keeps.capCounter {k n : Nat} (h : s.Keeps q) : (State.capCounter k s n).Keeps q := .ite h.modCore.faultCore h

theorem State.Keeps.endCycle (h : s.Keeps q) : s.endCycle.Keeps q := h.other.foldl fun h' => h'.foldl fun h'' => h''.capCounter

theorem State.Keeps.advance {t : Nat} (h : s.Keeps q) : (s.advance t).Keeps q := .ite h.endCycle.other h

theorem State.Keeps.advanceTick {t : Nat} (h : s.Keeps q) : (s.advanceTick t).Keeps q := h.advance

theorem State.Keeps.readWord {k eng w : Nat} (h : s.Keeps q) : (s.readWord k eng w).2.Keeps q := by
  unfold State.readWord
  extract_lets _ s₁
  have hs₁ : s₁.Keeps q := h.modCore
  split
  · exact h
  · exact h.modCore
  · exact hs₁.fresh.faultCore

theorem State.Keeps.readWords {k eng w n : Nat} (h : s.Keeps q) : (s.readWords k eng w n).2.Keeps q := by
  induction n generalizing s w with
  | zero => exact h
  | succ n ih => exact ih h.readWord

theorem State.Keeps.damageShards {k line i n : Nat} {l : List Shard} (h : s.Keeps q) : (s.damageShards k line i n l).Keeps q := by
  induction l generalizing s n with
  | nil => exact h
  | cons a l ih => exact ih (.ite h <| .ite h.other <| .ite h.other.record h)

theorem State.Keeps.noteDamage {k line : Nat} (h : s.Keeps q) : (s.noteDamage k line).Keeps q := h.foldl fun h' => h'.damageShards

theorem State.Keeps.stockBad {k eng w code : Nat} (h : s.Keeps q) : (s.stockBad k eng w code).Keeps q := h.modCore.faultCore.noteDamage

theorem State.Keeps.readStockWord {k eng w : Nat} (h : s.Keeps q) : (s.readStockWord k eng w).2.2.Keeps q := by
  unfold State.readStockWord
  extract_lets _ s₁
  have hs₁ : s₁.Keeps q := h.stockBad
  split
  · exact h
  · exact h.modCore
  · exact hs₁.fresh

theorem State.Keeps.readStockWords {k eng w n : Nat} (h : s.Keeps q) : (s.readStockWords k eng w n).2.2.Keeps q := by
  induction n generalizing s w with
  | zero => exact h
  | succ n ih => exact ih h.readStockWord

/-! ## Lines read -/

theorem State.Keeps.readLine {k eng line : Nat} (h : s.Keeps q) : (s.readLine k eng line).2.Keeps q := .ite₂ h h.readWords

theorem State.Keeps.readStockLine {k eng line : Nat} (h : s.Keeps q) : (s.readStockLine k eng line).2.2.Keeps q := by
  unfold State.readStockLine
  split
  · exact h
  · dsimp only
    exact h.readStockWords

theorem State.Keeps.readLines {k eng line n : Nat} (h : s.Keeps q) : (s.readLines k eng line n).2.Keeps q := by
  induction n generalizing s line with
  | zero => exact h
  | succ n ih => exact ih h.readLine

/-! ## Packets injected -/

theorem State.Keeps.noteInj {p : Packet} (h : s.Keeps q) : (s.noteInj p).Keeps q := .ite h.other h

theorem State.Keeps.noteSink {p : Packet} (h : s.Keeps q) : (s.noteSink p).Keeps q := .ite h.other h

theorem State.Keeps.injectAs {t : Transit} (h : s.Keeps q) : (s.injectAs t).Keeps q := h.other.noteInj

theorem State.Keeps.inject {src : Place} {p : Packet} (h : s.Keeps q) : (s.inject src p).Keeps q := h.injectAs

theorem State.Keeps.modPort {p : Nat} {f : Port → Port} (h : s.Keeps q) : (s.modPort p f).Keeps q := h.other

/-! ## The mesh -/

theorem State.Keeps.modMesh {f : Mesh → Mesh} (h : s.Keeps q) : (s.modMesh f).Keeps q := h.other

theorem State.Keeps.dropItem {i : Nat} (h : s.Keeps q) : (s.dropItem i).Keeps q := h.modMesh

theorem State.Keeps.setItem {i : Nat} {t : Transit} (h : s.Keeps q) : (s.setItem i t).Keeps q := h.modMesh

theorem State.Keeps.reviewXoff {p v : Nat} (h : s.Keeps q) : (s.reviewXoff p v).Keeps q := .ite (.ite h h.modPort) h

theorem State.Keeps.freeRx {p v n : Nat} (h : s.Keeps q) : (s.freeRx p v n).Keeps q := h.modPort.reviewXoff

theorem State.Keeps.leave {t : Transit} (h : s.Keeps q) : (s.leave t).Keeps q := by
  unfold State.leave
  split
  · exact .ite h h.freeRx
  · exact h

theorem State.Keeps.endItem {i : Nat} {t : Transit} (h : s.Keeps q) : (s.endItem i t).Keeps q := h.dropItem.leave.noteSink

theorem State.Keeps.routeDiscard {i : Nat} {t : Transit} {code : Nat} (h : s.Keeps q) : (s.routeDiscard i t code).Keeps q :=
  (State.Keeps.ite h.other h.other.record).endItem

theorem State.Keeps.noteDiscard {p : Nat} (h : s.Keeps q) : (s.noteDiscard p).Keeps q := h.modPort

theorem State.Keeps.checkWords {stop : Nat} {p : Packet} {l : List (Nat × Nat × Flaw)} (h : s.Keeps q) : (s.checkWords stop p l).2.Keeps q := by
  induction l generalizing s p with
  | nil => exact h
  | cons x l ih =>
    obtain ⟨_, _, _ | _⟩ := x
    · exact ih h.modMesh
    · exact ih h.modMesh.record.fresh

theorem State.Keeps.meetStop {t : Transit} {stop : Nat} (h : s.Keeps q) : (s.meetStop t stop).2.Keeps q := .ite₂ h.modMesh.record h.checkWords

theorem State.Keeps.walk {t : Transit} {l : List Nat} (h : s.Keeps q) : (s.walk t l).2.Keeps q := by
  induction l generalizing s t with
  | nil => exact h
  | cons a l ih =>
    unfold State.walk
    split
    next e => exact h.meetStop.of_fst e
    next e => exact ih (h.meetStop.of_fst e)

theorem State.Keeps.countFlits {k cls n : Nat} (h : s.Keeps q) : (s.countFlits k cls n).Keeps q := h.modCore

theorem State.Keeps.noteEnter {t : Transit} (h : s.Keeps q) : (s.noteEnter t).Keeps q := by
  unfold State.noteEnter
  split
  · exact .ite h h.countFlits
  · exact h

theorem State.Keeps.enter {i : Nat} {t : Transit} {exit : Place} (h : s.Keeps q) : (s.enter i t exit).2.Keeps q := by
  unfold State.enter
  extract_lets s₁
  have hs₁ : s₁.Keeps q := (State.Keeps.ite h.advanceTick h).noteEnter
  split
  next e => exact (hs₁.walk.of_fst e).endItem
  next e => exact (hs₁.walk.of_fst e).modMesh

theorem State.Keeps.routeItem {i : Nat} {t : Transit} (h : s.Keeps q) : (s.routeItem i t).Keeps q := by
  unfold State.routeItem
  refine .ite h.record.endItem ?_
  split
  · exact h.routeDiscard
  · exact h.setItem
  · refine .ite h ?_
    split
    next e => exact h.enter.of_fst e
    next e => exact (h.enter.of_fst e).setItem.leave

theorem execPacketRoute_keeps {i : Nat} (h : s.Keeps q) : OutKeeps q (execPacketRoute i s) := by
  unfold execPacketRoute
  split
  · exact h
  · refine .ite h ?_
    split
    next e => exact (h.meetStop.of_fst e).endItem
    next e => exact (h.meetStop.of_fst e).routeItem

theorem State.Keeps.noteTurn {pool : Nat × Nat} {e : Place} (h : s.Keeps q) : (s.noteTurn pool e).Keeps q := h.modMesh

theorem State.Keeps.cross {i : Nat} {t : Transit} {m : Nat} (h : s.Keeps q) : (s.cross i t m).Keeps q := by
  unfold State.cross
  split
  next e => exact h.enter.of_fst e
  next e => exact .ite (h.enter.of_fst e).noteDiscard.endItem (h.enter.of_fst e).dropItem.leave.modPort

theorem State.Keeps.reserve {i : Nat} {t : Transit} {l : Nat} {asks : Nat × Nat → List Place} (h : s.Keeps q) : (s.reserve i t l asks).Keeps q :=
  .ite h.record.endItem <| .ite h.routeDiscard <| .ite h <| .ite h.cross <| .ite h h.noteTurn.cross

/-! ## Reads that are due -/

theorem State.Keeps.modRuns {k : Nat} {f : List VrunOp → List VrunOp} (h : s.Keeps q) : (s.modRuns k f).Keeps q := h.modCore

theorem State.Keeps.fetchLine {k eng : Nat} {line : Int} (h : s.Keeps q) : (s.fetchLine k eng line).2.Keeps q := .ite₂ h.spoilAll h.readLine

theorem State.Keeps.takeSlot {k : Nat} {e : Engine} {index t : Nat} {r : BinRef} {b : Option BinSlot} {quiet : Bool} (h : s.Keeps q) :
    (s.takeSlot k e index t r b quiet).2.Keeps q := by
  unfold State.takeSlot
  extract_lets
  split
  · exact h
  · exact .ite h.faultAt h

theorem State.Keeps.fetchMma {k : Nat} {o : MmaOp} {f : LineRead} (h : s.Keeps q) : (s.fetchMma k o f).Keeps q := by
  unfold State.fetchMma
  extract_lets sl _ _ s₁ r
  have hsl : sl.2.Keeps q := by
    unfold sl
    split
    · exact h.takeSlot
    · exact h
  have hs₁ : s₁.Keeps q := hsl.modCore
  have hr : r.2.Keeps q := hs₁.fetchLine
  exact hr.modCore

theorem State.Keeps.fetchVx {k issue : Nat} {f : LineRead} {line : Int} {slot : State → State} {put : List (PWord 32) → Vx → Vx} (h : s.Keeps q)
    (hslot : ∀ {s : State}, s.Keeps q → (slot s).Keeps q) :
    (s.fetchVx k issue f line slot put).Keeps q := .ite h.modCore (hslot h).modCore.fetchLine.modCore

theorem State.Keeps.fetchRun {k : Nat} {o : VrunOp} {f : LineRead} (h : s.Keeps q) : (s.fetchRun k o f).Keeps q := by
  unfold State.fetchRun
  refine .fetchVx h (fun h' => ?_)
  split
  · exact h'.takeSlot.modRuns
  · exact h'

theorem State.Keeps.fetchNx {k : Nat} {o : NxOp} {f : LineRead} (h : s.Keeps q) : (s.fetchNx k o f).Keeps q := by
  unfold State.fetchNx
  extract_lets _ _ x s₁ r
  have hx : x.2.Keeps q := by
    unfold x
    split
    · exact h.takeSlot
    · exact h
  have hs₁ : s₁.Keeps q := hx.modCore
  have hr : r.2.Keeps q := hs₁.fetchLine
  exact .ite h.modCore <| .ite h.modCore hr.modCore

theorem State.Keeps.fetchOne {k : Nat} {f : LineRead} {x : Reader} (h : s.Keeps q) : (s.fetchOne k f x).Keeps q := by
  unfold State.fetchOne
  split
  · exact h.fetchMma
  · exact h.fetchVx fun h' => h'
  · exact h.fetchRun
  · exact h.fetchNx

theorem State.Keeps.fetchTo {k lim nlim n : Nat} (h : s.Keeps q) : (s.fetchTo k lim nlim n).Keeps q := by
  induction n generalizing s with
  | zero => exact h
  | succ n ih =>
    unfold State.fetchTo
    split
    · exact .ite (ih h.fetchOne) h
    · exact h

theorem State.Keeps.fetchUpTo {k lim nlim : Nat} (h : s.Keeps q) : (s.fetchUpTo k lim nlim).Keeps q := h.fetchTo

theorem State.Keeps.fetchBefore {k lim : Nat} (h : s.Keeps q) : (s.fetchBefore k lim).Keeps q := h.fetchUpTo

theorem State.Keeps.fetchDue {k : Nat} (h : s.Keeps q) : (s.fetchDue k).Keeps q := h.fetchBefore

theorem State.Keeps.toCycle {k : Nat} {at' : State → Nat} {n : Nat} (h : s.Keeps q) : (s.toCycle k at' n).Keeps q := by
  induction n generalizing s with
  | zero => exact h
  | succ n ih => exact .ite h.advance.fetchBefore <| ih h.advance.fetchBefore

theorem State.Keeps.takeBanksIn {k port : Nat} {banks : State → List Nat} {n : Nat} (h : s.Keeps q) : (s.takeBanksIn k port banks n).2.Keeps q := by
  induction n generalizing s with
  | zero => exact h
  | succ n ih => exact .ite₂ (ih h.fetchUpTo.advance) <| .ite₂ (ih h.fetchUpTo.advance) h.fetchUpTo.modCore

theorem State.Keeps.takeBanks {k : Nat} {e : Engine} {write : Bool} {due : Nat} {banks : State → List Nat} (h : s.Keeps q) :
    (s.takeBanks k e write due banks).2.Keeps q := .ite h.takeBanksIn h.takeBanksIn.modCore

theorem State.Keeps.binDone {k : Nat} {r : Option BinRef} {slot : Option BinSlot} {write : Bool} (h : s.Keeps q) :
    (s.binDone k r slot write).Keeps q := by
  unfold State.binDone
  extract_lets s₁
  have hs₁ : s₁.Keeps q := h.fetchDue
  split
  · exact .ite hs₁.modCore h
  · exact h

/-! ## Line writes -/

theorem State.Keeps.addSum {k : Nat} {stock : Bool} {addr : Nat} {data : List Byte} {mask : List Bool} (h : s.Keeps q) :
    (s.addSum k stock addr data mask).Keeps q := .ite h.modCore h

theorem State.Keeps.appendPoison {k eng : Nat} {stock : Bool} {line : Nat} {poisoned : Bool} (h : s.Keeps q) :
    (s.appendPoison k eng stock line poisoned).Keeps q := by
  unfold State.appendPoison
  refine .ite ?_ h
  split
  · exact .ite h.modCore.faultCore h
  · exact h

theorem State.Keeps.storeWords {k w : Nat} {ws : List (PWord 32)} (h : s.Keeps q) : (s.storeWords k w ws).Keeps q := h.fetchDue.spoilAll.modCore

theorem State.Keeps.putWords {k eng w : Nat} {ws : List (PWord 32)} (h : s.Keeps q) : (s.putWords k eng w ws).Keeps q :=
  h.fetchDue.spoilAll.modCore.addSum.appendPoison

theorem State.Keeps.putStockLine {k eng line : Nat} {ws : List (PWord 32)} (h : s.Keeps q) : (s.putStockLine k eng line ws).Keeps q :=
  h.spoilAll.modCore.addSum.appendPoison

theorem State.Keeps.poisonWords {k w n : Nat} (h : s.Keeps q) : (s.poisonWords k w n).Keeps q := .ite h.storeWords h

theorem State.Keeps.storeStockLine {k line : Nat} {ws : List (PWord 32)} (h : s.Keeps q) : (s.storeStockLine k line ws).Keeps q := h.spoilAll.modCore

theorem State.Keeps.poisonLines {k : Nat} {stock : Bool} {line n : Nat} (h : s.Keeps q) : (s.poisonLines k stock line n).Keeps q := by
  induction n generalizing s line with
  | zero => exact h
  | succ n ih => exact ih (.ite (.ite h.storeStockLine h.storeWords) h)

/-! ## Streams and their issue -/

theorem State.Keeps.countFetch {k : Nat} {e : Engine} {i : Nat} (h : s.Keeps q) : (s.countFetch k e i).Keeps q := .ite h h.modCore

theorem State.Keeps.signal {k n inc : Nat} (h : s.Keeps q) : (s.signal k n inc).Keeps q := .ite h.modCore.other h.modCore

theorem State.Keeps.signalOpt {k : Nat} {x : Option (Nat × Nat)} (h : s.Keeps q) : (s.signalOpt k x).Keeps q := by
  unfold State.signalOpt
  split
  · exact h
  · exact h.signal

theorem State.Keeps.abandon {k : Nat} {e : Engine} (h : s.Keeps q) : (s.abandon k e).Keeps q := h.modCore

theorem State.Keeps.modStream {k : Nat} {e : Engine} {f : Stream → Stream} (h : s.Keeps q) : (s.modStream k e f).Keeps q := h.modCore

theorem State.Keeps.setReady {k : Nat} {e : Engine} {r : Nat} (h : s.Keeps q) : (s.setReady k e r).Keeps q := h.modStream

theorem State.Keeps.endCodes {k : Nat} {e : Engine} {i : Nat} {l : List Nat} (h : s.Keeps q) : (s.endCodes k e i l).Keeps q := by
  induction l generalizing s with
  | nil => exact h
  | cons a l ih => exact (ih h.faultAt).abandon

theorem State.Keeps.complete {k : Nat} {e : Engine} {o : Owed} (h : s.Keeps q) : (s.complete k e o).Keeps q := h.signalOpt.signalOpt.endCodes

theorem State.Keeps.passIndex {k : Nat} {e : Engine} {isSend : Bool} (h : s.Keeps q) : (s.passIndex k e isSend).2.Keeps q := h.modStream

theorem State.Keeps.tryIssue {k : Nat} {e : Engine} {r delay : Nat} {waits : List (Nat × Nat)} (h : s.Keeps q)
    (ht : s.tryIssue k e r delay waits = some t) :
    t.Keeps q := by
  unfold State.tryIssue at ht
  extract_lets at ht
  split at ht
  · cases ht
    exact h.advance.modCore
  · cases ht

theorem State.Keeps.waiting {k : Nat} {e : Engine} {r delay : Nat} (h : s.Keeps q) : (s.waiting k e r delay).Keeps q := .ite h.modStream h

theorem State.Keeps.noteSkip {k : Nat} {e : Engine} {o : Owed} {code detail : Nat} (h : s.Keeps q) : (s.noteSkip k e o code detail).2.Keeps q :=
  h.faultAt.modStream

theorem State.Keeps.issueOp {k : Nat} {e : Engine} {r : Nat} {want : Nat → Bool → Bool}
    {body : Nat → Owed → Bool → State → State} (h : s.Keeps q)
    (hbody : ∀ {w : Nat} {o : Owed} {skipped : Bool} {s : State}, s.Keeps q → (body w o skipped s).Keeps q) :
    (s.issueOp k e r want body).Keeps q := by
  unfold State.issueOp
  refine .ite ?_ h
  split
  · exact h.waiting
  · next issued =>
    extract_lets _ p _ s₂
    have hp : p.2.Keeps q := (h.tryIssue issued).countFetch.passIndex
    have hs₂ : s₂.Keeps q := .ite hp.signalOpt hp
    refine .ite (hbody hs₂.noteSkip) ?_
    split
    · exact hbody hs₂.noteSkip
    · exact hbody hs₂

theorem State.Keeps.issueSx {k : Nat} {want : Nat → Bool → Bool} {reads : Nat → List Nat} {waits : Nat → List (Nat × Nat)}
    {body : Nat → Owed → Bool → State → State} (h : s.Keeps q)
    (hbody : ∀ {w : Nat} {o : Owed} {skipped : Bool} {s : State}, s.Keeps q → (body w o skipped s).Keeps q) :
    (s.issueSx k want reads waits body).Keeps q := by
  unfold State.issueSx
  refine .ite ?_ h
  split
  · exact h.waiting
  · next issued =>
    extract_lets s₁
    have hs₁ : s₁.Keeps q := (h.tryIssue issued).countFetch
    refine .ite (hbody hs₁.noteSkip) ?_
    split
    · exact hbody hs₁.noteSkip
    · exact hbody hs₁

theorem State.Keeps.sxDone {k : Nat} {o : Owed} (h : s.Keeps q) : (s.sxDone k o).Keeps q := h.setReady.passIndex.complete

theorem execSloop_keeps {k : Nat} {e : Engine} (h : s.Keeps q) : OutKeeps q (execSloop k e s) := by
  unfold execSloop
  extract_lets
  exact .ite h <| h.issueOp fun h' => .ite h'.setReady.complete <| .ite h'.setReady.noteSkip.complete h'.setReady.modStream.complete

theorem execSendComplete_keeps {k : Nat} {e : Engine} (h : s.Keeps q) : OutKeeps q (execSendComplete k e s) := by
  unfold execSendComplete
  extract_lets
  split
  · exact h
  · exact .ite h.advance.modStream.complete h

/-! ## Channels and windows -/

theorem State.Keeps.modHandle {k i : Nat} {f : Handle → Handle} (h : s.Keeps q) : (s.modHandle k i f).Keeps q := h.modCore

theorem State.Keeps.writeStatus {k i : Nat} (h : s.Keeps q) : (s.writeStatus k i).Keeps q := h.storeWords

theorem State.Keeps.postStatus {k i : Nat} {msg : Option Nat} {flags : Nat} (h : s.Keeps q) : (s.postStatus k i msg flags).Keeps q :=
  .ite h h.modCore.writeStatus

theorem State.Keeps.openEntry {k index a : Nat} {ws : List (PWord 32)} (h : s.Keeps q) : (s.openEntry k index a ws).2.Keeps q := by
  unfold State.openEntry
  extract_lets _ _ s₁
  have hs₁ : s₁.Keeps q := h.modCore
  split
  · exact h.faultAt
  · exact .ite hs₁.storeWords hs₁

theorem State.Keeps.closeHandle {k v : Nat} {now : Bool} (h : s.Keeps q) : (s.closeHandle k v now).2.Keeps q := by
  unfold State.closeHandle
  extract_lets
  split
  · exact h
  · exact .ite₂ h.modCore <| .ite₂ h.modCore <| .ite₂ h.modHandle <| .ite₂ h.modHandle <| .ite₂ h.modHandle h.modHandle

theorem State.Keeps.sendFrom {k : Nat} {p : Packet} (h : s.Keeps q) : (s.sendFrom k p).Keeps q := h.inject

theorem execYieldSend_keeps {k hd : Nat} (h : s.Keeps q) : OutKeeps q (execYieldSend k hd s) := by
  unfold execYieldSend
  split
  · exact h
  · exact h.modCore.sendFrom

theorem State.Keeps.release {k i : Nat} {hd : Handle} {a : Nat} {v : PWord 32} (h : s.Keeps q) : (s.release k i hd a v).2.Keeps q := by
  unfold State.release
  split
  · exact h
  · split
    · exact h
    · exact .ite₂ h <| .ite₂ h h.modHandle.putWords.sendFrom

theorem State.Keeps.checkStanding {k : Nat} {l : List (Nat × Handle)} (h : s.Keeps q) : (s.checkStanding k l).Keeps q := by
  induction l generalizing s with
  | nil => exact h
  | cons a l ih => exact .ite (ih h.modHandle.faultCore) <| ih h

theorem State.Keeps.blankHandles {k : Nat} (h : s.Keeps q) : (s.blankHandles k).Keeps q := h.modCore.checkStanding

/-! ## NX -/

theorem State.Keeps.finishNx {k : Nat} {o : NxOp} (h : s.Keeps q) : (s.finishNx k o).Keeps q :=
  (State.Keeps.ite h.modCore.setReady h.modCore).binDone.complete

theorem State.Keeps.putNx {k : Nat} {o : NxOp} (h : s.Keeps q) : (s.putNx k o).Keeps q := h.modCore

theorem State.Keeps.acceptNx {k : Nat} {o : NxOp} {p : Packet} (h : s.Keeps q) : (s.acceptNx k o p).Keeps q := by
  unfold State.acceptNx
  extract_lets _ s₁
  have hs₁ : s₁.Keeps q := by
    unfold s₁
    split
    · exact h.noteTurn
    · exact h
  exact hs₁.countFlits.injectAs

theorem State.Keeps.beginReads {k : Nat} {o : NxOp} (h : s.Keeps q) : (s.beginReads k o).Keeps q := .ite h.putNx.setReady h.putNx

theorem State.Keeps.startReads {k : Nat} (h : s.Keeps q) : (s.startReads k).Keeps q := by
  unfold State.startReads
  split
  · exact h.beginReads
  · exact h

theorem State.Keeps.numberNx {k : Nat} {o : NxOp} (h : s.Keeps q) : (s.numberNx k o).2.Keeps q := by
  unfold State.numberNx
  split
  · exact h
  · exact .ite₂ h h.modHandle

theorem State.Keeps.issueNx {k : Nat} {o : NxOp} {skipped : Bool} {incons : Option Nat} (h : s.Keeps q) : (s.issueNx k o skipped incons).Keeps q := by
  unfold State.issueNx
  extract_lets x _ _ _ code s₂ _ _ _ m _ _ s₃ _ s₄
  have hx : x.2.Keeps q := by
    unfold x
    split
    · exact h.noteSkip
    · exact h
  have hs₂ : s₂.Keeps q := by
    unfold s₂
    clear_value code
    split
    · exact hx.faultAt
    · exact hx
  have hm : m.2.Keeps q := .ite₂ hs₂ hs₂.numberNx
  have hs₃ : s₃.Keeps q := hm.modCore
  have hs₄ : s₄.Keeps q := .ite hs₃.putNx hs₃
  exact .ite hs₄.startReads hs₄.setReady

theorem State.Keeps.settleCredit {k : Nat} (h : s.Keeps q) : (s.settleCredit k).Keeps q := h.modCore.modCore

theorem State.Keeps.acceptPacket {k : Nat} {o : NxOp} {hd : Handle} (h : s.Keeps q) : (s.acceptPacket k o hd).Keeps q := by
  unfold State.acceptPacket
  extract_lets s₁ s₂ s₃ _ s₄ s₅
  have hs₁ : s₁.Keeps q := h.advance
  have hs₂ : s₂.Keeps q := hs₁.toCycle
  have hs₃ : s₃.Keeps q := hs₂.settleCredit
  have hs₄ : s₄.Keeps q := hs₃.acceptNx
  have hs₅ : s₅.Keeps q := hs₄.modCore
  exact .ite hs₅.putNx.modCore <| .ite hs₅.finishNx.startReads hs₅.putNx.startReads

theorem execNxPacketAccept_keeps {k : Nat} (h : s.Keeps q) : OutKeeps q (execNxPacketAccept k s) := by
  unfold execNxPacketAccept
  extract_lets s0
  have hs0 : s0.Keeps q := h.startReads
  split
  · exact h
  · extract_lets s₂
    have hs₂ : s₂.Keeps q := hs0.advance
    refine .ite (State.Keeps.ite hs₂.poisonLines hs₂).finishNx ?_
    split
    · exact hs0
    · exact hs0.acceptPacket

theorem State.Keeps.readStatus {k eng line : Nat} {hd : Handle} (h : s.Keeps q) : (s.readStatus k eng line hd).2.2.Keeps q :=
  .ite₃ h.readWord.readWord h.readWord.readWord

theorem State.Keeps.endNwait {k : Nat} {o : NxOp} (h : s.Keeps q) : (s.endNwait k o).Keeps q := h.modStream.setReady.finishNx

theorem execNwaitComplete_keeps {k : Nat} (h : s.Keeps q) : OutKeeps q (execNwaitComplete k s) := by
  unfold execNwaitComplete
  split
  · exact h
  · extract_lets _ _ s₁ s₂ s₃ _ _ r s₄
    have hs₁ : s₁.Keeps q := h.advance
    have hs₂ : s₂.Keeps q := .ite hs₁.advance hs₁
    have hs₃ : s₃.Keeps q := by
      unfold s₃
      exact hs₂.takeBanks
    have hs₄ : s₄.Keeps q := by
      unfold s₄ r
      exact hs₃.readStatus.putNx
    exact .ite h (.ite hs₁.finishNx (.ite hs₄.endNwait (.ite hs₄.faultAt.endNwait (.ite hs₄ hs₄.modStream.putNx))))

theorem execCreditWatchdog_keeps {k : Nat} (h : s.Keeps q) : OutKeeps q (execCreditWatchdog k s) := by
  unfold execCreditWatchdog
  extract_lets
  split
  · extract_lets s₁ s₂ s₃ s₄ s₅
    have hs₁ : s₁.Keeps q := h.advance.settleCredit
    have hs₂ : s₂.Keeps q := hs₁.faultAt
    have hs₃ : s₃.Keeps q := hs₂.modCore
    have hs₄ : s₄.Keeps q := hs₃.advance
    have hs₅ : s₅.Keeps q := .ite hs₄.setReady hs₄
    exact .ite h hs₅.finishNx
  · exact h

theorem execReservationGrant_keeps {i : Nat} (h : s.Keeps q) : OutKeeps q (execReservationGrant i s) := by
  unfold execReservationGrant
  split
  · exact h
  · split
    · exact .ite h h.reserve
    · exact h

/-! ## Arrivals at a core -/

theorem State.Keeps.countLate {k : Nat} (h : s.Keeps q) : (s.countLate k).Keeps q := h.modCore

theorem State.Keeps.countDrop {k : Nat} (h : s.Keeps q) : (s.countDrop k).Keeps q := h.modCore

theorem State.Keeps.chanFault {k i code : Nat} (h : s.Keeps q) : (s.chanFault k i code).Keeps q := h.faultCore

theorem State.Keeps.dropAt {k : Nat} {c : ChanHdr} {code flag : Nat} {ends : Bool} (h : s.Keeps q) : (s.dropAt k c code flag ends).Keeps q :=
  h.chanFault.countDrop.postStatus

theorem State.Keeps.charged {k : Nat} {c : ChanHdr} {hd : Handle} (h : s.Keeps q) : (s.charged k c hd).Keeps q := h.modHandle

theorem State.Keeps.placeAt {k : Nat} {c : ChanHdr} {hd : Handle} {write : State → State} (h : s.Keeps q)
    (hwrite : ∀ {s : State}, s.Keeps q → (write s).Keeps q) :
    (s.placeAt k c hd write).Keeps q := by
  unfold State.placeAt
  extract_lets _ s₁ _ s₂ s₃
  have hs₁ : s₁.Keeps q := h.charged
  have hs₂ : s₂.Keeps q := hwrite hs₁
  have hs₃ : s₃.Keeps q := hs₂.modCore
  split
  · exact hs₁.faultCore.postStatus
  · exact .ite hs₃.postStatus hs₃

theorem State.Keeps.arrive {k : Nat} {p : Packet} {write : Handle → State → State} (h : s.Keeps q)
    (hwrite : ∀ {x : Handle} {s : State}, s.Keeps q → (write x s).Keeps q) :
    (s.arrive k p write).Keeps q := by
  unfold State.arrive
  split
  · exact h.countLate
  · exact h.dropAt
  · exact h.placeAt fun h' => hwrite h'

theorem State.Keeps.writeLines {k : Nat} {stock : Bool} {line : Nat} {l : List (List (PWord 32))} (h : s.Keeps q) :
    (s.writeLines k stock line l).Keeps q := by
  induction l generalizing s line with
  | nil => exact h
  | cons a l ih => exact ih (.ite h.putStockLine h.putWords)

theorem State.Keeps.combineLines {k line : Nat} {p : Packet} (h : s.Keeps q) : (s.combineLines k line p).Keeps q := h.readLines.modCore.writeLines

theorem State.Keeps.corePut {k : Nat} {p : Packet} (h : s.Keeps q) : (s.corePut k p).Keeps q := h.arrive fun h' => .ite h'.combineLines h'.writeLines

theorem State.Keeps.putStockPart {k w : Nat} {ws : List (PWord 32)} (h : s.Keeps q) : (s.putStockPart k w ws).Keeps q :=
  h.spoilAll.modCore.addSum.appendPoison

theorem State.Keeps.writePart {k : Nat} {stock : Bool} {w : Nat} {ws : List (PWord 32)} (h : s.Keeps q) : (s.writePart k stock w ws).Keeps q :=
  .ite h <| .ite h.putStockPart h.putWords

theorem State.Keeps.coreTup {k : Nat} {p : Packet} (h : s.Keeps q) : (s.coreTup k p).Keeps q := h.arrive fun h' => h'.writePart.writePart

theorem State.Keeps.coreRing {k : Nat} {p : Packet} (h : s.Keeps q) : (s.coreRing k p).Keeps q := by
  unfold State.coreRing
  extract_lets
  exact h.arrive fun h' => .ite (State.Keeps.ite h' h'.putWords).writeLines.modHandle (State.Keeps.ite h' h'.putWords).writeLines

theorem State.Keeps.reply {k : Nat} {p : Packet} {err : Bool} {body : List (PWord 64)} (h : s.Keeps q) : (s.reply k p err body).Keeps q := h.sendFrom

theorem State.Keeps.replyErr {k : Nat} {p : Packet} (h : s.Keeps q) : (s.replyErr k p).Keeps q := h.reply

theorem State.Keeps.readStockRun {k line n : Nat} (h : s.Keeps q) : (s.readStockRun k line n).2.Keeps q := by
  induction n generalizing s line with
  | zero => exact h
  | succ n ih => exact ih h.readStockLine

theorem State.Keeps.coreReq {k : Nat} {p : Packet} (h : s.Keeps q) : (s.coreReq k p).Keeps q := by
  unfold State.coreReq
  extract_lets
  split
  · exact h.countLate.replyErr
  · exact h.dropAt.replyErr
  · extract_lets _ r
    have hr : r.2.Keeps q := .ite₂ h.readStockRun h.readLines
    split
    · exact h.faultCore.countDrop.postStatus.replyErr
    · exact hr.reply.postStatus

theorem State.Keeps.reqStatus {k v : Nat} {msg : Option Nat} {flags : Nat} (h : s.Keeps q) : (s.reqStatus k v msg flags).Keeps q :=
  .ite h.postStatus h

theorem State.Keeps.replySlot {k : Nat} {o : NxOp} (h : s.Keeps q) : (s.replySlot k o).2.Keeps q := by
  unfold State.replySlot
  split
  · exact .ite h.faultAt h
  · exact h

theorem State.Keeps.writeReply {k : Nat} {r : Reply} {p : Packet} {o : Option NxOp} {slot : Option BinSlot} (h : s.Keeps q) :
    (s.writeReply k r p o slot).Keeps q := by
  unfold State.writeReply
  extract_lets
  split
  · exact .ite h h.writeLines
  · split
    · exact h.faultCore.reqStatus
    · exact h.writeLines.modCore

theorem State.Keeps.coreRpl {k : Nat} {p : Packet} (h : s.Keeps q) : (s.coreRpl k p).Keeps q := by
  unfold State.coreRpl
  extract_lets c
  split
  · exact h.chanFault.countDrop.reqStatus
  · extract_lets op x _ s₁ s₂
    clear_value op
    have hx : x.2.Keeps q := by
      unfold x
      split
      · exact h.replySlot
      · exact h
    have hs₁ : s₁.Keeps q := hx.writeReply.modCore
    have hs₂ : s₂.Keeps q := .ite hs₁.reqStatus hs₁
    split
    · exact hs₂
    · exact .ite hs₂.reqStatus.finishNx hs₂.putNx

theorem State.Keeps.coreGrant {k : Nat} {p : Packet} (h : s.Keeps q) : (s.coreGrant k p).Keeps q := by
  unfold State.coreGrant
  extract_lets
  split
  · exact h.countLate
  · exact h.dropAt
  · exact (State.Keeps.ite h.settleCredit.modHandle.chanFault h.settleCredit.modHandle).startReads

theorem State.Keeps.coreYield {k : Nat} {p : Packet} (h : s.Keeps q) : (s.coreYield k p).Keeps q := by
  unfold State.coreYield
  extract_lets
  split
  · exact h.countLate
  · exact h.dropAt
  · exact h.modHandle

theorem State.Keeps.sunk {i : Nat} {t : Transit} (h : s.Keeps q) : (s.sunk i t).Keeps q := h.dropItem.noteSink

theorem State.Keeps.deliverCore {i : Nat} {t : Transit} {k : Nat} {f : State → State} (h : s.Keeps q)
    (hf : ∀ {s : State}, s.Keeps q → (f s).Keeps q) :
    (s.deliverCore i t k f).Keeps q := by
  unfold State.deliverCore
  extract_lets
  split
  · exact h
  · exact h.other.sunk
  · exact h.other.sunk
  · exact .ite h.countLate.sunk <| .ite (hf h.advance.dropItem).noteSink h

theorem State.Keeps.arrival {i : Nat} {want : Nat → Bool} {core : Nat → Packet → State → State} {hub : Packet → State → State} (h : s.Keeps q)
    (hcore : ∀ {x : Nat} {y : Packet} {s : State}, s.Keeps q → (core x y s).Keeps q)
    (hhub : ∀ {x : Packet} {s : State}, s.Keeps q → (hub x s).Keeps q) :
    (s.arrival i want core hub).Keeps q := by
  unfold State.arrival
  split
  · exact h
  · extract_lets s₁
    have hs₁ : s₁.Keeps q := h.advance
    refine .ite h ?_
    split
    · exact hs₁.deliverCore fun h' => hcore h'
    · exact (hhub hs₁.dropItem).noteSink
    · exact hs₁

/-! ## The block of a core -/

theorem State.Keeps.readLatch {k o : Nat} (h : s.Keeps q) : (s.readLatch k o).2.Keeps q :=
  .ite₂ h.modCore <| .ite₂ h.modCore <| .ite₂ h.modCore <| .ite₂ h.modCore h.modCore

theorem State.Keeps.readAperture {k : Nat} {stock : Bool} {w : Nat} (h : s.Keeps q) : (s.readAperture k stock w).2.Keeps q :=
  .ite₂ h <| .ite₂ h.readStockWord h.readWord

theorem State.Keeps.writeAperture {k : Nat} {stock : Bool} {w : Nat} {v : Word32} (h : s.Keeps q) : (s.writeAperture k stock w v).2.Keeps q :=
  .ite₂ h.faultCore <| .ite₂ h.readStockWord.modCore h.modCore

theorem State.Keeps.coreRead {k o : Nat} (h : s.Keeps q) : (s.coreRead k o).2.Keeps q := by
  unfold State.coreRead
  extract_lets r
  have hr : r.2.Keeps q := h.readLatch
  refine .ite₂ (.ite₂ hr h) <| .ite₂ ?_ ?_
  · split
    · exact h
    · exact h
  · split
    · exact h
    · exact h.readAperture

theorem State.Keeps.refuse {k code detail : Nat} (h : s.Keeps q) : (s.refuse k code detail).2.Keeps q := h.faultCore

theorem State.Keeps.did (h : s.Keeps q) : s.did.2.Keeps q := h

theorem State.Keeps.modRegsAt {k : Nat} {f : MemRegs → MemRegs} (h : s.Keeps q) : (s.modRegsAt k f).2.Keeps q := h.modCore

theorem State.Keeps.modCtlAt {k : Nat} {f : CoreRegs → CoreRegs} (h : s.Keeps q) : (s.modCtlAt k f).2.Keeps q := h.modCore

theorem State.Keeps.writeBin {k o : Nat} {v : Word32} (h : s.Keeps q) : (s.writeBin k o v).2.Keeps q := .ite₂ h.refuse <| .ite₂ h.modRegsAt h.did

theorem State.Keeps.writeRegion {k o : Nat} {v : Word32} (h : s.Keeps q) : (s.writeRegion k o v).2.Keeps q := .ite₂ h.refuse h.modRegsAt

theorem State.Keeps.writeRegionNext {k o : Nat} {v : Word32} (h : s.Keeps q) : (s.writeRegionNext k o v).2.Keeps q := h.modRegsAt

theorem State.Keeps.writeMem {k o : Nat} {v : Word32} (h : s.Keeps q) : (s.writeMem k o v).2.Keeps q := by
  unfold State.writeMem
  exact .ite₂ (.ite₂ h.modRegsAt h.did) <| .ite₂ h.modRegsAt <| .ite₂ h.modRegsAt <| .ite₂ h.modRegsAt <| .ite₂ h.writeBin <|
    .ite₂ h.writeRegion <| .ite₂ h.writeRegionNext <| .ite₂ h.did h

theorem State.Keeps.refuseBank {k stream word : Nat} (h : s.Keeps q) : (s.refuseBank k stream word).2.Keeps q := h.record

theorem State.Keeps.unseal {b : Nat} (h : s.Keeps q) : (s.unseal b).Keeps q := h.other

theorem State.Keeps.writeInit {k o : Nat} {v : Word32} (h : s.Keeps q) : (s.writeInit k o v).2.Keeps q := .ite₂ h.refuseBank h.unseal.modCtlAt

theorem State.Keeps.writeVmap {k : Nat} {v : Word32} (h : s.Keeps q) : (s.writeVmap k v).2.Keeps q := .ite₂ h.modCtlAt h.refuse

theorem State.Keeps.writeStream {k o : Nat} {v : Word32} (h : s.Keeps q) : (s.writeStream k o v).2.Keeps q := by
  unfold State.writeStream
  exact .ite₂ h.modCtlAt <| .ite₂ h.modCtlAt <| .ite₂ h.writeInit <| .ite₂ h.writeVmap <| .ite₂ h.writeInit <| .ite₂ h.did h

theorem State.Keeps.writePatch {k o : Nat} {v : Word32} (h : s.Keeps q) : (s.writePatch k o v).2.Keeps q :=
  .ite₂ h.refuse <| .ite₂ (State.Keeps.ite h.other h).modCtlAt (State.Keeps.ite h.other h).modCtlAt

theorem State.Keeps.writeChan {k o : Nat} {v : Word32} (h : s.Keeps q) : (s.writeChan k o v).2.Keeps q := by
  unfold State.writeChan
  extract_lets
  exact .ite₂ h.modCore <| .ite₂ h.modCore <| .ite₂ h.modCore <| .ite₂ h.modCtlAt <| .ite₂ h.writePatch <| .ite₂ h.did h

theorem State.Keeps.writeWindow {k o : Nat} {v : Word32} (h : s.Keeps q) : (s.writeWindow k o v).2.Keeps q := by
  unfold State.writeWindow
  split
  · exact h
  · exact .ite₂ h.refuseBank h.unseal.modCore

theorem State.Keeps.coreWrite {k o : Nat} {v : Word32} (h : s.Keeps q) : (s.coreWrite k o v).2.Keeps q := by
  unfold State.coreWrite
  refine .ite₂ (.ite₂ h h) <| .ite₂ h.writeMem <| .ite₂ (.ite₂ h.modCore <| .ite₂ h h) <| .ite₂ h.writeStream <| .ite₂ h.writeChan <|
    .ite₂ h.writeWindow ?_
  split
  · exact h
  · exact h.writeAperture

/-! ## Tensor links -/

theorem State.Keeps.linkFault {p code detail : Nat} (h : s.Keeps q) : (s.linkFault p code detail).Keeps q := h.recordAs

theorem State.Keeps.receive {p : Nat} {k : Packet} (h : s.Keeps q) : (s.receive p k).Keeps q := h.modMesh

theorem State.Keeps.cutPartials {p : Nat} {l : List Partial} (h : s.Keeps q) : (s.cutPartials p l).Keeps q := by
  induction l generalizing s with
  | nil => exact h.modPort
  | cons a l ih => exact ih h.receive.modPort

theorem State.Keeps.discarded {p : Nat} {counted : Bool} (h : s.Keeps q) : (s.discarded p counted).Keeps q := .ite h.noteDiscard.other h.noteDiscard

theorem State.Keeps.dropPool {p : Nat} {l : List Queued} (h : s.Keeps q) : (s.dropPool p l).Keeps q := by
  induction l generalizing s with
  | nil => exact h.modPort
  | cons a l ih => exact ih h.discarded

theorem State.Keeps.loseUsable {p : Nat} (h : s.Keeps q) : (s.loseUsable p).Keeps q := by
  unfold State.loseUsable
  extract_lets s₁ s₂ s₃
  have hs₁ : s₁.Keeps q := h.modPort.cutPartials
  have hs₂ : s₂.Keeps q := hs₁.foldl fun h' => h'.discarded
  have hs₃ : s₃.Keeps q := hs₂.dropPool
  exact .ite hs₃.other hs₃

theorem State.Keeps.endEpisode {p : Nat} (h : s.Keeps q) : (s.endEpisode p).Keeps q := by
  unfold State.endEpisode
  split
  · exact h
  · exact h.modPort.record

theorem State.Keeps.gainUsable {p : Nat} (h : s.Keeps q) : (s.gainUsable p).Keeps q := h.modPort.endEpisode

theorem State.Keeps.bundleFaults {l : List Nat} (h : s.Keeps q) : (s.bundleFaults l).Keeps q := by
  induction l generalizing s with
  | nil => exact h
  | cons a l ih => exact ih h.recordAs

theorem State.Keeps.linkReview {quiet : Bool} (h : s.Keeps q) : (s.linkReview quiet).Keeps q :=
  ((State.Keeps.ite h h.bundleFaults).foldl fun h' => h'.loseUsable).foldl fun h' => h'.gainUsable

theorem State.Keeps.stopPort {p : Nat} {st : PortState} {quiet : Bool} (h : s.Keeps q) : (s.stopPort p st quiet).Keeps q := h.modPort.linkReview

theorem State.Keeps.portDown {p code : Nat} (h : s.Keeps q) : (s.portDown p code).Keeps q := h.linkFault.stopPort

theorem State.Keeps.train {p : Nat} {retry : Bool} (h : s.Keeps q) : (s.train p retry).Keeps q := h.modMesh.modPort

theorem State.Keeps.startPort {p : Nat} (h : s.Keeps q) : (s.startPort p).Keeps q :=
  .ite (h.other.foldl fun h' => h'.noteOn).modPort (h.other.foldl fun h' => h'.noteOn).train

theorem execDiscardEpisodeEnd_keeps {p : Nat} (h : s.Keeps q) : OutKeeps q (execDiscardEpisodeEnd p s) := by
  unfold execDiscardEpisodeEnd
  split
  · exact h
  · exact .ite h.advanceTick.endEpisode h

theorem State.Keeps.evaluate {p : Nat} (h : s.Keeps q) : (s.evaluate p).Keeps q :=
  .ite h.modPort.linkFault.linkReview <| .ite h.modPort.linkFault.linkReview h.modPort.linkReview

theorem State.Keeps.reevaluate {p : Nat} (h : s.Keeps q) : (s.reevaluate p).Keeps q := .ite h.evaluate h

theorem State.Keeps.hear {p : Nat} {r : BitVec 128} (h : s.Keeps q) : (s.hear p r).Keeps q :=
  .ite (.ite h h.modPort.evaluate) <| .ite h.modPort.modPort.evaluate h.modPort

theorem State.Keeps.startReplay {p : Nat} {n : BitVec 12} {late : Bool} (h : s.Keeps q) : (s.startReplay p n late).Keeps q :=
  .ite h.modPort.portDown h.modPort

theorem execReplayTimeout_keeps {p : Nat} (h : s.Keeps q) : OutKeeps q (execReplayTimeout p s) := by
  unfold execReplayTimeout
  refine .ite ?_ h
  split
  · exact h
  · exact h.advanceTick.startReplay

theorem State.Keeps.countCorrected {p : Nat} {fix : Bool} (h : s.Keeps q) : (s.countCorrected p fix).Keeps q := .ite h.modPort h

theorem State.Keeps.enterNak {p : Nat} (h : s.Keeps q) : (s.enterNak p).Keeps q := h.modPort

theorem State.Keeps.uncorrectable {p : Nat} (h : s.Keeps q) : (s.uncorrectable p).Keeps q := .ite h.modPort.enterNak.portDown h.modPort.enterNak

theorem State.Keeps.takeSeq {p : Nat} {q2 : BitVec 12} (h : s.Keeps q) : (s.takeSeq p q2).2.Keeps q := .ite₂ h.modPort h.enterNak

theorem State.Keeps.checkSeq {p : Nat} {q2 : BitVec 12} (h : s.Keeps q) : (s.checkSeq p q2).Keeps q := .ite h h.enterNak

theorem State.Keeps.refuseClass {p v : Nat} {f : Flit} (h : s.Keeps q) : (s.refuseClass p v f).Keeps q := h.record.noteSink.modPort

theorem State.Keeps.overrun {p v : Nat} (h : s.Keeps q) : (s.overrun p v).Keeps q := h.modPort.noteSink.portDown

theorem State.Keeps.takeFlit {p v : Nat} {f : Flit} (h : s.Keeps q) : (s.takeFlit p v f).Keeps q :=
  .ite h.modPort <| .ite h.refuseClass <| .ite h.overrun <| .ite h.modPort.receive h.modPort

theorem State.Keeps.takeFlits {p v : Nat} {l : List Flit} (h : s.Keeps q) : (s.takeFlits p v l).Keeps q := by
  induction l generalizing s with
  | nil => exact h
  | cons a l ih => exact .ite (ih h.takeFlit) h

theorem State.Keeps.tidyRx {p : Nat} (h : s.Keeps q) : (s.tidyRx p).Keeps q := .ite h h.cutPartials

theorem execDataCodeword_keeps {p : Nat} {fix : Bool} {seq : BitVec 12} {vc : Nat} {flits : List (List (BitVec 64))} (h : s.Keeps q) :
    OutKeeps q (execDataCodeword p fix seq vc flits s) := by
  unfold execDataCodeword
  extract_lets r _ s₁
  have hr : r.2.Keeps q := h.countCorrected.takeSeq
  have hs₁ : s₁.Keeps q := hr.modPort.takeFlits
  exact .ite (.ite h.uncorrectable <| .ite hs₁.tidyRx.reviewXoff hr) h

theorem State.Keeps.control {p : Nat} {ack : BitVec 12} {nak : Bool} {credit : List (BitVec 16)} {xoff : BitVec 10} (h : s.Keeps q) :
    (s.control p ack nak credit xoff).Keeps q := .ite h.modPort.startReplay h.modPort

theorem execLcw_keeps {p : Nat} {fix : Bool} {seq ack : BitVec 12} {nak : Bool} {credit : List (BitVec 16)} {xoff : BitVec 10}
    {record : Option (BitVec 128)} (h : s.Keeps q) :
    OutKeeps q (execLcw p fix seq ack nak credit xoff record s) := by
  unfold execLcw
  extract_lets s₁
  have hs₁ : s₁.Keeps q := h.countCorrected.checkSeq.control
  refine .ite ?_ h
  split
  · exact .ite hs₁.hear hs₁
  · exact hs₁

theorem State.Keeps.putWire {p : Nat} {c : Codeword} (h : s.Keeps q) : (s.putWire p c).Keeps q := h.modPort

theorem State.Keeps.putNew {p : Nat} {c : Codeword} (h : s.Keeps q) : (s.putNew p c).Keeps q := h.putWire.modPort

theorem State.Keeps.putLcw {p : Nat} {keep : Bool} (h : s.Keeps q) : (s.putLcw p keep).Keeps q := h.modPort

theorem State.Keeps.putReplay {p : Nat} {n : BitVec 12} (h : s.Keeps q) : (s.putReplay p n).Keeps q := by
  unfold State.putReplay
  extract_lets
  split
  · exact h.putWire.modPort
  · exact h.putWire.modPort

theorem State.Keeps.putData {p : Nat} {f : Fill} (h : s.Keeps q) : (s.putData p f).Keeps q := .ite h.modPort.putNew.modPort h.modPort.putNew

theorem State.Keeps.boundary {p : Nat} (h : s.Keeps q) : (s.boundary p).Keeps q := by
  unfold State.boundary
  extract_lets _ _ _ idle
  have hidle : idle.Keeps q := .ite h.putLcw h.putWire
  refine .ite h.putLcw ?_
  split
  · exact h.putReplay
  · refine .ite hidle ?_
    split
    · exact .ite hidle h.putNew.modPort
    · refine .ite ?_ hidle
      split
      · exact h.putData
      · exact hidle

theorem State.Keeps.writeLinkCfg {p : Nat} {v : Word32} (h : s.Keeps q) : (s.writeLinkCfg p v).2.Keeps q := by
  unfold State.writeLinkCfg
  extract_lets _ _ _ _ _ s₁ s₂ s₃
  have hs₁ : s₁.Keeps q := h.modPort
  have hs₂ : s₂.Keeps q := .ite hs₁.stopPort hs₁.linkReview
  have hs₃ : s₃.Keeps q := .ite hs₂.reevaluate hs₂
  exact .ite₂ h.record <| .ite hs₃.startPort hs₃

theorem State.Keeps.writeExpect {p o : Nat} {v : Word32} (h : s.Keeps q) : (s.writeExpect p o v).Keeps q := h.modPort.reevaluate

theorem State.Keeps.clearLink {p : Nat} (h : s.Keeps q) : (s.clearLink p).Keeps q := h.modPort

theorem State.Keeps.writeLink {p o : Nat} {v : Word32} (h : s.Keeps q) : (s.writeLink p o v).2.Keeps q :=
  .ite₂ h.writeLinkCfg <| .ite₂ h.writeExpect <| .ite₂ (.ite h.clearLink h) <| .ite₂ h h

/-! ## The hub -/

theorem State.Keeps.wordBytes64 {l : List (PWord 64)} (h : s.Keeps q) : (s.wordBytes64 l).2.Keeps q := by
  induction l generalizing s with
  | nil => exact h
  | cons a l ih => exact ih (.ite h.fresh h)

theorem State.Keeps.modFin {f : Finfin → Finfin} (h : s.Keeps q) : (s.modFin f).Keeps q := h.other

theorem State.Keeps.modJrnl {f : Journal → Journal} (h : s.Keeps q) : (s.modJrnl f).Keeps q := h.other

theorem State.Keeps.modHost {f : HostIf → HostIf} (h : s.Keeps q) : (s.modHost f).Keeps q := h.other

theorem State.Keeps.modBar {f : Barrier → Barrier} (h : s.Keeps q) : (s.modBar f).Keeps q := h.other

theorem State.Keeps.modConn {c : Nat} {f : PlbConn → PlbConn} (h : s.Keeps q) : (s.modConn c f).Keeps q := h.modHost

theorem State.Keeps.plbStart {c : Nat} {o : PlbOp} (h : s.Keeps q) : (s.plbStart c o).Keeps q := h.modConn

theorem State.Keeps.hubPuts {t : HubTarget} {mseq off n j : Nat} {bad : Bool} {data : List Byte} {x : Nat} (h : s.Keeps q) :
    (s.hubPuts t mseq off n j bad data x).Keeps q := by
  induction x generalizing s j data with
  | zero => exact h
  | succ n ih => exact .ite h <| ih h.inject

theorem State.Keeps.hubMessage {t : HubTarget} {mseq off n : Nat} {bad : Bool} {data : List Byte} (h : s.Keeps q) :
    (s.hubMessage t mseq off n bad data).Keeps q := h.hubPuts

theorem State.Keeps.hubFault {code detail : Nat} (h : s.Keeps q) : (s.hubFault code detail).Keeps q := h.record

/-! ## Finfin -/

theorem State.Keeps.modEd {i : Nat} {f : EdSlot → EdSlot} (h : s.Keeps q) : (s.modEd i f).Keeps q := h.modFin

theorem State.Keeps.finFault {code slot : Nat} {rest : List (Nat × Nat)} (h : s.Keeps q) : (s.finFault code slot rest).Keeps q := h.hubFault

theorem State.Keeps.dropFetches {p : Fetch → Bool} (h : s.Keeps q) : (s.dropFetches p).Keeps q := h.modFin

theorem State.Keeps.failLoad {i : Nat} (h : s.Keeps q) : (s.failLoad i).Keeps q := h.dropFetches.modEd

theorem State.Keeps.emptySlot {i : Nat} (h : s.Keeps q) : (s.emptySlot i).Keeps q := h.dropFetches.modEd

theorem State.Keeps.takeManifest {i : Nat} {m : List Byte} (h : s.Keeps q) : (s.takeManifest i m).Keeps q :=
  .ite h.finFault.failLoad <| .ite h.finFault.failLoad h.modEd

theorem State.Keeps.putFetch {f g : Fetch} (h : s.Keeps q) : (s.putFetch f g).Keeps q := h.modFin

theorem State.Keeps.modShard {i n : Nat} {g : Shard → Shard} (h : s.Keeps q) : (s.modShard i n g).Keeps q := h.modEd

theorem State.Keeps.modRun {n : Nat} {g : StreamRun → StreamRun} (h : s.Keeps q) : (s.modRun n g).Keeps q := h.modFin

theorem State.Keeps.unobtainable {f : Fetch} (h : s.Keeps q) : (s.unobtainable f).Keeps q := by
  unfold State.unobtainable
  extract_lets
  split
  · exact h.hubFault.failLoad
  · exact h.hubFault.dropFetches.modShard
  · exact h.recordAs.dropFetches.modRun

theorem State.Keeps.nextHolder {f : Fetch} (h : s.Keeps q) : (s.nextHolder f).Keeps q := .ite h.putFetch <| .ite h.putFetch h.unobtainable

theorem State.Keeps.attemptFault {f : Fetch} {code : Nat} (h : s.Keeps q) : (s.attemptFault f code).Keeps q := h.finFault

theorem State.Keeps.attempt {f : Fetch} (h : s.Keeps q) : (s.attempt f).Keeps q :=
  .ite h.nextHolder <| .ite (.ite h.putFetch.modFin.plbStart h.attemptFault.nextHolder) h.putFetch.modFin.inject

theorem execFinfinRequest_keeps (h : s.Keeps q) : OutKeeps q (execFinfinRequest s) := by
  unfold execFinfinRequest
  refine .ite h ?_
  split
  · exact h.attempt
  · split
    · exact h
    · exact h.modFin.attempt

theorem State.Keeps.reviewLoad {i : Nat} (h : s.Keeps q) : (s.reviewLoad i).Keeps q := .ite h.modEd h

theorem State.Keeps.placeShard {f : Fetch} {n : Nat} {x : Shard} {data : List Byte} (h : s.Keeps q) : (s.placeShard f n x data).Keeps q := by
  unfold State.placeShard
  extract_lets _ s₁ _ _ s₂
  have hs₁ : s₁.Keeps q := h.finFault
  have hs₂ : s₂.Keeps q := h.dropFetches.modCore
  refine .ite ?_ hs₂.modShard.reviewLoad
  split
  · exact hs₁.failLoad
  · exact hs₁.dropFetches.modShard

theorem State.Keeps.takeObject {f : Fetch} {data : List Byte} (h : s.Keeps q) : (s.takeObject f data).Keeps q := by
  unfold State.takeObject
  split
  · exact h.dropFetches.takeManifest
  · split
    · exact h.dropFetches
    · refine .ite ?_ h.attemptFault.nextHolder
      split
      · exact h.dropFetches.modRun
      · exact .ite h.placeShard h.dropFetches.modShard.reviewLoad

theorem State.Keeps.fetchReply {tag : Nat} {ok : Bool} {data : List Byte} (h : s.Keeps q) : (s.fetchReply tag ok data).Keeps q := by
  unfold State.fetchReply
  split
  · exact h
  · extract_lets
    refine .ite h.attemptFault.nextHolder ?_
    split
    · exact .ite h.takeObject h.putFetch.plbStart
    · exact h.takeObject
    · exact h.takeObject

theorem execShardTimeout_keeps (h : s.Keeps q) : OutKeeps q (execShardTimeout s) := by
  unfold execShardTimeout
  split
  · exact h
  · exact h.advanceTick.attemptFault.nextHolder

theorem State.Keeps.readShard {i : Nat} {x : Shard} (h : s.Keeps q) : (s.readShard i x).2.Keeps q := by
  unfold State.readShard
  split
  · exact h
  · exact h.readStockRun

theorem State.Keeps.heldObject {p : Packet} (h : s.Keeps q) : (s.heldObject p).2.Keeps q := by
  unfold State.heldObject
  split
  · exact h
  · refine .ite₂ h ?_
    split
    · exact h
    · exact h.readShard

theorem State.Keeps.sendObject {p : Packet} {j : Nat} {data : List Byte} {n : Nat} (h : s.Keeps q) : (s.sendObject p j data n).Keeps q := by
  induction n generalizing s j data with
  | zero => exact h
  | succ n ih => exact ih h.inject

theorem State.Keeps.hubSreq {p : Packet} (h : s.Keeps q) : (State.hubSreq p s).Keeps q := by
  unfold State.hubSreq
  extract_lets r
  have hr : r.2.Keeps q := h.heldObject
  refine .ite h ?_
  split
  · exact hr.sendObject
  · exact hr.inject

theorem State.Keeps.hubSdata {p : Packet} (h : s.Keeps q) : (State.hubSdata p s).Keeps q := by
  unfold State.hubSdata
  extract_lets r
  have hr : r.2.Keeps q := h.wordBytes64
  split
  · exact h
  · exact .ite hr.putFetch.takeObject hr.putFetch

theorem State.Keeps.hubSnone {p : Packet} (h : s.Keeps q) : (State.hubSnone p s).Keeps q := by
  unfold State.hubSnone
  split
  · exact h
  · exact h.nextHolder

theorem State.Keeps.finRefuse {slot : Nat} (h : s.Keeps q) : (s.finRefuse slot).2.Keeps q := h.finFault

theorem State.Keeps.loadSlot {i : Nat} (h : s.Keeps q) : (s.loadSlot i).2.Keeps q := .ite₂ h.modEd h.finRefuse

theorem State.Keeps.abortSlot {i : Nat} (h : s.Keeps q) : (s.abortSlot i).2.Keeps q := .ite₂ h.emptySlot h.finRefuse

theorem State.Keeps.repairAll (h : s.Keeps q) : s.repairAll.Keeps q := h.foldl fun h' => h'.modEd

theorem State.Keeps.releaseSlot {i : Nat} (h : s.Keeps q) : (s.releaseSlot i).Keeps q := h.emptySlot.other.modFin

theorem State.Keeps.askRelease {i : Nat} (h : s.Keeps q) : (s.askRelease i).2.Keeps q := by
  unfold State.askRelease
  split
  · exact h.emptySlot
  · exact h.emptySlot
  · exact .ite₂ h.releaseSlot h.modFin
  · exact h
  · exact h.finRefuse

theorem State.Keeps.latch (h : s.Keeps q) : s.latch.Keeps q := by
  unfold State.latch
  split
  · exact h
  · exact h.modEd.modEd.modFin

theorem State.Keeps.setActivate {b : Bool} (h : s.Keeps q) : (s.setActivate b).Keeps q := .ite h.modFin.latch h.modFin

theorem State.Keeps.writeFinCtrl {v : Word32} (h : s.Keeps q) : (s.writeFinCtrl v).2.Keeps q := by
  unfold State.writeFinCtrl
  extract_lets _ _ t a b
  have ht : t.Keeps q := h.modFin
  have ha : a.2.Keeps q := .ite₂ ht.loadSlot ht
  have hb : b.2.Keeps q := .ite₂ ha.abortSlot ha
  exact .ite₂ (.ite hb.repairAll hb) h.finRefuse

theorem State.Keeps.writeEdition {v : Word32} (h : s.Keeps q) : (s.writeEdition v).2.Keeps q := by
  unfold State.writeEdition
  extract_lets _ t a b
  have ht : t.Keeps q := h.modFin.setActivate
  have ha : a.2.Keeps q := .ite₂ ht.askRelease ht
  have hb : b.2.Keeps q := .ite₂ ha.askRelease ha
  exact .ite₂ h.finRefuse <| .ite₂ h.finRefuse hb

theorem State.Keeps.writeFinReg {o : Nat} {v : Word32} (h : s.Keeps q) : (s.writeFinReg o v).2.Keeps q := by
  unfold State.writeFinReg
  exact .ite₂ h.modFin <| .ite₂ (.ite₂ h.finRefuse h.modFin) <| .ite₂ h.modFin <| .ite₂ h.modFin <| .ite₂ (.ite₂ h.finRefuse h.modFin) <|
    .ite₂ (.ite₂ h.finRefuse h.modEd) <| .ite₂ h.modFin <| .ite₂ (.ite₂ h.finRefuse h.modFin) h

theorem State.Keeps.writeFin {o : Nat} {v : Word32} (h : s.Keeps q) : (s.writeFin o v).2.Keeps q :=
  .ite₂ h.writeEdition <| .ite₂ h.writeFinCtrl h.writeFinReg

theorem State.Keeps.endRuns (h : s.Keeps q) : s.endRuns.Keeps q := h.dropFetches.modFin

theorem State.Keeps.checkStreams (h : s.Keeps q) : s.checkStreams.Keeps q := h.endRuns.foldl fun h' => .ite h'.modFin h'.hubFault

theorem execTier2StreamSend_keeps {n : Nat} (h : s.Keeps q) : OutKeeps q (execTier2StreamSend n s) := by
  unfold execTier2StreamSend
  split
  · exact .ite h.modRun.hubMessage h
  · exact h

theorem State.Keeps.stopStreams (h : s.Keeps q) : s.stopStreams.Keeps q := (h.foldl fun h' => .ite h'.hubFault h').endRuns

/-! ## Journal and twin -/

theorem State.Keeps.reviewBusy (h : s.Keeps q) : s.reviewBusy.Keeps q := .ite (.ite h h.modJrnl.hubFault) h.modJrnl

theorem State.Keeps.journal {type : Nat} {pass : Word64} {body : List Byte} (h : s.Keeps q) : (s.journal type pass body).Keeps q :=
  .ite h h.modJrnl.reviewBusy

theorem State.Keeps.journalProgram {pass : Word64} {b : Nat} (h : s.Keeps q) : (s.journalProgram pass b).Keeps q := h.journal

theorem State.Keeps.journalEdition {pass : Word64} (h : s.Keeps q) : (s.journalEdition pass).Keeps q := by
  unfold State.journalEdition
  split
  · exact h
  · exact h.journal

theorem State.Keeps.journalLayout {pass : Word64} (h : s.Keeps q) : (s.journalLayout pass).Keeps q := h.journal

theorem State.Keeps.journalOpen (h : s.Keeps q) : s.journalOpen.Keeps q :=
  .ite h.modJrnl h.modJrnl.journal.journalProgram.journalEdition.journalLayout

theorem State.Keeps.checkpoint (h : s.Keeps q) : s.checkpoint.Keeps q := .ite h h.journal.modJrnl

theorem State.Keeps.journalClose {reason : Nat} (h : s.Keeps q) : (s.journalClose reason).Keeps q := h.journal.checkpoint.modJrnl

theorem State.Keeps.journalOutput {pass : Word64} {o : OutRes} (h : s.Keeps q) : (s.journalOutput pass o).Keeps q := h.journal

theorem State.Keeps.journalPassEnd {pass : Word64} {ok : Bool} {attempt : Nat} (h : s.Keeps q) : (s.journalPassEnd pass ok attempt).Keeps q := by
  unfold State.journalPassEnd
  extract_lets _ _ _ s₁ s₂
  have hs₁ : s₁.Keeps q := h.journal.modJrnl
  have hs₂ : s₂.Keeps q := .ite hs₁.journal hs₁
  exact .ite hs₂.checkpoint hs₂

theorem State.Keeps.snap (h : s.Keeps q) : s.snap.Keeps q := h.journal

theorem execSealComplete_keeps (h : s.Keeps q) : OutKeeps q (execSealComplete s) := by
  unfold execSealComplete
  split
  · exact h
  · exact h.modJrnl

theorem State.Keeps.detRefuse (h : s.Keeps q) : s.detRefuse.2.Keeps q := h.hubFault

theorem State.Keeps.jrnlLatch {o : Nat} (h : s.Keeps q) : (s.jrnlLatch o).Keeps q := .ite h.modJrnl <| .ite h.modJrnl h

theorem State.Keeps.writeJrnlCtrl {v : Word32} (h : s.Keeps q) : (s.writeJrnlCtrl v).2.Keeps q := by
  unfold State.writeJrnlCtrl
  extract_lets _ s₁ s₂ s₃
  have hs₁ : s₁.Keeps q := h.modJrnl
  have hs₂ : s₂.Keeps q := .ite hs₁.modJrnl hs₁
  have hs₃ : s₃.Keeps q := .ite hs₂.snap hs₂
  exact .ite₂ h.detRefuse <| .ite hs₃.checkpoint hs₃

theorem State.Keeps.writeJrnl {o : Nat} {v : Word32} (h : s.Keeps q) : (s.writeJrnl o v).2.Keeps q := by
  unfold State.writeJrnl
  exact .ite₂ h.writeJrnlCtrl <| .ite₂ (.ite₂ h.modJrnl h.detRefuse) <| .ite₂ (.ite₂ h.modJrnl h.detRefuse) <|
    .ite₂ (.ite₂ h.modJrnl h.detRefuse) <| .ite₂ (.ite₂ h.modJrnl h.detRefuse) <| .ite₂ (.ite₂ h.modJrnl h.detRefuse) <|
    .ite₂ (.ite₂ h.modJrnl h.detRefuse) <| .ite₂ (.ite₂ h.modJrnl h.detRefuse) <| .ite₂ (.ite₂ h.modJrnl h.detRefuse) h

theorem State.Keeps.ringWrite {u : PlbUse} {a : Nat} {d : List Byte} (h : s.Keeps q) : (s.ringWrite u a d).Keeps q := h.plbStart

theorem State.Keeps.exportRecord {r : Word64 × List Byte} (h : s.Keeps q) : (s.exportRecord r).Keeps q :=
  (State.Keeps.ite h.ringWrite.ringWrite h.ringWrite).modJrnl

theorem State.Keeps.consume {v : Word64} (h : s.Keeps q) : (s.consume v).Keeps q := h.modJrnl.reviewBusy

theorem State.Keeps.exportFailed {c : Nat} (h : s.Keeps q) : (s.exportFailed c).Keeps q := .ite h.modJrnl.hubFault h

theorem State.Keeps.sendSummary (h : s.Keeps q) : s.sendSummary.Keeps q := h.inject.inject

theorem State.Keeps.keepSummary {p : Packet} (h : s.Keeps q) : (s.keepSummary p).Keeps q := .ite h.wordBytes64.other h

theorem State.Keeps.recordNow {code detail : Nat} (h : s.Keeps q) : (s.recordNow code detail).Keeps q := h.other.recordAs.other

theorem State.Keeps.compareTwin {d : List Byte} (h : s.Keeps q) : (s.compareTwin d).Keeps q := by
  unfold State.compareTwin
  extract_lets x
  clear_value x
  split
  · exact h.other
  · exact h.recordNow.modBar.other

theorem State.Keeps.twinMissing (h : s.Keeps q) : s.twinMissing.Keeps q := h.recordNow.modBar.other

theorem State.Keeps.writeTwin {v : Word32} (h : s.Keeps q) : (s.writeTwin v).2.Keeps q := .ite₂ h.detRefuse h.other

/-! ## Tickets and outputs -/

theorem State.Keeps.storeTicket {pass : Word64} {tkt lines line : Nat} {tag : Word64} {data : List Byte} (h : s.Keeps q) :
    (s.storeTicket pass tkt lines line tag data).2.Keeps q := h.journal.modHost

theorem State.Keeps.takeTicket {pass : Word64} {tkt lines line : Nat} {tag : Word64} {data : List Byte} (h : s.Keeps q) :
    (s.takeTicket pass tkt lines line tag data).2.2.Keeps q := .ite₃ (.ite h.storeTicket.modHost h.storeTicket) <| .ite h.hubFault h

theorem execTicketDelivery_keeps (h : s.Keeps q) : OutKeeps q (execTicketDelivery s) := by
  unfold execTicketDelivery
  split
  · exact h
  · extract_lets
    split
    · exact h
    · exact .ite h h.modHost.hubMessage

theorem State.Keeps.grantOutput {o : OutRes} (h : s.Keeps q) : (s.grantOutput o).2.Keeps q := by
  unfold State.grantOutput
  extract_lets
  split
  · exact h
  · exact .ite₂ h h.inject

theorem State.Keeps.placeOutputs {l : List OutRes} (h : s.Keeps q) : (s.placeOutputs l).Keeps q := by
  induction l generalizing s with
  | nil => exact h
  | cons a l ih => exact ih h.grantOutput.modHost

theorem State.Keeps.startOutputs (h : s.Keeps q) : s.startOutputs.Keeps q := h.modHost.placeOutputs

theorem State.Keeps.reviewOutputs (h : s.Keeps q) : s.reviewOutputs.Keeps q := h.placeOutputs

theorem State.Keeps.decideOutputs {pass : Word64} {ok : Bool} (h : s.Keeps q) : (s.decideOutputs pass ok).Keeps q := by
  unfold State.decideOutputs
  extract_lets _ s₁ s₂
  have hs₁ : s₁.Keeps q := h.modHost
  have hs₂ : s₂.Keeps q := hs₁.foldl fun h' => h'.journalOutput
  exact .ite hs₁ <| .ite hs₂ hs₂.modHost

theorem State.Keeps.sendLines {o : Output} {off m n : Nat} (h : s.Keeps q) : (s.sendLines o off m n).Keeps q := by
  induction n generalizing s off with
  | zero => exact h
  | succ n ih => exact .ite h <| ih h.notify

theorem State.Keeps.putOutput {o n : Output} (h : s.Keeps q) : (s.putOutput o n).Keeps q := h.modHost

theorem execOutputRelease_keeps (h : s.Keeps q) : OutKeeps q (execOutputRelease s) := by
  unfold execOutputRelease
  split
  · exact .ite h h.putOutput.sendLines
  · exact h

theorem execOutputResend_keeps (h : s.Keeps q) : OutKeeps q (execOutputResend s) := by
  unfold execOutputResend
  split
  · exact .ite h.advanceTick.putOutput.sendLines.hubFault h.advanceTick.putOutput.sendLines
  · exact h

theorem State.Keeps.takeOack {pass : Word64} {id acked : Nat} (h : s.Keeps q) : (s.takeOack pass id acked).Keeps q := by
  unfold State.takeOack
  split
  · exact h
  · exact .ite h <| .ite h.modHost.reviewOutputs h.putOutput

theorem State.Keeps.hubDrop {p : Packet} {code : Nat} (h : s.Keeps q) : (State.hubDrop p code s).Keeps q := h.hubFault

theorem State.Keeps.hubOther {p : Packet} (h : s.Keeps q) : (State.hubOther p s).Keeps q := h.hubDrop

theorem State.Keeps.hubPut {p : Packet} (h : s.Keeps q) : (State.hubPut p s).Keeps q := by
  unfold State.hubPut
  extract_lets
  split
  · exact h.hubOther
  · extract_lets _ g s₁
    have hg : g.2.Keeps q := h.grantOutput
    have hs₁ : s₁.Keeps q := hg.modHost
    exact .ite h.hubDrop <| .ite h.hubDrop <| .ite h.hubDrop <| .ite hs₁.hubFault hs₁

theorem State.Keeps.hubReq {p : Packet} (h : s.Keeps q) : (State.hubReq p s).Keeps q := h.hubOther.inject

theorem State.Keeps.hubGrant {p : Packet} (h : s.Keeps q) : (State.hubGrant p s).Keeps q := by
  unfold State.hubGrant
  extract_lets _ _ _ s' _ _ _ u
  have hs' : s'.Keeps q := h.modRun
  have hu : u.Keeps q := h.modHost
  refine .ite h.hubDrop <| .ite (.ite h.hubDrop <| .ite h.hubDrop ?_) <| .ite (.ite h.hubDrop <| .ite h.hubDrop <| .ite hu.hubDrop hu) h.hubOther
  split
  · exact h
  · exact .ite hs'.hubDrop hs'

theorem State.Keeps.hubYield {p : Packet} (h : s.Keeps q) : (State.hubYield p s).Keeps q := by
  unfold State.hubYield
  split
  · exact h.hubOther
  · exact .ite h.hubDrop h.modHost

theorem State.Keeps.arriveOp {i op : Nat} {core : Nat → Packet → State → State} {hub : Packet → State → State} (h : s.Keeps q)
    (hcore : ∀ {x : Nat} {y : Packet} {s : State}, s.Keeps q → (core x y s).Keeps q)
    (hhub : ∀ {x : Packet} {s : State}, s.Keeps q → (hub x s).Keeps q) :
    (s.arriveOp i op core hub).Keeps q := by
  unfold State.arriveOp
  split
  · exact h
  · exact .ite h <| h.arrival (fun h' => hcore h') fun h' => hhub h'

theorem State.Keeps.atHub {i op : Nat} {hub : Packet → State → State} (h : s.Keeps q)
    (hhub : ∀ {x : Packet} {s : State}, s.Keeps q → (hub x s).Keeps q) :
    (s.atHub i op hub).Keeps q := by
  unfold State.atHub
  split
  · exact h
  · exact .ite (h.arriveOp (fun h' => h') fun h' => hhub h') h

/-! ## The barrier -/

theorem State.Keeps.eachAttached {f : State → Nat → State} (h : s.Keeps q) (hf : ∀ {s : State} {x : Nat}, s.Keeps q → (f s x).Keeps q) :
    (s.eachAttached f).Keeps q := h.foldl fun h' => hf h'

theorem State.Keeps.alignFrom {t : Nat} (h : s.Keeps q) : (s.alignFrom t).Keeps q := h.other

theorem State.Keeps.leaveIdle (h : s.Keeps q) : s.leaveIdle.Keeps q := .ite h.alignFrom h

theorem State.Keeps.groupOn {g : Nat} (h : s.Keeps q) : (s.groupOn g).Keeps q := h.leaveIdle.other.noteOn

theorem State.Keeps.wakeCore {k : Nat} (h : s.Keeps q) : (s.wakeCore k).Keeps q := .ite (State.Keeps.ite h.groupOn h).other.modCore h

theorem State.Keeps.sendStage (h : s.Keeps q) : s.sendStage.Keeps q :=
  .ite (h.foldl fun h' => h'.inject) <| .ite (h.foldl fun h' => .ite h' h'.inject) h

theorem State.Keeps.runStages {n : Nat} (h : s.Keeps q) : (s.runStages n).Keeps q := by
  induction n generalizing s with
  | zero => exact h
  | succ n ih => exact .ite h <| ih h.modBar.sendStage

theorem State.Keeps.launch {kind : Nat} (h : s.Keeps q) : (s.launch kind).Keeps q := h.modBar.sendStage.runStages

theorem State.Keeps.phaseEvent (h : s.Keeps q) : s.phaseEvent.Keeps q := h.event

theorem State.Keeps.enterHeld (h : s.Keeps q) : s.enterHeld.Keeps q := h.modBar.phaseEvent

theorem State.Keeps.enterBlank (h : s.Keeps q) : s.enterBlank.Keeps q := h.modBar

theorem State.Keeps.commitRegions {k : Nat} {ok : Bool} (h : s.Keeps q) : (s.commitRegions k ok).2.Keeps q :=
  .ite₂ h.modCore.modCore <| .ite₂ h.modCore.modCore <| .ite₂ h.modCore.modCore h.modCore.modCore.faultCore

theorem State.Keeps.commitCore {ok : Bool} {k : Nat} (h : s.Keeps q) : (s.commitCore ok k).2.Keeps q := .ite₂ h.commitRegions h.commitRegions.modCore

theorem State.Keeps.commitCores {ok : Bool} {l : List Nat} (h : s.Keeps q) : (s.commitCores ok l).2.Keeps q := by
  induction l generalizing s with
  | nil => exact h
  | cons a l ih => exact ih h.commitCore

theorem State.Keeps.commitEditions {x : Contrib} (h : s.Keeps q) : (s.commitEditions x).Keeps q := by
  unfold State.commitEditions
  extract_lets s₁ s₂
  have hs₁ : s₁.Keeps q := .ite h.latch h
  have hs₂ : s₂.Keeps q := .ite hs₁.releaseSlot hs₁
  exact .ite hs₂.releaseSlot hs₂

theorem State.Keeps.noteSwitch {b : Nat} (h : s.Keeps q) : (s.noteSwitch b).Keeps q := .ite h.journalProgram.hubFault h.journalProgram

theorem State.Keeps.applyDecision {pass : Word64} {ok : Bool} {attempt : Nat} (h : s.Keeps q) : (s.applyDecision pass ok attempt).Keeps q := by
  unfold State.applyDecision
  extract_lets _ _ r _ _ _ _ s₂ s₃ s₄ s₅ s₆ s₇ s₈
  have hr : r.2.Keeps q := h.commitCores
  have hs₂ : s₂.Keeps q := .ite hr.other.commitEditions hr
  have hs₃ : s₃.Keeps q := hs₂.other
  have hs₄ : s₄.Keeps q := hs₃.foldl fun h' => h'.noteSwitch
  have hs₅ : s₅.Keeps q := .ite hs₄.journalLayout.modJrnl hs₄
  have hs₆ : s₆.Keeps q := .ite hs₅.journalEdition hs₅
  have hs₇ : s₇.Keeps q := hs₆.decideOutputs
  have hs₈ : s₈.Keeps q := hs₇.journalPassEnd
  exact .ite hs₈.modHost hs₈

theorem State.Keeps.noticeFailed {limited : Bool} (h : s.Keeps q) : (s.noticeFailed limited).Keeps q := (State.Keeps.ite h.recordNow h).event

theorem State.Keeps.commitPass {ok undrained desync : Bool} (h : s.Keeps q) : (s.commitPass ok undrained desync).Keeps q := by
  unfold State.commitPass
  extract_lets _ _ _ _ _ s₁ s₂ _ s₃ s₄ _ s₅ s₆
  have hs₁ : s₁.Keeps q := h.eachAttached fun h' => h'.modCore
  have hs₂ : s₂.Keeps q := hs₁.modBar
  clear_value s₂
  have hs₃ : s₃.Keeps q := hs₂
  have hs₄ : s₄.Keeps q := hs₃.applyDecision
  have hs₅ : s₅.Keeps q := hs₄.other
  have hs₆ : s₆.Keeps q := .ite hs₅ hs₅.noticeFailed
  exact .ite hs₆.advance.enterHeld hs₆

theorem State.Keeps.settle (h : s.Keeps q) : s.settle.Keeps q := by
  unfold State.settle
  extract_lets s₁ _ s₂
  have hs₁ : s₁.Keeps q := h.modBar
  have hs₂ : s₂.Keeps q := hs₁.modBar
  refine .ite (.ite hs₁.enterBlank <| .ite hs₁.launch hs₁) ?_
  split
  · exact hs₁.commitPass
  · exact (State.Keeps.ite hs₁.recordNow hs₁).commitPass
  · exact .ite hs₂.modBar hs₂.launch

theorem State.Keeps.joinHeld (h : s.Keeps q) : s.joinHeld.Keeps q := .ite h.launch h

theorem State.Keeps.waves {n : Nat} (h : s.Keeps q) : (s.waves n).Keeps q := by
  induction n generalizing s with
  | zero => exact h
  | succ n ih => exact .ite (ih h.settle.joinHeld) h

theorem State.Keeps.launchWave {kind : Nat} (h : s.Keeps q) : (s.launchWave kind).Keeps q := h.launch.waves

theorem execModuleFinished_keeps (h : s.Keeps q) : OutKeeps q (execModuleFinished s) := by
  unfold execModuleFinished
  extract_lets s₁ s₂ s₃ s₄
  have hs₁ : s₁.Keeps q := h.stopStreams
  have hs₂ : s₂.Keeps q := hs₁.eachAttached fun h' => h'.modCore
  have hs₃ : s₃.Keeps q := hs₂.modBar
  have hs₄ : s₄.Keeps q := hs₃.sendSummary
  refine .ite h <| .ite hs₃.launchWave ?_
  split
  · exact hs₄
  · exact hs₄.compareTwin.modBar.launchWave

theorem execTsum_keeps {i : Nat} (h : s.Keeps q) : OutKeeps q (execTsum i s) := by
  unfold execTsum
  refine .atHub h (fun h' => ?_)
  extract_lets s₁
  have hs₁ : s₁.Keeps q := h'.keepSummary
  refine .ite hs₁ ?_
  split
  · exact hs₁
  · exact hs₁.compareTwin.modBar.launchWave

theorem State.Keeps.relay {p : Packet} (h : s.Keeps q) : (s.relay p).Keeps q := .ite h h.inject

theorem State.Keeps.keepTotal {p : Packet} (h : s.Keeps q) : (s.keepTotal p).Keeps q := .ite h h.modBar

theorem State.Keeps.takeWave {p : Packet} (h : s.Keeps q) : (s.takeWave p).Keeps q := by
  unfold State.takeWave
  extract_lets s₁ s₂
  have hs₁ : s₁.Keeps q := h.relay
  have hs₂ : s₂.Keeps q := hs₁.keepTotal
  exact .ite h.hubFault <| .ite hs₁ <| .ite hs₂ <| .ite hs₂.runStages.waves <| .ite hs₂.launchWave <| .ite hs₂.launchWave hs₂

theorem execWaveContribution_keeps {i : Nat} (h : s.Keeps q) : OutKeeps q (execWaveContribution i s) := by
  unfold execWaveContribution
  split
  · exact .ite (.ite h h.advance.dropItem.takeWave) <| .ite h.launchWave h
  · exact .ite h.launchWave h

theorem execDrainWatchdog_keeps (h : s.Keeps q) : OutKeeps q (execDrainWatchdog s) := by
  unfold execDrainWatchdog
  extract_lets
  split
  · exact h
  · exact .ite h.advanceTick.recordNow.modBar h

theorem State.Keeps.checkTable {k : Nat} (h : s.Keeps q) : (s.checkTable k).Keeps q := .ite h h.modCore.faultCore

theorem State.Keeps.blankBins {k : Nat} (h : s.Keeps q) : (s.blankBins k).Keeps q := h.modCore.foldl fun h' => h'.faultCore

theorem State.Keeps.checkVmap {k : Nat} (h : s.Keeps q) : (s.checkVmap k).Keeps q := .ite h.modCore <| .ite h.modCore h.modCore.faultCore

theorem State.Keeps.checkContract {k : Nat} (h : s.Keeps q) : (s.checkContract k).Keeps q := .ite h h.faultCore

theorem State.Keeps.blankCore {k : Nat} (h : s.Keeps q) : (s.blankCore k).Keeps q :=
  h.wakeCore.modCore.checkTable.blankBins.blankHandles.checkVmap.checkContract

theorem execBlank_keeps (h : s.Keeps q) : OutKeeps q (execBlank s) := by
  unfold execBlank
  extract_lets s₁ _ s₂ s₃ _ s₄
  have hs₁ : s₁.Keeps q := .ite h.advance.enterBlank h
  have hs₂ : s₂.Keeps q := hs₁.eachAttached fun h' => h'.blankCore
  have hs₃ : s₃.Keeps q := hs₂.checkStreams
  have hs₄ : s₄.Keeps q := hs₃.other
  exact .ite hs₄.modBar hs₁

theorem State.Keeps.startCore {k : Nat} (h : s.Keeps q) : (s.startCore k).Keeps q := h.modCore

/-! ## MX -/

theorem State.Keeps.putAccRow {k bank row : Nat} {bytes : List Byte} {p : Bool} (h : s.Keeps q) : (s.putAccRow k bank row bytes p).Keeps q :=
  (State.Keeps.ite h.other h).modCore

theorem State.Keeps.poisonRows {k bank row n : Nat} (h : s.Keeps q) : (s.poisonRows k bank row n).Keeps q := by
  induction n generalizing s row with
  | zero => exact h
  | succ n ih => exact ih h.putAccRow

theorem State.Keeps.modStamp {k bank : Nat} {f : Stamp → Stamp} (h : s.Keeps q) : (s.modStamp k bank f).Keeps q := h.modCore

theorem State.Keeps.writeIssue {k : Nat} {e : Engine} {index bank : Nat} (h : s.Keeps q) : (s.writeIssue k e index bank).2.Keeps q :=
  .ite h.modStamp.faultAt h.modStamp

theorem State.Keeps.writeDone {k bank : Nat} (h : s.Keeps q) : (s.writeDone k bank).Keeps q := h.modStamp

theorem State.Keeps.lateWriters {k bank : Nat} (h : s.Keeps q) : (s.lateWriters k bank).Keeps q := by
  unfold State.lateWriters
  extract_lets _ _ _ s₁ s₂
  have hs₁ : s₁.Keeps q := by
    unfold s₁
    refine .foldl h fun h' => ?_
    split
    · exact h'.faultAt
    · exact h'
  have hs₂ : s₂.Keeps q := hs₁.foldl fun h' => h'.faultAt
  exact hs₂.modCore

theorem State.Keeps.readFirst {k : Nat} {e : Engine} {index bank : Nat} {one : Bool} {quiet : Bool} (h : s.Keeps q) :
    (s.readFirst k e index bank one quiet).2.Keeps q := .ite (State.Keeps.ite h.modStamp.faultAt h.modStamp).lateWriters <|
      .ite h.modStamp.faultAt h.modStamp

theorem State.Keeps.readLast {k bank : Nat} (h : s.Keeps q) : (s.readLast k bank).Keeps q := h.modStamp

theorem State.Keeps.issueLoad {k w : Nat} {o : Owed} {skipped : Bool} (h : s.Keeps q) : (s.issueLoad k w o skipped).Keeps q :=
  (State.Keeps.ite h.faultCore h).setReady.modCore

theorem State.Keeps.readTile {k line n : Nat} (h : s.Keeps q) : (s.readTile k line n).2.2.Keeps q := by
  induction n generalizing s line with
  | zero => exact h
  | succ n ih => exact ih h.readStockLine

theorem execTloadComplete_keeps {k : Nat} (h : s.Keeps q) : OutKeeps q (execTloadComplete k s) := by
  unfold execTloadComplete
  split
  · exact h
  · refine .complete (.modCore ?_)
    split
    · exact (State.Keeps.ite₃ h.advance h.advance.readTile).faultCore
    · exact .ite₃ h.advance h.advance.readTile

theorem State.Keeps.issueMma {k w : Nat} {o : Owed} {skipped : Bool} (h : s.Keeps q) : (s.issueMma k w o skipped).Keeps q := by
  unfold State.issueMma
  extract_lets _ _ inc x refusal s₁ _ y _ _ _ _ _ s₃
  have hx : x.2.Keeps q := by
    unfold x
    clear_value inc
    split
    · exact h.noteSkip
    · exact h
  have hs₁ : s₁.Keeps q := by
    unfold s₁
    clear_value refusal
    split
    · exact hx.faultAt
    · exact hx
  have hy : y.2.Keeps q := hs₁.writeIssue
  have hs₃ : s₃.Keeps q := .ite hy hy.fetchDue
  exact hs₃.setReady.modCore

theorem execMmaRowEntry_keeps {k : Nat} (h : s.Keeps q) : OutKeeps q (execMmaRowEntry k s) := by
  unfold execMmaRowEntry
  split
  · exact h
  · extract_lets s₁ _ _ _ _ _ _ _ free _ _ _ _ _ _ _ _ _ _ _ _ _ s₃
    have hs₁ : s₁.Keeps q := h.advance.fetchDue
    have hfree : free.2.Keeps q := .ite₂ hs₁.spoilAll hs₁
    have hs₃ : s₃.Keeps q := .ite hfree.faultAt.modCore hfree
    exact hs₃.modCore

theorem execMmaRowWrite_keeps {k : Nat} (h : s.Keeps q) : OutKeeps q (execMmaRowWrite k s) := by
  unfold execMmaRowWrite
  split
  · exact h
  · extract_lets s₁
    have hs₁ : s₁.Keeps q := h.advance
    split
    · exact h
    · exact hs₁.putAccRow.modCore

theorem execMmaComplete_keeps {k : Nat} (h : s.Keeps q) : OutKeeps q (execMmaComplete k s) := by
  unfold execMmaComplete
  split
  · exact h
  · exact .ite (State.Keeps.ite h.advance.poisonRows h.advance).modCore.writeDone.binDone.complete h

/-! ## DX -/

theorem State.Keeps.issueDx {k : Nat} {o : DxOp} {skipped : Bool} (h : s.Keeps q) : (s.issueDx k o skipped).Keeps q := by
  unfold State.issueDx
  extract_lets code s₁ _ st _ _ s₃
  have hs₁ : s₁.Keeps q := by
    unfold s₁
    clear_value code
    split
    · exact h.faultAt
    · exact h
  have hst : st.2.Keeps q := .ite₂ hs₁.writeIssue hs₁
  have hs₃ : s₃.Keeps q := .ite hst (.ite hst.modCore (.ite hst.modCore hst))
  exact hs₃.setReady.modCore

theorem State.Keeps.takePort {k due : Nat} (h : s.Keeps q) : (s.takePort k due).2.Keeps q := .ite₂ h h.advance.modCore

theorem State.Keeps.dxSlot {k : Nat} {o : DxOp} {write : Bool} (h : s.Keeps q) : (s.dxSlot k o write).2.Keeps q := by
  unfold State.dxSlot
  split
  · exact .ite h.faultAt h
  · exact h

theorem State.Keeps.readStockLines {k line n : Nat} (h : s.Keeps q) : (s.readStockLines k line n).2.Keeps q := by
  induction n generalizing s line with
  | zero => exact h
  | succ n ih => exact ih h.readStockLine

theorem State.Keeps.readDxLine {k line : Nat} {stock : Bool} (h : s.Keeps q) : (s.readDxLine k line stock).2.Keeps q :=
  .ite₂ h.readStockLine h.readLine

theorem State.Keeps.copyRead {k : Nat} {o : DxOp} {l : List Nat} (h : s.Keeps q) : (s.copyRead k o l).2.Keeps q := by
  induction l generalizing s with
  | nil => exact h
  | cons a l ih =>
    unfold State.copyRead
    extract_lets a₁ t
    have ha₁ : a₁.2.Keeps q := by
      unfold a₁
      split
      · exact h
      · exact h.readDxLine
    have ht : t.2.Keeps q := ih ha₁
    exact ht

theorem State.Keeps.copyKeep {k : Nat} {o : DxOp} {l : List Nat} (h : s.Keeps q) : (s.copyKeep k o l).2.Keeps q := by
  induction l with
  | nil => exact h
  | cons a l ih => exact .ite₂ ih.readDxLine ih

theorem State.Keeps.readUnit {k due : Nat} {o : DxOp} (h : s.Keeps q) : (s.readUnit k due o).Keeps q := by
  unfold State.readUnit
  extract_lets _ w _ x _ _ _ _ _ rb _ d _ _ _ s₅
  have hw : w.2.Keeps q := .ite₂ h.takePort <| .ite₂ h.takeBanks h
  have hx : x.2.Keeps q := .ite₂ hw.dxSlot hw
  have hrb : rb.2.Keeps q := .ite₂ hx.readFirst hx
  have hd : d.2.Keeps q := by
    unfold d
    split
    · exact hrb.copyRead
    · exact hrb.readStockLines
    · exact .ite₂ hrb hrb.readLines
    · exact .ite₂ hrb hrb.readLines
    · exact hrb
  have hs₅ : s₅.Keeps q := .ite hd.readLast hd
  exact hs₅.modCore

theorem State.Keeps.putLines {k line : Nat} {l : List (List (PWord 32))} (h : s.Keeps q) : (s.putLines k line l).Keeps q := by
  induction l generalizing s line with
  | nil => exact h
  | cons a l ih => exact ih h.putWords

theorem State.Keeps.putStockLines {k line : Nat} {l : List (List (PWord 32))} (h : s.Keeps q) : (s.putStockLines k line l).Keeps q := by
  induction l generalizing s line with
  | nil => exact h
  | cons a l ih => exact ih h.putStockLine

theorem State.Keeps.putRows {k : Nat} {o : DxOp} {row : Nat} {ws : List (PWord 32)} {n : Nat} (h : s.Keeps q) :
    (s.putRows k o row ws n).2.2.Keeps q := by
  induction n generalizing s row ws with
  | zero => exact h
  | succ n ih => exact .ite₃ h <| ih h.putAccRow

theorem State.Keeps.writeUnit {k due : Nat} {o : DxOp} (h : s.Keeps q) : (s.writeUnit k due o).Keeps q := by
  unfold State.writeUnit
  extract_lets _ w _ _ x _ _ _ _ keep _ _ r
  have hw : w.2.Keeps q := .ite₂ h.takePort <| .ite₂ h.takeBanks h
  have hx : x.2.Keeps q := .ite₂ hw.dxSlot hw
  have hkeep : keep.2.Keeps q := .ite₂ hx.copyKeep hx
  have hr : r.2.2.Keeps q := .ite₃ hkeep.putRows <| .ite hkeep <| .ite hkeep.putStockLines hkeep.putLines
  exact hr.modCore

theorem execDxUnitTransfer_keeps {k : Nat} (h : s.Keeps q) : OutKeeps q (execDxUnitTransfer k s) := by
  unfold execDxUnitTransfer
  split
  · exact h
  · exact .ite h.advance.writeUnit <| .ite h h.advance.readUnit

theorem State.Keeps.poisonDest {k : Nat} {o : DxOp} (h : s.Keeps q) : (s.poisonDest k o).Keeps q :=
  .ite h.poisonRows <| .ite h.poisonLines <| .ite h h.poisonLines

theorem execDxComplete_keeps {k : Nat} (h : s.Keeps q) : OutKeeps q (execDxComplete k s) := by
  unfold execDxComplete
  split
  · exact h
  · extract_lets s₁ s₂ s₃ s₄
    have hs₁ : s₁.Keeps q := h.advance
    have hs₂ : s₂.Keeps q := .ite hs₁.poisonDest hs₁
    have hs₃ : s₃.Keeps q := hs₂.modCore
    have hs₄ : s₄.Keeps q := .ite hs₃.writeDone hs₃
    exact hs₄.binDone.complete

/-! ## SX -/

theorem State.Keeps.setG {k r : Nat} {v : PWord 32} {ready : Nat} (h : s.Keeps q) : (s.setG k r v ready).Keeps q := h.modCore

theorem State.Keeps.claimG {k r : Nat} (h : s.Keeps q) : (s.claimG k r).Keeps q := .ite h h.modCore

theorem State.Keeps.poisonUse {k : Nat} {o : Owed} {r : Nat} (h : s.Keeps q) : (s.poisonUse k o r).Keeps q := h.faultAt.abandon

theorem State.Keeps.guardUse {k : Nat} {o : Owed} {rs : List Nat} {f : State → State} (h : s.Keeps q)
    (hf : ∀ {s : State}, s.Keeps q → (f s).Keeps q) :
    (s.guardUse k o rs f).Keeps q := by
  unfold State.guardUse
  split
  · exact h.poisonUse
  · exact hf h

theorem State.Keeps.opArith {k func lat : Nat} {f : Nat → Nat → Nat} (h : s.Keeps q) : (s.opArith k func lat f).Keeps q :=
  h.issueSx fun h' => .ite h'.sxDone h'.setG.sxDone

theorem State.Keeps.immArith {k op : Nat} {f : Nat → Nat → Nat} (h : s.Keeps q) : (s.immArith k op f).Keeps q :=
  h.issueSx fun h' => .ite h'.sxDone h'.setG.sxDone

theorem State.Keeps.sxJump {k : Nat} {o : Owed} {target : Int} {before : State → State} (h : s.Keeps q)
    (hbefore : ∀ {s : State}, s.Keeps q → (before s).Keeps q) :
    (s.sxJump k o target before).Keeps q := .ite (hbefore h).setReady.modStream.complete h.faultAt.abandon

theorem State.Keeps.branch {k op : Nat} {p : Nat → Nat → Bool} (h : s.Keeps q) : (s.branch k op p).Keeps q :=
  h.issueSx fun h' => .ite h'.sxDone <| h'.guardUse fun h'' => .ite (h''.sxJump fun h''' => h''') h''.sxDone

theorem execDbnz_keeps {k : Nat} (h : s.Keeps q) : OutKeeps q (execDbnz k s) := by
  unfold execDbnz
  exact h.issueSx fun h' => .ite h'.sxDone <| .ite h'.noteSkip.sxDone <| h'.guardUse fun h'' => .ite h''.setG.sxDone <|
    h''.sxJump fun h''' => h'''.setG

theorem State.Keeps.startAcc {k : Nat} {o : Owed} {a : SxAcc} (h : s.Keeps q) : (s.startAcc k o a).Keeps q :=
  h.claimG.claimG.setReady.passIndex.modCore

theorem State.Keeps.startMem {k : Nat} {o : Owed} {w : Nat} {a : SxAcc} (h : s.Keeps q) : (s.startMem k o w a).Keeps q := by
  unfold State.startMem
  extract_lets
  split
  · exact h.faultAt.startAcc
  · exact h.startAcc

theorem State.Keeps.deliver {k : Nat} {a : SxAcc} {ws : List (PWord 32)} (h : s.Keeps q) : (s.deliver k a ws).Keeps q := h.setG.setG

theorem State.Keeps.doLoad {k : Nat} {a : SxAcc} {n : Nat} (h : s.Keeps q) : (s.doLoad k a n).Keeps q :=
  .ite h.takeBanks.deliver h.takeBanks.readWords.deliver

theorem State.Keeps.doStore {k : Nat} {a : SxAcc} (h : s.Keeps q) : (s.doStore k a).Keeps q := by
  unfold State.doStore
  extract_lets _ s₁
  have hs₁ : s₁.Keeps q := h.takeBanks
  split
  · exact hs₁.faultAt
  · split
    · exact .ite hs₁.faultAt hs₁.release
    · exact hs₁.putWords

theorem State.Keeps.doCrd {k : Nat} {a : SxAcc} (h : s.Keeps q) : (s.doCrd k a).Keeps q :=
  .ite h.faultAt.deliver <| .ite h.faultAt.deliver h.coreRead.deliver

theorem State.Keeps.doCwr {k : Nat} {a : SxAcc} (h : s.Keeps q) : (s.doCwr k a).Keeps q :=
  .ite h.faultAt <| .ite (.ite h h.coreWrite) <| .ite h.faultAt h

theorem State.Keeps.doXlat {k : Nat} {a : SxAcc} (h : s.Keeps q) : (s.doXlat k a).Keeps q := .ite h.deliver h.faultAt.deliver

theorem State.Keeps.doAcc {k : Nat} {a : SxAcc} (h : s.Keeps q) : (s.doAcc k a).Keeps q := by
  unfold State.doAcc
  refine .ite h.deliver ?_
  split
  · exact h.doLoad
  · exact h.doLoad
  · exact h.doStore
  · exact h.doCrd
  · exact h.doCwr
  · exact h.doXlat
  · exact h.deliver

theorem State.Keeps.startWait {k : Nat} {o : Owed} {x : SxWait} (h : s.Keeps q) : (s.startWait k o x).Keeps q := h.claimG.passIndex.modCore

theorem State.Keeps.putWait {k : Nat} {x : SxWait} (h : s.Keeps q) : (s.putWait k x).Keeps q := h.modCore

theorem State.Keeps.endWait {k : Nat} {x : SxWait} (h : s.Keeps q) : (s.endWait k x).Keeps q := h.modCore.modStream.setReady.complete

theorem execAwaitComplete_keeps {k : Nat} (h : s.Keeps q) : OutKeeps q (execAwaitComplete k s) := by
  unfold execAwaitComplete
  split
  · exact h
  · extract_lets _ s₁ s₂ s₃ _ _ r s₄
    have hs₁ : s₁.Keeps q := h.advance
    have hs₂ : s₂.Keeps q := .ite hs₁.advance hs₁
    have hs₃ : s₃.Keeps q := by
      unfold s₃
      exact hs₂.takeBanks
    have hs₄ : s₄.Keeps q := by
      unfold s₄ r
      exact hs₃.readStatus.putWait
    exact .ite h (.ite hs₁.endWait (.ite hs₄.endWait (.ite hs₄.faultAt.endWait (.ite hs₄ hs₄.modStream.putWait))))

theorem execHopen_keeps {k : Nat} (h : s.Keeps q) : OutKeeps q (execHopen k s) := by
  unfold execHopen
  refine .issueSx h (fun h' => ?_)
  refine .ite h'.startAcc <| .guardUse h' (fun h' => ?_)
  extract_lets
  split
  · exact h'.faultAt.startWait
  · exact h'.startWait

theorem State.Keeps.hopenRead {k : Nat} {x : SxWait} (h : s.Keeps q) : (s.hopenRead k x).Keeps q := h.advance.takeBanks.readLine.putWait

theorem State.Keeps.hopenWrite {k : Nat} {x : SxWait} (h : s.Keeps q) : (s.hopenWrite k x).Keeps q :=
  (State.Keeps.ite h.advance.takeBanks h.advance).openEntry.putWait

theorem execHopenComplete_keeps {k : Nat} (h : s.Keeps q) : OutKeeps q (execHopenComplete k s) := by
  unfold execHopenComplete
  split
  · exact h
  · exact .ite h h.advance.setG.endWait

theorem execSxAccess_keeps {k : Nat} (h : s.Keeps q) : OutKeeps q (execSxAccess k s) := by
  unfold execSxAccess
  split
  · exact h.advance.doAcc.modCore.complete
  · refine .ite h ?_
    split
    · exact h.hopenRead
    · exact h.hopenWrite
    · exact h
  · exact h

theorem execHcloseComplete_keeps {k : Nat} (h : s.Keeps q) : OutKeeps q (execHcloseComplete k s) := by
  unfold execHcloseComplete
  split
  · exact h
  · extract_lets s₁ r
    have hs₁ : s₁.Keeps q := h.advance
    have hr : r.2.Keeps q := hs₁.closeHandle
    refine .ite h ?_
    split
    · exact hs₁.faultAt.endWait
    · exact hr.endWait

theorem execArrivalWatchdog_keeps {k : Nat} {e : Engine} (h : s.Keeps q) : OutKeeps q (execArrivalWatchdog k e s) := by
  unfold execArrivalWatchdog
  extract_lets
  refine .ite h ?_
  split
  · split
    · split
      · exact h.advanceTick.faultAt.endNwait
      · exact h
    · exact h
  · split
    · split
      · exact h.advanceTick.faultAt.endWait
      · exact h
    · exact h
  · exact h

/-! ## VX -/

theorem State.Keeps.issueTab {k : Nat} {tab : Bool} {slot line n : Nat} {o : Owed} {skipped : Bool} (h : s.Keeps q) :
    (s.issueTab k tab slot line n o skipped).Keeps q := by
  unfold State.issueTab
  refine .modCore (.setReady (.ite₂ (.spoilAll ?_) ?_))
  · split
    · exact h.fetchBefore.faultAt
    · exact h.fetchBefore
  · split
    · exact h.fetchBefore.faultAt
    · exact h.fetchBefore

theorem State.Keeps.recordCheck {k : Nat} {o : Owed} {x : Option (Nat × Nat × Bool)} (h : s.Keeps q) : (s.recordCheck k o x).2.Keeps q := by
  unfold State.recordCheck
  split
  · exact h
  · exact .ite₂ h.noteSkip h.faultAt

theorem State.Keeps.issueVrun {k w : Nat} {o : Owed} {skipped : Bool} (h : s.Keeps q) : (s.issueVrun k w o skipped).Keeps q := by
  unfold State.issueVrun
  extract_lets s₁ _ _ _ _ _ x
  have hs₁ : s₁.Keeps q := h.fetchBefore
  have hx : x.2.Keeps q := .ite₂ hs₁ hs₁.recordCheck
  exact .ite hx.setReady.modCore hx.setReady.modCore

theorem State.Keeps.lateChecks {k slot due n : Nat} (h : s.Keeps q) : (s.lateChecks k slot due n).Keeps q := by
  induction n generalizing s with
  | zero => exact h
  | succ n ih =>
    unfold State.lateChecks
    split
    · exact h
    · exact .ite (ih h.advance.recordCheck.modRuns) h

theorem execTableLoadComplete_keeps {k : Nat} (h : s.Keeps q) : OutKeeps q (execTableLoadComplete k s) := by
  unfold execTableLoadComplete
  extract_lets s₁
  have hs₁ : s₁.Keeps q := h.toCycle
  split
  · exact h
  · exact .ite hs₁.modCore.complete hs₁.modCore.complete.lateChecks

theorem State.Keeps.vxLine {k : Nat} {o : VrunOp} {what : LineUse} {line : Int} (h : s.Keeps q) : (s.vxLine k o what line).2.Keeps q := by
  unfold State.vxLine
  split
  · exact h
  · exact h.fetchLine

theorem State.Keeps.vxVector {k : Nat} {o : VrunOp} {what : LineUse} {f line slot j : Nat} (h : s.Keeps q) :
    (s.vxVector k o what f line slot j).2.Keeps q := .ite₂ h.vxLine.vxLine h.vxLine

theorem State.Keeps.vxFault {k : Nat} {o : VrunOp} {code detail : Nat} (h : s.Keeps q) : (s.vxFault k o code detail).Keeps q := .ite h h.faultAt

theorem State.Keeps.noteOor {k : Nat} {o : VrunOp} {a : ChainAcc} (h : s.Keeps q) : (s.noteOor k o a).Keeps q := by
  unfold State.noteOor
  split
  · exact .ite h h.vxFault
  · exact h

theorem State.Keeps.toEntry {k : Nat} (h : s.Keeps q) : (s.toEntry k).Keeps q := h.toCycle

theorem State.Keeps.enterVector {k : Nat} {o : VrunOp} (h : s.Keeps q) : (s.enterVector k o).Keeps q := by
  unfold State.enterVector
  extract_lets s₁ _ _ _ _ failed _ rd _ _ scaled scl _ _ x y src _ z str _ _ _ _ _ _ s₂ s₃
  have hs₁ : s₁.Keeps q := h.toEntry
  clear_value s₁
  have hrd : rd.2.Keeps q := by
    unfold rd
    split
    · exact hs₁.readFirst
    · exact hs₁
  have hscl : scl.2.Keeps q := by
    unfold scl
    clear_value rd
    split
    · exact hrd.vxLine
    · exact hrd
  have hsrc : src.2.Keeps q := by
    unfold src
    clear_value scl
    split
    · exact hscl
    · split
      · exact hscl.spoilAll
      · exact hscl.vxVector
  have hstr : str.2.Keeps q := by
    unfold str
    clear_value src
    split
    · exact hsrc.vxVector
    · exact hsrc
  clear_value str
  have hs₂ : s₂.Keeps q := hstr.noteOor
  have hs₃ : s₃.Keeps q := .ite hs₂.readLast hs₂
  clear_value s₃
  exact hs₃.modCore

theorem execVrunVectorEntry_keeps {k : Nat} (h : s.Keeps q) : OutKeeps q (execVrunVectorEntry k s) := by
  unfold execVrunVectorEntry
  split
  · exact h
  · exact .ite h h.enterVector

theorem State.Keeps.vxWrite {k : Nat} {o : VrunOp} {line : Int} {ws : List (Nat × PWord 32)} (h : s.Keeps q) : (s.vxWrite k o line ws).Keeps q := by
  unfold State.vxWrite
  split
  · exact h.vxFault
  · dsimp only
    split
    · exact h.vxFault
    · exact h.modCore.putWords

theorem State.Keeps.writeNext {k : Nat} {o : VrunOp} {scale : Bool} {due : Nat} {line : Int} {ws : List (Nat × PWord 32)} (h : s.Keeps q) :
    (s.writeNext k o scale due line ws).Keeps q := by
  unfold State.writeNext
  extract_lets _ s₁ _ _ _ s₂ _ _ _ _ s₃ _ s₄
  have hs₁ : s₁.Keeps q := h.advance
  have hs₂ : s₂.Keeps q := hs₁.takeBanks
  have hs₃ : s₃.Keeps q := .ite hs₂.vxFault hs₂
  have hs₄ : s₄.Keeps q := .ite (.ite hs₃ hs₃.putWords) hs₃.vxWrite
  exact hs₄.modCore

theorem execVrunLineWrite_keeps {k : Nat} (h : s.Keeps q) : OutKeeps q (execVrunLineWrite k s) := by
  unfold execVrunLineWrite
  split
  · exact h
  · split
    · exact h
    · exact h.writeNext

theorem State.Keeps.poisonSpan {k : Nat} {w : Int} {n x : Nat} (h : s.Keeps q) : (s.poisonSpan k w n x).Keeps q := by
  induction x generalizing s w n with
  | zero => exact h
  | succ n ih => exact .ite h <| ih (.ite h h.poisonWords)

theorem State.Keeps.poisonFootprint {k : Nat} {o : VrunOp} (h : s.Keeps q) : (s.poisonFootprint k o).Keeps q := by
  unfold State.poisonFootprint
  extract_lets _ _ _ _ s₁ s₂
  have hs₁ : s₁.Keeps q := .ite h h.poisonSpan
  have hs₂ : s₂.Keeps q := by
    unfold s₂
    split
    · exact hs₁
    · exact hs₁.poisonSpan
  exact .ite hs₂.poisonSpan hs₂

theorem execVrunComplete_keeps {k : Nat} (h : s.Keeps q) : OutKeeps q (execVrunComplete k s) := by
  unfold execVrunComplete
  split
  · exact h
  · exact (State.Keeps.ite h.advance.poisonFootprint h.advance).modRuns.binDone.binDone.complete

/-! ## Jobs -/

theorem State.Keeps.powerFault {code loc detail : Nat} (h : s.Keeps q) : (s.powerFault code loc detail).Keeps q := h.record

theorem State.Keeps.groupFails {g : Nat} (h : s.Keeps q) : (s.groupFails g).Keeps q := h.leaveIdle.other.powerFault

theorem State.Keeps.powerGroup {g : Nat} {ok : Bool} (h : s.Keeps q) : (s.powerGroup g ok).Keeps q :=
  .ite h <| .ite h.groupFails (h.foldl fun h' => h'.modCore).groupOn

theorem State.Keeps.clearOffReq {g : Nat} (h : s.Keeps q) : (s.clearOffReq g).Keeps q := h.other

theorem State.Keeps.barRefuse {code : Nat} (h : s.Keeps q) : (s.barRefuse code).2.Keeps q := h.hubFault

theorem State.Keeps.attach (h : s.Keeps q) : s.attach.Keeps q := by
  unfold State.attach
  extract_lets s₁ s₂ _ _ _ s₃ s₄ s₅
  have hs₁ : s₁.Keeps q := h.foldl fun h' => h'.wakeCore.modCore
  have hs₂ : s₂.Keeps q := hs₁.modBar
  clear_value s₂
  have hs₃ : s₃.Keeps q := hs₂
  have hs₅ : s₅.Keeps q := hs₃.modHost.journalOpen.enterHeld
  clear_value s₅
  exact .ite hs₅.launchWave hs₅

theorem State.Keeps.askAttach {bad : List Nat} (h : s.Keeps q) : (s.askAttach bad).2.Keeps q := by
  unfold State.askAttach
  extract_lets _ s₁
  have hs₁ : s₁.Keeps q := h.foldl fun h' => h'.clearOffReq.powerGroup
  clear_value s₁
  refine .ite₂ h.barRefuse (.ite₂ h.barRefuse (.ite₂ hs₁.barRefuse ?_))
  dsimp only
  exact hs₁.attach

theorem State.Keeps.leaveJob {reason : Nat} (h : s.Keeps q) : (s.leaveJob reason).Keeps q :=
  (h.journalClose.eachAttached fun h' => h'.modCore).modBar.endRuns.modHost

theorem State.Keeps.askDetach (h : s.Keeps q) : s.askDetach.2.Keeps q := .ite₂ h.leaveJob h.barRefuse

theorem State.Keeps.spoilEach {ok : Core → Int → Bool} {k : Nat} {w : Int} {n x : Nat} (h : s.Keeps q) : (State.spoilEach ok s k w n x).Keeps q := by
  induction x generalizing s w n with
  | zero => exact h
  | succ n ih => exact .ite h <| ih (.ite h.modCore.storeWords h)

theorem State.Keeps.spoilPlain {k : Nat} {w : Int} {n : Nat} (h : s.Keeps q) : (s.spoilPlain k w n).Keeps q := h.spoilEach

theorem State.Keeps.spoilBin {k : Nat} {r : BinRef} {b : BinSlot} {j n : Nat} (h : s.Keeps q) : (s.spoilBin k r b j n).Keeps q := .ite h h.spoilEach

theorem State.Keeps.spoilStock {k line n : Nat} (h : s.Keeps q) : (s.spoilStock k line n).Keeps q := by
  induction n generalizing s line with
  | zero => exact h
  | succ n ih => exact ih (.ite h.storeStockLine h)

theorem State.Keeps.spoilMx {k : Nat} {x : MxOp} (h : s.Keeps q) : (s.spoilMx k x).Keeps q := by
  unfold State.spoilMx
  split
  · exact h.modCore
  · exact h.poisonRows

theorem State.Keeps.spoilRun {k : Nat} {o : VrunOp} (h : s.Keeps q) : (s.spoilRun k o).Keeps q := by
  unfold State.spoilRun
  extract_lets _ _ _ _ _ _ s₁ _ s₂
  have hs₁ : s₁.Keeps q := by
    unfold s₁
    split
    · exact h.spoilPlain
    · exact .ite h h.spoilEach
  have hs₂ : s₂.Keeps q := by
    unfold s₂
    split
    · exact hs₁
    · exact hs₁.spoilPlain
  exact .ite h.poisonFootprint <| .ite hs₂.spoilPlain hs₂

theorem State.Keeps.spoilTab {k : Nat} {x : TabOp} (h : s.Keeps q) : (s.spoilTab k x).Keeps q := h.modCore

theorem State.Keeps.spoilDx {k : Nat} {o : DxOp} (h : s.Keeps q) : (s.spoilDx k o).Keeps q := by
  unfold State.spoilDx
  extract_lets
  refine .ite h.poisonDest <| .ite h.poisonRows <| .ite h.spoilStock <| .ite ?_ h
  split
  · exact h.spoilBin
  · exact h.storeWords

theorem State.Keeps.spoilReq {k : Nat} {o : NxOp} {j n : Nat} (h : s.Keeps q) : (s.spoilReq k o j n).Keeps q := by
  unfold State.spoilReq
  split
  · exact h.spoilBin
  · exact h.spoilPlain

theorem State.Keeps.spoilNx {k : Nat} {o : NxOp} (h : s.Keeps q) : (s.spoilNx k o).Keeps q :=
  .ite h <| .ite (.ite h.poisonLines h) (h.foldl fun h' => h'.spoilReq).spoilReq

theorem State.Keeps.spoilAcc {k : Nat} {a : SxAcc} (h : s.Keeps q) : (s.spoilAcc k a).Keeps q := by
  unfold State.spoilAcc
  extract_lets s₁
  have hs₁ : s₁.Keeps q := h.foldl fun h' => .ite h' h'.fresh.setG
  refine .ite hs₁ ?_
  split
  · exact .ite hs₁.storeWords hs₁
  · exact .ite hs₁.fresh.coreWrite hs₁
  · exact hs₁

theorem State.Keeps.spoilWait {k : Nat} {x : SxWait} (h : s.Keeps q) : (s.spoilWait k x).Keeps q :=
  .ite (State.Keeps.ite h h.fresh.setG).storeWords <| .ite h h.fresh.setG

theorem State.Keeps.abortCore {k : Nat} (h : s.Keeps q) : (s.abortCore k).Keeps q := by
  unfold State.abortCore
  extract_lets _ s₁ s₂ s₃ s₄ s₅ s₆ s₇
  have hs₁ : s₁.Keeps q := h.foldl fun h' => h'.spoilMx
  have hs₂ : s₂.Keeps q := hs₁.foldl fun h' => h'.spoilRun
  have hs₃ : s₃.Keeps q := hs₂.foldl fun h' => h'.spoilTab
  have hs₄ : s₄.Keeps q := hs₃.foldl fun h' => h'.spoilDx
  have hs₅ : s₅.Keeps q := hs₄.foldl fun h' => h'.spoilNx
  have hs₆ : s₆.Keeps q := hs₅.foldl fun h' => h'.spoilAcc
  have hs₇ : s₇.Keeps q := by
    unfold s₇
    split
    · exact hs₆
    · exact hs₆.spoilWait
  exact hs₇.modCore

theorem State.Keeps.askAbort (h : s.Keeps q) : s.askAbort.2.Keeps q := .ite₂ h.barRefuse (h.eachAttached fun h' => h'.abortCore).hubFault.leaveJob

theorem State.Keeps.restart {kind : Nat} (h : s.Keeps q) : (s.restart kind).Keeps q := h.modBar.launchWave

theorem State.Keeps.askRestart (h : s.Keeps q) : s.askRestart.2.Keeps q := .ite₂ h.restart h.barRefuse

theorem State.Keeps.askRestartFail (h : s.Keeps q) : s.askRestartFail.2.Keeps q := .ite₂ h.modBar.restart h.barRefuse

theorem State.Keeps.ctlStep {v : Word32} {b : Nat} {f : State → WriteRes × State} {r : WriteRes × State} (h : r.2.Keeps q)
    (hf : ∀ {s : State}, s.Keeps q → (f s).2.Keeps q) : (ctlStep v b f r).2.Keeps q :=
  .ite₂ (hf h) h

theorem State.Keeps.askHold (h : s.Keeps q) : s.askHold.Keeps q := .ite h <| .ite h.modBar h.launchWave

theorem State.Keeps.ctlSteps {v : Word32} {bad : List Nat} (h : s.Keeps q) : (s.ctlSteps v bad).2.Keeps q :=
  have hattached : (Machine.ctlStep v 2 (fun s => s.askAttach bad) (.done, s)).2.Keeps q := .ctlStep h fun h' => h'.askAttach
  .ctlStep (.ctlStep (.ctlStep (.ctlStep hattached fun h' => h'.askDetach) fun h' => h'.askAbort) fun h' => h'.askRestart) fun h' => h'.askRestartFail

theorem State.Keeps.writeBarCtrl {v : Word32} {bad : List Nat} (h : s.Keeps q) : (s.writeBarCtrl v bad).2.Keeps q := by
  unfold State.writeBarCtrl
  extract_lets t r
  have ht : t.Keeps q := h.modBar
  have hr : r.2.Keeps q := ht.ctlSteps
  refine .ite₂ ht.askHold ?_
  split
  · exact .ite₂ h.barRefuse hr.modBar
  · exact hr

theorem State.Keeps.writeBar {o : Nat} {v : Word32} (h : s.Keeps q) : (s.writeBar o v).2.Keeps q := by
  unfold State.writeBar
  extract_lets
  split
  · exact .ite₂ h.modBar h.barRefuse
  · exact .ite₂ h.writeBarCtrl <| .ite₂ h.modBar h

/-! ## Ethernet and plane B -/

theorem State.Keeps.modEth {e : Nat} {f : EthPort → EthPort} (h : s.Keeps q) : (s.modEth e f).Keeps q := h.modHost

theorem State.Keeps.ethDrop {e : Nat} (h : s.Keeps q) : (s.ethDrop e).Keeps q := h.modEth

theorem State.Keeps.answer {e kind : Nat} {data : List Byte} (h : s.Keeps q) : (s.answer e kind data).Keeps q := h.modHost

theorem State.Keeps.ownFrame {e : Nat} {own : EthPort → Bool} {kind : Nat} {data : EthPort → List Byte} (h : s.Keeps q) :
    (s.ownFrame e own kind data).Keeps q := .ite h <| .ite h.answer h.ethDrop

theorem State.Keeps.pausePort {e u : Nat} (h : s.Keeps q) : (s.pausePort e u).Keeps q := h.modHost

theorem State.Keeps.opsFail {l : List PlbOp} (h : s.Keeps q) : (s.opsFail l).Keeps q := by
  induction l generalizing s with
  | nil => exact h
  | cons o l ih =>
    unfold State.opsFail
    refine ih ?_
    split
    · exact h.fetchReply
    · exact h

theorem State.Keeps.connError {c : Nat} (h : s.Keeps q) : (s.connError c).Keeps q := h.modConn.record.opsFail.exportFailed

theorem State.Keeps.ethLost {e : Nat} (h : s.Keeps q) : (s.ethLost e).Keeps q := h.modEth.record.foldl fun h' => h'.connError

theorem State.Keeps.ethFound {e : Nat} (h : s.Keeps q) : (s.ethFound e).Keeps q :=
  (State.Keeps.ite h.modEth.record h.modEth).foldl fun h' => h'.modConn

theorem execRoceResponse_keeps {c : Nat} {ok : Bool} {data : List (BitVec 8)} (h : s.Keeps q) : OutKeeps q (execRoceResponse c ok data s) := by
  unfold execRoceResponse
  extract_lets
  refine .ite (.ite h.ethDrop h) ?_
  split
  · extract_lets s₁
    have hs₁ : s₁.Keeps q := h.modConn
    refine .ite h ?_
    split
    · exact hs₁.fetchReply
    · exact .ite hs₁.consume hs₁.exportFailed
    · exact .ite hs₁ hs₁.exportFailed
  · exact h

theorem State.Keeps.refuseDesc (h : s.Keeps q) : s.refuseDesc.2.Keeps q := h.hubFault

theorem State.Keeps.writePlb {o : Nat} {v : Word32} (h : s.Keeps q) : (s.writePlb o v).2.Keeps q :=
  .ite₂ (.ite₂ (.ite h.modConn.opsFail.exportFailed h.modConn.opsFail) h.refuseDesc) h.modConn

theorem State.Keeps.writeEthPort {e o : Nat} {v : Word32} (h : s.Keeps q) : (s.writeEthPort e o v).2.Keeps q := by
  unfold State.writeEthPort
  extract_lets s'
  have hs' : s'.Keeps q := h.modEth
  exact .ite₂ (.ite hs'.ethLost hs') <| .ite₂ h.modEth <| .ite₂ h.modEth <| .ite₂ h.modEth <| .ite₂ h.modEth <| .ite₂ h.modEth h

theorem State.Keeps.writeDesc {o : Nat} {v : Word32} (h : s.Keeps q) : (s.writeDesc o v).2.Keeps q := .ite₂ h.refuseDesc <| .ite₂ h.modHost h.modHost

theorem State.Keeps.rewindOutputs (h : s.Keeps q) : s.rewindOutputs.Keeps q := h.modHost

theorem State.Keeps.writeHtCtrl {v : Word32} (h : s.Keeps q) : (s.writeHtCtrl v).Keeps q := .ite h.modHost.rewindOutputs h.modHost

theorem State.Keeps.writeEth {o : Nat} {v : Word32} (h : s.Keeps q) : (s.writeEth o v).2.Keeps q :=
  .ite₂ h.writeEthPort <| .ite₂ h.writeHtCtrl <| .ite₂ h.writeDesc <| .ite₂ h.writePlb h

/-! ## Clocks, power and telemetry -/

theorem State.Keeps.modClk {f : Clocks → Clocks} (h : s.Keeps q) : (s.modClk f).Keeps q := h.other

theorem State.Keeps.modPower {f : Power → Power} (h : s.Keeps q) : (s.modPower f).Keeps q := h.other

theorem State.Keeps.modTel {f : Telemetry → Telemetry} (h : s.Keeps q) : (s.modTel f).Keeps q := h.other

theorem State.Keeps.loseRef {r : Nat} (h : s.Keeps q) : (s.loseRef r).Keeps q :=
  .ite h <| .ite h.modClk <| .ite h.modClk.modClk.powerFault h.modClk.modClk.powerFault

theorem State.Keeps.holdLimit (h : s.Keeps q) : s.holdLimit.Keeps q := .ite h.modClk.powerFault h

theorem execRefMonitorWindow_keeps {r : Nat} {off : BitVec 16} {drift : Bool} (h : s.Keeps q) : OutKeeps q (execRefMonitorWindow r off drift s) := by
  unfold execRefMonitorWindow
  extract_lets s₁ s₂
  have hs₁ : s₁.Keeps q := h.modClk
  have hs₂ : s₂.Keeps q := .ite h <| .ite hs₁.loseRef hs₁
  exact .ite hs₂.holdLimit hs₂

theorem State.Keeps.writeClkCfg {v : Word32} (h : s.Keeps q) : (s.writeClkCfg v).Keeps q :=
  h.modClk.foldl fun h' => .ite h'.loseRef <| .ite h'.modClk h'

theorem State.Keeps.thermalEpisode {n : Nat} (h : s.Keeps q) : (s.thermalEpisode n).Keeps q := .ite h.powerFault h

theorem State.Keeps.overheat {n : Nat} (h : s.Keeps q) : (s.overheat n).Keeps q :=
  .ite h.thermalEpisode.modClk h.thermalEpisode.modClk.modClk.powerFault

theorem State.Keeps.demandEpisode {old loc cause : Nat} (h : s.Keeps q) : (s.demandEpisode old loc cause).Keeps q := .ite h.powerFault h

theorem State.Keeps.mainOff (h : s.Keeps q) : s.mainOff.Keeps q :=
  h.native.other

theorem State.Keeps.trip {cause : Nat} (h : s.Keeps q) : (s.trip cause).Keeps q := h.mainOff.other

theorem State.Keeps.leaveRange (h : s.Keeps q) : s.leaveRange.Keeps q := .ite h h.modPower.powerFault

theorem execWake_keeps {k : Nat} {ok : Bool} (h : s.Keeps q) : OutKeeps q (execWake k ok s) := by
  unfold execWake
  extract_lets
  refine .ite h ?_
  split
  · exact h.wakeCore
  · exact .ite h.wakeCore h.groupFails
  · exact .ite h h.powerGroup
  · exact h

theorem State.Keeps.groupOff {g : Nat} (h : s.Keeps q) : (s.groupOff g).Keeps q := .ite h (h.foldl fun h' => h'.modCore).modPower

theorem State.Keeps.writeOffReq {w : Nat} {v : Word32} (h : s.Keeps q) : (s.writeOffReq w v).2.Keeps q := by
  unfold State.writeOffReq
  extract_lets
  split
  · exact h.powerFault
  · exact h.modPower.foldl fun h' => h'.groupOff

theorem State.Keeps.clkLatch {o : Nat} (h : s.Keeps q) : (s.clkLatch o).Keeps q := .ite h.modClk h

theorem State.Keeps.writeClk {o : Nat} {v : Word32} (h : s.Keeps q) : (s.writeClk o v).2.Keeps q := .ite₂ h.writeClkCfg <| .ite₂ h.modClk h

theorem State.Keeps.writePower {o : Nat} {v : Word32} (h : s.Keeps q) : (s.writePower o v).2.Keeps q :=
  .ite₂ h.modPower <| .ite₂ h.modPower <| .ite₂ h.writeOffReq h

theorem State.Keeps.writeTel {o : Nat} {v : Word32} (h : s.Keeps q) : (s.writeTel o v).2.Keeps q := .ite₂ h.modTel h

/-! ## Boot and security -/

theorem State.Keeps.modSec {f : Security → Security} (h : s.Keeps q) : (s.modSec f).Keeps q := h.other

theorem State.Keeps.modBoard {f : Board → Board} (h : s.Keeps q) : (s.modBoard f).Keeps q := h.other

theorem State.Keeps.enterRomFw (h : s.Keeps q) : s.enterRomFw.Keeps q := by
  unfold State.enterRomFw
  extract_lets s₁
  have hs₁ : s₁.Keeps q := h.modSec
  split
  · exact hs₁
  · exact .ite hs₁.modSec hs₁.modSec.hubFault

theorem State.Keeps.haltFw (h : s.Keeps q) : s.haltFw.Keeps q := h.modSec.hubFault

theorem execImageCheck_keeps (h : s.Keeps q) : OutKeeps q (execImageCheck s) := by
  unfold execImageCheck
  refine .ite h ?_
  split
  · exact h.haltFw
  · exact .ite h.modSec <| .ite h.modSec.hubFault.haltFw h.modSec.hubFault

theorem State.Keeps.readOwner (h : s.Keeps q) : s.readOwner.Keeps q := by
  unfold State.readOwner
  split
  · exact h.modSec
  · exact .ite h.modSec h.modSec.hubFault

theorem State.Keeps.crossingFaults {l : List (Nat × Nat)} (h : s.Keeps q) : (s.crossingFaults l).Keeps q := by
  induction l generalizing s with
  | nil => exact h
  | cons a l ih => exact ih h.record

theorem execSelfTestComplete_keeps {failed : List Nat} {crossings : List (Nat × Nat)} {bridges : BitVec 4} {stops : Nat} (h : s.Keeps q) :
    OutKeeps q (execSelfTestComplete failed crossings bridges stops s) := by
  unfold execSelfTestComplete
  extract_lets _ s₁ s₂ s₃ _ s₄ s₅ s₆
  have hs₁ : s₁.Keeps q := h.foldl fun h' => h'.record
  have hs₂ : s₂.Keeps q := hs₁.crossingFaults
  have hs₃ : s₃.Keeps q := hs₂.modBoard
  have hs₄ : s₄.Keeps q := hs₃.other
  have hs₅ : s₅.Keeps q := hs₄.alignFrom
  have hs₆ : s₆.Keeps q := hs₅.readOwner.modSec
  exact .ite (hs₆.foldl fun h' => h'.startPort) h

theorem State.Keeps.identify {seed : List Byte} (h : s.Keeps q) : (s.identify seed).Keeps q := .ite h.other.enterRomFw h.other.modSec.hubFault

theorem State.Keeps.cold {standby : Bool} (h : s.Keeps q) : (s.cold standby).Keeps q :=
  (h.native.withFaults FaultLog.fits_empty).other

theorem execStandbyPowerUp_keeps {seed0 seed1 : Option (List (BitVec 8))} {cert : List (BitVec 8)} {mac : BitVec 48} {slot : BitVec 3}
    {bench : BitVec 13} {smbus refA refB : Bool} (h : s.Keeps q) :
    OutKeeps q (execStandbyPowerUp seed0 seed1 cert mac slot bench smbus refA refB s) := by
  unfold execStandbyPowerUp
  extract_lets s₁ s₂ s₃ s₄ s₅
  have hs₁ : s₁.Keeps q := h.cold
  have hs₂ : s₂.Keeps q := hs₁.modSec
  have hs₃ : s₃.Keeps q := hs₂.modBoard
  have hs₄ : s₄.Keeps q := hs₃.other
  have hs₅ : s₅.Keeps q := hs₄.modClk
  refine .ite h ?_
  split
  · exact hs₅.identify
  · exact hs₅.identify
  · exact hs₅.modSec.hubFault

theorem State.Keeps.cutFlash (h : s.Keeps q) : s.cutFlash.Keeps q := by
  unfold State.cutFlash
  split
  · exact h.modSec
  · exact h.modSec

theorem State.Keeps.closeSession {n : Nat} (h : s.Keeps q) : (s.closeSession n).Keeps q := h.modHost

theorem State.Keeps.flashRefuse {code : Nat} (h : s.Keeps q) : (s.flashRefuse code).2.Keeps q := h.hubFault

theorem State.Keeps.runFloor (h : s.Keeps q) : s.runFloor.2.Keeps q := .ite₂ h.flashRefuse h.modSec

theorem State.Keeps.runOwner {body : List Byte} {free : Bool} (h : s.Keeps q) : (s.runOwner body free).2.Keeps q :=
  .ite₂ h.flashRefuse <| h.modSec.foldl fun h' => h'.closeSession

theorem State.Keeps.runFlash {n : Nat} (h : s.Keeps q) : (s.runFlash n).Keeps q := by
  induction n generalizing s with
  | zero => exact h
  | succ n ih =>
    unfold State.runFlash
    split
    · exact ih h.modSec.runFloor
    · exact ih h.modSec.runOwner
    · exact h

theorem State.Keeps.waitFlash {o : FlashOp} (h : s.Keeps q) : (s.waitFlash o).2.Keeps q := h.modSec

theorem State.Keeps.askProgram {w : Who} (h : s.Keeps q) : (s.askProgram w).2.Keeps q := .ite₂ h <| .ite₂ h.flashRefuse h.waitFlash

theorem State.Keeps.askFloor {w : Who} (h : s.Keeps q) : (s.askFloor w).2.Keeps q := .ite₂ h.flashRefuse <| .ite₂ h.waitFlash h.runFloor

theorem State.Keeps.askOwner {w : Who} (h : s.Keeps q) : (s.askOwner w).2.Keeps q := .ite₂ h.flashRefuse <| .ite₂ h.waitFlash h.runOwner

theorem State.Keeps.writeSecCtrl {w : Who} {v : Word32} (h : s.Keeps q) : (s.writeSecCtrl w v).2.Keeps q :=
  have hprogrammed : (Machine.ctlStep v 0 (fun s => s.askProgram w) (.done, s)).2.Keeps q := .ctlStep h fun h' => h'.askProgram
  .ctlStep (.ctlStep hprogrammed fun h' => h'.askFloor) fun h' => h'.askOwner

theorem execProgramComplete_keeps (h : s.Keeps q) : OutKeeps q (execProgramComplete s) := by
  unfold execProgramComplete
  split
  · exact h.modSec.runFlash
  · exact h

theorem State.Keeps.secLatch {o : Nat} (h : s.Keeps q) : (s.secLatch o).Keeps q := .ite h.modSec h

theorem State.Keeps.writeSec {w : Who} {o : Nat} {v : Word32} (h : s.Keeps q) : (s.writeSec w o v).2.Keeps q :=
  .ite₂ h.writeSecCtrl <| .ite₂ h.modSec <| .ite₂ (.ite h.modSec h) <| .ite₂ (.ite h.modSec h) h

/-! ## The control space -/

theorem State.Keeps.writeFaults {o : Nat} {v : Word32} (h : s.Keeps q) : (s.writeFaults o v).2.Keeps q := by
  unfold State.writeFaults
  extract_lets s₁
  have hs₁ : s₁.Keeps q := h.modFaults h.fits
  exact .ite₂ (h.modFaults (h.fits.consume v)) (.ite₂ (.ite (hs₁.modFaults FaultLog.fits_clear) hs₁) h)

/-- A contract that is not supported is refused (R217). -/
theorem State.Keeps.writeContract {v : Word32} (h : s.Keeps q) : (s.writeContract v).2.Keeps q := by
  unfold State.writeContract
  extract_lets n
  split
  · exact h.hubFault
  · next accepted =>
    refine h.withContract (n := n) ?_
    simp_all

theorem State.Keeps.writePassCtrl {v : Word32} (h : s.Keeps q) : (s.writePassCtrl v).2.Keeps q := .ite₂ h.detRefuse h.other

theorem State.Keeps.writePass {o : Nat} {v : Word32} (h : s.Keeps q) : (s.writePass o v).2.Keeps q :=
  .ite₂ h.writePassCtrl <| .ite₂ h.writeContract <| .ite₂ h.writeTwin h

theorem State.Keeps.putRoute {o : Nat} {v : Word32} (h : s.Keeps q) : (s.putRoute o v).Keeps q := by
  unfold State.putRoute
  refine .ite h.other <| .ite h.other <| .ite h.other <| .ite h.other <| .ite h.other <| .ite h.other ?_
  extract_lets
  split
  · exact h.modPort
  · exact h

theorem State.Keeps.writeRoute {o : Nat} {v : Word32} (h : s.Keeps q) : (s.writeRoute o v).2.Keeps q := .ite₂ h <| .ite₂ h.hubFault h.putRoute

theorem State.Keeps.linkLatch {o : Nat} (h : s.Keeps q) : (s.linkLatch o).Keeps q := .ite h.modPort h

theorem State.Keeps.writeLinks {o : Nat} {v : Word32} (h : s.Keeps q) : (s.writeLinks o v).2.Keeps q := .ite₂ h.writeLink <| .ite₂ h.writeRoute h

theorem State.Keeps.hostRead {k o : Nat} (h : s.Keeps q) : (s.hostRead k o).2.Keeps q := .ite₂ h.wakeCore.coreRead h

theorem State.Keeps.noteHost {k o : Nat} (h : s.Keeps q) : (s.noteHost k o).Keeps q := .ite h.modCore h

theorem State.Keeps.hostWrite {k o : Nat} {v : Word32} (h : s.Keeps q) : (s.hostWrite k o v).2.Keeps q := .ite₂ h.wakeCore.coreWrite.noteHost h

theorem State.Keeps.blockLatch {b o : Nat} (h : s.Keeps q) : (s.blockLatch b o).Keeps q :=
  .ite h.clkLatch (.ite (h.modFaults (h.fits.latch o)) (.ite h.secLatch (.ite h.linkLatch (.ite h.jrnlLatch (.ite h.modBar (.ite h.modTel h))))))

theorem State.Keeps.regRead {a : Nat} (h : s.Keeps q) : (s.regRead a).2.Keeps q := by
  unfold State.regRead
  split
  · exact h.hostRead
  · exact h.blockLatch

theorem State.Keeps.regWrite {w : Who} {a : Nat} {v : Word32} (h : s.Keeps q) : (s.regWrite w a v).2.Keeps q := by
  unfold State.regWrite
  extract_lets
  split
  · exact h.hostWrite
  · exact .ite₂ h <| .ite₂ h.writePass <| .ite₂ h.writeClk <| .ite₂ h.writePower <| .ite₂ h.writeFaults <| .ite₂ h.writeSec <|
    .ite₂ h.writeLinks <| .ite₂ h.writeEth <| .ite₂ h.writeJrnl <| .ite₂ h.writeBar <| .ite₂ h.writeFin <| .ite₂ h.writeTel h

theorem State.Keeps.coreRow {p : Nat → Bool} {a : Nat} {v : Word32} (h : s.Keeps q) : (s.coreRow p a v).Keeps q := by
  unfold State.coreRow
  split
  · exact .ite h.hostWrite h
  · exact h

theorem execApertureRead_keeps {a : Nat} (h : s.Keeps q) : OutKeeps q (execApertureRead a s) := by
  unfold execApertureRead
  split
  · exact .ite h.hostRead h
  · exact h

theorem State.Keeps.blockRow {b : Nat} {p : Nat → Bool} {a : Nat} {v : Word32} (h : s.Keeps q) : (s.blockRow b p a v).Keeps q := .ite h.regWrite h

/-! ## Sessions -/

theorem State.Keeps.putSession {n : Nat} {x : Session} (h : s.Keeps q) : (s.putSession n x).Keeps q := h.modHost

theorem State.Keeps.send {ms : List Msg} (h : s.Keeps q) : (s.send ms).Keeps q := h.modHost

theorem State.Keeps.unheard {p : Nat} (h : s.Keeps q) : (s.unheard p).Keeps q := .ite h.ethDrop h

theorem State.Keeps.request {src : Sender} {n : Nat} {seq : Word32} {type : Nat} {lost : Bool}
    {f : Session → State → (Nat × List (List Byte)) × State} (h : s.Keeps q) (hf : ∀ {x : Session} {s : State}, s.Keeps q → (f x s).2.Keeps q) :
    (s.request src n seq type lost f).Keeps q := by
  unfold State.request
  refine .ite h.unheard ?_
  split
  · exact h.ethDrop
  · extract_lets r _ s₁
    have hr : r.2.Keeps q := hf h
    have hs₁ : s₁.Keeps q := hr.send
    refine .ite h.ethDrop <| .ite ?_ ?_
    · split
      · exact hs₁
      · exact hs₁.putSession
    · split
      · exact h.send
      · exact .ite h.ethDrop h

theorem State.Keeps.bare {st : Nat} (h : s.Keeps q) : (bare st s).2.Keeps q := h

theorem State.Keeps.readBurst {a n : Nat} (h : s.Keeps q) : (s.readBurst a n).2.Keeps q := by
  induction n generalizing s a with
  | zero => exact h
  | succ n ih => exact ih (.ite₂ h.regRead h)

theorem State.Keeps.writeBurst {w : Who} {a i : Nat} {x : Wrote} {l : List Word32} (h : s.Keeps q) : (s.writeBurst w a i x l).2.Keeps q := by
  induction l generalizing s a i x with
  | nil => exact h
  | cons a l ih => exact ih (.ite₂ h.regWrite h)

theorem execOack_keeps {src : Sender} {n : Nat} {pass : Word64} {id acked : Nat} (h : s.Keeps q) : OutKeeps q (execOack src n pass id acked s) := by
  unfold execOack
  refine .ite h.unheard ?_
  split
  · exact h.ethDrop
  · exact .ite h.ethDrop <| .ite h.takeOack h

theorem State.Keeps.freeBytes {n : Nat} (h : s.Keeps q) : (s.freeBytes n).2.Keeps q := by
  induction n generalizing s with
  | zero => exact h
  | succ n ih => exact ih h.fresh

theorem State.Keeps.ownerDigest (h : s.Keeps q) : s.ownerDigest.2.Keeps q := by
  unfold State.ownerDigest
  split
  · exact h
  · exact h.freeBytes

theorem State.Keeps.report {nonce : List Byte} (h : s.Keeps q) : (s.report nonce).2.Keeps q := by
  unfold State.report
  exact h.ownerDigest

theorem State.Keeps.resumeOutputs {n : Nat} (h : s.Keeps q) : (s.resumeOutputs n).Keeps q := .ite h.rewindOutputs h

theorem execHello_keeps {src : Sender} {seq : Word32} {nonce : List (BitVec 8)} (h : s.Keeps q) : OutKeeps q (execHello src seq nonce s) := by
  unfold execHello
  extract_lets fresh r
  have hfresh : fresh.2.Keeps q := h.freeBytes
  have hr : r.2.Keeps q := hfresh.report
  refine .ite h.unheard <| .ite h ?_
  split
  · exact h.send
  · exact hr.putSession.send.resumeOutputs

theorem execProve_keeps {src : Sender} {seq : Word32} {n key : Nat} {sig : List (BitVec 8)} (h : s.Keeps q) :
    OutKeeps q (execProve src seq n key sig s) := by
  unfold execProve
  split
  · exact .ite h.hubFault.send h.unheard
  · exact h.request fun h' => .ite₂ h'.putSession.bare (State.Keeps.ite h'.hubFault h'.closeSession.hubFault).bare

theorem execSessionTimeout_keeps {n : Nat} (h : s.Keeps q) : OutKeeps q (execSessionTimeout n s) := by
  unfold execSessionTimeout
  split
  · exact h
  · exact .ite h h.advanceTick.closeSession

/-! ## Management and JTAG -/

theorem State.Keeps.readFrame {w : Who} {a count : Nat} (h : s.Keeps q) : (s.readFrame w a count).2.Keeps q := .ite₂ h <| .ite₂ h h.readBurst

theorem State.Keeps.writeFrame {w : Who} {a : Nat} {words : List Word32} (h : s.Keeps q) : (s.writeFrame w a words).2.Keeps q :=
  .ite₂ h <| .ite₂ h h.writeBurst

theorem State.Keeps.mgmtReply {r : List Byte × State} (h : r.2.Keeps q) : (State.mgmtReply r).Keeps q := h.modBoard

theorem State.Keeps.jtag {ir : Nat} {out : List Byte} (h : s.Keeps q) : (s.jtag ir out).Keeps q := h.modBoard

theorem State.Keeps.bypass (h : s.Keeps q) : s.bypass.Keeps q := h.jtag

/-! ## Forced service and burnish -/

theorem State.Keeps.fetchPast {k t n : Nat} (h : s.Keeps q) : (s.fetchPast k t n).Keeps q := by
  induction n generalizing s with
  | zero => exact h
  | succ n ih =>
    unfold State.fetchPast
    split
    · exact .ite (ih h.fetchOne) h
    · exact h

theorem execServiceForced_keeps {k : Nat} {e : Engine} (h : s.Keeps q) : OutKeeps q (execServiceForced k e s) := by
  unfold execServiceForced
  split
  · exact h
  · extract_lets _ u
    have hu : u.Keeps q := h.advance.fetchPast
    split
    · exact h
    · exact .ite hu.modCore h

theorem State.Keeps.burnishWord {k w : Nat} (h : s.Keeps q) : (s.burnishWord k w).Keeps q := by
  unfold State.burnishWord
  extract_lets
  refine .ite h ?_
  split
  · exact h
  · exact h.modCore
  · exact h.stockBad

/-! ## Every command -/

/-- A command whose meaning is one expression is shown here; the others have a lemma above. -/
theorem exec_keeps (h : s.Keeps q) : ∀ c : Instr, OutKeeps q (exec c s)
  | .tload _ => h.issueOp fun h' => h'.issueLoad
  | .tloadComplete _ => execTloadComplete_keeps h
  | .mma _ => h.issueOp fun h' => h'.issueMma
  | .mmaRowEntry _ => execMmaRowEntry_keeps h
  | .mmaRowWrite _ => execMmaRowWrite_keeps h
  | .mmaComplete _ => execMmaComplete_keeps h
  | .vcfg _ => h.issueOp fun h' => h'.issueTab
  | .vtab _ => h.issueOp fun h' => h'.issueTab
  | .tableLoadComplete _ => execTableLoadComplete_keeps h
  | .vrun _ => h.issueOp fun h' => h'.issueVrun
  | .vrunVectorEntry _ => execVrunVectorEntry_keeps h
  | .vrunLineWrite _ => execVrunLineWrite_keeps h
  | .vrunComplete _ => execVrunComplete_keeps h
  | .dpat _ => h.issueOp fun h' => .ite h'.issueDx h'.modCore.setReady.complete
  | .dfill _ => h.issueOp fun h' => h'.issueDx
  | .dcopy _ => h.issueOp fun h' => h'.issueDx
  | .dld _ => h.issueOp fun h' => h'.issueDx
  | .dst _ => h.issueOp fun h' => h'.issueDx
  | .dacr _ => h.issueOp fun h' => h'.issueDx
  | .dacw _ => h.issueOp fun h' => h'.issueDx
  | .dxUnitTransfer _ => execDxUnitTransfer_keeps h
  | .dxComplete _ => execDxComplete_keeps h
  | .nput _ => h.issueOp fun h' => h'.issueNx
  | .ntup _ => h.issueOp fun h' => h'.issueNx
  | .nring _ => h.issueOp fun h' => h'.issueNx
  | .nreq _ => h.issueOp fun h' => h'.issueNx
  | .nwait _ => h.issueOp fun h' => h'.issueNx
  | .nwaitComplete _ => execNwaitComplete_keeps h
  | .nxPacketAccept _ => execNxPacketAccept_keeps h
  | .niThrottlePeriod _ => .ite h.advance.modCore.startReads h
  | .snop _ _ => .ite (h.issueSx fun h' => h'.sxDone) <| h.issueOp fun h' => h'.setReady.complete
  | .sloop _ _ => execSloop_keeps h
  | .send _ _ => .ite h <| h.issueOp fun h' => h'.modStream
  | .sendComplete _ _ => execSendComplete_keeps h
  | .islandHang _ => .ite h.record.modCore h
  | .serviceForced _ _ => execServiceForced_keeps h
  | .add _ => h.opArith
  | .sub _ => h.opArith
  | .and _ => h.opArith
  | .or _ => h.opArith
  | .xor _ => h.opArith
  | .sll _ => h.opArith
  | .srl _ => h.opArith
  | .sra _ => h.opArith
  | .slt _ => h.opArith
  | .sltu _ => h.opArith
  | .mul _ => h.opArith
  | .addi _ => h.immArith
  | .andi _ => h.immArith
  | .ori _ => h.immArith
  | .xori _ => h.immArith
  | .lui _ => h.immArith
  | .shi _ => h.immArith
  | .slti _ => h.immArith
  | .ldw _ => h.issueSx fun h' => .ite h'.startAcc <| h'.guardUse fun h'' => h''.startMem
  | .stw _ => h.issueSx fun h' => .ite h'.startAcc <| h'.guardUse fun h'' => h''.startMem
  | .ldp _ => h.issueSx fun h' => .ite h'.startAcc <| h'.guardUse fun h'' => .ite h''.noteSkip.startAcc h''.startMem
  | .crd _ => h.issueSx fun h' => .ite h'.startAcc <| h'.guardUse fun h'' => h''.startAcc
  | .cwr _ => h.issueSx fun h' => .ite h'.startAcc <| h'.guardUse fun h'' => h''.startAcc
  | .sxAccess _ => execSxAccess_keeps h
  | .beq _ => h.branch
  | .bne _ => h.branch
  | .blt _ => h.branch
  | .bge _ => h.branch
  | .bltu _ => h.branch
  | .bgeu _ => h.branch
  | .dbnz _ => execDbnz_keeps h
  | .jal _ => h.issueSx fun h' => .ite h'.sxDone <| h'.sxJump fun h'' => h''.setG
  | .jr _ => h.issueSx fun h' => .ite h'.sxDone <| h'.guardUse fun h'' => h''.sxJump fun h''' => h'''
  | .swait _ => h.issueSx fun h' => h'.sxDone
  | .ssig _ => h.issueSx fun h' => (State.Keeps.ite h'.signal h').sxDone
  | .sdly _ => h.issueSx fun h' => .ite h'.sxDone h'.sxDone.setReady
  | .await _ => h.issueSx fun h' => .ite h'.startAcc <| h'.guardUse fun h'' => (State.Keeps.ite h''.faultAt h'').startWait
  | .awaitComplete _ => execAwaitComplete_keeps h
  | .hopen _ => execHopen_keeps h
  | .hopenComplete _ => execHopenComplete_keeps h
  | .hclose _ => h.issueSx fun h' => .ite h'.startAcc <| h'.guardUse fun h'' => h''.startWait
  | .hcloseComplete _ => execHcloseComplete_keeps h
  | .xlat _ => h.issueSx fun h' => .ite h'.startAcc <| h'.guardUse fun h'' => h''.startAcc
  | .sxSend _ => h.issueSx fun h' => h'.modStream
  | .burnishRead _ => .ite h (h.advanceTick.foldl fun h' => h'.burnishWord).modCore
  | .put _ => h.arriveOp (fun h' => h'.corePut) fun h' => .ite h'.hubPut h'.hubDrop
  | .tup _ => h.arriveOp (fun h' => h'.coreTup) fun h' => h'.hubOther
  | .ring _ => h.arriveOp (fun h' => h'.coreRing) fun h' => h'.hubOther
  | .req _ => h.arriveOp (fun h' => h'.coreReq) fun h' => h'.hubReq
  | .rpl _ => h.arriveOp (fun h' => h'.coreRpl) fun h' => h'.hubOther
  | .grant _ => h.arriveOp (fun h' => h'.coreGrant) fun h' => h'.hubGrant
  | .yield _ => h.arriveOp (fun h' => h'.coreYield) fun h' => h'.hubYield
  | .yieldSend _ _ => execYieldSend_keeps h
  | .closeDrainComplete _ _ => .ite h.modHandle h
  | .creditWatchdog _ => execCreditWatchdog_keeps h
  | .arrivalWatchdog _ _ => execArrivalWatchdog_keeps h
  | .packetRoute _ => execPacketRoute_keeps h
  | .reservationGrant _ => execReservationGrant_keeps h
  | .codewordTransmit _ => .ite h.boundary h
  | .dataCodeword _ _ _ _ _ => execDataCodeword_keeps h
  | .poisonCodeword _ _ _ _ => .ite (.ite h.countCorrected.takeSeq.modPort h.countCorrected.takeSeq) h
  | .idleCodeword _ _ _ => .ite h.countCorrected.checkSeq h
  | .lcw _ _ _ _ _ _ _ _ => execLcw_keeps h
  | .uncorrectableCodeword _ => .ite h.uncorrectable h
  | .replayTimeout _ => execReplayTimeout_keeps h
  | .laneLoss _ _ => .ite h.portDown h
  | .trainingComplete _ => .ite h.modPort h
  | .trainingTimeout _ => .ite (.ite h.modPort h.modPort.linkFault) h
  | .noPeerRetry _ => .ite h.advanceTick.train h
  | .retrain _ => .ite h.advanceTick.train h
  | .discardEpisodeEnd _ => execDiscardEpisodeEnd_keeps h
  | .moduleFinished => execModuleFinished_keeps h
  | .waveContribution _ => execWaveContribution_keeps h
  | .blank => execBlank_keeps h
  | .passStart => .ite (h.advance.modBar.eachAttached fun h' => h'.startCore).modHost.startOutputs h
  | .drainWatchdog => execDrainWatchdog_keeps h
  | .lostWatchdog => .ite h.advanceTick.hubFault.modBar.phaseEvent h
  | .hold _ => .ite h.writeBarCtrl h
  | .attach _ _ => .ite h.writeBarCtrl h
  | .detach _ => .ite h.writeBarCtrl h
  | .abort _ => .ite h.writeBarCtrl h
  | .restart _ => .ite h.writeBarCtrl h
  | .restartFail _ => .ite h.writeBarCtrl h
  | .ticketDelivery => execTicketDelivery_keeps h
  | .tier2StreamSend _ => execTier2StreamSend_keeps h
  | .outputRelease => execOutputRelease_keeps h
  | .outputResend => execOutputResend_keeps h
  | .sreq _ => h.atHub fun h' => h'.hubSreq
  | .sdata _ => h.atHub fun h' => h'.hubSdata
  | .snone _ => h.atHub fun h' => h'.hubSnone
  | .finfinRequest => execFinfinRequest_keeps h
  | .shardTimeout => execShardTimeout_keeps h
  | .load _ => .ite h.writeFin h
  | .finfinAbort _ => .ite h.writeFin h
  | .repair _ => .ite h.writeFin h
  | .activate _ => .ite h.writeFin h
  | .release _ => .ite h.writeFin h
  | .tsum _ => execTsum_keeps h
  | .twinWatchdog => .ite h.advanceTick.twinMissing.modBar.launchWave h
  | .journalExport => .ite h (h.foldl fun h' => h'.exportRecord).ringWrite
  | .journalConsumedPoll => .ite h.plbStart h
  | .journalExportRetry => .ite h.modJrnl h
  | .seal _ => .ite h.writeJrnl h
  | .sealComplete => execSealComplete_keeps h
  | .snap _ => .ite h.writeJrnl h
  | .checkpoint _ => .ite h.writeJrnl h
  | .hello _ _ _ => execHello_keeps h
  | .prove _ _ _ _ _ => execProve_keeps h
  | .sclose _ _ _ => h.request fun h' => h'.closeSession.bare
  | .rd _ _ _ _ _ => h.request fun h' => .ite₂ h'.bare <| .ite₂ h'.bare h'.readBurst
  | .wr _ _ _ _ _ => .ite h <| h.request fun h' => .ite₂ h'.bare <| .ite₂ h'.bare h'.writeBurst
  | .ticket _ _ _ _ _ _ _ _ _ => .ite h <| h.request fun h' => .ite₂ h'.bare <| .ite₂ h'.bare h'.takeTicket
  | .oack _ _ _ _ _ => execOack_keeps h
  | .sessionTimeout _ => execSessionTimeout_keeps h
  | .arpRequest _ _ => h.ownFrame
  | .neighborDiscovery _ _ => h.ownFrame
  | .icmpEcho _ _ _ _ => h.ownFrame
  | .pauseFrame _ => .ite h.ethDrop h
  | .pfcFrame _ _ _ => .ite h <| .ite (.ite h.pausePort h) h.ethDrop
  | .ethFrameDiscard _ => .ite h.ethDrop h
  | .ethLinkChange _ _ => .ite h <| .ite h.ethLost <| .ite h.ethFound h
  | .roceResponse _ _ _ => execRoceResponse_keeps h
  | .roceRequestNak _ => .ite h.answer h
  | .cnp _ => .ite h.modConn h
  | .rateRestore _ => .ite h.advanceTick.modConn h
  | .roceAckTimeout _ => .ite (.ite h.advanceTick.modConn h.advanceTick.connError) h
  | .roceReestablish _ => .ite (.ite h.advanceTick.modConn h.advanceTick.modConn) h
  | .mgmtRead _ _ => .ite h.readFrame.mgmtReply h
  | .mgmtWrite _ _ => .ite h.writeFrame.mgmtReply h
  | .mgmtDynamicAddress _ => .ite h.modBoard h
  | .bypass => .ite h.bypass h
  | .idcode => .ite h.jtag h
  | .samplePreload _ _ => .ite h.jtag.modBoard h
  | .extest _ _ => .ite h <| .ite h.bypass h.jtag.modBoard
  | .dbgacc _ _ _ _ => .ite h <| .ite h.bypass (State.Keeps.ite₂ h.writeFrame h.readFrame).jtag
  | .standbyPowerUp _ _ _ _ _ _ _ _ _ => execStandbyPowerUp_keeps h
  | .standbyPowerDown => .ite h.cutFlash.cold h
  | .imageCheck => execImageCheck_keeps h
  | .mainRegulation => .ite h.modPower h
  | .selfTestComplete _ _ _ _ => execSelfTestComplete_keeps h
  | .modResetAssert => .ite h (State.Keeps.ite h.powerFault h).cutFlash.mainOff.modBoard
  | .modResetRelease _ _ _ => .ite h <| .ite h.mainOff.other.modSec h.mainOff.other.modSec.enterRomFw
  | .program _ => h.askProgram
  | .programComplete => execProgramComplete_keeps h
  | .floorCommit _ => h.askFloor
  | .ownerCommit _ => h.askOwner
  | .refNoEdge _ => .ite h.loseRef h
  | .refMonitorWindow _ _ _ => execRefMonitorWindow_keeps h
  | .refPresent _ => .ite h <| .ite h.advanceTick.modClk.modClk.powerFault <| .ite h.advanceTick.modClk h.advanceTick.modClk.modClk
  | .refRevert => .ite h.advanceTick.modClk h
  | .cycleStretch _ => .ite h.modCore h
  | .droopWindow _ => .ite (State.Keeps.ite h h.advanceTick).demandEpisode.modClk h
  | .thermalDemandRaise _ _ => .ite (State.Keeps.ite h h.advanceTick).thermalEpisode.modClk h
  | .thermalDemandLower _ => .ite h.advanceTick.modClk h
  | .powerDemandRaise => .ite (State.Keeps.ite h h.advanceTick).demandEpisode.modClk h
  | .powerDemandLower => .ite h.advanceTick.modClk h
  | .droopDemandLower => .ite h.advanceTick.modClk h
  | .junctionOver95c _ _ => .ite h.overheat h
  | .thermalTrip _ _ => .ite h.overheat.powerFault.trip h
  | .inputVoltageExcursion => .ite h.leaveRange h
  | .undervoltage => .ite h h.leaveRange.powerFault.trip
  | .telemetryUpdate _ _ _ _ _ _ => .ite h <| .ite h.advanceTick.modTel.modClk h.advanceTick.modTel
  | .coreStop _ => .ite h.advance.modPower.modCore h
  | .retainEntry _ => .ite h.advanceTick.modPower h
  | .wake _ _ => execWake_keeps h
  | .linkEdgeGroupOff _ => .ite h.advanceTick.other h
  | .laserSettled _ => .ite h.advanceTick.train h
  | .pwrOffReqWrite _ _ => .ite h.writeOffReq h
  | .clrCe _ => .ite h.hostWrite h
  | .clrErr _ => .ite h.clearLink h
  | .clear => h.modFaults FaultLog.fits_clear
  | .faultLogTailWrite _ => h.writeFaults
  | .latencyContractWrite _ => h.writeContract
  | .lcDeclWrite _ _ => h.coreRow
  | .instructionWindowWrite _ _ => h.coreRow
  | .binDescWrite _ _ => h.coreRow
  | .regionDescWrite _ _ => h.coreRow
  | .apertureWrite _ _ => h.coreRow
  | .apertureRead _ => execApertureRead_keeps h
  | .gridVmapWrite _ _ => h.coreRow
  | .patchWrite _ _ => h.coreRow
  | .routingRegisterWrite _ _ => h.blockRow
  | .linkExpectWrite _ _ => h.blockRow
  | .linkCfgWrite _ _ => h.blockRow
  | .clkCfgWrite _ _ => .ite h.writeClkCfg h
  | .plbConnWrite _ _ => .ite h.writeEth h
  | .passCtrlWrite _ => h.writePassCtrl
  | .twinCfgWrite _ => h.writeTwin
  | .barrierConfigWrite _ _ => .ite h.writeBar h
  | .finfinRegisterWrite _ _ => h.blockRow
  | .descriptorWrite _ _ => .ite h.writeEth h
  | .latchingRead _ => .ite h.regRead h
  | .registerWrite _ _ _ => .ite h.regWrite h
  | .malformedDatagram _ _ _ _ => h.request fun h' => h'.bare
  | .forwardedTicket _ _ _ _ _ _ => .ite h.storeTicket h
  | .inputVoltageReturn => h.modPower

theorem OutKeeps.of_next {o : Host.Outcome State Fault Refusal} (h : OutKeeps q o) (ht : o = .next t) : t.Keeps q := by
  rw [ht] at h
  exact h

theorem State.Keeps.step_nil (h : s.Keeps q) (hqueue : s.pending = []) (ht : step s = .next t) : t.Keeps q := by
  rw [step, hqueue] at ht
  cases ht
  exact h.advance

theorem State.Keeps.step_cons {c : Instr} {rest : List Instr} (h : State.Keeps { s with pending := rest } q) (hqueue : s.pending = c :: rest)
    (ht : step s = .next t) : t.Keeps q := by
  rw [step, hqueue] at ht
  exact (exec_keeps h c).of_next ht

end

/-- Settles O3: the command at the front runs on the rest of the queue, and no command changes what `Keeps` names. -/
theorem staysSound : Obligations.StaysSound := by
  unfold Obligations.StaysSound
  intro s t hsound ht
  cases hqueue : s.pending with
  | nil =>
    obtain ⟨hp, hg, hb, hkept⟩ := (State.Keeps.self hsound).step_nil hqueue ht
    exact ⟨State.sound_iff.mpr hkept, hg, hb, .inl ⟨rfl, hp.trans hqueue⟩⟩
  | cons c rest =>
    have hrest : State.Keeps { s with pending := rest } { s with pending := rest } := .self hsound
    obtain ⟨hp, hg, hb, hkept⟩ := hrest.step_cons hqueue ht
    exact ⟨State.sound_iff.mpr hkept, hg, hb, .inr ⟨c, congrArg (c :: ·) hp.symm⟩⟩

/-! ## LATENCY_CONTRACT (R217) -/

theorem Barrier.noteFault_never (b : Barrier) : b.noteFault .never = b := by
  simp [Barrier.noteFault, countsLate]

theorem State.recordAs_bar (s : State) (kind : FailKind) (code source loc eng aux detail : Nat) :
    (s.recordAs kind code source loc eng aux detail).bar = s.bar.noteFault kind := by
  unfold State.recordAs
  extract_lets
  split
  · rw [State.event, State.notify_eq]
  · rfl

/-- A refused contract fails no pass (R331). -/
theorem State.kindOf_refusedContract (s : State) : s.kindOf 0x0109 = .never := by
  have hnever : failKind 0x0109 = .never := by decide
  rw [State.kindOf, hnever, ite_self]

theorem State.hubFault_refusedContract_bar (s : State) (d : Nat) : (s.hubFault 0x0109 d).bar = s.bar := by
  rw [State.hubFault, State.record, State.kindOf_refusedContract, State.recordAs_bar, Barrier.noteFault_never]

theorem State.anyAttached_iff {s : State} : s.anyAttached = true ↔ ∃ c ∈ s.cores, c.2.ctl.attached = true := List.any_eq_true

theorem State.anyAttached_false_iff {s : State} : s.anyAttached = false ↔ ∀ c ∈ s.cores, c.2.ctl.attached = false := by
  rw [State.anyAttached, List.any_eq_false]
  simp only [Bool.not_eq_true]

theorem State.writeContract_refused {s : State} {v : Word32}
    (h : bit s.lcSupported (bits v.toNat 7 0) = false ∨ bits v.toNat 7 0 ≠ s.lc ∧ s.anyAttached = true) :
    s.writeContract v = (.refused 0x0109, s.hubFault 0x0109 v.toNat) := by
  refine if_pos ?_
  obtain hlacking | ⟨hchanged, hattached⟩ := h
  · simp [hlacking]
  · simp [hchanged, hattached]

theorem State.writeContract_accepted {s : State} {v : Word32} (hs : bit s.lcSupported (bits v.toNat 7 0) = true)
    (h : bits v.toNat 7 0 = s.lc ∨ s.anyAttached = false) :
    s.writeContract v = (.done, { s with lc := bits v.toNat 7 0 }) := by
  refine if_neg ?_
  obtain hsame | hfree := h
  · rw [hsame] at hs
    simp [hs, hsame]
  · simp [hs, hfree]

theorem State.regWrite_contract (s : State) (w : Who) (v : Word32) : s.regWrite w 0x100040 v = s.writeContract v :=
  State.passBlock (o := 0x40) rfl (by decide)

theorem exec_latencyContractWrite (s : State) (v : Word32) : exec (.latencyContractWrite v) s = .next (s.writeContract v).2 := rfl

/-- The fields of the register: the contract in bits 7 to 0, PADDED in bit 8, nothing above. -/
theorem contractFields {n f : Nat} (hn : n < 256) (hf : f < 2) :
    bits (w32 (n + 256 * f)).toNat 7 0 = n ∧ bit (w32 (n + 256 * f)).toNat 8 = decide (f = 1) ∧ bits (w32 (n + 256 * f)).toNat 31 9 = 0 := by
  have hword : (w32 (n + 256 * f)).toNat = n + 256 * f := by
    rw [w32, BitVec.toNat_ofNat]
    omega
  rw [hword]
  refine ⟨?_, ?_, ?_⟩
  · rw [bits_from_zero]
    omega
  · rw [bit, Nat.testBit_eq_decide_div_mod_eq]
    congr 1
    apply propext
    omega
  · rw [bits]
    omega

theorem flag_lt_two (b : Bool) : flag b < 2 := by
  cases b <;> decide

theorem flag_eq_one {b : Bool} : flag b = 1 ↔ b = true := by
  cases b <;> decide

theorem State.regRead_contract {s : State} (h : s.lc < 256) :
    (s.regRead 0x100040).1 = some (w32 (s.lc + 256 * flag (s.lc != s.lcNative))) :=
  congrArg (fun n => some (w32 n)) (pack_pair (w := 8) (w' := 1) h (flag_lt_two _))

/-- Settles O50: the two refusals, the accepted write and the fields of the read. -/
theorem latencyContract : Obligations.LatencyContract := by
  unfold Obligations.LatencyContract
  refine ⟨fun s hs => hs ▸ rfl, fun s v w => ⟨fun h => ?refused, fun hs h => ?accepted, fun h => ?read⟩⟩
  case refused =>
    have hw := State.writeContract_refused (h.imp_right fun h => ⟨h.1, State.anyAttached_iff.mpr h.2⟩)
    exact ⟨by rw [exec_latencyContractWrite, hw, State.hubFault], (State.regWrite_contract s w v).trans hw, State.hubFault_refusedContract_bar s v.toNat⟩
  case accepted =>
    have hw := State.writeContract_accepted hs (h.imp_right State.anyAttached_false_iff.mpr)
    rw [exec_latencyContractWrite, hw]
  case read =>
    obtain ⟨hcontract, hpadded, hrest⟩ := contractFields h (flag_lt_two (s.lc != s.lcNative))
    refine ⟨_, _, Prod.ext (State.regRead_contract h) rfl, hcontract, ?_, hrest⟩
    rw [hpadded, decide_eq_true_iff, flag_eq_one, bne_iff_ne]

end Sys2Proof.Machine

/-! SUPPORT. The routers and the pools: a packet without errors on its way, the exit that the router chooses, a packet that enters the mesh for a place
of this module, a discard, and a reservation granted. -/

namespace Sys2Proof.Machine

/-! ## A packet without bit errors on its way (R227, R230, R235) -/

theorem State.meetStop_clean (s : State) {t : Transit} (hclean : t.flaws = []) (stop : Nat) : s.meetStop t stop = (some t, s) := by
  cases t
  subst hclean
  rfl

theorem State.walk_clean (s : State) {t : Transit} (hclean : t.flaws = []) (path : List Nat) : s.walk t path = (some t, s) := by
  induction path with
  | nil => rfl
  | cons stop rest ih => rw [State.walk, s.meetStop_clean hclean]; exact ih

/-- The throttle counts the flits of a packet of a core in that core, and nothing else changes (R288). -/
theorem State.noteEnter_eq (s : State) (t : Transit) : s.noteEnter t = { s with cores := (s.noteEnter t).cores } := by
  unfold State.noteEnter
  cases t.src with
  | core k => cases t.taken <;> rfl
  | _ => rfl

/-- A packet without bit errors enters the mesh in this cycle when no realignment is in progress. -/
theorem State.enter_clean {s : State} {t : Transit} (hsettled : s.mesh.realignAt ≤ s.tick) (hclean : t.flaws = []) (i : Nat) (e : Place) :
    s.enter i t e = (some { t.inMesh s e with exit := t.exit, outVc := t.outVc },
      { s.noteEnter t with mesh := { s.mesh with entries := s.mesh.entries + 1 } }) := by
  rw [State.enter, if_neg (Nat.not_lt.mpr hsettled), State.noteEnter_eq]
  dsimp only
  rw [State.walk_clean _ hclean]
  rfl

/-! ## The router's choice (R272, R277, R278, R280) -/

/-- A header that passes the router's checks of the channel, the reserved bits and the target (R272, R280). -/
structure Packet.Legal (p : Packet) : Prop where
  channel : p.vc ≤ 9
  reserved : p.reservedBits = 0
  target : p.dtgt < 768 ∨ p.dtgt = hubTgt

theorem Packet.Legal.passes {p : Packet} (h : p.Legal) : ¬(p.vc > 9 ∨ p.reservedBits ≠ 0 ∨ (768 ≤ p.dtgt ∧ p.dtgt ≠ hubTgt)) := by
  obtain ⟨hchannel, hreserved, htarget⟩ := h
  omega

section Choice
variable {s : State} {src : Place} {p : Packet} {a d : Nat}

theorem State.choose_reservedTarget (htarget : 768 ≤ p.dtgt) (hhub : p.dtgt ≠ hubTgt) : s.choose src p = .discard 0x0442 :=
  if_pos (.inr (.inr ⟨htarget, hhub⟩))

theorem State.choose_here (hlegal : p.Legal) (hhere : p.dmod = s.route.me) : s.choose src p = localExit p.dtgt := by
  rw [State.choose, if_neg hlegal.passes, if_pos hhere]

theorem localExit_core {n : Nat} (h : n < 768) : localExit n = .go (.core n) 0 := if_pos h

theorem localExit_hub : localExit hubTgt = .go .hub 0 := rfl

theorem State.mayLeave_origin (horigin : originates src = true) (a : Nat) : s.mayLeave src a = true := by
  cases src with
  | port q => cases horigin
  | _ => rfl

/-- The first axis along which two modules differ, as the router searches for it. -/
theorem find?_axis_first {m n : Nat} (ha : a < 3) (hsame : ∀ b < a, modAxis m b = modAxis n b) (hdiff : modAxis m a ≠ modAxis n a) :
    ([0, 1, 2].find? fun b => modAxis n b != modAxis m b) = some a := by
  show (List.range 3).find? _ = some a
  refine List.find?_range_eq_some.mpr ⟨bne_iff_ne.mpr hdiff.symm, List.mem_range.mpr ha, fun b hb => ?_⟩
  simp [hsame b hb]

/-- Where a module has no compatibility port, a packet that starts in it leaves by the entry of the direction d along the first axis that differs. -/
theorem State.choose_axis (hlegal : p.Legal) (horigin : originates src = true) (haway : p.dmod ≠ s.route.me) (hnative : ∀ q < 24, s.compat q = false)
    (hinside : s.route.inside p.dmod = true) (hme : s.route.inside s.route.me = true)
    (ha : a < 3) (hsame : ∀ b < a, modAxis p.dmod b = modAxis s.route.me b) (hdiff : modAxis p.dmod a ≠ modAxis s.route.me a)
    (hdir : s.dirFor src p a = d) (hvalid : bit (s.route.dir.getD d 0).toNat 31 = true)
    (hfar : 14 ≤ bits (s.route.dir.getD d 0).toNat 4 0) (hport : bits (s.route.dir.getD d 0).toNat 4 0 < 24) :
    s.choose src p = .go (.port (bits (s.route.dir.getD d 0).toNat 4 0)) (2 * p.cls + s.postFor src p.vc d) := by
  have hpeer : ((List.range 24).find? fun q => originates src && farPort q && s.compat q && (s.port q).usable
      && (s.port q).peerModule == p.dmod) = none := by
    refine List.find?_range_eq_none.mpr fun q hq => ?_
    simp [hnative q hq]
  have hentry : (!bit (s.route.dir.getD d 0).toNat 31 || !farPort (bits (s.route.dir.getD d 0).toNat 4 0)
      || decide (bits (s.route.dir.getD d 0).toNat 4 0 > 23) || (!originates src && s.compat (bits (s.route.dir.getD d 0).toNat 4 0))) = false := by
    have hlast : ¬ bits (s.route.dir.getD d 0).toNat 4 0 > 23 := by omega
    simp only [hvalid, farPort, hfar, hlast, horigin]
    rfl
  simp only [State.choose, if_neg hlegal.passes, if_neg haway, hpeer, hinside, hme, find?_axis_first ha hsame hdiff, hdir, hentry,
    State.mayLeave_origin horigin]
  rfl

/-- Along a line a packet goes toward its target; around a ring it goes the shorter way (R277). -/
theorem State.dirFor_shorter {n f : Nat} (hdiff : modAxis p.dmod a ≠ modAxis s.route.me a) (hn : n = s.route.dim a)
    (hf : f = (modAxis p.dmod a + n - modAxis s.route.me a) % n)
    (hd : if s.route.wrap a then (2 * f < n ∧ d = 2 * a) ∨ (n < 2 * f ∧ d = 2 * a + 1)
      else d = if modAxis s.route.me a < modAxis p.dmod a then 2 * a else 2 * a + 1) :
    s.dirFor src p a = d := by
  subst hn
  unfold State.dirFor
  rw [← hf]
  cases hwrap : s.route.wrap a with
  | false =>
    rw [hwrap, if_neg Bool.false_ne_true] at hd
    rw [hd]
    by_cases hup : modAxis s.route.me a < modAxis p.dmod a
    · simp [hup, Nat.not_lt_of_lt hup, flag]
    · simp [hup, Nat.lt_of_le_of_ne (Nat.le_of_not_lt hup) hdiff, flag]
  | true =>
    rw [hwrap, if_pos rfl] at hd
    obtain ⟨hlt, rfl⟩ | ⟨hgt, rfl⟩ := hd
    · simp [hlt]
    · simp [hgt, Nat.not_lt_of_lt hgt]

/-- A packet that starts in a module leaves it on the post channel at the dateline of a ring alone (R278). -/
theorem State.postFor_origin (horigin : originates src = true) (hd : d = 2 * a ∨ d = 2 * a + 1) (v : Nat) :
    s.postFor src v d = flag (s.route.wrap a && modAxis s.route.me a == if d = 2 * a then s.route.dim a - 1 else 0) := by
  have haxis : d / 2 = a := by omega
  have hup : d % 2 = 0 ↔ d = 2 * a := by omega
  cases src with
  | port q => cases horigin
  | _ =>
    unfold State.postFor
    simp only [haxis, hup]
    by_cases h : d = 2 * a <;> simp [h, flag]

end Choice

/-! ## PACKET_ROUTE (R277, R280) -/

section Routed
variable {s : State} {i : Nat} {t : Transit}

theorem exec_packetRoute_clean (hitem : s.mesh.items[i]? = some t) (haligned : s.mesh.aligned = true) (hfree : s.blocked i t = false)
    (hclean : t.flaws = []) (hfresh : t.exit = none) : exec (.packetRoute i) s = .next (s.routeItem i t) := by
  show execPacketRoute i s = _
  simp only [execPacketRoute, hitem, haligned, hfresh, hfree, s.meetStop_clean hclean]
  rfl

/-- A packet whose exit is a core or the hub enters the mesh for it. -/
theorem State.routeItem_enters {e : Place} (horigin : originates t.src = true) (hsettled : s.mesh.realignAt ≤ s.tick) (hmay : s.mayEnter t = true)
    (hclean : t.flaws = []) (hchoice : s.choose t.src t.pkt = .go e 0) (he : ∀ l, e ≠ .port l) :
    s.routeItem i t = { s.noteEnter t with
      mesh := { s.mesh with items := s.mesh.items.set i (t.inMesh s e), entries := s.mesh.entries + 1 } } := by
  have henter := State.enter_clean (t := { t with exit := some e, outVc := 0 }) hsettled hclean i e
  cases e with
  | port l => exact absurd rfl (he l)
  | _ =>
    simp only [State.routeItem, State.beyond_origin horigin, hchoice, hmay, henter]
    exact State.leave_origin horigin

/-- A packet whose exit is a port waits for its reservation. -/
theorem State.routeItem_port {l v : Nat} (horigin : originates t.src = true) (hchoice : s.choose t.src t.pkt = .go (.port l) v) :
    s.routeItem i t = { s with mesh := { s.mesh with items := s.mesh.items.set i { t with exit := some (.port l), outVc := v } } } := by
  simp only [State.routeItem, State.beyond_origin horigin, hchoice]
  rfl

/-- A discard of a code that this pass has recorded before raises ROUTE_DISCARD and counts the packet as sunk (R280, R326). -/
theorem State.routeItem_discard {code : Nat} (horigin : originates t.src = true) (hchoice : s.choose t.src t.pkt = .discard code)
    (hseen : code ∈ s.route.seen) (hcounted : t.pkt.counted = true) :
    s.routeItem i t = { s with
      mesh := { s.mesh with items := s.mesh.items.eraseIdx i }
      route := { s.route with discard := satInc s.route.discard 1, seen := markPut s.route.seen code }
      bar := { s.bar with sink := s.bar.sink + 1 } } := by
  simp only [State.routeItem, State.beyond_origin horigin, hchoice, State.routeDiscard, List.contains_iff_mem.mpr hseen, State.endItem,
    State.leave_origin horigin, State.noteSink, hcounted]
  rfl

end Routed

/-! ## RESERVATION_GRANT (R262, R279, R281) -/

section Granted
variable {s : State} {i l m : Nat} {t : Transit}

/-- A packet that does not ask for an adaptive exit leaves by the member that its flow, or its two ends, give. -/
theorem State.memberFor_fixed {p : Packet} {v : Nat} (hmembers : s.members l ≠ []) (hfixed : p.adapt = false) :
    s.memberFor l v p = (s.members l).getD ((if p.cls = clsTns then p.flow else p.src + p.dst) % (s.members l).length) l := by
  have hsome : (s.members l).isEmpty = false := List.isEmpty_eq_false_iff.mpr hmembers
  simp only [State.memberFor, hsome, State.honours, hfixed]
  rfl

theorem exec_reservationGrant_standing (hitem : s.mesh.items[i]? = some t) (haligned : s.mesh.aligned = true) (hfree : s.blocked i t = false)
    (hexit : t.exit = some (.port l)) : exec (.reservationGrant i) s = .next (s.reserve i t l s.allAskers) := by
  show execReservationGrant i s = _
  simp only [execReservationGrant, hitem, hexit, haligned, hfree]
  rfl

/-- A pool with space whose turn has come to the packet's entry point takes it. -/
theorem State.reserve_crosses {asks : Nat × Nat → List Place} (hnone : t.granted = none) (hm : s.memberFor l t.outVc t.pkt = m)
    (husable : (s.port m).usable = true) (hnative : s.compat m = false) (hlisted : t.pkt.cls = clsTns → s.flowListed m t.pkt.flow = true)
    (hmay : s.mayEnter t = true) (hspace : t.pkt.len ≤ s.poolFree m t.outVc) (hturn : s.turn (m, t.outVc) (asks (m, t.outVc)) t.src = true) :
    s.reserve i t l asks = (s.noteTurn (m, t.outVc) t.src).cross i t m := by
  have hflow : (t.pkt.cls == clsTns && !s.flowListed m t.pkt.flow) = false := by
    by_cases htns : t.pkt.cls = clsTns
    · simp [hlisted htns]
    · simp [htns]
  have hroom : ¬ s.poolFree m t.outVc < t.pkt.len := Nat.not_lt.mpr hspace
  simp only [State.reserve, hnone, Option.getD_none, hm, husable, hnative, Bool.true_and, hflow, hmay, hturn, hroom]
  rfl

/-- A packet that holds its reservation crosses the mesh into the pool of a usable member. -/
theorem State.cross_clean (horigin : originates t.src = true) (hsettled : s.mesh.realignAt ≤ s.tick) (hclean : t.flaws = [])
    (husable : (s.port m).usable = true) :
    s.cross i t m = { s.noteEnter t with
      mesh := { s.mesh with items := s.mesh.items.eraseIdx i, entries := s.mesh.entries + 1 }
      ports := modAt s.ports m fun x => { x with tx := { x.tx with pool := x.tx.pool ++ [queued t.pkt t.outVc] } } } := by
  have hport (y : List (Nat × Core)) (z : Mesh) : ({ s with cores := y, mesh := z }.port m).usable = true := husable
  rw [State.cross, State.enter_clean hsettled hclean, State.noteEnter_eq]
  simp only [hport, State.leave_origin horigin]
  rfl

/-- The turn of a pool and the count of the throttle stand in different parts of the state. -/
theorem State.noteEnter_noteTurn (pool : Nat × Nat) (e : Place) : (s.noteTurn pool e).noteEnter t = (s.noteEnter t).noteTurn pool e := by
  unfold State.noteEnter
  cases t.src with
  | core k => cases t.taken <;> rfl
  | _ => rfl

end Granted

/-- Settles O34: a packet without bit errors of this module passes the router's checks, the choice gives its exit, and a pool with space takes it in its
turn. That a packet is due after the uncontended latency, the order of a pool's turns, and one record for each code in a pass are log 22's. -/
theorem packetsRouted : Obligations.PacketsRouted := by
  unfold Obligations.PacketsRouted
  intro s i t hitem haligned hfree horigin hsettled hmay hclean
  refine ⟨fun hfresh hvc hres => ⟨fun hhere htgt => ?core, fun hhere htgt => ?hub, fun _ htgt hhub hseen hcounted => ?reserved,
    fun a d n f ha htgt haway hinside hme hnative hsame hdiff hn hf hd hvalid hfar hport => ?away⟩,
    fun l m ms hexit hnone hms hsome hfixed hm husable hnative hlisted hspace hturn => ?granted⟩
  case core =>
    rw [exec_packetRoute_clean hitem haligned hfree hclean hfresh, State.routeItem_enters horigin hsettled hmay hclean
      ((State.choose_here ⟨hvc, hres, .inl htgt⟩ hhere).trans (localExit_core htgt)) (by rintro _ ⟨⟩)]
  case hub =>
    rw [exec_packetRoute_clean hitem haligned hfree hclean hfresh, State.routeItem_enters horigin hsettled hmay hclean
      ((State.choose_here ⟨hvc, hres, .inr htgt⟩ hhere).trans ((congrArg localExit htgt).trans localExit_hub)) (by rintro _ ⟨⟩)]
  case reserved =>
    rw [exec_packetRoute_clean hitem haligned hfree hclean hfresh,
      State.routeItem_discard horigin (State.choose_reservedTarget htgt hhub) hseen hcounted]
  case away =>
    have hdir : d = 2 * a ∨ d = 2 * a + 1 := by
      split at hd
      · omega
      · split at hd <;> omega
    have hchoice := State.choose_axis ⟨hvc, hres, htgt⟩ horigin haway hnative hinside hme ha hsame hdiff
      (State.dirFor_shorter hdiff hn hf hd) hvalid hfar hport
    rw [State.postFor_origin horigin hdir, ← hn] at hchoice
    rw [exec_packetRoute_clean hitem haligned hfree hclean hfresh, State.routeItem_port horigin hchoice]
  case granted =>
    subst hms
    have hmember := (State.memberFor_fixed (v := t.outVc) hsome hfixed).trans hm.symm
    rw [exec_reservationGrant_standing hitem haligned hfree hexit,
      State.reserve_crosses hnone hmember husable hnative hlisted hmay hspace hturn,
      State.cross_clean (s := s.noteTurn (m, t.outVc) t.src) horigin hsettled hclean husable, State.noteEnter_noteTurn]
    rfl

end Sys2Proof.Machine

/-! SUPPORT. One step of the machine, and twin mode: the summary of the partner, its comparison, its watchdog, and the two registers that need a module
without a job. -/

namespace Sys2Proof.Machine

/-! ## One step (log 1) -/

/-- Settles O1: the queue decides which command a step runs; that commands run first in, first out, and that an empty queue lets the clock tick, are the
choices of logs 1 and 6. -/
theorem stepRunsFront : Obligations.StepRunsFront := by
  unfold Obligations.StepRunsFront
  refine ⟨fun c s => rfl, fun s hempty => ?_⟩
  have htick : step s = .next (s.advance (s.now + 1)) := by rw [step, hempty]
  refine ⟨htick, fun hcalm => ?_⟩
  rw [htick, State.advance_calm hcalm, Nat.max_eq_right (Nat.le_succ s.now)]

/-! ## A summary arrives (R400) -/

/-- A summary is kept only in twin mode, of this pass, from the partner (R400). -/
theorem State.keepSummary_other {s : State} {p : Packet}
    (h : bit s.twin.cfg.toNat 0 = false ∨ BitVec.ofNat 64 (p.word 2) ≠ s.bar.passNum ∨ p.src ≠ s.partner) : s.keepSummary p = s := by
  rw [State.keepSummary, if_neg]
  rw [State.twinOn]
  rcases h with h | h | h <;> simp [h]

theorem State.keepSummary_clean {s : State} {p : Packet} (hon : bit s.twin.cfg.toNat 0 = true) (hpass : BitVec.ofNat 64 (p.word 2) = s.bar.passNum)
    (hsrc : p.src = s.partner) (hclean : ∀ w ∈ p.body, w.poison = false) :
    s.keepSummary p = { s with twin := { s.twin with got := keyPut s.twin.got p.finPkt (p.body.flatMap fun w => natToBytes w.val.toNat 8) } } := by
  rw [State.keepSummary, if_pos (by simp [State.twinOn, hon, hpass, hsrc]), State.wordBytes64_clean _ _ hclean]

theorem State.summary_none {s : State} (h : keyGet s.twin.got 0 = none ∨ keyGet s.twin.got 1 = none) : s.summary = none := by
  unfold State.summary
  split
  · rename_i h0 h1
    rw [h0, h1] at h
    simp at h
  · rfl

theorem State.summary_both {s : State} {a b : List Byte} (h0 : keyGet s.twin.got 0 = some a) (h1 : keyGet s.twin.got 1 = some b) :
    s.summary = some (a ++ b) := by
  rw [State.summary, h0, h1]

/-- The command of a packet that has arrived, by what the hub keeps of it. -/
theorem exec_tsum_standing {s : State} {i : Nat} {p : Packet} (h : AtHub s i 0xB p) : exec (.tsum i) s = .next
    (if ((s.dropItem i).keepSummary p).bar.waitTwin = false then (s.dropItem i).keepSummary p
    else match ((s.dropItem i).keepSummary p).summary with
      | none => (s.dropItem i).keepSummary p
      | some d => ((((s.dropItem i).keepSummary p).compareTwin d).modBar fun b => { b with waitTwin := false }).launchWave 1) := by
  simp only [exec, execTsum]
  rw [h.run (by decide) (by decide)]
  simp only [Bool.not_eq_true'] <;> rfl

/-! ## The comparison (R401) -/

theorem State.compareTwin_same {s : State} {d : List Byte} (h : differing s.coreSums d = []) :
    s.compareTwin d = { s with twin := { s.twin with status := 1 } } := by
  unfold State.compareTwin
  dsimp only
  rw [h]

/-- The fields of TWIN_STATUS after a difference: the count of the cores that differ, and the first of them. -/
theorem pack_twinStatus {n : Nat} {l : List Nat} {a b : List Byte} (h : differing a b = n :: l) :
    pack [(2, 0), (10, (n :: l).length), (10, n)] = 4 * (n :: l).length + 4096 * n := by
  have hlen : (n :: l).length ≤ 768 := h ▸ (List.length_filter_le _ _).trans (List.length_range (n := 768)).le
  have hn : n < 768 := List.mem_range.mp (List.mem_filter.mp (h ▸ List.mem_cons_self : n ∈ differing a b)).1
  simp only [pack]
  omega

/-- A fault recorded for the pass that is being parted: the record, and FAIL set in the barrier unit. -/
theorem State.recordNow_fail (s : State) (code d : Nat) : ∃ t, (s.recordNow code d).modBar (fun b => { b with fail := true }) = t ∧
    Recorded s t code ∧ t = { s with faults := t.faults, host := t.host, bar := { s.bar with fail := true } } := by
  obtain ⟨hkept, hrec⟩ := State.recordNow_spec s code d
  refine ⟨_, rfl, hrec, ?_⟩
  rw [hkept]
  rfl

theorem State.compareTwin_differs {s : State} {d : List Byte} {n : Nat} {l : List Nat} (h : differing s.coreSums d = n :: l) :
    ∃ t, s.compareTwin d = t ∧ Recorded s t 0x0904 ∧ t.cores = s.cores ∧ t.mesh = s.mesh ∧ t.bar = { s.bar with fail := true } ∧
      t.twin = { s.twin with differs := true, status := BitVec.ofNat 32 (4 * (n :: l).length + 4096 * n) } := by
  obtain ⟨t, ht, hrec, hkept⟩ := State.recordNow_fail s 0x0904 (pack [(10, (n :: l).length), (10, n)])
  unfold State.compareTwin
  dsimp only
  rw [h]
  dsimp only
  rw [ht, pack_twinStatus h]
  refine ⟨_, rfl, hrec, ?_, ?_, ?_, ?_⟩ <;> rw [hkept]

theorem State.twinMissing_spec (s : State) : ∃ t, s.twinMissing = t ∧ Recorded s t 0x0905 ∧ t.cores = s.cores ∧ t.now = s.now ∧
    t.bar = { s.bar with fail := true } ∧ t.twin = { s.twin with status := 2 } := by
  obtain ⟨t, ht, hrec, hkept⟩ := State.recordNow_fail s 0x0905 0
  unfold State.twinMissing
  dsimp only
  rw [ht]
  refine ⟨_, rfl, hrec, ?_, ?_, ?_, ?_⟩ <;> rw [hkept]

/-! ## TWIN_CFG (R399) -/

theorem State.writeTwin_refused {s : State} {v : Word32} (h : s.bar.phase ≠ .detached ∨ bit v.toNat 0 = true ∧ s.strict = false) :
    s.writeTwin v = s.detRefuse := by
  rw [State.writeTwin, if_pos]
  rcases h with h | ⟨hv, hs⟩
  · exact .inl h
  · exact .inr ⟨hv, by rw [hs]; rfl⟩

/-- The watchdog's exponent is 0, or at least 8 (R399). -/
theorem watchShift_eq (n : Nat) : watchShift n = if 1 ≤ n ∧ n ≤ 7 then 8 else n := by
  unfold watchShift
  split_ifs <;> omega

theorem State.writeTwin_detached {s : State} {v : Word32} (hphase : s.bar.phase = .detached) (hstrict : bit v.toNat 0 = true → s.strict = true) :
    s.writeTwin v = (.done, { s with twin := { s.twin with
      cfg := BitVec.ofNat 32 (bits v.toNat 4 0 + 256 * (if 1 ≤ bits v.toNat 12 8 ∧ bits v.toNat 12 8 ≤ 7 then 8 else bits v.toNat 12 8)) } }) := by
  rw [State.writeTwin, if_neg]
  · rw [watchShift_eq]
    simp [bits]
  · rintro (h | ⟨hv, hs⟩)
    · exact h hphase
    · rw [hstrict hv] at hs
      exact absurd hs (by decide)

/-! ## The statement -/

/-- Settles O49: the hub keeps the summary or does not, the comparison with the sums of this module decides TWIN_STATUS, and the wave that waited goes. -/
theorem twinCompares : Obligations.TwinCompares := by
  unfold Obligations.TwinCompares
  intro s
  refine ⟨fun i p u hat hu => ?summary, fun hcalm hwait hshift => ?watchdog, fun hidle => ?idle, fun v => ⟨fun hd => ?pass, fun hd => ?passShut, fun hd hs n hn => ?cfg, fun h => ?cfgShut⟩⟩
  case summary =>
    have hdrop : s.dropItem i = u := hu.symm
    have hbar : u.bar = s.bar := by rw [hu]
    have htwin : u.twin = s.twin := by rw [hu]
    have hsums : u.coreSums = s.coreSums := by rw [hu]; rfl
    have hpartner : u.partner = s.partner := by rw [hu]; rfl
    refine ⟨fun hother hwait => ?_, fun g hon hpass hsrc hclean hg => ?_⟩
    · have hkeep : u.keepSummary p = u := State.keepSummary_other (by rw [htwin, hbar, hpartner]; exact hother)
      rw [exec_tsum_standing hat, hdrop, hkeep, if_pos (by rw [hbar]; exact hwait)]
    · have hkeep : u.keepSummary p = { u with twin := { s.twin with got := g } } := by
        rw [State.keepSummary_clean (by rw [htwin]; exact hon) (by rw [hbar]; exact hpass) (by rw [hpartner]; exact hsrc) hclean, hg, htwin]
      obtain ⟨w, hw⟩ : ∃ w : State, w = { u with twin := { s.twin with got := g } } := ⟨_, rfl⟩
      have hwbar : w.bar = s.bar := by rw [hw]; exact hbar
      have hwtwin : w.twin = { s.twin with got := g } := by rw [hw]
      have hwsums : w.coreSums = s.coreSums := by rw [hw]; exact hsums
      rw [exec_tsum_standing hat, hdrop, hkeep, ← hw, hwbar]
      refine ⟨fun hnone => ?_, fun a b x hwait h0 h1 hx => ?_⟩
      · by_cases hwait : s.bar.waitTwin = false
        · rw [if_pos hwait]
        · rw [if_neg hwait, State.summary_none (by rw [hwtwin]; exact hnone.resolve_left hwait)]
      · rw [if_neg (by rw [hwait]; decide), State.summary_both (by rw [hwtwin]; exact h0) (by rw [hwtwin]; exact h1)]
        have hdiff : differing w.coreSums (a ++ b) = x := by rw [hwsums, hx]; rfl
        refine ⟨fun hnil => ?_, fun n l hcons => ?_⟩
        · dsimp only
          rw [State.compareTwin_same (hdiff.trans hnil), hw]
          simp only [State.modBar, hbar]
        · obtain ⟨t, ht, hrec, hcores, hmesh, htbar, httwin⟩ := State.compareTwin_differs (hdiff.trans hcons)
          refine ⟨t.modBar fun b => { b with waitTwin := false }, by dsimp only; rw [ht], Recorded.of_faults (by rw [hw, hu]) hrec, ?_, ?_, ?_, ?_⟩
          · exact hcores.trans (by rw [hw, hu])
          · exact hmesh.trans (by rw [hw])
          · simp only [State.modBar, htbar, hwbar]
          · rw [hcons]
            exact httwin.trans (by rw [hwtwin])
  case watchdog =>
    obtain ⟨t, ht, hrec, hcores, hnow, hbar, htwin⟩ := State.twinMissing_spec (s.advanceTick (s.bar.finishTick + 2 ^ bits s.twin.cfg.toNat 12 8))
    refine ⟨t.modBar fun b => { b with waitTwin := false }, ?_, Recorded.of_faults (State.advance_faults hcalm _) hrec, ?_, hnow, ?_, ?_⟩
    · simp only [exec, execTwinWatchdog]
      rw [if_pos (by simp [hwait, hshift]), ht]
    · exact hcores.trans (State.advance_cores hcalm _)
    · exact htwin.trans (by rw [State.advanceTick, State.advance_twin])
    · simp only [State.modBar, hbar]
      rw [State.advanceTick, State.advance_bar hcalm]
  case idle =>
    simp only [exec, execTwinWatchdog]
    rw [if_neg]
    rcases hidle with h | h <;> simp [h]
  case pass => simp only [exec, execPassCtrlWrite, State.writePassCtrl]; rw [if_neg (by simpa using hd)]
  case passShut => simp only [exec, execPassCtrlWrite, State.writePassCtrl]; rw [if_pos hd]; rfl
  case cfg => simp only [exec, execTwinCfgWrite]; rw [State.writeTwin_detached hd hs, hn]
  case cfgShut => simp only [exec, execTwinCfgWrite]; rw [State.writeTwin_refused h]; rfl

end Sys2Proof.Machine

/-! SUPPORT. The boot: what the firmware's start, the owner record, standby power and MOD_RESET_N make of the state. -/

namespace Sys2Proof.Machine

/-! ## The owner record (R485) -/

/-- DEV_SIG of an owner record verifies (R484). -/
def State.ownerGood (s : State) (r : OwnerRec) : Bool := edVerify s.sec.pub (natToBytes s.moduleId.toNat 8 ++ natToBytes r.seq.toNat 8 ++ r.body) r.sign

theorem State.readOwner_none {s : State} (h : s.sec.ownerRec = none) : s.readOwner = s.modSec fun x => { x with owned := false } := by
  rw [State.readOwner, h]

theorem State.readOwner_good {s : State} {r : OwnerRec} (h : s.sec.ownerRec = some r) (hg : s.ownerGood r = true) :
    s.readOwner = s.modSec fun x => { x with owned := true } := by
  rw [State.readOwner, h]
  exact if_pos hg

theorem State.readOwner_bad {s : State} {r : OwnerRec} (h : s.sec.ownerRec = some r) (hg : s.ownerGood r = false) :
    s.readOwner = (s.modSec fun x => { x with owned := false }).hubFault 0x0703 0 := by
  rw [State.readOwner, h]
  exact if_neg (fun h' => absurd (h'.symm.trans hg) (by decide))

/-- The record decides OWNED and nothing else of the security state; only a record that fails leaves an entry in the log. -/
theorem State.readOwner_spec (s : State) : ∃ t, s.readOwner = t ∧
    t = { s with sec := t.sec, faults := t.faults, bar := t.bar, host := t.host } ∧ t.sec = { s.sec with owned := t.sec.owned } ∧
    (t.sec.owned = true ↔ ∃ r, s.sec.ownerRec = some r ∧ s.ownerGood r = true) ∧
    (∀ r, s.sec.ownerRec = some r → s.ownerGood r = false → Recorded s t 0x0703) ∧
    (s.sec.ownerRec = none ∨ (∃ r, s.sec.ownerRec = some r ∧ s.ownerGood r = true) → t.faults = s.faults) := by
  cases h : s.sec.ownerRec with
  | none =>
    refine ⟨_, State.readOwner_none h, rfl, rfl, ?_, ?_, fun _ => rfl⟩
    · simp [State.modSec]
    · simp
  | some r =>
    cases hg : s.ownerGood r with
    | true =>
      refine ⟨_, State.readOwner_good h hg, rfl, rfl, ?_, ?_, fun _ => rfl⟩
      · simp [State.modSec, hg]
      · simp [hg]
    | false =>
      obtain ⟨u, hu⟩ : ∃ u, u = s.modSec fun x => { x with owned := false } := ⟨_, rfl⟩
      have hkept := State.record_kept u 0x0703 5 0 0 0 0
      have hsec : (u.hubFault 0x0703 0).sec = { s.sec with owned := false } := by rw [State.hubFault, hkept, hu]; rfl
      refine ⟨_, State.readOwner_bad h hg, ?_, ?_, ?_, ?_, ?_⟩
      · rw [← hu, hsec, State.hubFault]
        subst hu
        exact hkept
      · rw [← hu, hsec]
      · rw [← hu, hsec]; simp [hg]
      · intro _ _ _
        rw [← hu]
        exact Recorded.of_faults (u := u) (by rw [hu]; rfl) (State.record_recorded u 0x0703 5 0 0 0 0)
      · simp [hg]

/-! ## The end of the self-test (R234, R236, R501) -/

/-- The entries of the self-test: a fault for each core and each crossing that failed. -/
theorem Logged.selfTest (s : State) (failed : List Nat) (crossings : List (Nat × Nat)) :
    ∃ u, ((failed.foldl (fun (s : State) k => s.record 0x0640 1 k 0 0 0) s).crossingFaults crossings) = u ∧ Logged s u ∧
      u.faults.total = s.faults.total + BitVec.ofNat 64 (failed.length + crossings.length) := by
  obtain ⟨hcores, hcount⟩ := Logged.failedCores failed s
  obtain ⟨hcross, hcount'⟩ := Logged.crossingFaults crossings (failed.foldl (fun (s : State) k => s.record 0x0640 1 k 0 0 0) s)
  refine ⟨_, rfl, hcores.trans hcross, ?_⟩
  rw [hcount', hcount, BitVec.ofNat_add, BitVec.add_assoc]

/-- The results of the self-test as the module keeps them, with fresh offsets for its crossings (R233, R234, R236). -/
def State.tested (s : State) (failed : List Nat) (crossings : List (Nat × Nat)) (bridges : BitVec 4) (stops : Nat) : State :=
  { s with
    board := { s.board with coresFailed := failed, tested := true }
    mesh := { s.mesh with aligned := crossings.isEmpty, bridgeOk := bridgesLeft bridges crossings, stopsFailed := BitVec.ofNat 10 (min stops 768)
                          offsets := s.freeCtr, realignAt := 0 }
    freeCtr := s.freeCtr + 4096 }

/-- The end of the self-test: its entries, its results, the owner record, and then every enabled port trains. -/
theorem exec_selfTestComplete_start {s : State} {failed : List Nat} {crossings : List (Nat × Nat)} {bridges : BitVec 4} {stops : Nat} {u w : State}
    (hstage : s.sec.stage = .fwStart) (hmain : s.power.mainOn = true) (htested : s.board.tested = false)
    (hu : (((List.range 768).filter failed.contains).foldl (fun (s : State) k => s.record 0x0640 1 k 0 0 0) s).crossingFaults crossings = u)
    (hw : (u.tested ((List.range 768).filter failed.contains) crossings bridges stops).readOwner.modSec (fun x => { x with stage := .ready }) = w) :
    exec (.selfTestComplete failed crossings bridges stops) s = .next
      (((List.range 24).filter fun p => bit (w.port p).cfg.toNat 0).foldl State.startPort w) := by
  simp only [exec, execSelfTestComplete]
  rw [if_pos (by rw [hstage, hmain, htested]; rfl), hu]
  subst hw
  simp only [State.modBoard, State.alignFrom, State.tested]

theorem bridgesLeft_nil : ∀ b : BitVec 4, bridgesLeft b [] = b := by decide

/-- A bridge passes when the self-test says so and none of its crossings failed (R234). -/
theorem bridgesLeft_bit (bridges : BitVec 4) (crossings : List (Nat × Nat)) : ∀ b < 4,
    (bridgesLeft bridges crossings).getLsbD b = (bridges.getLsbD b && !(crossings.any fun c => bridgeOf c.1 c.2 == some b)) := by
  have key : ∀ f0 f1 f2 f3 : Bool, ∀ b < 4, (BitVec.ofNat 4 ((if f3 then 2 ^ 3 else 0) + ((if f2 then 2 ^ 2 else 0) + ((if f1 then 2 ^ 1 else 0) + ((if f0 then 2 ^ 0 else 0) + 0))))).getLsbD b =
      if b = 0 then f0 else if b = 1 then f1 else if b = 2 then f2 else f3 := by decide
  intro b hb
  refine (key _ _ _ _ b hb).trans ?_
  rcases (by omega : b = 0 ∨ b = 1 ∨ b = 2 ∨ b = 3) with rfl | rfl | rfl | rfl <;> rfl

/-- The self-test of a module whose ports are all disabled: nothing trains. -/
theorem exec_selfTestComplete_quiet {s : State} {failed : List Nat} {crossings : List (Nat × Nat)} {bridges : BitVec 4} {stops : Nat} {u w : State}
    (hstage : s.sec.stage = .fwStart) (hmain : s.power.mainOn = true) (htested : s.board.tested = false) (hoff : ∀ p < 24, bit (s.port p).cfg.toNat 0 = false)
    (hu : (((List.range 768).filter failed.contains).foldl (fun (s : State) k => s.record 0x0640 1 k 0 0 0) s).crossingFaults crossings = u)
    (hw : (u.tested ((List.range 768).filter failed.contains) crossings bridges stops).readOwner.modSec (fun x => { x with stage := .ready }) = w) (hports : w.ports = s.ports) :
    exec (.selfTestComplete failed crossings bridges stops) s = .next w := by
  have hnone : ((List.range 24).filter fun p => bit (w.port p).cfg.toNat 0) = [] := by
    rw [List.filter_eq_nil_iff]
    intro p hp
    have : w.port p = s.port p := by rw [State.port, hports]; rfl
    rw [this, hoff p (List.mem_range.mp hp)]
    decide
  rw [exec_selfTestComplete_start hstage hmain htested hu hw, hnone]
  rfl

/-- An unowned module has no owner key that is VALID, and its EPOCH reads 0 (R485). -/
theorem State.unowned_keys {s : State} (h : s.sec.owned = false) (i u : Nat) : s.ownerKey i u = none := by
  rw [State.ownerKey, h]; rfl

theorem State.unowned_epoch {s : State} (h : s.sec.owned = false) : (s.regRead 0x500018).1 = some 0 := by
  have he : s.epoch = 0 := by rw [State.epoch, h]; rfl
  show (some (w32 (s.epoch % 2 ^ 32)) : Option Word32) = some 0
  rw [he]
  rfl

/-- Settles O60: the entries of the self-test come first, then the record decides OWNED; what the ports do after it leaves security state and log alone. -/
theorem ownerRecordRead : Obligations.OwnerRecordRead := by
  unfold Obligations.OwnerRecordRead
  intro s failed crossings bridges stops good hstage hmain htested hgood
  obtain ⟨u, hu, hlog, htotal⟩ := Logged.selfTest s ((List.range 768).filter failed.contains) crossings
  obtain ⟨v, hv⟩ : ∃ v, v = u.tested ((List.range 768).filter failed.contains) crossings bridges stops := ⟨_, rfl⟩
  have hsec : v.sec = s.sec := by rw [hv]; show u.sec = _; rw [hlog.1]
  have hfaults : v.faults = u.faults := by rw [hv]; rfl
  have hid : v.moduleId = s.moduleId := by rw [hv]; show u.moduleId = _; rw [hlog.1]
  have hsame : v.ownerGood = good := by
    funext r
    rw [hgood, State.ownerGood, hsec, hid]
  obtain ⟨w, hw, -, hwsec, howned, hbad, hquiet⟩ := State.readOwner_spec v
  rw [hsec] at hwsec howned hbad hquiet
  rw [hsame] at howned hbad hquiet
  obtain ⟨x, hx⟩ : ∃ x, x = w.modSec fun x => { x with stage := .ready } := ⟨_, rfl⟩
  obtain ⟨t, ht⟩ : ∃ t, t = ((List.range 24).filter fun p => bit (x.port p).cfg.toNat 0).foldl State.startPort x := ⟨_, rfl⟩
  obtain ⟨htsec, htfaults⟩ := foldl_startPort_kept ((List.range 24).filter fun p => bit (x.port p).cfg.toNat 0) x
  rw [← ht] at htsec htfaults
  replace htfaults : t.faults = w.faults := htfaults.trans (by rw [hx]; rfl)
  have hts : t.sec = { s.sec with owned := w.sec.owned, stage := .ready } := by
    rw [htsec, hx]
    show ({ w.sec with stage := .ready } : Security) = _
    rw [hwsec]
  refine ⟨t, ?_, by rw [hts], by rw [hts], by rw [hts]; exact howned, fun r hr hg => ⟨v, ?_, ?_⟩, fun h => ?_, fun h => ⟨fun i j => State.unowned_keys h i j, State.unowned_epoch h⟩⟩
  · rw [ht]
    exact exec_selfTestComplete_start hstage hmain htested hu (by rw [← hv, hw, hx])
  · obtain ⟨hcount, hentry⟩ := hbad r hr hg
    exact ⟨by rw [htfaults]; exact hcount, by rw [htfaults]; exact hentry⟩
  · rw [hfaults, htotal]
  · rw [htfaults, hquiet h, hfaults, htotal]

/-! ## The floor record and the firmware images (R481, R482) -/

/-- Step 3 of the boot: a floor record that verifies gives the floor, one that fails gives 0 and an entry, none gives 0 (R482). -/
theorem State.enterRomFw_spec (s : State) : ∃ t, s.enterRomFw = t ∧
    t = { s with sec := t.sec, faults := t.faults, bar := t.bar, host := t.host } ∧ t.host.eth = s.host.eth ∧
    t.sec = { s.sec with stage := .romFw, tried := [], floor := t.sec.floor, floorBad := t.sec.floorBad } ∧
    (s.sec.floorRec = none → t.sec.floor = 0 ∧ t.sec.floorBad = false ∧ t.faults = s.faults ∧ t.host = s.host) ∧
    (∀ r, s.sec.floorRec = some r →
      (edVerify s.sec.pub (r.body s.moduleId) r.sign = true → t.sec.floor = r.svn ∧ t.sec.floorBad = false ∧ t.faults = s.faults) ∧
      (edVerify s.sec.pub (r.body s.moduleId) r.sign = false → t.sec.floor = 0 ∧ t.sec.floorBad = true ∧ Recorded s t 0x0703)) := by
  obtain ⟨u, hu⟩ : ∃ u, u = s.modSec fun x => { x with stage := .romFw, tried := [], floorBad := false, floor := 0 } := ⟨_, rfl⟩
  have hrun : s.enterRomFw = match s.sec.floorRec with
      | none => u
      | some r => if edVerify s.sec.pub (r.body s.moduleId) r.sign then u.modSec fun x => { x with floor := r.svn }
        else (u.modSec fun x => { x with floorBad := true }).hubFault 0x0703 0 := by rw [hu]; rfl
  rw [hrun]
  cases hf : s.sec.floorRec with
  | none => subst hu; exact ⟨_, rfl, rfl, rfl, rfl, fun _ => ⟨rfl, rfl, rfl, rfl⟩, by simp⟩
  | some r =>
    dsimp only
    cases hg : edVerify s.sec.pub (r.body s.moduleId) r.sign with
    | true =>
      rw [if_pos rfl]
      subst hu
      refine ⟨_, rfl, rfl, rfl, rfl, by simp, fun q hq => ?_⟩
      cases hq
      exact ⟨fun _ => ⟨rfl, rfl, rfl⟩, fun h => absurd (hg.symm.trans h) (by decide)⟩
    | false =>
      rw [if_neg (by decide)]
      obtain ⟨v, hv⟩ : ∃ v, v = u.modSec fun x => { x with floorBad := true } := ⟨_, rfl⟩
      have hkept := State.record_kept v 0x0703 5 0 0 0 0
      have hsec : (v.hubFault 0x0703 0).sec = v.sec := by rw [State.hubFault, hkept]
      rw [← hv]
      refine ⟨_, rfl, ?_, ?_, ?_, by simp, fun q hq => ?_⟩
      · rw [hsec, State.hubFault]
        subst hv hu
        exact hkept
      · exact (State.recordAs_eth v _ _ _ _ _ _ _).trans (by rw [hv, hu]; rfl)
      · rw [hsec, hv, hu]; rfl
      · cases hq
        exact ⟨fun h => absurd (hg.symm.trans h) (by decide), fun _ => ⟨by rw [hsec, hv, hu]; rfl, by rw [hsec, hv]; rfl,
          Recorded.of_faults (u := v) (by rw [hv, hu]; rfl) (State.record_recorded v 0x0703 5 0 0 0 0)⟩⟩

section Images
variable {s : State} (hstage : s.sec.stage = .romFw) (hstandby : s.board.standby = true) (hlow : s.board.low = false)
include hstage hstandby hlow

/-- The ROM has work: the firmware is not started, standby power is there, and MOD_RESET_N is high. -/
theorem State.rom_runs : ¬(s.sec.stage ≠ .romFw ∨ (!s.board.standby) = true ∨ s.board.low = true) := by
  simp [hstage, hstandby, hlow]

theorem exec_imageCheck_none (h : s.candidate = none) : exec .imageCheck s = .next s.haltFw := by
  simp only [exec, execImageCheck]
  rw [if_neg (State.rom_runs hstage hstandby hlow), h]

theorem exec_imageCheck_good {i : Nat} (h : s.candidate = some i) (hg : s.imageGood i = true) : exec .imageCheck s = .next
    (s.modSec fun x => { x with stage := .fwStart, slot := i, svn := BitVec.ofNat 32 (s.slotSvn i), image := sha512 (s.imageBytes i) }) := by
  simp only [exec, execImageCheck]
  rw [if_neg (State.rom_runs hstage hstandby hlow), h]
  simp only [hg, if_true]

theorem exec_imageCheck_bad {i : Nat} {t : State} (h : s.candidate = some i) (hg : s.imageGood i = false)
    (ht : t = (s.modSec fun x => { x with tried := x.tried ++ [i] }).hubFault 0x0704 (pack [(1, i), (32, s.slotSvn i)])) :
    exec .imageCheck s = .next (if t.candidate = none then t.haltFw else t) := by
  simp only [exec, execImageCheck]
  rw [if_neg (State.rom_runs hstage hstandby hlow), h]
  simp only [hg, ← ht, Option.isNone_iff_eq_none]
  rfl

end Images

/-! ## Standby power (R476 to R479, R494) -/

/-- A flash command that is cut off leaves the queue; the block of a PROGRAM that ran is torn (R500). -/
theorem State.cutFlash_spec (s : State) : ∃ l, s.cutFlash = { s with sec := { s.sec with ops := [], torn := l } } ∧
    ∀ o w r, s.sec.ops = .program o w :: r → o ∈ l := by
  unfold State.cutFlash
  split
  · rename_i o w r h
    refine ⟨_, rfl, fun o' w' r' h' => ?_⟩
    cases h.symm.trans h'
    exact mem_markPut.mpr (.inl rfl)
  · rename_i hne
    exact ⟨_, rfl, fun o w r h => absurd h (hne o w r)⟩

theorem ethWithMac_address (base : BitVec 48) {e : Nat} (h : e < 8) :
    (((ethWithMac base).getD e {}).macHi ++ ((ethWithMac base).getD e {}).macLo : BitVec 48) = base + BitVec.ofNat 48 e := by
  have hget : (ethWithMac base).getD e {} = { macLo := (base + BitVec.ofNat 48 e).setWidth 32, macHi := ((base + BitVec.ofNat 48 e) >>> 32).setWidth 16 } := by
    simp [ethWithMac, List.getD_eq_getElem?_getD, h]
  rw [hget]
  generalize base + BitVec.ofNat 48 e = m
  apply BitVec.eq_of_getLsbD_eq
  intro i hi
  rw [BitVec.getLsbD_append]
  by_cases h32 : i < 32
  · simp [h32]
  · simp [h32]
    rw [show 32 + (i - 32) = i by omega, decide_eq_true (by omega : i - 32 < 16), Bool.true_and]

/-- The identity from a seed, the certificate agreeing or not (R476, R477). -/
theorem State.identify_eq (s : State) (seed pub : List Byte) (hpub : pub = edPublic (deviceKey seed)) :
    s.identify seed = (let u : State := { s with moduleId := moduleIdOf pub, sec := { s.sec with priv := deviceKey seed, pub := pub } }
      if pub = s.sec.certPub then u.enterRomFw else (u.modSec fun x => { x with stage := .haltId }).hubFault 0x0701 0) := by
  rw [hpub]; rfl

/-- The module as standby power wakes it, before it knows who it is: what the board and the straps give (R477 to R479). -/
def State.woken (s : State) (cert : List Byte) (mac : BitVec 48) (slot : BitVec 3) (bench : BitVec 13) (smbus refA refB second : Bool) : State :=
  { s.cold true with
    sec := { (s.cold true).sec with certPub := cert, macBase := mac, helper1 := second }
    board := { standby := true, slotStrap := slot, smbus := smbus }
    route := { self := slot ++ bench }
    host := { eth := ethWithMac mac }
    clk := { refA := { present := refA }, refB := { present := refB }, active := if !refA && refB then 1 else 0 } }

theorem exec_standbyPowerUp_seed {s : State} {x cert : List Byte} {mac : BitVec 48} {slot : BitVec 3} {bench : BitVec 13} {smbus refA refB : Bool}
    {seed0 seed1 : Option (List Byte)} (hoff : s.board.standby = false) (hseed : seed0 = some x ∨ seed0 = none ∧ seed1 = some x) :
    exec (.standbyPowerUp seed0 seed1 cert mac slot bench smbus refA refB) s = .next ((s.woken cert mac slot bench smbus refA refB seed0.isNone).identify x) := by
  simp only [exec, execStandbyPowerUp]
  rw [if_neg (by rw [hoff]; decide)]
  rcases hseed with rfl | ⟨rfl, rfl⟩ <;> rfl

/-! ## The statement -/

/-- Standby power up with a seed: the certificate's key decides whether the boot reaches step 3 (R476, R477, R482). -/
theorem standbyPowerUp_seed {s : State} {x cert : List Byte} {mac : BitVec 48} {slot : BitVec 3} {bench : BitVec 13} {smbus refA refB : Bool}
    {seed0 seed1 : Option (List Byte)} {pub : List Byte} (hoff : s.board.standby = false) (hseed : seed0 = some x ∨ seed0 = none ∧ seed1 = some x)
    (hpub : pub = edPublic (deviceKey x)) :
    ∃ t, exec (.standbyPowerUp seed0 seed1 cert mac slot bench smbus refA refB) s = .next t ∧
      t = { s.woken cert mac slot bench smbus refA refB seed0.isNone with moduleId := moduleIdOf pub, sec := t.sec, faults := t.faults, bar := t.bar, host := t.host } ∧
      t.host.eth = ethWithMac mac ∧
      t.sec = { (s.woken cert mac slot bench smbus refA refB seed0.isNone).sec with
        priv := deviceKey x, pub := pub, stage := t.sec.stage, tried := t.sec.tried, floor := t.sec.floor, floorBad := t.sec.floorBad } ∧
      (pub ≠ cert → t.sec.stage = .haltId ∧ Recorded {} t 0x0701) ∧
      (pub = cert → t.sec.stage = .romFw ∧ t.sec.tried = [] ∧
        (s.sec.floorRec = none → t.sec.floor = 0 ∧ t.sec.floorBad = false ∧ t.faults = {}) ∧
        (∀ r, s.sec.floorRec = some r →
          (edVerify pub (r.body t.moduleId) r.sign = true → t.sec.floor = r.svn ∧ t.sec.floorBad = false ∧ t.faults = {}) ∧
          (edVerify pub (r.body t.moduleId) r.sign = false → t.sec.floor = 0 ∧ t.sec.floorBad = true ∧ Recorded {} t 0x0703))) := by
  obtain ⟨a, ha⟩ : ∃ a, a = s.woken cert mac slot bench smbus refA refB seed0.isNone := ⟨_, rfl⟩
  obtain ⟨u, hu⟩ : ∃ u : State, u = { a with moduleId := moduleIdOf pub, sec := { a.sec with priv := deviceKey x, pub := pub } } := ⟨_, rfl⟩
  have hcert : a.sec.certPub = cert := by rw [ha]; rfl
  have hrun : exec (.standbyPowerUp seed0 seed1 cert mac slot bench smbus refA refB) s = .next
      (if pub = cert then u.enterRomFw else (u.modSec fun x => { x with stage := .haltId }).hubFault 0x0701 0) := by
    rw [exec_standbyPowerUp_seed hoff hseed, State.identify_eq _ x pub hpub, ← ha, hcert, hu]
  rw [← ha]
  by_cases hc : pub = cert
  · rw [if_pos hc] at hrun
    obtain ⟨t, ht, hkept, heth, hsec, hnone, hsome⟩ := State.enterRomFw_spec u
    refine ⟨t, by rw [hrun, ht], ?_, ?_, ?_, fun h => absurd hc h, fun _ => ⟨by rw [hsec], by rw [hsec], fun h => ?_, fun r hr => ?_⟩⟩
    · conv_lhs => rw [hkept, hu]
    · rw [heth, hu, ha]; rfl
    · rw [hsec, hu]
    · obtain ⟨h1, h2, h3, -⟩ := hnone (by rw [hu, ha]; exact h)
      exact ⟨h1, h2, h3.trans (by rw [hu, ha]; rfl)⟩
    · obtain ⟨h1, h2⟩ := hsome r (by rw [hu, ha]; exact hr)
      have hid : t.moduleId = u.moduleId := by rw [hkept]
      have hpubu : u.sec.pub = pub := by rw [hu]
      have hfaults : u.faults = ({} : State).faults := by rw [hu, ha]; rfl
      rw [hid, ← hpubu]
      refine ⟨fun hv => ?_, fun hv => ?_⟩
      · obtain ⟨g1, g2, g3⟩ := h1 hv
        exact ⟨g1, g2, g3.trans hfaults⟩
      · obtain ⟨g1, g2, g3⟩ := h2 hv
        exact ⟨g1, g2, g3.of_faults hfaults⟩
  · rw [if_neg hc] at hrun
    obtain ⟨v, hv⟩ : ∃ v, v = u.modSec fun x => { x with stage := .haltId } := ⟨_, rfl⟩
    have hkept := State.record_kept v 0x0701 5 0 0 0 0
    have hsec : (v.hubFault 0x0701 0).sec = v.sec := by rw [State.hubFault, hkept]
    rw [← hv] at hrun
    refine ⟨_, hrun, ?_, ?_, ?_, fun _ => ⟨by rw [hsec, hv]; rfl, ?_⟩, fun h => absurd h hc⟩
    · rw [hsec, State.hubFault]
      subst hv hu
      exact hkept
    · exact (State.recordAs_eth v _ _ _ _ _ _ _).trans (by rw [hv, hu, ha]; rfl)
    · rw [hsec, hv, hu]; rfl
    · exact Recorded.of_faults (u := v) (by rw [hv, hu, ha]; rfl) (State.record_recorded v 0x0701 5 0 0 0 0)

/-- MOD_RESET_N goes low: the entry of a module with a job, and the loss of what lies in the main domains (R500). -/
theorem modResetAssert_spec {s : State} (hstandby : s.board.standby = true) (hlow : s.board.low = false) : ∃ u l, exec .modResetAssert s = .next
      (({ u with sec := { s.sec with ops := [], torn := l } } : State).mainOff.modBoard fun b => { b with
        low := true, mgmtOut := [], driven := none, cause := if s.power.tripped ≠ 0 then s.board.cause else if s.anyAttached then 2 else 1 }) ∧
    u = { s with faults := u.faults, bar := u.bar, host := u.host } ∧
    (s.anyAttached = false → u = s) ∧ (s.anyAttached = true → Recorded s u 0x0641) := by
  obtain ⟨u, hu⟩ : ∃ u, u = if s.anyAttached then s.powerFault 0x0641 0 0 else s := ⟨_, rfl⟩
  have hkept : u = { s with faults := u.faults, bar := u.bar, host := u.host } := by
    rw [hu]
    split
    · exact State.power_kept _ _ _ _
    · rfl
  obtain ⟨l, hcut, -⟩ := State.cutFlash_spec u
  have hsec : u.sec = s.sec := by rw [hkept]
  have hboard : u.board = s.board := by rw [hkept]
  have hpower : u.power = s.power := by rw [hkept]
  refine ⟨u, l, ?_, hkept, fun h => by rw [hu, h]; rfl, fun h => ?_⟩
  · simp only [exec, execModResetAssert]
    rw [if_neg (by simp [hstandby, hlow]), ← hu, hcut, hsec, ← hpower, ← hboard]
    rfl
  · rw [hu, if_pos h]
    exact State.power_recorded _ _ _ _

/-- MOD_RESET_N goes high: the registers after it, before the boot goes on (R500). -/
def State.released (s : State) (slot : BitVec 3) (bench : BitVec 13) (smbus : Bool) : State :=
  { s.mainOff with
    route := { self := slot ++ bench }
    power := { excursion := s.power.excursion, coresFrom := s.now }
    clk := { s.clk with force := 0, thermal := 0, power := 0, droop := 0, hot := false }
    tel := { energy := s.tel.energy, pin := s.tel.pin, vin := s.tel.vin, inlet := s.tel.inlet, outlet := s.tel.outlet, temps := s.tel.temps }
    host := { eth := ethWithMac s.sec.macBase }
    board := { cause := s.board.cause, resets := s.board.resets + 1, slotStrap := slot, smbus := smbus, scan := s.board.scan, ir := s.board.ir, jtagOut := s.board.jtagOut }
    sec := { s.sec with slot := 0, svn := 0, image := List.replicate 64 0, owned := false, win := [], flashOff := 0, epochLatch := 0, debug := false, ops := [], tried := [] } }

theorem exec_modResetRelease_low {s : State} (slot : BitVec 3) (bench : BitVec 13) (smbus : Bool) (hlow : s.board.low = true) :
    exec (.modResetRelease slot bench smbus) s = .next
      (if s.sec.stage = .haltId then s.released slot bench smbus else (s.released slot bench smbus).enterRomFw) := by
  simp only [exec, execModResetRelease]
  rw [if_neg (by simp [hlow])]
  rfl

/-- Settles O53: each step of the boot by the lemma that says what it decides. The image-good case is what the model's free ROM key digests make of an
image; what MOD_RESET_N keeps is log 30's choice, that CAUSE 3 and 4 stay is log 21's, and the readings of the start are log 31's. -/
theorem bootAndReset : Obligations.BootAndReset := by
  unfold Obligations.BootAndReset
  refine ⟨fun s x cert mac slot bench smbus refA refB seed0 seed1 pub hoff hseed hpub => ?powerUp, fun s hstandby => ?powerDown, fun s hstage hstandby hlow => ?image,
    fun s hstage => ?start, fun s hstandby hlow => ?assert, fun s slot bench smbus hlow hfloor => ?release⟩
  case powerUp =>
    obtain ⟨t, hrun, hkept, heth, hsec, hbad, hgood⟩ := standbyPowerUp_seed (cert := cert) (mac := mac) (slot := slot) (bench := bench) (smbus := smbus)
      (refA := refA) (refB := refB) hoff hseed hpub
    refine ⟨t, hrun, by rw [hkept]; rfl, by rw [hkept]; rfl, by rw [hkept]; rfl, by rw [hkept]; rfl, by rw [hkept]; rfl, by rw [hkept]; rfl, by rw [hkept]; rfl,
      by rw [hkept]; rfl, by rw [hsec], by rw [hsec]; rfl, by rw [hsec]; rfl, by rw [hsec]; rfl, by rw [hsec]; rfl, ?_, by rw [hkept]; rfl, by rw [hkept]; rfl, fun e he => ?_, hbad, hgood⟩
    · rw [hsec]
      show seed0.isNone = true ↔ _
      simp
    · rw [State.eth, heth]
      exact ethWithMac_address mac he
  case powerDown =>
    obtain ⟨l, hcut, htorn⟩ := State.cutFlash_spec s
    refine ⟨s.cutFlash.cold false, ?_, rfl, rfl, rfl, ?_, rfl, rfl, ?_, ?_, ?_, rfl, fun o w r h => ?_⟩
    · simp only [exec, execStandbyPowerDown]
      rw [if_pos hstandby]
    all_goals rw [hcut]
    · rfl
    · rfl
    · rfl
    · rfl
    · exact htorn o w r h
  case image =>
    refine ⟨fun h => exec_imageCheck_none hstage hstandby hlow h, fun i h hg => exec_imageCheck_good hstage hstandby hlow h hg, fun i t h hg ht => ⟨fun hc => ?_, fun hc => ?_⟩,
      fun i h => State.candidate_spec h⟩
    · rw [exec_imageCheck_bad hstage hstandby hlow h hg ht, if_neg hc]
    · rw [exec_imageCheck_bad hstage hstandby hlow h hg ht, if_pos hc]; rfl
  case start =>
    refine ⟨fun hm he ht hl => ?_, fun bridges stops hmain htested hoff => ?_, fun failed crossings bridges stops hmain htested hoff => ?_⟩
    · simp only [exec, execMainRegulation]
      rw [if_pos (by simp [hstage, hm, he, ht, hl])]
      rfl
    · have hnone : (List.range 768).filter ([] : List Nat).contains = [] := List.filter_eq_nil_iff.mpr (by simp)
      have hu : (((List.range 768).filter ([] : List Nat).contains).foldl (fun (s : State) k => s.record 0x0640 1 k 0 0 0) s).crossingFaults [] = s := by rw [hnone]; rfl
      have hv : s.tested ((List.range 768).filter ([] : List Nat).contains) [] bridges stops = { s with
          board := { s.board with coresFailed := [], tested := true }
          mesh := { s.mesh with aligned := true, bridgeOk := bridges, stopsFailed := BitVec.ofNat 10 (min stops 768), offsets := s.freeCtr, realignAt := 0 }
          freeCtr := s.freeCtr + 4096 } := by
        rw [hnone, State.tested, bridgesLeft_nil]; rfl
      refine ⟨fun h => exec_selfTestComplete_quiet hstage hmain htested hoff hu ?_ rfl, fun r h hg => exec_selfTestComplete_quiet hstage hmain htested hoff hu ?_ rfl⟩
      · rw [State.readOwner_none (by exact h), hv]; rfl
      · rw [State.readOwner_good (by exact h) (by exact hg), hv]; rfl
    · obtain ⟨u, hu, hlog, -⟩ := Logged.selfTest s ((List.range 768).filter failed.contains) crossings
      obtain ⟨w, hw, hkept, hsec, -⟩ := State.readOwner_spec (u.tested ((List.range 768).filter failed.contains) crossings bridges stops)
      have hus := hlog.1
      refine ⟨w.modSec fun x => { x with stage := .ready }, exec_selfTestComplete_quiet hstage hmain htested hoff hu (by rw [hw]) ?_, ?_, ?_, rfl, ?_, ?_, ?_, ?_, fun b hb => ?_⟩
      · show w.ports = _; rw [hkept]; show u.ports = _; rw [hus]
      · show w.board.tested = _; rw [hkept]; rfl
      · show w.board.coresFailed = _; rw [hkept, State.tested]
      · show w.mesh.aligned = _; rw [hkept]; rfl
      · show w.mesh.stopsFailed = _; rw [hkept]; rfl
      · show w.cores = _; rw [hkept]; show u.cores = _; rw [hus]
      · show w.now = _; rw [hkept]; show u.now = _; rw [hus]
      · show w.mesh.bridgeOk.getLsbD b = _; rw [hkept]; exact bridgesLeft_bit bridges crossings b hb
  case assert =>
    obtain ⟨u, l, hrun, hkept, hfree, hjob⟩ := modResetAssert_spec hstandby hlow
    refine ⟨_, hrun, rfl, rfl, rfl, ?_, ?_, rfl, ?_, ?_, rfl, fun h => ⟨?_, fun ht => ?_⟩, fun h => ⟨hjob h, fun ht => ?_⟩, fun ht => ?_⟩
    · show u.pending = _; rw [hkept]
    · show u.now = _; rw [hkept]
    · show u.clk = _; rw [hkept]
    · show u.tel = _; rw [hkept]
    · show u.faults = _; rw [hfree h]
    · show (if s.power.tripped ≠ 0 then s.board.cause else if s.anyAttached then 2 else 1) = 1; rw [if_neg (by simp [ht]), h]; rfl
    · show (if s.power.tripped ≠ 0 then s.board.cause else if s.anyAttached then 2 else 1) = 2; rw [if_neg (by simp [ht]), h]; rfl
    · exact if_pos ht
  case release =>
    obtain ⟨t, ht, hkept, -, hsec, hnone, -⟩ := State.enterRomFw_spec (s.released slot bench smbus)
    obtain ⟨h1, h2, h3, h4⟩ := hnone hfloor
    rw [exec_modResetRelease_low slot bench smbus hlow]
    by_cases hs : s.sec.stage = .haltId
    · rw [if_pos hs]
      exact ⟨_, rfl, rfl, rfl, rfl, rfl, rfl, rfl, rfl, rfl, rfl, rfl, rfl, rfl, rfl, rfl, rfl, rfl, rfl, rfl, rfl, rfl, rfl, rfl, fun _ => hs, fun h => absurd hs h⟩
    · rw [if_neg hs, ht]
      have hboard : t.board = (s.released slot bench smbus).board := by rw [hkept]
      have hpower : t.power = (s.released slot bench smbus).power := by rw [hkept]
      refine ⟨t, rfl, by rw [hboard]; rfl, by rw [hkept]; rfl, by rw [hkept]; rfl, by rw [hkept]; rfl, h3, by rw [hkept]; rfl, by rw [hkept]; rfl, by rw [hkept]; rfl,
        by rw [hsec]; rfl, by rw [hsec]; rfl, by rw [hsec]; rfl, by rw [hsec]; rfl, by rw [hsec]; rfl, by rw [hkept]; rfl, by rw [hpower]; rfl, by rw [hpower]; rfl, by rw [hpower]; rfl,
        h4, by rw [hboard]; rfl, by rw [hboard]; rfl, by rw [hboard]; rfl, by rw [hboard]; rfl, fun h => absurd h hs, fun _ => ⟨by rw [hsec], by rw [hsec], h1⟩⟩

end Sys2Proof.Machine

/-! SUPPORT. The monitor of the two references: what the loss, the measurement and the return of a reference do, and the enables of CLK_CFG. -/

namespace Sys2Proof.Machine

/-! ## The loss of a reference (R455) -/

theorem exec_refNoEdge_unmonitored {s : State} {r : Nat} (h : s.monitored r = false) : exec (.refNoEdge r) s = .next s := by
  simp only [exec, execRefNoEdge, h, Bool.false_eq_true, if_false]

theorem exec_refNoEdge_monitored {s : State} {r : Nat} (h : s.monitored r = true) : exec (.refNoEdge r) s = .next (s.loseRef r) := by
  simp only [exec, execRefNoEdge, h, if_true]

theorem State.loseRef_absent {s : State} {r : Nat} (h : (s.clk.ref r).present = false) : s.loseRef r = s := by
  rw [State.loseRef, h]; rfl

theorem State.monitored_index {s : State} {r : Nat} (h : s.monitored r = true) : r = 0 ∨ r = 1 := ((s.monitored_iff r).mp h).2.1

/-! ## A window of measurement (R454, R457) -/

/-- The state after a window that measured offset off of reference r. -/
def State.measured (s : State) (r : Nat) (off : BitVec 16) : State :=
  { s with clk := s.clk.modRef r fun x => { x with offset := off, since := if !x.present && decide (2000 < off.toInt.natAbs) then s.tick else x.since } }

theorem State.measured_eq (s : State) (r : Nat) (off : BitVec 16) : s.measured r off =
    { s with clk := s.clk.modRef r fun x => { x with offset := off, since := if x.present = false ∧ 2000 < off.toInt.natAbs then s.tick else x.since } } := by
  simp [State.measured]

theorem State.monitored_measured {s : State} {r : Nat} {off : BitVec 16} : (s.measured r off).monitored r = s.monitored r := by
  rw [State.monitored, State.monitored, Clocks.enabled, Clocks.enabled, State.measured, (Clocks.modRef_kept s.clk r _).1]

/-- A window: the offset is noted, a reference beyond 500 ppm is lost, and drift in holdover is recorded once (R455, R457). -/
theorem exec_refMonitorWindow_monitored {s : State} {r : Nat} {off : BitVec 16} {drift : Bool} (h : s.monitored r = true) :
    exec (.refMonitorWindow r off drift) s =
      .next (let t := if 5000 < off.toInt.natAbs then (s.measured r off).loseRef r else s.measured r off
        if drift && t.board.standby then t.holdLimit else t) := by
  simp only [exec, execRefMonitorWindow, h]
  rfl

/-! ## A reference is present again (R455) -/

theorem exec_refPresent_returns {s : State} {r : Nat} {u : State} (hm : s.monitored r = true) (habsent : (s.clk.ref r).present = false)
    (hoff : (s.clk.ref r).offset.toInt.natAbs ≤ 2000) (hu : u = State.modClk (s.advanceTick ((s.clk.ref r).since + 1000000)) fun c =>
      c.modRef r fun x => { x with present := true, since := (s.advanceTick ((s.clk.ref r).since + 1000000)).tick }) :
    exec (.refPresent r) s = .next (if u.clk.holdover then
        (u.modClk fun c => { c with holdover := false, holdLimit := false, active := r }).powerFault 0x0603 r 0
      else if (u.clk.ref u.clk.active).present then u
      else u.modClk fun c => { c with active := r }) := by
  simp only [exec, execRefPresent]
  rw [if_neg (by rw [hm, habsent, decide_eq_false (show ¬ 2000 < offsetSize (s.clk.ref r).offset from by unfold offsetSize; omega)]; decide), hu]

/-! ## A write of CLK_CFG (R473) -/

/-- A reference whose enable stays is left as it is. -/
theorem clkStep_same {old : Clocks} {s : State} {r : Nat} (h : old.enabled r = s.clk.enabled r) : clkStep old s r = s := by
  rw [clkStep, h]
  cases s.clk.enabled r <;> rfl

theorem clkStep_disabled {old : Clocks} {s : State} {r : Nat} (hold : old.enabled r = true) (hnew : s.clk.enabled r = false) : clkStep old s r = s.loseRef r := by
  rw [clkStep, hold, hnew]; rfl

/-! ## The statement -/

/-- Settles O55: each measurement by the rule of the loss, of the return, or of the preferred reference. -/
theorem referenceMonitor : Obligations.ReferenceMonitor := by
  unfold Obligations.ReferenceMonitor
  refine ⟨State.monitored_iff, fun s r u hu => ⟨exec_refNoEdge_unmonitored, fun h => ?absent, fun hm hp => ?loses⟩, fun s r off u hm hu => ?window,
    fun s r v u hcalm hm habsent hoff hv hu => ?present, fun s r v hcalm hr hv => ⟨fun hon hm hp hh ha => ?reverts, fun h => ?stays⟩, fun s v u ha hu => ?cfg⟩
  case absent =>
    cases hm : s.monitored r with
    | false => exact exec_refNoEdge_unmonitored hm
    | true => rw [exec_refNoEdge_monitored hm, State.loseRef_absent h]
  case loses =>
    obtain ⟨-, hspec⟩ := State.loseRef_spec s r u (State.monitored_index hm) hu
    obtain ⟨h1, h2, h3⟩ := hspec hp
    rw [exec_refNoEdge_monitored hm]
    exact ⟨fun h => by rw [h1 h], fun h g => by rw [h2 h g], fun h g => by rw [h3 h g]⟩
  case window =>
    rw [← State.measured_eq] at hu
    obtain ⟨-, hactive, -, hhold, hlimit⟩ := Clocks.modRef_kept s.clk r fun x => { x with offset := off, since := if !x.present && decide (2000 < off.toInt.natAbs) then s.tick else x.since }
    have hstandby : u.board.standby = true := by rw [hu]; exact ((s.monitored_iff r).mp hm).1
    have hu2 : u.clk.active = s.clk.active := by rw [hu, State.measured]; exact hactive
    have hu4 : u.clk.holdover = s.clk.holdover := by rw [hu, State.measured]; exact hhold
    have hu5 : u.clk.holdLimit = s.clk.holdLimit := by rw [hu, State.measured]; exact hlimit
    simp only [exec_refMonitorWindow_monitored hm, ← hu]
    have hle (h : off.toInt.natAbs ≤ 5000) : ¬ 5000 < off.toInt.natAbs := Nat.not_lt.mpr h
    refine ⟨fun hin => ?_, fun hout => ?_, fun hin hh hl => ?_, fun hin hno => ?_⟩
    · rw [if_neg (hle hin)]; rfl
    · rw [if_pos hout, exec_refNoEdge_monitored (by rw [hu, State.monitored_measured]; exact hm)]; rfl
    · rw [if_neg (hle hin), if_pos (by rw [hstandby]; rfl), State.holdLimit, if_pos (by rw [hu4, hu5, hh, hl]; rfl), ← hu2]; rfl
    · rw [if_neg (hle hin), if_pos (by rw [hstandby]; rfl), State.holdLimit, hu4, hu5, if_neg (by rcases hno with h | h <;> simp [h])]
  case present =>
    have hvc : v.clk = s.clk := by rw [hv, State.advanceTick, State.advance_clk]
    obtain ⟨-, hactive, -, hhold, -⟩ := Clocks.modRef_kept v.clk r fun x => { x with present := true, since := v.tick }
    have hu2 : u.clk.active = s.clk.active := by rw [hu, ← hvc]; exact hactive
    have hu4 : u.clk.holdover = s.clk.holdover := by rw [hu, ← hvc]; exact hhold
    have hother (ha : s.clk.active ≠ r) (h01 : s.clk.active = 0 ∨ s.clk.active = 1) : u.clk.ref s.clk.active = s.clk.ref s.clk.active := by
      have := State.monitored_index hm
      rw [hu, ← hvc]
      exact Clocks.ref_modRef_other (by rw [hvc]; omega) _
    rw [exec_refPresent_returns (u := u) hm habsent hoff (by rw [hu, hv]; rfl), hu2, hu4]
    refine ⟨fun h => ?_, fun h ha hp h01 => ?_, fun h ha hp h01 => ?_⟩
    · rw [h]; rfl
    · rw [h, hother ha h01, hp]; rfl
    · rw [h, hother ha h01, hp]; rfl
  case reverts =>
    have hvc : v.clk = s.clk := by rw [hv, State.advanceTick, State.advance_clk]
    simp only [exec, execRefRevert, ← hr]
    rw [if_pos (by simp [hon, hm, hp, hh, ha]), ← hv, State.modClk, ← hvc]
  case stays =>
    simp only [exec, execRefRevert, ← hr]
    rw [if_neg (by rcases h with h | h | h | h <;> simp [h])]
  case cfg =>
    have hmask (q : Nat) (hq : q < 2) : u.clk.enabled q = bit v.toNat (2 + q) := by rw [hu]; exact enabled_masked s.clk v q hq
    have hwrite : exec (.clkCfgWrite 0x200000 v) s = .next (clkStep s.clk (clkStep s.clk u (1 - s.clk.active)) s.clk.active) := by
      simp only [exec, execClkCfgWrite, if_true]
      rw [writeClkCfg_eq s v u hu ha]
    refine ⟨fun a h => ?_, fun h0 h1 => ?_, fun r w hr hold hnew hsame hw => ?_⟩
    · simp only [exec, execClkCfgWrite, h, if_false]
    · have hstay (q : Nat) (hq : q = 0 ∨ q = 1) : s.clk.enabled q = u.clk.enabled q := by
        rcases hq with rfl | rfl
        · rw [h0, hmask 0 (by decide)]
        · rw [h1, hmask 1 (by decide)]
      rw [hwrite, clkStep_same (hstay _ (by omega)), clkStep_same (hstay _ ha)]
    · have hrest : clkStep s.clk u (1 - s.clk.active) = u := by
        refine clkStep_same ?_
        rw [← hr, hsame, hmask _ (by omega), show 2 + (1 - r) = 3 - r by omega]
      have hloses : exec (.clkCfgWrite 0x200000 v) s = .next (u.loseRef r) := by
        rw [hwrite, hrest, ← hr, clkStep_disabled hold (by rw [hmask r (by omega)]; exact hnew)]
      obtain ⟨habsent, hspec⟩ := State.loseRef_spec u r w (by omega) (by rw [hw, hu]; rfl)
      have href (q : Nat) : u.clk.ref q = s.clk.ref q := by rw [hu]; rfl
      have hactive : u.clk.active = r := by rw [hu, hr]
      have hswitch : u.clk.switches = s.clk.switches := by rw [hu]
      rw [href] at habsent hspec
      rw [href, hswitch] at hspec
      rw [hloses]
      refine ⟨fun h => by rw [habsent h], fun h g => ?_, fun h g => ?_⟩
      · rw [(hspec h).2.1 hactive g]
      · rw [(hspec h).2.2 hactive g]

end Sys2Proof.Machine

/-! SUPPORT. The throttle demands, the telemetry, and the excursions and trips of the input supply. -/

namespace Sys2Proof.Machine

/-! ## The raise of a demand (R460 to R462) -/

/-- The moment of the next raise: the first comes at once, the others 10,000 ticks after the one before (log 6). -/
def State.raiseAt (s : State) (last : Nat) : State := if last = 0 then s else s.advanceTick (last + 10000)

theorem State.raiseAt_clk (s : State) (last : Nat) : (s.raiseAt last).clk = s.clk := by
  unfold State.raiseAt
  split
  · rfl
  · rw [State.advanceTick, State.advance_clk]

/-- An episode begins with a record, which leaves clocks and time alone. -/
theorem State.powerFault_clk (s : State) (c l d : Nat) : (s.powerFault c l d).clk = s.clk := by rw [State.power_kept]

theorem State.powerFault_tick (s : State) (c l d : Nat) : (s.powerFault c l d).tick = s.tick := by rw [State.power_kept]; rfl

section Thermal
variable {s : State} {n : Nat} {t : BitVec 16} (hstandby : s.board.standby = true) (hn : n < 104) (hhot : 16 * (s.tel.therm.toNat : Int) ≤ t.toInt)
include hstandby hn hhot

theorem exec_thermalDemandRaise_hot : exec (.thermalDemandRaise n t) s = .next
    (((s.raiseAt s.clk.thermalTick).thermalEpisode n).modClk fun c =>
      { c with thermal := min 8 (c.thermal + 1), thermalTick := ((s.raiseAt s.clk.thermalTick).thermalEpisode n).tick }) := by
  simp only [exec, execThermalDemandRaise]
  rw [if_pos ⟨hstandby, hn, hhot⟩]
  rfl

theorem exec_thermalDemandRaise_first {u : State} (hu : u = s.raiseAt s.clk.thermalTick) (h : s.clk.thermal = 0) :
    ∃ v, v = State.record u 0x0620 6 n 0 0 0 ∧ exec (.thermalDemandRaise n t) s = .next { v with clk := { v.clk with thermal := 1, thermalTick := u.tick } } := by
  have hclk : u.clk = s.clk := by rw [hu, State.raiseAt_clk]
  refine ⟨_, rfl, ?_⟩
  rw [exec_thermalDemandRaise_hot hstandby hn hhot, ← hu, State.thermalEpisode, hclk, if_pos h, State.powerFault_tick, State.modClk, State.powerFault_clk, hclk, h]
  rw [show State.record u 0x0620 6 n 0 0 0 = u.powerFault 0x0620 n 0 from rfl, State.powerFault_clk, hclk]
  rfl

theorem exec_thermalDemandRaise_more {u : State} (hu : u = s.raiseAt s.clk.thermalTick) (h : s.clk.thermal ≠ 0) :
    exec (.thermalDemandRaise n t) s = .next { u with clk := { u.clk with thermal := min 8 (s.clk.thermal + 1), thermalTick := u.tick } } := by
  have hclk : u.clk = s.clk := by rw [hu, State.raiseAt_clk]
  rw [exec_thermalDemandRaise_hot hstandby hn hhot, ← hu, State.thermalEpisode, hclk, if_neg h, State.modClk, hclk]

end Thermal

/-- The POWER demand rises above the limit of the input power (R461). -/
theorem exec_powerDemandRaise_over {s : State} (hstandby : s.board.standby = true) (hover : 10 * s.power.limit.toNat < s.tel.pin.toNat) :
    exec .powerDemandRaise s = .next (((s.raiseAt s.clk.powerTick).demandEpisode s.clk.power 0 0).modClk fun c =>
      { c with power := min 8 (c.power + 1), powerTick := ((s.raiseAt s.clk.powerTick).demandEpisode s.clk.power 0 0).tick }) := by
  simp only [exec, execPowerDemandRaise]
  rw [if_pos ⟨hstandby, hover⟩]
  rfl

/-- The DROOP demand rises after a window of core k's region (R461). -/
theorem exec_droopWindow_on {s : State} {k : Nat} (hk : k < 768) (hmain : s.power.mainOn = true) :
    exec (.droopWindow k) s = .next (((s.raiseAt s.clk.droopTick).demandEpisode s.clk.droop (groupDomain (groupOf k)) 1).modClk fun c =>
      { c with droop := min 8 (c.droop + 1), droopTick := ((s.raiseAt s.clk.droopTick).demandEpisode s.clk.droop (groupDomain (groupOf k)) 1).tick }) := by
  simp only [exec, execDroopWindow]
  rw [if_pos ⟨hk, hmain⟩]
  rfl

theorem State.demandEpisode_first (s : State) (loc cause : Nat) (h : cause < 2) : s.demandEpisode 0 loc cause = s.powerFault 0x0621 loc cause := by
  rw [State.demandEpisode, if_pos rfl]
  congr 1
  simp only [pack]
  omega

theorem State.demandEpisode_more {s : State} {old loc cause : Nat} (h : old ≠ 0) : s.demandEpisode old loc cause = s := if_neg h

/-! ## 95 °C and the trips (R462, R469, R470) -/

theorem exec_junctionOver95c_hot {s : State} {n : Nat} {t : BitVec 16} (hstandby : s.board.standby = true) (hn : n < 104) (hhot : 1520 ≤ t.toInt) :
    exec (.junctionOver95c n t) s = .next (s.overheat n) := by
  simp only [exec, execJunctionOver95c]
  rw [if_pos ⟨hstandby, hn, hhot⟩]

/-- What leaves the input's range is noted once in an excursion. -/
theorem State.leaveRange_spec (s : State) : ∃ t, s.leaveRange = t ∧ t.power = { s.power with excursion := true } ∧
    t = { s with power := t.power, faults := t.faults, bar := t.bar, host := t.host } := by
  unfold State.leaveRange
  split
  · rename_i h
    refine ⟨s, rfl, ?_, rfl⟩
    conv_lhs => rw [show s.power = { s.power with excursion := s.power.excursion } from rfl, h]
  · have hkept := State.power_kept (s.modPower fun p => { p with excursion := true }) 0x0624 0 0
    have hpower : ((s.modPower fun p => { p with excursion := true }).powerFault 0x0624 0 0).power = { s.power with excursion := true } := by rw [hkept]; rfl
    refine ⟨_, rfl, hpower, ?_⟩
    conv_lhs => rw [hkept]
    rw [hpower]
    rfl

/-- What a trip keeps of the state in which the main converters fall: all that the steady domain holds (R469, R470). -/
theorem State.trip_spec (s : State) (cause : Nat) : ∃ t, s.trip cause = t ∧ t.faults = s.faults ∧ t.power.mainOn = false ∧ t.power.tripped = cause ∧ t.board.cause = cause ∧
    t.cores = [] ∧ t.pending = s.pending ∧ t.now = s.now ∧ t.sec = s.sec ∧ t.tel = s.tel ∧ t.moduleId = s.moduleId ∧ t.clk = s.clk ∧
    t.power.excursion = s.power.excursion :=
  ⟨_, rfl, rfl, rfl, rfl, rfl, rfl, rfl, rfl, rfl, rfl, rfl, rfl, rfl⟩

theorem exec_undervoltage_trips {s : State} (hstandby : s.board.standby = true) (h : s.power.excursion = false ∨ s.power.tripped ≠ 4) :
    exec .undervoltage s = .next ((s.leaveRange.powerFault 0x0625 0 0).trip 4) := by
  simp only [exec, execUndervoltage]
  rw [if_neg]
  rw [hstandby]
  rcases h with h | h <;> simp [h]

/-! ## Telemetry (R471) -/

theorem exec_telemetryUpdate_standby {s : State} {energy : List Nat} {pin vin inlet outlet : BitVec 16} {temps : List (BitVec 16)} {u v : State}
    (hstandby : s.board.standby = true) (hu : u = s.advanceTick ((s.tick / 1000 + 1) * 1000))
    (hv : v = u.modTel fun t => { t with energy := t.energy.zipIdx.map fun x => x.1 + BitVec.ofNat 64 (energy.getD x.2 0)
                                         pin := pin, vin := vin, inlet := inlet, outlet := outlet, temps := (List.range 104).map fun n => temps.getD n 0 }) :
    exec (.telemetryUpdate energy pin vin inlet outlet temps) s = .next
      { v with clk := { v.clk with hot := v.clk.hot && !((List.range 104).map fun n => temps.getD n 0).all fun t => decide (t.toInt < 1520) } } := by
  simp only [exec, execTelemetryUpdate]
  rw [if_neg (by simp [hstandby]), ← hu, ← hv]
  cases h : ((List.range 104).map fun n => temps.getD n 0).all fun t => decide (t.toInt < 1520)
  · simp
  · simp only [if_true, Bool.not_true, Bool.and_false]; rfl

/-! ## The statement -/

/-- Settles O56: a demand rises with a record when it leaves 0 and falls without one; a trip is its record followed by the loss of the main domains. That
0x0621 has the domain as LOC and one bit of cause, that 95 °C from 0 records 0x0620 beside 0x0622, that an undervoltage with the main supply off still
trips, and that CAUSE is set at the trip, are log 21's readings. -/
theorem throttleAndSupply : Obligations.ThrottleAndSupply := by
  unfold Obligations.ThrottleAndSupply
  refine ⟨fun s k hk hmain hon hruns => ?stretch, fun s n t u _ hstandby hn hu => ⟨fun hhot => ⟨fun h => ?warm, fun h => ?warmer⟩, fun hcool => ?cool, fun hhot => ?scorch, fun hcool => ?under⟩,
    fun s t u _ hu => ⟨fun hstandby hcool hpos => ?cools, fun h => ?warmStays⟩, fun s u _ hstandby hu => ⟨fun hover => ⟨fun h => ?power, fun h => ?morePower⟩, fun hin => ?powerStays⟩,
    fun s u _ hstandby hu => ⟨fun hlow hpos => ?powerFalls, fun h => ?powerKeeps⟩, fun s k u _ hk hmain hu => ⟨fun h => ?droop, fun h => ?moreDroop⟩,
    fun s u _ hstandby hu => ⟨fun hpos => ?droopFalls, fun h => ?droopKeeps⟩, fun c => rfl, fun s hstandby => ⟨fun h => ?leaves, fun h => ?leftAlready, rfl, fun h ht => ?trippedAlready⟩,
    fun s i cause code hstandby h => ?trips, fun s energy pin vin inlet outlet temps u _ hstandby hlen hu => ?telemetry⟩
  case stretch =>
    simp only [exec, execCycleStretch]
    rw [if_pos (by simp [hk, hmain, hon, hruns])]
    rfl
  case warm => exact exec_thermalDemandRaise_first hstandby hn hhot hu h
  case warmer => exact exec_thermalDemandRaise_more hstandby hn hhot hu h
  case cool =>
    simp only [exec, execThermalDemandRaise]
    rw [if_neg fun h => absurd h.2.2 (not_le.mpr hcool)]
  case scorch =>
    obtain ⟨v, hv, hclk, hkept, htotal, hfirst, hagain⟩ := State.overheat_spec s n
    exact ⟨v, by rw [exec_junctionOver95c_hot hstandby hn hhot, hv], hclk, by rw [hkept], by rw [hkept], htotal, hfirst, hagain⟩
  case under =>
    simp only [exec, execJunctionOver95c]
    rw [if_neg fun h => absurd h.2.2 (not_le.mpr hcool)]
  case cools =>
    simp only [exec, execThermalDemandLower]
    rw [if_pos ⟨hstandby, hcool, hpos⟩, ← hu, State.modClk, hu, State.advanceTick, State.advance_clk]
  case warmStays =>
    simp only [exec, execThermalDemandLower]
    rw [if_neg]
    rintro ⟨-, hle, hpos⟩
    rcases h with h | h
    · exact absurd hle (not_le.mpr h)
    · omega
  case power =>
    have hclk : u.clk = s.clk := by rw [hu]; exact State.raiseAt_clk s s.clk.powerTick
    refine ⟨_, rfl, ?_⟩
    rw [exec_powerDemandRaise_over hstandby hover, show s.raiseAt s.clk.powerTick = u from hu.symm, h, State.demandEpisode_first _ _ _ (by decide), State.powerFault_tick,
      State.modClk, State.powerFault_clk, hclk, h, show State.record u 0x0621 6 0 0 0 0 = u.powerFault 0x0621 0 0 from rfl, State.powerFault_clk, hclk]
    rfl
  case morePower =>
    have hclk : u.clk = s.clk := by rw [hu]; exact State.raiseAt_clk s s.clk.powerTick
    rw [exec_powerDemandRaise_over hstandby hover, show s.raiseAt s.clk.powerTick = u from hu.symm, State.demandEpisode_more h, State.modClk, hclk]
  case powerStays =>
    simp only [exec, execPowerDemandRaise]
    rw [if_neg (by omega)]
  case powerFalls =>
    simp only [exec, execPowerDemandLower]
    rw [if_pos ⟨hstandby, by omega, hpos⟩, ← hu, State.modClk, hu, State.advanceTick, State.advance_clk]
  case powerKeeps =>
    simp only [exec, execPowerDemandLower]
    rw [if_neg (by omega)]
  case droop =>
    have hclk : u.clk = s.clk := by rw [hu]; exact State.raiseAt_clk s s.clk.droopTick
    refine ⟨_, rfl, ?_⟩
    rw [exec_droopWindow_on hk hmain, show s.raiseAt s.clk.droopTick = u from hu.symm, h, State.demandEpisode_first _ _ _ (by decide), State.powerFault_tick,
      State.modClk, State.powerFault_clk, hclk, h, show State.record u 0x0621 6 (groupDomain (groupOf k)) 0 0 1 = u.powerFault 0x0621 (groupDomain (groupOf k)) 1 from rfl,
      State.powerFault_clk, hclk]
    rfl
  case moreDroop =>
    have hclk : u.clk = s.clk := by rw [hu]; exact State.raiseAt_clk s s.clk.droopTick
    rw [exec_droopWindow_on hk hmain, show s.raiseAt s.clk.droopTick = u from hu.symm, State.demandEpisode_more h, State.modClk, hclk]
  case droopFalls =>
    simp only [exec, execDroopDemandLower]
    rw [if_pos ⟨hstandby, hpos⟩, ← hu, State.modClk, hu, State.advanceTick, State.advance_clk]
  case droopKeeps =>
    simp only [exec, execDroopDemandLower]
    rw [if_neg (by omega)]
  case leaves =>
    simp only [exec, execInputVoltageExcursion]
    rw [if_pos hstandby, State.leaveRange, if_neg (by simp [h])]
    rfl
  case leftAlready =>
    simp only [exec, execInputVoltageExcursion]
    rw [if_pos hstandby, State.leaveRange, if_pos h]
  case trippedAlready =>
    simp only [exec, execUndervoltage]
    rw [if_pos (by simp [h, ht])]
  case trips =>
    rcases h with ⟨rfl, hnew, rfl, rfl⟩ | ⟨⟨n, t, rfl, hmain, hn, hhot⟩, rfl, rfl⟩
    · obtain ⟨u, hu, hpower, hkept⟩ := State.leaveRange_spec s
      have hrec := State.power_recorded u 0x0625 0 0
      have hfault := State.power_kept u 0x0625 0 0
      obtain ⟨v, hv⟩ : ∃ v, v = u.powerFault 0x0625 0 0 := ⟨_, rfl⟩
      rw [← hv] at hrec hfault
      refine ⟨v.trip 4, u, by rw [exec_undervoltage_trips hstandby hnew, hu, hv], hrec, rfl, rfl, rfl, rfl, ?_, ?_, ?_, ?_, ?_, fun _ => ⟨?_, ?_⟩, fun h => absurd rfl h⟩
      · show v.pending = _; rw [hfault, hkept]
      · show v.now = _; rw [hfault, hkept]
      · show v.sec = _; rw [hfault, hkept]
      · show v.tel = _; rw [hfault, hkept]
      · show v.moduleId = _; rw [hfault, hkept]
      · show v.clk = _; rw [hfault, hkept]
      · show v.power.excursion = _; rw [hfault, hpower]
    · obtain ⟨u, hu, hclk, hkept, -⟩ := State.overheat_spec s n
      have hrec := State.power_recorded u 0x0623 n 0
      have hfault := State.power_kept u 0x0623 n 0
      obtain ⟨v, hv⟩ : ∃ v, v = u.powerFault 0x0623 n 0 := ⟨_, rfl⟩
      rw [← hv] at hrec hfault
      refine ⟨v.trip 3, u, ?_, hrec, rfl, rfl, rfl, rfl, ?_, ?_, ?_, ?_, ?_, fun h => absurd h (by simp), fun _ => ⟨?_, ?_⟩⟩
      · simp only [exec, execThermalTrip]
        rw [if_pos ⟨hmain, hn, hhot⟩, hu, hv]
      · show v.pending = _; rw [hfault, hkept]
      · show v.now = _; rw [hfault, hkept]
      · show v.sec = _; rw [hfault, hkept]
      · show v.tel = _; rw [hfault, hkept]
      · show v.moduleId = _; rw [hfault, hkept]
      · show v.clk.thermal = _; rw [hfault, hclk]
      · show v.power.excursion = _; rw [hfault, hkept]
  case telemetry =>
    have htel : u.tel = s.tel := by rw [hu, State.advanceTick, State.advance_tel]
    have hclk : u.clk = s.clk := by rw [hu, State.advanceTick, State.advance_clk]
    refine ⟨_, exec_telemetryUpdate_standby hstandby hu rfl, ?_, ?_, fun i hi => ?_, ?_, fun n hn => ?_, ?_⟩
    · rw [State.modTel, htel, hclk]
    · simp [State.modTel, htel, hlen]
    · simp [State.modTel, htel, List.getD_eq_getElem?_getD, hlen, hi]
    · simp [State.modTel]
    · simp [State.modTel, List.getD_eq_getElem?_getD, hn]
    · show (u.clk.hot && !_) = true ↔ _
      rw [hclk, Bool.and_eq_true, Bool.not_eq_true', ← Bool.not_eq_true, hottest_all, not_not]

end Sys2Proof.Machine

/-! SUPPORT. The flash commands: PROGRAM, FLOOR_COMMIT and OWNER_COMMIT, when they are asked for and when they run. -/

namespace Sys2Proof.Machine

/-! ## PROGRAM (R490) -/

/-- A block may be programmed when it is a whole block of the slot that is not running (R490). -/
theorem State.mayProgram_iff (s : State) (o : Nat) : s.mayProgram o = true ↔ o % 65536 = 0 ∧ ∃ i, i < 2 ∧ 0x2000000 * (i + 1) ≤ o ∧ o < 0x2000000 * (i + 2) ∧
    ¬((s.sec.stage = .fwStart ∨ s.sec.stage = .ready) ∧ s.sec.slot = i) := by
  have hrun (i : Nat) : (!((s.sec.stage == .fwStart || s.sec.stage == .ready) && s.sec.slot == i)) = true ↔ ¬((s.sec.stage = .fwStart ∨ s.sec.stage = .ready) ∧ s.sec.slot = i) := by
    simp only [Bool.not_eq_true', ← Bool.not_eq_true, Bool.and_eq_true, Bool.or_eq_true, beq_iff_eq]
  unfold State.mayProgram
  simp only [Bool.and_eq_true, Bool.or_eq_true, beq_iff_eq, decide_eq_true_eq, hrun]
  unfold slotBase
  constructor
  · rintro ⟨h, ⟨⟨h1, h2⟩, h3⟩ | ⟨⟨h1, h2⟩, h3⟩⟩
    · exact ⟨h, 0, by decide, h1, h2, h3⟩
    · exact ⟨h, 1, by decide, h1, h2, h3⟩
  · rintro ⟨h, i, hi, h1, h2, h3⟩
    rcases (by omega : i = 0 ∨ i = 1) with rfl | rfl
    · exact ⟨h, .inl ⟨⟨h1, h2⟩, h3⟩⟩
    · exact ⟨h, .inr ⟨⟨h1, h2⟩, h3⟩⟩

/-- The command of a PROGRAM that is alone in the queue ends, and its block holds the bytes of the window. -/
theorem exec_programComplete_last {s : State} {o : Nat} {win : List Host.Cell} (h : s.sec.ops = [.program o win]) : exec .programComplete s = .next
    { s with sec := { s.sec with ops := [], flash := programBlock s.sec.flash win o, torn := s.sec.torn.filter (· != o) } } := by
  simp only [exec, execProgramComplete]
  rw [h]
  rfl

/-! ## FLOOR_COMMIT (R482) -/

theorem State.flashBusy_iff (s : State) : s.flashBusy = true ↔ s.sec.ops ≠ [] := by
  unfold State.flashBusy
  cases s.sec.ops <;> simp

/-- Only a proved session commits the floor, and only in READY. -/
theorem exec_floorCommit_shut {s : State} {w : Who} (h : s.sec.stage ≠ .ready ∨ w = .mgmt ∨ w = .jtag ∨ ∃ n, w = .session n ∧ s.proved w = false) :
    exec (.floorCommit w) s = .next (State.record s 0x0706 5 0 0 0 0) := by
  simp only [exec, execFloorCommit, State.askFloor]
  rw [if_pos]
  · rfl
  · rcases h with h | rfl | rfl | ⟨n, rfl, h⟩ <;> simp [*]

section FloorCommit
variable {s : State} {n : Nat} {x : Session} (hx : keyGet s.host.sessions n = some x) (hproved : x.proved = true) (hstage : s.sec.stage = .ready)
include hx hproved hstage

theorem exec_floorCommit_session : exec (.floorCommit (.session n)) s = .next (if s.flashBusy then s.waitFlash .floor else s.runFloor).2 := by
  simp only [exec, execFloorCommit, State.askFloor]
  rw [if_neg (by simp [hstage, State.proved, hx, hproved])]

theorem exec_floorCommit_waits (hbusy : s.sec.ops ≠ []) :
    exec (.floorCommit (.session n)) s = .next { s with sec := { s.sec with ops := s.sec.ops ++ [.floor] } } := by
  rw [exec_floorCommit_session hx hproved hstage, if_pos (s.flashBusy_iff.mpr hbusy)]
  rfl

theorem exec_floorCommit_runs (hidle : s.sec.ops = []) : exec (.floorCommit (.session n)) s = .next s.runFloor.2 := by
  rw [exec_floorCommit_session hx hproved hstage, if_neg (by rw [s.flashBusy_iff]; simp [hidle])]

end FloorCommit

theorem State.runFloor_low {s : State} (h : s.sec.svn.toNat < s.sec.floor.toNat) : s.runFloor.2 = State.record s 0x0706 5 0 0 0 0 := by
  rw [State.runFloor, if_pos h]; rfl

theorem State.runFloor_rises {s : State} {q : Word64} (h : s.sec.floor.toNat ≤ s.sec.svn.toNat)
    (hq : s.sec.floorRec = none ∧ q = 1 ∨ ∃ r, s.sec.floorRec = some r ∧ q = r.seq + 1) : s.runFloor.2 = { s with sec := { s.sec with
      floor := s.sec.svn
      floorRec := some { seq := q, svn := s.sec.svn, sign := edSign s.sec.priv s.sec.pub (natToBytes s.moduleId.toNat 8 ++ natToBytes q.toNat 8 ++ natToBytes s.sec.svn.toNat 4) } } } := by
  rw [State.runFloor, if_neg (Nat.not_lt.mpr h)]
  rcases hq with ⟨hr, rfl⟩ | ⟨r, hr, rfl⟩ <;> simp only [hr] <;> rfl

/-! ## OWNER_COMMIT (R486) -/

theorem exec_ownerCommit_shut {s : State} {w : Who} (h : s.sec.stage ≠ .ready) : exec (.ownerCommit w) s = .next (State.record s 0x0707 5 0 0 0 0) := by
  simp only [exec, execOwnerCommit, State.askOwner]
  rw [if_pos h]
  rfl

theorem exec_ownerCommit_waits {s : State} {w : Who} (hstage : s.sec.stage = .ready) (hbusy : s.sec.ops ≠ []) : exec (.ownerCommit w) s = .next
    { s with sec := { s.sec with ops := s.sec.ops ++ [.owner (cellRead s.sec.win 0 208) (w == .mgmt)] } } := by
  simp only [exec, execOwnerCommit, State.askOwner]
  rw [if_neg (by simpa using hstage), if_pos (s.flashBusy_iff.mpr hbusy)]
  rfl

theorem exec_ownerCommit_runs {s : State} {w : Who} (hstage : s.sec.stage = .ready) (hidle : s.sec.ops = []) : exec (.ownerCommit w) s = .next
    (s.runOwner (cellRead s.sec.win 0 208) (w == .mgmt)).2 := by
  simp only [exec, execOwnerCommit, State.askOwner]
  rw [if_neg (by simpa using hstage), if_neg (by rw [s.flashBusy_iff]; simp [hidle])]

theorem State.runOwner_refused {s : State} {body : List Byte} {free : Bool} (h : s.ownerAccepted body free = false) :
    (s.runOwner body free).2 = State.record s 0x0707 5 0 0 0 0 := by
  rw [State.runOwner, if_pos (by rw [h]; rfl)]; rfl

/-- The state in which an accepted owner record stands, before the sessions whose key it drops close. -/
def State.withOwner (s : State) (q : Word64) (body : List Byte) : State :=
  { s with sec := { s.sec with
      owned := true, debug := false
      ownerRec := some { seq := q, body := body, sign := edSign s.sec.priv s.sec.pub (natToBytes s.moduleId.toNat 8 ++ natToBytes q.toNat 8 ++ body) } } }

/-- The proved sessions whose key the record in force does not allow for host sessions (R486). -/
def State.disowned (s : State) : List (Nat × Session) := s.host.sessions.filter fun x => x.2.proved && (s.ownerKey x.2.key 0).isNone

/-- An accepted record takes effect: the record is kept, and the sessions that it disowns close. -/
theorem State.runOwner_accepted {s : State} {q : Word64} {body : List Byte} {free : Bool} (h : s.ownerAccepted body free = true)
    (hq : s.sec.ownerRec = none ∧ q = 1 ∨ ∃ r, s.sec.ownerRec = some r ∧ q = r.seq + 1) : (s.runOwner body free).2 = { s.withOwner q body with
      host := { s.host with sessions := s.host.sessions.filter fun c => (s.withOwner q body).disowned.all fun x => c.1 != x.1 } } := by
  have hrun : (s.runOwner body free).2 = (s.withOwner q body).disowned.foldl (fun (s : State) x => s.closeSession x.1) (s.withOwner q body) := by
    rw [State.runOwner, if_neg (by rw [h]; decide)]
    rcases hq with ⟨hr, rfl⟩ | ⟨r, hr, rfl⟩ <;> simp only [hr] <;> rfl
  rw [hrun, closeSessions_eq]
  rfl

/-- Key slot i of the record just taken over is VALID for host sessions when its byte of USE says so. -/
theorem State.ownerKey_withOwner {s : State} {q : Word64} {body : List Byte} {i : Nat} : ((s.withOwner q body).ownerKey i 0).isNone = false ↔
    i < 4 ∧ bit (numAt body (136 + i) 1) 7 = true ∧ bit (numAt body (136 + i) 1) 0 = true := by
  rw [State.ownerKey_some]
  constructor
  · rintro ⟨r, -, hr, h⟩
    cases hr
    exact h
  · exact fun h => ⟨_, rfl, rfl, h⟩

theorem State.mem_disowned {s : State} {n : Nat} {x : Session} : (n, x) ∈ s.disowned ↔ (n, x) ∈ s.host.sessions ∧ x.proved = true ∧ (s.ownerKey x.key 0).isNone = true := by
  unfold State.disowned
  rw [List.mem_filter, Bool.and_eq_true]

/-- A session stays open when none that stands under its number is disowned. -/
theorem keyGet_kept {s : State} {l : List (Nat × Session)} {n : Nat} : keyGet (s.host.sessions.filter fun c => l.all fun x => c.1 != x.1) n =
    if (l.all fun x => n != x.1) then keyGet s.host.sessions n else none :=
  keyGet_filter_some (p := fun a => l.all fun x => a != x.1)

/-- What is accepted as an owner record: a VALID key for it, and either the first record of an unowned module through the management interface or a newer
record that a VALID key of the record in force signed (R486). -/
theorem State.ownerAccepted_iff (s : State) (body : List Byte) (free : Bool) : s.ownerAccepted body free = true ↔
    (∃ i, i < 4 ∧ bit (numAt body (136 + i) 1) 7 = true ∧ bit (numAt body (136 + i) 1) 2 = true) ∧
    ((s.sec.owned = false ∨ s.sec.ownerRec = none) ∧ numAt body 140 1 = 0xFF ∧ 1 ≤ numAt body 0 8 ∧ free = true ∨
      ∃ r i, s.sec.owned = true ∧ s.sec.ownerRec = some r ∧ i = numAt body 140 1 ∧ i < 4 ∧ bit (numAt r.body (136 + i) 1) 7 = true ∧ bit (numAt r.body (136 + i) 1) 2 = true ∧
        numAt r.body 0 8 < numAt body 0 8 ∧
        edVerify ((r.body.drop (8 + 32 * i)).take 32) (natToBytes s.moduleId.toNat 8 ++ body.take 144) (body.drop 144) = true) := by
  have hvalid : ((List.range 4).any fun i => bit (useByte body i) 7 && bit (useByte body i) 2) = true ↔
      ∃ i, i < 4 ∧ bit (numAt body (136 + i) 1) 7 = true ∧ bit (numAt body (136 + i) 1) 2 = true := by
    simp [List.any_eq_true, useByte]
  have hfirst (h : s.sec.owned = false ∨ s.sec.ownerRec = none) : (if s.sec.owned = true then s.sec.ownerRec else none) = none := by
    rcases h with h | h <;> simp [h]
  unfold State.ownerAccepted
  dsimp only
  rw [Bool.and_eq_true, hvalid]
  refine and_congr_right fun _ => ?_
  by_cases hnew : s.sec.owned = false ∨ s.sec.ownerRec = none
  · rw [hfirst hnew]
    simp only [Bool.and_eq_true, beq_iff_eq, decide_eq_true_eq, and_assoc]
    constructor
    · exact fun h => .inl ⟨hnew, h⟩
    · rintro (⟨-, h⟩ | ⟨r, i, ho, hr, -⟩)
      · exact h
      · rcases hnew with g | g
        · rw [g] at ho; exact absurd ho (by decide)
        · rw [g] at hr; exact absurd hr (by simp)
  · obtain ⟨ho, hr⟩ := not_or.mp hnew
    have ho : s.sec.owned = true := by simpa using ho
    obtain ⟨r, hr⟩ := Option.ne_none_iff_exists'.mp hr
    rw [ho, if_pos rfl, hr]
    dsimp only
    have hkey : s.ownerKey (numAt body 140 1) 2 = if numAt body 140 1 < 4 ∧ bit (numAt r.body (136 + numAt body 140 1) 1) 7 = true ∧ bit (numAt r.body (136 + numAt body 140 1) 1) 2 = true
        then some ((r.body.drop (8 + 32 * numAt body 140 1)).take 32) else none := by
      rw [State.ownerKey, ho, if_pos rfl, hr]
    constructor
    · intro h
      right
      rw [hkey] at h
      split_ifs at h with hv
      · obtain ⟨h4, h7, h2⟩ := hv
        simp only [Bool.and_eq_true, decide_eq_true_eq] at h
        exact ⟨r, _, rfl, rfl, rfl, h4, h7, h2, h⟩
    · rintro (⟨h, -⟩ | ⟨r', i, -, hr', rfl, h4, h7, h2, hepoch, hsig⟩)
      · exact absurd h (by simp)
      · cases hr'
        rw [hkey, if_pos ⟨h4, h7, h2⟩]
        simp only [Bool.and_eq_true, decide_eq_true_eq]
        exact ⟨hepoch, hsig⟩

/-! ## The statement -/

/-- Settles O54: each command is refused, waits or runs, and what runs is the lemma of its command. That FLOOR_COMMIT comes only from a proved session,
OWNER_COMMIT only in READY, and the checks at arrival are log 31's readings; the first sequence number 1 is the model's. -/
theorem flashCommands : Obligations.FlashCommands := by
  unfold Obligations.FlashCommands
  refine ⟨fun s w => ⟨fun h => ?halted, fun h => ⟨fun hno => ?refused, fun hp hm => ?waits⟩, s.mayProgram_iff⟩, fun s o win hops hwin => ?complete, fun s h => ?idle,
    fun s n x hx hproved hstage => ⟨exec_floorCommit_waits hx hproved hstage, fun hidle hlow => ?low, fun hidle hle q hq => ?rises⟩,
    fun s w => exec_floorCommit_shut, fun s w body hbody => ⟨exec_ownerCommit_shut, fun hstage hbusy => ?ownerWaits, fun hstage hidle hno => ?ownerRefused, fun hstage hidle hyes q hq => ?owner⟩,
    State.ownerAccepted_iff⟩
  case halted =>
    simp only [exec, execProgram, State.askProgram]
    rw [if_pos h]
  case refused =>
    simp only [exec, execProgram, State.askProgram]
    rw [if_neg h, if_pos (by rcases hno with h | h <;> simp [h])]
    rfl
  case waits =>
    simp only [exec, execProgram, State.askProgram]
    rw [if_neg h, if_neg (by simp [hp, hm])]
    rfl
  case complete => exact ⟨_, exec_programComplete_last hops, rfl, fun a => cellGet_programBlock s.sec.flash win o a hwin⟩
  case idle =>
    simp only [exec, execProgramComplete]
    rw [h]
  case low => rw [exec_floorCommit_runs hx hproved hstage hidle, State.runFloor_low hlow]
  case rises => rw [exec_floorCommit_runs hx hproved hstage hidle, State.runFloor_rises hle hq]
  case ownerWaits => rw [exec_ownerCommit_waits hstage hbusy, hbody]
  case ownerRefused => rw [exec_ownerCommit_runs hstage hidle, State.runOwner_refused (by rw [← hbody]; exact hno)]
  case owner =>
    rw [hbody] at hyes ⊢
    refine ⟨_, by rw [exec_ownerCommit_runs hstage hidle, State.runOwner_accepted hyes hq], rfl, fun n x hx => ?_, fun n x hx honly hkeeps => ?_⟩
    · rw [keyGet_kept] at hx
      split_ifs at hx with hall
      refine ⟨hx, fun hp => ?_⟩
      rw [← State.ownerKey_withOwner (s := s) (q := q), ← Bool.not_eq_true]
      intro hnone
      have := List.all_eq_true.mp hall (n, x) (State.mem_disowned.mpr ⟨keyGet_mem hx, hp, hnone⟩)
      simp at this
    · rw [keyGet_kept, if_pos]
      · exact hx
      · rw [List.all_eq_true]
        rintro ⟨m, y⟩ hy
        obtain ⟨hmem, hp, hnone⟩ := State.mem_disowned.mp hy
        rw [bne_iff_ne]
        rintro rfl
        obtain rfl : y = x := honly _ hmem rfl
        rw [← Bool.not_eq_false, State.ownerKey_withOwner] at hnone
        exact hnone (hkeeps hp)

end Sys2Proof.Machine

/-! SUPPORT. What the hub sends: tickets and tier-2 shards to cores, outputs to the host, and the tickets that a shadow takes. -/

namespace Sys2Proof.Machine

/-! ## Tickets and tier-2 shards (R382, R447) -/

/-- The first ticket of the pass that is not sent goes when the credit of its descriptor covers it. -/
theorem exec_ticketDelivery_next {s : State} {pre post : List Ticket} {t : Ticket} {d : HubTarget} (hrun : s.bar.phase = .run) (htickets : s.host.tickets = pre ++ t :: post)
    (hpre : ∀ x ∈ pre, x.pass ≠ s.bar.passNum ∨ x.sent = true) (hpass : t.pass = s.bar.passNum) (hsent : t.sent = false) (hd : s.tktTarget t.tkt = some d) :
    exec .ticketDelivery s = .next (if (s.tktSender t.tkt).credit < t.lines then s else State.withHubMessage { s with
      host := { s.host with
        tickets := pre ++ { t with sent := true } :: post
        senders := keyPut s.host.senders t.tkt { credit := (s.tktSender t.tkt).credit - t.lines, mseq := (s.tktSender t.tkt).mseq + 1 } } }
      d (s.tktSender t.tkt).mseq.toNat t.line t.lines false t.data) := by
  obtain ⟨hmark, hfind⟩ := markSent_eq pre t post hpre hpass hsent
  simp only [exec, execTicketDelivery]
  rw [if_pos hrun, htickets, hfind]
  dsimp only
  rw [hd]
  dsimp only
  rw [State.hubMessage_eq, State.modHost, htickets, hmark]

theorem State.modRun_some {s : State} {n : Nat} {r : StreamRun} (g : StreamRun → StreamRun) (h : keyGet s.fin.runs n = some r) :
    s.modRun n g = { s with fin := { s.fin with runs := keyPut s.fin.runs n (g r) } } := by
  rw [State.modRun, State.modFin, h]

/-- The next shard of a stream goes, or its poison-only message, when the credit covers its lines. -/
theorem exec_tier2StreamSend_next {s : State} {n k : Nat} {r : StreamRun} {x : Shard} (hrun : s.bar.phase = .run) (hr : keyGet s.fin.runs n = some r)
    (hk : s.streamCore n = some k) (hx : (s.edSlot (s.streamSlot n)).shards[s.streamFirst n + r.idx]? = some x) (hidx : r.idx < s.streamCount n)
    (hdata : r.bad = true ∨ r.data.isSome = true) : exec (.tier2StreamSend n) s = .next (if x.lines ≤ r.credit then State.withHubMessage { s with
        fin := { s.fin with runs := keyPut s.fin.runs n { idx := r.idx + 1, credit := r.credit - x.lines, mseq := r.mseq + 1 } } }
        { core := k, handle := bits (s.tier2Word n 0) 15 0, slot := bits (s.tier2Word n 0) 18 16 } r.mseq.toNat x.offset x.lines r.bad (r.data.getD []) else s) := by
  have hready : (r.bad || r.data.isSome) = true := by rw [Bool.or_eq_true]; exact hdata
  simp only [exec, execTier2StreamSend]
  rw [hr, hk, Option.map_some, Option.getD_some, hx]
  dsimp only
  by_cases hc : x.lines ≤ r.credit
  · rw [if_pos ⟨hrun, hidx, hc, hready⟩, if_pos hc, State.modRun_some _ hr, State.hubMessage_eq]
  · rw [if_neg fun h => hc h.2.2.1, if_neg hc]

/-- Settles O42: the first unsent ticket of the pass and the next shard of a stream are what the hub looks at, and credit decides. -/
theorem hubSends : Obligations.HubSends := by
  unfold Obligations.HubSends
  intro s hrun
  refine ⟨fun pre post t d htickets hpre hpass hsent hd => ⟨fun h => ?_, fun h => ?_⟩, fun n r k x hr hk hx hidx hdata => ⟨fun h => ?_, fun h => ?_⟩⟩
  · rw [exec_ticketDelivery_next hrun htickets hpre hpass hsent hd, if_pos h]
  · rw [exec_ticketDelivery_next hrun htickets hpre hpass hsent hd, if_neg (Nat.not_lt.mpr h)]
  · rw [exec_tier2StreamSend_next hrun hr hk hx hidx hdata, if_neg (Nat.not_le.mpr h)]
  · rw [exec_tier2StreamSend_next hrun hr hk hx hidx hdata, if_pos h]

/-! ## Outputs (R426, R449, R450) -/

/-- The session for outputs sends, and a message carries m lines (R449). -/
theorem State.outLink_some {s : State} {n p m : Nat} {x : Session} (hn : n = bits s.host.ctrl.toNat 2 0) (hx : keyGet s.host.sessions n = some x) (hp : s.sendPort x = some p)
    (hm : m = min 32 ((s.mtuOf p - (if x.v6 = true then 48 else 28) - 56) / 256)) : s.outLink = some m ∧ 0 < m := by
  have hover : x.overhead = if x.v6 = true then 48 else 28 := by
    unfold Session.overhead
    cases x.v6 <;> rfl
  refine ⟨?_, ?_⟩
  · rw [State.outLink, ← hn, hx]
    dsimp only
    rw [hp, Option.map_some, hover, hm]
  · have hmtu := State.mtuOf_room s p
    rw [hm]
    split_ifs <;> omega

theorem exec_outputRelease_next {s : State} {pre post : List Output} {o : Output} {m : Nat} (hm : s.outLink = some m ∧ 0 < m) (houts : s.host.outputs = pre ++ o :: post)
    (hpre : ∀ y ∈ pre, y.lines ≤ y.sent) (ho : o.sent < o.lines) (hbusy : s.jrnl.busy = false) :
    exec .outputRelease s = .next ((s.putOutput o { o with sent := o.lines, tick := s.tick }).outputFrom o o.sent m) := by
  have hfind : s.host.outputs.find? (fun o => decide (o.sent < o.lines)) = some o := by
    rw [houts, List.find?_append, List.find?_eq_none.mpr (fun y hy => by simpa using hpre y hy), Option.none_or, List.find?_cons_of_pos (by simpa using ho)]
  simp only [exec, execOutputRelease]
  rw [hfind, hm.1]
  dsimp only
  rw [hbusy, if_neg (by decide), State.sendLines_eq hm.2 _ _ _ (Nat.sub_le _ _)]

/-- The output that has waited longest is sent again from the line that the host acknowledged. -/
theorem exec_outputResend_next {s u : State} {pre post : List Output} {o : Output} {m : Nat} (hm : s.outLink = some m ∧ 0 < m) (houts : s.host.outputs = pre ++ o :: post)
    (ho : o.sent = o.lines) (hpre : ∀ y ∈ pre, y.sent = y.lines → o.tick < y.tick) (hpost : ∀ y ∈ post, y.sent = y.lines → o.tick ≤ y.tick)
    (hu : u = s.advanceTick (o.tick + bits s.host.ctrl.toNat 31 16 + 1)) :
    exec .outputResend s = .next
      (let warn := o.resends + 1 == 16 && !o.warned
      let t := (u.putOutput o { o with tick := u.tick, resends := o.resends + 1, warned := o.warned || warn }).outputFrom o o.acked m
      if warn then t.hubFault 0x0462 (pack [(16, o.id)]) else t) := by
  simp only [exec, execOutputResend]
  rw [findMin (fun _ => rfl) (fun _ _ => rfl) houts ho hpre hpost, hm.1]
  dsimp only
  rw [← hu, State.sendLines_eq hm.2 _ _ _ (Nat.sub_le _ _)]

/-! ## Acknowledgements (R437, R449) -/

theorem exec_oack_bound {s : State} {src : Sender} {n : Nat} {x : Session} {pass : Word64} {id acked : Nat} (hport : s.hostPort src.port = true)
    (hx : keyGet s.host.sessions n = some x) (hproved : x.proved = true) (hip : x.ip = src.ip.toNat) (hudp : x.udp = src.udp.toNat) :
    exec (.oack src n pass id acked) s = .next (s.takeOack pass id acked) := by
  simp only [exec, execOack]
  rw [if_neg (by simp [hport]), hx]
  dsimp only
  rw [if_neg (by simp [hip, hudp]), if_pos hproved]

/-- The output that an acknowledgement names. -/
theorem State.takeOack_found {s : State} {pre post : List Output} {o : Output} {acked : Nat} (houts : s.host.outputs = pre ++ o :: post)
    (hpre : ∀ y ∈ pre, y.pass ≠ o.pass ∨ y.id ≠ o.id) : s.takeOack o.pass o.id acked =
      if acked ≤ o.acked then s
      else if o.lines ≤ acked then (s.modHost fun h => { h with outputs := h.outputs.filter fun x => x != o }).reviewOutputs
      else s.putOutput o { o with acked := acked, tick := s.tick, resends := 0 } := by
  have hfind : s.host.outputs.find? (fun y => y.pass == o.pass && y.id == o.id) = some o := by
    rw [houts, List.find?_append, List.find?_eq_none.mpr (fun y hy => by rcases hpre y hy with h | h <;> simp [h]), Option.none_or, List.find?_cons_of_pos (by simp)]
  rw [State.takeOack, hfind]

/-! ## A shadow's tickets (R399, R404) -/

theorem State.journal_off {s : State} (h : s.jrnl.on = false) (t : Nat) (p : Word64) (b : List Byte) : s.journal t p b = s := by
  rw [State.journal, h]; rfl

/-- Without a journal an accepted ticket takes its place in the store with RSEQ 0. -/
theorem State.storeTicket_off {s : State} (h : s.jrnl.on = false) (pass : Word64) (tkt lines line : Nat) (tag : Word64) (data : List Byte) :
    s.storeTicket pass tkt lines line tag data = (0, { s with
      host := { s.host with tickets := s.host.tickets ++ [{ pass := pass, tkt := tkt, lines := lines, line := line, tag := tag, rseq := 0, data := data }] } }) := by
  unfold State.storeTicket
  dsimp only
  rw [State.journal_off h, h]
  rfl

/-- A shadow takes what the primary forwards while the module has a job (R399). -/
theorem exec_forwardedTicket_shadow {s : State} {pass : Word64} {tkt lines line : Nat} {tag : Word64} {data : List Byte} (hjob : s.anyAttached = true)
    (hshadow : bits s.twin.cfg.toNat 1 0 = 3) (hlines : 1 ≤ lines) (hdata : data.length = 256 * lines) :
    exec (.forwardedTicket pass tkt lines line tag data) s = .next (s.storeTicket pass tkt lines line tag data).2 := by
  have hcfg : s.twin.cfg.toNat % 4 = 3 := by rw [bits_from_zero] at hshadow; exact hshadow
  have hbits : s.shadow = true := by
    rw [State.shadow, State.twinOn, bit, bit, Nat.testBit_eq_decide_div_mod_eq, Nat.testBit_eq_decide_div_mod_eq, decide_eq_true (by omega), decide_eq_true (by omega)]
    rfl
  simp only [exec, execForwardedTicket]
  rw [if_pos (by simp [hjob, hbits, hlines, hdata])]

/-! ## The statement -/

/-- The 16th resend of an output records 0x0462 once. -/
theorem State.outputWarned {u t : State} {c d : Nat} (ht : t = u.hubFault c d) : Recorded u t c ∧ t.cores = u.cores ∧ t.host.outputs = u.host.outputs := by
  rw [ht]
  exact ⟨State.record_recorded u c 5 0 0 0 d, by rw [State.hubFault, State.record_kept], State.recordAs_outputs _ _ _ _ _ _ _ _⟩

/-- Settles O43: which output is next, what its turn makes of it, and what an acknowledgement names. That OUTPUT_RELEASE sends all lines of one output and
that the shadow takes a forwarded ticket without further checks are log 27's readings. -/
theorem outputsLeave : Obligations.OutputsLeave := by
  unfold Obligations.OutputsLeave
  intro s hcalm
  refine ⟨fun n x p m hn hx hp hm => ⟨fun pre o post houts hpre ho hbusy => ?release, fun pre o post u houts ho hpre hpost hu => ?resend⟩,
    fun src n x pre o post acked hport hx hproved hip hudp houts hpre => ?oack, fun pass tkt lines line tag data hjob hshadow hlines hdata hoff => ?forwarded⟩
  case release => rw [exec_outputRelease_next (State.outLink_some hn hx hp hm) houts hpre ho hbusy]; rfl
  case resend =>
    have hrun := exec_outputResend_next (State.outLink_some hn hx hp hm) houts ho hpre hpost hu
    have hhost : u.host = s.host := by rw [hu, State.advanceTick, State.advance_host hcalm]
    refine ⟨fun h => ?_, fun h15 hw => ?_⟩
    · have hwarn : (o.resends + 1 == 16 && !o.warned) = false := by
        rcases h with h | h
        · simp [h]
        · simp [h]
      rw [hrun, hwarn]
      dsimp only
      rw [Bool.or_false, State.putOutput, State.modHost, hhost]
      rfl
    · have hwarn : (o.resends + 1 == 16 && !o.warned) = true := by simp [h15, hw]
      obtain ⟨v, hv⟩ : ∃ v, v = u.putOutput o { o with tick := u.tick, resends := 16, warned := true } := ⟨_, rfl⟩
      obtain ⟨hkept, houtputs⟩ := State.outputFrom_kept o o.acked m v
      obtain ⟨hrec, hcores, hsame⟩ := State.outputWarned (u := v.outputFrom o o.acked m) (c := 0x0462) (d := pack [(16, o.id)]) rfl
      refine ⟨_, ?_, Recorded.of_faults ?_ hrec, ?_, ?_⟩
      · rw [hrun, hwarn]
        dsimp only
        rw [h15, Bool.or_true, hv]
        rfl
      · rw [hkept, hv]
        show u.faults = _
        rw [hu, State.advanceTick, State.advance_faults hcalm]
      · rw [hcores, hkept, hv]
        show u.cores = _
        rw [hu, State.advanceTick, State.advance_cores hcalm]
      · rw [hsame, houtputs, hv, State.putOutput, State.modHost, hhost]
  case oack =>
    rw [exec_oack_bound hport hx hproved hip hudp, State.takeOack_found houts hpre]
    refine ⟨fun h => by rw [if_pos h], fun h hmore => ?_, fun h hall hplaced => ?_⟩
    · rw [if_neg (Nat.not_le.mpr h), if_neg (Nat.not_le.mpr hmore)]; rfl
    · have hnone : s.host.res.filter (fun o => !o.placed) = [] := List.filter_eq_nil_iff.mpr fun r hr => by simp [hplaced r hr]
      rw [if_neg (Nat.not_le.mpr h), if_pos hall, State.reviewOutputs]
      show Host.Outcome.next (State.placeOutputs _ (s.host.res.filter fun o => !o.placed)) = _
      rw [hnone]
      rfl
  case forwarded => rw [exec_forwardedTicket_shadow hjob hshadow hlines hdata, State.storeTicket_off hoff]

end Sys2Proof.Machine

/-! SUPPORT. The host transport: requests in and out of their turn, what RD, WR, TICKET and SCLOSE answer, and the life of a session. -/

namespace Sys2Proof.Machine

/-! ## Requests (R436, R439, R488) -/

section Request
variable {s : State} {src : Sender} {n : Nat} {x : Session} {type : Nat} {lost : Bool} {f : Session → State → (Nat × List (List Byte)) × State} (h : Arrives s src n x)
include h

/-- The session's source check passes (R488). -/
theorem Arrives.bound : (x.proved && (x.ip != src.ip.toNat || x.udp != src.udp.toNat)) = false := by
  obtain ⟨-, -, hbound⟩ := h
  cases hp : x.proved with
  | false => rfl
  | true =>
    obtain ⟨hip, hudp⟩ := hbound hp
    simp [hip, hudp]

/-- A request out of its turn that is not among the last 64 is discarded. -/
theorem State.request_unknown {seq : Word32} (hseq : seq ≠ x.nseq) (hcache : ∀ c ∈ x.cache, c.1 ≠ seq) :
    s.request src n seq type lost f = if lost then s.ethDrop src.port else s := by
  obtain ⟨hport, hx, -⟩ := id h
  have hfind : x.cache.find? (fun c => c.1 == seq) = none := List.find?_eq_none.mpr fun c hc => by simpa using hcache c hc
  unfold State.request
  rw [if_neg (by simp [hport]), hx]
  dsimp only
  rw [h.bound, if_neg (by decide), if_neg hseq, hfind]

/-- One of the last 64 requests is answered again. -/
theorem State.request_again {seq : Word32} {pre post : List (Word32 × List Msg)} {ms : List Msg} (hseq : seq ≠ x.nseq) (hcache : x.cache = pre ++ (seq, ms) :: post)
    (hpre : ∀ c ∈ pre, c.1 ≠ seq) : s.request src n seq type lost f = s.send (ms.map fun m => { m with port := s.replyPort x src }) := by
  obtain ⟨hport, hx, -⟩ := id h
  have hfind : x.cache.find? (fun c => c.1 == seq) = some (seq, ms) := by
    rw [hcache, List.find?_append, List.find?_eq_none.mpr (fun c hc => by simpa using hpre c hc), Option.none_or, List.find?_cons_of_pos (by simp)]
  unfold State.request
  rw [if_neg (by simp [hport]), hx]
  dsimp only
  rw [h.bound, if_neg (by decide), if_neg hseq, hfind]

/-- A request that closes its session is answered, and nothing is kept of it. -/
theorem State.request_closes (hclosed : keyGet (f x s).2.host.sessions n = none) : s.request src n x.nseq type lost f = (f x s).2.send
    ((f x s).1.2.map fun b => { port := (f x s).2.replyPort x src, session := n, type := type % 128 + 128, status := (f x s).1.1, seq := x.nseq, body := b }) := by
  obtain ⟨hport, hx, -⟩ := id h
  unfold State.request
  rw [if_neg (by simp [hport]), hx]
  dsimp only
  rw [h.bound, if_neg (by decide), if_pos rfl]
  show (match keyGet (f x s).2.host.sessions n with
    | none => _
    | some y => _) = _
  rw [hclosed]

/-- A request that leaves the state as it is. -/
theorem State.request_bare {st : Nat} (hf : f x s = bare st s) : s.request src n x.nseq type lost f = s.answered n (s.replyPort x src) x type st [[]] := by
  rw [State.request_run h (y := x) (by rw [hf]; exact h.2.1) rfl, hf]
  rfl

end Request

/-! ## RD and WR (R437, R440, R441) -/

theorem burstBad_iff (a n : Nat) : burstBad a n = true ↔ a % 4 ≠ 0 ∨ n = 0 ∨ 2048 < n := by
  simp [burstBad, or_assoc]

theorem State.readBurst_one {s t : State} {a : Nat} {v : Option Word32} (h32 : a < 2 ^ 32) (hr : s.regRead a = (v, t)) :
    s.readBurst a 1 = (([v.getD 0], v.isNone), t) := by
  unfold State.readBurst State.readBurst
  dsimp only
  rw [if_pos h32, hr, Bool.or_false]

/-- A datagram has room for a word. -/
theorem State.replyWords (s : State) (e : Nat) (x : Session) : 0 < (s.mtuOf e - x.overhead - 40) / 4 := by
  have hmtu := s.mtuOf_room e
  have hover : x.overhead ≤ 48 := by unfold Session.overhead; split <;> omega
  omega

theorem readBodies_one {m : Nat} (hm : 0 < m) (v : Word32) : readBodies m 0 [v] 1 = [natToBytes 0 2 ++ natToBytes 1 2 ++ natToBytes 0 4 ++ natToBytes v.toNat 4] := by
  obtain ⟨k, rfl⟩ : ∃ k, m = k + 1 := ⟨m - 1, by omega⟩
  simp [readBodies]

/-- The status of a WR of one word (R438, R440). -/
def WriteRes.wrStatus : WriteRes → Nat
  | .done => stOk
  | .unmapped => stUnmapped
  | .refused _ => stRefused

/-- The body of its reply: the words refused and unmapped, the index and the code of the first refused (R437). -/
def WriteRes.wrBody : WriteRes → List Byte
  | .done => natToBytes 0 2 ++ natToBytes 0 2 ++ natToBytes 0xFFFF 2 ++ natToBytes 0 2
  | .unmapped => natToBytes 0 2 ++ natToBytes 1 2 ++ natToBytes 0xFFFF 2 ++ natToBytes 0 2
  | .refused c => natToBytes 1 2 ++ natToBytes 0 2 ++ natToBytes 0 2 ++ natToBytes c 2

/-- A burst of one aligned word keeps the layout. -/
theorem burstBad_one {a : Nat} (h4 : a % 4 = 0) : burstBad a 1 = false := by
  rw [← Bool.not_eq_true, burstBad_iff]
  omega

section Burst
variable {s : State} {src : Sender} {n : Nat} {x : Session} {addr : Word32} (h : Arrives s src n x)
include h

theorem exec_rd_malformed {count : Nat} (hbad : addr.toNat % 4 ≠ 0 ∨ count = 0 ∨ 2048 < count) :
    exec (.rd src n x.nseq addr count) s = .next (s.answered n (s.replyPort x src) x 0x10 stMalformed [[]]) := by
  simp only [exec, execRd]
  rw [State.request_bare h (if_pos ((burstBad_iff _ _).mpr hbad))]

theorem exec_rd_denied (h4 : addr.toNat % 4 = 0) (hp : s.permits (.session n) false addr.toNat = false) :
    exec (.rd src n x.nseq addr 1) s = .next (s.answered n (s.replyPort x src) x 0x10 stDenied [[]]) := by
  simp only [exec, execRd]
  rw [State.request_bare h (st := stDenied)]
  rw [if_neg (by rw [burstBad_one h4]; decide), State.permitsBurst_one, hp, if_pos (by decide)]

theorem exec_rd_one {v : Option Word32} {t : State} {y : Session} (h4 : addr.toNat % 4 = 0) (hp : s.permits (.session n) false addr.toNat = true)
    (hr : s.regRead addr.toNat = (v, t)) (hy : keyGet t.host.sessions n = some y) (hn : y.nseq = x.nseq) :
    exec (.rd src n x.nseq addr 1) s = .next (t.answered n (t.replyPort x src) y 0x10 (if v.isNone = true then stUnmapped else stOk)
      [natToBytes 0 2 ++ natToBytes 1 2 ++ natToBytes 0 4 ++ natToBytes (v.getD 0).toNat 4]) := by
  obtain ⟨f, hf⟩ : ∃ f : Session → State → (Nat × List (List Byte)) × State, f = fun x s => if burstBad addr.toNat 1 then bare stMalformed s
      else if !s.permitsBurst (.session n) false addr.toNat 1 then bare stDenied s
      else ((if (s.readBurst addr.toNat 1).1.2 then stUnmapped else stOk, readBodies ((s.mtuOf (s.replyPort x src) - x.overhead - 40) / 4) 0 (s.readBurst addr.toNat 1).1.1 1),
        (s.readBurst addr.toNat 1).2) := ⟨_, rfl⟩
  have hfx : f x s = ((if v.isNone = true then stUnmapped else stOk, [natToBytes 0 2 ++ natToBytes 1 2 ++ natToBytes 0 4 ++ natToBytes (v.getD 0).toNat 4]), t) := by
    rw [hf]
    dsimp only
    rw [if_neg (by rw [burstBad_one h4]; decide), State.permitsBurst_one, hp, if_neg (by decide), State.readBurst_one addr.isLt hr, readBodies_one (State.replyWords _ _ _)]
  have hrun := State.request_run (type := 0x10) (lost := burstBad addr.toNat 1) (f := f) h (y := y) (by rw [hfx]; exact hy) hn
  rw [hfx, hf] at hrun
  simp only [exec, execRd]
  rw [hrun]

theorem exec_wr_one {w : Word32} {res : WriteRes} {t : State} {y : Session} (h4 : addr.toNat % 4 = 0) (hp : s.permits (.session n) true addr.toNat = true)
    (hw : s.regWrite (.session n) addr.toNat w = (res, t)) (hy : keyGet t.host.sessions n = some y) (hn : y.nseq = x.nseq) :
    exec (.wr src n x.nseq addr [w]) s = .next (t.answered n (t.replyPort x src) y 0x11
      res.wrStatus [res.wrBody]) := by
  obtain ⟨f, hf⟩ : ∃ f : Session → State → (Nat × List (List Byte)) × State, f = fun _ s => if burstBad addr.toNat [w].length then bare stMalformed s
      else if !s.permitsBurst (.session n) true addr.toNat [w].length then bare stDenied s
      else
        let r := s.writeBurst (.session n) addr.toNat 0 {} [w]
        ((if r.1.refused ≠ 0 then stRefused else if r.1.unmapped ≠ 0 then stUnmapped else stOk,
          [natToBytes r.1.refused 2 ++ natToBytes r.1.unmapped 2 ++ natToBytes r.1.first 2 ++ natToBytes r.1.code 2]), r.2) := ⟨_, rfl⟩
  have hfx : f x s = ((res.wrStatus, [res.wrBody]), t) := by
    rw [hf]
    dsimp only
    rw [List.length_singleton, if_neg (by rw [burstBad_one h4]; decide), State.permitsBurst_one, hp, if_neg (by decide), State.writeBurst_one addr.isLt hw]
    cases res <;> rfl
  have hroom : ¬ s.mtuOf src.port < packetSize src (8 + 4 * [w].length) := by
    have hmtu := s.mtuOf_room src.port
    rw [packetSize, List.length_singleton]
    split <;> omega
  have hrun := State.request_run (type := 0x11) (lost := burstBad addr.toNat [w].length) (f := f) h (y := y) (by rw [hfx]; exact hy) hn
  rw [hfx, hf] at hrun
  simp only [exec, execWr]
  rw [if_neg hroom, hrun]

end Burst

/-! ## TICKET (R437, R445, R446) -/

section Ticket
variable {s : State} {src : Sender} {n : Nat} {x : Session} {pass : Word64} {tkt lines line : Nat} {tag : Word64} {data : List Byte}
  (hlines : 1 ≤ lines) (hmost : lines ≤ 35) (hdata : data.length = 256 * lines) (htkt : tkt < 256) (hmtu : 112 + data.length ≤ s.mtuOf src.port)
include hlines hmost hdata htkt hmtu

/-- A TICKET that fits its datagram is a request like the others. -/
theorem exec_ticket_fits : exec (.ticket src n x.nseq pass tkt lines line tag data) s = .next (s.request src n x.nseq 0x20 false fun x s =>
    if !x.proved then bare stDenied s
    else (((s.takeTicket pass tkt lines line tag data).1, [natToBytes (s.takeTicket pass tkt lines line tag data).2.1.toNat 8]), (s.takeTicket pass tkt lines line tag data).2.2)) := by
  have hgood : ticketBad tkt lines data = false := by
    rw [ticketBad, hdata]
    simp
    omega
  have hfits : ¬ s.mtuOf src.port < packetSize src (32 + data.length) := by
    rw [packetSize]
    split <;> omega
  simp only [exec, execTicket]
  rw [if_neg hfits]
  simp only [hgood, Bool.false_eq_true, if_false]

variable (h : Arrives s src n x)
include h

theorem exec_ticket_unproved (hp : x.proved = false) :
    exec (.ticket src n x.nseq pass tkt lines line tag data) s = .next (s.answered n (s.replyPort x src) x 0x20 stDenied [[]]) := by
  rw [exec_ticket_fits hlines hmost hdata htkt hmtu, State.request_bare h (if_pos (by rw [hp]; rfl))]

/-- A proved session's ticket gets the status and the RSEQ of R446. -/
theorem exec_ticket_proved {st : Nat} {r : Word64} {t : State} (hp : x.proved = true) (ht : s.takeTicket pass tkt lines line tag data = (st, r, t))
    (hx : t.host.sessions = s.host.sessions) :
    exec (.ticket src n x.nseq pass tkt lines line tag data) s = .next (t.answered n (t.replyPort x src) x 0x20 st [natToBytes r.toNat 8]) := by
  obtain ⟨f, hf⟩ : ∃ f : Session → State → (Nat × List (List Byte)) × State, f = fun x s => if !x.proved then bare stDenied s
    else (((s.takeTicket pass tkt lines line tag data).1, [natToBytes (s.takeTicket pass tkt lines line tag data).2.1.toNat 8]), (s.takeTicket pass tkt lines line tag data).2.2) := ⟨_, rfl⟩
  have hfx : f x s = ((st, [natToBytes r.toNat 8]), t) := by
    rw [hf]
    dsimp only
    rw [hp, if_neg (by decide), ht]
  have hrun := State.request_run (type := 0x20) (lost := false) (f := f) h (y := x) (by rw [hfx, hx]; exact h.2.1) rfl
  rw [hfx, hf] at hrun
  rw [exec_ticket_fits hlines hmost hdata htkt hmtu, hrun]

end Ticket

/-- A ticket whose pass has begun here comes too late (R446). -/
theorem State.takeTicket_late {s : State} {pass : Word64} {tkt lines line : Nat} {tag : Word64} {data : List Byte} (hjob : s.anyAttached = true) (hsolo : s.twinOn = false)
    (hclosed : s.host.listClosed = some pass) : s.takeTicket pass tkt lines line tag data = (stLate, 0, s) := by
  have hst : s.ticketStatus pass tkt lines line = stLate := by
    rw [State.ticketStatus, hjob, State.shadow, hsolo, State.ticketLate, hclosed]
    simp
  rw [State.takeTicket, hst]
  rfl

/-- A ticket that passes every check of R446 is stored. -/
theorem State.takeTicket_stored {s : State} {pass : Word64} {tkt lines line : Nat} {tag : Word64} {data : List Byte} (hjob : s.anyAttached = true) (hsolo : s.twinOn = false)
    (hsoon : (pass - s.bar.passNum).toNat < bits s.host.ctrl.toNat 15 8 + 1) (hopen : s.host.listClosed ≠ some pass) (hvalid : bit (s.tktWord tkt 0) 31 = true)
    (hfits : line + lines ≤ bits (s.tktWord tkt 2) 16 0 + 1) (hroom : s.host.ticketBytes + 32 + 256 * lines ≤ 67108864) (hoff : s.jrnl.on = false) (hbusy : s.jrnl.busy = false) :
    s.takeTicket pass tkt lines line tag data = (stOk, 0, { s with
      host := { s.host with tickets := s.host.tickets ++ [{ pass := pass, tkt := tkt, lines := lines, line := line, tag := tag, rseq := 0, data := data }] } }) := by
  have hbits : bits s.host.ctrl.toNat 15 8 < 256 := by rw [bits]; omega
  have hlate : s.ticketLate pass = false := by
    rw [State.ticketLate, decide_eq_false (by omega), Bool.false_or]
    simpa using hopen
  have hst : s.ticketStatus pass tkt lines line = stOk := by
    rw [State.ticketStatus, hjob, State.shadow, hsolo, Bool.false_and, hlate, hvalid, hbusy]
    rw [if_neg (by decide), if_neg (by decide), if_neg (by decide), if_neg (by omega), decide_eq_false (by omega), if_neg (by decide), if_neg (by omega), if_neg (by decide)]
  rw [State.takeTicket, hst]
  dsimp only
  rw [if_pos rfl, State.storeTicket_off hoff, hsolo]
  rfl

/-! ## The statement about requests -/

/-- Settles O44: the turn of a request decides what becomes of it, and at its turn its own lemma says what it answers. -/
theorem requestsAnswered : Obligations.RequestsAnswered := by
  unfold Obligations.RequestsAnswered
  intro s src n x h
  refine ⟨fun seq addr count hseq => ⟨fun hcache => ?_, fun pre ms post hcache hpre => ?_⟩, fun type => ?_, ?_, fun addr count hbad => exec_rd_malformed h hbad,
    fun addr h4 hp => exec_rd_denied h h4 hp, fun addr v t y h4 hp hr hy hn => exec_rd_one h h4 hp hr hy hn, fun addr w res t y h4 hp hw hy hn => (exec_wr_one h h4 hp hw hy hn).trans (by cases res <;> rfl),
    fun pass tkt lines line tag data hlines hmost hdata htkt hmtu => ⟨exec_ticket_unproved hlines hmost hdata htkt hmtu h, fun hp hjob hsolo _ hclosed => ?_,
      fun hp hjob hsolo hsoon hopen hvalid hfits hroom hoff hbusy => ?_⟩⟩
  · simp only [exec, execRd]
    rw [State.request_unknown h hseq hcache]
    simp only [burstBad_iff]
  · simp only [exec, execRd]
    rw [State.request_again h hseq hcache hpre]
    rfl
  · simp only [exec, execMalformedDatagram]
    rw [State.request_bare h rfl]
  · simp only [exec, execSclose]
    rw [State.request_closes h (keyGet_keyDel _ _)]
    rfl
  · exact exec_ticket_proved hlines hmost hdata htkt hmtu h hp (State.takeTicket_late hjob hsolo hclosed) rfl
  · exact exec_ticket_proved hlines hmost hdata htkt hmtu h hp (State.takeTicket_stored hjob hsolo hsoon hopen hvalid hfits hroom hoff hbusy) rfl

end Sys2Proof.Machine

/-! SUPPORT. The life of a session: HELLO, PROVE, and the end of one that is not proved. -/

namespace Sys2Proof.Machine

/-! ## HELLO (R487 to R489) -/

section Hello
variable {s : State} {src : Sender} {seq : Word32} {nonce : List Byte} (hport : s.hostPort src.port = true) (hnonce : nonce.length = 32)
include hport hnonce

/-- No session makes room: the HELLO is denied (log 29). -/
theorem exec_hello_full (hroom : s.host.room = none) :
    exec (.hello src seq nonce) s = .next (s.send [openReply src.port 0xFFFF stDenied seq []]) := by
  simp only [exec, execHello]
  rw [if_neg (by simp [hport]), if_neg (by simpa using hnonce), hroom]

/-- A HELLO opens session n with a nonce of its own and answers with the report over the host's. -/
theorem exec_hello_opens {n : Nat} (hroom : s.host.room = some n) : ∃ own b k, own.length = 32 ∧
    exec (.hello src seq nonce) s = .next (((({ s with freeCtr := k } : State).putSession n { ip := src.ip.toNat, udp := src.udp.toNat, v6 := src.v6, port := src.port, tick := s.tick, nonce := own }).send
      [openReply src.port n stOk seq (own ++ (b ++ edSign s.sec.priv s.sec.pub b))]).resumeOutputs n) ∧
    b.take 2 = natToBytes 1 2 ∧ (b.drop 8).take 8 = natToBytes s.moduleId.toNat 8 ∧ (b.drop 32).take 8 = natToBytes s.tick 8 ∧ b.drop (b.length - 32) = nonce := by
  obtain ⟨hlen, hfree⟩ := State.freeBytes_eq 4 s
  obtain ⟨b, k, hreport, hversion, hid, htick, htail⟩ := State.report_eq (s.freeBytes 4).2 nonce hnonce
  rw [hfree] at hreport hid htick
  refine ⟨(s.freeBytes 4).1, b, k, hlen, ?_, hversion, hid, htick, htail⟩
  simp only [exec, execHello]
  rw [if_neg (by simp [hport]), if_neg (by simpa using hnonce), hroom]
  dsimp only
  rw [hfree, hreport]

end Hello

/-- Release goes on from line ACKED when the session for outputs opens (R442). -/
theorem State.resumeOutputs_spec (s : State) (n : Nat) : s.resumeOutputs n = { s with host := { s.host with
    outputs := if bits s.host.ctrl.toNat 2 0 = n then s.host.outputs.map (fun o => { o with sent := o.acked, tick := s.tick }) else s.host.outputs } } := by
  unfold State.resumeOutputs
  split
  · rfl
  · rfl

/-! ## PROVE (R487, R488) -/

theorem State.proves_eq {s : State} {x : Session} {n key : Nat} {sig k : List Byte} (hx : x.proved = false) (hk : s.ownerKey key 0 = some k) :
    s.proves x n key sig = edVerify k (natToBytes s.moduleId.toNat 8 ++ natToBytes n 2 ++ x.nonce) sig := by
  rw [State.proves, hx, hk]
  rfl

section Prove
variable {s : State} {src : Sender} {n key : Nat} {sig : List Byte} {x : Session} (h : Arrives s src n x)
include h

/-- A PROVE of an open session is a request of that session. -/
theorem exec_prove_request (seq : Word32) : exec (.prove src seq n key sig) s = .next (s.request src n seq 0x01 false fun x s =>
    if s.proves x n key sig then
      bare stOk (s.putSession n { x with proved := true, key := key, ip := src.ip.toNat, udp := src.udp.toNat, v6 := src.v6 })
    else bare stDenied (if x.proved then s.hubFault 0x0705 0 else (s.closeSession n).hubFault 0x0705 0)) := by
  simp only [exec, execProve]
  rw [h.2.1]

/-- A signature that verifies proves the session, which is from then on bound to its source. -/
theorem exec_prove_good {y : Session} (hgood : s.proves x n key sig = true)
    (hy : y = { x with proved := true, key := key, ip := src.ip.toNat, udp := src.udp.toNat, v6 := src.v6 }) :
    exec (.prove src x.nseq n key sig) s = .next ((s.putSession n y).answered n ((s.putSession n y).replyPort x src) y 0x01 stOk [[]]) := by
  obtain ⟨f, hf⟩ : ∃ f : Session → State → (Nat × List (List Byte)) × State, f = fun x s => if s.proves x n key sig then
      bare stOk (s.putSession n { x with proved := true, key := key, ip := src.ip.toNat, udp := src.udp.toNat, v6 := src.v6 })
    else bare stDenied (if x.proved then s.hubFault 0x0705 0 else (s.closeSession n).hubFault 0x0705 0) := ⟨_, rfl⟩
  have hfx : f x s = bare stOk (s.putSession n y) := by
    rw [hf]
    dsimp only
    rw [if_pos hgood, hy]
  have hrun := State.request_run (type := 0x01) (lost := false) (f := f) h (y := y) (by rw [hfx]; exact keyGet_keyPut_same _ _ _) (by rw [hy])
  rw [hfx, hf] at hrun
  rw [exec_prove_request h, hrun]
  rfl

/-- One that fails is recorded, is answered DENIED, and closes the session. -/
theorem exec_prove_bad (hx : x.proved = false) (hbad : s.proves x n key sig = false) : exec (.prove src x.nseq n key sig) s = .next
    (((s.closeSession n).hubFault 0x0705 0).send [{ port := ((s.closeSession n).hubFault 0x0705 0).replyPort x src, session := n, type := 0x81, status := stDenied, seq := x.nseq, body := [] }]) := by
  obtain ⟨f, hf⟩ : ∃ f : Session → State → (Nat × List (List Byte)) × State, f = fun x s => if s.proves x n key sig then
      bare stOk (s.putSession n { x with proved := true, key := key, ip := src.ip.toNat, udp := src.udp.toNat, v6 := src.v6 })
    else bare stDenied (if x.proved then s.hubFault 0x0705 0 else (s.closeSession n).hubFault 0x0705 0) := ⟨_, rfl⟩
  have hfx : f x s = bare stDenied ((s.closeSession n).hubFault 0x0705 0) := by
    rw [hf]
    dsimp only
    rw [hbad, hx]
    rfl
  have hclosed : keyGet (f x s).2.host.sessions n = none := by
    rw [hfx]
    exact State.recordAs_closed (keyGet_keyDel _ _)
  have hrun := State.request_closes (type := 0x01) (lost := false) (f := f) h hclosed
  rw [hfx, hf] at hrun
  rw [exec_prove_request h, hrun]
  rfl

end Prove

/-- The ports by which replies leave depend on the links of the ports alone. -/
theorem State.replyPort_eth {s t : State} (h : t.host.eth = s.host.eth) (x : Session) (src : Sender) : t.replyPort x src = s.replyPort x src ∧ t.tagOf = s.tagOf := by
  refine ⟨?_, ?_⟩
  · unfold State.replyPort State.sendPort State.ethUp
    rw [h]
  · unfold State.tagOf
    rw [h]

/-! ## The statement -/

/-- Settles O45: room for a session, a proof at its turn, and the end of an unproved session. That a HELLO without room is answered with SESSION 0xFFFF is
log 29's reading; that a new session takes the lowest free number is the model's. -/
theorem sessionsOpen : Obligations.SessionsOpen := by
  unfold Obligations.SessionsOpen
  intro s src hcalm hport
  refine ⟨fun seq nonce n hnonce hroom => ?hello, fun seq nonce hnonce hfull hproved => ?full, fun n key sig x k y hx hnot hk hy => ?prove,
    fun n x hx hnot => ?timeout, fun n x hx hproved => ?stays⟩
  case hello =>
    have hr : s.host.room = some n := by
      rcases hroom with ⟨hn, h0, hm⟩ | ⟨hm, pre, x, post, hs, hx, h1, h2⟩
      · exact HostIf.room_free hn h0 hm
      · exact HostIf.room_oldest hm hs hx h1 h2
    obtain ⟨own, b, k, hown, hrun, hversion, hid, htick, htail⟩ := exec_hello_opens (seq := seq) hport hnonce hr
    rw [State.resumeOutputs_spec] at hrun
    refine ⟨_, { ip := src.ip.toNat, udp := src.udp.toNat, v6 := src.v6, port := src.port, tick := s.tick, nonce := own }, b, hrun, rfl, rfl, rfl, rfl, hown, rfl, ?_, hversion, hid, htick, htail⟩
    rw [List.append_assoc]
    rfl
  case full =>
    rw [exec_hello_full hport hnonce (HostIf.room_full hfull hproved)]
    rfl
  case prove =>
    have h : Arrives s src n x := ⟨hport, hx, fun hp => absurd (hnot.symm.trans hp) (by decide)⟩
    refine ⟨fun hsig => ?_, fun hsig => ?_, fun seq hseq hcache => ?_⟩
    · rw [exec_prove_good h (by rw [State.proves_eq hnot hk]; exact hsig) hy]
      rfl
    · obtain ⟨u, hu⟩ : ∃ u, u = (s.closeSession n).hubFault 0x0705 0 := ⟨_, rfl⟩
      have heth : u.host.eth = s.host.eth := by rw [hu, State.hubFault, State.record, State.recordAs_eth]; rfl
      obtain ⟨hreply, htag⟩ := State.replyPort_eth heth x src
      have hrun := exec_prove_bad h hnot (by rw [State.proves_eq hnot hk]; exact hsig)
      rw [← hu, hreply] at hrun
      refine ⟨_, hrun, ?_, ?_, ?_⟩
      · show keyGet u.host.sessions n = none
        rw [hu]
        exact State.recordAs_closed (keyGet_keyDel _ _)
      · show Recorded s (u.send _) 0x0705
        exact hu ▸ State.record_recorded (s.closeSession n) 0x0705 5 0 0 0 0
      · show (u.host.out ++ u.tagged _).getLast? = _
        rw [State.tagged, List.map_singleton, List.getLast?_concat, htag]
    · rw [exec_prove_request h, State.request_unknown h hseq hcache]
      rfl
  case timeout =>
    simp only [exec, execSessionTimeout]
    rw [hx]
    dsimp only
    rw [hnot, if_neg (by decide), State.advanceTick, State.advance_calm hcalm]
    rfl
  case stays =>
    simp only [exec, execSessionTimeout]
    rw [hx]
    dsimp only
    rw [if_pos hproved]

end Sys2Proof.Machine

/-! SUPPORT. The commands on editions and the Finfin registers that may be written only at some times (R335, R364, R375, R385). -/

namespace Sys2Proof.Machine

/-! ## FINFIN_CTRL -/

theorem flag_bit_lt_two (n i : Nat) : flag (bit n i) < 2 := flag_lt_two _

/-- REPAIR over the two slots. -/
theorem State.repairAll_eq {s : State} (h : s.fin.slots.length = 2) : s.repairAll = { s with fin := { s.fin with
    slots := s.fin.slots.map fun e => { e with shards := e.shards.map fun y => { y with repair := y.repair || y.damaged, given := false } } } } := by
  obtain ⟨a, b, hab⟩ := List.length_eq_two.mp h
  unfold State.repairAll State.modEd State.modFin
  simp only [List.foldl_cons, List.foldl_nil, hab]
  rfl

/-- FINFIN_CTRL's REPAIR after its other commands. -/
theorem State.repairIf_eq {s : State} {v : Word32} (h : s.fin.slots.length = 2) :
    (if bit v.toNat 6 then s.repairAll else s) = { s with fin := s.fin.repaired v } := by
  unfold Finfin.repaired
  by_cases h6 : bit v.toNat 6 = true
  · rw [if_pos h6, if_pos h6, State.repairAll_eq h]
  · rw [if_neg h6, if_neg h6]

theorem State.loadSlot_done {s : State} {i : Nat} (hempty : (s.edSlot i).state = .empty)
    (hregion : (s.edSlot i).region ≠ (s.edSlot (1 - i)).region ∨ (s.edSlot (1 - i)).state = .empty) :
    s.loadSlot i = (.done, s.modEd i fun e => { region := e.region, edition := e.edition, state := .loading }) := by
  unfold State.loadSlot
  dsimp only
  rw [if_pos (by simpa [hempty] using hregion)]

theorem State.loadSlot_refused {s : State} {i : Nat} (h : (s.edSlot i).state ≠ .empty ∨
    (s.edSlot i).region = (s.edSlot (1 - i)).region ∧ (s.edSlot (1 - i)).state ≠ .empty) : (s.loadSlot i).1 = .refused 0x0806 := by
  unfold State.loadSlot
  dsimp only
  rw [if_neg]
  · rfl
  · simp only [Bool.and_eq_true, Bool.or_eq_true, beq_iff_eq, bne_iff_ne]
    rintro ⟨hempty, hother⟩
    rcases h with h | ⟨hsame, hbusy⟩
    · exact h hempty
    · exact hother.elim (fun g => g hsame) hbusy

/-- A write of FINFIN_CTRL with LOAD alone, or with ABORT alone. -/
theorem State.writeFinCtrl_load {s t : State} {v : Word32} (hload : bit v.toNat 0 = true) (habort : bit v.toNat 2 = false)
    (h : ({ s with fin := s.fin.ctrl v } : State).loadSlot (flag (bit v.toNat 1)) = (.done, t)) :
    (s.writeFinCtrl v).2 = if bit v.toNat 6 then t.repairAll else t := by
  unfold State.writeFinCtrl
  dsimp only
  rw [if_pos hload, habort, if_neg Bool.false_ne_true, show State.modFin s _ = ({ s with fin := s.fin.ctrl v } : State) from rfl, h, if_pos ⟨rfl, rfl⟩]

theorem State.writeFinCtrl_abort {s t : State} {v : Word32} (hload : bit v.toNat 0 = false) (habort : bit v.toNat 2 = true)
    (h : ({ s with fin := s.fin.ctrl v } : State).abortSlot (flag (bit v.toNat 1)) = (.done, t)) :
    (s.writeFinCtrl v).2 = if bit v.toNat 6 then t.repairAll else t := by
  unfold State.writeFinCtrl
  dsimp only
  rw [hload, if_neg Bool.false_ne_true, if_pos habort, show State.modFin s _ = ({ s with fin := s.fin.ctrl v } : State) from rfl, h, if_pos ⟨rfl, rfl⟩]

/-- A refused LOAD, whatever else the write asks for. -/
theorem State.writeFinCtrl_load_refused {s : State} {v : Word32} (hload : bit v.toNat 0 = true)
    (h : (({ s with fin := s.fin.ctrl v } : State).loadSlot (flag (bit v.toNat 1))).1 = .refused 0x0806) :
    (s.writeFinCtrl v).2 = s.finFault 0x0806 (flag (bit v.toNat 1)) [] := by
  unfold State.writeFinCtrl
  dsimp only
  rw [if_pos hload, show State.modFin s _ = ({ s with fin := s.fin.ctrl v } : State) from rfl, h, if_neg fun g => absurd g.1 (by decide)]
  rfl

theorem State.writeFinCtrl_abort_refused {s : State} {v : Word32} (hload : bit v.toNat 0 = false) (habort : bit v.toNat 2 = true)
    (h : (({ s with fin := s.fin.ctrl v } : State).abortSlot (flag (bit v.toNat 1))).1 = .refused 0x0806) :
    (s.writeFinCtrl v).2 = s.finFault 0x0806 (flag (bit v.toNat 1)) [] := by
  unfold State.writeFinCtrl
  dsimp only
  rw [hload, if_neg Bool.false_ne_true, if_pos habort, show State.modFin s _ = ({ s with fin := s.fin.ctrl v } : State) from rfl, h,
    if_neg fun g => absurd g.2 (by decide)]
  rfl

theorem State.writeFinCtrl_plain {s : State} {v : Word32} (hload : bit v.toNat 0 = false) (habort : bit v.toNat 2 = false) :
    (s.writeFinCtrl v).2 = if bit v.toNat 6 then ({ s with fin := s.fin.ctrl v } : State).repairAll else { s with fin := s.fin.ctrl v } := by
  unfold State.writeFinCtrl
  dsimp only
  rw [hload, habort, if_neg Bool.false_ne_true, if_neg Bool.false_ne_true, if_pos ⟨rfl, rfl⟩]
  rfl

section Ctrl
variable {s : State} {v : Word32}

theorem State.load_runs (hload : bit v.toNat 0 = true) : exec (.load v) s = .next (s.writeFinCtrl v).2 := by
  simp only [exec, execLoad]
  rw [if_pos hload]
  rfl

theorem State.finfinAbort_runs (habort : bit v.toNat 2 = true) : exec (.finfinAbort v) s = .next (s.writeFinCtrl v).2 := by
  simp only [exec, execFinfinAbort]
  rw [if_pos habort]
  rfl

theorem State.load_done (hlen : s.fin.slots.length = 2) (hload : bit v.toNat 0 = true) (habort : bit v.toNat 2 = false)
    (hempty : (s.edSlot (flag (bit v.toNat 1))).state = .empty)
    (hregion : (s.edSlot (flag (bit v.toNat 1))).region ≠ (s.edSlot (1 - flag (bit v.toNat 1))).region ∨ (s.edSlot (1 - flag (bit v.toNat 1))).state = .empty) :
    exec (.load v) s = .next { s with fin := Finfin.repaired { s.fin.ctrl v with
      slots := modAt s.fin.slots (flag (bit v.toNat 1)) fun e => { region := e.region, edition := e.edition, state := .loading } } v } := by
  rw [State.load_runs hload, State.writeFinCtrl_load hload habort (State.loadSlot_done (s := { s with fin := s.fin.ctrl v }) hempty hregion),
    State.repairIf_eq ((length_modAt ..).trans hlen)]
  rfl

theorem State.load_refused (hload : bit v.toNat 0 = true) (h : (s.edSlot (flag (bit v.toNat 1))).state ≠ .empty ∨
      (s.edSlot (flag (bit v.toNat 1))).region = (s.edSlot (1 - flag (bit v.toNat 1))).region ∧ (s.edSlot (1 - flag (bit v.toNat 1))).state ≠ .empty) :
    exec (.load v) s = .next (s.finFault 0x0806 (flag (bit v.toNat 1)) []) := by
  rw [State.load_runs hload, State.writeFinCtrl_load_refused hload (State.loadSlot_refused (s := { s with fin := s.fin.ctrl v }) h)]

theorem State.abortSlot_done {i : Nat} (h : (s.edSlot i).state = .loading) : s.abortSlot i = (.done, s.emptySlot i) := by
  unfold State.abortSlot
  rw [if_pos (by rw [h]; rfl)]

theorem State.abortSlot_refused {i : Nat} (h : (s.edSlot i).state ≠ .loading) : (s.abortSlot i).1 = .refused 0x0806 := by
  unfold State.abortSlot
  rw [if_neg (by simpa using h)]
  rfl

theorem State.finfinAbort_done (hlen : s.fin.slots.length = 2) (hload : bit v.toNat 0 = false) (habort : bit v.toNat 2 = true)
    (hstate : (s.edSlot (flag (bit v.toNat 1))).state = .loading) :
    exec (.finfinAbort v) s = .next { s with fin := Finfin.repaired { s.fin.ctrl v with
      slots := modAt s.fin.slots (flag (bit v.toNat 1)) fun e => { region := e.region, edition := e.edition }
      fetches := s.fin.fetches.filter (·.slot != flag (bit v.toNat 1)) } v } := by
  rw [State.finfinAbort_runs habort, State.writeFinCtrl_abort hload habort (State.abortSlot_done (s := { s with fin := s.fin.ctrl v }) hstate),
    State.repairIf_eq ((length_modAt ..).trans hlen)]
  rfl

theorem State.finfinAbort_refused (hload : bit v.toNat 0 = false) (habort : bit v.toNat 2 = true)
    (hstate : (s.edSlot (flag (bit v.toNat 1))).state ≠ .loading) :
    exec (.finfinAbort v) s = .next (s.finFault 0x0806 (flag (bit v.toNat 1)) []) := by
  rw [State.finfinAbort_runs habort, State.writeFinCtrl_abort_refused hload habort (State.abortSlot_refused (s := { s with fin := s.fin.ctrl v }) hstate)]

theorem State.repair_done (hlen : s.fin.slots.length = 2) (hload : bit v.toNat 0 = false) (habort : bit v.toNat 2 = false)
    (hrepair : bit v.toNat 6 = true) : exec (.repair v) s = .next { s with fin := Finfin.repaired (s.fin.ctrl v) v } := by
  simp only [exec, execRepair]
  rw [if_pos hrepair, show s.writeFin 4 v = s.writeFinCtrl v from rfl, State.writeFinCtrl_plain hload habort, State.repairIf_eq (s := { s with fin := s.fin.ctrl v }) hlen]

end Ctrl

/-! ## WEIGHT_EDITION -/

/-- The three command bits of WEIGHT_EDITION. -/
theorem bits_edition (n : Nat) : bits n 8 6 = flag (bit n 6) + 2 * flag (bit n 7) + 4 * flag (bit n 8) := by
  simp only [bits, bit, flag, Nat.testBit_eq_decide_div_mod_eq, decide_eq_true_eq]
  split <;> split <;> split <;> omega

theorem edition_activate {n : Nat} (h : bits n 8 6 = 1) : bit n 6 = true ∧ bit n 7 = false ∧ bit n 8 = false := by
  rw [bits_edition] at h
  cases h6 : bit n 6 <;> cases h7 : bit n 7 <;> cases h8 : bit n 8 <;> simp [h6, h7, h8, flag] at h ⊢

theorem edition_release {n i : Nat} (hi : i < 2) (h : bits n 8 6 = 2 * 2 ^ i) :
    bit n 6 = false ∧ bit n 7 = decide (i = 0) ∧ bit n 8 = decide (i = 1) := by
  rw [bits_edition] at h
  obtain rfl | rfl : i = 0 ∨ i = 1 := by omega
  all_goals cases h6 : bit n 6 <;> cases h7 : bit n 7 <;> cases h8 : bit n 8 <;> simp [h6, h7, h8, flag] at h ⊢

section Edition
variable {s : State} {v : Word32}

theorem State.activate_runs (h : bits v.toNat 8 6 = 1) :
    exec (.activate v) s = .next (if s.bar.phase = .detached then ({ s with fin := s.fin.edited v } : State).latch else { s with fin := s.fin.edited v }) := by
  obtain ⟨h6, h7, h8⟩ := edition_activate h
  simp only [exec, execActivate]
  rw [if_pos h6, show s.writeFin 0 v = s.writeEdition v from rfl]
  unfold State.writeEdition State.setActivate
  dsimp only
  simp only [h6, h7, h8, State.modFin, Bool.true_and, beq_iff_eq, if_neg (Bool.false_ne_true)]
  rw [if_neg (by simp), if_neg (by simp)]
  simp only [Finfin.edited, h6, h7, h8]

theorem State.latch_none (h0 : (s.edSlot 0).state ≠ .verified) (h1 : (s.edSlot 1).state ≠ .verified) : s.latch = s := by
  unfold State.latch
  rw [show [0, 1].find? (fun i => (s.edSlot i).state == .verified) = none by simp [h0, h1]]

theorem State.latch_first (hlen : s.fin.slots.length = 2) (h0 : (s.edSlot 0).state = .verified) : s.latch = { s with fin := { s.fin with
    activate := false
    slots := [{ s.edSlot 0 with state := .admitted }, if (s.edSlot 1).state = .admitted then { s.edSlot 1 with state := .resident } else s.edSlot 1] } } := by
  obtain ⟨a, b, hab⟩ := List.length_eq_two.mp hlen
  unfold State.latch
  rw [show [0, 1].find? (fun i => (s.edSlot i).state == .verified) = some 0 by simp [h0]]
  simp only [State.modEd, State.modFin, State.edSlot, hab, modAt, beq_iff_eq]
  rfl

theorem State.latch_second (hlen : s.fin.slots.length = 2) (h0 : (s.edSlot 0).state ≠ .verified) (h1 : (s.edSlot 1).state = .verified) : s.latch = { s with fin := { s.fin with
    activate := false
    slots := [if (s.edSlot 0).state = .admitted then { s.edSlot 0 with state := .resident } else s.edSlot 0, { s.edSlot 1 with state := .admitted }] } } := by
  obtain ⟨a, b, hab⟩ := List.length_eq_two.mp hlen
  unfold State.latch
  rw [show [0, 1].find? (fun i => (s.edSlot i).state == .verified) = some 1 by simp [h0, h1]]
  simp only [State.modEd, State.modFin, State.edSlot, hab, modAt, beq_iff_eq]
  rfl

/-- A write of one RELEASE bit. -/
theorem State.release_runs {i : Nat} (hi : i < 2) (h : bits v.toNat 8 6 = 2 * 2 ^ i) :
    exec (.release v) s = .next (if (({ s with fin := s.fin.edited v } : State).askRelease i).1 = .done
      then (({ s with fin := s.fin.edited v } : State).askRelease i).2 else s.finFault 0x0806 i []) := by
  obtain ⟨h6, h7, h8⟩ := edition_release hi h
  have hset : ({ s with fin := { s.fin with release0 := s.fin.release0 && bit v.toNat 7, release1 := s.fin.release1 && bit v.toNat 8 } } : State).setActivate (bit v.toNat 6) =
      { s with fin := s.fin.edited v } := by
    unfold State.setActivate
    rw [h6]
    simp only [State.modFin, Finfin.edited, h6, Bool.false_and]
    rfl
  simp only [exec, execRelease]
  rw [show s.writeFin 0 v = s.writeEdition v from rfl]
  unfold State.writeEdition
  dsimp only
  rw [show State.modFin s (fun x => { x with release0 := x.release0 && bit v.toNat 7, release1 := x.release1 && bit v.toNat 8 }) =
    ({ s with fin := { s.fin with release0 := s.fin.release0 && bit v.toNat 7, release1 := s.fin.release1 && bit v.toNat 8 } } : State) from rfl, hset]
  obtain rfl | rfl : i = 0 ∨ i = 1 := by omega
  · rw [h7, h8]
    by_cases hdone : (({ s with fin := s.fin.edited v } : State).askRelease 0).1 = .done
    · simp [hdone]
    · simp [hdone, State.finRefuse]
  · rw [h7, h8]
    by_cases hdone : (({ s with fin := s.fin.edited v } : State).askRelease 1).1 = .done
    · simp [hdone]
    · simp [hdone, State.finRefuse]

section Release
variable {i : Nat} (hi : i < 2) (hbits : bits v.toNat 8 6 = 2 * 2 ^ i)
include hi hbits

theorem State.release_ends (h : (s.edSlot i).state = .verified ∨ (s.edSlot i).state = .failed) :
    exec (.release v) s = .next { s with fin := { s.fin.edited v with
      slots := modAt s.fin.slots i fun e => { region := e.region, edition := e.edition }
      fetches := s.fin.fetches.filter (·.slot != i) } } := by
  have hask : ({ s with fin := s.fin.edited v } : State).askRelease i = (.done, ({ s with fin := s.fin.edited v } : State).emptySlot i) := by
    unfold State.askRelease
    rw [show ({ s with fin := s.fin.edited v } : State).edSlot i = s.edSlot i from rfl]
    rcases h with h | h <;> rw [h]
  rw [State.release_runs hi hbits, hask, if_pos rfl]
  rfl

theorem State.release_waits (h : (s.edSlot i).state = .resident) (hphase : s.bar.phase ≠ .detached) :
    exec (.release v) s = .next { s with
      fin := if i = 0 then { s.fin.edited v with release0 := true } else { s.fin.edited v with release1 := true } } := by
  have hask : ({ s with fin := s.fin.edited v } : State).askRelease i = (.done, ({ s with fin := s.fin.edited v } : State).modFin fun x =>
      if i = 0 then { x with release0 := true } else { x with release1 := true }) := by
    unfold State.askRelease
    rw [show ({ s with fin := s.fin.edited v } : State).edSlot i = s.edSlot i from rfl, h]
    dsimp only
    rw [if_neg hphase]
  rw [State.release_runs hi hbits, hask, if_pos rfl]
  rfl

theorem State.release_resident (h : (s.edSlot i).state = .resident) (hphase : s.bar.phase = .detached) :
    exec (.release v) s = .next (({ s with fin := s.fin.edited v } : State).releaseSlot i) := by
  have hask : ({ s with fin := s.fin.edited v } : State).askRelease i = (.done, ({ s with fin := s.fin.edited v } : State).releaseSlot i) := by
    unfold State.askRelease
    rw [show ({ s with fin := s.fin.edited v } : State).edSlot i = s.edSlot i from rfl, h]
    dsimp only
    rw [if_pos hphase]
  rw [State.release_runs hi hbits, hask, if_pos rfl]

theorem State.release_empty (h : (s.edSlot i).state = .empty) : exec (.release v) s = .next { s with fin := s.fin.edited v } := by
  have hask : ({ s with fin := s.fin.edited v } : State).askRelease i = (.done, { s with fin := s.fin.edited v }) := by
    unfold State.askRelease
    rw [show ({ s with fin := s.fin.edited v } : State).edSlot i = s.edSlot i from rfl, h]
  rw [State.release_runs hi hbits, hask, if_pos rfl]

theorem State.release_refused (h : (s.edSlot i).state = .admitted ∨ (s.edSlot i).state = .loading) :
    exec (.release v) s = .next (s.finFault 0x0806 i []) := by
  have hask : (({ s with fin := s.fin.edited v } : State).askRelease i).1 = .refused 0x0806 := by
    unfold State.askRelease
    rw [show ({ s with fin := s.fin.edited v } : State).edSlot i = s.edSlot i from rfl]
    rcases h with h | h <;> rw [h] <;> rfl
  rw [State.release_runs hi hbits, hask, if_neg (by decide)]

end Release

/-- What a released slot leaves: no manifest, and no open handle over its region. -/
theorem State.releaseSlot_cores (s : State) (i : Nat) :
    (s.releaseSlot i).cores = s.cores.map fun c => (c.1, c.2.closeOver (c.2.table.getD (s.edSlot i).region.toNat {})) := rfl

theorem State.releaseSlot_slot {s : State} {i : Nat} (hi : i < s.fin.slots.length) : (s.releaseSlot i).edSlot i = (s.edSlot i).clear := by
  have hslots : (s.releaseSlot i).fin.slots = modAt s.fin.slots i EdSlot.clear := by
    unfold State.releaseSlot
    obtain rfl | hne := eq_or_ne i 0
    · rfl
    · simp only [State.modFin, if_neg hne]
      rfl
  unfold State.edSlot
  rw [hslots, getD_modAt_same _ _ _ _ hi]

theorem Core.closeOver_closes {c : Core} {r : Region} {h : Nat × Handle} (hmem : h ∈ c.chan.handles) (howner : isOwner h.2.kind = true)
    (hstock : h.2.stock = true) (hmeets : r.meets true h.2.base h.2.lines = true) :
    (h.1, if h.2.state = .closed then h.2 else h.2.shut false) ∈ (c.closeOver r).chan.handles := by
  refine List.mem_map.mpr ⟨h, hmem, ?_⟩
  by_cases hclosed : h.2.state = .closed
  · simp [hclosed]
  · simp [hclosed, howner, hstock, hmeets]

end Edition

/-! ## The registers -/

section Registers
variable {s : State} {v : Word32}

theorem State.anyLoading_iff (s : State) : s.anyLoading = true ↔ ∃ e ∈ s.fin.slots, e.state = .loading := by
  simp [State.anyLoading]

theorem State.sourceMap_done (h : ∀ e ∈ s.fin.slots, e.state ≠ .loading) :
    exec (.finfinRegisterWrite 0xA00010 v) s = .next { s with fin := { s.fin with source := v &&& 0xFFFF007F } } ∧
    exec (.finfinRegisterWrite 0xA0001C v) s = .next { s with fin := { s.fin with vmap := v &&& 0x801FFFFF } } := by
  have hload : ¬ s.anyLoading = true := fun g => by
    obtain ⟨e, hmem, he⟩ := (State.anyLoading_iff s).mp g
    exact h e hmem he
  refine ⟨(State.fin_write (o := 0x10) rfl (by decide) rfl).trans ?_, (State.fin_write (o := 0x1C) rfl (by decide) rfl).trans ?_⟩
  all_goals
    simp [State.writeFin, State.writeFinReg, hload]
    rfl

theorem State.sourceMap_refused (h : ∃ e ∈ s.fin.slots, e.state = .loading) :
    ∀ a ∈ [0xA00010, 0xA0001C], exec (.finfinRegisterWrite a v) s = .next (s.finFault 0x0806 0 []) := by
  have hload := (State.anyLoading_iff s).mpr h
  intro a ha
  obtain rfl | rfl : a = 0xA00000 + 0x10 ∨ a = 0xA00000 + 0x1C := by simpa using ha
  all_goals
    rw [State.fin_write rfl (by decide) rfl]
    simp [State.writeFin, State.writeFinReg, hload]
    rfl

/-- FINFIN_SLOT and FINFIN_EDITION of a slot. -/
theorem isFinRow_slot {o : Nat} (h1 : 0x20 ≤ o) (h2 : o < 0x30) : isFinRow o = true := by
  simp [isFinRow, h1, h2]

theorem State.writeFinReg_slot {o : Nat} (h1 : 0x20 ≤ o) (h2 : o < 0x30) : s.writeFin o v =
    if (s.edSlot ((o - 0x20) / 8)).state != .empty then s.finRefuse ((o - 0x20) / 8)
    else (.done, s.modEd ((o - 0x20) / 8) fun e => if o % 8 = 0 then { e with region := v.setWidth 6 } else { e with edition := v }) := by
  unfold State.writeFin State.writeFinReg
  dsimp only
  rw [if_neg (by omega), if_neg (by omega), if_neg (by omega), if_neg (by omega), if_neg (by omega), if_neg (by omega), if_neg (by omega), if_pos ⟨h1, h2⟩]

theorem State.slotRegister_done {i : Nat} (hi : i < 2) (h : (s.edSlot i).state = .empty) :
    exec (.finfinRegisterWrite (0xA00020 + 8 * i) v) s = .next { s with fin := { s.fin with slots := modAt s.fin.slots i fun e => { e with region := v.setWidth 6 } } } ∧
    exec (.finfinRegisterWrite (0xA00024 + 8 * i) v) s = .next { s with fin := { s.fin with slots := modAt s.fin.slots i fun e => { e with edition := v } } } := by
  have hidx : ∀ k < 8, (0x20 + 8 * i + k - 0x20) / 8 = i := by omega
  constructor
  · rw [show 0xA00020 + 8 * i = 0xA00000 + (0x20 + 8 * i + 0) by omega, State.fin_write (isFinRow_slot (by omega) (by omega)) (by omega) (by omega),
      State.writeFinReg_slot (by omega) (by omega), hidx 0 (by omega), h, if_neg (by decide)]
    simp only [if_pos (show (0x20 + 8 * i + 0) % 8 = 0 by omega)]
    rfl
  · rw [show 0xA00024 + 8 * i = 0xA00000 + (0x20 + 8 * i + 4) by omega, State.fin_write (isFinRow_slot (by omega) (by omega)) (by omega) (by omega),
      State.writeFinReg_slot (by omega) (by omega), hidx 4 (by omega), h, if_neg (by decide)]
    simp only [if_neg (show ¬ (0x20 + 8 * i + 4) % 8 = 0 by omega)]
    rfl

theorem State.slotRegister_refused {i : Nat} (hi : i < 2) (h : (s.edSlot i).state ≠ .empty) :
    ∀ a ∈ [0xA00020 + 8 * i, 0xA00024 + 8 * i], exec (.finfinRegisterWrite a v) s = .next (s.finFault 0x0806 i []) := by
  intro a ha
  obtain ⟨k, hk, rfl⟩ : ∃ k, (k = 0 ∨ k = 4) ∧ a = 0xA00000 + (0x20 + 8 * i + k) := by
    simp only [List.mem_cons, List.not_mem_nil, or_false] at ha
    rcases ha with rfl | rfl
    · exact ⟨0, .inl rfl, by omega⟩
    · exact ⟨4, .inr rfl, by omega⟩
  rw [State.fin_write (isFinRow_slot (by omega) (by omega)) (by omega) (by omega), State.writeFinReg_slot (by omega) (by omega),
    show (0x20 + 8 * i + k - 0x20) / 8 = i by omega, if_pos (by simpa using h)]
  rfl

/-- The words of TIER2_STREAM. -/
theorem State.writeFinReg_stream {n w : Nat} (hn : n < 256) (hw : w < 4) : exec (.finfinRegisterWrite (0xA01000 + 16 * n + 4 * w) v) s = .next
    (if s.anyAttached && s.bar.phase != .held then s.finRefuse (s.streamSlot n)
     else (.done, s.modFin fun x => { x with streams := putWord x.streams (4 * n + w) (v &&& streamMask w) })).2 := by
  rw [show 0xA01000 + 16 * n + 4 * w = 0xA00000 + (0x1000 + 16 * n + 4 * w) by omega,
    State.fin_write (by simp [isFinRow]; omega) (by omega) (by omega)]
  unfold State.writeFin State.writeFinReg
  dsimp only
  rw [if_neg (by omega), if_neg (by omega), if_neg (by omega), if_neg (by omega), if_neg (by omega), if_neg (by omega), if_neg (by omega), if_neg (by omega),
    if_neg (by omega), if_pos (by omega), show (0x1000 + 16 * n + 4 * w - 0x1000) / 16 = n by omega, show (0x1000 + 16 * n + 4 * w - 0x1000) / 4 = 4 * n + w by omega,
    show (0x1000 + 16 * n + 4 * w) / 4 % 4 = w by omega]

theorem State.streamRegister_done {n w : Nat} (hn : n < 256) (hw : w < 4) (h : s.anyAttached = false ∨ s.bar.phase = .held) :
    exec (.finfinRegisterWrite (0xA01000 + 16 * n + 4 * w) v) s =
      .next { s with fin := { s.fin with streams := putWord s.fin.streams (4 * n + w) (v &&& streamMask w) } } := by
  rw [State.writeFinReg_stream hn hw, if_neg (by rcases h with h | h <;> simp [h])]
  rfl

theorem State.streamRegister_refused {n w : Nat} (hn : n < 256) (hw : w < 4) (hatt : s.anyAttached = true) (hphase : s.bar.phase ≠ .held) :
    exec (.finfinRegisterWrite (0xA01000 + 16 * n + 4 * w) v) s = .next (s.finFault 0x0806 (s.streamSlot n) []) := by
  rw [State.writeFinReg_stream hn hw, if_pos (by simp [hatt, hphase])]
  rfl

end Registers

/-- Settles O47: each command is a write of FINFIN_CTRL or WEIGHT_EDITION, whose commands are carried out on the written RW fields, slot state by
slot state. That 0 written to a RELEASE takes a pending release back, and that the refusal of the source and map registers names slot 0, are the
model's readings (log 25). -/
theorem editionCommands : Obligations.EditionCommands := by
  unfold Obligations.EditionCommands
  intro s v hlen
  refine ⟨State.load_done hlen, State.load_refused, State.finfinAbort_done hlen, State.finfinAbort_refused, State.repair_done hlen, fun hbits => ⟨?_, ?_, ?_⟩,
    fun i hi hbits => ⟨State.release_ends hi hbits, State.release_waits hi hbits, fun hres hphase => ?_, State.release_empty hi hbits, State.release_refused hi hbits⟩,
    ⟨State.sourceMap_done, State.sourceMap_refused⟩, fun i hi => ⟨State.slotRegister_done hi, State.slotRegister_refused hi⟩,
    fun n w hn hw => ⟨State.streamRegister_done hn hw, State.streamRegister_refused hn hw⟩⟩
  · intro h
    rw [State.activate_runs hbits]
    by_cases hphase : s.bar.phase = .detached
    · obtain ⟨h0, h1⟩ := h.resolve_left (not_not_intro hphase)
      rw [if_pos hphase, State.latch_none (s := { s with fin := s.fin.edited v }) h0 h1]
    · rw [if_neg hphase]
  · intro hphase h0
    rw [State.activate_runs hbits, if_pos hphase, State.latch_first (s := { s with fin := s.fin.edited v }) hlen h0]
    rfl
  · intro hphase h0 h1
    rw [State.activate_runs hbits, if_pos hphase, State.latch_second (s := { s with fin := s.fin.edited v }) hlen h0 h1]
    rfl
  · have hslot : (({ s with fin := s.fin.edited v } : State).releaseSlot i).edSlot i = (s.edSlot i).clear :=
      State.releaseSlot_slot (s := { s with fin := s.fin.edited v }) (hlen ▸ hi)
    refine ⟨_, State.release_resident hi hbits hres hphase, by rw [hslot]; rfl, by rw [hslot]; rfl, ?_, State.releaseSlot_cores _ i⟩
    intro c _ r h hr hmem howner hstock hmeets
    exact Core.closeOver_closes hmem howner hstock hmeets

end Sys2Proof.Machine

/-! SUPPORT. Requests between hubs, their replies and their time-outs (R367, R370 to R373, R384). -/

namespace Sys2Proof.Machine

theorem State.record_fin (s : State) (a b c d e f : Nat) : (s.record a b c d e f).fin = s.fin := by rw [State.record_kept]

theorem State.record_cores (s : State) (a b c d e f : Nat) : (s.record a b c d e f).cores = s.cores := by rw [State.record_kept]

theorem State.record_now (s : State) (a b c d e f : Nat) : (s.record a b c d e f).now = s.now := by rw [State.record_kept]

/-! ## A request is served (R372) -/

theorem EdSlot.holds_some {e : EdSlot} {n : Nat} {x : Shard} : e.holds n = some x ↔ e.shards[n]? = some x ∧ x.ok = true ∧ x.tier = 0 := by
  simp [EdSlot.holds, Option.filter_eq_some_iff]

/-- The test of `State.serving` on a slot. -/
theorem EdSlot.serves_iff (e : EdSlot) (p : Packet) :
    (e.edition.toNat == p.finEd && e.vmod == p.finVmod && !e.shards.isEmpty
      && (e.state == .loading || e.state == .verified || e.state == .admitted || e.state == .resident)
      && (p.finShard == 0xFFFFFFFF || (e.holds p.finShard).isSome)) = true ↔ e.serves p := by
  have hstate : (e.state = .loading ∨ e.state = .verified ∨ e.state = .admitted ∨ e.state = .resident) ↔ e.state ≠ .empty ∧ e.state ≠ .failed := by
    cases e.state <;> decide
  have hholds : (e.holds p.finShard).isSome = true ↔ ∃ x, e.shards[p.finShard]? = some x ∧ x.ok = true ∧ x.tier = 0 := by
    simp only [Option.isSome_iff_exists, EdSlot.holds_some]
  simp only [Bool.and_eq_true, Bool.or_eq_true, beq_iff_eq, Bool.not_eq_true', List.isEmpty_eq_false_iff, hholds, or_assoc]
  rw [hstate]
  unfold EdSlot.serves
  simp only [and_assoc]

theorem State.serving_none {s : State} {p : Packet} (h : ∀ j < 2, ¬ (s.edSlot j).serves p) : s.serving p = none := by
  unfold State.serving
  dsimp only
  rw [List.find?_eq_none]
  intro j hj
  rw [EdSlot.serves_iff]
  refine h j ?_
  simp only [List.mem_cons, List.not_mem_nil, or_false] at hj
  omega

theorem State.serving_some {s : State} {p : Packet} {j : Nat} (hj : j < 2) (h : (s.edSlot j).serves p) (hfirst : j = 1 → ¬ (s.edSlot 0).serves p) :
    s.serving p = some j := by
  unfold State.serving
  dsimp only
  obtain rfl | rfl : j = 0 ∨ j = 1 := by omega
  · exact List.find?_cons_of_pos ((EdSlot.serves_iff _ _).mpr h)
  · exact (List.find?_cons_of_neg (by rw [EdSlot.serves_iff]; exact hfirst rfl)).trans (List.find?_cons_of_pos ((EdSlot.serves_iff _ _).mpr h))

/-- The answer that no object is held. -/
def State.saysNone (s : State) (p : Packet) : State :=
  { s with mesh := { s.mesh with items := s.mesh.items ++ [{ src := .hub, pkt := s.finPacket p.src 0xA p.finVmod p.finTag p.finEd p.finShard 0 false [] }] } }

theorem State.hubSreq_full {s : State} {p : Packet} (h : 256 ≤ s.inService) : s.hubSreq p = s := by
  unfold State.hubSreq
  dsimp only
  rw [if_pos h]

theorem State.hubSreq_none {s t : State} {p : Packet} (h : s.inService < 256) (hheld : s.heldObject p = (none, t)) : s.hubSreq p = t.saysNone p := by
  unfold State.hubSreq
  dsimp only
  rw [if_neg (by omega), hheld]
  exact State.inject_fin _ _ (by omega) (by omega)

theorem State.hubSreq_some {s t : State} {p : Packet} {data : List Byte} (h : s.inService < 256) (hheld : s.heldObject p = (some data, t)) :
    s.hubSreq p = { t with mesh := { t.mesh with items := t.mesh.items ++ t.objectPackets p data } } := by
  unfold State.hubSreq
  dsimp only
  rw [if_neg (by omega), hheld]
  exact State.sendObject_packets

theorem State.heldObject_none {s : State} {p : Packet} (h : ∀ j < 2, ¬ (s.edSlot j).serves p) : s.heldObject p = (none, s) := by
  unfold State.heldObject
  rw [State.serving_none h]

section Served
variable {s : State} {p : Packet} {j : Nat} (hj : j < 2) (h : (s.edSlot j).serves p) (hfirst : j = 1 → ¬ (s.edSlot 0).serves p)
include hj h hfirst

theorem State.heldObject_manifest (hman : p.finShard = 0xFFFFFFFF) : s.heldObject p = (some (s.edSlot j).man, s) := by
  unfold State.heldObject
  rw [State.serving_some hj h hfirst]
  dsimp only
  rw [if_pos hman]

theorem State.heldObject_shard {x : Shard} (hman : p.finShard ≠ 0xFFFFFFFF) (hx : (s.edSlot j).shards[p.finShard]? = some x) :
    s.heldObject p = s.readShard j x := by
  obtain ⟨-, -, -, -, -, hshard⟩ := id h
  obtain ⟨y, hy, hok, htier⟩ := hshard.resolve_left hman
  obtain rfl : y = x := Option.some_inj.mp (hy.symm.trans hx)
  unfold State.heldObject
  rw [State.serving_some hj h hfirst]
  dsimp only
  rw [if_neg hman, EdSlot.holds_some.mpr ⟨hx, hok, htier⟩]

end Served

/-! ## A request leaves (R369, R370) -/

theorem State.attempt_module {s : State} {f : Fetch} {h : Nat} (hh : h = (s.fin.holders.getD ((s.holdersOf f).getD f.pos 0) 0).toNat)
    (hvalid : bit h 31 = true) (hmodule : bit h 0 = false) : s.attempt f = { s with
      fin := { s.fin with
        fetches := s.fin.fetches.map fun y => if y = f then { f with going := true, tag := s.fin.nextTag.toNat, sent := s.tick, via := BitVec.ofNat 32 h } else y
        nextTag := s.fin.nextTag + 1 }
      mesh := { s.mesh with items := s.mesh.items ++ [{ src := .hub, pkt := s.finPacket (bits h 16 1) 8 (s.vmodOf f.slot) s.fin.nextTag.toNat (s.edSlot f.slot).edition.toNat (f.obj.getD 0xFFFFFFFF) 0 false [] }] } } := by
  unfold State.attempt
  dsimp only
  rw [← hh, hvalid, hmodule, if_neg (by decide), if_neg (by decide), State.inject_fin _ _ (by omega) (by omega)]
  cases f.obj <;> rfl

theorem State.finfinRequest_full {s : State} (h : 64 ≤ (s.fin.fetches.filter (·.going)).length) : exec .finfinRequest s = .next s := by
  simp only [exec, execFinfinRequest]
  rw [if_pos h]

theorem State.finfinRequest_due {s : State} {pre post : List Fetch} {f : Fetch} (hf : s.fin.fetches = pre ++ f :: post) (hpre : ∀ y ∈ pre, y.going = true)
    (hgoing : f.going = false) (hroom : (s.fin.fetches.filter (·.going)).length < 64) : exec .finfinRequest s = .next (s.attempt f) := by
  have hfind : s.fin.fetches.find? (fun f => !f.going) = some f := by
    rw [hf, List.find?_append, List.find?_eq_none.mpr (fun y hy => by simp [hpre y hy]), Option.none_or, List.find?_cons_of_pos (by simp [hgoing])]
  simp only [exec, execFinfinRequest]
  rw [if_neg (by omega), hfind]

/-! ## The next holder (R373) -/

section NextHolder
variable {s : State} {f : Fetch}

theorem State.holdersOf_of_fin {t : State} (h : t.fin = s.fin) : t.holdersOf f = s.holdersOf f := by
  unfold State.holdersOf State.edSlot
  rw [h]

theorem State.nextHolder_next (h : f.pos + 1 < (s.holdersOf f).length) : s.nextHolder f = s.withFetch f (f.again (f.pos + 1) f.round) := by
  unfold State.nextHolder
  dsimp only
  rw [if_pos h]
  rfl

theorem State.nextHolder_round (h : (s.holdersOf f).length ≤ f.pos + 1) (hround : f.round < s.fin.rounds) :
    s.nextHolder f = s.withFetch f (f.again 0 (f.round + 1)) := by
  unfold State.nextHolder
  dsimp only
  rw [if_neg (by omega), if_pos hround]
  rfl

theorem State.nextHolder_last (h : (s.holdersOf f).length ≤ f.pos + 1) (hround : s.fin.rounds ≤ f.round) : s.nextHolder f = s.unobtainable f := by
  unfold State.nextHolder
  dsimp only
  rw [if_neg (by omega), if_neg (by omega)]

/-- The load of a slot fails (R373). -/
theorem State.failLoad_eq (i : Nat) : s.failLoad i = { s with fin := { s.fin with
    fetches := s.fin.fetches.filter fun y => !(y.slot == i && y.use == .load)
    slots := modAt s.fin.slots i fun e => { e with state := .failed } } } := rfl

theorem State.unobtainable_load (huse : f.use = .load) (hslot : f.slot < s.fin.slots.length) :
    Recorded s (s.unobtainable f) 0x0805 ∧ (s.unobtainable f).cores = s.cores ∧ ((s.unobtainable f).edSlot f.slot).state = .failed ∧
      ∀ y ∈ (s.unobtainable f).fin.fetches, y.slot ≠ f.slot ∨ y.use ≠ .load := by
  unfold State.unobtainable
  rw [huse]
  dsimp only
  obtain ⟨d, hd⟩ : ∃ d, d = finDetail f.slot (s.edSlot f.slot).edition [(17, objNum f.obj)] := ⟨_, rfl⟩
  rw [← hd]
  have hfin : (s.hubFault 0x0805 d).fin = s.fin := State.record_fin ..
  rw [State.failLoad_eq]
  refine ⟨State.record_recorded s 0x0805 5 0 0 0 d, State.record_cores .., ?_, ?_⟩
  · show ((modAt (s.hubFault 0x0805 d).fin.slots f.slot _).getD f.slot {}).state = _
    rw [getD_modAt_same _ _ _ _ (by rw [hfin]; exact hslot)]
  · intro y hy
    have hnot := (List.mem_filter.mp hy).2
    by_cases hs : y.slot = f.slot
    · exact .inr (by simpa [hs] using hnot)
    · exact .inl hs

/-- An attempt that ended with a record is tried again at the next holder. -/
theorem State.attemptFault_next (code : Nat) (h : f.pos + 1 < (s.holdersOf f).length) :
    Recorded s ((s.attemptFault f code).nextHolder f) code ∧ ((s.attemptFault f code).nextHolder f).now = s.now ∧
      ((s.attemptFault f code).nextHolder f).cores = s.cores ∧
      ((s.attemptFault f code).nextHolder f).fin = (s.withFetch f (f.again (f.pos + 1) f.round)).fin := by
  obtain ⟨d, hd⟩ : ∃ d, s.attemptFault f code = s.record code 5 0 0 0 d := ⟨_, rfl⟩
  have hfin : (s.attemptFault f code).fin = s.fin := hd ▸ State.record_fin ..
  rw [State.nextHolder_next (by rw [State.holdersOf_of_fin hfin]; exact h)]
  refine ⟨?_, ?_, ?_, ?_⟩
  · rw [hd]
    exact State.record_recorded s code 5 0 0 0 d
  · rw [hd]
    exact State.record_now ..
  · rw [hd]
    exact State.record_cores ..
  · unfold State.withFetch
    rw [hfin]

end NextHolder

/-! ## Answers (R370, R373) -/

section Answers
variable {s : State} {f : Fetch} {p : Packet}

theorem State.byTag_some {pre post : List Fetch} {tag : Nat} (hf : s.fin.fetches = pre ++ f :: post) (hgoing : f.going = true) (htag : f.tag = tag)
    (hpre : ∀ y ∈ pre, y.going = false ∨ y.tag ≠ tag) : s.byTag tag = some f := by
  unfold State.byTag
  rw [hf, List.find?_append, List.find?_eq_none.mpr (fun y hy => by rcases hpre y hy with h | h <;> simp [h]), Option.none_or,
    List.find?_cons_of_pos (by simp [hgoing, htag])]

theorem State.byTag_only (hmem : f ∈ s.fin.fetches) (hgoing : f.going = true) (honly : ∀ y ∈ s.fin.fetches, y.tag = f.tag → y = f) :
    s.byTag f.tag = some f := by
  unfold State.byTag
  cases hfind : s.fin.fetches.find? fun y => y.going && y.tag == f.tag with
  | none => exact absurd (List.find?_eq_none.mp hfind f hmem) (by simp [hgoing])
  | some y =>
    have htest := List.find?_some hfind
    rw [honly y (List.mem_of_find?_eq_some hfind) (by simpa using (Bool.and_eq_true_iff.mp htest).2)]

theorem State.snone_runs {i : Nat} (hat : AtHub s i 0xA p) : exec (.snone i) s = .next ((s.dropItem i).hubSnone p) := by
  simp only [exec, execSnone]
  rw [AtHub.run hat (by decide) (by decide)]

theorem State.hubSnone_some (h : s.byTag p.finTag = some f) : s.hubSnone p = s.nextHolder f := by
  unfold State.hubSnone
  rw [h]

theorem State.sdata_runs {i : Nat} (hat : AtHub s i 9 p) : exec (.sdata i) s = .next ((s.dropItem i).hubSdata p) := by
  simp only [exec, execSdata]
  rw [AtHub.run hat (by decide) (by decide)]

/-- What fetch f holds once packet p is collected. -/
def Fetch.collects (f : Fetch) (p : Packet) : Fetch :=
  { f with parts := keyPut f.parts p.finPkt (p.body.flatMap fun w => natToBytes w.val.toNat 8) }

theorem State.hubSdata_some (h : s.byTag p.finTag = some f) (hclean : ∀ w ∈ p.body, w.poison = false) :
    s.hubSdata p = if p.finLast then (s.withFetch f (f.collects p)).takeObject (f.collects p) ((f.collects p).parts.flatMap (·.2))
      else s.withFetch f (f.collects p) := by
  unfold State.hubSdata
  rw [h]
  dsimp only
  rw [State.wordBytes64_clean _ _ hclean]
  rfl

/-- Two changes of one fetch in a row. -/
theorem map_fetch_fetch {l : List Fetch} {f g k : Fetch} (honly : ∀ y ∈ l, y = g → y = f) :
    (l.map fun y => if y = f then g else y).map (fun y => if y = g then k else y) = l.map fun y => if y = f then k else y := by
  rw [List.map_map]
  refine List.map_congr_left fun y hy => ?_
  by_cases hyf : y = f
  · simp [hyf]
  · simp only [Function.comp_apply, if_neg hyf, if_neg fun hyg => hyf (honly y hy hyg)]

theorem filter_fetch {l : List Fetch} {f g : Fetch} (honly : ∀ y ∈ l, y = g → y = f) :
    (l.map fun y => if y = f then g else y).filter (fun y => !(y == g)) = l.filter (· != f) := by
  induction l with
  | nil => rfl
  | cons y r ih =>
    have hr := ih fun z hz => honly z (List.mem_cons_of_mem y hz)
    rw [List.map_cons]
    by_cases hyf : y = f
    · rw [if_pos hyf, List.filter_cons_of_neg (by simp), List.filter_cons_of_neg (by simp [hyf]), hr]
    · have hyg : y ≠ g := fun h => hyf (honly y (List.mem_cons_self ..) h)
      rw [if_neg hyf, List.filter_cons_of_pos (by simpa using hyg), List.filter_cons_of_pos (by simpa using hyf), hr]

theorem State.takeObject_bad {n : Nat} {x : Shard} {data : List Byte} (hobj : f.obj = some n) (hx : (s.edSlot f.slot).shards[n]? = some x)
    (hbad : data.length ≠ 256 * x.lines ∨ sha512 data ≠ x.digest) : s.takeObject f data = (s.attemptFault f 0x0803).nextHolder f := by
  unfold State.takeObject
  rw [hobj]
  dsimp only
  rw [hx]
  dsimp only
  rw [if_neg fun h => hbad.elim (fun g => g h.1) (fun g => g h.2)]

theorem State.takeObject_place {n : Nat} {x : Shard} {data : List Byte} (hobj : f.obj = some n) (hx : (s.edSlot f.slot).shards[n]? = some x)
    (hlen : data.length = 256 * x.lines) (hdigest : sha512 data = x.digest) (huse : f.use = .load) (htier : x.tier = 0) :
    s.takeObject f data = s.placeShard f n x data := by
  unfold State.takeObject
  rw [hobj]
  dsimp only
  rw [hx]
  dsimp only
  rw [if_pos ⟨hlen, hdigest⟩, huse]
  dsimp only
  rw [if_pos htier]

/-- What a slot's shard becomes once it is in stock. -/
def Shard.placed (x : Shard) : Shard := { x with ok := true, damaged := false, repair := false, given := false }

/-- A tier-0 shard whose place the region table gives is written there. -/
theorem State.placeShard_fits {n k : Nat} {x : Shard} {data : List Byte} {r : Region} (hk : s.finCore x.vcore = some k)
    (hr : (s.core k).table[(s.edSlot f.slot).region.toNat]? = some r) (hvalid : r.valid = true) (hstock : r.stock = true) (hkind : r.kind = kindEdition)
    (hcap : x.offset + x.lines ≤ r.cap) : s.placeShard f n x data =
      ((((s.dropFetches (· == f)).modCore k fun c => c.modMem fun m => { m with stock := putShardLines m.stock (r.base + x.offset) data x.lines }).modShard
        f.slot n Shard.placed).reviewLoad f.slot) := by
  have hfit : s.shardMisfit (s.edSlot f.slot) x = false := by
    unfold State.shardMisfit
    rw [hk]
    dsimp only
    rw [hr]
    simp [hvalid, hstock, hkind, hcap]
  have hbase : ((s.core k).table.getD (s.edSlot f.slot).region.toNat {}) = r := by
    rw [List.getD_eq_getElem?_getD, hr]
    rfl
  unfold State.placeShard
  dsimp only
  rw [hfit, if_neg (by decide), hk, Option.getD_some, hbase]
  rfl

/-- A review of a load changes the state of its slot alone. -/
theorem State.reviewLoad_kept (i : Nat) : (s.reviewLoad i).cores = s.cores ∧ (s.reviewLoad i).fin.fetches = s.fin.fetches ∧
    (i < s.fin.slots.length → ((s.reviewLoad i).edSlot i).shards = (s.edSlot i).shards) := by
  unfold State.reviewLoad
  dsimp only
  split
  · refine ⟨rfl, rfl, fun hi => ?_⟩
    show ((modAt s.fin.slots i _).getD i {}).shards = _
    rw [getD_modAt_same _ _ _ _ hi]
    rfl
  · exact ⟨rfl, rfl, fun _ => rfl⟩

theorem State.reviewLoad_verified {i : Nat} (hi : i < s.fin.slots.length) (hstate : (s.edSlot i).state = .loading) (hsome : (s.edSlot i).shards ≠ [])
    (hall : ∀ x ∈ (s.edSlot i).shards, x.ok = true) : ((s.reviewLoad i).edSlot i).state = .verified := by
  unfold State.reviewLoad
  dsimp only
  rw [if_pos]
  · show ((modAt s.fin.slots i _).getD i {}).state = _
    rw [getD_modAt_same _ _ _ _ hi]
  · simp only [Bool.and_eq_true, beq_iff_eq, hstate, true_and, Bool.not_eq_true', List.isEmpty_eq_false_iff, List.all_eq_true]
    exact ⟨hsome, hall⟩

theorem State.modShard_slot {i n : Nat} {g : Shard → Shard} (hi : i < s.fin.slots.length) :
    (s.modShard i n g).edSlot i = { s.edSlot i with shards := modAt (s.edSlot i).shards n g } := by
  show (modAt s.fin.slots i _).getD i {} = _
  rw [getD_modAt_same _ _ _ _ hi]
  rfl

/-- After one shard is placed, every shard of its slot is verified when all the others were. -/
theorem modAt_placed_ok {l : List Shard} {n : Nat} (h : ∀ m y, l[m]? = some y → m ≠ n → y.ok = true) : ∀ x ∈ modAt l n Shard.placed, x.ok = true := by
  intro x hx
  obtain ⟨m, hm⟩ := List.mem_iff_getElem?.mp hx
  unfold modAt at hm
  cases hn : l[n]? with
  | none =>
    rw [hn] at hm
    exact h m x hm fun hmn => by rw [hmn, hn] at hm; cases hm
  | some y =>
    rw [hn] at hm
    dsimp only at hm
    by_cases hmn : m = n
    · rw [hmn, List.getElem?_set_self (List.getElem?_eq_some_iff.mp hn).1] at hm
      rw [← Option.some_inj.mp hm]
      rfl
    · rw [List.getElem?_set_ne (Ne.symm hmn)] at hm
      exact h m x hm hmn

end Answers

section Sdata
variable {s : State} {f : Fetch} {p : Packet} {i n : Nat} {x : Shard} (hat : AtHub s i 9 p) (hmem : f ∈ s.fin.fetches) (hgoing : f.going = true)
  (htag : f.tag = p.finTag) (honly : ∀ y ∈ s.fin.fetches, y.tag = p.finTag → y = f) (hclean : ∀ w ∈ p.body, w.poison = false)
include hat hmem hgoing htag honly hclean

theorem State.sdata_collected : exec (.sdata i) s = .next
    (if p.finLast then ((s.dropItem i).withFetch f (f.collects p)).takeObject (f.collects p) ((f.collects p).parts.flatMap (·.2))
      else (s.dropItem i).withFetch f (f.collects p)) := by
  have htagged : (s.dropItem i).byTag p.finTag = some f := htag ▸ State.byTag_only (s := s.dropItem i) hmem hgoing (htag ▸ honly)
  rw [State.sdata_runs hat, State.hubSdata_some htagged hclean]

/-- A whole object of the wrong length or digest ends the attempt with 0x0803. -/
theorem State.sdata_bad (hlast : p.finLast = true) (hobj : f.obj = some n) (hx : (s.edSlot f.slot).shards[n]? = some x)
    (hbad : ((f.collects p).parts.flatMap (·.2)).length ≠ 256 * x.lines ∨ sha512 ((f.collects p).parts.flatMap (·.2)) ≠ x.digest)
    (hpos : f.pos + 1 < (s.holdersOf f).length) :
    ∃ t, exec (.sdata i) s = .next t ∧ Recorded s t 0x0803 ∧ t.cores = s.cores ∧ t.fin = (s.withFetch f (f.again (f.pos + 1) f.round)).fin := by
  obtain ⟨u, hu⟩ : ∃ u, u = (s.dropItem i).withFetch f (f.collects p) := ⟨_, rfl⟩
  have hslot : u.edSlot f.slot = s.edSlot f.slot := by rw [hu]; rfl
  have hholders : u.holdersOf (f.collects p) = s.holdersOf f := by rw [hu]; rfl
  obtain ⟨hrec, -, hcores, hfin⟩ := State.attemptFault_next (s := u) (f := f.collects p) 0x0803 (by rw [hholders]; exact hpos)
  refine ⟨_, State.sdata_collected hat hmem hgoing htag honly hclean, ?_⟩
  rw [if_pos hlast, ← hu, State.takeObject_bad (f := f.collects p) hobj (hslot ▸ hx) hbad]
  refine ⟨Recorded.of_faults (u := u) (by rw [hu]; rfl) hrec, hcores.trans (by rw [hu]; rfl), hfin.trans ?_⟩
  have hmap := map_fetch_fetch (l := s.fin.fetches) (f := f) (g := f.collects p) (k := f.again (f.pos + 1) f.round)
    fun y hy hyg => honly y hy (by rw [hyg]; exact htag)
  rw [hu]
  exact congrArg (fun l => ({ s.fin with fetches := l } : Finfin)) hmap

/-- A whole shard of the right digest is written to its core's region, and its load is reviewed. -/
theorem State.sdata_good {k : Nat} {r : Region} {data : List Byte} (hlast : p.finLast = true) (hobj : f.obj = some n)
    (hx : (s.edSlot f.slot).shards[n]? = some x) (hdata : data = (f.collects p).parts.flatMap (·.2))
    (hlen : data.length = 256 * x.lines) (hdigest : sha512 data = x.digest) (huse : f.use = .load) (htier : x.tier = 0)
    (hk : s.finCore x.vcore = some k) (hr : (s.core k).table[(s.edSlot f.slot).region.toNat]? = some r) (hvalid : r.valid = true)
    (hstock : r.stock = true) (hkind : r.kind = kindEdition) (hcap : x.offset + x.lines ≤ r.cap) (hslot : f.slot < s.fin.slots.length) :
    ∃ t, exec (.sdata i) s = .next t ∧ (∀ j, j ≠ k → t.core j = s.core j) ∧
      (t.core k).mem = { (s.core k).mem with stock := putShardLines (s.core k).mem.stock (r.base + x.offset) data x.lines } ∧
      (t.edSlot f.slot).shards = modAt (s.edSlot f.slot).shards n Shard.placed ∧
      ((s.edSlot f.slot).state = .loading → (∀ m y, (s.edSlot f.slot).shards[m]? = some y → m ≠ n → y.ok = true) → (t.edSlot f.slot).state = .verified) ∧
      t.fin.fetches = s.fin.fetches.filter (· != f) := by
  obtain ⟨u, hu⟩ : ∃ u, u = ((s.dropItem i).withFetch f (f.collects p)).dropFetches (· == f.collects p) := ⟨_, rfl⟩
  obtain ⟨g, hg⟩ : ∃ g : Core → Core, g = fun c => c.modMem fun m => { m with stock := putShardLines m.stock (r.base + x.offset) data x.lines } := ⟨_, rfl⟩
  obtain ⟨v, hv⟩ : ∃ v, v = (u.modCore k g).modShard f.slot n Shard.placed := ⟨_, rfl⟩
  have hcore : ∀ j, u.core j = s.core j := fun j => by rw [hu]; rfl
  have hvslot : v.edSlot f.slot = { s.edSlot f.slot with shards := modAt (s.edSlot f.slot).shards n Shard.placed } := by
    rw [hv, State.modShard_slot (by rw [hu]; exact hslot), hu]
    rfl
  have hvlen : f.slot < v.fin.slots.length := by
    rw [hv, hu]
    exact (length_modAt ..).symm ▸ hslot
  have hvfetches : v.fin.fetches = s.fin.fetches.filter (· != f) := by
    rw [hv, hu]
    exact filter_fetch fun y hy hyg => honly y hy (by rw [hyg]; exact htag)
  obtain ⟨hcores, hfetches, hshards⟩ := State.reviewLoad_kept (s := v) f.slot
  have hkeep : ∀ j, (v.reviewLoad f.slot).core j = v.core j := fun j => by
    unfold State.core
    rw [hcores]
  refine ⟨v.reviewLoad f.slot, ?_, ?_, ?_, ?_, ?_, ?_⟩
  · rw [State.sdata_collected hat hmem hgoing htag honly hclean, if_pos hlast, ← hdata,
      State.takeObject_place (s := (s.dropItem i).withFetch f (f.collects p)) (f := f.collects p) hobj hx hlen hdigest huse htier,
      State.placeShard_fits (s := (s.dropItem i).withFetch f (f.collects p)) (f := f.collects p) hk hr hvalid hstock hkind hcap, hv, hg, hu]
    rfl
  · intro j hj
    rw [hkeep, hv]
    exact (State.core_modCore_other u k j g hj).trans (hcore j)
  · rw [hkeep, hv]
    exact (congrArg Core.mem (State.core_modCore_same u k g)).trans (by rw [hcore k, hg]; rfl)
  · rw [hshards hvlen, hvslot]
  · intro hstate hothers
    refine State.reviewLoad_verified hvlen (by rw [hvslot]; exact hstate) ?_ ?_
    · rw [hvslot]
      refine List.ne_nil_of_length_pos ?_
      rw [length_modAt]
      exact Nat.lt_of_le_of_lt (Nat.zero_le n) (List.getElem?_eq_some_iff.mp hx).1
    · rw [hvslot]
      exact modAt_placed_ok hothers
  · rw [hfetches, hvfetches]

end Sdata

/-- The oldest request in flight ends without its LAST packet (R373). -/
theorem State.shardTimeout_next {s : State} {pre post : List Fetch} {f : Fetch} (hovers : s.overs = []) (hf : s.fin.fetches = pre ++ f :: post)
    (hgoing : f.going = true) (hpre : ∀ y ∈ pre, y.going = true → f.sent < y.sent) (hpost : ∀ y ∈ post, y.going = true → f.sent ≤ y.sent)
    (hpos : f.pos + 1 < (s.holdersOf f).length) :
    ∃ t, exec .shardTimeout s = .next t ∧ Recorded s t 0x0804 ∧ t.now = (s.advanceTick (f.sent + s.fin.timeout + 1)).now ∧ t.cores = s.cores ∧
      t.fin = (s.withFetch f (f.again (f.pos + 1) f.round)).fin := by
  obtain ⟨u, hu⟩ : ∃ u, u = s.advanceTick (f.sent + s.fin.timeout + 1) := ⟨_, rfl⟩
  have hfin : u.fin = s.fin := by rw [hu]; exact State.advance_fin ..
  obtain ⟨hrec, hnow, hcores, hfetch⟩ := State.attemptFault_next (s := u) (f := f) 0x0804 (by rw [State.holdersOf_of_fin hfin]; exact hpos)
  have holdest := fun {g : Option Fetch → Fetch → Option Fetch} g1 g2 => foldMin (f := Fetch.sent) (g := g) g1 g2 (o := f)
    (pre := pre.filter (·.going)) (post := post.filter (·.going)) (fun y hy => hpre y (List.mem_filter.mp hy).1 (List.mem_filter.mp hy).2)
    (fun y hy => hpost y (List.mem_filter.mp hy).1 (List.mem_filter.mp hy).2)
  have hfilter : s.fin.fetches.filter (·.going) = pre.filter (·.going) ++ f :: post.filter (·.going) := by
    rw [hf, List.filter_append, List.filter_cons_of_pos hgoing]
  refine ⟨(u.attemptFault f 0x0804).nextHolder f, ?_, ?_, hu ▸ hnow, ?_, ?_⟩
  · simp only [exec, execShardTimeout]
    rw [hfilter]
    generalize hfold : List.foldl _ (none : Option Fetch) _ = z
    rw [show z = some f from hfold.symm.trans (holdest (fun _ => rfl) (fun _ _ => rfl)), hu]
  · exact Recorded.of_faults (u := u) (by rw [hu]; exact State.advance_faults hovers _) hrec
  · rw [hcores, hu]
    exact State.advance_cores hovers _
  · rw [hfetch]
    unfold State.withFetch
    rw [hfin]

/-- Settles O46: each packet is handed to its part of the hub (`AtHub.run`), and what that part does is said by the lemmas above, case by case. That a
verified tier-2 shard is answered SNONE, that a request holds its place until its last packet has left, and that SDATA is matched by TAG alone are
the model's readings (log 25). -/
theorem shardsFetched : Obligations.ShardsFetched := by
  unfold Obligations.ShardsFetched
  intro s hovers
  refine ⟨fun i p u hat hu => ?_, fun pre f post h hf hpre hgoing hroom hh hvalid hmodule => ?_, State.finfinRequest_full, fun pre f post hf => ⟨?_, ?_, ?_⟩⟩
  · have hrun : exec (.sreq i) s = .next (u.hubSreq p) := by
      simp only [exec, execSreq]
      rw [AtHub.run hat (by decide) (by decide), hu]
      rfl
    have hslot : ∀ j, u.edSlot j = s.edSlot j := fun j => by rw [hu]; rfl
    have hpkt : ∀ vm tag ed sh pk l b, u.finPacket p.src 0xA vm tag ed sh pk l b = s.finPacket p.src 0xA vm tag ed sh pk l b := fun _ _ _ _ _ _ _ => by rw [hu]; rfl
    have hobj : ∀ data, u.objectPackets p data = s.objectPackets p data := fun data => by rw [hu]; rfl
    rw [hrun]
    refine ⟨fun hfull => by rw [State.hubSreq_full hfull], fun hroom hnone => ?_, fun j e hroom hj he hserves hfirst => ?_⟩
    · rw [State.hubSreq_none hroom (State.heldObject_none fun j hj => by rw [hslot j]; exact hnone j hj)]
      unfold State.saysNone
      rw [hpkt]
    · rw [he, ← hslot] at hserves
      rw [← hslot] at hfirst he
      refine ⟨fun hman => ?_, fun x v hman hx => ⟨fun hread => ?_, fun data hread => ?_⟩⟩
      · rw [State.hubSreq_some hroom (State.heldObject_manifest hj hserves hfirst hman), hobj, he]
      · rw [State.hubSreq_none hroom ((State.heldObject_shard hj hserves hfirst hman (he ▸ hx)).trans hread)]
        rfl
      · rw [State.hubSreq_some hroom ((State.heldObject_shard hj hserves hfirst hman (he ▸ hx)).trans hread)]
  · rw [State.finfinRequest_due hf hpre hgoing hroom, State.attempt_module hh hvalid hmodule]
  · intro i p u hat hu hgoing htag hpre
    obtain rfl : u = s.dropItem i := hu
    have htagged : (s.dropItem i).byTag p.finTag = some f := State.byTag_some (s := s.dropItem i) hf hgoing htag hpre
    have hrun : exec (.snone i) s = .next ((s.dropItem i).nextHolder f) := by
      rw [State.snone_runs hat, State.hubSnone_some htagged]
    rw [hrun]
    refine ⟨fun h => ?_, fun h hround => ?_, fun h hround huse hslot => ⟨_, rfl, ?_⟩⟩
    · rw [State.nextHolder_next (s := s.dropItem i) h]
    · rw [State.nextHolder_round (s := s.dropItem i) h hround]
    · rw [State.nextHolder_last (s := s.dropItem i) h hround]
      exact State.unobtainable_load (s := s.dropItem i) huse hslot
  · exact State.shardTimeout_next hovers hf
  · intro i p u g n x e hat hu honly hgoing htag hclean hg hobj he hx
    have hmem : f ∈ s.fin.fetches := by simp [hf]
    obtain rfl : g = f.collects p := hg
    subst hu he
    refine ⟨fun hlast => ?_, fun data hlast hdata => ⟨fun hbad hpos => ?_, fun k r hlen hdigest huse htier hk hr hvalid hstock hkind hcap hslot => ?_⟩⟩
    · rw [State.sdata_collected hat hmem hgoing htag honly hclean, hlast, if_neg (by decide)]
      rfl
    · exact State.sdata_bad hat hmem hgoing htag honly hclean hlast hobj hx (hdata ▸ hbad) hpos
    · exact State.sdata_good hat hmem hgoing htag honly hclean hlast hobj hx hdata hlen hdigest huse htier hk hr hvalid hstock hkind hcap hslot

end Sys2Proof.Machine

/-! SUPPORT. The records exported from the journal, its seals and its snapshots (R402, R403, R405 to R407, R413). -/

namespace Sys2Proof.Machine

/-! ## Export (R407) -/

theorem exportOps_ne_nil {base : Word64} {leave ring pos : Nat} {l : List (Word64 × List Byte)} (h : l ≠ []) : exportOps base leave ring pos l ≠ [] := by
  cases l with
  | nil => exact absurd rfl h
  | cons r l => simp [exportOps]

/-- One more write into the ring after a batch has started: it waits behind the batch. -/
theorem State.ringWrite_after {s t : State} {y : PlbConn} {use : PlbUse} {a : Nat} {d : List Byte} {j : Journal}
    (ht : t = { s with jrnl := j, host := { s.host with plb := keyPut s.host.plb s.jrnl.conn y } }) (hj : j.conn = s.jrnl.conn)
    (hbase : j.base = s.jrnl.base) (hport : y.port = (s.conn s.jrnl.conn).port) (hops : y.ops ≠ []) :
    t.ringWrite use a d = { s with jrnl := j, host := { s.host with plb := keyPut s.host.plb s.jrnl.conn { y with
      ops := y.ops ++ [{ use := use, addr := y.base + (s.jrnl.base + BitVec.ofNat 64 a), data := d, leave := s.plbLeave s.jrnl.conn }] } } } := by
  have hconn : t.conn s.jrnl.conn = y := by rw [ht]; exact State.conn_keep s _ _
  have hleave : t.plbLeave s.jrnl.conn = s.plbLeave s.jrnl.conn := by
    unfold State.plbLeave
    rw [hconn, hport, ht]
    rfl
  have hjrnl : t.jrnl = j := by rw [ht]
  unfold State.ringWrite
  rw [hjrnl, hj, hbase, State.plbStart_eq, hleave, hconn, if_neg hops, ht]
  simp only [keyPut_keyPut]

section Export
variable {s : State} {batch : List (Word64 × List Byte)}
  (hbatch : batch = fitRing s.jrnl.ring (recordBytes (s.jrnl.buf.take s.jrnl.sentN)) (s.jrnl.buf.drop s.jrnl.sentN))

include hbatch in
theorem State.export_nothing (hnil : batch = []) : exec .journalExport s = .next s := by
  simp only [exec, execJournalExport]
  rw [if_pos (by rw [← hbatch, hnil]; rfl)]

variable (hup : s.connUp s.jrnl.conn = true) (hsize : s.jrnl.size ≠ 0)
include hup hsize

theorem State.consumedPoll_runs : exec .journalConsumedPoll s = .next (s.plbStart s.jrnl.conn
    { use := .consumed, addr := s.jrnl.base + BitVec.ofNat 64 (1048576 * s.jrnl.size.toNat - 16), len := 8 }) := by
  simp only [exec, execJournalConsumedPoll]
  rw [if_pos (Bool.and_eq_true_iff.mpr ⟨hup, bne_iff_ne.mpr hsize⟩)]
  rfl

include hbatch

theorem State.export_batch (hne : batch ≠ []) {n : Word64}
    (hn : n = ((s.jrnl.buf.drop (s.jrnl.sentN + batch.length)).head?.map (·.1)).getD s.jrnl.rseq) :
    exec .journalExport s = .next { s with
      jrnl := { s.jrnl with sentN := s.jrnl.sentN + batch.length, ringPos := ringAfter (1048576 * s.jrnl.size.toNat - 16) s.jrnl.ringPos batch }
      host := { s.host with
        plb := keyPut s.host.plb s.jrnl.conn { s.conn s.jrnl.conn with
          ops := (s.conn s.jrnl.conn).ops ++ exportOps ((s.conn s.jrnl.conn).base + s.jrnl.base) (s.plbLeave s.jrnl.conn) (1048576 * s.jrnl.size.toNat - 16) s.jrnl.ringPos batch ++
            [{ use := .marker n, addr := (s.conn s.jrnl.conn).base + (s.jrnl.base + BitVec.ofNat 64 (1048576 * s.jrnl.size.toNat - 16 + 8)), data := natToBytes n.toNat 8, leave := s.plbLeave s.jrnl.conn }]
          tick := if (s.conn s.jrnl.conn).ops = [] then s.tick else (s.conn s.jrnl.conn).tick } } } := by
  simp only [exec, execJournalExport]
  have hbusy : (batch.isEmpty || !s.connUp s.jrnl.conn || s.jrnl.size == 0) = false := by
    rw [List.isEmpty_eq_false_iff.mpr hne, hup, beq_eq_false_iff_ne.mpr hsize]
    rfl
  rw [← hbatch, hbusy, if_neg Bool.false_ne_true]
  obtain ⟨t, ht⟩ : ∃ t, t = batch.foldl State.exportRecord s := ⟨_, rfl⟩
  rw [← ht]
  obtain ⟨y, hy⟩ : ∃ y : PlbConn, y = { s.conn s.jrnl.conn with
    ops := (s.conn s.jrnl.conn).ops ++ exportOps ((s.conn s.jrnl.conn).base + s.jrnl.base) (s.plbLeave s.jrnl.conn) (1048576 * s.jrnl.size.toNat - 16) s.jrnl.ringPos batch
    tick := if (s.conn s.jrnl.conn).ops = [] then s.tick else (s.conn s.jrnl.conn).tick } := ⟨_, rfl⟩
  rw [State.export_eq s.jrnl.base s.jrnl.size s.jrnl.conn batch s rfl rfl rfl hne, ← hy] at ht
  have hnext : ((t.jrnl.buf.drop t.jrnl.sentN).head?.map (·.1)).getD t.jrnl.rseq = n := by rw [hn, ht]
  have hops : y.ops ≠ [] := by
    rw [hy]
    exact fun h => exportOps_ne_nil hne (List.append_eq_nil_iff.mp h).2
  rw [hnext, State.ringWrite_after (s := s) (y := y) ht rfl rfl (by rw [hy]; rfl) hops, hy]
  rfl

end Export

/-- Nothing is exported, polled or retried while the connection of the journal is down. -/
theorem State.export_down {s : State} (h : s.connUp s.jrnl.conn = false) :
    ∀ c ∈ [Instr.journalExport, .journalConsumedPoll, .journalExportRetry], exec c s = .next s := by
  intro c hc
  simp only [List.mem_cons, List.not_mem_nil, or_false] at hc
  rcases hc with rfl | rfl | rfl
  · simp only [exec, execJournalExport]
    rw [if_pos (by simp [h])]
  · simp only [exec, execJournalConsumedPoll]
    rw [if_neg (by simp [h])]
  · simp only [exec, execJournalExportRetry]
    rw [if_neg (by simp [h])]

/-! ## JRNL_CTRL (R405, R406, R413) -/

/-- The two command bits SNAP and CHECKPOINT of JRNL_CTRL. -/
theorem bits_snap_checkpoint (n : Nat) : bits n 5 4 = flag (bit n 4) + 2 * flag (bit n 5) := by
  simp only [bits, bit, flag, Nat.testBit_eq_decide_div_mod_eq, decide_eq_true_eq]
  split <;> split <;> omega

theorem snap_checkpoint_bits {n : Nat} {a b : Bool} (h : bits n 5 4 = flag a + 2 * flag b) : bit n 4 = a ∧ bit n 5 = b := by
  rw [bits_snap_checkpoint] at h
  cases h4 : bit n 4 <;> cases h5 : bit n 5 <;> cases a <;> cases b <;> simp [h4, h5, flag] at h ⊢

/-- The RW fields of JRNL_CTRL as v writes them. -/
def Journal.ctrl (j : Journal) (v : Word32) : Journal := { j with enable := bit v.toNat 0, coresums := bit v.toNat 1, sealbank := bits v.toNat 3 3 }

section Ctrl
variable {s : State} {v : Word32}

/-- A write of JRNL_CTRL that is not refused: its RW fields, then SEAL, SNAP and CHECKPOINT. -/
theorem State.writeJrnlCtrl_commands (h : bit v.toNat 4 = true → s.bar.phase = .held) :
    (s.writeJrnl 0 v).2 =
      let t : State := { s with jrnl := s.jrnl.ctrl v }
      let t := if bit v.toNat 2 then t.modJrnl fun j => { j with sealing := markLast j.sealing (bits v.toNat 3 3) } else t
      let t := if bit v.toNat 4 then t.snap else t
      if bit v.toNat 5 then t.checkpoint else t := by
  show (s.writeJrnlCtrl v).2 = _
  unfold State.writeJrnlCtrl
  dsimp only
  rw [if_neg fun g => g.2 (h g.1)]
  rfl

theorem State.seal_done (hseal : bit v.toNat 2 = true) (hcmd : bits v.toNat 5 4 = 0) : exec (.seal v) s = .next { s with jrnl := { s.jrnl.ctrl v with
    sealing := if bits v.toNat 3 3 ∈ s.jrnl.sealing then s.jrnl.sealing else s.jrnl.sealing ++ [bits v.toNat 3 3] } } := by
  obtain ⟨h4, h5⟩ := snap_checkpoint_bits (a := false) (b := false) hcmd
  simp only [exec, execSeal]
  rw [if_pos hseal, State.writeJrnlCtrl_commands (by rw [h4]; exact fun h => absurd h (by decide)), h4, h5]
  dsimp only
  rw [if_pos hseal]
  simp only [markLast, List.contains_iff_mem]
  rfl

theorem State.snap_refused (hsnap : bit v.toNat 4 = true) (hphase : s.bar.phase ≠ .held) : exec (.snap v) s = .next (s.record 0x0907 5 0 0 0 0) := by
  simp only [exec, execSnap]
  rw [if_pos hsnap, show s.writeJrnl 0 v = s.writeJrnlCtrl v from rfl]
  unfold State.writeJrnlCtrl
  dsimp only
  rw [if_pos ⟨hsnap, hphase⟩]
  rfl

theorem State.snap_done (hseal : bit v.toNat 2 = false) (hcmd : bits v.toNat 5 4 = 1) (hphase : s.bar.phase = .held) :
    exec (.snap v) s = .next ({ s with jrnl := s.jrnl.ctrl v } : State).snap := by
  obtain ⟨h4, h5⟩ := snap_checkpoint_bits (a := true) (b := false) hcmd
  simp only [exec, execSnap]
  rw [if_pos h4, State.writeJrnlCtrl_commands fun _ => hphase, hseal, h4, h5]
  rfl

theorem State.checkpoint_done (hseal : bit v.toNat 2 = false) (hcmd : bits v.toNat 5 4 = 2) :
    exec (.checkpoint v) s = .next ({ s with jrnl := s.jrnl.ctrl v } : State).checkpoint := by
  obtain ⟨h4, h5⟩ := snap_checkpoint_bits (a := false) (b := true) hcmd
  simp only [exec, execCheckpoint]
  rw [if_pos h5, State.writeJrnlCtrl_commands (by rw [h4]; exact fun h => absurd h (by decide)), hseal, h4, h5]
  rfl

theorem State.checkpoint_off (h : s.jrnl.on = false) : s.checkpoint = s := by
  unfold State.checkpoint
  rw [if_pos (by rw [h]; rfl)]

end Ctrl

/-- The body of a CHECKPOINT (R406), before its signature. -/
def State.checkpointBody (s : State) : List Byte :=
  natToBytes s.moduleId.toNat 8 ++ natToBytes s.jrnl.ckpt.toNat 8 ++ natToBytes (s.jrnl.rseq - 1).toNat 8 ++ natToBytes s.jrnl.ckptPass.toNat 8
    ++ natToBytes s.jrnl.prevPass.toNat 8 ++ s.jrnl.chain ++ natToBytes s.detProfile 4 ++ natToBytes 0 4

theorem State.checkpoint_on {s : State} {k : Journal} (h : s.jrnl.on = true)
    (hk : k = s.jrnl.withRecord 0xA s.jrnl.prevPass (s.checkpointBody ++ edSign s.sec.priv s.sec.pub s.checkpointBody)) (hfree : 2097152 ≤ k.free) :
    s.checkpoint = { s with jrnl := { k with ckpt := k.rseq, ckptPass := s.bar.passNum } } := by
  unfold State.checkpoint
  dsimp only
  rw [h, if_neg (by decide)]
  show State.modJrnl (s.journal 0xA s.jrnl.prevPass (s.checkpointBody ++ edSign s.sec.priv s.sec.pub s.checkpointBody)) (fun j => { j with
    ckpt := j.rseq, ckptPass := (s.journal 0xA s.jrnl.prevPass (s.checkpointBody ++ edSign s.sec.priv s.sec.pub s.checkpointBody)).bar.passNum }) = _
  rw [State.journal_on h (hk ▸ hfree), ← hk]
  rfl

/-- Settles O48: what is exported is a batch of ring writes and the marker behind it (`State.export_eq`); each command of JRNL_CTRL acts on the written RW
fields. That the ring wraps at its size less 16, that a record leaves only where the ring has room, and what a SNAP covers are the model's readings
(log 26). -/
theorem journalKept : Obligations.JournalKept := by
  unfold Obligations.JournalKept
  intro s
  refine ⟨fun x m n batch hup hx hm hsize hbatch hn => ⟨State.export_nothing hbatch, fun hne => ?_, ?_⟩, fun hup => ?_, State.export_down,
    fun b r l hseal hl => ?_, fun v j u hj hu => ⟨fun hseal hcmd => ?_, State.snap_refused, fun hseal hcmd rs k hphase hon hrs hk hfree => ?_,
      fun hseal hcmd => ⟨fun hoff => ?_, fun b k hon hb hk hfree => ?_⟩⟩⟩
  · obtain rfl : m = s.plbLeave s.jrnl.conn := by rw [hm, hx]; rfl
    rw [State.export_batch hbatch hup hsize hne hn, hx]
  · obtain rfl : m = s.plbLeave s.jrnl.conn := by rw [hm, hx]; rfl
    rw [State.consumedPoll_runs hup hsize, State.plbStart_eq, hx]
  · simp only [exec, execJournalExportRetry]
    rw [if_pos hup]
    rfl
  · simp only [exec, execSealComplete]
    rw [hseal, hl]
    dsimp only [State.modJrnl]
  · rw [State.seal_done hseal hcmd, hj]
    rfl
  · obtain rfl : j = s.jrnl.ctrl v := hj
    rw [State.snap_done hseal hcmd hphase]
    unfold State.snap
    dsimp only
    rw [State.journal_on (s := { s with jrnl := s.jrnl.ctrl v }) hon]
    · rw [hk, hrs]
      rfl
    · rw [hk, hrs] at hfree
      exact hfree
  · obtain rfl : j = s.jrnl.ctrl v := hj
    rw [State.checkpoint_done hseal hcmd, State.checkpoint_off (s := { s with jrnl := s.jrnl.ctrl v }) hoff, hu]
  · obtain rfl : j = s.jrnl.ctrl v := hj
    rw [State.checkpoint_done hseal hcmd, State.checkpoint_on (s := { s with jrnl := s.jrnl.ctrl v }) hon (by rw [hk, hb]; rfl) hfree]

end Sys2Proof.Machine

/-! SUPPORT. Ethernet ports, their links, and plane-B connections (R433 to R435, R443, R444, R453). -/

namespace Sys2Proof.Machine

/-! ## Frames at a port (R433, R434) -/

section Frames
variable {s : State} {e : Nat}

theorem State.ownFrame_own {own : EthPort → Bool} {kind : Nat} {data : EthPort → List Byte} (hup : s.ethUp e = true) (hown : own (s.eth e) = true) :
    s.ownFrame e own kind data = s.answer e kind (data (s.eth e)) := by
  unfold State.ownFrame
  rw [hup, if_neg (by decide), if_pos hown]

theorem State.ownFrame_foreign {own : EthPort → Bool} {kind : Nat} {data : EthPort → List Byte} (hup : s.ethUp e = true) (hown : own (s.eth e) = false) :
    s.ownFrame e own kind data = s.ethDrop e := by
  unfold State.ownFrame
  rw [hup, if_neg (by decide), hown, if_neg (by decide)]

theorem State.ownFrame_down {own : EthPort → Bool} {kind : Nat} {data : EthPort → List Byte} (hdown : s.ethUp e = false) :
    s.ownFrame e own kind data = s := by
  unfold State.ownFrame
  rw [hdown, if_pos (by decide)]

/-- Whether an address is that of the port; 0 is no address. -/
theorem address_own {n : Nat} {a b : BitVec n} : (a != 0 && b == a) = true ↔ a ≠ 0 ∧ b = a := by simp

theorem address_foreign {n : Nat} {a b : BitVec n} (h : a = 0 ∨ b ≠ a) : (a != 0 && b == a) = false := by
  rw [← Bool.not_eq_true, address_own]
  exact fun g => h.elim g.1 fun h => h g.2

theorem address6_own {n x : Nat} {a : BitVec n} : (a != 0 && x == a.toNat) = true ↔ a ≠ 0 ∧ x = a.toNat := by simp

theorem address6_foreign {n x : Nat} {a : BitVec n} (h : a = 0 ∨ x ≠ a.toNat) : (a != 0 && x == a.toNat) = false := by
  rw [← Bool.not_eq_true, address6_own]
  exact fun g => h.elim g.1 fun h => h g.2

theorem State.pfcFrame_dropped (hup : s.ethUp e = true) (h : e < 4 ∨ bit (s.eth e).cfg.toNat 2 = false) (prio : BitVec 8) (time : BitVec 16) :
    exec (.pfcFrame e prio time) s = .next (s.ethDrop e) := by
  simp only [exec, execPfcFrame]
  rw [hup, if_neg (by decide), if_neg]
  rcases h with h | h <;> simp [planeA, h]

theorem State.pfcFrame_honoured (hup : s.ethUp e = true) (hplane : 4 ≤ e) (hen : bit (s.eth e).cfg.toNat 2 = true) (prio : BitVec 8) (time : BitVec 16) :
    exec (.pfcFrame e prio time) s = .next (if prio.getLsbD (bits (s.eth e).cfg.toNat 5 3) then s.pausePort e (s.tick + pauseTicks time.toNat) else s) := by
  simp only [exec, execPfcFrame]
  rw [hup, if_neg (by decide), if_pos (by simp [planeA, hen]; omega)]

theorem State.frames_down (hdown : s.ethUp e = false) : ∀ c (ip : BitVec 32) (ip6 : BitVec 128) v6 data prio time,
    c ∈ [Instr.arpRequest e ip, .neighborDiscovery e ip6, .icmpEcho e v6 ip6 data, .pauseFrame e, .ethFrameDiscard e, .pfcFrame e prio time] → exec c s = .next s := by
  intro c ip ip6 v6 data prio time hc
  simp only [List.mem_cons, List.not_mem_nil, or_false] at hc
  rcases hc with rfl | rfl | rfl | rfl | rfl | rfl
  · simp only [exec, execArpRequest, State.ownFrame_down hdown]
  · simp only [exec, execNeighborDiscovery, State.ownFrame_down hdown]
  · simp only [exec, execIcmpEcho, State.ownFrame_down hdown]
  · simp only [exec, execPauseFrame, hdown, if_neg Bool.false_ne_true]
  · simp only [exec, execEthFrameDiscard, hdown, if_neg Bool.false_ne_true]
  · simp only [exec, execPfcFrame, hdown, Bool.not_false, if_true]

/-! ## Links (R435) -/

theorem State.connsOf_none {p : PlbConn → Bool} (h : ∀ x ∈ s.host.plb, x.2.port = e → p x.2 = false) : s.connsOf e p = [] := by
  unfold State.connsOf
  rw [List.filter_eq_nil_iff.mpr, List.map_nil]
  intro x hx htest
  simp only [Bool.and_eq_true, beq_iff_eq] at htest
  obtain ⟨⟨hport, -⟩, hp⟩ := htest
  rw [h x hx hport] at hp
  exact Bool.false_ne_true hp

theorem State.ethLost_alone (h : ∀ x ∈ s.host.plb, x.2.port = e → x.2.state ≠ 1) : s.ethLost e = State.record { s with
    host := { s.host with eth := modAt s.host.eth e fun x => { x with up := false, anDone := false, fec := false, changes := x.changes + 1, pfc := 0 } } } 0x0460 4 e 0 0 0 := by
  unfold State.ethLost
  dsimp only
  rw [State.connsOf_none]
  · rfl
  · intro x hx hport
    unfold State.record at hx
    rw [State.recordAs_plb] at hx
    simpa using h x hx hport

theorem State.ethLinkChange_lost (he : e < 8) (hup : s.ethUp e = true) : exec (.ethLinkChange e false) s = .next (s.ethLost e) := by
  simp only [exec, execEthLinkChange]
  rw [if_neg (by rw [hup]; simp; omega), if_pos (by decide)]

theorem State.ethLinkChange_found (he : e < 8) (hdown : s.ethUp e = false) (hmain : s.power.mainOn = true) (hen : bit (s.eth e).cfg.toNat 0 = true) :
    exec (.ethLinkChange e true) s = .next (s.ethFound e) := by
  simp only [exec, execEthLinkChange]
  rw [if_neg (by rw [hdown]; simp; omega), if_neg (by decide), hmain, hen, if_pos (by decide)]

theorem State.ethFound_first (h : ∀ x ∈ s.host.plb, x.2.port = e → x.2.state ≠ 0) (hseen : (s.eth e).seen = false) : s.ethFound e = { s with
    host := { s.host with eth := modAt s.host.eth e fun x => { x with up := true, seen := true, anDone := bit x.cfg.toNat 1, fec := true } } } := by
  unfold State.ethFound
  dsimp only
  rw [hseen, if_neg Bool.false_ne_true, State.connsOf_none]
  · rfl
  · exact fun x hx hport => by simpa using h x hx hport

theorem State.ethFound_again (h : ∀ x ∈ s.host.plb, x.2.port = e → x.2.state ≠ 0) (hseen : (s.eth e).seen = true) : s.ethFound e = State.record { s with
    host := { s.host with eth := modAt s.host.eth e fun x => { x with up := true, seen := true, anDone := bit x.cfg.toNat 1, fec := true } } } 0x0460 4 e 0 0 0 := by
  unfold State.ethFound
  dsimp only
  rw [hseen, if_pos rfl, State.connsOf_none]
  · rfl
  · intro x hx hport
    unfold State.record at hx
    rw [State.recordAs_plb] at hx
    simpa using h x hx hport

end Frames

/-! ## Connections of plane B (R443, R444) -/

section Connections
variable {s : State} {c : Nat}

theorem State.connUp_valid (h : s.connUp c = true) : bit (s.conn c).w0.toNat 0 = true := (Bool.and_eq_true_iff.mp h).1

theorem State.roceResponse_early {o : PlbOp} {r : List PlbOp} (hup : s.connUp c = true) (hops : (s.conn c).ops = o :: r) (hleave : s.tick < o.leave)
    (ok : Bool) (data : List Byte) : exec (.roceResponse c ok data) s = .next s := by
  simp only [exec, execRoceResponse]
  rw [State.connUp_valid hup, if_neg (by decide), hup, hops]
  dsimp only
  rw [if_pos hleave]

/-- The response of the oldest operation. -/
theorem State.roceResponse_oldest {o : PlbOp} {r : List PlbOp} (hup : s.connUp c = true) (hops : (s.conn c).ops = o :: r) (hleave : o.leave ≤ s.tick)
    (ok : Bool) (data : List Byte) {t : State} (ht : t = s.modConn c fun x => { x with ops := r, retries := 0, tick := s.tick }) :
    exec (.roceResponse c ok data) s = .next (match o.use with
      | .fetch tag => t.fetchReply tag ok data
      | .consumed => if ok && data.length == o.len then t.consume (BitVec.ofNat 64 (leNat data)) else t.exportFailed c
      | _ => if ok then t else t.exportFailed c) := by
  simp only [exec, execRoceResponse]
  rw [State.connUp_valid hup, if_neg (by decide), hup, hops, ht]
  exact congrArg Host.Outcome.next (if_neg (by omega))

theorem State.cnp_runs (hup : s.connUp c = true) : exec (.cnp c) s = .next (s.modConn c fun x => { x with rateExp := x.rateExp + 1, cnpTick := s.tick }) := by
  simp only [exec, execCnp]
  rw [if_pos hup]

theorem State.rateRestore_runs (hup : s.connUp c = true) (hrate : (s.conn c).rate < 2 ^ (s.conn c).rateExp) {u : State}
    (hu : u = s.advanceTick ((s.conn c).cnpTick + 5000)) : exec (.rateRestore c) s = .next (u.modConn c fun x =>
      { x with rate := min (x.rate + 2 ^ x.rateExp / 16) (2 ^ x.rateExp), cnpTick := u.tick }) := by
  simp only [exec, execRateRestore]
  rw [if_pos (by simp [hup, hrate]), ← hu]

theorem State.rateRestore_full (hrate : 2 ^ (s.conn c).rateExp ≤ (s.conn c).rate) : exec (.rateRestore c) s = .next s := by
  simp only [exec, execRateRestore]
  rw [if_neg]
  simp only [Bool.and_eq_true, decide_eq_true_eq]
  omega

theorem State.roceAckTimeout_runs {o : PlbOp} {r : List PlbOp} (hup : s.connUp c = true) (hops : (s.conn c).ops = o :: r) {u : State}
    (hu : u = s.advanceTick (max (s.conn c).tick o.leave + 6710887)) : exec (.roceAckTimeout c) s = .next
      (if (s.conn c).retries < 7 then u.modConn c fun x => { x with retries := x.retries + 1, tick := u.tick } else u.connError c) := by
  simp only [exec, execRoceAckTimeout]
  rw [if_pos (by simp [hup, hops]), hops]
  dsimp only [List.head?_cons, Option.map_some, Option.getD_some]
  rw [← hu]

theorem State.roceReestablish_runs (hvalid : bit (s.conn c).w0.toNat 0 = true) (hstate : (s.conn c).state = 2) {u : State}
    (hu : u = s.advanceTick ((s.conn c).tick + 1000000)) : exec (.roceReestablish c) s = .next
      (if u.ethUp (s.conn c).port then u.modConn c PlbConn.establish else u.modConn c fun x => { x with tick := u.tick }) := by
  simp only [exec, execRoceReestablish]
  rw [if_pos (by simp [hvalid, hstate]), ← hu]

/-- A connection that carries neither the journal nor a fetch enters ERROR (R444). -/
theorem State.connError_plain (hfetch : ∀ o ∈ (s.conn c).ops, ∀ tag, o.use ≠ .fetch tag) (hjrnl : s.jrnl.conn ≠ c) :
    Recorded s (s.connError c) 0x0461 ∧ (s.connError c).now = s.now ∧
      (s.connError c).conn c = { s.conn c with state := 2, fails := (s.conn c).fails + 1, retries := 0, ops := [], tick := s.tick } := by
  obtain ⟨v, hv⟩ : ∃ v, v = s.modConn c fun x => { x with state := 2, fails := x.fails + 1, retries := 0, ops := [], tick := s.tick } := ⟨_, rfl⟩
  obtain ⟨w, hw⟩ : ∃ w, w = v.record 0x0461 4 (s.conn c).port 0 0 (pack [(8, c)]) := ⟨_, rfl⟩
  have hkept := State.record_kept v 0x0461 4 (s.conn c).port 0 0 (pack [(8, c)])
  rw [← hw] at hkept
  have herror : s.connError c = w := by
    unfold State.connError
    dsimp only
    rw [← hv, ← hw, State.opsFail_none _ _ hfetch]
    unfold State.exportFailed
    have hj : w.jrnl = s.jrnl := by rw [hkept, hv]; rfl
    rw [if_neg fun h => hjrnl (hj ▸ h.1)]
  rw [herror]
  refine ⟨Recorded.of_faults (u := v) (by rw [hv]; rfl) (hw ▸ State.record_recorded ..), by rw [hkept, hv]; rfl, ?_⟩
  have hplb : w.host.plb = v.host.plb := by rw [hw]; exact State.recordAs_plb ..
  show (keyGet w.host.plb c).getD {} = _
  rw [hplb, hv]
  exact State.conn_keep s c _

/-! ## The table (R453) -/

theorem State.plbWrite_eq (s : State) {c w : Nat} (hc : c < 256) (hw : w < 16) (v : Word32) {x : PlbConn} (hx : x = s.conn c) :
    exec (.plbConnWrite (0x704000 + 64 * c + 4 * w) v) s = .next
      (if bit x.w0.toNat 0 then
        (if w = 0 ∧ !bit v.toNat 0 then
          (let t := (s.modConn c fun x => { x.putWord 0 v with state := 0, ops := [] }).opsFail x.ops
          (.done, if x.ops.any fun o => o.use.ofJournal then t.exportFailed c else t))
        else s.refuseDesc)
      else (.done, s.modConn c fun _ => if w = 0 ∧ bit v.toNat 0 then
        (if s.ethUp (x.putWord w v).port then (x.putWord w v).establish else { x.putWord w v with state := 0 }) else x.putWord w v)).2 := by
  rw [State.plbRow hc hw]
  unfold State.writePlb
  dsimp only
  rw [show (64 * c + 4 * w) / 64 = c by omega, show (64 * c + 4 * w) / 4 % 16 = w by omega, ← hx]

theorem PlbConn.putWord_eq (x : PlbConn) {w : Nat} (hw : w < 16) (v : Word32) : x.putWord w v =
    if w = 0 then { x with w0 := v &&& 0xFFFFFF0F } else if w = 1 then { x with w1 := v &&& 0xFFFFFF } else if w = 2 then { x with w2 := v }
    else if 4 ≤ w ∧ w < 8 then { x with ip := x.ip.set (w - 4) v } else if w = 8 then { x with base := setLo x.base v }
    else if w = 9 then { x with base := setHi x.base v } else x := by
  unfold PlbConn.putWord
  by_cases h3 : w = 3
  · subst h3
    rfl
  · simp only [if_neg h3]
    by_cases hlow : w < 4
    · obtain rfl | rfl | rfl : w = 0 ∨ w = 1 ∨ w = 2 := by omega
      all_goals rfl
    · simp only [show 4 ≤ w by omega, true_and]

end Connections

/-- Settles O51: a frame is answered, honoured or counted by the state of its port; a link change without connections of that state changes the port
alone; each operation on a connection replaces its entry. The pause quantum (PRESUMED), a first link-up that is not recorded (DEDUCED) and the sending
rate as a fraction (DESIGN CHOICE) are the model's readings (log 29). -/
theorem portsAndConnections : Obligations.PortsAndConnections := by
  unfold Obligations.PortsAndConnections
  refine ⟨fun s e d hup hd => ?_, fun s e hdown => ⟨State.frames_down hdown, fun he hmain hen hconns => ⟨fun hseen => ?_, fun hseen => ?_⟩⟩, fun s c x put hx hput => ?_⟩
  · obtain rfl : d = s.ethDrop e := hd
    refine ⟨fun ip => ⟨fun h0 hip => ?_, fun h => ?_⟩, fun ip => ⟨fun h0 hip => ?_, fun h => ?_⟩, fun v6 ip data => ⟨fun h0 hip => ?_, fun h => ?_⟩, ?_, ?_,
      fun prio time => ⟨fun h => State.pfcFrame_dropped hup h prio time, fun hplane hen hprio => ?_, fun hplane hen hprio => ?_⟩, fun he hconns => ?_⟩
    · simp only [exec, execArpRequest]
      rw [State.ownFrame_own hup (address_own.mpr ⟨h0, hip⟩)]
      rfl
    · simp only [exec, execArpRequest]
      rw [State.ownFrame_foreign hup (address_foreign h)]
    · simp only [exec, execNeighborDiscovery]
      rw [State.ownFrame_own hup (address6_own.mpr ⟨h0, hip⟩)]
      rfl
    · simp only [exec, execNeighborDiscovery]
      rw [State.ownFrame_foreign hup (address6_foreign h)]
    · simp only [exec, execIcmpEcho]
      rw [State.ownFrame_own hup (address6_own.mpr ⟨h0, hip⟩)]
      rfl
    · simp only [exec, execIcmpEcho]
      rw [State.ownFrame_foreign hup (address6_foreign h)]
    · simp only [exec, execPauseFrame]
      rw [if_pos hup]
    · simp only [exec, execEthFrameDiscard]
      rw [if_pos hup]
    · rw [State.pfcFrame_honoured hup hplane hen, if_pos hprio]
      rfl
    · rw [State.pfcFrame_honoured hup hplane hen, hprio, if_neg Bool.false_ne_true]
    · rw [State.ethLinkChange_lost he hup, State.ethLost_alone hconns]
  · rw [State.ethLinkChange_found he hdown hmain hen, State.ethFound_first hconns hseen]
  · rw [State.ethLinkChange_found he hdown hmain hen, State.ethFound_again hconns hseen]
  · have hmod : ∀ f : PlbConn → PlbConn, s.modConn c f = put (f x) := fun f => by rw [hput, hx]; rfl
    have hlater : ∀ (t : Nat) (f : PlbConn → PlbConn), s.overs = [] → (s.advanceTick t).modConn c f = { put (f x) with now := (s.advanceTick t).now } := by
      intro t f hovers
      unfold State.advanceTick
      rw [State.advance_calm hovers, hput, hx]
      rfl
    have hethUp : ∀ t e, s.overs = [] → (s.advanceTick t).ethUp e = s.ethUp e := by
      intro t e hovers
      unfold State.advanceTick
      rw [State.advance_calm hovers]
      rfl
    subst hx
    refine ⟨fun hup => ⟨fun o r ok data hops => State.roceResponse_early hup hops (ok := ok) (data := data), fun o r data hops hleave => ⟨fun huse => ?_, fun huse hlen => ?_, fun tag ok huse => ?_⟩,
      ?_, fun u hovers hu hrate => ?_, State.rateRestore_full, fun u o r hovers hops hu => ⟨fun hretries => ?_, fun hretries hfetch hjrnl => ?_⟩⟩,
      fun hvalid => ⟨fun hup => ?_, fun u hovers hstate hu => ⟨fun hup => ?_, fun hdown => ?_⟩⟩, fun hvalid hup ok data => ?_, fun w v hc hw => ⟨fun hvalid h => ?_, fun hvalid hw0 hv hops => ?_,
      fun hvalid h => ?_, fun y hvalid hw0 hv hy => ?_⟩⟩
    · rw [State.roceResponse_oldest hup hops hleave true data rfl, hmod]
      rcases huse with ⟨q, hq⟩ | ⟨q, hq⟩ <;> rw [hq] <;> rfl
    · rw [State.roceResponse_oldest hup hops hleave true data rfl, huse, hmod]
      dsimp only
      rw [if_pos (by simp [hlen])]
    · rw [State.roceResponse_oldest hup hops hleave ok data rfl, huse, hmod]
    · rw [State.cnp_runs hup, hmod]
    · rw [State.rateRestore_runs hup hrate hu, hu, hlater _ _ hovers]
    · rw [State.roceAckTimeout_runs hup hops hu, if_pos hretries, hu, hlater _ _ hovers]
    · have hconn : u.conn c = s.conn c := by
        rw [hu]
        unfold State.advanceTick
        rw [State.advance_calm hovers]
        rfl
      have hjrnl' : u.jrnl.conn ≠ c := by rw [hu]; unfold State.advanceTick; rw [State.advance_jrnl]; exact hjrnl
      obtain ⟨hrec, hnow, herror⟩ := State.connError_plain (s := u) (c := c) (by rw [hconn]; exact hfetch) hjrnl'
      refine ⟨u.connError c, ?_, Recorded.of_faults (by rw [hu]; exact State.advance_faults hovers _) hrec, hnow, by rw [herror, hconn]⟩
      rw [State.roceAckTimeout_runs hup hops hu, if_neg (by omega)]
    · simp only [exec, execRoceRequestNak]
      rw [if_pos (by simp [hvalid, hup])]
      rfl
    · rw [State.roceReestablish_runs hvalid hstate hu, hu, hethUp _ _ hovers, if_pos hup, hlater _ _ hovers]
      rfl
    · rw [State.roceReestablish_runs hvalid hstate hu, hu, hethUp _ _ hovers, hdown, if_neg Bool.false_ne_true, hlater _ _ hovers]
    · simp only [exec, execRoceResponse]
      rw [hvalid, if_pos (by decide), if_pos hup]
      rfl
    · rw [State.plbWrite_eq s hc hw v rfl, if_pos hvalid, if_neg]
      · rfl
      · rintro ⟨hw0, hv⟩
        rcases h with h | h
        · exact h hw0
        · rw [h] at hv
          exact absurd hv (by decide)
    · have hwrite := State.plbWrite_eq s hc (show 0 < 16 by omega) v rfl
      rw [if_pos hvalid, if_pos ⟨rfl, by rw [hv]; rfl⟩, hops] at hwrite
      refine hwrite.trans ?_
      simp only [List.any_nil, Bool.false_eq_true, if_false]
      exact congrArg Host.Outcome.next (hmod _)
    · rw [State.plbWrite_eq s hc hw v rfl, hvalid, if_neg Bool.false_ne_true, hmod, if_neg]
      · rw [PlbConn.putWord_eq _ hw]
      · rintro ⟨hw0, hv⟩
        rcases h with h | h
        · exact h hw0
        · rw [h] at hv
          exact absurd hv (by decide)
    · have hwrite := State.plbWrite_eq s hc (show 0 < 16 by omega) v rfl
      rw [hvalid, if_neg Bool.false_ne_true, hmod, if_pos ⟨rfl, hv⟩] at hwrite
      refine hwrite.trans ?_
      rw [hy]
      rfl

end Sys2Proof.Machine

/-! SUPPORT. Ports that train, retry, go down and come back, each at its time (R258, R264, R265, R267, R464). -/

namespace Sys2Proof.Machine

section Training
variable {s : State} {p : Nat}

/-- What a port is once it has gone down (R264). -/
theorem State.portDown_kept (hp : p < 24) (hl : s.ports.length = 24) (code : Nat) :
    PortKept { s.port p with state := .down, downTick := s.tick, locks := 0, settling := false } ((s.portDown p code).port p) ∧
      (s.portDown p code).cores = s.cores := by
  have hfault : LinkKept s (s.linkFault p code 0) := LinkKept.recordAs s _ _ _ _ _ _ _
  obtain ⟨hframe, hlen, -⟩ := hfault
  have hport : (s.linkFault p code 0).port p = s.port p := State.port_recordAs ..
  have htick : (s.linkFault p code 0).tick = s.tick := by rw [hframe]; rfl
  unfold State.portDown State.stopPort
  obtain ⟨hreview, -, hkept⟩ := LinkKept.review ((s.linkFault p code 0).modPort p fun x =>
    { x with state := .down, downTick := (s.linkFault p code 0).tick, locks := 0, settling := false }) false
  refine ⟨?_, ?_⟩
  · have h := hkept p
    rw [State.port_modPort_same _ _ _ (by rw [hlen, hl]; exact hp), hport, htick] at h
    rw [htick]
    exact h
  · rw [hreview]
    show (s.linkFault p code 0).cores = s.cores
    rw [hframe]

theorem State.laneLoss_runs {l : Nat} (hp : p < 24) (hl4 : l < 4) (h : (s.port p).trained = true) :
    exec (.laneLoss p l) s = .next (s.portDown p 0x0501) := by
  simp only [exec, execLaneLoss]
  rw [if_pos ⟨hp, hl4, h⟩]

theorem State.trainingComplete_runs (hp : p < 24) (h : (s.port p).state = .training) : exec (.trainingComplete p) s =
    .next { s with ports := modAt s.ports p fun x => { x with state := .discover, locks := 0xF, first := true, retry := false } } := by
  simp only [exec, execTrainingComplete]
  rw [if_pos ⟨hp, h⟩]
  rfl

theorem State.trainingTimeout_runs (hp : p < 24) (hl : s.ports.length = 24) (h : (s.port p).state = .training) : exec (.trainingTimeout p) s =
    .next (let t : State := { s with ports := modAt s.ports p fun x => { x with state := .noPeer, first := true, locks := 0, downTick := s.tick } }
      if (s.port p).retry then t else t.recordAs (if (s.port p).job && s.anyAttached then .always else .never) 0x0504 2 p 0 0 0) := by
  have hjob : ((s.modPort p fun x => { x with state := .noPeer, first := true, locks := 0, downTick := s.tick }).port p).job = (s.port p).job := by
    rw [State.port_modPort_same _ _ _ (by rw [hl]; exact hp)]
    rfl
  simp only [exec, execTrainingTimeout]
  rw [if_pos ⟨hp, h⟩]
  unfold State.linkFault State.linkKind
  rw [hjob]
  rfl

/-- A port that begins training at a later tick: a fresh link, and nothing left on its wire (R252, R267). -/
theorem State.train_later (hovers : s.overs = []) (u : Nat) (retry : Bool) : (s.advanceTick u).train p retry = { s.advanceTick u with
    mesh := { s.mesh with items := s.mesh.items.map fun t => if t.src == .port p then { t with left := true } else t }
    ports := modAt s.ports p fun x => { x with
      state := .training, retry := retry, locks := 0, settling := false, trains := x.trains + 1
      tx := { wire := x.tx.wire, cp := x.tx.cp, dirty := true }, rx := { record := x.rx.record } } } := by
  unfold State.advanceTick
  rw [State.advance_calm hovers]
  rfl

theorem State.noPeerRetry_runs (hp : p < 24) (h : (s.port p).state = .noPeer) :
    exec (.noPeerRetry p) s = .next ((s.advanceTick ((s.port p).downTick + 1000000)).train p true) := by
  simp only [exec, execNoPeerRetry]
  rw [if_pos ⟨hp, h⟩]

theorem State.retrain_runs (hp : p < 24) (h : (s.port p).state = .down) (hcfg : bit (s.port p).cfg.toNat 1 = true) :
    exec (.retrain p) s = .next ((s.advanceTick ((s.port p).downTick + 1000)).train p false) := by
  simp only [exec, execRetrain]
  rw [if_pos ⟨hp, h, hcfg⟩]

theorem State.laserSettled_runs (hp : p < 24) (h : (s.port p).settling = true) :
    exec (.laserSettled p) s = .next ((s.advanceTick ((s.port p).downTick + 1000000)).train p false) := by
  simp only [exec, execLaserSettled]
  rw [if_pos ⟨hp, h⟩]

theorem State.discardEpisodeEnd_runs (hp : p < 24) {u n : Nat} (h : (s.port p).episode = some (u, n)) :
    exec (.discardEpisodeEnd p) s = .next (State.record { s.advanceTick (u + 65536) with
      ports := modAt s.ports p fun x => { x with episode := none } } 0x050A 2 p 0 0 (pack [(32, n)])) := by
  simp only [exec, execDiscardEpisodeEnd]
  rw [h]
  dsimp only
  rw [if_pos hp]
  have hports : (s.advanceTick (u + 65536)).ports = s.ports := State.advance_ports ..
  have hport : (s.advanceTick (u + 65536)).port p = s.port p := by
    unfold State.port
    rw [hports]
  unfold State.endEpisode State.modPort
  rw [hport, h, hports]

/-- The power of a link-edge domain goes off 1,000 ticks after its last port did (R464). -/
theorem State.linkEdgeGroupOff_runs {g : Nat} (hmem : g ∈ edgeDomains) (hon : g ∉ s.power.edgeOff)
    (hports : ∀ q ∈ domainPorts g, (s.port q).state = .disabled ∧ (s.port q).settling = false) (hovers : s.overs = []) :
    exec (.linkEdgeGroupOff g) s = .next { s.advanceTick ((domainPorts g).foldl (fun n q => max n (s.port q).downTick) 0 + 1000) with
      power := { s.power with edgeOff := markPut s.power.edgeOff g } } := by
  have hall : ((domainPorts g).all fun p => (s.port p).state == .disabled && !(s.port p).settling) = true := by
    rw [List.all_eq_true]
    intro q hq
    obtain ⟨hstate, hsettling⟩ := hports q hq
    simp [hstate, hsettling]
  simp only [exec, execLinkEdgeGroupOff]
  rw [hall, if_pos (by simp [hmem, hon])]
  unfold State.advanceTick
  rw [State.advance_calm hovers]

end Training

/-- Settles O35: each step is `State.train` or `State.portDown` at its tick. That the packets left in the receive buffer at a training go on and free no
credit, and what a loss empties and keeps, are the model's reading (log 24). -/
theorem portsTrain : Obligations.PortsTrain := by
  unfold Obligations.PortsTrain
  intro s p hp hl hovers
  refine ⟨fun l hl4 h => ?_, State.trainingComplete_runs hp, State.trainingTimeout_runs hp hl, fun c u r hc hno hre hla => ?_,
    fun u n => State.discardEpisodeEnd_runs hp, fun g ps hps hmem hon hports => ?_⟩
  · obtain ⟨hkept, hcores⟩ := State.portDown_kept (s := s) hp hl 0x0501
    obtain ⟨-, husable, hnow⟩ := State.portDown_down (s := s) (code := 0x0501) hp hl
    exact ⟨_, State.laneLoss_runs hp hl4 h, hkept, husable, hnow, hcores⟩
  · rw [← State.train_later hovers]
    simp only [List.mem_cons, List.not_mem_nil, or_false, Prod.mk.injEq] at hc
    rcases hc with ⟨rfl, rfl, rfl⟩ | ⟨rfl, rfl, rfl⟩ | ⟨rfl, rfl, rfl⟩
    · exact State.noPeerRetry_runs hp (hno rfl)
    · exact State.retrain_runs hp (hre rfl).1 (hre rfl).2
    · exact State.laserSettled_runs hp (hla rfl)
  · obtain rfl : ps = domainPorts g := hps
    exact State.linkEdgeGroupOff_runs hmem hon hports hovers

end Sys2Proof.Machine

/-! SUPPORT. One codeword boundary of a port (R248, R250, R252, R253, R257, R283, R284). -/

namespace Sys2Proof.Machine

section Boundary
variable {s : State} {p : Nat} {x : Port}

theorem State.codewordTransmit_runs (hp : p < 24) (h : (s.port p).trained = true) : exec (.codewordTransmit p) s = .next (s.boundary p) := by
  simp only [exec, execCodewordTransmit]
  rw [if_pos ⟨hp, h⟩]

/-! ## What a boundary puts on the lanes -/

/-- Port x once an LCW has left. -/
def Port.sendsLcw (x : Port) (s : State) (p : Nat) (keep : Bool) : Port :=
  { x with tx := { x.tx with nakDue := false, dirty := false, xoffDue := false, sinceLcw := 0, wire := some (.lcw x.tx.seq
    { ack := x.rx.eseq - 1, nak := x.tx.nakDue, xoff := if s.compat p then x.rx.xoff else 0
      credit := if s.compat p then List.replicate 10 0 else x.rx.freed.map fun f => f + BitVec.ofNat 16 (depthOf p)
      record := if keep || x.state == .discover then some (s.ownRecord p) else none }) } }

/-- Port x once a codeword without a number of its own has left. -/
def Port.sendsPlain (x : Port) (c : Codeword) : Port := { x with tx := { x.tx with wire := some c, sinceLcw := x.tx.sinceLcw + 1 } }

/-- Port x once a sequenced codeword has left for the first time. -/
def Port.sendsNew (x : Port) (c : Codeword) (tick : Nat) : Port :=
  { x with txCw := x.txCw + 1, tx := { x.tx with
    wire := some c, sinceLcw := x.tx.sinceLcw + 1, seq := x.tx.seq + 1, buf := x.tx.buf ++ [{ cw := c, tick := tick }] } }

variable (hx : s.port p = x) (hl : p < s.ports.length)
include hx hl

theorem State.putLcw_with (keep : Bool) : s.putLcw p keep = s.withPort p (x.sendsLcw s p keep) := by
  unfold State.putLcw
  dsimp only
  rw [State.modPort_eq _ hx hl, hx]
  rfl

theorem State.putWire_with (c : Codeword) : s.putWire p c = s.withPort p (x.sendsPlain c) := State.modPort_eq _ hx hl

theorem State.putNew_with (c : Codeword) : s.putNew p c = s.withPort p (x.sendsNew c s.tick) := by
  unfold State.putNew
  rw [State.putWire_with hx hl, State.withPort_modPort]
  rfl

/-- The next codeword of a replay is the first one kept from number n on. -/
theorem State.putReplay_with {n : BitVec 12} {i : Nat} {q : Sent} (hq : x.tx.buf[i]? = some q) (hn : (q.cw.seqOf - n).toNat < 2048)
    (hbefore : ∀ j r, j < i → x.tx.buf[j]? = some r → 2048 ≤ (r.cw.seqOf - n).toNat) :
    s.putReplay p n = s.withPort p { x with tx := { x.tx with
      wire := some q.cw, sinceLcw := x.tx.sinceLcw + 1, buf := x.tx.buf.set i { q with tick := s.tick }
      resend := if i + 1 < x.tx.buf.length then some (q.cw.seqOf + 1) else none } } := by
  obtain ⟨hi, hget⟩ := List.getElem?_eq_some_iff.mp hq
  have hfind : x.tx.buf.findIdx (fun q => seqFrom n q.cw.seqOf) = i := by
    rw [List.findIdx_eq hi]
    refine ⟨by rw [hget]; simpa [seqFrom] using hn, fun j hj => ?_⟩
    have hold := hbefore j _ hj (List.getElem?_eq_getElem (by omega))
    simp only [seqFrom, decide_eq_false_iff_not]
    omega
  unfold State.putReplay
  dsimp only
  rw [hx, hfind, hq]
  dsimp only
  rw [State.putWire_with hx hl, State.withPort_modPort]
  rfl

/-! ## The order of a boundary -/

theorem State.boundary_lcw (h : x.tx.nakDue = true ∨ x.tx.xoffDue = true ∨ (x.tx.dirty = true ∧ 31 ≤ x.tx.sinceLcw) ∨ 1023 ≤ x.tx.sinceLcw) :
    s.boundary p = s.withPort p (x.sendsLcw s p (decide (1023 ≤ x.tx.sinceLcw))) := by
  unfold State.boundary
  dsimp only
  rw [hx, if_pos, State.putLcw_with hx hl]
  simp only [Bool.or_eq_true, Bool.and_eq_true, decide_eq_true_eq]
  tauto

/-- What a boundary carries when nothing else may leave. -/
def Port.sendsIdle (x : Port) (s : State) (p : Nat) : Port :=
  if x.tx.dirty then x.sendsLcw s p false else x.sendsPlain (.idle x.tx.seq)

omit hx hl in
/-- No LCW is due at this boundary. -/
theorem lcw_notDue {t : LinkTx} (hnak : t.nakDue = false) (hxoff : t.xoffDue = false) (hdirty : t.dirty = true → t.sinceLcw < 31) (hkeep : t.sinceLcw < 1023) :
    (t.nakDue || t.xoffDue || (t.dirty && decide (31 ≤ t.sinceLcw)) || decide (1023 ≤ t.sinceLcw)) = false := by
  simp only [hnak, hxoff, Bool.false_or, Bool.or_eq_false_iff, Bool.and_eq_false_iff, decide_eq_false_iff_not, not_le]
  refine ⟨?_, hkeep⟩
  cases h : t.dirty
  · exact .inl rfl
  · exact .inr (hdirty h)

variable (hdue : (x.tx.nakDue || x.tx.xoffDue || (x.tx.dirty && decide (31 ≤ x.tx.sinceLcw)) || decide (1023 ≤ x.tx.sinceLcw)) = false)
include hdue

omit hl in
theorem State.boundary_replay {n : BitVec 12} (h : x.tx.resend = some n) : s.boundary p = s.putReplay p n := by
  unfold State.boundary
  dsimp only
  rw [hx, hdue, if_neg Bool.false_ne_true, h]

theorem State.boundary_closed (hresend : x.tx.resend = none) (h : 1024 ≤ (x.tx.seq - (x.tx.ack + 1)).toNat) :
    s.boundary p = s.withPort p (x.sendsIdle s p) := by
  unfold State.boundary
  dsimp only
  rw [hx, hdue, if_neg Bool.false_ne_true, hresend]
  dsimp only
  have hclosed : x.tx.open = false := decide_eq_false (Nat.not_lt.mpr h)
  rw [hclosed, if_pos (by decide), State.putLcw_with hx hl, State.putWire_with hx hl]
  unfold Port.sendsIdle
  split <;> rfl

variable (hresend : x.tx.resend = none) (hopen : (x.tx.seq - (x.tx.ack + 1)).toNat < 1024)
include hresend hopen

theorem State.boundary_next {c : Codeword} (hnext : x.tx.next = some c) (hcompat : s.compat p = false) :
    s.boundary p = s.withPort p { x.sendsNew c s.tick with tx := { (x.sendsNew c s.tick).tx with next := none, ends := [] } } := by
  unfold State.boundary
  dsimp only
  rw [hx, hdue, if_neg Bool.false_ne_true, hresend]
  dsimp only
  have hwindow : x.tx.open = true := decide_eq_true hopen
  rw [hwindow, if_neg (by decide), hnext]
  dsimp only
  rw [if_neg (by simp [State.xoffHolds, hcompat]), State.putNew_with hx hl, State.withPort_modPort]

theorem State.boundary_idle (hnext : x.tx.next = none) (hfill : x.usable = false ∨ s.chooseFill p = none) :
    s.boundary p = s.withPort p (x.sendsIdle s p) := by
  have hidle : (if x.tx.dirty then s.putLcw p false else s.putWire p (.idle x.tx.seq)) = s.withPort p (x.sendsIdle s p) := by
    rw [State.putLcw_with hx hl, State.putWire_with hx hl]
    unfold Port.sendsIdle
    split <;> rfl
  unfold State.boundary
  dsimp only
  rw [hx, hdue, if_neg Bool.false_ne_true, hresend]
  dsimp only
  have hwindow : x.tx.open = true := decide_eq_true hopen
  rw [hwindow, if_neg (by decide), hnext]
  dsimp only
  rw [hidle]
  rcases hfill with h | h
  · rw [h, if_neg Bool.false_ne_true]
  · rw [h]
    dsimp only
    rw [ite_self]

omit hl in
theorem State.boundary_data (hnext : x.tx.next = none) (husable : x.usable = true) {f : Fill} (hfill : s.chooseFill p = some f) :
    s.boundary p = s.putData p f := by
  unfold State.boundary
  dsimp only
  rw [hx, hdue, if_neg Bool.false_ne_true, hresend]
  dsimp only
  have hwindow : x.tx.open = true := decide_eq_true hopen
  rw [hwindow, if_neg (by decide), hnext]
  dsimp only
  rw [if_pos husable, hfill]

end Boundary

/-! ## Arbitration with one packet in the pool (R283, R284) -/

theorem findSome?_range_first {α : Type} {n : Nat} {f : Nat → Option α} {b : α} (hn : 0 < n) (h : f 0 = some b) : (List.range n).findSome? f = some b := by
  obtain ⟨m, rfl⟩ : ∃ m, n = m + 1 := ⟨n - 1, by omega⟩
  rw [List.range_succ_eq_map, List.findSome?_cons, h]

section Fill
variable {s : State} {p : Nat}

theorem State.classFill_other {c : Nat} (h : ∀ q ∈ (s.port p).tx.pool, q.vc / 2 ≠ c) : s.classFill p c = none := by
  have hhead : ∀ v, v / 2 = c → (s.port p).tx.head v = none := fun v hv => by
    unfold LinkTx.head
    rw [List.find?_eq_none]
    intro q hq hvc
    exact h q hq (by rw [beq_iff_eq.mp hvc, hv])
  unfold State.classFill State.readyVc
  simp [hhead (2 * c + 1) (by omega), hhead (2 * c) (by omega)]

theorem State.tnsFill_none (h : ∀ q ∈ (s.port p).tx.pool, q.vc / 2 ≠ clsTns) : s.tnsFill p = none := by
  have hhead : ∀ flow, s.flowHead p flow = none := fun flow => by
    unfold State.flowHead
    rw [List.find?_eq_none.mpr fun q hq => by simp [h q hq]]
  unfold State.tnsFill State.calPick
  rw [Option.map_eq_none_iff, List.findSome?_eq_none_iff]
  intro i _
  dsimp only
  rw [hhead, Option.map_none, ite_self]

theorem State.elasticFill_other (h : ∀ q ∈ (s.port p).tx.pool, q.vc / 2 = clsTns ∨ q.vc / 2 = clsCtl) : s.elasticFill p = none := by
  unfold State.elasticFill
  rw [List.findSome?_eq_none_iff]
  intro c hc
  refine State.classFill_other fun q hq hvc => ?_
  simp only [List.mem_cons, List.not_mem_nil, or_false] at hc
  have hcls := h q hq
  simp only [clsTns, clsCtl, clsRpl, clsReq, clsFwd] at hcls hc
  omega

theorem State.chooseFill_empty (h : (s.port p).tx.pool = []) : s.chooseFill p = none := by
  have hno : ∀ c, ∀ q ∈ (s.port p).tx.pool, q.vc / 2 ≠ c := fun c q hq => by rw [h] at hq; cases hq
  have helastic : s.elasticFill p = none := State.elasticFill_other fun q hq => by rw [h] at hq; cases hq
  unfold State.chooseFill
  dsimp only
  rw [State.classFill_other (hno _), helastic, ite_self, State.tnsFill_none (hno _)]

variable {q : Queued} (hpool : (s.port p).tx.pool = [q]) (hmay : 0 < s.mayFlits p q.vc)
include hpool hmay

theorem State.classFill_own {c : Nat} (hc : q.vc / 2 = c) : s.classFill p c = some { vc := q.vc, flow := none, cp := none } := by
  have hready : s.readyVc p c = some q.vc := by
    unfold State.readyVc LinkTx.head
    rw [hpool]
    obtain hpost | hplain : q.vc = 2 * c + 1 ∨ q.vc = 2 * c := by omega
    · rw [hpost] at hmay
      simp [hpost, hmay]
    · have hnot : (q.vc == 2 * c + 1) = false := beq_eq_false_iff_ne.mpr (by omega)
      rw [hplain] at hmay hnot
      simp [List.find?_cons, hplain, hnot, hmay]
  unfold State.classFill
  rw [hready]
  rfl

theorem State.tnsFill_own (hc : q.vc / 2 = clsTns) (hvalid : bit (s.calEntry p ((s.port p).tx.cp % 256)) 7 = true)
    (hflow : bits (s.calEntry p ((s.port p).tx.cp % 256)) 4 0 = q.flow) :
    s.tnsFill p = some { vc := q.vc, flow := some q.flow, cp := some (((s.port p).tx.cp % 256 + 1) % 256) } := by
  have hhead : s.flowHead p q.flow = some q := by
    unfold State.flowHead
    rw [hpool]
    simp [hc, Nat.pos_iff_ne_zero.mp hmay]
  have hpick : s.calPick p = some ((s.port p).tx.cp % 256, q) := by
    unfold State.calPick
    refine findSome?_range_first (by decide) ?_
    dsimp only
    rw [Nat.add_zero]
    generalize (s.port p).tx.cp % 256 = j at hvalid hflow ⊢
    rw [hvalid, if_pos rfl, hflow, hhead]
    rfl
  unfold State.tnsFill
  rw [hpick]
  rfl

/-- What a codeword boundary takes from the one packet that waits. -/
theorem State.chooseFill_own (hvc : q.vc < 10) (hcal : q.vc / 2 = clsTns → bit (s.calEntry p ((s.port p).tx.cp % 256)) 7 = true ∧ bits (s.calEntry p ((s.port p).tx.cp % 256)) 4 0 = q.flow) :
    s.chooseFill p = some (if q.vc / 2 = clsTns then { vc := q.vc, flow := some q.flow, cp := some (((s.port p).tx.cp % 256 + 1) % 256) }
      else { vc := q.vc, flow := none, cp := none }) := by
  have honly : ∀ P : Queued → Prop, P q → ∀ y ∈ (s.port p).tx.pool, P y := fun P hP y hy => by
    rw [hpool, List.mem_singleton] at hy
    exact hy ▸ hP
  unfold State.chooseFill
  dsimp only
  by_cases hctl : q.vc / 2 = clsCtl
  · rw [State.classFill_own hpool hmay hctl, if_neg (show ¬ q.vc / 2 = clsTns by rw [hctl]; decide)]
  · rw [State.classFill_other (honly (fun y => y.vc / 2 ≠ clsCtl) hctl)]
    dsimp only
    by_cases htns : q.vc / 2 = clsTns
    · obtain ⟨hvalid, hflow⟩ := hcal htns
      rw [State.elasticFill_other (honly (fun y => y.vc / 2 = clsTns ∨ y.vc / 2 = clsCtl) (.inl htns)), ite_self, State.tnsFill_own hpool hmay htns hvalid hflow,
        if_pos htns]
    · have helastic : s.elasticFill p = some { vc := q.vc, flow := none, cp := none } := by
        have hother : ∀ c, q.vc / 2 ≠ c → s.classFill p c = none := fun c hc => State.classFill_other (honly (fun y => y.vc / 2 ≠ c) hc)
        unfold State.elasticFill
        by_cases hrpl : q.vc / 2 = clsRpl
        · simp [State.classFill_own hpool hmay hrpl]
        · by_cases hreq : q.vc / 2 = clsReq
          · simp [hother _ hrpl, State.classFill_own hpool hmay hreq]
          · have hfwd : q.vc / 2 = clsFwd := by
              simp only [clsTns, clsCtl, clsRpl, clsReq, clsFwd] at *
              omega
            simp [hother _ hrpl, hother _ hreq, State.classFill_own hpool hmay hfwd]
      rw [helastic, State.tnsFill_none (honly (fun y => y.vc / 2 ≠ clsTns) htns), if_neg htns]
      generalize decide (bits s.route.arb.toNat 3 0 + 1 ≤ (s.port p).tx.tnsRun) = floor
      cases floor <;> rfl

end Fill

/-- A packet that fits is taken whole. -/
theorem takeFlow_whole {mine stop : Queued → Bool} {n : Nat} {q : Queued} (hmine : mine q = true) (hstop : stop q = false) (hne : q.flits ≠ [])
    (hn : q.flits.length ≤ n) : takeFlow mine stop n [q] = (q.flits, []) := by
  have hlen := List.length_pos_iff.mpr hne
  unfold takeFlow
  rw [if_neg (by rw [hstop]; simp; omega), if_pos hmine, Nat.min_eq_right hn]
  simp [takeFlow]

theorem flitsBad_false {fs : List Flit} (h : ∀ f ∈ fs, ∀ w ∈ f, w.poison = false) : flitsBad fs = false := by
  unfold flitsBad
  rw [List.any_eq_false]
  intro f hf
  rw [Bool.not_eq_true, List.any_eq_false]
  intro w hw
  rw [h f hf w hw]
  exact Bool.false_ne_true

/-- A DATA codeword that takes the one packet that waits whole (R245). -/
theorem State.putData_whole {s : State} {p : Nat} {x : Port} {q : Queued} (hx : s.port p = x) (hl : p < s.ports.length) (hpool : x.tx.pool = [q])
    (hne : q.flits ≠ []) (hmay : q.flits.length ≤ s.mayFlits p q.vc) (hclean : ∀ f ∈ q.flits, ∀ w ∈ f, w.poison = false) {flow cp : Option Nat}
    (hflow : ∀ n, flow = some n → q.vc / 2 = clsTns ∧ q.flow = n) :
    s.putData p { vc := q.vc, flow := flow, cp := cp } = s.withPort p (Port.sendsNew { x with tx := { x.tx with
      pool := [], cp := cp.getD x.tx.cp, sent := modAt x.tx.sent q.vc (fun c => c + BitVec.ofNat 16 q.flits.length)
      tnsRun := if q.vc / 2 = clsTns then x.tx.tnsRun + 1 else 0 } } (.data x.tx.seq q.vc q.flits) s.tick) := by
  have hwith : ∀ z : Port, (s.withPort p z).port p = z := fun z => State.withPort_port z hl
  unfold State.putData
  dsimp only
  rw [hx, hpool, takeFlow_whole ?mine ?stop hne hmay]
  case mine =>
    cases hf : flow with
    | none => simp
    | some n =>
      obtain ⟨hc, hn⟩ := hflow n hf
      simp [hc, hn]
  case stop => simp
  dsimp only
  rw [flitsBad_false hclean, if_neg Bool.false_ne_true, State.modPort_eq _ hx hl,
    State.putNew_with (hwith _) (by unfold State.withPort; rw [length_modAt]; exact hl)]
  unfold State.withPort
  dsimp only
  rw [modAt_modAt]
  rfl

theorem State.mayFlits_native {s : State} {p v : Nat} (h : s.compat p = false) :
    s.mayFlits p v = min 10 ((s.port p).tx.credit.getD v 0 - (s.port p).tx.sent.getD v 0).toNat := by
  unfold State.mayFlits
  dsimp only
  rw [h, if_neg Bool.false_ne_true]

/-- Settles O37: an LCW that is due comes first, then the replay in progress, then a new codeword while the window is open, and else IDLE. -/
theorem codewordsLeave : Obligations.CodewordsLeave := by
  unfold Obligations.CodewordsLeave
  intro s p x t lcw send hp hlen hx htrained ht hlcw hsend
  subst ht
  have hl : p < s.ports.length := by omega
  obtain rfl : lcw = fun keep => x.sendsLcw s p keep := funext hlcw
  rw [State.codewordTransmit_runs hp (hx ▸ htrained)]
  refine ⟨fun h => congrArg _ (State.boundary_lcw hx hl h), fun hnak hxoff hdirty hkeep => ?_⟩
  have hdue := lcw_notDue hnak hxoff hdirty hkeep
  refine ⟨fun n i q hresend hq hn hbefore => ?_, fun hresend h => ?_, fun hresend hopen => ⟨fun c hnext hcompat => ?_,
    fun q hnext husable hcompat hpool hvc hne hten hcredit hclean hcal => ?_⟩⟩
  · rw [State.boundary_replay hx hdue hresend, State.putReplay_with hx hl hq hn hbefore]
    rfl
  · refine congrArg _ ?_
    by_cases hopen : (x.tx.seq - (x.tx.ack + 1)).toNat < 1024
    · obtain ⟨hnext, hnone⟩ := h.resolve_left (Nat.not_le.mpr hopen)
      exact State.boundary_idle hx hl hdue hresend hopen hnext (hnone.imp_right fun hpool => State.chooseFill_empty (by rw [hx]; exact hpool))
    · exact State.boundary_closed hx hl hdue hresend (Nat.not_lt.mp hopen)
  · rw [State.boundary_next hx hl hdue hresend hopen hnext hcompat, hsend]
    rfl
  · have hmay : q.flits.length ≤ s.mayFlits p q.vc := by
      rw [State.mayFlits_native hcompat, hx]
      exact Nat.le_min.mpr ⟨hten, hcredit⟩
    have hfill := State.chooseFill_own (s := s) (p := p) (q := q) (by rw [hx]; exact hpool) (Nat.lt_of_lt_of_le (List.length_pos_iff.mpr hne) hmay) hvc
      (by rw [hx]; exact hcal)
    rw [hx] at hfill
    rw [State.boundary_data hx hdue hresend hopen hnext husable hfill, hsend]
    by_cases htns : q.vc / 2 = clsTns
    · rw [if_pos htns, if_pos htns, State.putData_whole hx hl hpool hne hmay hclean fun n hn => ⟨htns, Option.some_inj.mp hn⟩]
      simp only [if_pos htns]
      rfl
    · rw [if_neg htns, State.putData_whole hx hl hpool hne hmay hclean fun n hn => absurd hn (by simp)]
      simp only [if_neg htns]
      rfl

end Sys2Proof.Machine

/-! SUPPORT. Codewords received: numbers, poison maps, flits, acknowledgements, replays and records (R244, R246, R248 to R250, R252, R259, R264). -/

namespace Sys2Proof.Machine

/-! ## What a codeword does to its port -/

/-- Port x once a codeword's correction is counted. -/
def Port.corrected (x : Port) (fix : Bool) : Port := { x with ce := if fix then satInc x.ce 1 else x.ce }

/-- Port x in NAK state, with the LCW that asks for the replay. -/
def Port.naks (x : Port) : Port := { x with rx := { x.rx with nak := true }, tx := { x.tx with nakDue := x.tx.nakDue || !x.rx.nak } }

/-- Port x once a codeword in its turn is accepted. -/
def Port.accepts (x : Port) : Port :=
  { x with rxCw := x.rxCw + 1, rx := { x.rx with eseq := x.rx.eseq + 1, nak := false }, tx := { x.tx with dirty := true } }

/-- Port x once an uncorrectable codeword is counted. -/
def Port.misses (x : Port) (ticks : List Nat) : Port := Port.naks { x with ue := satInc x.ue 1, rx := { x.rx with ueTicks := ticks } }

theorem Port.naks_of_nak {x : Port} (h : x.rx.nak = true) : x.naks = x := by
  have hrx : { x.rx with nak := true } = x.rx := by
    rw [← h]
  have htx : { x.tx with nakDue := x.tx.nakDue || !x.rx.nak } = x.tx := by
    rw [h, Bool.not_true, Bool.or_false]
  unfold Port.naks
  rw [hrx, htx]

section Port
variable {s : State} {p : Nat} (hl : p < s.ports.length)
include hl

omit hl in
theorem State.enterNak_with (z : Port) : (s.withPort p z).enterNak p = s.withPort p z.naks := by
  unfold State.enterNak
  rw [State.withPort_modPort]
  by_cases h : z.rx.nak = true
  · rw [if_pos h, Port.naks_of_nak h]
  · rw [if_neg h, Port.naks, Bool.eq_false_iff.mpr h, Bool.not_false, Bool.or_true]

omit hl in
theorem State.countCorrected_with (z : Port) (fix : Bool) : (s.withPort p z).countCorrected p fix = s.withPort p (z.corrected fix) := by
  unfold State.countCorrected Port.corrected
  cases fix
  · rfl
  · exact State.withPort_modPort s p z _

theorem State.takeSeq_in (z : Port) : (s.withPort p z).takeSeq p z.rx.eseq = (true, s.withPort p z.accepts) := by
  unfold State.takeSeq
  rw [State.withPort_port z hl, if_pos rfl, State.withPort_modPort]
  rfl

theorem State.takeSeq_out {z : Port} {q : BitVec 12} (h : z.rx.eseq ≠ q) : (s.withPort p z).takeSeq p q = (false, s.withPort p z.naks) := by
  unfold State.takeSeq
  rw [State.withPort_port z hl, if_neg h, State.enterNak_with]

theorem State.checkSeq_in (z : Port) : (s.withPort p z).checkSeq p z.rx.eseq = s.withPort p z := by
  unfold State.checkSeq
  rw [State.withPort_port z hl, if_pos rfl]

theorem State.checkSeq_out {z : Port} {q : BitVec 12} (h : z.rx.eseq ≠ q) : (s.withPort p z).checkSeq p q = s.withPort p z.naks := by
  unfold State.checkSeq
  rw [State.withPort_port z hl, if_neg h, State.enterNak_with]

theorem State.uncorrectable_with {z : Port} {ticks : List Nat} (h : ticks = z.rx.ueTicks.filter (fun t => decide (s.tick < t + 100000)) ++ [s.tick]) :
    (s.withPort p z).uncorrectable p = if z.ueLimit < ticks.length then (s.withPort p (z.misses ticks)).portDown p 0x0503 else s.withPort p (z.misses ticks) := by
  unfold State.uncorrectable
  dsimp only
  rw [State.withPort_modPort, State.enterNak_with, State.withPort_port _ hl, show (s.withPort p z).tick = s.tick from rfl, ← h]
  rfl

theorem State.uncorrectable_eq {x : Port} {ticks : List Nat} (hx : s.port p = x)
    (h : ticks = x.rx.ueTicks.filter (fun t => decide (s.tick < t + 100000)) ++ [s.tick]) :
    s.uncorrectable p = if x.ueLimit < ticks.length then (s.withPort p (x.misses ticks)).portDown p 0x0503 else s.withPort p (x.misses ticks) := by
  conv_lhs => rw [State.withPort_self hx hl]
  exact State.uncorrectable_with hl h

theorem State.compat_with {z : Port} (h : z.cfg = (s.port p).cfg) : (s.withPort p z).compat p = s.compat p := by
  unfold State.compat
  rw [State.withPort_port z hl, h]

theorem State.occupancy_with {z : Port} (h : z.rx.part = (s.port p).rx.part) (v : Nat) : (s.withPort p z).occupancy p v = s.occupancy p v := by
  unfold State.occupancy
  rw [State.withPort_port z hl, h]
  rfl

end Port

/-! ## Sequenced codewords and IDLE (R244, R246, R249) -/

section Codewords
variable {s : State} {p : Nat} {x : Port} (hp : p < 24) (hl : p < s.ports.length) (hx : s.port p = x) (htrained : x.trained = true)
include hp hl hx htrained

omit hl in
theorem State.uncorrectableCodeword_runs : exec (.uncorrectableCodeword p) s = .next (s.uncorrectable p) := by
  simp only [exec, execUncorrectableCodeword]
  rw [if_pos ⟨hp, hx ▸ htrained⟩]

omit hl in
theorem State.dataCodeword_malformed {fix : Bool} {seq : BitVec 12} {vc : Nat} {flits : List (List Word64)} (h : 9 < vc ∨ flits.length = 0 ∨ 10 < flits.length) :
    exec (.dataCodeword p fix seq vc flits) s = exec (.uncorrectableCodeword p) s := by
  rw [State.uncorrectableCodeword_runs hp hx htrained]
  simp only [exec, execDataCodeword]
  rw [if_pos ⟨hp, hx ▸ htrained⟩, if_pos h]

theorem State.idleCodeword_runs (fix : Bool) (seq : BitVec 12) :
    exec (.idleCodeword p fix seq) s = .next ((s.withPort p (x.corrected fix)).checkSeq p seq) := by
  simp only [exec, execIdleCodeword]
  rw [if_pos ⟨hp, hx ▸ htrained⟩, ← State.countCorrected_with, ← State.withPort_self hx hl]

theorem State.poisonCodeword_runs (fix : Bool) (seq : BitVec 12) (map : BitVec 80) {b : Bool} {t : State}
    (h : (s.withPort p (x.corrected fix)).takeSeq p seq = (b, t)) :
    exec (.poisonCodeword p fix seq map) s = .next (if b then t.modPort p fun x => { x with rx := { x.rx with map := some map } } else t) := by
  rw [← State.countCorrected_with, ← State.withPort_self hx hl] at h
  simp only [exec, execPoisonCodeword]
  rw [if_pos ⟨hp, hx ▸ htrained⟩, h]

theorem State.dataCodeword_runs (fix : Bool) (seq : BitVec 12) {vc : Nat} {flits : List (List Word64)} (hvc : vc ≤ 9) (h0 : 0 < flits.length) (h10 : flits.length ≤ 10)
    {b : Bool} {t : State} (h : (s.withPort p (x.corrected fix)).takeSeq p seq = (b, t)) :
    exec (.dataCodeword p fix seq vc flits) s = .next (if b then
      ((((t.modPort p fun x => { x with rx := { x.rx with map := none } }).takeFlits p vc (mapFlits (t.port p).rx.map flits)).tidyRx p).reviewXoff p vc) else t) := by
  rw [← State.countCorrected_with, ← State.withPort_self hx hl] at h
  simp only [exec, execDataCodeword]
  rw [if_pos ⟨hp, hx ▸ htrained⟩, if_neg (by omega), h]

end Codewords

/-! ## Flits build packets (R245, R254) -/

/-- The packet of a channel with one more flit. -/
def LinkRx.grown (r : LinkRx) (v : Nat) (f : Flit) : Partial :=
  ((r.partOf v).map fun q => { q with flits := q.flits ++ [f] }).getD { vc := v, flits := [f] }

/-- A flit that finds room joins its packet; the last one completes it. -/
theorem State.takeFlit_with {s : State} {p v : Nat} {z : Port} {f : Flit} {q : Partial} (hl : p < s.ports.length) (hcfg : z.cfg = (s.port p).cfg)
    (hpart : z.rx.part = (s.port p).rx.part) (hskip : z.rx.skipping v = 0) (hcompat : s.compat p = false) (hroom : s.occupancy p v < depthOf p)
    (hq : q = z.rx.grown v f) :
    (s.withPort p z).takeFlit p v f = { s with
      mesh := { s.mesh with items := if q.length ≤ q.flits.length then s.mesh.items ++ [{ pkt := packetOf q.flits, src := .port p }] else s.mesh.items }
      ports := modAt s.ports p fun _ => { z with rx := { z.rx with part := z.rx.part.filter (fun r => r.vc != v) ++ if q.length ≤ q.flits.length then [] else [q] } } } := by
  have hgrown : (match z.rx.partOf v with
      | some q => { q with flits := q.flits ++ [f] }
      | none => { vc := v, flits := [f] }) = q := by
    rw [hq, LinkRx.grown]
    cases z.rx.partOf v <;> rfl
  unfold State.takeFlit
  dsimp only
  rw [State.withPort_port z hl, if_neg (by omega), State.compat_with hl hcfg, hcompat, Bool.false_and, if_neg Bool.false_ne_true,
    State.occupancy_with hl hpart, if_neg (by omega)]
  refine Eq.trans (b := if q.length ≤ q.flits.length then
      ((s.withPort p z).modPort p fun x => { x with rx := { x.rx with part := z.rx.part.filter fun q => q.vc != v } }).receive p (packetOf q.flits)
    else (s.withPort p z).modPort p fun x => { x with rx := { x.rx with part := (z.rx.part.filter fun q => q.vc != v) ++ [q] } }) ?_ ?_
  · rw [← hgrown] <;> rfl
  · rw [State.withPort_modPort, State.withPort_modPort]
    by_cases h : q.length ≤ q.flits.length
    · simp only [if_pos h, List.append_nil]
      rfl
    · simp only [if_neg h]
      rfl

theorem State.reviewXoff_native {s : State} {p v : Nat} (h : s.compat p = false) : s.reviewXoff p v = s := by
  unfold State.reviewXoff
  rw [h, if_neg Bool.false_ne_true]

theorem State.tidyRx_usable {s : State} {p : Nat} (h : (s.port p).usable = true) : s.tidyRx p = s := by
  unfold State.tidyRx
  rw [if_pos h]

/-- A DATA codeword of one flit in its turn (R245, R246). -/
theorem State.dataCodeword_flit {s : State} {p vc : Nat} {x : Port} {fix : Bool} {f : List Word64} {q : Partial} (hp : p < 24) (hl : p < s.ports.length)
    (hx : s.port p = x) (htrained : x.trained = true) (hvc : vc ≤ 9) (hskip : x.rx.skipping vc = 0) (hcompat : s.compat p = false)
    (hroom : s.occupancy p vc < depthOf p) (husable : x.usable = true)
    (hq : q = ((x.rx.partOf vc).map fun q => { q with flits := q.flits ++ mapFlits x.rx.map [f] }).getD { vc := vc, flits := mapFlits x.rx.map [f] }) :
    exec (.dataCodeword p fix x.rx.eseq vc [f]) s = .next { s with
      mesh := { s.mesh with items := if q.length ≤ q.flits.length then s.mesh.items ++ [{ pkt := packetOf q.flits, src := .port p }] else s.mesh.items }
      ports := modAt s.ports p fun _ => { x.corrected fix with
        rxCw := x.rxCw + 1, tx := { x.tx with dirty := true }
        rx := { x.rx with eseq := x.rx.eseq + 1, nak := false, map := none
                          part := x.rx.part.filter (fun r => r.vc != vc) ++ if q.length ≤ q.flits.length then [] else [q] } } } := by
  obtain ⟨g, hg⟩ : ∃ g, mapFlits x.rx.map [f] = [g] := ⟨_, rfl⟩
  obtain ⟨z, hz⟩ : ∃ z : Port, z = { (x.corrected fix).accepts with rx := { (x.corrected fix).accepts.rx with map := none } } := ⟨_, rfl⟩
  obtain ⟨items, hitems⟩ : ∃ items, items = if q.length ≤ q.flits.length then s.mesh.items ++ [{ pkt := packetOf q.flits, src := .port p }] else s.mesh.items := ⟨_, rfl⟩
  obtain ⟨y, hy⟩ : ∃ y : Port, y = { z with rx := { z.rx with part := z.rx.part.filter (fun r => r.vc != vc) ++ if q.length ≤ q.flits.length then [] else [q] } } := ⟨_, rfl⟩
  have hgrown : q = z.rx.grown vc g := by
    rw [hq, hg, hz]
    rfl
  have hflit := State.takeFlit_with (z := z) (f := g) (q := q) (v := vc) hl (by rw [hx, hz]; rfl) (by rw [hx, hz]; rfl) (by rw [hz]; exact hskip) hcompat hroom hgrown
  rw [← hitems, ← hy] at hflit
  obtain ⟨t, ht⟩ : ∃ t : State, t = { s with mesh := { s.mesh with items := items } } := ⟨_, rfl⟩
  have hend : (s.withPort p z).takeFlits p vc [g] = t.withPort p y := by
    have htr : z.trained = true := by rw [hz]; exact htrained
    unfold State.takeFlits
    rw [State.withPort_port z hl, if_pos htr, hflit, ht]
    rfl
  have htl : p < t.ports.length := by rw [ht]; exact hl
  have hport := State.withPort_port y htl
  have hnative : (t.withPort p y).compat p = false := by
    have hcfg : y.cfg = (t.port p).cfg := by
      rw [hy, hz, ht]
      show x.cfg = (s.port p).cfg
      rw [hx]
    rw [State.compat_with htl hcfg, ht]
    exact hcompat
  rw [State.dataCodeword_runs hp hl hx htrained fix x.rx.eseq hvc (by simp) (by simp) (State.takeSeq_in hl (x.corrected fix)), if_pos rfl,
    State.withPort_port _ hl, State.withPort_modPort, ← hz, show mapFlits (x.corrected fix).accepts.rx.map [f] = [g] from hg, hend,
    State.tidyRx_usable (by rw [hport, hy, hz]; exact husable), State.reviewXoff_native hnative, ht, hy, hz, hitems]
  rfl

/-! ## LCWs (R248, R250, R252) -/

section Lcw
variable {s : State} {p : Nat} {x : Port} (hp : p < 24) (hl : p < s.ports.length) (hx : s.port p = x) (htrained : x.trained = true)
include hp hl hx htrained

theorem State.lcw_plain (fix : Bool) (ack : BitVec 12) (nak : Bool) (credit : List (BitVec 16)) (xoff : BitVec 10) :
    exec (.lcw p fix x.rx.eseq ack nak credit xoff none) s = .next ((s.withPort p (x.corrected fix)).control p ack nak credit xoff) := by
  have hcheck := State.checkSeq_in hl (x.corrected fix)
  rw [← State.countCorrected_with, ← State.withPort_self hx hl] at hcheck
  simp only [exec, execLcw]
  rw [if_pos ⟨hp, hx ▸ htrained⟩, show x.rx.eseq = (x.corrected fix).rx.eseq from rfl, hcheck, ← State.countCorrected_with, ← State.withPort_self hx hl]

theorem State.lcw_record (fix : Bool) (ack : BitVec 12) (nak : Bool) (credit : List (BitVec 16)) (xoff : BitVec 10) (r : BitVec 128) {z : Port}
    (hcontrol : (s.withPort p (x.corrected fix)).control p ack nak credit xoff = s.withPort p z) (hz : z.trained = true) :
    exec (.lcw p fix x.rx.eseq ack nak credit xoff (some r)) s = .next ((s.withPort p z).hear p r) := by
  have hcheck := State.checkSeq_in hl (x.corrected fix)
  rw [← State.countCorrected_with, ← State.withPort_self hx hl] at hcheck hcontrol
  simp only [exec, execLcw]
  rw [if_pos ⟨hp, hx ▸ htrained⟩, show x.rx.eseq = (x.corrected fix).rx.eseq from rfl, hcheck, hcontrol, if_pos (by rw [State.withPort_port z hl]; exact hz)]

end Lcw

/-- Port x once the control fields of an LCW without a NAK are taken. -/
def Port.controlled (x : Port) (compat : Bool) (ack : BitVec 12) (credit : List (BitVec 16)) (xoff : BitVec 10) : Port :=
  { x with tx := { x.tx.acked ack with credit := if compat then x.tx.credit else credit, xoff := if compat then xoff else 0 } }

section Control
variable {s : State} {p : Nat} {z : Port} (hl : p < s.ports.length) (hcfg : z.cfg = (s.port p).cfg)
include hl hcfg

theorem State.control_ack (ack : BitVec 12) (credit : List (BitVec 16)) (xoff : BitVec 10) :
    (s.withPort p z).control p ack false credit xoff = s.withPort p (z.controlled (s.compat p) ack credit xoff) := by
  unfold State.control
  simp only [State.compat_with hl hcfg, Bool.false_eq_true, if_false, Bool.false_and, State.withPort_modPort]
  rfl

/-- A NAK that nothing holds back starts a replay. -/
theorem State.control_nak {ack : BitVec 12} (credit : List (BitVec 16)) (xoff : BitVec 10) (hresend : z.tx.resend = none) (hack : (z.tx.acked ack).ack = ack)
    (hunacked : 0 < (z.tx.acked ack).unacked) :
    (s.withPort p z).control p ack true credit xoff = (s.withPort p (z.controlled (s.compat p) ack credit xoff)).startReplay p (ack + 1) false := by
  unfold State.control
  simp only [State.compat_with hl hcfg, State.withPort_modPort, State.withPort_port _ hl, hresend]
  rw [if_pos]
  · rfl
  · simp only [Option.isSome_none, Bool.false_and, Bool.not_false, Bool.and_true, Bool.true_and, Bool.and_eq_true, beq_iff_eq, decide_eq_true_eq]
    exact ⟨hack, hunacked⟩

end Control

theorem LinkTx.acked_again {t : LinkTx} : t.acked t.ack = t := by
  unfold LinkTx.acked
  dsimp only
  rw [if_pos (.inl (by simp))]

/-- An acknowledgement of codewords that were sent, while no replay goes on. -/
theorem LinkTx.acked_frees {t : LinkTx} {a : BitVec 12} (hresend : t.resend = none) (h0 : 0 < (a - t.ack).toNat) (hsent : (a - t.ack).toNat ≤ (t.seq - (t.ack + 1)).toNat) :
    t.acked a = { t with ack := a, buf := t.buf.filter fun q => decide ((q.cw.seqOf - (a + 1)).toNat < 2048), timeouts := 0, start := none, starts := 0 } := by
  unfold LinkTx.acked LinkTx.unacked
  dsimp only
  rw [if_neg (by omega), hresend]
  unfold seqFrom
  rfl

/-! ## Records (R259) -/

/-- A record that the port expects, heard for the second time, makes it ACTIVE. -/
theorem State.hear_expected {s : State} {p : Nat} {z : Port} {r : BitVec 128} (hl : p < s.ports.length) (hcfg : z.cfg = (s.port p).cfg) (hknown : z.rx.known = false)
    (hheard : z.rx.heard = some r) (hvalid : bit z.expect.toNat 31 = true) (hport : bits r.toNat 111 96 = bits z.expect.toNat 15 0)
    (hmod : bits r.toNat 116 112 = bits z.expect.toNat 20 16) (hid : bit z.expect.toNat 30 = true → bits r.toNat 95 32 = z.expectId.toNat)
    (hmode : bit r.toNat 117 = s.compat p) (hnative : s.compat p = false → bit r.toNat 120 = true) :
    ((s.withPort p z).hear p r).now = s.now ∧ (((s.withPort p z).hear p r).port p).state = .active ∧
      (((s.withPort p z).hear p r).port p).rx.record = r ∧ (((s.withPort p z).hear p r).port p).rx.known = true := by
  obtain ⟨y, hy⟩ : ∃ y : Port, y = { z with rx := { z.rx with record := r, heard := some r, known := true } } := ⟨_, rfl⟩
  have hagrees : (s.withPort p y).contrary p = false := by
    have hycfg : y.cfg = (s.port p).cfg := by rw [hy]; exact hcfg
    unfold State.contrary
    dsimp only
    rw [State.withPort_port y hl, State.compat_with hl hycfg, hy]
    dsimp only
    rw [hport, hmod, hmode]
    have hpeer : Port.peerId { z with rx := { z.rx with record := r, heard := some r, known := true } } = bits r.toNat 95 32 := rfl
    rw [hpeer]
    cases hc : s.compat p with
    | false =>
      rw [hnative hc]
      cases he : bit z.expect.toNat 30 with
      | false => simp
      | true => simp [hid he]
    | true =>
      cases he : bit z.expect.toNat 30 with
      | false => simp
      | true => simp [hid he]
  have hrun : (s.withPort p z).hear p r = (s.withPort p { y with state := .active }).linkReview := by
    unfold State.hear
    dsimp only
    rw [State.withPort_port z hl, hknown, if_neg Bool.false_ne_true, if_pos hheard, State.withPort_modPort, State.withPort_modPort, ← hy]
    unfold State.evaluate
    dsimp only
    rw [State.withPort_port y hl, if_neg (by rw [hy]; simp [hvalid]), hagrees, if_neg Bool.false_ne_true, State.withPort_modPort]
  obtain ⟨hframe, -, hkept⟩ := LinkKept.review (s.withPort p { y with state := .active }) false
  have hpkept := hkept p
  rw [State.withPort_port _ hl] at hpkept
  rw [hrun]
  exact ⟨by rw [hframe]; rfl, by rw [hpkept], by rw [hpkept, hy], by rw [hpkept, hy]⟩

/-- REPLAY_TIMEOUT: the oldest codeword has waited for its acknowledgement (R250). -/
theorem State.replayTimeout_runs {s : State} {p : Nat} {x : Port} {q : Sent} {r : List Sent} (hp : p < 24) (hl : p < s.ports.length) (hx : s.port p = x)
    (htrained : x.trained = true) (hbuf : x.tx.buf = q :: r) {v : State} (hv : v = s.advanceTick (q.tick + x.timeout + 1)) :
    exec (.replayTimeout p) s = .next ((v.withPort p x).startReplay p q.cw.seqOf true) := by
  have hports : v.ports = s.ports := by rw [hv]; exact State.advance_ports ..
  have hport : v.port p = x := by
    unfold State.port at hx ⊢
    rw [hports, hx]
  simp only [exec, execReplayTimeout]
  rw [if_pos ⟨hp, hx ▸ htrained⟩, hx, hbuf, ← State.withPort_self hport (hports ▸ hl), hv]

/-- Settles O36: one port's view of the state (`State.withPort`), and what each codeword makes of it. -/
theorem codewordsArrive : Obligations.CodewordsArrive := by
  unfold Obligations.CodewordsArrive
  intro s p fix seq x y hp hlen hovers hx htrained hy
  have hl : p < s.ports.length := by omega
  have hwith : ∀ z : Port, (s.withPort p z).ports.length = 24 := fun z => (length_modAt ..).trans hlen
  obtain rfl : y = x.corrected fix := hy
  have hcfg : ∀ z : Port, z.cfg = x.cfg → z.cfg = (s.port p).cfg := fun z hz => hz.trans (congrArg Port.cfg hx.symm)
  refine ⟨fun ticks hticks => ⟨fun hle => ?_, fun hgt => ?_⟩, fun vc flits h => State.dataCodeword_malformed hp hx htrained h,
    fun vc flits map c hvc h0 h10 hseq hc => ?_, fun hseq => ⟨?_, fun map => ?_, fun vc f q hvc hskip hcompat hroom husable hq => ?_⟩,
    fun ack credit xoff hseq hresend hcompat => ⟨fun n hn h0 hsent => ?_, fun n hack hseq' hn h8 h4 => ?_⟩, fun q r n hbuf hn => ?_,
    fun ack credit xoff r hseq hack hknown hheard hvalid hport hmod hid hmode hnative => ?_⟩
  · rw [State.uncorrectableCodeword_runs hp hx htrained, State.uncorrectable_eq hl hx hticks, if_neg (by omega)]
    rfl
  · refine ⟨_, State.uncorrectableCodeword_runs hp hx htrained, ?_⟩
    rw [State.uncorrectable_eq hl hx hticks, if_pos hgt]
    obtain ⟨hdown, husable, -⟩ := State.portDown_down (code := 0x0503) hp (hwith (x.misses ticks))
    exact ⟨hdown, husable⟩
  · have hout : (s.withPort p (x.corrected fix)).takeSeq p seq = (false, s.withPort p (x.corrected fix).naks) := State.takeSeq_out hl hseq
    simp only [List.mem_cons, List.not_mem_nil, or_false] at hc
    rcases hc with rfl | rfl | rfl
    · rw [State.dataCodeword_runs hp hl hx htrained fix seq hvc h0 h10 hout, if_neg Bool.false_ne_true]
      rfl
    · rw [State.poisonCodeword_runs hp hl hx htrained fix seq map hout, if_neg Bool.false_ne_true]
      rfl
    · rw [State.idleCodeword_runs hp hl hx htrained fix seq, State.checkSeq_out hl (z := x.corrected fix) hseq]
      rfl
  · rw [State.idleCodeword_runs hp hl hx htrained fix seq, ← hseq, show x.rx.eseq = (x.corrected fix).rx.eseq from rfl, State.checkSeq_in hl]
    rfl
  · have hin : (s.withPort p (x.corrected fix)).takeSeq p seq = (true, s.withPort p (x.corrected fix).accepts) := hseq ▸ State.takeSeq_in hl (x.corrected fix)
    rw [State.poisonCodeword_runs hp hl hx htrained fix seq map hin, if_pos rfl, State.withPort_modPort, ← hseq]
    rfl
  · have hgrown : q = ((x.rx.partOf vc).map fun q => { q with flits := q.flits ++ mapFlits x.rx.map [f] }).getD { vc := vc, flits := mapFlits x.rx.map [f] } := by
      rw [hq]
      cases x.rx.partOf vc <;> rfl
    rw [← hseq, State.dataCodeword_flit hp hl hx htrained hvc hskip hcompat hroom husable hgrown]
  · rw [← hseq, State.lcw_plain hp hl hx htrained, State.control_ack hl (hcfg (x.corrected fix) rfl), hcompat]
    unfold Port.controlled
    rw [if_neg Bool.false_ne_true, if_neg Bool.false_ne_true, show (x.corrected fix).tx = x.tx from rfl, LinkTx.acked_frees hresend (hn ▸ h0) (hn ▸ hsent)]
    rfl
  · have hacked : (x.corrected fix).tx.acked ack = x.tx := by
      rw [hack]
      exact LinkTx.acked_again
    have hunacked : 0 < x.tx.unacked := by
      unfold LinkTx.unacked
      rw [← hack]
      refine Nat.pos_of_ne_zero fun h => hseq' ?_
      exact sub_eq_zero.mp (BitVec.eq_of_toNat_eq h)
    rw [← hseq, State.lcw_plain hp hl hx htrained, State.control_nak hl (hcfg (x.corrected fix) rfl) credit xoff hresend (by rw [hacked, hack]) (by rw [hacked]; exact hunacked),
      hcompat, State.startReplay_with ((x.corrected fix).controlled false ack credit xoff) _ false hl n x.tx.timeouts ?starts ?late, if_neg fun h => h.elim h8 h4]
    case starts =>
      rw [hn]
      unfold Port.controlled
      rw [hacked]
    case late =>
      unfold Port.controlled
      rw [hacked]
      rfl
    unfold Port.controlled
    rw [hacked]
    rfl
  · obtain ⟨v, hv⟩ : ∃ v, v = s.advanceTick (q.tick + x.timeout + 1) := ⟨_, rfl⟩
    have hports : v.ports = s.ports := by rw [hv]; exact State.advance_ports ..
    have hvl : p < v.ports.length := hports ▸ hl
    have hwithv : ∀ z : Port, (v.withPort p z).ports.length = 24 := fun z => (length_modAt ..).trans (hports ▸ hlen)
    have hrun := State.replayTimeout_runs hp hl hx htrained hbuf hv
    rw [State.startReplay_with x _ true hvl n (x.tx.timeouts + 1) hn rfl] at hrun
    refine ⟨fun h8 h3 => ?_, fun h => ⟨_, hrun, ?_⟩⟩
    · rw [hrun, if_neg (by omega), ← hv, ← hports]
      rfl
    · rw [if_pos (by omega)]
      obtain ⟨hdown, husable, -⟩ := State.portDown_down (p := p) (code := 0x0502) hp
        (hwithv { x with replays := satInc x.replays 1, tx := { x.tx with resend := some q.cw.seqOf, start := some q.cw.seqOf, starts := n, timeouts := x.tx.timeouts + 1 } })
      exact ⟨hdown, husable⟩
  · have hacked : (x.corrected fix).tx.acked ack = x.tx := by
      rw [← hack]
      exact LinkTx.acked_again
    have hcontrol := State.control_ack hl (hcfg (x.corrected fix) rfl) ack credit xoff
    obtain ⟨hnow, hactive, hrecord, hheard'⟩ := State.hear_expected (z := (x.corrected fix).controlled (s.compat p) ack credit xoff) (r := r) hl (hcfg _ rfl) hknown hheard hvalid
      hport hmod hid hmode hnative
    exact ⟨_, hseq ▸ State.lcw_record hp hl hx htrained fix ack false credit xoff r hcontrol htrained, hnow, hactive, hrecord, hheard'⟩

end Sys2Proof.Machine

/-! SUPPORT. The credit and arrival watchdogs (R319, R320). -/

namespace Sys2Proof.Machine

theorem watchShift_ne_zero {v : BitVec 5} (h : v ≠ 0) : watchShift v.toNat ≠ 0 := by
  have hv : v.toNat ≠ 0 := fun g => h (BitVec.eq_of_toNat_eq g)
  unfold watchShift
  split <;> omega

/-! ## CREDIT_WATCHDOG (R319) -/

section Credit
variable {s : State} {k : Nat} {o : NxOp} {h : Handle}

theorem Core.creditWaits_alone {c : Core} (hops : c.nx.ops = [o]) (hsender : c.sender o.handle = some h) (hunsent : o.unsent = true) (hkind : o.kind ≠ .req)
    (hcredit : h.credit < o.charge h o.sent) : c.creditWaits = [(o, h)] := by
  have hfirst : firstSends [] [o] = [o] := by simp [firstSends, hunsent]
  unfold Core.creditWaits
  rw [hops, hfirst, List.filterMap_cons, hsender]
  simp [hkind, hcredit]

theorem Core.creditStart_alone {c : Core} (hwaits : c.creditWaits = [(o, h)]) : c.creditStart = some (max c.chan.creditFrom o.since) := by
  unfold Core.creditStart
  rw [hwaits]
  rfl

/-- What the end of a count does to its core: every operation stays, in its place. -/
theorem State.settleCredit_eq (s : State) (k : Nat) : ∃ n, ∃ f : NxOp → NxOp, (∀ x, (f x).issue = x.issue) ∧
    s.settleCredit k = s.modCore k fun c => (c.modNx fun x => { x with ops := x.ops.map f }).modChan fun y =>
      { y with creditCount := n, creditFrom := max y.creditFrom (s.now + 1) } := by
  obtain ⟨ws, hws⟩ : ∃ ws, ws = ((s.core k).creditWaits.filter fun x => decide (x.1.since ≤ s.now)).map fun x => x.1.issue := ⟨_, rfl⟩
  obtain ⟨n, hn⟩ : ∃ n : Nat, n = match (s.core k).creditStart with
    | some t => s.now + 1 - t
    | none => 0 := ⟨_, rfl⟩
  refine ⟨(s.core k).chan.creditCount + n, fun o => if ws.contains o.issue then { o with short := true } else o, fun x => ?_, ?_⟩
  · dsimp only
    split <;> rfl
  · unfold State.settleCredit
    dsimp only
    rw [← hws, State.modCore_modCore]
    refine State.modCore_congr ?_
    rw [hn]
    rfl

/-- The stream runs on after its operation when that held it. -/
def Core.freed (c : Core) (o : NxOp) (u : Nat) : Core := if o.holds then c.modStream .nx fun t => { t with ready := u } else c

theorem Core.freed_keeps (c : Core) (o : NxOp) (u : Nat) :
    (c.freed o u).nx = c.nx ∧ (c.freed o u).chan = c.chan ∧ (c.freed o u).mem = c.mem ∧ (c.freed o u).sync = c.sync := by
  unfold Core.freed
  split <;> exact ⟨rfl, rfl, rfl, rfl⟩

theorem State.finishNx_modCore_self (s : State) (k : Nat) (o : NxOp) : (s.modCore k fun c => c).finishNx k o = s.finishNx k o := by
  unfold State.finishNx
  dsimp only
  rw [State.modCore_modCore, State.core_modCore_same]

theorem State.creditWatchdog_ends {c u : Nat} (hovers : s.overs = []) (halone : NxAlone s k o) (hsender : (s.core k).sender o.handle = some h)
    (hunsent : o.unsent = true) (hkind : o.kind ≠ .req) (hbin : o.bin = none) (hcredit : h.credit < o.charge h o.sent) (hshift : (s.core k).chan.creditShift ≠ 0)
    (hc : c = max (s.core k).chan.creditFrom o.since)
    (hu : u = max s.now (c + 2 ^ watchShift (s.core k).chan.creditShift.toNat - 1 - (s.core k).chan.creditCount))
    (hends : o.owed.ends = []) (hroom : (s.core k).sync.roomFor (u + 1) o.owed = true) :
    ∃ t, exec (.creditWatchdog k) s = .next t ∧ t.now = u + 1 ∧ OtherCores k s t ∧ Recorded s t 0x0418 ∧
      (t.core k).nx.ops = [] ∧ (t.core k).chan = { (s.core k).chan with creditCount := 0, creditFrom := max (s.core k).chan.creditFrom (u + 1) } ∧
      (t.core k).mem = (s.core k).mem ∧ (t.core k).sync = ((s.core k).completed (u + 1) o.owed).sync := by
  have hops := halone.ops
  have hwaits := Core.creditWaits_alone hops hsender hunsent hkind hcredit
  have hstart := Core.creditStart_alone hwaits
  obtain ⟨v, hv⟩ : ∃ v, v = s.advance (c + 2 ^ watchShift (s.core k).chan.creditShift.toNat - 1 - (s.core k).chan.creditCount) := ⟨_, rfl⟩
  have hvcalm := State.advance_calm hovers (c + 2 ^ watchShift (s.core k).chan.creditShift.toNat - 1 - (s.core k).chan.creditCount)
  rw [← hv, ← hu] at hvcalm
  obtain ⟨n, f, hissue, hsettle⟩ := State.settleCredit_eq v k
  obtain ⟨d, hd⟩ : ∃ d, d = pack [(16, o.handle), (16, h.credit), (16, o.charge h o.sent)] := ⟨_, rfl⟩
  obtain ⟨w, hw⟩ : ∃ w, w = (v.settleCredit k).faultAt k .nx o.owed.index 0x0418 d := ⟨_, rfl⟩
  have hwkept : w = { v.settleCredit k with faults := w.faults, bar := w.bar, host := w.host } := by
    rw [hw]
    exact State.record_kept (v.settleCredit k) 0x0418 1 k (engCode .nx) (auxOf .nx o.owed.index) d
  have hwnow : w.now = u := by rw [hwkept, hsettle, hvcalm]; rfl
  have hwovers : w.overs = [] := by rw [hwkept, hsettle, hvcalm]; exact hovers
  obtain ⟨x, hx⟩ : ∃ x, x = (w.modCore k fun c => c.modChan fun y => { y with creditCount := 0 }).advance (w.now + 1) := ⟨_, rfl⟩
  have hxnow : x.now = u + 1 := by
    rw [hx, State.advance_now, State.modCore_now, hwnow]
    omega
  obtain ⟨g, hg⟩ : ∃ g : Core → Core, g = fun c => ((c.modNx fun x => { x with ops := x.ops.map f }).modChan fun y =>
      { y with creditCount := n, creditFrom := max y.creditFrom (v.now + 1) }).modChan fun y => { y with creditCount := 0 } := ⟨_, rfl⟩
  have hvnow : v.now = u := by rw [hvcalm]
  have hwcore : ∀ j, w.core j = (v.settleCredit k).core j := fun j => by rw [hw]; exact State.recordAs_core ..
  have hxk : x.core k = g (s.core k) := by
    rw [hx, State.advance_core ((State.modCore_overs ..).trans hwovers), State.core_modCore_same, hwcore, hsettle, State.core_modCore_same, hv, State.advance_core hovers, ← hv, hg]
  have hxother : ∀ j, j ≠ k → x.core j = s.core j := fun j hj => by
    rw [hx, State.advance_core ((State.modCore_overs ..).trans hwovers), State.core_modCore_other _ _ _ _ hj, hwcore, hsettle, State.core_modCore_other _ _ _ _ hj, hv, State.advance_core hovers]
  have hgops : (g (s.core k)).nx.ops = [f o] := by
    rw [hg]
    show (s.core k).nx.ops.map f = [f o]
    rw [hops]
    rfl
  obtain ⟨fnx, fchan, fmem, fsync⟩ := Core.freed_keeps (g (s.core k)) o (u + 1 + 1)
  have hfinish := State.finishNx_alone (s := x) (k := k) (f := fun c => c.freed o (u + 1 + 1)) (o := o) (o' := f o) (by rw [hxk, fnx]; exact hgops) (hissue o) hbin hends
    (by rw [hxk, fsync, hxnow, hg]; exact hroom)
  refine ⟨x.modCore k fun c => ((c.freed o (u + 1 + 1)).modNx fun n => { n with ops := [] }).completed x.now o.owed, ?_, hxnow, ?_, ?_, ?_⟩
  · rw [← hfinish]
    simp only [exec, execCreditWatchdog]
    rw [hwaits, hstart]
    dsimp only
    rw [if_neg (watchShift_ne_zero hshift), ← hc, ← hv, ← hd, ← hw, show (w.modCore k fun c => c.modChan fun y => { y with creditCount := 0 }).now = w.now from rfl, ← hx, hxnow]
    unfold Core.freed
    cases o.holds
    · exact congrArg _ (State.finishNx_modCore_self x k o).symm
    · rfl
  · intro j hj
    rw [State.core_modCore_other _ _ _ _ hj, hxother j hj]
  · refine Recorded.modCore (Recorded.of_faults (u := v.settleCredit k) (by rw [hsettle, hvcalm]; rfl) ?_)
    have hrec := State.record_recorded (v.settleCredit k) 0x0418 1 k (engCode .nx) (auxOf .nx o.owed.index) d
    have hfaults : x.faults = w.faults := by rw [hx]; exact State.advance_faults ((State.modCore_overs ..).trans hwovers) _
    unfold Recorded at hrec ⊢
    rw [hfaults, hw]
    exact hrec
  · rw [State.core_modCore_same, hxk, hxnow]
    refine ⟨rfl, ?_, ?_, ?_⟩
    · show ((g (s.core k)).freed o (u + 1 + 1)).chan = _
      rw [fchan, hg, hvnow]
      rfl
    · show ((g (s.core k)).freed o (u + 1 + 1)).mem = _
      rw [fmem, hg]
      rfl
    · show ((((g (s.core k)).freed o (u + 1 + 1)).modNx fun n => { n with ops := [] }).completed (u + 1) o.owed).sync = _
      unfold Core.completed
      dsimp only [Core.modNx]
      rw [fsync, hg]
      rfl

end Credit

/-! ## ARRIVAL_WATCHDOG (R320) -/

/-- A fault after a wait: the clock, and what a record changes. -/
theorem State.waitFault {s : State} (hovers : s.overs = []) (τ k : Nat) (e : Engine) (index code d : Nat) {y : State}
    (hy : y = (s.advanceTick τ).faultAt k e index code d) : y.now = (s.advanceTick τ).now ∧ y.cores = s.cores ∧ Recorded s y code := by
  have hkept := State.record_kept (s.advanceTick τ) code 1 k (engCode e) (auxOf e index) d
  have hrec := State.record_recorded (s.advanceTick τ) code 1 k (engCode e) (auxOf e index) d
  have hykept : y = { s.advanceTick τ with faults := y.faults, bar := y.bar, host := y.host } := by rw [hy]; exact hkept
  refine ⟨by rw [hykept], ?_, Recorded.of_faults (u := s.advanceTick τ) (State.advance_faults hovers _) (hy ▸ hrec)⟩
  rw [hykept]
  exact State.advance_cores hovers _

/-- Settles O30: a watchdog ends the wait it counts, and its operation or its stream then completes (`State.finishNx_alone`, `State.endNwait_alone`,
`State.endWait_plain`). -/
theorem channelWatchdogs : Obligations.ChannelWatchdogs := by
  unfold Obligations.ChannelWatchdogs
  intro s k hovers
  refine ⟨fun o h c u halone hsender hunsent hkind hbin hcredit hshift hc hu hends hroom =>
    State.creditWatchdog_ends hovers halone hsender hunsent hkind hbin hcredit hshift hc hu hends hroom,
    fun o τ hops hkind htick hbin hshift hends hroom => ?_, fun x τ hwait htick hshift hends hroom => ?_⟩
  · obtain ⟨y, hy⟩ : ∃ y, y = (s.advanceTick (τ + 2 ^ watchShift (s.core k).chan.arriveShift.toNat)).faultAt k .nx o.owed.index 0x0419 (pack [(16, o.handle)]) := ⟨_, rfl⟩
    obtain ⟨hnow, hcores, hrec⟩ := State.waitFault hovers _ k .nx o.owed.index 0x0419 _ hy
    have hcore : ∀ j, y.core j = s.core j := fun j => by unfold State.core; rw [hcores]
    have hfind : (s.core k).nxWait = some o := by
      unfold Core.nxWait
      rw [hops]
      simp [hkind]
    have hend := State.endNwait_alone (y := y) (by rw [hcore]; exact hops) hbin hends (by rw [hcore, hnow]; exact hroom)
    refine ⟨y.endNwait k o, ?_, ?_⟩
    · simp only [exec, execArrivalWatchdog]
      rw [if_neg (watchShift_ne_zero hshift), hfind]
      dsimp only
      rw [htick]
      dsimp only
      rw [← hy]
    · rw [hend]
      refine ⟨fun j hj => (State.core_modCore_other _ _ _ _ hj).trans (hcore j), Recorded.modCore hrec, hnow, ?_⟩
      rw [State.core_modCore_same, hcore]
      exact ⟨rfl, rfl, rfl, rfl⟩
  · obtain ⟨y, hy⟩ : ∃ y, y = (s.advanceTick (τ + 2 ^ watchShift (s.core k).chan.arriveShift.toNat)).faultAt k .sx x.index 0x0419 (pack [(16, x.handle)]) := ⟨_, rfl⟩
    obtain ⟨hnow, hcores, hrec⟩ := State.waitFault hovers _ k .sx x.index 0x0419 _ hy
    have hcore : ∀ j, y.core j = s.core j := fun j => by unfold State.core; rw [hcores]
    have hend := State.endWait_plain (s := y) (k := k) hends (by rw [hcore]; exact hroom)
    refine ⟨y.endWait k x, ?_, ?_⟩
    · simp only [exec, execArrivalWatchdog]
      rw [if_neg (watchShift_ne_zero hshift), hwait]
      dsimp only
      rw [htick]
      dsimp only
      rw [← hy]
    · rw [hend]
      refine ⟨fun j hj => (State.core_modCore_other _ _ _ _ hj).trans (hcore j), Recorded.modCore hrec, hnow, ?_⟩
      rw [State.core_modCore_same, hcore]
      exact ⟨rfl, rfl, rfl⟩

end Sys2Proof.Machine

/-! SUPPORT. PUT, TUP and RING packets that pass are placed (R303 to R305, R310). -/

namespace Sys2Proof.Machine

/-! ## Words that a write places -/

/-- What a write in the scratchpad of core k changes, as `placeAt_data` asks for it: the words where `data` says, and the write sum. -/
def WritesData (k : Nat) (c : Core) (W : State → State) (data : Nat → Option (PWord 32)) : Prop :=
  ∀ v : State, (v.core k).heads = [] → (v.core k).mem.scr = c.mem.scr → ∃ y scr, W v = v.modCore k (fun c =>
    { c with mem := { c.mem with scr := scr }, ctl := { c.ctl with twinSum := y } }) ∧ Memory.wf scr.cells = true ∧
    ∀ w, (⟨BitVec.ofNat 32 (scr.word (4 * w) 4), scr.bad w⟩ : PWord 32) = (data w).getD (c.scrWord w)

/-- The data of lines written one after another. -/
def linesData (line : Nat) (ls : List (List (PWord 32))) (w : Nat) : Option (PWord 32) :=
  if 64 * line ≤ w ∧ w < 64 * (line + ls.length) then some ((ls.getD (w / 64 - line) []).getD (w % 64) ⟨0, false⟩) else none

/-- The data of words written one after another. -/
def wordsData (a : Nat) (ws : List (PWord 32)) (w : Nat) : Option (PWord 32) :=
  if a ≤ w ∧ w < a + ws.length then some (ws.getD (w - a) ⟨0, false⟩) else none

theorem writesData_lines {k line : Nat} {c : Core} {ls : List (List (PWord 32))} (hwf : Memory.wf c.mem.scr.cells = true) (hne : ls ≠ [])
    (hclean : ∀ l ∈ ls, l.length = 64 ∧ ∀ x ∈ l, x.poison = false) : WritesData k c (fun s => s.writeLines k false line ls) (linesData line ls) := by
  intro v hheads hscr
  obtain ⟨y, scr, hrun, hscrwf, -, hword⟩ := State.writeLines_clean (s := v) (k := k) (line := line) hheads hclean (by rw [hscr]; exact hwf)
  refine ⟨y, scr, hrun.resolve_left fun h => hne h.1, hscrwf, fun w => ?_⟩
  have hsame : (v.core k).scrWord w = c.scrWord w := by rw [scrWord_eq, scrWord_eq, hscr]
  rw [hword w, linesData, hsame]
  split <;> rfl

theorem writesData_words {k a : Nat} {c : Core} {ws : List (PWord 32)} (hwf : Memory.wf c.mem.scr.cells = true) (hclean : ∀ x ∈ ws, x.poison = false) :
    WritesData k c (fun s => s.putWords k svc a ws) (wordsData a ws) := by
  intro v hheads hscr
  obtain ⟨y, hrun⟩ := State.putWords_clean (s := v) (k := k) (eng := svc) (w := a) hheads hclean
  have hvwf : Memory.wf (v.core k).mem.scr.cells = true := by rw [hscr]; exact hwf
  refine ⟨y, putScrWords (v.core k).mem.scr a ws, ?_, (scr_putScrWords hvwf).1, fun w => ?_⟩
  · show v.putWords k svc a ws = _
    rw [hrun]
    exact State.modCore_congr rfl
  · rw [scrWord_put hvwf, wordsData, ← scrWord_eq]
    have hsame : (v.core k).scrWord w = c.scrWord w := by rw [scrWord_eq, scrWord_eq, hscr]
    rw [hsame]
    split <;> rfl

/-! ## A packet that passes -/

section Placed
variable {s : State} {i k : Nat} {p : Packet} {h e : Handle} (hnext : PacketNext s i k p h)
include hnext

theorem PacketNext.arrive (write : Handle → State → State) : (s.dropItem i).arrive k p write = (s.dropItem i).placeAt k p.chan h (write h) := by
  unfold State.arrive
  rw [State.judge_dropItem, hnext.passes]

theorem PacketNext.runs {op : Nat} (hop : p.chan.op = op) {core : Nat → Packet → State → State} {hub : Packet → State → State} :
    s.arriveOp i op core hub = (core k p (s.dropItem i)).noteSink p :=
  arriveOp_core hnext.item hnext.since hnext.group hnext.attached hnext.takes hop

/-- A data packet that passes, with the words its write places. -/
theorem PacketNext.placed (hop : p.chan.op = opPut ∨ p.chan.op = opTup ∨ p.chan.op = opRing) (hstock : h.stock = false) (he : e = h.took s p.chan)
    (hcode : (s.core k).writeCode false (h.base + (p.chan.extent h).1) (p.chan.extent h).2 = none) {W : State → State} {data : Nat → Option (PWord 32)}
    (hctl : ∀ w, w = 64 * h.ctrl ∨ w = 64 * h.ctrl + 1 → data w = none) (hW : WritesData k (s.core k) W data) :
    PacketEnds s (((s.dropItem i).placeAt k p.chan h W).noteSink p) i k p ∧
      (∀ j, ((((s.dropItem i).placeAt k p.chan h W).noteSink p).core k).handle j = if j = p.chan.tidx then e else (s.core k).handle j) ∧
      tookWord (s.core k) ((((s.dropItem i).placeAt k p.chan h W).noteSink p).core k) p.chan e data := by
  obtain ⟨hhandle, hopen, hfits⟩ := judge_pass hnext.passes
  obtain ⟨t, ht, honly, hnow, hhandles, htook⟩ := placeAt_data (s := s.dropItem i) (k := k) (c := p.chan) (h := h) (e := e) (W := W) (data := data)
    hnext.reads hhandle hopen (opFits_data hfits hop) hstock he hcode hctl hW
  rw [ht, State.noteSink_core]
  exact ⟨PacketEnds.of honly hnow rfl, hhandles, htook⟩

end Placed

theorem Packet.linesOf_length (p : Packet) : p.linesOf.length = p.chan.n + 1 := by
  simp [Packet.linesOf]

/-- Words outside a run of lines are not among the words that go there. -/
theorem linesData_none {line : Nat} {ls : List (List (PWord 32))} {ctrl : Nat} (h : ctrl < line ∨ line + ls.length ≤ ctrl) :
    ∀ w, w = 64 * ctrl ∨ w = 64 * ctrl + 1 → linesData line ls w = none := by
  intro w hw
  unfold linesData
  rw [if_neg (by omega)]

/-! ## PUT (R303) -/

theorem ChanHdr.extent_put {c : ChanHdr} {h : Handle} (hop : c.op = opPut) : c.extent h = (c.off, c.n + 1) := by
  unfold ChanHdr.extent
  rw [hop]
  rfl

/-! ## TUP (R185, R303) -/

theorem ChanHdr.extent_tup {c : ChanHdr} {h : Handle} (hop : c.op = opTup) (hline : c.off % 32 + c.n < 32) : c.extent h = (c.off / 32, 1) := by
  unfold ChanHdr.extent
  rw [if_pos hop, show (c.off + c.n) / 32 = c.off / 32 by omega, Nat.sub_self]

theorem halves_length (x : PWord 64) : (halves x).length = 2 := rfl

theorem Packet.tuple_length (p : Packet) : p.tuple.length = 2 * (p.chan.n + 1) := by
  unfold Packet.tuple
  rw [List.length_flatMap]
  have hpair : ∀ j, (if p.chan.ponly then [(⟨0, true⟩ : PWord 32), ⟨0, true⟩] else p.pairAt j).length = 2 := by
    intro j
    split
    · rfl
    · exact halves_length _
  simp only [hpair, List.map_const', List.sum_replicate, List.length_range, smul_eq_mul]
  omega

/-- A tuple within one line is one write. -/
theorem State.writeTuple_one {k : Nat} {p : Packet} {h : Handle} (hstock : h.stock = false) (hline : p.chan.off % 32 + p.chan.n < 32) (s : State) :
    (s.writePart k h.stock (32 * h.base + p.chan.off) (p.tuple.take (2 * (32 - p.chan.off % 32)))).writePart k h.stock
      (32 * h.base + p.chan.off + (32 - p.chan.off % 32)) (p.tuple.drop (2 * (32 - p.chan.off % 32))) =
    s.putWords k svc (64 * h.base + 2 * p.chan.off) p.tuple := by
  have hlen := p.tuple_length
  rw [List.take_of_length_le (by omega), List.drop_of_length_le (by omega)]
  have hne : p.tuple.isEmpty = false := List.isEmpty_eq_false_iff.mpr (List.ne_nil_of_length_pos (by omega))
  unfold State.writePart
  rw [if_pos List.isEmpty_nil, hne, if_neg Bool.false_ne_true, hstock, if_neg Bool.false_ne_true, show 2 * (32 * h.base + p.chan.off) = 64 * h.base + 2 * p.chan.off by omega]

/-! ## RING (R308 to R310) -/

theorem ChanHdr.extent_ring {c : ChanHdr} {h : Handle} (hop : c.op = opRing) (hshared : h.sharedRing = false) : c.extent h = (c.off, c.n + 1) := by
  unfold ChanHdr.extent
  rw [hop, hshared]
  rfl

/-- The lines of a message of a ring with one sender slot: its record word stands before the rest of its first line. -/
def Packet.ringLines (p : Packet) (h : Handle) : List (List (PWord 32)) :=
  (recordWord p.chan.mseq p.chan.n 0 p.chan.slot (p.chan.charge h) (h.count + 1) ++ (p.lineOf 0).drop 2) :: p.linesOf.drop 1

theorem Packet.linesOf_cons (p : Packet) : p.linesOf = p.lineOf 0 :: p.linesOf.drop 1 := by
  unfold Packet.linesOf
  rw [List.range_succ_eq_map]
  rfl

theorem Packet.ringLines_length (p : Packet) (h : Handle) : (p.ringLines h).length = p.chan.n + 1 := by
  unfold Packet.ringLines
  rw [List.length_cons, List.length_drop, p.linesOf_length]
  omega

theorem Packet.ringLines_clean {p : Packet} {h : Handle} (hclean : ∀ l ∈ p.linesOf, l.length = 64 ∧ ∀ x ∈ l, x.poison = false) :
    ∀ l ∈ p.ringLines h, l.length = 64 ∧ ∀ x ∈ l, x.poison = false := by
  rw [p.linesOf_cons] at hclean
  obtain ⟨hlen, hwords⟩ := hclean _ (List.mem_cons_self ..)
  intro l hl
  rcases List.mem_cons.mp hl with rfl | hl
  · refine ⟨by simp [recordWord, hlen], fun x hx => ?_⟩
    rcases List.mem_append.mp hx with hx | hx
    · simp only [recordWord, List.mem_cons, List.not_mem_nil, or_false] at hx
      rcases hx with rfl | rfl <;> rfl
    · exact hwords x (List.mem_of_mem_drop hx)
  · exact hclean l (List.mem_cons_of_mem _ hl)

/-- Word w of the lines of a message: a word of the record, or of the packet's own lines. -/
theorem linesData_ring {p : Packet} {h : Handle} (w : Nat) : linesData (h.base + p.chan.off) (p.ringLines h) w =
    if 64 * (h.base + p.chan.off) ≤ w ∧ w < 64 * (h.base + p.chan.off + (p.chan.n + 1))
    then some (if w < 64 * (h.base + p.chan.off) + 2
      then (recordWord p.chan.mseq p.chan.n 0 p.chan.slot (p.chan.charge h) (h.count + 1)).getD (w - 64 * (h.base + p.chan.off)) ⟨0, false⟩
      else (p.linesOf.getD (w / 64 - (h.base + p.chan.off)) []).getD (w % 64) ⟨0, false⟩) else none := by
  unfold linesData
  rw [p.ringLines_length]
  by_cases hin : 64 * (h.base + p.chan.off) ≤ w ∧ w < 64 * (h.base + p.chan.off + (p.chan.n + 1))
  · rw [if_pos hin, if_pos hin]
    congr 1
    obtain ⟨j, hj⟩ : ∃ j, j = w / 64 - (h.base + p.chan.off) := ⟨_, rfl⟩
    rw [← hj, p.linesOf_cons]
    unfold Packet.ringLines
    cases j with
    | zero =>
      rw [List.getD_cons_zero, List.getD_cons_zero]
      by_cases hrec : w < 64 * (h.base + p.chan.off) + 2
      · rw [if_pos hrec, List.getD_append _ _ _ _ (by simp [recordWord]; omega), show w % 64 = w - 64 * (h.base + p.chan.off) by omega]
      · rw [if_neg hrec, List.getD_append_right _ _ _ _ (by simp [recordWord]; omega), List.getD_eq_getElem?_getD, List.getElem?_drop, List.getD_eq_getElem?_getD]
        congr 2
        simp only [recordWord, List.length_cons, List.length_nil]
        omega
    | succ j =>
      rw [if_neg (by omega), List.getD_cons_succ, List.getD_cons_succ]
  · rw [if_neg hin, if_neg hin]

/-- Settles O31: each packet that passes is placed by `placeAt_data`, with the words that its own write places. -/
theorem dataArrives : Obligations.DataArrives := by
  unfold Obligations.DataArrives
  intro s i k p h e hnext hstock he hcode hctrl
  refine ⟨fun hop hacc hclean => ?_, fun hop hclean hline => ?_, fun hop hshared hskip hclean => ?_⟩
  · have hext := ChanHdr.extent_put (h := h) hop
    have hlen := p.linesOf_length
    have hrun : exec (.put i) s =
        .next (((s.dropItem i).placeAt k p.chan h fun s => s.writeLines k false (h.base + p.chan.off) p.linesOf).noteSink p) := by
      simp only [exec, execPut]
      rw [hnext.runs hop]
      unfold State.corePut
      rw [hnext.arrive]
      simp only [hacc, hstock, Bool.false_eq_true, if_false]
    obtain ⟨hends, hhandles, htook⟩ := hnext.placed (.inl hop) hstock he hcode
      (linesData_none (line := h.base + p.chan.off) (ls := p.linesOf) (by rw [hext] at hctrl; rw [hlen]; exact hctrl))
      (writesData_lines hnext.cells (List.ne_nil_of_length_pos (by omega)) hclean)
    refine ⟨_, hrun, hends, hhandles, ?_⟩
    unfold linesData at htook
    rw [hlen] at htook
    exact htook
  · have hext := ChanHdr.extent_tup (h := h) hop hline
    have hlen := p.tuple_length
    have hrun : exec (.tup i) s =
        .next (((s.dropItem i).placeAt k p.chan h fun s => s.putWords k svc (64 * h.base + 2 * p.chan.off) p.tuple).noteSink p) := by
      simp only [exec, execTup]
      rw [hnext.runs hop]
      unfold State.coreTup
      rw [hnext.arrive]
      simp only [State.writeTuple_one hstock hline]
    obtain ⟨hends, hhandles, htook⟩ := hnext.placed (.inr (.inl hop)) hstock he hcode
      (data := wordsData (64 * h.base + 2 * p.chan.off) p.tuple)
      (fun w hw => by rw [hext] at hctrl; dsimp only at hctrl; unfold wordsData; rw [if_neg (by omega)])
      (writesData_words hnext.cells hclean)
    refine ⟨_, hrun, hends, hhandles, ?_⟩
    unfold wordsData at htook
    rw [hlen] at htook
    exact htook
  · have hext := ChanHdr.extent_ring hop hshared
    have hlen := p.ringLines_length h
    have hrun : exec (.ring i) s =
        .next (((s.dropItem i).placeAt k p.chan h fun s => s.writeLines k false (h.base + p.chan.off) (p.ringLines h)).noteSink p) := by
      simp only [exec, execRing]
      rw [hnext.runs hop]
      unfold State.coreRing
      rw [hnext.arrive]
      simp only [hshared, hskip, Packet.ringLines, Bool.false_eq_true, if_false, if_true]
    obtain ⟨hends, hhandles, htook⟩ := hnext.placed (.inr (.inr hop)) hstock he hcode
      (linesData_none (line := h.base + p.chan.off) (ls := p.ringLines h) (by rw [hext] at hctrl; rw [hlen]; exact hctrl))
      (writesData_lines hnext.cells (List.ne_nil_of_length_pos (by omega)) (Packet.ringLines_clean hclean))
    refine ⟨_, hrun, hends, hhandles, ?_⟩
    rw [funext (linesData_ring (p := p) (h := h))] at htook
    exact htook

end Sys2Proof.Machine

/-! SUPPORT. Grants, yields and the end of a close (R305, R307, R314, R317). -/

namespace Sys2Proof.Machine

theorem Core.creditWaits_idle {c : Core} (hops : c.nx.ops = []) : c.creditWaits = [] := by
  unfold Core.creditWaits
  rw [hops]
  rfl

/-- A grant that stays under the ceiling, at a core that has no packet to send: the wait for credit begins anew. -/
theorem State.coreGrant_room {s : State} {i k : Nat} {p : Packet} {h : Handle} (hnext : PacketNext s i k p h) (hops : (s.core k).nx.ops = [])
    (hroom : h.credit + p.chan.off ≤ h.ceiling) : (s.dropItem i).coreGrant k p = (s.dropItem i).modCore k fun c =>
      (c.setHandle p.chan.tidx { h with credit := h.credit + p.chan.off }).modChan fun y => { y with creditFrom := max y.creditFrom (s.now + 1) } := by
  obtain ⟨hhandle, -, -⟩ := judge_pass hnext.passes
  unfold State.coreGrant
  rw [State.judge_dropItem, hnext.passes]
  dsimp only
  rw [if_neg (by omega), State.settleCredit_none (s := s.dropItem i) (Core.creditWaits_idle hops)]
  unfold State.modHandle
  rw [State.modCore_modCore, State.startReads_none (by rw [State.core_modCore_same]; exact hops)]
  refine State.modCore_congr ?_
  rw [Nat.min_eq_left hroom, ← hhandle]
  rfl

/-- What a core sends after a change of its own. -/
theorem State.sendFrom_modCore (s : State) (k : Nat) (f : Core → Core) (q : Packet) : (s.modCore k f).sendFrom k q =
    { s with mesh := { s.mesh with items := s.mesh.items ++ [{ pkt := q, src := .core k }] }, bar := (s.noteInj q).bar
             cores := (s.modCore k f).cores } := by
  have hbar : ((s.modCore k f).noteInj q).bar = (s.noteInj q).bar := by
    unfold State.noteInj
    split <;> rfl
  unfold State.sendFrom
  rw [State.inject_eq, hbar]
  rfl

/-- Settles O33: each command is the change of its core, and a packet that ends or leaves. -/
theorem creditMoves : Obligations.CreditMoves := by
  unfold Obligations.CreditMoves
  intro s i k p
  refine ⟨fun h hnext hop hops hroom => ?_, fun h hnext hop => ?_, fun y q hy hq => ?_, fun hclosing hsettled => ?_⟩
  · have hrun : exec (.grant i) s = .next (((s.dropItem i).coreGrant k p).noteSink p) := by
      simp only [exec, execGrant]
      rw [hnext.runs hop]
    rw [State.coreGrant_room hnext hops hroom] at hrun
    refine ⟨_, hrun, PacketEnds.of (OnlyCore.modCore ..) rfl rfl, ?_⟩
    rw [State.noteSink_core, State.core_modCore_same]
    rfl
  · have hrun : exec (.yield i) s = .next (((s.dropItem i).coreYield k p).noteSink p) := by
      simp only [exec, execYield]
      rw [hnext.runs hop]
    obtain ⟨hhandle, -, -⟩ := judge_pass hnext.passes
    have hyield : (s.dropItem i).coreYield k p = (s.dropItem i).modHandle k p.chan.tidx fun e =>
        { e with slots := modAt e.slots p.chan.slot fun x => { x with yielded := x.yielded + p.chan.off } } := by
      unfold State.coreYield
      rw [State.judge_dropItem, hnext.passes]
    rw [hyield] at hrun
    refine ⟨_, hrun, PacketEnds.of (OnlyCore.modCore ..) rfl rfl, ?_⟩
    rw [State.noteSink_core]
    unfold State.modHandle
    rw [State.core_modCore_same, ← hhandle]
    rfl
  · have hrun : exec (.yieldSend k i) s =
        .next ((s.modCore k fun c => c.modChan fun x => { x with yields := x.yields.erase y }).sendFrom k q) := by
      simp only [exec, execYieldSend]
      rw [hy, hq]
      rfl
    rw [State.sendFrom_modCore] at hrun
    exact ⟨_, hrun, fun j hj => State.core_modCore_other s k j (fun c => c.modChan fun x => { x with yields := x.yields.erase y }) hj, rfl,
      State.core_modCore_same s k fun c => c.modChan fun x => { x with yields := x.yields.erase y }⟩
  · have hrun : exec (.closeDrainComplete k i) s = .next (s.modHandle k i fun e => (e.touch s.now).shut false) := by
      simp only [exec, execCloseDrainComplete]
      rw [hclosing, hsettled]
      rfl
    refine ⟨_, hrun, rfl, OnlyCore.modCore .., ?_⟩
    unfold State.modHandle
    rw [State.core_modCore_same]
    have hgen : (((s.core k).handle i).touch s.now).gen = ((s.core k).handle i).gen := by rw [Handle.touch_eq]
    unfold Handle.shut
    dsimp only
    rw [hgen]
    rfl

end Sys2Proof.Machine

/-! SUPPORT. Remote reads and their replies (R311, R312). -/

namespace Sys2Proof.Machine

/-- The write of a status word, in a core whose scratchpad holds `scr`. -/
def Core.posted (c : Core) (i : Nat) (e : Handle) (ctrl : Nat) : Core :=
  (c.setHandle i e).modMem fun x => { x with scr := putScrWords x.scr (64 * ctrl) e.statusWords }

theorem Core.handle_posted (c : Core) (i : Nat) (e : Handle) (ctrl j : Nat) : (c.posted i e ctrl).handle j = if j = i then e else c.handle j :=
  Core.handle_setHandle c i j e

theorem State.noteSink_mesh (s : State) (p : Packet) : (s.noteSink p).mesh = s.mesh := by
  unfold State.noteSink
  split <;> rfl

/-! ## REQ (R311) -/

section Request
variable {s : State} {i k : Nat} {p : Packet} {h : Handle} {ls : List (List (PWord 32))}

/-- A request that passes and whose lines are held without a flaw. -/
theorem State.coreReq_clean (hnext : PacketNext s i k p h) (hstock : h.stock = false) (hkind : kindStatus h.kind = true) (hopen : h.state ≠ .closed)
    (hcode : (s.core k).readCode false (h.base + p.chan.off) (p.chan.n + 1) = none)
    (hzero : ∀ j, j ≤ p.chan.n → (s.core k).readsZero false (h.base + p.chan.off + j) = false)
    (hflaw : ∀ w, w < 64 * (p.chan.n + 1) → (s.core k).mem.scr.flaw (64 * (h.base + p.chan.off) + w) = none)
    (hls : ls = (List.range (p.chan.n + 1)).map (fun j => (List.range 64).map fun x => (s.core k).scrWord (64 * (h.base + p.chan.off + j) + x))) :
    (s.dropItem i).coreReq k p = ((s.dropItem i).reply k p false (ls.flatMap linePayload)).modCore k fun c =>
      c.posted p.chan.tidx { h.touch s.now with count := h.count + 1, seq := s.seqOf h p.chan.mseq } h.ctrl := by
  obtain ⟨hhandle, -, -⟩ := judge_pass hnext.passes
  have hread : (s.dropItem i).readLines k svc (h.base + p.chan.off) (p.chan.n + 1) = (ls, s.dropItem i) := by
    rw [hls]
    exact State.readLines_clean (fun j hj => hzero j (by omega)) hflaw
  have hcode' : ((s.dropItem i).core k).readCode false (h.base + p.chan.off) (p.chan.n + 1) = none := hcode
  unfold State.coreReq
  rw [State.judge_dropItem, hnext.passes]
  dsimp only
  rw [hstock, hcode']
  simp only [Bool.false_eq_true, if_false, hread]
  obtain ⟨v, hv⟩ : ∃ v, v = (s.dropItem i).reply k p false (ls.flatMap linePayload) := ⟨_, rfl⟩
  have hkept : v.now = s.now ∧ v.core k = s.core k ∧ v.strict = s.strict := by
    rw [hv]
    unfold State.reply State.sendFrom
    rw [State.inject_eq]
    exact ⟨rfl, rfl, rfl⟩
  obtain ⟨hnow, hcore, hstrict⟩ := hkept
  have hseq : v.seqOf h p.chan.mseq = s.seqOf h p.chan.mseq := by
    unfold State.seqOf
    rw [hstrict]
  rw [← hv, State.postStatus_plain (h := h) (by rw [hcore]; exact hnext.reads) (by rw [hcore]; exact hhandle) hopen hkind, hnow, hseq]
  rfl

end Request

/-! ## RPL (R312) -/

/-- A core after the lines of a reply were written and its reservation given back. -/
def Core.tookReply (c : Core) (r : Reply) (n : Nat) (scr : Store) (y : Word64) : Core :=
  (({ c with mem := { c.mem with scr := scr }, ctl := { c.ctl with twinSum := y } } : Core).raiseHigh false r.dline n).modChan fun x =>
    { x with replies := x.replies.erase r }

section Reply
variable {s : State} {i k : Nat} {p : Packet} {r : Reply} {o : NxOp} {h : Handle} {ls : List (List (PWord 32))}

theorem State.reqStatus_alive {v m : Nat} (hheads : (s.core k).heads = []) (hh : (s.core k).handle (v % 4096) = h) (hopen : h.state ≠ .closed)
    (hgen : h.gen = v / 4096 % 16) (hkind : kindStatus h.kind = true) : s.reqStatus k v (some m) 0 = s.modCore k fun c =>
      c.posted (v % 4096) { h.touch s.now with count := h.count + 1, seq := s.seqOf h m } h.ctrl := by
  have halive : (s.core k).alive v = true := by
    unfold Core.alive hIndex hGen
    dsimp only
    rw [hh]
    simp [hopen, hgen]
  unfold State.reqStatus hIndex
  rw [if_pos halive, State.postStatus_plain hheads hh hopen hkind]
  rfl

/-- The last reply of the one NREQ of its core. -/
theorem State.coreRpl_last (hheads : (s.core k).heads = []) (hwf : Memory.wf (s.core k).mem.scr.cells = true) (herr : p.chan.err = false)
    (hreply : (s.core k).replyFor p.chan = some r) (hops : (s.core k).nx.ops = [o]) (hkind : o.kind = .req) (hissue : o.issue = r.op)
    (hleft : o.left = 1) (hsent : o.sent = o.packets) (hbin : o.bin = none) (hslot : o.slot = none) (hends : o.owed.ends = [])
    (hroom : (s.core k).sync.roomFor s.now o.owed = true) (hh : (s.core k).handle (r.handle % 4096) = h) (hopen : h.state ≠ .closed)
    (hgen : h.gen = r.handle / 4096 % 16) (hstatus : kindStatus h.kind = true)
    (hcode : (s.core k).writeCode false r.dline (p.chan.n + 1) = none)
    (hls : ls = (List.range (p.chan.n + 1)).map (fun j => p.lineAt j)) (hclean : ∀ l ∈ ls, l.length = 64 ∧ ∀ x ∈ l, x.poison = false) :
    ∃ scr y, s.coreRpl k p = s.modCore k (fun c =>
        (((c.tookReply r (p.chan.n + 1) scr y).posted (r.handle % 4096)
          { h.touch s.now with count := h.count + 1, seq := s.seqOf h o.mseq.toNat } h.ctrl).modNx fun n => { n with ops := [] }).completed s.now o.owed) ∧
      Memory.wf scr.cells = true ∧
      ∀ w, (⟨BitVec.ofNat 32 (scr.word (4 * w) 4), scr.bad w⟩ : PWord 32) = if 64 * r.dline ≤ w ∧ w < 64 * (r.dline + (p.chan.n + 1))
        then (ls.getD (w / 64 - r.dline) []).getD (w % 64) ⟨0, false⟩ else (s.core k).scrWord w := by
  have hlen : ls.length = p.chan.n + 1 := by rw [hls]; simp
  obtain ⟨y, scr, hwrite, hscrwf, -, hword⟩ := State.writeLines_clean (s := s) (k := k) (line := r.dline) hheads hclean hwf
  have hwrite := hwrite.resolve_left fun hnil => by rw [hnil.1] at hlen; exact absurd hlen (by simp)
  rw [hlen] at hword
  refine ⟨scr, y, ?_, hscrwf, hword⟩
  have hop : (s.core k).reqOf r = some o := by
    unfold Core.reqOf
    rw [hops]
    simp [hkind, hissue]
  have hlines : p.replyLines (p.chan.n + 1) = ls := by
    unfold Packet.replyLines
    rw [hls, herr]
    rfl
  have hdst : s.replySlot k o = (none, s) := by
    unfold State.replySlot
    rw [hbin, hslot]
  have htook : (s.writeReply k r p (some o) none).modCore k (fun x => x.modChan fun y => { y with replies := y.replies.erase r }) =
      s.modCore k fun c => c.tookReply r (p.chan.n + 1) scr y := by
    unfold State.writeReply
    dsimp only
    rw [hcode, hlines]
    dsimp only
    rw [hwrite, State.modCore_modCore, State.modCore_modCore]
    rfl
  unfold State.coreRpl
  dsimp only
  rw [hreply]
  dsimp only
  rw [hop]
  dsimp only
  rw [hdst]
  dsimp only
  have hdone : o.left - 1 = 0 ∧ o.sent = ({ o with left := o.left - 1, slot := none } : NxOp).packets := ⟨by rw [hleft], hsent⟩
  rw [htook, herr, if_neg Bool.false_ne_true]
  refine (if_pos hdone).trans ?_
  rw [State.reqStatus_alive (h := h) (by rw [State.core_modCore_same]; exact hheads) (by rw [State.core_modCore_same]; exact hh) hopen hgen hstatus,
    State.modCore_modCore]
  exact State.finishNx_alone (o' := o) hops rfl hbin hends hroom

end Reply

/-- Settles O32: a request that passes is one read and one reply, and the last reply one write and one completion. -/
theorem readsReturn : Obligations.ReadsReturn := by
  unfold Obligations.ReadsReturn
  intro s i k p
  refine ⟨fun h ls e hnext hop hstock hkind hopen hcode hzero hflaw hls he => ?_, fun r ls o h e hgroup hattached htakes hdue hheads hwf hop herr hitem hreply hops
    hkind hissue hleft hsent hbin hslot hends hroom hh hopen hgen hstatus he hcode hctrl hls hclean => ?_⟩
  · have hrun : exec (.req i) s = .next (((s.dropItem i).coreReq k p).noteSink p) := by
      simp only [exec, execReq]
      rw [hnext.runs hop]
    rw [State.coreReq_clean hnext hstock hkind hopen hcode hzero hflaw hls, ← he] at hrun
    obtain ⟨hhandle, -, -⟩ := judge_pass hnext.passes
    have hec : e.ctrl = h.ctrl := by rw [he]; exact h.touch_ctrl s.now
    unfold State.reply State.sendFrom at hrun
    rw [State.inject_eq] at hrun
    refine ⟨_, _, hrun, fun j hj => ?_, ?_, rfl, fun j => ?_, ?_⟩
    · rw [State.noteSink_core, State.core_modCore_other _ _ _ _ hj]
      rfl
    · rw [State.noteSink_mesh]
      rfl
    · rw [State.noteSink_core, State.core_modCore_same, Core.handle_posted]
      rfl
    · rw [State.noteSink_core, State.core_modCore_same]
      exact tookWord_status (scr := (s.core k).mem.scr) hnext.cells (by rw [hec]; rfl) rfl (fun _ _ => rfl) fun w => scrWord_eq (s.core k) w
  · have hrun : exec (.rpl i) s = .next (((s.dropItem i).coreRpl k p).noteSink p) := by
      simp only [exec, execRpl]
      rw [arriveOp_core hitem hdue hgroup hattached htakes hop]
    obtain ⟨scr, y, hlast, hscrwf, hword⟩ := State.coreRpl_last (s := s.dropItem i) hheads hwf herr hreply hops hkind hissue hleft hsent hbin hslot hends hroom hh hopen
      hgen hstatus hcode hls hclean
    rw [hlast] at hrun
    have hec : e.ctrl = h.ctrl := by rw [he]; exact h.touch_ctrl s.now
    refine ⟨_, hrun, PacketEnds.of (OnlyCore.modCore ..) rfl rfl, ?_⟩
    rw [State.noteSink_core, State.core_modCore_same]
    refine ⟨fun j => ?_, rfl, rfl, rfl, ?_⟩
    · rw [he]
      exact Core.handle_posted _ _ _ h.ctrl j
    · refine tookWord_status (scr := scr) hscrwf (by rw [hec, he]; rfl) rfl (fun w hw => ?_) fun w => ?_
      · rw [hec] at hw
        exact if_neg (by omega)
      · rw [hword w]
        split <;> rfl

end Sys2Proof.Machine

/-! SUPPORT. The launch of a wave and its watchdogs (R325, R327 to R329, R342). -/

namespace Sys2Proof.Machine

/-- A core whose scrubbed sum of the pass was taken over (R400). -/
def Core.sumTaken (c : Core) : Core := c.modCtl fun r => { r with twinLast := r.twinSum }

/-- With no stream of Finfin running, the end of the pass leaves the module in PARTING with its sums taken over. -/
def State.parted (s : State) : State :=
  (s.stopStreams.eachAttached fun s k => s.modCore k Core.sumTaken).modBar fun b =>
    { b with phase := .parting, finishTick := s.tick, partWaves := 0, firstDone := none, contributed := false, waitTwin := false }

theorem State.stopStreams_kept {s : State} (hruns : s.fin.runs = []) :
    s.stopStreams = { s with fin := s.stopStreams.fin } ∧ s.stopStreams.fin.activate = s.fin.activate ∧ s.stopStreams.fin.slots = s.fin.slots := by
  rw [State.stopStreams_none hruns]
  exact ⟨rfl, rfl, rfl⟩

theorem State.parted_kept {s : State} (hruns : s.fin.runs = []) : s.parted = { s with
    fin := s.stopStreams.fin, cores := s.parted.cores
    bar := { s.bar with phase := .parting, finishTick := s.tick, partWaves := 0, firstDone := none, contributed := false, waitTwin := false } } := by
  obtain ⟨hstop, -, -⟩ := State.stopStreams_kept hruns
  have hfold : s.stopStreams.eachAttached (fun s k => s.modCore k Core.sumTaken) =
      { s.stopStreams with cores := (s.stopStreams.eachAttached fun s k => s.modCore k Core.sumTaken).cores } := State.foldl_modCore_eq _ _
  unfold State.parted
  rw [hfold, hstop]
  rfl

theorem State.parted_core {s : State} (hruns : s.fin.runs = []) (k : Nat) :
    s.parted.core k = if k ∈ s.attachedCores then (s.core k).sumTaken else s.core k := by
  obtain ⟨hstop, -, -⟩ := State.stopStreams_kept hruns
  have heach := State.eachAttached_core (f := Core.sumTaken) (fun _ => rfl) s.stopStreams k
  refine Eq.trans heach ?_
  rw [hstop]
  rfl

theorem execModuleFinished_alone {s : State} (hfin : s.finished = true) (htwin : s.twinOn = false) (hruns : s.fin.runs = []) :
    execModuleFinished s = .next (s.parted.launchWave 1) := by
  obtain ⟨hstop, -, -⟩ := State.stopStreams_kept hruns
  obtain ⟨z, hz⟩ : ∃ z, z = s.stopStreams.eachAttached fun s k => s.modCore k Core.sumTaken := ⟨_, rfl⟩
  have hfold : z = { s.stopStreams with cores := z.cores } := by
    rw [hz]
    exact State.foldl_modCore_eq _ _
  have hztick : z.tick = s.tick := by
    rw [hfold, hstop]
    rfl
  have hztwin : z.twinOn = false := by
    rw [hfold, hstop]
    exact htwin
  have hparted : s.parted = z.modBar fun b =>
      { b with phase := .parting, finishTick := z.tick, partWaves := 0, firstDone := none, contributed := false, waitTwin := z.twinOn } := by
    rw [hztwin, hztick, hz]
    rfl
  unfold execModuleFinished
  rw [hfin, if_neg (by simp), hparted, hz]
  congr 1
  exact if_pos (congrArg (! ·) (hz ▸ hztwin))

/-- Settles O38: the launch of a bench's wave, and one record for each watchdog. The drain watchdog goes on in LOST with a PART wave pending,
which is the model's reading (log 28). -/
theorem wavesLaunch : Obligations.WavesLaunch := by
  unfold Obligations.WavesLaunch
  intro s hovers
  refine ⟨fun hfin htwin hruns hgot hslots => ?_, fun u sh hsh hdone hphase hshift hdrain => ?_, fun sh hsh hgoing hphase hshift => ?_⟩
  · obtain ⟨-, hactivate, hslotsFin⟩ := State.stopStreams_kept hruns
    have hkept := State.parted_kept hruns
    have hcore := State.parted_core hruns
    obtain ⟨v, hv⟩ : ∃ v, v = s.parted := ⟨_, rfl⟩
    rw [← hv] at hkept hcore
    have hlaunch := State.launch_bench (s := v) (kind := 1) (by rw [hkept]; exact hslots) (by rw [hkept]; simp [hgot])
    have hrun : exec .moduleFinished s = .next (v.launch 1) := by
      rw [hv, ← State.waves_open 4 (s := s.parted.launch 1) (by rw [← hv, hlaunch]; exact .inl (Nat.zero_lt_succ 3))]
      exact execModuleFinished_alone hfin htwin hruns
    rw [hlaunch] at hrun
    refine ⟨_, hrun, ?_, hcore, ?_, ?_⟩
    · rw [hkept]
    · rw [hkept]
      unfold State.contribution
      dsimp only
      rw [hactivate, hslotsFin, hgot]
      rfl
    · rw [hkept]
      rfl
  · obtain ⟨v, hv⟩ : ∃ v, v = s.advanceTick (u + 2 ^ sh) := ⟨_, rfl⟩
    obtain ⟨hkept, hrec⟩ := State.recordNow_spec v 0x0260 v.barDetail
    have hundecided : s.bar.undecided = true := by
      unfold Barrier.undecided
      rcases hphase with h | ⟨h, hkind⟩
      · simp [h]
      · simp [h, hkind]
    have hrun : exec .drainWatchdog s = .next ((v.recordNow 0x0260 v.barDetail).modBar fun b => { b with drainx := true }) := by
      simp only [exec, execDrainWatchdog]
      rw [hdone]
      dsimp only
      rw [← hsh, hundecided, hdrain, if_pos (by simp [hshift]), hv]
    refine ⟨_, hrun, ?_, ?_, ?_, ?_⟩
    · rw [hkept, hv]
      rfl
    · rw [hkept, hv]
      exact State.advance_cores hovers _
    · rw [hkept, hv]
      show ({ (s.advanceTick _).bar with drainx := true } : Barrier) = _
      rw [State.advanceTick, State.advance_bar hovers]
    · exact Recorded.of_faults (u := v) (by rw [hv]; exact State.advance_faults hovers _) hrec
  · obtain ⟨v, hv⟩ : ∃ v, v = s.advanceTick (s.bar.launchTick + 2 ^ sh) := ⟨_, rfl⟩
    have hkept := State.record_kept v 0x0261 5 0 0 0 v.barDetail
    have hbar := (BarKept.hubFault v 0x0261 v.barDetail).2
    have hvbar : v.bar = s.bar := by rw [hv, State.advanceTick, State.advance_bar hovers]
    have hrun : exec .lostWatchdog s = .next ((v.hubFault 0x0261 v.barDetail).modBar fun b => { b with phase := .lost }).phaseEvent := by
      simp only [exec, execLostWatchdog]
      rw [← hsh, hgoing, if_pos (by simp [hshift, hphase]), hv]
    unfold State.phaseEvent State.event at hrun
    rw [State.notify_eq] at hrun
    refine ⟨_, hrun, ?_, ?_, rfl, ?_, ?_, ?_⟩
    · exact (State.recordAs_now ..).trans (by rw [hv])
    · exact (State.record_cores ..).trans (by rw [hv]; exact State.advance_cores hovers _)
    · show (v.hubFault 0x0261 v.barDetail).bar.total = _
      rw [hbar, hvbar]
    · show (v.hubFault 0x0261 v.barDetail).bar.got = _
      rw [hbar, hvbar]
    · exact Recorded.of_faults (u := v) (by rw [hv]; exact State.advance_faults hovers _) (State.record_recorded v 0x0261 5 0 0 0 v.barDetail)

end Sys2Proof.Machine

/-! SUPPORT. The decision of a wave (R328, R330, R332). -/

namespace Sys2Proof.Machine

/-! ## A total arrives (R329) -/

section Arrival
variable {s : State} {i : Nat} {p : Packet} {g : Got}

/-- The module with one more total held. -/
def State.holding (s : State) (g : Got) : State := s.modBar fun b => { b with got := b.got ++ [g] }

/-- A total of the wave in progress that is the first of its origin. -/
theorem State.takeWave_first (htag : p.word 2 = s.bar.jobTag.toNat) (hbox : s.inBox p.waveOrigin = true) (hslot : modSlot p.waveOrigin ∈ s.bar.slots)
    (hg : g = { wave := p.waveNum, kind := p.waveKind, stage := p.waveStage, origin := p.waveOrigin, total := p.waveTotal })
    (hstage : g.stage = 0) (hwave : g.wave = s.bar.wave) (hphase : s.bar.phase = .parting) (hgoing : s.bar.going = true)
    (hgot : ∀ h ∈ s.bar.got, h.origin ≠ g.origin) : s.takeWave p = ((s.holding g).runStages 5).waves 4 := by
  have hrelay : s.relay p = s := by
    unfold State.relay
    rw [if_pos (.inl (by rw [hg] at hstage; exact hstage))]
  have hwants : s.bar.wants p.waveNum = true := by
    have hnum : p.waveNum = s.bar.wave := by rw [← hwave, hg]
    unfold Barrier.wants
    rw [hphase, if_neg (by decide), hnum, hgoing]
    simp
  have hkeep : s.keepTotal p = s.holding g := by
    unfold State.keepTotal
    rw [← hg]
    have hnone : (s.bar.got.any fun x => x.wave == g.wave && x.stage == g.stage && x.origin == g.origin) = false := by
      rw [List.any_eq_false]
      intro h hh
      simp [hgot h hh]
    dsimp only
    rw [hnone]
    rfl
  have hpasses : ¬(BitVec.ofNat 64 s.bar.jobTag.toNat ≠ BitVec.ofNat 64 (p.word 2) ∨ (!s.inBox p.waveOrigin) = true ∨
      (!s.bar.slots.contains (modSlot p.waveOrigin)) = true) := by
    rw [htag, hbox]
    simp [hslot]
  have hphase' : (s.holding g).bar.phase = .parting := hphase
  have hgoing' : (s.holding g).bar.going = true := hgoing
  unfold State.takeWave
  rw [if_neg hpasses, hrelay]
  dsimp only
  rw [hwants, hkeep, hphase', hgoing']
  rfl

/-- A wave packet that stands at the hub is taken in. -/
theorem execWaveContribution_hub (hitem : Stands s i .hub p) (hcls : p.cls = clsCtl) :
    exec (.waveContribution i) s = .next ((s.dropItem i).takeWave p) := by
  obtain ⟨t, hat, hpkt, hexit, hblocked, harrives, hdue⟩ := hitem
  simp only [exec, execWaveContribution]
  rw [hat]
  dsimp only
  rw [hexit, hpkt, hcls, hblocked, harrives, State.advance_past hdue]
  rfl

end Arrival

/-! ## The stages of a bench (R329) -/

section Stages
variable {s : State} (hstage : s.bar.stage = 0) (hgot : ∀ h ∈ s.bar.got, h.wave = s.bar.wave ∧ h.stage = 0)
include hstage hgot

theorem Barrier.arrived_all : s.bar.arrived = s.bar.got := by
  unfold Barrier.arrived
  rw [List.filter_eq_self]
  intro h hh
  obtain ⟨hwave, hst⟩ := hgot h hh
  simp [hwave, hst, hstage]

/-- A stage goes on waiting while a total is missing. -/
theorem State.runStages_waits (hfew : s.bar.got.length < s.bar.slots.length - 1) (n : Nat) : s.runStages n = s := by
  cases n with
  | zero => rfl
  | succ n =>
    unfold State.runStages
    dsimp only
    rw [if_pos]
    right
    rw [Barrier.arrived_all hstage hgot, hstage]
    exact hfew

/-- The last total of a job that lies in one bench brings the result. -/
theorem State.runStages_result (hbox : ∀ a < 3, s.bar.extent a = 1 ∧ s.boxPlace s.route.me a = 0) (hall : s.bar.got.length = s.bar.slots.length - 1) :
    s.runStages 5 = s.modBar fun b => { b with total := b.got.foldl (fun a h => a.add h.total) b.total, stage := 4 } := by
  obtain ⟨u, hu⟩ : ∃ u, u = s.modBar fun b => { b with total := b.got.foldl (fun a h => a.add h.total) b.total, stage := 1 } := ⟨_, rfl⟩
  have hfirst : s.runStages 5 = (u.sendStage).runStages 4 := by
    have harrived := Barrier.arrived_all hstage hgot
    have hcomb : (s.modBar fun b => { b with total := b.arrived.foldl (fun x g => x.add g.total) b.total, stage := b.stage + 1 }) = u := by
      rw [hu]
      unfold State.modBar
      dsimp only
      rw [harrived, hstage]
    have hgo : ¬(4 ≤ s.bar.stage ∨ s.bar.arrived.length < s.bar.expected s.bar.stage) := by
      rw [harrived, hstage, hall]
      simp [Barrier.expected]
    rw [← hcomb]
    exact if_neg hgo
  have hust : u.bar.stage = 1 := by rw [hu]; rfl
  have hubox : ∀ a < 3, u.bar.extent a = 1 ∧ u.boxPlace u.route.me a = 0 := by rw [hu]; exact hbox
  rw [hfirst, State.sendStage_idle (by omega) fun _ => hubox _ (by omega), State.runStages_bench 4 u (by omega) (by omega) (by omega) hubox
    (by rw [hu]; exact fun h hh => (hgot h hh).2), hu]
  rfl

end Stages

/-! ## The rows of R330 -/

/-- A module at the result of a PART wave whose totals are all of one kind, in a job of one bench. -/
structure AtResult (s : State) (x : Contrib) : Prop where
  kind : s.bar.kind = 1
  stage : s.bar.stage = 4
  going : s.bar.going = true
  total : s.bar.total = x
  bench : ∀ a < 3, s.bar.extent a = 1
  got : ∀ h ∈ s.bar.got, h.wave = s.bar.wave ∧ h.kind = 1

section Rows
variable {s : State} {x : Contrib} (h : AtResult s x)
include h

theorem AtResult.modules : s.bar.modules = s.bar.slots.length := by
  unfold Barrier.modules
  rw [h.bench 0 (by omega), h.bench 1 (by omega), h.bench 2 (by omega), Nat.mul_one, Nat.mul_one, Nat.mul_one]

theorem AtResult.next : s.bar.next = false := by
  unfold Barrier.next
  rw [List.any_eq_false]
  intro g hg
  simp [(h.got g hg).1]

/-- The decision in the order of the rows of R330. -/
theorem AtResult.decision (b : Bool) : ({ s.bar with going := b } : Barrier).decision =
    if x.passMin ≠ x.passMax ∨ x.mods ≠ s.bar.slots.length then .failed false true
    else if x.settled then .failed false false
    else if x.inj = x.sink then (if x.fail then .failed false false else .succeeded)
    else if x.drainx then .failed true false
    else .none := by
  have hodd : (s.bar.got.any fun g => g.wave == s.bar.wave && g.kind != s.bar.kind) = false := by
    rw [List.any_eq_false]
    intro g hg
    simp [(h.got g hg).2, h.kind]
  have hmods : ({ s.bar with going := b } : Barrier).modules = s.bar.slots.length := h.modules
  unfold Barrier.decision
  dsimp only
  rw [hodd, hmods, h.total]
  simp only [Bool.false_eq_true, or_false]

/-- A decision that was applied leaves nothing to settle. -/
theorem AtResult.waves {t : State} {ok u d : Bool} (ht : t.bar = { s.bar with going := false }) (hsettle : s.settle = t.commitPass ok u d) :
    s.waves 4 = t.commitPass ok u d := by
  obtain ⟨f, g, i, j, hbar⟩ := State.commitPass_bar t ok u d
  have hgoing : (t.commitPass ok u d).bar.going = false := by rw [hbar, ht]
  have hnext : (t.commitPass ok u d).bar.next = false := by
    rw [hbar, ht]
    exact h.next
  have hjoin : (t.commitPass ok u d).joinHeld = t.commitPass ok u d := by
    unfold State.joinHeld
    rw [hnext, Bool.and_false]
    rfl
  rw [State.waves, h.going, h.stage, hsettle, hjoin]
  exact State.waves_open 3 (.inr hgoing)

theorem AtResult.settle : s.settle = match ({ s.bar with going := false } : Barrier).decision with
    | .succeeded => (s.modBar fun b => { b with going := false }).commitPass true false false
    | .failed u d => (if d then (s.modBar fun b => { b with going := false }).recordNow 0x0262 (pack [(32, s.bar.wave.toNat), (16, s.route.me)])
        else s.modBar fun b => { b with going := false }).commitPass false u d
    | .none =>
      let s := s.modBar fun b => { b with going := false, fail := b.fail || b.failNext, failNext := false, contributed := false
                                          firstDone := some (b.firstDone.getD s.tick) }
      if s.bar.modules ≤ 1 then s.modBar fun b => { b with again := true } else s.launch 1 := by
  have hkind : ¬(s.modBar fun b => { b with going := false }).bar.kind = 2 := by
    show ¬s.bar.kind = 2
    rw [h.kind]
    decide
  exact if_neg hkind

/-- What a decision leaves in the barrier unit. -/
theorem AtResult.decides {t : State} {ok u d : Bool} (ht : t.bar = { s.bar with going := false }) (hnow : t.now = s.now)
    (hsettle : s.settle = t.commitPass ok u d) : (s.waves 4).bar.phase = (if toHold x u d then .held else .commit) ∧
      (s.waves 4).bar.passNum = (if ok then s.bar.passNum + 1 else s.bar.passNum) ∧ (s.waves 4).bar.lastFailed = !ok ∧
      (s.waves 4).bar.undrained = u ∧ (s.waves 4).bar.desync = d ∧ (s.waves 4).bar.due = s.now + 32 := by
  obtain ⟨f, g, i, j, hbar⟩ := State.commitPass_bar t ok u d
  rw [h.waves ht hsettle, hbar, hnow, ht]
  exact ⟨by rw [h.total], rfl, rfl, rfl, rfl, rfl⟩

theorem AtResult.decides_desync (hrow : x.passMin ≠ x.passMax ∨ x.mods ≠ s.bar.slots.length) : (s.waves 4).bar.phase = .held ∧
    (s.waves 4).bar.passNum = s.bar.passNum ∧ (s.waves 4).bar.lastFailed = true ∧ (s.waves 4).bar.undrained = false ∧ (s.waves 4).bar.desync = true := by
  have hsettle := h.settle
  rw [h.decision, if_pos hrow] at hsettle
  dsimp only at hsettle
  rw [if_pos rfl] at hsettle
  obtain ⟨hkept, -⟩ := State.recordNow_spec (s.modBar fun b => { b with going := false }) 0x0262 (pack [(32, s.bar.wave.toNat), (16, s.route.me)])
  obtain ⟨hphase, hpass, hfailed, hundrained, hdesync, -⟩ := h.decides (by rw [hkept]; rfl) (by rw [hkept]; rfl) hsettle
  exact ⟨by rw [hphase]; simp [toHold], hpass, hfailed, hundrained, hdesync⟩

section Agreed
variable (hpasses : x.passMin = x.passMax) (hmods : x.mods = s.bar.slots.length)
include hpasses hmods

theorem AtResult.decision_agreed (b : Bool) : ({ s.bar with going := b } : Barrier).decision =
    if x.settled then .failed false false
    else if x.inj = x.sink then (if x.fail then .failed false false else .succeeded)
    else if x.drainx then .failed true false
    else .none := by
  rw [h.decision, if_neg (by simp [hpasses, hmods])]

theorem AtResult.decides_failed (hrow : x.settled = true ∨ (x.inj = x.sink ∧ x.fail = true)) :
    (s.waves 4).bar.phase = (if x.hold || (x.fail && x.holdf) then .held else .commit) ∧ (s.waves 4).bar.passNum = s.bar.passNum ∧
      (s.waves 4).bar.lastFailed = true ∧ (s.waves 4).bar.undrained = false ∧ (s.waves 4).bar.desync = false := by
  have hsettle := h.settle
  have hdecision := h.decision_agreed hpasses hmods false
  have hfailed : ({ s.bar with going := false } : Barrier).decision = .failed false false := by
    rw [hdecision]
    rcases hrow with hset | ⟨hdrained, hfail⟩
    · rw [if_pos hset]
    · rw [if_pos hdrained, if_pos hfail, ite_self]
  rw [hfailed] at hsettle
  obtain ⟨hphase, hpass, hlast, hundrained, hdesync, -⟩ := h.decides (t := s.modBar fun b => { b with going := false }) rfl rfl hsettle
  exact ⟨by rw [hphase]; simp [toHold], hpass, hlast, hundrained, hdesync⟩

variable (hsettled : x.settled = false)
include hsettled

theorem AtResult.decides_succeeded (hdrained : x.inj = x.sink) (hfail : x.fail = false) :
    (s.waves 4).bar.phase = (if x.hold then .held else .commit) ∧ (s.waves 4).bar.passNum = s.bar.passNum + 1 ∧
      (s.waves 4).bar.lastFailed = false ∧ (s.waves 4).bar.undrained = false ∧ (s.waves 4).bar.desync = false ∧ (s.waves 4).bar.due = s.now + 32 := by
  have hsettle := h.settle
  rw [h.decision_agreed hpasses hmods, hsettled, if_neg Bool.false_ne_true, if_pos hdrained, hfail, if_neg Bool.false_ne_true] at hsettle
  obtain ⟨hphase, hrest⟩ := h.decides (t := s.modBar fun b => { b with going := false }) rfl rfl hsettle
  exact ⟨by rw [hphase]; simp [toHold, hfail], hrest⟩

variable (hdrained : x.inj ≠ x.sink)
include hdrained

theorem AtResult.decides_undrained (hdrainx : x.drainx = true) : (s.waves 4).bar.phase = .held ∧ (s.waves 4).bar.passNum = s.bar.passNum ∧
    (s.waves 4).bar.lastFailed = true ∧ (s.waves 4).bar.undrained = true ∧ (s.waves 4).bar.desync = false := by
  have hsettle := h.settle
  rw [h.decision_agreed hpasses hmods, hsettled, if_neg Bool.false_ne_true, if_neg hdrained, if_pos hdrainx] at hsettle
  obtain ⟨hphase, hpass, hlast, hundrained, hdesync, -⟩ := h.decides (t := s.modBar fun b => { b with going := false }) rfl rfl hsettle
  exact ⟨by rw [hphase]; simp [toHold], hpass, hlast, hundrained, hdesync⟩

/-- Without a decision the next wave is launched. -/
theorem AtResult.decides_none (hdrainx : x.drainx = false) (hslots : 2 ≤ s.bar.slots.length) (hphase : s.bar.phase = .parting) :
    (s.waves 4).bar.phase = .parting ∧ (s.waves 4).bar.passNum = s.bar.passNum ∧ (s.waves 4).bar.wave = s.bar.wave + 1 ∧ (s.waves 4).bar.going = true ∧
      (s.waves 4).bar.stage = 0 ∧ (s.waves 4).bar.got = [] ∧ (s.waves 4).bar.partWaves = s.bar.partWaves + 1 := by
  obtain ⟨v, hv⟩ : ∃ v, v = s.modBar fun b => { b with going := false, fail := b.fail || b.failNext, failNext := false, contributed := false,
                                                        firstDone := some (b.firstDone.getD s.tick) } := ⟨_, rfl⟩
  have hmany : ¬v.bar.modules ≤ 1 := by
    have hmods : v.bar.modules = s.bar.slots.length := by
      rw [hv]
      exact h.modules
    omega
  have hsettle := h.settle
  rw [h.decision_agreed hpasses hmods, hsettled, if_neg Bool.false_ne_true, if_neg hdrained, hdrainx, if_neg Bool.false_ne_true] at hsettle
  dsimp only at hsettle
  rw [← hv, if_neg hmany, State.launch_bench (s := v) (by rw [hv]; exact hslots) (by
    rw [hv]
    intro g hg
    have hwave : g.wave = s.bar.wave := (h.got g hg).1
    show g.wave ≠ s.bar.wave + 1
    simp [hwave])] at hsettle
  have hwaves : s.waves 4 = s.settle := by
    rw [State.waves, h.going, h.stage, hsettle]
    have hjoin : ∀ z : State, z.bar.phase = .parting → z.joinHeld = z := by
      intro z hz
      unfold State.joinHeld
      rw [hz]
      rfl
    rw [hjoin _ (by rw [hv]; exact hphase)]
    refine (if_pos rfl).trans (State.waves_open 3 (.inl ?_))
    exact Nat.zero_lt_succ 3
  rw [hwaves, hsettle, hv]
  exact ⟨hphase, rfl, rfl, rfl, rfl, rfl, rfl⟩

end Agreed

end Rows

/-- Settles O39: the last total of the stage brings the result, and R330 decides it row by row. -/
theorem wavesDecide : Obligations.WavesDecide := by
  unfold Obligations.WavesDecide
  intro s i p g x hitem hcls htag hbox hslot hg hstage hkind hwave hphase hgoing hbarkind hbarstage hbench hgot
  obtain ⟨v, hv⟩ : ∃ v, v = (s.dropItem i).holding g := ⟨_, rfl⟩
  have hrun : exec (.waveContribution i) s = .next ((v.runStages 5).waves 4) := by
    rw [execWaveContribution_hub hitem hcls, hv, State.takeWave_first (s := s.dropItem i) htag hbox hslot hg hstage hwave hphase hgoing fun h hh => (hgot h hh).2.2.2]
  have hbar : v.bar = { s.bar with got := s.bar.got ++ [g] } := by rw [hv]; rfl
  have hall : ∀ h ∈ s.bar.got ++ [g], h.wave = s.bar.wave ∧ h.stage = 0 ∧ h.kind = 1 := by
    intro h hh
    rcases List.mem_append.mp hh with hh | hh
    · obtain ⟨hw, hs, hk, -⟩ := hgot h hh
      exact ⟨hw.trans hwave, hs, hk⟩
    · rw [List.mem_singleton.mp hh]
      exact ⟨hwave, hstage, hkind⟩
  have hvstage : v.bar.stage = 0 := by rw [hbar]; exact hbarstage
  have hvgot : ∀ h ∈ v.bar.got, h.wave = v.bar.wave ∧ h.stage = 0 := by
    rw [hbar]
    exact fun h hh => ⟨(hall h hh).1, (hall h hh).2.1⟩
  have hvlen : v.bar.got.length = s.bar.got.length + 1 := by rw [hbar]; simp
  have hvslots : v.bar.slots = s.bar.slots := by rw [hbar]; rfl
  refine ⟨fun hfew => ?_, fun hlast hx => ?_⟩
  · rw [hrun, State.runStages_waits hvstage hvgot (by rw [hvlen, hvslots]; exact hfew), State.waves_open 4 (.inl (by omega)), hv]
    rfl
  · obtain ⟨w, hw⟩ : ∃ w, w = v.modBar fun b => { b with total := b.got.foldl (fun a h => a.add h.total) b.total, stage := 4 } := ⟨_, rfl⟩
    rw [State.runStages_result hvstage hvgot (by rw [hv]; exact hbench) (by rw [hvlen, hvslots]; exact hlast), ← hw] at hrun
    have hwbar : w.bar = { s.bar with got := s.bar.got ++ [g], total := x, stage := 4 } := by
      rw [hw, hx]
      unfold State.modBar
      dsimp only
      rw [hbar]
    have hwnow : w.now = s.now := by rw [hw, hv]; rfl
    have hresult : AtResult w x := by
      refine ⟨?_, ?_, ?_, ?_, ?_, ?_⟩ <;> rw [hwbar]
      · exact hbarkind
      · exact hgoing
      · exact fun a ha => (hbench a ha).1
      · exact fun h hh => ⟨(hall h hh).1, (hall h hh).2.2⟩
    have hwslots : w.bar.slots = s.bar.slots := by rw [hwbar]; rfl
    have hwpass : w.bar.passNum = s.bar.passNum := by rw [hwbar]
    refine ⟨_, hrun, fun hrow => ?_, fun hpasses hmods => ?_⟩
    · rw [← hwslots] at hrow
      rw [← hwpass]
      exact hresult.decides_desync hrow
    · rw [← hwslots] at hmods
      rw [← hwpass, ← hwnow]
      refine ⟨hresult.decides_failed hpasses hmods, fun hset hdr hf => hresult.decides_succeeded hpasses hmods hset hdr hf,
        fun hset hdr hd => hresult.decides_undrained hpasses hmods hset hdr hd, fun hset hdr hd => ?_⟩
      have hnone := hresult.decides_none hpasses hmods hset hdr hd (by rw [hwslots]; omega) (by rw [hwbar]; exact hphase)
      rw [hwbar] at hnone ⊢
      exact hnone

end Sys2Proof.Machine

/-! SUPPORT. The commands of BAR_CTRL (R294, R327, R336, R341, R342). -/

namespace Sys2Proof.Machine

/-- The module with the two RW bits of BAR_CTRL written. -/
def State.ctlWritten (s : State) (v : Word32) : State := s.modBar fun b => { b with hold := bit v.toNat 0, holdOnFail := bit v.toNat 1 }

/-- What the command bit n of BAR_CTRL asks for. -/
def State.ask (s : State) (n : Nat) : WriteRes × State :=
  if n = 2 then s.askAttach [] else if n = 3 then s.askDetach else if n = 4 then s.askAbort else if n = 5 then s.askRestart else s.askRestartFail

/-- The commands with their bits. -/
def ctlCommands (v : Word32) : List (Instr × Nat) :=
  [(Instr.attach v [], 2), (.detach v, 3), (.abort v, 4), (.restart v, 5), (.restartFail v, 6)]

/-! ## HOLD (R327) -/

section Hold
variable {s : State} {v : Word32}

theorem exec_hold (hbits : bits v.toNat 6 2 = 0) : exec (.hold v) s = .next (s.ctlWritten v).askHold := by
  simp only [exec, execHold]
  rw [if_pos hbits]
  unfold State.writeBarCtrl
  dsimp only
  rw [if_pos hbits]
  rfl

/-- A wave launched in a bench where no total for it is held. -/
theorem State.launchWave_bench {kind : Nat} (hslots : 2 ≤ s.bar.slots.length) (hgot : ∀ g ∈ s.bar.got, g.wave ≠ s.bar.wave + 1) :
    ∃ t, s.launchWave kind = t ∧ t.cores = s.cores ∧ t.bar = { s.bar with
      wave := s.bar.wave + 1, kind := kind, going := true, stage := 0, total := s.contribution kind, contributed := kind == 1
      launchTick := s.tick, partWaves := if kind = 1 then s.bar.partWaves + 1 else s.bar.partWaves, again := false, rehold := false, got := [] } := by
  have hlaunch := State.launch_bench (kind := kind) hslots hgot
  have hopen : s.launchWave kind = s.launch kind := by
    refine State.waves_open 4 (.inl ?_)
    rw [hlaunch]
    exact Nat.zero_lt_succ 3
  refine ⟨_, rfl, ?_, ?_⟩ <;> rw [hopen, hlaunch]

end Hold

/-! ## Refusals (R342) -/

section Commands
variable {s : State} {v : Word32} {c : Instr} {n : Nat} (hc : (c, n) ∈ ctlCommands v)
include hc

theorem ctlCommands_bit : 2 ≤ n ∧ n ≤ 6 := by
  simp only [ctlCommands, List.mem_cons, List.not_mem_nil, or_false, Prod.mk.injEq] at hc
  omega

variable (hbits : bits v.toNat 6 2 = 2 ^ (n - 2))
include hbits

theorem exec_ctlCommand : exec c s = .next (s.writeBarCtrl v []).2 := by
  obtain ⟨hbit, -, -, -⟩ := writeBarCtrl_one (s := s) (bad := []) rfl (ctlCommands_bit hc) hbits rfl
  simp only [ctlCommands, List.mem_cons, List.not_mem_nil, or_false, Prod.mk.injEq] at hc
  rcases hc with ⟨rfl, rfl⟩ | ⟨rfl, rfl⟩ | ⟨rfl, rfl⟩ | ⟨rfl, rfl⟩ | ⟨rfl, rfl⟩ <;>
    simp only [exec, execAttach, execDetach, execAbort, execRestart, execRestartFail] <;> rw [if_pos hbit]

theorem exec_ctlCommand_done (hdone : ((s.ctlWritten v).ask n).1 = .done) : exec c s = .next ((s.ctlWritten v).ask n).2 := by
  obtain ⟨-, hrun, -, -⟩ := writeBarCtrl_one (s := s) (bad := []) (r := (s.ctlWritten v).ask n) rfl (ctlCommands_bit hc) hbits rfl
  rw [exec_ctlCommand hc hbits, hrun hdone]

theorem exec_ctlCommand_refused (hrefused : ((s.ctlWritten v).ask n).1 = .refused 0x0264) :
    exec c s = .next (State.record s 0x0264 5 0 0 0 (pack [(16, s.route.me), (32, s.bar.wave.toNat)])) := by
  obtain ⟨-, -, hrun, -⟩ := writeBarCtrl_one (s := s) (bad := []) (r := (s.ctlWritten v).ask n) rfl (ctlCommands_bit hc) hbits rfl
  rw [exec_ctlCommand hc hbits, hrun hrefused]
  rfl

end Commands

/-! ## ATTACH (R294, R341) -/

/-- The core groups of a job that are powered stay as they are: only their bits of PWR_OFF_REQ are cleared. -/
theorem State.powerGroups_kept : ∀ (gs : List Nat) (s : State), (∀ g ∈ gs, s.group g ≠ .off) →
    ∃ w, gs.foldl (fun (s : State) g => (s.clearOffReq g).powerGroup g (!([] : List Nat).contains g)) s = { s with power := { s.power with offReq := w } }
  | [], s, _ => ⟨s.power.offReq, rfl⟩
  | g :: gs, s, hon => by
    have hkept : (s.clearOffReq g).powerGroup g (!([] : List Nat).contains g) = s.clearOffReq g := by
      have hg : (s.clearOffReq g).group g ≠ .off := hon g (List.mem_cons_self ..)
      exact if_pos (by simp [hg])
    obtain ⟨w, hw⟩ := State.powerGroups_kept gs (s.clearOffReq g) fun x hx => hon x (List.mem_cons_of_mem _ hx)
    refine ⟨w, ?_⟩
    rw [List.foldl_cons, hkept, hw]
    rfl

/-- A core as it joins a job: attached, with no handle open and no reply expected. -/
structure Core.Joined (c : Core) : Prop where
  attached : c.ctl.attached = true
  handles : c.chan.handles = []
  replies : c.chan.replies = []

theorem Core.attach_joined (c : Core) : c.attach.Joined := ⟨rfl, rfl, rfl⟩

theorem Core.resume_mem (c : Core) (t : Nat) : (c.resume t).mem = c.mem := by
  unfold Core.resume
  split <;> rfl

theorem State.joinCore_core (s : State) (k j : Nat) :
    (((s.wakeCore k).modCore k Core.attach).core j).mem = (s.core j).mem ∧
      (j = k ∨ (s.core j).Joined → (((s.wakeCore k).modCore k Core.attach).core j).Joined) := by
  by_cases hj : j = k
  · subst hj
    rw [State.core_modCore_same]
    refine ⟨?_, fun _ => Core.attach_joined _⟩
    show ((s.wakeCore j).core j).mem = _
    rw [State.wakeCore_core]
    split
    · exact Core.resume_mem ..
    · rfl
  · rw [State.core_modCore_other _ _ _ _ hj, State.wakeCore_core_other hj]
    exact ⟨rfl, fun h => h.resolve_left hj⟩

/-- The cores that a job names join it, each with its memories. -/
theorem State.joinCores : ∀ (l : List Nat) (s : State), BarKept s (l.foldl (fun (s : State) k => (s.wakeCore k).modCore k Core.attach) s) ∧
    ∀ j, ((l.foldl (fun (s : State) k => (s.wakeCore k).modCore k Core.attach) s).core j).mem = (s.core j).mem ∧
      (j ∈ l ∨ (s.core j).Joined → ((l.foldl (fun (s : State) k => (s.wakeCore k).modCore k Core.attach) s).core j).Joined)
  | [], s => ⟨BarKept.refl s, fun j => ⟨rfl, fun h => h.resolve_left List.not_mem_nil⟩⟩
  | k :: l, s => by
    obtain ⟨hkept, hcores⟩ := State.joinCores l ((s.wakeCore k).modCore k Core.attach)
    rw [List.foldl_cons]
    refine ⟨((State.wakeCore_kept s k).1.trans (BarKept.modCore ..)).trans hkept, fun j => ?_⟩
    obtain ⟨hmem, hjoined⟩ := hcores j
    obtain ⟨hmem', hjoined'⟩ := State.joinCore_core s k j
    refine ⟨hmem.trans hmem', fun h => hjoined ?_⟩
    rcases h with h | h
    · rcases List.mem_cons.mp h with h | h
      · exact .inr (hjoined' (.inl h))
      · exact .inl h
    · exact .inr (hjoined' (.inr h))

/-- The barrier unit of a job that begins (R341). -/
def Barrier.begun (b : Barrier) : Barrier :=
  { b with wave := 0, lastFailed := false, undrained := false, desync := false, fail := false, failNext := false
           contributed := false, drainx := false, settled := false, firstDone := none, going := false, again := false
           rehold := false, waitTwin := false, kind := 2, inj := 0, sink := 0 }

/-- The counts, the tickets and the outputs of a job that begins. -/
def State.jobCleared (s : State) : State :=
  ({ s with faults := { s.faults with attempt := 0 }, twin := { s.twin with got := [], differs := false }
            board := { s.board with driven := none } } : State).modHost fun h =>
    { h with listClosed := none, tickets := [], res := [], senders := [] }

/-- The module in HELD at the start of its job, before the first HOLD wave. -/
def State.attachStart (s : State) : State :=
  ((s.bar.named.foldl (fun (s : State) k => (s.wakeCore k).modCore k Core.attach) s).modBar Barrier.begun).jobCleared.journalOpen.enterHeld

theorem State.attach_eq (s : State) : s.attach =
    if !s.attachStart.bar.hold || s.attachStart.bar.next then s.attachStart.launchWave 2 else s.attachStart := by
  unfold State.attach State.attachStart State.jobCleared Barrier.begun
  dsimp only

theorem State.enterHeld_spec (s : State) : s.enterHeld.bar = { s.bar with phase := .held } ∧ s.enterHeld.faults = s.faults ∧
    s.enterHeld.host.tickets = s.host.tickets ∧ s.enterHeld.cores = s.cores := by
  obtain ⟨kind, body, hevent⟩ : ∃ kind body, s.enterHeld = (s.modBar fun b => { b with phase := .held }).notify kind body := ⟨_, _, rfl⟩
  obtain ⟨hlogged, -, -⟩ := Logged.notify (s.modBar fun b => { b with phase := .held }) kind body
  have hnotify := State.notify_eq (s.modBar fun b => { b with phase := .held }) kind body
  rw [hevent]
  refine ⟨?_, ?_, ?_, ?_⟩
  · rw [hnotify]
    rfl
  · rw [hnotify]
    rfl
  · rw [hlogged]
    rfl
  · rw [hnotify]
    rfl

theorem State.attachStart_spec (s : State) : s.attachStart.bar.phase = .held ∧ s.attachStart.bar.wave = 0 ∧ s.attachStart.bar.lastFailed = false ∧
    s.attachStart.bar.undrained = false ∧ s.attachStart.bar.desync = false ∧ s.attachStart.bar.passNum = s.bar.passNum ∧
    s.attachStart.bar.hold = s.bar.hold ∧ s.attachStart.faults.attempt = 0 ∧ s.attachStart.host.tickets = [] ∧
    ∀ k ∈ s.bar.named, (s.attachStart.core k).Joined ∧ (s.attachStart.core k).mem = (s.core k).mem := by
  obtain ⟨hkept, hcores⟩ := State.joinCores s.bar.named s
  obtain ⟨w, hw⟩ : ∃ w, w = s.bar.named.foldl (fun (s : State) k => (s.wakeCore k).modCore k Core.attach) s := ⟨_, rfl⟩
  rw [← hw] at hkept hcores
  obtain ⟨u, hu⟩ : ∃ u, u = (w.modBar Barrier.begun).jobCleared := ⟨_, rfl⟩
  have hstart : s.attachStart = u.journalOpen.enterHeld := by
    rw [hu, hw]
    rfl
  obtain ⟨hlogged, hattempt, -, hbar⟩ := Logged.journalOpen u
  obtain ⟨hheld, hfaults, htickets, hheldCores⟩ := State.enterHeld_spec u.journalOpen
  have hubar : u.bar = Barrier.begun { s.bar with inj := w.bar.inj, sink := w.bar.sink, fail := w.bar.fail, failNext := w.bar.failNext } := by
    rw [hu]
    show Barrier.begun w.bar = _
    rw [hkept.2]
  have hcore : ∀ k, s.attachStart.core k = w.core k := by
    intro k
    have hsame : s.attachStart.cores = w.cores := by
      rw [hstart, hheldCores, hlogged, hu]
      rfl
    unfold State.core
    rw [hsame]
  rw [hstart] at hcore ⊢
  rw [hheld, hbar, hubar]
  refine ⟨rfl, rfl, rfl, rfl, rfl, rfl, rfl, ?_, ?_, fun k hk => ?_⟩
  · rw [hfaults, hattempt, hu]
    rfl
  · rw [htickets, hlogged, hu]
    rfl
  · rw [hcore k]
    exact ⟨(hcores k).2 (.inl hk), (hcores k).1⟩

theorem State.askAttach_on {s : State} (hphase : s.bar.phase = .detached) (hgood : s.attachBad = false) (hplaceable : s.placeable = true)
    (hon : ∀ k ∈ s.bar.named, s.group (groupOf k) ≠ .off) :
    ∃ w, s.askAttach [] = (.done, ({ s with power := { s.power with offReq := w } } : State).attach) := by
  obtain ⟨w, hw⟩ := State.powerGroups_kept ((s.bar.named.map groupOf).dedup) s fun g hg => by
    rw [List.mem_dedup, List.mem_map] at hg
    obtain ⟨k, hk, rfl⟩ := hg
    exact hon k hk
  have hplaceable' : ({ s with power := { s.power with offReq := w } } : State).placeable = true := hplaceable
  refine ⟨w, ?_⟩
  unfold State.askAttach
  dsimp only
  rw [hphase, if_neg (by simp), hgood, if_neg Bool.false_ne_true, hw, hplaceable']
  rfl

/-! ## DETACH and ABORT (R341) -/

/-- A core with no operation, access or wait in flight. -/
def Core.AtRest (c : Core) : Prop :=
  c.mx.ops = [] ∧ c.vx.runs = [] ∧ c.vx.loads = [] ∧ c.dx.ops = [] ∧ c.nx.ops = [] ∧ c.sx.acc = [] ∧ c.sx.wait = none

/-- An abort of cores at rest spoils nothing. -/
theorem State.abortCores_rest : ∀ (l : List Nat) (s : State), (∀ k ∈ l, (s.core k).ctl.attached = true ∧ (s.core k).AtRest) →
    l.foldl State.abortCore s = { s with cores := (l.foldl State.abortCore s).cores } ∧ (∀ j, (l.foldl State.abortCore s).core j = s.core j) ∧
      ∀ j ∈ s.attachedCores, j ∈ (l.foldl State.abortCore s).attachedCores
  | [], _, _ => ⟨rfl, fun _ => rfl, fun _ hj => hj⟩
  | k :: l, s, hrest => by
    obtain ⟨hattached, hk⟩ := hrest k (List.mem_cons_self ..)
    have hstep : s.abortCore k = s.modCore k fun c => c := State.abortCore_idle hk
    have hcore : ∀ j, (s.modCore k fun c => c).core j = s.core j := by
      intro j
      by_cases hj : j = k
      · rw [hj, State.core_modCore_same]
      · exact State.core_modCore_other _ _ _ _ hj
    obtain ⟨hkept, hcores, hmem⟩ := State.abortCores_rest l (s.modCore k fun c => c) fun j hj => by
      rw [hcore]
      exact hrest j (List.mem_cons_of_mem _ hj)
    rw [List.foldl_cons, hstep]
    refine ⟨?_, fun j => (hcores j).trans (hcore j), fun j hj => hmem j (State.attached_modCore _ hj fun _ => hattached)⟩
    conv_lhs => rw [hkept]
    rfl

/-- What leaving a job does, at a module whose cores and pass are those of s. -/
theorem State.leaveJob_left {s u : State} (reason : Nat) (hoff : u.jrnl.on = false) (hpass : u.bar.passNum = s.bar.passNum)
    (hcores : ∀ k, u.core k = s.core k) (hattached : ∀ k ∈ s.attachedCores, k ∈ u.attachedCores) :
    (u.leaveJob reason).bar.phase = .detached ∧ (u.leaveJob reason).bar.going = false ∧ (u.leaveJob reason).bar.got = [] ∧
      (u.leaveJob reason).bar.passNum = s.bar.passNum ∧ (u.leaveJob reason).fin.runs = [] ∧ (u.leaveJob reason).host.tickets = [] ∧
      (u.leaveJob reason).host.res = [] ∧ (u.leaveJob reason).host.senders = [] ∧
      ∀ k, k ∈ s.attachedCores → ((u.leaveJob reason).core k).ctl.attached = false ∧ (∀ e ∈ allEngines, ((u.leaveJob reason).core k).stream e = {}) ∧
        (∀ i, (((u.leaveJob reason).core k).handle i).state = .closed) ∧ ((u.leaveJob reason).core k).mem = (s.core k).mem := by
  obtain ⟨t, ht, -, hbar, hruns, htickets, hres, hsenders, hcore⟩ := State.leaveJob_off (n := reason) hoff
  rw [ht, hbar]
  refine ⟨rfl, rfl, rfl, hpass, hruns, htickets, hres, hsenders, fun k hk => ?_⟩
  rw [hcore, if_pos (hattached k hk), hcores]
  exact ⟨rfl, fun e _ => by cases e <;> rfl, Core.detach_handle _, rfl⟩

/-! ## RESTART and RESTART_FAIL (R342) -/

theorem State.restart_spec {s : State} {kind : Nat} (hslots : 2 ≤ s.bar.slots.length) (hgot : ∀ g ∈ s.bar.got, g.wave ≠ s.bar.wave + 1) :
    ∃ t, s.restart kind = t ∧ t.cores = s.cores ∧ t.bar.phase = (if kind = 1 then .parting else .held) ∧ t.bar.wave = s.bar.wave + 1 ∧
      t.bar.kind = kind ∧ t.bar.going = true ∧ t.bar.stage = 0 ∧ t.bar.settled = s.bar.settled ∧
      (kind = 1 → s.bar.settled = true → t.bar.total.settled = true ∧ t.bar.total.fail = true) := by
  unfold State.restart
  by_cases hkind : kind = 1
  · subst hkind
    obtain ⟨t, ht, hcores, hbar⟩ := State.launchWave_bench (kind := 1) (s := s.modBar fun b =>
      { b with phase := .parting, going := false, fail := b.fail || b.failNext, failNext := false }) hslots hgot
    refine ⟨t, ht, hcores, ?_⟩
    rw [hbar]
    refine ⟨rfl, rfl, rfl, rfl, rfl, rfl, fun _ hsettled => ⟨hsettled, ?_⟩⟩
    show ((s.bar.fail || s.bar.failNext) || s.bar.drainx || s.bar.settled) = true
    rw [hsettled, Bool.or_true]
  · obtain ⟨t, ht, hcores, hbar⟩ := State.launchWave_bench (kind := kind) (s := s.modBar fun b => { b with phase := .held, going := false }) hslots hgot
    simp only [if_neg hkind]
    refine ⟨t, ht, hcores, ?_⟩
    rw [hbar]
    exact ⟨rfl, rfl, rfl, rfl, rfl, rfl, fun h => absurd h hkind⟩

/-- Settles O41: each command in its phase is one change of the module, and in any other one record. Tickets dropped at ATTACH, DETACH and ABORT are
the model's reading (log 27), as are 0x0264 for an ATTACH out of its phase and the HOLD that waits for the wave in progress (log 28). -/
theorem jobCommands : Obligations.JobCommands := by
  unfold Obligations.JobCommands
  intro s v b hb
  have hz : s.ctlWritten v = { s with bar := b } := by
    rw [hb]
    rfl
  refine ⟨fun hbits => ⟨fun hphase => ?_, fun hphase hgoing => ?_, fun hphase hgoing hslots hgot => ?_⟩, fun c n hc hbits h2 h3 h4 h5 h6 => ?_,
    fun hbits hphase hgood hplaceable hon => ?_, fun n c hcase hbits hoff => ?_, fun n c hcase hbits hphase hslots hgot => ?_⟩
  · rw [exec_hold hbits, ← hz]
    unfold State.askHold
    rw [if_pos (by exact hphase)]
  · have hz' : (s.ctlWritten v).bar.phase = .held := hphase
    have hgoing' : (s.ctlWritten v).bar.going = true := hgoing
    rw [exec_hold hbits]
    unfold State.askHold
    rw [hz', if_neg (by simp), hgoing', if_pos rfl, hz]
    rfl
  · have hz' : (s.ctlWritten v).bar.phase = .held := hphase
    have hgoing' : (s.ctlWritten v).bar.going = false := hgoing
    obtain ⟨t, ht, hcores, hbar⟩ := State.launchWave_bench (s := s.ctlWritten v) (kind := 2) hslots hgot
    refine ⟨t, ?_, hcores, ?_⟩
    · rw [exec_hold hbits]
      unfold State.askHold
      rw [hz', if_neg (by simp), hgoing', if_neg Bool.false_ne_true, ht]
    · rw [hbar]
      exact ⟨hphase, rfl, rfl, rfl, rfl⟩
  · refine exec_ctlCommand_refused hc hbits ?_
    have hcase : n = 2 ∨ n = 3 ∨ n = 4 ∨ n = 5 ∨ n = 6 := by
      have hbit := ctlCommands_bit hc
      omega
    rcases hcase with rfl | rfl | rfl | rfl | rfl
    · exact congrArg Prod.fst (if_pos (h2 rfl) : (s.ctlWritten v).askAttach [] = _)
    · exact congrArg Prod.fst (if_neg (not_or.mpr (h3 rfl)) : (s.ctlWritten v).askDetach = _)
    · exact congrArg Prod.fst (if_pos (h4 rfl) : (s.ctlWritten v).askAbort = _)
    · exact congrArg Prod.fst (if_neg (h5 rfl) : (s.ctlWritten v).askRestart = _)
    · exact congrArg Prod.fst (if_neg (not_and_or.mpr (h6 rfl)) : (s.ctlWritten v).askRestartFail = _)
  · obtain ⟨w, hask⟩ := State.askAttach_on (s := s.ctlWritten v) hphase hgood hplaceable hon
    obtain ⟨u, hu⟩ : ∃ u : State, u = { s.ctlWritten v with power := { s.power with offReq := w } } := ⟨_, rfl⟩
    obtain ⟨hheld, hwave, hlast, hundrained, hdesync, hpass, hhold, hattempt, htickets, hcores⟩ := State.attachStart_spec u
    have hubar : u.bar = (s.ctlWritten v).bar := by rw [hu]
    have hask' : (s.ctlWritten v).ask 2 = (.done, u.attach) := by
      rw [hu]
      exact hask
    have hrun := exec_ctlCommand_done (s := s) (v := v) (c := .attach v []) (n := 2) (by simp [ctlCommands]) hbits (by rw [hask'])
    rw [hask', State.attach_eq] at hrun
    refine ⟨u.attachStart, ?_, hheld, hwave, hlast, hundrained, hdesync, by rw [hpass, hubar]; rfl, hattempt, htickets, fun k hk => ?_⟩
    · rw [hrun, hhold, hubar]
      show Host.Outcome.next (if (!bit v.toNat 0 || u.attachStart.bar.next) = true then _ else _) = _
      cases bit v.toNat 0 <;> cases u.attachStart.bar.next <;> rfl
    · obtain ⟨⟨hattached, hhandles, hreplies⟩, hmem⟩ := hcores k (by rw [hubar]; exact hk)
      exact ⟨hattached, hhandles, hreplies, hmem.trans (by rw [hu]; rfl)⟩
  · rcases hcase with ⟨rfl, rfl, hphase⟩ | ⟨rfl, rfl, hphase, hrest⟩
    · have hask : (s.ctlWritten v).ask 3 = (.done, (s.ctlWritten v).leaveJob 1) := if_pos hphase
      have hrun := exec_ctlCommand_done (s := s) (v := v) (c := .detach v) (n := 3) (by simp [ctlCommands]) hbits (by rw [hask])
      rw [hask] at hrun
      obtain ⟨hdetached, hgoing, hgot, hpass, hruns, htickets, hres, hsenders, hcores⟩ :=
        State.leaveJob_left (s := s) (u := s.ctlWritten v) 1 hoff rfl (fun _ => rfl) fun _ hk => hk
      exact ⟨_, hrun, hdetached, hgoing, hgot, hpass, hruns, htickets, hres, hsenders, fun h => absurd h (by decide), hcores⟩
    · obtain ⟨hkept, hsame, hmem⟩ := State.abortCores_rest s.attachedCores (s.ctlWritten v) hrest
      obtain ⟨w, hw⟩ : ∃ w, w = s.attachedCores.foldl State.abortCore (s.ctlWritten v) := ⟨_, rfl⟩
      rw [← hw] at hkept hsame hmem
      have hask : (s.ctlWritten v).ask 4 = (.done, (w.hubFault 0x0265 w.barDetail).leaveJob 2) := by
        rw [hw]
        exact if_neg hphase
      have hrun := exec_ctlCommand_done (s := s) (v := v) (c := .abort v) (n := 4) (by simp [ctlCommands]) hbits (by rw [hask])
      rw [hask] at hrun
      have hfault := State.record_kept w 0x0265 5 0 0 0 w.barDetail
      have hcoresKept : (w.hubFault 0x0265 w.barDetail).cores = w.cores := State.record_cores ..
      have hjrnl : (w.hubFault 0x0265 w.barDetail).jrnl.on = false := by
        unfold State.hubFault
        rw [hfault, hkept]
        exact hoff
      have hpassKept : (w.hubFault 0x0265 w.barDetail).bar.passNum = s.bar.passNum := by
        rw [(BarKept.hubFault w 0x0265 w.barDetail).2, hkept]
        rfl
      obtain ⟨hdetached, hgoing, hgot, hpass, hruns, htickets, hres, hsenders, hcores⟩ :=
        State.leaveJob_left (s := s) (u := w.hubFault 0x0265 w.barDetail) 2 hjrnl hpassKept
          (fun k => by unfold State.core; rw [hcoresKept]; exact hsame k)
          (fun k hk => by unfold State.attachedCores; rw [hcoresKept]; exact hmem k hk)
      refine ⟨_, hrun, hdetached, hgoing, hgot, hpass, hruns, htickets, hres, hsenders, fun _ => ?_, hcores⟩
      obtain ⟨t, ht, hfaults, -⟩ := State.leaveJob_off (n := 2) hjrnl
      have hrec : Recorded w (w.hubFault 0x0265 w.barDetail) 0x0265 := State.record_recorded ..
      have hrec' : Recorded s (w.hubFault 0x0265 w.barDetail) 0x0265 := Recorded.of_faults (u := w) (by rw [hkept]; rfl) hrec
      unfold Recorded at hrec' ⊢
      rw [ht, hfaults]
      exact hrec'
  · rcases hcase with ⟨rfl, rfl⟩ | ⟨rfl, rfl, hkind⟩
    · obtain ⟨t, ht, hcores, htphase, hwave, htkind, hgoing, hstage, hsettled, -⟩ := State.restart_spec (s := s.ctlWritten v) (kind := s.bar.kind) hslots hgot
      have hask : (s.ctlWritten v).ask 5 = (.done, t) := by
        rw [← ht]
        exact if_pos hphase
      have hrun := exec_ctlCommand_done (s := s) (v := v) (c := .restart v) (n := 5) (by simp [ctlCommands]) hbits (by rw [hask])
      rw [hask] at hrun
      exact ⟨t, hrun, hcores, htphase, hwave, htkind, hgoing, hstage, hsettled.trans (Bool.or_false _).symm, fun h => absurd h (by decide)⟩
    · obtain ⟨t, ht, hcores, htphase, hwave, htkind, hgoing, hstage, hsettled, htotal⟩ :=
        State.restart_spec (s := (s.ctlWritten v).modBar fun b => { b with settled := true }) (kind := 1) hslots hgot
      have hask : (s.ctlWritten v).ask 6 = (.done, t) := by
        rw [← ht]
        exact if_pos (show s.bar.phase = .lost ∧ s.bar.kind = 1 from ⟨hphase, hkind⟩)
      have hrun := exec_ctlCommand_done (s := s) (v := v) (c := .restartFail v) (n := 6) (by simp [ctlCommands]) hbits (by rw [hask])
      rw [hask] at hrun
      exact ⟨t, hrun, hcores, by rw [htphase, hkind], hwave, htkind.trans hkind.symm, hgoing, hstage, hsettled.trans (Bool.or_true _).symm, fun _ => htotal rfl rfl⟩

end Sys2Proof.Machine
